-- ==== Sys2Proof/Word.lean ====
section
/-! DEFINITION. The word types of the machine, and association lists in one canonical form
(keys strictly rising, no entry equal to the default of an unlisted key), which hold every
sparse piece of state: memory, register files, tables. -/

namespace Sys2Proof

/-- One byte of memory. -/
abbrev Byte := BitVec 8

/-- A 32-bit register word. -/
abbrev Word := BitVec 32

/-- A 64-bit pointer, pair or device register. -/
abbrev DWord := BitVec 64

/-- The 128 bytes of one cache line, byte `i` in bits `8*i+7 : 8*i`. -/
abbrev Line := BitVec 1024

/-- One bit per byte of a 128 B line. -/
abbrev ByteMask := BitVec 128

/-- Sparse data by key, in rising order of keys. -/
abbrev AMap (α : Type) := List (Nat × α)

/-- The value at `k`, or `d` where `k` is not listed. -/
def amapGet {α : Type} (d : α) : AMap α → Nat → α
  | [], _ => d
  | (k', v) :: m, k => if k' = k then v else if k < k' then d else amapGet d m k

/-- The value at `k`, if listed. -/
def amapFind? {α : Type} : AMap α → Nat → Option α
  | [], _ => none
  | (k', v) :: m, k => if k' = k then some v else if k < k' then none else amapFind? m k

/-- Remove the entry of `k`. -/
def amapErase {α : Type} : AMap α → Nat → AMap α
  | [], _ => []
  | (k', v) :: m, k => if k' = k then m else if k < k' then (k', v) :: m else (k', v) :: amapErase m k

/-- Put `v` at `k`, keeping the keys in rising order. -/
def amapInsert {α : Type} : AMap α → Nat → α → AMap α
  | [], k, v => [(k, v)]
  | (k', v') :: m, k, v =>
    if k' = k then (k, v) :: m
    else if k < k' then (k, v) :: (k', v') :: m
    else (k', v') :: amapInsert m k v

/-- Put `v` at `k` in a map whose unlisted keys read as `d`: writing `d` removes the entry. -/
def amapSet {α : Type} [DecidableEq α] (d : α) (m : AMap α) (k : Nat) (v : α) : AMap α :=
  if v = d then amapErase m k else amapInsert m k v

/-- Change every listed value. -/
def amapMap {α : Type} (f : Nat → α → α) (m : AMap α) : AMap α := m.map fun kv => (kv.1, f kv.1 kv.2)

/-- Keep the listed entries that satisfy `p`. -/
def amapFilter {α : Type} (p : Nat → α → Bool) (m : AMap α) : AMap α := m.filter fun kv => p kv.1 kv.2

/-- The listed keys. -/
def amapKeys {α : Type} (m : AMap α) : List Nat := m.map (·.1)

/-- The keys rise strictly, starting above `lo`. -/
def amapSorted {α : Type} : Option Nat → AMap α → Bool
  | _, [] => true
  | none, (k, _) :: m => amapSorted (some k) m
  | some l, (k, _) :: m => decide (l < k) && amapSorted (some k) m

/-- Canonical form over the default `d`. -/
def amapWf {α : Type} [DecidableEq α] (d : α) (m : AMap α) : Bool :=
  amapSorted none m && m.all (fun kv => decide (kv.2 ≠ d))

/-- Memory: bytes by address. -/
abbrev Mem := AMap Byte

/-- The low `n` bits of `x`, as a number. -/
def lowBits (n x : Nat) : Nat := x % 2 ^ n

/-- Bits `hi : lo` of `x`. -/
def bitField (hi lo x : Nat) : Nat := x / 2 ^ lo % 2 ^ (hi + 1 - lo)

/-- Ceiling division. -/
def ceilDiv (a b : Nat) : Nat := (a + b - 1) / b

end Sys2Proof
end

