-- ==== Sys2Proof/Syntax.lean ====
section
/-! DEFINITION. The instructions and steps of the part: one constructor of `Instr` per row of
spec/opcode_table.json. Encoded instructions carry the fields of their word (R150, R154), with the
modifiers already read into names; the remaining rows are the steps of the part that no word
encodes (messages, engine steps, host and management events), which carry what identifies them and
the choice that the manual leaves to the part or to the outside world. -/

namespace Sys2Proof

/-- Word length, LEN (R147). -/
inductive Len where
  | w64 | w96 | w128
  deriving DecidableEq, Repr

/-- A source field (Table 09-2). -/
inductive Src where
  | v (n : BitVec 8)
  | s (n : BitVec 6)
  | y (n : BitVec 2)
  | imm (i : BitVec 8)
  | imm32
  deriving DecidableEq, Repr

/-- The base word (Table 09-1) less OPC and M, with IMM32. -/
structure Ops where
  len : Len
  rb  : Bool
  g   : BitVec 3
  gn  : Bool
  nw  : Bool
  d   : BitVec 8
  a   : Src
  b   : Src
  c   : Src
  imm : BitVec 32
  deriving DecidableEq, Repr

/-- Integer types (Table 09-3). -/
inductive IntTy where
  | b32 | i8 | i16 | i32 | i64 | n8 | n16 | n32 | n64
  deriving DecidableEq, Repr

/-- Rounding modes (Table 09-4). -/
inductive Rnd where
  | rne | rtz | rdn | rup | rna | dyn
  deriving DecidableEq, Repr

/-- Scopes (Table 09-6, R112), from narrowest to widest. -/
inductive Scope where
  | group | team | cluster | die | device | system
  deriving DecidableEq, Repr

/-- The X word of the memory class (Table 09-5). -/
structure MemX where
  e     : Src
  d2    : BitVec 8
  d2e   : Bool
  scope : Scope
  hint  : BitVec 2
  deriving DecidableEq, Repr

/-- The fields of a stream word (R245, Tables 09-1 and 09-7), less OPC and M. -/
structure SOps where
  d     : BitVec 8
  a     : Src
  b     : Src
  c     : Src
  imm   : BitVec 32
  cid   : BitVec 6
  v0    : Bool
  pred0 : BitVec 6
  v1    : Bool
  pred1 : BitVec 6
  slot  : BitVec 3
  ru    : Bool
  cl    : Bool
  deriving DecidableEq, Repr

/-- Compare types of ISETP (Table 09-10). -/
inductive CmpTy where
  | i32 | n32 | i64 | n64 | i16x2 | n16x2
  deriving DecidableEq, Repr

/-- How a compare is combined with pQ (Table 10-6). -/
inductive CmpOp where
  | none | and | or | xor
  deriving DecidableEq, Repr

/-- Comparisons (Table 10-6); `num` and `nan` for FSETP only. -/
inductive Cmp where
  | eq | ne | lt | le | gt | ge | num | nan
  deriving DecidableEq, Repr

/-- The vector floating-point types (R160). -/
inductive FTy where
  | f32 | f16x2 | bf16x2
  deriving DecidableEq, Repr

/-- Floating-point modifiers (Table 11-3). -/
structure FMod where
  satn : Bool
  nc   : Bool
  nb   : Bool
  na   : Bool
  ab   : Bool
  aa   : Bool
  rnd  : Rnd
  deriving DecidableEq, Repr

/-- Forms of an approximate function (Table 11-6). -/
inductive TForm where
  | f32 | f16x2 | sf32
  deriving DecidableEq, Repr

/-- Operand types of CVT (Table 11-9). -/
inductive CvtTy where
  | f32 | f16 | bf16 | i32 | n32 | i64 | n64
  deriving DecidableEq, Repr

/-- Integer reductions (REDL, R199). -/
inductive RedOp where
  | add | min | max | and | or | xor
  deriving DecidableEq, Repr

/-- Float reductions and float atomics. -/
inductive FRedOp where
  | add | min | max
  deriving DecidableEq, Repr

/-- Access width and extension of a load or store: WIDTH of Table 12-1, and the opcode's .B64 or .B128. -/
inductive MTy where
  | b32 | i8 | i16 | n8 | n16 | b64 | b128
  deriving DecidableEq, Repr

/-- Load and store modifiers (Table 12-1). -/
structure MMod where
  p  : Bool
  xy : Bool
  ty : MTy
  sc : BitVec 3
  deriving DecidableEq, Repr

/-- ORD of an atomic (Table 12-5). -/
inductive Ord3 where
  | none | acq | rel | ar
  deriving DecidableEq, Repr

/-- OP of an integer atomic (Table 12-5). -/
inductive AtOp where
  | add | min | max | and | or | xor | exch
  deriving DecidableEq, Repr

/-- OP of SATOM (R331): the codes of Table 12-5, and FADD. -/
inductive SatOp where
  | int (op : AtOp)
  | fadd
  deriving DecidableEq, Repr

/-- Width of an atomic or an MPUT. -/
inductive W3 where
  | w4 | w8 | w16
  deriving DecidableEq, Repr

/-- The form of an ATOMS or ATOMX (Table 12-4). -/
inductive AtKind where
  | int (w64 sgn : Bool) (op : AtOp)
  | cas (w64 : Bool)
  | flt (ft : FTy) (op : FRedOp)
  deriving DecidableEq, Repr

/-- Paths of FENCEX (R235). -/
inductive Path where
  | v | m | c | f | w | h
  deriving DecidableEq, Repr

/-- Mode of INTERP (R325). -/
inductive InterpMode where
  | persp | linear | flat
  deriving DecidableEq, Repr

/-- Access kinds of a walk (R92). -/
inductive AccKind where
  | read | write | fetch
  deriving DecidableEq, Repr

/-- The four TLBs of a wing (Table 06-4). -/
inductive TlbKind where
  | vtlb | mtlb | ctlb | itlb
  deriving DecidableEq, Repr

/-- A mask generation (R74): the epoch tag, the read mask and the write mask. -/
structure Gen where
  tag : Nat
  rm  : ByteMask
  wm  : ByteMask
  deriving DecidableEq, Repr

/-- Why a write-back was sent: an eviction or fence, a RECALL, a DARN for an acquirer (R82). -/
inductive WbWhy where
  | plain
  | recall
  | darn (acquirer epoch syncLine : Nat)
  deriving DecidableEq, Repr

/-- A place of the register block and how many bytes an access of it has (R395). -/
structure RegAt where
  offset : Nat
  size   : Nat
  deriving DecidableEq, Repr

/-- What system software writes with SPROOT: the register, and perhaps the space's window of surface-table entries (R48, R90). -/
structure SpaceSetup where
  root : DWord
  win  : Option Nat
  deriving DecidableEq, Repr

/-- A sample of the 32 IVRs (R407). -/
structure IvrSample where
  currents : List Nat
  volts    : List Nat
  deriving DecidableEq, Repr

/-- A sample of the coolant at the inlet: °C, and tenths of a litre a minute (R406). -/
structure CoolantSample where
  temp : Nat
  flow : Nat
  deriving DecidableEq, Repr

/-- One constructor per row of the table. -/
inductive Instr where
  -- moves and arithmetic (R169 to R171)
  | mov (o : Ops) (sc : Bool)
  | movi (o : Ops) (sc : Bool)
  | sel (o : Ops) (sc neg : Bool) (q : BitVec 3)
  | iadd (o : Ops) (sc : Bool) (ty : IntTy) (sat : Bool)
  | isub (o : Ops) (sc : Bool) (ty : IntTy) (sat : Bool)
  | iabs (o : Ops) (sat : Bool)
  | ineg (o : Ops) (sat : Bool)
  | imin (o : Ops) (sc : Bool) (ty : IntTy)
  | imax (o : Ops) (sc : Bool) (ty : IntTy)
  | iadd64 (o : Ops) (sc : Bool) (ty : IntTy) (sat w : Bool)
  | imul (o : Ops) (sc : Bool) (ty : IntTy) (sat : Bool)
  | imulh (o : Ops) (ty : IntTy)
  | imad (o : Ops) (sc : Bool) (ty : IntTy) (sat : Bool)
  | imadw (o : Ops) (ty : IntTy) (sat : Bool)
  -- logic, shifts, fields (R172 to R175)
  | and (o : Ops) (sc : Bool)
  | or (o : Ops) (sc : Bool)
  | xor (o : Ops) (sc : Bool)
  | not (o : Ops)
  | lgc3 (o : Ops) (table : BitVec 8)
  | shl (o : Ops) (sc wrap : Bool)
  | shr (o : Ops) (sc wrap : Bool)
  | sar (o : Ops) (wrap : Bool)
  | rot (o : Ops)
  | fshf (o : Ops) (left : Bool)
  | bfe (o : Ops) (ty : IntTy)
  | bfi (o : Ops)
  | popc (o : Ops)
  | clz (o : Ops)
  | brev (o : Ops)
  | bysel (o : Ops)
  | lea (o : Ops) (ty : IntTy) (sh : BitVec 3)
  -- compares and predicates (R176 to R178)
  | isetp (o : Ops) (ty : CmpTy) (op : CmpOp) (qn : Bool) (q : BitVec 3) (cmp : Cmp)
  | fsetp (o : Ops) (ty : FTy) (op : CmpOp) (qn : Bool) (q : BitVec 3) (cmp : Cmp)
  | iaddP (o : Ops) (ty : IntTy)
  | isubP (o : Ops) (ty : IntTy)
  | imulP (o : Ops) (ty : IntTy)
  | lgc3P (o : Ops) (table : BitVec 8)
  | plop (o : Ops) (pa pb pc : BitVec 3)
  | pmov (o : Ops)
  | pmovP (o : Ops) (bit : BitVec 5)
  -- control (R179 to R186)
  | bra (o : Ops)
  | braAny (o : Ops) (neg : Bool) (q : BitVec 3)
  | braAll (o : Ops) (neg : Bool) (q : BitVec 3)
  | brx (o : Ops)
  | call (o : Ops)
  | callx (o : Ops)
  | ret (o : Ops)
  | exit (o : Ops)
  | conv (o : Ops)
  | nop (o : Ops)
  | pause (o : Ops)
  -- system access (R187 to R193)
  | sread (o : Ops) (sc : Bool) (code : BitVec 8)
  | sreadW (o : Ops) (code : BitVec 8)
  | swrite (o : Ops) (code : BitVec 8)
  | launch (o : Ops)
  | prog (o : Ops)
  -- lane exchange (R194 to R200)
  | lxchIdx (o : Ops) (w pv : BitVec 3)
  | lxchRot (o : Ops) (w pv : BitVec 3)
  | lxchRev (o : Ops) (w pv : BitVec 3)
  | lxchXor (o : Ops) (w pv : BitVec 3)
  | lxchS (o : Ops) (pv : BitVec 3)
  | lqryAll (o : Ops) (neg : Bool) (q : BitVec 3)
  | lqryAny (o : Ops) (neg : Bool) (q : BitVec 3)
  | lqrySame (o : Ops) (neg : Bool) (q : BitVec 3)
  | lgath (o : Ops) (sc rank neg : Bool) (q : BitVec 3)
  | match_ (o : Ops) (wide : Bool)
  | redl (o : Ops) (sc : Bool) (op : RedOp) (ty : IntTy) (sat : Bool)
  | redlF (o : Ops) (op : FRedOp) (rnd : Rnd)
  -- floating point (R211 to R217)
  | fadd (o : Ops) (ty : FTy) (sc : Bool) (m : FMod)
  | fsub (o : Ops) (ty : FTy) (sc : Bool) (m : FMod)
  | fmul (o : Ops) (ty : FTy) (sc : Bool) (m : FMod)
  | ffma (o : Ops) (ty : FTy) (sc : Bool) (m : FMod)
  | fmin (o : Ops) (ty : FTy) (sc : Bool) (m : FMod)
  | fmax (o : Ops) (ty : FTy) (sc : Bool) (m : FMod)
  | fdp2 (o : Ops) (ty : FTy) (m : FMod)
  | frnd (o : Ops) (ty : FTy) (sc : Bool) (m : FMod)
  | fclass (o : Ops) (ty : FTy)
  | fclassP (o : Ops) (ty : FTy)
  | frcp (o : Ops) (f : TForm) (na aa : Bool)
  | frsq (o : Ops) (f : TForm) (na aa : Bool)
  | fsqrt (o : Ops) (f : TForm) (na aa : Bool)
  | fexp2 (o : Ops) (f : TForm) (na aa : Bool)
  | flog2 (o : Ops) (f : TForm) (na aa : Bool)
  | fsin (o : Ops) (f : TForm) (na aa : Bool)
  | fcos (o : Ops) (f : TForm) (na aa : Bool)
  | frcpIeee (o : Ops) (m : FMod)
  | fsqrtIeee (o : Ops) (m : FMod)
  -- conversion (R218 to R221)
  | cvt (o : Ops) (dst src : CvtTy) (sc hi sat : Bool) (rnd : Rnd)
  | cvq2 (o : Ops) (satf : Bool) (slot : BitVec 3)
  | cvq4 (o : Ops) (satf : Bool) (slot : BitVec 3)
  | cvq8 (o : Ops) (slot : BitVec 3)
  | cvx2 (o : Ops) (slot : BitVec 3)
  | cvx4 (o : Ops) (slot : BitVec 3)
  | cvx8 (o : Ops) (slot : BitVec 3)
  -- loads and stores (R226 to R231)
  | ldg (o : Ops) (m : MMod) (x : MemX)
  | stg (o : Ops) (m : MMod) (x : MemX)
  | ldp (o : Ops) (m : MMod) (x : MemX)
  | stp (o : Ops) (m : MMod) (x : MemX)
  | lds (o : Ops) (m : MMod) (x : MemX)
  | sts (o : Ops) (m : MMod) (x : MemX)
  | ldx (o : Ops) (m : MMod) (x : MemX)
  | stx (o : Ops) (m : MMod) (x : MemX)
  | ldf (o : Ops) (m : MMod) (x : MemX)
  | stf (o : Ops) (m : MMod) (x : MemX)
  | ldw (o : Ops) (m : MMod) (x : MemX)
  | stw (o : Ops) (m : MMod) (x : MemX)
  | ldk (o : Ops) (m : MMod) (x : MemX)
  | ldsS (o : Ops) (m : MMod) (x : MemX)
  | pfg (o : Ops) (m : MMod) (x : MemX)
  | stew (o : Ops) (w : Bool) (x : MemX)
  -- atomics (R232, R233)
  | atomg (o : Ops) (p : Bool) (ord : Ord3) (w64 sgn : Bool) (op : AtOp) (x : MemX)
  | atomgCas (o : Ops) (p : Bool) (ord : Ord3) (w : W3) (x : MemX)
  | atomgF (o : Ops) (p : Bool) (ord : Ord3) (ft : FTy) (op : FRedOp) (x : MemX)
  | redg (o : Ops) (p w64 sgn : Bool) (op : AtOp) (x : MemX)
  | redgF (o : Ops) (p : Bool) (ft : FTy) (op : FRedOp) (x : MemX)
  | atoms (o : Ops) (p : Bool) (k : AtKind) (x : MemX)
  | atomx (o : Ops) (p : Bool) (k : AtKind) (x : MemX)
  -- synchronisation, barriers, rows, shootdown (R234 to R242)
  | lda (o : Ops) (m : MMod) (x : MemX)
  | stl (o : Ops) (m : MMod) (x : MemX)
  | fence (o : Ops) (x : MemX)
  | fencex (o : Ops) (p q : Path) (x : MemX)
  | barrive (o : Ops) (h : Bool) (x : MemX)
  | bwait (o : Ops) (h : Bool) (x : MemX)
  | bsync (o : Ops) (h : Bool) (x : MemX)
  | barrd (o : Ops) (h : Bool) (x : MemX)
  | binit (o : Ops) (h : Bool) (x : MemX)
  | balloc (o : Ops) (x : MemX)
  | bfree (o : Ops) (x : MemX)
  | rowbook (o : Ops) (p : Bool) (q sc : BitVec 3) (x : MemX)
  | rowjoin (o : Ops) (q : BitVec 3) (x : MemX)
  | rowfree (o : Ops) (x : MemX)
  | tlbiPage (o : Ops) (x : MemX)
  | tlbiSpace (o : Ops) (x : MemX)
  | tlbiAll (o : Ops) (x : MemX)
  -- graphics (R314, R325 to R331)
  | msvtx (o : Ops)
  | msvtxB128 (o : Ops)
  | msprim (o : Ops)
  | mscount (o : Ops)
  | interp (o : Ops) (mode : InterpMode) (centroid : Bool)
  | derivX (o : Ops) (fine : Bool)
  | derivY (o : Ops) (fine : Bool)
  | fragexp (o : Ops)
  | fragexpZ (o : Ops)
  | fragkill (o : Ops)
  | rocbeg (o : Ops)
  | rocend (o : Ops)
  | tex (o : Ops)
  | texL (o : Ops)
  | texG (o : Ops)
  | texld (o : Ops)
  | texq (o : Ops)
  | satom (o : Ops) (p xy w64 sgn : Bool) (op : SatOp) (x : MemX)
  | satomCas (o : Ops) (p w64 : Bool) (x : MemX)
  -- copies (R289, R290)
  | cpgather (o : Ops) (ch : BitVec 3) (tmpl : BitVec 6) (x : MemX)
  | cpscatter (o : Ops) (ch : BitVec 3) (tmpl : BitVec 6) (x : MemX)
  | cpscatterAdd (o : Ops) (ch : BitVec 3) (tmpl : BitVec 6) (x : MemX)
  | cpwait (o : Ops) (p : Bool) (x : MemX)
  | cptest (o : Ops) (p : Bool) (x : MemX)
  | cpclr (o : Ops) (p : Bool) (x : MemX)
  | cpsrcw (o : Ops) (x : MemX)
  -- matrix stream (R261 to R274)
  | mput (o : Ops) (w : W3)
  | mld (o : SOps)
  | mldV (o : SOps) (satf : Bool)
  | mma (o : SOps) (v : Bool) (slotB : BitVec 3) (satf : Bool)
  | mmq (o : SOps) (v : Bool) (slotB : BitVec 3) (satf : Bool)
  | mmqP (o : SOps) (v : Bool) (slotB : BitVec 3) (satf : Bool)
  | mmi (o : SOps) (v : Bool) (slotB : BitVec 3) (satf : Bool)
  | mclr (o : SOps) (int : Bool)
  | mst (o : SOps) (slotTA slotTB : BitVec 3) (scl satf : Bool)
  | mstV (o : SOps) (slotTA slotTB : BitVec 3) (scl satf : Bool)
  | mbar (o : SOps)
  | mbw (o : SOps)
  | mnop (o : SOps)
  | msetImm (o : SOps)
  | msetHi (o : SOps)
  | msetArg (o : SOps)
  | msetArghi (o : SOps)
  | msetSr (o : SOps)
  | msetC (o : SOps)
  | maddk (o : SOps)
  | mloop (o : SOps)
  | mjmp (o : SOps)
  | mend (o : SOps)
  -- traps and the night porter (R353 to R357)
  | trap (o : Ops)
  | trapLegacy (o : Ops)
  | bkpt (o : Ops)
  | rtt (o : Ops)
  | haltt (o : Ops)
  | gbread (o : Ops) (q : BitVec 3)
  | pkrd (o : Ops)
  | pkwr (o : Ops)
  | resume (o : Ops)
  | resumeSkip (o : Ops)
  | killt (o : Ops)
  | killtG (o : Ops)
  -- completions of waits and results
  | loadResultLand (id : Nat)
  | mediumResultReady (id : Nat)
  | convRelease (tid gix : Nat)
  | barrierWaitComplete (tid gix wid : Nat)
  | barrdArrivalPerform (tid k : Nat)
  | cpwaitComplete (tid gix wid : Nat)
  | cpsrcwComplete (tid gix wid : Nat)
  | presenceWaitComplete (tid gix wid : Nat)
  | pauseExpiry (tid gix wid : Nat)
  | syncAccessComplete (tid gix wid : Nat)
  | rowOpenComplete (tid gix wid : Nat)
  | rocSectionEnter (tid gix wid : Nat)
  | rocTimeout (tid lane : Nat)
  | rocPreemptTimeout (tid : Nat)
  | contextBind (core quarter ctx : Nat)
  | porterSlotTake (core : Nat)
  | fetchBlockFill (tid gix : Nat)
  | teamEnd (tid : Nat)
  -- coherence messages (Table 05-1); `line` is a physical line, `acc` a pending access
  | fill (core line : Nat) (bytes : ByteMask) (acc : Nat)
  | filld (core line : Nat) (data : Line) (poison : BitVec 2) (fd : ByteMask) (sole race : Bool) (acc : Nat)
  | mprobe (core line : Nat)
  | mrep (core line : Nat) (g0 g1 : Option Gen)
  | intent (core line : Nat) (bytes : ByteMask) (epoch acc : Nat)
  | mark (core line : Nat) (bytes : ByteMask)
  | markr (core line : Nat) (g0 g1 : Option Gen)
  | grant (core line acc : Nat)
  | rnack (core line acc : Nat)
  | wb (core line key : Nat) (data : Line) (poison : BitVec 2) (dm : ByteMask) (g0 g1 : Option Gen) (why : WbWhy)
  | wback (core line : Nat) (why : WbWhy)
  | recall (core line : Nat)
  | darn (core epoch acquirer syncLine : Nat)
  | darnack (core epoch : Nat) (stale : Bool) (syncLine : Nat)
  | inv (core line : Nat) (bytes : ByteMask)
  | invack (core line : Nat)
  | publish (slice core epoch syncLine : Nat)
  | puback (slice core epoch syncLine : Nat)
  | hop (acc : Nat)
  | hopr (acc : Nat)
  | rstore (acc : Nat)
  | rfwd (die acc : Nat)
  | rpack (die acc : Nat)
  | rcommit (die acc : Nat)
  -- translation and lodging
  | pageWalk (wing : Nat) (tlb : TlbKind) (space va : Nat) (kind : AccKind)
  | shootdownComplete (id : Nat)
  | lodgingRequestPost (die : Nat)
  | lgrantGranted (die lease : Nat)
  | lgrantRefused (die lease : Nat)
  | lgrantReleaseAck (die lease : Nat)
  -- matrix and copy engines
  | sequencerFetch (tid : Nat)
  | mbwRetire (tid cmd : Nat)
  | commandRetire (tid cmd : Nat)
  | copyElementMove (core id : Nat)
  | copyChunkLand (core id chunk : Nat)
  | copySourceRelease (core id : Nat)
  -- surfaces, the press, banks
  | surfaceAllocate (ste : Nat)
  | surfaceReleaseComplete (ste : Nat)
  | pressSpillStart (region stack : Nat) (firm : Bool)
  | spillComplete (ste frame : Nat)
  | fillComplete (ste frame : Nat)
  | frameAgeTick
  | bankGrant (stack column bank : Nat)
  -- raster
  | coverageToken (wing : Nat)
  | quadRetire (bru : Nat)
  | primitiveEmit (queue : Nat)
  | rasterisePrimitive (wing : Nat)
  | fragmentGroupLaunch (wing core quarter : Nat)
  -- power domains and debugger reads
  | domainRetentionEnter (die k : Nat)
  | domainWake (die k : Nat)
  | domainOff (die k : Nat) (forced : Bool)
  | domainOn (die k : Nat)
  | debugSurfaceRead (ste : Option Nat) (addr : Nat)
  | rowRefreshClose (space key : Nat)
  | rowRefreshReopen (space key : Nat)
  | memoryPatrol (channel bank row : Nat) (corrected uncorrectable : List Nat)
  -- dispatch
  | clusterPlace (die : Nat)
  | framePreempt (die : Nat)
  | normalReservation (die : Nat)
  | preemptSave (tid : Nat)
  | teamRestore (saved core : Nat)
  | gridComplete (launch : Nat)
  | porterWake (core : Nat)
  | blockTranslate (wing space hash word : Nat)
  -- the host ring and the device registers
  | ringDoorbell (value : DWord)
  | hrctlWrite (value : DWord)
  | ringNop
  | ringLaunch
  | ringTlbi
  | ringCancel
  | ringUnknownOp
  | intlvWrite (n : Nat) (value : DWord)
  | sprootWrite (space : Nat) (value : SpaceSetup)
  | spwingWrite (space : Nat) (value : DWord)
  | qcfgWrite (n : Nat) (value : DWord)
  | spsaveWrite (space : Nat) (value : DWord)
  | spxcWrite (space : Nat) (value : DWord)
  | biasctlWrite (value : DWord)
  | biasflipGo (value : DWord)
  | biasFlipComplete
  | gbstatClear (core : Nat) (value : DWord)
  | hostResume (core seq : Nat)
  | hostResumeSkip (core seq : Nat)
  | hostKillt (core seq : Nat)
  | hostKilltG (core seq : Nat)
  | hostEndGrid (core seq : Nat)
  | gbpkRead (core seq sel : Nat)
  | gbpkWrite (core seq sel : Nat)
  | dbgreqStop (space ticket core : Nat)
  | dbgreqResume (space ticket core : Nat)
  | dbgreqStep (space ticket core : Nat)
  | dbgreqPreempt (space ticket core : Nat)
  | dbgreqDump (space ticket core : Nat)
  | pcSample (core quarter : Nat)
  | trialDebtTick
  | registerWrite (at_ : RegAt) (value : DWord)
  -- host memory requests, CXL, UCIe
  | hostMemRead (pa : Nat)
  | hostMemWrite (pa : Nat) (data : List Byte)
  | birspi (unit : Nat)
  | hPathCompletion (acc : Nat) (data : List Byte) (poisoned : Bool)
  | cxlCompletionTimeout (acc : Nat)
  | ucieUncorrectableError
  -- clocks, power, bring-up, management
  | clockRatioChange (ratio : Nat)
  | moduleReset
  | bringupStepComplete (ok : Bool) (found : List Nat)
  | powerManagementTick (temps : List Nat) (ivrs : IvrSample) (coolant : CoolantSample)
  | thermalTrip
  | ivrOvercurrent (die k : Nat)
  | sensors
  | logread
  | powercap
  | keyset
  | fwload
  | spdm
  | mailboxBadcmd (cmd : Nat)
  | scratchpadSlotGrant (core bank : Nat)
  | wPathAccessComplete (acc : Nat)
  | modulePowerLoss
  | sptrialWrite (space : Nat) (value : DWord)
  deriving DecidableEq, Repr

end Sys2Proof
end

