-- ==== Sys2Proof/WellFormed.lean ====
section
/-! DEFINITION. Well-formed instructions: the conditions of decode check 7 (R164) that do not
depend on the launch: accepted lengths (R148), guard and NW (R151, R153), unused fields zero (R153),
destination kinds (R152), source kinds and alignment (R154, R155), allowed types (R156). -/

namespace Sys2Proof

/-- The field is unused and holds zero (R153); the zero pattern reads as v0. -/
def Src.unused (s : Src) : Bool := decide (s = .v 0)

def Src.isImm32 : Src → Bool
  | .imm32 => true
  | _ => false

def Src.isVector : Src → Bool
  | .v _ => true
  | _ => false

def Src.isLatch : Src → Bool
  | .y _ => true
  | _ => false

def Src.isImm : Src → Bool
  | .imm _ => true
  | .imm32 => true
  | _ => false

def Src.isScalar : Src → Bool
  | .s _ => true
  | _ => false

/-- A field that names the first of several registers (R329, Table 17-5). -/
def Src.isRegister : Src → Bool
  | .v _ => true
  | .s _ => true
  | _ => false

/-- A register number that starts an aligned group of `n`; latches and immediates as allowed (R154). -/
def Src.alignedTo (n : Nat) (latch imm : Bool) : Src → Bool
  | .v k => k.toNat % n == 0
  | .s k => k.toNat % n == 0
  | .y _ => latch
  | .imm _ => imm
  | .imm32 => imm

/-- A pair source of an integer entry: a register pair, a latch (R166) or an immediate. -/
def Src.pair (s : Src) : Bool := s.alignedTo 2 true true

/-- A source of an .S form (R167): scalar register, immediate, IMM32 or latch. -/
def Src.scalarForm (s : Src) : Bool := !s.isVector

/-- A scalar register, an immediate or IMM32 (no vector register, no latch). -/
def Src.uniform (s : Src) : Bool := s.isScalar || s.isImm

/-- Source fields that name IMM32. -/
def Ops.namesImm32 (o : Ops) : Bool := o.a.isImm32 || o.b.isImm32 || o.c.isImm32

/-- Guard, NW and length (R148, R151, R153, R154). `latch`: the opcode writes a latch; `l128`: it
accepts 128-bit words; `disp`: it uses IMM32 as a displacement. (DESIGN CHOICE, log 126.) -/
def Ops.wf (o : Ops) (latch l128 disp : Bool) : Bool :=
  !(o.g == 7 && o.gn)
  && (!o.nw || (latch && o.d == 0))
  && match o.len with
     | .w64 => o.imm == 0 && !o.namesImm32
     | .w96 => true
     | .w128 => l128 && (disp || o.namesImm32 || o.imm == 0)

/-- Vector destination: the first of `n` aligned registers, or nothing under NW (R152). -/
def Ops.dVec (o : Ops) (n : Nat) : Bool := o.d.toNat % n == 0
/-- Scalar destination: s0 to s63, aligned to `n` (R152). -/
def Ops.dScal (o : Ops) (n : Nat) : Bool := decide (o.d.toNat < 64) && o.d.toNat % n == 0
/-- Predicate destination: p0 to p6 (R152). -/
def Ops.dPred (o : Ops) : Bool := decide (o.d.toNat < 7)
/-- No destination (R152). -/
def Ops.dNone (o : Ops) : Bool := o.d == 0
/-- Destination of a form with a vector and an .S opcode. -/
def Ops.dForm (o : Ops) (sc : Bool) (n : Nat) : Bool := if sc then o.dScal n else o.dVec n

def Ops.noA (o : Ops) : Bool := o.a.unused
def Ops.noB (o : Ops) : Bool := o.b.unused
def Ops.noC (o : Ops) : Bool := o.c.unused

/-- Under .S every source is a scalar register, an immediate or a latch (R167). -/
def Ops.srcForm (o : Ops) (sc : Bool) (useA useB useC : Bool) : Bool :=
  !sc || ((!useA || o.a.scalarForm) && (!useB || o.b.scalarForm) && (!useC || o.c.scalarForm))

/-- One-, two- and three-source latch-writing forms of 64 or 96 bits. -/
def Ops.alu1 (o : Ops) (sc : Bool) : Bool :=
  o.wf true false false && o.dForm sc 1 && o.srcForm sc true false false && o.noB && o.noC
def Ops.alu2 (o : Ops) (sc : Bool) : Bool :=
  o.wf true false false && o.dForm sc 1 && o.srcForm sc true true false && o.noC
def Ops.alu3 (o : Ops) (sc : Bool) : Bool :=
  o.wf true false false && o.dForm sc 1 && o.srcForm sc true true true

/-- Types that IADD, ISUB, IMUL and IMAD allow (Tables 10-3, 10-4): .SAT needs .I32 or .N32 (R168). -/
def IntTy.word3 (t : IntTy) (sat : Bool) : Bool :=
  match t with
  | .b32 => !sat
  | .i32 => true
  | .n32 => true
  | _ => false
def IntTy.signed32 (t : IntTy) : Bool := t == .i32 || t == .n32
def IntTy.wide (t : IntTy) : Bool := t == .i64 || t == .n64

def MTy.regs : MTy → Nat
  | .b64 => 2
  | .b128 => 4
  | _ => 1

def W3.regs : W3 → Nat
  | .w4 => 1
  | .w8 => 2
  | .w16 => 4

/-- X fields of a memory-class word that uses none of them (R157): the default scope, or 0 in a
128-bit word, where an unused field must be 0 (R153) and the scope code 0 is group. -/
def MemX.unusedIn (x : MemX) (len : Len) : Bool :=
  match len with
  | .w128 => decide (x = { e := .v 0, d2 := 0, d2e := false, scope := .group, hint := 0 })
  | _ => decide (x = { e := .v 0, d2 := 0, d2e := false, scope := .device, hint := 0 })

/-- An X word of which only HINT is used. -/
def MemX.hintOnly (x : MemX) (len : Len) : Bool := { x with hint := 0 }.unusedIn len
  && (len == .w128 || x.hint == 0)
/-- An X word of which only SCOPE is used. -/
def MemX.scopeOnly (x : MemX) (len : Len) : Bool :=
  match len with
  | .w128 => decide ({ x with scope := .group } = { e := .v 0, d2 := 0, d2e := false, scope := .group, hint := 0 })
  | _ => x.unusedIn len
/-- An X word of which HINT and SCOPE are used (LDA, STL: R234). -/
def MemX.scopeHint (x : MemX) (len : Len) : Bool :=
  match len with
  | .w128 => decide ({ x with scope := .group, hint := 0 } = { e := .v 0, d2 := 0, d2e := false, scope := .group, hint := 0 })
  | _ => x.unusedIn len

/-- Base of an address (R223): a register or a latch; a pair when P = 1. -/
def Ops.baseOk (o : Ops) (p : Bool) : Bool :=
  !o.b.isImm && (!p || o.b.alignedTo 2 true false)
/-- Index term (R223): a 32-bit register or latch, or an immediate with SC = 0; never IMM32 (R222). -/
def Ops.indexOk (o : Ops) (sc : BitVec 3) : Bool :=
  !o.c.isImm32 && decide (sc.toNat ≤ 4) && (!o.c.isImm || sc == 0)

/-- Opcodes whose 32-bit base has no implicit high word (Table 12-2) need P = 1. -/
def MMod.addr (m : MMod) (o : Ops) (needP : Bool) : Bool :=
  o.baseOk m.p && o.indexOk m.sc && (!needP || m.p)

/-- Coordinate form of LDF and STF (R226): 128-bit only, IMM32 = 0, B a 32-bit handle, C and E sources. -/
def MMod.coord (m : MMod) (o : Ops) (x : MemX) : Bool :=
  m.xy && o.len == .w128 && o.imm == 0 && !m.p && m.sc == 0 && !o.b.isImm && !o.c.isImm32 && !x.e.isImm32
  && decide ({ x with e := .v 0, hint := 0 } = { e := .v 0, d2 := 0, d2e := false, scope := .group, hint := 0 })

/-- Store data (R226): an immediate in the 1–4 B forms, a latch in the 1–4 B and .B64 forms. -/
def MMod.dataOk (m : MMod) (o : Ops) : Bool :=
  match m.ty with
  | .b64 => o.a.alignedTo 2 true false
  | .b128 => o.a.alignedTo 4 false false
  | _ => !o.a.isImm32

/-- A load of one space. -/
def wfLoad (o : Ops) (m : MMod) (x : MemX) (needP : Bool) : Bool :=
  o.wf false true true && o.noA && o.dVec m.ty.regs && !m.xy && m.addr o needP && x.hintOnly o.len
/-- A store of one space. -/
def wfStore (o : Ops) (m : MMod) (x : MemX) (needP : Bool) : Bool :=
  o.wf false true true && o.dNone && m.dataOk o && !m.xy && m.addr o needP && x.hintOnly o.len

/-- The address fields of a single-execution scalar load (LDK, LDS.S: R228, R229). -/
def wfScalarLoad (o : Ops) (m : MMod) (x : MemX) : Bool :=
  o.wf false true true && o.noA && o.dScal m.ty.regs && !m.xy && m.addr o false
  && !o.b.isVector && !o.c.isVector && x.hintOnly o.len

/-- Address and data of an atomic: the index is scaled by the access size (Table 12-5). -/
def wfAtom (o : Ops) (p : Bool) (n : Nat) (needP : Bool) : Bool :=
  o.wf false true true && o.baseOk p && !o.c.isImm32 && (!needP || p)
  && (match n with
      | 1 => !o.a.isImm32
      | _ => !o.a.isImm32 && o.a.alignedTo n false (n == 2))

/-- The X word of an atomic: E for CAS; SCOPE only when ORD ≠ 00 (R232). -/
def MemX.atomOk (x : MemX) (len : Len) (cas : Bool) (n : Nat) (ord : Ord3) : Bool :=
  let e0 := { x with e := .v 0, scope := .group }
  if len == .w128 then
    decide (e0 = { e := .v 0, d2 := 0, d2e := false, scope := .group, hint := 0 })
    && (if cas then !x.e.isImm32 && (n == 1 || x.e.alignedTo n false (n == 2)) else x.e.unused)
    && (ord != .none || x.scope == .group)
  else !cas && x.unusedIn len

def AtKind.regs : AtKind → Nat
  | .int w _ _ => if w then 2 else 1
  | .cas w => if w then 2 else 1
  | .flt _ _ => 1
def AtKind.isCas : AtKind → Bool
  | .cas _ => true
  | _ => false

/-- Barrier instructions: H and two or three per-thread operands. -/
def wfBar (o : Ops) (x : MemX) (useB useC : Bool) : Bool :=
  o.wf false true false && o.dNone && (useB || o.noB) && (useC || o.noC) && x.unusedIn o.len

/-- A stream register field: 00nnnnnnnn below `n` (R245). -/
def Src.streamReg (n : Nat) : Src → Bool
  | .v k => decide (k.toNat < n)
  | _ => false
/-- A stream register of `n`, or an immediate or IMM32 where allowed. -/
def Src.streamRegOrImm (n : Nat) (s : Src) : Bool := s.streamReg n || s.isImm

/-- Fields of a stream-control instruction that must be zero (R245). -/
def SOps.control (o : SOps) : Bool :=
  o.cid == 0 && !o.v0 && o.pred0 == 0 && !o.v1 && o.pred1 == 0 && o.slot == 0 && !o.ru && !o.cl
/-- PREDn is zero while Vn is 0: an unused field (R153). -/
def SOps.preds (o : SOps) : Bool := (o.v0 || o.pred0 == 0) && (o.v1 || o.pred1 == 0)
def SOps.plain (o : SOps) : Bool := o.slot == 0 && !o.ru && !o.cl
def SOps.noA (o : SOps) : Bool := o.a.unused
def SOps.noB (o : SOps) : Bool := o.b.unused
def SOps.noC (o : SOps) : Bool := o.c.unused

/-- A multiply of any kind (Table 13-4): D = a, A = m, B = k, C = k (even in the .P forms). -/
def wfMul (o : SOps) (v satf p : Bool) : Bool :=
  o.preds && decide (o.d.toNat < 64) && o.a.streamReg 16 && o.b.streamReg 16 && o.c.streamReg 16
  && (!p || o.c.alignedTo 2 false false) && (!v || o.imm == 0) && (v || !satf)

def wfMst (o : SOps) (tA tB : BitVec 3) (scl v : Bool) : Bool :=
  o.preds && o.d == 0 && o.a.streamReg 64 && o.b.streamReg 16 && o.c.streamReg 16 && !o.ru && !o.cl
  && (scl || (tA == 0 && tB == 0)) && (!v || o.imm == 0)

/-- FMod bits that an entry does not allow are clear (Table 11-3, R153). -/
def FMod.only (m : FMod) (satn nc nb na ab aa rnd : Bool) : Bool :=
  (satn || !m.satn) && (nc || !m.nc) && (nb || !m.nb) && (na || !m.na) && (ab || !m.ab) && (aa || !m.aa)
  && (rnd || m.rnd == .rne)

def wfBranch (o : Ops) : Bool :=
  o.wf false false false && o.dNone && o.noB && o.noC
  && (match o.a with
      | .imm _ => true
      | .imm32 => o.imm.toNat % 4 == 0
      | _ => false)

def wfTransc (o : Ops) (f : TForm) : Bool :=
  o.wf false false false && o.dForm (f == .sf32) 1 && o.srcForm (f == .sf32) true false false && o.noB && o.noC

def wfLxch (o : Ops) (w : BitVec 3) : Bool :=
  o.wf false false false && o.dVec 1 && decide (w.toNat ≤ 5)

/-- A member mask (R195): not a vector register, and no latch is a scalar register or immediate. -/
def wfMask (o : Ops) : Bool := o.c.uniform

/-- Sources of the porter's instructions (Table 20-6): scalar register, immediate or IMM32. (DESIGN CHOICE, log 110.) -/
def wfPorter (o : Ops) (useA useB useC : Bool) : Bool :=
  o.wf false false false && (if useA then o.a.uniform else o.noA) && (if useB then o.b.uniform else o.noB)
  && (if useC then o.c.uniform else o.noC)

/-- Textures: D a quad, B the first of eight scalar registers (R329). -/
def wfTex (o : Ops) : Bool :=
  o.wf false false false && o.dVec 4 && o.b.isScalar && o.b.alignedTo 8 false false

/-- Identity codes 0x00 to 0x12 and the other special registers (Table 10-8). -/
def sregCode (c : Nat) : Bool :=
  decide (c ≤ 0x12) || (decide (0x18 ≤ c) && decide (c ≤ 0x1A)) || (decide (0x20 ≤ c) && decide (c ≤ 0x22))
  || (decide (0x30 ≤ c) && decide (c ≤ 0x43))

def CvtTy.isInt : CvtTy → Bool
  | .i32 | .n32 | .i64 | .n64 => true
  | _ => false
def CvtTy.is64 : CvtTy → Bool
  | .i64 | .n64 => true
  | _ => false
def CvtTy.isHalf : CvtTy → Bool
  | .f16 | .bf16 => true
  | _ => false

def CmpTy.wide : CmpTy → Bool
  | .i64 | .n64 => true
  | _ => false

/-- Q and QN are 0 under OP = 00 (Table 10-6). -/
def wfCmp (o : Ops) (op : CmpOp) (qn : Bool) (q : BitVec 3) : Bool :=
  o.wf false false false && o.dPred && o.noC && (op != .none || (!qn && q == 0))

/-- Decode check 7 of R164, less what depends on the launch's register count. Steps that no word
encodes are well-formed as they stand. (DESIGN CHOICE, log 126.) -/
def Instr.wf : Instr → Bool
  | .mov o sc => o.alu1 sc
  | .movi o sc => o.alu1 sc && o.a.isImm
  | .sel o sc _ _ => o.alu2 sc
  | .iadd o sc ty sat => o.alu2 sc && ty.word3 sat
  | .isub o sc ty sat => o.alu2 sc && ty.word3 sat
  | .iabs o _ => o.alu1 false
  | .ineg o _ => o.alu1 false
  | .imin o sc ty => o.alu2 sc && ty.signed32
  | .imax o sc ty => o.alu2 sc && ty.signed32
  | .iadd64 o sc ty _ w =>
      o.wf true false false && o.dForm sc 2 && o.srcForm sc true true false && o.noC && ty.wide
      && o.a.pair && (w || o.b.pair)
  | .imul o sc ty sat => o.alu2 sc && ty.word3 sat
  | .imulh o ty => o.alu2 false && ty.signed32
  | .imad o sc ty sat => o.alu3 sc && ty.word3 sat
  | .imadw o ty _ => o.wf true false false && o.dVec 2 && o.c.pair && ty.signed32
  | .and o sc => o.alu2 sc
  | .or o sc => o.alu2 sc
  | .xor o sc => o.alu2 sc
  | .not o => o.alu1 false
  | .lgc3 o _ => o.alu3 false
  | .shl o sc _ => o.alu2 sc
  | .shr o sc _ => o.alu2 sc
  | .sar o _ => o.alu2 false
  | .rot o => o.alu2 false
  | .fshf o _ => o.alu3 false
  | .bfe o ty => o.alu3 false && ty.signed32
  | .bfi o => o.alu3 false
  | .popc o => o.alu1 false
  | .clz o => o.alu1 false
  | .brev o => o.alu1 false
  | .bysel o => o.alu3 false
  | .lea o ty sh => o.wf true false false && o.dVec 2 && o.a.pair && o.noC && ty.signed32 && decide (sh.toNat ≤ 4)
  | .isetp o ty op qn q c =>
      wfCmp o op qn q && (!ty.wide || (o.a.pair && o.b.pair)) && c != .num && c != .nan
  | .fsetp o _ op qn q _ => wfCmp o op qn q
  | .iaddP o ty => o.wf false false false && o.dPred && o.noC && ty.word3 false
  | .isubP o ty => o.wf false false false && o.dPred && o.noC && ty.word3 false
  | .imulP o ty => o.wf false false false && o.dPred && o.noC && ty.signed32
  | .lgc3P o _ => o.wf false false false && o.dPred
  | .plop o _ _ _ =>
      o.wf false false false && o.dPred && o.noB && o.noC && (match o.a with | .imm _ => true | _ => false)
  | .pmov o => o.wf true false false && o.dVec 1 && o.noA && o.noB && o.noC
  | .pmovP o _ => o.wf false false false && o.dPred && o.noB && o.noC
  | .bra o => wfBranch o
  | .braAny o _ _ => wfBranch o
  | .braAll o _ _ => wfBranch o
  | .brx o => o.wf false false false && o.dNone && o.noB && o.noC
  | .call o => wfBranch o
  | .callx o => o.wf false false false && o.dNone && o.noB && o.noC
  | .ret o => o.wf false false false && o.dNone && o.noA && o.noB && o.noC
  | .exit o => o.wf false false false && o.dNone && o.noA && o.noB && o.noC
  | .conv o => o.wf false false false && o.dNone && o.noB && o.noC
  | .nop o => o.wf false false false && o.dNone && o.noA && o.noB && o.noC
  | .pause o => o.wf false false false && o.dNone && o.noB && o.noC
  | .sread o sc code => o.wf true false false && o.dForm sc 1 && o.noA && o.noB && o.noC && sregCode code.toNat
  | .sreadW o code => o.wf true false false && o.dVec 2 && o.noA && o.noB && o.noC && (code == 0x18 || code == 0x1A)
  | .swrite o code => o.wf false false false && o.dNone && o.noB && o.noC && (code == 0x20 || code == 0x21)
  | .launch o => o.wf false false false && o.dVec 1 && o.b.alignedTo 2 true false && o.noC
  | .prog o =>
      o.wf false false false && o.dNone && o.noB && o.noC
      && (match o.a with
          | .imm k => decide (k.toNat < 16)
          | .imm32 => decide (o.imm.toNat < 16)
          | .s _ => true
          | _ => false)
  | .lxchIdx o w _ => wfLxch o w
  | .lxchRot o w _ => wfLxch o w
  | .lxchRev o w _ => wfLxch o w && o.noB
  | .lxchXor o w _ => wfLxch o w
  | .lxchS o _ => o.wf false false false && o.dScal 1 && o.b.uniform && o.noC
  | .lqryAll o _ _ => o.wf false false false && o.dPred && o.noA && o.noB && wfMask o
  | .lqryAny o _ _ => o.wf false false false && o.dPred && o.noA && o.noB && wfMask o
  | .lqrySame o _ _ => o.wf false false false && o.dPred && o.noA && o.noB && wfMask o
  | .lgath o sc rank _ _ =>
      o.wf false false false && o.dForm sc 1 && o.noA && o.noB && wfMask o && (!sc || !rank)
  | .match_ o wide =>
      o.wf false false false && o.dVec 1 && o.noB && wfMask o && (!wide || o.a.pair)
  | .redl o sc op ty sat =>
      o.wf false false false && o.dForm sc 1 && o.noB && wfMask o && ty.word3 false
      && ((op != .min && op != .max) || ty.signed32) && (!sat || (op == .add && ty.signed32))
  | .redlF o _ _ => o.wf false false false && o.dVec 1 && o.noB && wfMask o
  | .fadd o _ sc m => o.alu2 sc && m.only true false true true true true true
  | .fsub o ty sc m => o.alu2 sc && m.only true false true true true true true && (!sc || ty == .f32)
  | .fmul o _ sc m => o.alu2 sc && m.only true false true true true true true
  | .ffma o _ sc m => o.alu3 sc && m.only true true true true true true true
  | .fmin o _ sc m => o.alu2 sc && m.only false false true true true true false
  | .fmax o _ sc m => o.alu2 sc && m.only false false true true true true false
  | .fdp2 o ty _ => o.alu3 false && (ty != .f32 || (o.a.pair && o.b.pair))
  | .frnd o ty sc m => o.alu1 sc && m.only false false false true false true true && (!sc || ty == .f32)
  | .fclass o _ => o.alu1 false
  | .fclassP o _ => o.wf false false false && o.dPred && o.noC
  | .frcp o f _ _ => wfTransc o f
  | .frsq o f _ _ => wfTransc o f
  | .fsqrt o f _ _ => wfTransc o f
  | .fexp2 o f _ _ => wfTransc o f
  | .flog2 o f _ _ => wfTransc o f
  | .fsin o f _ _ => wfTransc o f
  | .fcos o f _ _ => wfTransc o f
  | .frcpIeee o m => wfTransc o .f32 && m.only false false false true false true true
  | .fsqrtIeee o m => wfTransc o .f32 && m.only false false false true false true true
  | .cvt o dst src sc hi sat _ =>
      o.wf true false false && o.dForm sc (if dst.is64 then 2 else 1) && o.srcForm sc true false false
      && o.noB && o.noC && (!src.is64 || o.a.pair) && (!hi || src.isHalf) && (!sat || (src.isInt && dst.isInt))
      && (!sc || dst == .f32 || dst == .i32 || dst == .n32 || dst == .i64)
  | .cvq2 o _ _ => o.wf true false false && o.dVec 1 && o.noC && (o.a.isVector || o.a.isLatch) && o.a.alignedTo 2 true false
  | .cvq4 o _ _ => o.wf true false false && o.dVec 1 && o.noC && o.a.isVector && o.a.alignedTo 4 false false
  | .cvq8 o _ => o.wf true false false && o.dVec 1 && o.noC && o.a.isVector && o.a.alignedTo 8 false false
  | .cvx2 o _ => o.wf true false false && o.dVec 2 && o.noC
  | .cvx4 o _ => o.wf true false false && o.dVec 4 && o.noC
  | .cvx8 o _ => o.wf true false false && o.dVec 8 && o.noC
  | .ldg o m x => wfLoad o m x false
  | .stg o m x => wfStore o m x false
  | .ldp o m x => wfLoad o m x false
  | .stp o m x => wfStore o m x false
  | .lds o m x => wfLoad o m x false
  | .sts o m x => wfStore o m x false
  | .ldx o m x => wfLoad o m x true
  | .stx o m x => wfStore o m x true
  | .ldf o m x =>
      if m.xy then o.wf false true false && o.noA && o.dVec m.ty.regs && m.coord o x else wfLoad o m x true
  | .stf o m x =>
      if m.xy then o.wf false true false && o.dNone && m.dataOk o && m.coord o x else wfStore o m x true
  | .ldw o m x => wfLoad o m x false
  | .stw o m x => wfStore o m x false
  | .ldk o m x => wfScalarLoad o m x
  | .ldsS o m x => wfScalarLoad o m x && m.ty.regs == 1
  | .pfg o m x => o.wf false true true && o.dNone && o.noA && !m.xy && m.ty == .b32 && m.addr o false && x.hintOnly o.len
  | .stew o _ x =>
      o.wf false true false && o.dScal 1 && o.noC && o.b.isScalar && o.b.alignedTo 8 false false && x.unusedIn o.len
  | .atomg o p ord w _ _ x =>
      wfAtom o p (if w then 2 else 1) false && o.dVec (if w then 2 else 1) && x.atomOk o.len false 1 ord
  | .atomgCas o p ord w x => wfAtom o p w.regs false && o.dVec w.regs && x.atomOk o.len true w.regs ord
  | .atomgF o p ord _ _ x => wfAtom o p 1 false && o.dVec 1 && x.atomOk o.len false 1 ord
  | .redg o p w _ op x => wfAtom o p (if w then 2 else 1) false && o.dNone && x.atomOk o.len false 1 .none && op != .exch
  | .redgF o p _ _ x => wfAtom o p 1 false && o.dNone && x.atomOk o.len false 1 .none
  | .atoms o p k x => wfAtom o p k.regs false && o.dVec k.regs && x.atomOk o.len k.isCas k.regs .none
  | .atomx o p k x => wfAtom o p k.regs true && o.dVec k.regs && x.atomOk o.len k.isCas k.regs .none
  | .lda o m x =>
      o.wf false true true && o.noA && o.dVec m.ty.regs && !m.xy && m.addr o false && x.scopeHint o.len
  | .stl o m x =>
      o.wf false true true && o.dNone && m.dataOk o && !m.xy && m.addr o false && x.scopeHint o.len
  | .fence o x => o.wf false true false && o.dNone && o.noA && o.noB && o.noC && x.scopeOnly o.len
  | .fencex o _ _ x => o.wf false true false && o.dNone && o.noA && o.noB && o.noC && x.scopeOnly o.len
  | .barrive o _ x => wfBar o x true false
  | .bwait o _ x => wfBar o x true false
  | .bsync o _ x => wfBar o x true false
  | .barrd o _ x => wfBar o x true true
  | .binit o _ x => wfBar o x true false
  | .balloc o x => o.wf false true false && o.dScal 1 && o.noA && o.noB && o.noC && x.unusedIn o.len
  | .bfree o x => o.wf false true false && o.dNone && o.noB && o.noC && x.unusedIn o.len
  | .rowbook o p q sc x =>
      o.wf false true true && o.dScal 1 && o.noA && o.baseOk p && o.indexOk sc && q != 7 && x.unusedIn o.len
  | .rowjoin o q x => o.wf false true false && o.dNone && o.noB && o.noC && q != 7 && x.unusedIn o.len
  | .rowfree o x => o.wf false true false && o.dNone && o.noB && o.noC && x.unusedIn o.len
  | .tlbiPage o x => o.wf false true false && o.dScal 1 && o.b.alignedTo 2 false true && x.unusedIn o.len
  | .tlbiSpace o x => o.wf false true false && o.dScal 1 && o.noB && o.noC && x.unusedIn o.len
  | .tlbiAll o x => o.wf false true false && o.dScal 1 && o.noA && o.noB && o.noC && x.unusedIn o.len
  | .msvtx o => o.wf false false false && o.dNone
  | .msvtxB128 o => o.wf false false false && o.dNone && o.a.alignedTo 4 false false
  | .msprim o => o.wf false false false && o.dNone && o.noC
  | .mscount o => o.wf false false false && o.dNone && o.noC
  | .interp o _ _ => o.wf false false false && o.dVec 1 && o.noB && o.noC && o.a.uniform
  | .derivX o _ => o.wf false false false && o.dVec 1 && o.noB && o.noC && o.a.isVector
  | .derivY o _ => o.wf false false false && o.dVec 1 && o.noB && o.noC && o.a.isVector
  | .fragexp o =>
      o.wf false false false && o.dNone && o.noC && o.a.isRegister && o.a.alignedTo 4 false false
      && (match o.b with | .imm k => decide (k.toNat < 8) | _ => false)
  | .fragexpZ o => o.wf false false false && o.dNone && o.noB && o.noC
  | .fragkill o => o.wf false false false && o.dNone && o.noA && o.noB && o.noC
  | .rocbeg o => o.wf false false false && o.len == .w64 && o.dNone && o.noA && o.noB && o.noC
  | .rocend o => o.wf false false false && o.len == .w64 && o.dNone && o.noA && o.noB && o.noC
  | .tex o => wfTex o && o.a.isRegister && o.noC
  | .texL o => wfTex o && o.a.isRegister
  | .texG o => wfTex o && o.a.isRegister && o.c.isRegister
  | .texld o => wfTex o && o.a.isRegister
  | .texq o => wfTex o && o.noC
  | .satom o p xy w sgn op x =>
      (match op with | .fadd => !w && !sgn | .int _ => true)
      && o.wf false true (!xy)
      && (!o.a.isImm32 && (!w || o.a.alignedTo 2 false true)) && o.dVec (if w then 2 else 1)
      && (if xy then o.len == .w128 && o.imm == 0 && !p && !o.b.isImm && !o.c.isImm32 && !x.e.isImm32
                     && decide ({ x with e := .v 0 } = { e := .v 0, d2 := 0, d2e := false, scope := .group, hint := 0 })
          else p && o.baseOk p && !o.c.isImm32 && x.unusedIn o.len)
  | .satomCas o p w x =>
      o.wf false true true && (!o.a.isImm32 && (!w || o.a.alignedTo 2 false true))
      && o.dVec (if w then 2 else 1) && p && o.baseOk p && !o.c.isImm32
      && x.atomOk o.len true (if w then 2 else 1) .none
  | .cpgather o _ _ x => o.wf false true false && o.dNone && o.noC && x.unusedIn o.len
  | .cpscatter o _ _ x => o.wf false true false && o.dNone && o.noC && x.unusedIn o.len
  | .cpscatterAdd o _ _ x => o.wf false true false && o.dNone && o.noC && x.unusedIn o.len
  | .cpwait o p x =>
      o.wf false true false && o.dNone && o.noC && o.a.uniform && x.unusedIn o.len
      && (if p then o.b.isScalar && o.b.alignedTo 2 false false else o.b.uniform)
  | .cptest o p x =>
      o.wf false true false && o.dPred && o.noC && o.a.uniform && x.unusedIn o.len
      && (if p then o.b.isScalar && o.b.alignedTo 2 false false else o.b.uniform)
  | .cpclr o p x =>
      o.wf false true false && o.dNone && o.noC && o.a.uniform && x.unusedIn o.len
      && (if p then o.b.isScalar && o.b.alignedTo 2 false false else o.b.uniform)
  | .cpsrcw o x => o.wf false true false && o.dNone && o.noC && o.a.uniform && o.b.uniform && x.unusedIn o.len
  | .mput o w =>
      o.wf false false false && decide (o.d.toNat < 16) && o.noC
      && (match w with
          | .w4 => !o.a.isImm
          | .w8 => o.a.alignedTo 2 true false
          | .w16 => o.a.alignedTo 4 false false)
  | .mld o => o.preds && decide (o.d.toNat < 16) && o.noA && o.b.streamReg 16 && o.c.streamReg 16 && !o.ru && !o.cl
  | .mldV o _ =>
      o.preds && decide (o.d.toNat < 16) && o.noA && o.b.streamReg 16 && o.c.streamReg 16 && o.imm == 0 && !o.ru && !o.cl
  | .mma o v _ satf => wfMul o v satf false && !satf
  | .mmq o v _ satf => wfMul o v satf false
  | .mmqP o v _ satf => wfMul o v satf true
  | .mmi o v _ satf => wfMul o v satf false
  | .mclr o _ =>
      o.preds && o.plain && decide (o.d.toNat < 64) && o.noA && o.noB && o.c.streamReg 16 && o.imm == 0
  | .mst o tA tB scl _ => wfMst o tA tB scl false
  | .mstV o tA tB scl _ => wfMst o tA tB scl true
  | .mbar o =>
      o.preds && o.plain && o.d == 0 && o.noC && (match o.a with | .imm k => decide (k.toNat < 20) | _ => false)
      && (match o.b with | .imm _ => o.imm == 0 | .imm32 => true | _ => false)
  | .mbw o =>
      o.preds && o.plain && o.d == 0 && o.noC && o.imm == 0
      && (match o.a with | .imm k => decide (k.toNat < 20) | _ => false)
      && (match o.b with | .imm k => decide (k.toNat < 2) | _ => false)
  | .mnop o => o.preds && o.plain && o.d == 0 && o.noA && o.noB && o.noC && o.imm == 0
  | .msetImm o => o.control && decide (o.d.toNat < 16) && o.noA && o.noB && o.noC
  | .msetHi o => o.control && decide (o.d.toNat < 16) && o.noA && o.noB && o.noC
  | .msetArg o => o.control && decide (o.d.toNat < 16) && o.noA && o.noB && o.noC && decide (o.imm.toNat < 16)
  | .msetArghi o => o.control && decide (o.d.toNat < 16) && o.noA && o.noB && o.noC && decide (o.imm.toNat < 16)
  | .msetSr o =>
      o.control && decide (o.d.toNat < 16) && o.noA && o.noB && o.noC
      && decide (0x02 ≤ o.imm.toNat) && decide (o.imm.toNat ≤ 0x12)
  | .msetC o =>
      o.control && decide (o.d.toNat < 8) && o.a.streamRegOrImm 16 && o.noB && o.noC && (o.a.isImm32 || o.imm == 0)
  | .maddk o =>
      o.control && decide (o.d.toNat < 16) && o.a.streamReg 16 && o.b.streamRegOrImm 16 && o.noC
      && (o.b.isImm32 || o.imm == 0)
  | .mloop o => o.control && o.d == 0 && o.a.streamReg 8 && o.noB && o.noC && o.imm.toNat % 16 == 0
  | .mjmp o => o.control && o.d == 0 && o.noA && o.noB && o.noC && o.imm.toNat % 16 == 0
  | .mend o => o.control && o.d == 0 && o.noA && o.noB && o.noC && o.imm == 0
  | .trap o => o.wf false false false && o.dNone && o.noB && o.noC
  | .trapLegacy o => o.wf false false false && o.dNone && o.noC
  | .bkpt o => o.wf false false false && o.dNone && o.noB && o.noC
  | .rtt o => wfPorter o false false false && o.dNone
  | .haltt o => wfPorter o true false false && o.dScal 1
  | .gbread o q => wfPorter o false false false && o.dScal 16 && q != 7
  | .pkrd o => wfPorter o true true false && o.dScal 1
  | .pkwr o => wfPorter o true true true && o.dScal 1
  | .resume o => wfPorter o true false false && o.dScal 1
  | .resumeSkip o => wfPorter o true false false && o.dScal 1
  | .killt o => wfPorter o true false false && o.dScal 1
  | .killtG o => wfPorter o true false false && o.dScal 1
  | _ => true

end Sys2Proof
end

