-- ==== Sys2Proof/Decode.lean ====
section
/-! DEFINITION. The decoder and the encoder of instruction words (R147 to R165). The decoder is
total on any bytes and rejects by the name of the cause; the encoder is written from the same tables. -/

namespace Sys2Proof

/-- Why bytes are no instruction, with the names of Table 09-17. `truncated`: fewer bytes than the word needs. -/
inductive DecErr where
  | truncated
  | lenReserved
  | illegalOpcode
  | illegalOperand
  deriving DecidableEq, Repr

/-- Length in bytes of a word (R147). -/
def Len.bytes : Len → Nat
  | .w64 => 8
  | .w96 => 12
  | .w128 => 16

def Len.code : Len → Nat
  | .w64 => 0
  | .w96 => 1
  | .w128 => 2

def Len.ofCode : Nat → Option Len
  | 0 => some .w64
  | 1 => some .w96
  | 2 => some .w128
  | _ => none

/-- A source field from its ten bits (Table 09-2). -/
def Src.ofBits (x : Nat) : Option Src :=
  if x < 256 then some (.v (BitVec.ofNat 8 x))
  else if x < 320 then some (.s (BitVec.ofNat 6 (x - 256)))
  else if x < 324 then some (.y (BitVec.ofNat 2 (x - 320)))
  else if x < 512 then none
  else if x < 768 then some (.imm (BitVec.ofNat 8 (x - 512)))
  else if x = 768 then some .imm32
  else none

def IntTy.ofCode : Nat → Option IntTy
  | 0 => some .b32
  | 1 => some .i8
  | 2 => some .i16
  | 3 => some .i32
  | 4 => some .i64
  | 5 => some .n8
  | 6 => some .n16
  | 7 => some .n32
  | 8 => some .n64
  | _ => none

def Rnd.ofCode : Nat → Option Rnd
  | 0 => some .rne
  | 1 => some .rtz
  | 2 => some .rdn
  | 3 => some .rup
  | 4 => some .rna
  | 5 => some .dyn
  | _ => none

def Scope.ofCode : Nat → Option Scope
  | 0 => some .group
  | 1 => some .team
  | 2 => some .cluster
  | 3 => some .die
  | 4 => some .device
  | 5 => some .system
  | _ => none

def CmpOp.ofCode : Nat → CmpOp
  | 0 => .none
  | 1 => .and
  | 2 => .or
  | _ => .xor

def Cmp.ofCode : Nat → Cmp
  | 0 => .eq
  | 1 => .ne
  | 2 => .lt
  | 3 => .le
  | 4 => .gt
  | 5 => .ge
  | 6 => .num
  | _ => .nan

def CvtTy.ofCode : Nat → Option CvtTy
  | 0 => some .f32
  | 1 => some .f16
  | 2 => some .bf16
  | 3 => some .i32
  | 4 => some .n32
  | 5 => some .i64
  | 6 => some .n64
  | _ => none

def RedOp.ofCode : Nat → Option RedOp
  | 0 => some .add
  | 1 => some .min
  | 2 => some .max
  | 3 => some .and
  | 4 => some .or
  | 5 => some .xor
  | _ => none

def FRedOp.ofCode : Nat → Option FRedOp
  | 0 => some .add
  | 1 => some .min
  | 2 => some .max
  | _ => none

def FTy.ofCode : Nat → Option FTy
  | 0 => some .f32
  | 1 => some .f16x2
  | 2 => some .bf16x2
  | _ => none

/-- WIDTH of Table 12-1 for an unmarked opcode. -/
def MTy.ofWidth : Nat → Option MTy
  | 0 => some .b32
  | 1 => some .i8
  | 2 => some .i16
  | 5 => some .n8
  | 6 => some .n16
  | _ => none

def Ord3.ofCode : Nat → Ord3
  | 0 => .none
  | 1 => .acq
  | 2 => .rel
  | _ => .ar

def AtOp.ofCode : Nat → Option AtOp
  | 0 => some .add
  | 1 => some .min
  | 2 => some .max
  | 3 => some .and
  | 4 => some .or
  | 5 => some .xor
  | 6 => some .exch
  | _ => none

def Path.ofCode : Nat → Option Path
  | 0 => some .v
  | 1 => some .m
  | 2 => some .c
  | 3 => some .f
  | 4 => some .w
  | 5 => some .h
  | _ => none

def InterpMode.ofCode : Nat → Option InterpMode
  | 0 => some .persp
  | 1 => some .linear
  | 2 => some .flat
  | _ => none

/-- Opcode of a word, OPC (Table 09-1). -/
def opcOf (w : Nat) : Nat := bitField 11 3 w

/-- Assigned opcodes (Tables 09-9 to 09-16). -/
def opcAssigned (c : Nat) : Bool :=
  (1 ≤ c && c ≤ 0x2E) || (0x40 ≤ c && c ≤ 0x50) || (0x58 ≤ c && c ≤ 0x62) || (0x68 ≤ c && c ≤ 0x6D)
  || (0x80 ≤ c && c ≤ 0x9D) || (0xA0 ≤ c && c ≤ 0xAD)
  || (0xC0 ≤ c && c ≤ 0xC6) || (0xC8 ≤ c && c ≤ 0xCB) || (0xD0 ≤ c && c ≤ 0xD5)
  || (0xE0 ≤ c && c ≤ 0xE6) || (0xE8 ≤ c && c ≤ 0xEE) || (0xF0 ≤ c && c ≤ 0xF6) || c == 0xF8 || c == 0xF9
  || (0x100 ≤ c && c ≤ 0x129) || (0x140 ≤ c && c ≤ 0x15A) || (0x160 ≤ c && c ≤ 0x166)
  || (0x168 ≤ c && c ≤ 0x16A) || c == 0x170
  || (0x180 ≤ c && c ≤ 0x18D) || (0x190 ≤ c && c ≤ 0x1A2) || (0x1A8 ≤ c && c ≤ 0x1AE)
  || (0x1C0 ≤ c && c ≤ 0x1D5) || (0x1D8 ≤ c && c ≤ 0x1DA) || (0x1E0 ≤ c && c ≤ 0x1E3)
  || (0x1E8 ≤ c && c ≤ 0x1EE)

/-- Stream opcodes (R162). -/
def opcStream (c : Nat) : Bool := 0x1C0 ≤ c && c ≤ 0x1D5

/-- Privileged opcodes (R162): RTT, HALTT, GBREAD, PKRD, PKWR, RESUME, RESUME.SKIP, KILLT, KILLT.G, TLBI. -/
def opcPrivileged (c : Nat) : Bool := c == 0x1E2 || c == 0x1E3 || (0x1E8 ≤ c && c ≤ 0x1EE) || c == 0x170

/-- Opcodes of the memory class, which use the X layout of Table 09-5 (R157). -/
def opcMemClass (c : Nat) : Bool :=
  (0x100 ≤ c && c ≤ 0x17F) || (0x1A8 ≤ c && c ≤ 0x1AE) || c == 0x1A1 || c == 0x1A2

/-- The base word's fields, IMM32 included, from the word's bits. -/
def Ops.ofBits (len : Len) (w : Nat) : Option Ops :=
  match Src.ofBits (bitField 34 25 w), Src.ofBits (bitField 44 35 w), Src.ofBits (bitField 54 45 w) with
  | some a, some b, some c => some {
      len := len, rb := bitField 2 2 w == 1, g := BitVec.ofNat 3 (bitField 14 12 w),
      gn := bitField 15 15 w == 1, nw := bitField 24 24 w == 1, d := BitVec.ofNat 8 (bitField 23 16 w),
      a := a, b := b, c := c, imm := BitVec.ofNat 32 (bitField 95 64 w) }
  | _, _, _ => none

/-- The defaults of a word without X (R157). -/
def MemX.default : MemX := { e := .v 0, d2 := 0, d2e := false, scope := .device, hint := 0 }

/-- The X word of the memory class (Table 09-5); bits 103:96 are reserved. -/
def MemX.ofBits (len : Len) (w : Nat) : Option MemX :=
  match len with
  | .w128 =>
    match Src.ofBits (bitField 127 118 w), Scope.ofCode (bitField 108 106 w) with
    | some e, some sc =>
      if bitField 103 96 w = 0 then
        some { e := e, d2 := BitVec.ofNat 8 (bitField 117 110 w), d2e := bitField 109 109 w == 1,
               scope := sc, hint := BitVec.ofNat 2 (bitField 105 104 w) }
      else none
    | _, _ => none
  | _ => some MemX.default

/-- A stream word's fields (R245): G = 7, GN = NW = RB = 0 (R151), bits 102:96 reserved (Table 09-7). -/
def SOps.ofBits (len : Len) (w : Nat) : Option SOps :=
  match len, Src.ofBits (bitField 34 25 w), Src.ofBits (bitField 44 35 w), Src.ofBits (bitField 54 45 w) with
  | .w128, some a, some b, some c =>
    if bitField 14 12 w = 7 ∧ bitField 15 15 w = 0 ∧ bitField 24 24 w = 0 ∧ bitField 2 2 w = 0
        ∧ bitField 102 96 w = 0 then
      some { d := BitVec.ofNat 8 (bitField 23 16 w), a := a, b := b, c := c,
             imm := BitVec.ofNat 32 (bitField 95 64 w), cid := BitVec.ofNat 6 (bitField 127 122 w),
             v0 := bitField 121 121 w == 1, pred0 := BitVec.ofNat 6 (bitField 120 115 w),
             v1 := bitField 114 114 w == 1, pred1 := BitVec.ofNat 6 (bitField 113 108 w),
             slot := BitVec.ofNat 3 (bitField 107 105 w), ru := bitField 104 104 w == 1,
             cl := bitField 103 103 w == 1 }
    else none
  | _, _, _, _ => none

/-- `i` when the bits of M outside `mask` are zero (R153). -/
def mOnly (m mask : Nat) (i : Option Instr) : Option Instr :=
  if m &&& (0x1FF ^^^ mask) = 0 then i else none

/-- The integer modifier field (Table 10-1) with SAT and TYPE. -/
def mInt (m : Nat) (f : IntTy → Bool → Instr) : Option Instr :=
  mOnly m 0xF8 ((IntTy.ofCode (bitField 6 3 m)).map (fun t => f t (bitField 7 7 m == 1)))
/-- The integer modifier field with TYPE alone. -/
def mTy (m : Nat) (f : IntTy → Instr) : Option Instr :=
  mOnly m 0x78 ((IntTy.ofCode (bitField 6 3 m)).map f)
/-- Shifts: WRAP in M[8]. -/
def mTop (m : Nat) (f : Bool → Instr) : Option Instr := mOnly m 0x100 (some (f (bitField 8 8 m == 1)))
/-- A predicate operand: Q in M[2:0], negated by M[3]. -/
def mPred (m : Nat) (f : Bool → BitVec 3 → Instr) : Option Instr :=
  mOnly m 0xF (some (f (bitField 3 3 m == 1) (BitVec.ofNat 3 (bitField 2 0 m))))
/-- Compares (Table 10-6). -/
def mCmp (m : Nat) (f : CmpOp → Bool → BitVec 3 → Cmp → Instr) : Option Instr :=
  some (f (CmpOp.ofCode (bitField 8 7 m)) (bitField 6 6 m == 1) (BitVec.ofNat 3 (bitField 5 3 m))
    (Cmp.ofCode (bitField 2 0 m)))
/-- LXCH: w in M[2:0], pV in M[6:4]. -/
def mLxch (m : Nat) (f : BitVec 3 → BitVec 3 → Instr) : Option Instr :=
  mOnly m 0x77 (some (f (BitVec.ofNat 3 (bitField 2 0 m)) (BitVec.ofNat 3 (bitField 6 4 m))))
/-- Floating-point modifiers (Table 11-3). -/
def mF (m : Nat) (f : FMod → Instr) : Option Instr :=
  (Rnd.ofCode (bitField 2 0 m)).map (fun r => f {
    satn := bitField 8 8 m == 1, nc := bitField 7 7 m == 1, nb := bitField 6 6 m == 1,
    na := bitField 5 5 m == 1, ab := bitField 4 4 m == 1, aa := bitField 3 3 m == 1, rnd := r })
/-- Approximate functions: NA and AA only. -/
def mTr (m : Nat) (f : Bool → Bool → Instr) : Option Instr :=
  mOnly m 0x28 (some (f (bitField 5 5 m == 1) (bitField 3 3 m == 1)))
/-- CVT (Table 11-9). -/
def mCvt (m : Nat) (f : CvtTy → Bool → Bool → Rnd → Instr) : Option Instr :=
  match CvtTy.ofCode (bitField 7 4 m), Rnd.ofCode (bitField 2 0 m) with
  | some s, some r => some (f s (bitField 8 8 m == 1) (bitField 3 3 m == 1) r)
  | _, _ => none
/-- CVQ with SATF, CVX and CVQ8 without. -/
def mSlotF (m : Nat) (f : Bool → BitVec 3 → Instr) : Option Instr :=
  mOnly m 0xF (some (f (bitField 3 3 m == 1) (BitVec.ofNat 3 (bitField 2 0 m))))
def mSlot (m : Nat) (f : BitVec 3 → Instr) : Option Instr :=
  mOnly m 0x7 (some (f (BitVec.ofNat 3 (bitField 2 0 m))))
/-- Loads and stores (Table 12-1); `ty` is the width of a .B64 or .B128 opcode. -/
def mMem (m : Nat) (ty : Option MTy) (f : MMod → Instr) : Option Instr :=
  let mk := fun t => f { p := bitField 8 8 m == 1, xy := bitField 7 7 m == 1, ty := t,
                         sc := BitVec.ofNat 3 (bitField 2 0 m) }
  match ty with
  | none => (MTy.ofWidth (bitField 6 3 m)).map mk
  | some t => if bitField 6 3 m = 0 then some (mk t) else none
/-- Integer atomics (Table 12-5). -/
def mAt (m : Nat) (f : Bool → Ord3 → Bool → AtOp → Instr) : Option Instr :=
  mOnly m 0x1E7 ((AtOp.ofCode (bitField 2 0 m)).map
    (f (bitField 8 8 m == 1) (Ord3.ofCode (bitField 7 6 m)) (bitField 5 5 m == 1)))
def mAtCas (m : Nat) (f : Bool → Ord3 → Instr) : Option Instr :=
  mOnly m 0x1C0 (some (f (bitField 8 8 m == 1) (Ord3.ofCode (bitField 7 6 m))))
def mAtF (m : Nat) (f : Bool → Ord3 → FTy → FRedOp → Instr) : Option Instr :=
  mOnly m 0x1F3 (match FTy.ofCode (bitField 5 4 m), FRedOp.ofCode (bitField 1 0 m) with
    | some t, some op => some (f (bitField 8 8 m == 1) (Ord3.ofCode (bitField 7 6 m)) t op)
    | _, _ => none)
/-- Forms whose ORD must be 00 (REDG, ATOMS, ATOMX). -/
def noOrd (m : Nat) (i : Option Instr) : Option Instr := if bitField 7 6 m = 0 then i else none
/-- Channel and template of a gather or scatter (Table 14-2). -/
def mCp (m : Nat) (f : BitVec 3 → BitVec 6 → Instr) : Option Instr :=
  some (f (BitVec.ofNat 3 (bitField 8 6 m)) (BitVec.ofNat 6 (bitField 5 0 m)))
/-- Multiplies (Table 13-4): slot B in M[2:0], SATF in M[3]. -/
def mMul (m : Nat) (f : BitVec 3 → Bool → Instr) : Option Instr :=
  mOnly m 0xF (some (f (BitVec.ofNat 3 (bitField 2 0 m)) (bitField 3 3 m == 1)))
def mMst (m : Nat) (f : BitVec 3 → BitVec 3 → Bool → Bool → Instr) : Option Instr :=
  mOnly m 0xFF (some (f (BitVec.ofNat 3 (bitField 2 0 m)) (BitVec.ofNat 3 (bitField 5 3 m))
    (bitField 6 6 m == 1) (bitField 7 7 m == 1)))
def m0 (m : Nat) (i : Instr) : Option Instr := if m = 0 then some i else none

/-- Blocks 0 and 1 (Tables 09-9 and 09-10). -/
def ofOpcInt (c m : Nat) (o : Ops) : Option Instr :=
  match c with
  | 0x001 => m0 m (.mov o false)
  | 0x002 => m0 m (.mov o true)
  | 0x003 => m0 m (.movi o false)
  | 0x004 => m0 m (.movi o true)
  | 0x005 => mPred m (.sel o false)
  | 0x006 => mPred m (.sel o true)
  | 0x007 => mOnly m 0x7F ((IntTy.ofCode (bitField 6 3 m)).map
      (fun t => .lea o t (BitVec.ofNat 3 (bitField 2 0 m))))
  | 0x008 => m0 m (.bysel o)
  | 0x009 => mInt m (.iadd o false)
  | 0x00A => mInt m (.iadd o true)
  | 0x00B => mInt m (.isub o false)
  | 0x00C => mInt m (.isub o true)
  | 0x00D => mOnly m 0x1F8 ((IntTy.ofCode (bitField 6 3 m)).map
      (fun t => .iadd64 o false t (bitField 7 7 m == 1) (bitField 8 8 m == 1)))
  | 0x00E => mOnly m 0x1F8 ((IntTy.ofCode (bitField 6 3 m)).map
      (fun t => .iadd64 o true t (bitField 7 7 m == 1) (bitField 8 8 m == 1)))
  | 0x00F => if bitField 6 3 m = 3 then mOnly m 0xF8 (some (.iabs o (bitField 7 7 m == 1))) else none
  | 0x010 => if bitField 6 3 m = 3 then mOnly m 0xF8 (some (.ineg o (bitField 7 7 m == 1))) else none
  | 0x011 => mInt m (.imul o false)
  | 0x012 => mInt m (.imul o true)
  | 0x013 => mTy m (.imulh o)
  | 0x014 => mInt m (.imad o false)
  | 0x015 => mInt m (.imad o true)
  | 0x016 => mInt m (.imadw o)
  | 0x017 => mTy m (.imin o false)
  | 0x018 => mTy m (.imin o true)
  | 0x019 => mTy m (.imax o false)
  | 0x01A => mTy m (.imax o true)
  | 0x01B => m0 m (.and o false)
  | 0x01C => m0 m (.and o true)
  | 0x01D => m0 m (.or o false)
  | 0x01E => m0 m (.or o true)
  | 0x01F => m0 m (.xor o false)
  | 0x020 => m0 m (.xor o true)
  | 0x021 => m0 m (.not o)
  | 0x022 => mOnly m 0xFF (some (.lgc3 o (BitVec.ofNat 8 m)))
  | 0x023 => mTop m (.shl o false)
  | 0x024 => mTop m (.shl o true)
  | 0x025 => mTop m (.shr o false)
  | 0x026 => mTop m (.shr o true)
  | 0x027 => mTop m (.sar o)
  | 0x028 => m0 m (.rot o)
  | 0x029 => mTop m (.fshf o)
  | 0x02A => mTy m (.bfe o)
  | 0x02B => m0 m (.bfi o)
  | 0x02C => m0 m (.popc o)
  | 0x02D => m0 m (.clz o)
  | 0x02E => m0 m (.brev o)
  | 0x040 => mCmp m (.isetp o .i32)
  | 0x041 => mCmp m (.isetp o .n32)
  | 0x042 => mCmp m (.isetp o .i64)
  | 0x043 => mCmp m (.isetp o .n64)
  | 0x044 => mCmp m (.isetp o .i16x2)
  | 0x045 => mCmp m (.isetp o .n16x2)
  | 0x046 => mCmp m (.fsetp o .f32)
  | 0x047 => mCmp m (.fsetp o .f16x2)
  | 0x048 => mCmp m (.fsetp o .bf16x2)
  | 0x049 => mOnly m 0x180 ((FTy.ofCode (bitField 8 7 m)).map (.fclassP o))
  | 0x04A => some (.plop o (BitVec.ofNat 3 (bitField 8 6 m)) (BitVec.ofNat 3 (bitField 5 3 m))
      (BitVec.ofNat 3 (bitField 2 0 m)))
  | 0x04B => m0 m (.pmov o)
  | 0x04C => mOnly m 0x1F (some (.pmovP o (BitVec.ofNat 5 m)))
  | 0x04D => mTy m (.iaddP o)
  | 0x04E => mTy m (.isubP o)
  | 0x04F => mTy m (.imulP o)
  | 0x050 => mOnly m 0xFF (some (.lgc3P o (BitVec.ofNat 8 m)))
  | 0x058 => m0 m (.bra o)
  | 0x059 => mPred m (.braAny o)
  | 0x05A => mPred m (.braAll o)
  | 0x05B => m0 m (.brx o)
  | 0x05C => m0 m (.call o)
  | 0x05D => m0 m (.callx o)
  | 0x05E => m0 m (.ret o)
  | 0x05F => m0 m (.exit o)
  | 0x060 => m0 m (.conv o)
  | 0x061 => m0 m (.nop o)
  | 0x062 => m0 m (.pause o)
  | 0x068 => mOnly m 0xFF (some (.sread o false (BitVec.ofNat 8 m)))
  | 0x069 => mOnly m 0xFF (some (.sread o true (BitVec.ofNat 8 m)))
  | 0x06A => mOnly m 0xFF (some (.sreadW o (BitVec.ofNat 8 m)))
  | 0x06B => mOnly m 0xFF (some (.swrite o (BitVec.ofNat 8 m)))
  | 0x06C => m0 m (.launch o)
  | 0x06D => m0 m (.prog o)
  | _ => none

/-- Blocks 2 and 3 (Tables 09-11 and 09-12). -/
def ofOpcFloat (c m : Nat) (o : Ops) : Option Instr :=
  match c with
  | 0x080 => mF m (.fadd o .f32 false)
  | 0x081 => mF m (.fsub o .f32 false)
  | 0x082 => mF m (.fmul o .f32 false)
  | 0x083 => mF m (.ffma o .f32 false)
  | 0x084 => mF m (.fmin o .f32 false)
  | 0x085 => mF m (.fmax o .f32 false)
  | 0x086 => m0 m (.fclass o .f32)
  | 0x087 => mF m (.frnd o .f32 false)
  | 0x088 => mF m (.fdp2 o .f32)
  | 0x089 => mF m (.fadd o .f32 true)
  | 0x08A => mF m (.fsub o .f32 true)
  | 0x08B => mF m (.fmul o .f32 true)
  | 0x08C => mF m (.ffma o .f32 true)
  | 0x08D => mF m (.fmin o .f32 true)
  | 0x08E => mF m (.fmax o .f32 true)
  | 0x08F => mF m (.frnd o .f32 true)
  | 0x090 => mF m (.fadd o .f16x2 false)
  | 0x091 => mF m (.fsub o .f16x2 false)
  | 0x092 => mF m (.fmul o .f16x2 false)
  | 0x093 => mF m (.ffma o .f16x2 false)
  | 0x094 => mF m (.fmin o .f16x2 false)
  | 0x095 => mF m (.fmax o .f16x2 false)
  | 0x096 => m0 m (.fclass o .f16x2)
  | 0x097 => mF m (.frnd o .f16x2 false)
  | 0x098 => mF m (.fdp2 o .f16x2)
  | 0x099 => mF m (.fadd o .f16x2 true)
  | 0x09A => mF m (.fmul o .f16x2 true)
  | 0x09B => mF m (.ffma o .f16x2 true)
  | 0x09C => mF m (.fmin o .f16x2 true)
  | 0x09D => mF m (.fmax o .f16x2 true)
  | 0x0A0 => mF m (.fadd o .bf16x2 false)
  | 0x0A1 => mF m (.fsub o .bf16x2 false)
  | 0x0A2 => mF m (.fmul o .bf16x2 false)
  | 0x0A3 => mF m (.ffma o .bf16x2 false)
  | 0x0A4 => mF m (.fmin o .bf16x2 false)
  | 0x0A5 => mF m (.fmax o .bf16x2 false)
  | 0x0A6 => m0 m (.fclass o .bf16x2)
  | 0x0A7 => mF m (.frnd o .bf16x2 false)
  | 0x0A8 => mF m (.fdp2 o .bf16x2)
  | 0x0A9 => mF m (.fadd o .bf16x2 true)
  | 0x0AA => mF m (.fmul o .bf16x2 true)
  | 0x0AB => mF m (.ffma o .bf16x2 true)
  | 0x0AC => mF m (.fmin o .bf16x2 true)
  | 0x0AD => mF m (.fmax o .bf16x2 true)
  | 0x0C0 => mCvt m (fun s hi sat r => .cvt o .f32 s false hi sat r)
  | 0x0C1 => mCvt m (fun s hi sat r => .cvt o .f16 s false hi sat r)
  | 0x0C2 => mCvt m (fun s hi sat r => .cvt o .bf16 s false hi sat r)
  | 0x0C3 => mCvt m (fun s hi sat r => .cvt o .i32 s false hi sat r)
  | 0x0C4 => mCvt m (fun s hi sat r => .cvt o .n32 s false hi sat r)
  | 0x0C5 => mCvt m (fun s hi sat r => .cvt o .i64 s false hi sat r)
  | 0x0C6 => mCvt m (fun s hi sat r => .cvt o .n64 s false hi sat r)
  | 0x0C8 => mCvt m (fun s hi sat r => .cvt o .f32 s true hi sat r)
  | 0x0C9 => mCvt m (fun s hi sat r => .cvt o .i32 s true hi sat r)
  | 0x0CA => mCvt m (fun s hi sat r => .cvt o .n32 s true hi sat r)
  | 0x0CB => mCvt m (fun s hi sat r => .cvt o .i64 s true hi sat r)
  | 0x0D0 => mSlotF m (.cvq2 o)
  | 0x0D1 => mSlotF m (.cvq4 o)
  | 0x0D2 => mSlot m (.cvq8 o)
  | 0x0D3 => mSlot m (.cvx2 o)
  | 0x0D4 => mSlot m (.cvx4 o)
  | 0x0D5 => mSlot m (.cvx8 o)
  | 0x0E0 => mTr m (.frcp o .f32)
  | 0x0E1 => mTr m (.frsq o .f32)
  | 0x0E2 => mTr m (.fsqrt o .f32)
  | 0x0E3 => mTr m (.fexp2 o .f32)
  | 0x0E4 => mTr m (.flog2 o .f32)
  | 0x0E5 => mTr m (.fsin o .f32)
  | 0x0E6 => mTr m (.fcos o .f32)
  | 0x0E8 => mTr m (.frcp o .f16x2)
  | 0x0E9 => mTr m (.frsq o .f16x2)
  | 0x0EA => mTr m (.fsqrt o .f16x2)
  | 0x0EB => mTr m (.fexp2 o .f16x2)
  | 0x0EC => mTr m (.flog2 o .f16x2)
  | 0x0ED => mTr m (.fsin o .f16x2)
  | 0x0EE => mTr m (.fcos o .f16x2)
  | 0x0F0 => mTr m (.frcp o .sf32)
  | 0x0F1 => mTr m (.frsq o .sf32)
  | 0x0F2 => mTr m (.fsqrt o .sf32)
  | 0x0F3 => mTr m (.fexp2 o .sf32)
  | 0x0F4 => mTr m (.flog2 o .sf32)
  | 0x0F5 => mTr m (.fsin o .sf32)
  | 0x0F6 => mTr m (.fcos o .sf32)
  | 0x0F8 => mF m (.frcpIeee o)
  | 0x0F9 => mF m (.fsqrtIeee o)
  | _ => none

/-- Blocks 4 and 5, SATOM and the copy opcodes: the memory class (Tables 09-13 to 09-15). -/
def ofOpcMem (c m : Nat) (o : Ops) (x : MemX) : Option Instr :=
  match c with
  | 0x100 => mMem m none (fun k => .ldg o k x)
  | 0x101 => mMem m (some .b64) (fun k => .ldg o k x)
  | 0x102 => mMem m (some .b128) (fun k => .ldg o k x)
  | 0x103 => mMem m none (fun k => .stg o k x)
  | 0x104 => mMem m (some .b64) (fun k => .stg o k x)
  | 0x105 => mMem m (some .b128) (fun k => .stg o k x)
  | 0x106 => mMem m none (fun k => .ldp o k x)
  | 0x107 => mMem m (some .b64) (fun k => .ldp o k x)
  | 0x108 => mMem m (some .b128) (fun k => .ldp o k x)
  | 0x109 => mMem m none (fun k => .stp o k x)
  | 0x10A => mMem m (some .b64) (fun k => .stp o k x)
  | 0x10B => mMem m (some .b128) (fun k => .stp o k x)
  | 0x10C => mMem m none (fun k => .lds o k x)
  | 0x10D => mMem m (some .b64) (fun k => .lds o k x)
  | 0x10E => mMem m (some .b128) (fun k => .lds o k x)
  | 0x10F => mMem m none (fun k => .sts o k x)
  | 0x110 => mMem m (some .b64) (fun k => .sts o k x)
  | 0x111 => mMem m (some .b128) (fun k => .sts o k x)
  | 0x112 => mMem m none (fun k => .ldx o k x)
  | 0x113 => mMem m (some .b64) (fun k => .ldx o k x)
  | 0x114 => mMem m (some .b128) (fun k => .ldx o k x)
  | 0x115 => mMem m none (fun k => .stx o k x)
  | 0x116 => mMem m (some .b64) (fun k => .stx o k x)
  | 0x117 => mMem m (some .b128) (fun k => .stx o k x)
  | 0x118 => mMem m none (fun k => .ldf o k x)
  | 0x119 => mMem m (some .b64) (fun k => .ldf o k x)
  | 0x11A => mMem m (some .b128) (fun k => .ldf o k x)
  | 0x11B => mMem m none (fun k => .stf o k x)
  | 0x11C => mMem m (some .b64) (fun k => .stf o k x)
  | 0x11D => mMem m (some .b128) (fun k => .stf o k x)
  | 0x11E => mMem m none (fun k => .ldw o k x)
  | 0x11F => mMem m (some .b64) (fun k => .ldw o k x)
  | 0x120 => mMem m (some .b128) (fun k => .ldw o k x)
  | 0x121 => mMem m none (fun k => .stw o k x)
  | 0x122 => mMem m (some .b64) (fun k => .stw o k x)
  | 0x123 => mMem m (some .b128) (fun k => .stw o k x)
  | 0x124 => mMem m none (fun k => .ldk o k x)
  | 0x125 => mMem m (some .b64) (fun k => .ldk o k x)
  | 0x126 => mMem m (some .b128) (fun k => .ldk o k x)
  | 0x127 => mMem m none (fun k => .ldsS o k x)
  | 0x128 => mMem m (some .b32) (fun k => .pfg o k x)
  | 0x129 => mOnly m 0x100 (some (.stew o (bitField 8 8 m == 1) x))
  | 0x140 => mMem m none (fun k => .lda o k x)
  | 0x141 => mMem m (some .b64) (fun k => .lda o k x)
  | 0x142 => mMem m (some .b128) (fun k => .lda o k x)
  | 0x143 => mMem m none (fun k => .stl o k x)
  | 0x144 => mMem m (some .b64) (fun k => .stl o k x)
  | 0x145 => mMem m (some .b128) (fun k => .stl o k x)
  | 0x146 => m0 m (.fence o x)
  | 0x147 => mOnly m 0x3F (match Path.ofCode (bitField 5 3 m), Path.ofCode (bitField 2 0 m) with
      | some p, some q => some (.fencex o p q x)
      | _, _ => none)
  | 0x148 => mAt m (fun p ord sgn op => .atomg o p ord false sgn op x)
  | 0x149 => mAt m (fun p ord sgn op => .atomg o p ord true sgn op x)
  | 0x14A => mAtCas m (fun p ord => .atomgCas o p ord .w4 x)
  | 0x14B => mAtCas m (fun p ord => .atomgCas o p ord .w8 x)
  | 0x14C => mAtCas m (fun p ord => .atomgCas o p ord .w16 x)
  | 0x14D => mAtF m (fun p ord ft op => .atomgF o p ord ft op x)
  | 0x14E => noOrd m (mAt m (fun p _ sgn op => .redg o p false sgn op x))
  | 0x14F => noOrd m (mAt m (fun p _ sgn op => .redg o p true sgn op x))
  | 0x150 => noOrd m (mAtF m (fun p _ ft op => .redgF o p ft op x))
  | 0x151 => noOrd m (mAt m (fun p _ sgn op => .atoms o p (.int false sgn op) x))
  | 0x152 => noOrd m (mAt m (fun p _ sgn op => .atoms o p (.int true sgn op) x))
  | 0x153 => noOrd m (mAtCas m (fun p _ => .atoms o p (.cas false) x))
  | 0x154 => noOrd m (mAtCas m (fun p _ => .atoms o p (.cas true) x))
  | 0x155 => noOrd m (mAtF m (fun p _ ft op => .atoms o p (.flt ft op) x))
  | 0x156 => noOrd m (mAt m (fun p _ sgn op => .atomx o p (.int false sgn op) x))
  | 0x157 => noOrd m (mAt m (fun p _ sgn op => .atomx o p (.int true sgn op) x))
  | 0x158 => noOrd m (mAtCas m (fun p _ => .atomx o p (.cas false) x))
  | 0x159 => noOrd m (mAtCas m (fun p _ => .atomx o p (.cas true) x))
  | 0x15A => noOrd m (mAtF m (fun p _ ft op => .atomx o p (.flt ft op) x))
  | 0x160 => mTop m (fun h => .barrive o h x)
  | 0x161 => mTop m (fun h => .bwait o h x)
  | 0x162 => mTop m (fun h => .bsync o h x)
  | 0x163 => mTop m (fun h => .barrd o h x)
  | 0x164 => m0 m (.balloc o x)
  | 0x165 => m0 m (.bfree o x)
  | 0x166 => mTop m (fun h => .binit o h x)
  | 0x168 => mOnly m 0x13F (some (.rowbook o (bitField 8 8 m == 1) (BitVec.ofNat 3 (bitField 5 3 m))
      (BitVec.ofNat 3 (bitField 2 0 m)) x))
  | 0x169 => mOnly m 0x38 (some (.rowjoin o (BitVec.ofNat 3 (bitField 5 3 m)) x))
  | 0x16A => m0 m (.rowfree o x)
  | 0x170 => match m with
      | 0 => some (.tlbiPage o x)
      | 1 => some (.tlbiSpace o x)
      | 2 => some (.tlbiAll o x)
      | _ => none
  | 0x1A1 => mOnly m 0x19F ((if bitField 2 0 m = 7 then some SatOp.fadd
        else (AtOp.ofCode (bitField 2 0 m)).map .int).map
      (fun op => .satom o (bitField 8 8 m == 1) (bitField 7 7 m == 1) (bitField 4 4 m == 1)
        (bitField 3 3 m == 1) op x))
  | 0x1A2 => mOnly m 0x110 (some (.satomCas o (bitField 8 8 m == 1) (bitField 4 4 m == 1) x))
  | 0x1A8 => mCp m (fun ch t => .cpgather o ch t x)
  | 0x1A9 => mCp m (fun ch t => .cpscatter o ch t x)
  | 0x1AA => mCp m (fun ch t => .cpscatterAdd o ch t x)
  | 0x1AB => mTop m (fun p => .cpwait o p x)
  | 0x1AC => mTop m (fun p => .cptest o p x)
  | 0x1AD => mTop m (fun p => .cpclr o p x)
  | 0x1AE => m0 m (.cpsrcw o x)
  | _ => none

/-- The lane-exchange and graphics opcodes of block 6, and the vector opcodes of block 7
(Tables 09-15, 09-16). -/
def ofOpcMisc (c m : Nat) (o : Ops) : Option Instr :=
  match c with
  | 0x180 => mLxch m (.lxchIdx o)
  | 0x181 => mLxch m (.lxchRot o)
  | 0x182 => mLxch m (.lxchRev o)
  | 0x183 => mLxch m (.lxchXor o)
  | 0x184 => if bitField 2 0 m = 5 then mOnly m 0x77 (some (.lxchS o (BitVec.ofNat 3 (bitField 6 4 m)))) else none
  | 0x185 => mPred m (.lqryAll o)
  | 0x186 => mPred m (.lqryAny o)
  | 0x187 => mPred m (.lqrySame o)
  | 0x188 => mOnly m 0x1F (some (.lgath o false (bitField 4 4 m == 1) (bitField 3 3 m == 1)
      (BitVec.ofNat 3 (bitField 2 0 m))))
  | 0x189 => mPred m (.lgath o true false)
  | 0x18A => mTop m (.match_ o)
  | 0x18B => mOnly m 0xFF (match RedOp.ofCode (bitField 2 0 m), IntTy.ofCode (bitField 6 3 m) with
      | some op, some t => some (.redl o false op t (bitField 7 7 m == 1))
      | _, _ => none)
  | 0x18C => mOnly m 0xFF (match RedOp.ofCode (bitField 2 0 m), IntTy.ofCode (bitField 6 3 m) with
      | some op, some t => some (.redl o true op t (bitField 7 7 m == 1))
      | _, _ => none)
  | 0x18D => mOnly m 0x1F (match FRedOp.ofCode (bitField 4 3 m), Rnd.ofCode (bitField 2 0 m) with
      | some op, some r => some (.redlF o op r)
      | _, _ => none)
  | 0x190 => m0 m (.msvtx o)
  | 0x191 => m0 m (.msvtxB128 o)
  | 0x192 => m0 m (.msprim o)
  | 0x193 => m0 m (.mscount o)
  | 0x194 => mOnly m 0x7 ((InterpMode.ofCode (bitField 1 0 m)).map (fun k => .interp o k (bitField 2 2 m == 1)))
  | 0x195 => mOnly m 0x1 (some (.derivX o (m == 1)))
  | 0x196 => mOnly m 0x1 (some (.derivY o (m == 1)))
  | 0x197 => m0 m (.fragexp o)
  | 0x198 => m0 m (.fragexpZ o)
  | 0x199 => m0 m (.fragkill o)
  | 0x19A => m0 m (.rocbeg o)
  | 0x19B => m0 m (.rocend o)
  | 0x19C => m0 m (.tex o)
  | 0x19D => m0 m (.texL o)
  | 0x19E => m0 m (.texG o)
  | 0x19F => m0 m (.texld o)
  | 0x1A0 => m0 m (.texq o)
  | 0x1D8 => m0 m (.mput o .w4)
  | 0x1D9 => m0 m (.mput o .w8)
  | 0x1DA => m0 m (.mput o .w16)
  | 0x1E0 => match m with
      | 0 => some (.trap o)
      | 1 => some (.trapLegacy o)
      | _ => none
  | 0x1E1 => m0 m (.bkpt o)
  | 0x1E2 => m0 m (.rtt o)
  | 0x1E3 => m0 m (.haltt o)
  | 0x1E8 => mOnly m 0x7 (some (.gbread o (BitVec.ofNat 3 m)))
  | 0x1E9 => m0 m (.pkrd o)
  | 0x1EA => m0 m (.pkwr o)
  | 0x1EB => m0 m (.resume o)
  | 0x1EC => m0 m (.resumeSkip o)
  | 0x1ED => m0 m (.killt o)
  | 0x1EE => m0 m (.killtG o)
  | _ => none

/-- The stream opcodes (Table 09-16). -/
def ofOpcStream (c m : Nat) (o : SOps) : Option Instr :=
  match c with
  | 0x1C0 => m0 m (.mld o)
  | 0x1C1 => mOnly m 0x80 (some (.mldV o (bitField 7 7 m == 1)))
  | 0x1C2 => mMul m (.mma o false)
  | 0x1C3 => mMul m (.mma o true)
  | 0x1C4 => mMul m (.mmq o false)
  | 0x1C5 => mMul m (.mmqP o false)
  | 0x1C6 => mMul m (.mmq o true)
  | 0x1C7 => mMul m (.mmqP o true)
  | 0x1C8 => mMul m (.mmi o false)
  | 0x1C9 => mMul m (.mmi o true)
  | 0x1CA => mOnly m 0x1 (some (.mclr o (m == 1)))
  | 0x1CB => mMst m (.mst o)
  | 0x1CC => mMst m (.mstV o)
  | 0x1CD => m0 m (.mbar o)
  | 0x1CE => m0 m (.mbw o)
  | 0x1CF => m0 m (.mnop o)
  | 0x1D0 => match m with
      | 0 => some (.msetImm o)
      | 1 => some (.msetHi o)
      | 2 => some (.msetArg o)
      | 3 => some (.msetArghi o)
      | 4 => some (.msetSr o)
      | _ => none
  | 0x1D1 => m0 m (.msetC o)
  | 0x1D2 => m0 m (.maddk o)
  | 0x1D3 => m0 m (.mloop o)
  | 0x1D4 => m0 m (.mjmp o)
  | 0x1D5 => m0 m (.mend o)
  | _ => none

/-- The instruction of a word whose length and opcode have passed their checks: decode check 7,
less the launch's register count (R164). -/
def decodeFields (len : Len) (w : Nat) : Option Instr :=
  let c := opcOf w
  let m := bitField 63 55 w
  if opcStream c then (SOps.ofBits len w).bind (ofOpcStream c m)
  else match Ops.ofBits len w with
    | none => none
    | some o =>
      if opcMemClass c then (MemX.ofBits len w).bind (ofOpcMem c m o)
      else if c < 0x80 then ofOpcInt c m o
      else if c < 0x100 then ofOpcFloat c m o
      else ofOpcMisc c m o

/-- Decode one word given as a number, bit 0 the least significant bit of its first byte; `avail`
is how many bytes are at hand. Answers the instruction and its length. (DEDUCED, log 12.) -/
def decodeWord (avail w : Nat) : Except DecErr (Instr × Nat) :=
  if avail < 8 then .error .truncated
  else match Len.ofCode (w % 4) with
    | none => .error .lenReserved
    | some len =>
      if avail < len.bytes then .error .truncated
      else if !opcAssigned (opcOf w) then .error .illegalOpcode
      else
        let w' := w % 2 ^ (8 * len.bytes)
        match decodeFields len w' with
        | some i => if i.wf then .ok (i, len.bytes) else .error .illegalOperand
        | none => .error .illegalOperand

/-- Bytes as a little-endian number (R147). -/
def bytesToNat : List Byte → Nat
  | [] => 0
  | b :: bs => b.toNat + 256 * bytesToNat bs

/-- The low `n` bytes of a number, in little-endian order. -/
def natToBytes : Nat → Nat → List Byte
  | 0, _ => []
  | n + 1, x => BitVec.ofNat 8 x :: natToBytes n (x / 256)

/-- The decoder on bytes: total, and rejecting by name. -/
def decode (bs : List Byte) : Except DecErr (Instr × Nat) := decodeWord bs.length (bytesToNat bs)

/-- The instruction that the decoder reads from a table row's bits: a word of `nbits` bits whose
higher bits, up to 128, are zero. -/
def decodeTableWord (nbits w : Nat) : Option Instr :=
  match decode (natToBytes 16 (w % 2 ^ nbits)) with
  | .ok (i, _) => some i
  | .error _ => none

/-! ### The encoder -/

/-- The ten bits of a source field (Table 09-2). -/
def Src.bits : Src → Nat
  | .v n => n.toNat
  | .s n => 256 + n.toNat
  | .y n => 320 + n.toNat
  | .imm i => 512 + i.toNat
  | .imm32 => 768

def IntTy.code : IntTy → Nat
  | .b32 => 0
  | .i8 => 1
  | .i16 => 2
  | .i32 => 3
  | .i64 => 4
  | .n8 => 5
  | .n16 => 6
  | .n32 => 7
  | .n64 => 8

def Rnd.code : Rnd → Nat
  | .rne => 0
  | .rtz => 1
  | .rdn => 2
  | .rup => 3
  | .rna => 4
  | .dyn => 5

def Scope.code : Scope → Nat
  | .group => 0
  | .team => 1
  | .cluster => 2
  | .die => 3
  | .device => 4
  | .system => 5

def CmpOp.code : CmpOp → Nat
  | .none => 0
  | .and => 1
  | .or => 2
  | .xor => 3

def Cmp.code : Cmp → Nat
  | .eq => 0
  | .ne => 1
  | .lt => 2
  | .le => 3
  | .gt => 4
  | .ge => 5
  | .num => 6
  | .nan => 7

def CmpTy.code : CmpTy → Nat
  | .i32 => 0
  | .n32 => 1
  | .i64 => 2
  | .n64 => 3
  | .i16x2 => 4
  | .n16x2 => 5

def CvtTy.code : CvtTy → Nat
  | .f32 => 0
  | .f16 => 1
  | .bf16 => 2
  | .i32 => 3
  | .n32 => 4
  | .i64 => 5
  | .n64 => 6

def RedOp.code : RedOp → Nat
  | .add => 0
  | .min => 1
  | .max => 2
  | .and => 3
  | .or => 4
  | .xor => 5

def FRedOp.code : FRedOp → Nat
  | .add => 0
  | .min => 1
  | .max => 2

def FTy.code : FTy → Nat
  | .f32 => 0
  | .f16x2 => 1
  | .bf16x2 => 2

def MTy.width : MTy → Nat
  | .i8 => 1
  | .i16 => 2
  | .n8 => 5
  | .n16 => 6
  | _ => 0

/-- How far a width's opcode lies above the unmarked one: .B64 by 1, .B128 by 2. -/
def MTy.opc : MTy → Nat
  | .b64 => 1
  | .b128 => 2
  | _ => 0

def Ord3.code : Ord3 → Nat
  | .none => 0
  | .acq => 1
  | .rel => 2
  | .ar => 3

def AtOp.code : AtOp → Nat
  | .add => 0
  | .min => 1
  | .max => 2
  | .and => 3
  | .or => 4
  | .xor => 5
  | .exch => 6

def SatOp.code : SatOp → Nat
  | .int op => op.code
  | .fadd => 7

def Path.code : Path → Nat
  | .v => 0
  | .m => 1
  | .c => 2
  | .f => 3
  | .w => 4
  | .h => 5

def InterpMode.code : InterpMode → Nat
  | .persp => 0
  | .linear => 1
  | .flat => 2

def W3.opc : W3 → Nat
  | .w4 => 0
  | .w8 => 1
  | .w16 => 2

/-- One bit at a place. -/
def bitAt (b : Bool) (k : Nat) : Nat := if b then 2 ^ k else 0

def FMod.bits (m : FMod) : Nat :=
  m.rnd.code + bitAt m.aa 3 + bitAt m.ab 4 + bitAt m.na 5 + bitAt m.nb 6 + bitAt m.nc 7 + bitAt m.satn 8

def MMod.bits (m : MMod) : Nat := m.sc.toNat + m.ty.width * 8 + bitAt m.xy 7 + bitAt m.p 8

/-- Base word and IMM32 (Table 09-1) of opcode `c` and modifier `m`. -/
def Ops.word (o : Ops) (c m : Nat) : Nat :=
  o.len.code + bitAt o.rb 2 + c * 2 ^ 3 + o.g.toNat * 2 ^ 12 + bitAt o.gn 15 + o.d.toNat * 2 ^ 16
  + bitAt o.nw 24 + o.a.bits * 2 ^ 25 + o.b.bits * 2 ^ 35 + o.c.bits * 2 ^ 45 + m * 2 ^ 55
  + o.imm.toNat * 2 ^ 64

/-- The X word of the memory class, in place (Table 09-5); shorter words have none. -/
def MemX.word (x : MemX) (len : Len) : Nat :=
  match len with
  | .w128 => x.e.bits * 2 ^ 118 + x.d2.toNat * 2 ^ 110 + bitAt x.d2e 109 + x.scope.code * 2 ^ 106
      + x.hint.toNat * 2 ^ 104
  | _ => 0

/-- A stream word (R245, Table 09-7). -/
def SOps.word (o : SOps) (c m : Nat) : Nat :=
  2 + c * 2 ^ 3 + 7 * 2 ^ 12 + o.d.toNat * 2 ^ 16 + o.a.bits * 2 ^ 25 + o.b.bits * 2 ^ 35
  + o.c.bits * 2 ^ 45 + m * 2 ^ 55 + o.imm.toNat * 2 ^ 64
  + bitAt o.cl 103 + bitAt o.ru 104 + o.slot.toNat * 2 ^ 105 + o.pred1.toNat * 2 ^ 108 + bitAt o.v1 114
  + o.pred0.toNat * 2 ^ 115 + bitAt o.v0 121 + o.cid.toNat * 2 ^ 122

/-- A word: its length in bytes and its bits. -/
abbrev EncWord := Nat × Nat

def encO (o : Ops) (c m : Nat) : Option EncWord := some (o.len.bytes, o.word c m)
def encX (o : Ops) (x : MemX) (c m : Nat) : Option EncWord := some (o.len.bytes, o.word c m + x.word o.len)
def encS (o : SOps) (c m : Nat) : Option EncWord := some (16, o.word c m)

/-- Opcode of a form with vector and scalar opcodes. -/
def scOpc (sc : Bool) (v s : Nat) : Nat := if sc then s else v
/-- Opcode by floating-point type, vector or .S. -/
def fOpc (ty : FTy) (sc : Bool) (v s0 s1 : Nat) : Nat :=
  match ty, sc with
  | .f32, false => 0x080 + v
  | .f16x2, false => 0x090 + v
  | .bf16x2, false => 0x0A0 + v
  | .f32, true => s0
  | .f16x2, true => 0x090 + s1
  | .bf16x2, true => 0x0A0 + s1
def tOpc (f : TForm) (k : Nat) : Nat :=
  match f with
  | .f32 => 0x0E0 + k
  | .f16x2 => 0x0E8 + k
  | .sf32 => 0x0F0 + k
def trBits (na aa : Bool) : Nat := bitAt na 5 + bitAt aa 3
def mInt' (ty : IntTy) (sat : Bool) : Nat := ty.code * 8 + bitAt sat 7
def mPred' (neg : Bool) (q : BitVec 3) : Nat := q.toNat + bitAt neg 3
def mCmp' (op : CmpOp) (qn : Bool) (q : BitVec 3) (c : Cmp) : Nat :=
  c.code + q.toNat * 8 + bitAt qn 6 + op.code * 128
def mLxch' (w pv : BitVec 3) : Nat := w.toNat + pv.toNat * 16
def mAt' (p : Bool) (ord : Ord3) (sgn : Bool) (op : AtOp) : Nat :=
  op.code + bitAt sgn 5 + ord.code * 64 + bitAt p 8
def mAtF' (p : Bool) (ord : Ord3) (ft : FTy) (op : FRedOp) : Nat :=
  op.code + ft.code * 16 + ord.code * 64 + bitAt p 8
/-- Opcode and M of an ATOMS or ATOMX whose 4 B integer opcode is `c`. -/
def atEnc (p : Bool) (k : AtKind) (c : Nat) : Nat × Nat :=
  match k with
  | .int w sgn op => (c + (if w then 1 else 0), mAt' p .none sgn op)
  | .cas w => (c + (if w then 3 else 2), bitAt p 8)
  | .flt ft op => (c + 4, mAtF' p .none ft op)
def mMul' (slotB : BitVec 3) (satf : Bool) : Nat := slotB.toNat + bitAt satf 3
def mMst' (tA tB : BitVec 3) (scl satf : Bool) : Nat := tA.toNat + tB.toNat * 8 + bitAt scl 6 + bitAt satf 7
def cpBits (ch : BitVec 3) (t : BitVec 6) : Nat := t.toNat + ch.toNat * 64
def cvtOpc (dst : CvtTy) (sc : Bool) : Nat :=
  if sc then (match dst with | .f32 => 0x0C8 | .i32 => 0x0C9 | .n32 => 0x0CA | _ => 0x0CB) else 0x0C0 + dst.code

/-- The word of a well-formed instruction; none for the steps that no word encodes. -/
def encode : Instr → Option EncWord
  | .mov o sc => encO o (scOpc sc 0x001 0x002) 0
  | .movi o sc => encO o (scOpc sc 0x003 0x004) 0
  | .sel o sc n q => encO o (scOpc sc 0x005 0x006) (mPred' n q)
  | .iadd o sc ty sat => encO o (scOpc sc 0x009 0x00A) (mInt' ty sat)
  | .isub o sc ty sat => encO o (scOpc sc 0x00B 0x00C) (mInt' ty sat)
  | .iabs o sat => encO o 0x00F (mInt' .i32 sat)
  | .ineg o sat => encO o 0x010 (mInt' .i32 sat)
  | .imin o sc ty => encO o (scOpc sc 0x017 0x018) (mInt' ty false)
  | .imax o sc ty => encO o (scOpc sc 0x019 0x01A) (mInt' ty false)
  | .iadd64 o sc ty sat w => encO o (scOpc sc 0x00D 0x00E) (mInt' ty sat + bitAt w 8)
  | .imul o sc ty sat => encO o (scOpc sc 0x011 0x012) (mInt' ty sat)
  | .imulh o ty => encO o 0x013 (mInt' ty false)
  | .imad o sc ty sat => encO o (scOpc sc 0x014 0x015) (mInt' ty sat)
  | .imadw o ty sat => encO o 0x016 (mInt' ty sat)
  | .and o sc => encO o (scOpc sc 0x01B 0x01C) 0
  | .or o sc => encO o (scOpc sc 0x01D 0x01E) 0
  | .xor o sc => encO o (scOpc sc 0x01F 0x020) 0
  | .not o => encO o 0x021 0
  | .lgc3 o t => encO o 0x022 t.toNat
  | .shl o sc w => encO o (scOpc sc 0x023 0x024) (bitAt w 8)
  | .shr o sc w => encO o (scOpc sc 0x025 0x026) (bitAt w 8)
  | .sar o w => encO o 0x027 (bitAt w 8)
  | .rot o => encO o 0x028 0
  | .fshf o l => encO o 0x029 (bitAt l 8)
  | .bfe o ty => encO o 0x02A (mInt' ty false)
  | .bfi o => encO o 0x02B 0
  | .popc o => encO o 0x02C 0
  | .clz o => encO o 0x02D 0
  | .brev o => encO o 0x02E 0
  | .bysel o => encO o 0x008 0
  | .lea o ty sh => encO o 0x007 (mInt' ty false + sh.toNat)
  | .isetp o ty op qn q c => encO o (0x040 + ty.code) (mCmp' op qn q c)
  | .fsetp o ty op qn q c => encO o (0x046 + ty.code) (mCmp' op qn q c)
  | .iaddP o ty => encO o 0x04D (mInt' ty false)
  | .isubP o ty => encO o 0x04E (mInt' ty false)
  | .imulP o ty => encO o 0x04F (mInt' ty false)
  | .lgc3P o t => encO o 0x050 t.toNat
  | .plop o pa pb pc => encO o 0x04A (pc.toNat + pb.toNat * 8 + pa.toNat * 64)
  | .pmov o => encO o 0x04B 0
  | .pmovP o b => encO o 0x04C b.toNat
  | .bra o => encO o 0x058 0
  | .braAny o n q => encO o 0x059 (mPred' n q)
  | .braAll o n q => encO o 0x05A (mPred' n q)
  | .brx o => encO o 0x05B 0
  | .call o => encO o 0x05C 0
  | .callx o => encO o 0x05D 0
  | .ret o => encO o 0x05E 0
  | .exit o => encO o 0x05F 0
  | .conv o => encO o 0x060 0
  | .nop o => encO o 0x061 0
  | .pause o => encO o 0x062 0
  | .sread o sc code => encO o (scOpc sc 0x068 0x069) code.toNat
  | .sreadW o code => encO o 0x06A code.toNat
  | .swrite o code => encO o 0x06B code.toNat
  | .launch o => encO o 0x06C 0
  | .prog o => encO o 0x06D 0
  | .lxchIdx o w pv => encO o 0x180 (mLxch' w pv)
  | .lxchRot o w pv => encO o 0x181 (mLxch' w pv)
  | .lxchRev o w pv => encO o 0x182 (mLxch' w pv)
  | .lxchXor o w pv => encO o 0x183 (mLxch' w pv)
  | .lxchS o pv => encO o 0x184 (mLxch' 5 pv)
  | .lqryAll o n q => encO o 0x185 (mPred' n q)
  | .lqryAny o n q => encO o 0x186 (mPred' n q)
  | .lqrySame o n q => encO o 0x187 (mPred' n q)
  | .lgath o sc rank n q => encO o (scOpc sc 0x188 0x189) (mPred' n q + bitAt rank 4)
  | .match_ o w => encO o 0x18A (bitAt w 8)
  | .redl o sc op ty sat => encO o (scOpc sc 0x18B 0x18C) (op.code + mInt' ty sat)
  | .redlF o op r => encO o 0x18D (r.code + op.code * 8)
  | .fadd o ty sc m => encO o (fOpc ty sc 0 0x089 9) m.bits
  | .fsub o ty sc m => encO o (fOpc ty sc 1 0x08A 0) m.bits
  | .fmul o ty sc m => encO o (fOpc ty sc 2 0x08B 10) m.bits
  | .ffma o ty sc m => encO o (fOpc ty sc 3 0x08C 11) m.bits
  | .fmin o ty sc m => encO o (fOpc ty sc 4 0x08D 12) m.bits
  | .fmax o ty sc m => encO o (fOpc ty sc 5 0x08E 13) m.bits
  | .fdp2 o ty m => encO o (fOpc ty false 8 0 0) m.bits
  | .frnd o ty sc m => encO o (fOpc ty sc 7 0x08F 0) m.bits
  | .fclass o ty => encO o (fOpc ty false 6 0 0) 0
  | .fclassP o ty => encO o 0x049 (ty.code * 128)
  | .frcp o f na aa => encO o (tOpc f 0) (trBits na aa)
  | .frsq o f na aa => encO o (tOpc f 1) (trBits na aa)
  | .fsqrt o f na aa => encO o (tOpc f 2) (trBits na aa)
  | .fexp2 o f na aa => encO o (tOpc f 3) (trBits na aa)
  | .flog2 o f na aa => encO o (tOpc f 4) (trBits na aa)
  | .fsin o f na aa => encO o (tOpc f 5) (trBits na aa)
  | .fcos o f na aa => encO o (tOpc f 6) (trBits na aa)
  | .frcpIeee o m => encO o 0x0F8 m.bits
  | .fsqrtIeee o m => encO o 0x0F9 m.bits
  | .cvt o dst src sc hi sat r =>
      encO o (cvtOpc dst sc) (r.code + bitAt sat 3 + src.code * 16 + bitAt hi 8)
  | .cvq2 o f s => encO o 0x0D0 (mPred' f s)
  | .cvq4 o f s => encO o 0x0D1 (mPred' f s)
  | .cvq8 o s => encO o 0x0D2 s.toNat
  | .cvx2 o s => encO o 0x0D3 s.toNat
  | .cvx4 o s => encO o 0x0D4 s.toNat
  | .cvx8 o s => encO o 0x0D5 s.toNat
  | .ldg o m x => encX o x (0x100 + m.ty.opc) m.bits
  | .stg o m x => encX o x (0x103 + m.ty.opc) m.bits
  | .ldp o m x => encX o x (0x106 + m.ty.opc) m.bits
  | .stp o m x => encX o x (0x109 + m.ty.opc) m.bits
  | .lds o m x => encX o x (0x10C + m.ty.opc) m.bits
  | .sts o m x => encX o x (0x10F + m.ty.opc) m.bits
  | .ldx o m x => encX o x (0x112 + m.ty.opc) m.bits
  | .stx o m x => encX o x (0x115 + m.ty.opc) m.bits
  | .ldf o m x => encX o x (0x118 + m.ty.opc) m.bits
  | .stf o m x => encX o x (0x11B + m.ty.opc) m.bits
  | .ldw o m x => encX o x (0x11E + m.ty.opc) m.bits
  | .stw o m x => encX o x (0x121 + m.ty.opc) m.bits
  | .ldk o m x => encX o x (0x124 + m.ty.opc) m.bits
  | .ldsS o m x => encX o x 0x127 m.bits
  | .pfg o m x => encX o x 0x128 m.bits
  | .stew o w x => encX o x 0x129 (bitAt w 8)
  | .atomg o p ord w sgn op x => encX o x (0x148 + (if w then 1 else 0)) (mAt' p ord sgn op)
  | .atomgCas o p ord w x => encX o x (0x14A + w.opc) (ord.code * 64 + bitAt p 8)
  | .atomgF o p ord ft op x => encX o x 0x14D (mAtF' p ord ft op)
  | .redg o p w sgn op x => encX o x (0x14E + (if w then 1 else 0)) (mAt' p .none sgn op)
  | .redgF o p ft op x => encX o x 0x150 (mAtF' p .none ft op)
  | .atoms o p k x => encX o x (atEnc p k 0x151).1 (atEnc p k 0x151).2
  | .atomx o p k x => encX o x (atEnc p k 0x156).1 (atEnc p k 0x156).2
  | .lda o m x => encX o x (0x140 + m.ty.opc) m.bits
  | .stl o m x => encX o x (0x143 + m.ty.opc) m.bits
  | .fence o x => encX o x 0x146 0
  | .fencex o p q x => encX o x 0x147 (q.code + p.code * 8)
  | .barrive o h x => encX o x 0x160 (bitAt h 8)
  | .bwait o h x => encX o x 0x161 (bitAt h 8)
  | .bsync o h x => encX o x 0x162 (bitAt h 8)
  | .barrd o h x => encX o x 0x163 (bitAt h 8)
  | .binit o h x => encX o x 0x166 (bitAt h 8)
  | .balloc o x => encX o x 0x164 0
  | .bfree o x => encX o x 0x165 0
  | .rowbook o p q sc x => encX o x 0x168 (sc.toNat + q.toNat * 8 + bitAt p 8)
  | .rowjoin o q x => encX o x 0x169 (q.toNat * 8)
  | .rowfree o x => encX o x 0x16A 0
  | .tlbiPage o x => encX o x 0x170 0
  | .tlbiSpace o x => encX o x 0x170 1
  | .tlbiAll o x => encX o x 0x170 2
  | .msvtx o => encO o 0x190 0
  | .msvtxB128 o => encO o 0x191 0
  | .msprim o => encO o 0x192 0
  | .mscount o => encO o 0x193 0
  | .interp o k c => encO o 0x194 (k.code + bitAt c 2)
  | .derivX o f => encO o 0x195 (bitAt f 0)
  | .derivY o f => encO o 0x196 (bitAt f 0)
  | .fragexp o => encO o 0x197 0
  | .fragexpZ o => encO o 0x198 0
  | .fragkill o => encO o 0x199 0
  | .rocbeg o => encO o 0x19A 0
  | .rocend o => encO o 0x19B 0
  | .tex o => encO o 0x19C 0
  | .texL o => encO o 0x19D 0
  | .texG o => encO o 0x19E 0
  | .texld o => encO o 0x19F 0
  | .texq o => encO o 0x1A0 0
  | .satom o p xy w sgn op x =>
      encX o x 0x1A1 (op.code + bitAt sgn 3 + bitAt w 4 + bitAt xy 7 + bitAt p 8)
  | .satomCas o p w x => encX o x 0x1A2 (bitAt w 4 + bitAt p 8)
  | .cpgather o ch t x => encX o x 0x1A8 (cpBits ch t)
  | .cpscatter o ch t x => encX o x 0x1A9 (cpBits ch t)
  | .cpscatterAdd o ch t x => encX o x 0x1AA (cpBits ch t)
  | .cpwait o p x => encX o x 0x1AB (bitAt p 8)
  | .cptest o p x => encX o x 0x1AC (bitAt p 8)
  | .cpclr o p x => encX o x 0x1AD (bitAt p 8)
  | .cpsrcw o x => encX o x 0x1AE 0
  | .mput o w => encO o (0x1D8 + w.opc) 0
  | .mld o => encS o 0x1C0 0
  | .mldV o satf => encS o 0x1C1 (bitAt satf 7)
  | .mma o v sb satf => encS o (if v then 0x1C3 else 0x1C2) (mMul' sb satf)
  | .mmq o v sb satf => encS o (if v then 0x1C6 else 0x1C4) (mMul' sb satf)
  | .mmqP o v sb satf => encS o (if v then 0x1C7 else 0x1C5) (mMul' sb satf)
  | .mmi o v sb satf => encS o (if v then 0x1C9 else 0x1C8) (mMul' sb satf)
  | .mclr o i => encS o 0x1CA (bitAt i 0)
  | .mst o tA tB scl satf => encS o 0x1CB (mMst' tA tB scl satf)
  | .mstV o tA tB scl satf => encS o 0x1CC (mMst' tA tB scl satf)
  | .mbar o => encS o 0x1CD 0
  | .mbw o => encS o 0x1CE 0
  | .mnop o => encS o 0x1CF 0
  | .msetImm o => encS o 0x1D0 0
  | .msetHi o => encS o 0x1D0 1
  | .msetArg o => encS o 0x1D0 2
  | .msetArghi o => encS o 0x1D0 3
  | .msetSr o => encS o 0x1D0 4
  | .msetC o => encS o 0x1D1 0
  | .maddk o => encS o 0x1D2 0
  | .mloop o => encS o 0x1D3 0
  | .mjmp o => encS o 0x1D4 0
  | .mend o => encS o 0x1D5 0
  | .trap o => encO o 0x1E0 0
  | .trapLegacy o => encO o 0x1E0 1
  | .bkpt o => encO o 0x1E1 0
  | .rtt o => encO o 0x1E2 0
  | .haltt o => encO o 0x1E3 0
  | .gbread o q => encO o 0x1E8 q.toNat
  | .pkrd o => encO o 0x1E9 0
  | .pkwr o => encO o 0x1EA 0
  | .resume o => encO o 0x1EB 0
  | .resumeSkip o => encO o 0x1EC 0
  | .killt o => encO o 0x1ED 0
  | .killtG o => encO o 0x1EE 0
  | _ => none

end Sys2Proof
end

