-- ==== Sys2Proof/Config.lean ====
section
/-! DEFINITION. What an implementation fixes and the manual does not state: free values. Each is a
constant without a body, so no proof can see what it is and every claim holds whatever it is. -/

namespace Sys2Proof

/-- A fresh free value: the argument is the counter `State.free`, which every use advances.
(DESIGN CHOICE, log 3; DESIGN CHOICE, log 109.) -/
opaque Config.freeValue : Nat → BitVec 128

/-- A fresh free choice among finitely many outcomes: the caller reduces it modulo their number. (DESIGN CHOICE, log 4.) -/
opaque Config.freeChoice : Nat → Nat

/-- R216: which of the values within the bounds of Table 11-7 a function unit returns for an input:
function code, element format code, input bits, FPM bits. (DESIGN CHOICE, log 23.) -/
opaque Config.funcUnit : Nat → Nat → Nat → Nat → Nat

/-- R64: whether reading a 64 B unit that was written under one key (second) under another (third) finds an uncorrectable
error. The first argument is the unit, the last its 64 bytes as they were written: with the key they give the stored
ciphertext and code. -/
opaque Config.keyClash : Nat → Nat → Nat → Nat → Bool

/-- R60: whether the read of a unit (second) at a CCLK (first) meets an error of one bit, which the code corrects. Errors
befall memory as they will. (DESIGN CHOICE, log 10.) -/
opaque Config.bitError : Nat → Nat → Bool

/-- R64: whether what such a read decrypts to differs from a code word in one bit, which the code corrects (the arguments are
those of `Config.keyClash`). (DESIGN CHOICE, log 10.) -/
opaque Config.keyFix : Nat → Nat → Nat → Nat → Bool

/-- R64: the byte such a read decrypts to when it does not (address, written key, read key, the bytes written). -/
opaque Config.keyByte : Nat → Nat → Nat → Nat → Byte

/-! ## Nirop modules, whose format and operations the spec does not give (R386) -/

/-- Binary64 operations that the translator builds (R389); the other types are named as by CVT. -/
inductive F64Op where
  | add | sub | mul | fma | div | sqrt
  | cmp (c : Cmp)
  | ofTy (src : CvtTy)
  | toTy (dst : CvtTy)
  deriving DecidableEq, Repr

/-- What the translator builds from a sequence of integer and FP32 instructions: a binary64 operation on pairs of registers, a
correctly rounded FP32 quotient, an integer quotient and remainder under IDIV0, and the branch at a block's end to one of two
Nirop offsets. -/
inductive NSeq where
  | f64 (op : F64Op) (d a b c : BitVec 8)
  | fdiv (d a b : BitVec 8)
  | idiv (sgn : Bool) (idiv0 : Nat) (q r a b : BitVec 8)
  | jump (p : BitVec 3) (neg : Bool) (yes no : Nat)
  deriving DecidableEq, Repr

/-- A Nirop operation that ends no block, as far as R387 to R393 say what becomes of it, with the registers that its translation
gives it (`t` holds nothing else): any whose native code no field of the word changes; integer and FP32 division; square root;
derivative; a multiply whose only use is an add; binary64, of R389 or not; one reserved in Nirop 1; output beyond the mesh
limits; a rounding or flush mode of its own. -/
inductive NOp where
  | plain (code : List Instr)
  | idiv (sgn : Bool) (q r a b : BitVec 8)
  | fdiv (d t a b : BitVec 8)
  | fsqrt (d a : BitVec 8)
  | deriv (y fine : Bool) (d a : BitVec 8)
  | mulAdd (d t a b c : BitVec 8)
  | f64 (op : F64Op) (d a b c : BitVec 8)
  | f64Other | reserved | meshBeyond | ownMode
  deriving DecidableEq, Repr

/-- The branch or return that ends a block (R386): a branch to one of two Nirop offsets, or native words. -/
inductive NEnd where
  | jump (p : BitVec 3) (neg : Bool) (yes no : Nat)
  | code (code : List Instr)
  deriving DecidableEq, Repr, Inhabited

/-- R386: the operations of the block of a hash before its end, each with its bytes. (DESIGN CHOICE, log 90.) -/
opaque Config.niropOps : Nat → List (Nat × NOp)

/-- R386: the branch or return that ends the block of a hash, with its bytes. (DESIGN CHOICE, log 90.) -/
opaque Config.niropEnd : Nat → Nat × NEnd

/-- R386: which 64-bit entry of a module holds the hash of the block at an offset (the module's first 32 bytes, the offset).
(DESIGN CHOICE, log 90.) -/
opaque Config.niropSlot : Nat → Nat → Nat

/-- R387: whether an operation that may fuse under FUSE = 1 does (hash, offset). (DESIGN CHOICE, log 90.) -/
opaque Config.niropFuse : Nat → Nat → Bool

/-- R389: the bytes of the sequence that an operation is translated to (hash, word, offset). (DESIGN CHOICE, log 90.) -/
opaque Config.niropSeq : Nat → Nat → Nat → List Byte

/-- R409, R410: whether the signature of a firmware image verifies. (PRESUMED, log 98.) -/
opaque Config.signatureOk : List Byte → Bool

/-- R411: the answer to an SPDM message: the messages of the session before it, the message, the bytes that the measurements
cover, and the leaf that signs it, if any. (PRESUMED, log 98.) -/
opaque Config.spdmReply : List (List Byte) → List Byte → List Byte → Option Nat → List Byte

/-- R50: byte `k` of the image that the press writes for a compressed tile. (DESIGN CHOICE, log 73.) -/
opaque Config.pressImage : List Byte → Nat → Byte

/-- R408: the key unwrapped from a KEYSET command's bytes under the messages of the current SPDM session.
(DESIGN CHOICE, log 10.) -/
opaque Config.unwrapKey : List (List Byte) → List Byte → Nat

/-- R50: how many quarters (1 to 4) a compressed tile takes; reduced modulo 4 and raised by 1. (DESIGN CHOICE, log 73.) -/
opaque Config.pressQuarters : List Byte → Nat

/-- R408: the bytes that SENSORS puts into MBDATA, whose layout is not stated: temperatures, currents, voltages, the
coolant's temperature and flow, CCLK in MHz. (PRESUMED, log 98.) -/
opaque Config.sensorBytes : List Nat → List Nat → List Nat → Nat → Nat → Nat → List Byte

/-- R406: the clock in MHz that holds the module's power under a cap in W, as the controller finds it from one sample of the
currents and the voltages. (DESIGN CHOICE, log 102.) -/
opaque Config.capClock : Nat → Nat → List Nat → List Nat → Nat

/-- R409: the IVR domain and the wing that serve the host port. -/
opaque Config.hostPortUnit : Nat

/-- R408: the index that a LOGREAD's MBDATA gives. (PRESUMED, log 98.) -/
opaque Config.logIndex : List Byte → Nat

/-- R408: the two bytes of an event code, the two of a source, the twenty of an event's data. (PRESUMED, log 98.) -/
opaque Config.eventCode : Nat → BitVec 16
/-- PRESUMED, log 98. -/
opaque Config.eventSource : Nat → Nat → BitVec 16
/-- PRESUMED, log 98. -/
opaque Config.eventData : Nat → List Nat → BitVec 160

/-- R408: how LOGREAD lays out entries of 32 bytes and the dropped count in MBDATA. (PRESUMED, log 98.) -/
opaque Config.logLayout : List (List Byte) → Nat → List Byte

/-- R408: the cap in W that a POWERCAP's MBDATA names; the slot that a KEYSET's names. (PRESUMED, log 98.) -/
opaque Config.capOf : List Byte → Nat
/-- PRESUMED, log 98. -/
opaque Config.keySlotOf : List Byte → Nat

end Sys2Proof
end

