-- ==== Sys2Proof/Machine/State.lean ====
section
/-! DEFINITION. The state of the part: every register, table, memory and queue that the
specification gives it, as plain data, and the state right after reset. Fields that are the model's
own (the free-value counter, whose turn it is, identifiers) say so. -/

namespace Sys2Proof.Machine

/-- Why the machine stops. Both are safe: the model stops where the part would not take that step. (DESIGN CHOICE, log 7.) -/
inductive Fault where
  /-- Raised by a step that no word encodes (a message, a completion, a host or engine event) when
  the state does not hold what that step acts on, so the part would not take it there. Safe. -/
  | notEnabled
  /-- Raised by an instruction word when no group or stream holds the turn, so nothing issues it. Safe. -/
  | noIssuer
  deriving DecidableEq, Repr

/-- Why the machine gives no meaning. -/
inductive Refusal where
  /-- Raised by `exec` for an instruction whose meaning is not written. Safe. -/
  | notModelled (mnemonic : String)
  deriving DecidableEq, Repr

/-- Trap causes (Table 20-1). -/
inductive Cause where
  | illegalOpcode | illegalOperand | wrongStream | fetchBoundary | lenReserved | latchUnderrun | privilege
  | tagMismatch | misaligned | outOfLodging | tableFormat | writeProtect | classViolation | race
  | scratchRange | regionOff | poison | apertureRole
  | barrierCount | barrierStale | rocTimeout | rstackOverflow | meshOverflow
  | fpInvalid | fpDivzero | fpOverflow | fpUnderflow | fpInexact
  | bkpt | watch | step | software | legacy
  deriving DecidableEq, Repr

/-- A trap with the fields of its record that depend on the cause (R343, R344); `leafW` marks a
WRITE_PROTECT from a leaf with W = 0 inside an `rw` range (R374). -/
structure Trap where
  cause : Cause
  addr  : Nat := 0
  aux   : Nat := 0
  info  : Nat := 0
  leafW : Bool := false
  deriving DecidableEq, Repr

/-! ## Threads and groups (08_execution) -/

/-- What a thread is doing (R136, R137, R142, R342, R346). -/
inductive TStat where
  | ready
  | waiting (wid : Nat)
  | conv (mask : BitVec 32)
  | parked
  | held
  | dead
  deriving DecidableEq, Repr

/-- A thread's rasteriser-ordered section (R328): none yet; open since a CCLK; kept while the thread is parked or
pre-empted, with the CCLK counted; ended. (DEDUCED, log 84.) -/
inductive Section_ where
  | none
  | open_ (since : Nat)
  | kept (used : Nat)
  | ended
  deriving DecidableEq, Repr

/-- One thread (R125, R138, R187, R204). Unlisted vector registers read 0. `pend` marks a BARRD fault
after which the thread is parked at its next issue (R239); `noBreak` that its next issue matches no
breakpoint (R366, R368). (DESIGN CHOICE, log 2.) -/
structure Thread where
  pc        : Nat := 0
  v         : AMap Word := []
  p         : BitVec 8 := 0
  fpm       : Word := 0
  hw        : List Nat := []
  spilled   : Nat := 0
  stat      : TStat := .ready
  trapCause : BitVec 8 := 0
  pend      : Option Nat := none
  noBreak   : Bool := false
  sect      : Section_ := .none
  killed    : Bool := false
  deriving DecidableEq, Repr

/-- A bypass latch (R141, R166): one value per lane, or one for all where an S-form wrote it. -/
structure Latch where
  scalar : Bool
  val    : DWord
  lanes  : AMap DWord
  deriving DecidableEq, Repr

/-- A run (R136, R139 to R141): its context, the lanes of its PC set, the instructions issued, the latches y0 to y3. -/
structure Run where
  ctx   : Nat
  lanes : List Nat
  count : Nat
  y     : List Latch
  deriving DecidableEq, Repr

/-- A barrier named by an operand (R237). -/
inductive BarRef where
  | num (n : Nat)
  | handle (index gen : Nat)
  deriving DecidableEq, Repr

/-- What a PC set waits for (R142, Table 08-5); `parity`: the instruction's PC and the lanes whose barrier has not yet
shown the other parity; `exchange`: a lane exchange waits for the lanes it names (R194); `loads`: single-execution loads in
flight, whose scalar registers the next word names. -/
inductive Cond where
  | parity (pc : Nat) (lanes : List (Nat × BarRef × Nat))
  | copies (bmap : Nat) (mask : DWord)
  | source (ch : Nat) (n : Word)
  | presence (accs : List Nat)
  | pause (until_ : Nat)
  | sync (accs : List Nat)
  | fencex (accs copies flights : List Nat) (p q : Path)
  | rowOpen (space key : Nat)
  | roc
  | results (pends : List Nat)
  | loads (accs : List Nat)
  | exchange (named : List Nat)
  deriving DecidableEq, Repr

/-- A waiting PC set. -/
structure Wait where
  lanes : List Nat
  cond  : Cond
  deriving DecidableEq, Repr

/-- One group (R125, R126, R134, R73). Unlisted scalar registers read 0. `kept` is its stop record (R366): the run it was
in at a team stop, which it continues once its team resumes. (DESIGN CHOICE, log 2; DESIGN CHOICE, log 5.) -/
structure Group where
  quarter  : Nat := 0
  slot     : Nat := 0
  roleC    : Bool := false
  s        : AMap Word := []
  rowKey   : BitVec 8 := 0
  rowLast  : BitVec 4 := 0
  threads  : AMap Thread := []
  run      : Option Run := none
  waits    : AMap Wait := []
  lastLead : Nat := 31
  readyAt  : Nat := 0
  debt     : Nat := 0
  kept     : Option Run := none
  stall    : Nat := 0
  seek     : Option (Nat × Nat) := none
  deriving DecidableEq, Repr

/-! ## Barriers (12_memory_instructions, R236, R240; R115) -/

/-- A barrier; `recs` are the (core, epoch) records of the open phase of a cluster barrier, `mx` that an MBAR arrived in
it (R271); `past` the latest records of each core in the phases that are over, `pastMx` that an MBAR arrived in the last, for
waits that come later (R113). -/
structure Bar where
  phase   : Word := 0
  arrived : Nat := 0
  expect  : Nat := 0
  preset  : Nat := 0
  recs    : List (Nat × Nat) := []
  mx      : Bool := false
  past    : List (Nat × Nat) := []
  pastMx  : Bool := false
  deriving DecidableEq, Repr

/-- An entry of a core's barrier table: its generation and, while allocated, its team. -/
structure BarObj where
  gen  : Nat := 1
  team : Option Nat := none
  bar  : Bar := {}
  deriving DecidableEq, Repr

/-- A deferred arrival (R239): performed when the copies listed have landed. `pc` is as a record gives it (R392). -/
structure Deferred where
  gix    : Nat
  lane   : Nat
  pc     : Nat
  bar    : BarRef
  count  : Nat
  copies : List Nat
  deriving DecidableEq, Repr

/-! ## The matrix stream (13_matrix) -/

/-- An accumulator tile (R243): its kind and its elements. (DESIGN CHOICE, log 2.) -/
structure Tile where
  int   : Bool := false
  elems : AMap (BitVec 36) := []
  deriving DecidableEq, Repr

/-- One element of a block partial (R265): an 80-bit fixed-point value and three sticky flags. -/
structure PartElem where
  val  : BitVec 80 := 0
  nan  : Bool := false
  pinf : Bool := false
  ninf : Bool := false
  deriving DecidableEq, Repr

/-- A bound partial buffer: its tile, the sum of K so far, its elements. -/
structure Partial where
  tile  : Nat
  ksum  : Nat
  elems : AMap PartElem
  deriving DecidableEq, Repr

/-- A command of the window (R248, R251): the captured k registers, its predecessors, the command whose latched A tile
it reads and the one whose reuse chain it ends without reading (R252), what it has done: elements, or for an MBW 1 once its parity has differed since it started; `got`: the bytes
it has read so far, by pointer (R250). -/
structure Cmd where
  seq     : Nat
  cid     : Nat
  instr   : Instr
  pc      : Nat
  ka      : DWord
  kb      : DWord
  kc      : DWord
  kc1     : DWord
  preds   : List Nat
  root    : Option Nat := none
  ends    : Option Nat := none
  started : Bool := false
  faulted : Bool := false
  elem    : Nat := 0
  got     : AMap Nat := []
  deriving DecidableEq, Repr

/-- A sequencer context's stream (Table 13-1, R248 to R252, R259, R274). `history`: CID and sequence number of the
last 63 commands, newest first; `latch`: A tiles held, by the command that began the reuse chain; `chain`: the m register
and first command of the chain open at issue; `ended`: MEND was fetched; `done`: MEND has retired, or the stream was
killed; `stored`: the bytes of TRACKED lines that MSTs have landed since the last crossing from M to V (R121); `ctx`: the
sequencer context. (DESIGN CHOICE, log 2.) -/
structure Stream where
  pc        : Nat
  m         : AMap (BitVec 4096) := []
  a         : AMap Tile := []
  k         : AMap DWord := []
  c         : AMap Word := []
  parts     : List Partial := []
  window    : List Cmd := []
  history   : List (Nat × Nat) := []
  nextSeq   : Nat := 0
  latch     : AMap (BitVec 4096) := []
  chain     : Option (Nat × Nat) := none
  ended     : Bool := false
  done      : Bool := false
  fetchFault : Bool := false
  stored    : AMap ByteMask := []
  ctx       : Nat := 0
  deriving DecidableEq, Repr

/-! ## Graphics (17_graphics) -/

/-- A mesh team's output buffer (R311, R312): vertex words by 36*vertex + word, primitives, the counts of each group's last
MSCOUNT, and those that stand once it is sealed. -/
structure MeshOut where
  verts  : AMap Word := []
  prims  : AMap (BitVec 25) := []
  counts : AMap (Nat × Nat) := []
  nv     : Nat := 0
  np     : Nat := 0
  sealed : Bool := false
  deriving DecidableEq, Repr

/-- A primitive's sequence number (R315): draw, team number, primitive index. -/
structure PrimId where
  draw : Nat
  team : Nat
  prim : Nat
  deriving DecidableEq, Repr

/-- A primitive at a rasteriser: its three clip-space vertices with attributes (word lists). -/
structure Prim where
  id : PrimId
  v0 : List Word
  v1 : List Word
  v2 : List Word
  deriving DecidableEq, Repr

/-- A quad of a primitive (R319, R320): its index, its top-left pixel, coverage bit 4*pixel + sample, the depths of its
covered samples by the same number. -/
structure Quad where
  prim  : Prim
  ix    : Nat
  x     : Nat
  y     : Nat
  cover : BitVec 16
  depth : AMap Word
  deriving DecidableEq, Repr

/-- What a fragment thread exported (R327). -/
structure Export where
  colour : AMap (List Word) := []
  z      : Option Word := none
  killed : Bool := false
  deriving DecidableEq, Repr

/-- A quad in flight at the rasteriser and the BRUs (R320): the banks that hold a slot for it and have not retired it,
the BRU that tests it, the pass mask once it has tested, the fragment team and place in it that shade the quad, the
exports of its lanes once that team has ended, whether it retires empty, and the BRU of each sample of each colour
target, by `4 * target + sample`. -/
structure Flight where
  quad    : Quad
  launch  : Nat
  wing    : Nat
  banks   : List Nat
  tester  : Nat
  pass    : Option (BitVec 16) := none
  shader  : Option (Nat × Nat) := none
  exports : Option (List Export) := none
  empty   : Bool := false
  homes   : AMap Nat := []
  deriving DecidableEq, Repr

/-- A draw (R313, R315, R320, R323, R412): counters, sticky bits, the next team and primitive to emit. -/
structure Draw where
  launch   : Nat
  queue    : Nat
  number   : Nat
  overflow : Nat := 0
  culled   : Nat := 0
  sticky   : BitVec 3 := 0
  team     : Nat := 0
  prim     : Nat := 0
  ended    : Bool := false
  reported : Bool := false
  deriving DecidableEq, Repr

/-- The quads of a fragment group (R324): up to eight flights by number, and the exports of its lanes. -/
structure FragInfo where
  flights : List Nat
  exports : AMap Export := []
  deriving DecidableEq, Repr

/-! ## Teams, clusters, launches -/

/-- What kind of team this is. The night porter (R348) and a fragment group (R324) are teams of one group. -/
inductive Kind where
  | compute | mesh | fragment | porter
  deriving DecidableEq, Repr

/-- A stopped team (R365): the cause code, the threads that matched, phases and open arrival counts of
barriers 0 to 19, the group that a STEP issues for, and the CCLK of the stop. -/
structure Stop where
  cause   : Nat
  threads : List (Nat × Nat)
  phases  : List (Nat × Nat)
  gix     : Nat
  since   : Nat := 0
  stepping : Bool := false
  traced  : Bool := false
  deriving DecidableEq, Repr

/-- A team resident on a core (R125 to R127, R25, R281 to R283). Scratchpad bytes, poisoned 32 B words, copies outstanding per
128 B line, completion bitmaps and per-channel counters by number; `wideBits` and `wideLines`: the bits, and the lines, that a
copy of cluster scope or wider set, or ended, last (R113). `preempt`: it is being pre-empted, since CCLK `preemptAt`, or, with
`restore`, has been placed from its save and is to be restored (R362); `tokens`: its sections' tokens are to be saved (R328). -/
structure Team where
  kind     : Kind := .compute
  launch   : Nat := 0
  cluster  : Nat := 0
  core     : Nat := 0
  rank     : Nat := 0
  slot     : Nat := 0
  number   : Nat := 0
  groups   : AMap Group := []
  bars     : AMap Bar := []
  scratch  : Mem := []
  scrPoison : List Nat := []
  presence : AMap Nat := []
  bmaps    : AMap DWord := []
  wideBits : AMap DWord := []
  wideLines : List Nat := []
  issued   : AMap Word := []
  released : AMap Word := []
  templates : AMap (BitVec 512) := []
  deferred : AMap Deferred := []
  stream   : Option Stream := none
  mesh     : MeshOut := {}
  frag     : Option FragInfo := none
  stop     : Option Stop := none
  preempt  : Bool := false
  preemptAt : Nat := 0
  restore  : Bool := false
  tokens   : Bool := false
  deriving DecidableEq, Repr

/-- A placed cluster (R125, R126, R237): its launch, number and coordinates in the grid, its wing and
corner, its teams in rank order, barriers 16 to 19; `byDbg`: pre-empted by a debugger, whose RESUME it waits for (R383).
`ended`: its teams that have ended, whose scratchpads the others still reach (R26). -/
structure Cluster where
  launch : Nat := 0
  number : Nat := 0
  gx     : Nat := 0
  gy     : Nat := 0
  gz     : Nat := 0
  wing   : Nat := 0
  col    : Nat := 0
  row    : Nat := 0
  teams  : List Nat := []
  bars   : AMap Bar := []
  ended  : AMap Team := []
  byDbg  : Bool := false
  deriving DecidableEq, Repr

/-- A lodging range (R100, R130): base and length in bytes, access 0 ro, 1 rw, 2 rx. -/
structure Range where
  base   : Nat
  len    : Nat
  access : Nat
  deriving DecidableEq, Repr

/-- A launch record (Table 08-3) with its ranges, format slots and raster state block. -/
structure Record where
  kind     : Bool := false
  ms       : Bool := false
  hdl      : Bool := false
  rowDrop  : Bool := false
  cpf      : Bool := false
  queue    : Nat := 0
  deadline : Nat := 0
  code     : Nat := 0
  entry    : Nat := 0
  mspc     : Nat := 0
  hdlpc    : Nat := 0
  gx       : Nat := 1
  gy       : Nat := 1
  gz       : Nat := 1
  cw       : Nat := 1
  ch       : Nat := 1
  groups   : Nat := 1
  regs     : Nat := 8
  tx       : Nat := 32
  ty       : Nat := 1
  tz       : Nat := 1
  rstack   : Nat := 0
  scratch  : Nat := 0
  priv     : Nat := 0
  cost     : Nat := 0
  roles    : Word := 0
  fpm      : Word := 0
  dep0     : Nat := 0
  dep1     : Nat := 0
  nirop    : Word := 0
  args     : List Word := []
  slots    : List (BitVec 128) := []
  ranges   : List Range := []
  raster   : BitVec 1024 := 0
  deriving DecidableEq, Repr

/-- Completion status (Table 16-5). -/
inductive Status where
  | ok | badLaunch | noSpace | lodgingRefused | outOfLodging | breach | ended | cancelled | depFailed | badQueue
  deriving DecidableEq, Repr

/-- A launch from enqueue to completion (R296, R297, R303): `next` is the next cluster to place, `live`
its clusters placed and not ended, `program` that LAUNCH enqueued it (R192);
`status` is set once it is to complete without running further. `due` is a
FRAME launch's deadline plus 2^46, and 0 for the other classes (R129). (DEDUCED, log 69.) -/
structure Launch where
  lr       : Record := {}
  space    : Nat := 0
  queue    : Nat := 0
  cls      : Nat := 1
  ticket   : Nat := 0
  recAddr  : Nat := 0
  caddr    : Nat := 0
  irq      : Bool := false
  program  : Bool := false
  due      : Nat := 0
  deps     : List Nat := []
  lease    : Option Nat := none
  next     : Nat := 0
  live     : List Nat := []
  saved    : List Nat := []
  slots    : List Nat := []
  cores    : List Nat := []
  window   : Nat := 0
  status   : Option Status := none
  complete : Bool := false
  deriving DecidableEq, Repr

/-! ## Guest books and the night porter (20_faults) -/

/-- A guest-book entry (R343, R345): the eight words of the record, whose it is, whether the porter has
read it, whether it went to the host (R351, R374), whether it reports a BARRD arrival (R239). -/
structure GbEntry where
  seq    : Nat
  words  : List DWord
  team   : Nat
  launch : Nat
  read   : Bool := false
  host   : Bool := false
  barrd  : Bool := false
  brk    : Bool := false
  unit   : Nat := 0
  deriving DecidableEq, Repr

/-- A held thread or a held engine record (R346). -/
inductive Held where
  | thread (team gix lane : Nat)
  | engine (e : GbEntry)
  deriving DecidableEq, Repr

/-! ## Caches and coherence (05_coherence) -/

/-- Page classes (Table 02-4). -/
inductive PClass where
  | priv | ro | tracked | home | repl
  deriving DecidableEq, Repr

/-- An L1 line (R74): its tag (space, VA line), physical line, class and key, bytes and per-byte bits,
generations, whether sole (R80), the W bit of the leaf it was filled through, poison of its two 64 B units. -/
structure L1Line where
  space  : Nat
  vline  : Nat
  pline  : Nat
  cls    : PClass
  key    : Nat
  data   : Line
  bv     : ByteMask
  dm     : ByteMask
  fd     : ByteMask := 0
  im     : ByteMask := 0
  g0     : Option Gen := none
  g1     : Option Gen := none
  sole   : Bool := true
  w      : Bool := false
  poison : BitVec 2 := 0
  deriving DecidableEq, Repr

/-- An L2 line (R75): bytes, dirty bytes, key, poison, sharer vector and DEMOTED for TRACKED lines. -/
structure L2Line where
  data    : Line
  dirty   : ByteMask := 0
  key     : Nat := 0
  poison  : BitVec 2 := 0
  sharers : List Nat := []
  demoted : Bool := false
  used    : Nat := 0
  deriving DecidableEq, Repr

/-- A replica of a REPL line in one die (R37): the committed bytes, the stores pending on it, when it was last used. -/
structure ReplLine where
  data    : Line
  poison  : BitVec 2 := 0
  pending : List Nat := []
  used    : Nat := 0
  deriving DecidableEq, Repr

/-- A mask-store entry (R85): its line, up to four (core, G0, G1), when last used. -/
structure MaskEntry where
  line  : Nat
  slots : List (Nat × Option Gen × Option Gen)
  used  : Nat
  deriving DecidableEq, Repr

/-- A home transaction in progress for one line (R82, R83): what it waits for. -/
inductive Txn where
  | fill (line core : Nat) (bytes : ByteMask) (acc : Nat) (waitFor : List Nat)
  | intent (line core : Nat) (bytes : ByteMask) (epoch acc : Nat) (waitFor : List Nat)
  | recall (line : Nat) (waitFor : List Nat) (demote evict : Bool)
  | inval (line acquirer core : Nat) (why : WbWhy)
  | darn (syncLine core epoch : Nat) (accs : List Nat)
  | publish (core epoch syncLine : Nat) (waitFor : List Nat) (accs : List Nat)
  deriving DecidableEq, Repr

/-- What a memory access does once its checks have passed. -/
inductive AOp where
  | load (signed : Bool)
  | store
  | atom (k : AtKind) (ord : Ord3)
  | cas16 (ord : Ord3)
  | satom (op : SatOp) (w64 sgn : Bool)
  | satomCas (w64 : Bool)
  | lda (signed : Bool)
  | stl
  | fence
  | fencex (p q : Path)
  deriving DecidableEq, Repr

/-- Where a result goes: vector registers of the lane, scalar registers of the group, a texel of a sample, or nowhere. -/
inductive Dst where
  | vec (d n : Nat)
  | scal (d n : Nat)
  | tex (id k : Nat)
  | none
  deriving DecidableEq, Repr

/-- Work for which a unit reaches memory of its own accord: code of a core and launch, through the ITLB or, for the decode
assist, the CTLB (R149, R388); LAUNCH's record of a lane (R191); an LDW or STW of a lane by a DROPPED key (R72); a template of a
team (R277); a launch record of the host ring (R299); a draw report (R323); a trace buffer (R370); a frame that the press
spills, fills or captures (R52); translated code (R390); PFG of a launch (R230). -/
inductive Work where
  | code (core launch : Nat) (assist : Bool)
  | record (team gix lane : Nat)
  | row (team gix lane : Nat)
  | template (team : Nat)
  | ring
  | report (launch : Nat)
  | trace
  | press (ix frame : Nat)
  | cache
  | prefetch (launch : Nat)
  deriving DecidableEq, Repr

/-- Who makes an access: a thread, a stream command, a copy, a unit of the part. -/
inductive Who where
  | thread (team gix lane : Nat)
  | stream (team cmd : Nat)
  | copy (core id : Nat)
  | unit (work : Work)
  deriving DecidableEq, Repr

/-- An access in flight (R224): who, its PC and word length, what it does, where, with which operands. `lw`: the W bit of its
leaf; `filling`: its own fill is in flight; `rides`: it waits for the fill of its line that another has in flight (state F of
Table 05-2); `once`: an INV or RECALL overtook that fill (R87). `waits`: its thread waits for it (R142). `snoops`: the units
whose BIRspI, or the dies whose RPACK, are still due. `mates`: the participants of a single-execution instruction, which share
its fault (R225). An engine's access stays, with its value, until the engine has taken it: `bad` that a byte it read, or
carries, is poisoned, `fail` the trap that ended it. -/
structure Access where
  who   : Who
  core  : Nat
  space : Nat
  pc    : Nat
  len   : Nat
  op    : AOp
  va    : Nat
  pa    : Nat
  n     : Nat
  cls   : PClass
  key   : Nat
  h     : Bool
  data  : Nat
  cmp   : Nat
  dst   : Dst
  scope : Scope
  lw    : Bool := false
  filling : Bool := false
  rides : Bool := false
  once  : Bool := false
  waits : Bool := false
  snoops : List Nat := []
  value : Option Nat := none
  mates : List Nat := []
  bad   : Bool := false
  pieces : Bool := false
  fail  : Option Trap := none
  deriving DecidableEq, Repr

/-- A result still to be written (R142, R224): the lanes and registers it fills, and their values. -/
structure Pend where
  team   : Nat
  gix    : Nat
  medium : Bool
  scalar : Bool
  regs   : List (Nat × Nat × Word)
  preds  : List (Nat × Nat × Bool)
  deriving DecidableEq, Repr

/-- A texture result being gathered (R330): the pending result it fills, its format, whether it is a raw texel, the
border colour and weights over `den`: the border's, and each texel's with its bytes once read; the watch range hit. -/
structure TexOp where
  pend   : Nat
  pc     : Nat
  fmt    : Nat
  raw    : Bool
  bcode  : Nat
  den    : Nat
  border : Nat
  texels : List (Nat × Option Nat)
  watch  : Option Trap := none
  deriving DecidableEq, Repr

/-! ## Translation (06_translation) -/

/-- A TLB entry (R97); `pins` are the matrix commands that used it (Table 06-4); `way` is its place in its set. -/
structure TlbEntry where
  va    : Nat
  size  : Nat
  space : Nat
  g     : Bool
  base  : Nat
  h     : Bool
  key   : Nat
  cls   : PClass
  w     : Bool
  x     : Bool
  d     : Bool
  pins  : List (Nat × Nat) := []
  drop  : Bool := false
  way   : Nat := 0
  deriving DecidableEq, Repr

/-- A walk-cache entry (R98): level, space, the VA bits above the next level, the table it points to. -/
structure WalkEntry where
  level : Nat
  space : Nat
  tag   : Nat
  table : Nat
  deriving DecidableEq, Repr

/-- A range-table entry (R104). -/
structure RangeEntry where
  space  : Nat
  lease  : Nat
  lo     : Nat
  hi     : Nat
  access : Nat
  deriving DecidableEq, Repr

/-- What class an access needs beyond W (R31, R65, R256, R285, R401). -/
inductive Need where
  | plain | sync | atomic | rowbook | mst | scatterAdd
  deriving DecidableEq, Repr

/-- A walk that waits in a wing's walker queue or is in progress (R98): its space, address and the access that missed, the
TLBs whose requesters have joined, once it has been served without a leaf the level at which it ended, with the entry of a
format error, which it leaves to its requesters, and the units of table entries in host bias whose BIRspI are due, once they have been asked (R398). -/
structure Walk where
  space  : Nat
  va     : Nat
  write  : Bool
  need   : Need
  tlbs   : List TlbKind
  served : Option (Nat × Option Nat) := none
  snoops : Option (List Nat) := none
  deriving DecidableEq, Repr

/-- A wing: TLBs, walk caches, walker queue, the way that each CTLB set replaces next, range table (R97, R98, R104), primitives waiting at its rasteriser (R315),
quads of the primitive being rasterised still to be sent (R320). -/
structure Wing where
  vtlb   : List TlbEntry := []
  mtlb   : List TlbEntry := []
  ctlb   : List TlbEntry := []
  itlb   : List TlbEntry := []
  walks  : List WalkEntry := []
  ctlbNext : AMap Nat := []
  walkQ  : List Walk := []
  ranges : List RangeEntry := []
  queue  : List (Nat × Prim) := []
  quads  : List (Nat × Quad) := []
  up     : Bool := false
  deriving DecidableEq, Repr

/-- A lease (R101, R103): its space and ranges; live once granted; releasing once its notice is due. -/
structure Lease where
  space  : Nat
  die    : Nat
  ranges : List Range
  granted : Bool := false
  dying  : Bool := false
  deriving DecidableEq, Repr

/-- A lodging request or RELEASE notice waiting at a dispatcher (R102). -/
structure LodgeReq where
  release : Bool
  space   : Nat
  lease   : Nat
  nrange  : Nat
  addr    : Nat
  deriving DecidableEq, Repr

/-- The next cluster of a queue: its launch, and the save it is to come from or its number in the grid. -/
structure Front where
  la     : Nat
  saved  : Option Nat
  number : Nat
  deriving DecidableEq, Repr

/-- A die's dispatcher (R102, R304 to R307): the requests, LREQINFO's posted one, the rotating pointer, the queue whose
turn it is, its turns left and the weights of the round, the cluster that reserves its wings, the cores cleared for
launches that wait for them. (DESIGN CHOICE, log 1.) -/
structure Die where
  reqs    : List LodgeReq := []
  posted  : Option LodgeReq := none
  pointer : Nat := 0
  rrQueue : Nat := 255
  rrLeft  : Nat := 0
  weights : AMap Nat := []
  reserve : Option Front := none
  cleared : List (Nat × List Nat) := []
  deriving DecidableEq, Repr

/-- A shootdown (R108): its scope 0 PAGE, 1 SPACE, 2 ALL, and whom it reports to. -/
structure Shoot where
  scope : Nat
  space : Nat
  va    : Nat
  pages : Nat
  pend  : Option Nat
  caddr : Nat
  irq   : Bool
  deriving DecidableEq, Repr

/-! ## Copies (14_copy) -/

/-- A copy (R275 to R289), by identifier in issue order. `rows` are the (lane, index) pairs of a gather or scatter. `pc` is as
a record gives it (R392); `cause` is the cause of the fault that stopped it; `pos` is the next element; `read` says that a
source byte has been read; `lines` are the (team, line) whose presence counts it holds; `chunks` those whose bits are set;
`tainted` the 32 B units of destination pointers that it poisoned. -/
structure Copy where
  team    : Nat
  gix     : Nat
  lane    : Nat
  pc      : Nat
  ch      : Nat
  tmpl    : BitVec 512
  iter    : Int
  gather  : Bool := false
  scatter : Bool := false
  rows    : List (Nat × Int) := []
  pos     : Nat := 0
  read    : Bool := false
  released : Bool := false
  faulted : Bool := false
  cause   : Option Cause := none
  lines   : List (Nat × Nat) := []
  chunks  : List Nat := []
  tainted : List Nat := []
  deriving DecidableEq, Repr

/-! ## Saves (20_faults) -/

/-- A cluster in its save, complete or growing team by team (R306, R361, R372): its teams, their records in the order
they had, what was held, the barrier objects (team, index, object), the copies that had not started, and of each team the
place in the pool that its save takes or is to take: offset and bytes (R360). (DESIGN CHOICE, log 61.) -/
structure Saved where
  cluster : Cluster
  teams   : AMap Team := []
  records : List GbEntry := []
  held    : List Held := []
  objs    : List (Nat × Nat × BarObj) := []
  copies  : AMap Copy := []
  places  : AMap (Nat × Nat) := []
  deriving DecidableEq, Repr

/-! ## Surfaces (03_surface_memory) -/

/-- STE allocation states (Table 03-4). -/
inductive SteState where
  | inactive | allocating | active | releasing | noSpace | badFormat | badRegion
  deriving DecidableEq, Repr

/-- Frame states (Table 03-5). -/
inductive FrameState where
  | resident | spilling (firm : Bool) | spilled | filling
  deriving DecidableEq, Repr

/-- A surface frame (R47, R50, R51): the region frame that serves it, its age stamp, whether the press
must not choose it again (R52), whether its refill took the reserve, which is not restored yet (R51); while its bytes are in the backing image, whether that is compressed and
the bytes it stands for. -/
structure Frame where
  region : Nat
  state  : FrameState
  age    : BitVec 16
  barred : Bool := false
  refill : Bool := false
  comp   : Bool := false
  saved  : List Byte := []
  deriving DecidableEq, Repr

/-- A STEW held while the entry is ALLOCATING or RELEASING (R49, R231), the pending result that takes its
status (0: none), whether it is a STEW.W, and the space that made it. -/
structure HeldStew where
  space  : Nat
  value  : BitVec 256
  pend   : Nat
  wait   : Bool
  deriving DecidableEq, Repr

/-- A surface table entry (R48): the fields as written, its state, the space that asked for its
allocation (R52), its frames by 2*frame + stack, held writes, and the STEW.W reports waiting for it to settle.
(DESIGN CHOICE, log 70.) -/
structure Ste where
  value  : BitVec 256 := 0
  state  : SteState := .inactive
  owner  : Nat := 0
  frames : AMap Frame := []
  held   : List HeldStew := []
  report : List (Nat × Bool) := []
  deriving DecidableEq, Repr

/-- What a bank request is for (R53): an access of a core or an engine, 32 B of a press transfer (entry, frame, word), the
oldest slot of the bank's raster unit, or a token of a wing that the unit is to test. -/
inductive BankJob where
  | acc (id : Nat)
  | press (ste frame word : Nat)
  | retire
  | token (wing : Nat)
  deriving DecidableEq, Repr

/-- A request that waits for a bank (R40, R53): the class (0 F, 1 M, 2 V, 3 C), its requester in the class, whether it reads,
whether a ratio change holds it (R4). -/
structure BankReq where
  bank : Nat
  cls  : Nat
  src  : Nat
  read : Bool
  job  : BankJob
  held : Bool := false
  deriving DecidableEq, Repr

/-- S-die power domain states (R55). -/
inductive DomState where
  | on | retention | off
  deriving DecidableEq, Repr

/-! ## Booked rows (04_device_memory) -/

/-- The state of a booked row (R66, R70, R72). -/
inductive RowState where
  | opening | open_ | refresh | saved | restoring | closed
  deriving DecidableEq, Repr

/-- A booking (R65 to R73), by 256*space + key: its granule, key slot, writable bit, state, holders, holds
saved under keep, keepings DROPPED, suspensions, whether this refresh window has counted as one. -/
structure Row where
  granule : Nat
  key     : Nat
  wr      : Bool
  state   : RowState
  holders : List Nat
  savedBy : List Nat := []
  dropped : List Nat := []
  susp    : Nat := 0
  counted : Bool := false
  deriving DecidableEq, Repr

/-! ## Cores -/

/-- One core: its clock counter (as its lead over CCLK since reset), L1 in order of use (front most recent), EPOCH and REGION
(R76), barrier table (R240), guest book, held list and the held thread that is replaying (R345, R346), SEQ, GBSTAT.FULL,
whether FULL rose while the porter slept (R347), the fetch blocks that its instruction cache holds (launch, block, bytes)
(R149), GBPK and GBPKV, the porter's launch while awake (R348, R349), W-path accesses in flight (R69), write-backs awaiting
WBACK, DARNs waiting for them (R83), the sequencer context that the matrix engine last served (R251). -/
structure Core where
  clock    : Nat := 0
  l1       : List L1Line := []
  epoch    : Nat := 1
  region   : Nat := 0
  barTab   : AMap BarObj := []
  book     : List GbEntry := []
  held     : List Held := []
  serving  : Option (Nat × Nat × Nat) := none
  nextSeq  : Nat := 1
  full     : Bool := false
  called   : Bool := false
  icache   : List (Nat × Nat × BitVec 256) := []
  gbpk     : DWord := 0
  gbpkv    : Word := 0
  porter   : Option Nat := none
  wpath    : List Nat := []
  outWb    : Nat := 0
  darns    : List (Nat × Nat × Nat) := []
  mLast    : Nat := 3
  deriving DecidableEq, Repr

/-! ## Device registers, host, management (16, 21, 24, 25, 26) -/

/-- The registers of a space (Table 25-6), as they read; `steWin` is its STE window (R48), which system software
gives by means that the specification does not name. (DESIGN CHOICE, log 70.) -/
structure Space where
  steWin : Nat := 0
  root   : DWord := 0
  wing   : DWord := 0xFFFF
  save   : DWord := 0
  xc     : DWord := 0
  dbg    : DWord := 0
  trial  : DWord := 0
  trcnt  : DWord := 0
  bp     : AMap DWord := []
  watch  : AMap DWord := []
  prog   : AMap DWord := []
  traceWritten : Nat := 0
  traceDropped : Nat := 0
  dumped : Bool := false
  deriving DecidableEq, Repr

/-- A queue (R294): QCFGn less COUNT, its launches in enqueue order, its draws so far, its next cluster
and since when each cluster has been its next (R307). -/
structure Queue where
  en     : Bool := false
  cls    : Nat := 1
  die    : Nat := 0
  space  : Nat := 0
  weight : Nat := 1
  items  : List Nat := []
  draws  : Nat := 0
  front  : Option Front := none
  since  : List (Front × Nat) := []
  deriving DecidableEq, Repr

/-- A translated Nirop block (R390): its key, with the Nirop offset at which it begins, its offset in the space's cache, its length, when used; where in it each
operation's code begins, with the operation's Nirop offset, and its sequences: where each begins, where lanes go that meet
integer division by zero under IDIV0 = 10, where it ends. (DESIGN CHOICE, log 90.) -/
structure Block where
  space  : Nat
  hash   : Nat
  word   : Nat
  base   : Nat
  offset : Nat
  len    : Nat
  used   : Nat
  ops    : List (Nat × Nat) := []
  seqs   : List (Nat × Nat × Nat × NSeq) := []
  deriving DecidableEq, Repr

/-- An event-log entry (R408): DEVTIME, event code, source, data. -/
structure LogEntry where
  time : Nat
  code : Nat
  src  : Nat
  data : List Nat
  deriving DecidableEq, Repr

/-- The management controller (R404 to R411): firmware image and partial image, whether it is being written and whether power
was lost in a write, mailbox, log, power cap,
CCLK in MHz, the latest sample (diodes, currents and voltages of the IVRs, coolant at the inlet in tenths of a degree and
flow in tenths of a litre a minute), whether the coolant's excursion has been logged, for how many samples each diode has been over
120 °C at 1.2 GHz, the sample that made a thermal trip due, SPDM messages of the session, XMSS leaves used.
(DESIGN CHOICE, log 1.) -/
structure Mgmt where
  image     : List Byte := []
  chunkTotal : Nat := 0
  partial_  : Option (List Byte) := none
  writing   : Bool := false
  torn      : Bool := false
  mbLen     : Nat := 0
  mbSt      : Nat := 0
  mbBusy    : Bool := false
  mbCmd     : Nat := 0
  mbData    : AMap Byte := []
  log       : List LogEntry := []
  dropped   : Nat := 0
  cap       : Nat := 2400
  cclkMhz   : Nat := 3600
  temps     : List Nat := []
  currents  : List Nat := []
  volts     : List Nat := []
  coolTemp  : Nat := 0
  coolFlow  : Nat := 0
  coolOut   : Bool := false
  hotFor    : AMap Nat := []
  trip      : Option (List Nat) := none
  spdm      : List (List Byte) := []
  leaves    : Nat := 0
  deriving DecidableEq, Repr

/-- Bring-up (R404, R405, R409): DEVSTAT's fields and the sub-step within the phase. -/
structure Bringup where
  ready   : Bool := false
  fail    : Bool := false
  recov   : Bool := false
  phase   : Nat := 0
  sub     : Nat := 0
  fcode   : Nat := 0
  gif     : BitVec 24 := 0
  linked  : Bool := false
  peers   : BitVec 4 := 0
  powered : Bool := true
  deriving DecidableEq, Repr

/-- The bias flip in progress (R396, R397). -/
structure Bias where
  ctl    : DWord := 0
  page   : Nat := 0
  dir    : Bool := false
  busy   : Bool := false
  st     : Nat := 0
  snoops : List Nat := []
  deriving DecidableEq, Repr

/-- The host ring (Table 16-3). -/
structure Ring where
  base : Nat := 0
  logn : Nat := 0
  en   : Bool := false
  head : Nat := 0
  tail : Nat := 0
  deriving DecidableEq, Repr

/-- The MSI-X table's words, the vectors whose messages have been sent, newest first, and those that are pending behind a mask
(R395, Table 25-7). -/
structure Msi where
  table   : AMap DWord := []
  raised  : List Nat := []
  pending : List Nat := []
  deriving DecidableEq, Repr

/-- A host request that waits at its home slice for a flip to end (R397). -/
structure HostReq where
  pa   : Nat
  data : Option (List Byte)
  deriving DecidableEq, Repr

/-- A step of the part that is due: one that `Instr` numbers low, or another by its own name. The names are
those of `Instr`'s constructors, and `runDue` of Step.lean runs each as `exec` runs that constructor. (The model's
own: Lean's compiler builds no value of a type past its first 244 constructors.) -/
inductive Due where
  | ins (i : Instr)
  | mbwRetire (tid cmd : Nat)
  | commandRetire (tid cmd : Nat)
  | copyElementMove (core id : Nat)
  | copyChunkLand (core id chunk : Nat)
  | copySourceRelease (core id : Nat)
  | surfaceAllocate (ste : Nat)
  | surfaceReleaseComplete (ste : Nat)
  | pressSpillStart (region stack : Nat) (firm : Bool)
  | spillComplete (ste frame : Nat)
  | fillComplete (ste frame : Nat)
  | bankGrant (stack column bank : Nat)
  | coverageToken (wing : Nat)
  | quadRetire (bru : Nat)
  | primitiveEmit (queue : Nat)
  | rasterisePrimitive (wing : Nat)
  | fragmentGroupLaunch (wing core quarter : Nat)
  | domainWake (die k : Nat)
  | debugSurfaceRead (ste : Option Nat) (addr : Nat)
  | rowRefreshClose (space key : Nat)
  | rowRefreshReopen (space key : Nat)
  | clusterPlace (die : Nat)
  | framePreempt (die : Nat)
  | normalReservation (die : Nat)
  | preemptSave (tid : Nat)
  | teamRestore (saved core : Nat)
  | gridComplete (launch : Nat)
  | porterWake (core : Nat)
  | blockTranslate (wing space hash word : Nat)
  | scratchpadSlotGrant (core bank : Nat)
  | wPathAccessComplete (acc : Nat)
  | dbgreqDump (space ticket core : Nat)
  | clockRatioChange (ratio : Nat)
  | hostResumeSkip (core seq : Nat)
  deriving DecidableEq, Repr

/-- Which step comes next (the model's own: the part's units act at once; the model lets one act at a time). -/
inductive Turn where
  | group (team gix : Nat)
  | stream (team : Nat)
  | later
  | input
  | auto
  deriving DecidableEq, Repr

/-- The part. -/
structure State where
  /-- The model's own: counts the free values used. -/
  free     : Nat
  /-- The model's own: which step comes next. -/
  turn     : Turn
  /-- The model's own: the turns taken and still open, the longest ago first, and how many have been chosen. -/
  served   : List Turn
  picks    : Nat
  /-- The model's own: how many due steps and steps of units have been chosen. -/
  laterNo  : Nat
  autoNo   : Nat
  /-- The model's own: the next identifier of a team, cluster, launch, access, result, wait or copy. -/
  uid      : Nat
  /-- CCLK since reset. -/
  cclk     : Nat
  /-- DEVTIME in ns (R190). -/
  devtime  : Nat
  /-- CCLK:SCLK in halves: 4 for 2:1, 5 for 5:2, 6 for 3:1 (R4). -/
  ratio    : Nat
  /-- SCLK frame-age epoch (R50). -/
  age      : BitVec 16
  cores    : AMap Core
  wings    : AMap Wing
  dies     : AMap Die
  teams    : AMap Team
  clusters : AMap Cluster
  saved    : AMap Saved
  launches : AMap Launch
  queues   : AMap Queue
  spaces   : AMap Space
  nextTicket : Nat
  leases   : AMap Lease
  shoots   : AMap Shoot
  blocks   : List Block
  /-- L2 lines by physical line. -/
  l2       : AMap L2Line
  /-- Replicas by 2 * physical line + die. -/
  repl     : AMap ReplLine
  /-- Release records of HOME lines by physical line (R36). -/
  homeRec  : AMap (Nat × Nat)
  /-- Mask store entries by slice (R85). -/
  masks    : AMap (List MaskEntry)
  /-- MASKDROP counts by slice (R85). -/
  maskDrop : AMap Nat
  /-- PUB by 192 * slice + core (R77). -/
  pub      : AMap Nat
  txns     : List Txn
  /-- Requests that wait at a home until their line is served, in order of arrival (R82). -/
  homeWait : List (Nat × Instr)
  /-- Device memory, plaintext bytes by physical address (R58). -/
  dram     : Mem
  /-- Poisoned 64 B units (R61). -/
  dramPoison : List Nat
  /-- The key under which a unit was last written, where not slot 0's (R63). -/
  unitKey  : AMap Nat
  /-- The key in a slot, where KEYSET replaced the random key of reset (R63). -/
  keys     : AMap Nat
  /-- Host memory by host physical address, peer memory by 2^48 * port + address (R400). -/
  hostMem  : Mem
  peerMem  : Mem
  /-- Poisoned 64 B units of host and peer memory, by 2^48 * port + address over 64. -/
  hPoison  : List Nat
  rows     : AMap Row
  accs     : AMap Access
  pends    : AMap Pend
  texs     : AMap TexOp
  /-- Messages in flight, oldest first (R79). -/
  msgs     : List Instr
  /-- Completions due, oldest first. -/
  later    : List Due
  /-- What the outside world does next, oldest first. -/
  inputs   : List Instr
  copies   : AMap Copy
  /-- INTLV0 to 15: the configuration in force, and ST (R41). -/
  intlv    : AMap DWord
  intlvSt  : AMap Nat
  /-- Retired banks: 2048 * stack + 32 * column + bank (R44). -/
  retired  : List Nat
  stes     : AMap Ste
  /-- The refill reserve of a region, by 2 * region + stack (R51). -/
  reserve  : AMap Nat
  /-- S-die bytes by 2^20 * bank + byte, poisoned 32 B words. -/
  sdie     : Mem
  sdiePoison : List Nat
  /-- Power domains by 16 * die + k (R55). -/
  domains  : AMap DomState
  /-- The class a bank last granted: 0 F, 1 M, 2 V, 3 C (R53). -/
  bankLast : AMap Nat
  /-- Requests waiting for banks, oldest first (R40, R53). -/
  bankReqs : List BankReq
  /-- Responses to reads on their way up a column (R40): (column, the result or engine access that takes it). -/
  resps    : List (Nat × Nat)
  /-- The ratio that a change under way leads to (R4). -/
  ratioTo  : Option Nat
  /-- Answers to debugger reads, newest first: the word, and 0 for contents, 1 for REGION_OFF, 8 + STATE for NOSURFACE (R56).
  -/
  dbgAns   : List (Word × Nat)
  draws    : AMap Draw
  flights  : AMap Flight
  /-- Slots of a BRU in token order: flight numbers by bank (R320). -/
  slots    : AMap (List Nat)
  ring     : Ring
  msi      : Msi
  bias     : Bias
  hostReqs : List HostReq
  /-- Answers to host reads, newest first: the unit, its bytes (none: poisoned), and whether the answer gives the line in the
  Invalid state (R394). -/
  hostAns  : List (Nat × Option (List Byte) × Bool)
  mgmt     : Mgmt
  boot     : Bringup
  deriving DecidableEq, Repr

/-- The part right after reset (R404): nothing placed, every register at the reset value of its table.
(DESIGN CHOICE, log 1.) -/
def State.reset : State :=
  { free := 0, turn := .auto, served := [], picks := 0, laterNo := 0, autoNo := 0, uid := 1, cclk := 0, devtime := 0, ratio := 4, age := 0
    cores := [], wings := [], dies := [], teams := [], clusters := [], saved := [], launches := []
    queues := [], spaces := [], nextTicket := 1, leases := [], shoots := [], blocks := []
    l2 := [], repl := [], homeRec := [], masks := [], maskDrop := [], pub := [], txns := [], homeWait := []
    dram := [], dramPoison := [], unitKey := [], keys := [], hostMem := [], peerMem := [], hPoison := []
    rows := [], accs := [], pends := [], texs := [], msgs := [], later := [], inputs := [], copies := []
    intlv := [], intlvSt := [], retired := [], stes := [], reserve := [], sdie := [], sdiePoison := []
    domains := [], bankLast := [], bankReqs := [], resps := [], ratioTo := none, dbgAns := [], draws := [], flights := [], slots := []
    ring := {}, msi := {}, bias := {}, hostReqs := [], hostAns := [], mgmt := {}, boot := {} }

end Sys2Proof.Machine
end

