-- ==== Sys2Proof/Machine/Ops.lean ====
section
/-! DEFINITION. The named operations over the state: registers, threads and groups, runs, the guest
book, and TAKING A TRAP as one shared operation (R341 to R347), with the dispositions that return
from it (R356). -/

namespace Sys2Proof.Machine

/-- The outcome of one step. -/
abbrev Out := Host.Outcome State Fault Refusal

/-! ## Reaching into the state -/

def State.core (s : State) (c : Nat) : Core := amapGet {} s.cores c
def State.wing (s : State) (w : Nat) : Wing := amapGet {} s.wings w
def State.die (s : State) (d : Nat) : Die := amapGet {} s.dies d
def State.team (s : State) (t : Nat) : Team := amapGet {} s.teams t
def State.group (s : State) (t g : Nat) : Group := amapGet {} (s.team t).groups g
def Group.thr (g : Group) (l : Nat) : Thread := amapGet {} g.threads l
def State.thread (s : State) (t g l : Nat) : Thread := amapGet {} (s.group t g).threads l
def State.cluster (s : State) (c : Nat) : Cluster := amapGet {} s.clusters c
def State.launch (s : State) (l : Nat) : Launch := amapGet {} s.launches l
def State.space (s : State) (n : Nat) : Space := amapGet {} s.spaces n
def State.queue (s : State) (n : Nat) : Queue := amapGet {} s.queues n
def State.ste (s : State) (n : Nat) : Ste := amapGet {} s.stes n

def State.updCore (s : State) (c : Nat) (f : Core → Core) : State :=
  { s with cores := amapInsert s.cores c (f (s.core c)) }
def State.updWing (s : State) (w : Nat) (f : Wing → Wing) : State :=
  { s with wings := amapInsert s.wings w (f (s.wing w)) }
def State.updDie (s : State) (d : Nat) (f : Die → Die) : State :=
  { s with dies := amapInsert s.dies d (f (s.die d)) }
/-- Change a resident team; a team that has ended is not there to be changed. -/
def State.updTeam (s : State) (t : Nat) (f : Team → Team) : State :=
  { s with teams := amapMap (fun k x => if k = t then f x else x) s.teams }
/-- The team that holds a scratchpad: resident, ended in a live cluster, or saved. (DESIGN CHOICE, log 43.) -/
def State.pad (s : State) (t : Nat) : Team :=
  match amapFind? s.teams t with
  | some tm => tm
  | none => match s.clusters.findSome? fun kv => amapFind? kv.2.ended t with
    | some tm => tm
    | none => (s.saved.findSome? fun kv => (amapFind? kv.2.teams t).or (amapFind? kv.2.cluster.ended t)).getD {}
/-- Change the scratchpad of a team, wherever it is held. (DESIGN CHOICE, log 43.) -/
def State.updPad (s : State) (t : Nat) (f : Team → Team) : State :=
  let g (k : Nat) (x : Team) : Team := if k = t then f x else x
  if (amapFind? s.teams t).isSome then s.updTeam t f
  else { s with
    clusters := amapMap (fun _ c => { c with ended := amapMap g c.ended }) s.clusters
    saved := amapMap (fun _ v => { v with teams := amapMap g v.teams, cluster := { v.cluster with ended := amapMap g v.cluster.ended } }) s.saved }
def State.updGroup (s : State) (t g : Nat) (f : Group → Group) : State :=
  s.updTeam t fun tm => { tm with groups := amapInsert tm.groups g (f (amapGet {} tm.groups g)) }
def State.updThread (s : State) (t g l : Nat) (f : Thread → Thread) : State :=
  s.updGroup t g fun gr => { gr with threads := amapInsert gr.threads l (f (gr.thr l)) }
def State.updCluster (s : State) (c : Nat) (f : Cluster → Cluster) : State :=
  { s with clusters := amapInsert s.clusters c (f (s.cluster c)) }
def State.updLaunch (s : State) (l : Nat) (f : Launch → Launch) : State :=
  { s with launches := amapInsert s.launches l (f (s.launch l)) }
def State.updSpace (s : State) (n : Nat) (f : Space → Space) : State :=
  { s with spaces := amapInsert s.spaces n (f (s.space n)) }
def State.updQueue (s : State) (n : Nat) (f : Queue → Queue) : State :=
  { s with queues := amapInsert s.queues n (f (s.queue n)) }
def State.updSte (s : State) (n : Nat) (f : Ste → Ste) : State :=
  { s with stes := amapInsert s.stes n (f (s.ste n)) }

/-- The launch record of a team. -/
def State.lr (s : State) (t : Nat) : Record := (s.launch (s.team t).launch).lr
/-- The launch space of a team. -/
def State.spaceOf (s : State) (t : Nat) : Nat := (s.launch (s.team t).launch).space
/-- The cluster of a team. -/
def State.clusterOf (s : State) (t : Nat) : Cluster := s.cluster (s.team t).cluster

/-- Take the next identifier. (DESIGN CHOICE, log 3; DESIGN CHOICE, log 109.) -/
def State.fresh (s : State) : Nat × State := (s.uid, { s with uid := s.uid + 1 })

/-- Fold a state update over a list. -/
def forEach {α : Type} (l : List α) (s : State) (f : State → α → State) : State := l.foldl f s

/-- A core's place (R3). -/
def coreDie (c : Nat) : Nat := c / 96
def coreCol (c : Nat) : Nat := c % 96 % 12
def coreRow (c : Nat) : Nat := c % 96 / 12
/-- The device-wide wing of a core (R3). -/
def coreWing (c : Nat) : Nat := 8 * coreDie c + coreCol c / 3 + 4 * (coreRow c / 4)

/-- A vector is masked in the MSI-X table. -/
def Msi.masked (m : Msi) (v : Nat) : Bool := (amapGet 0 m.table (2 * v + 1)).getLsbD 32
/-- Raise an MSI-X vector (Table 25-7): its message is sent, or is pending while the vector is masked. -/
def State.msiRaise (s : State) (v : Nat) : State :=
  { s with msi := if s.msi.masked v then { s.msi with pending := v :: s.msi.pending } else { s.msi with raised := v :: s.msi.raised } }

/-- Write an entry to the event log (R408): 4,096 entries, the oldest overwritten. -/
def State.logEvent (s : State) (code src : Nat) (data : List Nat) : State :=
  let log := s.mgmt.log ++ [{ time := s.devtime, code := code, src := src, data := data }]
  { s with mgmt := if 4096 < log.length then { s.mgmt with log := log.drop 1, dropped := s.mgmt.dropped + 1 }
                   else { s.mgmt with log := log } }

/-! ## Registers (R126, R152, R73, R187) -/

/-- The vector registers of a thread (R128, R324, R348). -/
def State.regCount (s : State) (t : Nat) : Nat :=
  match (s.team t).kind with
  | .porter => 32
  | .fragment => 8 * (bitField (0x20 * 8 + 43) (0x20 * 8 + 39) (s.lr t).raster.toNat + 1)
  | _ => (s.lr t).regs

def Thread.readV (th : Thread) (n : Nat) : Word := amapGet 0 th.v n
def Thread.writeV (th : Thread) (n : Nat) (x : Word) : Thread := { th with v := amapInsert th.v n x }
/-- p7 reads true (R151). -/
def Thread.readP (th : Thread) (n : Nat) : Bool := n == 7 || th.p.getLsbD n
def Thread.writeP (th : Thread) (n : Nat) (b : Bool) : Thread :=
  if n < 7 then { th with p := if b then th.p ||| BitVec.ofNat 8 (2 ^ n) else th.p &&& ~~~ BitVec.ofNat 8 (2 ^ n) } else th
/-- s63 reads zero and discards writes (R126, R152). -/
def Group.readS (g : Group) (n : Nat) : Word := if n = 63 then 0 else amapGet 0 g.s n
def Group.writeS (g : Group) (n : Nat) (x : Word) : Group := if n = 63 then g else { g with s := amapInsert g.s n x }

def State.readV (s : State) (t g l n : Nat) : Word := (s.thread t g l).readV n
def State.readS (s : State) (t g n : Nat) : Word := (s.group t g).readS n
def State.readP (s : State) (t g l n : Nat) : Bool := (s.thread t g l).readP n
def State.writeV (s : State) (t g l n : Nat) (x : Word) : State := s.updThread t g l (·.writeV n x)
def State.writeS (s : State) (t g n : Nat) (x : Word) : State := s.updGroup t g (·.writeS n x)
def State.writeP (s : State) (t g l n : Nat) (b : Bool) : State := s.updThread t g l (·.writeP n b)

/-- Words of a value, lowest first. -/
def toWords : Nat → Nat → List Word
  | 0, _ => []
  | n + 1, x => BitVec.ofNat 32 x :: toWords n (x / 2 ^ 32)
/-- The value of words, lowest first. -/
def ofWords : List Word → Nat
  | [] => 0
  | w :: ws => w.toNat + 2 ^ 32 * ofWords ws

/-- Values numbered from `n`. -/
def numbered {α : Type} : Nat → List α → List (Nat × α)
  | _, [] => []
  | n, x :: xs => (n, x) :: numbered (n + 1) xs

/-! ## Bookkeeping of groups -/

/-- Lanes whose threads can issue, in ascending order (R136). -/
def Group.readyLanes (g : Group) : List Nat := amapKeys (amapFilter (fun _ th => th.stat = .ready) g.threads)
/-- Live lanes: launched and neither exited nor killed (R137). -/
def Group.liveLanes (g : Group) : List Nat := amapKeys (amapFilter (fun _ th => th.stat ≠ .dead) g.threads)

/-- A thread waits at an instruction of the waiting class other than PAUSE, or at a lane exchange (R194). -/
def Group.atWait (g : Group) (th : Thread) : Bool :=
  match th.stat with
  | .conv _ => true
  | .waiting w => match amapFind? g.waits w with
    | some ⟨_, .pause _⟩ | some ⟨_, .results _⟩ | some ⟨_, .loads _⟩ | none => false
    | some _ => true
  | _ => false

/-- A named lane holds up a lane exchange of `lanes` (R194): its thread is parked, or is live and neither of
the set nor waiting. -/
def Group.holdsUp (g : Group) (lanes : List Nat) (n : Nat) : Bool :=
  match amapFind? g.threads n with
  | none => false
  | some th => match th.stat with
    | .dead => false
    | .parked | .held => true
    | _ => !lanes.contains n && !g.atWait th

/-- Lane-exchange waits that are over (R194): no named lane holds them up, or a thread has reached their PC.
(DEDUCED, log 28.) -/
def Group.exchangeOver (g : Group) : List Nat :=
  g.waits.filterMap fun kv => match kv.2.cond with
    | .exchange named =>
      let pc := (g.thr (kv.2.lanes.headD 0)).pc
      if named.all (fun n => !g.holdsUp kv.2.lanes n) || g.readyLanes.any (fun l => (g.thr l).pc = pc) then some kv.1 else none
    | _ => none
/-- The group with those sets ready again. -/
def Group.wakeExchange (g : Group) : Group :=
  let ws := g.exchangeOver
  { g with
    waits := amapFilter (fun w _ => !ws.contains w) g.waits
    threads := amapMap (fun _ th => match th.stat with
      | .waiting w => if ws.contains w then { th with stat := .ready } else th
      | _ => th) g.threads }

/-- The group has a PC set to bind: ready lanes, or a lane exchange that is over. -/
def Group.canRun (g : Group) : Bool := !g.readyLanes.isEmpty || !g.exchangeOver.isEmpty
/-- What a change made of a group: it takes its place in the ready order now, unless it had one already (R144). -/
def Group.readySince (old : Group) (now : Nat) (new : Group) : Group :=
  if !old.canRun && new.canRun then { new with readyAt := now } else new

/-- Whether a grid is being stopped (R106, R358). -/
def State.stopping (s : State) (t : Nat) : Bool := (s.launch (s.team t).launch).status.isSome

/-- A thread is inside a rasteriser-ordered section. -/
def Section_.isOpen : Section_ → Bool
  | .open_ _ | .kept _ => true
  | _ => false
/-- A section whose thread is parked or pre-empted: its time does not count (R328). -/
def Section_.keep (now : Nat) : Section_ → Section_
  | .open_ since => .kept (now - since)
  | x => x
/-- Its time counts again. -/
def Section_.resume (now : Nat) : Section_ → Section_
  | .kept used => .open_ (now - used)
  | x => x

/-- A team that is being pre-empted may still issue: a section of a fragment group is to reach its ROCEND (R328). -/
def Team.mayRun (tm : Team) : Bool :=
  !tm.preempt || (tm.kind == .fragment && !tm.tokens && tm.groups.any fun g => g.2.threads.any fun th => th.2.sect.isOpen)

/-- Whether the group may be bound (R142, R145, R365): a ready thread, and the team neither being pre-empted (but a run
that a stop cut is finished), nor stopped (but for the group that steps), nor of a grid that is ending. (DEDUCED, log 35.) -/
def State.groupReady (s : State) (t g : Nat) : Bool :=
  ((s.team t).mayRun || (s.group t g).kept.isSome) && (s.team t).stop.all (fun st => st.stepping && st.gix == g) && !s.stopping t && (s.group t g).canRun

/-! ## Barriers by number (R237) -/

/-- Barrier `n` of a team: 0 to 15 its own, 16 to 19 its cluster's. -/
def State.bar (s : State) (t n : Nat) : Bar :=
  if n < 16 then amapGet {} (s.team t).bars n else amapGet {} (s.clusterOf t).bars n
def State.setBar (s : State) (t n : Nat) (b : Bar) : State :=
  if n < 16 then s.updTeam t fun tm => { tm with bars := amapInsert tm.bars n b }
  else s.updCluster (s.team t).cluster fun c => { c with bars := amapInsert c.bars n b }

/-! ## The guest book (R343 to R347) -/

def Cause.code : Cause → Nat
  | .illegalOpcode => 0x01 | .illegalOperand => 0x02 | .wrongStream => 0x03 | .fetchBoundary => 0x04
  | .lenReserved => 0x05 | .latchUnderrun => 0x06 | .privilege => 0x07
  | .tagMismatch => 0x10 | .misaligned => 0x11 | .outOfLodging => 0x12 | .tableFormat => 0x13
  | .writeProtect => 0x14 | .classViolation => 0x15 | .race => 0x16 | .scratchRange => 0x17
  | .regionOff => 0x18 | .poison => 0x19 | .apertureRole => 0x1A
  | .barrierCount => 0x20 | .barrierStale => 0x21 | .rocTimeout => 0x23 | .rstackOverflow => 0x24
  | .meshOverflow => 0x25
  | .fpInvalid => 0x30 | .fpDivzero => 0x31 | .fpOverflow => 0x32 | .fpUnderflow => 0x33 | .fpInexact => 0x34
  | .bkpt => 0x40 | .watch => 0x41 | .step => 0x42 | .software => 0x50 | .legacy => 0x51

/-- The next SEQ from `n` that no record holds (R345). -/
def nextFreeSeq (used : List Nat) : Nat → Nat → Nat
  | 0, n => n
  | fuel + 1, n => if used.contains n then nextFreeSeq used fuel (if n = 2 ^ 24 - 1 then 1 else n + 1) else n

/-- PH0 and PH1 of a record (Table 20-2): PHASE bits [3:0] of the barriers. -/
def State.phaseNibbles (s : State) (t lo n : Nat) : Nat :=
  (List.range n).foldl (fun acc k => acc + 16 ^ k * ((s.bar t (lo + k)).phase.toNat % 16)) 0

/-- The eight words of a fault record (Table 20-2), SEQ left 0. -/
def State.faultRecord (s : State) (t group lane pc : Nat) (tr : Trap) : List DWord :=
  let tm := s.team t
  let la := s.launch tm.launch
  let cl := s.cluster tm.cluster
  let w := la.lr.cw
  [ BitVec.ofNat 64 (tr.cause.code + 2 ^ 8 * group + 2 ^ 16 * lane + 2 ^ 24 * (tr.aux % 256) + 2 ^ 32 * (tm.rank % 16)),
    BitVec.ofNat 64 (2 ^ 8 * (tm.rank / w) + 2 ^ 12 * (tm.rank % w) + 2 ^ 16 * cl.gz + 2 ^ 32 * cl.gy + 2 ^ 48 * cl.gx),
    BitVec.ofNat 64 (2 ^ 36 * la.ticket + 2 ^ 52 * la.space),
    BitVec.ofNat 64 tr.addr,
    BitVec.ofNat 64 (pc % 2 ^ 32),
    BitVec.ofNat 64 tr.info,
    BitVec.ofNat 64 (s.phaseNibbles t 0 16),
    BitVec.ofNat 64 (s.phaseNibbles t 16 4) ]

/-- The first word with its SEQ. -/
def GbEntry.withSeq (e : GbEntry) (n : Nat) : GbEntry :=
  { e with seq := n
           words := match e.words with
             | [] => []
             | w :: ws => BitVec.ofNat 64 (w.toNat % 2 ^ 40 + 2 ^ 40 * n) :: ws }

/-- GROUP, LANE and CAUSE of an entry. -/
def GbEntry.group (e : GbEntry) : Nat := bitField 15 8 (e.words.headD 0).toNat
def GbEntry.lane (e : GbEntry) : Nat := bitField 23 16 (e.words.headD 0).toNat
def GbEntry.cause (e : GbEntry) : Nat := bitField 7 0 (e.words.headD 0).toNat

/-- Put a record in a free entry of the core's book: it takes the next SEQ; a record for the host
sends vector 8 + c (R345, R351). -/
def State.bookPut (s : State) (c : Nat) (e : GbEntry) : State :=
  let k := s.core c
  let n := nextFreeSeq (k.book.map (·.seq)) 65 k.nextSeq
  let s := s.updCore c fun k => { k with book := k.book ++ [e.withSeq n], nextSeq := if n = 2 ^ 24 - 1 then 1 else n + 1 }
  if e.host then s.msiRaise (8 + c) else s

/-- The porter's team on a core, while it is awake. -/
def State.porterTeam (s : State) (core : Nat) : Option Nat :=
  (s.teams.find? fun kv => kv.2.core = core && kv.2.kind == .porter).map (·.1)
/-- The night porter of a core is asleep: it serves no launch, or its thread has ended. (DEDUCED, log 30.) -/
def State.porterAsleep (s : State) (core : Nat) : Bool :=
  match s.porterTeam core with
  | none => true
  | some t => (s.group t 0).liveLanes.isEmpty

/-- Hold a thread or an engine record: GBSTAT.FULL rises; when it was 0, with vector 8 + c, and a sleeping porter is
called (R346, R347). -/
def State.bookHold (s : State) (c : Nat) (h : Held) : State :=
  let was := (s.core c).full
  let call := !was && s.porterAsleep c && (s.core c).book.any fun e => !e.host && (s.launch e.launch).lr.hdl
  let s := s.updCore c fun k => { k with held := k.held ++ [h], full := true, called := k.called || call }
  if was then s else s.msiRaise (8 + c)

/-- Whether a record must wait (R346): no entry is free, less the one that a replaying thread may take, or another is
held already. -/
def State.bookFull (s : State) (c : Nat) : Bool :=
  64 ≤ (s.core c).book.length + (if (s.core c).serving.isSome then 1 else 0) || !(s.core c).held.isEmpty

/-- Whether a record of this launch goes to the host driver (R351, R374). -/
def State.toHost (s : State) (la : Nat) (tr : Trap) : Bool :=
  !(s.launch la).lr.hdl ||
  (tr.leafW && tr.cause = .writeProtect && (s.space (s.launch la).space).dbg.getLsbD 59)

/-- Enter an engine record (stream, copy or mesh): into the book, or held (R345, R346); none for a grid that is ending
(R358). -/
def State.engineRecord (s : State) (t group lane pc unit : Nat) (tr : Trap) : State :=
  if s.stopping t then s else
  let tm := s.team t
  let e : GbEntry := { seq := 0, words := s.faultRecord t group lane pc tr, team := t, launch := tm.launch,
                       host := s.toHost tm.launch tr, unit := unit }
  if s.bookFull tm.core then s.bookHold tm.core (.engine e) else s.bookPut tm.core e

/-- The entry of its space's translation cache in which a native PC of a Nirop launch lies, and the place in it. -/
def State.blockAt (s : State) (la pc : Nat) : Option (Block × Nat) :=
  let l := s.launch la
  let xc := (s.space l.space).xc.toNat
  let va := bitField 57 29 xc * 2 ^ 28
  if l.lr.nirop.getLsbD 31 && xc / 2 ^ 63 % 2 = 1 && va ≤ pc && pc < va + 2 ^ 28 then
    (s.blocks.find? fun b => b.space = l.space && b.offset ≤ pc - va && pc - va < b.offset + b.len).map fun b => (b, pc - va - b.offset)
  else none
/-- The sequence that begins at a place of an entry: its zero-divisor place, its end, itself. -/
def Block.seqAt (b : Block) (o : Nat) : Option (Nat × Nat × NSeq) := (b.seqs.find? fun x => x.1 = o).map (·.2)

/-- The PC that a record or PKRD gives for a thread: the offset from CODE, or the Nirop offset of the operation whose
translation holds it (R343, R392). -/
def State.pcOffset (s : State) (t pc : Nat) : Nat :=
  let la := (s.team t).launch
  match s.blockAt la pc with
  | some (b, o) => ((b.ops.filter fun x => decide (x.1 ≤ o)).getLast?.map (·.2)).getD 0
  | none => (pc + 2 ^ 64 - (s.launch la).lr.code) % 2 ^ 32

/-- Serve the held list when an entry is free and no held thread is replaying (R346): an engine record
enters the book, a held thread becomes ready to replay. -/
def State.serveHeld : Nat → State → Nat → State
  | 0, s, _ => s
  | fuel + 1, s, c =>
    let k := s.core c
    if 64 ≤ k.book.length || k.serving.isSome then s else
    match k.held with
    | [] => s
    | .engine e :: rest => serveHeld fuel ((s.updCore c fun k => { k with held := rest }).bookPut c e) c
    | .thread t g l :: rest =>
      let s := s.updCore c fun k => { k with held := rest, serving := some (t, g, l) }
      s.updGroup t g fun gr => gr.readySince s.cclk { gr with
        threads := amapInsert gr.threads l { gr.thr l with stat := .ready } }

/-! ## Ending a grid (R106, R358), killing and ending threads -/

/-- End a thread as EXIT does (R183): it is no longer live, its section ends. -/
def Thread.finish (th : Thread) (killed : Bool) : Thread :=
  { th with stat := .dead, sect := .none, pend := none, killed := killed }

/-- The thread leaves every wait of its group. -/
def Group.leaveWaits (g : Group) (l : Nat) : Group :=
  { g with waits := amapFilter (fun _ w => !w.lanes.isEmpty)
             (amapMap (fun _ w => { w with lanes := w.lanes.filter (· ≠ l) }) g.waits) }

/-- Bytes of a thread's private window, its spill area with them (R28). -/
def Launch.privSize (la : Launch) : Nat := la.lr.priv + 8 * la.lr.rstack
/-- The team slots of a launch: NT of R28. -/
def Launch.teamSlots (la : Launch) : Nat :=
  min (la.lr.gx * la.lr.gy * la.lr.gz * la.lr.cw * la.lr.ch) (192 * (64 / la.lr.groups))
/-- Blocks of a launch's private window: NB of R28, and one for each fragment group that the device can hold at once. Which blocks
those take is not stated. (DESIGN CHOICE, log 44.) -/
def Launch.privBlocks (la : Launch) : Nat := la.teamSlots * la.lr.groups + if la.lr.kind then 192 * 64 else 0
/-- The block index of a group of a team (R28). (DESIGN CHOICE, log 44.) -/
def State.blockIx (s : State) (t g : Nat) : Nat :=
  let tm := s.team t
  let la := s.launch tm.launch
  if tm.kind = .fragment then la.teamSlots * la.lr.groups + tm.slot else tm.slot * la.lr.groups + g

/-- The private block of a group: its lines are dropped from L1 without write-back when its last thread
ends (R29). `lo` and `hi` bound the block's GLOBAL addresses. (DESIGN CHOICE, log 44.) -/
def State.dropPrivate (s : State) (t g : Nat) : State :=
  let tm := s.team t
  let la := s.launch tm.launch
  let size := la.privSize
  let lo := la.window + s.blockIx t g * (size * 32)
  if size = 0 || tm.kind = .porter then s else
  s.updCore tm.core fun k => { k with l1 := k.l1.filter fun l =>
    !(l.space = la.space && lo ≤ l.vline * 128 && l.vline * 128 < lo + size * 32) }

/-- After a thread of the group ended: drop its private lines once none is live. -/
def State.afterEnd (s : State) (t g : Nat) : State :=
  if (s.group t g).liveLanes.isEmpty then s.dropPrivate t g else s

/-- Drop from the held list of a core what satisfies `p`, and the thread that is replaying (R356, R358). -/
def State.unhold (s : State) (c : Nat) (p : Held → Bool) : State :=
  s.updCore c fun k => { k with
    held := k.held.filter fun h => !p h
    serving := match k.serving with
      | some (t, g, l) => if p (.thread t g l) then none else k.serving
      | none => none }

/-- Kill a thread (R356): it is held no longer. (DEDUCED, log 84.) -/
def State.killThread (s : State) (t g l : Nat) : State :=
  if (s.thread t g l).stat = .dead then s else
  (s.updGroup t g fun gr0 =>
    let gr := { gr0 with threads := amapInsert gr0.threads l ((gr0.thr l).finish true) }
    let gr := gr.leaveWaits l
    gr0.readySince s.cclk { gr with run := match gr.run with
        | none => none
        | some r => if (r.lanes.filter (· ≠ l)).isEmpty then none else some { r with lanes := r.lanes.filter (· ≠ l) } }).afterEnd t g
  |>.unhold (s.team t).core (· == .thread t g l) |>.serveHeld 65 (s.team t).core

/-- Kill every live thread of a group. -/
def State.killGroup (s : State) (t g : Nat) : State :=
  forEach (s.group t g).liveLanes s fun s l => s.killThread t g l

/-- MTLB entries that a team's commands pinned, of the numbers that `f` names, are free of them (Table 06-4). -/
def State.unpin (s : State) (t : Nat) (f : Nat → Bool) : State :=
  s.updWing (coreWing (s.team t).core) fun w => { w with
    mtlb := (w.mtlb.map fun e => { e with pins := e.pins.filter fun p => !(p.1 == t && f p.2) }).filter fun e => !(e.drop && e.pins.isEmpty) }

/-- Give up the accesses of an engine's work. -/
def State.engDrop (s : State) (f : Who → Bool) : State := { s with accs := amapFilter (fun _ a => !f a.who) s.accs }
/-- The accesses of a team's stream. -/
def Who.ofStream (t : Nat) (w : Who) : Bool :=
  match w with
  | .stream t' _ => t' == t
  | _ => false

/-- A team of a grid that is ending: its unbound groups end at once, a bound one when its run ends (R106). -/
def State.stopTeam (s : State) (t : Nat) (all : Bool) : State :=
  let tm := s.team t
  let s := forEach (tm.groups.map (·.1)) s fun s g =>
    if all || (s.group t g).run.isNone then s.killGroup t g else s
  let s := (s.unpin t fun _ => true).engDrop (Who.ofStream t)
  s.updTeam t fun tm => { tm with
    stream := tm.stream.map fun st => { st with window := [], ended := true, done := true }, deferred := [] }

/-- The next cluster of a queue: its oldest saved one that no debugger holds, else the next of its head, once none of its
clusters is saved (R303, R383). (DEDUCED, log 37.) -/
def State.frontOf (s : State) (q : Nat) : Option Front :=
  let saves := s.saved.filter fun kv =>
    let l := s.launch kv.2.cluster.launch
    l.queue = q && l.saved.contains kv.1
  match saves.find? fun kv => !kv.2.cluster.byDbg with
  | some kv => some ⟨kv.2.cluster.launch, some kv.1, 0⟩
  | none => if saves.isEmpty then (s.queue q).items.head?.map fun h => ⟨h, none, (s.launch h).next⟩ else none
/-- A cluster that has been the next of a queue still waits to be placed. -/
def State.frontLive (s : State) (q : Nat) (f : Front) : Bool :=
  match f.saved with
  | none => (s.queue q).items.contains f.la && (s.launch f.la).next == f.number
  | some k => (s.launch f.la).saved.contains k
/-- The next cluster of a queue, as it is now; each keeps the time at which it first was the next (R307). -/
def State.markNext (s : State) (q : Nat) : State :=
  let f := s.frontOf q
  let new := match f with
    | some x => if (s.queue q).since.any (·.1 = x) then [] else [(x, s.devtime)]
    | none => []
  s.updQueue q fun x => { x with front := f, since := (x.since.filter fun y => s.frontLive q y.1) ++ new }

/-- A launch leaves its queue. -/
def State.queueDrop (s : State) (la : Nat) : State :=
  let q := (s.launch la).queue
  (s.updQueue q fun q => { q with items := q.items.filter (· ≠ la) }).markNext q

/-- End a grid early (R106, R358, R301): its status, its records and held threads dropped, its teams
stopped, its pre-empted clusters and its draw ended (R412). -/
def State.endGrid (s : State) (la : Nat) (st : Status) : State :=
  if (s.launch la).status.isSome || (s.launch la).complete then s else
  let s := s.updLaunch la fun x => { x with status := some st }
  let keep (x : Option (Nat × Nat × Nat)) : Option (Nat × Nat × Nat) := match x with
    | some y => if (s.team y.1).launch = la then none else some y
    | none => none
  let heldStays (h : Held) : Bool := match h with
    | .thread t _ _ => (s.team t).launch ≠ la
    | .engine e => e.launch ≠ la
  let accOf (w : Who) : Bool := match w with
    | .thread t _ _ => s.saved.any fun kv => kv.2.cluster.launch == la && (amapFind? kv.2.teams t).isSome
    | _ => false
  let cores := amapMap (fun _ k => { k with
      book := k.book.filter fun e => e.launch ≠ la
      held := k.held.filter fun h => heldStays h
      serving := keep k.serving
      porter := if k.porter = some la then none else k.porter }) s.cores
  let wings := amapMap (fun _ w => { w with
      queue := w.queue.filter (·.1 ≠ la)
      quads := w.quads.filter (·.1 ≠ la) }) s.wings
  let s := { s with
    cores := cores
    wings := wings
    saved := amapFilter (fun _ x => x.cluster.launch ≠ la) s.saved
    accs := amapFilter (fun _ x => !accOf x.who) s.accs
    copies := amapFilter (fun _ x => (s.team x.team).launch ≠ la || (x.read && !x.faulted)) s.copies
    draws := amapMap (fun _ x => if x.launch = la then { x with ended := true } else x) s.draws
    flights := amapMap (fun _ x => if x.launch = la then { x with empty := true } else x) s.flights }
  let s := s.engDrop fun w => match w with
    | .copy _ id => (amapFind? s.copies id).isNone
    | _ => false
  let s := (s.updLaunch la fun x => { x with saved := [] }).queueDrop la
  let s := forEach (amapKeys (amapFilter (fun _ x => x.launch = la) s.teams)) s fun s t =>
    s.stopTeam t ((s.team t).kind = .fragment || (s.team t).kind = .porter)
  let teams := amapFilter (fun _ x => !(x.kind = .porter && x.launch = la)) s.teams
  let s := { s with teams := amapMap (fun _ x => if x.launch = la then { x with preempt := false, restore := false } else x) teams }
  forEach (amapKeys s.cores) s fun s c => s.serveHeld 65 c

/-- A lodging breach (R106): the grid ends, a machine check is logged and vector 4 raised. -/
def State.breach (s : State) (la va level : Nat) : State :=
  let s := s.endGrid la .breach
  (s.logEvent 1 0 [(s.launch la).space, va, level]).msiRaise 4

/-! ## Team stops (R365, R366) -/

/-- Stop a team: every group halts, and a bound one keeps its run as its stop record. (DEDUCED, log 35.) -/
def State.teamStop (s : State) (t cause gix : Nat) (threads : List (Nat × Nat)) : State :=
  let phases := (List.range 20).map fun n => ((s.bar t n).phase.toNat, (s.bar t n).arrived)
  s.updTeam t fun tm => { tm with
    stop := some { cause := cause, threads := threads, phases := phases, gix := gix, since := s.cclk },
    groups := amapMap (fun g gr => { gr with
      run := none
      kept := if gr.run.isSome then gr.run else gr.kept
      debt := 0
      threads := amapMap (fun l th => if cause = 0x40 ∧ threads.contains (g, l) then { th with noBreak := true } else th) gr.threads }) tm.groups }

/-- Whether a debugger is attached to the team's space (R364). -/
def State.attached (s : State) (t : Nat) : Bool := (s.space (s.spaceOf t)).dbg.getLsbD 63

/-! ## Taking a trap (R341, R342, R346, R350) -/

/-- Remove a lane from the run of its group. -/
def Group.leaveRun (g : Group) (l : Nat) : Group :=
  { g with run := g.run.map fun r => { r with lanes := r.lanes.filter (· ≠ l) } }

/-- A trap of the night porter: it takes no entry; the grid it serves ends, the trap is logged and the porter sleeps (R350).
(DEDUCED, log 52.) -/
def State.porterTrap (s : State) (t pc : Nat) (tr : Trap) : State :=
  let tm := s.team t
  let s := ((s.endGrid tm.launch .ended).logEvent 2 tm.core [tr.cause.code, tr.addr, pc]).updCore tm.core
    fun k => { k with porter := none }
  { s with teams := amapErase s.teams t, pends := amapFilter (fun _ p => p.team ≠ t) s.pends }
/-- A trap of a thread whose grid is ending: it ends, and with the last of its run the rest of its group (R106, R358). -/
def State.lastTrap (s : State) (t g l : Nat) : State :=
  let s := s.killThread t g l
  if (s.group t g).run.isNone then s.killGroup t g else s
/-- A breakpoint or a watch hit of a thread stops its team; a thread that matches in the CCLK of the stop is reported too
(R365). -/
def State.matchStop (s : State) (t g l code : Nat) : State :=
  match (s.team t).stop with
  | some x =>
    if x.stepping then s.teamStop t code g [(g, l)]
    else if x.since = s.cclk ∧ x.cause = code then
      s.updTeam t fun tm => { tm with stop := some { x with threads := x.threads ++ [(g, l)] } }
    else s
  | none => s.teamStop t code g [(g, l)]

/-- TAKE A TRAP on one thread: the shared entry of every cause. A trap of the night porter ends the grid it serves and is
logged (R350). A thread of a grid that is ending ends at its trap, with no record (R358). OUT_OF_LODGING ends the grid (R106).
BKPT and WATCH under a debugger stop the team (R340). Otherwise the thread leaves its run, holding its PC and registers: it is
parked with a record in the core's guest book, or held when no entry is free (R342, R345, R346). (DEDUCED, log 71.) -/
def State.takeTrap (s : State) (t g l : Nat) (tr : Trap) (brk : Bool := false) : State :=
  let tm := s.team t
  let c := tm.core
  if tm.kind = .porter then s.porterTrap t (s.thread t g l).pc tr
  else if s.stopping t then s.lastTrap t g l
  else if tr.cause = .outOfLodging then s.endGrid tm.launch .outOfLodging
  else if (tr.cause = .bkpt || tr.cause = .watch) && s.attached t then s.matchStop t g l tr.cause.code
  else
    let serving := (s.core c).serving = some (t, g, l)
    if s.bookFull c && !(serving && (s.core c).book.length < 64) then
      let s := s.updGroup t g fun gr =>
        ({ gr with threads := amapInsert gr.threads l { gr.thr l with stat := .held } }).leaveRun l
      if serving then s.updCore c fun k => { k with held := .thread t g l :: k.held, serving := none }
      else s.bookHold c (.thread t g l)
    else
      let pc := s.pcOffset t (s.thread t g l).pc
      let e : GbEntry := { seq := 0, words := s.faultRecord t g l pc tr, team := t, launch := tm.launch,
                           host := s.toHost tm.launch tr, brk := brk }
      let now := s.cclk
      let park (th : Thread) : Thread := { th with stat := .parked, sect := th.sect.keep now }
      let s := s.updGroup t g fun gr =>
        ({ gr with threads := amapInsert gr.threads l (park (gr.thr l)) }).leaveRun l
      s.bookPut c e

/-- Take one trap on each of several threads, in ascending lane order. -/
def State.takeTraps (s : State) (t g : Nat) (ls : List Nat) (tr : Trap) : State :=
  forEach ls s fun s l => s.takeTrap t g l tr

/-- Free an entry (R356) and serve what is held. -/
def State.bookFree (s : State) (c seq : Nat) : State :=
  (s.updCore c fun k => { k with book := k.book.filter (·.seq ≠ seq) }).serveHeld 65 c

/-- Make a thread ready again. -/
def State.makeReady (s : State) (t g l : Nat) : State :=
  let wake (th : Thread) : Thread := { th with stat := .ready, sect := th.sect.resume s.cclk }
  s.updGroup t g fun gr => gr.readySince s.cclk { gr with threads := amapInsert gr.threads l (wake (gr.thr l)) }

/-- The four lanes of quad `k` of a fragment team have exited (R324). -/
def State.quadExited (s : State) (t k : Nat) : Bool :=
  match amapFind? s.teams t with
  | none => false
  | some _ => (List.range 4).all fun p => (s.thread t 0 (4 * k + p)).stat = .dead
/-- The exports of quad `k` of a fragment team. -/
def State.quadExports (s : State) (t k : Nat) : List Export :=
  match (s.team t).frag with
  | none => []
  | some f => (List.range 4).map fun p => amapGet {} f.exports (4 * k + p)

/-! ## Issue and runs (R136, R139 to R141) -/

/-- The guard of a thread (R151). -/
def Thread.guard (th : Thread) (o : Ops) : Bool := th.readP o.g.toNat != o.gn

/-- End the run of a group: it is unbound; where its grid is ending, its threads end (R106). -/
def State.endRun (s : State) (t g : Nat) : State :=
  let s := s.updGroup t g fun gr => { gr with run := none, readyAt := s.cclk }
  if s.stopping t then s.killGroup t g else s

/-! ## Watch ranges (R369) -/

/-- Bytes lie in a space's watch range `k`, which watches that kind of access. -/
def State.watchIn (s : State) (space k va n : Nat) (rd wr : Bool) : Bool :=
  let x := (amapGet 0 (s.space space).watch k).toNat
  let lg := bitField 60 56 x
  let base := bitField 54 0 x * 4 / 2 ^ lg
  decide (2 ^ 63 ≤ x) && ((rd && bitField 62 62 x == 1) || (wr && bitField 61 61 x == 1)) &&
  decide (2 ≤ lg) && decide (lg ≤ 31) && decide (va / 2 ^ lg ≤ base) && decide (base ≤ (va + n - 1) / 2 ^ lg)
/-! ## Accesses that hold a group -/

/-- An access of one of the lanes is in flight. A W-path access cannot fail once issued, and holds nothing.
(DESIGN CHOICE, log 17.) -/
def State.accHeld (s : State) (t g : Nat) (lanes : List Nat) : Bool :=
  s.accs.any fun kv => match kv.2.who with
    | .thread t' g' l => t' = t && g' = g && kv.2.va / 2 ^ 60 ≠ 4 && (lanes.contains l || kv.2.mates.any lanes.contains)
    | _ => false

/-- A store that is on its way to its HOME word can fail no more, unless a watch range that it hits still follows.
(DESIGN CHOICE, log 17.) -/
def State.sureStore (s : State) (a : Access) : Bool :=
  a.op == .store && a.cls == .home && !a.h && a.snoops.isEmpty &&
  (List.range 8).all fun k => !s.watchIn a.space k a.va a.n false true
/-- An access of one of the lanes that may still fail is in flight: the group does not go on. A privileged instruction need not wait
for stores that cannot (R380). (DESIGN CHOICE, log 17.) -/
def State.accBars (s : State) (t g : Nat) (lanes : List Nat) : Bool :=
  s.accs.any fun kv => match kv.2.who with
    | .thread t' g' l => t' = t && g' = g && kv.2.va / 2 ^ 60 ≠ 4 && (lanes.contains l || kv.2.mates.any lanes.contains) && !s.sureStore kv.2
    | _ => false

/-- A held thread that has replayed is served once no access of it can trap any more (R346). -/
def State.servedLanes (s : State) (t g : Nat) (lanes : List Nat) : State :=
  let c := (s.team t).core
  match (s.core c).serving with
  | some (t', g', l) =>
    if t' = t ∧ g' = g ∧ l ∈ lanes ∧ s.accBars t g [l] = false then (s.updCore c fun k => { k with serving := none }).serveHeld 65 c else s
  | none => s

/-- After an instruction of `lanes` issued: count it, keep in the run the lanes still ready, and end the
run after 24 instructions, RB, a waiting instruction, or when no lane is left (R140). A branch that
split the set keeps the part with the lowest lane (R136). A stepping team stops again (R366). (DEDUCED, log 25.) -/
def State.endIssue (s : State) (t g : Nat) (lanes : List Nat) (rb waiting : Bool) (latch : Option Latch) : State :=
  let gr := s.group t g
  match gr.run with
  | none => s.servedLanes t g lanes
  | some r =>
    let left := r.lanes.filter fun l => (gr.thr l).stat = .ready
    let same := match left with
      | [] => []
      | l0 :: _ => left.filter fun l => (gr.thr l).pc = (gr.thr l0).pc
    let y := match latch with
      | none => r.y
      | some v => (v :: r.y).take 4
    let r' := { r with lanes := same, count := r.count + 1, y := y }
    let s := s.updGroup t g fun gr => { gr with
      run := some r'
      threads := amapMap (fun l th => if lanes.contains l then { th with noBreak := false } else th) gr.threads }
    let s := if rb || waiting || same.isEmpty || 24 ≤ r'.count then s.endRun t g else s
    let s := s.servedLanes t g lanes
    match (s.team t).stop with
    | none => s
    | some st => if st.stepping then
        (s.updTeam t fun tm => { tm with stop := none }).teamStop t 0x42 st.gix [] else s

/-- Advance the PC of lanes past an instruction of `n` bytes. -/
def State.advance (s : State) (t g : Nat) (lanes : List Nat) (n : Nat) : State :=
  s.updGroup t g fun gr => { gr with
    threads := amapMap (fun l th => if lanes.contains l then { th with pc := (th.pc + n) % 2 ^ 64 } else th) gr.threads }

/-- A wait of a group that may end: not one of a team that is still to be restored (R362). -/
def State.waitOf (s : State) (t g w : Nat) : Option Wait :=
  if (s.team t).restore then none else amapFind? (s.group t g).waits w

/-- Put lanes to wait, with a new wait of the group (R142). -/
def State.putWait (s : State) (t g : Nat) (lanes : List Nat) (c : Cond) : State :=
  if lanes.isEmpty then s else
  let w := s.uid
  let s := { s with uid := w + 1 }
  s.updGroup t g fun gr => { gr with
    waits := amapInsert gr.waits w { lanes := lanes, cond := c }
    threads := amapMap (fun l th => if lanes.contains l then { th with stat := .waiting w } else th) gr.threads }

/-- End a wait: its lanes become ready; one whose BARRD failed meanwhile is parked (R239). -/
def State.endWait (s : State) (t g w : Nat) : State :=
  match amapFind? (s.group t g).waits w with
  | none => s
  | some wt => s.updGroup t g fun gr => gr.readySince s.cclk { gr with
      waits := amapErase gr.waits w
      threads := amapMap (fun l th =>
        if wt.lanes.contains l ∧ th.stat = .waiting w then
          { th with stat := if th.pend.isSome then .parked else .ready, pend := none } else th) gr.threads }

end Sys2Proof.Machine
end

