-- ==== Sys2Proof/Machine/Operands.lean ====
section
/-! DEFINITION. Operand forms (R152 to R155, R166, R167) and the common shape of an issue: the checks
of Table 09-17 that depend on the launch and the run, the hold for a pending result (R142), and the
writing back of what each lane computed. -/

namespace Sys2Proof.Machine

/-! ## What an instruction reads and writes -/

/-- The registers a word uses: sources with their number of words, vector and scalar destinations as
(first, count), predicates read and written, whether the entry is an S-form (R167) or writes a latch (R9). -/
structure Uses where
  src    : List (Src × Nat) := []
  vd     : List (Nat × Nat) := []
  sd     : List (Nat × Nat) := []
  pr     : List Nat := []
  pw     : List Nat := []
  sform  : Bool := false
  deriving DecidableEq, Repr

/-- The issue of one word: the group, its run, the word's fields, the participants in ascending order. -/
structure Iss where
  t     : Nat
  g     : Nat
  run   : Run
  o     : Ops
  parts : List Nat
  deriving DecidableEq, Repr

/-- The vector registers a source names. -/
def Src.vregs (x : Src) (n : Nat) : List Nat :=
  match x with
  | .v k => (List.range n).map (k.toNat + ·)
  | _ => []
/-- The scalar registers a source names. -/
def Src.sregs (x : Src) (n : Nat) : List Nat :=
  match x with
  | .s k => (List.range n).map (k.toNat + ·)
  | _ => []
/-- The latch a source names. -/
def Src.latch? (x : Src) : Option Nat :=
  match x with
  | .y n => some n.toNat
  | _ => none

def Uses.vregs (u : Uses) : List Nat :=
  u.src.flatMap (fun x => Src.vregs x.1 x.2) ++ u.vd.flatMap fun d => (List.range d.2).map (d.1 + ·)
def Uses.sregs (u : Uses) : List Nat :=
  u.src.flatMap (fun x => Src.sregs x.1 x.2) ++ u.sd.flatMap fun d => (List.range d.2).map (d.1 + ·)
def Uses.latches (u : Uses) : List Nat := u.src.filterMap fun x => Src.latch? x.1

/-- Check 7's register range: no vector register at or above the launch's count (R152). -/
def Uses.inRange (u : Uses) (n : Nat) : Bool := u.vregs.all (· < n)

/-- Results pending on a register or predicate that the word reads or writes for the lanes that take part, or on the guard
predicate of a lane of the run (R142, R151, R224). (DESIGN CHOICE, log 16.) -/
def State.pendHits (s : State) (t g : Nat) (o : Ops) (u : Uses) (run lanes : List Nat) : List (Nat × Bool) :=
  let vr := u.vregs
  let sr := u.sregs
  let pr := u.pr ++ u.pw
  s.pends.filterMap fun kv =>
    let p := kv.2
    if p.team = t ∧ p.gix = g ∧
       ((p.regs.any fun r => if p.scalar then sr.contains r.2.1 else lanes.contains r.1 && vr.contains r.2.1) ∨
        p.preds.any fun r => (lanes.contains r.1 && pr.contains r.2.1) ||
          (o.g ≠ 7 && run.contains r.1 && r.2.1 == o.g.toNat))
    then some (kv.1, p.medium) else none

/-- Single-execution loads in flight whose scalar registers the word reads or writes (R142, R143). -/
def State.loadHits (s : State) (t g : Nat) (u : Uses) : List Nat :=
  s.accs.filterMap fun kv => match kv.2.who, kv.2.dst with
    | .thread t' g' _, .scal d n =>
      if t' = t && g' = g && u.sregs.any (fun r => decide (d ≤ r) && decide (r < d + n)) then some kv.1 else none
    | _, _ => none

/-- Whether a latch of the run has a producer (R141). -/
def Run.hasLatch (r : Run) (n : Nat) : Bool := decide (n < r.y.length)

/-- R167: an S-form may read only latches that S-forms wrote. -/
def Run.scalarLatch (r : Run) (n : Nat) : Bool :=
  match r.y[n]? with
  | some y => y.scalar
  | none => true

/-! ## Reading operands -/

/-- Latch `n` as lane `l` reads it. For a lane that took no part in its producer, whose guard was false
there, the specification gives no value: a free value. (DESIGN CHOICE, log 14.) -/
def latchRead (s : State) (r : Run) (n l : Nat) : DWord :=
  match r.y[n]? with
  | none => 0
  | some y =>
    if y.scalar then y.val else
    match amapFind? y.lanes l with
    | some v => v
    | none => (Config.freeValue (s.free + 4 * l + n)).setWidth 64

/-- A 32-bit source (Table 09-2, R10, R166). -/
def src32 (s : State) (i : Iss) (l : Nat) (x : Src) : Word :=
  match x with
  | .v n => s.readV i.t i.g l n.toNat
  | .s n => s.readS i.t i.g n.toNat
  | .y n => (latchRead s i.run n.toNat l).setWidth 32
  | .imm b => b.signExtend 32
  | .imm32 => i.o.imm

/-- Extend 32 bits to 64. -/
def ext64 (signed : Bool) (x : Word) : DWord := if signed then x.signExtend 64 else x.setWidth 64

/-- A 64-bit source: a pair, a whole latch, or an immediate extended as the entry says (R154, R166, R170).
(DEDUCED, log 13.) -/
def src64 (s : State) (i : Iss) (l : Nat) (x : Src) (signed : Bool) : DWord :=
  match x with
  | .v n => s.readV i.t i.g l (n.toNat + 1) ++ s.readV i.t i.g l n.toNat
  | .s n => s.readS i.t i.g (n.toNat + 1) ++ s.readS i.t i.g n.toNat
  | .y n => latchRead s i.run n.toNat l
  | .imm b => b.signExtend 64
  | .imm32 => ext64 signed i.o.imm

/-- Four words: a quad, or the same word four times. -/
def src128 (s : State) (i : Iss) (l : Nat) (x : Src) : List Word :=
  match x with
  | .v n => (List.range 4).map fun k => s.readV i.t i.g l (n.toNat + k)
  | .s n => (List.range 4).map fun k => s.readS i.t i.g (n.toNat + k)
  | _ => toWords 4 (src64 s i l x false).toNat

/-- The value of `n` words of data (1, 2 or 4). -/
def srcData (s : State) (i : Iss) (l : Nat) (x : Src) (n : Nat) : Nat :=
  if n = 1 then (src32 s i l x).toNat else if n = 2 then (src64 s i l x true).toNat else ofWords (src128 s i l x)

/-- A predicate operand. -/
def srcP (s : State) (i : Iss) (l : Nat) (q : BitVec 3) (neg : Bool) : Bool := s.readP i.t i.g l q.toNat != neg

/-! ## Issue -/

/-- A stream's fetch fault: the sequencer stops fetching and a record with group 32 enters the book (R259); OUT_OF_LODGING
ends the grid (R106). -/
def State.streamFetchFault (s : State) (t : Nat) (tr : Trap) : State :=
  match (s.team t).stream with
  | none => s
  | some st =>
    if tr.cause = .outOfLodging then s.endGrid (s.team t).launch .outOfLodging else
    (s.updTeam t fun tm => { tm with stream := some { st with fetchFault := true } }).engineRecord t 32 0
      (s.pcOffset t st.pc) 0 tr

/-- Issue a vector word for the group whose turn it is. The word met checks 1 to 6 of Table 09-17 but for
PRIVILEGE, and check 7 but for the register count; then come the hold for pending results (R142), and
check 8. While an access of one of its lanes is in flight and may still fail, the group issues nothing for them, so that
its trap is precise; a privileged word waits for no store that cannot fail (R119; DESIGN CHOICE, log 17). A sequencer that meets a vector word stops with WRONG_STREAM
(R162, R165). (DEDUCED, log 15.) -/
def issue (o : Ops) (u : Uses) (priv : Bool) (body : Iss → State → State) (s : State) : Out :=
  match s.turn with
  | .stream t => .next (s.streamFetchFault t { cause := .wrongStream })
  | .group t g =>
    match (s.group t g).run with
    | none => .fault .noIssuer
    | some r =>
      if if priv then s.accBars t g r.lanes else s.accHeld t g r.lanes then .next { s with turn := .later }
      else if priv && (s.team t).kind ≠ .porter then
        .next ((s.takeTraps t g r.lanes { cause := .privilege }).endIssue t g r.lanes o.rb false none)
      else if !u.inRange (s.regCount t) then
        .next ((s.takeTraps t g r.lanes { cause := .illegalOperand }).endIssue t g r.lanes o.rb false none)
      else
        let parts := r.lanes.filter fun l => (s.thread t g l).guard o
        match s.pendHits t g o u r.lanes parts with
        | [] =>
          if !(s.loadHits t g u).isEmpty && !parts.isEmpty then
            .next ((s.putWait t g r.lanes (.loads (s.loadHits t g u))).endRun t g)
          else if u.latches.all r.hasLatch || parts.isEmpty then
            if u.sform && !u.latches.all r.scalarLatch && !parts.isEmpty then
              .next (((s.takeTraps t g parts { cause := .illegalOperand }).advance t g
                (r.lanes.filter fun l => !parts.contains l) o.len.bytes).endIssue t g r.lanes o.rb false none)
            else .next (body { t := t, g := g, run := r, o := o, parts := parts } { s with free := s.free + 256 })
          else
            .next (((s.takeTraps t g parts { cause := .latchUnderrun }).advance t g
              (r.lanes.filter fun l => !parts.contains l) o.len.bytes).endIssue t g r.lanes o.rb false none)
        | hits =>
          if hits.all (·.2) then .next { s with turn := .later }
          else .next ((s.putWait t g r.lanes (.results (hits.map (·.1)))).endRun t g)
  | _ => .fault .noIssuer

/-- The lanes of the issue that are still in the run after traps: ready and bound to it. -/
def Iss.going (i : Iss) (s : State) : List Nat :=
  i.run.lanes.filter fun l => (s.thread i.t i.g l).stat = .ready

/-- Finish an issue: every lane that neither trapped nor jumped goes on at PC + length; the run counts. -/
def Iss.finish (i : Iss) (s : State) (jumped : List Nat) (waiting : Bool) (latch : Option Latch) : State :=
  let going := (i.going s).filter fun l => !jumped.contains l
  (s.advance i.t i.g going i.o.len.bytes).endIssue i.t i.g i.run.lanes i.o.rb waiting latch

/-- What one lane computed. -/
structure LaneRes where
  trap  : Option Trap := none
  regs  : List (Nat × Word) := []
  preds : List (Nat × Bool) := []
  latch : DWord := 0
  fpm   : Option Word := none
  deriving DecidableEq, Repr

/-- A 32-bit result in register `d` and the latch. -/
def res32 (d : BitVec 8) (x : Word) : LaneRes := { regs := [(d.toNat, x)], latch := x.setWidth 64 }
/-- A 64-bit result in the pair at `d` and the latch. -/
def res64 (d : BitVec 8) (x : DWord) : LaneRes :=
  { regs := [(d.toNat, x.setWidth 32), (d.toNat + 1, (x >>> 32).setWidth 32)], latch := x }
/-- A predicate result: no latch (R166). -/
def resP (d : BitVec 8) (b : Bool) : LaneRes := { preds := [(d.toNat, b)] }
/-- Several words from register `d`, the low 64 bits in the latch. -/
def resWords (d : BitVec 8) (ws : List Word) : LaneRes :=
  { regs := numbered d.toNat ws, latch := BitVec.ofNat 64 (ofWords (ws.take 2)) }

end Sys2Proof.Machine

namespace Sys2Proof

/-- The registers of an arithmetic word: words of A, B and C, words of the destination. -/
def Ops.uses (o : Ops) (na nb nc nd : Nat) (sc : Bool) : Machine.Uses :=
  { src := [(o.a, na), (o.b, nb), (o.c, nc)].filter fun x => x.2 ≠ 0
    vd := if sc || o.nw || nd = 0 then [] else [(o.d.toNat, nd)]
    sd := if sc && !o.nw then [(o.d.toNat, nd)] else []
    sform := sc }

/-- The registers of an arithmetic word with a predicate destination. -/
def Ops.usesP (o : Ops) (na nb nc : Nat) (pr : List Nat) : Machine.Uses :=
  { src := [(o.a, na), (o.b, nb), (o.c, nc)].filter fun x => x.2 ≠ 0, pr := pr, pw := [o.d.toNat] }

end Sys2Proof

namespace Sys2Proof.Machine

/-- Write one lane's results (NW = 1 keeps the registers, R153). -/
def Thread.apply (th : Thread) (nw : Bool) (r : LaneRes) : Thread :=
  let th := if nw then th else r.regs.foldl (fun th x => th.writeV x.1 x.2) th
  let th := r.preds.foldl (fun th x => th.writeP x.1 x.2) th
  match r.fpm with
  | none => th
  | some f => { th with fpm := f }

/-- Write the results of all lanes that did not trap, and take the traps of the others (R341). -/
def Iss.writeLanes (i : Iss) (s : State) (rs : List (Nat × LaneRes)) : State :=
  let s := s.updGroup i.t i.g fun gr => { gr with
    threads := rs.foldl (fun ths x => if x.2.trap.isSome then ths else
      amapInsert ths x.1 ((amapGet {} ths x.1).apply i.o.nw x.2)) gr.threads }
  forEach rs s fun s x => match x.2.trap with
    | some tr => s.takeTrap i.t i.g x.1 tr
    | none => s

/-- The latch a vector form leaves. -/
def vecLatch (rs : List (Nat × LaneRes)) : Latch :=
  { scalar := false, val := 0, lanes := rs.foldl (fun m x => if x.2.trap.isSome then m else amapInsert m x.1 x.2.latch) [] }

/-- A vector instruction that each participant performs on its own operands, with a result at once
(short latency, Table 08-5). -/
def vecIssue (o : Ops) (u : Uses) (latch : Bool) (f : State → Iss → Nat → LaneRes) (s : State) : Out :=
  issue o u false (fun i s =>
    let rs := i.parts.map fun l => (l, f s i l)
    i.finish (i.writeLanes s rs) [] false (if latch then some (vecLatch rs) else none)) s

/-- An S-form (R167): performed once, with the operands of the lowest participant, when there is one. -/
def scalIssue (o : Ops) (u : Uses) (latch : Bool) (f : State → Iss → Nat → LaneRes) (s : State) : Out :=
  issue o { u with sform := true } false (fun i s =>
    match i.parts with
    | [] => i.finish s [] false none
    | l :: _ =>
      let r := f s i l
      match r.trap with
      | some tr => i.finish (s.takeTraps i.t i.g i.parts tr) [] false none
      | none =>
        let s := s.updGroup i.t i.g fun gr =>
          let gr := if o.nw then gr else r.regs.foldl (fun gr x => gr.writeS x.1 x.2) gr
          match r.fpm with
          | none => gr
          | some m => { gr with threads := amapInsert gr.threads l { gr.thr l with fpm := m } }
        i.finish s [] false (if latch then some { scalar := true, val := r.latch, lanes := [] } else none)) s

/-- Queue a result to be written later (R142, R224): `MEDIUM_RESULT_READY` or `LOAD_RESULT_LAND` writes it. -/
def State.addPend (s : State) (p : Pend) : State :=
  let id := s.uid
  { s with
    uid := id + 1
    pends := amapInsert s.pends id p
    later := s.later ++ [.ins (if p.medium then .mediumResultReady id else .loadResultLand id)] }

/-- A medium-latency vector instruction: its results reach registers and predicates later, no latch (R142, R209). -/
def mediumIssue (o : Ops) (u : Uses) (f : State → Iss → Nat → LaneRes) (s : State) : Out :=
  issue o u false (fun i s =>
    let rs := i.parts.map fun l => (l, f s i l)
    let ok := rs.filter fun x => x.2.trap.isNone
    let s := i.writeLanes s (rs.map fun x => (x.1, { x.2 with regs := [], preds := [] }))
    let s := if ok.all (fun x => x.2.regs.isEmpty && x.2.preds.isEmpty) then s else
      s.addPend { team := i.t, gix := i.g, medium := true, scalar := false,
                  regs := ok.flatMap fun x => x.2.regs.map fun r => (x.1, r.1, r.2),
                  preds := ok.flatMap fun x => x.2.preds.map fun r => (x.1, r.1, r.2) }
    i.finish s [] false none) s

/-- Write a queued result, and wake the sets that wait for it alone (R142). -/
def State.landPend (s : State) (id : Nat) (p : Pend) : State :=
  let s := { s with pends := amapErase s.pends id }
  let s := s.updGroup p.team p.gix fun gr =>
    if p.scalar then p.regs.foldl (fun gr r => gr.writeS r.2.1 r.2.2) gr
    else
      let gr := p.regs.foldl (fun gr r => if (gr.thr r.1).stat = .dead then gr else
        { gr with threads := amapInsert gr.threads r.1 ((gr.thr r.1).writeV r.2.1 r.2.2) }) gr
      p.preds.foldl (fun gr r => if (gr.thr r.1).stat = .dead then gr else
        { gr with threads := amapInsert gr.threads r.1 ((gr.thr r.1).writeP r.2.1 r.2.2) }) gr
  let done := (s.group p.team p.gix).waits.filterMap fun kv => match kv.2.cond with
    | .results ids => if ids.all fun x => (amapFind? s.pends x).isNone then some kv.1 else none
    | _ => none
  forEach done s fun s w => s.endWait p.team p.gix w

/-- Land a queued result if it is there. -/
def landResult (medium : Bool) (id : Nat) (s : State) : Out :=
  match amapFind? s.pends id with
  | none => .fault .notEnabled
  | some p => if p.medium = medium then .next (s.landPend id p) else .fault .notEnabled

end Sys2Proof.Machine
end

