-- ==== Sys2Proof/Machine/Integer.lean ====
section
/-! DEFINITION. Integer moves, arithmetic, logic, shifts and bit fields (10_integer_control, R166 to R175). -/

namespace Sys2Proof.Machine

/-! ## Types (R168) -/

/-- Whether `val` reads the type as signed. -/
def IntTy.signed (t : IntTy) : Bool :=
  match t with
  | .i8 | .i16 | .i32 | .i64 => true
  | _ => false

/-- `val(x, T)` for a 32-bit pattern. -/
def val32 (t : IntTy) (x : Word) : Int := if IntTy.signed t then x.toInt else (x.toNat : Int)
/-- `val(x, T)` for a 64-bit pattern. -/
def val64 (t : IntTy) (x : DWord) : Int := if IntTy.signed t then x.toInt else (x.toNat : Int)

/-- `Sat(x, T)` for a type of `w` bits. -/
def satInt (signed : Bool) (w : Nat) (x : Int) : Int :=
  if signed then max (-(2 ^ (w - 1) : Int)) (min ((2 ^ (w - 1) : Int) - 1) x)
  else max 0 (min ((2 ^ w : Int) - 1) x)

/-- `fin(x, T)` for a 32-bit type. -/
def fin32 (t : IntTy) (sat : Bool) (x : Int) : Word :=
  BitVec.ofInt 32 (if sat then satInt (IntTy.signed t) 32 x else x)
/-- `fin(x, T)` for a 64-bit type. -/
def fin64 (t : IntTy) (sat : Bool) (x : Int) : DWord :=
  BitVec.ofInt 64 (if sat then satInt (IntTy.signed t) 64 x else x)

/-- Run the vector or the scalar form. -/
def formIssue (sc : Bool) (o : Ops) (u : Uses) (f : State → Iss → Nat → LaneRes) (s : State) : Out :=
  if sc then scalIssue o u true f s else vecIssue o u true f s

/-- A 32-bit function of A. -/
def alu1 (o : Ops) (sc : Bool) (f : Word → Word) (s : State) : Out :=
  formIssue sc o (o.uses 1 0 0 1 sc) (fun s i l => res32 o.d (f (src32 s i l o.a))) s
/-- A 32-bit function of A and B. -/
def alu2 (o : Ops) (sc : Bool) (f : Word → Word → Word) (s : State) : Out :=
  formIssue sc o (o.uses 1 1 0 1 sc) (fun s i l => res32 o.d (f (src32 s i l o.a) (src32 s i l o.b))) s
/-- A 32-bit function of A, B and C. -/
def alu3 (o : Ops) (sc : Bool) (f : Word → Word → Word → Word) (s : State) : Out :=
  formIssue sc o (o.uses 1 1 1 1 sc)
    (fun s i l => res32 o.d (f (src32 s i l o.a) (src32 s i l o.b) (src32 s i l o.c))) s

/-! ## The functions -/

/-- R170: the add family on exact values. -/
def iaddFn (t : IntTy) (sat : Bool) (a b : Word) : Word := fin32 t sat (val32 t a + val32 t b)
def isubFn (t : IntTy) (sat : Bool) (a b : Word) : Word := fin32 t sat (val32 t a - val32 t b)
def iabsFn (sat : Bool) (a : Word) : Word := fin32 .i32 sat (a.toInt.natAbs : Int)
def inegFn (sat : Bool) (a : Word) : Word := fin32 .i32 sat (-a.toInt)
def iminFn (t : IntTy) (a b : Word) : Word := if val32 t a ≤ val32 t b then a else b
def imaxFn (t : IntTy) (a b : Word) : Word := if val32 t a ≥ val32 t b then a else b
/-- R171: the multiply family on exact values. -/
def imulFn (t : IntTy) (sat : Bool) (a b : Word) : Word := fin32 t sat (val32 t a * val32 t b)
def imulhFn (t : IntTy) (a b : Word) : Word := BitVec.ofInt 32 ((val32 t a * val32 t b) / (2 ^ 32 : Int))
def imadFn (t : IntTy) (sat : Bool) (a b c : Word) : Word := fin32 t sat (val32 t a * val32 t b + val32 t c)

/-- R172: a truth table on three words, bit by bit. -/
def lgc3Fn (table : BitVec 8) (a b c : Word) : Word :=
  (List.range 32).foldl (fun d k =>
    if table.getLsbD ((a.getLsbD k).toNat + 2 * (b.getLsbD k).toNat + 4 * (c.getLsbD k).toNat)
    then d ||| BitVec.ofNat 32 (2 ^ k) else d) 0

/-- R173: shifts. -/
def shiftCount (wrap : Bool) (b : Word) : Nat := if wrap then b.toNat % 32 else b.toNat
def shlFn (wrap : Bool) (a b : Word) : Word :=
  let n := shiftCount wrap b
  if 32 ≤ n then 0 else a <<< n
def shrFn (wrap : Bool) (a b : Word) : Word :=
  let n := shiftCount wrap b
  if 32 ≤ n then 0 else a >>> n
def sarFn (wrap : Bool) (a b : Word) : Word := a.sshiftRight (min (shiftCount wrap b) 31)
def rotFn (a b : Word) : Word := a.rotateLeft (b.toNat % 32)
def fshfFn (left : Bool) (a b c : Word) : Word :=
  let k := min c.toNat 32
  let w := b.toNat * 2 ^ 32 + a.toNat
  if left then BitVec.ofNat 32 (w * 2 ^ k / 2 ^ 32) else BitVec.ofNat 32 (w / 2 ^ k)

/-- R174: fields and bytes. -/
def bfeFn (t : IntTy) (a b c : Word) : Word :=
  let pos := min b.toNat 32
  let len := min c.toNat 32
  let x : Int := if IntTy.signed t then a.toInt else (a.toNat : Int)
  let f := (x / (2 ^ pos : Int)) % (2 ^ len : Int)
  if len = 0 then 0
  else if IntTy.signed t && decide ((2 ^ (len - 1) : Int) ≤ f) then BitVec.ofInt 32 (f - 2 ^ len)
  else BitVec.ofInt 32 f
def bfiFn (a b c : Word) : Word :=
  let pos := min (c.toNat % 256) 32
  let len := min (c.toNat / 256 % 256) 32
  let mask := BitVec.ofNat 32 ((2 ^ len - 1) * 2 ^ pos)
  (b &&& ~~~ mask) ||| (BitVec.ofNat 32 (a.toNat * 2 ^ pos) &&& mask)
def popCount : Nat → Nat → Nat
  | 0, _ => 0
  | n + 1, x => x % 2 + popCount n (x / 2)
def popcFn (a : Word) : Word := BitVec.ofNat 32 (popCount 32 a.toNat)
def clzFn (a : Word) : Word := if a = 0 then 32 else BitVec.ofNat 32 (31 - a.toNat.log2)
def brevBits : Nat → Nat → Nat → Nat
  | 0, _, acc => acc
  | n + 1, x, acc => brevBits n (x / 2) (2 * acc + x % 2)
def brevFn (a : Word) : Word := BitVec.ofNat 32 (brevBits 32 a.toNat 0)
/-- One byte of BYSEL: a source byte, zero, its sign fill, or its bits reversed. -/
def byselByte (sel : Nat) (ba : Nat) : Nat :=
  let x := ba / 2 ^ (8 * (sel % 8)) % 256
  match sel / 16 % 4 with
  | 0 => x
  | 1 => 0
  | 2 => if 128 ≤ x then 255 else 0
  | _ => brevBits 8 x 0
def byselFn (a b c : Word) : Word :=
  let ba := a.toNat + 2 ^ 32 * b.toNat
  BitVec.ofNat 32 ((List.range 4).foldl (fun d k => d + 256 ^ k * byselByte (c.toNat / 256 ^ k % 256) ba) 0)

/-! ## Moves (R169) -/

def execMov (o : Ops) (sc : Bool) (s : State) : Out := alu1 o sc (fun a => a) s
def execMovi (o : Ops) (sc : Bool) (s : State) : Out := alu1 o sc (fun a => a) s
def execSel (o : Ops) (sc neg : Bool) (q : BitVec 3) (s : State) : Out :=
  formIssue sc o { o.uses 1 1 0 1 sc with pr := [q.toNat] }
    (fun s i l => res32 o.d (if srcP s i l q neg then src32 s i l o.a else src32 s i l o.b)) s

/-! ## Arithmetic (R170, R171) -/

def execIadd (o : Ops) (sc : Bool) (ty : IntTy) (sat : Bool) (s : State) : Out := alu2 o sc (iaddFn ty sat) s
def execIsub (o : Ops) (sc : Bool) (ty : IntTy) (sat : Bool) (s : State) : Out := alu2 o sc (isubFn ty sat) s
def execIabs (o : Ops) (sat : Bool) (s : State) : Out := alu1 o false (iabsFn sat) s
def execIneg (o : Ops) (sat : Bool) (s : State) : Out := alu1 o false (inegFn sat) s
def execImin (o : Ops) (sc : Bool) (ty : IntTy) (s : State) : Out := alu2 o sc (iminFn ty) s
def execImax (o : Ops) (sc : Bool) (ty : IntTy) (s : State) : Out := alu2 o sc (imaxFn ty) s
/-- IADD64: B is a pair, or under .W a 32-bit source widened as the type says. -/
def execIadd64 (o : Ops) (sc : Bool) (ty : IntTy) (sat w : Bool) (s : State) : Out :=
  let sg := IntTy.signed ty
  formIssue sc o (o.uses 2 (if w then 1 else 2) 0 2 sc) (fun s i l =>
    let b := if w then ext64 sg (src32 s i l o.b) else src64 s i l o.b sg
    res64 o.d (fin64 ty sat (val64 ty (src64 s i l o.a sg) + val64 ty b))) s
def execImul (o : Ops) (sc : Bool) (ty : IntTy) (sat : Bool) (s : State) : Out := alu2 o sc (imulFn ty sat) s
def execImulh (o : Ops) (ty : IntTy) (s : State) : Out := alu2 o false (imulhFn ty) s
def execImad (o : Ops) (sc : Bool) (ty : IntTy) (sat : Bool) (s : State) : Out := alu3 o sc (imadFn ty sat) s
def execImadw (o : Ops) (ty : IntTy) (sat : Bool) (s : State) : Out :=
  let w : IntTy := if IntTy.signed ty then .i64 else .n64
  formIssue false o (o.uses 1 1 2 2 false) (fun s i l =>
    res64 o.d (fin64 w sat (val32 ty (src32 s i l o.a) * val32 ty (src32 s i l o.b)
      + val64 w (src64 s i l o.c (IntTy.signed ty))))) s

/-! ## Logic, shifts, fields (R172 to R175) -/

def execAnd (o : Ops) (sc : Bool) (s : State) : Out := alu2 o sc (fun a b => a &&& b) s
def execOr (o : Ops) (sc : Bool) (s : State) : Out := alu2 o sc (fun a b => a ||| b) s
def execXor (o : Ops) (sc : Bool) (s : State) : Out := alu2 o sc (fun a b => a ^^^ b) s
def execNot (o : Ops) (s : State) : Out := alu1 o false (fun a => ~~~ a) s
def execLgc3 (o : Ops) (table : BitVec 8) (s : State) : Out := alu3 o false (lgc3Fn table) s
def execShl (o : Ops) (sc wrap : Bool) (s : State) : Out := alu2 o sc (shlFn wrap) s
def execShr (o : Ops) (sc wrap : Bool) (s : State) : Out := alu2 o sc (shrFn wrap) s
def execSar (o : Ops) (wrap : Bool) (s : State) : Out := alu2 o false (sarFn wrap) s
def execRot (o : Ops) (s : State) : Out := alu2 o false rotFn s
def execFshf (o : Ops) (left : Bool) (s : State) : Out := alu3 o false (fshfFn left) s
def execBfe (o : Ops) (ty : IntTy) (s : State) : Out := alu3 o false (bfeFn ty) s
def execBfi (o : Ops) (s : State) : Out := alu3 o false bfiFn s
def execPopc (o : Ops) (s : State) : Out := alu1 o false popcFn s
def execClz (o : Ops) (s : State) : Out := alu1 o false clzFn s
def execBrev (o : Ops) (s : State) : Out := alu1 o false brevFn s
def execBysel (o : Ops) (s : State) : Out := alu3 o false byselFn s
/-- LEA: base plus scaled index, modulo 2^64, unchecked (R175). -/
def execLea (o : Ops) (ty : IntTy) (sh : BitVec 3) (s : State) : Out :=
  formIssue false o (o.uses 2 1 0 2 false) (fun s i l =>
    res64 o.d (BitVec.ofInt 64 ((src64 s i l o.a false).toNat + val32 ty (src32 s i l o.b) * 2 ^ sh.toNat))) s

end Sys2Proof.Machine
end

