-- ==== Sys2Proof/Machine/Predicate.lean ====
section
/-! DEFINITION. Integer compares and predicate instructions (10_integer_control, R176 to R178). FSETP
stands with the floating-point family. -/

namespace Sys2Proof.Machine

/-- One comparison of ordered values (Table 10-6). NUM and NAN are for FSETP. -/
def cmpInt (c : Cmp) (a b : Int) : Bool :=
  match c with
  | .eq => decide (a = b)
  | .ne => decide (a ≠ b)
  | .lt => decide (a < b)
  | .le => decide (a ≤ b)
  | .gt => decide (a > b)
  | .ge => decide (a ≥ b)
  | .num => true
  | .nan => false

/-- How the compare is combined with pQ (R176). -/
def combineP (op : CmpOp) (c q : Bool) : Bool :=
  match op with
  | .none => c
  | .and => c && q
  | .or => c || q
  | .xor => c != q

/-- `Compare(a, b, CMP, T)` on 64-bit patterns; packed types compare both halves. -/
def isetpFn (ty : CmpTy) (c : Cmp) (a b : DWord) : Bool :=
  match ty with
  | .i32 => cmpInt c (a.setWidth 32).toInt (b.setWidth 32).toInt
  | .n32 => cmpInt c (a.setWidth 32).toNat (b.setWidth 32).toNat
  | .i64 => cmpInt c a.toInt b.toInt
  | .n64 => cmpInt c a.toNat b.toNat
  | .i16x2 => cmpInt c (a.extractLsb' 0 16).toInt (b.extractLsb' 0 16).toInt &&
              cmpInt c (a.extractLsb' 16 16).toInt (b.extractLsb' 16 16).toInt
  | .n16x2 => cmpInt c (a.extractLsb' 0 16).toNat (b.extractLsb' 0 16).toNat &&
              cmpInt c (a.extractLsb' 16 16).toNat (b.extractLsb' 16 16).toNat

def execIsetp (o : Ops) (ty : CmpTy) (op : CmpOp) (qn : Bool) (q : BitVec 3) (cmp : Cmp) (s : State) : Out :=
  let wide := ty == .i64 || ty == .n64
  let n := if wide then 2 else 1
  vecIssue o (o.usesP n n 0 [q.toNat]) false (fun s i l =>
    let rd (x : Src) : DWord := if wide then src64 s i l x (ty == .i64) else (src32 s i l x).setWidth 64
    resP o.d (combineP op (isetpFn ty cmp (rd o.a) (rd o.b)) (srcP s i l q qn))) s

/-- Table 10-7: whether the exact result leaves the type's range. -/
def outside (t : IntTy) (x : Int) : Bool :=
  if IntTy.signed t then decide (x < -(2 ^ 31 : Int)) || decide ((2 ^ 31 : Int) ≤ x)
  else decide (x < 0) || decide ((2 ^ 32 : Int) ≤ x)

def execIaddP (o : Ops) (ty : IntTy) (s : State) : Out :=
  vecIssue o (o.usesP 1 1 0 []) false
    (fun s i l => resP o.d (outside ty (val32 ty (src32 s i l o.a) + val32 ty (src32 s i l o.b)))) s
def execIsubP (o : Ops) (ty : IntTy) (s : State) : Out :=
  vecIssue o (o.usesP 1 1 0 []) false
    (fun s i l => resP o.d (outside ty (val32 ty (src32 s i l o.a) - val32 ty (src32 s i l o.b)))) s
def execImulP (o : Ops) (ty : IntTy) (s : State) : Out :=
  vecIssue o (o.usesP 1 1 0 []) false
    (fun s i l => resP o.d (outside ty (val32 ty (src32 s i l o.a) * val32 ty (src32 s i l o.b)))) s
def execLgc3P (o : Ops) (table : BitVec 8) (s : State) : Out :=
  vecIssue o (o.usesP 1 1 1 []) false
    (fun s i l => resP o.d (lgc3Fn table (src32 s i l o.a) (src32 s i l o.b) (src32 s i l o.c) != 0)) s

/-- PLOP: the table is A's 8-bit immediate (R178). -/
def execPlop (o : Ops) (pa pb pc : BitVec 3) (s : State) : Out :=
  vecIssue o (o.usesP 0 0 0 [pa.toNat, pb.toNat, pc.toNat]) false (fun s i l =>
    let k := (srcP s i l pa false).toNat + 2 * (srcP s i l pb false).toNat + 4 * (srcP s i l pc false).toNat
    resP o.d ((src32 s i l o.a).getLsbD k)) s
/-- PMOV: p0 to p6 in bits 6 to 0, and bit 7 set, as p7 reads 1. -/
def execPmov (o : Ops) (s : State) : Out :=
  vecIssue o { o.uses 0 0 0 1 false with pr := [0, 1, 2, 3, 4, 5, 6] } true
    (fun s i l => res32 o.d (BitVec.ofNat 32 (128 + (s.thread i.t i.g l).p.toNat % 128))) s
def execPmovP (o : Ops) (bit : BitVec 5) (s : State) : Out :=
  vecIssue o (o.usesP 1 0 0 []) false (fun s i l => resP o.d ((src32 s i l o.a).getLsbD bit.toNat)) s

end Sys2Proof.Machine
end

