-- ==== Sys2Proof/Machine/Flags.lean ====
section
/-! DEFINITION. Floating point (11_numbers, R201 to R208): formats, exact values, rounding, flushing, NaN
results, and every flag and trap that an operation raises. -/

namespace Sys2Proof.Machine

/-! ## Flags and formats -/

/-- Exceptions in the order of FPM (Table 11-2): bit 4 invalid, 3 division by zero, 2 overflow, 1 underflow, 0 inexact. -/
abbrev FFlags := BitVec 5

def flInv : FFlags := 16
def flDiv : FFlags := 8
def flOvf : FFlags := 4
def flUnf : FFlags := 2
def flInx : FFlags := 1

/-- A number format (Table 11-1): fraction and exponent bits, bias, the largest finite encoding without its
sign, whether it has infinities, its canonical NaN. -/
structure FFmt where
  f    : Nat
  e    : Nat
  bias : Nat
  maxF : Nat
  inf  : Bool
  nan  : Nat
  deriving DecidableEq, Repr

def fp32 : FFmt := ⟨23, 8, 127, 0x7F7FFFFF, true, 0x7FC00000⟩
def fp16 : FFmt := ⟨10, 5, 15, 0x7BFF, true, 0x7E00⟩
def bf16 : FFmt := ⟨7, 8, 127, 0x7F7F, true, 0x7FC0⟩
def e4m3 : FFmt := ⟨3, 4, 7, 0x7E, false, 0x7F⟩
def e5m2 : FFmt := ⟨2, 5, 15, 0x7B, true, 0x7E⟩
def e2m1 : FFmt := ⟨1, 2, 1, 7, false, 0⟩
def fp36 : FFmt := ⟨27, 8, 127, 0x7F7FFFFFF, true, 0x7FC000000⟩

/-- The element format of a vector type. -/
def fmtOf (ty : FTy) : FFmt :=
  match ty with
  | .f32 => fp32
  | .f16x2 => fp16
  | .bf16x2 => bf16

/-- A value: a NaN with its fraction left-aligned to 27 bits, an infinity, or `m * 2^e` with a sign. -/
inductive FVal where
  | nan (sig neg : Bool) (frac : Nat)
  | inf (neg : Bool)
  | fin (neg : Bool) (m : Nat) (e : Int)
  deriving DecidableEq, Repr

def FVal.isNan : FVal → Bool
  | .nan _ _ _ => true
  | _ => false
def FVal.isSig : FVal → Bool
  | .nan s _ _ => s
  | _ => false
def FVal.isZero : FVal → Bool
  | .fin _ m _ => m == 0
  | _ => false
def FVal.isInf : FVal → Bool
  | .inf _ => true
  | _ => false
def FVal.neg : FVal → Bool
  | .nan _ n _ => n
  | .inf n => n
  | .fin n _ _ => n
/-- Clear the sign (`ab`), then invert it (`ng`). -/
def FVal.signed (v : FVal) (ab ng : Bool) : FVal :=
  let f (n : Bool) : Bool := (n && !ab) != ng
  match v with
  | .nan s n x => .nan s (f n) x
  | .inf n => .inf (f n)
  | .fin n m e => .fin (f n) m e

/-- The value of an encoding. -/
def FFmt.decode (k : FFmt) (x : Nat) : FVal :=
  let neg := x / 2 ^ (k.e + k.f) % 2 == 1
  let fld := x % 2 ^ (k.e + k.f)
  let ex := fld / 2 ^ k.f
  let fr := fld % 2 ^ k.f
  if k.maxF < fld then
    if k.inf && fr == 0 then .inf neg else .nan (decide (fr < 2 ^ (k.f - 1))) neg (fr * 2 ^ (27 - k.f))
  else if ex = 0 then .fin neg fr (1 - (k.bias : Int) - k.f)
  else .fin neg (fr + 2 ^ k.f) ((ex : Int) - k.bias - k.f)

/-- The sign bit of a format. -/
def FFmt.sign (k : FFmt) (neg : Bool) : Nat := if neg then 2 ^ (k.e + k.f) else 0
/-- The encoding of an infinity; of the largest finite value where the format has none. -/
def FFmt.infBits (k : FFmt) (neg : Bool) : Nat := k.sign neg + (if k.inf then k.maxF + 1 else k.maxF)
/-- Largest finite value with a sign. -/
def FFmt.maxBits (k : FFmt) (neg : Bool) : Nat := k.sign neg + k.maxF

/-! ## FPM (Table 11-2) -/

/-- The trap enables. -/
def fpmTraps (fpm : Word) : FFlags := (fpm >>> 17).setWidth 5
/-- Input flush of a format's width (R205). -/
def fpmFi (fpm : Word) (k : FFmt) : Bool :=
  if k = fp16 then fpm.getLsbD 2 else (k = fp32 || k = bf16) && fpm.getLsbD 0
/-- Output flush of a format's width. -/
def fpmFo (fpm : Word) (k : FFmt) : Bool :=
  if k = fp16 then fpm.getLsbD 3 else (k = fp32 || k = bf16) && fpm.getLsbD 1
def fpmNanp (fpm : Word) : Bool := fpm.getLsbD 10
def fpmMm (fpm : Word) : Bool := fpm.getLsbD 11
def fpmCtr (fpm : Word) : Bool := fpm.getLsbD 9
/-- The rounding mode that M and FPM give (R203). -/
def fpmRnd (fpm : Word) (r : Rnd) : Rnd :=
  match r with
  | .dyn => match bitField 8 6 fpm.toNat with
    | 0 => .rne
    | 1 => .rtz
    | 2 => .rdn
    | 3 => .rup
    | _ => .rna
  | r => r
/-- FPM with flags raised. -/
def fpmRaise (fpm : Word) (fl : FFlags) : Word := fpm ||| (fl.setWidth 32 <<< 22)
/-- A value that SWRITE and a launch record accept (R204): no reserved bit, RND at most 100. -/
def fpmLegal (fpm : Word) : Bool := fpm &&& 0xF801F030 == 0 && decide (bitField 8 6 fpm.toNat ≤ 4)

/-- Flush a subnormal operand to zero of its sign. -/
def flushIn (k : FFmt) (fi : Bool) (v : FVal) : FVal :=
  match v with
  | .fin n m e => if fi && decide (m < 2 ^ k.f) then .fin n 0 e else v
  | v => v

/-! ## Rounding (R203, R205, R206) -/

/-- `m / 2^k` rounded to an integer: the integer and whether it is inexact. -/
def roundShift (r : Rnd) (neg : Bool) (m k : Nat) : Nat × Bool :=
  let q := m / 2 ^ k
  let rem := m % 2 ^ k
  let up := match r with
    | .rtz => false
    | .rdn => neg && rem != 0
    | .rup => !neg && rem != 0
    | .rna => decide (2 ^ k ≤ 2 * rem) && rem != 0
    | _ => decide (2 ^ k < 2 * rem) || (decide (2 ^ k = 2 * rem) && q % 2 == 1)
  (if up then q + 1 else q, rem != 0)

/-- `m * 2^e` as a multiple of `2^q`, rounded. A value below a quarter of `2^q` rounds as a quarter does. -/
def roundAt (r : Rnd) (neg : Bool) (m : Nat) (e q : Int) : Nat × Bool :=
  if q ≤ e then (m * 2 ^ (e - q).toNat, false)
  else if (m.log2 : Int) + 3 < q - e then roundShift r neg (min m 1) 2
  else roundShift r neg m (q - e).toNat

/-- Round `m * 2^e` to a format: the encoding and the exceptions. The lowest bits of `m` may stand for a
remainder, where they lie more than two places below the last one kept. -/
def roundTo (k : FFmt) (r : Rnd) (flush neg : Bool) (m : Nat) (e : Int) : Nat × FFlags :=
  if m = 0 then (k.sign neg, 0) else
  let emin : Int := 1 - k.bias
  let ex : Int := m.log2 + e
  let qu := ex - k.f
  let q := max qu (emin - k.f)
  let n := roundAt r neg m e q
  let u := roundAt r neg m e qu
  let tiny := decide (ex < emin) && !(u.1 == 2 ^ (k.f + 1) && decide (ex + 1 = emin))
  let fld := (q - (emin - k.f)).toNat * 2 ^ k.f + n.1
  if k.maxF < fld then
    let toInf := match r with
      | .rtz => false
      | .rdn => neg
      | .rup => !neg
      | _ => true
    (if toInf then k.infBits neg else k.maxBits neg, flOvf ||| flInx)
  else
    let fl : FFlags := (if n.2 then flInx else 0) ||| (if tiny && n.2 then flUnf else 0)
    if tiny && flush then (k.sign neg, if n.1 = 0 then fl else fl ||| flUnf ||| flInx)
    else (k.sign neg + fld, fl)

/-- The encoding of a value known to be representable or infinite. -/
def encodeVal (k : FFmt) (r : Rnd) (flush : Bool) (v : FVal) : Nat × FFlags :=
  match v with
  | .nan _ _ _ => (k.nan, 0)
  | .inf n => (k.infBits n, 0)
  | .fin n m e => roundTo k r flush n m e

/-! ## NaN results (R206) -/

/-- The NaN result for operands in the order a, b, c. -/
def nanResult (k : FFmt) (fpm : Word) (ops : List FVal) : Nat :=
  if fpmNanp fpm then
    match ops.find? FVal.isNan with
    | some (.nan _ n x) =>
      k.sign n + (k.maxF + 1) + (x % 2 ^ 26 + 2 ^ 26) / 2 ^ (27 - k.f)
    | _ => k.nan
  else k.nan

/-! ## Exact operations on numbers -/

/-- A product; none is 0 times infinity. A NaN operand gives a NaN. -/
def mulV (x y : FVal) : Option FVal :=
  match x, y with
  | .nan s n f, _ => some (.nan s n f)
  | _, .nan s n f => some (.nan s n f)
  | .inf a, .inf b => some (.inf (a != b))
  | .inf a, .fin b m _ => if m = 0 then none else some (.inf (a != b))
  | .fin a m _, .inf b => if m = 0 then none else some (.inf (a != b))
  | .fin a m e, .fin b n f => some (.fin (a != b) (m * n) (e + f))

/-- Sign and size of a finite value. -/
def FVal.toInt (v : FVal) (e : Int) : Int :=
  match v with
  | .fin n m x => (if n then -1 else 1) * ((m * 2 ^ (x - e).toNat : Nat) : Int)
  | _ => 0
def FVal.exp : FVal → Int
  | .fin _ m e => if m = 0 then 0 else e
  | _ => 0

/-- A sum of values; none is the sum of opposite infinities. An exact zero sum is +0, -0 under RDN, unless
every term is a zero of one sign (R203). -/
def sumV (r : Rnd) (l : List FVal) : Option FVal :=
  match l.find? FVal.isNan with
  | some v => some v
  | none =>
    match l.find? FVal.isInf with
    | some (.inf n) => if l.any fun v => v.isInf && v.neg != n then none else some (.inf n)
    | _ =>
      let nz := l.filter fun v => !v.isZero
      let e := nz.foldl (fun e v => min e v.exp) (match nz with
        | [] => 0
        | v :: _ => v.exp)
      let t : Int := nz.foldl (fun (t : Int) v => t + v.toInt e) 0
      if t = 0 then
        let neg := if l.all FVal.neg then true else if l.all fun v => !v.neg then false else r == .rdn
        some (.fin neg 0 0)
      else some (.fin (decide (t < 0)) t.natAbs e)

/-- The result of an operation: rounded once, or the NaN of R206. `bad` says that a part of it was invalid.
(DEDUCED, log 22.) -/
def fResult (k : FFmt) (fpm : Word) (r : Rnd) (ops : List FVal) (bad : Bool) (v : Option FVal) : Nat × FFlags :=
  let nan := ops.any FVal.isNan
  let inv := ops.any FVal.isSig || bad || v.isNone
  match nan, v with
  | false, some v => if inv then (nanResult k fpm ops, flInv) else encodeVal k r (fpmFo fpm k) v
  | _, _ => (nanResult k fpm ops, if inv then flInv else 0)

/-- a + b, a * b, a * b + c on encodings of one format, rounded once. -/
def fAdd (k : FFmt) (fpm : Word) (r : Rnd) (x y : FVal) : Nat × FFlags :=
  fResult k fpm r [x, y] false (sumV r [x, y])
def fMul (k : FFmt) (fpm : Word) (r : Rnd) (x y : FVal) : Nat × FFlags :=
  fResult k fpm r [x, y] false (mulV x y)
def fFma (k : FFmt) (fpm : Word) (r : Rnd) (x y z : FVal) : Nat × FFlags :=
  fResult k fpm r [x, y, z] (mulV x y).isNone ((mulV x y).bind fun p => sumV r [p, z])

/-- A quotient of finite non-zero values: enough bits, the lowest standing for the remainder. -/
def divV (neg : Bool) (m : Nat) (e : Int) (n : Nat) (f : Int) : FVal :=
  let num := m * 2 ^ 96
  .fin neg (2 * (num / n) + (if num % n = 0 then 0 else 1)) (e - f - 97)

/-- Integer square root by bits. -/
def isqrtGo : Nat → Nat → Nat → Nat
  | 0, _, r => r
  | b + 1, x, r => if (r + 2 ^ b) * (r + 2 ^ b) ≤ x then isqrtGo b x (r + 2 ^ b) else isqrtGo b x r
def isqrt (x : Nat) : Nat := isqrtGo (x.log2 / 2 + 1) x 0

/-- The square root of a positive value. -/
def sqrtV (m : Nat) (e : Int) : FVal :=
  let sh : Nat := if e % 2 = 0 then 128 else 129
  let x := m * 2 ^ sh
  let r := isqrt x
  .fin false (2 * r + (if r * r = x then 0 else 1)) ((e - sh) / 2 - 1)

/-! ## Comparison and minimum, maximum -/

/-- Compare two numbers: -1, 0 or 1; zeros are equal. -/
def cmpV (x y : FVal) : Int :=
  match x, y with
  | .inf a, .inf b => if a == b then 0 else if a then -1 else 1
  | .inf a, _ => if a then -1 else 1
  | _, .inf b => if b then 1 else -1
  | x, y =>
    let e := min x.exp y.exp
    let d := x.toInt e - y.toInt e
    if d < 0 then -1 else if d = 0 then 0 else 1

/-- FMIN and FMAX of two values under the rule of FPM.MM (R212); the encodings are `xb` and `yb`. -/
def fMinMax (k : FFmt) (fpm : Word) (isMax : Bool) (x y : FVal) : Nat × FFlags :=
  let inv : FFlags := if x.isSig || y.isSig then flInv else 0
  let pick : Option FVal :=
    if !x.isNan && !y.isNan then
      let c := cmpV x y
      if c = 0 then
        if fpmMm fpm || x.neg == y.neg then some x
        else if isMax then some (if x.neg then y else x) else some (if x.neg then x else y)
      else if (c < 0) != isMax then some x else some y
    else if fpmMm fpm && (x.isSig || y.isSig) then none
    else if x.isNan && y.isNan then none
    else if x.isNan then some y else some x
  match pick with
  | none => (nanResult k fpm [x, y], inv)
  | some v =>
    let r := encodeVal k .rne (fpmFo fpm k) v
    (r.1, r.2 ||| inv)

/-- SATN (R211): clamp an encoding to [+0, +1]; a NaN becomes +0. -/
def satn (k : FFmt) (on : Bool) (x : Nat) : Nat :=
  if !on then x else
  match k.decode x with
  | .nan _ _ _ => 0
  | v => if v.neg then 0 else if cmpV v (.fin false 1 0) > 0 then k.bias * 2 ^ k.f else x

/-! ## Integers and integral values -/

/-- An integer as a value. -/
def FVal.ofInt (x : Int) : FVal := .fin (decide (x < 0)) x.natAbs 0

/-- A finite value rounded to an integer, with its sign kept in a zero. -/
def integral (r : Rnd) (neg : Bool) (m : Nat) (e : Int) : Nat := (roundAt r neg m e 0).1

/-! ## Exceptions (R207, R208) -/

/-- The trap for raised exceptions that are enabled: the one of highest priority, with AUX (R207, R344). -/
def fpTrap (enabled fl : FFlags) : Option Trap :=
  let on := enabled &&& fl
  let aux := (fl.getLsbD 4).toNat + 2 * (fl.getLsbD 3).toNat + 4 * (fl.getLsbD 2).toNat + 8 * (fl.getLsbD 1).toNat
    + 16 * (fl.getLsbD 0).toNat
  if on.getLsbD 4 then some { cause := .fpInvalid, aux := aux }
  else if on.getLsbD 3 then some { cause := .fpDivzero, aux := aux }
  else if on.getLsbD 2 then some { cause := .fpOverflow, aux := aux }
  else if on.getLsbD 1 then some { cause := .fpUnderflow, aux := aux }
  else if on.getLsbD 0 then some { cause := .fpInexact, aux := aux }
  else none

/-- What one lane of a floating-point instruction leaves: a trap, or the result and the flags in FPM. -/
def fpLane (d : BitVec 8) (fpm : Word) (r : List Word × FFlags) : LaneRes :=
  match fpTrap (fpmTraps fpm) r.2 with
  | some t => { trap := some t }
  | none => { resWords d r.1 with fpm := some (fpmRaise fpm r.2) }

/-- A vector form: each participant under its own FPM. -/
def fpVec (o : Ops) (u : Uses) (medium : Bool) (f : State → Iss → Nat → Word → List Word × FFlags) (s : State) : Out :=
  let g := fun s i l =>
    let fpm := (s.thread i.t i.g l).fpm
    fpLane o.d fpm (f s i l fpm)
  if medium then mediumIssue o u g s else vecIssue o u true g s

/-- An S-form (R208): the modes of the lowest participant; the flags reach the FPM of every participant; a
trap that any participant enables is raised on all of them. -/
def fpScal (o : Ops) (u : Uses) (medium : Bool) (f : State → Iss → Nat → Word → List Word × FFlags) (s : State) : Out :=
  issue o { u with sform := true } false (fun i s =>
    match i.parts with
    | [] => i.finish s [] false none
    | l :: _ =>
      let r := f s i l (s.thread i.t i.g l).fpm
      let en := i.parts.foldl (fun e l => e ||| fpmTraps (s.thread i.t i.g l).fpm) 0
      match fpTrap en r.2 with
      | some tr => i.finish (s.takeTraps i.t i.g i.parts tr) [] false none
      | none =>
        let s := s.updGroup i.t i.g fun gr => { gr with
          threads := amapMap (fun l th => if i.parts.contains l then { th with fpm := fpmRaise th.fpm r.2 } else th) gr.threads }
        let ws := numbered o.d.toNat r.1
        if medium then
          i.finish (s.addPend ⟨i.t, i.g, true, true, ws.map fun x => (0, x.1, x.2), []⟩) [] false none
        else
          let s := s.updGroup i.t i.g fun gr => if o.nw then gr else ws.foldl (fun gr x => gr.writeS x.1 x.2) gr
          i.finish s [] false (some { scalar := true, val := BitVec.ofNat 64 (ofWords (r.1.take 2)), lanes := [] })) s

/-- Either form. -/
def fpIssue (sc : Bool) (o : Ops) (u : Uses) (medium : Bool)
    (f : State → Iss → Nat → Word → List Word × FFlags) (s : State) : Out :=
  if sc then fpScal o u medium f s else fpVec o u medium f s

end Sys2Proof.Machine
end

