-- ==== Sys2Proof/Machine/Transc.lean ====
section
/-! DEFINITION. The approximate functions (R216): enclosures of the exact values by integer arithmetic, the
bounds of Table 11-7, and the value that the function units return, free within those bounds. -/

namespace Sys2Proof.Machine

/-- The seven functions. -/
inductive Fn where
  | rcp | rsq | sqrt | exp2 | log2 | sin | cos
  deriving DecidableEq, Repr

def Fn.code : Fn → Nat
  | .rcp => 0 | .rsq => 1 | .sqrt => 2 | .exp2 => 3 | .log2 => 4 | .sin => 5 | .cos => 6

/-- An enclosure of an exact value, in units of `2^-400`. -/
abbrev Encl := Int × Int

/-- The natural logarithm of 2 in units of `2^-160`. -/
def ln2Fix : Nat := 0xb17217f7d1cf79abc9e3b39803f2f6af40f34326
/-- A right angle in units of `2^-200`. -/
def rightFix : Nat := 0x1921fb54442d18469898cc51701b839a252049c1114cf98e804

/-- The integer part of `m * 2^e` in units of `2^-sc`. -/
def fixOf (m : Nat) (e : Int) (sc : Nat) : Nat :=
  if 0 ≤ e + sc then m * 2 ^ (e + sc).toNat else m / 2 ^ (-(e + sc)).toNat

/-- Terms of the exponential series from term `k`, each the last times `y / k`, in units of `2^-160`. -/
def expSeries (y : Nat) : Nat → Nat → Nat → Nat
  | 0, _, _ => 0
  | fuel + 1, k, term => term + expSeries y fuel (k + 1) (term * y / 2 ^ 160 / k)

def exp2Encl (neg : Bool) (m : Nat) (e : Int) : Encl :=
  let a := fixOf m e 160
  let x : Int := if neg then -(a : Int) else a
  let n := x / (2 ^ 160 : Int)
  let t := (x % (2 ^ 160 : Int)).toNat
  let v : Int := expSeries (t * ln2Fix / 2 ^ 160) 50 1 (2 ^ 160)
  let sh := (240 + n).toNat
  ((v - 65536) * 2 ^ sh, (v + 65536) * 2 ^ sh)

/-- Terms of the inverse hyperbolic tangent of `u`, in units of `2^-160`. -/
def atanhSeries (u2 : Nat) : Nat → Nat → Nat → Nat
  | 0, _, _ => 0
  | fuel + 1, k, pw => pw / k + atanhSeries u2 fuel (k + 2) (pw * u2 / 2 ^ 160)

def log2Encl (m : Nat) (e : Int) : Encl :=
  let l := m.log2
  let one := 2 ^ 160
  let z := m * one / 2 ^ l
  let u := (z - one) * one / (z + one)
  let ln := 2 * atanhSeries (u * u / one) 60 1 u
  let v : Int := ((l : Int) + e) * (one : Int) + ((ln * one / ln2Fix : Nat) : Int)
  ((v - 65536) * 2 ^ 240, (v + 65536) * 2 ^ 240)

/-- Terms of the sine or cosine series from `term`, in units of `2^-200`: divided by `k (k+1)`, signs in turn. -/
def trigSeries (y2 : Nat) : Nat → Nat → Int → Int
  | 0, _, _ => 0
  | fuel + 1, k, term => term + trigSeries y2 fuel (k + 2) (-(term * (y2 : Int) / (2 ^ 200 : Int) / ((k * (k + 1) : Nat) : Int)))

/-- Sine (`shift` 0) or cosine (`shift` 1). -/
def trigEncl (neg : Bool) (m : Nat) (e : Int) (shift : Nat) : Encl :=
  let x := fixOf m e 200
  let k := x / rightFix + shift
  let r := x % rightFix
  let y2 := r * r / 2 ^ 200
  let v : Int := if k % 2 = 0 then trigSeries y2 50 2 r else trigSeries y2 50 1 (2 ^ 200 : Int)
  let v := if k % 4 < 2 then v else -v
  let v := if neg && shift == 0 then -v else v
  ((v - 2 ^ 24) * 2 ^ 200, (v + 2 ^ 24) * 2 ^ 200)

def rcpEncl (neg : Bool) (m : Nat) (e : Int) : Encl :=
  let q : Int := fixOf 1 0 (400 - e).toNat / m
  if neg then (-(q + 1), -q) else (q, q + 1)

def sqrtEncl (m : Nat) (e : Int) : Encl :=
  let r : Int := isqrt (fixOf m e 800)
  (r, r + 1)

def rsqEncl (m : Nat) (e : Int) : Encl :=
  let r : Int := isqrt (2 ^ (800 - e).toNat / m)
  (r, r + 1)

/-- The enclosure of f(x) for an operand outside Table 11-8. Operands far beyond the range of FEXP2 stand at its ends. -/
def Fn.encl (fn : Fn) (neg : Bool) (m : Nat) (e : Int) : Encl :=
  match fn with
  | .rcp => rcpEncl neg m e
  | .rsq => rsqEncl m e
  | .sqrt => sqrtEncl m e
  | .exp2 => if fixOf m e 0 < 200 then exp2Encl neg m e else exp2Encl neg 200 0
  | .log2 => log2Encl m e
  | .sin => trigEncl neg m e 0
  | .cos => trigEncl neg m e 1

/-- A finite value in units of `2^-400`. -/
def FVal.fix (v : FVal) : Int :=
  match v with
  | .fin n m e => (if n then -1 else 1) * (fixOf m e 400 : Int)
  | _ => 0

/-- The bound of Table 11-7 for an operand, in units of `2^-400`: absolute, or none for ulps. -/
def Fn.absBound (fn : Fn) (k : FFmt) (m : Nat) (e : Int) : Option Int :=
  let big := 2 ^ 415 < fixOf m e 400
  let near := 2 ^ 399 ≤ fixOf m e 400 && fixOf m e 400 ≤ 2 ^ 401
  match fn with
  | .sin | .cos => if k = fp32 then (if big then none else some (2 ^ 379)) else some (2 ^ 390)
  | .log2 => if near then some (if k = fp32 then 2 ^ 378 else 2 ^ 390) else none
  | _ => none
/-- The bound in ulps. -/
def Fn.ulps (fn : Fn) (k : FFmt) : Int :=
  if fn = .rcp || k ≠ fp32 then 1 else 2

/-- Whether an encoding lies within the bounds of Table 11-7: a subnormal one within 2 ulp of the smallest normal. For FSIN
and FCOS of large binary32 operands the bound is [-1, 1]. -/
def Fn.within (fn : Fn) (k : FFmt) (m : Nat) (e : Int) (y : Encl) (c : Nat) : Bool :=
  match k.decode c with
  | .fin n cm ce =>
    let v := FVal.fix (.fin n cm ce)
    let d := if v < y.1 then y.1 - v else if y.2 < v then v - y.2 else 0
    let abs_ := fn.absBound k m e
    if (fn = .sin || fn = .cos) && abs_.isNone then decide (v.natAbs ≤ 2 ^ 400)
    else if c % 2 ^ (k.e + k.f) < 2 ^ k.f then decide (d ≤ 2 * 2 ^ (401 - k.bias - k.f))
    else match abs_ with
      | some b => decide (d ≤ b)
      | none =>
        let top := max y.1.natAbs y.2.natAbs
        decide (d ≤ fn.ulps k * (2 ^ (max top.log2 (401 - k.bias) - k.f) : Nat))
  | _ => false

/-- The exact cases of R216: the result, where it is normal. -/
def Fn.exact (fn : Fn) (neg : Bool) (m : Nat) (e : Int) : Option FVal :=
  let pow2 := m == 2 ^ m.log2
  let t : Int := m.log2 + e
  match fn with
  | .rcp => if pow2 then some (.fin neg 1 (-t)) else none
  | .sqrt => if pow2 && t % 2 == 0 then some (.fin false 1 (t / 2)) else none
  | .exp2 =>
    let a := fixOf m e 0
    if decide (0 ≤ e) || m % 2 ^ (-e).toNat == 0 then some (.fin false 1 (if neg then -(a : Int) else a)) else none
  | .log2 => if pow2 then some (FVal.ofInt t) else none
  | _ => none

/-- Special operands (Table 11-8): the result and its flags. (DEDUCED, log 24.) -/
def Fn.special (fn : Fn) (k : FFmt) (fpm : Word) (v : FVal) : Option (Nat × FFlags) :=
  let one := k.bias * 2 ^ k.f
  let bad : Option (Nat × FFlags) := some (k.nan, flInv)
  match v with
  | .nan s _ _ => some (nanResult k fpm [v], if s then flInv else 0)
  | .inf true => match fn with
    | .rcp => some (k.sign true, 0)
    | .exp2 => some (0, 0)
    | _ => bad
  | .inf false => match fn with
    | .rcp | .rsq => some (0, 0)
    | .sqrt | .exp2 | .log2 => some (k.infBits false, 0)
    | _ => bad
  | .fin n 0 _ => match fn with
    | .rcp | .rsq => some (k.infBits n, flDiv)
    | .sqrt | .sin => some (k.sign n, 0)
    | .exp2 | .cos => some (one, 0)
    | .log2 => some (k.infBits true, flDiv)
  | .fin n _ _ => if n && (fn = .rsq || fn = .sqrt || fn = .log2) then bad else none

/-- One element of an approximate function (R216): the operand after AA, NA and input flushing. The value
inside the bounds is the function units' own: `Config.funcUnit` of the bits of In(a) and FPM.
(DESIGN CHOICE, log 23; DEDUCED, log 24.) -/
def approx (fn : Fn) (k : FFmt) (fpm : Word) (v : FVal) : Nat × FFlags :=
  match fn.special k fpm v with
  | some r => r
  | none =>
    match v with
    | .fin neg m e =>
      let y := fn.encl neg m e
      let flush (c : Nat) : Nat × FFlags :=
        let fld := c % 2 ^ (k.e + k.f)
        if fld < 2 ^ k.f && fld != 0 && fpmFo fpm k then (c - fld, flUnf) else (c, 0)
      let top := FVal.fix (k.decode k.maxF)
      if top < y.1 then (k.infBits false, flOvf)
      else if y.2 < -top then (k.infBits true, flOvf)
      else
        let near := (roundTo k .rne false (decide (y.1 + y.2 < 0)) ((y.1 + y.2) / 2).natAbs (-400)).1
        let exact := match fn.exact neg m e with
          | some x =>
            let c := (encodeVal k .rne false x).1
            if fn = .log2 || 2 ^ k.f ≤ c % 2 ^ (k.e + k.f) then some c else none
          | none => none
        match exact with
        | some c => flush c
        | none =>
          let c := Config.funcUnit fn.code (k.f + 64 * k.e) (encodeVal k .rne false v).1 fpm.toNat % 2 ^ (1 + k.e + k.f)
          flush (if fn.within k m e y c then c else near)
    | _ => (k.nan, 0)

end Sys2Proof.Machine
end

