-- ==== Sys2Proof/Machine/Float.lean ====
section
/-! DEFINITION. Floating-point arithmetic, compares, classes and functions (11_numbers, R209 to R217; FSETP, R176). -/

namespace Sys2Proof.Machine

/-! ## Operands (R10, R210) -/

/-- A floating-point source word: an 8-bit immediate is the integer converted to the element type, in both
halves of a packed word; every other source is its 32 bits. -/
def srcF (ty : FTy) (s : State) (i : Iss) (l : Nat) (x : Src) : Word :=
  match x with
  | .imm b =>
    let e := (encodeVal (fmtOf ty) .rne false (FVal.ofInt b.toInt)).1
    BitVec.ofNat 32 (if ty = .f32 then e else e + 2 ^ 16 * e)
  | x => src32 s i l x

/-- The elements of a word. -/
def elemsOf (ty : FTy) (w : Word) : List Nat :=
  if ty = .f32 then [w.toNat] else [w.toNat % 2 ^ 16, w.toNat / 2 ^ 16]
/-- The word of elements. -/
def ofElems (ty : FTy) (l : List Nat) : Word :=
  BitVec.ofNat 32 (if ty = .f32 then l.headD 0 else l.headD 0 + 2 ^ 16 * (l.getD 1 0))

/-- `In(v, ab, ng)` of R210 under FPM. -/
def fIn (k : FFmt) (fpm : Word) (ab ng : Bool) (x : Nat) : FVal :=
  flushIn k (fpmFi fpm k) ((k.decode x).signed ab ng)

/-- An element-wise operation on up to three words: the result word and the union of the exceptions (R207). -/
def fElems (ty : FTy) (f : Nat → Nat → Nat → Nat × FFlags) (a b c : Word) : List Word × FFlags :=
  let xs := elemsOf ty a
  let ys := elemsOf ty b
  let zs := elemsOf ty c
  let rs := (List.range xs.length).map fun n => f (xs.getD n 0) (ys.getD n 0) (zs.getD n 0)
  ([ofElems ty (rs.map (·.1))], rs.foldl (fun fl r => fl ||| r.2) 0)

/-! ## FADD, FSUB, FMUL, FFMA, FMIN, FMAX (R211, R212) -/

def faddFn (ty : FTy) (m : FMod) (fpm : Word) (a b : Word) : List Word × FFlags :=
  let k := fmtOf ty
  fElems ty (fun x y _ =>
    let r := fAdd k fpm (fpmRnd fpm m.rnd) (fIn k fpm m.aa m.na x) (fIn k fpm m.ab m.nb y)
    (satn k m.satn r.1, r.2)) a b 0
def fsubFn (ty : FTy) (m : FMod) (fpm : Word) (a b : Word) : List Word × FFlags :=
  let k := fmtOf ty
  fElems ty (fun x y _ =>
    let u := fIn k fpm m.aa m.na x
    let v := fIn k fpm m.ab m.nb y
    let r := fResult k fpm (fpmRnd fpm m.rnd) [u, v] false (sumV (fpmRnd fpm m.rnd) [u, v.signed false true])
    (satn k m.satn r.1, r.2)) a b 0
def fmulFn (ty : FTy) (m : FMod) (fpm : Word) (a b : Word) : List Word × FFlags :=
  let k := fmtOf ty
  fElems ty (fun x y _ =>
    let r := fMul k fpm (fpmRnd fpm m.rnd) (fIn k fpm m.aa m.na x) (fIn k fpm m.ab m.nb y)
    (satn k m.satn r.1, r.2)) a b 0
def ffmaFn (ty : FTy) (m : FMod) (fpm : Word) (a b c : Word) : List Word × FFlags :=
  let k := fmtOf ty
  fElems ty (fun x y z =>
    let r := fFma k fpm (fpmRnd fpm m.rnd) (fIn k fpm m.aa m.na x) (fIn k fpm m.ab m.nb y) (fIn k fpm false m.nc z)
    (satn k m.satn r.1, r.2)) a b c
def fminmaxFn (isMax : Bool) (ty : FTy) (m : FMod) (fpm : Word) (a b : Word) : List Word × FFlags :=
  let k := fmtOf ty
  fElems ty (fun x y _ => fMinMax k fpm isMax (fIn k fpm m.aa m.na x) (fIn k fpm m.ab m.nb y)) a b 0

/-- A two-operand form. -/
def fp2 (o : Ops) (ty : FTy) (sc : Bool) (f : Word → Word → Word → List Word × FFlags) (s : State) : Out :=
  fpIssue sc o (o.uses 1 1 0 1 sc) false (fun s i l fpm => f fpm (srcF ty s i l o.a) (srcF ty s i l o.b)) s

def execFadd (o : Ops) (ty : FTy) (sc : Bool) (m : FMod) (s : State) : Out := fp2 o ty sc (faddFn ty m) s
def execFsub (o : Ops) (ty : FTy) (sc : Bool) (m : FMod) (s : State) : Out := fp2 o ty sc (fsubFn ty m) s
def execFmul (o : Ops) (ty : FTy) (sc : Bool) (m : FMod) (s : State) : Out := fp2 o ty sc (fmulFn ty m) s
def execFfma (o : Ops) (ty : FTy) (sc : Bool) (m : FMod) (s : State) : Out :=
  fpIssue sc o (o.uses 1 1 1 1 sc) false
    (fun s i l fpm => ffmaFn ty m fpm (srcF ty s i l o.a) (srcF ty s i l o.b) (srcF ty s i l o.c)) s
def execFmin (o : Ops) (ty : FTy) (sc : Bool) (m : FMod) (s : State) : Out := fp2 o ty sc (fminmaxFn false ty m) s
def execFmax (o : Ops) (ty : FTy) (sc : Bool) (m : FMod) (s : State) : Out := fp2 o ty sc (fminmaxFn true ty m) s

/-! ## FDP2 (R213) -/

/-- The two products and the addend, under FPM.CTR. NaN operands count in the order a, b, c. (DEDUCED, log 22.) -/
def fdp2Fn (ty : FTy) (m : FMod) (fpm : Word) (a b : List Nat) (c : Nat) : List Word × FFlags :=
  let k := fmtOf ty
  let r := fpmRnd fpm m.rnd
  let x := a.map (fIn k fpm m.aa m.na)
  let y := b.map (fIn k fpm m.ab m.nb)
  let z := fIn fp32 fpm false m.nc c
  let z0 : FVal := .fin false 0 0
  let x0 := x.getD 0 z0
  let x1 := x.getD 1 z0
  let y0 := y.getD 0 z0
  let y1 := y.getD 1 z0
  let ops := [x0, x1, y0, y1, z]
  let d := if fpmCtr fpm then
      fResult fp32 fpm r ops ((mulV x0 y0).isNone || (mulV x1 y1).isNone)
        ((mulV x0 y0).bind fun p => (mulV x1 y1).bind fun q => sumV r [p, q, z])
    else
      let p0 := fMul fp32 fpm r x0 y0
      let p1 := fMul fp32 fpm r x1 y1
      let t := fAdd fp32 fpm r (fp32.decode p0.1) (fp32.decode p1.1)
      let u := fAdd fp32 fpm r (fp32.decode t.1) z
      (if ops.any FVal.isNan then nanResult fp32 fpm ops else u.1, p0.2 ||| p1.2 ||| t.2 ||| u.2)
  ([BitVec.ofNat 32 (satn fp32 m.satn d.1)], d.2)

/-- The two elements of a source of FDP2: the halves of a word, or a pair; an immediate stands for both. -/
def fdp2Src (ty : FTy) (s : State) (i : Iss) (l : Nat) (x : Src) : List Nat :=
  match ty, x with
  | .f32, .imm _ => [(srcF .f32 s i l x).toNat, (srcF .f32 s i l x).toNat]
  | .f32, .imm32 => [i.o.imm.toNat, i.o.imm.toNat]
  | .f32, x => let w := (src64 s i l x false).toNat; [w % 2 ^ 32, w / 2 ^ 32]
  | ty, x => elemsOf ty (srcF ty s i l x)

def execFdp2 (o : Ops) (ty : FTy) (m : FMod) (s : State) : Out :=
  let n := if ty = .f32 then 2 else 1
  fpIssue false o (o.uses n n 1 1 false) false (fun s i l fpm =>
    fdp2Fn ty m fpm (fdp2Src ty s i l o.a) (fdp2Src ty s i l o.b) (srcF .f32 s i l o.c).toNat) s

/-! ## FRND, FCLASS (R214, R215) -/

def frndElem (k : FFmt) (m : FMod) (fpm : Word) (x : Nat) : Nat × FFlags :=
  match fIn k fpm m.aa m.na x with
  | .nan s n f => (nanResult k fpm [.nan s n f], if s then flInv else 0)
  | .inf n => (k.infBits n, 0)
  | .fin n p e => ((encodeVal k .rne false (.fin n (integral (fpmRnd fpm m.rnd) n p e) 0)).1, 0)

def execFrnd (o : Ops) (ty : FTy) (sc : Bool) (m : FMod) (s : State) : Out :=
  fpIssue sc o (o.uses 1 0 0 1 sc) false (fun s i l fpm =>
    fElems ty (fun x _ _ => frndElem (fmtOf ty) m fpm x) (srcF ty s i l o.a) 0 0) s

/-- Table 11-5: the class of a raw encoding. -/
def classOf (k : FFmt) (x : Nat) : Nat :=
  match k.decode x with
  | .nan s _ _ => if s then 0 else 1
  | .inf n => if n then 2 else 9
  | .fin n m _ =>
    if m = 0 then (if n then 5 else 6)
    else if m < 2 ^ k.f then (if n then 4 else 7)
    else (if n then 3 else 8)

def execFclass (o : Ops) (ty : FTy) (s : State) : Out :=
  vecIssue o (o.uses 1 0 0 1 false) true (fun s i l =>
    let cs := (elemsOf ty (srcF ty s i l o.a)).map fun x => 2 ^ classOf (fmtOf ty) x
    res32 o.d (BitVec.ofNat 32 (if ty = .f32 then cs.headD 0 else cs.headD 0 + 2 ^ 16 * cs.getD 1 0))) s
def execFclassP (o : Ops) (ty : FTy) (s : State) : Out :=
  vecIssue o (o.usesP 1 1 0 []) false (fun s i l =>
    let mask := (src32 s i l o.b).toNat % 2 ^ 10
    resP o.d ((elemsOf ty (srcF ty s i l o.a)).all fun x => mask / 2 ^ classOf (fmtOf ty) x % 2 == 1)) s

/-! ## FSETP (R176) -/

/-- One element: the comparison, and whether it raises invalid. -/
def fcmpElem (k : FFmt) (fpm : Word) (c : Cmp) (x y : Nat) : Bool × Bool :=
  let u := flushIn k (fpmFi fpm k) (k.decode x)
  let v := flushIn k (fpmFi fpm k) (k.decode y)
  let nan := u.isNan || v.isNan
  let ordered := match c with
    | .lt | .le | .gt | .ge => true
    | _ => false
  let r := match c with
    | .num => !nan
    | .nan => nan
    | .ne => nan || cmpV u v != 0
    | c => !nan && cmpInt c (cmpV u v) 0
  (r, (ordered && nan) || u.isSig || v.isSig)

/-- FSETP sets no flag; an enabled invalid traps. -/
def execFsetp (o : Ops) (ty : FTy) (op : CmpOp) (qn : Bool) (q : BitVec 3) (cmp : Cmp) (s : State) : Out :=
  vecIssue o (o.usesP 1 1 0 [q.toNat]) false (fun s i l =>
    let fpm := (s.thread i.t i.g l).fpm
    let xs := elemsOf ty (srcF ty s i l o.a)
    let ys := elemsOf ty (srcF ty s i l o.b)
    let rs := (List.range xs.length).map fun n => fcmpElem (fmtOf ty) fpm cmp (xs.getD n 0) (ys.getD n 0)
    match fpTrap (fpmTraps fpm &&& flInv) (if rs.any (·.2) then flInv else 0) with
    | some t => { trap := some t }
    | none => resP o.d (combineP op (rs.all (·.1)) (srcP s i l q qn))) s

/-! ## Functions (R216, R217) -/

/-- What a lane computes for an approximate function. -/
def fnWords (fn : Fn) (fm : TForm) (na aa : Bool) (s : State) (i : Iss) (l : Nat) (fpm : Word) : List Word × FFlags :=
  let ty : FTy := if fm == .f16x2 then .f16x2 else .f32
  let k := fmtOf ty
  fElems ty (fun x _ _ => approx fn k fpm (fIn k fpm aa na x)) (srcF ty s i l i.o.a) 0 0

/-- An approximate function in each of its forms. -/
def fnIssue (fn : Fn) (o : Ops) (fm : TForm) (na aa : Bool) (s : State) : Out :=
  fpIssue (fm == .sf32) o (o.uses 1 0 0 1 (fm == .sf32)) true (fnWords fn fm na aa) s

def execFrcp (o : Ops) (f : TForm) (na aa : Bool) (s : State) : Out := fnIssue .rcp o f na aa s
def execFrsq (o : Ops) (f : TForm) (na aa : Bool) (s : State) : Out := fnIssue .rsq o f na aa s
def execFsqrt (o : Ops) (f : TForm) (na aa : Bool) (s : State) : Out := fnIssue .sqrt o f na aa s
def execFexp2 (o : Ops) (f : TForm) (na aa : Bool) (s : State) : Out := fnIssue .exp2 o f na aa s
def execFlog2 (o : Ops) (f : TForm) (na aa : Bool) (s : State) : Out := fnIssue .log2 o f na aa s
def execFsin (o : Ops) (f : TForm) (na aa : Bool) (s : State) : Out := fnIssue .sin o f na aa s
def execFcos (o : Ops) (f : TForm) (na aa : Bool) (s : State) : Out := fnIssue .cos o f na aa s

/-- FRCP.IEEE: the correctly rounded reciprocal. -/
def frcpIeeeFn (m : FMod) (fpm : Word) (a : Word) : List Word × FFlags :=
  let v := fIn fp32 fpm m.aa m.na a.toNat
  let r := match Fn.rcp.special fp32 fpm v with
    | some r => r
    | none => match v with
      | .fin n p e => encodeVal fp32 (fpmRnd fpm m.rnd) (fpmFo fpm fp32) (divV n 1 0 p e)
      | _ => (fp32.nan, 0)
  ([BitVec.ofNat 32 r.1], r.2)
/-- FSQRT.IEEE: the correctly rounded square root. -/
def fsqrtIeeeFn (m : FMod) (fpm : Word) (a : Word) : List Word × FFlags :=
  let v := fIn fp32 fpm m.aa m.na a.toNat
  let r := match Fn.sqrt.special fp32 fpm v with
    | some r => r
    | none => match v with
      | .fin _ p e => encodeVal fp32 (fpmRnd fpm m.rnd) (fpmFo fpm fp32) (sqrtV p e)
      | _ => (fp32.nan, 0)
  ([BitVec.ofNat 32 r.1], r.2)
def execFrcpIeee (o : Ops) (m : FMod) (s : State) : Out :=
  fpIssue false o (o.uses 1 0 0 1 false) true (fun s i l fpm => frcpIeeeFn m fpm (srcF .f32 s i l o.a)) s
def execFsqrtIeee (o : Ops) (m : FMod) (s : State) : Out :=
  fpIssue false o (o.uses 1 0 0 1 false) true (fun s i l fpm => fsqrtIeeeFn m fpm (srcF .f32 s i l o.a)) s

end Sys2Proof.Machine
end

