-- ==== Sys2Proof/Machine/Mem.lean ====
section
/-! DEFINITION. Device memory, its keys and poison (04_device_memory, R58 to R64), and
lines of 128 B. -/

namespace Sys2Proof.Machine

/-! ## Bytes -/

/-- What a byte of memory that nothing has written reads as: zero (R404). (DESIGN CHOICE, log 9.) -/
def Mem.unwritten : Byte := 0
/-- One byte. (DESIGN CHOICE, log 9.) -/
def memGet (m : Mem) (a : Nat) : Byte := amapGet Mem.unwritten m a
/-- Write one byte, keeping the canonical form. -/
def memSet (m : Mem) (a : Nat) (b : Byte) : Mem := amapSet Mem.unwritten m a b
/-- `n` bytes from `a`. -/
def memBytes (m : Mem) (a : Nat) : Nat → List Byte
  | 0 => []
  | n + 1 => memGet m a :: memBytes m (a + 1) n
/-- Write bytes from `a`. -/
def memPut (m : Mem) (a : Nat) : List Byte → Mem
  | [] => m
  | b :: bs => memPut (memSet m a b) (a + 1) bs
/-- `n` bytes from `a`, little-endian (R147). -/
def memRead (m : Mem) (a n : Nat) : Nat := bytesToNat (memBytes m a n)
/-- Write the low `n` bytes of `x` at `a`. -/
def memWrite (m : Mem) (a n x : Nat) : Mem := memPut m a (natToBytes n x)
/-- The canonical form of a memory: addresses strictly rising, no entry reading as an unlisted one. -/
def Memory.wf (m : Mem) : Bool := amapWf Mem.unwritten m

/-! ## Lines -/

/-- The mask of `n` bytes from byte `o` of a line. -/
def byteMask (o n : Nat) : ByteMask := BitVec.ofNat 128 ((2 ^ n - 1) * 2 ^ o)
/-- Bits of a line under a byte mask. -/
def maskBits (m : ByteMask) : Line :=
  (List.range 128).foldl (fun x k => if m.getLsbD k then x ||| BitVec.ofNat 1024 (255 * 2 ^ (8 * k)) else x) 0
/-- `n` bytes from byte `o` of a line. -/
def lineRead (d : Line) (o n : Nat) : Nat := d.toNat / 2 ^ (8 * o) % 2 ^ (8 * n)
/-- Replace `n` bytes from byte `o`. -/
def lineWrite (d : Line) (o n x : Nat) : Line :=
  let m := maskBits (byteMask o n)
  (d &&& ~~~ m) ||| BitVec.ofNat 1024 (x % 2 ^ (8 * n) * 2 ^ (8 * o))
/-- Take the masked bytes from `x`. -/
def lineMerge (d x : Line) (m : ByteMask) : Line :=
  let b := maskBits m
  (d &&& ~~~ b) ||| (x &&& b)
/-- The 64 B units of a line that a byte mask covers whole. -/
def unitsCovered (m : ByteMask) : BitVec 2 :=
  (if m.setWidth 64 = BitVec.allOnes 64 then 1 else 0) ||| (if (m >>> 64).setWidth 64 = BitVec.allOnes 64 then 2 else 0)
/-- The 64 B units of a line that a byte mask touches. -/
def unitsTouched (m : ByteMask) : BitVec 2 :=
  (if m.setWidth 64 = 0 then 0 else 1) ||| (if (m >>> 64).setWidth 64 = 0 then 0 else 2)

/-- Units of `size` bytes that the spans (address, length) together cover whole. -/
def coveredUnits (size : Nat) (spans : List (Nat × Nat)) : List Nat :=
  let us := (spans.map fun x => x.1 / size).eraseDups
  us.filter fun u => (List.range size).all fun k => spans.any fun x => decide (x.1 ≤ u * size + k) && decide (u * size + k < x.1 + x.2)

/-- The stores (lane, address) of one instruction with which it has written a unit of `size` bytes whole, given all
its stores (lane, address, length) in their order (R61). (DEDUCED, log 11.) -/
def lastStores (size : Nat) (xs : List (Nat × Nat × Nat)) : List (Nat × Nat) :=
  (coveredUnits size (xs.map (·.2))).filterMap fun u =>
    (xs.filter fun x => x.2.1 / size = u).getLast?.map fun x => (x.1, x.2.1)

/-- The home slice of a physical line (R75). -/
def homeOf (line : Nat) : Nat := (line + line / 192 + line / 36864) % 192

/-- The DRAM place of a physical address (R59): channel, bank, row, byte. -/
def dramPlace (pa : Nat) : Nat × Nat × Nat × Nat :=
  let g := pa / 2048
  let q := g / 48
  let row := q / 32
  (g % 48, Nat.xor (q % 32) (row % 32), row, pa % 2048)

/-! ## Keys and poison (R61, R63, R64) -/

/-- The key in a slot. A slot holds the random key of reset, named by the slot's number, until KEYSET.
(DESIGN CHOICE, log 10.) -/
def State.keyOf (s : State) (slot : Nat) : Nat := amapGet slot s.keys slot
/-- The key a unit was last written under. At reset every unit was written under slot 0 (R404). (DESIGN CHOICE, log 10.) -/
def State.unitKeyOf (s : State) (u : Nat) : Nat := amapGet 0 s.unitKey u

/-- Whether reading a unit under a key finds an uncorrectable error: it is poisoned, or the keys differ and
the code does not match what the stored ciphertext decrypts to (R64). (DESIGN CHOICE, log 10.) -/
def State.unitPoisoned (s : State) (u slot : Nat) : Bool :=
  s.dramPoison.contains u ||
  (s.unitKeyOf u != s.keyOf slot && Config.keyClash u (s.unitKeyOf u) (s.keyOf slot) (memRead s.dram (64 * u) 64))

/-- One byte of device memory as a key slot decrypts it. (DESIGN CHOICE, log 10.) -/
def State.dramByte (s : State) (a slot : Nat) : Byte :=
  if s.unitKeyOf (a / 64) = s.keyOf slot then memGet s.dram a
  else Config.keyByte a (s.unitKeyOf (a / 64)) (s.keyOf slot) (memRead s.dram (a / 64 * 64) 64)

/-- A read of a unit under a key slot meets an error of a single bit, which the code corrects (R60): one that has befallen the
unit, or one of what it decrypts to under another key (R64). Which reads do is free. (DESIGN CHOICE, log 10.) -/
def State.unitFixed (s : State) (u slot : Nat) : Bool :=
  !s.unitPoisoned u slot &&
  (if s.unitKeyOf u = s.keyOf slot then Config.bitError s.cclk u
   else Config.keyFix u (s.unitKeyOf u) (s.keyOf slot) (memRead s.dram (64 * u) 64))
/-- A corrected error is counted in the event log (R60): an entry of code 12, whose source is the channel. -/
def State.noteUnit (s : State) (u slot : Nat) : State :=
  if s.unitFixed u slot then s.logEvent 12 (dramPlace (64 * u)).1 [u] else s
/-- A line is read: the corrected errors of its units are counted. -/
def State.noteFixed (s : State) (line slot : Nat) : State := (s.noteUnit (2 * line) slot).noteUnit (2 * line + 1) slot

/-- A line of device memory as a key slot reads it, with the poison of its units. -/
def State.dramLine (s : State) (line slot : Nat) : Line × BitVec 2 :=
  let bs := (List.range 128).map fun k => s.dramByte (128 * line + k) slot
  (BitVec.ofNat 1024 (bytesToNat bs),
   (if s.unitPoisoned (2 * line) slot then 1 else 0) ||| (if s.unitPoisoned (2 * line + 1) slot then 2 else 0))

/-- Add or remove a unit's poison. -/
def State.setPoison (s : State) (u : Nat) (p : Bool) : State :=
  let l := s.dramPoison.filter (· ≠ u)
  { s with dramPoison := if p then u :: l else l }

/-- Write the 64 bytes of a unit under a key slot. -/
def State.dramWriteUnit (s : State) (u slot : Nat) (bs : List Byte) (poison : Bool) : State :=
  let s := { s with
    dram := memPut s.dram (64 * u) bs
    unitKey := amapSet 0 s.unitKey u (s.keyOf slot) }
  s.setPoison u poison

/-- A read has found the units of a line that `p` marks beyond correction: they are poisoned (R64). -/
def State.notePoison (s : State) (line : Nat) (p : BitVec 2) : State :=
  let s := if p.getLsbD 0 then s.setPoison (2 * line) true else s
  if p.getLsbD 1 then s.setPoison (2 * line + 1) true else s

/-- Write the dirty bytes of unit `k` of a line back to device memory; its other bytes stay as they are there, and so does
its poison unless all 64 bytes are dirty (R61). -/
def State.dramWriteDirty (s : State) (line k : Nat) (l : L2Line) : State :=
  let u := 2 * line + k
  let m := (l.dirty >>> (64 * k)).setWidth 64
  let bs := (List.range 64).map fun j =>
    if m.getLsbD j then (l.data >>> (8 * (64 * k + j))).setWidth 8 else s.dramByte (64 * u + j) l.key
  if m = 0 then s
  else s.dramWriteUnit u l.key bs (l.poison.getLsbD k || (m ≠ BitVec.allOnes 64 && s.unitPoisoned u l.key))

/-- Write a line's dirty bytes back to device memory. -/
def State.dramWriteLine (s : State) (line : Nat) (l : L2Line) : State :=
  (s.dramWriteDirty line 0 l).dramWriteDirty line 1 l

/-! ## Host and peer memory (R400) -/

/-- Host memory of a physical address of an H page: bits [51:48] name the port (R400). (DESIGN CHOICE, log 105.) -/
def State.hGet (s : State) (pa n : Nat) : Nat := if pa / 2 ^ 48 % 16 = 0 then memRead s.hostMem pa n else memRead s.peerMem pa n
def State.hPut (s : State) (pa n x : Nat) : State :=
  if pa / 2 ^ 48 % 16 = 0 then { s with hostMem := memWrite s.hostMem pa n x } else { s with peerMem := memWrite s.peerMem pa n x }
/-- A unit of host or peer memory that holds poison which an engine carried there (R61). -/
def State.hBad (s : State) (pa : Nat) : Bool := s.hPoison.contains (pa / 64)
def State.hMark (s : State) (pa : Nat) (p : Bool) : State :=
  let l := s.hPoison.filter (· ≠ pa / 64)
  { s with hPoison := if p then pa / 64 :: l else l }

/-- The port of an H page's address has linked (R400, R404, R405). -/
def State.portUp (s : State) (pa : Nat) : Bool :=
  let k := pa / 2 ^ 48 % 16
  if k = 0 then s.boot.linked else s.boot.peers.getLsbD (k - 1)

end Sys2Proof.Machine
end

