-- ==== Sys2Proof/Machine/Masks.lean ====
section
/-! DEFINITION. Published epochs, mask generations and the mask store (05_coherence, R77, R78, R84, R85), and
the recall of a line from every sharer. -/

namespace Sys2Proof.Machine

/-! ## Epochs and generations (R76 to R78) -/

/-- PUB[C] as a slice holds it (R77). -/
def State.pubOf (s : State) (slice core : Nat) : Nat := amapGet 0 s.pub (192 * slice + core)
/-- Set PUB[C] of a slice to at least `e`. -/
def State.setPub (s : State) (slice core e : Nat) : State :=
  { s with pub := amapSet 0 s.pub (192 * slice + core) (max (s.pubOf slice core) e) }

/-- A generation of `core` is live at a slice (R77). -/
def State.genLive (s : State) (slice core : Nat) (g : Gen) : Bool := decide (s.pubOf slice core < g.tag)
/-- The generation, if live. -/
def State.liveGen (s : State) (slice core : Nat) (g : Option Gen) : Option Gen :=
  g.filter fun x => s.genLive slice core x

/-- An entry's generations less those that are void. -/
def State.purgeEntry (s : State) (slice : Nat) (e : MaskEntry) : MaskEntry :=
  let live := e.slots.map fun x => (x.1, s.liveGen slice x.1 x.2.1, s.liveGen slice x.1 x.2.2)
  { e with slots := live.filter fun x => x.2.1.isSome || x.2.2.isSome }
/-- Free the entries of a slice that hold only void generations; a demoted line left without an entry is NC
again (Table 05-3). -/
def State.purgeMasks (s : State) (slice : Nat) : State :=
  let old := amapGet [] s.masks slice
  if old.isEmpty then s else
  let es := (old.map (s.purgeEntry slice)).filter fun e => !e.slots.isEmpty
  let gone := (old.map (·.line)).filter fun l => !es.any fun e => e.line = l
  { s with
    masks := amapSet [] s.masks slice es
    l2 := amapMap (fun line l => if gone.contains line then { l with demoted := false } else l) s.l2 }

/-- The live generations that the mask store holds for a line (R84). -/
def State.maskGens (s : State) (line : Nat) : List (Nat × Gen) :=
  let sl := homeOf line
  ((amapGet [] s.masks sl).filter fun e => e.line = line).flatMap fun e => e.slots.flatMap fun x =>
    ([s.liveGen sl x.1 x.2.1, s.liveGen sl x.1 x.2.2].filterMap id).map fun g => (x.1, g)

/-- The detection rule (R84): a conflict of an access by `core` to `bytes` with a live generation of another core. -/
def State.raceAt (s : State) (line core : Nat) (bytes : ByteMask) (write : Bool) : Bool :=
  (s.maskGens line).any fun x => x.1 != core && (x.2.wm &&& bytes != 0 || (write && x.2.rm &&& bytes != 0))

/-- Bytes under other cores' live write masks. -/
def State.foreignBytes (s : State) (line core : Nat) : ByteMask :=
  (s.maskGens line).foldl (fun m x => if x.1 = core then m else m ||| x.2.wm) 0

/-- Two generations of one core from a list: those with equal tags join; the two newest are kept (R78).
(DESIGN CHOICE, log 125.) -/
def joinGens (l : List Gen) : Option Gen × Option Gen :=
  let tags := (l.map (·.tag)).eraseDups
  let top := tags.foldl max 0
  let rest := tags.filter (· < top)
  let nxt := rest.foldl max 0
  let pick (t : Nat) : Gen := (l.filter (·.tag = t)).foldl (fun g x => ⟨t, g.rm ||| x.rm, g.wm ||| x.wm⟩) ⟨t, 0, 0⟩
  if tags.isEmpty then (none, none)
  else if rest.isEmpty then (none, some (pick top))
  else (some (pick nxt), some (pick top))

/-- A home transaction is about a line. -/
def Txn.onLine (t : Txn) (line : Nat) : Bool :=
  match t with
  | .fill l _ _ _ _ | .intent l _ _ _ _ _ | .recall l _ _ _ | .inval l _ _ _ => l = line
  | _ => false
/-- A line is being served at its home (R82). -/
def State.lineBusy (s : State) (line : Nat) : Bool := s.txns.any fun t => t.onLine line

/-! ## L1 lines by tag and by physical line (R74, R99) -/

def L1Line.is (l : L1Line) (space vline : Nat) : Bool := l.space = space && l.vline = vline
/-- The line under a virtual tag. -/
def Core.l1Find (k : Core) (space vline : Nat) : Option L1Line := k.l1.find? fun l => l.is space vline
/-- The line that holds a physical line. -/
def Core.l1Phys (k : Core) (pline : Nat) : Option L1Line := k.l1.find? fun l => l.pline = pline
/-- The TRACKED line that holds a physical line. -/
def Core.l1Tracked (k : Core) (pline : Nat) : Option L1Line := (k.l1Phys pline).filter fun l => l.cls = .tracked
/-- Replace a line and make it the most recently used. -/
def State.l1Put (s : State) (c : Nat) (l : L1Line) : State :=
  s.updCore c fun k => { k with l1 := l :: k.l1.filter fun x => !x.is l.space l.vline }
/-- Remove a line. -/
def State.l1Drop (s : State) (c : Nat) (l : L1Line) : State :=
  s.updCore c fun k => { k with l1 := k.l1.filter fun x => !x.is l.space l.vline }

/-- Merge a line's dirty bytes into the L2 line that is there, with the poison of its units (R61, R81). -/
def L2Line.take (x : L2Line) (l : L1Line) : L2Line :=
  { x with
    data := lineMerge x.data l.data l.dm
    dirty := x.dirty ||| l.dm
    poison := (x.poison &&& ~~~ unitsCovered l.dm) ||| (l.poison &&& unitsTouched l.dm) }

/-- Mark the accesses that wait for a fill in flight which an INV or RECALL of the line overtakes (R87). -/
def State.overtake (s : State) (c line : Nat) : State :=
  { s with accs := amapMap (fun _ a =>
      if a.core = c && a.pa / 128 = line && (a.filling || a.rides) then { a with once := true } else a) s.accs }

/-- RECALL one line from every sharer at once: dirty bytes return to L2 and the lines are dropped. The
answer holds the masks they returned. (DESIGN CHOICE, log 47.) -/
def State.recallNow (s : State) (line : Nat) : State × List (Nat × Option Gen × Option Gen) :=
  match amapFind? s.l2 line with
  | none => (s, [])
  | some x =>
    let r := x.sharers.foldl (fun (r : State × L2Line × List (Nat × Option Gen × Option Gen)) c =>
      match (r.1.core c).l1Tracked line with
      | none => (r.1.overtake c line, r.2.1, r.2.2)
      | some l => ((r.1.l1Drop c l).overtake c line, r.2.1.take l, r.2.2 ++ [(c, l.g0, l.g1)])) (s, x, [])
    ({ r.1 with l2 := amapInsert r.1.l2 line { r.2.1 with sharers := [] } }, r.2.2)

/-! ## The mask store (R85) -/

/-- Free an entry of a full slice: one whose generations are all void, else the one last written longest ago: its line's
sharers are recalled, its masks and those recalled are discarded, and it counts one MASKDROP. A line left without an entry is
no longer demoted. (DESIGN CHOICE, log 47.) -/
def State.maskRoom (s : State) (sl : Nat) : State :=
  let s := s.purgeMasks sl
  let es := amapGet [] s.masks sl
  if es.length < 4096 then s else
  match es.foldl (fun (b : Option MaskEntry) e => match b with
      | none => some e
      | some x => if e.used < x.used then some e else b) none with
  | none => s
  | some v =>
    let s := (s.recallNow v.line).1
    let s := { s with
      masks := amapSet [] s.masks sl (es.erase v)
      maskDrop := amapSet 0 s.maskDrop sl (amapGet 0 s.maskDrop sl + 1) }
    if (es.erase v).any (·.line = v.line) then s else
    { s with l2 := amapMap (fun line l => if line = v.line then { l with demoted := false } else l) s.l2 }

/-- Put a core's masks of a line in the mask store: into its slot, a free slot, or a new entry (R85).
(DESIGN CHOICE, log 47.) -/
def State.maskPut (s : State) (line core : Nat) (g0 g1 : Option Gen) : State :=
  let sl := homeOf line
  let new := [s.liveGen sl core g0, s.liveGen sl core g1].filterMap id
  if new.isEmpty then s else
  let es := amapGet [] s.masks sl
  let has (e : MaskEntry) : Bool := e.line = line && e.slots.any fun x => x.1 = core
  let j := joinGens new
  if es.any has then
    let upd (x : Nat × Option Gen × Option Gen) : Nat × Option Gen × Option Gen :=
      if x.1 ≠ core then x else
      let k := joinGens (new ++ [s.liveGen sl core x.2.1, s.liveGen sl core x.2.2].filterMap id)
      (core, k.1, k.2)
    let es := es.map fun e => if has e then { e with used := s.cclk, slots := e.slots.map upd } else e
    { s with masks := amapSet [] s.masks sl es }
  else match es.findIdx? fun e => e.line = line && decide (e.slots.length < 4) with
    | some k =>
      let es := es.modify k fun e => { e with slots := e.slots ++ [(core, j.1, j.2)], used := s.cclk }
      { s with masks := amapSet [] s.masks sl es }
    | none =>
      let s := if es.length < 4096 then s else s.maskRoom sl
      { s with masks := amapSet [] s.masks sl (amapGet [] s.masks sl ++ [⟨line, [(core, j.1, j.2)], s.cclk⟩]) }

/-- A line has more than one entry, so it is or is to be DEMOTED (R85). -/
def State.chained (s : State) (line : Nat) : Bool :=
  decide (1 < ((amapGet [] s.masks (homeOf line)).filter fun e => e.line = line).length)

end Sys2Proof.Machine
end

