-- ==== Sys2Proof/Machine/L2.lean ====
section
/-! DEFINITION. The L2 slices (05_coherence, R75, R82), byte access at a line's home, and the bytes of booked
rows (R65, R69). -/

namespace Sys2Proof.Machine

/-! ## L2 (R75) -/

/-- Take a line out of L2 (Table 05-3): every sharer is recalled, the masks go to the mask store, and the
dirty bytes to device memory. -/
def State.l2Drop (s : State) (line : Nat) : State :=
  let r := s.recallNow line
  let s := r.2.foldl (fun s x => s.maskPut line x.1 x.2.1 x.2.2) r.1
  match amapFind? s.l2 line with
  | none => s
  | some l => { s.dramWriteLine line l with l2 := amapErase s.l2 line }

/-- The set of a slice that a line falls in: 512 sets (R75). -/
def l2Set (line : Nat) : Nat := line / 192 % 512
/-- A way of a slice's set: a line at its home, or a replica of a REPL line by `2 * line + die` (R75). -/
inductive L2Way where
  | line (line : Nat)
  | replica (key : Nat)
  deriving DecidableEq, Repr
/-- The slice that holds a replica: (home mod 96) of its die (R75). -/
def replSlice (key : Nat) : Nat := homeOf (key / 2) % 96 + 96 * (key % 2)
/-- The ways in use of a set of a slice, with when each was last used and whether it may leave: not while its line is being
served or a store to it is pending. -/
def State.l2Ways (s : State) (slice set : Nat) : List (L2Way × Nat × Bool) :=
  (s.l2.filterMap fun kv => if homeOf kv.1 = slice && l2Set kv.1 = set then some (.line kv.1, kv.2.used, !s.lineBusy kv.1) else none) ++
  s.repl.filterMap fun kv =>
    if replSlice kv.1 = slice && l2Set (kv.1 / 2) = set then some (.replica kv.1, kv.2.used, kv.2.pending.isEmpty) else none
/-- What leaves a set of a slice for another line, where its 16 ways are full: of those that may leave, the one used longest
ago. R75 gives the sets and ways, not the index or the replacement. (DESIGN CHOICE, log 47; DEDUCED, log 120.) -/
def State.l2Victim (s : State) (slice set : Nat) : Option L2Way :=
  let ws := s.l2Ways slice set
  if ws.length < 16 then none else
  ((ws.filter (·.2.2)).foldl (fun (b : Option (L2Way × Nat)) w => match b with
    | none => some (w.1, w.2.1)
    | some x => if w.2.1 < x.2 then some (w.1, w.2.1) else b) none).map (·.1)
/-- Make room in a set of a slice: a replica is dropped, as device memory holds its bytes. (DEDUCED, log 120.) -/
def State.l2Room (s : State) (slice set : Nat) : State :=
  match s.l2Victim slice set with
  | some (.line v) => s.l2Drop v
  | some (.replica k) => { s with repl := amapErase s.repl k }
  | none => s

/-- The replica of a REPL line in a die (R37), read from device memory, or from what the host left in L2, where it is absent.
(DEDUCED, log 120.) -/
def State.replLine (s : State) (line die key : Nat) : ReplLine :=
  match amapFind? s.repl (2 * line + die), amapFind? s.l2 line with
  | some r, _ => r
  | none, some l => { data := l.data, poison := l.poison }
  | none, none => { data := (s.dramLine line key).1, poison := (s.dramLine line key).2 }
/-- Put a replica in its slice. (DEDUCED, log 120.) -/
def State.replPut (s : State) (line die : Nat) (r : ReplLine) : State :=
  let k := 2 * line + die
  let s := if (amapFind? s.repl k).isSome then s else
    ((if (amapFind? s.l2 line).isSome then s.l2Drop line else s).notePoison line r.poison).l2Room (replSlice k) (l2Set line)
  { s with repl := amapInsert s.repl k { r with used := s.cclk } }

/-- Bring a line into L2 under a key slot. A line held under another key is written back first (R64). -/
def State.l2Fetch (s : State) (line slot : Nat) : State :=
  match amapFind? s.l2 line with
  | some l =>
    if s.keyOf l.key = s.keyOf slot then { s with l2 := amapInsert s.l2 line { l with used := s.cclk } }
    else
      let s := s.dramWriteLine line l
      let d := s.dramLine line slot
      { (s.noteFixed line slot).notePoison line d.2 with
        l2 := amapInsert s.l2 line { data := d.1, key := slot, poison := d.2, sharers := l.sharers,
                                            demoted := l.demoted, used := s.cclk } }
  | none =>
    let s := s.l2Room (homeOf line) (l2Set line)
    let d := s.dramLine line slot
    { (s.noteFixed line slot).notePoison line d.2 with l2 := amapInsert s.l2 line { data := d.1, key := slot, poison := d.2, used := s.cclk } }

/-- The L2 line, fetched. -/
def State.l2Line (s : State) (line slot : Nat) : L2Line × State :=
  let s := s.l2Fetch line slot
  (amapGet { data := 0 } s.l2 line, s)

/-- Merge bytes into an L2 line: a unit written whole loses its poison (R61). -/
def State.l2Merge (s : State) (line slot : Nat) (data : Line) (m : ByteMask) : State :=
  if m = 0 then s else
  let s := s.l2Fetch line slot
  let l := amapGet { data := 0 } s.l2 line
  { s with l2 := amapInsert s.l2 line { l with
      data := lineMerge l.data data m, dirty := l.dirty ||| m, poison := l.poison &&& ~~~ unitsCovered m } }

/-- Mark poison on units of an L2 line, in which bytes have just been written: the write-back of those carries it. -/
def State.l2Poison (s : State) (line slot : Nat) (p : BitVec 2) : State :=
  if p = 0 then s else
  let s := s.l2Fetch line slot
  let l := amapGet { data := 0 } s.l2 line
  { s with l2 := amapInsert s.l2 line { l with poison := l.poison ||| p } }

/-- Clear the poison of a unit that one store wrote whole (R61). -/
def State.unitWritten (s : State) (u : Nat) : State :=
  let s := match amapFind? s.l2 (u / 2) with
    | none => s
    | some l => { s with l2 := amapInsert s.l2 (u / 2) { l with poison := l.poison &&& ~~~ BitVec.ofNat 2 (2 ^ (u % 2)) } }
  s.setPoison u false

/-- Read `n` bytes (inside one line) at their home: the value, whether a byte is poisoned, the state. -/
def State.homeRead (s : State) (pa n slot : Nat) : Nat × Bool × State :=
  let r := s.l2Line (pa / 128) slot
  (lineRead r.1.data (pa % 128) n, r.1.poison.getLsbD (pa % 128 / 64), r.2)
/-- Write `n` bytes (inside one line) at their home. -/
def State.homeWrite (s : State) (pa n slot x : Nat) : State :=
  s.l2Merge (pa / 128) slot (lineWrite 0 (pa % 128) n x) (byteMask (pa % 128) n)

/-- Read bytes as the walker and the host do: the L2 line where there is one, else device memory (R96, R398). -/
def State.peek (s : State) (pa n : Nat) : Nat :=
  match amapFind? s.l2 (pa / 128) with
  | some l => lineRead l.data (pa % 128) n
  | none => bytesToNat ((List.range n).map fun k => s.dramByte (pa + k) 0)
/-- Bytes from a physical address, across lines. -/
def State.peekBytes (s : State) (pa : Nat) : Nat → List Byte
  | 0 => []
  | n + 1 => BitVec.ofNat 8 (s.peek pa 1) :: s.peekBytes (pa + 1) n
/-- Write bytes at their homes, across lines. -/
def State.pokeBytes (s : State) (pa slot : Nat) : List Byte → State
  | [] => s
  | b :: bs => (s.homeWrite pa 1 slot b.toNat).pokeBytes (pa + 1) slot bs

/-! ## Rows (R65, R69): the W path reads and writes the row, not the caches -/

/-- Read bytes of a unit: the value, whether the unit is poisoned, and the state, in which it is from now on. -/
def State.rowRead (s : State) (pa n slot : Nat) : Nat × Bool × State :=
  let p := s.unitPoisoned (pa / 64) slot
  let s' := s.noteUnit (pa / 64) slot
  (bytesToNat ((List.range n).map fun k => s.dramByte (pa + k) slot), p, if p then s'.setPoison (pa / 64) true else s')
def State.rowWrite (s : State) (pa n slot x : Nat) : State :=
  let u := pa / 64
  let bs := (List.range 64).map fun k => s.dramByte (64 * u + k) slot
  let p := s.unitPoisoned u slot
  let new := natToBytes n x
  s.dramWriteUnit u slot (bs.take (pa % 64) ++ new ++ bs.drop (pa % 64 + n)) p

/-- Whether page `p` is in host bias (R396). -/
def State.hostBias (s : State) (pa : Nat) : Bool :=
  let b := s.bias.ctl.toNat
  let p := pa / 4096
  decide (2 ^ 63 ≤ b) && decide (pa < 0x3000000000) &&
    (s.peek (bitField 51 12 b * 4096 + p / 8) 1) / 2 ^ (p % 8) % 2 == 1



end Sys2Proof.Machine
end

