-- ==== Sys2Proof/Machine/Translate.lean ====
section
/-! DEFINITION. Translation (06_translation): the walk, the TLBs and walk caches of a wing, the lodging
check and the class check, in the order of Table 06-7; shootdowns; lodging requests. -/

namespace Sys2Proof.Machine

def PClass.ofCode : Nat → Option PClass
  | 0 => some .priv
  | 1 => some .ro
  | 2 => some .tracked
  | 3 => some .home
  | 4 => some .repl
  | _ => none

/-- A leaf as the walk returns it (R92): its fields, the merged base and size, its level and raw entry. -/
structure Leaf where
  h     : Bool
  key   : Nat
  g     : Bool
  d     : Bool
  x     : Bool
  w     : Bool
  cls   : PClass
  base  : Nat
  size  : Nat
  level : Nat
  entry : Nat
  ea    : Nat
  deriving DecidableEq, Repr

/-- How a walk ends. -/
inductive WalkRes where
  | breach (level : Nat)
  | format (level entry : Nat)
  | leaf (l : Leaf)
  deriving DecidableEq, Repr

/-- Check 6 of Table 06-7: W and class (R31), with the changes of R401 on H pages. -/
def classCheck (write : Bool) (need : Need) (h : Bool) (pa : Nat) (cls : PClass) (w : Bool) (va : Nat) : Option Trap :=
  let viol : Option Trap := some { cause := .classViolation, addr := va }
  if write && (cls = .ro || !w) then some { cause := .writeProtect, addr := va, leafW := !w }
  else if h && (cls = .tracked || cls = .repl) then viol
  else if h && pa / 2 ^ 48 % 16 ≠ 0 && (need = .sync || need = .atomic || need = .scatterAdd) then viol
  else match need with
    | .plain => none
    | .sync => if cls = .home then none else viol
    | .atomic | .scatterAdd => if cls = .priv || cls = .repl then viol else none
    | .rowbook => if h || !(cls = .priv || cls = .ro) then viol else none
    | .mst => if cls = .repl then viol else none

/-- One level of the walk on entry `e` read at `ea` (R92). -/
def walkEntry (level va e ea : Nat) : WalkRes ⊕ Nat :=
  let bit (k : Nat) : Bool := e / 2 ^ k % 2 == 1
  if !bit 0 then .inl (.breach level)
  else if bitField 62 61 e ≠ 0 || (decide (level ≤ 1) && bit 1) || (level == 4 && !bit 1) then .inl (.format level e)
  else if decide (level ≤ 3) && !bit 1 then
    if bitField 63 52 e ≠ 0 || bitField 11 2 e ≠ 0 || decide (0x2FFFFFF000 < bitField 51 12 e * 4096) then
      .inl (.format level e)
    else .inr (bitField 51 12 e * 4096)
  else
    let base := 2 ^ (12 + 9 * (4 - level))
    let c := bitField 10 9 e
    let f := if c = 0 then 1 else if c = 1 then 4 else 16
    match PClass.ofCode (bitField 4 2 e) with
    | none => .inl (.format level e)
    | some cls =>
      if c = 3 || (level == 2 && c == 2) then .inl (.format level e)
      else
        let k := va / base % f
        let pa := bitField 51 12 e * 4096
        if pa < k * base || (pa - k * base) % (f * base) ≠ 0 then .inl (.format level e)
        else if (!bit 63 && decide (0x2FFFFFFFFF < pa + base - 1)) || (bit 63 && decide (4 < bitField 51 48 e)) then
          .inl (.format level e)
        else .inl (.leaf { h := bit 63, key := bitField 60 52 e, g := bit 11, d := bit 8, x := bit 6, w := bit 5,
                           cls := cls, base := pa - k * base, size := f * base, level := level, entry := e, ea := ea })

/-- The walk from a level with `fuel` levels left; the pointing entries of levels 0 to 2 that it reads
enter the walk caches, also those of a walk that fails (R98, R377). -/
def walkFrom (s : State) (space va : Nat) : Nat → Nat → Nat → List WalkEntry → WalkRes × List WalkEntry
  | 0, level, _, c => (.breach level, c)
  | fuel + 1, level, tbl, c =>
    let sh := 12 + 9 * (4 - level)
    let ea := tbl + 8 * bitField (sh + 8) sh va
    let e := s.peek ea 8
    match walkEntry level va e ea with
    | .inl r => (r, c)
    | .inr t =>
      let c := if level ≤ 2 then c ++ [{ level := level, space := space, tag := va / 2 ^ sh, table := t }] else c
      walkFrom s space va fuel (level + 1) t c

/-- The addresses of the entries that the same walk reads. -/
def walkReads (s : State) (space va : Nat) : Nat → Nat → Nat → List Nat
  | 0, _, _ => []
  | fuel + 1, level, tbl =>
    let ea := tbl + 8 * bitField (12 + 9 * (4 - level) + 8) (12 + 9 * (4 - level)) va
    match walkEntry level va (s.peek ea 8) ea with
    | .inl _ => [ea]
    | .inr t => ea :: walkReads s space va fuel (level + 1) t

/-- The deepest walk-cache entry that hits (R98): the level to read next and its table. -/
def walkStart (w : Wing) (space va root : Nat) : Nat × Nat :=
  let hit (lvl : Nat) := w.walks.find? fun e => e.level = lvl && e.space = space && e.tag = va / 2 ^ (12 + 9 * (4 - lvl))
  match hit 2 with
  | some e => (3, e.table)
  | none => match hit 1 with
    | some e => (2, e.table)
    | none => match hit 0 with
      | some e => (1, e.table)
      | none => (0, root)

/-- Keep each walk cache at 64 entries, the newest (R98; the replacement is not given). (DESIGN CHOICE, log 46.) -/
def trimWalks (ws : List WalkEntry) : List WalkEntry :=
  [0, 1, 2].flatMap fun lvl =>
    let l := ws.filter (·.level = lvl)
    l.drop (l.length - 64)

/-- A walk of a wing (R92, R95, R98): its result, and the state with the walk caches and A, D updated, at the entry's home or,
in host bias, in memory (R398). D is set only for a write that passes check 6. -/
def State.walk (s : State) (wing space va : Nat) (write : Bool) (need : Need) : WalkRes × State :=
  let root := bitField 51 12 (s.space space).root.toNat * 4096
  if 0x2FFFFFF000 < root then (.format 0 0, s) else
  let st := walkStart (s.wing wing) space va root
  let r := walkFrom s space va (5 - st.1) st.1 st.2 []
  let s := s.updWing wing fun w => { w with walks := trimWalks (w.walks ++ r.2) }
  match r.1 with
  | .leaf l =>
    let pass := (classCheck write need l.h (l.base + va % l.size) l.cls l.w va).isNone
    let set := (if l.entry / 2 ^ 7 % 2 = 0 then 2 ^ 7 else 0) + (if write && pass && !l.d then 2 ^ 8 else 0)
    let s := if set = 0 then s
      else if s.hostBias l.ea then s.rowWrite l.ea 8 0 (l.entry + set)
      else match amapFind? s.l2 (l.ea / 128) with
      | some x => s.homeWrite l.ea 8 x.key (l.entry + set)
      | none => s.homeWrite l.ea 8 0 (l.entry + set)
    (.leaf { l with d := l.d || (write && pass), entry := l.entry + set }, s)
  | x => (x, s)

/-! ## TLBs (R97, Table 06-4) -/

def Wing.tlb (w : Wing) (k : TlbKind) : List TlbEntry :=
  match k with
  | .vtlb => w.vtlb | .mtlb => w.mtlb | .ctlb => w.ctlb | .itlb => w.itlb
def Wing.setTlb (w : Wing) (k : TlbKind) (l : List TlbEntry) : Wing :=
  match k with
  | .vtlb => { w with vtlb := l } | .mtlb => { w with mtlb := l } | .ctlb => { w with ctlb := l }
  | .itlb => { w with itlb := l }
def TlbKind.size : TlbKind → Nat
  | .vtlb => 512 | .mtlb => 128 | .ctlb => 256 | .itlb => 64
/-- LRU TLBs move a hit to the front; MTLB is FIFO and CTLB round-robin. (DESIGN CHOICE, log 46.) -/
def TlbKind.lru : TlbKind → Bool
  | .vtlb | .itlb => true
  | .mtlb | .ctlb => false

def TlbEntry.covers (e : TlbEntry) (space va : Nat) : Bool :=
  (e.g || e.space = space) && decide (e.va ≤ va) && decide (va < e.va + e.size)

/-- The ways of a set (Table 06-4): the MTLB is one set. -/
def TlbKind.ways : TlbKind → Nat
  | .vtlb => 8 | .mtlb => 128 | .ctlb | .itlb => 4
/-- The set of an entry: which address bits choose it is not stated. (DESIGN CHOICE, log 46.) -/
def TlbEntry.set (k : TlbKind) (e : TlbEntry) : Nat := e.va / max e.size 1 % (TlbKind.size k / TlbKind.ways k)

/-- An entry is for the page and space of another. -/
def TlbEntry.same (x e : TlbEntry) : Bool := x.space == e.space && x.va == e.va && x.size == e.size

/-- Put a leaf's entry into a TLB (R97). An entry of its page takes the new content, keeps its pins and, but in an LRU TLB, its
place. Else it takes a free way of its set, or the place of the entry that the policy replaces, among those that no command
pins: the one used longest ago, in the MTLB the one filled first, in the CTLB that of the set's pointer, which moves on.
(DESIGN CHOICE, log 46.) -/
def Wing.tlbAdd (w : Wing) (k : TlbKind) (e : TlbEntry) : Wing :=
  let l := w.tlb k
  match l.find? fun x => x.same e with
  | some o =>
    let e := { e with pins := e.pins ++ o.pins, way := o.way }
    w.setTlb k (if TlbKind.lru k then e :: l.erase o else l.map fun x => if x = o then e else x)
  | none =>
    let mine := l.filter fun x => x.set k = e.set k
    match (List.range (TlbKind.ways k)).find? fun n => mine.all fun x => x.way ≠ n with
    | some n => w.setTlb k ({ e with way := n } :: l)
    | none =>
      let next := amapGet 0 w.ctlbNext (e.set k)
      match if k = .ctlb then mine.find? fun x => x.way = next else mine.reverse.find? fun x => x.pins.isEmpty with
      | none => w
      | some v =>
        let w := if k = .ctlb then { w with ctlbNext := amapSet 0 w.ctlbNext (e.set k) ((next + 1) % TlbKind.ways k) } else w
        w.setTlb k ({ e with way := v.way } :: l.erase v)

/-! ## Lodging (R100, R104, R105) -/

/-- Whether an address lies in a launch's private window (R28, R29). -/
def Launch.inWindow (la : Launch) (va : Nat) : Bool :=
  decide (la.window ≤ va) && decide (va < la.window + la.privBlocks * (la.privSize * 32))

/-- The space's translation cache covers the address (R391). -/
def Space.inCache (sp : Space) (va : Nat) : Bool :=
  sp.xc.getLsbD 63 && va / 2 ^ 28 == bitField 57 29 sp.xc.toNat

/-- Put a lease's ranges into a wing's table. -/
def State.wingLease (s : State) (w : Nat) (lease : Option Nat) : State :=
  match lease with
  | none => s
  | some l =>
    if (s.wing w).ranges.any (·.lease = l) then s else
    match amapFind? s.leases l with
    | none => s
    | some x => s.updWing w fun wg => { wg with ranges := wg.ranges ++ x.ranges.map fun r =>
        { space := x.space, lease := l, lo := r.base / 128, hi := (r.base + r.len - 1) / 128, access := r.access } }

/-- Checks 1 and 2 of Table 06-7 for a launch at a wing: none, OUT_OF_LODGING, WRITE_PROTECT or PRIVILEGE. -/
def State.lodgeCheck (s : State) (wing la va : Nat) (kind : AccKind) : Option Trap :=
  let l := s.launch la
  let line := va / 128
  let rs := (s.wing wing).ranges.filter fun r =>
    r.space = l.space && some r.lease = l.lease && decide (r.lo ≤ line) && decide (line ≤ r.hi)
  let accs := rs.map (·.access) ++ (if l.inWindow va then [1] else []) ++
    (if l.lr.nirop.getLsbD 31 && (s.space l.space).inCache va then [2] else [])
  if accs.isEmpty then some { cause := .outOfLodging, addr := va } else
  match kind with
  | .read => none
  | .write => if accs.contains 1 then none else some { cause := .writeProtect, addr := va }
  | .fetch => if accs.contains 2 then none else some { cause := .privilege, addr := va }

/-- A translated address. -/
structure Phys where
  pa  : Nat
  cls : PClass
  key : Nat
  h   : Bool
  w   : Bool
  deriving DecidableEq, Repr

/-- How a translation ends: an address, a trap, or a lodging breach at a level; or the access waits for a walk. -/
inductive XRes where
  | ok (p : Phys)
  | wait
  | trap (t : Trap)
  | breach (level : Nat)
  deriving DecidableEq, Repr

/-- Where the bytes of a private window lie. R28 gives the window's GLOBAL addresses; its pages are lodged
by the launch itself and the place of their bytes is not stated, so each launch has a place of its own
above every physical address that a leaf can name. (DESIGN CHOICE, log 44.) -/
def windowPa (la off : Nat) : Nat := 2 ^ 60 + la * 2 ^ 48 + off

/-- The entry of a TLB that an access may use: none where it misses, or where a write that passes check 6 must first set D. -/
def State.tlbHit (s : State) (wing space : Nat) (tlb : TlbKind) (va : Nat) (write : Bool) (need : Need) : Option TlbEntry :=
  match ((s.wing wing).tlb tlb).find? fun e => e.covers space va && !e.drop with
  | some e => if write && !e.d && (classCheck write need e.h (e.base + (va - e.va)) e.cls e.w va).isNone then none else some e
  | none => none

/-- Fill a TLB with a leaf. -/
def State.tlbFill (s : State) (wing space : Nat) (tlb : TlbKind) (va : Nat) (f : Leaf) (pin : Option (Nat × Nat)) : State :=
  let e : TlbEntry := { va := va - va % f.size, size := f.size, space := space, g := f.g, base := f.base,
                        h := f.h, key := f.key, cls := f.cls, w := f.w, x := f.x, d := f.d, pins := pin.toList }
  s.updWing wing fun w => w.tlbAdd tlb e

/-! ## The walker queue (R98, R108) -/

/-- An address range of a space is in a shootdown's scope. -/
def Shoot.hits (x : Shoot) (space va size : Nat) : Bool :=
  match x.scope with
  | 0 => space == x.space && decide (va < x.va + 4096 * x.pages) && decide (x.va < va + size)
  | 1 => space == x.space
  | _ => true
/-- A TLB entry is. -/
def Shoot.hitsEntry (x : Shoot) (e : TlbEntry) : Bool :=
  match x.scope with
  | 0 => (e.g || e.space == x.space) && decide (e.va < x.va + 4096 * x.pages) && decide (x.va < e.va + e.size)
  | 1 => !e.g && e.space == x.space
  | _ => true

/-- The walks that wait or are in progress: four walkers serve the first four, and 32 wait behind them. -/
def Wing.walking (w : Wing) : List Walk := w.walkQ.filter fun x => x.served.isNone
/-- The walks that a wing holds at once: 32 that wait and the four of its walkers (R98). (DEDUCED, log 114.) -/
def walkRoom : Nat := 36

/-- A walk is for the page of an address. (DEDUCED, log 114.) -/
def Walk.isFor (w : Walk) (space va : Nat) : Bool := w.space == space && w.va / 4096 == va / 4096

/-- A miss enters the walker queue, joins the walk of its page, or waits while the queue is full; a matrix command that finds
every MTLB entry pinned waits (R97, R98). (DEDUCED, log 114.) -/
def State.walkAsk (s : State) (wing space : Nat) (tlb : TlbKind) (va : Nat) (write : Bool) (need : Need) : State :=
  s.updWing wing fun w =>
    let open_ (x : Walk) : Bool := x.isFor space va && x.served.isNone
    let join (x : Walk) : Walk := if open_ x && !x.tlbs.contains tlb then { x with tlbs := x.tlbs ++ [tlb] } else x
    if tlb = .mtlb && decide (128 ≤ (w.mtlb.filter fun e => !e.pins.isEmpty).length) then w
    else if w.walkQ.any open_ then { w with walkQ := w.walkQ.map join }
    else if walkRoom ≤ w.walking.length then w
    else { w with walkQ := w.walkQ ++ [{ space := space, va := va, write := write, need := need, tlbs := [tlb] }] }

/-- The outcome that a walk without a leaf has left to a requester of a TLB. -/
def State.walkLeft (s : State) (wing space va : Nat) (tlb : TlbKind) : Option Walk :=
  (s.wing wing).walkQ.find? fun x => x.isFor space va && x.served.isSome && x.tlbs.contains tlb

/-- An address that has a leaf: a fetch needs X, and check 6 follows. -/
def xlateAt (kind : AccKind) (need : Need) (va pa key : Nat) (h w x : Bool) (cls : PClass) : XRes :=
  if kind = .fetch && !x then .trap { cause := .privilege, addr := va } else
  match classCheck (kind = .write) need h pa cls w va with
  | some t => .trap t
  | none => .ok ⟨pa, cls, key, h, w⟩

/-- Translate through a TLB of a wing (R97, R98, R108; checks 3 to 6 of Table 06-7). While a shootdown in progress covers the
address, and where the TLB misses, the access waits, its miss with the walkers, unless its page's walk has left an outcome.
`pin` is the matrix command that pins an MTLB entry. (DEDUCED, log 114.) -/
def State.xlate (s : State) (wing space : Nat) (tlb : TlbKind) (va : Nat) (kind : AccKind) (need : Need)
    (pin : Option (Nat × Nat)) : XRes × State :=
  let write : Bool := kind = .write
  if s.shoots.any (fun kv => kv.2.hits space va 1) then (.wait, s.walkAsk wing space tlb va write need) else
  match s.tlbHit wing space tlb va write need with
  | some e =>
    let e' := { e with pins := pin.toList ++ e.pins }
    (xlateAt kind need va (e.base + (va - e.va)) e.key e.h e.w e.x e.cls,
     s.updWing wing fun w => w.setTlb tlb
      (if TlbKind.lru tlb then e' :: (w.tlb tlb).filter (· ≠ e) else (w.tlb tlb).map fun x => if x = e then e' else x))
  | none =>
    match s.walkLeft wing space va tlb with
    | none => (.wait, s.walkAsk wing space tlb va write need)
    | some x =>
      (match x.served with
        | some (lvl, some e) => .trap { cause := .tableFormat, addr := va, aux := lvl, info := e }
        | some (lvl, none) => .breach lvl
        | none => .wait,
       s.updWing wing fun w => { w with walkQ := w.walkQ.erase x })

/-- Translate for a launch (Table 06-7 in order): lodging, the private window, the translation cache's range, the tables.
(DESIGN CHOICE, log 46.) -/
def State.translate (s : State) (wing la : Nat) (tlb : TlbKind) (va : Nat) (kind : AccKind) (need : Need)
    (pin : Option (Nat × Nat)) : XRes × State :=
  let l := s.launch la
  let sp := s.space l.space
  match s.lodgeCheck wing la va kind with
  | some t => (.trap t, s)
  | none =>
    if l.inWindow va then (xlateAt kind need va (windowPa la (va - l.window)) 0 false true true .priv, s)
    else if sp.inCache va then
      (if kind = .write then .trap { cause := .writeProtect, addr := va }
       else xlateAt kind need va (bitField 28 5 sp.xc.toNat * 2 ^ 28 + va % 2 ^ 28) 0 false false true .ro, s)
    else s.xlate wing l.space tlb va kind need pin

end Sys2Proof.Machine
end

