-- ==== Sys2Proof/Machine/Cache.lean ====
section
/-! DEFINITION. L1 lines (R74, R78, R80, R99), and what releases, acquires, fences and publication do to a
core's lines and counters (R31, R76, R83, R114). -/

namespace Sys2Proof

/-- Cluster scope or wider (R32). -/
def Scope.wide (x : Scope) : Bool :=
  match x with
  | .group | .team => false
  | _ => true

/-- Whether the order acquires, releases. -/
def Ord3.acquires (o : Ord3) : Bool := o == .acq || o == .ar
def Ord3.releases (o : Ord3) : Bool := o == .rel || o == .ar

end Sys2Proof

namespace Sys2Proof.Machine

/-! ## Lines -/

/-- Set the mask bits of an access (R78): the current generation has the core's EPOCH as its tag. The answer
also says whether a live G0 is pushed out, so that the line's dirty bytes are written back first. -/
def L1Line.mark (l : L1Line) (epoch : Nat) (live : Option Gen → Option Gen) (write : Bool) (b : ByteMask) : L1Line × Bool :=
  let add (g : Gen) : Gen := if write then { g with wm := g.wm ||| b } else { g with rm := g.rm ||| b }
  match live l.g1 with
  | some g =>
    if g.tag = epoch then ({ l with g1 := some (add g) }, false)
    else ({ l with g0 := some g, g1 := some (add ⟨epoch, 0, 0⟩) }, (live l.g0).isSome)
  | none => ({ l with g0 := live l.g0, g1 := some (add ⟨epoch, 0, 0⟩) }, false)

/-- Merge a line's dirty bytes into L2, with the poison of its units (R61, R81). -/
def State.mergeLine (s : State) (l : L1Line) : State :=
  if l.dm = 0 then s else
  let s := s.l2Fetch l.pline l.key
  { s with l2 := amapInsert s.l2 l.pline ((amapGet { data := 0 } s.l2 l.pline).take l) }

/-- Mark an access in a TRACKED line, which becomes the most recently used. -/
def State.l1Mark (s : State) (c : Nat) (l : L1Line) (write : Bool) (b : ByteMask) : State :=
  let r := l.mark (s.core c).epoch (s.liveGen c c) write b
  if r.2 then (s.mergeLine l).l1Put c { r.1 with dm := 0 } else s.l1Put c r.1

/-- Evict a line from L1 (Table 05-2): a PRIV line's dirty bytes go to L2; a TRACKED line sends WB with its
dirty bytes and any live masks. -/
def State.l1Evict (s : State) (c : Nat) (l : L1Line) : State :=
  let s := s.l1Drop c l
  match l.cls with
  | .tracked =>
    let g0 := s.liveGen c c l.g0
    let g1 := s.liveGen c c l.g1
    if l.dm = 0 && g0.isNone && g1.isNone then s else
    { s with msgs := s.msgs ++ [.wb c l.pline l.key l.data l.poison l.dm g0 g1 .plain] }
  | _ => s.mergeLine l

/-- A physical line leaves a core's L1. -/
def State.l1Oust (s : State) (c line : Nat) : State :=
  match (s.core c).l1Phys line with
  | some l => s.l1Evict c l
  | none => s

/-- Make room in the set of a line: 16 ways, least recently used first out (R74). -/
def State.l1Room (s : State) (c vline : Nat) : State :=
  let set := (s.core c).l1.filter fun l => l.vline % 128 = vline % 128
  if set.length < 16 then s else
  match set.getLast? with
  | some l => s.l1Evict c l
  | none => s

/-- Fill data into a line (R80): bytes that are not valid, or foreign-dirty and not dirty, take it; FD is the fill's.
(DEDUCED, log 112.) -/
def L1Line.fill (l : L1Line) (data : Line) (poison : BitVec 2) (fd : ByteMask) : L1Line :=
  let take := (~~~ l.bv) ||| (l.fd &&& ~~~ l.dm)
  { l with
    data := lineMerge l.data data take
    bv := BitVec.allOnes 128
    fd := fd
    poison := l.poison ||| (poison &&& unitsTouched take) }

/-- Fill a PRIV or RO line into L1 (R33). -/
def State.l1FillPlain (s : State) (c space vline : Nat) (p : Phys) : State :=
  let pline := p.pa / 128
  let r := s.l2Line pline p.key
  let s := r.2
  match (s.core c).l1Find space vline with
  | some l => s.l1Put c { l.fill r.1.data r.1.poison 0 with w := p.w }
  | none =>
    let s := s.l1Room c vline
    s.l1Put c { space := space, vline := vline, pline := pline, cls := p.cls, key := p.key, data := r.1.data,
                bv := BitVec.allOnes 128, dm := 0, w := p.w, poison := r.1.poison }

/-- The reverse map (R99): a physical line held under another tag moves to the new tag. A line held under another class or
key leaves the L1, so that the access follows its own leaf (R38, R64). (DESIGN CHOICE, log 111.) -/
def State.l1Retag (s : State) (c space vline : Nat) (p : Phys) : State :=
  match (s.core c).l1Phys (p.pa / 128) with
  | none => s
  | some l =>
    if l.cls ≠ p.cls ∨ s.keyOf l.key ≠ s.keyOf p.key then s.l1Evict c l
    else if l.is space vline then s.l1Put c { l with w := p.w } else
    ((s.l1Drop c l).l1Room c vline).l1Put c { l with space := space, vline := vline, w := p.w }

/-- Apply a function to every L1 line of a core, or drop it. -/
def State.l1Each (s : State) (c : Nat) (f : L1Line → Option L1Line) : State :=
  s.updCore c fun k => { k with l1 := k.l1.filterMap f }

/-- Clear the bytes of a physical line in a core's L1 wherever they are clean (R80, R284, R398). -/
def State.l1Inv (s : State) (c line : Nat) (bytes : ByteMask) : State :=
  s.l1Each c fun l => if l.pline = line then some { l with bv := l.bv &&& ~~~ (bytes &&& ~~~ l.dm) } else some l

/-! ## Writing back, publishing, counting regions -/

/-- Write back a core's dirty PRIV lines, which stay (R31, R83). -/
def State.releasePriv (s : State) (c : Nat) : State :=
  let ls := (s.core c).l1.filter fun l => l.cls = .priv && l.dm != 0
  (ls.foldl (fun s l => s.mergeLine l) s).l1Each c fun l => some (if l.cls = .priv then { l with dm := 0 } else l)

/-- Write back every dirty TRACKED byte of a core. Its masks stay. -/
def State.releaseTracked (s : State) (c : Nat) : State :=
  let ls := (s.core c).l1.filter fun l => l.cls = .tracked && l.dm != 0
  (ls.foldl (fun s l => s.mergeLine l) s).l1Each c fun l => some (if l.cls = .tracked then { l with dm := 0 } else l)

/-- PUBLISH(C, e) at every slice (R77). -/
def State.publishAll (s : State) (c e : Nat) : State :=
  (List.range 192).foldl (fun s sl => (s.setPub sl c e).purgeMasks sl) s

/-- Clear IM in every line of a core: a region ends (R76). -/
def State.clearIm (s : State) (c : Nat) : State := s.l1Each c fun l => some { l with im := 0 }

/-- An entry less one core's slot. -/
def MaskEntry.without (c : Nat) (e : MaskEntry) : MaskEntry := { e with slots := e.slots.filter fun x => x.1 ≠ c }

/-- What a publish of FENCE does to foreign-dirty bytes: they are no longer valid (R83). -/
def State.dropForeign (s : State) (c : Nat) : State :=
  s.l1Each c fun l => some { l with bv := l.bv &&& ~~~ (l.fd &&& ~~~ l.dm), fd := l.fd &&& l.dm }

/-- A message that a core sent before its counters wrapped, as it counts after: the publish of the wrap covers the generations
that a write-back or an answer carries, and an intent counts as one of the new epoch (R76). -/
def wrapMsg (c : Nat) (i : Instr) : Instr :=
  match i with
  | .wb c' l k d p m g0 g1 why => if c' = c then .wb c' l k d p m none none why else .wb c' l k d p m g0 g1 why
  | .mrep c' l g0 g1 => if c' = c then .mrep c' l none none else .mrep c' l g0 g1
  | .markr c' l g0 g1 => if c' = c then .markr c' l none none else .markr c' l g0 g1
  | .intent c' l b e a => if c' = c then .intent c' l b 1 a else .intent c' l b e a
  | x => x
/-- An intent that is being served when its core's counters wrap counts as one of the new epoch (R76). -/
def Txn.wrap (c : Nat) (t : Txn) : Txn :=
  match t with
  | .intent l c' b e a w => if c' = c then .intent l c' b 1 a w else .intent l c' b e a w
  | x => x

/-- The wrap of a core's counters (R76). -/
def State.epochWrap (s : State) (c : Nat) : State :=
  let s := ((s.releasePriv c).releaseTracked c).publishAll c (s.core c).epoch
  let s := s.dropForeign c
  let s := s.l1Each c fun l => some (if l.cls = .tracked then { l with g0 := none, g1 := none } else l)
  let s := { s with
    masks := amapMap (fun _ es => es.map (MaskEntry.without c)) s.masks
    msgs := s.msgs.map (wrapMsg c)
    homeWait := s.homeWait.map fun (x : Nat × Instr) => (x.1, wrapMsg c x.2)
    txns := s.txns.map (Txn.wrap c)
    pub := s.pub.filter fun kv => kv.1 % 192 ≠ c }
  let s := (List.range 192).foldl (fun s sl => s.purgeMasks sl) s
  s.updCore c fun k => { k with epoch := 1, region := 0 }

/-- A release or acquire of cluster scope or wider counts a region (R76); a release also an epoch. The
counters wrap first where one that advances would pass 48 bits. (DEDUCED, log 50.) -/
def State.regionEnd (s : State) (c : Nat) (release : Bool) : State :=
  let k := s.core c
  let s := if (release && 2 ^ 48 ≤ k.epoch + 1) || 2 ^ 48 ≤ k.region + 1 then s.epochWrap c else s
  (s.clearIm c).updCore c fun k => { k with region := k.region + 1, epoch := if release then k.epoch + 1 else k.epoch }

/-- The publish of FENCE, of pre-emption and of a grid's end (R83): dirty PRIV and TRACKED bytes go to L2,
(C, EPOCH) is published, EPOCH advances, and the bytes that are foreign-dirty are no longer valid. -/
def State.publishNow (s : State) (c : Nat) : State :=
  let s := ((s.releasePriv c).releaseTracked c).publishAll c (s.core c).epoch
  (s.regionEnd c true).dropForeign c

/-- Generations up to `e` whose written bytes are dirty: the bytes a DARN writes back (R80). -/
def State.darnBytes (s : State) (c e : Nat) (l : L1Line) : ByteMask :=
  ([s.liveGen c c l.g0, s.liveGen c c l.g1].filterMap id).foldl (fun m g => if g.tag ≤ e then m ||| (g.wm &&& l.dm) else m) 0
/-- The line after it: those generations' WM and the written-back bytes' DM are clear. (DEDUCED, log 48.) -/
def L1Line.darned (l : L1Line) (e : Nat) (m : ByteMask) : L1Line :=
  let f (g : Option Gen) : Option Gen := g.map fun g => if g.tag ≤ e then { g with wm := 0 } else g
  { l with dm := l.dm &&& ~~~ m, g0 := f l.g0, g1 := f l.g1 }

/-- Darn core `c` up to `e` for an acquirer, at once: as DARN, its WBs, the INVs and PUBLISH do in turn (R83,
R115). A record at or above the current EPOCH is stale and names nothing to publish. (DEDUCED, log 48.) -/
def State.darnNow (s : State) (c e a : Nat) : State :=
  if c = a || e ≤ s.pubOf a c || (s.core c).epoch ≤ e then s else
  let ls := (s.core c).l1.filter fun l => l.cls = .tracked && s.darnBytes c e l != 0
  let s := ls.foldl (fun s l =>
    let m := s.darnBytes c e l
    let s := (s.mergeLine { l with dm := m }).l1Put c (l.darned e m)
    s.l1Inv a l.pline m) s
  s.publishAll c e

/-- Drop the clean bytes of the lines that satisfy `f`: a line without dirty bytes leaves the L1, a TRACKED one with its
live masks (R84); one with dirty bytes keeps those, and its other bytes are no longer valid. (DEDUCED, log 48.) -/
def State.dropClean (s : State) (c : Nat) (f : L1Line → Bool) : State :=
  ((s.core c).l1.filter f).foldl (fun s l =>
    if l.dm = 0 then s.l1Evict c l
    else s.l1Each c fun x => some (if x.is l.space l.vline then { x with bv := x.bv &&& x.dm } else x)) s

/-- What the V destination side of Table 07-4 does on a core: clean bytes of PRIV and TRACKED lines are dropped. -/
def State.dropV (s : State) (core : Nat) : State := s.dropClean core fun l => l.cls = .priv || l.cls = .tracked

/-- The crossing from M to V (R121, R117): the bytes of TRACKED lines that a team's MSTs have landed are no longer valid where
they are clean in a sharer, so that every V access that the crossing happens before reads them. Copies in an L1 are otherwise
not updated (R256). (DEDUCED, log 122.) -/
def State.mstCross (s : State) (t : Nat) : State :=
  match (s.team t).stream with
  | none => s
  | some st =>
    let s := forEach st.stored s fun s (x : Nat × ByteMask) => match amapFind? s.l2 x.1 with
      | none => s
      | some l => forEach l.sharers s fun s c => (s.overtake c x.1).l1Inv c x.1 x.2
    s.updTeam t fun tm => { tm with stream := some { st with stored := [] } }
/-- An MST byte lands in a TRACKED line. -/
def State.mstNote (s : State) (t line : Nat) (b : ByteMask) : State :=
  s.updTeam t fun tm => { tm with stream := tm.stream.map fun st =>
    { st with stored := amapSet 0 st.stored line (amapGet 0 st.stored line ||| b) } }

/-- What an acquire of cluster scope or wider does to its core's L1 (R31, R76, R83, R114): clean PRIV lines are
dropped; at system scope every clean line that is not RO. (DEDUCED, log 48.) -/
def State.acquireDrop (s : State) (c : Nat) (sys : Bool) : State :=
  s.dropClean c fun l => l.cls = .priv || (sys && l.cls ≠ .ro)

/-- An acquire: its drops, then the region it ends. -/
def State.acquireDone (s : State) (c : Nat) (sys : Bool) : State := (s.acquireDrop c sys).regionEnd c false

/-! ## Atomic updates (R232, R233, R331) -/

/-- An integer update of `n` bytes. -/
def intUpdate (n : Nat) (sgn : Bool) (op : AtOp) (old a : Nat) : Nat :=
  let w := 8 * n
  let x := BitVec.ofNat w old
  let y := BitVec.ofNat w a
  let lt : Bool := if sgn then decide (y.toInt < x.toInt) else decide (y.toNat < x.toNat)
  let gt : Bool := if sgn then decide (y.toInt > x.toInt) else decide (y.toNat > x.toNat)
  match op with
  | .add => (x + y).toNat
  | .min => if lt then y.toNat else x.toNat
  | .max => if gt then y.toNat else x.toNat
  | .and => (x &&& y).toNat
  | .or => (x ||| y).toNat
  | .xor => (x ^^^ y).toNat
  | .exch => y.toNat

/-- One float element: FPM is ignored, RNE, canonical NaNs (R233). -/
def fltUpdate1 (k : FFmt) (op : FRedOp) (x y : Nat) : Nat :=
  match op with
  | .add => (fAdd k 0 .rne (k.decode x) (k.decode y)).1
  | .min => (fMinMax k 0 false (k.decode x) (k.decode y)).1
  | .max => (fMinMax k 0 true (k.decode x) (k.decode y)).1
/-- A float update: both halves of a packed word. -/
def fltUpdate (ft : FTy) (op : FRedOp) (x y : Nat) : Nat :=
  let k := fmtOf ft
  if ft = .f32 then fltUpdate1 k op x y
  else fltUpdate1 k op (x % 2 ^ 16) (y % 2 ^ 16) + 2 ^ 16 * fltUpdate1 k op (x / 2 ^ 16) (y / 2 ^ 16)

/-- The new value of an update, or none where it writes nothing (a CAS that finds another value). -/
def AOp.update (op : AOp) (n old data cmp : Nat) : Option Nat :=
  match op with
  | .atom (.int _ sgn o) _ => some (intUpdate n sgn o old data)
  | .atom (.cas _) _ | .cas16 _ | .satomCas _ => if old = cmp then some data else none
  | .atom (.flt ft o) _ => some (fltUpdate ft o old data)
  | .satom (.int o) _ sgn => some (intUpdate n sgn o old data)
  | .satom .fadd _ _ => some (fltUpdate .f32 .add old data)
  | .store | .stl => some data
  | _ => none

/-- Whether the operation is an atomic update. -/
def AOp.isAtom (op : AOp) : Bool :=
  match op with
  | .atom _ _ | .cas16 _ | .satom _ _ _ | .satomCas _ => true
  | _ => false
/-- Whether it writes, for translation and watch ranges. -/
def AOp.writes (op : AOp) : Bool := op.isAtom || (match op with
  | .store | .stl => true
  | _ => false)
/-- Whether it reads. -/
def AOp.reads (op : AOp) : Bool := op.isAtom || (match op with
  | .load _ | .lda _ => true
  | _ => false)
def AOp.ord (op : AOp) : Ord3 :=
  match op with
  | .atom _ o | .cas16 o => o
  | .lda _ => .acq
  | .stl => .rel
  | _ => .none
/-- Sign extension of a loaded value to a register. -/
def AOp.extend (op : AOp) (n v : Nat) : Nat :=
  match op with
  | .load true | .lda true => if n < 4 && v / 2 ^ (8 * n - 1) % 2 = 1 then v + 2 ^ 32 - 2 ^ (8 * n) else v
  | _ => v
/-- What the class checks ask of it (R31). -/
def AOp.need (op : AOp) : Need :=
  match op.ord with
  | .none => if op.isAtom then .atomic else .plain
  | _ => .sync

end Sys2Proof.Machine
end

