-- ==== Sys2Proof/Machine/Convert.lean ====
section
/-! DEFINITION. Conversions (11_numbers, R218 to R221). -/

namespace Sys2Proof.Machine

/-! ## CVT (R218) -/

/-- The floating format of a CVT type. -/
def CvtTy.fmt (t : CvtTy) : Option FFmt :=
  match t with
  | .f32 => some fp32
  | .f16 => some fp16
  | .bf16 => some bf16
  | _ => none
/-- Signedness and width of a CVT integer type. -/
def CvtTy.isSigned (t : CvtTy) : Bool :=
  match t with
  | .i32 | .i64 => true
  | _ => false
def CvtTy.width (t : CvtTy) : Nat :=
  match t with
  | .i64 | .n64 => 64
  | _ => 32

/-- The result of CVT on a 64-bit source pattern: the destination's bits and the exceptions. -/
def cvtFn (dst src : CvtTy) (hi sat : Bool) (rnd : Rnd) (fpm : Word) (a : DWord) : Nat × FFlags :=
  let r := fpmRnd fpm rnd
  let sg := CvtTy.isSigned dst
  let w := CvtTy.width dst
  let wrap (x : Int) : Nat := (BitVec.ofInt w x).toNat
  match CvtTy.fmt src, CvtTy.fmt dst with
  | none, none =>
    let x : Int := if CvtTy.width src = 64 then (if CvtTy.isSigned src then a.toInt else a.toNat)
      else (if CvtTy.isSigned src then (a.setWidth 32).toInt else (a.setWidth 32).toNat)
    (wrap (if sat then satInt sg w x else x), 0)
  | none, some k =>
    let x : Int := if CvtTy.width src = 64 then (if CvtTy.isSigned src then a.toInt else a.toNat)
      else (if CvtTy.isSigned src then (a.setWidth 32).toInt else (a.setWidth 32).toNat)
    encodeVal k r (fpmFo fpm k) (FVal.ofInt x)
  | some f, k? =>
    let bits := a.toNat / (if hi then 2 ^ 16 else 1) % 2 ^ (1 + f.e + f.f)
    let x := flushIn f (fpmFi fpm f) (f.decode bits)
    match k? with
    | some k => fResult k fpm r [x] false (some x)
    | none =>
      match x with
      | .nan _ _ _ => (0, flInv)
      | .inf n => (wrap (satInt sg w (if n then -(2 ^ 64 : Int) else 2 ^ 64)), flInv)
      | .fin n m e =>
        let v : Int := (if n then -1 else 1) * (integral r n m e : Int)
        let t := satInt sg w v
        (wrap t, if t = v then 0 else flInv)

/-- The pattern of a CVT source: an immediate is converted to the source type (R10). -/
def cvtSrc (src : CvtTy) (s : State) (i : Iss) (l : Nat) (x : Src) : DWord :=
  match src with
  | .f32 => (srcF .f32 s i l x).setWidth 64
  | .f16 => (srcF .f16x2 s i l x).setWidth 64
  | .bf16 => (srcF .bf16x2 s i l x).setWidth 64
  | .i64 => src64 s i l x true
  | .n64 => src64 s i l x false
  | _ => (src32 s i l x).setWidth 64

def execCvt (o : Ops) (dst src : CvtTy) (sc hi sat : Bool) (rnd : Rnd) (s : State) : Out :=
  let nd := CvtTy.width dst / 32
  fpIssue sc o (o.uses (CvtTy.width src / 32) 0 0 nd sc) false (fun s i l fpm =>
    let r := cvtFn dst src hi sat rnd fpm (cvtSrc src s i l o.a)
    (toWords nd r.1, r.2)) s

/-! ## CVQ and CVX (R219 to R221) -/

/-- A narrow element format (Table 08-4). -/
inductive ElemFmt where
  | flt (k : FFmt)
  | int8
  deriving DecidableEq, Repr

/-- ELEM of a slot; none for 0000 and codes that no slot holds. -/
def elemFmt (code : Nat) : Option ElemFmt :=
  match code with
  | 1 => some (.flt fp16)
  | 2 => some (.flt bf16)
  | 3 => some (.flt e4m3)
  | 4 => some (.flt e5m2)
  | 5 => some (.flt e2m1)
  | 6 => some .int8
  | 7 => some (.flt fp32)
  | _ => none

/-- The slots of a launch and their fields (Table 08-4). -/
def Record.slot (r : Record) (n : Nat) : BitVec 128 := r.slots.getD n 0
def slotElem (x : BitVec 128) : Nat := bitField 17 14 x.toNat
def slotTscale (x : BitVec 128) : Nat := bitField 127 96 x.toNat
def slotSbase (x : BitVec 128) : Nat := 4 * bitField 95 41 x.toNat
def slotStride (x : BitVec 128) : Nat := bitField 40 21 x.toNat
def slotLayout (x : BitVec 128) : Nat := bitField 20 18 x.toNat

/-- Whether a slot suits a conversion of `n` elements (R219). (DEDUCED, log 58.) -/
def slotSuits (n code : Nat) : Bool :=
  if n = 2 then code = 1 || code = 2 else if n = 4 then code = 3 || code = 4 || code = 6 else code = 5

/-- The largest finite value and Low of Table 11-10, as encodings. -/
def ElemFmt.top (f : ElemFmt) (neg : Bool) : Nat :=
  match f with
  | .flt k => k.maxBits neg
  | .int8 => if neg then 0x80 else 0x7F

/-- Quantise a value that is neither NaN nor divided by a bad scale: `q` is the quotient, `infinite` that
the element was infinite. -/
def quantElem (f : ElemFmt) (satf infinite neg : Bool) (q : FVal) : Nat × FFlags :=
  let out : Nat × Bool := match f with
    | .flt k => if (satf || k == e2m1) then (k.maxBits neg, false)
                else if k.inf then (k.infBits neg, true) else (k.nan, false)
    | .int8 => (f.top neg, false)
  if infinite then (out.1, if out.2 then 0 else flInv) else
  match q with
  | .fin n m e =>
    match f with
    | .flt k =>
      let r := roundTo k .rne false n m e
      if r.2.getLsbD 2 then (out.1, flOvf ||| flInx) else r
    | .int8 =>
      let i := roundAt .rne n m e 0
      let v : Int := (if n then -1 else 1) * (i.1 : Int)
      if v < -128 ∨ 127 < v then (out.1, flOvf ||| flInx)
      else ((BitVec.ofInt 8 v).toNat, if i.2 then flInx else 0)
  | _ => (out.1, 0)

/-- One element of CVQ (R220). -/
def cvqElem (f : ElemFmt) (satf : Bool) (x sc : FVal) : Nat × FFlags :=
  let bad : Nat := match f with
    | .flt k => k.nan
    | .int8 => 0
  match x, sc with
  | .nan _ _ _, _ => (bad, flInv)
  | x, .fin false (sm + 1) se =>
    match x with
    | .fin n m e => quantElem f satf false n (if m = 0 then .fin n 0 0 else divV n m e (sm + 1) se)
    | x => quantElem f satf true x.neg x
  | _, _ => (bad, flInv)

/-- Pack elements of `w` bits from bit 0 upward (R202). -/
def packElems (w : Nat) : List Nat → Nat
  | [] => 0
  | x :: xs => x + 2 ^ w * packElems w xs
/-- Unpack `n` elements. -/
def unpackElems (w : Nat) : Nat → Nat → List Nat
  | 0, _ => []
  | n + 1, x => x % 2 ^ w :: unpackElems w n (x / 2 ^ w)

/-- The format of a conversion's slot, where it suits (R133, R219). -/
def cvFmt (s : State) (t n slot : Nat) : Option ElemFmt :=
  let code := slotElem ((s.lr t).slot slot)
  if slotSuits n code then elemFmt code else none

/-- CVQ of one lane into a format: `n` elements packed in one word. -/
def cvqWords (n : Nat) (f : ElemFmt) (satf : Bool) (s : State) (i : Iss) (l : Nat) (fpm : Word) : List Word × FFlags :=
  let xs : List Nat := match i.o.a with
    | .v k => (List.range n).map fun j => (s.readV i.t i.g l (k.toNat + j)).toNat
    | x => (toWords 2 (src64 s i l x false).toNat).map (·.toNat)
  let sc := flushIn fp32 (fpmFi fpm fp32) (fp32.decode (srcF .f32 s i l i.o.b).toNat)
  let rs := xs.map fun x => cvqElem f satf (flushIn fp32 (fpmFi fpm fp32) (fp32.decode x)) sc
  ([BitVec.ofNat 32 (packElems (32 / n) (rs.map (·.1)))], rs.foldl (fun fl r => fl ||| r.2) 0)

def cvqIssue (n : Nat) (o : Ops) (satf : Bool) (slot : BitVec 3) (s : State) : Out :=
  vecIssue o (o.uses n 1 0 1 false) true (fun s i l =>
    match cvFmt s i.t n slot.toNat with
    | none => { trap := some { cause := .illegalOperand } }
    | some f => fpLane o.d (s.thread i.t i.g l).fpm (cvqWords n f satf s i l (s.thread i.t i.g l).fpm)) s

def execCvq2 (o : Ops) (satf : Bool) (slot : BitVec 3) (s : State) : Out := cvqIssue 2 o satf slot s
def execCvq4 (o : Ops) (satf : Bool) (slot : BitVec 3) (s : State) : Out := cvqIssue 4 o satf slot s
def execCvq8 (o : Ops) (slot : BitVec 3) (s : State) : Out := cvqIssue 8 o false slot s

/-- The value of an element. -/
def ElemFmt.value (f : ElemFmt) (x : Nat) : FVal :=
  match f with
  | .flt k => k.decode x
  | .int8 => FVal.ofInt (BitVec.ofNat 8 x).toInt

/-- One element of CVX (R221): NaN results are canonical. -/
def cvxElem (fpm : Word) (v sc : FVal) : Nat × FFlags :=
  if v.isNan || sc.isNan then (fp32.nan, if v.isSig || sc.isSig then flInv else 0) else
  match mulV v sc with
  | none => (fp32.nan, flInv)
  | some p => encodeVal fp32 .rne (fpmFo fpm fp32) p

/-- CVX of one lane from a format: `n` elements of one word, a word each. -/
def cvxWords (n : Nat) (f : ElemFmt) (s : State) (i : Iss) (l : Nat) (fpm : Word) : List Word × FFlags :=
  let sc := flushIn fp32 (fpmFi fpm fp32) (fp32.decode (srcF .f32 s i l i.o.b).toNat)
  let rs := (unpackElems (32 / n) n (src32 s i l i.o.a).toNat).map fun x => cvxElem fpm (f.value x) sc
  (rs.map fun r => BitVec.ofNat 32 r.1, rs.foldl (fun fl r => fl ||| r.2) 0)

def cvxIssue (n : Nat) (o : Ops) (slot : BitVec 3) (s : State) : Out :=
  vecIssue o (o.uses 1 1 0 n false) true (fun s i l =>
    match cvFmt s i.t n slot.toNat with
    | none => { trap := some { cause := .illegalOperand } }
    | some f => fpLane o.d (s.thread i.t i.g l).fpm (cvxWords n f s i l (s.thread i.t i.g l).fpm)) s

def execCvx2 (o : Ops) (slot : BitVec 3) (s : State) : Out := cvxIssue 2 o slot s
def execCvx4 (o : Ops) (slot : BitVec 3) (s : State) : Out := cvxIssue 4 o slot s
def execCvx8 (o : Ops) (slot : BitVec 3) (s : State) : Out := cvxIssue 8 o slot s

end Sys2Proof.Machine
end

