-- ==== Sys2Proof/Machine/Texel.lean ====
section
/-! DEFINITION. Exact quotients, pixel formats, blending and the transfer function of sRGB (R317, R322, R329): the
arithmetic of the rasteriser, of the bank raster units and of textures. -/

namespace Sys2Proof.Machine

/-! ## Exact quotients -/

/-- The number `n / d * 2^e`, with `d` not 0. -/
structure Q where
  n : Int
  d : Nat := 1
  e : Int := 0
  deriving DecidableEq, Repr

def Q.ofInt (n : Int) : Q := { n := n }
/-- A finite value. -/
def Q.ofF (v : FVal) : Q :=
  match v with
  | .fin s m e => { n := if s then -(m : Int) else m, e := e }
  | _ => { n := 0 }
/-- The number of a finite binary32 word. -/
def Q.ofWord (w : Word) : Q := Q.ofF (fp32.decode w.toNat)
def Q.add (x y : Q) : Q :=
  let e := min x.e y.e
  { n := x.n * 2 ^ (x.e - e).toNat * y.d + y.n * 2 ^ (y.e - e).toNat * x.d, d := x.d * y.d, e := e }
def Q.neg (x : Q) : Q := { x with n := -x.n }
def Q.sub (x y : Q) : Q := x.add y.neg
def Q.mul (x y : Q) : Q := { n := x.n * y.n, d := x.d * y.d, e := x.e + y.e }
/-- A quotient by a number that is not 0. -/
def Q.div (x y : Q) : Q :=
  { n := x.n * y.d * (if y.n < 0 then -1 else 1), d := x.d * y.n.natAbs, e := x.e - y.e }
def Q.sum (l : List Q) : Q := l.foldl Q.add (Q.ofInt 0)
/-- The sign of a difference. -/
def Q.cmp (x y : Q) : Int := (x.sub y).n.sign
/-- The largest integer not above. -/
def Q.floor (x : Q) : Int := if 0 ≤ x.e then (x.n * 2 ^ x.e.toNat) / x.d else x.n / (x.d * 2 ^ (-x.e).toNat : Nat)
/-- The nearest integer, to even in the middle. -/
def Q.nearest (x : Q) : Int :=
  let f := x.floor
  match (x.sub (Q.ofInt f)).cmp { n := 1, e := -1 } with
  | .negSucc _ => f
  | .ofNat 0 => if f % 2 = 0 then f else f + 1
  | _ => f + 1
/-- Rounded to binary32, RNE: the lowest bit stands for a remainder. -/
def Q.toF32 (x : Q) : Nat :=
  let sh := x.d.log2 + 64
  let num := x.n.natAbs * 2 ^ sh
  (roundTo fp32 .rne false (decide (x.n < 0)) (2 * (num / x.d) + (if num % x.d = 0 then 0 else 1)) (x.e - sh - 1)).1

/-! ## Pixel formats (Table 03-2, R45, R322) -/

/-- How a channel is stored. -/
inductive Chan where
  | unorm (bits : Nat)
  | srgb
  | f16
  | f32
  | i32
  deriving DecidableEq, Repr

/-- The channels of a format from R on: the first bit and the kind. -/
def chansOf (fmt : Nat) : List (Nat × Chan) :=
  match fmt with
  | 0x0 => [(0, .unorm 8)]
  | 0x1 => [(0, .f16), (16, .f16)]
  | 0x2 => [(0, .f16), (16, .f16), (32, .f16), (48, .f16)]
  | 0x3 => [(0, .f32)]
  | 0x4 => [(0, .f32), (32, .f32), (64, .f32), (96, .f32)]
  | 0x5 => [(0, .unorm 8), (8, .unorm 8), (16, .unorm 8), (24, .unorm 8)]
  | 0x6 => [(0, .srgb), (8, .srgb), (16, .srgb), (24, .unorm 8)]
  | 0x7 => [(0, .unorm 10), (10, .unorm 10), (20, .unorm 10), (30, .unorm 2)]
  | 0x8 => [(0, .i32)]
  | _ => []
def Chan.bits : Chan → Nat
  | .unorm n => n
  | .srgb => 8
  | .f16 => 16
  | .f32 | .i32 => 32

/-- The largest `r` with `r^5 <= x`, by bits. -/
def root5Go : Nat → Nat → Nat → Nat
  | 0, _, r => r
  | b + 1, x, r => if (r + 2 ^ b) ^ 5 ≤ x then root5Go b x (r + 2 ^ b) else root5Go b x r

/-- Decode an 8-bit sRGB value through the transfer function of IEC 61966-2-1, rounded to binary32: c/12.92 up to
0.04045, else ((c + 0.055)/1.055)^2.4, whose fifth power is a twelfth power. -/
def srgbDecode (n : Nat) : Nat :=
  if n * 100000 ≤ 255 * 4045 then ({ n := n * 100, d := 255 * 1292 } : Q).toF32
  else
    let num := (200 * n + 11 * 255) ^ 12
    let den := (211 * 255) ^ 12
    let x := num * 2 ^ 320 / den
    let r := root5Go 66 x 0
    (roundTo fp32 .rne false false (2 * r + (if r ^ 5 * den = num * 2 ^ 320 then 0 else 1)) (-65)).1

/-- Encode a number from 0 to 1: 12.92 x up to 0.0031308, else 1.055 x^(1/2.4) - 0.055, to a multiple of 1/255.
(DEDUCED, log 88.) -/
def srgbEncode (x : Q) : Nat :=
  if (x.cmp { n := 31308, d := 10000000 }) ≤ 0 then ((x.mul { n := 1292 * 255, d := 100 }).nearest).toNat
  else
    let p5 := x.mul (x.mul (x.mul (x.mul x)))
    ((List.range 255).filter fun (k : Nat) =>
      let t : Int := ((200 * (2 * k + 1) + 2 * 11 * 255 : Nat) : Int)
      decide ((({ n := t ^ 12, d := (2 * 211 * 255) ^ 12 } : Q).cmp p5) < 0)).length

/-- A stored channel as binary32. -/
def Chan.load (c : Chan) (x : Nat) : Nat :=
  match c with
  | .unorm n => ({ n := x, d := 2 ^ n - 1 } : Q).toF32
  | .srgb => srgbDecode x
  | .f16 => (encodeVal fp32 .rne false (fp16.decode x)).1
  | .f32 => x
  | .i32 => (encodeVal fp32 .rne false (FVal.ofInt (BitVec.ofNat 32 x).toInt)).1

/-- A binary32 clamped to [0, 1]; none for a NaN. -/
def clamp01 (x : Nat) : Option Q :=
  match fp32.decode x with
  | .nan _ _ _ => none
  | v => if v.neg then some (Q.ofInt 0) else if cmpV v (.fin false 1 0) > 0 then some (Q.ofInt 1) else some (Q.ofF v)

/-- A binary32 as a channel stores it (R322). (DEDUCED, log 88.) -/
def Chan.store (c : Chan) (x : Nat) : Nat :=
  match c with
  | .unorm n => match clamp01 x with
    | none => 0
    | some v => (v.mul (Q.ofInt (2 ^ n - 1))).nearest.toNat
  | .srgb => match clamp01 x with
    | none => 0
    | some v => srgbEncode v
  | .f16 => (encodeVal fp16 .rne false (fp32.decode x)).1
  | .f32 => x
  | .i32 => (cvtFn .i32 .f32 false false .rne 0 (BitVec.ofNat 64 x)).1

/-- binary32 1. -/
def oneF32 : Nat := 0x3F800000

/-- A pixel or texel as binary32 R, G, B, A; a missing channel is 0, 0 or 1 (R322). -/
def pixelLoad (fmt x : Nat) : List Nat :=
  let cs := (chansOf fmt).map fun c => c.2.load (x / 2 ^ c.1 % 2 ^ c.2.bits)
  (List.range 4).map fun k => cs.getD k (if k = 3 then oneF32 else 0)

/-- Store the enabled channels of `out` into the bits of a pixel. `mask` bit `k` enables channel `k`. -/
def pixelStore (fmt old : Nat) (mask : Nat → Bool) (out : List Nat) : Nat :=
  (numbered 0 (chansOf fmt)).foldl (fun x c =>
    if mask c.1 then
      let lo := c.2.1
      let n := c.2.2.bits
      x - x / 2 ^ lo % 2 ^ n * 2 ^ lo + c.2.2.store (out.getD c.1 0) % 2 ^ n * 2 ^ lo
    else x) old

/-! ## Blending (R322, Table 17-2) -/

/-- A blend factor, exact: `s` and `d` are the channel's values, `sa` and `da` the alphas. -/
def blendFactor (code : Nat) (s d sa da : FVal) : Option FVal :=
  let one : FVal := .fin false 1 0
  let v : FVal := match code / 2 with
    | 0 => if code = 0 then .fin false 0 0 else one
    | 1 => s
    | 2 => sa
    | 3 => d
    | _ => da
  if code < 2 || code % 2 = 0 then some v else sumV .rne [one, v.signed false true]

/-- A product rounded to binary32; an invalid one is the canonical NaN. -/
def blendMul (x : FVal) (f : Option FVal) : FVal :=
  match f.bind (mulV x) with
  | none => .nan false false 0
  | some v => fp32.decode (encodeVal fp32 .rne false v).1

/-- One channel of the blend: operation, factors, source and destination. -/
def blendChannel (op : Nat) (fs fd : Option FVal) (s d : FVal) : Nat :=
  let sum (x y : FVal) : Nat := match sumV .rne [x, y] with
    | none => fp32.nan
    | some v => (encodeVal fp32 .rne false v).1
  let p := blendMul s fs
  let q := blendMul d fd
  match op with
  | 0 => sum p q
  | 1 => sum p (q.signed false true)
  | 2 => sum q (p.signed false true)
  | 3 => (fMinMax fp32 0 false s d).1
  | _ => (fMinMax fp32 0 true s d).1

/-- Blend a source and a destination pixel under a target's word (Table 17-1). -/
def blendPixel (w : Nat) (src dst : List Nat) : List Nat :=
  let f (l : List Nat) (k : Nat) : FVal := fp32.decode (l.getD k 0)
  (List.range 4).map fun k =>
    let lo := if k = 3 then (44, 40, 37) else (55, 51, 48)
    let s := f src k
    let d := f dst k
    blendChannel (bitField (lo.2.2 + 2) lo.2.2 w)
      (blendFactor (bitField (lo.1 + 3) lo.1 w) s d (f src 3) (f dst 3))
      (blendFactor (bitField (lo.2.1 + 3) lo.2.1 w) s d (f src 3) (f dst 3)) s d

/-! ## Texture results (R330) -/

/-- BORDER's colour as binary32. -/
def borderColour (code : Nat) : List Nat :=
  match code with
  | 0 => [0, 0, 0, 0]
  | 1 => [0, 0, 0, oneF32]
  | _ => [oneF32, oneF32, oneF32, oneF32]

/-- A weighted sum over `den` of binary32 values, exact and rounded RNE once. A value of weight 0 takes no part. -/
def weighted (den : Nat) (l : List (Nat × Nat)) : Nat :=
  let vs := (l.filter (·.1 ≠ 0)).map fun x => (x.1, fp32.decode x.2)
  if vs.any (fun x => x.2.isNan) then fp32.nan else
  match vs.find? (fun x => x.2.isInf) with
  | some x => if vs.any (fun y => y.2.isInf && y.2.neg != x.2.neg) then fp32.nan else fp32.infBits x.2.neg
  | none => ((Q.sum (vs.map fun x => (Q.ofF x.2).mul (Q.ofInt x.1))).div (Q.ofInt den)).toF32

/-- The four words of a gathered result: TEXLD's texel without filter, C1I32 as its raw bits, or the channels filtered (R330). -/
def TexOp.result (x : TexOp) : List Word :=
  let px := x.texels.map fun t => (t.1, t.2.getD 0)
  if x.raw then
    match px with
    | [] => [0, 0, 0, 0]
    | t :: _ => if x.fmt = 8 then [BitVec.ofNat 32 t.2, 0, 0, 0] else (pixelLoad x.fmt t.2).map (BitVec.ofNat 32)
  else
    let cs := (x.border, borderColour x.bcode) :: px.map fun t => (t.1, pixelLoad x.fmt t.2)
    (List.range 4).map fun k => BitVec.ofNat 32 (weighted x.den (cs.map fun c => (c.1, c.2.getD k 0)))

end Sys2Proof.Machine
end

