-- ==== Sys2Proof/Machine/Access.lean ====
section
/-! DEFINITION. The V path (R80, R84, R86, R224, R398, R400): how one access of a thread starts, how it is
performed at its home, and how it finishes or fails. -/

namespace Sys2Proof.Machine

/-- How an access stands once it has started: performed with a value, in flight, trapped, or a lodging breach. -/
inductive AStat where
  | done (v : Nat)
  | pend
  | trap (t : Trap)
  | breach (level : Nat)
  deriving DecidableEq, Repr

/-- Put an access in flight under a new identifier. -/
def State.accNew (s : State) (a : Access) : Nat × State :=
  (s.uid, { s with uid := s.uid + 1, accs := amapInsert s.accs s.uid a })
/-- Put an access in flight under the identifier that it has already, or a new one. -/
def State.accPut (s : State) (id : Option Nat) (a : Access) : Nat × State :=
  match id with
  | some k => (k, { s with accs := amapInsert s.accs k a })
  | none => s.accNew a
/-- Send a message. (DEDUCED, log 108.) -/
def State.send (s : State) (i : Instr) : State := { s with msgs := s.msgs ++ [i] }

/-- The bytes of its line that an access touches. -/
def Access.bytes (a : Access) : ByteMask := byteMask (a.va % 128) a.n
def Access.pline (a : Access) : Nat := a.pa / 128

def AOp.isStore (op : AOp) : Bool := op == .store

/-- POISON with the unit's physical address (R344). -/
def poisonTrap (va pa : Nat) : Trap := { cause := .poison, addr := va, info := pa / 64 * 64 }

/-! ## Watch ranges (R369) -/

/-- The first watch range of a space that bytes lie in. -/
def State.watchHit (s : State) (space va n : Nat) (rd wr : Bool) : Option Nat :=
  (List.range 8).find? fun k => s.watchIn space k va n rd wr
/-- The bytes of an access: those of a wide PRIVATE one lie 4 B by 4 B, 128 B apart (R28). -/
def Access.spans (a : Access) : List (Nat × Nat) :=
  if a.pieces then (List.range (a.n / 4)).map fun k => (a.va + 128 * k, 4) else [(a.va, a.n)]
/-- The first watch range of its space that an access hits. -/
def State.watchAcc (s : State) (a : Access) : Option Nat :=
  (List.range 8).find? fun k => a.spans.any fun x => s.watchIn a.space k x.1 x.2 a.op.reads a.op.writes

/-! ## Hits in L1 (Table 05-2) -/

/-- A load that hits: its bytes, unless a unit that holds one is poisoned (R61). -/
def State.l1LoadHit (s : State) (a : Access) (l : L1Line) : AStat × State :=
  let off := a.va % 128
  if l.poison.getLsbD (off / 64) then (.trap (poisonTrap a.va (128 * l.pline + off)), s) else
  (.done (lineRead l.data off a.n),
   if l.cls = .tracked then s.l1Mark a.core l false a.bytes else s.l1Put a.core l)

/-- A store with which its instruction has written all 64 B of a unit (R61) carries 1 in `cmp`. (DEDUCED, log 11.) -/
def Access.whole (a : Access) : Bool := a.op == .store && a.cmp == 1
/-- Such a store, performed at the home, clears the unit's poison. -/
def State.unitStored (s : State) (a : Access) : State := if a.whole then s.unitWritten (a.pa / 64) else s

/-- A store that is performed in L1; `im` records the granted intent. -/
def State.l1StoreHit (s : State) (a : Access) (l : L1Line) (im : Bool) : State :=
  let off := a.va % 128
  let b := a.bytes
  let s := if l.cls = .tracked then s.l1Mark a.core l true b else s
  match (s.core a.core).l1Find l.space l.vline with
  | none => s
  | some l => s.l1Put a.core { l with
      data := lineWrite l.data off a.n a.data
      bv := l.bv ||| b
      dm := l.dm ||| b
      poison := if a.whole then l.poison &&& ~~~ BitVec.ofNat 2 (2 ^ (off / 64)) else l.poison
      im := if im then l.im ||| b else l.im }

/-- A shared line's store without intent (Table 05-2): INTENT to the home; the thread issues nothing more. -/
def State.sendIntent (s : State) (id : Nat) (a : Access) : State :=
  s.send (.intent a.core a.pline a.bytes (s.core a.core).epoch id)

/-- A page in the FLIPPING state (R397). (DESIGN CHOICE, log 92.) -/
def State.flipping (s : State) (pa : Nat) : Bool := s.bias.busy && s.bias.page == pa / 4096

/-- Try L1: none where its page is being flipped, or where the access must be translated (R107: a hit is neither translated
nor range-checked). `id`: the identifier of an access in flight already. -/
def State.tryL1 (s : State) (id : Option Nat) (a : Access) : Option (AStat × State) :=
  match (s.core a.core).l1Find a.space (a.va / 128) with
  | none => none
  | some l =>
    let b := a.bytes
    if s.flipping (128 * l.pline) then none else
    match a.op with
    | .load _ => if b &&& ~~~ l.bv = 0 && b &&& l.fd = 0 then some (s.l1LoadHit a l) else none
    | .store =>
      if !l.w then none else
      match l.cls with
      | .priv => some (.done 0, s.l1StoreHit a l false)
      | .tracked =>
        if l.sole || (b &&& ~~~ l.im = 0 && b &&& l.fd = 0) then some (.done 0, s.l1StoreHit a l false)
        else
          let a := { a with pa := 128 * l.pline + a.va % 128, cls := .tracked, key := l.key, lw := l.w }
          let r := s.accPut id a
          some (.pend, r.2.sendIntent r.1 a)
      | _ => none
    | _ => none

/-! ## Starting an access -/

/-- The marker in `snoops` of an access that waits for a bias flip to end (R397).
(DESIGN CHOICE, log 93; DESIGN CHOICE, log 105.) -/
def flipWait : Nat := 2 ^ 60
/-- The marker of an access in host bias that waits for the BIRspI of its unit (R398).
(DESIGN CHOICE, log 93; DESIGN CHOICE, log 105.) -/
def biasMark (u : Nat) : Nat := 2 ^ 59 + u
/-- The marker of an access that waits for its walk (R98). (DESIGN CHOICE, log 105.) -/
def walkWait : Nat := 2 ^ 62

/-- Before an atomic executes at the home, the issuing core's own dirty bytes of the word go there and its
copy of them is dropped. (DEDUCED, log 49.) -/
def State.flushOwn (s : State) (a : Access) : State :=
  match (s.core a.core).l1Phys a.pline with
  | none => s
  | some l =>
    let b := byteMask (a.pa % 128) a.n
    let s := s.mergeLine { l with dm := l.dm &&& b }
    s.l1Each a.core fun x => if x.is l.space l.vline then some { x with dm := x.dm &&& ~~~ b, bv := x.bv &&& ~~~ b } else some x

/-- A fill of a line that no INV or RECALL has overtaken is in flight for a core (state F of Table 05-2). -/
def State.lineFilling (s : State) (c line : Nat) : Bool :=
  s.accs.any fun kv => kv.2.core = c && kv.2.pline = line && kv.2.filling && !kv.2.once
/-- Send an access's FILL for the bytes that the core lacks: none for a store (Table 05-2). -/
def State.sendFill (s : State) (id : Nat) (a : Access) : State :=
  let want : ByteMask := if a.op = .store then 0 else match (s.core a.core).l1Tracked a.pline with
    | some l => a.bytes &&& (~~~ l.bv ||| l.fd)
    | none => a.bytes
  { s with accs := amapInsert s.accs id { a with filling := true, rides := false, once := false } }.send (.fill a.core a.pline want id)
/-- A TRACKED access that L1 does not serve: its own FILL, or, where the line is absent and being filled, with that. -/
def State.startFill (s : State) (id : Nat) (a : Access) : State :=
  if ((s.core a.core).l1Tracked a.pline).isNone && s.lineFilling a.core a.pline then
    { s with accs := amapInsert s.accs id { a with rides := true, filling := false, once := false } }
  else s.sendFill id a

/-- Carry on with a translated access by its page class (R33, R35 to R37). (DESIGN CHOICE, log 119.) -/
def State.byClass (s : State) (id : Option Nat) (a : Access) (p : Phys) : AStat × State :=
  match a.cls with
  | .priv | .ro =>
    let s := s.l1Retag a.core a.space (a.va / 128) p
    match s.tryL1 id a with
    | some r => r
    | none =>
      let s := s.l1FillPlain a.core a.space (a.va / 128) p
      match s.tryL1 id a with
      | some r => r
      | none => (.done 0, s)
  | .tracked =>
    if a.op.isAtom then
      let s := s.flushOwn a
      let r := s.accPut id a
      (.pend, r.2.send (.hop r.1))
    else
      let s := s.l1Retag a.core a.space (a.va / 128) p
      match s.tryL1 id a with
      | some r => r
      | none =>
        let r := s.accPut id a
        (.pend, r.2.startFill r.1 a)
  | .home =>
    let r := s.accPut id a
    (.pend, r.2.send (.hop r.1))
  | .repl =>
    let r := s.accPut id a
    (.pend, r.2.send (if a.op = .store then .rstore r.1 else .hop r.1))

/-- Carry on once the address is translated: the H path, a page being flipped, host bias, or the class. -/
def State.afterXlate (s : State) (id : Option Nat) (a : Access) (p : Phys) : AStat × State :=
  let a := { a with pa := p.pa, cls := p.cls, key := p.key, h := p.h, lw := p.w, snoops := [] }
  if p.h then (.pend, (s.accPut id a).2)
  else if s.flipping p.pa then (.pend, (s.accPut id { a with snoops := [flipWait] }).2)
  else if s.hostBias p.pa then (.pend, (s.accPut id { a with snoops := [biasMark (p.pa / 64)] }).2)
  else s.byClass id a p

/-- A lower lane's store of the same instruction waits for its walk: stores of one instruction keep the order of the lanes, by whatever
page each reaches its bytes (R224, R234). -/
def State.walkBehind (s : State) (id : Option Nat) (a : Access) : Bool :=
  a.op.writes && s.accs.any fun kv =>
    kv.2.snoops.contains walkWait && kv.2.op.writes && kv.2.pc == a.pc && id.all (fun k => decide (kv.1 < k)) &&
    (match kv.2.who, a.who with
      | .thread t g l, .thread t' g' l' => t == t' && g == g' && decide (l < l')
      | _, _ => false)

/-- Start an access of a thread of launch `la` (R224): L1, then translation, lodging and class checks. A miss waits for its
walk (R98). -/
def State.startAt (s : State) (id : Option Nat) (la : Nat) (a : Access) : AStat × State :=
  if s.walkBehind id a then (.pend, (s.accPut id { a with snoops := [walkWait] }).2) else
  match s.tryL1 id a with
  | some r => r
  | none =>
    let kind : AccKind := if a.op.writes then .write else .read
    match s.translate (coreWing a.core) la .vtlb a.va kind a.op.need none with
    | (.wait, s) => (.pend, (s.accPut id { a with snoops := [walkWait] }).2)
    | (.trap t, s) => (.trap t, s)
    | (.breach l, s) => (.breach l, s)
    | (.ok p, s) => s.afterXlate id a p
def State.startAcc (s : State) (la : Nat) (a : Access) : AStat × State := s.startAt none la a

/-! ## Finishing and failing -/

/-- Every texel of a gathered result has been read: the result is on its way, with its watch trap due. -/
def State.texSettle (s : State) (id : Nat) : Option Trap × State :=
  match amapFind? s.texs id with
  | none => (none, s)
  | some x =>
    if x.texels.any (fun y => y.2.isNone) then (none, s) else
    let s := { s with texs := amapErase s.texs id }
    match amapFind? s.pends x.pend with
    | none => (x.watch, s)
    | some p =>
      let regs := (p.regs.zip x.result).map fun y => (y.1.1, y.1.2.1, y.2)
      (x.watch, { s with pends := amapInsert s.pends x.pend { p with regs := regs }
                         later := s.later ++ [Due.ins (.loadResultLand x.pend)] })
/-- A texel arrives at its result. -/
def State.texPut (s : State) (id k v : Nat) : State :=
  match amapFind? s.texs id with
  | none => s
  | some x =>
    let x := { x with texels := (numbered 0 x.texels).map fun y => if y.1 = k then (y.2.1, some v) else y.2 }
    { s with texs := amapInsert s.texs id x }
/-- A watch range that a texel's read hits is kept until the result is whole; the first one stands. -/
def State.texWatch (s : State) (id : Nat) (a : Access) : State :=
  match amapFind? s.texs id, s.watchHit a.space a.va a.n true false with
  | some x, some k =>
    if a.h || x.watch.isSome then s else
    let x := { x with watch := some { cause := .watch, addr := a.va, aux := k } }
    { s with texs := amapInsert s.texs id x }
  | _, _ => s
/-- A gathered result is given up: a texel's read failed. -/
def State.texDrop (s : State) (id : Nat) : State :=
  match amapFind? s.texs id with
  | none => s
  | some x => { s with texs := amapErase s.texs id, pends := amapErase s.pends x.pend }

/-- Deliver a value to an access's destination (R224): a long-latency result. -/
def State.deliver (s : State) (a : Access) (v : Nat) : State :=
  let v := a.op.extend a.n v
  let words (n : Nat) := toWords n v
  match a.who, a.dst with
  | .thread t g l, .vec d n =>
    s.addPend ⟨t, g, false, false, (numbered d (words n)).map fun x => (l, x.1, x.2), []⟩
  | .thread t g _, .scal d n =>
    s.addPend ⟨t, g, false, true, (numbered d (words n)).map fun x => (0, x.1, x.2), []⟩
  | _, .tex id k => s.texPut id k v
  | _, _ => s

/-- A thread met a trap at an access it had issued: it stands at that instruction again (R342). -/
def State.trapAt (s : State) (t g l pc : Nat) (tr : Trap) : State :=
  if (s.thread t g l).stat = .dead then s else
  let s := s.updGroup t g fun gr =>
    ({ gr with threads := amapInsert gr.threads l { gr.thr l with pc := pc, stat := .ready } }).leaveWaits l
  s.takeTrap t g l tr

/-- The lanes that an access in flight concerns. -/
def Access.lanes (a : Access) : List Nat :=
  match a.who with
  | .thread _ _ l => if a.mates.isEmpty then [l] else a.mates
  | _ => []

/-- WATCH follows an access that has been performed (R341, R369). Under a debugger the team stops past it.
(DEDUCED, log 41.) -/
def State.watchAfter (s : State) (a : Access) : State :=
  match a.who with
  | .thread t g l =>
    match a.dst with
    | .tex id _ =>
      match (s.texWatch id a).texSettle id with
      | (none, s) => s
      | (some tr, s) => if s.attached t then s.takeTrap t g l tr else s.trapAt t g l a.pc tr
    | _ =>
    if a.h || 2 ^ 60 ≤ a.va then s else
    match s.watchAcc a with
    | none => s
    | some k =>
      let tr : Trap := { cause := .watch, addr := a.va, aux := k }
      if s.attached t then s.takeTrap t g l tr else forEach a.lanes s fun s l => s.trapAt t g l a.pc tr
  | _ => s

/-- Whether an engine makes the access. -/
def Access.engine (a : Access) : Bool :=
  match a.who with
  | .thread _ _ _ => false
  | _ => true
/-- A byte that an engine's access read is poisoned: the poison goes with the value (R61). -/
def Access.seen (a : Access) (poisoned : Bool) : Access :=
  if a.engine && poisoned && a.op.reads then { a with bad := true } else a

/-- A team is resident or saved. -/
def State.teamLives (s : State) (t : Nat) : Bool :=
  (amapFind? s.teams t).isSome || s.saved.any fun kv => (amapFind? kv.2.teams t).isSome
/-- A unit will still take the answer of its work: nothing takes that of a posted store or a prefetch. -/
def State.unitWanted (s : State) (w : Work) : Bool :=
  match w with
  | .code _ la _ | .report la => !(s.launch la).complete
  | .record t _ _ | .row t _ _ | .template t => s.teamLives t
  | .press ix k => (amapFind? (s.ste ix).frames k).isSome
  | .ring => true
  | .trace | .cache | .prefetch _ => false

/-- An engine's access is answered: it keeps its value until its work goes on, which is due. -/
def State.engAnswer (s : State) (id : Nat) (a : Access) : State :=
  match a.who with
  | .copy c k => if (amapFind? s.copies k).isNone then { s with accs := amapErase s.accs id } else
      { s with accs := amapInsert s.accs id a, later := s.later ++ [.copyElementMove c k] }
  | .stream t c => { s with accs := amapInsert s.accs id a, later := s.later ++ [.commandRetire t c] }
  | .unit w => { s with accs := if s.unitWanted w then amapInsert s.accs id a else amapErase s.accs id }
  | .thread _ _ _ => s

/-- An access in flight completed with a value: it is no longer in flight, its result is on its way, its
watch range is judged. -/
def State.finishAcc (s : State) (id : Nat) (a : Access) (v : Nat) : State :=
  if a.engine then s.engAnswer id { a with value := some v } else
  let s := ({ s with accs := amapErase s.accs id }.deliver a v).watchAfter a
  match a.who with
  | .thread t g _ => s.servedLanes t g a.lanes
  | _ => s

/-- An access in flight failed: precise on its thread (R84, R61). -/
def State.failAcc (s : State) (id : Nat) (a : Access) (tr : Trap) : State :=
  if a.engine then s.engAnswer id { a with value := some 0, fail := some tr } else
  let s := { s with accs := amapErase s.accs id }
  let gone := match a.dst with
    | .tex k _ => (amapFind? s.texs k).isNone
    | _ => false
  if gone then s else
  let s := match a.dst with
    | .tex k _ => s.texDrop k
    | _ => s
  match a.who with
  | .thread t g _ => forEach a.lanes s fun s l => s.trapAt t g l a.pc tr
  | _ => s

/-! ## At the home -/

/-- The line number under which a word's release record is held: an H page's words lie apart. -/
def Access.recLine (a : Access) : Nat := (if a.h then 2 ^ 58 + a.pa else a.pa) / 128

/-- Perform an operation on a value at its place: the value it answers and the value to write, if any. -/
def Access.perform (a : Access) (old : Nat) : Nat × Option Nat := (old, a.op.update a.n old a.data a.cmp)

/-- Perform an access at the home slice on L2's bytes (R35, R36): a poisoned byte that would reach a register
raises POISON and nothing is written. -/
def State.atHome (s : State) (a : Access) : AStat × State :=
  let r := s.homeRead a.pa a.n a.key
  let s := r.2.2
  if r.2.1 && a.op.reads && a.dst ≠ .none then (.trap (poisonTrap a.va a.pa), s) else
  match (a.perform r.1).2 with
  | none => (.done r.1, s)
  | some x => (.done r.1, (s.homeWrite a.pa a.n a.key x).unitStored a)

/-- Perform an access in host bias at the home against device memory, allocating nothing (R398). -/
def State.atDram (s : State) (a : Access) : AStat × State :=
  let r := s.rowRead a.pa a.n a.key
  let s := r.2.2
  if r.2.1 && a.op.reads && a.dst ≠ .none then (.trap (poisonTrap a.va a.pa), s) else
  match (a.perform r.1).2 with
  | none => (.done r.1, s)
  | some x => (.done r.1, (s.rowWrite a.pa a.n a.key x).unitStored a)

/-- Finish or fail by an outcome. -/
def State.settle (s : State) (id : Nat) (a : Access) (r : AStat) : State :=
  match r with
  | .done v => s.finishAcc id a v
  | .trap t => s.failAcc id a t
  | .breach l =>
    let s := { s with accs := amapErase s.accs id }
    match a.who with
    | .thread t _ _ => s.breach (s.team t).launch a.va l
    | .stream t _ => s.breach (s.team t).launch a.va l
    | .copy _ _ | .unit _ => s
  | .pend => s

/-- Whether an access with an order works at cluster scope or wider. -/
def Access.wideAcq (a : Access) : Bool := a.op.ord.acquires && a.scope.wide
def Access.wideRel (a : Access) : Bool := a.op.ord.releases && a.scope.wide

/-- The effect on the issuing core when a synchronisation access has its reply (R31, R76, R83). -/
def State.syncDone (s : State) (a : Access) : State :=
  if a.wideAcq then s.acquireDone a.core (a.scope == .system) else s

/-- Perform a synchronisation access on the value its word holds: write, record (C, EPOCH) for a release that
wrote, and read the record for an acquire (R36, R83). The answer is the old value and the record found. STL
carries the epoch its instruction recorded; an ordered atomic takes the core's, which then advances. -/
def State.syncPerform (s : State) (a : Access) (old : Nat) (put : State → Nat → State) : (Nat × Nat) × State :=
  let ln := a.recLine
  let rec_ := amapGet (0, 0) s.homeRec ln
  match (a.perform old).2 with
  | none => (rec_, s)
  | some x =>
    let s := put s x
    if a.wideRel then
      if a.op = .stl then (rec_, { s with homeRec := amapSet (0, 0) s.homeRec ln (a.core, a.cmp) })
      else
        let s := { s with homeRec := amapSet (0, 0) s.homeRec ln (a.core, (s.core a.core).epoch) }
        (rec_, s.regionEnd a.core true)
    else (rec_, s)

end Sys2Proof.Machine
end

