-- ==== Sys2Proof/Machine/Unit.lean ====
section
/-! DEFINITION. Memory as units reach it, beside threads: device memory at its home for the engines, and the accesses that a unit
makes for itself, which wait for a walk (R98), a flip (R397), the host's snoop (R398) or the completer of an H page (R401). -/

namespace Sys2Proof.Machine

/-! ## Device memory at its home (R284) -/

/-- Read `n` bytes inside one line for an engine of a core: the value, whether a byte is poisoned, the state. -/
def State.devGet (s : State) (core pa n key : Nat) (cls : PClass) : Nat × Bool × State :=
  if cls = .repl then
    let r := s.replLine (pa / 128) (coreDie core) key
    (lineRead r.data (pa % 128) n, r.poison.getLsbD (pa % 128 / 64), s)
  else if s.hostBias pa then s.rowRead pa n key
  else s.homeRead pa n key

/-- Write `n` bytes inside one line, with both replicas of a REPL line; `poison` marks the unit (R61). -/
def State.devPut (s : State) (pa n key : Nat) (cls : PClass) (x : Nat) (poison : Bool) : State :=
  let line := pa / 128
  if cls = .repl then
    let put (s : State) (die : Nat) : State :=
      let r := s.replLine line die key
      let ps := if poison then r.poison ||| BitVec.ofNat 2 (2 ^ (pa % 128 / 64)) else r.poison
      s.replPut line die { r with data := lineWrite r.data (pa % 128) n x, poison := ps }
    let s := (put (put s 0) 1).rowWrite pa n key x
    if poison then s.setPoison (pa / 64) true else s
  else if s.hostBias pa then
    let s := s.rowWrite pa n key x
    if poison then s.setPoison (pa / 64) true else s
  else
    let s := s.homeWrite pa n key x
    if poison then s.l2Poison line key (BitVec.ofNat 2 (2 ^ (pa % 128 / 64))) else s

/-- Drop an engine's written bytes wherever they are clean: in its core's L1, and, for a TRACKED line, in every
sharer's (R284). -/
def State.eInv (s : State) (core pa n : Nat) (cls : PClass) : State :=
  let line := pa / 128
  let b := byteMask (pa % 128) n
  let s := s.l1Inv core line b
  if cls ≠ .tracked then s else
  match amapFind? s.l2 line with
  | none => s
  | some l => l.sharers.foldl (fun s c => (s.overtake c line).l1Inv c line b) s

/-- A unit of a REPL line is sound again, in memory and in the replica of a die. -/
def State.replSound (s : State) (pa die : Nat) : State :=
  let s := s.unitWritten (pa / 64)
  match amapFind? s.repl (2 * (pa / 128) + die) with
  | none => s
  | some r =>
    let r := { r with poison := r.poison &&& ~~~ BitVec.ofNat 2 (2 ^ (pa % 128 / 64)) }
    { s with repl := amapInsert s.repl (2 * (pa / 128) + die) r }
/-- A unit of device memory has been written whole (R61). -/
def State.devSound (s : State) (pa : Nat) (cls : PClass) : State :=
  if cls = .repl then (s.replSound pa 0).replSound pa 1 else s.unitWritten (pa / 64)

/-! ## Accesses that wait -/

/-- How an engine's access stands: performed, with its value and whether the value is poisoned; in flight; or ended by a
trap or a lodging breach. -/
inductive EAns where
  | val (x : Nat) (bad : Bool)
  | wait
  | trap (t : Trap)
  | breach (level : Nat)
  deriving DecidableEq, Repr

/-- The access of an engine's or a unit's work at a pointer that is in flight or answered. -/
def State.engFind (s : State) (who : Who) (p : Nat) (write : Bool) : Option Access :=
  (s.accs.find? fun kv => kv.2.who = who && kv.2.va = p && kv.2.op.writes = write).map (·.2)
/-- What an engine's access that is in flight or answered has become. -/
def Access.answer (a : Access) : EAns :=
  match a.fail, a.value with
  | some tr, _ => .trap tr
  | none, some v => .val v a.bad
  | none, none => .wait

/-! ## A unit's accesses -/

/-- An access of a unit: `n` bytes at an address, of a core's side of the part. A store of a whole unit of poison clears it. -/
def unitAcc (w : Work) (core space va n : Nat) (op : AOp) (data : Nat) (bad : Bool) : Access :=
  { who := .unit w, core := core, space := space, pc := 0, len := 0, op := op, va := va, pa := va, n := n, cls := .priv, key := 0,
    h := false, data := data, cmp := if op = .store && n = 64 then 1 else 0, dst := .none, scope := .group, bad := bad }

/-- An access of a unit that must wait at its place, as it goes in flight: at an H page for its completer, at a page being
flipped for the flip's end, in host bias for the host's snoop. None where it can be performed at once. -/
def State.unitFly (s : State) (a : Access) : Option Access :=
  if a.h then some a
  else if s.flipping a.pa then some { a with snoops := [flipWait] }
  else if s.hostBias a.pa then some { a with snoops := [biasMark (a.pa / 64)] }
  else none

/-- A unit's posted store: nothing waits for it. -/
def State.unitPost (s : State) (a : Access) (put : State → State) : State :=
  match s.unitFly a with
  | some a => (s.accNew a).2
  | none => put s

/-- Carry on with a unit's access at its place: it is performed once, by `now` where it need not wait, and keeps its answer until
the unit takes it. (DESIGN CHOICE, log 107.) -/
def State.unitAt (s : State) (a : Access) (now : State → Nat × Bool × State) : EAns × State :=
  match s.engFind a.who a.va a.op.writes with
  | some b => (b.answer, s)
  | none =>
    match s.unitFly a with
    | some a => (.wait, (s.accNew a).2)
    | none =>
      let r := now s
      (.val r.1 r.2.1, (r.2.2.accNew { a with value := some r.1, bad := r.2.1 }).2)

/-- The unit takes the answers of its work at `n` bytes from an address. -/
def State.unitTake (s : State) (w : Work) (va n : Nat) : State :=
  { s with accs := amapFilter (fun _ a => !(a.who == Who.unit w && decide (va ≤ a.va) && decide (a.va < va + n))) s.accs }

/-- How a unit's read ends: the bytes, with their physical address; a trap; a lodging breach, with the address that breached; or
it must be waited for. -/
inductive URes where
  | ok (x pa : Nat)
  | trap (t : Trap)
  | breach (va level : Nat)
  | wait
  deriving DecidableEq, Repr

/-- What a unit's read in flight or answered has become: a poisoned byte raises POISON (R61). -/
def Access.result (a : Access) : URes :=
  match a.fail, a.value with
  | some tr, _ => .trap tr
  | none, none => .wait
  | none, some v => if a.bad then .trap (poisonTrap a.va a.pa) else .ok v a.pa

/-- A unit of a team's core reads `n` bytes at an address of its launch through a TLB, from the multiple of `al` at or below it. A
trap of its translation is kept with the answers. (DEDUCED, log 117.) -/
def State.unitRead (s : State) (w : Work) (t va n al : Nat) (tlb : TlbKind) (kind : AccKind) : URes × State :=
  let core := (s.team t).core
  let a := unitAcc w core (s.spaceOf t) va n (.load false) 0 false
  match s.engFind a.who va false with
  | some b => (b.result, s)
  | none =>
    match s.translate (coreWing core) (s.team t).launch tlb va kind .plain none with
    | (.wait, s) => (.wait, s)
    | (.breach l, s) => (.breach va l, s)
    | (.trap tr, s) => (.trap tr, (s.accNew { a with value := some 0, fail := some tr }).2)
    | (.ok p, s) =>
      let a := { a with pa := p.pa / al * al, cls := p.cls, key := p.key, h := p.h }
      match s.unitAt a fun s => s.devGet core a.pa n p.key p.cls with
      | (.val x bad, s) => (if bad then .trap (poisonTrap va a.pa) else .ok x a.pa, s)
      | (_, s) => (.wait, s)

/-! ## PFG (R230) -/

/-- Bring a line into L2, or into the die's replica for REPL. -/
def State.prefetch (s : State) (core : Nat) (p : Phys) : State :=
  let line := p.pa / 128
  if p.h || s.flipping p.pa || s.hostBias p.pa then s
  else if p.cls = .repl then s.replPut line (coreDie core) (s.replLine line (coreDie core) p.key)
  else s.l2Fetch line p.key

/-- A prefetch of an address of a launch: one that would fail does nothing; one whose translation misses waits for its walk. -/
def State.prefetchAt (s : State) (la core va : Nat) : State :=
  match s.translate (coreWing core) la .vtlb va .read .plain none with
  | (.ok p, s) => s.prefetch core p
  | (.wait, s) => (s.accNew { unitAcc (.prefetch la) core (s.launch la).space va 1 (.load false) 0 false with snoops := [walkWait] }).2
  | (_, s) => s

end Sys2Proof.Machine
end

