-- ==== Sys2Proof/Machine/Surface.lean ====
section
/-! DEFINITION. The stacked surface memory (03_surface_memory): interleave regions, surfaces and their
frames, the press, the order at a bank, power domains and debugger reads (R39 to R57). -/

namespace Sys2Proof.Machine

/-! ## Interleave regions (R41 to R44) -/

/-- INTLVn as configured (Table 03-1). -/
structure Region where
  en      : Bool
  stack   : Nat
  mode    : Nat
  colbase : Nat
  logsize : Nat
  boff    : Nat
  base    : Nat
  deriving DecidableEq, Repr

def regionOf (x : DWord) : Region :=
  let n := x.toNat
  ⟨bitField 63 63 n == 1, bitField 62 61 n, bitField 60 58 n, bitField 57 52 n, bitField 51 46 n, bitField 45 36 n,
   bitField 11 0 n⟩
def State.region (s : State) (r : Nat) : Region := regionOf (amapGet 0 s.intlv r)

def Region.size (r : Region) : Nat := 2 ^ r.logsize
def Region.checker (r : Region) : Bool := r.stack == 2
/-- Columns C; 64 in mode 7. -/
def Region.columns (r : Region) : Nat := if r.mode = 7 then 64 else 2 ^ r.mode
/-- Bytes on each stack. -/
def Region.half (r : Region) : Nat := if r.checker then r.size / 2 else r.size

/-- ST would be BADCONFIG (R42). -/
def Region.bad (r : Region) : Bool :=
  r.stack == 3 || decide (r.logsize < (if r.checker then 21 else 20)) || decide (32 < r.logsize) ||
  r.base * 2 ^ 20 % r.size != 0 || decide (2 ^ 32 < r.base * 2 ^ 20 + r.size) ||
  (if r.mode = 7 then r.colbase != 0 else decide (64 < r.colbase + r.columns)) ||
  decide (2 ^ 20 < r.half / (32 * r.columns) + r.boff * 1024)
/-- Enabled with a valid configuration: it can hold surfaces. -/
def Region.ok (r : Region) : Bool := r.en && !r.bad

/-- The bank, numbered 2048*stack + 32*column + bank, and the byte in it of a region offset (R43). -/
def Region.place (r : Region) (q : Nat) : Nat × Nat :=
  let stack := if r.checker then q / r.half else r.stack % 2
  let q := q % r.half
  let gi := q / 512
  let col := if r.mode = 7 then Nat.xor (gi % 64) (gi / 2048 % 64) else r.colbase + gi % r.columns
  let bank := if r.mode = 7 then gi / 64 % 32 else gi / r.columns % 32
  let line := if r.mode = 7 then gi / 2048 else gi / (32 * r.columns)
  (2048 * stack + 32 * col + bank, r.boff * 1024 + line * 512 + q % 512)

/-- A frame of a region is dead (R43): one of its granules maps to a retired bank. -/
def State.frameDead (s : State) (r : Region) (f : Nat) : Bool :=
  (List.range 32).any fun k => s.retired.contains (r.place (f * 16384 + k * 512)).1
/-- DEADF of a region. -/
def State.deadFrames (s : State) (r : Region) : Nat :=
  if s.retired.isEmpty then 0 else ((List.range (r.size / 16384)).filter (s.frameDead r)).length

/-- The stack of a region frame. -/
def Region.stackOf (r : Region) (f : Nat) : Nat := if r.checker then f * 16384 / r.half else r.stack % 2
/-- The frames of a region on a stack. -/
def Region.framesOn (r : Region) (stack : Nat) : List Nat :=
  (List.range (r.size / 16384)).filter fun f => r.stackOf f = stack

/-! ## Surfaces (R45 to R49) -/

/-- Table 03-2: bytes per pixel, block width and height. -/
def surfFmt : Nat → Option (Nat × Nat × Nat)
  | 0x0 => some (1, 32, 16)
  | 0x1 => some (4, 16, 8)
  | 0x2 => some (8, 8, 8)
  | 0x3 => some (4, 16, 8)
  | 0x4 => some (16, 8, 4)
  | 0x5 => some (4, 16, 8)
  | 0x6 => some (4, 16, 8)
  | 0x7 => some (4, 16, 8)
  | 0x8 => some (4, 16, 8)
  | 0x9 => some (4, 16, 8)
  | 0xA => some (8, 8, 8)
  | _ => none

/-- The fields of an entry (Table 03-3). -/
def Ste.field (e : Ste) (hi lo : Nat) : Nat := bitField hi lo e.value.toNat
def Ste.width (e : Ste) : Nat := e.field 63 50 + 1
def Ste.height (e : Ste) : Nat := e.field 49 36 + 1
def Ste.layers (e : Ste) : Nat := e.field 35 28 + 1
def Ste.samples (e : Ste) : Nat := if e.field 27 27 = 1 then 4 else 1
def Ste.regionIx (e : Ste) : Nat := e.field 26 23
def Ste.split (e : Ste) : Bool := e.field 22 22 == 1
def Ste.compress (e : Ste) : Bool := e.field 21 21 == 1
def Ste.evict (e : Ste) : Bool := e.field 20 20 == 1
def Ste.fmt (e : Ste) : Nat := e.field 19 16
def Ste.backing (e : Ste) : Nat := e.field 191 144 * 512
def Ste.bpp (e : Ste) : Nat := match surfFmt e.fmt with
  | some x => x.1
  | none => 1
def Ste.blockW (e : Ste) : Nat := match surfFmt e.fmt with
  | some x => x.2.1
  | none => 32
def Ste.blockH (e : Ste) : Nat := match surfFmt e.fmt with
  | some x => x.2.2
  | none => 16
def Ste.tileBytes (e : Ste) : Nat := 1024 * e.bpp
def Ste.tpf (e : Ste) : Nat := 16 / e.bpp
def Ste.tw (e : Ste) : Nat := ceilDiv e.width 32
def Ste.th (e : Ste) : Nat := ceilDiv e.height 32
/-- Tiles of the surface, and the size of its linear view (R46). -/
def Ste.tiles (e : Ste) : Nat := e.layers * e.samples * e.th * e.tw
def Ste.viewBytes (e : Ste) : Nat := e.tiles * e.tileBytes
/-- The linear-view offset of a pixel (R46). -/
def Ste.pixel (e : Ste) (x y layer sample : Nat) : Nat :=
  let tile := ((layer * e.samples + sample) * e.th + y / 32) * e.tw + x / 32
  let blk := y % 32 / e.blockH * (32 / e.blockW) + x % 32 / e.blockW
  tile * e.tileBytes + blk * 512 + (y % e.blockH * e.blockW + x % e.blockW) * e.bpp

def SteState.code : SteState → Nat
  | .inactive => 0 | .allocating => 1 | .active => 2 | .releasing => 3 | .noSpace => 4 | .badFormat => 5 | .badRegion => 6
/-- Valid for check 5 of Table 02-3 (R49). -/
def Ste.valid (e : Ste) : Bool := e.state == .allocating || e.state == .active

/-- Tiles with an index below `tile` on even places of the checkerboard. -/
def Ste.evens (e : Ste) (tile : Nat) : Nat :=
  let row (y n : Nat) : Nat := if y % 2 = 0 then (n + 1) / 2 else n / 2
  let rows (y : Nat) : Nat := (y + 1) / 2 * ((e.tw + 1) / 2) + y / 2 * (e.tw / 2)
  let p := tile % (e.tw * e.th)
  tile / (e.tw * e.th) * rows e.th + rows (p / e.tw) + row (p / e.tw) (p % e.tw)
/-- The stack of a tile, of a surface whose region is not a checkerboard on `st` (R47). -/
def Ste.tileStack (e : Ste) (st tile : Nat) : Nat :=
  if e.split then (tile % (e.tw * e.th) / e.tw + tile % e.tw) % 2 else st
/-- The sequence number of a tile on its stack. -/
def Ste.tileSeq (e : Ste) (tile : Nat) : Nat :=
  if e.split then if e.tileStack 0 tile = 0 then e.evens tile else tile - e.evens tile else tile
/-- Surface frames needed on a stack. -/
def Ste.framesNeeded (e : Ste) (st stack : Nat) : Nat :=
  let tiles := if e.split then if stack = 0 then e.evens e.tiles else e.tiles - e.evens e.tiles
    else if stack = st then e.tiles else 0
  ceilDiv tiles e.tpf

/-- The STE window of a space (R48): 256 entries from a multiple of 256. (DESIGN CHOICE, log 70.) -/
def State.inSteWindow (s : State) (space ix : Nat) : Bool := ix / 256 == (s.space space).steWin % 16

/-! ## Bytes in the banks -/

/-- Bytes of D32FS8 that read as zero and ignore writes (R45). -/
def Ste.dead (e : Ste) (o : Nat) : Bool := e.fmt == 0xA && decide (5 ≤ o % 8)

/-- Read `n` bytes of a surface at a bank place: their value, and whether a word read is poisoned. -/
def State.bankRead (s : State) (e : Ste) (o bank byte n : Nat) : Nat × Bool :=
  let a := 2 ^ 20 * bank + byte
  (bytesToNat ((List.range n).map fun k => if e.dead (o + k) then 0 else memGet s.sdie (a + k)),
   (List.range n).any fun k => s.sdiePoison.contains ((a + k) / 32))
/-- Write `n` bytes. -/
def State.bankWrite (s : State) (e : Ste) (o bank byte n x : Nat) : State :=
  let a := 2 ^ 20 * bank + byte
  { s with sdie := (List.range n).foldl (fun m k =>
      if e.dead (o + k) then m else memSet m (a + k) (BitVec.ofNat 8 (x / 2 ^ (8 * k)))) s.sdie }
/-- Poison or clear words of 32 B by number. -/
def State.sdieMark (s : State) (p : Bool) (ws : List Nat) : State :=
  let l := s.sdiePoison.filter fun w => !ws.contains w
  { s with sdiePoison := if p then ws ++ l else l }

/-- The domain of a bank (R55), as 16*die + k: an S-die lies under the K-die of its number. -/
def bankDomain (bank : Nat) : Nat := 16 * (bank / 2048) + bank % 2048 / 32 / 4
def State.domain (s : State) (d : Nat) : DomState := amapGet .off s.domains d
def State.setDomain (s : State) (d : Nat) (x : DomState) : State := { s with domains := amapSet .off s.domains d x }

/-! ## Reaching a byte of a surface -/

/-- How a request to a surface byte stands: at a bank and byte with its S-space address, to wait, or trapped. -/
inductive SReach where
  | go (bank byte addr : Nat)
  | wait
  | trap (t : Trap)
  deriving DecidableEq, Repr

/-- The frame that holds offset `o`: its key 2*frame + stack, and the offset in the frame (R47). -/
def Ste.frameOf (e : Ste) (st o : Nat) : Nat × Nat :=
  let tile := o / e.tileBytes
  let seq := e.tileSeq tile
  (2 * (seq / e.tpf) + e.tileStack st tile, seq % e.tpf * e.tileBytes + o % e.tileBytes)

def Ste.setFrame (e : Ste) (k : Nat) (f : Frame) : Ste := { e with frames := amapInsert e.frames k f }

/-- The requester of a response to the press, which takes one of a column before the next is granted.
(DESIGN CHOICE, log 75.) -/
def pressResp : Nat := 2 ^ 63
/-- The press has done with a frame's image: its accesses are over. -/
def State.pressDone (s : State) (ix frame : Nat) : State := s.engDrop (· == Who.unit (.press ix frame))
/-- The press gives up its requests for a frame, and its accesses to the image. -/
def State.pressDrop (s : State) (ix k : Nat) : State :=
  let s := s.pressDone ix k
  let rs := s.bankReqs.filter fun x => match x.job with
    | .press i j _ => !(i == ix && j == k)
    | _ => true
  { s with
    bankReqs := rs
    resps := s.resps.filter (·.2 ≠ pressResp)
    later := s.later.filter fun d => match d with
      | .bankGrant st c b => rs.any fun x => x.bank == 2048 * st + 32 * c + b
      | .spillComplete i j | .fillComplete i j => !(i == ix && j == k)
      | _ => true }
/-- The press asks for the 512 words of a frame, to read or to write them (R53). -/
def State.pressAsk (s : State) (ix k : Nat) (f : Frame) (read : Bool) : State :=
  let r := s.region (s.ste ix).regionIx
  let reqs := (List.range 512).map fun w =>
    ({ bank := (r.place (f.region * 16384 + 32 * w)).1, cls := 3, src := 192, read := read, job := .press ix k w
       held := s.ratioTo.isSome } : BankReq)
  { s with
    bankReqs := s.bankReqs ++ reqs
    later := s.later ++ reqs.map fun x => .bankGrant (x.bank / 2048) (x.bank % 2048 / 32) (x.bank % 32) }
/-- The press still waits for words of a frame. -/
def State.pressBusy (s : State) (ix k : Nat) : Bool :=
  s.bankReqs.any fun x => match x.job with
    | .press i j _ => i == ix && j == k
    | _ => false

/-- An access to a frame stamps its age and meets its state (Table 03-5): the abandoned spill goes on, a
spilled frame starts to fill when the reserve is there. The answer is whether the access may go. -/
def State.touchFrame (s : State) (ix k : Nat) : Bool × State :=
  let e := s.ste ix
  match amapFind? e.frames k with
  | none => (false, s)
  | some f =>
    let f := { f with age := s.age }
    let put (f : Frame) (s : State) : State := s.updSte ix fun e => e.setFrame k f
    match f.state with
    | .resident => (true, put f s)
    | .spilling false => (true, (put { f with state := .resident } s).pressDrop ix k)
    | .spilling true | .filling => (false, put f s)
    | .spilled =>
      let rk := 2 * e.regionIx + k % 2
      match amapFind? s.reserve rk with
      | none => (false, put f s)
      | some x =>
        let s := put { f with state := .filling, region := x, refill := true } { s with reserve := amapErase s.reserve rk }
        let s := s.pressAsk ix k { f with region := x } false
        (false, { s with later := s.later ++ [.fillComplete ix k] })

/-- Reach byte `o` of entry `ix` (R49, R51, R55). `taken`: the access was accepted while the entry was valid. -/
def State.reach (s : State) (ix o : Nat) (taken : Bool) (va : Nat) : SReach × State :=
  let e := s.ste ix
  let r := s.region e.regionIx
  if e.state = .allocating then (.wait, s)
  else if !(e.state = .active || (taken && e.state = .releasing)) then (.trap { cause := .illegalOperand, addr := va }, s)
  else
    let fk := e.frameOf (r.stack % 2) o
    match s.touchFrame ix fk.1 with
    | (false, s) => (.wait, s)
    | (true, s) =>
      match amapFind? (s.ste ix).frames fk.1 with
      | none => (.wait, s)
      | some f =>
        let q := f.region * 16384 + fk.2
        let b := r.place q
        let addr := (r.base * 2 ^ 20 + q) / 32 * 32
        match s.domain (bankDomain b.1) with
        | .on => (.go b.1 b.2 addr, s)
        | .off => (.trap { cause := .regionOff, addr := va, info := addr }, s)
        | .retention =>
          let w : Due := .domainWake (bankDomain b.1 / 16) (bankDomain b.1 % 16)
          (.wait, if s.later.contains w then s else { s with later := s.later ++ [w] })

/-! ## V requests (R53) -/

/-- The marker in `snoops` of a surface access that waits for its entry, frame or domain. -/
def surfWait : Nat := 2 ^ 61
/-- The entry and offset that a SURFACE pointer names. -/
def surfIx (va : Nat) : Nat := bitField 59 48 va
def surfOff (va : Nat) : Nat := bitField 47 0 va

/-- The arbitration class of a requester: 1 M, 2 V, 3 C. -/
def Who.bankCls (w : Who) : Nat :=
  match w with
  | .thread _ _ _ => 2
  | .stream _ _ => 1
  | .copy _ _ | .unit _ => 3
/-- The column of a bank, of both stacks. -/
def bankColumn (bank : Nat) : Nat := bank / 32

/-- Responses on their way up a column. -/
def State.respsOf (s : State) (col : Nat) : List (Nat × Nat) := s.resps.filter fun x => x.1 = col &&
  (x.2 == pressResp || (amapFind? s.pends x.2).isSome || (amapFind? s.accs x.2).isSome)
/-- Nothing keeps a raster unit's work from being granted in the step in which it is due: its bank has no request, and its
column's request FIFO room. (DESIGN CHOICE, log 75.) -/
def State.bankIdle (s : State) (bank : Nat) : Bool :=
  s.ratioTo.isNone && s.bankReqs.all (fun x => x.bank ≠ bank) &&
  decide ((s.bankReqs.filter fun x => bankColumn x.bank = bankColumn bank).length < 64)
/-- Queue a request at its bank; while a ratio change is under way it is held (R4). -/
def State.bankAsk (s : State) (x : BankReq) : State :=
  { s with
    bankReqs := s.bankReqs ++ [{ x with held := s.ratioTo.isSome }]
    later := s.later ++ [.bankGrant (x.bank / 2048) (x.bank % 2048 / 32) (x.bank % 32)] }
/-- Queue an access in flight. -/
def State.bankAskAcc (s : State) (bank id : Nat) (a : Access) : State :=
  s.bankAsk { bank := bank, cls := a.who.bankCls, src := a.core, read := a.op.reads, job := .acc id }

/-- Perform a granted access at its bank: a poisoned word that a thread reads raises POISON; an engine takes or carries the
poison (R61). -/
def State.bankDo (s : State) (a : Access) (bank byte addr : Nat) : AStat × State :=
  let e := s.ste (surfIx a.va)
  let o := surfOff a.va
  let s := { s with bankLast := amapInsert s.bankLast bank a.who.bankCls }
  let r := s.bankRead e o bank byte a.n
  if a.op.reads && r.2 && !a.engine then (.trap { cause := .poison, addr := a.va, info := addr }, s) else
  match (a.perform r.1).2 with
  | none => (.done r.1, s)
  | some x =>
    let s := s.bankWrite e o bank byte a.n x
    let word := (2 ^ 20 * bank + byte) / 32
    (.done r.1, if a.whole && !a.engine then s.sdieMark false [word] else if a.bad then s.sdieMark true [word] else s)

/-- Start a SURFACE access of a thread: its request goes to its bank (R53), or it waits for its entry, frame or domain.
(DESIGN CHOICE, log 75.) -/
def State.startSurf (s : State) (a : Access) : AStat × State :=
  match s.reach (surfIx a.va) (surfOff a.va) false a.va with
  | (.trap t, s) => (.trap t, s)
  | (.wait, s) => (.pend, (s.accNew { a with snoops := [surfWait] }).2)
  | (.go bank _ _, s) =>
    let r := s.accNew a
    (.pend, r.2.bankAskAcc bank r.1 a)

/-- Try again every access that waited for an entry, frame or domain: it goes to its bank's queue, fails, or waits on. -/
def State.surfWake (s : State) : State :=
  forEach (s.accs.filter fun kv => kv.2.snoops.contains surfWait) s fun s kv =>
    let a := kv.2
    match s.reach (surfIx a.va) (surfOff a.va) true a.va with
    | (.wait, s) => s
    | (.trap t, s) => s.failAcc kv.1 { a with snoops := [] } t
    | (.go bank _ _, s) =>
      let a := { a with snoops := [] }
      { s with accs := amapInsert s.accs kv.1 a }.bankAskAcc bank kv.1 a

/-! ## Allocation (Table 03-4) -/

/-- Region frames in use or in reserve. -/
def State.framesUsed (s : State) (ri : Nat) : List Nat :=
  (s.stes.flatMap fun kv => if kv.2.regionIx ≠ ri then [] else
    kv.2.frames.filterMap fun f => if f.2.state = .spilled then none else some f.2.region) ++
  (s.reserve.filterMap fun kv => if kv.1 / 2 = ri then some kv.2 else none)
/-- Free frames of a region on a stack: not dead, not in use, not the reserve. -/
def State.framesFree (s : State) (ri stack : Nat) : List Nat :=
  let r := s.region ri
  let used := s.framesUsed ri
  (r.framesOn stack).filter fun f => !used.contains f && !s.frameDead r f
/-- One of a list of frames: which is not stated (R47). (DESIGN CHOICE, log 72.) -/
def State.pickFrame (s : State) (l : List Nat) : Option Nat × State :=
  if l.isEmpty then (none, s) else (l[Config.freeChoice s.free % l.length]?, { s with free := s.free + 1 })
/-- A region frame becomes the refill reserve of a stack: the refill that took the last one is over and done with. -/
def State.setReserve (s : State) (ri stack f : Nat) : State :=
  { s with
    reserve := amapInsert s.reserve (2 * ri + stack) f
    stes := amapMap (fun _ e => if e.regionIx ≠ ri then e else
      { e with frames := amapMap (fun k x => if k % 2 = stack then { x with refill := false } else x) e.frames }) s.stes }
/-- Give a region its refill reserve on a stack (R51). (DESIGN CHOICE, log 74.) -/
def State.takeReserve (s : State) (ri stack : Nat) : State :=
  if (amapFind? s.reserve (2 * ri + stack)).isSome then s else
  match s.pickFrame (s.framesFree ri stack) with
  | (some f, s) => s.setReserve ri stack f
  | (none, s) => s
/-- The reserves of a region whose configuration has changed. (DESIGN CHOICE, log 74.) -/
def State.initReserve (s : State) (ri : Nat) : State :=
  let s := { s with reserve := s.reserve.filter fun kv => kv.1 / 2 ≠ ri }
  let r := s.region ri
  if !r.ok then s
  else if r.checker then (s.takeReserve ri 0).takeReserve ri 1 else s.takeReserve ri (r.stack % 2)

/-- Frames that the press may choose (R50): resident, of ACTIVE surfaces with EVICT = 1, not barred. -/
def State.evictable (s : State) (ri stack : Nat) : List (Nat × Nat × Frame) :=
  s.stes.flatMap fun kv =>
    if kv.2.regionIx = ri && kv.2.state == .active && kv.2.evict then
      kv.2.frames.filterMap fun f =>
        if f.1 % 2 = stack && f.2.state == .resident && !f.2.barred then some (kv.1, f.1, f.2) else none
    else []
/-- Spills in progress on a region's stack. -/
def State.spilling (s : State) (ri stack : Nat) (firm : Bool) : Nat :=
  s.stes.foldl (fun n kv => if kv.2.regionIx ≠ ri then n else
    n + (kv.2.frames.filter fun f => f.1 % 2 = stack && f.2.state == .spilling firm).length) 0

/-- One CLEAR pixel (Table 03-3): the low bytes; C4F32 holds four FP16 values, widened exactly. -/
def Ste.clearPixel (e : Ste) : Nat :=
  let c := e.field 255 192
  if e.fmt = 0x4 then
    (List.range 4).foldl (fun acc k =>
      let h := c / 2 ^ (16 * k) % 2 ^ 16
      acc + 2 ^ (32 * k) * (encodeVal fp32 .rne false (fp16.decode h)).1) 0
  else c % 2 ^ (8 * e.bpp)
/-- Fill a region frame with the clear value; a domain in RETENTION is woken, and one that is OFF keeps nothing (R55). -/
def State.clearFrame (s : State) (e : Ste) (f : Nat) : State :=
  let r := s.region e.regionIx
  let px := natToBytes e.bpp e.clearPixel
  let bs := (List.range (16384 / e.bpp)).flatMap fun _ => px
  (List.range 32).foldl (fun s k =>
    let b := r.place (f * 16384 + k * 512)
    let a := 2 ^ 20 * b.1 + b.2
    let d := bankDomain b.1
    if s.domain d = .off then s else
    let s := if s.domain d = .retention then s.setDomain d .on else s
    let s := { s with sdie := memPut s.sdie a (bs.take 512) }
    s.sdieMark false ((List.range 16).map fun j => a / 32 + j)) s

/-- Take `n` frames on a stack for entry `ix`. -/
def State.placeFrames (s : State) (ix stack : Nat) : Nat → State
  | 0 => s
  | n + 1 =>
    let s := s.placeFrames ix stack n
    match s.pickFrame (s.framesFree (s.ste ix).regionIx stack) with
    | (none, s) => s
    | (some f, s) =>
      (s.clearFrame (s.ste ix) f).updSte ix fun e => e.setFrame (2 * n + stack) { region := f, state := .resident, age := s.age }

/-- Write a status word in a pending result and let it land (R231). -/
def State.reportSte (s : State) (id status : Nat) : State :=
  match amapFind? s.pends id with
  | none => s
  | some p => { s with
      pends := amapInsert s.pends id { p with regs := p.regs.map fun r => (r.1, r.2.1, BitVec.ofNat 32 status) }
      later := s.later ++ [.ins (.loadResultLand id)] }

/-- Report every STEW.W that waited for the entry to leave ALLOCATING and RELEASING. -/
def State.reportWaits (s : State) (ix : Nat) : State :=
  let e := s.ste ix
  if e.state = .allocating || e.state = .releasing then s else
  (forEach e.report s fun s x => s.reportSte x.1 (e.state.code + if x.2 then 8 else 0)).updSte ix
    fun e => { e with report := [] }

/-- A set bit in a reserved field of the value (STATE apart). -/
def steReserved (v : BitVec 256) : Bool :=
  bitField 143 64 v.toNat ≠ 0 || bitField 12 1 v.toNat ≠ 0

/-- The value with STATE kept out of the stored fields. -/
def steStored (v : BitVec 256) : BitVec 256 := v &&& ~~~ BitVec.ofNat 256 (7 * 2 ^ 13)

/-- An accepted access waits for a frame of an entry. -/
def State.frameAwaited (s : State) (ix k : Nat) : Bool :=
  let e := s.ste ix
  s.accs.any fun kv => kv.2.snoops.contains surfWait && kv.2.va / 2 ^ 60 == 1 && surfIx kv.2.va == ix &&
    (e.frameOf ((s.region e.regionIx).stack % 2) (surfOff kv.2.va)).1 == k
/-- A release abandons the press's work on a surface (Table 03-5): spills, and the fills that no accepted access waits for,
whose frame is free again and is the reserve once more where that is empty. A fill that one waits for goes on, as the entry is
RELEASING until accepted accesses and press work complete (Table 03-4). (DESIGN CHOICE, log 74; DEDUCED, log 123.) -/
def State.pressAbandon (s : State) (ix : Nat) : State :=
  forEach (s.ste ix).frames s fun s x =>
    match x.2.state with
    | .spilling _ => (s.updSte ix fun e => e.setFrame x.1 { x.2 with state := .resident }).pressDrop ix x.1
    | .filling =>
      if s.frameAwaited ix x.1 then s else
      let s := (s.updSte ix fun e => e.setFrame x.1 { x.2 with state := .spilled }).pressDrop ix x.1
      let ri := (s.ste ix).regionIx
      if (amapFind? s.reserve (2 * ri + x.1 % 2)).isSome then s else s.setReserve ri (x.1 % 2) x.2.region
    | _ => s

/-- A STEW applied to an entry that is neither ALLOCATING nor RELEASING (Table 03-4). -/
def State.steApply (s : State) (space ix : Nat) (v : BitVec 256) : State :=
  let e := s.ste ix
  let n : Ste := { e with value := steStored v }
  let valid := v.getLsbD 0
  match e.state with
  | .active =>
    if valid then
      let ev := n.evict && e.backing % e.tileBytes == 0 || (n.evict && e.evict)
      let keep := e.value.toNat
      let ev := if n.evict then (if ev then 1 else bitField 20 20 keep) else 0
      let x := bitField 191 22 keep * 2 ^ 22 + n.field 21 21 * 2 ^ 21 + ev * 2 ^ 20 + bitField 19 0 keep +
        n.field 255 192 * 2 ^ 192
      s.updSte ix fun e => { e with value := BitVec.ofNat 256 x }
    else
      let s := (s.updSte ix fun e => { e with state := .releasing, value := e.value &&& ~~~ 1 }).pressAbandon ix
      ({ s with later := s.later ++ [.surfaceReleaseComplete ix] } : State).surfWake
  | _ =>
    let r := s.region n.regionIx
    let st : SteState :=
      if !valid then .inactive
      else if (surfFmt n.fmt).isNone || steReserved v || (n.evict && n.backing % n.tileBytes != 0) then .badFormat
      else if !r.ok || n.split != r.checker then .badRegion
      else .allocating
    let s := s.updSte ix fun e => { e with value := steStored v, state := st, owner := space, frames := [] }
    if st = .allocating then { s with later := s.later ++ [.surfaceAllocate ix] } else s

/-- Apply the held STEWs of an entry in the order they arrived, until one starts an allocation or a release. -/
def State.applyHeld : Nat → Nat → State → State
  | 0, _, s => s
  | fuel + 1, ix, s =>
    let e := s.ste ix
    if e.state = .allocating || e.state = .releasing then s else
    match e.held with
    | [] => s
    | h :: rest =>
      let s := s.updSte ix fun e => { e with held := rest }
      let s := s.steApply h.space ix h.value
      let s := if h.wait then s.updSte ix fun e => { e with report := e.report ++ [(h.pend, true)] } else s
      applyHeld fuel ix (s.reportWaits ix)

/-- A STEW arrives at the surface table (R231): it applies, or is held. `pend` takes the status. -/
def State.stewArrive (s : State) (space ix : Nat) (v : BitVec 256) (wait : Bool) (pend : Nat) : State :=
  let e := s.ste ix
  if e.state = .allocating || e.state = .releasing || !e.held.isEmpty then
    let s := s.updSte ix fun e => { e with held := e.held ++ [⟨space, v, pend, wait⟩] }
    if wait then s else s.reportSte pend (e.state.code + 8)
  else
    let s := s.steApply space ix v
    if wait then (s.updSte ix fun e => { e with report := e.report ++ [(pend, false)] }).reportWaits ix
    else s.reportSte pend (s.ste ix).state.code

/-- What follows the end of ALLOCATING or RELEASING: reports, the accesses that waited, and then the held writes, which find the
entry as the accesses found it. -/
def State.steEnded (s : State) (ix : Nat) : State :=
  let s := (s.reportWaits ix).surfWake
  (s.applyHeld ((s.ste ix).held.length) ix).surfWake

/-- SURFACE_ALLOCATE: enough free frames, or none left to evict (Table 03-4). -/
def execSurfaceAllocate (ix : Nat) (s : State) : Out :=
  let e := s.ste ix
  if e.state ≠ .allocating || s.ratioTo.isSome then .fault .notEnabled else
  let ri := e.regionIx
  let st := (s.region ri).stack % 2
  let need (k : Nat) : Nat := e.framesNeeded st k
  let short (k : Nat) : Bool := decide ((s.framesFree ri k).length < need k)
  let hope (k : Nat) : Bool := !(s.evictable ri k).isEmpty || decide (0 < s.spilling ri k false)
  if (short 0 && !hope 0) || (short 1 && !hope 1) then
    .next ((s.updSte ix fun e => { e with state := .noSpace }).steEnded ix)
  else if short 0 || short 1 then .fault .notEnabled
  else
    let s := (s.placeFrames ix 0 (need 0)).placeFrames ix 1 (need 1)
    .next ((s.updSte ix fun e => { e with state := .active }).steEnded ix)

/-! ## The press (R50 to R52) -/

/-- SCLK frame ages since a stamp, modulo 2^16. -/
def State.frameAge (s : State) (f : Frame) : Nat := (s.age - f.age).toNat
/-- The frame that the press chooses: the oldest, the lowest number among equals. (DESIGN CHOICE, log 72.) -/
def State.pressPick (s : State) (l : List (Nat × Nat × Frame)) : Option (Nat × Nat × Frame) :=
  l.foldl (fun b x => match b with
    | none => some x
    | some y =>
      if s.frameAge y.2.2 < s.frameAge x.2.2 || (s.frameAge y.2.2 = s.frameAge x.2.2 && x.2.2.region < y.2.2.region)
      then some x else b) none

/-- Frames from which the press chooses: for a firm spill another than one whose refill took the reserve, where there is another
(R51). (DESIGN CHOICE, log 72.) -/
def State.pressCands (s : State) (ri stack : Nat) (firm : Bool) : List (Nat × Nat × Frame) :=
  let l := s.evictable ri stack
  let o := l.filter fun x => !x.2.2.refill
  if firm && !o.isEmpty then o else l

/-- PRESS_SPILL_START: a spill to free space for an allocation, or a firm one to restore the reserve. -/
def execPressSpillStart (region stack : Nat) (firm : Bool) (s : State) : Out :=
  let st := (s.region region).stack % 2
  let wanted : Bool := if firm then
      (amapFind? s.reserve (2 * region + stack)).isNone && s.spilling region stack true == 0
    else s.stes.any fun kv => kv.2.state == .allocating && kv.2.regionIx == region &&
      decide ((s.framesFree region stack).length + s.spilling region stack false < kv.2.framesNeeded st stack)
  match wanted, s.pressPick (s.pressCands region stack firm) with
  | true, some (ix, k, f) =>
    let s := (s.updSte ix fun e => e.setFrame k { f with state := .spilling firm, comp := e.compress }).pressAsk ix k f true
    .next { s with later := s.later ++ [.spillComplete ix k] }
  | _, _ => .fault .notEnabled

/-- The press's translation of a backing address (R52, R97): lodged at a wing for the space that owns the surface, and
translated through that wing's CTLB, with the core whose wing it is. (DEDUCED, log 117.) -/
def State.pressXlate (s : State) (ix va : Nat) (write : Bool) : XRes × Nat × State :=
  let sp := (s.ste ix).owner
  let line := va / 128
  match s.wings.find? fun kv => kv.2.ranges.any fun r =>
      r.space = sp && decide (r.lo ≤ line) && decide (line ≤ r.hi) && (!write || r.access == 1) with
  | none => (.trap { cause := .outOfLodging, addr := va }, 0, s)
  | some w =>
    let core := ((List.range 192).find? fun c => coreWing c = w.1).getD 0
    let r := s.xlate w.1 sp .ctlb va (if write then .write else .read) .plain none
    (r.1, core, r.2)

/-- The press reads or writes one 64 B unit of the backing range of a frame's surface on the C path. One whose translation fails
ends in a trap, which is kept with the answers. (DESIGN CHOICE, log 73.) -/
def State.pressUnit (s : State) (ix frame va : Nat) (w : Option (Nat × Bool)) : EAns × State :=
  let acc (core : Nat) : Access :=
    unitAcc (.press ix frame) core (s.ste ix).owner va 64 (if w.isSome then .store else .load false) ((w.map (·.1)).getD 0) (w.any (·.2))
  match s.engFind (.unit (.press ix frame)) va w.isSome with
  | some b => (b.answer, s)
  | none =>
    match s.pressXlate ix va w.isSome with
    | (.wait, _, s) => (.wait, s)
    | (.ok p, core, s) =>
      s.unitAt { acc core with pa := p.pa, cls := p.cls, key := p.key, h := p.h } fun s => match w with
        | none => s.devGet core p.pa 64 p.key p.cls
        | some (x, bad) =>
          let s := s.devPut p.pa 64 p.key p.cls x bad
          (0, false, if bad then s else s.devSound p.pa p.cls)
    | (.breach _, core, s) | (.trap _, core, s) =>
      let tr : Trap := { cause := .outOfLodging, addr := va }
      (.trap tr, (s.accNew { acc core with value := some 0, fail := some tr }).2)

/-- How work of the press on an image stands. -/
inductive PressRes where
  | done | wait | failed
  deriving DecidableEq, Repr
def PressRes.and (a b : PressRes) : PressRes :=
  match a, b with
  | .failed, _ | _, .failed => .failed
  | .wait, _ | _, .wait => .wait
  | .done, .done => .done

/-- Tile `seq` of a stack, as an index in the surface. -/
def Ste.tileOf (e : Ste) (st stack seq : Nat) : Option Nat :=
  (List.range e.tiles).find? fun t => e.tileStack st t = stack && e.tileSeq t = seq

/-- The bytes of a tile at a region frame's slot, and whether each 32 B word is poisoned. -/
def State.tileBytesAt (s : State) (r : Region) (q n : Nat) : List Byte × List Bool :=
  let blocks := (List.range (n / 512)).map fun k =>
    let b := r.place (q + 512 * k)
    2 ^ 20 * b.1 + b.2
  (blocks.flatMap fun a => memBytes s.sdie a 512,
   blocks.flatMap fun a => (List.range 16).map fun j => s.sdiePoison.contains (a / 32 + j))

/-- The image of a tile: raw, or a compressed one of 1 to 3 quarters (R50). -/
def tileImage (comp : Bool) (bs : List Byte) : List Byte :=
  let q := if comp then Config.pressQuarters bs % 4 + 1 else 4
  if q = 4 then bs else (List.range (bs.length * q / 4)).map (Config.pressImage bs)

/-- Write one tile's image to the backing range: its poisoned words as poisoned units (R61); of a compressed image, the unit
at the same part of it. (DESIGN CHOICE, log 73.) -/
def State.spillTile (s : State) (ix frame : Nat) (e : Ste) (tile : Nat) (bs : List Byte) (ps : List Bool) (comp : Bool) : PressRes × State :=
  let img := tileImage comp bs
  (List.range (img.length / 64)).foldl (fun (r : PressRes × State) k =>
    if r.1 = .failed then r else
    let bad := (numbered 0 ps).any fun x => x.2 && x.1 * (img.length / 64) / max ps.length 1 == k
    match r.2.pressUnit ix frame (e.backing + tile * e.tileBytes + 64 * k) (some (bytesToNat ((img.drop (64 * k)).take 64), bad)) with
    | (.val _ _, s) => (r.1, s)
    | (.wait, s) => (r.1.and .wait, s)
    | (_, s) => (.failed, s)) (.done, s)

/-- The tiles of a frame: their place in it and their index. -/
def Ste.frameTiles (e : Ste) (st frame : Nat) : List (Nat × Nat) :=
  (List.range e.tpf).filterMap fun j => (e.tileOf st (frame % 2) (frame / 2 * e.tpf + j)).map fun t => (j, t)

/-- Write the tiles of a frame to the backing range. -/
def State.spillFrame (s : State) (ix frame : Nat) (f : Frame) : PressRes × State :=
  let e := s.ste ix
  let r := s.region e.regionIx
  (e.frameTiles (r.stack % 2) frame).foldl (fun (x : PressRes × State) jt =>
    if x.1 = .failed then x else
    let d := x.2.tileBytesAt r (f.region * 16384 + jt.1 * e.tileBytes) e.tileBytes
    let y := x.2.spillTile ix frame e jt.2 d.1 d.2 f.comp
    (x.1.and y.1, y.2)) (.done, s)

/-- SPILL_COMPLETE: the image is in the backing range and the frame is free; a firm one becomes the reserve. It waits for the
press's writes. A spill whose translation fails is abandoned and the frame is not chosen again (R52). -/
def execSpillComplete (ix frame : Nat) (s : State) : Out :=
  let e := s.ste ix
  match amapFind? e.frames frame with
  | some f =>
    match f.state with
    | .spilling firm =>
      if s.pressBusy ix frame then .fault .notEnabled else
      match s.spillFrame ix frame f with
      | (.wait, s) => .next { s with later := s.later ++ [.spillComplete ix frame] }
      | (.failed, s) =>
        .next (((s.pressDone ix frame).updSte ix fun e => e.setFrame frame { f with state := .resident, barred := true }).surfWake)
      | (.done, s') =>
        let saved := (s.tileBytesAt (s.region e.regionIx) (f.region * 16384) 16384).1
        let s := (s'.pressDone ix frame).updSte ix fun e => e.setFrame frame { f with state := .spilled, saved := if f.comp then saved else [] }
        let s := { s with resps := s.resps.filter (·.2 ≠ pressResp) }
        .next (if firm then s.setReserve e.regionIx (frame % 2) f.region else s).surfWake
    | _ => .fault .notEnabled
  | none => .fault .notEnabled

/-- Read one tile back: whether all has been read, its bytes, and the 512 B blocks left poisoned. (DESIGN CHOICE, log 73.) -/
def State.fillTile (s : State) (ix frame : Nat) (e : Ste) (tile : Nat) (saved : List Byte) (comp : Bool) :
    Bool × List Byte × List Bool × State :=
  let img := if comp then tileImage true saved else []
  let n := if comp then img.length else e.tileBytes
  let rd := (List.range (n / 64)).foldl (fun (x : Bool × List Byte × List Bool × State) k =>
    match x.2.2.2.pressUnit ix frame (e.backing + tile * e.tileBytes + 64 * k) none with
    | (.val v bad, s) => (x.1, x.2.1 ++ natToBytes 64 v, x.2.2.1 ++ [bad], s)
    | (.wait, s) => (false, x.2.1 ++ List.replicate 64 0, x.2.2.1 ++ [false], s)
    | (_, s) => (x.1, x.2.1 ++ List.replicate 64 0, x.2.2.1 ++ [true], s)) (true, [], [], s)
  let s := rd.2.2.2
  if !comp then
    (rd.1, rd.2.1, (List.range (e.tileBytes / 512)).map fun k => ((rd.2.2.1.drop (8 * k)).take 8).any id, s)
  else
    let bs := if rd.2.1.take n = img then saved else
      (List.range e.tileBytes).map fun k => (Config.freeValue (s.free + k)).setWidth 8
    (rd.1, bs, List.replicate (e.tileBytes / 512) (rd.2.2.1.any id), { s with free := s.free + e.tileBytes })

/-- Read the tiles of a frame back into its region frame: whether all has been read. -/
def State.fillFrame (s : State) (ix frame : Nat) (f : Frame) : Bool × State :=
  let e := s.ste ix
  let r := s.region e.regionIx
  (e.frameTiles (r.stack % 2) frame).foldl (fun (x : Bool × State) jt =>
    let d := x.2.fillTile ix frame e jt.2 ((f.saved.drop (jt.1 * e.tileBytes)).take e.tileBytes) f.comp
    (x.1 && d.1, (List.range (e.tileBytes / 512)).foldl (fun s k =>
      let b := r.place (f.region * 16384 + jt.1 * e.tileBytes + 512 * k)
      let a := 2 ^ 20 * b.1 + b.2
      let s := { s with sdie := memPut s.sdie a ((d.2.1.drop (512 * k)).take 512) }
      s.sdieMark (d.2.2.1.getD k false) ((List.range 16).map fun i => a / 32 + i)) d.2.2.2)) (true, s)

/-- FILL_COMPLETE: the tiles are in the reserve frame, which now serves the surface (R51, R52). It waits for the press's reads. -/
def execFillComplete (ix frame : Nat) (s : State) : Out :=
  match amapFind? (s.ste ix).frames frame with
  | some f =>
    if f.state ≠ .filling || s.pressBusy ix frame then .fault .notEnabled else
    match s.fillFrame ix frame f with
    | (false, s) => .next { s with later := s.later ++ [.fillComplete ix frame] }
    | (true, s) =>
      .next (((s.pressDone ix frame).updSte ix fun e => e.setFrame frame { f with state := .resident, saved := [] }).surfWake)
  | none => .fault .notEnabled

/-- FRAME_AGE_TICK: every 2^16 SCLK (R50). -/
def execFrameAgeTick (s : State) : Out := .next { s with age := s.age + 1 }

/-! ## Power domains (R55) -/

/-- DOMAIN_RETENTION_ENTER: only when its banks hold no access in flight. -/
def execDomainRetentionEnter (die k : Nat) (s : State) : Out :=
  let d := 16 * die + k
  if s.domain d ≠ .on || s.bankReqs.any (fun x => bankDomain x.bank = d) then .fault .notEnabled
  else .next (s.setDomain d .retention)
/-- DOMAIN_WAKE: an access woke it; its contents are intact. -/
def execDomainWake (die k : Nat) (s : State) : Out :=
  let d := 16 * die + k
  if s.domain d ≠ .retention then .fault .notEnabled else .next (s.setDomain d .on).surfWake
/-- A frame of an ALLOCATING or ACTIVE surface lies in a domain. -/
def State.domainHeld (s : State) (d : Nat) : Bool :=
  s.stes.any fun kv => kv.2.valid &&
    kv.2.frames.any fun f => f.2.state != .spilled && (List.range 32).any fun g =>
      bankDomain ((s.region kv.2.regionIx).place (f.2.region * 16384 + g * 512)).1 == d
/-- Drop the bytes and poison of a domain. (DEDUCED, log 77.) -/
def State.domainLose (s : State) (d : Nat) : State :=
  { s with sdie := s.sdie.filter fun kv => bankDomain (kv.1 / 2 ^ 20) ≠ d
           sdiePoison := s.sdiePoison.filter fun w => bankDomain (w * 32 / 2 ^ 20) ≠ d }
/-- DOMAIN_OFF: by power management when no frame lies in it, or forced for thermal protection. (DEDUCED, log 77.) -/
def execDomainOff (die k : Nat) (forced : Bool) (s : State) : Out :=
  let d := 16 * die + k
  if s.domain d = .off || (!forced && s.domainHeld d) then .fault .notEnabled
  else .next ((s.domainLose d).setDomain d .off).surfWake
/-- DOMAIN_ON: its frames read as zero. -/
def execDomainOn (die k : Nat) (s : State) : Out :=
  let d := 16 * die + k
  if s.domain d ≠ .off then .fault .notEnabled else .next ((s.domainLose d).setDomain d .on).surfWake

/-! ## Debugger reads (R56) -/

/-- Answer a debugger read. (DESIGN CHOICE, log 76.) -/
def State.dbgAnswer (s : State) (w : Word) (status : Nat) : State := { s with dbgAns := (w, status) :: s.dbgAns }
/-- The word whose four bytes lie at bank places, with the offsets in an entry's view where they are a surface's: a domain
that is OFF answers for all, one in RETENTION is woken. -/
def State.dbgBank (s : State) (places : List (Nat × Nat)) (e : Option (Ste × Nat)) : State :=
  let ds := places.map fun x => bankDomain x.1
  if ds.any fun d => s.domain d == .off then s.dbgAnswer 0xDEAD0FF0 1 else
  let s := if ds.any fun d => s.domain d == .retention then
      (forEach ds s fun s d => s.setDomain d .on).surfWake else s
  let v := (numbered 0 places).map fun x => match e with
    | none => memGet s.sdie (2 ^ 20 * x.2.1 + x.2.2)
    | some (e, o) => if e.dead (o + x.1) then 0 else memGet s.sdie (2 ^ 20 * x.2.1 + x.2.2)
  s.dbgAnswer (BitVec.ofNat 32 (bytesToNat v)) 0

/-- Meet the frames of the four bytes from an offset of an entry's view: whether all may be read. -/
def State.dbgFrames (s : State) (ix addr : Nat) : Bool × State :=
  let e := s.ste ix
  let ks := ((List.range 4).map fun k => (e.frameOf ((s.region e.regionIx).stack % 2) (addr + k)).1).eraseDups
  ks.foldl (fun (acc : Bool × State) k => match acc.2.touchFrame ix k with
    | (b, s) => (acc.1 && b, s)) (true, s)
/-- The bank place of a byte of an entry's view. -/
def State.viewPlace (s : State) (ix o : Nat) : Nat × Nat :=
  let e := s.ste ix
  let r := s.region e.regionIx
  let fk := e.frameOf (r.stack % 2) o
  match amapFind? e.frames fk.1 with
  | some f => r.place (f.region * 16384 + fk.2)
  | none => (0, 0)

/-- DEBUG_SURFACE_READ: one word of S-space, or of a surface's linear view. Where two regions hold an address of S-space, it
is the lowest region's. (DESIGN CHOICE, log 76.) -/
def execDebugSurfaceRead (ste : Option Nat) (addr : Nat) (s : State) : Out :=
  if s.ratioTo.isSome then .next { s with later := s.later ++ [.debugSurfaceRead ste addr] } else
  match ste with
  | none =>
    let hit := (List.range 16).find? fun r =>
      let x := s.region r
      x.ok && decide (x.base * 2 ^ 20 ≤ addr) && decide (addr + 4 ≤ x.base * 2 ^ 20 + x.size)
    match hit with
    | none => .fault .notEnabled
    | some r =>
      .next (s.dbgBank ((List.range 4).map fun k => (s.region r).place (addr + k - (s.region r).base * 2 ^ 20)) none)
  | some ix =>
    let e := s.ste ix
    match e.state with
    | .active =>
      if e.viewBytes < addr + 4 then .fault .notEnabled else
      (match s.dbgFrames ix addr with
      | (false, s) => .next { s with later := s.later ++ [.debugSurfaceRead ste addr] }
      | (true, s) => .next (s.dbgBank ((List.range 4).map fun k => s.viewPlace ix (addr + k)) (some (s.ste ix, addr))))
    | .allocating => .next { s with later := s.later ++ [.debugSurfaceRead ste addr] }
    | st => .next (s.dbgAnswer 0 (8 + st.code))

end Sys2Proof.Machine
end

