-- ==== Sys2Proof/Machine/Private.lean ====
section
/-! DEFINITION. Private windows (R28 to R30) and the return stack (R138). -/

namespace Sys2Proof.Machine

/-- `.private` bytes of a thread of a team: the night porter holds no block (R348). -/
def State.privBytes (s : State) (t : Nat) : Nat :=
  match (s.team t).kind with
  | .porter => 0
  | _ => (s.lr t).priv
/-- Spilled return-stack entries of a thread of a team. (DESIGN CHOICE, log 44.) -/
def State.rstackOf (s : State) (t : Nat) : Nat :=
  match (s.team t).kind with
  | .porter => 0
  | _ => (s.lr t).rstack

/-- The GLOBAL address of internal offset `i` of a lane (R28). (DESIGN CHOICE, log 44.) -/
def State.privAddr (s : State) (t g l i : Nat) : Nat :=
  let la := s.launch (s.team t).launch
  la.window + s.blockIx t g * (la.privSize * 32) + i / 4 * 128 + 4 * l + i % 4

/-- An access of a thread, not yet translated. -/
def State.threadAcc (s : State) (t g l pc len : Nat) (op : AOp) (va n data : Nat) (dst : Dst) : Access :=
  { who := .thread t g l, core := (s.team t).core, space := s.spaceOf t, pc := pc, len := len, op := op, va := va, pa := 0,
    n := n, cls := .priv, key := 0, h := false, data := data, cmp := 0, dst := dst, scope := .device }

/-- Perform the 4-byte pieces of a private access in turn (R28): the value, lowest piece first, or a trap.
Pieces of a page of class PRIV are performed at once. `ends` as `lastStores` gives them. -/
def State.privPieces (s : State) (t g l pc : Nat) (write : Bool) (ends : List (Nat × Nat)) (i : Nat) : List Nat → (Nat × Option Trap × State)
  | [] => (0, none, s)
  | d :: ds =>
    let a := s.threadAcc t g l pc 0 (if write then .store else .load false) (s.privAddr t g l i) 4 d (.vec 0 1)
    let a := { a with cmp := if ends.contains (l, a.va) then 1 else 0 }
    match s.startAcc (s.team t).launch a with
    | (.trap tr, s) => (0, some tr, s)
    | (.done v, s) =>
      match s.privPieces t g l pc write ends (i + 4) ds with
      | (x, tr, s) => (v + 2 ^ 32 * x, tr, s)
    | (_, s) => (0, none, s)

/-! ## The return stack -/

/-- Push a return offset: none where it traps (R138). The oldest hardware entry is spilled first when all 8 are full.
(DEDUCED, log 19.) -/
def State.pushReturn (s : State) (t g l off : Nat) : Option Trap × State :=
  let th := s.thread t g l
  let n := s.rstackOf t
  if 8 + n ≤ th.hw.length + th.spilled then (some { cause := .rstackOverflow }, s)
  else if th.hw.length < 8 then (none, s.updThread t g l fun th => { th with hw := off % 2 ^ 32 :: th.hw })
  else
    match s.privPieces t g l th.pc true [] (8 * th.spilled) [th.hw.getLastD 0, 0] with
    | (_, some tr, s) => (some tr, s)
    | (_, none, s) => (none, s.updThread t g l fun th => { th with
        hw := off % 2 ^ 32 :: th.hw.dropLast
        spilled := th.spilled + 1 })

/-- Pop a return offset, or the trap (R138): the newest spilled entry where the hardware entries are empty.
(DEDUCED, log 19.) -/
def State.popReturn (s : State) (t g l : Nat) : (Nat ⊕ Trap) × State :=
  let th := s.thread t g l
  match th.hw with
  | x :: rest => (.inl x, s.updThread t g l fun th => { th with hw := rest })
  | [] =>
    if th.spilled = 0 then (.inr { cause := .illegalOperand }, s) else
    match s.privPieces t g l th.pc false [] (8 * (th.spilled - 1)) [0, 0] with
    | (_, some tr, s) => (.inr tr, s)
    | (v, none, s) => (.inl (v % 2 ^ 32), s.updThread t g l fun th => { th with spilled := th.spilled - 1 })

end Sys2Proof.Machine
end

