-- ==== Sys2Proof/Machine/Control.lean ====
section
/-! DEFINITION. Branches, calls, EXIT, CONV, NOP and PAUSE (10_integer_control, R179 to R186; R136 to R138). -/

namespace Sys2Proof.Machine

/-! ## Branches -/

/-- Set the PC of lanes. -/
def State.setPcs (s : State) (t g : Nat) (l : List (Nat × Nat)) : State :=
  s.updGroup t g fun gr => { gr with
    threads := l.foldl (fun ths x => amapInsert ths x.1 { amapGet {} ths x.1 with pc := x.2 % 2 ^ 64 }) gr.threads }

/-- The displacement of a branch (R179): four times an 8-bit immediate, or IMM32, signed. -/
def branchDisp (o : Ops) : Int :=
  match o.a with
  | .imm b => 4 * b.toInt
  | _ => o.imm.toInt

/-- The target of a relative branch of a thread. -/
def State.relTarget (s : State) (i : Iss) (l : Nat) : Nat :=
  ((((s.thread i.t i.g l).pc : Int) + branchDisp i.o) % (2 ^ 64 : Int)).toNat

/-- Lanes jump; the others of the set go on at PC + length. -/
def Iss.jump (i : Iss) (s : State) (targets : List (Nat × Nat)) : State :=
  i.finish (s.setPcs i.t i.g targets) (targets.map (·.1)) false none

def execBra (o : Ops) (s : State) : Out :=
  issue o {} false (fun i s => i.jump s (i.parts.map fun l => (l, s.relTarget i l))) s

/-- BRA.ANY and BRA.ALL: every participant jumps, or none. -/
def braSome (o : Ops) (q : BitVec 3) (take : State → Iss → Bool) (s : State) : Out :=
  issue o { pr := [q.toNat] } false (fun i s =>
    i.jump s (if take s i then i.parts.map fun l => (l, s.relTarget i l) else [])) s
def execBraAny (o : Ops) (neg : Bool) (q : BitVec 3) (s : State) : Out :=
  braSome o q (fun s i => i.parts.any fun l => srcP s i l q neg) s
def execBraAll (o : Ops) (neg : Bool) (q : BitVec 3) (s : State) : Out :=
  braSome o q (fun s i => i.parts.all fun l => srcP s i l q neg) s

/-- The target CODE + a of an indirect branch; MISALIGNED where a is not a multiple of 4 (R181). -/
def State.absTarget (s : State) (i : Iss) (l : Nat) : Nat ⊕ Trap :=
  let a := (src32 s i l i.o.a).toNat
  let code := (s.lr i.t).code
  if a % 4 = 0 then .inl ((code + a) % 2 ^ 64) else .inr { cause := .misaligned, addr := (code + a) % 2 ^ 64 }

/-- BRX: each participant goes to its own target (R181). (DEDUCED, log 18.) -/
def execBrx (o : Ops) (s : State) : Out :=
  issue o { src := [(o.a, 1)] } false (fun i s =>
    let ts := i.parts.map fun l => (l, s.absTarget i l)
    let s' := forEach ts s fun s x => match x.2 with
      | .inr tr => s.takeTrap i.t i.g x.1 tr
      | .inl _ => s
    i.jump s' (ts.filterMap fun x => match x.2 with
      | .inl a => some (x.1, a)
      | .inr _ => none)) s

/-- One lane of a call: push the return offset and jump, or trap with nothing done. -/
def State.callLane (s : State) (i : Iss) (l : Nat) (target : Nat ⊕ Trap) : State :=
  match target with
  | .inr tr => s.takeTrap i.t i.g l tr
  | .inl a =>
    let pc := (s.thread i.t i.g l).pc
    match s.pushReturn i.t i.g l ((pc + i.o.len.bytes + 2 ^ 64 - (s.lr i.t).code) % 2 ^ 64) with
    | (some tr, s) => s.takeTrap i.t i.g l tr
    | (none, s) => s.setPcs i.t i.g [(l, a)]

def execCall (o : Ops) (s : State) : Out :=
  issue o {} false (fun i s =>
    i.finish (forEach i.parts s fun s l => s.callLane i l (.inl (s.relTarget i l))) i.parts false none) s
/-- CALLX: as BRX, with the return offset pushed (R138, R181). (DEDUCED, log 18.) -/
def execCallx (o : Ops) (s : State) : Out :=
  issue o { src := [(o.a, 1)] } false (fun i s =>
    i.finish (forEach i.parts s fun s l => s.callLane i l (s.absTarget i l)) i.parts false none) s
def execRet (o : Ops) (s : State) : Out :=
  issue o {} false (fun i s =>
    i.finish (forEach i.parts s fun s l =>
      match s.popReturn i.t i.g l with
      | (.inr tr, s) => s.takeTrap i.t i.g l tr
      | (.inl off, s) => s.setPcs i.t i.g [(l, (s.lr i.t).code + off)]) i.parts false none) s

/-! ## EXIT (R183) -/

/-- End a thread by EXIT. -/
def State.exitThread (s : State) (t g l : Nat) : State :=
  (s.updThread t g l fun th => th.finish false).afterEnd t g

def execExit (o : Ops) (s : State) : Out :=
  issue o {} false (fun i s =>
    i.finish (forEach i.parts s fun s l => s.exitThread i.t i.g l) [] false none) s

/-! ## Waiting instructions -/

/-- Finish a waiting instruction (R142): the set goes past it, the lanes given wait, the run ends. -/
def Iss.finishWait (i : Iss) (s : State) (lanes : List Nat) (c : Cond) : State :=
  let going := i.going s
  let s := s.advance i.t i.g going i.o.len.bytes
  let s := s.putWait i.t i.g (lanes.filter fun l => going.contains l) c
  s.endIssue i.t i.g i.run.lanes i.o.rb true none

/-- CONV: each participant waits with its own mask; CONV_RELEASE releases. A mask of 0 only ends the run (R184).
(DEDUCED, log 121.) -/
def execConv (o : Ops) (s : State) : Out :=
  issue o { src := [(o.a, 1)] } false (fun i s =>
    let masks := (i.parts.map fun l => (l, src32 s i l o.a)).filter fun x => x.2 ≠ 0
    let s := s.advance i.t i.g (i.going s) o.len.bytes
    let s := s.updGroup i.t i.g fun gr => { gr with
      threads := masks.foldl (fun ths x => amapInsert ths x.1 { amapGet {} ths x.1 with stat := .conv x.2 }) gr.threads }
    s.endIssue i.t i.g i.run.lanes o.rb true none) s

/-- Lanes that wait at a CONV, with their masks. -/
def Group.convLanes (g : Group) : List (Nat × Word) :=
  g.threads.filterMap fun kv => match kv.2.stat with
    | .conv m => some (kv.1, m)
    | _ => none
/-- Remove from a set the lanes whose mask names a live lane outside it, until none is left to remove: the
largest closed set (R137). -/
def closedSet (live : List Nat) : Nat → List (Nat × Word) → List (Nat × Word)
  | 0, s => s
  | n + 1, s =>
    closedSet live n (s.filter fun x => live.all fun k => !x.2.getLsbD k || s.any fun y => y.1 = k)
/-- The lanes that CONV releases now. -/
def Group.convSet (g : Group) : List Nat := (closedSet g.liveLanes 33 g.convLanes).map (·.1)

/-- CONV_RELEASE: every thread of the largest closed set goes on (R137). -/
def execConvRelease (tid gix : Nat) (s : State) : Out :=
  match (s.group tid gix).convSet with
  | [] => .fault .notEnabled
  | ls => .next (s.updGroup tid gix fun gr => gr.readySince s.cclk { gr with
      threads := amapMap (fun l th => if ls.contains l then
        { th with stat := if th.pend.isSome then .parked else .ready, pend := none } else th) gr.threads })

def execNop (o : Ops) (s : State) : Out := issue o {} false (fun i s => i.finish s [] false none) s

/-- PAUSE: the count is that of the lowest participant (R186). (DEDUCED, log 121.) -/
def execPause (o : Ops) (s : State) : Out :=
  issue o { src := [(o.a, 1)] } false (fun i s =>
    match i.parts with
    | [] => i.finish s [] true none
    | l :: _ =>
      let n := (src32 s i l o.a).toNat % 2 ^ 16
      if n = 0 then i.finish s [] true none else i.finishWait s i.parts (.pause (s.cclk + n))) s

/-- PAUSE_EXPIRY: the count has run out. -/
def execPauseExpiry (tid gix wid : Nat) (s : State) : Out :=
  match s.waitOf tid gix wid with
  | some ⟨_, .pause u⟩ => if u ≤ s.cclk then .next (s.endWait tid gix wid) else .fault .notEnabled
  | _ => .fault .notEnabled

/-! ## Results (R142, R224) -/

def execLoadResultLand (id : Nat) (s : State) : Out := landResult false id s
def execMediumResultReady (id : Nat) (s : State) : Out := landResult true id s

end Sys2Proof.Machine
end

