-- ==== Sys2Proof/Machine/System.lean ====
section
/-! DEFINITION. Special registers and progress counters (10_integer_control, R187 to R190, R193; R127, R73). -/

namespace Sys2Proof.Machine

/-! ## ROWSTAT (Table 04-3) -/

/-- The row booked under a key of a space. -/
def State.row? (s : State) (space key : Nat) : Option Row := amapFind? s.rows (256 * space + key)
/-- Whether a team holds the row now: a hold that is not one saved by pre-emption. -/
def Row.heldBy (r : Row) (t : Nat) : Bool := r.holders.contains t && !r.savedBy.contains t
/-- Holds on a core (R66): rows held by its teams. -/
def State.heldOn (s : State) (core : Nat) : Nat :=
  s.rows.foldl (fun n kv => n + (kv.2.holders.filter fun t => (s.team t).core = core && !kv.2.savedBy.contains t).length) 0
/-- Booking entries of a core that are taken: those in use and those owed to teams placed from a save (R72). -/
def State.bookedOn (s : State) (core : Nat) : Nat :=
  s.rows.foldl (fun n kv => n + (kv.2.holders.filter fun t => (amapFind? s.teams t).any fun tm => tm.core = core).length) 0
/-- KSTATE of a key for a team. (DESIGN CHOICE, log 78.) -/
def Row.kstate (r : Row) (t : Nat) : Nat :=
  if r.dropped.contains t then 3
  else if !r.heldBy t then 0
  else match r.state with
    | .refresh => 2
    | .restoring | .saved => 4
    | _ => 1
/-- ROWSTAT as SREAD and PKRD return it. -/
def State.rowstat (s : State) (t g : Nat) : Word :=
  let gr := s.group t g
  let key := gr.rowKey.toNat
  let f := match s.row? (s.spaceOf t) key with
    | none => 0
    | some r => 2 ^ 16 * min r.susp 255 + 2 ^ 8 * min r.holders.length 15 + 2 ^ 4 * r.kstate t
  BitVec.ofNat 32 (2 ^ 24 * key + 2 ^ 12 * s.heldOn (s.team t).core + f + gr.rowLast.toNat)

/-! ## SREAD (Table 10-8) -/

/-- The core clock counter (R190). (DESIGN CHOICE, log 1.) -/
def State.clockOf (s : State) (core : Nat) : Nat := (s.core core).clock + s.cclk

/-- The value of a special register for a thread. -/
def State.sreg (s : State) (t g l code : Nat) : Word :=
  let tm := s.team t
  let la := s.launch tm.launch
  let r := la.lr
  let cl := s.cluster tm.cluster
  let n : Nat := match code with
    | 0x00 => l
    | 0x01 => g
    | 0x02 => tm.rank % r.cw
    | 0x03 => tm.rank / r.cw
    | 0x04 => 0
    | 0x05 => r.tx
    | 0x06 => r.ty
    | 0x07 => r.tz
    | 0x08 => tm.rank
    | 0x09 => r.cw + 2 ^ 8 * r.ch
    | 0x0A => cl.gx
    | 0x0B => cl.gy
    | 0x0C => cl.gz
    | 0x0D => r.gx
    | 0x0E => r.gy
    | 0x0F => r.gz
    | 0x10 => tm.core
    | 0x11 => coreDie tm.core
    | 0x12 => coreWing tm.core
    | 0x18 => s.clockOf tm.core
    | 0x19 => s.clockOf tm.core / 2 ^ 32
    | 0x1A => s.devtime
    | 0x20 => (s.thread t g l).fpm.toNat
    | 0x21 => (s.rowstat t g).toNat
    | 0x22 => (s.thread t g l).trapCause.toNat
    | c => if 0x30 ≤ c ∧ c ≤ 0x43 then (s.bar t (c - 0x30)).phase.toNat else 0
  BitVec.ofNat 32 n

/-- An earlier medium-latency result of one of the lanes is outstanding (R207). -/
def State.mediumOut (s : State) (t g : Nat) (lanes : List Nat) : Bool :=
  s.pends.any fun kv => kv.2.team = t && kv.2.gix = g && kv.2.medium &&
    (kv.2.scalar || kv.2.regs.any (fun r => lanes.contains r.1) || kv.2.preds.any fun r => lanes.contains r.1)

/-- SREAD and SWRITE of FPM leave their slot empty until medium-latency results are ready (R207). -/
def fpmHold (code : BitVec 8) (i : Iss) (s : State) (body : State → State) : State :=
  if code = 0x20 && s.mediumOut i.t i.g i.parts then { s with turn := .later } else body s

def execSread (o : Ops) (sc : Bool) (code : BitVec 8) (s : State) : Out :=
  issue o { (o.uses 0 0 0 1 sc) with sform := sc } false (fun i s =>
    fpmHold code i s fun s =>
      if sc then
        match i.parts with
        | [] => i.finish s [] false none
        | l :: _ =>
          let x := s.sreg i.t i.g l code.toNat
          let s := if o.nw then s else s.writeS i.t i.g o.d.toNat x
          i.finish s [] false (some ⟨true, x.setWidth 64, []⟩)
      else
        let rs := i.parts.map fun l => (l, res32 o.d (s.sreg i.t i.g l code.toNat))
        i.finish (i.writeLanes s rs) [] false (some (vecLatch rs))) s

/-- SREAD.W: all 64 bits in one read (R188). -/
def execSreadW (o : Ops) (code : BitVec 8) (s : State) : Out :=
  vecIssue o (o.uses 0 0 0 2 false) true (fun s i _ =>
    res64 o.d (BitVec.ofNat 64 (if code = 0x18 then s.clockOf (s.team i.t).core else s.devtime))) s

/-- SWRITE (R189): FPM of each participant, or KEY of ROWSTAT from the lowest participant. -/
def execSwrite (o : Ops) (code : BitVec 8) (s : State) : Out :=
  issue o { src := [(o.a, 1)] } false (fun i s =>
    if code = 0x20 then
      fpmHold code i s fun s =>
        let rs : List (Nat × LaneRes) := i.parts.map fun l =>
          let x := src32 s i l o.a
          (l, if fpmLegal x then { fpm := some x } else { trap := some { cause := .illegalOperand } })
        i.finish (i.writeLanes s rs) [] false none
    else
      match i.parts with
      | [] => i.finish s [] false none
      | l :: _ =>
        let x := src32 s i l o.a
        i.finish (s.updGroup i.t i.g fun gr => { gr with rowKey := (x >>> 24).setWidth 8 }) [] false none) s

/-! ## PROG (R193) -/

def execProg (o : Ops) (s : State) : Out :=
  issue o { src := [(o.a, 1)] } false (fun i s =>
    match i.parts with
    | [] => i.finish s [] false none
    | l :: _ =>
      let k := (src32 s i l o.a).toNat
      if 16 ≤ k then i.finish (s.takeTraps i.t i.g i.parts { cause := .illegalOperand }) [] false none
      else
        let s := s.updSpace (s.spaceOf i.t) fun sp =>
          { sp with prog := amapInsert sp.prog k (amapGet 0 sp.prog k + BitVec.ofNat 64 i.parts.length) }
        i.finish s [] false none) s

end Sys2Proof.Machine
end

