-- ==== Sys2Proof/Machine/Pointer.lean ====
section
/-! DEFINITION. Pointers and their checks (02_address_spaces, R19 to R26), and the bytes of a scratchpad. -/

namespace Sys2Proof.Machine

/-- The space tag of a pointer (R19). -/
def ptrTag (p : Nat) : Nat := bitField 63 60 p

/-- The zero fields of Table 02-1 are zero. -/
def ptrZero (p : Nat) : Bool :=
  match ptrTag p with
  | 0 => bitField 59 57 p == 0
  | 1 => true
  | 2 => bitField 59 19 p == 0
  | 3 => bitField 59 52 p == 0 && bitField 47 19 p == 0
  | 4 => bitField 59 19 p == 0
  | 5 => bitField 59 32 p == 0
  | 7 => bitField 59 15 p == 0 && bitField 11 0 p == 0
  | _ => false

/-! ## Scratchpads (R25, R26) -/

/-- `.scratch` of a team; fragment groups and the night porter have none (R324, R348). -/
def State.scratchSize (s : State) (t : Nat) : Nat :=
  match (s.team t).kind with
  | .fragment | .porter => 0
  | _ => (s.lr t).scratch
/-- The team of a rank in the cluster of a team; the scratchpad of one that has ended stays while the cluster lives. -/
def State.teamOfRank (s : State) (t rank : Nat) : Option Nat := (s.clusterOf t).teams[rank]?

/-- Read scratchpad bytes: the value, and whether a 32 B word read is poisoned. -/
def State.scrRead (s : State) (t o n : Nat) : Nat × Bool :=
  let tm := s.pad t
  (memRead tm.scratch o n, tm.scrPoison.contains (o / 32) || tm.scrPoison.contains ((o + n - 1) / 32))
/-- Write scratchpad bytes. -/
def State.scrWrite (s : State) (t o n x : Nat) : State :=
  s.updPad t fun tm => { tm with scratch := memWrite tm.scratch o n x }
/-- Poison or clear words of 32 B of a scratchpad. -/
def State.scrMark (s : State) (t : Nat) (p : Bool) (ws : List Nat) : State :=
  s.updPad t fun tm =>
    let l := tm.scrPoison.filter fun w => !ws.contains w
    { tm with scrPoison := if p then ws ++ l else l }
/-- A presence bit is set: no copy is outstanding on the 128 B line (R282). -/
def State.present (s : State) (t o : Nat) : Bool := amapGet 0 (s.pad t).presence (o / 128) == 0

/-! ## Checks (Table 02-3) -/

/-- Whether the `n` bytes of a SCRATCH, CLUSTER or PRIVATE pointer, or its rank, are out of range: one byte for check 6. -/
def State.rangeBad (s : State) (t p n : Nat) : Bool :=
  match ptrTag p with
  | 2 => decide (s.scratchSize t < p % 2 ^ 19 + n)
  | 3 => (s.teamOfRank t (bitField 51 48 p)).isNone || decide (s.scratchSize t < p % 2 ^ 19 + n)
  | 5 => decide (s.privBytes t < p % 2 ^ 32 + n)
  | _ => false

/-- The team holds the key, or keeps it DROPPED. -/
def State.keyHeld (s : State) (t key : Nat) : Bool :=
  match s.row? (s.spaceOf t) key with
  | none => false
  | some r => r.heldBy t || r.dropped.contains t

/-- A team holds a key, which it does not merely keep DROPPED: its LDW and STW have the fixed latency (R69, R72). -/
def State.keyOpenFor (s : State) (t key : Nat) : Bool :=
  match s.row? (s.spaceOf t) key with
  | none => false
  | some r => r.heldBy t

/-- Checks 1 to 8 of Table 02-3 on one thread's pointer, in order: the first that fails. `coord` replaces check 7 in
the coordinate form (R226). A last byte beyond the declared size is out of range too (R25: it cannot be reached).
(DEDUCED, log 42.) -/
def State.ptrCheck (s : State) (t g p n : Nat) (accept : List Nat) (coord : Option Bool) (align : Bool) : Option Trap :=
  let tag := ptrTag p
  let tr (c : Cause) : Option Trap := some { cause := c, addr := p }
  if !accept.contains tag || !ptrZero p then tr .tagMismatch
  else if tag = 7 && !(s.group t g).roleC then tr .apertureRole
  else if tag = 1 && !s.inSteWindow (s.spaceOf t) (surfIx p) then tr .privilege
  else if (tag = 1 && !(s.ste (surfIx p)).valid) || (tag = 4 && !s.keyHeld t (bitField 18 11 p)) then tr .illegalOperand
  else if s.rangeBad t p 1 then tr .scratchRange
  else if tag = 1 && (match coord with
      | some bad => bad
      | none => decide ((s.ste (surfIx p)).viewBytes ≤ surfOff p)) then tr .illegalOperand
  else if align && p % n ≠ 0 then tr .misaligned
  else if s.rangeBad t p n then tr .scratchRange
  else none

end Sys2Proof.Machine
end

