-- ==== Sys2Proof/Machine/Coherence.lean ====
section
/-! DEFINITION. The coherence messages of Table 05-1: what the core or the home that receives one does
(R80, R82 to R87, R37). -/

namespace Sys2Proof.Machine

/-! ## Transactions at the home -/

def State.addTxn (s : State) (t : Txn) : State := { s with txns := s.txns ++ [t] }
/-- A request for a line that is being served waits at the home: they are served in order of arrival (R82). -/
def State.again (s : State) (line : Nat) (i : Instr) : Out := .next { s with homeWait := s.homeWait ++ [(line, i)] }
/-- The requests that wait for a line are served next, in their order, once it is not busy. -/
def State.homeWake (s : State) (line : Nat) : State :=
  if s.lineBusy line then s else
  { s with
    msgs := (s.homeWait.filter (·.1 = line)).map (·.2) ++ s.msgs
    homeWait := s.homeWait.filter (·.1 ≠ line) }
/-- A transaction is over. -/
def State.dropTxn (s : State) (t : Txn) : State :=
  let s := { s with txns := s.txns.erase t }
  match t with
  | .fill l _ _ _ _ | .intent l _ _ _ _ _ | .recall l _ _ _ | .inval l _ _ _ => s.homeWake l
  | .darn _ _ _ _ | .publish _ _ _ _ _ => s
/-- A transaction waits for less. -/
def State.swapTxn (s : State) (t t' : Txn) : State := { s with txns := s.txns.map fun x => if x = t then t' else x }

/-- The home's L2 line. -/
def State.l2At (s : State) (line : Nat) : L2Line := amapGet { data := 0 } s.l2 line
def State.updL2 (s : State) (line : Nat) (f : L2Line → L2Line) : State :=
  { s with l2 := amapInsert s.l2 line (f (s.l2At line)) }
/-- A demoted line: served at the home (R82, R85). -/
def State.demoted (s : State) (line : Nat) : Bool := (s.l2At line).demoted || s.chained line

/-- A line whose masks span more than four cores is demoted (R85): every sharer is recalled first. -/
def State.demoteIfDue (s : State) (line : Nat) : State :=
  if s.lineBusy line || (s.l2At line).demoted || !s.chained line || (amapFind? s.l2 line).isNone then s else
  let sh := (s.l2At line).sharers
  if sh.isEmpty then s.updL2 line fun l => { l with demoted := true }
  else sh.foldl (fun s c => s.send (.recall c line)) (s.addTxn (.recall line sh true false))

/-- Answer a fill (R84): RACE where another core's live write mask meets the bytes wanted, else the data
with the foreign bytes, and whether the core is the only sharer. FILLD carries the verdict. (DEDUCED, log 112.) -/
def State.fillAnswer (s : State) (core line : Nat) (bytes : ByteMask) (acc : Nat) : State :=
  let l := s.l2At line
  let race := bytes != 0 && s.raceAt line core bytes false
  let sole := l.sharers.all (· = core)
  let s := if race then s else s.updL2 line fun l => { l with sharers := core :: l.sharers.filter (· ≠ core) }
  (s.send (.filld core line l.data l.poison (s.foreignBytes line core) sole race acc)).demoteIfDue line

/-- An access of a demoted line, and those that wait for its fill, are performed at the home (R85). -/
def State.fillHop (s : State) (acc : Nat) (a : Access) : State :=
  let hop (s : State) (id : Nat) (x : Access) : State :=
    { s with accs := amapInsert s.accs id { x with filling := false, rides := false } }.send (.hop id)
  forEach (s.accs.filter fun kv => kv.2.core = a.core && kv.2.pline = a.pline && kv.2.rides && kv.1 ≠ acc) (hop s acc a) fun s kv =>
    hop s kv.1 kv.2

/-- FILL at the home (R82). -/
def execFill (core line : Nat) (bytes : ByteMask) (acc : Nat) (s : State) : Out :=
  match amapFind? s.accs acc with
  | none => .fault .notEnabled
  | some a =>
    if s.lineBusy line then s.again line (.fill core line bytes acc) else
    let s := s.l2Fetch line a.key
    if s.demoted line then .next (s.fillHop acc a) else
    let l := s.l2At line
    match l.sharers.filter (· ≠ core) with
    | [c] =>
      if l.sharers.contains core then .next (s.fillAnswer core line bytes acc)
      else .next ((s.addTxn (.fill line core bytes acc [c])).send (.mprobe c line))
    | _ => .next (s.fillAnswer core line bytes acc)

/-- MPROBE at the sole sharer: it answers with its masks and the line is shared (R80). -/
def execMprobe (core line : Nat) (s : State) : Out :=
  match (s.core core).l1Tracked line with
  | none => .next (s.send (.mrep core line none none))
  | some l => .next ((s.l1Each core fun x => some (if x.pline = line then { x with sole := false } else x)).send
      (.mrep core line l.g0 l.g1))

/-- MREP at the home: the masks enter the mask store, and the fill that waited is answered. -/
def execMrep (core line : Nat) (g0 g1 : Option Gen) (s : State) : Out :=
  let s := s.maskPut line core g0 g1
  match s.txns.find? fun t => match t with
    | .fill l _ _ _ w => l = line && w.contains core
    | _ => false with
  | some (.fill l a b acc w) =>
    let s := s.dropTxn (.fill l a b acc w)
    .next (s.fillAnswer a line b acc)
  | _ => .next (s.demoteIfDue line)

/-- Finish an access with data that a fill brought (R80, R87). -/
def State.fillDone (s : State) (id : Nat) (a : Access) (line : Nat) : State :=
  match (s.core a.core).l1Tracked line with
  | none => s
  | some l =>
    match a.op with
    | .store =>
      if l.sole || (a.bytes &&& ~~~ l.im = 0 && a.bytes &&& l.fd = 0) then
        (s.l1StoreHit a l false).finishAcc id a 0
      else s.sendIntent id a
    | _ =>
      let r := s.l1LoadHit a l
      r.2.settle id a r.1

/-- An access that waited for another's fill is tried again on the line as it stands: it completes, or misses again. -/
def State.rideOn (s : State) (id : Nat) (a : Access) : State :=
  match (s.core a.core).l1Tracked a.pline with
  | none => s.startFill id a
  | some l =>
    if a.op = .store || a.bytes &&& (~~~ l.bv ||| l.fd) = 0 then
      let a := { a with rides := false }
      { s with accs := amapInsert s.accs id a }.fillDone id a a.pline
    else s.sendFill id a
/-- Data that serves an access once (R87): a load completes with it, a store starts again as to an absent line. -/
def State.serveOnce (s : State) (id : Nat) (a : Access) (data : Line) (poison : BitVec 2) : State :=
  match a.op with
  | .store => s.startFill id a
  | _ =>
    if poison.getLsbD (a.pa % 128 / 64) then s.failAcc id a (poisonTrap a.va a.pa)
    else s.finishAcc id a (lineRead data (a.va % 128) a.n)

/-- FILLD at the core: the line takes the data, and the accesses that waited complete or miss again; a line that an INV or
RECALL overtook serves the waiting loads once and is not installed (R87). A line that the core holds by now through a page of
another class leaves the L1, so that the access follows the class of its own entry (R38). (DEDUCED, log 112.) -/
def execFilld (core line : Nat) (data : Line) (poison : BitVec 2) (fd : ByteMask) (sole race : Bool) (acc : Nat)
    (s : State) : Out :=
  match amapFind? s.accs acc with
  | none => .fault .notEnabled
  | some a =>
    let wait := s.accs.filter fun kv => kv.1 ≠ acc && kv.2.core = core && kv.2.pline = line && kv.2.rides && kv.2.once = a.once
    let a := { a with filling := false }
    let s := { s with accs := amapInsert s.accs acc a }
    if race then .next (forEach wait (s.failAcc acc a { cause := .race, addr := a.va }) fun s kv => s.rideOn kv.1 kv.2)
    else if a.once then
      .next (forEach wait (s.serveOnce acc a data poison) fun s kv => s.serveOnce kv.1 kv.2 data poison)
    else
      let s := match (s.core core).l1Tracked line with
        | some l => s.l1Put core { l.fill data poison fd with sole := sole }
        | none =>
          let s := (s.l1Oust core line).l1Room core (a.va / 128)
          s.l1Put core { space := a.space, vline := a.va / 128, pline := line, cls := .tracked, key := a.key, data := data,
                         bv := BitVec.allOnes 128, dm := 0, fd := fd, sole := sole, w := a.lw, poison := poison }
      .next (forEach wait (s.fillDone acc a line) fun s kv => s.rideOn kv.1 kv.2)

/-- Check a write against every other core's live masks and answer it: GRANT with its write mask recorded, or
RNACK; an atomic is performed here, and one that races fails (R84). (DEDUCED, log 49.) -/
def State.intentAnswer (s : State) (core line : Nat) (bytes : ByteMask) (epoch acc : Nat) : State :=
  match amapFind? s.accs acc with
  | none => s
  | some a =>
    if a.op.isAtom then
      if s.raceAt line core bytes true then (s.failAcc acc a { cause := .race, addr := a.va }).demoteIfDue line
      else
        let r := s.atHome a
        match r.1 with
        | .done v =>
          let s := r.2.maskPut line core none (some ⟨epoch, 0, bytes⟩)
          ({ s with accs := amapInsert s.accs acc { a with value := some v } }.send (.hopr acc)).demoteIfDue line
        | x => (r.2.settle acc a x).demoteIfDue line
    else if s.raceAt line core bytes true then (s.send (.rnack core line acc)).demoteIfDue line
    else
      ((s.maskPut line core none (some ⟨epoch, 0, bytes⟩)).send (.grant core line acc)).demoteIfDue line

/-- Gather the masks of every other sharer, then answer. -/
def State.gather (s : State) (core line : Nat) (bytes : ByteMask) (epoch acc : Nat) : State :=
  let others := (s.l2At line).sharers.filter (· ≠ core)
  if others.isEmpty then s.intentAnswer core line bytes epoch acc
  else others.foldl (fun s c => s.send (.mark c line bytes)) (s.addTxn (.intent line core bytes epoch acc others))

/-- INTENT at the home (R82). -/
def execIntent (core line : Nat) (bytes : ByteMask) (epoch acc : Nat) (s : State) : Out :=
  match amapFind? s.accs acc with
  | none => .fault .notEnabled
  | some a =>
    if s.lineBusy line then s.again line (.intent core line bytes epoch acc) else
    let s := s.l2Fetch line a.key
    if s.demoted line then .next (s.send (.hop acc)) else .next (s.gather core line bytes epoch acc)

/-- MARK at a sharer: FD on the named bytes, the line is shared, its masks are returned (R80). -/
def execMark (core line : Nat) (bytes : ByteMask) (s : State) : Out :=
  match (s.core core).l1Tracked line with
  | none => .next (s.send (.markr core line none none))
  | some l => .next ((s.l1Each core fun x => some (if x.pline = line then { x with sole := false, fd := x.fd ||| bytes } else x)).send
      (.markr core line l.g0 l.g1))

/-- MARKR at the home: the masks enter the mask store; after the last, the intent is answered. -/
def execMarkr (core line : Nat) (g0 g1 : Option Gen) (s : State) : Out :=
  let s := s.maskPut line core g0 g1
  match s.txns.find? fun t => match t with
    | .intent l _ _ _ _ w => l = line && w.contains core
    | _ => false with
  | some (.intent l a b e acc w) =>
    let w' := w.filter (· ≠ core)
    if w'.isEmpty then .next ((s.dropTxn (.intent l a b e acc w)).intentAnswer a line b e acc)
    else .next (s.swapTxn (.intent l a b e acc w) (.intent l a b e acc w'))
  | _ => .next (s.demoteIfDue line)

/-- GRANT at the core: the store is performed, with its intent (R80). For a line that left L1 meanwhile the store starts again
as one to an absent line. (DEDUCED, log 112.) -/
def execGrant (core line acc : Nat) (s : State) : Out :=
  match amapFind? s.accs acc with
  | none => .fault .notEnabled
  | some a =>
    match (s.core core).l1Tracked line with
    | some l => .next ((s.l1StoreHit a l true).finishAcc acc a 0)
    | none => .next (s.startFill acc a)

/-- RNACK at the core: RACE on the store, of which no byte is written. -/
def execRnack (_core _line acc : Nat) (s : State) : Out :=
  match amapFind? s.accs acc with
  | none => .fault .notEnabled
  | some a => .next (s.failAcc acc a { cause := .race, addr := a.va })

/-! ## Write-backs, recalls, darning -/

/-- A RECALL's answers are all in: the line is demoted, or leaves L2. -/
def State.recallDone (s : State) (line : Nat) (demote evict : Bool) : State :=
  let s := s.updL2 line fun l => { l with sharers := [], demoted := l.demoted || demote }
  if evict then s.l2Drop line else s

/-- A RECALL of a line that waits for a core has its answer (R87). -/
def State.recallServed (s : State) (core line : Nat) : State :=
  match s.txns.find? fun t => match t with
    | .recall l w _ _ => l = line && w.contains core
    | _ => false with
  | some (.recall l w d e) =>
    let w' := w.filter (· ≠ core)
    if w'.isEmpty then (s.dropTxn (.recall l w d e)).recallDone line d e
    else s.swapTxn (.recall l w d e) (.recall l w' d e)
  | _ => s

/-- WB at the home (R82): merge the bytes marked, keep live masks, and answer; a write-back for an acquirer
that shares the line sends it INV first. An eviction's WB that crosses a RECALL satisfies it (R87). -/
def execWb (core line key : Nat) (data : Line) (poison : BitVec 2) (dm : ByteMask) (g0 g1 : Option Gen) (why : WbWhy)
    (s : State) : Out :=
  let s := s.mergeLine { space := 0, vline := 0, pline := line, cls := .tracked, key := key, data := data, bv := dm,
                         dm := dm, poison := poison }
  let s := s.maskPut line core g0 g1
  match why with
  | .plain | .recall => .next (((s.send (.wback core line why)).recallServed core line).demoteIfDue line)
  | .darn a _ _ =>
    if a ≠ core && (s.l2At line).sharers.contains a then
      .next ((s.addTxn (.inval line a core why)).send (.inv a line dm))
    else .next ((s.send (.wback core line why)).demoteIfDue line)

/-- Send the DARNACKs that wait for write-backs, once none is outstanding (R83). -/
def State.darnAcks (s : State) (core : Nat) : State :=
  let k := s.core core
  if k.outWb ≠ 0 then s else
  (k.darns.foldl (fun s d => s.send (.darnack core d.1 false d.2.2)) s).updCore core fun k => { k with darns := [] }

/-- WBACK at the core. -/
def execWback (core _line : Nat) (why : WbWhy) (s : State) : Out :=
  match why with
  | .darn _ _ _ => .next ((s.updCore core fun k => { k with outWb := k.outWb - 1 }).darnAcks core)
  | _ => .next s

/-- RECALL at a sharer: WB with its masks, and the line is gone (R80, R87). -/
def execRecall (core line : Nat) (s : State) : Out :=
  let s := s.overtake core line
  match (s.core core).l1Tracked line with
  | none => .next (s.send (.wb core line 0 0 0 0 none none .recall))
  | some l => .next ((s.l1Drop core l).send (.wb core line l.key l.data l.poison l.dm l.g0 l.g1 .recall))

/-- DARN at the releaser (R80, R83): write back what generations up to `e` wrote; stale and published epochs
are acknowledged at once. -/
def execDarn (core epoch acquirer syncLine : Nat) (s : State) : Out :=
  if (s.core core).epoch ≤ epoch then .next (s.send (.darnack core epoch true syncLine))
  else if epoch ≤ s.pubOf (homeOf syncLine) core then .next (s.send (.darnack core epoch false syncLine))
  else
    let ls := (s.core core).l1.filter fun l => l.cls = .tracked && s.darnBytes core epoch l != 0
    let s := ls.foldl (fun s l =>
      let m := s.darnBytes core epoch l
      (s.l1Each core fun x => some (if x.is l.space l.vline then x.darned epoch m else x)).send
        (.wb core l.pline l.key l.data l.poison m l.g0 l.g1 (.darn acquirer epoch syncLine))) s
    .next ((s.updCore core fun k => { k with outWb := k.outWb + ls.length, darns := k.darns ++ [(epoch, acquirer, syncLine)] }).darnAcks core)

/-- Reply to every access that waited for a darning. -/
def State.replyAll (s : State) (accs : List Nat) : State := accs.foldl (fun s a => s.send (.hopr a)) s

/-- DARNACK at the synchronisation word's home (R83): PUBLISH to every slice, or, for a stale record, rewrite
it to (C, 0) and reply. -/
def execDarnack (core epoch : Nat) (stale : Bool) (syncLine : Nat) (s : State) : Out :=
  match s.txns.find? fun t => match t with
    | .darn l c e _ => l = syncLine && c = core && e = epoch
    | _ => false with
  | some (.darn l c e accs) =>
    let s := s.dropTxn (.darn l c e accs)
    if stale then .next ({ s with homeRec := amapSet (0, 0) s.homeRec syncLine (core, 0) }.replyAll accs)
    else .next ((List.range 192).foldl (fun s sl => s.send (.publish sl core epoch syncLine))
      (s.addTxn (.publish core epoch syncLine (List.range 192) accs)))
  | _ => .fault .notEnabled

/-- INV at the acquirer: the named bytes that are not dirty are no longer valid (R80, R87). -/
def execInv (core line : Nat) (bytes : ByteMask) (s : State) : Out :=
  .next (((s.overtake core line).l1Inv core line bytes).send (.invack core line))

/-- INVACK at the home: the write-back that caused the INV is acknowledged (R83). -/
def execInvack (core line : Nat) (s : State) : Out :=
  match s.txns.find? fun t => match t with
    | .inval l a _ _ => l = line && a = core
    | _ => false with
  | some (.inval l a c why) => .next (((s.dropTxn (.inval l a c why)).send (.wback c line why)).demoteIfDue line)
  | _ => .fault .notEnabled

/-- PUBLISH at a slice (R77). -/
def execPublish (slice core epoch syncLine : Nat) (s : State) : Out :=
  .next (((s.setPub slice core epoch).purgeMasks slice).send (.puback slice core epoch syncLine))

/-- PUBACK at the synchronisation word's home: after all 192 the acquires that waited are answered. -/
def execPuback (slice core epoch syncLine : Nat) (s : State) : Out :=
  match s.txns.find? fun t => match t with
    | .publish c e l w _ => c = core && e = epoch && l = syncLine && w.contains slice
    | _ => false with
  | some (.publish c e l w accs) =>
    let s := s.dropTxn (.publish c e l w accs)
    let w' := w.filter (· ≠ slice)
    if w'.isEmpty then .next (s.replyAll accs) else .next (s.addTxn (.publish c e l w' accs))
  | _ => .fault .notEnabled

/-! ## HOP and REPL -/

/-- Note the value an access obtained at its home. -/
def State.accValue (s : State) (id : Nat) (a : Access) (v : Nat) : State :=
  { s with accs := amapInsert s.accs id { a with value := some v } }

/-- Start a darning for an acquire that found record (C, e), or join the one in progress (R83). -/
def State.startDarn (s : State) (id core epoch line acquirer : Nat) : State :=
  let joins (t : Txn) : Bool := match t with
    | .darn l c e _ => l = line && c = core && decide (epoch ≤ e)
    | .publish c e l _ _ => l = line && c = core && decide (epoch ≤ e)
    | _ => false
  if s.txns.any joins then
    { s with txns := s.txns.map fun t => if !joins t then t else match t with
        | .darn l c e as => .darn l c e (as ++ [id])
        | .publish c e l w as => .publish c e l w (as ++ [id])
        | t => t }
  else (s.addTxn (.darn line core epoch [id])).send (.darn core epoch acquirer line)

/-- Serve an access where its word lives: `get` reads it and `put` writes it. A synchronisation access is
answered by HOPR once its darning is over; a plain one by HOPR, or at once where `direct` (R36, R83, R398, R401). -/
def State.serve (s : State) (id : Nat) (a : Access) (direct : Bool) (get : State → Nat × Bool × State)
    (put : State → Nat → State) : State :=
  let r := get s
  let s := r.2.2
  let a := a.seen r.2.1
  if r.2.1 && a.op.reads && a.dst ≠ .none then s.failAcc id a (poisonTrap a.va a.pa) else
  match a.op.ord with
  | .none =>
    let s := match (a.perform r.1).2 with
      | none => s
      | some x => put s x
    if direct then s.finishAcc id a r.1 else (s.accValue id a r.1).send (.hopr id)
  | _ =>
    let x := s.syncPerform a r.1 put
    let s := x.2.accValue id a r.1
    let c := x.1.1
    let e := x.1.2
    if a.wideAcq && c ≠ a.core && decide (s.pubOf (homeOf a.recLine) c < e) then s.startDarn id c e a.recLine a.core
    else s.send (.hopr id)

/-- HOP at the home (R82, R86); an access of a demoted line that races fails. (DEDUCED, log 49; DEDUCED, log 112.) -/
def execHop (acc : Nat) (s : State) : Out :=
  match amapFind? s.accs acc with
  | none => .fault .notEnabled
  | some a =>
    let line := a.pline
    match a.cls with
    | .repl =>
      let r := s.replLine line (coreDie a.core) a.key
      if !r.pending.isEmpty then s.again line (.hop acc) else
      let s := s.replPut line (coreDie a.core) r
      if r.poison.getLsbD (a.pa % 128 / 64) && a.dst ≠ .none then .next (s.failAcc acc a (poisonTrap a.va a.pa))
      else .next ((s.accValue acc a (lineRead r.data (a.pa % 128) a.n)).send (.hopr acc))
    | .tracked =>
      if s.lineBusy line then s.again line (.hop acc) else
      let s := s.l2Fetch line a.key
      let b := byteMask (a.pa % 128) a.n
      if s.demoted line then
        if s.raceAt line a.core b a.op.writes then .next (s.failAcc acc a { cause := .race, addr := a.va })
        else
          let r := s.atHome a
          match r.1 with
          | .done v =>
            let e := (s.core a.core).epoch
            let s := r.2.maskPut line a.core none (some (if a.op.writes then ⟨e, 0, b⟩ else ⟨e, b, 0⟩))
            .next ((s.accValue acc a v).send (.hopr acc))
          | x => .next (r.2.settle acc a x)
      else if a.op.isAtom then .next (s.gather a.core line b (s.core a.core).epoch acc)
      else .next (s.startFill acc a)
    | _ =>
      .next (s.serve acc a false (fun s => s.homeRead a.pa a.n a.key) (fun s x => (s.homeWrite a.pa a.n a.key x).unitStored a))

/-- HOPR at the core: the access completes, and an acquire takes effect. -/
def execHopr (acc : Nat) (s : State) : Out :=
  match amapFind? s.accs acc with
  | none => .fault .notEnabled
  | some a =>
    match a.value with
    | none => .fault .notEnabled
    | some v => .next ((s.syncDone a).finishAcc acc a v)

/-- RSTORE at die 0: a place in its order, forwarded to both replicas (R37). -/
def execRstore (acc : Nat) (s : State) : Out :=
  match amapFind? s.accs acc with
  | none => .fault .notEnabled
  | some a => .next (({ s with accs := amapInsert s.accs acc { a with snoops := [0, 1] } }.send (.rfwd 0 acc)).send (.rfwd 1 acc))

/-- RFWD at a replica: it marks the line pending and acknowledges. -/
def execRfwd (die acc : Nat) (s : State) : Out :=
  match amapFind? s.accs acc with
  | none => .fault .notEnabled
  | some a =>
    let r := s.replLine a.pline die a.key
    .next ((s.replPut a.pline die { r with pending := r.pending ++ [acc] }).send (.rpack die acc))

/-- RPACK at die 0: with both acknowledgements it commits. -/
def execRpack (die acc : Nat) (s : State) : Out :=
  match amapFind? s.accs acc with
  | none => .fault .notEnabled
  | some a =>
    let w := a.snoops.filter (· ≠ die)
    let s := { s with accs := amapInsert s.accs acc { a with snoops := if w.isEmpty then [0, 1] else w } }
    if w.isEmpty then .next ((s.send (.rcommit 0 acc)).send (.rcommit 1 acc)) else .next s

/-- RCOMMIT at a replica: the new value is readable; with both committed the store completes. The first of the two also writes
the bytes of device memory, from which an absent replica is read. (DEDUCED, log 120.) -/
def execRcommit (die acc : Nat) (s : State) : Out :=
  match amapFind? s.accs acc with
  | none => .fault .notEnabled
  | some a =>
    let r := s.replLine a.pline die a.key
    let r := { r with
      data := lineWrite r.data (a.pa % 128) a.n a.data
      pending := r.pending.filter (· ≠ acc)
      poison := if a.whole then r.poison &&& ~~~ BitVec.ofNat 2 (2 ^ (a.pa % 128 / 64)) else r.poison }
    let w := a.snoops.filter (· ≠ die)
    let s := if a.snoops.length = 2 then (s.rowWrite a.pa a.n a.key a.data).unitStored a else s
    let s := s.replPut a.pline die r
    let s := { s with accs := amapInsert s.accs acc { a with snoops := w } }
    let s := s.homeWake a.pline
    if w.isEmpty then .next (s.finishAcc acc a 0) else .next s

end Sys2Proof.Machine
end

