-- ==== Sys2Proof/Machine/Walker.lean ====
section
/-! DEFINITION. The walkers of a wing (06_translation, R98): serving a walk that waits, and what follows for the accesses
that wait for it. -/

namespace Sys2Proof.Machine

/-- A V access, or a PFG's, that waited for a walk of its wing's walkers tries again. -/
def State.walkResume (s : State) (id : Nat) (a : Access) : State :=
  match a.who with
  | .thread t _ _ =>
    let a := { a with snoops := [] }
    let r := s.startAt (some id) (s.team t).launch a
    r.2.settle id a r.1
  | .unit (.prefetch la) => ({ s with accs := amapErase s.accs id }).prefetchAt la a.core a.va
  | _ => s

/-- The V accesses of a wing that wait for a page's walk, or for a place in the queue, in the order in which they missed. -/
def State.walkWaiters (s : State) (wing : Nat) : List (Nat × Access) :=
  s.accs.filter fun kv => kv.2.snoops.contains walkWait && coreWing kv.2.core = wing

/-- Change a walk of a wing, or take it out. -/
def State.updWalk (s : State) (wing : Nat) (w : Walk) (f : Walk → Option Walk) : State :=
  s.updWing wing fun x => { x with walkQ := x.walkQ.filterMap fun y => if y = w then f y else some y }

/-- The units of host-bias pages that the walk reads: each is snooped first (R398). -/
def walkUnits (s : State) (reads : List Nat) : List Nat := ((reads.filter s.hostBias).map (· / 64)).eraseDups

/-- Carry out a walk: its leaf fills the TLB that missed and those of the requesters that joined; another outcome is left to
its requesters. -/
def State.walkDo (s : State) (wing : Nat) (w : Walk) : State :=
  match s.walk wing w.space w.va w.write w.need with
  | (.leaf f, s) => (forEach w.tlbs s fun s k => s.tlbFill wing w.space k w.va f none).updWalk wing w fun _ => none
  | (.format lvl e, s) => s.updWalk wing w fun x => some { x with served := some (lvl, some e) }
  | (.breach lvl, s) => s.updWalk wing w fun x => some { x with served := some (lvl, none) }

/-- The V accesses that waited for a walk have tried again: an outcome that was left is now for the other TLBs only. -/
def State.walkTidy (s : State) (wing : Nat) : State :=
  let tidy (w : Walk) : Option Walk :=
    let ks := w.tlbs.filter (· ≠ .vtlb)
    if w.served.isNone then some w else if ks.isEmpty then none else some { w with tlbs := ks }
  s.updWing wing fun x => { x with walkQ := x.walkQ.filterMap tidy }

/-- PAGE_WALK: one of the four walkers serves a walk of the queue (R92, R98). A walk that a shootdown covers waits for its end
(R108), and so does one that reads a page being flipped (R397); table entries in host bias are snooped first; an address of
the space's translation cache is not walked (R391). (DEDUCED, log 114.) -/
def execPageWalk (wing : Nat) (tlb : TlbKind) (space va : Nat) (kind : AccKind) (s : State) : Out :=
  match ((s.wing wing).walking.take 4).find? fun w => w.space = space && w.va = va && w.write == (kind == .write) && w.tlbs.contains tlb with
  | none => .fault .notEnabled
  | some w =>
    let root := bitField 51 12 (s.space space).root.toNat * 4096
    let st := walkStart (s.wing wing) space va root
    let reads := if 0x2FFFFFF000 < root then [] else walkReads s space va (5 - st.1) st.1 st.2
    let units := walkUnits s reads
    if s.shoots.any (fun kv => kv.2.hits space va 1) || reads.any s.flipping || w.snoops.any (fun u => !u.isEmpty) then .fault .notEnabled
    else if !units.isEmpty && w.snoops.isNone then .next (s.updWalk wing w fun x => some { x with snoops := some units })
    else
      let s := if (s.space space).inCache va then s.updWalk wing w fun _ => none else s.walkDo wing w
      .next ((forEach (s.walkWaiters wing) s fun s x => s.walkResume x.1 x.2).walkTidy wing)

/-- The host has answered a snoop of a walk (R398). -/
def State.walkSnooped (s : State) (unit : Nat) : Option State :=
  let waits (w : Walk) : Bool := w.snoops.any fun u => u.contains unit
  (s.wings.find? fun kv => kv.2.walkQ.any waits).map fun kv =>
    s.updWing kv.1 fun x => { x with walkQ := x.walkQ.map fun w => { w with snoops := w.snoops.map fun u => u.filter (· ≠ unit) } }

end Sys2Proof.Machine
end

