-- ==== Sys2Proof/Machine/Engine.lean ====
section
/-! DEFINITION. Memory as the engines reach it: the C path of copies and the M path of the matrix stream
(R111, R284, R256, R257). Engines read L2, scratchpad and banks directly. -/

namespace Sys2Proof.Machine

/-- Where a span of an engine's access lies. -/
inductive EPlace where
  | dev (pa key : Nat) (cls : PClass)
  | host (pa : Nat)
  | scr (team o : Nat)
  | surf (ix o bank byte addr : Nat)
  deriving DecidableEq, Repr

/-- How an engine's pointer resolves. -/
inductive ERes where
  | go (p : EPlace)
  | wait
  | trap (t : Trap)
  | breach (level : Nat)
  deriving DecidableEq, Repr

/-- Resolve a pointer that passed its issue checks: translation, lodging and class for GLOBAL, whose miss waits for its walk
(R98), the bank for SURFACE. `tlb` is the engine's. -/
def State.eResolve (s : State) (t p : Nat) (tlb : TlbKind) (write : Bool) (need : Need) (pin : Option (Nat × Nat)) : ERes × State :=
  match ptrTag p with
  | 1 =>
    match s.reach (surfIx p) (surfOff p) true p with
    | (.go bank byte addr, s) => (.go (.surf (surfIx p) (surfOff p) bank byte addr), s)
    | (.wait, s) => (.wait, s)
    | (.trap tr, s) => (.trap tr, s)
  | 2 => (.go (.scr t (p % 2 ^ 19)), s)
  | 3 => match s.teamOfRank t (bitField 51 48 p) with
    | some x => (.go (.scr x (p % 2 ^ 19)), s)
    | none => (.trap { cause := .scratchRange, addr := p }, s)
  | _ =>
    let wing := coreWing (s.team t).core
    let la := (s.team t).launch
    let kind : AccKind := if write then .write else .read
    match s.translate wing la tlb p kind need pin with
    | (.wait, s) => (.wait, s)
    | (.trap tr, s) => (.trap tr, s)
    | (.breach l, s) => (.breach l, s)
    | (.ok x, s) =>
      if x.h then (.go (.host x.pa), s)
      else if s.flipping x.pa then (.wait, s)
      else if x.cls = .repl && !(s.replLine (x.pa / 128) (coreDie (s.team t).core) x.key).pending.isEmpty then (.wait, s)
      else (.go (.dev x.pa x.key x.cls), s)

/-- Read `n` bytes inside one line for an engine of a core: the value, whether a byte is poisoned, the state. -/
def State.eRead (s : State) (core : Nat) (p : EPlace) (n : Nat) : Nat × Bool × State :=
  match p with
  | .host pa => (s.hGet pa n, s.hBad pa, s)
  | .scr t o =>
    let r := s.scrRead t o n
    (r.1, r.2, s)
  | .surf ix o bank byte _ =>
    let r := s.bankRead (s.ste ix) o bank byte n
    (r.1, r.2, s)
  | .dev pa key cls => s.devGet core pa n key cls

/-- Write `n` bytes inside one line; `poison` marks the destination units (R61). (DESIGN CHOICE, log 93.) -/
def State.eWrite (s : State) (core : Nat) (p : EPlace) (n x : Nat) (poison : Bool) : State :=
  match p with
  | .host pa => if poison then (s.hPut pa n x).hMark pa true else s.hPut pa n x
  | .scr t o =>
    let s := s.scrWrite t o n x
    if poison then s.scrMark t true [o / 32, (o + n - 1) / 32] else s
  | .surf ix o bank byte _ =>
    let s := s.bankWrite (s.ste ix) o bank byte n x
    if poison then s.sdieMark true [(2 ^ 20 * bank + byte) / 32] else s
  | .dev pa key cls =>
    let s := s.devPut pa n key cls x poison
    if cls = .repl || s.hostBias pa then s else s.eInv core pa n cls

/-- Clear the poison of the unit of a place that an engine has written whole (R61): 64 B of device memory, 32 B of
scratchpad or of a bank. -/
def State.eClean (s : State) (p : EPlace) : State :=
  match p with
  | .host pa => s.hMark pa false
  | .scr t o => s.scrMark t false [o / 32]
  | .surf _ _ bank byte _ => s.sdieMark false [(2 ^ 20 * bank + byte) / 32]
  | .dev pa _ cls => s.devSound pa cls
/-- The unit of a place is poisoned. -/
def State.ePoisoned (s : State) (p : EPlace) : Bool :=
  match p with
  | .host pa => s.hBad pa
  | .scr t o => (s.pad t).scrPoison.contains (o / 32)
  | .surf _ _ bank byte _ => s.sdiePoison.contains ((2 ^ 20 * bank + byte) / 32)
  | .dev pa _ cls =>
    let replica (die : Nat) : Bool := match amapFind? s.repl (2 * (pa / 128) + die) with
      | some r => r.poison.getLsbD (pa / 64 % 2)
      | none => false
    if cls = .repl then replica 0 || replica 1 || s.dramPoison.contains (pa / 64) else
    match amapFind? s.l2 (pa / 128) with
    | some l => l.poison.getLsbD (pa / 64 % 2)
    | none => s.dramPoison.contains (pa / 64)
/-- Bytes of a place's unit of poison. -/
def EPlace.unit (p : EPlace) : Nat :=
  match p with
  | .dev _ _ _ | .host _ => 64
  | _ => 32

/-! ## Accesses that wait -/

/-- An access of an engine, not yet resolved. -/
structure EReq where
  who  : Who
  team : Nat
  p    : Nat
  n    : Nat
  tlb  : TlbKind
  need : Need
  pin  : Option (Nat × Nat)
  op   : AOp
  data : Nat
  bad  : Bool

/-- The access as it goes in flight. -/
def State.engAcc (s : State) (r : EReq) (pa key : Nat) (cls : PClass) (h : Bool) (snoops : List Nat) : Access :=
  { who := r.who, core := (s.team r.team).core, space := s.spaceOf r.team, pc := 0, len := 0, op := r.op, va := r.p, pa := pa,
    n := r.n, cls := cls, key := key, h := h, data := r.data, cmp := 0, dst := .none, scope := .group, snoops := snoops, bad := r.bad }

/-- Write at a place for an engine. An MST byte lands in L2, the scratchpad or the bank; copies in an L1 stay as they are
(R256). -/
def State.engPut (s : State) (r : EReq) (q : EPlace) (x : Nat) (bad : Bool) : State :=
  match r.who, q with
  | .stream t _, .dev pa key cls =>
    let s := s.homeWrite pa r.n key x
    if cls = .tracked then s.mstNote t (pa / 128) (byteMask (pa % 128) r.n) else s
  | _, q => s.eWrite (s.team r.team).core q r.n x bad

/-- A byte that the matrix stream reads may already be the one that its core has stored in L1 and not written back: nothing orders the
M path after the V path before a crossing (R121, R250). (DEDUCED, log 57.) -/
def State.mEarly (s : State) (r : EReq) (q : EPlace) (x : Nat × Bool × State) : Nat × Bool × State :=
  match r.who, q with
  | .stream _ _, .dev pa _ _ =>
    (match (s.core (s.team r.team).core).l1Phys (pa / 128) with
    | some l =>
      if l.dm &&& byteMask (pa % 128) r.n = byteMask (pa % 128) r.n then
        let y := { x.2.2 with free := x.2.2.free + 1 }
        if Config.freeChoice x.2.2.free % 2 = 0 then (x.1, x.2.1, y) else (lineRead l.data (pa % 128) r.n, false, y)
      else x
    | none => x)
  | _, _ => x

/-- Perform an access at its place at once. -/
def State.engNow (s : State) (r : EReq) (q : EPlace) : EAns × State :=
  let core := (s.team r.team).core
  let x := if r.op.reads then s.mEarly r q (s.eRead core q r.n) else (0, false, s)
  let s := x.2.2
  match r.op.update r.n x.1 r.data 0 with
  | none => (.val x.1 x.2.1, s)
  | some v => (.val x.1 r.bad, s.engPut r q v r.bad)

/-- An engine's work has an access in flight. -/
def State.engBusy (s : State) (who : Who) : Bool := s.accs.any fun kv => kv.2.who = who && kv.2.value.isNone

/-- Carry on with an engine's access (R53, R111, R256, R284, R398, R401): at once where it can be performed at once; else it
is put in flight, to its bank, to the host or to the completer of its H page, and answers once it has been performed there. -/
def State.eAccess (s : State) (r : EReq) : EAns × State :=
  match s.engFind r.who r.p r.op.writes with
  | some a => (a.answer, s)
  | none =>
    let core := (s.team r.team).core
    let fly (a : Access) (s : State) : EAns × State := (.wait, (s.accNew a).2)
    match s.eResolve r.team r.p r.tlb r.op.writes r.need r.pin with
    | (.trap tr, s) => (.trap tr, s)
    | (.breach l, s) => (.breach l, s)
    | (.wait, s) => if ptrTag r.p = 1 then fly (s.engAcc r 0 0 .priv false [surfWait]) s else (.wait, s)
    | (.go q, s) =>
      match q with
      | .host pa => fly (s.engAcc r pa 0 .priv true []) s
      | .dev pa key cls =>
        if s.hostBias pa then fly (s.engAcc r pa key cls false [biasMark (pa / 64)]) s else s.engNow r q
      | .scr _ _ => s.engNow r q
      | .surf _ _ bank _ _ =>
        let a := s.engAcc r 0 0 .priv false []
        let x := s.accNew a
        (.wait, x.2.bankAskAcc bank x.1 a)

/-- Clear the poison of the units that an engine's work has written whole: `writes` tells its bytes by pointer, `us` the 32 B pointer
units that it touches, `tainted` whether what it wrote to a unit of a size is poisoned. Whether no translation must be waited for. -/
def State.eCleanUnits (s : State) (t : Nat) (tlb : TlbKind) (writes : Nat → Bool) (tainted : Nat → Nat → Bool) (us : List Nat) : Bool × State :=
  us.foldl (fun (r : Bool × State) u =>
    match r.2.eResolve t (32 * u) tlb false .plain none with
    | (.go p, s) =>
      let w := p.unit
      let b := 32 * u / w * w
      (r.1, if s.ePoisoned p && !tainted (b / w) w && (List.range w).all (fun j => writes (b + j)) then s.eClean p else s)
    | (.wait, s) => (false, s)
    | _ => r) (true, s)

end Sys2Proof.Machine
end

