-- ==== Sys2Proof/Machine/Copy.lean ====
section
/-! DEFINITION. The block-transfer engine (14_copy, R275 to R290): issue and its checks, the elements of a copy,
landing, source release, faults, and the copy instructions. -/

namespace Sys2Proof.Machine

/-! ## Templates (Table 14-1) -/

def tf (x : BitVec 512) (hi lo : Nat) : Nat := bitField hi lo x.toNat
/-- A signed 32-bit field. -/
def tfs (x : BitVec 512) (lo : Nat) : Int := (BitVec.ofNat 32 (tf x (lo + 31) lo)).toInt

def tmplKind (x : BitVec 512) : Nat := tf x 62 61
def tmplE (x : BitVec 512) : Nat := 2 ^ tf x 60 58
def tmplBen (x : BitVec 512) : Bool := tf x 51 51 == 1
def tmplBmap (x : BitVec 512) : Nat := tf x 50 47
def tmplChbase (x : BitVec 512) : Nat := tf x 46 41
def tmplDim (x : BitVec 512) (k : Nat) : Nat := tf x (191 - 16 * k) (176 - 16 * k) + 1
def tmplAtype (x : BitVec 512) : Nat := tf x 54 52
/-- The template's scope is cluster or wider (R32, Table 09-6). -/
def tmplWide (x : BitVec 512) : Bool := decide (2 ≤ tf x 57 55)
/-- The bytes that ATYPE adds. -/
def atypeBytes (a : Nat) : Nat := if a = 1 then 8 else 4

def Copy.src0 (c : Copy) : Nat := (((tf c.tmpl 511 448 : Int) + c.iter * tfs c.tmpl 224) % (2 ^ 64 : Int)).toNat
def Copy.dst0 (c : Copy) : Nat := (((tf c.tmpl 447 384 : Int) + c.iter * tfs c.tmpl 192) % (2 ^ 64 : Int)).toNat
def Copy.e (c : Copy) : Nat := tmplE c.tmpl

/-- Elements of the copy. -/
def Copy.total (c : Copy) : Nat :=
  if c.gather || c.scatter then c.rows.length * tmplDim c.tmpl 0
  else tmplDim c.tmpl 0 * tmplDim c.tmpl 1 * tmplDim c.tmpl 2

/-- Source and destination offsets of element `k` from src0 and dst0 (R278, R289). -/
def Copy.offs (c : Copy) (k : Nat) : Int × Int :=
  let d0 := tmplDim c.tmpl 0
  let e : Int := c.e
  let i0 : Int := (k % d0 : Nat)
  if c.gather || c.scatter then
    let r := c.rows.getD (k / d0) (0, 0)
    if c.gather then (r.2 * tfs c.tmpl 352 + i0 * e, (r.1 : Int) * tfs c.tmpl 288 + i0 * e)
    else ((r.1 : Int) * tfs c.tmpl 352 + i0 * e, r.2 * tfs c.tmpl 288 + i0 * e)
  else
    let d1 := tmplDim c.tmpl 1
    let i1 : Int := (k / d0 % d1 : Nat)
    let i2 : Int := (k / d0 / d1 : Nat)
    let so := i0 * e + i1 * tfs c.tmpl 352 + i2 * tfs c.tmpl 320
    if tmplKind c.tmpl = 1 then (so, i1 * e + i0 * tfs c.tmpl 288 + i2 * tfs c.tmpl 256)
    else (so, i0 * e + i1 * tfs c.tmpl 288 + i2 * tfs c.tmpl 256)

/-- A pointer plus an offset, modulo 2^64. -/
def ptrAdd (p : Nat) (o : Int) : Nat := (((p : Int) + o) % (2 ^ 64 : Int)).toNat

/-- The lowest and the highest byte offsets that the copy touches, on the source or the destination side. -/
def Copy.span (c : Copy) (dst : Bool) : Int × Int :=
  let n (k : Nat) : Int := (tmplDim c.tmpl k : Int) - 1
  let e : Int := c.e
  if c.gather || c.scatter then
    let os := (List.range c.rows.length).map fun r =>
      let x := c.offs (r * tmplDim c.tmpl 0)
      if dst then x.2 else x.1
    (os.foldl min (os.headD 0), os.foldl max (os.headD 0) + n 0 * e + e - 1)
  else
    let ts : List Int :=
      if !dst then [n 0 * e, n 1 * tfs c.tmpl 352, n 2 * tfs c.tmpl 320]
      else if tmplKind c.tmpl = 1 then [n 1 * e, n 0 * tfs c.tmpl 288, n 2 * tfs c.tmpl 256]
      else [n 0 * e, n 1 * tfs c.tmpl 288, n 2 * tfs c.tmpl 256]
    (ts.foldl (fun a x => a + min 0 x) 0, ts.foldl (fun a x => a + max 0 x) 0 + e - 1)

/-- Chunks of the copy (R279, R281): one for a gather or scatter. -/
def Copy.nc (c : Copy) : Nat := if c.gather || c.scatter then 1 else ((c.span true).2 / 512).toNat + 1
def Copy.chunkOf (c : Copy) (k : Nat) : Nat := if c.gather || c.scatter then 0 else ((c.offs k).2 / 512).toNat
/-- A copy has landed: every chunk has. -/
def Copy.landed (c : Copy) : Bool := decide (c.nc ≤ c.chunks.length)

/-! ## The checks at issue (R279) -/

/-- Check 1: the template is defined and holds no reserved code or bit. -/
def tmplBad (x : BitVec 512) : Bool :=
  tf x 63 63 != 1 || tf x 143 64 != 0 || tf x 40 0 != 0 || decide (4 < tf x 60 58) || decide (5 < tf x 57 55) ||
  (tmplKind x == 2 && decide (4 < tmplAtype x))

/-- Check 3 on one byte of a side: checks 4 to 7 of Table 02-3. -/
def State.copyEnd (s : State) (t p0 : Nat) (off : Int) : Option Trap :=
  let tr (c : Cause) : Option Trap := some { cause := c, addr := ptrAdd p0 off }
  match ptrTag p0 with
  | 1 =>
    let e := s.ste (surfIx p0)
    let o := (surfOff p0 : Int) + off
    if !s.inSteWindow (s.spaceOf t) (surfIx p0) then tr .privilege
    else if !e.valid then tr .illegalOperand
    else if o < 0 ∨ (e.viewBytes : Int) ≤ o then tr .illegalOperand else none
  | 2 =>
    let o := (p0 % 2 ^ 19 : Nat) + off
    if o < 0 ∨ (s.scratchSize t : Int) ≤ o then tr .scratchRange else none
  | 3 =>
    let o := (p0 % 2 ^ 19 : Nat) + off
    if (s.teamOfRank t (bitField 51 48 p0)).isNone then tr .scratchRange
    else if o < 0 ∨ (s.scratchSize t : Int) ≤ o then tr .scratchRange else none
  | _ => none

/-- The first failing check of a copy (R279). (DEDUCED, log 55.) -/
def State.copyCheck (s : State) (c : Copy) : Option Trap :=
  let x := c.tmpl
  let t := c.team
  let kind := tmplKind x
  let e : Int := c.e
  let dt : List Nat := if kind = 3 then [2] else if kind = 2 then [0, 2, 3] else [0, 1, 2, 3]
  let tr (cs : Cause) (a : Nat) : Option Trap := some { cause := cs, addr := a }
  let sp := c.span false
  let dp := c.span true
  if tmplBad x then tr .illegalOperand 0
  else if !(List.contains [0, 1, 2, 3] (ptrTag c.src0)) || !ptrZero c.src0 then tr .tagMismatch c.src0
  else if !dt.contains (ptrTag c.dst0) || !ptrZero c.dst0 then tr .tagMismatch c.dst0
  else match [(c.src0, sp.1), (c.src0, sp.2), (c.dst0, dp.1), (c.dst0, dp.2)].findSome? fun y => s.copyEnd t y.1 y.2 with
  | some f => some f
  | none =>
    if [352, 320, 288, 256, 224, 192].any (fun lo => tfs x lo % e != 0) || (c.src0 : Int) % e ≠ 0 then tr .misaligned c.src0
    else if (c.dst0 : Int) % e ≠ 0 then tr .misaligned c.dst0
    else if (kind = 2 && atypeBytes (tmplAtype x) ≠ c.e) || (kind = 3 && decide (tf x 57 55 < 2)) then tr .illegalOperand 0
    else if tmplBen x && (decide (dp.1 < 0) || decide ((64 : Int) < tmplChbase x + (dp.2 / 512 + 1))) then tr .illegalOperand 0
    else none

/-- Read 16 B pieces of a template from an address on, `n` of them left: the template as a number. -/
def State.tmplRead (s : State) (t va : Nat) : Nat → URes × State
  | 0 => (.ok 0 0, s)
  | n + 1 =>
    match s.unitRead (.template t) t va 16 16 .ctlb .read with
    | (.ok d _, s) =>
      (match s.tmplRead t (va + 16) n with
      | (.ok x a, s) => (.ok (x * 2 ^ 128 + d) a, s)
      | r => r)
    | (.breach va l, s) => (.trap { cause := .outOfLodging, addr := va }, s.breach (s.team t).launch va l)
    | r => r

/-- The templates of a team are no longer waited for. -/
def State.templatesDone (s : State) (t : Nat) (ns : List Nat) : State :=
  forEach ns s fun s n => s.unitTake (.template t) ((s.lr t).code + 64 * n) 64

/-- The template of a team (R277): from its cache, else read at CODE + 64*n through the CTLB. None where it must be waited for. -/
def State.template (s : State) (t n : Nat) : Option (BitVec 512 ⊕ Trap) × State :=
  match amapFind? (s.team t).templates n with
  | some x => (some (.inl x), s)
  | none =>
    match s.tmplRead t ((s.lr t).code + 64 * n) 4 with
    | (.ok x _, s) =>
      let x := BitVec.ofNat 512 x
      (some (.inl x), (s.templatesDone t [n]).updTeam t fun tm => { tm with templates := amapInsert tm.templates n x })
    | (.trap tr, s) => (some (.inr tr), s)
    | (_, s) => (none, s)

/-- The templates of a list of numbers, or none where one must be waited for. -/
def State.templates (s : State) (t : Nat) : List Nat → Option (List (Nat × (BitVec 512 ⊕ Trap))) × State
  | [] => (some [], s)
  | n :: ns =>
    match s.template t n with
    | (none, s) => (none, s)
    | (some x, s) => (match s.templates t ns with
      | (some l, s) => (some ((n, x) :: l), s)
      | r => r)

/-! ## Issue (R275, R276, R282, R283) -/

/-- Copies of a core that have not landed. -/
def State.coreCopies (s : State) (core : Nat) : List (Nat × Copy) := s.copies.filter fun kv => (s.team kv.2.team).core = core
/-- Room for one more copy on a channel of a core (R276). -/
def State.copyRoom (s : State) (core ch : Nat) : Bool :=
  let l := s.coreCopies core
  decide (l.length < 64) && decide ((l.filter fun kv => kv.2.ch = ch).length < 16)

/-- The scratchpad lines that a copy writes: (team, line). -/
def State.copyLines (s : State) (c : Copy) : List (Nat × Nat) :=
  let tgt := match ptrTag c.dst0 with
    | 2 => some c.team
    | 3 => s.teamOfRank c.team (bitField 51 48 c.dst0)
    | _ => none
  match tgt with
  | none => []
  | some t => ((List.range c.total).map fun k => (t, ptrAdd c.dst0 (c.offs k).2 % 2 ^ 19 / 128)).eraseDups

/-- Issue a checked copy: it takes its place, clears presence, and counts. -/
def State.copyIssue (s : State) (c : Copy) : State :=
  let lines := s.copyLines c
  let id := s.uid
  let s := forEach lines s fun s x => s.updPad x.1 fun tm =>
    let n := amapGet 0 tm.presence x.2
    { tm with
      presence := amapSet 0 tm.presence x.2 (n + 1)
      wideLines := if n = 0 then tm.wideLines.filter (· ≠ x.2) else tm.wideLines }
  let s := s.updTeam c.team fun tm => { tm with issued := amapInsert tm.issued c.ch (amapGet 0 tm.issued c.ch + 1) }
  { s with uid := id + 1, copies := amapInsert s.copies id { c with lines := lines }
           later := s.later ++ [.copyElementMove (s.team c.team).core id] }

/-- An aperture store of one participant (R275) with its template: the copy it issues, or its trap; none where the channel or
the engine is full (R276). -/
def State.apertureStore (s : State) (t g l pc p data : Nat) (x : BitVec 512 ⊕ Trap) : Option (Option Trap × State) :=
  match x with
  | .inr tr => some (some tr, s)
  | .inl x =>
    let c : Copy := { team := t, gix := g, lane := l, pc := s.pcOffset t pc, ch := bitField 14 12 p, tmpl := x,
                      iter := (BitVec.ofNat 26 (data / 64)).toInt }
    match s.copyCheck c with
    | some tr => some (some tr, s)
    | none => if s.copyRoom (s.team t).core c.ch then some (none, s.copyIssue c) else none

/-! ## Running (R278, R285, R286) -/

/-- A copy that comes before: the team's earlier copies on the channel that still hold their source or have not landed.
(DESIGN CHOICE, log 54.) -/
def State.copyTurn (s : State) (id : Nat) (c : Copy) : Bool :=
  !s.copies.any fun kv => decide (kv.1 < id) && kv.2.team == c.team && kv.2.ch == c.ch

/-- RELEASED of a channel advances. -/
def State.releaseSource (s : State) (c : Copy) : State :=
  s.updTeam c.team fun tm => { tm with released := amapInsert tm.released c.ch (amapGet 0 tm.released c.ch + 1) }

/-- End a copy's part of the counts of lines; `wide`: its scope is cluster or wider. -/
def State.linesEnd (s : State) (wide : Bool) (ls : List (Nat × Nat)) : State :=
  forEach ls s fun s x => s.updPad x.1 fun tm =>
    { tm with
      presence := amapSet 0 tm.presence x.2 (amapGet 0 tm.presence x.2 - 1)
      wideLines := if wide && !tm.wideLines.contains x.2 then x.2 :: tm.wideLines else tm.wideLines }

/-- A destination pointer byte belongs to the copy. -/
def Copy.writes (c : Copy) (p : Nat) : Bool :=
  (List.range c.total).any fun k =>
    let d := ptrAdd c.dst0 (c.offs k).2
    decide (d ≤ p) && decide (p < d + c.e)
/-- Some unit of poison is set that a copy of a team could clear. -/
def State.poisonAbout (s : State) (c : Copy) : Bool :=
  !(s.dramPoison.isEmpty && s.sdiePoison.isEmpty && s.hPoison.isEmpty && (s.team c.team).scrPoison.isEmpty &&
    (c.lines.all fun x => (s.pad x.1).scrPoison.isEmpty) && (s.l2.all fun kv => kv.2.poison = 0) && (s.repl.all fun kv => kv.2.poison = 0))
/-- Clear the poison of the units of a chunk that the copy wrote whole with sound data (R61): whether the translation of none need be
waited for. -/
def State.copyClean (s : State) (c : Copy) (chunk : Nat) : Bool × State :=
  if !s.poisonAbout c then (true, s) else
  let ks := (List.range c.total).filter fun k => c.chunkOf k = chunk
  let us := (ks.map fun k => ptrAdd c.dst0 (c.offs k).2 / 32).eraseDups
  s.eCleanUnits c.team .ctlb c.writes (fun b w => c.tainted.any fun x => 32 * x / w = b) us

/-- The lines whose part has ended once elements below `pos` have landed. -/
def Copy.linesDone (c : Copy) : List (Nat × Nat) :=
  let all := decide (c.nc ≤ c.chunks.length)
  if all then c.lines
  else if tmplKind c.tmpl = 3 then []
  else c.lines.filter fun x => (List.range c.total).all fun k =>
    ptrAdd c.dst0 (c.offs k).2 % 2 ^ 19 / 128 ≠ x.2 || c.chunks.contains (c.chunkOf k)

/-- A chunk lands: its bit is set, lines whose bytes have all landed end their part of the count, and a copy whose chunks have all
landed is over. -/
def State.chunkLand (s : State) (id : Nat) (c : Copy) (chunk : Nat) : State :=
  let s := if tmplBen c.tmpl then s.updTeam c.team fun tm =>
      let b := tmplBmap c.tmpl
      let m := BitVec.ofNat 64 (2 ^ (tmplChbase c.tmpl + chunk))
      let w := amapGet 0 tm.wideBits b
      { tm with
        bmaps := amapInsert tm.bmaps b (amapGet 0 tm.bmaps b ||| m)
        wideBits := amapInsert tm.wideBits b (if tmplWide c.tmpl then w ||| m else w &&& ~~~ m) }
    else s
  let c := { c with chunks := chunk :: c.chunks }
  let done := c.linesDone
  let s := s.linesEnd (tmplWide c.tmpl) done
  let c := { c with lines := c.lines.filter fun x => !done.contains x }
  { s with copies := if c.landed then amapErase s.copies id else amapInsert s.copies id c }

/-- Chunk `k` is complete: no element from `pos` on lies in it. -/
def Copy.chunkDone (c : Copy) (pos chunk : Nat) : Bool :=
  (List.range (c.total - pos)).all fun j => c.chunkOf (pos + j) ≠ chunk
/-- The chunks of a copy whose landing is due land before it stops. -/
def State.landDue (s : State) (core id : Nat) (c : Copy) : State :=
  forEach ((List.range c.nc).filter fun k => s.later.contains (.copyChunkLand core id k) && !c.chunks.contains k && c.chunkDone c.pos k) s
    fun s k => match amapFind? s.copies id with
      | some c => (s.copyClean c k).2.chunkLand id c k
      | none => s

/-- A copy is abandoned (R286). -/
def State.copyKill (s : State) (id : Nat) : State :=
  match amapFind? s.copies id with
  | none => s
  | some c =>
    let s := if c.released then s else s.releaseSource c
    let s := s.linesEnd (tmplWide c.tmpl) c.lines
    { s with copies := amapErase s.copies id }.engDrop (· == Who.copy (s.team c.team).core id)

/-- A fault of a copy (R286): group 33, the channel as lane; the copy stops. A copy of a grid that ends is abandoned. -/
def State.copyFault (s : State) (id : Nat) (c : Copy) (tr : Trap) : State :=
  let s := (s.engDrop (· == Who.copy (s.team c.team).core id)).landDue (s.team c.team).core id c
  let c := (amapFind? s.copies id).getD c
  if tr.cause = .outOfLodging then (s.copyKill id).endGrid (s.team c.team).launch .outOfLodging
  else if s.stopping c.team then s.copyKill id
  else ({ s with copies := amapInsert s.copies id { c with faulted := true, cause := some tr.cause } }).engineRecord
    c.team 33 c.ch c.pc id tr

/-- The update of one SCATTERADD element (R285). -/
def addOp (atype : Nat) : AOp :=
  match atype with
  | 0 => .atom (.int false false .add) .none
  | 1 => .atom (.int true false .add) .none
  | 2 => .atom (.flt .f32 .add) .none
  | 3 => .atom (.flt .f16x2 .add) .none
  | _ => .atom (.flt .bf16x2 .add) .none

/-- After an element: its chunk lands when it is complete; after the last, the source is released and every
chunk left lands. -/
def State.copyNext (s : State) (core id : Nat) (c : Copy) : State :=
  let pos := c.pos + 1
  let c' := { c with pos := pos, read := true }
  let s := { s with copies := amapInsert s.copies id c' }
  if pos < c.total then
    let k := c.chunkOf c.pos
    let s := if tmplKind c.tmpl ≠ 3 && c.chunkDone pos k then { s with later := s.later ++ [.copyChunkLand core id k] } else s
    { s with later := s.later ++ [.copyElementMove core id] }
  else
    let left := (List.range c.nc).filter fun k => !c.chunks.contains k && !s.later.contains (.copyChunkLand core id k)
    { s with later := s.later ++ .copySourceRelease core id :: left.map fun k => .copyChunkLand core id k }

/-- An element has been written, with poison or without. -/
def State.copyMoved (s : State) (core id : Nat) (c : Copy) (bad : Bool) : State :=
  let c := if bad then { c with tainted := ptrAdd c.dst0 (c.offs c.pos).2 / 32 :: c.tainted } else c
  (s.engDrop (· == Who.copy core id)).copyNext core id c

/-- Go on from an access of the copy: with its value, when it has answered, or to the fault or breach that ends it. -/
def State.copyStep (s : State) (core id va : Nat) (c : Copy) (x : EAns) (go : Nat → Bool → State) : State :=
  match x with
  | .val v bad => go v bad
  | .wait => if s.engBusy (.copy core id) then s else { s with later := s.later ++ [.copyElementMove core id] }
  | .trap tr => s.copyFault id c tr
  | .breach l => (s.copyKill id).breach (s.team c.team).launch va l

/-- COPY_ELEMENT_MOVE: read one element and write it (R278), or stop at a fault. Bytes of an H page or of a page in host bias
land when their completer or the host has answered (R284, R402). A copy that has read, or whose read is in flight, has started
(R287). (DESIGN CHOICE, log 54.) -/
def execCopyElementMove (core id : Nat) (s : State) : Out :=
  match amapFind? s.copies id with
  | none => .fault .notEnabled
  | some c =>
    if (s.team c.team).core ≠ core || c.faulted || c.total ≤ c.pos || !s.copyTurn id c ||
       ((s.team c.team).preempt && !c.read) then
      .fault .notEnabled else
    let o := c.offs c.pos
    let sp := ptrAdd c.src0 o.1
    let dp := ptrAdd c.dst0 o.2
    let add := tmplKind c.tmpl = 2
    let src : EReq := { who := .copy core id, team := c.team, p := sp, n := c.e, tlb := .ctlb, need := .plain, pin := none
                        op := .load false, data := 0, bad := false }
    let dst (v : Nat) (bad : Bool) : EReq := { src with
      p := dp, need := if add then .scatterAdd else .plain, op := if add then addOp (tmplAtype c.tmpl) else .store, data := v, bad := bad }
    let write (c : Copy) (v : Nat) (bad : Bool) (s : State) : State :=
      let x := s.eAccess (dst v bad)
      x.2.copyStep core id dp c x.1 fun _ b => x.2.copyMoved core id c b
    if (s.engFind (.copy core id) dp true).isSome then .next (write c 0 false s)
    else
      let x := s.eAccess src
      let began : Bool := x.2.engBusy (.copy core id) || (match x.1 with
        | .val _ _ => true
        | _ => false)
      let c := { c with read := c.read || began }
      let s := { x.2 with copies := amapInsert x.2.copies id c }
      .next (s.copyStep core id sp c x.1 fun v bad => write c v bad s)

/-! ## Landing (R281 to R284, R61) -/

/-- COPY_CHUNK_LAND: once the units that it cleans are translated, the chunk lands. -/
def execCopyChunkLand (core id chunk : Nat) (s : State) : Out :=
  match amapFind? s.copies id with
  | none => .fault .notEnabled
  | some c =>
    if (s.team c.team).core ≠ core || c.chunks.contains chunk || c.nc ≤ chunk || c.faulted || !c.chunkDone c.pos chunk ||
       (c.pos < c.total && !(List.range c.total).any fun k => c.chunkOf k = chunk) ||
       (c.chunks.length + 1 = c.nc && !c.released) then .fault .notEnabled else
    match s.copyClean c chunk with
    | (true, s) => .next (s.chunkLand id c chunk)
    | (false, s) => .next { s with later := s.later ++ [.copyChunkLand core id chunk] }

/-- COPY_SOURCE_RELEASE: after the last source read (R283), in issue order on the channel. -/
def execCopySourceRelease (core id : Nat) (s : State) : Out :=
  match amapFind? s.copies id with
  | none => .fault .notEnabled
  | some c =>
    if (s.team c.team).core ≠ core || c.released || c.pos < c.total || !s.copyTurn id c then .fault .notEnabled
    else .next ({ s with copies := amapInsert s.copies id { c with released := true } }.releaseSource c)

/-- RESUME of a copy's record: it goes on from the faulting element (R286). -/
def State.copyResume (s : State) (id : Nat) : State :=
  match amapFind? s.copies id with
  | none => s
  | some c => { s with copies := amapInsert s.copies id { c with faulted := false }
                       later := s.later ++ [.copyElementMove (s.team c.team).core id] }
/-! ## Gather and scatter (R289) -/

/-- A CPGATHER, CPSCATTER or CPSCATTER.ADD of the kind of template it needs. (DEDUCED, log 55.) -/
def cpRows (o : Ops) (ch : BitVec 3) (n : BitVec 6) (gather add : Bool) (s : State) : Out :=
  issue o { src := [(o.a, 1), (o.b, 1)] } false (fun i s =>
    match i.parts with
    | [] => i.finish s [] false none
    | l0 :: _ =>
      let every (c : Cause) (s : State) : State := i.finish (s.takeTraps i.t i.g i.parts { cause := c }) [] false none
      if !(s.group i.t i.g).roleC then every .apertureRole s
      else if !s.copyRoom (s.team i.t).core ch.toNat then { s with turn := .later }
      else
        let pc := s.pcOffset i.t (s.thread i.t i.g l0).pc
        match s.template i.t n.toNat with
        | (none, s) => { s with turn := .later }
        | (some (.inr tr), s) => i.finish ((s.templatesDone i.t [n.toNat]).takeTraps i.t i.g i.parts tr) [] false none
        | (some (.inl x), s) =>
          if tmplBad x || tmplKind x ≠ (if add then 2 else 0) || tmplDim x 1 ≠ 1 || tmplDim x 2 ≠ 1 || !tmplBen x then
            every .illegalOperand s
          else
            let it := (BitVec.ofNat 26 (src32 s i l0 o.b).toNat).toInt
            let mk (rows : List (Nat × Int)) : Copy :=
              { team := i.t, gix := i.g, lane := l0, pc := pc, ch := ch.toNat, tmpl := x, iter := it, gather := gather,
                scatter := !gather, rows := rows }
            let rows := i.parts.map fun l => (l, (src32 s i l o.a).toInt)
            let bad := rows.filterMap fun r => (s.copyCheck (mk [r])).map fun tr => (r.1, tr)
            let good := rows.filter fun r => (s.copyCheck (mk [r])).isNone
            let s := forEach bad s fun s b => s.takeTrap i.t i.g b.1 b.2
            let s := if good.isEmpty then s else s.copyIssue (mk good)
            i.finish s [] false none) s

def execCpgather (o : Ops) (ch : BitVec 3) (tmpl : BitVec 6) (_x : MemX) (s : State) : Out := cpRows o ch tmpl true false s
def execCpscatter (o : Ops) (ch : BitVec 3) (tmpl : BitVec 6) (_x : MemX) (s : State) : Out := cpRows o ch tmpl false false s
def execCpscatterAdd (o : Ops) (ch : BitVec 3) (tmpl : BitVec 6) (_x : MemX) (s : State) : Out := cpRows o ch tmpl false true s

/-! ## Completion (R290) -/

/-- The bitmap operand and the mask of a completion instruction, once for the set. -/
def cpMask (s : State) (i : Iss) (l : Nat) (p : Bool) : Nat × DWord :=
  ((src32 s i l i.o.a).toNat, if p then src64 s i l i.o.b true else ext64 true (src32 s i l i.o.b))
def cpUses (o : Ops) (p : Bool) : Uses := { src := [(o.a, 1), (o.b, if p then 2 else 1)] }
/-- Every bit of a mask is set in a bitmap of a team. -/
def State.bitsSet (s : State) (t b : Nat) (m : DWord) : Bool := m &&& ~~~ amapGet 0 (s.team t).bmaps b = 0

/-- CPWAIT, and a true CPTEST, is an acquire at the scope of the copies whose bits it sees: at cluster scope or wider a region ends
(R76, R113). (DEDUCED, log 113.) -/
def State.cpAcquire (s : State) (t b : Nat) (m : DWord) : State :=
  if m &&& amapGet 0 (s.team t).wideBits b = 0 then s else s.regionEnd (s.team t).core false

/-- An instruction that acts once for its set; `k` out of its range traps on every participant. -/
def cpOnce (o : Ops) (u : Uses) (limit : Nat) (waiting : Bool) (get : State → Iss → Nat → Nat)
    (body : Iss → Nat → Nat → State → State) (s : State) : Out :=
  issue o u false (fun i s =>
    match i.parts with
    | [] => i.finish s [] waiting none
    | l :: _ =>
      let k := get s i l
      if limit ≤ k then i.finish (s.takeTraps i.t i.g i.parts { cause := .illegalOperand }) [] waiting none
      else body i l k s) s

def execCpwait (o : Ops) (p : Bool) (_x : MemX) (s : State) : Out :=
  cpOnce o (cpUses o p) 16 true (fun s i l => (cpMask s i l p).1) (fun i l k s =>
    let m := (cpMask s i l p).2
    if s.bitsSet i.t k m then i.finish (s.cpAcquire i.t k m) [] true none else i.finishWait s i.parts (.copies k m)) s
def execCptest (o : Ops) (p : Bool) (_x : MemX) (s : State) : Out :=
  cpOnce o { cpUses o p with pw := [o.d.toNat] } 16 false (fun s i l => (cpMask s i l p).1) (fun i l k s =>
    let b := s.bitsSet i.t k (cpMask s i l p).2
    let s := if b then s.cpAcquire i.t k (cpMask s i l p).2 else s
    i.finish (i.writeLanes s (i.parts.map fun l => (l, resP o.d b))) [] false none) s
def execCpclr (o : Ops) (p : Bool) (_x : MemX) (s : State) : Out :=
  cpOnce o (cpUses o p) 16 false (fun s i l => (cpMask s i l p).1) (fun i l k s =>
    let m := (cpMask s i l p).2
    i.finish (s.updTeam i.t fun tm => { tm with bmaps := amapInsert tm.bmaps k (amapGet 0 tm.bmaps k &&& ~~~ m) }) [] false none) s
/-- RELEASED[ch] - n, read as a signed word, is at least 0. -/
def State.sourceFree (s : State) (t ch : Nat) (n : Word) : Bool := decide (0 ≤ (amapGet 0 (s.team t).released ch - n).toInt)
def execCpsrcw (o : Ops) (_x : MemX) (s : State) : Out :=
  cpOnce o (cpUses o false) 8 true (fun s i l => (src32 s i l o.a).toNat) (fun i l k s =>
    let n := src32 s i l o.b
    if s.sourceFree i.t k n then i.finish s [] true none else i.finishWait s i.parts (.source k n)) s

def execCpwaitComplete (tid gix wid : Nat) (s : State) : Out :=
  match s.waitOf tid gix wid with
  | some ⟨_, .copies b m⟩ => if s.bitsSet tid b m then .next ((s.cpAcquire tid b m).endWait tid gix wid) else .fault .notEnabled
  | _ => .fault .notEnabled
def execCpsrcwComplete (tid gix wid : Nat) (s : State) : Out :=
  match s.waitOf tid gix wid with
  | some ⟨_, .source ch n⟩ => if s.sourceFree tid ch n then .next (s.endWait tid gix wid) else .fault .notEnabled
  | _ => .fault .notEnabled

end Sys2Proof.Machine
end

