-- ==== Sys2Proof/Machine/Memory.lean ====
section
/-! DEFINITION. Loads and stores by space (12_memory_instructions, R222 to R231): effective addresses, the checks
of each participant, and what each space does. -/

namespace Sys2Proof.Machine

/-! ## Addresses (R223) -/

/-- Bytes of an access. -/
def mtyBytes : MTy → Nat
  | .b32 => 4 | .i8 => 1 | .n8 => 1 | .i16 => 2 | .n16 => 2 | .b64 => 8 | .b128 => 16
/-- Registers of its data. -/
def mtyWords (ty : MTy) : Nat := if mtyBytes ty ≤ 4 then 1 else mtyBytes ty / 4
/-- Sign extension to 32 bits. -/
def mtySigned : MTy → Bool
  | .i8 | .i16 => true
  | _ => false

/-- The effective address of a thread: `high` is the implicit high word, `scale` the factor of a register index. -/
def effAddr (s : State) (i : Iss) (l high : Nat) (p : Bool) (scale : Nat) : Nat :=
  let base := if p then (src64 s i l i.o.b false).toNat else high * 2 ^ 32 + (src32 s i l i.o.b).toNat
  let term : Int := match i.o.c with
    | .imm b => b.toInt
    | x => ((src32 s i l x).toNat * scale : Nat)
  let disp : Int := if i.o.len = .w64 then 0 else i.o.imm.toInt
  (((base : Int) + term + disp) % (2 ^ 64 : Int)).toNat

/-- The sources of an address. -/
def addrSrc (o : Ops) (p : Bool) : List (Src × Nat) := [(o.b, if p then 2 else 1), (o.c, 1)]

/-! ## The lanes of one instruction -/

/-- How one lane's part went: the outcome, and the access where a watch range may match it. -/
structure LaneMem where
  lane : Nat
  stat : AStat
  acc  : Option Access := none
  deriving DecidableEq, Repr

/-- Perform lanes in ascending order; a lodging breach ends the grid and stops there (R106). -/
def memLanes (i : Iss) (f : State → Nat → LaneMem × State) : List Nat → State → List LaneMem × State
  | [], s => ([], s)
  | l :: ls, s =>
    match f s l with
    | (r, s) =>
      match r.stat with
      | .breach lvl =>
        (⟨l, .pend, none⟩ :: [], s.breach (s.team i.t).launch (match r.acc with
          | some a => a.va
          | none => 0) lvl)
      | _ =>
        if s.stopping i.t then ([r], s) else
        match memLanes i f ls s with
        | (rs, s) => (r :: rs, s)

/-- The lanes whose completed access a watch range matches, with the range. -/
def watchLanes (s : State) (rs : List LaneMem) : List (Nat × Trap) :=
  rs.filterMap fun r => match r.stat, r.acc with
    | .done _, some a =>
      if a.h || 2 ^ 60 ≤ a.va then none else
      (s.watchAcc a).map fun k => (r.lane, { cause := .watch, addr := a.va, aux := k })
    | _, _ => none

/-- Take the traps of the lanes. -/
def takeLaneTraps (s : State) (i : Iss) (rs : List LaneMem) : State :=
  forEach rs s fun s r => match r.stat with
    | .trap tr => s.takeTrap i.t i.g r.lane tr
    | _ => s

/-- Registers that completed loads fill: `n` words from `d`, after `ext`. -/
def loadRegs (rs : List LaneMem) (d n : Nat) (ext : Nat → Nat) : List (Nat × Nat × Word) :=
  rs.flatMap fun r => match r.stat with
    | .done v => (numbered d (toWords n (ext v))).map fun x => (r.lane, x.1, x.2)
    | _ => []

/-- The watch stop of a team under a debugger, past the instruction (R365, R369). (DEDUCED, log 41.) -/
def watchStop (s : State) (i : Iss) (ws : List (Nat × Trap)) : State :=
  if ws.isEmpty || !s.attached i.t || (s.team i.t).stop.isSome then s
  else s.teamStop i.t 0x41 i.g (ws.map fun w => (i.g, w.1))

/-- Finish a memory instruction whose lanes have been performed. -/
def memFinish (i : Iss) (s : State) (rs : List LaneMem) (regs : List (Nat × Nat × Word)) (stay : List Nat) : State :=
  let s := takeLaneTraps s i rs
  let s := if regs.isEmpty then s else s.addPend ⟨i.t, i.g, false, false, regs, []⟩
  let ws := watchLanes s rs
  let s := if s.attached i.t then s else forEach ws s fun s w => s.takeTrap i.t i.g w.1 w.2
  watchStop (i.finish s stay false none) i ws

/-- A load or store of each participant: `f` performs one lane. -/
def memIssue (o : Ops) (u : Uses) (d : Option (Nat × Nat)) (ext : Nat → Nat) (f : Iss → State → Nat → LaneMem × State)
    (after : Iss → List LaneMem → State → State) (s : State) : Out :=
  issue o u false (fun i s =>
    match memLanes i (f i) i.parts s with
    | (rs, s) =>
      let s := after i rs s
      memFinish i s rs (match d with
        | some x => if o.nw then [] else loadRegs rs x.1 x.2 ext
        | none => []) []) s

/-! ## GLOBAL and PRIVATE -/

/-- The pieces of private data. -/
def privData (n x : Nat) : List Nat := (List.range (n / 4)).map fun k => x / 2 ^ (32 * k) % 2 ^ 32

/-- What a lane's store at a pointer writes, in GLOBAL (lane, address, length); nothing where its checks fail. -/
def State.storeSpans (s : State) (i : Iss) (l p n : Nat) (accept : List Nat) : List (Nat × Nat × Nat) :=
  if (s.ptrCheck i.t i.g p n accept none true).isSome then []
  else if ptrTag p = 5 then
    let off := 8 * s.rstackOf i.t + p % 2 ^ 32
    if n ≤ 4 then [(l, s.privAddr i.t i.g l off, n)]
    else (List.range (n / 4)).map fun k => (l, s.privAddr i.t i.g l (off + 4 * k), 4)
  else [(l, p, n)]
/-- The stores with which an instruction has written a unit whole: `addr` gives each lane's pointer. -/
def State.storeEnds (s : State) (i : Iss) (n : Nat) (accept : List Nat) (addr : Nat → Nat) : List (Nat × Nat) :=
  lastStores 64 (i.parts.flatMap fun l => s.storeSpans i l (addr l) n accept)

/-- A checked PRIVATE access of a lane (R28): one access to 4 B, else its 4 B pieces in turn. -/
def State.privLane (s : State) (i : Iss) (l p n : Nat) (op : AOp) (data : Nat) (dst : Dst) (ends : List (Nat × Nat)) : LaneMem × State :=
  let off := 8 * s.rstackOf i.t + p % 2 ^ 32
  let pc := (s.thread i.t i.g l).pc
  let a := s.threadAcc i.t i.g l pc i.o.len.bytes op (s.privAddr i.t i.g l off) n data dst
  let a := { a with cmp := if ends.contains (l, a.va) then 1 else 0, pieces := decide (4 < n) }
  if n ≤ 4 then
    let r := s.startAcc (s.team i.t).launch a
    (⟨l, r.1, some a⟩, r.2)
  else
    match s.privPieces i.t i.g l pc op.writes ends off (privData n data) with
    | (_, some tr, s) => (⟨l, .trap tr, none⟩, s)
    | (v, none, s) => (⟨l, .done v, some a⟩, s)

/-- A checked GLOBAL access of a lane. -/
def State.globLane (s : State) (i : Iss) (l p n : Nat) (op : AOp) (data cmp : Nat) (dst : Dst) (scope : Scope) : LaneMem × State :=
  let pc := (s.thread i.t i.g l).pc
  let a := s.threadAcc i.t i.g l pc i.o.len.bytes op p n data dst
  let a := { a with cmp := cmp, scope := scope }
  let r := s.startAcc (s.team i.t).launch a
  (⟨l, r.1, some a⟩, r.2)

/-- The destination of a load. -/
def loadDst (o : Ops) (n : Nat) : Dst := if o.nw then .none else .vec o.d.toNat n

/-- One lane of LDG, LDP, STG or STP past its effective address. -/
def State.dataLane (s : State) (i : Iss) (l p n : Nat) (accept : List Nat) (op : AOp) (data : Nat) (dst : Dst) (ends : List (Nat × Nat)) : LaneMem × State :=
  match s.ptrCheck i.t i.g p n accept none true with
  | some tr => (⟨l, .trap tr, none⟩, s)
  | none =>
    if ptrTag p = 5 then s.privLane i l p n op data dst ends
    else s.globLane i l p n op data (if ends.contains (l, p) then 1 else 0) dst .device

/-- A load from GLOBAL or PRIVATE. -/
def loadG (o : Ops) (m : MMod) (high : Nat) (accept : List Nat) (s : State) : Out :=
  let n := mtyBytes m.ty
  let w := mtyWords m.ty
  let op : AOp := .load (mtySigned m.ty)
  memIssue o { src := addrSrc o m.p, vd := if o.nw then [] else [(o.d.toNat, w)] } (some (o.d.toNat, w)) (op.extend n)
    (fun i s l => s.dataLane i l (effAddr s i l high m.p (2 ^ m.sc.toNat)) n accept op 0 (loadDst o w) []) (fun _ _ s => s) s

def execLdg (o : Ops) (m : MMod) (_x : MemX) (s : State) : Out := loadG o m 0 [0, 5] s
def execLdp (o : Ops) (m : MMod) (_x : MemX) (s : State) : Out := loadG o m 0x50000000 [5] s
/-- STP: STG's store to the converted address. -/
def execStp (o : Ops) (m : MMod) (_x : MemX) (s : State) : Out :=
  let n := mtyBytes m.ty
  let w := mtyWords m.ty
  issue o { src := (o.a, w) :: addrSrc o m.p } false (fun i s =>
    let ends := s.storeEnds i n [5] fun l => effAddr s i l 0x50000000 m.p (2 ^ m.sc.toNat)
    match memLanes i (fun s l => s.dataLane i l (effAddr s i l 0x50000000 m.p (2 ^ m.sc.toNat)) n [5] .store (srcData s i l o.a w)
        .none ends) i.parts s with
    | (rs, s) => memFinish i s rs [] []) s

/-- One lane of STG: a store, or a copy through an aperture (R227, R275); none where the copy has no room. -/
def State.stgLane (s : State) (i : Iss) (l p n data : Nat) (b32 : Bool) (ends : List (Nat × Nat)) (ts : List (Nat × (BitVec 512 ⊕ Trap))) :
    Option (LaneMem × State) :=
  if ptrTag p = 7 && b32 then
    match s.ptrCheck i.t i.g p n [7] none true with
    | some tr => some (⟨l, .trap tr, none⟩, s)
    | none =>
      let x := ((ts.find? fun y => y.1 = data % 64).map (·.2)).getD (.inr { cause := .illegalOperand })
      (s.apertureStore i.t i.g l (s.thread i.t i.g l).pc p data x).map fun r => match r.1 with
        | some tr => (⟨l, .trap tr, none⟩, r.2)
        | none => (⟨l, .done 0, none⟩, r.2)
  else some (s.dataLane i l p n [0] .store data .none ends)

/-- The lanes of a store; none where one that issues a copy finds its channel or the engine full: the store then does not
issue (R276). `ts`: the templates that its aperture lanes name. (DESIGN CHOICE, log 53.) -/
def stgLanes (i : Iss) (n : Nat) (b32 : Bool) (ends : List (Nat × Nat)) (ts : List (Nat × (BitVec 512 ⊕ Trap))) (addr : State → Nat → Nat)
    (data : State → Nat → Nat) : List Nat → State → Option (List LaneMem × State)
  | [], s => some ([], s)
  | l :: ls, s =>
    match s.stgLane i l (addr s l) n (data s l) b32 ends ts with
    | none => none
    | some x =>
      match memLanes i (fun _ _ => x) [l] s with
      | (r, s) =>
        if s.stopping i.t then some (r, s) else
        (stgLanes i n b32 ends ts addr data ls s).map fun y => (r ++ y.1, y.2)

def execStg (o : Ops) (m : MMod) (_x : MemX) (s : State) : Out :=
  let n := mtyBytes m.ty
  let w := mtyWords m.ty
  let b32 := m.ty == .b32
  issue o { src := (o.a, w) :: addrSrc o m.p } false (fun i s =>
    let addr (s : State) (l : Nat) : Nat := effAddr s i l 0 m.p (2 ^ m.sc.toNat)
    let data (s : State) (l : Nat) : Nat := srcData s i l o.a w
    let ends := s.storeEnds i n [0] (addr s)
    let ap := i.parts.filter fun l => ptrTag (addr s l) = 7 && b32 && (s.ptrCheck i.t i.g (addr s l) n [7] none true).isNone
    let ns := (ap.map fun l => data s l % 64).eraseDups
    match s.templates i.t ns with
    | (none, s) => { s with turn := .later }
    | (some ts, s) =>
      match stgLanes i n b32 ends ts addr data i.parts s with
      | none => { s with turn := .later }
      | some (rs, s) => memFinish i (s.templatesDone i.t ns) rs [] []) s

/-! ## SCRATCH and CLUSTER (R227) -/

/-- The team and offset that a checked SCRATCH or CLUSTER pointer names. -/
def State.scrTarget (s : State) (t p : Nat) : Nat × Nat :=
  if ptrTag p = 3 then ((s.teamOfRank t (bitField 51 48 p)).getD t, p % 2 ^ 19) else (t, p % 2 ^ 19)

/-- One lane's scratchpad load: performed, or waiting for presence. -/
def State.scrLoad (s : State) (i : Iss) (l p n tag : Nat) (op : AOp) (dst : Dst) : LaneMem × State :=
  match s.ptrCheck i.t i.g p n [tag] none true with
  | some tr => (⟨l, .trap tr, none⟩, s)
  | none =>
    let x := s.scrTarget i.t p
    if s.present x.1 x.2 then
      let r := s.scrRead x.1 x.2 n
      if r.2 then (⟨l, .trap { cause := .poison, addr := p }, none⟩, s) else (⟨l, .done r.1, none⟩, s)
    else
      let a := s.threadAcc i.t i.g l (s.thread i.t i.g l).pc i.o.len.bytes op p n 0 dst
      (⟨l, .pend, none⟩, (s.accNew { a with waits := true }).2)

/-- The presence waits that the lanes of an issue began. -/
def State.presenceAccs (s : State) (t g : Nat) (from_ : Nat) : List Nat :=
  s.accs.filterMap fun kv => match kv.2.who with
    | .thread t' g' _ => if t' = t && g' = g && kv.2.waits && decide (from_ ≤ kv.1) then some kv.1 else none
    | _ => none

/-- Finish a scratchpad load: an instruction that met an absent line is a waiting instruction. -/
def scrFinish (i : Iss) (from_ : Nat) (rs : List LaneMem) (lanes : List Nat) (p : Option Pend) (s : State) : State :=
  let s := takeLaneTraps s i rs
  let s := match p with
    | none => s
    | some p => s.addPend p
  match s.presenceAccs i.t i.g from_ with
  | [] => i.finish s [] false none
  | as => i.finishWait s lanes (.presence as)

/-- A load from SCRATCH or CLUSTER. -/
def loadS (o : Ops) (m : MMod) (high tag : Nat) (s : State) : Out :=
  let n := mtyBytes m.ty
  let w := mtyWords m.ty
  let op : AOp := .load (mtySigned m.ty)
  issue o { src := addrSrc o m.p, vd := if o.nw then [] else [(o.d.toNat, w)] } false (fun i s =>
    let u0 := s.uid
    match memLanes i (fun s l => s.scrLoad i l (effAddr s i l high m.p (2 ^ m.sc.toNat)) n tag op (loadDst o w)) i.parts s with
    | (rs, s) =>
      let regs := if o.nw then [] else loadRegs rs o.d.toNat w (op.extend n)
      scrFinish i u0 rs i.parts (if regs.isEmpty then none else some ⟨i.t, i.g, false, false, regs, []⟩) s) s

def execLds (o : Ops) (m : MMod) (_x : MemX) (s : State) : Out := loadS o m 0x20000000 2 s
def execLdx (o : Ops) (m : MMod) (_x : MemX) (s : State) : Out := loadS o m 0 3 s

/-- PRESENCE_WAIT_COMPLETE: every line is present; the loads are performed (R227), as an acquire at the scope of the copies
that wrote the lines (R113). (DEDUCED, log 113.) -/
def execPresenceWaitComplete (tid gix wid : Nat) (s : State) : Out :=
  match s.waitOf tid gix wid with
  | some ⟨_, .presence ids⟩ =>
    let as := ids.filterMap fun k => (amapFind? s.accs k).map fun a => (k, a)
    if as.all fun x => let y := s.scrTarget tid x.2.va; s.present y.1 y.2 then
      let wide := as.any fun x => let y := s.scrTarget tid x.2.va; (s.pad y.1).wideLines.contains (y.2 / 128)
      let s := (if wide then s.regionEnd (s.team tid).core false else s).endWait tid gix wid
      .next (forEach as s fun s x =>
        let y := s.scrTarget tid x.2.va
        let r := s.scrRead y.1 y.2 x.2.n
        if r.2 then s.failAcc x.1 x.2 { cause := .poison, addr := x.2.va } else s.finishAcc x.1 x.2 r.1)
    else .fault .notEnabled
  | _ => .fault .notEnabled

/-- A store to SCRATCH or CLUSTER: it does not wait on presence (R123); words written whole lose their poison. -/
def storeS (o : Ops) (m : MMod) (high tag : Nat) (s : State) : Out :=
  let n := mtyBytes m.ty
  let w := mtyWords m.ty
  let addr (i : Iss) (s : State) (l : Nat) : Nat := effAddr s i l high m.p (2 ^ m.sc.toNat)
  memIssue o { src := (o.a, w) :: addrSrc o m.p } none id
    (fun i s l =>
      let p := addr i s l
      match s.ptrCheck i.t i.g p n [tag] none true with
      | some tr => (⟨l, .trap tr, none⟩, s)
      | none =>
        let x := s.scrTarget i.t p
        (⟨l, .done 0, some (s.threadAcc i.t i.g l 0 0 .store p n 0 .none)⟩, s.scrWrite x.1 x.2 n (srcData s i l o.a w)))
    (fun i rs s =>
      let xs := rs.filterMap fun r => r.acc.map fun a => s.scrTarget i.t a.va
      forEach (xs.map (·.1)).eraseDups s fun s t =>
        if (s.pad t).scrPoison.isEmpty then s else
        s.scrMark t false (coveredUnits 32 ((xs.filter (·.1 = t)).map fun x => (x.2, n)))) s

def execSts (o : Ops) (m : MMod) (_x : MemX) (s : State) : Out := storeS o m 0x20000000 2 s
def execStx (o : Ops) (m : MMod) (_x : MemX) (s : State) : Out := storeS o m 0 3 s

/-! ## SURFACE (R226, R227) -/

/-- The pointer of the coordinate form and whether its range check fails, or none where the handle has a bit that
must be 0 set. (DEDUCED, log 20.) -/
def State.coordPtr (s : State) (h x y : Nat) : Option (Nat × Bool) :=
  if bitField 15 12 h ≠ 0 || bitField 31 26 h ≠ 0 then none else
  let ix := h % 2 ^ 12
  let e := s.ste ix
  let layer := bitField 23 16 h
  let sample := bitField 25 24 h
  let bad : Bool := decide (e.layers ≤ layer) || decide (e.samples ≤ sample) || decide (32 * e.tw ≤ x) || decide (32 * e.th ≤ y)
  some (2 ^ 60 + ix * 2 ^ 48 + (if bad then 0 else e.pixel x y layer sample), bad)

/-- The SURFACE pointer of a lane and, in the coordinate form, whether it is out of range; none for a bad handle.
(DEDUCED, log 20.) -/
def State.surfPtr (s : State) (i : Iss) (l : Nat) (m : MMod) (x : MemX) (scale : Nat) : Option (Nat × Bool) :=
  if m.xy then s.coordPtr (src32 s i l i.o.b).toNat (src32 s i l i.o.c).toNat (src32 s i l x.e).toNat
  else some (effAddr s i l 0 m.p scale, false)

/-- One lane of LDF, STF or SATOM: its pointer, checked, and the access started at its bank. -/
def State.surfLane (s : State) (i : Iss) (l n : Nat) (m : MMod) (x : MemX) (scale : Nat) (op : AOp) (data cmp : Nat) (dst : Dst) : LaneMem × State :=
  match s.surfPtr i l m x scale with
  | none => (⟨l, .trap { cause := .illegalOperand }, none⟩, s)
  | some (p, bad) =>
    match s.ptrCheck i.t i.g p n [1] (if m.xy then some bad else none) true with
    | some tr => (⟨l, .trap tr, none⟩, s)
    | none =>
      let a := s.threadAcc i.t i.g l (s.thread i.t i.g l).pc i.o.len.bytes op p n data dst
      let r := s.startSurf { a with cmp := cmp }
      (⟨l, r.1, none⟩, r.2)

/-- The sources of a SURFACE address. -/
def surfSrc (o : Ops) (m : MMod) (x : MemX) : List (Src × Nat) :=
  if m.xy then [(o.b, 1), (o.c, 1), (x.e, 1)] else addrSrc o m.p

def execLdf (o : Ops) (m : MMod) (x : MemX) (s : State) : Out :=
  let n := mtyBytes m.ty
  let w := mtyWords m.ty
  let op : AOp := .load (mtySigned m.ty)
  memIssue o { src := surfSrc o m x, vd := if o.nw then [] else [(o.d.toNat, w)] } (some (o.d.toNat, w)) (op.extend n)
    (fun i s l => s.surfLane i l n m x (2 ^ m.sc.toNat) op 0 0 (loadDst o w)) (fun _ _ s => s) s
def execStf (o : Ops) (m : MMod) (x : MemX) (s : State) : Out :=
  let n := mtyBytes m.ty
  let w := mtyWords m.ty
  issue o { src := (o.a, w) :: surfSrc o m x } false (fun i s =>
    let ends := lastStores 32 (i.parts.filterMap fun l => match s.surfPtr i l m x (2 ^ m.sc.toNat) with
      | some (p, bad) =>
        if (s.ptrCheck i.t i.g p n [1] (if m.xy then some bad else none) true).isSome then none else some (l, p, n)
      | none => none)
    match memLanes i (fun s l => s.surfLane i l n m x (2 ^ m.sc.toNat) .store (srcData s i l o.a w)
        (if ends.any fun e => e.1 = l then 1 else 0) .none) i.parts s with
    | (rs, s) => memFinish i s rs [] []) s

/-! ## ROW (R69 to R71) -/

/-- The row and physical address of a checked ROW pointer. -/
def State.rowPlace (s : State) (t p : Nat) : Option (Row × Nat) :=
  (s.row? (s.spaceOf t) (bitField 18 11 p)).map fun r => (r, r.granule * 2048 + p % 2048)

/-- A lane of LDW or STW by a key that its team keeps DROPPED, as the access of the unit that serves it through the normal row
machinery (R72). -/
def State.rowAcc (s : State) (i : Iss) (l p n : Nat) (store : Bool) (data : Nat) (r : Row) (pa : Nat) : Access :=
  { unitAcc (.row i.t i.g l) (s.team i.t).core (s.spaceOf i.t) p n (if store then .store else .load false) data false with pa := pa, key := r.key }
/-- Carry on with it: at once, or once the page's flip is over or the host has answered its snoop (R397, R398). -/
def State.rowUnit (s : State) (a : Access) : EAns × State :=
  s.unitAt a fun s => if a.op.writes then (0, false, s.rowWrite a.pa a.n a.key a.data) else
    s.rowRead a.pa a.n a.key

/-- The lanes of LDW or STW that go through the normal row machinery ask for their bytes: whether none must be waited for. -/
def State.rowAsk (s : State) (i : Iss) (addr : Nat → Nat) (n : Nat) (store : Bool) (data : Nat → Nat) : Bool × State :=
  i.parts.foldl (fun (x : Bool × State) l =>
    let p := addr l
    match x.2.ptrCheck i.t i.g p n [4] none true, x.2.rowPlace i.t p with
    | none, some (r, pa) =>
      if r.heldBy i.t || (store && !r.wr) then x else
      let y := x.2.rowUnit (x.2.rowAcc i l p n store (data l) r pa)
      (x.1 && y.1 != .wait, y.2)
    | _, _ => x) (true, s)

/-- One lane of LDW or STW, performed at the controller in the order of arrival (R71). (DESIGN CHOICE, log 119.) -/
def State.rowLane (s : State) (i : Iss) (l p n : Nat) (store : Bool) (data : Nat) : LaneMem × State :=
  match s.ptrCheck i.t i.g p n [4] none true with
  | some tr => (⟨l, .trap tr, none⟩, s)
  | none =>
    match s.rowPlace i.t p with
    | none => (⟨l, .trap { cause := .illegalOperand, addr := p }, none⟩, s)
    | some (r, pa) =>
      let a := s.threadAcc i.t i.g l 0 0 (if store then .store else .load false) p n 0 .none
      if store && !r.wr then (⟨l, .trap { cause := .writeProtect, addr := p }, none⟩, s)
      else
        let d : Nat × Bool × State := if r.heldBy i.t then
            (if store then (0, false, s.rowWrite pa n r.key data) else s.rowRead pa n r.key)
          else match s.rowUnit (s.rowAcc i l p n store data r pa) with
            | (.val x bad, s) => (x, bad, s)
            | (_, s) => (0, false, s)
        if d.2.1 && !store then (⟨l, .trap (poisonTrap p pa), none⟩, d.2.2) else (⟨l, .done d.1, some { a with pa := pa }⟩, d.2.2)

/-- The units of a set's LDW or STW have answered. -/
def State.rowTaken (s : State) (i : Iss) : State :=
  s.engDrop fun w => match w with
    | .unit (.row t g l) => t == i.t && g == i.g && i.parts.contains l
    | _ => false

/-- Count one suspension of each row that is closed for refresh and has not counted this window (R70). -/
def State.countSusp (s : State) (space : Nat) (keys : List Nat) : State :=
  { s with rows := amapMap (fun k r =>
      if k / 256 = space && keys.contains (k % 256) && r.state == .refresh && !r.counted then
        { r with susp := r.susp + 1, counted := true } else r) s.rows }

/-- LDW or STW of the set: one W-path entry (R69); the results land when it completes. (DESIGN CHOICE, log 119.) -/
def wpathIssue (o : Ops) (m : MMod) (store : Bool) (s : State) : Out :=
  let n := mtyBytes m.ty
  let w := mtyWords m.ty
  let op : AOp := .load (mtySigned m.ty)
  issue o { src := (if store then [(o.a, w)] else []) ++ addrSrc o m.p, vd := if store || o.nw then [] else [(o.d.toNat, w)] } false
    (fun i s =>
      let core := (s.team i.t).core
      if i.parts.isEmpty then i.finish s [] false none
      else if 8 ≤ (s.core core).wpath.length then { s with turn := .later }
      else
        let addr (l : Nat) : Nat := effAddr s i l 0x40000000 m.p (2 ^ m.sc.toNat)
        match s.rowAsk i addr n store fun l => srcData s i l o.a w with
        | (false, s) => { s with turn := .later }
        | (true, s) =>
        match memLanes i (fun s l => s.rowLane i l (addr l) n store (srcData s i l o.a w)) i.parts s with
        | (rs, s) =>
          let s := takeLaneTraps (s.rowTaken i) i rs
          let as := rs.filterMap (·.acc)
          match as with
          | [] => i.finish s [] false none
          | a0 :: _ =>
            let s := if store then forEach (coveredUnits 64 (as.map fun a => (a.pa, a.n))) s fun s u => s.setPoison u false else s
            let keys := (as.map fun a => bitField 18 11 a.va).eraseDups
            let regs := if store || o.nw then [] else loadRegs rs o.d.toNat w (op.extend n)
            let pid := if regs.isEmpty then 0 else s.uid
            let s := if regs.isEmpty then s else
              { s with uid := s.uid + 1, pends := amapInsert s.pends s.uid ⟨i.t, i.g, false, false, regs, []⟩ }
            let id := s.uid
            let s := (s.accNew { a0 with snoops := keys, cmp := pid, mates := i.parts }).2
            let s := s.updCore core fun k => { k with wpath := k.wpath ++ [id] }
            let s := s.countSusp a0.space (keys.filter fun k => s.keyOpenFor i.t k)
            i.finish { s with later := s.later ++ [.wPathAccessComplete id] } [] false none) s

def execLdw (o : Ops) (m : MMod) (_x : MemX) (s : State) : Out := wpathIssue o m false s
def execStw (o : Ops) (m : MMod) (_x : MemX) (s : State) : Out := wpathIssue o m true s

/-- W_PATH_ACCESS_COMPLETE: none of its rows is closed for refresh; the entry is free, the result lands. -/
def execWPathAccessComplete (acc : Nat) (s : State) : Out :=
  match amapFind? s.accs acc with
  | none => .fault .notEnabled
  | some a =>
    if a.va / 2 ^ 60 ≠ 4 || (a.snoops.any fun k => match s.row? a.space k with
        | some r => r.state == .refresh
        | none => false) then .fault .notEnabled
    else
      let s := { s with accs := amapErase s.accs acc }
      let s := s.updCore a.core fun k => { k with wpath := k.wpath.filter (· ≠ acc) }
      .next (if a.cmp = 0 then s else { s with later := s.later ++ [.ins (.loadResultLand a.cmp)] })

/-! ## Single-execution loads (R225, R228, R229) -/

/-- Perform once for the set, with the operands of the lowest participant. -/
def onceIssue (o : Ops) (u : Uses) (priv waiting : Bool) (body : Iss → Nat → State → State) (s : State) : Out :=
  issue o u priv (fun i s =>
    match i.parts with
    | [] => i.finish s [] waiting none
    | l :: _ => body i l s) s
/-- A fault of a single execution parks every participant. -/
def Iss.faultAll (i : Iss) (s : State) (tr : Trap) (waiting : Bool) : State :=
  i.finish (s.takeTraps i.t i.g i.parts tr) [] waiting none
/-- Every access begun since `from_` concerns every participant. -/
def State.setMates (s : State) (from_ : Nat) (ls : List Nat) : State :=
  { s with accs := amapMap (fun k a => if from_ ≤ k then { a with mates := ls } else a) s.accs }

/-- A scalar result on its way. -/
def State.scalPend (s : State) (i : Iss) (d n v : Nat) : State :=
  s.addPend ⟨i.t, i.g, false, true, (numbered d (toWords n v)).map fun x => (0, x.1, x.2), []⟩

def execLdk (o : Ops) (m : MMod) (_x : MemX) (s : State) : Out :=
  let n := mtyBytes m.ty
  let w := mtyWords m.ty
  let op : AOp := .load (mtySigned m.ty)
  onceIssue o { src := addrSrc o m.p, sd := if o.nw then [] else [(o.d.toNat, w)], sform := true } false false (fun i l s =>
    let u0 := s.uid
    let r := s.dataLane i l (effAddr s i l 0 m.p (2 ^ m.sc.toNat)) n [0, 5] op 0 (if o.nw then .none else .scal o.d.toNat w) []
    let s := r.2.setMates u0 i.parts
    match r.1.stat with
    | .trap tr => i.faultAll s tr false
    | .breach lvl => i.finish (s.breach (s.team i.t).launch (match r.1.acc with
        | some a => a.va
        | none => 0) lvl) [] false none
    | .pend => i.finish s [] false none
    | .done v =>
      let s := if o.nw then s else s.scalPend i o.d.toNat w (op.extend n v)
      let ws := watchLanes s [r.1]
      let ws' := ws.flatMap fun x => i.parts.map fun l => (l, x.2)
      let s := if s.attached i.t then s else forEach ws' s fun s x => s.takeTrap i.t i.g x.1 x.2
      watchStop (i.finish s [] false none) i ws) s

def execLdsS (o : Ops) (m : MMod) (_x : MemX) (s : State) : Out :=
  let n := mtyBytes m.ty
  let op : AOp := .load (mtySigned m.ty)
  onceIssue o { src := addrSrc o m.p, sd := if o.nw then [] else [(o.d.toNat, 1)], sform := true } false false (fun i l s =>
    let u0 := s.uid
    let r := s.scrLoad i l (effAddr s i l 0x20000000 m.p (2 ^ m.sc.toNat)) n 2 op (if o.nw then .none else .scal o.d.toNat 1)
    let s := r.2.setMates u0 i.parts
    match r.1.stat with
    | .trap tr => i.faultAll s tr false
    | .done v => i.finish (if o.nw then s else s.scalPend i o.d.toNat 1 (op.extend n v)) [] false none
    | _ => scrFinish i u0 [] i.parts none s) s

/-! ## PFG and STEW -/

/-- PFG: every participant's line is fetched into L1 (R230). (DEDUCED, log 117.) -/
def execPfg (o : Ops) (m : MMod) (_x : MemX) (s : State) : Out :=
  issue o { src := addrSrc o m.p } false (fun i s =>
    let s := forEach i.parts s fun s l =>
      let p := effAddr s i l 0 m.p (2 ^ m.sc.toNat)
      if (s.ptrCheck i.t i.g p 1 [0] none false).isSome then s else
      s.prefetchAt (s.team i.t).launch (s.team i.t).core p
    i.finish s [] false none) s

/-- STEW (R231). -/
def execStew (o : Ops) (w : Bool) (_x : MemX) (s : State) : Out :=
  onceIssue o { src := [(o.a, 1), (o.b, 8)], sd := if o.nw then [] else [(o.d.toNat, 1)] } false false (fun i l s =>
    let a := (src32 s i l o.a).toNat
    if 2 ^ 12 ≤ a then i.faultAll s { cause := .illegalOperand } false
    else if !s.inSteWindow (s.spaceOf i.t) a then i.faultAll s { cause := .privilege } false
    else
      let b := match o.b with
        | .s n => n.toNat
        | _ => 0
      let v := BitVec.ofNat 256 (ofWords ((List.range 8).map fun k => s.readS i.t i.g (b + k)))
      let id := s.uid
      let s := if o.nw then s else
        { s with uid := id + 1, pends := amapInsert s.pends id ⟨i.t, i.g, false, true, [(0, o.d.toNat, 0)], []⟩ }
      i.finish (s.stewArrive (s.spaceOf i.t) a v w (if o.nw then 0 else id)) [] false none) s

end Sys2Proof.Machine
end

