-- ==== Sys2Proof/Machine/Sync.lean ====
section
/-! DEFINITION. Atomics, acquire and release, fences (12_memory_instructions, R232 to R235; 07_ordering,
R114, R122). -/

namespace Sys2Proof.Machine

/-! ## Waiting for earlier accesses (R83, R115) -/

/-- W-path instructions of the lanes are in flight. -/
def State.wpathHeld (s : State) (t g : Nat) (lanes : List Nat) : Bool :=
  s.accs.any fun kv => match kv.2.who with
    | .thread t' g' _ => t' = t && g' = g && kv.2.va / 2 ^ 60 = 4 && kv.2.mates.any lanes.contains
    | _ => false

/-- Issue of an instruction that first waits for the earlier accesses of its participants. -/
def syncIssue (o : Ops) (u : Uses) (body : Iss → State → State) (s : State) : Out :=
  issue o u false (fun i s => if s.wpathHeld i.t i.g i.parts then { s with turn := .later } else body i s) s

/-! ## Atomics -/

/-- Bytes and registers of an atomic. -/
def atBytes (w64 : Bool) : Nat := if w64 then 8 else 4
def w3Bytes : W3 → Nat
  | .w4 => 4 | .w8 => 8 | .w16 => 16
def atKindBytes : AtKind → Nat
  | .int w _ _ => atBytes w
  | .cas w => atBytes w
  | .flt _ _ => 4
/-- The compared value of a CAS. -/
def atKindCas : AtKind → Bool
  | .cas _ => true
  | _ => false

/-- The operand of an update: a floating-point one converts an 8-bit immediate to its type (R10). -/
def AOp.operand (op : AOp) (s : State) (i : Iss) (l : Nat) (x : Src) (n : Nat) : Nat :=
  match op with
  | .atom (.flt ft _) _ => (srcF ft s i l x).toNat
  | .satom .fadd _ _ => (srcF .f32 s i l x).toNat
  | _ => srcData s i l x n

/-- One lane of an atomic on GLOBAL. -/
def State.atomLane (s : State) (i : Iss) (l n : Nat) (p : Bool) (x : MemX) (op : AOp) (cas : Bool) (dst : Dst) : LaneMem × State :=
  let ea := effAddr s i l 0 p n
  match s.ptrCheck i.t i.g ea n [0] none true with
  | some tr => (⟨l, .trap tr, none⟩, s)
  | none =>
    s.globLane i l ea n op (op.operand s i l i.o.a (n / 4)) (if cas then srcData s i l x.e (n / 4) else 0) dst x.scope

/-- The new accesses of an issue, since identifier `from_`. -/
def State.newAccs (s : State) (from_ : Nat) : List Nat := (amapKeys s.accs).filter fun k => from_ ≤ k

/-- The releasing side on the core before the word is reached (R83 step 2, R114). -/
def State.releaseSide (s : State) (core : Nat) (wide rel sys : Bool) : State :=
  if !wide || !rel then s else
  let s := if sys then (s.publishNow core).acquireDrop core false else s
  s.releasePriv core

/-- Mark accesses as waited for. -/
def State.setWaits (s : State) (from_ : Nat) : State :=
  { s with accs := amapMap (fun k a => if from_ ≤ k then { a with waits := true } else a) s.accs }

/-- A GLOBAL atomic of every participant; one with an order is a waiting instruction. -/
def atomIssue (o : Ops) (n : Nat) (p cas : Bool) (x : MemX) (op : AOp) (dst : Option Nat) (s : State) : Out :=
  let w := n / 4
  let u : Uses := { src := (o.a, w) :: (if cas then [(x.e, w)] else []) ++ addrSrc o p,
                    vd := match dst with
                      | some d => if o.nw then [] else [(d, w)]
                      | none => [] }
  let lane (i : Iss) (s : State) (l : Nat) : LaneMem × State :=
    s.atomLane i l n p x op cas (match dst with
      | some d => if o.nw then .none else .vec d w
      | none => .none)
  if op.ord = .none then memIssue o u none id lane (fun _ _ s => s) s
  else syncIssue o u (fun i s =>
    let u0 := s.uid
    match memLanes i (lane i) i.parts s with
    | (rs, s) =>
      let s := takeLaneTraps (s.setWaits u0) i rs
      let ids := s.newAccs u0
      if ids.isEmpty then i.finish s [] true none
      else
        let s := s.releaseSide (s.team i.t).core x.scope.wide op.ord.releases (x.scope == .system)
        i.finishWait s i.parts (.sync ids)) s

def execAtomg (o : Ops) (p : Bool) (ord : Ord3) (w64 sgn : Bool) (op : AtOp) (x : MemX) (s : State) : Out :=
  atomIssue o (atBytes w64) p false x (.atom (.int w64 sgn op) ord) (some o.d.toNat) s
def execAtomgCas (o : Ops) (p : Bool) (ord : Ord3) (w : W3) (x : MemX) (s : State) : Out :=
  atomIssue o (w3Bytes w) p true x (if w = .w16 then .cas16 ord else .atom (.cas (w = .w8)) ord) (some o.d.toNat) s
def execAtomgF (o : Ops) (p : Bool) (ord : Ord3) (ft : FTy) (op : FRedOp) (x : MemX) (s : State) : Out :=
  atomIssue o 4 p false x (.atom (.flt ft op) ord) (some o.d.toNat) s
def execRedg (o : Ops) (p w64 sgn : Bool) (op : AtOp) (x : MemX) (s : State) : Out :=
  atomIssue o (atBytes w64) p false x (.atom (.int w64 sgn op) .none) none s
def execRedgF (o : Ops) (p : Bool) (ft : FTy) (op : FRedOp) (x : MemX) (s : State) : Out :=
  atomIssue o 4 p false x (.atom (.flt ft op) .none) none s

/-- An atomic in a bank unit of a scratchpad: it does not wait on presence (R232, R123). -/
def atomScr (o : Ops) (high tag : Nat) (p : Bool) (k : AtKind) (x : MemX) (s : State) : Out :=
  let n := atKindBytes k
  let w := n / 4
  let cas := atKindCas k
  let op : AOp := .atom k .none
  memIssue o { src := (o.a, w) :: (if cas then [(x.e, w)] else []) ++ addrSrc o p, vd := if o.nw then [] else [(o.d.toNat, w)] }
    (some (o.d.toNat, w)) id (fun i s l =>
      let ea := effAddr s i l high p n
      match s.ptrCheck i.t i.g ea n [tag] none true with
      | some tr => (⟨l, .trap tr, none⟩, s)
      | none =>
        let y := s.scrTarget i.t ea
        let r := s.scrRead y.1 y.2 n
        if r.2 && !o.nw then (⟨l, .trap { cause := .poison, addr := ea }, none⟩, s) else
        match op.update n r.1 (op.operand s i l o.a w) (if cas then srcData s i l x.e w else 0) with
        | none => (⟨l, .done r.1, none⟩, s)
        | some v => (⟨l, .done r.1, none⟩, s.scrWrite y.1 y.2 n v)) (fun _ _ s => s) s

def execAtoms (o : Ops) (p : Bool) (k : AtKind) (x : MemX) (s : State) : Out := atomScr o 0x20000000 2 p k x s
def execAtomx (o : Ops) (p : Bool) (k : AtKind) (x : MemX) (s : State) : Out := atomScr o 0 3 p k x s

/-! ## LDA and STL (R234) -/

/-- LDA or STL of every participant. (DEDUCED, log 50.) -/
def syncWord (o : Ops) (m : MMod) (x : MemX) (store : Bool) (s : State) : Out :=
  let n := mtyBytes m.ty
  let w := mtyWords m.ty
  let op : AOp := if store then .stl else .lda (mtySigned m.ty)
  let u : Uses := { src := (if store then [(o.a, w)] else []) ++ addrSrc o m.p,
                    vd := if store || o.nw then [] else [(o.d.toNat, w)] }
  syncIssue o u (fun i s =>
    let u0 := s.uid
    let lane (s : State) (l : Nat) : LaneMem × State :=
      let ea := effAddr s i l 0 m.p (2 ^ m.sc.toNat)
      match s.ptrCheck i.t i.g ea n [0] none true with
      | some tr => (⟨l, .trap tr, none⟩, s)
      | none => s.globLane i l ea n op (if store then srcData s i l o.a w else 0) 0
          (if store || o.nw then .none else .vec o.d.toNat w) x.scope
    match memLanes i lane i.parts s with
    | (rs, s) =>
      let s := takeLaneTraps (s.setWaits u0) i rs
      let ids := s.newAccs u0
      if ids.isEmpty then i.finish s [] true none
      else
        let core := (s.team i.t).core
        let s := s.releaseSide core x.scope.wide store (x.scope == .system)
        let s := if store && x.scope.wide then
            let e := (s.core core).epoch
            { s with accs := amapMap (fun k a => if u0 ≤ k then { a with cmp := e } else a) s.accs }.regionEnd core true
          else s
        i.finishWait s i.parts (.sync ids)) s

def execLda (o : Ops) (m : MMod) (x : MemX) (s : State) : Out := syncWord o m x false s
def execStl (o : Ops) (m : MMod) (x : MemX) (s : State) : Out := syncWord o m x true s

/-! ## FENCE and FENCEX (R235, R122) -/

/-- A FENCE of a scope on a core: at cluster scope or wider it writes back, publishes and acquires (R83). (DEDUCED, log 50.) -/
def State.fenceNow (s : State) (core : Nat) (scope : Scope) : State :=
  if scope.wide then (s.publishNow core).acquireDrop core (scope == .system) else s

def execFence (o : Ops) (x : MemX) (s : State) : Out :=
  syncIssue o {} (fun i s =>
    if i.parts.isEmpty then i.finish s [] true none
    else i.finishWait (s.fenceNow (s.team i.t).core x.scope) i.parts (.sync [])) s

/-- The granules of rows that a team holds a key for. (DEDUCED, log 50.) -/
def State.teamGranules (s : State) (t : Nat) : List Nat :=
  s.rows.filterMap fun kv => if kv.1 / 256 = s.spaceOf t && (kv.2.heldBy t || kv.2.dropped.contains t) then some kv.2.granule else none
/-- The L1 lines of a core in granules: written back and dropped. -/
def State.dropL1Granules (s : State) (core : Nat) (gs : List Nat) : State :=
  forEach ((s.core core).l1.filter fun l => gs.contains (l.pline / 16)) s fun s l => (s.mergeLine l).l1Drop core l
/-- The L2 lines of granules: written back to the row and dropped. -/
def State.dropL2Granules (s : State) (gs : List Nat) : State :=
  forEach ((amapKeys s.l2).filter fun k => gs.contains (k / 16)) s fun s k => s.l2Drop k

/-- The destination side of a FENCEX, with what the source side of W still does (Table 07-4). (DEDUCED, log 50.) -/
def State.fencexDone (s : State) (t : Nat) (p q : Path) : State :=
  let core := (s.team t).core
  let gs := s.teamGranules t
  let s := if p = .w then (s.dropL1Granules core gs).dropL2Granules gs else s
  let s := if p = .m then s.mstCross t else s
  match q with
  | .v => s.dropV core
  | .w => (s.dropL1Granules core gs).dropL2Granules ((s.rows.filter fun kv => !kv.2.holders.isEmpty || !kv.2.dropped.isEmpty).map fun kv => kv.2.granule)
  | _ => s

def execFencex (o : Ops) (p q : Path) (x : MemX) (s : State) : Out :=
  syncIssue o {} (fun i s =>
    let core := (s.team i.t).core
    if i.parts.isEmpty then i.finish s [] true none
    else if p = q then i.finishWait (s.fenceNow core x.scope) i.parts (.sync [])
    else
      let s := if p = .v then (s.releasePriv core).releaseTracked core else s
      let accs := if p ≠ .w then [] else s.accs.filterMap fun kv => match kv.2.who with
        | .thread t' _ _ => if t' = i.t && kv.2.va / 2 ^ 60 = 4 then some kv.1 else none
        | _ => none
      let copies := if p ≠ .c then [] else s.copies.filterMap fun kv => if kv.2.team = i.t then some kv.1 else none
      let flights := if p ≠ .f then [] else match (s.team i.t).frag with
        | none => []
        | some f => f.flights.filter fun k => match amapFind? s.flights k with
            | some x => (match x.shader with
              | some y => s.quadExited y.1 y.2
              | none => false)
            | none => false
      i.finishWait s i.parts (.fencex accs copies flights p q)) s

/-- A copy that has stopped at poison or at an OFF domain, which it has reported: FENCEX waits no longer for it (R122). -/
def Copy.reported (c : Copy) : Bool := c.faulted && (c.cause == some .poison || c.cause == some .regionOff)

/-- SYNC_ACCESS_COMPLETE: every access of the wait has completed, and what a FENCEX waits for is done. -/
def execSyncAccessComplete (tid gix wid : Nat) (s : State) : Out :=
  match s.waitOf tid gix wid with
  | some ⟨_, .sync ids⟩ | some ⟨_, .loads ids⟩ =>
    if ids.all fun k => (amapFind? s.accs k).isNone then .next (s.endWait tid gix wid) else .fault .notEnabled
  | some ⟨_, .fencex as cs fs p q⟩ =>
    if as.all (fun k => (amapFind? s.accs k).isNone) && cs.all (fun k => (amapFind? s.copies k).all Copy.reported) &&
       fs.all (fun k => (amapFind? s.flights k).isNone) then .next ((s.fencexDone tid p q).endWait tid gix wid)
    else .fault .notEnabled
  | _ => .fault .notEnabled

end Sys2Proof.Machine
end

