-- ==== Sys2Proof/Machine/Stream.lean ====
section
/-! DEFINITION. The command window of a matrix stream (13_matrix, R248 to R252): what a command names, when it may
start, and the moment an MBW's condition holds. -/

namespace Sys2Proof.Machine

/-- The fields of a stream instruction. -/
def sopsOf : Instr → Option SOps
  | .mld o | .mldV o _ | .mma o _ _ _ | .mmq o _ _ _ | .mmqP o _ _ _ | .mmi o _ _ _ | .mclr o _
  | .mst o _ _ _ _ | .mstV o _ _ _ _ | .mbar o | .mbw o | .mnop o => some o
  | _ => none
/-- The register index of a pattern (R245). -/
def srcIx (x : Src) : Nat :=
  match x with
  | .v n => n.toNat
  | _ => 0
/-- MMA, MMQ and MMI in all their forms. -/
def isMul : Instr → Bool
  | .mma _ _ _ _ | .mmq _ _ _ _ | .mmqP _ _ _ _ | .mmi _ _ _ _ => true
  | _ => false
/-- The accumulator tile a command updates. -/
def cmdTile : Instr → Option Nat
  | .mma o _ _ _ | .mmq o _ _ _ | .mmqP o _ _ _ | .mmi o _ _ _ | .mclr o _ => some o.d.toNat
  | _ => none
/-- The number that an immediate field holds. -/
def srcNum (x : Src) : Nat :=
  match x with
  | .imm b => b.toNat
  | _ => 0
/-- The barrier and the parity of an MBW. -/
def mbwOf : Instr → Option (Nat × Nat)
  | .mbw o => some (srcNum o.a, srcNum o.b)
  | _ => none

/-- A command may start (R248, R250, R252): its predecessors have retired, so have earlier updates of its tile, and
earlier commands of its reuse chain have started. -/
def Stream.startable (st : Stream) (c : Cmd) : Bool :=
  !c.faulted &&
  c.preds.all (fun p => st.window.all fun d => d.seq ≠ p) &&
  st.window.all fun d => decide (c.seq ≤ d.seq) ||
    ((cmdTile d.instr).all (fun t => cmdTile c.instr ≠ some t) && (d.root.all (fun r => c.root ≠ some r && c.ends ≠ some r) || d.started))

/-- Unstarted commands do not start while their team is stopped or being pre-empted (R260, R365). -/
def State.streamHeld (s : State) (t : Nat) : Bool := (s.team t).stop.isSome || (s.team t).preempt || s.stopping t

/-- Every MBW that may start does; one that has started and whose barrier shows the other parity now has met its condition
(R271). -/
def State.mbwJudge (s : State) (t : Nat) : State :=
  match (s.team t).stream with
  | none => s
  | some st =>
    let w := st.window.map fun c => match mbwOf c.instr with
      | none => c
      | some (b, par) =>
        if !c.started && (s.streamHeld t || !st.startable c) then c
        else { c with started := true, elem := if (s.bar t b).phase.toNat % 2 ≠ par % 2 then 1 else c.elem }
    s.updTeam t fun tm => { tm with stream := some { st with window := w } }

/-- A stream of the team waits on a barrier. -/
def State.streamWaits (s : State) (t n : Nat) : Bool :=
  match (s.team t).stream with
  | none => false
  | some st => st.window.any fun c => match mbwOf c.instr with
    | none => false
    | some (b, _) => b == n

end Sys2Proof.Machine
end

