-- ==== Sys2Proof/Machine/Trace.lean ====
section
/-! DEFINITION. The trace buffer of a space (21_debug, R370, Table 21-2): its header and its records, written to device
memory under the key of slot 0. -/

namespace Sys2Proof.Machine

/-- Records that the buffer holds. -/
def traceCap (dbg : DWord) : Nat := (2 ^ (bitField 57 55 dbg.toNat + 16) - 64) / 32
def traceBase (dbg : DWord) : Nat := bitField 51 12 dbg.toNat * 4096

/-- A store of the trace buffer: up to 64 bytes of one line at a physical address, posted (R397, R398). -/
def State.tracePut (s : State) (space pa : Nat) (bs : List Byte) : State :=
  let n := bs.length
  s.unitPost { unitAcc .trace 0 space pa n .store (bytesToNat bs) false with pa := pa } fun s => s.devPut pa n 0 .priv (bytesToNat bs) false

/-- Write a record of four 64-bit words, or drop and count it: the slot of record `i` is unread while fewer than the
capacity have been written. (DESIGN CHOICE, log 40.) -/
def State.traceWrite (s : State) (space : Nat) (ws : List Nat) : State :=
  let sp := s.space space
  let b := traceBase sp.dbg
  let full := !sp.dbg.getLsbD 60 && decide (traceCap sp.dbg ≤ sp.traceWritten)
  let s := if full then s else
    s.tracePut space (b + 64 + 32 * (sp.traceWritten % traceCap sp.dbg)) (ws.flatMap fun w => natToBytes 8 w)
  let s := s.updSpace space fun sp =>
    if full then { sp with traceDropped := sp.traceDropped + 1 } else { sp with traceWritten := sp.traceWritten + 1 }
  let sp := s.space space
  s.tracePut space b (natToBytes 8 sp.traceWritten ++ natToBytes 8 sp.traceDropped ++ List.replicate 48 0)

/-- The four words of a record of a team: type, STALL or barrier number, group, quarter, PC offset. -/
def State.traceRecord (s : State) (t type stall group quarter pc : Nat) : List Nat :=
  let tm := s.team t
  let la := s.launch tm.launch
  let cl := s.cluster tm.cluster
  let ph := (List.range 20).foldl (fun x n => x + 2 ^ (24 + 2 * n) * ((s.bar t n).phase.toNat % 4)) 0
  [ 2 ^ 60 * type + 2 ^ 56 * (stall % 16) + 2 ^ 48 * (tm.core % 256) + 2 ^ 43 * (group % 32) + 2 ^ 41 * (quarter % 4) +
      2 ^ 37 * (tm.rank % 16) + 2 ^ 35 * (tm.rank % la.lr.cw % 4) + 2 ^ 33 * (tm.rank / la.lr.cw % 4) + pc % 2 ^ 32,
    2 ^ 48 * cl.gx + 2 ^ 32 * cl.gy + 2 ^ 16 * cl.gz + la.ticket,
    s.devtime % 2 ^ 64,
    ph + 2 ^ 12 * la.space ]

/-- The BARRIER record of a completed phase, with BART = 1. Which group, quarter and PC it names is not stated, nor the
number of an allocated object. (DESIGN CHOICE, log 40.) -/
def State.traceBarrier (s : State) (t : Nat) (n : Option Nat) : State :=
  let space := s.spaceOf t
  if !(s.space space).dbg.getLsbD 61 then s else
  let f := (Config.freeValue s.free).toNat
  let s := { s with free := s.free + 1 }
  s.traceWrite space (s.traceRecord t 2 (n.getD f) f (f / 32) (f / 2 ^ 8))

end Sys2Proof.Machine
end

