-- ==== Sys2Proof/Machine/Barrier.lean ====
section
/-! DEFINITION. Barriers (12_memory_instructions, R236 to R240; R115). -/

namespace Sys2Proof.Machine

/-! ## Reaching a barrier -/

/-- The barrier an operand names (R237), or the trap. -/
def State.barRef (s : State) (t : Nat) (h : Bool) (a : Nat) : BarRef ⊕ Trap :=
  if h then
    let ix := a % 256
    let gen := a / 256 % 256
    let b := amapGet {} (s.core (s.team t).core).barTab ix
    if b.gen = gen && b.team == some t then .inl (.handle ix gen)
    else .inr { cause := .barrierStale, aux := 0xFF, info := a % 2 ^ 16 }
  else if 19 < a then .inr { cause := .illegalOperand } else .inl (.num a)

/-- A handle's generation is still current for its team. -/
def State.barLive (s : State) (t : Nat) (r : BarRef) : Bool :=
  match r with
  | .num _ => true
  | .handle ix gen =>
    let b := amapGet {} (s.core (s.team t).core).barTab ix
    b.gen == gen && b.team == some t

def State.barGet (s : State) (t : Nat) (r : BarRef) : Bar :=
  match r with
  | .num n => s.bar t n
  | .handle ix _ => (amapGet {} (s.core (s.team t).core).barTab ix).bar
def State.barSet (s : State) (t : Nat) (r : BarRef) (b : Bar) : State :=
  match r with
  | .num n => s.setBar t n b
  | .handle ix _ => s.updCore (s.team t).core fun k =>
      { k with barTab := amapInsert k.barTab ix { amapGet {} k.barTab ix with bar := b } }

def BarRef.wide (r : BarRef) : Bool :=
  match r with
  | .num n => decide (16 ≤ n)
  | .handle _ _ => false
/-- Limit(b) (R236). -/
def BarRef.limit (r : BarRef) : Nat := if r.wide then 12300 else 1025
/-- The number in a record: 0xFF for a handle (Table 20-3). -/
def BarRef.aux (r : BarRef) : Nat :=
  match r with
  | .num n => n
  | .handle _ _ => 0xFF
def BarRef.info (r : BarRef) : Nat :=
  match r with
  | .num _ => 0
  | .handle ix gen => ix + 256 * gen

/-- The teams that may wait on a barrier: the team, or its cluster's. -/
def State.barTeams (s : State) (t : Nat) (r : BarRef) : List Nat := if r.wide then (s.clusterOf t).teams else [t]

/-- A barrier as a waiting team names it is the barrier that changed. -/
def BarRef.same (r q : BarRef) : Bool := r == q

/-- Judge the waiters of a barrier whose PHASE has changed: a lane whose parity now differs is satisfied, and so is an
MBW that has started. -/
def State.barJudge (s : State) (t : Nat) (r : BarRef) : State :=
  let bit := (s.barGet t r).phase.toNat % 2
  forEach (s.barTeams t r) s fun s t' => State.mbwJudge (t := t') <| s.updTeam t' fun tm => { tm with
    groups := amapMap (fun _ g => { g with
      waits := amapMap (fun _ w => match w.cond with
        | .parity pc ls => { w with cond := .parity pc (ls.filter fun x => !(x.2.1.same r && x.2.2 % 2 ≠ bit)) }
        | _ => w) g.waits }) tm.groups }

/-! ## Arriving (R236, R115) -/

/-- The release that an arrival at a cluster barrier makes: its core's dirty PRIV lines go back and (core, epoch)
is recorded. (DEDUCED, log 51.) -/
def State.arriveRelease (s : State) (core : Nat) : (Nat × Nat) × State :=
  let s := s.releasePriv core
  let e := (s.core core).epoch
  ((core, e), s.regionEnd core true)

/-- Records of a phase: the latest epoch of each core. -/
def addRec (rs : List (Nat × Nat)) (x : Nat × Nat) : List (Nat × Nat) := rs.filter (fun y => y.1 ≠ x.1) ++ [x]

/-- Cores of teams that wait on a barrier. -/
def State.barCores (s : State) (t : Nat) (r : BarRef) : List Nat :=
  (s.barTeams t r).filterMap fun t' =>
    if ((s.team t').groups.any fun g => g.2.waits.any fun w => match w.2.cond with
      | .parity _ ls => ls.any fun x => x.2.1.same r
      | _ => false) || (match r with
        | .num n => s.streamWaits t' n
        | .handle _ _ => false) then some (s.team t').core else none

/-- The acquires at the completion of a cluster barrier: each participating core from every recorded one. -/
def State.barAcquire (s : State) (t : Nat) (r : BarRef) (recs : List (Nat × Nat)) : State :=
  let cores := (recs.map (·.1) ++ s.barCores t r).eraseDups
  let s := forEach cores s fun s a => forEach recs s fun s x => s.darnNow x.1 x.2 a
  forEach cores s fun s a => s.acquireDone a false

/-- Records of the phases that are over, with those of the one that ends: the latest epoch of each core. -/
def Bar.ended (b : Bar) (recs : List (Nat × Nat)) : List (Nat × Nat) := recs.foldl addRec b.past

/-- The acquire of a wait that finds the phase over (R113, R115): its core from every core that arrived. (DEDUCED, log 51.) -/
def State.barLate (s : State) (t : Nat) (r : BarRef) : State :=
  if !r.wide then s else
  let b := s.barGet t r
  let core := (s.team t).core
  let s := (forEach b.past s fun s x => s.darnNow x.1 x.2 core).acquireDone core false
  if b.pastMx then s.dropV core else s

/-- The acquires that a team's waits still owe once it is restored on another core. -/
def State.barRejoin (s : State) (t : Nat) : State :=
  forEach ((s.clusterOf t).bars.filter fun kv => !kv.2.past.isEmpty) s fun s kv => s.barLate t (.num kv.1)

/-- Arrive(b, n) (R236): none where it is recorded. `mx`: by an MBAR (R271). (DEDUCED, log 51.) -/
def State.arrive (s : State) (t : Nat) (r : BarRef) (n : Nat) (mx : Bool := false) : Option Trap × State :=
  if !s.barLive t r then (some { cause := .barrierStale, aux := r.aux, info := r.info }, s)
  else if n = 0 || r.limit < n then (some { cause := .illegalOperand }, s)
  else
    let b := s.barGet t r
    if b.expect ≠ 0 && n ≠ b.expect then
      (some { cause := .barrierCount, aux := r.aux, info := 2 ^ 16 * b.expect + n }, s)
    else
      let x := if r.wide then
          let y := s.arriveRelease (s.team t).core
          (addRec b.recs y.1, y.2)
        else (b.recs, s)
      let s := x.2
      if b.arrived + 1 = n then
        let s := s.barSet t r { b with
          phase := b.phase + 1, arrived := 0, expect := b.preset, recs := [], mx := false, past := b.ended x.1, pastMx := mx || b.mx }
        let cores := (x.1.map (·.1) ++ s.barCores t r).eraseDups
        let s := if r.wide then s.barAcquire t r x.1 else s
        let s := if r.wide && (mx || b.mx) then forEach cores s State.dropV else s
        let s := s.traceBarrier t (match r with
          | .num k => some k
          | .handle _ _ => none)
        (none, s.barJudge t r)
      else (none, s.barSet t r { b with arrived := b.arrived + 1, expect := n, recs := x.1, mx := mx || b.mx })

/-! ## BARRIVE, BWAIT, BSYNC (R238) -/

/-- The barrier and count operands of a lane. -/
def barOps (s : State) (i : Iss) (l : Nat) (h : Bool) : (BarRef ⊕ Trap) × Nat :=
  (s.barRef i.t h (src32 s i l i.o.a).toNat, (src32 s i l i.o.b).toNat)

/-- One lane arrives, or traps. -/
def State.arriveLane (s : State) (i : Iss) (l : Nat) (h : Bool) : State :=
  let x := barOps s i l h
  match x.1 with
  | .inr tr => s.takeTrap i.t i.g l tr
  | .inl r =>
    match s.arrive i.t r (x.2 % 2 ^ 16) with
    | (some tr, s) => s.takeTrap i.t i.g l tr
    | (none, s) => s

def barUses (o : Ops) : Uses := { src := [(o.a, 1), (o.b, 1)] }

def execBarrive (o : Ops) (h : Bool) (_x : MemX) (s : State) : Out :=
  syncIssue o (barUses o) (fun i s => i.finish (forEach i.parts s fun s l => s.arriveLane i l h) [] false none) s

/-- Wait of the participants on barriers; those whose parity already differs wait for nothing of their own. -/
def barWait (i : Iss) (s : State) (xs : List (Nat × BarRef × Nat)) : State :=
  let pc := (s.thread i.t i.g (i.parts.headD 0)).pc
  let open_ := xs.filter fun x => (s.barGet i.t x.2.1).phase.toNat % 2 = x.2.2 % 2
  if open_.isEmpty then i.finish s [] true none
  else i.finishWait s (xs.map (·.1)) (.parity pc open_)

def execBwait (o : Ops) (h : Bool) (_x : MemX) (s : State) : Out :=
  issue o (barUses o) false (fun i s =>
    let rs := i.parts.map fun l => (l, barOps s i l h)
    let xs := rs.filterMap fun x => match x.2.1 with
      | .inl r => some (x.1, r, x.2.2)
      | .inr _ => none
    let s := forEach rs s fun s x => match x.2.1 with
      | .inr tr => s.takeTrap i.t i.g x.1 tr
      | .inl _ => s
    let ended := (xs.filter fun x => (s.barGet i.t x.2.1).phase.toNat % 2 ≠ x.2.2 % 2).map fun x => x.2.1
    barWait i (forEach ended.eraseDups s fun s r => s.barLate i.t r) xs) s

/-- BSYNC: arrive, then wait for the phase arrived in. -/
def execBsync (o : Ops) (h : Bool) (_x : MemX) (s : State) : Out :=
  syncIssue o (barUses o) (fun i s =>
    let r := i.parts.foldl (fun (acc : List (Nat × BarRef × Nat) × State) l =>
      let s := acc.2
      let x := barOps s i l h
      match x.1 with
      | .inr tr => (acc.1, s.takeTrap i.t i.g l tr)
      | .inl b =>
        let ph := (s.barGet i.t b).phase.toNat
        match s.arrive i.t b (x.2 % 2 ^ 16) with
        | (some tr, s) => (acc.1, s.takeTrap i.t i.g l tr)
        | (none, s) =>
          let done := acc.1.filter fun y => (s.barGet i.t y.2.1).phase.toNat % 2 = y.2.2 % 2
          (if (s.barGet i.t b).phase.toNat = ph then done ++ [(l, b, ph)] else done, s)) ([], s)
    let pc := (s.thread i.t i.g (i.parts.headD 0)).pc
    if r.1.isEmpty then i.finish r.2 [] true none
    else i.finishWait r.2 i.parts (.parity pc r.1)) s

/-- BARRIER_WAIT_COMPLETE: every participant's barrier has shown the other parity; at cluster scope an acquire. -/
def execBarrierWaitComplete (tid gix wid : Nat) (s : State) : Out :=
  match s.waitOf tid gix wid with
  | some ⟨_, .parity _ []⟩ => .next (s.endWait tid gix wid)
  | _ => .fault .notEnabled

/-! ## BARRD (R239) -/

/-- A deferred arrival failed: its record enters the book, and its thread parks at its next issue; the porter's ends its grid
(R350), and a grid that is ending takes no record (R358). (DEDUCED, log 52.) -/
def State.barrdFault (s : State) (t : Nat) (d : Deferred) (tr : Trap) : State :=
  let tm := s.team t
  let tr := { tr with addr := d.bar.aux }
  let tr := match d.bar with
    | .handle _ _ => { tr with addr := d.bar.info }
    | .num _ => tr
  if tm.kind = .porter then s.porterTrap t d.pc tr else
  if s.stopping t then s else
  let e : GbEntry := { seq := 0, words := s.faultRecord t d.gix d.lane d.pc tr, team := t, launch := tm.launch,
                       host := s.toHost tm.launch tr, barrd := true }
  let s := if s.bookFull tm.core then s.bookHold tm.core (.engine e) else s.bookPut tm.core e
  if (s.thread t d.gix d.lane).stat = .dead then s else
  s.updThread t d.gix d.lane fun th => { th with pend := some 1 }

/-- Perform a deferred arrival. -/
def State.barrdPerform (s : State) (t : Nat) (d : Deferred) : State :=
  match s.arrive t d.bar d.count with
  | (some tr, s) => s.barrdFault t d tr
  | (none, s) => s

def execBarrd (o : Ops) (h : Bool) (_x : MemX) (s : State) : Out :=
  syncIssue o { src := [(o.a, 1), (o.b, 1), (o.c, 1)] } (fun i s =>
    i.finish (forEach i.parts s fun s l =>
      let x := barOps s i l h
      match x.1 with
      | .inr tr => s.takeTrap i.t i.g l tr
      | .inl r =>
        let mask := (src32 s i l o.c).toNat % 2 ^ 16
        let cs := s.copies.filterMap fun kv =>
          if kv.2.team = i.t && kv.2.gix = i.g && tmplBen kv.2.tmpl && mask / 2 ^ tmplBmap kv.2.tmpl % 2 == 1 then some kv.1 else none
        let d : Deferred := ⟨i.g, l, s.pcOffset i.t (s.thread i.t i.g l).pc, r, x.2 % 2 ^ 16, cs⟩
        if mask = 0 then s.barrdPerform i.t d
        else
          let k := s.uid
          let s := { s with uid := k + 1 }
          let s := s.updTeam i.t fun tm => { tm with deferred := amapInsert tm.deferred k d }
          { s with later := s.later ++ [.ins (.barrdArrivalPerform i.t k)] }) [] false none) s

/-- BARRD_ARRIVAL_PERFORM: the copies it waited for have landed. (DEDUCED, log 56.) -/
def execBarrdArrivalPerform (tid k : Nat) (s : State) : Out :=
  match amapFind? (s.team tid).deferred k with
  | none => .fault .notEnabled
  | some d =>
    if !(s.team tid).restore && d.copies.all fun c => (amapFind? s.copies c).isNone then
      .next ((s.updTeam tid fun tm => { tm with deferred := amapErase tm.deferred k }).barrdPerform tid d)
    else .fault .notEnabled

/-! ## BINIT, BALLOC, BFREE (R240) -/

def execBinit (o : Ops) (h : Bool) (_x : MemX) (s : State) : Out :=
  issue o (barUses o) false (fun i s =>
    i.finish (forEach i.parts s fun s l =>
      let x := barOps s i l h
      let n := x.2 % 2 ^ 16
      match x.1 with
      | .inr tr => s.takeTrap i.t i.g l tr
      | .inl r =>
        if r.limit < n then s.takeTrap i.t i.g l { cause := .illegalOperand }
        else (s.barSet i.t r { phase := 0, arrived := 0, expect := n, preset := n, recs := [] }).barJudge i.t r) [] false none) s

/-- Free entries of a core's table. -/
def Core.barFree (k : Core) : List Nat := (List.range 256).filter fun n => (amapGet ({} : BarObj) k.barTab n).team.isNone

/-- BALLOC: a free entry of the core's table for the team, or 0 (R240). (DESIGN CHOICE, log 27.) -/
def execBalloc (o : Ops) (_x : MemX) (s : State) : Out :=
  onceIssue o { sd := if o.nw then [] else [(o.d.toNat, 1)] } false false (fun i _ s =>
    let core := (s.team i.t).core
    let fr := (s.core core).barFree
    match fr[Config.freeChoice s.free % max fr.length 1]? with
    | none => i.finish (if o.nw then s else s.scalPend i o.d.toNat 1 0) [] false none
    | some ix =>
      let s := { s with free := s.free + 1 }
      let b := amapGet ({} : BarObj) (s.core core).barTab ix
      let s := s.updCore core fun k => { k with barTab := amapInsert k.barTab ix { b with team := some i.t, bar := {} } }
      i.finish (if o.nw then s else s.scalPend i o.d.toNat 1 (ix + 256 * b.gen)) [] false none) s

/-- Free an object: its generation advances, from 255 to 1. -/
def State.barErase (s : State) (core ix : Nat) : State :=
  s.updCore core fun k =>
    let b := amapGet ({} : BarObj) k.barTab ix
    { k with barTab := amapInsert k.barTab ix { gen := if b.gen = 255 then 1 else b.gen + 1, team := none, bar := {} } }

/-- What BFREE of an object does to those that use it: deferred arrivals are dropped and reported, waiters raise
BARRIER_STALE at their wait. -/
def State.barDrop (s : State) (t : Nat) (r : BarRef) : State :=
  let tr : Trap := { cause := .barrierStale, aux := r.aux, info := r.info }
  let ds := (s.team t).deferred.filter fun kv => kv.2.bar == r
  let s := s.updTeam t fun tm => { tm with deferred := amapFilter (fun _ d => d.bar != r) tm.deferred }
  let s := forEach ds s fun s d => s.barrdFault t d.2 tr
  let ws := (s.team t).groups.flatMap fun g => g.2.waits.flatMap fun w => match w.2.cond with
    | .parity pc ls => (ls.filter fun x => x.2.1 == r).map fun x => (g.1, x.1, pc)
    | _ => []
  let s := s.updTeam t fun tm => { tm with
    groups := amapMap (fun _ g => { g with
      waits := amapMap (fun _ w => match w.cond with
        | .parity pc ls => { w with cond := .parity pc (ls.filter fun x => x.2.1 != r) }
        | _ => w) g.waits }) tm.groups }
  forEach ws s fun s w => s.trapAt t w.1 w.2.1 w.2.2 tr

def execBfree (o : Ops) (_x : MemX) (s : State) : Out :=
  issue o { src := [(o.a, 1)] } false (fun i s =>
    i.finish (forEach i.parts s fun s l =>
      match s.barRef i.t true (src32 s i l o.a).toNat with
      | .inr tr => s.takeTrap i.t i.g l tr
      | .inl r => match r with
        | .handle ix _ => (s.barDrop i.t r).barErase (s.team i.t).core ix
        | .num _ => s) [] false none) s

/-- Team exit frees the team's objects. -/
def State.barFreeTeam (s : State) (t : Nat) : State :=
  let core := (s.team t).core
  forEach ((s.core core).barTab.filter fun kv => kv.2.team = some t) s fun s kv => s.barErase core kv.1

end Sys2Proof.Machine
end

