-- ==== Sys2Proof/Machine/Rows.lean ====
section
/-! DEFINITION. Booked rows (04_device_memory, R65 to R73; R241), refresh and patrol, TLBI and shootdowns
(R108, R242). -/

namespace Sys2Proof.Machine

/-! ## Rows and banks -/

/-- The channel and bank of a granule. -/
def granuleBank (g : Nat) : Nat × Nat :=
  let p := dramPlace (g * 2048)
  (p.1, p.2.1)
def Row.sameBank (r : Row) (g : Nat) : Bool := granuleBank r.granule == granuleBank g
/-- Open, being opened, closed for refresh or restoring. -/
def Row.live (r : Row) : Bool :=
  match r.state with
  | .opening | .open_ | .refresh | .restoring => true
  | _ => false

def State.setRow (s : State) (space key : Nat) (r : Row) : State := { s with rows := amapInsert s.rows (256 * space + key) r }
/-- A row without holds and keepings is gone: its key may be issued again. -/
def State.putRow (s : State) (space key : Nat) (r : Row) : State :=
  if r.holders.isEmpty && r.dropped.isEmpty then { s with rows := amapErase s.rows (256 * space + key) }
  else s.setRow space key (if r.holders.isEmpty then { r with state := .closed } else r)

/-- Before a row opens: its granule's L2 lines and the core's L1 copies are written back and dropped (R66).
(DESIGN CHOICE, log 78.) -/
def State.openRow (s : State) (core granule : Nat) : State := (s.dropL1Granules core [granule]).dropL2Granules [granule]

/-- Set ROWSTAT.KEY and LAST of a group (R73). -/
def State.rowLast (s : State) (t g key last : Nat) : State :=
  s.updGroup t g fun gr => { gr with rowKey := BitVec.ofNat 8 key, rowLast := BitVec.ofNat 4 last }

/-- End a team's hold or keeping of a key (R68). -/
def State.rowEnd (s : State) (space key t : Nat) : State :=
  match s.row? space key with
  | none => s
  | some r => s.putRow space key { r with
      holders := r.holders.filter (· ≠ t), savedBy := r.savedBy.filter (· ≠ t), dropped := r.dropped.filter (· ≠ t) }
/-- A team's end, or its grid's, ends all its holds and keepings. -/
def State.rowFreeTeam (s : State) (t : Nat) : State :=
  forEach (s.rows.filter fun kv => kv.2.holders.contains t || kv.2.dropped.contains t) s fun s kv =>
    s.rowEnd (kv.1 / 256) (kv.1 % 256) t

/-! ## ROWBOOK, ROWJOIN, ROWFREE (R241) -/

/-- What ROWBOOK finds (Table 04-2): the key returned, LAST (0 OK, 1 BUSY, 2 LIMIT), whether a row opens.
(DESIGN CHOICE, log 78.) -/
def State.bookOutcome (s : State) (t : Nat) (p : Phys) : Nat × Nat × Bool × State :=
  let space := s.spaceOf t
  let core := (s.team t).core
  let gran := p.pa / 2048
  let mine (f : Row → Bool) : Option (Nat × Row) :=
    (s.rows.find? fun kv => kv.1 / 256 == space && kv.2.granule == gran && f kv.2).map fun kv => (kv.1 % 256, kv.2)
  let full : Bool := decide (8 ≤ s.bookedOn core)
  match mine fun r => r.heldBy t && r.live with
  | some (k, _) => (k, 0, false, s)
  | none =>
    match mine fun r => r.dropped.contains t with
    | some (k, r) =>
      if s.rows.any fun kv => kv.2.sameBank gran && kv.2.holders.any (· ≠ t) then (k, 1, false, s)
      else if full then (k, 2, false, s)
      else (k, 0, true, s.setRow space k { r with
        key := p.key, wr := p.cls == PClass.priv && p.w
        dropped := r.dropped.filter (· ≠ t), holders := r.holders ++ [t], state := .opening, counted := false })
    | none =>
      if s.rows.any fun kv => kv.2.sameBank gran && !kv.2.holders.isEmpty then (0, 1, false, s)
      else if full then (0, 2, false, s)
      else
        let fr := (List.range 256).filter fun k => decide (0 < k) && (s.row? space k).isNone
        match fr[Config.freeChoice s.free % max fr.length 1]? with
        | none => (0, 2, false, s)
        | some k => (k, 0, true, ({ s with free := s.free + 1 }).setRow space k
            { granule := gran, key := p.key, wr := p.cls == PClass.priv && p.w, state := .opening, holders := [t] })

/-- Write pQ of every participant. -/
def State.writePs (s : State) (i : Iss) (q : Nat) (b : Bool) : State :=
  forEach i.parts s fun s l => s.writeP i.t i.g l q b

/-- Wait for the row to open, or go on. A hold of a row that is being opened waits for it too. (DESIGN CHOICE, log 78.) -/
def rowFinish (i : Iss) (s : State) (key last : Nat) (opens : Bool) : State :=
  let opening := match s.row? (s.spaceOf i.t) key with
    | some r => r.state == .opening
    | none => false
  if opens || (last == 0 && opening) then i.finishWait s i.parts (.rowOpen (s.spaceOf i.t) key) else i.finish s [] true none

/-- ROWBOOK: the row that a pointer names, as Table 04-2 says (R65, R241). (DEDUCED, log 117.) -/
def execRowbook (o : Ops) (p : Bool) (q sc : BitVec 3) (_x : MemX) (s : State) : Out :=
  onceIssue o { src := addrSrc o p, sd := if o.nw then [] else [(o.d.toNat, 1)], pw := [q.toNat] } false true (fun i l s =>
    let ea := effAddr s i l 0 p (2 ^ sc.toNat)
    match s.ptrCheck i.t i.g ea 1 [0] none false with
    | some tr => i.faultAll s tr true
    | none =>
      let core := (s.team i.t).core
      match s.translate (coreWing core) (s.team i.t).launch .ctlb ea .read .rowbook none with
      | (.wait, s) => { s with turn := .later }
      | (.trap tr, s) => i.faultAll s tr true
      | (.breach lvl, s) => i.finish (s.breach (s.team i.t).launch ea lvl) [] true none
      | (.ok ph, s) =>
        if s.flipping ph.pa then { s with turn := .later } else
        match s.bookOutcome i.t ph with
        | (key, last, opens, s) =>
          let s := if opens then s.openRow core (ph.pa / 2048) else s
          let s := if o.nw then s else s.writeS i.t i.g o.d.toNat (BitVec.ofNat 32 (key * 2 ^ 11))
          rowFinish i ((s.writePs i q.toNat (last == 0)).rowLast i.t i.g key last) key last opens) s

/-- ROWJOIN: the team joins the holders of a key (R68, R241). (DESIGN CHOICE, log 78.) -/
def execRowjoin (o : Ops) (q : BitVec 3) (_x : MemX) (s : State) : Out :=
  onceIssue o { src := [(o.a, 1)], pw := [q.toNat] } false true (fun i l s =>
    let key := bitField 18 11 (src32 s i l o.a).toNat
    let space := s.spaceOf i.t
    let core := (s.team i.t).core
    let done (s : State) (last : Nat) (opens : Bool) : State :=
      rowFinish i ((s.writePs i q.toNat (last == 0)).rowLast i.t i.g key last) key last opens
    match s.row? space key with
    | none => done s 3 false
    | some r =>
      if r.holders.isEmpty then done s 3 false
      else if r.heldBy i.t then done s 0 false
      else if 8 ≤ s.bookedOn core then done s 2 false
      else
        let opens := !r.live
        let r := { r with holders := r.holders ++ [i.t], dropped := r.dropped.filter (· ≠ i.t),
                          state := if opens then .opening else r.state }
        let s := s.setRow space key r
        done (if opens then s.openRow core r.granule else s) 0 opens) s

/-- LDW and STW of a team on a key in flight. -/
def State.rowBusy (s : State) (t key : Nat) : Bool :=
  s.accs.any fun kv => kv.2.va / 2 ^ 60 = 4 && kv.2.snoops.contains key && (match kv.2.who with
    | .thread t' _ _ => t' == t
    | _ => false)

def execRowfree (o : Ops) (_x : MemX) (s : State) : Out :=
  onceIssue o { src := [(o.a, 1)] } false true (fun i l s =>
    let key := bitField 18 11 (src32 s i l o.a).toNat
    let space := s.spaceOf i.t
    if !s.keyHeld i.t key then i.finish (s.rowLast i.t i.g key 3) [] true none
    else if s.rowBusy i.t key then { s with turn := .later }
    else i.finish ((s.rowEnd space key i.t).rowLast i.t i.g key 0) [] true none) s

/-- ROW_OPEN_COMPLETE: the controller has opened the row (R66). -/
def execRowOpenComplete (tid gix wid : Nat) (s : State) : Out :=
  match s.waitOf tid gix wid with
  | some ⟨_, .rowOpen sp key⟩ =>
    let s := match s.row? sp key with
      | some r => s.setRow sp key { r with state := if r.state == RowState.opening then .open_ else r.state }
      | none => s
    .next (s.endWait tid gix wid)
  | _ => .fault .notEnabled

/-! ## Refresh and patrol (R62, R70) -/

/-- W-path instructions on a key, of teams that hold it, are in flight: one of a team that keeps it DROPPED has no fixed latency
that could be suspended (R70, R72). (DESIGN CHOICE, log 78.) -/
def State.wBusy (s : State) (space key : Nat) : Bool :=
  s.accs.any fun kv => kv.2.va / 2 ^ 60 = 4 && kv.2.space = space && kv.2.snoops.contains key && (match kv.2.who with
    | .thread t _ _ => s.keyOpenFor t key
    | _ => false)

/-- ROW_REFRESH_CLOSE: the row is closed; W-path instructions in flight on it are delayed. -/
def execRowRefreshClose (space key : Nat) (s : State) : Out :=
  match s.row? space key with
  | some r =>
    if r.state ≠ .open_ then .fault .notEnabled else
    let busy := s.wBusy space key
    .next (s.setRow space key { r with state := .refresh, counted := busy, susp := if busy then r.susp + 1 else r.susp })
  | none => .fault .notEnabled
/-- ROW_REFRESH_REOPEN. -/
def execRowRefreshReopen (space key : Nat) (s : State) : Out :=
  match s.row? space key with
  | some r => if r.state = .refresh then .next (s.setRow space key { r with state := .open_, counted := false }) else .fault .notEnabled
  | none => .fault .notEnabled

/-- MEMORY_PATROL of a row: single-bit errors are corrected, each an entry of the event log (R60); units that cannot be are
poisoned (R62). A booked row
is patrolled during its refresh windows. -/
def execMemoryPatrol (channel bank row : Nat) (corrected uncorrectable : List Nat) (s : State) : Out :=
  let here (pa : Nat) : Bool :=
    let p := dramPlace pa
    p.1 == channel && p.2.1 == bank && p.2.2.1 == row
  if s.rows.any (fun kv => here (kv.2.granule * 2048) && kv.2.live && kv.2.state != .refresh) || !uncorrectable.all (fun u => here (64 * u)) then
    .fault .notEnabled
  else
    let s := forEach corrected s fun s u => s.logEvent 12 channel [u]
    .next (forEach uncorrectable s fun s u => s.setPoison u true)

/-! ## Shootdowns (R108, R242) -/

/-- Start a shootdown; `pend` is the result that TLBI awaits. -/
def State.shootStart (s : State) (x : Shoot) : State :=
  let id := s.uid
  { s with uid := id + 1, shoots := amapInsert s.shoots id x, later := s.later ++ [.ins (.shootdownComplete id)] }

/-- Carry out a shootdown in every wing and core. -/
def State.shootDo (s : State) (x : Shoot) : State :=
  let s := forEach (amapKeys s.cores) s fun s c =>
    forEach ((s.core c).l1.filter fun l => x.hits l.space (128 * l.vline) 128) s fun s l => s.l1Evict c l
  let keep (l : List TlbEntry) : List TlbEntry := l.filterMap fun e =>
    if x.hitsEntry e then (if e.pins.isEmpty then none else some { e with drop := true }) else some e
  { s with wings := amapMap (fun _ w => { w with
      vtlb := keep w.vtlb, mtlb := keep w.mtlb, ctlb := keep w.ctlb, itlb := keep w.itlb,
      walks := w.walks.filter fun e => x.scope ≠ 2 && e.space ≠ x.space }) s.wings }

/-- TLBI: a shootdown of a scope starts, its result on its way (R242). (DESIGN CHOICE, log 106.) -/
def tlbiIssue (o : Ops) (scope : Nat) (s : State) : Out :=
  onceIssue o { src := (if scope = 2 then [] else [(o.a, 1)]) ++ (if scope = 0 then [(o.b, 2), (o.c, 1)] else []),
                sd := if o.nw then [] else [(o.d.toNat, 1)] } true false (fun i l s =>
    let space := if scope = 2 then 0 else (src32 s i l o.a).toNat % 2 ^ 12
    let va := if scope = 0 then (src64 s i l o.b false).toNat % 2 ^ 57 / 4096 * 4096 else 0
    let pages := if scope = 0 then (src32 s i l o.c).toNat % 2 ^ 20 else 1
    if pages = 0 then i.faultAll s { cause := .illegalOperand } false
    else
      let id := s.uid
      let s := if o.nw then s else
        { s with uid := id + 1, pends := amapInsert s.pends id ⟨i.t, i.g, false, true, [(0, o.d.toNat, 1)], []⟩ }
      i.finish (s.shootStart ⟨scope, space, va, pages, if o.nw then none else some id, 0, false⟩) [] false none) s

def execTlbiPage (o : Ops) (_x : MemX) (s : State) : Out := tlbiIssue o 0 s
def execTlbiSpace (o : Ops) (_x : MemX) (s : State) : Out := tlbiIssue o 1 s
def execTlbiAll (o : Ops) (_x : MemX) (s : State) : Out := tlbiIssue o 2 s

end Sys2Proof.Machine
end

