-- ==== Sys2Proof/Machine/Launch.lean ====
section
/-! DEFINITION. Launches (08_execution, 16_scheduling): the record and its checks, enqueue, tickets and
dependences, lodging requests and leases, completion records, the end of teams and of grids, and LAUNCH. -/

namespace Sys2Proof.Machine

/-! ## The launch record (Table 08-3, R130, R133) -/

/-- Bits of the 64-bit word at a byte offset of a record. -/
def recField (x off hi lo : Nat) : Nat := bitField hi lo (x / 2 ^ (8 * off) % 2 ^ 64)
/-- Bytes of a record whose first 256 bytes are `x`. -/
def recBytes (x : Nat) : Nat := 256 + 16 * min (recField x 0 58 54) 16 + (if recField x 0 63 63 = 1 then 128 else 0)
/-- Range entry `i`. -/
def recRange (x i : Nat) : Nat := x / 2 ^ (8 * (0x100 + 16 * i)) % 2 ^ 128
/-- Format slot `i`. -/
def recSlot (x i : Nat) : Nat := x / 2 ^ (8 * (0x80 + 16 * i)) % 2 ^ 128

/-- Read a record. (DEDUCED, log 62.) -/
def parseRecord (x : Nat) : Record :=
  let n := min (recField x 0 58 54) 16
  { kind := recField x 0 63 63 == 1, ms := recField x 0 62 62 == 1, hdl := recField x 0 61 61 == 1
    rowDrop := recField x 0 60 60 == 1, cpf := recField x 0 59 59 == 1
    queue := recField x 0 53 46, deadline := recField x 0 45 0
    code := recField x 8 63 0
    entry := recField x 0x10 59 40, mspc := recField x 0x10 39 20, hdlpc := recField x 0x10 19 0
    gx := recField x 0x18 63 48, gy := recField x 0x18 47 32, gz := recField x 0x18 31 16
    cw := recField x 0x18 15 14, ch := recField x 0x18 13 11
    groups := recField x 0x18 10 6 + 1, regs := 8 * (recField x 0x18 5 1 + 1)
    tx := recField x 0x20 63 53, ty := recField x 0x20 52 42, tz := recField x 0x20 41 31
    rstack := recField x 0x20 30 23
    scratch := recField x 0x28 63 44, priv := recField x 0x28 43 28, cost := recField x 0x28 27 0
    roles := BitVec.ofNat 32 (recField x 0x30 63 32), fpm := BitVec.ofNat 32 (recField x 0x30 31 0)
    dep0 := recField x 0x38 63 48, dep1 := recField x 0x38 47 32, nirop := BitVec.ofNat 32 (recField x 0x38 31 0)
    args := toWords 16 (x / 2 ^ (8 * 0x40))
    slots := (List.range 8).map fun i => BitVec.ofNat 128 (recSlot x i)
    ranges := (List.range n).map fun i =>
      let r := recRange x i
      { base := bitField 127 64 r, len := bitField 63 2 r, access := r % 4 }
    raster := if recField x 0 63 63 = 1 then BitVec.ofNat 1024 (x / 2 ^ (8 * (0x100 + 16 * recField x 0 58 54))) else 0 }

/-- A format slot fails R133. -/
def slotBad (x : Nat) : Bool :=
  let lay := bitField 20 18 x
  bitField 13 0 x ≠ 0 || decide (7 < bitField 17 14 x) || decide (2 < lay) || (lay ≠ 0 && bitField 40 21 x == 0)

/-- A range entry fails R131: length 0 or above 2^57, access 11, a base that is not a GLOBAL pointer. (DEDUCED, log 45.) -/
def rangeEntryBad (r : Range) : Bool := r.len == 0 || decide (2 ^ 57 < r.len) || r.access == 3 || decide (2 ^ 57 ≤ r.base)

/-- The compatibility word fails R387. (DEDUCED, log 89.) -/
def niropBad (x : Word) : Bool :=
  if !x.getLsbD 31 then x != 0 else
  x &&& 0x00C1F030 != 0 || bitField 30 29 x.toNat == 3 || bitField 26 25 x.toNat == 3 || decide (4 < bitField 8 6 x.toNat)

/-! ### The raster state block (Table 17-1) -/

/-- Bits of the 64-bit word at a byte offset of the block. -/
def rsField (x : BitVec 1024) (off hi lo : Nat) : Nat := recField x.toNat off hi lo
def rsMaxV (x : BitVec 1024) : Nat := rsField x 0x20 38 31 + 1
def rsMaxP (x : BitVec 1024) : Nat := rsField x 0x20 30 22 + 1
def rsAttrs (x : BitVec 1024) : Nat := rsField x 0x20 21 16
def rsNcol (x : BitVec 1024) : Nat := rsField x 0x20 15 12
def rsSamp4 (x : BitVec 1024) : Bool := rsField x 0x18 42 42 == 1
def rsDen (x : BitVec 1024) : Bool := rsField x 0x18 51 51 == 1
def rsDste (x : BitVec 1024) : Nat := rsField x 0x18 63 52
def rsSen (x : BitVec 1024) : Bool := rsField x 0x18 40 40 == 1
def rsCste (x : BitVec 1024) (t : Nat) : Nat := rsField x (0x28 + 8 * (t / 4)) (16 * (t % 4) + 11) (16 * (t % 4))
def rsTarget (x : BitVec 1024) (t hi lo : Nat) : Nat := rsField x (0x38 + 8 * t) hi lo
/-- Bytes of a mesh team's output buffer (R310, R311). -/
def meshBytes (x : BitVec 1024) : Nat := rsMaxV x * (4 + rsAttrs x) * 4 + rsMaxP x * 4
/-- A binary32 word is a NaN or an infinity. -/
def nonFinite (w : Nat) : Bool := bitField 30 23 w == 255

/-- The checks of R310 that need no STE. (DEDUCED, log 62.) -/
def rasterBad (x : BitVec 1024) (scratch : Nat) : Bool :=
  let vp (lo : Nat) : Bool := rsField x 0 (lo + 15) lo == 0 || decide (16384 < rsField x 0 (lo + 15) lo)
  vp 16 || vp 0 ||
  nonFinite (rsField x 8 63 32) || nonFinite (rsField x 8 31 0) ||
  rsField x 0x18 45 44 == 3 || rsField x 0x18 3 0 ≠ 0 ||
  rsField x 0x20 11 0 ≠ 0 || decide (8 < rsNcol x) || decide (32 < rsAttrs x) || rsField x 0x20 63 44 % 4 ≠ 0 ||
  decide (524288 - scratch < meshBytes x) ||
  (List.range 8).any (fun t =>
    rsField x (0x28 + 8 * (t / 4)) (16 * (t % 4) + 15) (16 * (t % 4) + 12) ≠ 0 || rsTarget x t 36 0 ≠ 0 ||
    [58, 54, 47, 43].any (fun h => decide (9 < rsTarget x t h (h - 3))) ||
    decide (4 < rsTarget x t 50 48) || decide (4 < rsTarget x t 39 37)) ||
  (rsSen x && !rsDen x)

/-- The checks of R310 on the STEs, made when the draw's first cluster is placed. -/
def State.rasterStesBad (s : State) (space : Nat) (x : BitVec 1024) : Bool :=
  let n := if rsSamp4 x then 4 else 1
  let named (ix : Nat) (ok : Ste → Bool) : Bool :=
    let e := s.ste ix
    !s.inSteWindow space ix || e.state != .active || e.samples ≠ n || !ok e
  (rsDen x && named (rsDste x) (fun e => (e.fmt == 0xA) || (e.fmt == 0x9 && !rsSen x))) ||
  (List.range (rsNcol x)).any fun t => named (rsCste x t) fun e =>
    !(e.fmt == 0x9 || e.fmt == 0xA) && !(rsTarget x t 59 59 == 1 && e.fmt == 0x8)

/-- A record fails R131 on submission to a queue. (DEDUCED, log 62.) -/
def recordBad (x qid : Nat) : Bool :=
  let r := parseRecord x
  recField x 0x10 63 60 ≠ 0 || recField x 0x18 0 0 ≠ 0 || recField x 0x20 22 0 ≠ 0 || niropBad r.nirop ||
  (!r.nirop.getLsbD 31 && !fpmLegal r.fpm) ||
  [r.gx, r.gy, r.gz, r.cw, r.ch, r.tx, r.ty, r.tz].any (· == 0) || decide (4 < r.ch) ||
  r.tx * r.ty * r.tz ≠ 32 * r.groups || decide (524288 < r.scratch) || r.priv % 4 ≠ 0 ||
  decide (2 ^ 57 ≤ r.code) || r.code % 32 ≠ 0 || r.entry % 4 ≠ 0 || r.mspc % 16 ≠ 0 || r.hdlpc % 4 ≠ 0 ||
  decide (2 ^ r.groups ≤ r.roles.toNat) || r.queue ≠ qid ||
  decide (16 < recField x 0 58 54) || r.ranges.any rangeEntryBad ||
  (List.range 8).any (fun i => slotBad (recSlot x i)) ||
  (r.kind && rasterBad r.raster r.scratch)

/-! ## Completion records (R300, Table 16-5) -/

def Status.code : Status → Nat
  | .ok => 0 | .badLaunch => 1 | .noSpace => 2 | .lodgingRefused => 3 | .outOfLodging => 4 | .breach => 5
  | .ended => 6 | .cancelled => 7 | .depFailed => 8 | .badQueue => 9

/-- Write a completion record at a host address, 0 for none, and raise its interrupt. (DEDUCED, log 95.) -/
def State.completionRecord (s : State) (caddr ticket status : Nat) (missed irq : Bool) : State :=
  if caddr = 0 then s else
  let x := ticket % 2 ^ 16 + 2 ^ 16 * status + (if missed then 2 ^ 24 else 0) + 2 ^ 64 * (s.devtime % 2 ^ 64)
  let s := { s with hostMem := memWrite s.hostMem caddr 16 x }
  if irq then s.msiRaise 0 else s

/-! ## Leases and lodging requests (R101 to R103) -/

/-- A range of a lease holds a range of a launch: its lines, and its access or `rw` for `ro`. -/
def Range.holds (a b : Range) : Bool :=
  decide (a.base / 128 ≤ b.base / 128) && decide ((b.base + b.len - 1) / 128 ≤ (a.base + a.len - 1) / 128) &&
  (a.access == b.access || (a.access == 1 && b.access == 0))
/-- The first of the numbers from `n`, modulo 2^16 and from `lo` on, that is not used. (DESIGN CHOICE, log 27.) -/
def freeId (used : List Nat) (lo : Nat) : Nat → Nat → Nat
  | 0, n => n
  | fuel + 1, n => if used.contains n then freeId used lo fuel (if n = 2 ^ 16 - 1 then lo else n + 1) else n

/-- Queue a request or notice at a die's dispatcher. -/
def State.lodgeQueue (s : State) (die : Nat) (r : LodgeReq) : State :=
  let s := s.updDie die fun d => { d with reqs := d.reqs ++ [r] }
  { s with later := s.later ++ [.ins (.lodgingRequestPost die)] }

/-- A live lease of the launch's space that covers its ranges. (DEDUCED, log 64.) -/
def State.leaseFor (s : State) (space : Nat) (rs : List Range) : Option Nat :=
  (s.leases.find? fun kv => kv.2.space = space && kv.2.granted && !kv.2.dying && rs.all fun r => kv.2.ranges.any (·.holds r)).map (·.1)

/-- Whether a launch that is not complete holds a lease. -/
def State.leaseUsed (s : State) (id : Nat) : Bool := s.launches.any fun kv => kv.2.lease = some id && !kv.2.complete

/-- End a lease that no launch holds (R103): its range entries are freed and a RELEASE notice is due; one not
yet requested is forgotten. (DEDUCED, log 118.) -/
def State.leaseEnd (s : State) (id : Nat) : State :=
  match amapFind? s.leases id with
  | none => s
  | some l =>
    if s.leaseUsed id || l.dying then s
    else if l.granted then
      let s := { s with
        leases := amapInsert s.leases id { l with dying := true }
        wings := amapMap (fun _ w => { w with ranges := w.ranges.filter (·.lease ≠ id) }) s.wings }
      s.lodgeQueue l.die { release := true, space := l.space, lease := id, nrange := 0, addr := 0 }
    else if (s.die l.die).posted.any (fun r => r.lease = id) then s
    else { s.updDie l.die (fun d => { d with reqs := d.reqs.filter (·.lease ≠ id) }) with leases := amapErase s.leases id }

/-- LODGING_REQUEST_POST: post the oldest waiting request or notice and interrupt the host (R102). -/
def execLodgingRequestPost (die : Nat) (s : State) : Out :=
  let d := s.die die
  match d.posted, d.reqs with
  | none, r :: rest => .next ((s.updDie die fun d => { d with posted := some r, reqs := rest }).msiRaise (1 + die))
  | _, _ => .fault .notEnabled

/-- A launch is over before it ran: it leaves its queue and is due to complete. -/
def State.failLaunch (s : State) (la : Nat) (st : Status) : State :=
  let l := s.launch la
  if l.status.isSome || l.complete then s else
  (s.updLaunch la fun x => { x with status := some st }).queueDrop la

/-- LGRANT_GRANTED: the lease is live (R101, R103). (DEDUCED, log 118.) -/
def execLgrantGranted (die lease : Nat) (s : State) : Out :=
  if !s.boot.ready then .next s else
  match (s.die die).posted with
  | none => .fault .notEnabled
  | some r =>
    if r.release || r.lease ≠ lease then .fault .notEnabled else
    let s := s.updDie die fun d => { d with posted := none }
    let s := { s with leases := match amapFind? s.leases lease with
      | some l => amapInsert s.leases lease { l with granted := true }
      | none => s.leases }
    .next (s.leaseEnd lease)
/-- LGRANT_REFUSED: the request's launch ends with LODGING_REFUSED. -/
def execLgrantRefused (die lease : Nat) (s : State) : Out :=
  if !s.boot.ready then .next s else
  match (s.die die).posted with
  | none => .fault .notEnabled
  | some r =>
    if r.release || r.lease ≠ lease then .fault .notEnabled else
    let s := s.updDie die fun d => { d with posted := none }
    let s := { s with leases := amapErase s.leases lease }
    .next (forEach (s.launches.filter fun kv => kv.2.lease = some lease && !kv.2.complete) s fun s kv =>
      (s.failLaunch kv.1 .lodgingRefused).updLaunch kv.1 fun x => { x with lease := none })
/-- LGRANT_RELEASE_ACK: the lease id is free again. -/
def execLgrantReleaseAck (die lease : Nat) (s : State) : Out :=
  if !s.boot.ready then .next s else
  match (s.die die).posted with
  | none => .fault .notEnabled
  | some r =>
    if !r.release || r.lease ≠ lease then .fault .notEnabled else
    .next { s.updDie die (fun d => { d with posted := none }) with leases := amapErase s.leases lease }

/-! ## Enqueue (R296, R297, R129) -/

/-- Launches not yet complete: (identifier, launch). -/
def State.liveLaunches (s : State) : List (Nat × Launch) := s.launches.filter fun kv => !kv.2.complete
/-- The live launch of a ticket. -/
def State.byTicket (s : State) (t : Nat) : Option Nat := (s.liveLaunches.find? fun kv => kv.2.ticket = t).map (·.1)

/-- D plus 2^46 for a DEADLINE field at the moment of enqueue (R129). -/
def deadlineAt (now field : Nat) : Nat :=
  let r := (field + 2 ^ 46 - now % 2 ^ 46) % 2 ^ 46
  if r ≤ 2 ^ 45 then now + r + 2 ^ 46 else now + r

/-- Enqueue a copied record on a queue that has room: its ticket, and the state. `addr` is the record's physical
address, `program` that LAUNCH enqueues it. (DEDUCED, log 64; DEDUCED, log 67.) -/
def State.enqueue (s : State) (qid x addr caddr : Nat) (irq program : Bool) : Nat × State :=
  let r := parseRecord x
  let q := s.queue qid
  let live := s.liveLaunches
  let ticket := freeId (live.map (·.2.ticket)) 1 (live.length + 1) s.nextTicket
  let named (t : Nat) : List Nat := if t = 0 then [] else (s.byTicket t).toList
  let space := q.space
  let st : Option Status :=
    if !(s.queue r.queue).en then some .badQueue
    else if !(s.space space).root.getLsbD 63 || bitField 15 0 (s.space space).wing.toNat = 0 then some .noSpace
    else if recordBad x qid || (r.nirop.getLsbD 31 && !(s.space space).xc.getLsbD 63) then some .badLaunch
    else none
  let id := s.uid
  let la : Launch :=
    { lr := r, space := space, queue := qid, cls := q.cls, ticket := ticket, recAddr := addr, caddr := caddr, irq := irq, program := program
      due := if q.cls = 0 then deadlineAt s.devtime r.deadline else 0
      deps := named r.dep0 ++ named r.dep1
      window := 2 ^ 56 + id % 2 ^ 20 * 2 ^ 36
      status := st }
  let s := { s with
    uid := id + 1
    nextTicket := if ticket = 65535 then 1 else ticket + 1
    launches := amapInsert s.launches id la
    later := s.later ++ [Due.gridComplete id] }
  let s := s.completionRecord caddr ticket 0xFF false irq
  if st.isSome then (ticket, s) else
  let s := (s.updQueue qid fun q =>
    { q with items := q.items ++ [id], draws := if r.kind then q.draws + 1 else q.draws }).markNext qid
  let s := if r.kind then { s with draws := amapInsert s.draws id { launch := id, queue := qid, number := q.draws } } else s
  match s.leaseFor space r.ranges with
  | some l => (ticket, s.updLaunch id fun x => { x with lease := some l })
  | none =>
    let l := freeId (amapKeys s.leases) 0 (s.leases.length + 1) (Config.freeChoice s.free % 2 ^ 16)
    let s := { s with
      free := s.free + 1
      leases := amapInsert s.leases l { space := space, die := q.die, ranges := r.ranges } }
    let s := s.updLaunch id fun x => { x with lease := some l }
    (ticket, s.lodgeQueue q.die { release := false, space := space, lease := l, nrange := r.ranges.length, addr := addr })

/-! ## The end of teams, clusters and grids (R183, R298, R302) -/

/-- A team is over: its groups have exited, its stream has ended, its copies and accesses are done, its deferred
arrivals performed; a mesh team's primitives have been emitted (R312). -/
def State.teamOver (s : State) (t : Nat) : Bool :=
  let tm := s.team t
  tm.kind != .porter && !tm.preempt &&
  tm.groups.all (fun g => g.2.liveLanes.isEmpty) &&
  (match tm.stream with
    | some st => st.done
    | none => true) &&
  !s.copies.any (fun kv => kv.2.team == t) && tm.deferred.isEmpty &&
  !s.accs.any (fun kv => match kv.2.who with
    | .thread t' _ _ | .stream t' _ => t' == t
    | .copy _ _ | .unit _ => false) &&
  (tm.kind != .mesh || s.stopping t || (match amapFind? s.draws tm.launch with
    | some d => d.ended || decide (tm.number < d.team)
    | none => true))

/-- Remove a team: its holds and barrier objects go; a cluster without teams goes with it. -/
def State.teamRemove (s : State) (t : Nat) : State :=
  let tm := s.team t
  let s := (s.rowFreeTeam t).barFreeTeam t
  let s := { s with teams := amapErase s.teams t }
  let s := if tm.kind = .fragment then s else s.updLaunch tm.launch fun la => { la with slots := la.slots.filter (· ≠ tm.slot) }
  if (s.cluster tm.cluster).teams.any fun x => (amapFind? s.teams x).isSome || s.saved.any fun kv => (amapFind? kv.2.teams x).isSome
  then
    if tm.kind = .fragment || (s.launch tm.launch).lr.scratch = 0 then s
    else
      let kept : Team := { scratch := tm.scratch, scrPoison := tm.scrPoison, presence := tm.presence }
      s.updCluster tm.cluster fun c => { c with ended := amapInsert c.ended t kept }
  else
  { s.updLaunch tm.launch (fun la => { la with live := la.live.filter (· ≠ tm.cluster) }) with
    clusters := amapErase s.clusters tm.cluster }

/-- A fragment team that ends hands its exports to its quads (R324); a quad with no bound target is done. -/
def State.fragExport (s : State) (t : Nat) : State :=
  match (s.team t).frag with
  | none => s
  | some f => { s with flights := (numbered 0 f.flights).foldl (fun m x => match amapFind? m x.2 with
      | none => m
      | some fl => if fl.banks.isEmpty then amapErase m x.2
          else amapInsert m x.2 { fl with exports := some (s.quadExports t x.1) }) s.flights }

/-- TEAM_END. -/
def execTeamEnd (tid : Nat) (s : State) : Out :=
  match amapFind? s.teams tid with
  | none => .fault .notEnabled
  | some _ => if s.teamOver tid then .next ((s.fragExport tid).teamRemove tid) else .fault .notEnabled

/-- Every quad of a draw has retired, or the launch is no draw. -/
def State.drawQuiet (s : State) (la : Nat) : Bool :=
  match amapFind? s.draws la with
  | none => true
  | some _ =>
    s.wings.all (fun kv => kv.2.queue.all (·.1 ≠ la) && kv.2.quads.all (·.1 ≠ la)) &&
    s.flights.all (fun kv => kv.2.launch ≠ la) &&
    !s.teams.any (fun kv => kv.2.launch == la && kv.2.kind == .fragment) &&
    !s.saved.any (fun kv => kv.2.cluster.launch == la)

/-- Every cluster has been placed and has ended. -/
def State.gridOver (s : State) (la : Nat) : Bool :=
  let l := s.launch la
  l.live.isEmpty && s.drawQuiet la &&
  (l.status.isSome || (decide (l.lr.gx * l.lr.gy * l.lr.gz ≤ l.next) && l.saved.isEmpty))

/-- The wing through which a launch's report is translated: one that holds its lease, and a core of it. -/
def State.reportWing (s : State) (l : Launch) : Nat × Nat :=
  let wing := ((List.range 16).find? fun w => (s.wing w).ranges.any fun r => some r.lease = l.lease).getD 0
  (wing, (l.cores.find? fun c => coreWing c = wing).getD 0)
/-- The draw report of a launch as a value of 16 bytes (R323). -/
def Draw.report (d : Draw) : Nat :=
  min d.overflow (2 ^ 32 - 1) + 2 ^ 32 * min d.culled (2 ^ 32 - 1) + 2 ^ 64 * d.sticky.toNat

/-- Write the draw report (R323), through the translation of the space; one that would fail is logged instead. Whether it is
done, or must be waited for. A wing whose table does not hold the launch's lease, once that is granted, checks it against the lease
itself. (DEDUCED, log 68; DEDUCED, log 117.) -/
def State.drawReport (s : State) (la : Nat) : Bool × State :=
  match amapFind? s.draws la with
  | none => (true, s)
  | some d =>
    let l := s.launch la
    let p := rsField l.lr.raster 0x78 63 0
    if p = 0 || d.reported then (true, s) else
    let fin (s : State) : State := { s with draws := amapInsert s.draws la { d with reported := true } }
    let w := s.reportWing l
    let bad (s : State) : State := (fin s).logEvent 3 w.2 [l.space, p]
    if ptrTag p ≠ 0 || !ptrZero p || p % 16 ≠ 0 then (true, bad s) else
    let a := unitAcc (.report la) w.2 l.space p 16 .store d.report false
    match s.engFind a.who p true with
    | some b => if b.value.isNone then (false, s) else (true, fin (s.engDrop (· == a.who)))
    | none =>
      let rs := (s.wing w.1).ranges
      let granted := l.lease.any fun x => match amapFind? s.leases x with
        | some y => y.granted
        | none => false
      let s := if !granted || rs.any (fun r => some r.lease = l.lease) then s
        else (s.updWing w.1 fun w => { w with ranges := [] }).wingLease w.1 l.lease
      let r := s.translate w.1 la .vtlb p .write .plain none
      match r.1, r.2.updWing w.1 fun w => { w with ranges := rs } with
      | .wait, s => (false, s)
      | .ok ph, s =>
        (match s.unitAt { a with pa := ph.pa, cls := ph.cls, key := ph.key, h := ph.h } fun s =>
            (0, false, (s.devPut ph.pa 16 ph.key ph.cls d.report false).eInv w.2 ph.pa 16 ph.cls) with
        | (.wait, s) => (false, s)
        | (_, s) => (true, fin (s.engDrop (· == a.who))))
      | _, s => (true, bad s)

/-- The dependences that name a completed grid are decided (R297). (DEDUCED, log 96.) -/
def State.decideDeps (s : State) (la : Nat) (ok : Bool) : State :=
  forEach (s.launches.filter fun kv => kv.2.deps.contains la) s fun s kv =>
    let s := s.updLaunch kv.1 fun x => { x with deps := x.deps.filter (· ≠ la) }
    if ok then s else s.failLaunch kv.1 .depFailed

/-- Row holds of teams that are neither resident nor saved end (R68). -/
def State.rowSweep (s : State) : State :=
  let gone (t : Nat) : Bool := (amapFind? s.teams t).isNone && !s.saved.any fun kv => (amapFind? kv.2.teams t).isSome
  forEach s.rows s fun s kv => forEach ((kv.2.holders ++ kv.2.dropped).filter gone) s fun s t =>
    s.rowEnd (kv.1 / 256) (kv.1 % 256) t

/-- The records of a grid that has ended leave the books (R345). -/
def State.dropRecords (s : State) (la : Nat) : State :=
  let cores := amapMap (fun _ k => { k with
    book := k.book.filter fun e => e.launch ≠ la
    held := k.held.filter fun h => match h with
      | .engine e => e.launch ≠ la
      | .thread _ _ _ => true }) s.cores
  forEach (amapKeys cores) { s with cores := cores } fun s c => s.serveHeld 65 c

/-- GRID_COMPLETE: the publish of every core of the grid, the draw report, then dependences, record and lease.
(DEDUCED, log 69.) -/
def execGridComplete (la : Nat) (s : State) : Out :=
  match amapFind? s.launches la with
  | none => .fault .notEnabled
  | some l =>
    if l.complete || !s.gridOver la then .fault .notEnabled else
    let s := forEach l.cores s fun s c => s.publishNow c
    match s.rowSweep.drawReport la with
    | (false, s) => .next { s with later := s.later ++ [Due.gridComplete la] }
    | (true, s) =>
    let st := l.status.getD .ok
    let missed := l.due ≠ 0 && decide (l.due < s.devtime + 2 ^ 46)
    let s := s.updLaunch la fun x => { x with complete := true }
    let s := s.decideDeps la (st == .ok)
    let s := s.completionRecord l.caddr l.ticket st.code missed l.irq
    let s := match l.lease with
      | some id => s.leaseEnd id
      | none => s
    .next { s.dropRecords la with draws := amapErase s.draws la }

/-! ## LAUNCH (R191) -/

/-- One 64 B part of a record as a thread of a core reads it: its L1's bytes over the value at the home.
(DEDUCED, log 65; DEDUCED, log 117.) -/
def State.recPart (s : State) (t g l p : Nat) : URes × State :=
  match s.unitRead (.record t g l) t p 64 64 .vtlb .read with
  | (.ok x a, s) =>
    (.ok (match (s.core (s.team t).core).l1Find (s.spaceOf t) (p / 128) with
      | none => x
      | some y => lineRead (lineMerge (lineWrite 0 (p % 128) 64 x) y.data y.bv) (p % 128) 64) a, s)
  | r => r

/-- The parts of a record from `p` on. -/
def State.recParts (s : State) (t g l : Nat) : List Nat → URes × State
  | [] => (.ok 0 0, s)
  | p :: ps =>
    match s.recPart t g l p with
    | (.ok x a, s) =>
      match s.recParts t g l ps with
      | (.ok y _, s) => (.ok (x + 2 ^ 512 * y) a, s)
      | r => r
    | r => r

/-- The record at a pointer of a lane (steps 1 and 2). (DEDUCED, log 65.) -/
def State.recRead (s : State) (t g l p : Nat) : URes × State :=
  match s.ptrCheck t g p 8 [0] none false with
  | some tr => (.trap tr, s)
  | none =>
    if p % 64 ≠ 0 then (.trap { cause := .misaligned, addr := p }, s) else
    match s.recParts t g l ((List.range 4).map fun k => p + 64 * k) with
    | (.ok x a, s) =>
      match s.recParts t g l ((List.range (ceilDiv (recBytes x - 256) 64)).map fun k => p + 256 + 64 * k) with
      | (.ok y _, s) => (.ok (x + 2 ^ 2048 * y) a, s)
      | r => r
    | r => r

/-- The records of the participants: what each lane has read. -/
def State.recReads (s : State) (i : Iss) : List Nat → List (Nat × URes) × State
  | [] => ([], s)
  | l :: ls =>
    let r := s.recRead i.t i.g l (src64 s i l i.o.b false).toNat
    let x := r.2.recReads i ls
    ((l, r.1) :: x.1, x.2)

/-- LAUNCH of one lane whose record has been read: the ticket, or its trap. -/
def State.launchLane (s : State) (i : Iss) (l : Nat) (r : URes) (acc : List (Nat × Nat)) : List (Nat × Nat) × State :=
  let qid := (src32 s i l i.o.a).toNat
  match r with
  | .trap tr => (acc, s.takeTrap i.t i.g l tr)
  | .breach va lvl => (acc, s.breach (s.team i.t).launch va lvl)
  | .wait => (acc, s)
  | .ok x a =>
    let q := s.queue qid
    if 256 ≤ qid || q.space ≠ s.spaceOf i.t || 64 ≤ q.items.length then (acc ++ [(l, 0)], s)
    else
      let r := s.enqueue qid x a 0 false true
      (acc ++ [(l, r.1)], r.2)

/-- The reads of LAUNCH of the participants are over. -/
def State.recDone (s : State) (i : Iss) : State :=
  s.engDrop fun w => match w with
    | .unit (.record t g l) => t == i.t && g == i.g && i.parts.contains l
    | _ => false

/-- LAUNCH: the participants' records are read, and then their launches enqueue in lane order (R191).
(DESIGN CHOICE, log 106.) -/
def execLaunch (o : Ops) (s : State) : Out :=
  issue o { src := [(o.a, 1), (o.b, 2)], vd := if o.nw then [] else [(o.d.toNat, 1)] } false (fun i s =>
    let x := s.recReads i i.parts
    if x.1.any (·.2 == .wait) then { x.2 with turn := .later }
    else
      let r := x.1.foldl (fun (acc : List (Nat × Nat) × State) y => acc.2.launchLane i y.1 y.2 acc.1) ([], x.2.recDone i)
      let s := if o.nw || r.1.isEmpty then r.2 else
        r.2.addPend ⟨i.t, i.g, false, false, r.1.map fun x => (x.1, o.d.toNat, BitVec.ofNat 32 x.2), []⟩
      i.finish s [] false none) s

/-! ## Shootdowns complete (R108, R109, R300) -/

/-- An access of a translated address that a shootdown covers is in flight. -/
def State.shootBusy (s : State) (x : Shoot) : Bool :=
  s.accs.any fun kv => let a := kv.2
    decide (a.va < 2 ^ 60) && !a.snoops.contains walkWait && a.value.isNone && x.hits a.space a.va a.n

/-- SHOOTDOWN_COMPLETE: once the accesses that were translated have completed, the oldest shootdown is carried out in every
wing, and reported. -/
def execShootdownComplete (id : Nat) (s : State) : Out :=
  match s.shoots with
  | [] => .fault .notEnabled
  | (k, x) :: rest =>
    if k ≠ id || s.shootBusy x then .fault .notEnabled else
    let s := { s.shootDo x with shoots := rest }
    let s := match x.pend with
      | some p => { s with later := s.later ++ [Due.ins (.loadResultLand p)] }
      | none => s
    .next (s.completionRecord x.caddr 0 0 false x.irq)

end Sys2Proof.Machine
end

