-- ==== Sys2Proof/Machine/Sched.lean ====
section
/-! DEFINITION. Placing clusters and pre-empting them (16_scheduling, R303 to R308; 20_faults, R359 to R363; R72),
and binding groups to contexts (R139, R144). -/

namespace Sys2Proof.Machine

/-! ## What a core has free (R305) -/

/-- What one team asks of a core. -/
structure TeamNeed where
  groups  : Nat
  regs    : Nat
  scratch : Nat := 0
  ms      : Bool := false
  holds   : Nat := 0
  handles : List Nat := []
  deriving DecidableEq, Repr

/-- Scratchpad of a team of a launch, with a mesh team's buffer, in 1 KiB units (R25, R311). (DEDUCED, log 63.) -/
def Record.units (r : Record) : Nat := ceilDiv (r.scratch + (if r.kind then meshBytes r.raster else 0)) 1024
/-- What a new team of a launch asks. -/
def Record.need (r : Record) : TeamNeed := { groups := r.groups, regs := r.regs, scratch := r.units, ms := r.ms }

/-- Teams of a core that take its resources, less those of `gone`. -/
def State.coreTeams (s : State) (c : Nat) (gone : List Nat) : List (Nat × Team) :=
  s.teams.filter fun kv => kv.2.core = c && kv.2.kind != .porter && !gone.contains kv.1

/-- How many more groups of `regs` registers each quarter can take: 16 groups and 256 KiB of registers. -/
def State.quarterRoom (s : State) (ts : List (Nat × Team)) (regs q : Nat) : Nat :=
  let used := ts.foldl (fun n kv => n + (kv.2.groups.filter fun g => g.2.quarter = q).length) 0
  let bytes := ts.foldl (fun n kv => n + 128 * s.regCount kv.1 * (kv.2.groups.filter fun g => g.2.quarter = q).length) 0
  min (16 - used) ((262144 - bytes) / (128 * regs))

/-- Scratchpad units of a resident team. -/
def State.teamUnits (s : State) (kv : Nat × Team) : Nat :=
  match kv.2.kind with
  | .fragment | .porter => 0
  | _ => (s.launch kv.2.launch).lr.units

/-- Quarters in which a team's groups go, each as often as it has room, in turn; their choice shows only in timing (R126).
(DESIGN CHOICE, log 26.) -/
def State.quarterList (s : State) (ts : List (Nat × Team)) (regs : Nat) : List Nat :=
  let room := (List.range 4).map fun q => s.quarterRoom ts regs q
  (List.range 16).flatMap fun k => (List.range 4).filter fun q => decide (k < room.getD q 0)

/-- A core can take a team, once the teams of `gone` have left it; a team placed from a save has its holds and objects
already. (DESIGN CHOICE, log 101.) -/
def State.coreFits (s : State) (c : Nat) (gone : List Nat) (n : TeamNeed) : Bool :=
  let ts := s.coreTeams c gone
  let held := s.rows.foldl (fun k kv => k + (kv.2.holders.filter fun t =>
    !gone.contains t && (s.team t).core = c && (amapFind? s.teams t).isSome).length) 0
  (s.wing (coreWing c)).up &&
  decide (n.groups ≤ (s.quarterList ts n.regs).length) &&
  decide (32 * (n.groups + ts.foldl (fun k kv => k + kv.2.groups.length) 0) ≤ 2048) &&
  decide (n.scratch + ts.foldl (fun k kv => k + s.teamUnits kv) 0 ≤ 512) &&
  (!n.ms || decide ((ts.filter fun kv => kv.2.stream.isSome).length < 4)) &&
  decide (held + n.holds ≤ 8) &&
  n.handles.all fun ix => match (amapGet ({} : BarObj) (s.core c).barTab ix).team with
    | none => true
    | some t => gone.contains t

/-! ## Rectangles (R126, R305) -/

/-- The core at a column and row of a wing's rectangle, by global index (R3). -/
def wingCore (w col row : Nat) : Nat := 96 * (w / 8) + 12 * (4 * (w % 8 / 4) + row) + 3 * (w % 4) + col
/-- Corners of a w × h rectangle in a wing, ascending row, then column. -/
def corners (cw ch : Nat) : List (Nat × Nat) :=
  (List.range (5 - ch)).flatMap fun r => (List.range (4 - cw)).map fun c => (c, r)
/-- The cores of a rectangle in rank order. -/
def rectCores (w cw ch : Nat) (corner : Nat × Nat) : List Nat :=
  (List.range (cw * ch)).map fun k => wingCore w (corner.1 + k % cw) (corner.2 + k / cw)

/-- The wing's range table holds a lease or has room for it (R104). -/
def State.wingHolds (s : State) (w : Nat) (lease : Option Nat) : Bool :=
  match lease with
  | none => true
  | some l =>
    let rs := (s.wing w).ranges
    let n := match amapFind? s.leases l with
      | some x => x.ranges.length
      | none => 0
    rs.any (·.lease == l) || decide (rs.length + n ≤ 64)

/-- What comes next of a queue: a launch's next cluster, or one of its saved clusters. -/
structure Cand where
  la    : Nat
  saved : Option Nat
  deriving DecidableEq, Repr

/-- What the teams of a candidate ask, in rank order, and the shape of its rectangle. -/
def State.candNeeds (s : State) (c : Cand) : List TeamNeed × Nat × Nat :=
  let r := (s.launch c.la).lr
  match c.saved with
  | none => (List.replicate (r.cw * r.ch) r.need, r.cw, r.ch)
  | some k =>
    match amapFind? s.saved k with
    | none => ([], 1, 1)
    | some v =>
      let frag := v.teams.any fun kv => kv.2.kind == .fragment
      (v.cluster.teams.map fun t =>
        match amapFind? v.teams t with
        | none => { groups := 0, regs := 8 }
        | some tm =>
          { groups := tm.groups.length
            regs := if frag then 8 * (rsField r.raster 0x20 43 39 + 1) else r.regs
            scratch := if frag then 0 else r.units
            ms := tm.stream.isSome
            holds := (s.rows.filter fun kv => kv.2.savedBy.contains t).length
            handles := (v.objs.filter fun o => o.1 = t).map (·.2.1) },
       if frag then (1, 1) else (r.cw, r.ch))

/-- A fragment group comes back to its wing (R316, R324). -/
def State.candWing (s : State) (c : Cand) : Option Nat :=
  match c.saved with
  | none => none
  | some k => match amapFind? s.saved k with
    | none => none
    | some v => if v.teams.any fun kv => kv.2.kind == .fragment then some v.cluster.wing else none

/-- A launch that still places clusters. -/
def State.placing (s : State) (la : Nat) : Bool := (s.launch la).status.isNone && !(s.launch la).complete

/-- Wings in scan order from a die's rotating pointer (R305): allowed by the space and, where `res`, not reserved against the
candidate (R307). -/
def State.scanWings (s : State) (die : Nat) (c : Cand) (res : Bool) : List Nat :=
  let la := s.launch c.la
  let mask := bitField 15 0 (s.space la.space).wing.toNat
  let taken := [0, 1].filterMap fun d => match (s.die d).reserve with
    | some x => if (x.la = c.la && x.saved = c.saved) || la.cls = 0 || !s.placing x.la then none
                else some (bitField 15 0 (s.space (s.launch x.la).space).wing.toNat)
    | none => none
  ((List.range 16).map fun k => ((s.die die).pointer + k) % 16).filter fun w =>
    mask / 2 ^ w % 2 == 1 && (!res || taken.all (fun m => m / 2 ^ w % 2 == 0)) &&
    (match s.candWing c with
      | some x => x == w
      | none => true)

/-- A core has been cleared for another launch that still waits for it (R306); a FRAME launch that is due earlier takes it
all the same (R304). -/
def State.clearedFor (s : State) (c : Cand) (core : Nat) : Bool :=
  [0, 1].any fun d => (s.die d).cleared.any fun h =>
    h.1 ≠ c.la && h.2.contains core && s.placing h.1 &&
    !((s.launch c.la).cls == 0 && ((s.launch h.1).cls ≠ 0 || decide ((s.launch c.la).due < (s.launch h.1).due)))

/-- A rectangle is free for a candidate once `gone` have left. -/
def State.rectFits (s : State) (c : Cand) (gone : List Nat) (w : Nat) (corner : Nat × Nat) : Bool :=
  let x := s.candNeeds c
  s.wingHolds w (s.launch c.la).lease &&
  ((rectCores w x.2.1 x.2.2 corner).zip x.1).all fun p => !s.clearedFor c p.1 && s.coreFits p.1 gone p.2

/-- Every rectangle in scan order: (wing, corner). -/
def State.rects (s : State) (die : Nat) (c : Cand) (res : Bool) : List (Nat × (Nat × Nat)) :=
  let x := s.candNeeds c
  (s.scanWings die c res).flatMap fun w => (corners x.2.1 x.2.2).map fun k => (w, k)
/-- The first free rectangle (R305), reservations apart. -/
def State.anyRect (s : State) (die : Nat) (c : Cand) (gone : List Nat) : Option (Nat × (Nat × Nat)) :=
  (s.rects die c false).find? fun r => s.rectFits c gone r.1 r.2
/-- The first free rectangle that a candidate may take: outside the wings reserved against it (R305, R307), or the one
cleared for it, which a reservation leaves alone (R306). (DEDUCED, log 66.) -/
def State.findRect (s : State) (die : Nat) (c : Cand) : Option (Nat × (Nat × Nat)) :=
  let x := s.candNeeds c
  let own (r : Nat × (Nat × Nat)) : Bool := [0, 1].any fun d => (s.die d).cleared.contains (c.la, rectCores r.1 x.2.1 x.2.2 r.2)
  ((s.rects die c true).find? fun r => s.rectFits c [] r.1 r.2).or
    ((s.rects die c false).find? fun r => own r && s.rectFits c [] r.1 r.2)

/-! ## Choosing the next cluster (R303, R304) -/

/-- A launch is eligible: its dependences are met and its lease is held. -/
def State.eligible (s : State) (la : Nat) : Bool :=
  let l := s.launch la
  l.status.isNone && l.deps.isEmpty && (match l.lease with
    | some x => (match amapFind? s.leases x with
      | some y => y.granted && !y.dying
      | none => false)
    | none => false)

/-- A dump keeps a launch from being placed (R373): its space has been dumped, or is to be and the launch is not a draw in
flight. -/
def State.dumpHolds (s : State) (la : Nat) : Bool :=
  let l := s.launch la
  let sp := s.space l.space
  sp.dumped || (sp.dbg.getLsbD 58 && !(l.lr.kind && decide (0 < l.next)))

/-- A team on its way into its save. -/
def State.leaving (s : State) (t : Nat) : Bool := (s.team t).preempt && !(s.team t).restore
/-- A cluster of a queue is on its way into its save. -/
def State.queueLeaving (s : State) (q : Nat) (f : Cluster → Bool) : Bool :=
  s.teams.any fun kv => (s.launch kv.2.launch).queue == q && s.leaving kv.1 && f (s.cluster kv.2.cluster)

/-- The next of a queue: its oldest saved cluster, else, unless one is saved or on its way into its save (R303), the next
cluster of an eligible head. Nothing of a space that has been dumped is placed (R373). -/
def State.queueNext (s : State) (q : Nat) : Option Cand :=
  match s.frontOf q with
  | none => none
  | some f =>
    if s.dumpHolds f.la then none
    else if f.saved.isSome then some ⟨f.la, f.saved⟩
    else if s.eligible f.la && !s.queueLeaving q fun _ => true then some ⟨f.la, none⟩
    else none
/-- A cluster of a queue waits to be placed, be it behind one that is on its way into its save (R304); none waits that a
debugger or a dump holds. (DEDUCED, log 66.) -/
def State.queueWaits (s : State) (q : Nat) : Bool :=
  match s.frontOf q with
  | none => false
  | some f => !s.dumpHolds f.la && (f.saved.isSome || (s.eligible f.la && !s.queueLeaving q (·.byDbg)))

/-- The class of the launch that is next of a queue. -/
def State.queueClass (s : State) (q : Nat) : Nat := ((s.frontOf q).map fun f => (s.launch f.la).cls).getD 2

/-- Candidates of one class at a die: (queue, candidate), ascending queue. (DEDUCED, log 66.) -/
def State.classCands (s : State) (die cls : Nat) : List (Nat × Cand) :=
  s.queues.filterMap fun kv =>
    if kv.2.die ≠ die then none else
    match s.queueNext kv.1 with
    | some c => if (s.launch c.la).cls = cls then some (kv.1, c) else none
    | none => none

/-- Insert by deadline; an equal one stays behind the lower queue. -/
def State.dueInsert (s : State) (x : Nat × Cand) : List (Nat × Cand) → List (Nat × Cand)
  | [] => [x]
  | y :: ys => if (s.launch x.2.la).due < (s.launch y.2.la).due then x :: y :: ys else y :: s.dueInsert x ys
/-- FRAME candidates, earliest deadline first. -/
def State.frameCands (s : State) (die : Nat) : List (Nat × Cand) := (s.classCands die 0).foldl (fun l x => s.dueInsert x l) []

/-- NORMAL candidates in the order of their turns: the queue whose turn it is while it has placements left, then the
others ascending from it, and it again. -/
def State.normalCands (s : State) (die : Nat) : List (Nat × Cand) :=
  let d := s.die die
  let l := s.classCands die 1
  (if 0 < d.rrLeft then l.filter fun x => x.1 = d.rrQueue else []) ++
  (l.filter fun x => d.rrQueue < x.1) ++ (l.filter fun x => x.1 ≤ d.rrQueue)

/-- The order in which a dispatcher tries to place (R304): BACKGROUND only while nothing of its FRAME and NORMAL queues
waits. -/
def State.tryOrder (s : State) (die : Nat) : List (Nat × Cand) :=
  if s.queues.any fun kv => kv.2.die == die && s.queueWaits kv.1 && (s.queueClass kv.1 != 2)
  then s.frameCands die ++ s.normalCands die else s.classCands die 2

/-- After a NORMAL placement of a queue: its turn goes on or begins. A visit that wraps begins a round, with the weights as
they stand (R294). -/
def State.roundRobin (s : State) (die q : Nat) : State :=
  let now := s.queues.map fun kv => (kv.1, kv.2.weight)
  s.updDie die fun d =>
    if d.rrQueue = q && 0 < d.rrLeft then { d with rrLeft := d.rrLeft - 1 }
    else
      let ws := if q ≤ d.rrQueue then now else d.weights
      { d with rrQueue := q, rrLeft := max 1 (amapGet 1 ws q) - 1, weights := ws }

/-- Nothing fits: the turn of a queue whose next cluster does not fit passes; the others come before it again (R304).
(DEDUCED, log 66.) -/
def State.passTurn (s : State) (die : Nat) : Option State :=
  let d := s.die die
  if 0 < d.rrLeft && (s.normalCands die).any fun x => x.1 = d.rrQueue then
    some (s.updDie die fun d => { d with rrLeft := 0 })
  else none

/-! ## Placing (R126, R305) -/

/-- The lowest free slot of a quarter. (DESIGN CHOICE, log 26; DESIGN CHOICE, log 27.) -/
def slotFree (ts : List (Nat × Team)) (taken : List (Nat × Nat)) (q : Nat) : Nat :=
  let used := ts.flatMap (fun kv => kv.2.groups.filterMap fun g => if g.2.quarter = q then some g.2.slot else none) ++
    (taken.filter fun x => x.1 = q).map (·.2)
  ((List.range 16).find? fun k => !used.contains k).getD 0

/-- Quarters and slots for the groups of a team coming to a core. (DESIGN CHOICE, log 26.) -/
def State.seats (s : State) (c regs n : Nat) : List (Nat × Nat) :=
  let ts := s.coreTeams c []
  ((s.quarterList ts regs).take n).foldl (fun acc q => acc ++ [(q, slotFree ts acc q)]) []

/-- The FPM that threads of a launch start with (R388). -/
def Record.startFpm (r : Record) : Word := if r.nirop.getLsbD 31 then r.nirop &&& 0x003E0FCF else r.fpm

/-- A team slot that no team of the launch holds (R28). (DESIGN CHOICE, log 27.) -/
def State.pickSlot (s : State) (la : Nat) : Nat × State :=
  let l := s.launch la
  let fr := (List.range l.teamSlots).filter fun k => !l.slots.contains k
  let k := fr.getD (Config.freeChoice s.free % max fr.length 1) 0
  (k, { s.updLaunch la (fun x => { x with slots := k :: x.slots }) with free := s.free + 1 })

/-- Blocks of a launch's private window, from a block index on, read as zero again (R29). -/
def State.zeroBlocks (s : State) (la core ix n : Nat) : State :=
  let l := s.launch la
  let size := 32 * l.privSize * n
  let lo := windowPa la (32 * l.privSize * ix)
  let outside (a n : Nat) : Bool := decide (a + n ≤ lo) || decide (lo + size ≤ a)
  if size = 0 then s else
  ({ s with
    l2 := s.l2.filter fun kv => outside (128 * kv.1) 128
    dram := s.dram.filter fun kv => outside kv.1 1 }).updCore core fun k =>
      { k with l1 := k.l1.filter fun x => outside (128 * x.pline) 128 }

/-- Something happens before the launch: a grid it depends on (R298), or what the launching program published (R192). -/
def Launch.ordered (l : Launch) : Bool := l.program || l.lr.dep0 ≠ 0 || l.lr.dep1 ≠ 0

/-- A sequencer context of a core that no team holds (R243): which one is not stated. (DESIGN CHOICE, log 2.) -/
def State.freeContext (s : State) (core : Nat) : Nat :=
  ((List.range 4).find? fun k => s.teams.all fun kv => kv.2.core ≠ core || kv.2.stream.all fun st => st.ctx ≠ k).getD 0

/-- Place one new team of a cluster on a core. (DESIGN CHOICE, log 2.) -/
def State.newTeam (s : State) (la cid core rank : Nat) : State :=
  let l := s.launch la
  let r := l.lr
  match s.pickSlot la with
  | (slot, s) =>
    let s := s.zeroBlocks la core (slot * l.lr.groups) l.lr.groups
    let th : Thread := { pc := (r.code + r.entry) % 2 ^ 64, fpm := r.startFpm }
    let gs := numbered 0 (s.seats core r.regs r.groups)
    let t := s.uid
    let tm : Team :=
      { kind := if r.kind then .mesh else .compute
        launch := la, cluster := cid, core := core, rank := rank, slot := slot
        number := (s.cluster cid).number * r.cw * r.ch + rank
        groups := gs.map fun g => (g.1,
          { quarter := g.2.1, slot := g.2.2, roleC := r.roles.getLsbD g.1
            s := (numbered 0 r.args).foldl (fun m x => amapSet 0 m x.1 x.2) []
            threads := (List.range 32).map fun k => (k, th)
            readyAt := s.cclk })
        stream := if r.ms then some { pc := (r.code + r.mspc) % 2 ^ 64, ctx := s.freeContext core } else none }
    let s := { s with uid := t + 1, teams := amapInsert s.teams t tm, later := s.later ++ [Due.ins (.teamEnd t)] }
    let s := if l.ordered then s.acquireDone core true else s
    s.updCluster cid fun cl => { cl with teams := cl.teams ++ [t] }

/-- Where a launch's clusters stand and ran. -/
def State.placed (s : State) (la cid : Nat) (cores : List Nat) : State :=
  s.updLaunch la fun x => { x with live := x.live ++ [cid], cores := (x.cores ++ cores).eraseDups }

/-- A cluster has been placed: its reservation and what was cleared for its launch are over, and its queue has another
next. -/
def State.placedFront (s : State) (x : Front) : State :=
  let done (d : Die) : Die := { d with
    reserve := match d.reserve with
      | some y => if y.la = x.la ∧ y.saved = x.saved then none else some y
      | none => none
    cleared := d.cleared.filter fun h => h.1 ≠ x.la }
  ((s.updDie 0 done).updDie 1 done).markNext (s.launch x.la).queue

/-- Place a launch's next cluster. -/
def State.placeNew (s : State) (la w : Nat) (corner : Nat × Nat) : State :=
  let l := s.launch la
  let r := l.lr
  let cores := rectCores w r.cw r.ch corner
  let cid := s.uid
  let n := l.next
  let cl : Cluster :=
    { launch := la, number := n, gx := n % r.gx, gy := n / r.gx % r.gy, gz := n / r.gx / r.gy, wing := w
      col := corner.1, row := corner.2 }
  let s := { s with uid := cid + 1, clusters := amapInsert s.clusters cid cl }
  let s := s.wingLease w l.lease
  let s := forEach (numbered 0 cores) s fun s c => s.newTeam la cid c.2 c.1
  let s := s.placed la cid cores
  let s := s.updLaunch la fun x => { x with next := n + 1 }
  let s := if r.gx * r.gy * r.gz ≤ n + 1 then s.queueDrop la else s
  s.placedFront ⟨la, none, n⟩

/-- Place a saved cluster again: its teams take their cores and the indexes of their barrier objects there (R237), and each
is to be restored (R362). -/
def State.placeSaved (s : State) (la k w : Nat) (corner : Nat × Nat) : State :=
  match amapFind? s.saved k with
  | none => s
  | some v =>
    let x := s.candNeeds ⟨la, some k⟩
    let cores := rectCores w x.2.1 x.2.2 corner
    let s := s.wingLease w (s.launch la).lease
    let s := { s with
      clusters := amapInsert s.clusters k { v.cluster with wing := w, col := corner.1, row := corner.2 }
      saved := amapInsert s.saved k { v with teams := [] } }
    let s := forEach ((v.cluster.teams.zip cores).zip x.1) s fun s y =>
      match amapFind? v.teams y.1.1 with
      | none => s
      | some tm =>
        let s := forEach (v.objs.filter (·.1 = y.1.1)) s fun s o =>
          s.updCore y.1.2 fun k => { k with barTab := amapInsert k.barTab o.2.1 o.2.2 }
        let seats := s.seats y.1.2 y.2.regs tm.groups.length
        let gs := (tm.groups.zip seats).map fun z => (z.1.1, { z.1.2 with quarter := z.2.1, slot := z.2.2 })
        let st := tm.stream.map fun st => { st with ctx := s.freeContext y.1.2 }
        { s with
          teams := amapInsert s.teams y.1.1 { tm with
            core := y.1.2, groups := gs, stream := st, preempt := true, restore := true, tokens := false }
          later := s.later ++ [Due.teamRestore y.1.1 y.1.2, Due.ins (.teamEnd y.1.1)] }
    let s := (s.placed la k cores).updLaunch la fun x => { x with saved := x.saved.filter (· ≠ k) }
    s.placedFront ⟨la, some k, 0⟩

/-- A candidate is the first cluster of a launch whose space has been disabled since it was enqueued (R89). -/
def State.spaceOff (s : State) (c : Cand) : Bool :=
  c.saved.isNone && (s.launch c.la).next == 0 && !(s.space (s.launch c.la).space).root.getLsbD 63

/-- CLUSTER_PLACE: the dispatcher of a die places the first cluster of its order that fits (R304, R305); where none does, a
turn may pass. A launch whose space is disabled ends with NOSPACE before any thread runs (R89), and a draw whose STEs fail at
its first cluster with BADLAUNCH (R310). (DESIGN CHOICE, log 6.) -/
def execClusterPlace (die : Nat) (s : State) : Out :=
  match (s.tryOrder die).find? fun x => s.spaceOff x.2 with
  | some x => .next (s.failLaunch x.2.la .noSpace)
  | none =>
  match (s.tryOrder die).findSome? fun x => (s.findRect die x.2).map fun r => (x, r) with
  | none => match s.passTurn die with
    | some s => .next s
    | none => .fault .notEnabled
  | some ((q, c), (w, corner)) =>
    let l := s.launch c.la
    if c.saved.isNone && l.next = 0 && l.lr.kind && s.rasterStesBad l.space l.lr.raster then
      .next (s.failLaunch c.la .badLaunch)
    else
      let s := if l.cls = 1 then s.roundRobin die q else s
      let s := match c.saved with
        | none => s.placeNew c.la w corner
        | some k => s.placeSaved c.la k w corner
      .next (s.updDie die fun d => { d with pointer := (w + 1) % 16 })

/-! ## Pre-emption by the dispatcher (R306, R307, R360, R361) -/

/-- Save-area bytes of a team (Table 20-9), the records of its engines that are held among them. (DESIGN CHOICE, log 61.) -/
def State.saveBytes (s : State) (t : Nat) : Nat :=
  let tm := s.team t
  let r := (s.launch tm.launch).lr
  let n := tm.groups.length
  let scr := if tm.kind == .fragment then 0 else r.scratch
  let k := s.core tm.core
  let recs := (k.book.filter fun e => e.team = t).length + (k.held.filter fun h => match h with
    | .engine e => e.team == t
    | .thread _ _ _ => false).length
  256 + 320 * n + 32 * n * (4 * s.regCount t + 80) + ceilDiv scr 1024 * 1024 + ceilDiv scr 1024 +
  160 + 8 * (k.barTab.filter fun kv => kv.2.team = some t).length +
  192 + 32 * (s.copies.filter fun kv => kv.2.team = t).length + (if tm.stream.isSome then 104928 else 0) +
  16 * (s.rows.filter fun kv => kv.2.holders.contains t).length +
  16 * tm.groups.foldl (fun k g => k + (g.2.threads.filter fun th => th.2.sect.isOpen).length) 0 +
  64 * recs + 64 * (if tm.stop.isSome then (tm.groups.filter fun g => g.2.kept.isSome).length else 0)

/-- Teams of a cluster that are still resident. -/
def State.residents (s : State) (cid : Nat) : List Nat := (s.cluster cid).teams.filter fun t => (amapFind? s.teams t).isSome

/-- Bytes of a space's save pool. -/
def State.poolSize (s : State) (space : Nat) : Nat := bitField 63 52 (s.space space).save.toNat * 2 ^ 20
/-- Places of a space's pool that saves take, or are to take: offset and bytes. -/
def State.poolTaken (s : State) (space : Nat) : List (Nat × Nat) :=
  s.saved.flatMap fun kv => if (s.launch kv.2.cluster.launch).space = space then kv.2.places.map (·.2) else []
/-- The lowest place of `n` bytes in a pool beside those taken. -/
def poolPlace (size : Nat) (taken : List (Nat × Nat)) (n : Nat) : Option Nat :=
  let free (o : Nat) : Bool := decide (o + n ≤ size) && taken.all fun x => decide (o + n ≤ x.1) || decide (x.1 + x.2 ≤ o)
  ((0 :: taken.map fun x => x.1 + x.2).filter free).min?
/-- Places for saves of these teams, one after another; none where the pool has no room for one of them (R360).
(DESIGN CHOICE, log 61.) -/
def State.poolPlan (s : State) (size : Nat) (taken : List (Nat × Nat)) : List Nat → Option (AMap (Nat × Nat))
  | [] => some []
  | t :: ts =>
    let n := s.saveBytes t
    match poolPlace size taken n with
    | none => none
    | some o => (s.poolPlan size ((o, n) :: taken) ts).map fun m => amapInsert m t (o, n)
/-- Saves of these teams fit what a space's pool has free beside those that are there and those of the teams already on their
way (R360). (DESIGN CHOICE, log 61.) -/
def State.poolFits (s : State) (space : Nat) (ts : List Nat) : Bool :=
  let out := (s.teams.filter fun kv => s.leaving kv.1 && s.spaceOf kv.1 == space && (amapFind? s.saved kv.2.cluster).isNone).map (·.1)
  decide (0 < s.poolSize space) &&
  (s.poolPlan (s.poolSize space) (s.poolTaken space) (out ++ ts.filter fun t => !out.contains t)).isSome

/-- A cluster may be pre-empted by the dispatcher together with `also` (R306, R360, R367): its class is one of `cls`, no team
is stopped or still to be restored, and its save fits what those saved, those on their way and `also` leave of its pool. -/
def State.canPreempt (s : State) (cls also : List Nat) (cid : Nat) : Bool :=
  let l := s.launch (s.cluster cid).launch
  cls.contains l.cls && l.status.isNone && (s.residents cid).all (fun t => (s.team t).stop.isNone && !(s.team t).restore) &&
  s.poolFits l.space (((also ++ [cid]).flatMap s.residents).filter fun t => s.spaceOf t == l.space)

/-- Teams on their way out. -/
def State.draining (s : State) : List Nat := (s.teams.filter fun kv => s.leaving kv.1).map (·.1)

/-- The clusters to clear from a rectangle, and their teams. (DEDUCED, log 66.) -/
def State.clearing (s : State) (c : Cand) (cls : List Nat) (w : Nat) (corner : Nat × Nat) : List Nat × List Nat :=
  let x := s.candNeeds c
  let cores := rectCores w x.2.1 x.2.2 corner
  let cs := ((s.teams.filter fun kv => cores.contains kv.2.core && kv.2.kind != .porter && !s.leaving kv.1).map (·.2.cluster)).eraseDups
  let cs := cs.foldl (fun acc k => if s.canPreempt cls acc k then acc ++ [k] else acc) []
  (cs, cs.flatMap fun k => s.residents k)

/-- The rectangle whose clearing pre-empts the fewest teams, the first in scan order among equals: its clusters and
cores. -/
def State.cheapest (s : State) (die : Nat) (c : Cand) (cls : List Nat) : Option (List Nat × List Nat) :=
  let dr := s.draining
  let n := s.candNeeds c
  let rs := (s.rects die c false).filterMap fun r =>
    let x := s.clearing c cls r.1 r.2
    if !x.1.isEmpty && s.rectFits c (x.2 ++ dr) r.1 r.2 then some (x.1, x.2.length, rectCores r.1 n.2.1 n.2.2 r.2) else none
  (rs.foldl (fun best x => match best with
    | none => some x
    | some b => if x.2.1 < b.2.1 then some x else some b) (none : Option (List Nat × Nat × List Nat))).map fun x => (x.1, x.2.2)

/-- Begin to pre-empt a team. -/
def State.preemptTeam (s : State) (t : Nat) : State :=
  if (s.team t).preempt then s else
  let s := s.updTeam t fun tm => { tm with preempt := true, preemptAt := s.cclk,
                                           groups := amapMap (fun _ g => { g with debt := 0 }) tm.groups }
  { s with later := s.later ++ [Due.preemptSave t, Due.ins (.rocPreemptTimeout t)] }
/-- Begin to pre-empt clusters, each as a whole. -/
def State.preemptClusters (s : State) (cs : List Nat) : State :=
  forEach cs s fun s k => forEach (s.residents k) s fun s t => s.preemptTeam t

/-- The first candidate that does not fit, may pre-empt, and has a rectangle to clear: its launch, the clusters and the cores
of the rectangle. -/
def State.preemptFor (s : State) (die : Nat) : Option (Nat × List Nat × List Nat) :=
  let dr := s.draining
  let unfit (c : Cand) : Bool := (s.anyRect die c []).isNone && (s.anyRect die c dr).isNone
  let clear (c : Cand) (cls : List Nat) := (s.cheapest die c cls).map fun x => (c.la, x)
  let frame := (s.frameCands die).findSome? fun x =>
    let l := s.launch x.2.la
    if unfit x.2 && decide (l.due < s.devtime + 2 ^ 46 + l.lr.cost) then (clear x.2 [2]).or (clear x.2 [1, 2]) else none
  frame.or ((s.normalCands die).findSome? fun x => if unfit x.2 then clear x.2 [2] else none)

/-- FRAME_PREEMPT: pre-emption for a FRAME launch short of time, or of BACKGROUND for a NORMAL cluster; the rectangle is
kept for it (R306). -/
def execFramePreempt (die : Nat) (s : State) : Out :=
  match s.preemptFor die with
  | none => .fault .notEnabled
  | some (la, cs, cores) =>
    .next ((s.preemptClusters cs).updDie die fun d => { d with cleared := (d.cleared.filter fun h => h.1 ≠ la) ++ [(la, cores)] })

/-- Since when the next cluster of a queue has been its next (R307). (DEDUCED, log 66.) -/
def State.waitSince (s : State) (q : Nat) : Option Nat :=
  ((s.queue q).front.bind fun f => (s.queue q).since.find? (·.1 = f)).map (·.2)

/-- NORMAL_RESERVATION: the NORMAL cluster that has waited longest, for 1 ms or more, reserves its wings (R307). -/
def execNormalReservation (die : Nat) (s : State) : Out :=
  if (s.die die).reserve.any fun x => s.placing x.la then .fault .notEnabled else
  let ws := (s.classCands die 1).filter fun x =>
    ((s.waitSince x.1).any fun n => decide (n + 1000000 ≤ s.devtime)) && (s.findRect die x.2).isNone
  let since (x : Nat × Cand) : Nat := (s.waitSince x.1).getD 0
  match ws.foldl (fun (b : Option (Nat × Cand)) x => match b with
      | none => some x
      | some y => if since x < since y then some x else some y) none with
  | none => .fault .notEnabled
  | some x => .next (s.updDie die fun d => { d with reserve := (s.queue x.1).front })

/-! ## Saving and restoring a team (R359 to R363, R72) -/

/-- An unfinished LDS or LDX that waits for an absent line: it is saved as a waiting access. -/
def State.absentAcc (s : State) (t a : Nat) : Bool :=
  (s.team t).groups.any fun g => g.2.waits.any fun w => match w.2.cond with
    | .presence l => l.contains a
    | _ => false

/-- A team that is being pre-empted has come to rest (R359 steps 1 to 3, R260, R287). -/
def State.drained (s : State) (t : Nat) : Bool :=
  let tm := s.team t
  tm.groups.all (fun g => g.2.run.isNone && (g.2.kept.isNone || tm.stop.isSome) && g.2.waits.all (fun w => match w.2.cond with
      | .rowOpen _ _ => false
      | _ => true) && (tm.tokens || g.2.threads.all fun th => !th.2.sect.isOpen)) &&
  !s.pends.any (fun kv => kv.2.team == t) &&
  !s.accs.any (fun kv => match kv.2.who with
    | .thread t' _ _ => t' == t && !s.absentAcc t kv.1
    | .stream t' _ => t' == t
    | .copy _ _ | .unit _ => false) &&
  (match tm.stream with
    | some st => st.window.all fun c => !c.started || c.faulted || (match c.instr with
      | .mbw _ => true
      | _ => false)
    | none => true) &&
  !s.copies.any (fun kv => kv.2.team == t && kv.2.read && !kv.2.faulted)

/-- A team's holds under its row policy (R72). -/
def State.saveRows (s : State) (t : Nat) (drop : Bool) : State :=
  forEach (s.rows.filter fun kv => kv.2.holders.contains t) s fun s kv =>
    match amapFind? s.rows kv.1 with
    | none => s
    | some r =>
      if drop then
        let hs := r.holders.filter (· ≠ t)
        { s with rows := amapInsert s.rows kv.1 { r with
            holders := hs, dropped := r.dropped ++ [t], state := if hs.isEmpty then .closed else r.state } }
      else
        let sv := r.savedBy ++ [t]
        { s with rows := amapInsert s.rows kv.1 { r with
            savedBy := sv, state := if r.holders.all sv.contains then .saved else r.state } }

/-- A wait as it is saved and taken up again: PAUSE by the cycles it has left. -/
def Cond.shift (c : Cond) (save : Bool) (now : Nat) : Cond :=
  match c with
  | .pause u => .pause (if save then u - now else u + now)
  | c => c
def Team.shiftWaits (tm : Team) (save : Bool) (now : Nat) : Team :=
  { tm with groups := amapMap (fun _ g => { g with waits := amapMap (fun _ w => { w with cond := w.cond.shift save now }) g.waits }) tm.groups }

/-- A started MBW goes back to the window unstarted (R260). -/
def Stream.unstartMbw (st : Stream) : Stream :=
  { st with window := st.window.map fun c => match c.instr with
      | .mbw _ => { c with started := c.started && c.faulted }
      | _ => c }

/-- Write a save into its pool with slot 0's key; the specification gives the sizes of its parts and not their bytes.
(DESIGN CHOICE, log 61.) -/
def State.poolWrite (s : State) (space o n : Nat) : State :=
  let base := bitField 51 12 (s.space space).save.toNat * 4096 + o
  let word (s : State) : Nat := (List.range 4).foldl (fun x k => x + 2 ^ (128 * k) * (Config.freeValue (s.free + k)).toNat) 0
  forEach (List.range (ceilDiv n 64)) s fun s k =>
    { s.homeWrite (base + 64 * k) (min 64 (n - 64 * k)) 0 (word s) with free := s.free + 4 }

/-- A cluster whose save has outgrown its pool while its teams came to rest is not pre-empted (R360): its teams go on, or stop
where a dump takes them (R373). (DESIGN CHOICE, log 61.) -/
def State.keepCluster (s : State) (cid : Nat) : State :=
  let ts := s.residents cid
  let sp := s.space (s.launch (s.cluster cid).launch).space
  let cores := ts.map fun t => (s.team t).core
  let stay (d : Die) : Die := { d with cleared := d.cleared.filter fun h => !h.2.any cores.contains }
  let s := forEach ts ((s.updDie 0 stay).updDie 1 stay) fun s t => s.updTeam t fun tm => { tm with preempt := false }
  let s := { s with later := s.later.filter fun d => !ts.any fun t => d == Due.preemptSave t || d == Due.ins (.rocPreemptTimeout t) }
  let s := s.updCluster cid fun c => { c with byDbg := false }
  if !sp.dumped then s else forEach ts s fun s t =>
    if (s.team t).stop.isSome then s else s.teamStop t 0 (((s.team t).groups.head?.map (·.1)).getD 0) []

/-- Whether what a guest book holds back is a team's. -/
def Held.ofTeam (t : Nat) : Held → Bool
  | .thread u _ _ => u == t
  | .engine e => e.team == t

/-- What a core's guest book holds back of a team, a thread that replays first. -/
def State.heldOf (s : State) (t : Nat) : List Held :=
  let k := s.core (s.team t).core
  ((k.serving.filter fun x => x.1 == t).toList.map fun x => Held.thread x.1 x.2.1 x.2.2) ++ k.held.filter (Held.ofTeam t)

/-- A team's records and barrier objects leave its core; a thread of it that replays is held again. -/
def State.bookClear (s : State) (t : Nat) : State :=
  let core := (s.team t).core
  let again := ((s.core core).serving.filter fun x => x.1 == t).toList
  let s := (s.updCore core fun k => { k with
    book := k.book.filter (·.team ≠ t), held := k.held.filter fun h => !h.ofTeam t,
    serving := if k.serving.any (·.1 = t) then none else k.serving }).barFreeTeam t
  forEach again s fun s x => s.updThread t x.2.1 x.2.2 fun th => { th with stat := if th.stat = .ready then .held else th.stat }

/-- A team as its save holds it. -/
def State.packTeam (s : State) (t : Nat) : Team :=
  let tm := (s.team t).shiftWaits true s.cclk
  { tm with
    stream := tm.stream.map Stream.unstartMbw
    groups := amapMap (fun _ g => { g with debt := 0 }) tm.groups }

/-- What a team adds to its cluster's save: itself, its records, its barrier objects, its copies. -/
def State.saveAdd (s : State) (t : Nat) (v : Saved) (place bytes : Nat) (tm : Team) : Saved :=
  let k := s.core (s.team t).core
  { v with
    teams := amapInsert v.teams t tm
    records := v.records ++ k.book.filter (·.team = t)
    held := v.held ++ s.heldOf t
    objs := v.objs ++ (k.barTab.filter fun kv => kv.2.team = some t).map fun kv => (t, kv.1, kv.2)
    copies := (s.copies.filter fun kv => kv.2.team = t).foldl (fun (m : AMap Copy) (kv : Nat × Copy) => amapInsert m kv.1 kv.2) v.copies
    places := amapInsert v.places t (place, bytes) }

/-- With its last team a cluster leaves the module. -/
def State.clusterSaved (s : State) (la cid : Nat) (v : Saved) : State :=
  if !(s.residents cid).isEmpty then s else
  let s := { s with
    saved := amapInsert s.saved cid { v with cluster := s.cluster cid }
    clusters := amapErase s.clusters cid }
  (s.updLaunch la fun l => { l with live := l.live.filter (· ≠ cid), saved := l.saved ++ [cid] }).markNext (s.launch la).queue

/-- A team leaves its core for its cluster's save, which is written into its place of the pool. -/
def State.saveTeam (s : State) (t : Nat) (v : Saved) (place : Nat) : State :=
  let core := (s.team t).core
  let bytes := s.saveBytes t
  let s := ((s.publishNow core).poolWrite (s.spaceOf t) place bytes).saveRows t (s.lr t).rowDrop
  let c := s.bookClear t
  let tm := c.packTeam t
  let v := s.saveAdd t v place bytes tm
  (State.serveHeld 65 { c with
    teams := amapErase c.teams t
    copies := c.copies.filter (fun kv => kv.2.team ≠ t)
    saved := amapInsert c.saved tm.cluster v } core).clusterSaved tm.launch tm.cluster v

/-- PREEMPT_SAVE: once every team of the cluster has come to rest and their saves have places in the pool, the core publishes, and
the team leaves for its cluster's save, which is written into its place. (DEDUCED, log 56.) -/
def execPreemptSave (tid : Nat) (s : State) : Out :=
  match amapFind? s.teams tid with
  | none => .fault .notEnabled
  | some tm0 =>
    if !s.leaving tid || !s.drained tid || s.stopping tid then .fault .notEnabled else
    let cid := tm0.cluster
    let space := s.spaceOf tid
    match (match amapFind? s.saved cid with
      | some v => some v
      | none =>
        if !(s.residents cid).all s.drained then none else
        some { cluster := s.cluster cid
               places := (s.poolPlan (s.poolSize space) (s.poolTaken space) (s.residents cid)).getD [] }) with
    | none => .fault .notEnabled
    | some v =>
    match amapFind? v.places tid with
    | none => .next (s.keepCluster cid)
    | some (place, _) =>
    .next (s.saveTeam tid v place)

/-- Rejudge the parity waits of a team by its barriers as they stand. (DESIGN CHOICE, log 60.) -/
def State.rejudge (s : State) (t : Nat) : State :=
  let judge (w : Wait) : Wait := match w.cond with
    | .parity pc ls => { w with cond := .parity pc (ls.filter fun x => (s.barGet t x.2.1).phase.toNat % 2 == x.2.2 % 2) }
    | _ => w
  s.updTeam t fun tm => { tm with
    groups := amapMap (fun _ g => { g with waits := amapMap (fun _ w => judge w) g.waits }) tm.groups }

/-- A saved record comes to a new core: into the book, or held (R362). -/
def State.restoreRecord (s : State) (core : Nat) (e : GbEntry) : State :=
  let e := { e with read := false }
  if !s.bookFull core then s.bookPut core e
  else if e.group < 32 && !e.barrd then
    (s.updThread e.team e.group e.lane fun th => { th with stat := .held }).bookHold core (.thread e.team e.group e.lane)
  else s.bookHold core (.engine e)

/-- A team's records come to its core. -/
def State.restoreBook (s : State) (core t : Nat) (v : Saved) : State :=
  let s := forEach (v.records.filter (·.team = t)) s fun s e => s.restoreRecord core e
  forEach (v.held.filter (Held.ofTeam t)) s fun s h => s.bookHold core h

/-- A team holds its rows again. -/
def State.restoreRows (s : State) (t : Nat) : State :=
  forEach (s.rows.filter fun kv => kv.2.savedBy.contains t) s fun s kv =>
    { s with rows := amapInsert s.rows kv.1 { kv.2 with
        savedBy := kv.2.savedBy.filter (· ≠ t)
        state := if kv.2.state == .saved then .open_ else kv.2.state } }

/-- A team's copies go on, and what its threads still wait for comes to its new core. -/
def State.restoreCopies (s : State) (core t : Nat) (v : Saved) : State :=
  let cs := v.copies.filter fun kv => kv.2.team = t
  { s with
    copies := cs.foldl (fun (m : AMap Copy) (kv : Nat × Copy) => amapInsert m kv.1 kv.2) s.copies
    later := s.later ++ cs.map (fun (kv : Nat × Copy) => Due.copyElementMove core kv.1)
    accs := amapMap (fun _ a => match a.who with
      | .thread u _ _ => if u = t then { a with core := core } else a
      | _ => a) s.accs }

/-- A cluster's save without a team. -/
def Saved.without (v : Saved) (t : Nat) : Saved :=
  { v with
    records := v.records.filter (·.team ≠ t)
    held := v.held.filter fun h => !h.ofTeam t
    objs := v.objs.filter (·.1 ≠ t)
    copies := v.copies.filter fun kv => kv.2.team ≠ t
    places := amapErase v.places t }

/-- A team as it goes on after its save. -/
def Team.back (tm : Team) (now : Nat) : Team :=
  let tm := tm.shiftWaits false now
  { tm with
    preempt := false
    restore := false
    tokens := false
    groups := amapMap (fun _ g => { g with
      readyAt := now
      threads := amapMap (fun _ th => if th.stat = .parked then th else { th with sect := th.sect.resume now }) g.threads }) tm.groups }

/-- With its last team back a cluster's save is over; where a debugger has asked for it meanwhile, the cluster is pre-empted again
(R383). -/
def State.clusterBack (s : State) (t : Nat) : State :=
  let cid := (s.team t).cluster
  let ts := s.residents cid
  if ts.any fun u => (s.team u).restore then s else
  let s := { s with saved := amapErase s.saved cid }
  if !(s.cluster cid).byDbg then s
  else if s.poolFits (s.spaceOf t) ts then s.preemptClusters [cid]
  else s.updCluster cid fun k => { k with byDbg := false }

/-- A placed team goes on from its cluster's save. -/
def State.restoreTeam (s : State) (core t : Nat) (v : Saved) : State :=
  let s := (((((s.acquireDone core true).barRejoin t).restoreBook core t v).restoreRows t).restoreCopies core t v)
  let s := { s with saved := amapInsert s.saved (s.team t).cluster (v.without t) }
  (State.serveHeld 65 ((s.updTeam t fun tm => tm.back s.cclk).rejudge t) core).clusterBack t

/-- TEAM_RESTORE: records, row holds, stream and copies, then the groups (R362). The team's own earlier accesses are
before what it does next, so the core keeps no clean line from before. A cluster that a debugger has asked to be pre-empted
meanwhile is, once its last team is back (R383). (DESIGN CHOICE, log 60.) -/
def execTeamRestore (saved core : Nat) (s : State) : Out :=
  match amapFind? s.teams saved with
  | none => .fault .notEnabled
  | some tm =>
    match amapFind? s.saved tm.cluster with
    | none => .fault .notEnabled
    | some v =>
      if tm.core ≠ core || !tm.restore || s.stopping saved then .fault .notEnabled else
      .next (s.restoreTeam core saved v)

/-! ## Binding (R136, R139, R144, R348) -/

/-- The next PC set of a group (R136): the ready lanes of the set whose lowest lane is next above the last run's. -/
def Group.nextSet (g : Group) : Option (Nat × List Nat) :=
  let ready := g.readyLanes
  let leads := ready.filter fun l => ready.all fun k => decide (l ≤ k) || (g.thr k).pc ≠ (g.thr l).pc
  let lead := match leads.filter fun l => decide (g.lastLead < l) with
    | l :: _ => some l
    | [] => leads.head?
  lead.map fun l => (l, ready.filter fun k => (g.thr k).pc = (g.thr l).pc)

/-- The set that a binding takes: the rest of a run that a stop cut (R366), else the next PC set. (DEDUCED, log 35.) -/
def Group.bindSet (g : Group) : Option (Nat × List Nat) :=
  match g.kept with
  | none => g.nextSet
  | some k => match k.lanes.filter fun l => (g.thr l).stat = .ready with
    | [] => g.nextSet
    | l :: ls => some (l, l :: ls)

/-- The PC is inside the trial range of the team's space (R372). -/
def State.trialIn (s : State) (t pc : Nat) : Bool :=
  let x := (s.space (s.spaceOf t)).trial.toNat
  let o := s.pcOffset t pc
  decide (bitField 59 40 x ≤ o) && decide (o < bitField 39 20 x)
/-- A trial is running in the team's space. -/
def State.trialOn (s : State) (t : Nat) : Bool := (s.space (s.spaceOf t)).trial.getLsbD 63

/-- A group in debt is bound only for an instruction inside the range (R372). -/
def State.debtHolds (s : State) (t : Nat) (g : Group) : Bool :=
  s.trialOn t && decide (0 < g.debt) && (match g.wakeExchange.bindSet with
    | some (l, _) => !s.trialIn t (g.wakeExchange.thr l).pc
    | none => false)

/-- Groups that a quarter's context may bind: (team, group number). -/
def State.bindable (s : State) (core quarter : Nat) : List (Nat × Nat) :=
  (s.coreTeams core []).flatMap fun kv => kv.2.groups.filterMap fun g =>
    if g.2.quarter = quarter && g.2.run.isNone && s.groupReady kv.1 g.1 && !s.debtHolds kv.1 g.2 then some (kv.1, g.1) else none

/-- Bind a group for a run of its next PC set. -/
def State.bind (s : State) (t g ctx : Nat) : State :=
  s.updGroup t g fun gr =>
    let gr := gr.wakeExchange
    match gr.bindSet with
    | none => gr
    | some (l, lanes) =>
      let r : Run := match gr.kept with
        | some k => if k.lanes.contains l then { k with ctx := ctx, lanes := lanes } else ⟨ctx, lanes, 0, []⟩
        | none => ⟨ctx, lanes, 0, []⟩
      { gr with run := some r, kept := none, lastLead := l }

/-- Contexts of a quarter with a bound group. -/
def State.boundCtxs (s : State) (core quarter : Nat) : List Nat :=
  (s.coreTeams core []).flatMap fun kv => kv.2.groups.filterMap fun g =>
    if g.2.quarter = quarter then g.2.run.map (·.ctx) else none

/-- Resident groups of a quarter. -/
def State.quarterGroups (s : State) (core quarter : Nat) : Nat :=
  (s.coreTeams core []).foldl (fun k kv => k + (kv.2.groups.filter fun g => g.2.quarter = quarter).length) 0
/-- A group has been ready for the bound of R144 and R146. -/
def State.waitedOut (s : State) (core quarter : Nat) (g : Group) : Bool :=
  decide (g.readyAt + 96 * ceilDiv (s.quarterGroups core quarter) 4 ≤ s.cclk)

/-- The longest-ready first, the lower slot among equals; with CPF a C group first, unless a V group has waited out
its bound (R144). (DESIGN CHOICE, log 26.) -/
def State.bindPick (s : State) (core quarter : Nat) : Option (Nat × Nat) :=
  let gs := s.bindable core quarter
  let gr (x : Nat × Nat) := s.group x.1 x.2
  let oldest (l : List (Nat × Nat)) : Option (Nat × Nat) := l.foldl (fun b x => match b with
    | none => some x
    | some y => if (gr x).readyAt < (gr y).readyAt || ((gr x).readyAt = (gr y).readyAt && (gr x).slot < (gr y).slot)
                then some x else some y) none
  let late := gs.filter fun x => !(gr x).roleC && s.waitedOut core quarter (gr x)
  let first := gs.filter fun x => (gr x).roleC && (s.lr x.1).cpf
  match oldest late, oldest first with
  | some x, _ => if first.isEmpty then oldest gs else some x
  | none, some x => some x
  | none, none => oldest gs

/-- CONTEXT_BIND: a free context of a quarter binds a group (R144). Context 4 of quarter 0 is the night porter's.
(DESIGN CHOICE, log 6.) -/
def execContextBind (core quarter ctx : Nat) (s : State) : Out :=
  if ctx = 4 && quarter = 0 then
    match s.porterTeam core with
    | none => .fault .notEnabled
    | some t => if (s.group t 0).run.isNone && s.groupReady t 0 then .next (s.bind t 0 4) else .fault .notEnabled
  else if 4 ≤ ctx || (s.boundCtxs core quarter).contains ctx then .fault .notEnabled
  else match s.bindPick core quarter with
    | none => .fault .notEnabled
    | some (t, g) => .next (s.bind t g ctx)

/-- PORTER_SLOT_TAKE: the night porter, bound and ready, takes the next slot of quarter 0 (R348). -/
def execPorterSlotTake (core : Nat) (s : State) : Out :=
  match s.porterTeam core with
  | none => .fault .notEnabled
  | some t => if (s.group t 0).run.isSome then .next { s with turn := .group t 0 } else .fault .notEnabled

end Sys2Proof.Machine
end

