-- ==== Sys2Proof/Machine/Raster.lean ====
section
/-! DEFINITION. The raster pipeline (17_graphics, R309 to R324, R412): emission of primitives, the rasteriser, coverage
tokens, tests and blend at the bank raster units, and fragment groups. -/

namespace Sys2Proof.Machine

/-! ## Setup (R317, R318) -/

/-- A signed 16-bit field. -/
def signed16 (n : Nat) : Int := (BitVec.ofNat 16 n).toInt

/-- A vertex in window space: x and y in 1/256 of a pixel, and the depth as binary32; none is culled. -/
def windowVertex (r : BitVec 1024) (v : List Word) : Option (Int × Int × Nat) :=
  let q (k : Nat) : Q := Q.ofWord (v.getD k 0)
  let w := q 3
  if v.any (fun x => nonFinite x.toNat) || w.n ≤ 0 then none else
  let half (lo : Nat) : Q := { n := rsField r 0 (lo + 15) lo, e := -1 }
  let x := (Q.ofInt (signed16 (rsField r 0 63 48))).add ((((q 0).div w).add (Q.ofInt 1)).mul (half 16))
  let y := (Q.ofInt (signed16 (rsField r 0 47 32))).add (((Q.ofInt 1).sub ((q 1).div w)).mul (half 0))
  let z0 := Q.ofWord (BitVec.ofNat 32 (rsField r 8 63 32))
  let z1 := Q.ofWord (BitVec.ofNat 32 (rsField r 8 31 0))
  let z := z0.add (((q 2).div w).mul (z1.sub z0))
  let xi := (x.mul (Q.ofInt 256)).nearest
  let yi := (y.mul (Q.ofInt 256)).nearest
  if 2 ^ 23 ≤ xi.natAbs || 2 ^ 23 ≤ yi.natAbs then none else some (xi, yi, z.toF32)

/-- A triangle ready to rasterise, its vertices oriented so that the area is positive. -/
structure Tri where
  xs    : List Int
  ys    : List Int
  zs    : List Nat
  verts : List (List Word)
  area  : Int
  front : Bool
  deriving DecidableEq, Repr

/-- The window vertices of a primitive; none where R317 culls it. -/
def primWindow (r : BitVec 1024) (p : Prim) : Option (List (Int × Int × Nat)) :=
  match windowVertex r p.v0, windowVertex r p.v1, windowVertex r p.v2 with
  | some a, some b, some c => some [a, b, c]
  | _, _, _ => none

/-- The triangle of a primitive; none where R317 or R318 culls it. -/
def triOf (r : BitVec 1024) (p : Prim) : Option Tri :=
  match primWindow r p with
  | some [a, b, c] =>
    let A := (b.1 - a.1) * (c.2.1 - a.2.1) - (b.2.1 - a.2.1) * (c.1 - a.1)
    let front := decide (0 < A) == (rsField r 0x18 43 43 == 1)
    let cull := rsField r 0x18 45 44
    if A = 0 || (cull = 1 && front) || (cull = 2 && !front) then none else
    let vs := if A < 0 then [a, c, b] else [a, b, c]
    some { xs := vs.map (·.1), ys := vs.map (·.2.1), zs := vs.map (·.2.2)
           verts := if A < 0 then [p.v0, p.v2, p.v1] else [p.v0, p.v1, p.v2]
           area := A.natAbs, front := front }
  | _ => none

/-- Edge function `i` at a point. -/
def Tri.edge (t : Tri) (i : Nat) (px py : Int) : Int :=
  let j := (i + 1) % 3
  let x (k : Nat) : Int := t.xs.getD k 0
  let y (k : Nat) : Int := t.ys.getD k 0
  (x j - x i) * (py - y i) - (y j - y i) * (px - x i)
/-- A point is covered (R318): a zero counts on top and left edges. -/
def Tri.covers (t : Tri) (px py : Int) : Bool :=
  (List.range 3).all fun i =>
    let j := (i + 1) % 3
    let e := t.edge i px py
    let dx := t.xs.getD j 0 - t.xs.getD i 0
    let dy := t.ys.getD j 0 - t.ys.getD i 0
    decide (0 < e) || (e == 0 && ((dy == 0 && decide (0 < dx)) || decide (dy < 0)))
/-- Barycentric weights (R319). -/
def Tri.lambda (t : Tri) (px py : Int) : List Q :=
  [1, 2, 0].map fun i => { n := t.edge i px py, d := t.area.natAbs }
/-- A sum of values weighted by the barycentric weights. -/
def Tri.interp (t : Tri) (px py : Int) (vs : List Q) : Q := Q.sum (((t.lambda px py).zip vs).map fun x => x.1.mul x.2)
/-- The depth at a point, rounded to binary32. (DEDUCED, log 82.) -/
def Tri.depth (t : Tri) (px py : Int) : Nat := (t.interp px py (t.zs.map fun z => Q.ofF (fp32.decode z))).toF32

/-- Sample positions in 1/256 of a pixel (R318). -/
def sampleSpots (samp4 : Bool) : List (Int × Int) :=
  if samp4 then [(96, 32), (224, 96), (32, 160), (160, 224)] else [(128, 128)]

/-- A covered sample's depth, where it lies in [0, 1] (R319). -/
def Tri.sample (t : Tri) (px py : Int) : Option Nat :=
  if !t.covers px py || t.zs.any nonFinite then none else
  let z := t.depth px py
  if z ≤ oneF32 || z = 0x80000000 then some z else none

/-! ## Quads (R319, R316) -/

/-- The bound targets of a draw: the depth entry first, then the colour entries. -/
def rsTargets (r : BitVec 1024) : List Nat :=
  (if rsDen r then [rsDste r] else []) ++ (List.range (rsNcol r)).map (rsCste r)
/-- The smallest of a dimension over the bound targets, at most `m`. -/
def State.targetMin (s : State) (r : BitVec 1024) (f : Ste → Nat) (m : Nat) : Nat :=
  (rsTargets r).foldl (fun n ix => min n (f (s.ste ix))) m

/-- One quad of a triangle within the bounds. -/
def quadAt (t : Tri) (p : Prim) (samp4 : Bool) (lo hi : Int × Int) (x y : Nat) : Quad :=
  let ss := numbered 0 (sampleSpots samp4)
  let got := (List.range 4).flatMap fun k =>
    let X := x + k % 2
    let Y := y + k / 2
    if (X : Int) < lo.1 || hi.1 ≤ (X : Int) || (Y : Int) < lo.2 || hi.2 ≤ (Y : Int) then [] else
    ss.filterMap fun q => (t.sample (256 * X + q.2.1) (256 * Y + q.2.2)).map fun z => (4 * k + q.1, z)
  { prim := p, ix := 0, x := x, y := y
    cover := got.foldl (fun m g => m ||| BitVec.ofNat 16 (2 ^ g.1)) 0
    depth := got.foldl (fun m g => amapInsert m g.1 (BitVec.ofNat 32 g.2)) [] }

/-- The quads of a primitive in the order of their emission, with their quad indices. -/
def State.quadsOf (s : State) (r : BitVec 1024) (p : Prim) : List Quad :=
  match triOf r p with
  | none => []
  | some t =>
    let mn (l : List Int) : Int := l.foldl min (l.headD 0)
    let mx (l : List Int) : Int := l.foldl max (l.headD 0)
    let lo (l : List Int) (sc : Nat) : Int := max (sc : Int) (mn l / 256)
    let hi (l : List Int) (sc : Nat) : Int := min (sc : Int) (mx l / 256 + 1)
    let x0 := lo t.xs (rsField r 0x10 63 48)
    let y0 := lo t.ys (rsField r 0x10 47 32)
    let x1 := hi t.xs (s.targetMin r Ste.width (rsField r 0x10 31 16))
    let y1 := hi t.ys (s.targetMin r Ste.height (rsField r 0x10 15 0))
    if x1 ≤ x0 || y1 ≤ y0 then [] else
    let tiles (a b : Int) : List Nat := (List.range ((b.toNat - 1) / 32 + 1 - a.toNat / 32)).map (a.toNat / 32 + ·)
    let qs := (tiles y0 y1).flatMap fun ty => (tiles x0 x1).flatMap fun tx =>
      (List.range 16).flatMap fun qy => (List.range 16).filterMap fun qx =>
        let q := quadAt t p (rsSamp4 r) (x0, y0) (x1, y1) (32 * tx + 2 * qx) (32 * ty + 2 * qy)
        if q.cover = 0 then none else some q
    (numbered 0 qs).map fun q => { q.2 with ix := q.1 }

/-- The wings that a space allows, ascending. -/
def State.allowedWings (s : State) (space : Nat) : List Nat :=
  (List.range 16).filter fun w => (s.space space).wing.getLsbD w
/-- The wing that owns the tile of a pixel (R316). -/
def State.tileWing (s : State) (space x y : Nat) : Nat :=
  let l := s.allowedWings space
  l.getD ((x / 32 + 3 * (y / 32)) % max l.length 1) 0

/-! ## Emission (R311 to R315) -/

/-- Change a draw. -/
def State.updDraw (s : State) (la : Nat) (f : Draw → Draw) : State :=
  { s with draws := amapMap (fun k d => if k = la then f d else d) s.draws }
/-- Set a sticky bit of a draw (R323): 0 MESH_OVERFLOW, 1 REGION_OFF, 2 POISON. -/
def State.stick (s : State) (la b : Nat) : State := s.updDraw la fun d => { d with sticky := d.sticky ||| BitVec.ofNat 3 (2 ^ b) }
/-- Count a mesh overflow (R313). -/
def State.meshOver (s : State) (la : Nat) : State := (s.updDraw la fun d => { d with overflow := d.overflow + 1 }).stick la 0

/-- Mesh teams of a draw. -/
def State.meshTeams (s : State) (la : Nat) : Nat :=
  let r := (s.launch la).lr
  r.gx * r.gy * r.gz * r.cw * r.ch
/-- The draw that the emitter of a queue is at (R315): the earliest whose primitives have not all been emitted. -/
def State.emitDraw (s : State) (q : Nat) : Option (Nat × Draw) :=
  (s.draws.filter fun kv => kv.2.queue = q && !kv.2.ended && (s.launch kv.1).status.isNone && kv.2.team < s.meshTeams kv.1).foldl
    (fun b kv => match b with
      | none => some kv
      | some x => if kv.2.number < x.2.number then some kv else b) none

/-- The output of a mesh team whose groups have all exited (R312): the counts of one group's last MSCOUNT stand (R314).
(DEDUCED, log 79; DEDUCED, log 80.) -/
def State.sealMesh (s : State) (t : Nat) : State :=
  let m := (s.team t).mesh
  if m.sealed then s else
  let c := (m.counts.map (·.2)).getD (Config.freeChoice s.free % max m.counts.length 1) (0, 0)
  { s.updTeam t (fun tm => { tm with mesh := { tm.mesh with nv := c.1, np := c.2, sealed := true } }) with free := s.free + 1 }

/-- The words of a vertex. -/
def MeshOut.vertex (m : MeshOut) (attrs v : Nat) : List Word := (List.range (4 + attrs)).map fun k => amapGet 0 m.verts (36 * v + k)

/-- Emit one primitive of a sealed team: skip it, cull and count it, or send it to every allowed wing. (DEDUCED, log 80.) -/
def State.emitPrim (s : State) (t la k n : Nat) : State :=
  let r := (s.launch la).lr.raster
  let m := (s.team t).mesh
  let w := (amapGet 0 m.prims n).toNat
  let vi := [bitField 7 0 w, bitField 15 8 w, bitField 23 16 w]
  if bitField 24 24 w = 1 then s
  else if vi.any fun v => decide (m.nv ≤ v) then
    let s := s.meshOver la
    if rsField r 0x18 41 41 = 1 then s.engineRecord t 34 0 0 0 { cause := .meshOverflow, addr := 512 * k + n } else s
  else
    let v (j : Nat) : List Word := m.vertex (rsAttrs r) (vi.getD j 0)
    let p : Prim := { id := ⟨la, k, n⟩, v0 := v 0, v1 := v 1, v2 := v 2 }
    if (primWindow r p).isNone then s.updDraw la fun d => { d with culled := d.culled + 1 }
    else forEach (s.allowedWings (s.launch la).space) s fun s w => s.updWing w fun wg => { wg with queue := wg.queue ++ [(la, p)] }

/-- PRIMITIVE_EMIT: the emitter of a queue takes the next primitive of the next mesh team in order, or passes to the
team after it. -/
def execPrimitiveEmit (queue : Nat) (s : State) : Out :=
  match s.emitDraw queue with
  | none => .fault .notEnabled
  | some (la, d) =>
    match s.teams.find? fun kv => kv.2.launch = la && kv.2.kind == .mesh && kv.2.number = d.team with
    | none => .fault .notEnabled
    | some (t, tm) =>
      if tm.preempt || tm.groups.any (fun g => !g.2.liveLanes.isEmpty) then .fault .notEnabled else
      let s := s.sealMesh t
      if (s.team t).mesh.np ≤ d.prim then .next (s.updDraw la fun d => { d with team := d.team + 1, prim := 0 })
      else .next ((s.emitPrim t la d.team d.prim).updDraw la fun d => { d with prim := d.prim + 1 })

/-- RASTERISE_PRIMITIVE: the rasteriser of a wing turns its oldest primitive into the quads of the tiles it owns. -/
def execRasterisePrimitive (wing : Nat) (s : State) : Out :=
  match (s.wing wing).queue, (s.wing wing).quads with
  | (la, p) :: rest, [] =>
    let qs := (s.quadsOf (s.launch la).lr.raster p).filter fun q => s.tileWing (s.launch la).space q.x q.y = wing
    .next (s.updWing wing fun w => { w with queue := rest, quads := qs.map fun q => (la, q) })
  | _, _ => .fault .notEnabled

/-! ## At the bank raster units (R320, R321) -/

/-- The order of retirement within a queue: draw, team, primitive, quad index. -/
def State.seqKey (s : State) (p : PrimId) (ix : Nat) : List Nat := [(amapGet { launch := 0, queue := 0, number := 0 } s.draws p.draw).number, p.team, p.prim, ix]
/-- Lexicographic order. -/
def keyLt : List Nat → List Nat → Bool
  | x :: xs, y :: ys => decide (x < y) || (x == y && keyLt xs ys)
  | _, _ => false
/-- Two draws belong to one queue. -/
def State.sameQueue (s : State) (a b : Nat) : Bool := (s.launch a).queue == (s.launch b).queue

/-- No other wing has still to send a token of the same queue that is lower in that order. (DEDUCED, log 81.) -/
def State.tokenTurn (s : State) (wing la : Nat) (q : Quad) : Bool :=
  let k := s.seqKey q.prim.id q.ix
  s.wings.all fun kv => kv.1 = wing ||
    (kv.2.queue.all (fun x => !s.sameQueue x.1 la || keyLt (k.take 3) (s.seqKey x.2.id 0 |>.take 3)) &&
     kv.2.quads.all fun x => !s.sameQueue x.1 la || !keyLt (s.seqKey x.2.prim.id x.2.ix) k)

/-- The places of a quad in its targets: (entry, offset of its first pixel's sample). (DEDUCED, log 81.) -/
def State.quadSpots (s : State) (r : BitVec 1024) (q : Quad) : List (Nat × Nat) :=
  (rsTargets r).flatMap fun ix => (List.range (if rsSamp4 r then 4 else 1)).map fun j => (ix, (s.ste ix).pixel q.x q.y 0 j)

/-- The bank that holds a byte of an entry, and the byte in it, while its frame is in the region. -/
def State.spotPlace (s : State) (ix o : Nat) : Option (Nat × Nat) :=
  let e := s.ste ix
  let r := s.region e.regionIx
  let fk := e.frameOf (r.stack % 2) o
  (amapFind? e.frames fk.1).map fun f => r.place (f.region * 16384 + fk.2)

/-- The bank raster unit of each sample of each colour target, by `4 * target + sample`. (DEDUCED, log 81.) -/
def State.quadHomes (s : State) (r : BitVec 1024) (q : Quad) : AMap Nat :=
  (List.range (rsNcol r)).foldl (fun m t => (List.range (if rsSamp4 r then 4 else 1)).foldl (fun m j =>
    match s.spotPlace (rsCste r t) ((s.ste (rsCste r t)).pixel q.x q.y 0 j) with
    | some p => amapInsert m (4 * t + j) p.1
    | none => m) m) []

/-- Reach every place: whether some frame or domain must be waited for, whether the quad is to be discarded, and whether a
domain is OFF. `taken`: the quad was accepted while the entries were valid (R49). -/
def State.reachSpots (s : State) (spots : List (Nat × Nat)) (taken : Bool) : (Bool × Bool × Bool) × State :=
  spots.foldl (fun (acc : (Bool × Bool × Bool) × State) x =>
    match acc.2.reach x.1 x.2 taken 0 with
    | (.wait, s) => ((true, acc.1.2.1, acc.1.2.2), s)
    | (.trap t, s) => ((acc.1.1, true, acc.1.2.2 || t.cause == .regionOff), s)
    | (.go _ _ _, s) => (acc.1, s)) ((false, false, false), s)

/-- The compare functions of Table 17-2 on a sign of a difference; `ord` is false where a NaN takes part. -/
def rasterCmp (f : Nat) (ord : Bool) (c : Int) : Bool :=
  match f with
  | 0 => false
  | 1 => ord && decide (c < 0)
  | 2 => ord && c == 0
  | 3 => ord && decide (c ≤ 0)
  | 4 => ord && decide (0 < c)
  | 5 => ord && c != 0
  | 6 => ord && decide (0 ≤ c)
  | _ => true
/-- The stencil operations of Table 17-2. -/
def stencilOp (op ref v : Nat) : Nat :=
  match op with
  | 0 => v
  | 1 => 0
  | 2 => ref
  | 3 => min 255 (v + 1)
  | 4 => v - 1
  | 5 => 255 - v
  | 6 => (v + 1) % 256
  | _ => (v + 255) % 256

/-- The tests of R321 at one sample: what passes, and the pixel bytes after it. `x` is the stored pixel. -/
def sampleTest (r : BitVec 1024) (stencil : Bool) (zfrag x : Nat) : Bool × Nat :=
  let f (hi lo : Nat) : Nat := rsField r 0x18 hi lo
  let zst := x % 2 ^ 32
  let st := x / 2 ^ 32 % 256
  let a := fp32.decode zfrag
  let b := fp32.decode zst
  let sOK := !stencil || rasterCmp (f 39 37) true (((f 27 20 &&& f 19 12 : Nat) : Int) - (st &&& f 19 12 : Nat))
  let zOK := rasterCmp (f 50 48) (!a.isNan && !b.isNan) (cmpV a b)
  let op := if !sOK then f 36 34 else if !zOK then f 33 31 else f 30 28
  let m := f 11 4
  let st' := if stencil then (st &&& (255 - m)) ||| (stencilOp op (f 27 20) st &&& m) else st
  let z' := if sOK && zOK && f 47 47 = 1 then zfrag else zst
  (sOK && zOK, z' + 2 ^ 32 * st')

/-- The pixel and sample of a coverage bit. -/
def bitPixel (q : Quad) (b : Nat) : Nat × Nat × Nat := (q.x + b / 4 % 2, q.y + b / 4 / 2, b % 4)

/-- Test the samples of `mask` and write depth and stencil: the pass mask. A poisoned word stays as it is and its samples
do not pass (R61). (DEDUCED, log 82.) -/
def State.zTest (s : State) (la : Nat) (r : BitVec 1024) (q : Quad) (mask : BitVec 16) (z : Nat → Nat) : BitVec 16 × State :=
  let ix := rsDste r
  (List.range 16).foldl (fun (acc : BitVec 16 × State) b =>
    if !mask.getLsbD b then acc else
    let s := acc.2
    let e := s.ste ix
    let p := bitPixel q b
    let o := e.pixel p.1 p.2.1 0 p.2.2
    match s.spotPlace ix o with
    | none => acc
    | some (bank, byte) =>
      let d := s.bankRead e o bank byte e.bpp
      if d.2 then (acc.1, s.stick la 2) else
      let t := sampleTest r (rsSen r) (z b) d.1
      (if t.1 then acc.1 ||| BitVec.ofNat 16 (2 ^ b) else acc.1,
       { s.bankWrite e o bank byte e.bpp t.2 with bankLast := amapInsert s.bankLast bank 0 })) (0, s)

/-- The tests of a draw are made when its tokens arrive (ZMODE = 0 with a depth target). -/
def rsEarly (r : BitVec 1024) : Bool := rsDen r && rsField r 0x18 46 46 != 1

/-- A wing's next token goes to its units, one slot at each, and under ZMODE = 0 the depth target's unit tests it: none
where a unit's slots are all reserved. -/
def State.tokenGo (s : State) (wing la : Nat) (q : Quad) (rest : List (Nat × Quad)) : Option State :=
  let r := (s.launch la).lr.raster
  let spots := s.quadSpots r q
  match s.reachSpots spots false with
  | ((true, _, _), s) => some s
  | ((false, dead, off), s) =>
    let banks := ((spots.filterMap fun x => s.spotPlace x.1 x.2).map (·.1)).eraseDups
    if banks.any fun b => decide (32 ≤ (amapGet [] s.slots b).length) then none else
    let t := if !dead && rsEarly r then s.zTest la r q q.cover (fun b => (amapGet 0 q.depth b).toNat) else (q.cover, s)
    let s := if off then t.2.stick la 1 else t.2
    let empty := dead || t.1 = 0
    let f : Flight :=
      { quad := q, launch := la, wing := wing, banks := banks, tester := banks.headD 0
        pass := if rsDen r && !rsEarly r then none else some t.1, empty := empty
        homes := s.quadHomes r q }
    let id := s.uid
    let s := s.updWing wing fun w => { w with quads := rest }
    if empty && banks.isEmpty then some s else
    some { s with
      uid := id + 1
      flights := amapInsert s.flights id f
      slots := banks.foldl (fun m b => amapInsert m b (amapGet [] m b ++ [id])) s.slots }

/-- A raster unit's work needs its bank: it asks for it as class F where the bank is not idle, once (R53). The answer is
whether it may act now. -/
def State.rasterAsk (s : State) (bank src : Nat) (job : BankJob) : Bool × Option State :=
  if s.bankIdle bank then (true, none)
  else if s.bankReqs.any fun x => x.bank = bank && x.job = job then (false, none)
  else (false, some (s.bankAsk { bank := bank, cls := 0, src := src, read := false, job := job }))

/-- The bank whose unit is to test a token. -/
def State.testBank (s : State) (la : Nat) (q : Quad) : Option Nat :=
  let r := (s.launch la).lr.raster
  if !rsEarly r then none else ((s.quadSpots r q).head?.bind fun x => s.spotPlace x.1 x.2).map (·.1)

/-- COVERAGE_TOKEN: the rasteriser sends its next quad to the bank raster units of its targets, one slot at each (R320).
Under ZMODE = 0 the depth target's unit tests it when its bank is free for it. (DEDUCED, log 82.) -/
def execCoverageToken (wing : Nat) (s : State) : Out :=
  match (s.wing wing).quads with
  | [] => .fault .notEnabled
  | (la, q) :: rest =>
    if !s.tokenTurn wing la q then .fault .notEnabled else
    let go : Out := match s.tokenGo wing la q rest with
      | some s => .next s
      | none => .fault .notEnabled
    match s.testBank la q with
    | none => if s.ratioTo.isSome then .fault .notEnabled else go
    | some b => match s.rasterAsk b wing (.token wing) with
      | (true, _) => go
      | (false, some s) => .next s
      | (false, none) => .fault .notEnabled

/-- The exports of a quad's lanes, once all four have exited. -/
def State.flightExports (s : State) (f : Flight) : Option (List Export) :=
  match f.exports with
  | some e => some e
  | none => match f.shader with
    | some (t, k) => if s.quadExited t k then some (s.quadExports t k) else none
    | none => none

/-- Store one exported colour at a sample (R322): blended, converted, the enabled channels only. The spans written whole
are added to `acc`. -/
def State.colourStore (s : State) (la : Nat) (r : BitVec 1024) (t : Nat) (px : Nat × Nat × Nat) (col : List Word) (acc : List (Nat × Nat)) :
    List (Nat × Nat) × State :=
  let ix := rsCste r t
  let e := s.ste ix
  let o := e.pixel px.1 px.2.1 0 px.2.2
  match s.spotPlace ix o with
  | none => (acc, s)
  | some (bank, byte) =>
    let w := rsTarget r t 63 0
    let old := s.bankRead e o bank byte e.bpp
    let blend := bitField 59 59 w = 1
    if blend && old.2 then (acc, s.stick la 2) else
    let src := col.map (·.toNat)
    let out := if blend then blendPixel w src (pixelLoad e.fmt old.1) else src
    let mask (k : Nat) : Bool := bitField (63 - k) (63 - k) w = 1
    let s := s.bankWrite e o bank byte e.bpp (pixelStore e.fmt old.1 mask out)
    let s := { s with bankLast := amapInsert s.bankLast bank 0 }
    (if (List.range (chansOf e.fmt).length).all mask then acc ++ [(2 ^ 20 * bank + byte, e.bpp)] else acc, s)

/-- Store what a quad's lanes exported, in the targets whose slots a bank raster unit holds. -/
def State.retireColours (s : State) (la : Nat) (r : BitVec 1024) (f : Flight) (bru : Nat) (pass : BitVec 16) (ex : List Export) : State :=
  let x := (List.range (rsNcol r)).foldl (fun (acc : List (Nat × Nat) × State) t =>
    (List.range 16).foldl (fun (acc : List (Nat × Nat) × State) b =>
      let e := ex.getD (b / 4) {}
      if !pass.getLsbD b || e.killed || amapFind? f.homes (4 * t + b % 4) ≠ some bru then acc else
      match amapFind? e.colour t with
      | some col => acc.2.colourStore la r t (bitPixel f.quad b) col acc.1
      | none => acc) acc) ([], s)
  x.2.sdieMark false (coveredUnits 32 x.1)

/-- A slot is retired: the unit forgets it, and the quad once its last unit has. -/
def State.popSlot (s : State) (bru id : Nat) (f : Flight) : State :=
  let banks := f.banks.filter (· ≠ bru)
  let f := { f with banks := banks }
  { s with
    slots := amapInsert s.slots bru ((amapGet [] s.slots bru).filter (· ≠ id))
    flights := if banks.isEmpty then amapErase s.flights id else amapInsert s.flights id f }

/-- The oldest slot of a unit, where it may retire: its fragments have been exported, and the pass mask is there or the unit
makes the tests itself. -/
def State.retireHead (s : State) (bru : Nat) : Option (Nat × Flight) :=
  match amapGet [] s.slots bru with
  | [] => none
  | id :: _ => match amapFind? s.flights id with
    | none => none
    | some f => if f.empty || ((s.flightExports f).isSome && (f.pass.isSome || f.tester == bru)) then some (id, f) else none

/-- Retire a slot: its stores, after the tests under ZMODE = 1. -/
def State.retireGo (s : State) (bru id : Nat) (f : Flight) : State :=
  if f.empty then s.popSlot bru id f else
  let ex := (s.flightExports f).getD []
  let la := f.launch
  let r := (s.launch la).lr.raster
  match s.reachSpots (s.quadSpots r f.quad) true with
  | ((true, _, _), s) => s
  | ((false, true, off), s) => (if off then s.stick la 1 else s).popSlot bru id { f with exports := some ex, empty := true }
  | ((false, false, _), s) =>
    let live := (List.range 16).foldl (fun (m : BitVec 16) b =>
      if (ex.getD (b / 4) {}).killed then m &&& ~~~ BitVec.ofNat 16 (2 ^ b) else m) f.quad.cover
    let t := match f.pass with
      | some m => (m, s)
      | none => s.zTest la r f.quad live fun b => match (ex.getD (b / 4) {}).z with
          | some z => z.toNat
          | none => (amapGet 0 f.quad.depth b).toNat
    (t.2.retireColours la r f bru t.1 ex).popSlot bru id { f with exports := some ex, pass := some t.1 }

/-- QUAD_RETIRE: a bank raster unit retires its oldest slot (R320) when its bank is free for it. -/
def execQuadRetire (bru : Nat) (s : State) : Out :=
  match s.retireHead bru with
  | none => .fault .notEnabled
  | some (id, f) =>
    if f.empty then .next (s.popSlot bru id f) else
    match s.rasterAsk bru f.wing .retire with
    | (true, _) => .next (s.retireGo bru id f)
    | (false, some s) => .next s
    | (false, none) => .fault .notEnabled

/-! ## Fragment groups (R324) -/

/-- Quads of a wing that wait to be shaded, oldest first. -/
def State.unshaded (s : State) (wing : Nat) : List (Nat × Flight) :=
  s.flights.filter fun kv => kv.2.wing = wing && kv.2.shader.isNone && !kv.2.empty && kv.2.exports.isNone

/-- A block of the private window for a new fragment group of a launch: one that no other holds. (DESIGN CHOICE, log 44.) -/
def State.fragmentSlot (s : State) (la : Nat) : Nat :=
  let used := (s.teams ++ s.saved.flatMap (·.2.teams)).filterMap fun kv =>
    if kv.2.launch = la && kv.2.kind == .fragment then some kv.2.slot else none
  freeId used 0 (used.length + 1) 0

/-- FRAGMENT_GROUP_LAUNCH: a team of one group on a core of the wing shades up to eight quads of one draw. How many of those
that wait is not stated. (DESIGN CHOICE, log 83.) -/
def execFragmentGroupLaunch (wing core quarter : Nat) (s : State) : Out :=
  match s.unshaded wing with
  | [] => .fault .notEnabled
  | (_, f0) :: _ =>
    let la := f0.launch
    let l := s.launch la
    let r := l.lr
    let regs := 8 * (rsField r.raster 0x20 43 39 + 1)
    let ts := s.coreTeams core []
    if coreWing core ≠ wing || 192 ≤ core || 4 ≤ quarter || l.status.isSome || l.complete || (s.space l.space).dumped ||
       s.quarterRoom ts regs quarter = 0 || !s.coreFits core [] { groups := 1, regs := regs } || !s.wingHolds wing l.lease
    then .fault .notEnabled
    else
      let all := ((s.unshaded wing).filter fun kv => kv.2.launch = la).take 8
      let fs := all.take (Config.freeChoice s.free % all.length + 1)
      let slot := s.fragmentSlot la
      let s := (s.wingLease wing l.lease).zeroBlocks la core (l.teamSlots * r.groups + slot) 1
      let s := if l.ordered then s.acquireDone core true else s
      let cid := s.uid
      let t := cid + 1
      let th : Thread := { pc := (r.code + rsField r.raster 0x20 63 44) % 2 ^ 64, fpm := r.startFpm }
      let g : Group :=
        { quarter := quarter, slot := slotFree ts [] quarter
          s := (numbered 0 r.args).foldl (fun m x => amapSet 0 m x.1 x.2) []
          threads := (List.range (4 * fs.length)).map fun k => (k, th)
          readyAt := s.cclk }
      let tm : Team :=
        { kind := .fragment, launch := la, cluster := cid, core := core, slot := slot, groups := [(0, g)]
          frag := some { flights := fs.map (·.1) } }
      let cl : Cluster := { launch := la, wing := wing, col := coreCol core % 3, row := coreRow core % 4, teams := [t] }
      let s := { s with
        free := s.free + 1
        uid := t + 1
        teams := amapInsert s.teams t tm
        clusters := amapInsert s.clusters cid cl
        later := s.later ++ [Due.ins (.teamEnd t)]
        flights := (numbered 0 fs).foldl (fun (m : AMap Flight) (x : Nat × Nat × Flight) =>
          amapInsert m x.2.1 { x.2.2 with shader := some (t, x.1) }) s.flights }
      .next (s.updLaunch la fun x => { x with cores := (x.cores ++ [core]).eraseDups })

end Sys2Proof.Machine
end

