-- ==== Sys2Proof/Machine/Bank.lean ====
section
/-! DEFINITION. The arbiter of a bank (03_surface_memory, R40, R53), and the end of a surface's release (R49). -/

namespace Sys2Proof.Machine

/-- The requests that a bank may grant (R40): in the column's FIFO of 64 entries, not held by a ratio change, first of their
requester at the bank, and no read while the column's response FIFO is full. (DESIGN CHOICE, log 75.) -/
def State.bankCands (s : State) (bank : Nat) : List BankReq :=
  let col := bankColumn bank
  let full := decide (64 ≤ (s.respsOf col).length)
  let mine := ((s.bankReqs.filter fun x => bankColumn x.bank = col).take 64).filter fun x => x.bank = bank
  mine.filter fun x => !x.held && !(x.read && full) && mine.find? (fun y => y.cls = x.cls && y.src = x.src) == some x

/-- The request that the arbiter grants: classes in rotating order F, M, V, C from the one after the last granted, the oldest
of the class. (DESIGN CHOICE, log 1; DESIGN CHOICE, log 75.) -/
def State.bankPick (s : State) (bank : Nat) : Option BankReq :=
  let last := amapGet 3 s.bankLast bank
  let cs := s.bankCands bank
  (List.range 4).findSome? fun k => cs.find? fun x => x.cls = (last + 1 + k) % 4

/-- A read has been granted: its response is on its way to the result, or the engine's access, that takes it.
(DESIGN CHOICE, log 75.) -/
def State.respond (s : State) (col : Nat) (a : Access) (id pend : Nat) : State :=
  if !a.op.reads then s else
  let x := (col, if a.engine then id else pend)
  { s with resps := (s.resps.filter fun y => y.2 == pressResp || (amapFind? s.pends y.2).isSome || (amapFind? s.accs y.2).isSome) ++ [x] }

/-- Perform an access that has been granted; one whose frame or domain must be waited for goes back to waiting. -/
def State.grantAcc (s : State) (bank id : Nat) (a : Access) : State :=
  match s.reach (surfIx a.va) (surfOff a.va) true a.va with
  | (.wait, s) => { s with accs := amapInsert s.accs id { a with snoops := [surfWait] } }
  | (.trap t, s) => s.failAcc id a t
  | (.go bk byte addr, s) =>
    if bk ≠ bank then s.bankAskAcc bk id a else
    let a := a.seen (s.bankRead (s.ste (surfIx a.va)) (surfOff a.va) bk byte a.n).2
    let pend := s.uid
    let r := s.bankDo a bk byte addr
    (r.2.settle id a r.1).respond (bankColumn bank) a id pend

/-- Serve a granted request. -/
def State.grantDo (s : State) (x : BankReq) : State :=
  let s := { s with bankLast := amapInsert s.bankLast x.bank x.cls }
  match x.job with
  | .acc id => (match amapFind? s.accs id with
    | none => s
    | some a => s.grantAcc x.bank id a)
  | .press _ _ _ => if !x.read then s else
    { s with resps := s.resps.filter (fun y => !(y.1 == bankColumn x.bank && y.2 == pressResp)) ++ [(bankColumn x.bank, pressResp)] }
  | .retire => (match s.retireHead x.bank with
    | none => s
    | some (id, f) => s.retireGo x.bank id f)
  | .token w => match (s.wing w).quads with
    | [] => s
    | (la, q) :: rest => if s.tokenTurn w la q then (s.tokenGo w la q rest).getD s else s

/-- BANK_GRANT: in one SCLK the bank grants one request (R53). A domain in RETENTION is woken first (R55).
(DESIGN CHOICE, log 75.) -/
def execBankGrant (stack column bank : Nat) (s : State) : Out :=
  let b := 2048 * stack + 32 * column + bank
  match s.bankPick b with
  | none => .fault .notEnabled
  | some x =>
    let d := bankDomain b
    if s.domain d = .retention then
      let w : Due := .domainWake (d / 16) (d % 16)
      .next { s with later := s.later ++ (if s.later.contains w then [] else [w]) ++ [.bankGrant stack column bank] }
    else .next ({ s with bankReqs := s.bankReqs.erase x }.grantDo x)

/-! ## The end of a release (R49) -/

/-- A copy moves data from or to an entry. -/
def Copy.uses (c : Copy) (ix : Nat) : Bool :=
  [c.src0, c.dst0].any fun p => ptrTag p == 1 && surfIx p == ix

/-- Accepted accesses and press work on an entry are not complete. (DEDUCED, log 123.) -/
def State.steBusy (s : State) (ix : Nat) : Bool :=
  s.accs.any (fun kv => kv.2.va / 2 ^ 60 == 1 && surfIx kv.2.va == ix) || s.copies.any (fun kv => kv.2.uses ix) ||
  s.flights.any (fun kv => (rsTargets (s.launch kv.2.launch).lr.raster).contains ix) ||
  (s.ste ix).frames.any fun f => match f.2.state with
    | .spilling _ | .filling => true
    | _ => false

/-- SURFACE_RELEASE_COMPLETE: accepted accesses and press work have completed; the frames are free (R49). -/
def execSurfaceReleaseComplete (ix : Nat) (s : State) : Out :=
  let e := s.ste ix
  if e.state ≠ .releasing || s.steBusy ix then .fault .notEnabled
  else
    let s := s.updSte ix fun e => { e with state := .inactive, frames := [] }
    let r := s.region e.regionIx
    let s := if r.checker then (s.takeReserve e.regionIx 0).takeReserve e.regionIx 1 else s.takeReserve e.regionIx (r.stack % 2)
    .next (s.steEnded ix)

end Sys2Proof.Machine
end

