-- ==== Sys2Proof/Machine/Code.lean ====
section
/-! DEFINITION. Reading code (R149): the instruction cache of a core and the 32 B fetch blocks behind it. -/

namespace Sys2Proof.Machine

/-- A fetch block that the core's instruction cache holds for a launch. -/
def State.icacheAt (s : State) (core la va : Nat) : Option (BitVec 256) :=
  ((s.core core).icache.find? fun x => x.1 = la && x.2.1 = va / 32).map fun x => x.2.2
/-- Put a block into a core's instruction cache. -/
def State.icachePut (s : State) (core la va : Nat) (b : BitVec 256) : State :=
  s.updCore core fun k => { k with icache := (la, va / 32, b) :: k.icache.filter fun x => !(x.1 = la && x.2.1 = va / 32) }

/-- Read the 32 B block that holds `va` through a TLB, for the core and launch of a team. An answer is taken at once. -/
def State.blockRead (s : State) (t va : Nat) (tlb : TlbKind) (kind : AccKind) : URes × State :=
  let w : Work := .code (s.team t).core (s.team t).launch (tlb == .ctlb)
  match s.unitRead w t va 32 32 tlb kind with
  | (.wait, s) => (.wait, s)
  | (r, s) => (r, s.unitTake w va 1)

/-- Read the block that holds `va` through the ITLB (check 1 of Table 09-17). -/
def State.codeRead (s : State) (t va : Nat) : URes × State := s.blockRead t va .itlb .fetch

/-- The bits of a block from an address on. -/
def blockFrom (b : BitVec 256) (va : Nat) : Nat := b.toNat / 2 ^ (8 * (va % 32))

/-- The end of the sequence of translated code that a PC is in. -/
def State.seqEnd (s : State) (t pc : Nat) : Option Nat :=
  (s.blockAt (s.team t).launch pc).bind fun x => (x.1.seqAt x.2).map fun q => q.2.1 - x.2

/-- RESUME.SKIP needs the word at a PC: its block is fetched where the core does not hold it. Whether it need no longer be waited
for. (DESIGN CHOICE, log 33.) -/
def State.skipFetch (s : State) (t pc : Nat) : Bool × State :=
  let tm := s.team t
  if (s.seqEnd t pc).isSome || (s.icacheAt tm.core tm.launch pc).isSome then (true, s) else
  match s.codeRead t pc with
  | (.ok b _, s) => (true, s.icachePut tm.core tm.launch pc (BitVec.ofNat 256 b))
  | (.wait, s) => (false, s)
  | (_, s) => (true, s)

/-- The length by which RESUME.SKIP passes the word at a PC: by LEN, and 8 when LEN = 11 (R356). Where the word cannot be
read its length is not stated. A sequence of translated code is passed whole. (DESIGN CHOICE, log 33.) -/
def State.skipLen (s : State) (t pc : Nat) : Nat × State :=
  match s.seqEnd t pc with
  | some n => (n, s)
  | none => match s.icacheAt (s.team t).core (s.team t).launch pc with
    | some b => ((match Len.ofCode (blockFrom b pc % 4) with
      | some n => n.bytes
      | none => 8), s)
    | none => (8 + 4 * (Config.freeChoice s.free % 3), { s with free := s.free + 1 })

end Sys2Proof.Machine
end

