-- ==== Sys2Proof/Machine/Debug.lean ====
section
/-! DEFINITION. The debugger's requests, PC samples and causal trials (21_debug, R364 to R373; R383). -/

namespace Sys2Proof.Machine

/-! ## The teams that a request names (Table 21-1) -/

/-- A team is one of a core and of a launch of the space, by its ticket, or of any with ticket 0. (DESIGN CHOICE, log 36.) -/
def State.dbgNames (s : State) (space ticket core : Nat) (tm : Team) : Bool :=
  let la := s.launch tm.launch
  tm.kind != .porter && tm.core == core && la.space == space && (ticket == 0 || la.ticket == ticket)
/-- Resident teams that a request names. (DESIGN CHOICE, log 36.) -/
def State.dbgTeams (s : State) (space ticket core : Nat) : List Nat :=
  (s.teams.filter fun kv => s.dbgNames space ticket core kv.2).map (·.1)
/-- A debugger is attached to a space; without one, requests other than PREEMPT are ignored (R364). -/
def State.dbgOn (s : State) (space : Nat) : Bool := (s.space space).dbg.getLsbD 63

/-- DBGREQ STOP: each named team stops, with cause code 0 and no thread in its report (R365). -/
def execDbgreqStop (space ticket core : Nat) (s : State) : Out :=
  if !s.boot.ready then .next s else
  if !s.dbgOn space then .next s else
  .next (forEach (s.dbgTeams space ticket core) s fun s t =>
    if (s.team t).stop.isSome then s else
    s.teamStop t 0 (((s.team t).groups.head?.map (·.1)).getD 0) [])

/-- DBGREQ RESUME: each named team goes on, a cluster that a debugger pre-empted and that holds a named team may be placed
again, with all its teams, saved and resident, going on; with TICKET 0 so may everything of a space that was dumped
(R366, R373, R383). (DEDUCED, log 37.) -/
def execDbgreqResume (space ticket core : Nat) (s : State) : Out :=
  if !s.boot.ready then .next s else
  if !s.dbgOn space then .next s else
  let named := s.dbgTeams space ticket core
  let lift := ticket == 0 && (s.space space).dumped && !(s.space space).dbg.getLsbD 58
  let freed (k : Nat) (c : Cluster) : Bool := c.byDbg && (named.any (fun t => (s.team t).cluster == k) ||
    (amapFind? s.saved k).any fun v => v.teams.any fun kv => s.dbgNames space ticket core kv.2)
  let free (k : Nat) (c : Cluster) : Cluster := if freed k c then { c with byDbg := false } else c
  let back (kv : Nat × Team) : Bool := named.contains kv.1 || freed kv.2.cluster (s.cluster kv.2.cluster)
  let goes (k : Nat) (v : Saved) : Bool := freed k v.cluster || freed k (s.cluster k) ||
    (lift && !v.cluster.byDbg && (s.launch v.cluster.launch).space == space)
  let on (f : Nat × Team → Bool) (ts : AMap Team) : AMap Team := amapMap (fun t tm => if f (t, tm) then { tm with stop := none } else tm) ts
  let s := { s with
    teams := on back s.teams
    clusters := amapMap free s.clusters
    saved := amapMap (fun k v => if goes k v then { v with cluster := { v.cluster with byDbg := false }, teams := on (fun _ => true) v.teams }
                                 else { v with teams := on (fun kv => s.dbgNames space ticket core kv.2) v.teams }) s.saved }
  let s := if lift then s.updSpace space fun sp => { sp with dumped := false } else s
  .next (forEach (amapKeys s.queues) s fun s q => s.markNext q)

/-- DBGREQ STEP: the group that caused the stop issues one instruction, after which its team stops again (R366). -/
def execDbgreqStep (space ticket core : Nat) (s : State) : Out :=
  if !s.boot.ready then .next s else
  if !s.dbgOn space then .next s else
  .next (forEach (s.dbgTeams space ticket core) s fun s t =>
    s.updTeam t fun tm => { tm with stop := tm.stop.map fun x => { x with stepping := true } })

/-- DBGREQ PREEMPT: every live team of a named team's cluster is saved; it is placed again after a RESUME (R383). A cluster
already on its way into its save waits for the RESUME too, and one that is being restored is saved once its last team is back. A
cluster whose save does not fit its pool is not pre-empted (R360). (DEDUCED, log 37.) -/
def execDbgreqPreempt (space ticket core : Nat) (s : State) : Out :=
  if !s.boot.ready then .next s else
  let cs := ((s.dbgTeams space ticket core).map fun t => (s.team t).cluster).eraseDups
  .next (forEach cs s fun s cid =>
    let ts := s.residents cid
    let mark (s : State) : State := s.updCluster cid fun k => { k with byDbg := true }
    if s.stopping (ts.headD 0) then s
    else if ts.any (fun t => (s.team t).preempt) then mark s
    else if s.poolFits space ts then mark (s.preemptClusters [cid]) else s)

/-! ## Dumps (R373) -/

/-- A draw of the space is in flight. -/
def State.drawsOut (s : State) (space : Nat) : Bool :=
  s.launches.any fun kv => kv.2.space == space && kv.2.lr.kind && decide (0 < kv.2.next) && !kv.2.complete
/-- A team of the space is on its way out. -/
def State.spaceDraining (s : State) (space : Nat) : Bool := s.draining.any fun t => s.spaceOf t = space

/-- Capture one resident frame: its tiles go to the backing range as in a spill; it stays resident. A tile whose
translation fails is not captured. The answer tells that every write has been performed. (DESIGN CHOICE, log 38.) -/
def State.captureFrame (s : State) (ix frame : Nat) (f : Frame) : Bool × State :=
  let e := s.ste ix
  let r := s.region e.regionIx
  (e.frameTiles (r.stack % 2) frame).foldl (fun (x : Bool × State) jt =>
    let d := x.2.tileBytesAt r (f.region * 16384 + jt.1 * e.tileBytes) e.tileBytes
    let y := x.2.spillTile ix frame e jt.2 d.1 d.2 e.compress
    (x.1 && y.1 != .wait, y.2)) (true, s)

/-- The resident frames of the ACTIVE surfaces of a space that have a backing range. (DESIGN CHOICE, log 38.) -/
def State.captured (s : State) (space : Nat) : List (Nat × Nat × Frame) :=
  (s.stes.filter fun kv => kv.2.state == .active && decide (kv.2.backing ≠ 0) && kv.2.owner == space).flatMap fun kv =>
    (kv.2.frames.filter fun x => x.2.state == .resident).map fun x => (kv.1, x.1, x.2)
/-- Capture them; none while writes of the press are still to be waited for. (DESIGN CHOICE, log 38.) -/
def State.capture (s : State) (space : Nat) : Bool × State :=
  let l := s.captured space
  let r := l.foldl (fun (x : Bool × State) y =>
    let z := x.2.captureFrame y.1 y.2.1 y.2.2
    (x.1 && z.1, z.2)) (true, s)
  (r.1, if r.1 then forEach l r.2 fun s y => s.pressDone y.1 y.2.1 else r.2)

/-- The dump takes its teams: each cluster is pre-empted, or stopped where its save has no room. -/
def State.dumpTeams (s : State) (space : Nat) : State :=
  let cs := ((s.teams.filter fun kv => kv.2.kind != .porter && s.spaceOf kv.1 == space).map (·.2.cluster)).eraseDups
  forEach cs (s.updSpace space fun sp => { sp with dumped := true }) fun s cid =>
    let ts := (s.residents cid).filter fun t => !(s.team t).preempt
    if s.poolFits space ts then s.preemptClusters [cid]
    else forEach ts s fun s t =>
      if (s.team t).stop.isSome then s else s.teamStop t 0 (((s.team t).groups.head?.map (·.1)).getD 0) []

/-- A dump in progress can go on: its draws have retired and no team of it is still being restored, so that step 3 pre-empts
every team; then the pre-empted ones have been saved. The press's reads are held while a ratio change is under way (R40).
(DESIGN CHOICE, log 38.) -/
def State.dumpReady (s : State) (space : Nat) : Bool :=
  let sp := s.space space
  let back := s.teams.any fun kv => s.spaceOf kv.1 == space && kv.2.restore
  sp.dbg.getLsbD 58 && (if sp.dumped then !s.spaceDraining space && s.ratioTo.isNone else !s.drawsOut space && !back)

/-- The next part of a dump is due. -/
def State.dumpDue (s : State) (space core : Nat) : State :=
  if s.later.contains (.dbgreqDump space 0 core) then s else { s with later := s.later ++ [.dbgreqDump space 0 core] }

/-- DBGREQ DUMP: the request sets BUSY; each further step does the next part once what it waits for is over. The core
and any other ticket mean nothing. (DEDUCED, log 37.) -/
def execDbgreqDump (space ticket core : Nat) (s : State) : Out :=
  if !s.boot.ready then .next s else
  if !s.dbgOn space || ticket ≠ 0 then .next s
  else if !(s.space space).dbg.getLsbD 58 then
    .next ((s.updSpace space fun sp => { sp with dbg := sp.dbg ||| BitVec.ofNat 64 (2 ^ 58), dumped := false }).dumpDue space core)
  else if !s.dumpReady space then .next (s.dumpDue space core)
  else if !(s.space space).dumped then .next ((s.dumpTeams space).dumpDue space core)
  else match s.capture space with
    | (false, s) => .next (s.dumpDue space core)
    | (true, s) => .next (s.updSpace space fun sp => { sp with dbg := sp.dbg &&& ~~~ BitVec.ofNat 64 (2 ^ 58) })

/-! ## PC samples (R371) -/

/-- The group bound to a context of a quarter. -/
def State.ctxGroup (s : State) (core quarter ctx : Nat) : Option (Nat × Nat) :=
  (s.coreTeams core []).findSome? fun kv => kv.2.groups.findSome? fun g =>
    if g.2.quarter = quarter && g.2.run.any (fun r => r.ctx = ctx) then some (kv.1, g.1) else none

/-- The longest-ready unbound group of a space in a quarter. -/
def State.readiest (s : State) (core quarter space : Nat) : Option (Nat × Nat) :=
  let gs := (s.bindable core quarter).filter fun x => s.spaceOf x.1 = space
  gs.foldl (fun (b : Option (Nat × Nat)) x => match b with
    | none => some x
    | some y => if (s.group x.1 x.2).readyAt < (s.group y.1 y.2).readyAt then some x else some y) none

/-- A group in debt issues only instructions inside the trial range (R372). -/
def State.trialHeld (s : State) (t g pc : Nat) : Bool := s.trialOn t && decide (0 < (s.group t g).debt) && !s.trialIn t pc

/-- STALL of a bound group that the part would find now (Table 21-2): an access that may still fail is in flight, or cannot
enter the full walker queue; its block is absent; a trial withholds it; else what its last slot met. (DEDUCED, log 39.) -/
def State.stallOf (s : State) (t g pc : Nat) : Nat :=
  let gr := s.group t g
  let core := (s.team t).core
  if s.accHeld t g ((gr.run.map (·.lanes)).getD []) then
    if decide (walkRoom ≤ (s.wing (coreWing core)).walking.length) && s.accs.any (fun kv => match kv.2.who with
        | .thread t' g' _ => t' == t && g' == g && kv.2.snoops.contains walkWait
        | _ => false) then 7 else 3
  else if (s.icacheAt core (s.team t).launch pc).isNone then 1
  else if s.trialHeld t g pc then 5
  else gr.stall

/-- One quarter's sample for a space. -/
def State.sample (s : State) (space core quarter : Nat) : State :=
  match s.ctxGroup core quarter (s.cclk % 4) with
  | some (t, g) =>
    if s.spaceOf t ≠ space then s else
    let pc := ((s.group t g).thr (((s.group t g).run.map (·.lanes.headD 0)).getD 0)).pc
    s.traceWrite space (s.traceRecord t 1 (s.stallOf t g pc) g quarter (s.pcOffset t pc))
  | none => match s.readiest core quarter space with
    | none => s
    | some (t, g) =>
      let gr := (s.group t g).wakeExchange
      let pc := match gr.bindSet with
        | some x => (gr.thr x.1).pc
        | none => 0
      s.traceWrite space (s.traceRecord t 1 6 g quarter (s.pcOffset t pc))

/-- Spaces that sample. -/
def State.sampling (s : State) : List Nat := amapKeys (amapFilter (fun _ sp => sp.dbg.getLsbD 62) s.spaces)

/-- PC_SAMPLE: a quarter takes one sample for each space that samples. -/
def execPcSample (core quarter : Nat) (s : State) : Out :=
  if s.sampling.isEmpty then .fault .notEnabled else
  .next (forEach s.sampling s fun s n => s.sample n core quarter)

/-- At the end of a space's period, every quarter with a group takes its sample. (DESIGN CHOICE, log 40.) -/
def State.sampleTick (s : State) : State :=
  forEach s.sampling s fun s n =>
    let per := 2 ^ (bitField 54 52 (s.space n).dbg.toNat + 10)
    if s.cclk % per ≠ 0 then s else
    let cores := ((s.teams.filter fun kv => s.spaceOf kv.1 = n).map (·.2.core)).eraseDups
    forEach cores s fun s c => forEach (List.range 4) s fun s q => s.sample n c q

/-! ## Causal trials (R372) -/

/-- Debt saturates at 2^24. -/
def Group.owe (g : Group) (d : Nat) : Group := { g with debt := min (2 ^ 24) (g.debt + d) }

/-- Change the debt of the groups of a space, teams that are stopped or on their way out apart. (DEDUCED, log 71.) -/
def State.debtMap (s : State) (space : Nat) (f : Nat → Nat → Group → Group) : State :=
  let in_ (la : Nat) : Bool := (s.launch la).space == space
  { s with teams := amapMap (fun t tm =>
      if in_ tm.launch && tm.kind != .porter && !tm.preempt && tm.stop.isNone then { tm with groups := amapMap (fun g gr => f t g gr) tm.groups } else tm) s.teams }

/-- An instruction of a group issues at a PC: inside the range of a running trial it is counted, and every other resident
group of the space owes DELAY more. -/
def State.trialIssue (s : State) (t g pc : Nat) : State :=
  let space := s.spaceOf t
  if !s.trialOn t || !s.trialIn t pc then s else
  let d := bitField 19 8 (s.space space).trial.toNat
  (s.updSpace space fun sp => { sp with trcnt := sp.trcnt + 1 }).debtMap space fun t' g' gr =>
    if t' = t && g' = g then gr else gr.owe d

/-- Debt falls by one in each CCLK. -/
def State.debtFall (s : State) : State :=
  { s with teams := amapMap (fun _ tm =>
      if tm.groups.any (fun g => g.2.debt != 0) then { tm with groups := amapMap (fun _ gr => { gr with debt := gr.debt - 1 }) tm.groups }
      else tm) s.teams }

/-- TRIAL_DEBT_TICK. -/
def execTrialDebtTick (s : State) : Out := .next s.debtFall

/-- SPTRIAL_WRITE: a write that sets a reserved bit is ignored; EN from 0 to 1 clears COUNT, and EN cleared discards
the debt. -/
def execSptrialWrite (space : Nat) (value : DWord) (s : State) : Out :=
  if !s.boot.ready then .next s else
  if value.toNat % 2 ^ 8 ≠ 0 || bitField 62 60 value.toNat ≠ 0 then .next s else
  let was := (s.space space).trial.getLsbD 63
  let now := value.getLsbD 63
  let s := s.updSpace space fun sp => { sp with trial := value, trcnt := if now && !was then 0 else sp.trcnt }
  .next (if now then s else s.debtMap space fun _ _ gr => { gr with debt := 0 })

/-! ## What a slot leaves for samples and traces -/

/-- A group holds its slot: on a W path that is full, a medium source, or something else (Table 21-2). (DEDUCED, log 39.) -/
def State.stallNote (s s' : State) (t g : Nat) (wPath : Bool) : State :=
  let n := if wPath && decide (8 ≤ (s.core (s.team t).core).wpath.length) then 7
    else if s.pends.any fun kv => kv.2.team == t && kv.2.gix == g && kv.2.medium then 2 else 5
  s'.updGroup t g fun gr => { gr with stall := n }

/-- A STOP record of each team that has stopped, in a space that traces. Which spaces those are, and the group that a
requested stop names, are not stated. (DESIGN CHOICE, log 40.) -/
def State.stopTraces (s : State) : State :=
  forEach (s.teams.filter fun kv => kv.2.stop.any fun x => !x.traced) s fun s kv =>
    let t := kv.1
    let space := s.spaceOf t
    let s := s.updTeam t fun tm => { tm with stop := tm.stop.map fun x => { x with traced := true } }
    let dbg := (s.space space).dbg
    if !dbg.getLsbD 61 && !dbg.getLsbD 62 then s else
    match kv.2.stop with
    | none => s
    | some x =>
      let at_ := x.threads.headD (x.gix, 0)
      s.traceWrite space (s.traceRecord t 3 0 at_.1 (s.group t at_.1).quarter (s.pcOffset t (s.thread t at_.1 at_.2).pc))

end Sys2Proof.Machine
end

