-- ==== Sys2Proof/Machine/Matrix.lean ====
section
/-! DEFINITION. The matrix stream (13_matrix, R243 to R274): issue into the window, the commands, stream control, faults
and their dispositions, and MPUT. -/

namespace Sys2Proof.Machine

/-! ## The sequencer's turn -/

/-- A stream opcode: performed for the stream whose turn it is; a group that fetched it raises WRONG_STREAM (R162). -/
def streamTurn (s : State) (f : Nat → Stream → State → State) : Out :=
  match s.turn with
  | .stream t => match (s.team t).stream with
    | none => .fault .noIssuer
    | some st => .next (f t st s)
  | .group t g => match (s.group t g).run with
    | none => .fault .noIssuer
    | some r => .next ((s.takeTraps t g r.lanes { cause := .wrongStream }).endIssue t g r.lanes false false none)
  | _ => .fault .noIssuer

def State.updStream (s : State) (t : Nat) (f : Stream → Stream) : State :=
  s.updTeam t fun tm => { tm with stream := tm.stream.map f }

/-- A command faults (R259): it stays in the window, and its record enters the book; causes 1 and 3 of Table 06-7 end
the grid. -/
def State.cmdFault (s : State) (t : Nat) (c : Cmd) (tr : Trap) : State :=
  if tr.cause = .outOfLodging then s.endGrid (s.team t).launch .outOfLodging else
  ((s.engDrop (· == Who.stream t c.seq)).updStream t fun st => { st with
    window := st.window.map fun d => if d.seq = c.seq then { d with faulted := true } else d }).engineRecord
      t 32 c.cid (s.pcOffset t c.pc) (c.seq + 1) tr

/-- What a command of the multiply class is to the reuse chains (R252): the first command of the chain whose tile it reads, which it
may itself be; that of the chain which it ends by naming another m register; and the chain that is open after it. -/
def chainStep (ch : Option (Nat × Nat)) (m seq : Nat) (ru : Bool) : Option Nat × Option Nat × Option (Nat × Nat) :=
  match ch.filter fun x => x.1 == m with
  | some (_, r) => (some r, none, if ru then some (m, r) else none)
  | none => (if ru then some seq else none, ch.map (·.2), if ru then some (m, seq) else none)

/-- A step of a command is due. -/
def State.cmdDue (s : State) (t : Nat) (c : Cmd) : State :=
  { s with later := s.later ++ [if (mbwOf c.instr).isSome then Due.mbwRetire t c.seq else Due.commandRetire t c.seq] }

/-- Issue a command (R248, R249): it captures its k registers and takes its place in the window. A predecessor that is
not among the last 63 commands is a fault of the command. -/
def cmdIssue (i : Instr) (o : SOps) (s : State) : Out :=
  streamTurn s fun t st s =>
    let k (n : Nat) : DWord := amapGet 0 st.k n
    let pred (v : Bool) (p : BitVec 6) : Option (Option Nat) :=
      if v then some ((st.history.find? fun h => h.1 = p.toNat).map (·.2)) else none
    let ps := [pred o.v0 o.pred0, pred o.v1 o.pred1].filterMap id
    let ch := if isMul i then chainStep st.chain (srcIx o.a) st.nextSeq o.ru else (none, none, st.chain)
    let c : Cmd :=
      { seq := st.nextSeq, cid := o.cid.toNat, instr := i, pc := st.pc, ka := k (srcIx o.a), kb := k (srcIx o.b)
        kc := k (srcIx o.c), kc1 := k (srcIx o.c + 1), preds := ps.filterMap id, root := ch.1, ends := ch.2.1 }
    let st' : Stream := { st with
      pc := (st.pc + 16) % 2 ^ 64
      window := st.window ++ [c]
      history := (c.cid, c.seq) :: st.history.take 62
      nextSeq := st.nextSeq + 1
      chain := ch.2.2 }
    let s := s.updStream t fun _ => st'
    if ps.any Option.isNone then s.cmdFault t c { cause := .illegalOperand }
    else (s.cmdDue t c).mbwJudge t

def execMld (o : SOps) (s : State) : Out := cmdIssue (.mld o) o s
def execMldV (o : SOps) (satf : Bool) (s : State) : Out := cmdIssue (.mldV o satf) o s
def execMma (o : SOps) (v : Bool) (slotB : BitVec 3) (satf : Bool) (s : State) : Out := cmdIssue (.mma o v slotB satf) o s
def execMmq (o : SOps) (v : Bool) (slotB : BitVec 3) (satf : Bool) (s : State) : Out := cmdIssue (.mmq o v slotB satf) o s
def execMmqP (o : SOps) (v : Bool) (slotB : BitVec 3) (satf : Bool) (s : State) : Out := cmdIssue (.mmqP o v slotB satf) o s
def execMmi (o : SOps) (v : Bool) (slotB : BitVec 3) (satf : Bool) (s : State) : Out := cmdIssue (.mmi o v slotB satf) o s
def execMclr (o : SOps) (int : Bool) (s : State) : Out := cmdIssue (.mclr o int) o s
def execMst (o : SOps) (slotTA slotTB : BitVec 3) (scl satf : Bool) (s : State) : Out :=
  cmdIssue (.mst o slotTA slotTB scl satf) o s
def execMstV (o : SOps) (slotTA slotTB : BitVec 3) (scl satf : Bool) (s : State) : Out :=
  cmdIssue (.mstV o slotTA slotTB scl satf) o s
def execMbar (o : SOps) (s : State) : Out := cmdIssue (.mbar o) o s
def execMbw (o : SOps) (s : State) : Out := cmdIssue (.mbw o) o s
def execMnop (o : SOps) (s : State) : Out := cmdIssue (.mnop o) o s

/-! ## Stream control (R273, R274): it takes effect at fetch -/

/-- MEND retires once every command issued before it has (R250). -/
def Stream.settle (st : Stream) : Stream := { st with done := st.done || (st.ended && st.window.isEmpty) }

/-- Step past a stream-control word with its effect on the registers. -/
def control (s : State) (f : Nat → Stream → State → Stream) : Out :=
  streamTurn s fun t st s => s.updStream t fun _ => { f t st s with pc := (st.pc + 16) % 2 ^ 64 }
def Stream.setK (st : Stream) (d : BitVec 8) (x : DWord) : Stream := { st with k := amapInsert st.k d.toNat x }
def Stream.getK (st : Stream) (n : Nat) : DWord := amapGet 0 st.k n

def execMsetImm (o : SOps) (s : State) : Out := control s fun _ st _ => st.setK o.d (o.imm.signExtend 64)
def execMsetHi (o : SOps) (s : State) : Out := control s fun _ st _ => st.setK o.d (o.imm ++ (st.getK o.d.toNat).setWidth 32)
/-- An argument word of the launch. -/
def Record.arg (r : Record) (n : Nat) : Word := r.args.getD n 0
def execMsetArg (o : SOps) (s : State) : Out :=
  control s fun t st s => st.setK o.d (((st.getK o.d.toNat) >>> 32).setWidth 32 ++ (s.lr t).arg o.imm.toNat)
def execMsetArghi (o : SOps) (s : State) : Out :=
  control s fun t st s => st.setK o.d ((s.lr t).arg o.imm.toNat ++ (st.getK o.d.toNat).setWidth 32)
def execMsetSr (o : SOps) (s : State) : Out :=
  control s fun t st s => st.setK o.d ((s.sreg t 0 0 o.imm.toNat).setWidth 64)
/-- A k register, or an immediate extended to 64 bits with its sign. -/
def Stream.kOrImm (st : Stream) (x : Src) (imm : BitVec 32) : DWord :=
  match x with
  | .v n => st.getK n.toNat
  | .imm b => b.signExtend 64
  | _ => imm.signExtend 64
def execMsetC (o : SOps) (s : State) : Out :=
  control s fun _ st _ => { st with c := amapInsert st.c o.d.toNat ((st.kOrImm o.a o.imm).setWidth 32) }
def execMaddk (o : SOps) (s : State) : Out :=
  control s fun _ st _ => st.setK o.d (st.getK (srcIx o.a) + st.kOrImm o.b o.imm)

/-- PC + displacement. -/
def Stream.target (st : Stream) (imm : BitVec 32) : Nat := (((st.pc : Int) + imm.toInt) % (2 ^ 64 : Int)).toNat
def execMloop (o : SOps) (s : State) : Out :=
  streamTurn s fun t st s =>
    let n := srcIx o.a
    let c := amapGet 0 st.c n
    s.updStream t fun st =>
      if c = 0 then { st with pc := (st.pc + 16) % 2 ^ 64 }
      else { st with c := amapInsert st.c n (c - 1), pc := if c = 1 then (st.pc + 16) % 2 ^ 64 else st.target o.imm }
def execMjmp (o : SOps) (s : State) : Out :=
  streamTurn s fun t _ s => s.updStream t fun st => { st with pc := st.target o.imm }
def execMend (_o : SOps) (s : State) : Out :=
  streamTurn s fun t _ s => s.updStream t fun st => ({ st with ended := true } : Stream).settle

/-! ## Retiring -/

/-- A command retires: its dependents may start, an A tile that no command reads any more is released. -/
def State.cmdRetire (s : State) (t seq : Nat) : State :=
  (((s.unpin t (· == seq)).engDrop (· == .stream t seq)).updStream t fun st =>
    let w := st.window.filter (·.seq ≠ seq)
    ({ st with
      window := w
      latch := amapFilter (fun r _ => st.chain.any (·.2 = r) || w.any (·.root = some r)) st.latch } : Stream).settle).mbwJudge t

/-! ## Memory on the M path (R256, R257) -/

/-- How one access of a command ends. -/
inductive MRes where
  | val (x : Nat)
  | wait
  | trap (t : Trap)
  | breach (va level : Nat)
  deriving DecidableEq, Repr

/-- An access of the command is in flight, or has answered and is not yet used. -/
def State.cmdFlying (s : State) (t seq : Nat) : Bool := s.accs.any fun kv => kv.2.who = .stream t seq
/-- What a command has read or written so far, by pointer. -/
def State.cmdGot (s : State) (t seq : Nat) : AMap Nat :=
  match (s.team t).stream.bind fun st => st.window.find? fun d => d.seq = seq with
  | some d => d.got
  | none => []
/-- One access of a command is done: the command keeps its value. -/
def State.cmdGets (s : State) (t seq p x : Nat) : State :=
  (s.engDrop (· == Who.stream t seq)).updStream t fun st =>
    { st with window := st.window.map fun d => if d.seq = seq then { d with got := amapInsert d.got p x } else d }

/-- One access of a command, `n` bytes; the command is not done in the step in which it makes the access. -/
def State.mOne (s : State) (t seq p n : Nat) (op : AOp) (need : Need) (x : Nat) : MRes × State :=
  let r : EReq := { who := .stream t seq, team := t, p := p, n := n, tlb := .mtlb, need := need, pin := some (t, seq)
                    op := op, data := x, bad := false }
  match s.eAccess r with
  | (.wait, s) => (.wait, s)
  | (.trap tr, s) => (.trap tr, s)
  | (.breach l, s) => (.breach p l, s)
  | (.val v bad, s) => if bad && !op.writes then (.trap { cause := .poison, addr := p }, s) else (.wait, s.cmdGets t seq p v)

/-- The parts in which an element is moved: a surface's whole, at its bank; any other byte by byte (R250).
(DEDUCED, log 57.) -/
def mParts (p n : Nat) : List (Nat × Nat × Nat) :=
  if ptrTag p = 1 then [(p, n, 0)] else (List.range n).map fun (k : Nat) => (ptrAdd p k, 1, k)

/-- The part to move next, of those that are left: the one in flight, or any (R250). (DEDUCED, log 57.) -/
def State.mPart (s : State) (t seq : Nat) (write : Bool) (left : List (Nat × Nat × Nat)) : Option (Nat × Nat × Nat) :=
  if s.cmdFlying t seq then left.find? fun q => (s.engFind (.stream t seq) q.1 write).isSome
  else left[Config.freeChoice s.free % max left.length 1]?

/-- Move an element at a pointer: the checks of its pointer, made before its access is accepted (R256), then each part in a
step of its own. -/
def State.mMove (s : State) (t seq p n : Nat) (tags : List Nat) (op : AOp) (need : Need) (x : Nat) : MRes × State :=
  let got := s.cmdGot t seq
  let left := (mParts p n).filter fun q => (amapFind? got q.1).isNone
  if left.isEmpty then (.val ((mParts p n).foldl (fun v q => v + amapGet 0 got q.1 * 2 ^ (8 * q.2.2)) 0), s) else
  match s.mPart t seq op.writes left with
  | none => (.wait, s)
  | some q =>
    let s := { s with free := s.free + 1 }
    match if s.cmdFlying t seq then none else s.ptrCheck t 0 p n tags none true with
    | some tr => (.trap tr, s)
    | none => s.mOne t seq q.1 q.2.1 op need (x / 2 ^ (8 * q.2.2) % 2 ^ (8 * q.2.1))

/-- Read `n` bytes at a pointer. -/
def State.mRead (s : State) (t seq p n : Nat) (tags : List Nat) : MRes × State := s.mMove t seq p n tags (.load false) .plain 0
/-- Write `n` bytes at a pointer. -/
def State.mWrite (s : State) (t seq p n x : Nat) : MRes × State := s.mMove t seq p n [0, 1, 2] .store .mst x

/-- The checks of a tensor view's pointer, and the entry. -/
def State.viewCheck (s : State) (t p : Nat) : Option Trap :=
  let e := s.ste (surfIx p)
  if ptrTag p ≠ 1 then some { cause := .tagMismatch, addr := p }
  else if !s.inSteWindow (s.spaceOf t) (surfIx p) then some { cause := .privilege, addr := p }
  else if !e.valid || !(e.fmt = 1 || e.fmt = 2) || e.samples ≠ 1 then some { cause := .illegalOperand }
  else none
/-- Channels of a view's format. -/
def Ste.viewCols (e : Ste) : Nat := if e.fmt = 1 then 2 else 4
/-- The linear pointer of channel `ch` of view row `v`; none outside the view. -/
def State.viewPtr (s : State) (p row ch : Nat) : Option Nat :=
  let e := s.ste (surfIx p)
  let v := surfOff p + row
  if e.width * e.height ≤ v || e.viewCols ≤ ch then none
  else some (p / 2 ^ 48 * 2 ^ 48 + e.pixel (v % e.width) (v / e.width) 0 0 + 2 * ch)

/-- A binary32 word of a slot's block-scale array. -/
def State.scaleWord (s : State) (t seq addr : Nat) : MRes × State := s.mRead t seq (addr % 2 ^ 64) 4 [0]

/-- An element of a tensor view, converted to a slot's format. (DEDUCED, log 58.) -/
def State.viewRead (s : State) (t seq p row ch : Nat) (slot : BitVec 128) (f : ElemFmt) (satf : Bool) : MRes × State :=
  match s.viewPtr p row ch with
  | none => (.val 0, s)
  | some q =>
    let sc := if slotLayout slot = 1 then s.scaleWord t seq (slotSbase slot + (surfOff p + row) * slotStride slot)
      else (.val 0x3F800000, s)
    match sc with
    | (.val w, s) => match s.mRead t seq q 2 [1] with
      | (.val x, s) => (.val (cvqElem f satf (fp16.decode x) (fp32.decode w)).1, s)
      | r => r
    | r => r

/-- Reads in turn: the values in order, or how the first that fails ends. -/
def readAll (f : Nat → Nat → State → MRes × State) : List (Nat × Nat) → State → (List Nat × Option MRes) × State
  | [], s => (([], none), s)
  | x :: xs, s => match f x.1 x.2 s with
    | (.val v, s) =>
      match readAll f xs s with
      | ((vs, e), s) => ((v :: vs, e), s)
    | (e, s) => (([], some e), s)

/-! ## Operands (R254, R255, R258) -/

/-- The counts of a mask: (M, N, K). -/
def maskOf (k : DWord) : Nat × Nat × Nat := (bitField 4 0 k.toNat, bitField 12 8 k.toNat, bitField 21 16 k.toNat)
/-- A mask breaks a limit that its command reads: `n`, `k` say whether it reads those counts; K may be up to `kmax`. -/
def maskBad (x : DWord) (m n k : Bool) (kmax : Nat) : Bool :=
  let c := maskOf x
  bitField 63 22 x.toNat ≠ 0 || bitField 15 13 x.toNat ≠ 0 || bitField 7 5 x.toNat ≠ 0 ||
  (m && decide (16 < c.1)) || (n && decide (16 < c.2.1)) || (k && decide (kmax < c.2.2))
/-- Indices (i, j) with i < m, j < n, rows first. -/
def grid (m n : Nat) : List (Nat × Nat) := (List.range m).flatMap fun i => (List.range n).map fun j => (i, j)

/-- Bytes of an element. -/
def ElemFmt.bytes (f : ElemFmt) : Nat :=
  match f with
  | .flt k => (k.e + k.f + 1) / 8
  | .int8 => 1
/-- A slot's element format, where a command may name it. -/
def State.matFmt (s : State) (t slot : Nat) (codes : List Nat) : Option ElemFmt :=
  let c := slotElem ((s.lr t).slot slot)
  if codes.contains c then elemFmt c else none
/-- An element of an m register. -/
def tileElem (x : BitVec 4096) (i k e : Nat) : Nat := x.toNat / 2 ^ (8 * (32 * i + k * e)) % 2 ^ (8 * e)
def tilePut (x : BitVec 4096) (i k e v : Nat) : BitVec 4096 :=
  let sh := 8 * (32 * i + k * e)
  BitVec.ofNat 4096 (x.toNat - x.toNat / 2 ^ sh % 2 ^ (8 * e) * 2 ^ sh + v % 2 ^ (8 * e) * 2 ^ sh)

/-- The sum of exact terms in FP36 (R258). -/
def sum36 (terms : List (Option FVal)) : BitVec 36 :=
  let v := if terms.any Option.isNone then none else sumV .rne (terms.filterMap id)
  BitVec.ofNat 36 (match v with
    | none => fp36.nan
    | some x => (encodeVal fp36 .rne false x).1)
def mul36 (x y : FVal) : FVal :=
  match mulV x y with
  | none => .nan false false 0
  | some v => fp36.decode (encodeVal fp36 .rne false v).1

/-- Clear a region of a tile and set its kind. -/
def Tile.clear (a : Tile) (m n : Nat) (int : Bool) : Tile :=
  { int := int, elems := (grid m n).foldl (fun es x => amapInsert es (16 * x.1 + x.2) 0) a.elems }
def Tile.get (a : Tile) (i j : Nat) : BitVec 36 := amapGet 0 a.elems (16 * i + j)
def Tile.put (a : Tile) (i j : Nat) (x : BitVec 36) : Tile := { a with elems := amapInsert a.elems (16 * i + j) x }

/-- Add a product to an element of a partial (R265). -/
def PartElem.add (p : PartElem) (x y : FVal) : PartElem :=
  match mulV x y with
  | none => { p with nan := true }
  | some (.nan _ _ _) => { p with nan := true }
  | some (.inf n) => if n then { p with ninf := true } else { p with pinf := true }
  | some (.fin n m e) =>
    let q : Int := (m * 2 ^ (e + 34).toNat : Nat)
    { p with val := p.val + BitVec.ofInt 80 (if n then -q else q) }
/-- The value of an element of a partial. -/
def PartElem.value (p : PartElem) : FVal :=
  if p.nan || (p.pinf && p.ninf) then .nan false false 0
  else if p.pinf then .inf false
  else if p.ninf then .inf true
  else .fin (decide (p.val.toInt < 0)) p.val.toInt.natAbs (-34)

/-! ## Multiplication (R263 to R268) -/

/-- The three kinds of Table 13-4. -/
inductive MulKind where
  | mma | mmq | mmi
  deriving DecidableEq, Repr

def MulKind.codes : MulKind → List Nat
  | .mma => [1, 2]
  | .mmq => [3, 4]
  | .mmi => [6]
def MulKind.kmax : MulKind → Nat
  | .mma => 16
  | _ => 32

/-- One multiply command as its word says it. -/
structure MulOp where
  kind  : MulKind
  p     : Bool
  v     : Bool
  satf  : Bool
  o     : SOps
  slotB : Nat
  deriving DecidableEq, Repr

def mulOf : Instr → Option MulOp
  | .mma o v b f => some ⟨.mma, false, v, f, o, b.toNat⟩
  | .mmq o v b f => some ⟨.mmq, false, v, f, o, b.toNat⟩
  | .mmqP o v b f => some ⟨.mmq, true, v, f, o, b.toNat⟩
  | .mmi o v b f => some ⟨.mmi, false, v, f, o, b.toNat⟩
  | _ => none

/-- What a command does when it is done at once: retire with its effect, wait, fault, or end the grid. -/
inductive CmdRes where
  | retire (s : State)
  | again (s : State)
  | fault (tr : Trap) (s : State)
  | breach (va level : Nat) (s : State)

def CmdRes.ofErr (e : MRes) (s : State) : CmdRes :=
  match e with
  | .trap tr => .fault tr s
  | .breach va l => .breach va l s
  | _ => .again s

def operandFault (s : State) : CmdRes := .fault { cause := .illegalOperand } s

/-- The scales of a promotion: one per row, and the weight tile's. -/
def State.mulScales (s : State) (t : Nat) (c : Cmd) (sa sb : BitVec 128) (m : Nat) : (List Nat × Option MRes) × State :=
  let kb := bitField 47 32 c.kc1.toNat
  let nb := bitField 63 48 c.kc1.toNat
  let row0 := bitField 31 0 c.kc1.toNat
  readAll (fun x i s =>
    if x = 0 then
      if slotLayout sa = 0 then (.val 0x3F800000, s)
      else s.scaleWord t c.seq (slotSbase sa + (row0 + i) * slotStride sa + 4 * kb)
    else if slotLayout sb = 0 then (.val 0x3F800000, s)
    else s.scaleWord t c.seq (slotSbase sb + kb * slotStride sb + 4 * nb))
    ((List.range m).map (fun i => (0, i)) ++ [(1, 0)]) s

/-- Apply the arithmetic of a multiply command to the tile and the partials. `A`, `B` give the operands' values. -/
def Stream.mulApply (st : Stream) (q : MulOp) (mk : Nat × Nat × Nat) (tile : Tile) (A B : Nat → Nat → FVal)
    (scales : List Nat) : Stream :=
  let d := q.o.d.toNat
  let ks := List.range mk.2.2
  match q.kind with
  | .mma =>
    { st with a := amapInsert st.a d ((grid mk.1 mk.2.1).foldl (fun a x =>
        a.put x.1 x.2 (sum36 (some (fp36.decode (a.get x.1 x.2).toNat) :: ks.map fun k => mulV (A x.1 k) (B k x.2)))) tile) }
  | .mmi =>
    { st with a := amapInsert st.a d ((grid mk.1 mk.2.1).foldl (fun a x =>
        let t : Int := ks.foldl (fun (t : Int) k => t + (A x.1 k).toInt 0 * (B k x.2).toInt 0) (a.get x.1 x.2).toInt
        a.put x.1 x.2 (BitVec.ofInt 36 (max (-(2 ^ 35 : Int)) (min (2 ^ 35 - 1 : Int) t)))) tile) }
  | .mmq =>
    let p0 : Partial := (st.parts.find? fun p => p.tile = d).getD ⟨d, 0, []⟩
    let es := (grid mk.1 mk.2.1).foldl (fun es x =>
      amapInsert es (16 * x.1 + x.2) (ks.foldl (fun e k => e.add (A x.1 k) (B k x.2)) (amapGet {} es (16 * x.1 + x.2)))) p0.elems
    let rest := st.parts.filter fun p => p.tile ≠ d
    if !q.p then { st with parts := rest ++ [{ p0 with ksum := p0.ksum + mk.2.2, elems := es }], a := amapInsert st.a d tile }
    else
      let sb := fp32.decode (scales.getD mk.1 0)
      let a := (grid mk.1 mk.2.1).foldl (fun (a : Tile) x =>
        let p36 := fp36.decode (encodeVal fp36 .rne false (amapGet ({} : PartElem) es (16 * x.1 + x.2)).value).1
        let c := match mulV (fp32.decode (scales.getD x.1 0)) sb with
          | none => FVal.nan false false 0
          | some v => fp32.decode (encodeVal fp32 .rne false v).1
        a.put x.1 x.2 (sum36 [some (fp36.decode (a.get x.1 x.2).toNat), some (mul36 p36 c)])) tile
      { st with parts := rest, a := amapInsert st.a d a }

/-- A multiply command, from its start to its retirement (R263 to R268). (DEDUCED, log 57.) -/
def State.mulRun (s : State) (t : Nat) (st : Stream) (c : Cmd) (q : MulOp) : CmdRes :=
  let mk := maskOf c.kc
  let d := q.o.d.toNat
  let int := q.kind == .mmi
  let slA := (s.lr t).slot q.o.slot.toNat
  let slB := (s.lr t).slot q.slotB
  match s.matFmt t q.o.slot.toNat q.kind.codes, s.matFmt t q.slotB q.kind.codes with
  | some fa, some fb =>
    let part := st.parts.find? fun p => p.tile = d
    if maskBad c.kc true true true q.kind.kmax then operandFault s
    else if q.p && (!(slotLayout slA = 0 || slotLayout slA = 1) || !(slotLayout slB = 0 || slotLayout slB = 2)) then operandFault s
    else if q.kind ≠ .mmq && part.isSome then operandFault s
    else if mk.1 = 0 || mk.2.1 = 0 || (mk.2.2 = 0 && !q.o.cl) then .retire s
    else
      let t0 : Tile := amapGet {} st.a d
      let t1 := if q.o.cl then t0.clear mk.1 mk.2.1 int else t0
      if mk.2.2 = 0 then .retire (s.updStream t fun st => { st with a := amapInsert st.a d t1 })
      else if t1.int ≠ int then operandFault s
      else if q.kind = .mmq && ((part.isNone && decide (8 ≤ st.parts.length)) ||
          decide (128 < (part.map (·.ksum)).getD 0 + mk.2.2)) then operandFault s
      else
        let x := if q.v && !s.cmdFlying t c.seq then s.viewCheck t c.kb.toNat else none
        match x with
        | some tr => .fault tr s
        | none =>
          let e := fb.bytes
          let stride : Int := q.o.imm.toInt
          let bs := readAll (fun k j s =>
            if q.v then s.viewRead t c.seq c.kb.toNat k j slB fb q.satf
            else s.mRead t c.seq ((((c.kb.toNat : Int) + k * stride + j * e) % (2 ^ 64 : Int)).toNat) e [2]) (grid mk.2.2 mk.2.1) s
          match bs with
          | ((_, some er), s) => CmdRes.ofErr er s
          | ((bv, none), s) =>
            match if q.p then s.mulScales t c slA slB mk.1 else (([], none), s) with
            | ((_, some er), s) => CmdRes.ofErr er s
            | ((sc, none), s) =>
              let mA := srcIx q.o.a
              let own := amapGet 0 st.m mA
              let av := match c.root with
                | some r => (amapFind? st.latch r).getD own
                | none => own
              let A (i k : Nat) : FVal := fa.value (tileElem av i k fa.bytes)
              let B (k j : Nat) : FVal := fb.value (bv.getD (k * mk.2.1 + j) 0)
              .retire (s.updStream t fun st => st.mulApply q mk t1 A B sc)
  | _, _ => operandFault s

/-! ## MLD, MCLR, MST, MBAR (R261, R269 to R271) -/

/-- One element of a command that works element by element: done with it, wait, fault. -/
inductive ElemRes where
  | step (s : State)
  | stop (r : CmdRes)

/-- Element `n` of an MLD. -/
def State.mldElem (s : State) (t : Nat) (c : Cmd) (o : SOps) (v satf : Bool) (f : ElemFmt) (i k : Nat) : ElemRes :=
  let slot := (s.lr t).slot o.slot.toNat
  let e := f.bytes
  let r := if v then s.viewRead t c.seq c.kb.toNat i k slot f satf
    else s.mRead t c.seq ((((c.kb.toNat : Int) + i * o.imm.toInt + k * e) % (2 ^ 64 : Int)).toNat) e [0, 1, 2]
  match r with
  | (.val x, s) => .step (s.updStream t fun st => { st with m := amapInsert st.m o.d.toNat (tilePut (amapGet 0 st.m o.d.toNat) i k e x) })
  | (er, s) => .stop (CmdRes.ofErr er s)

/-- The formats that MST writes for a tile kind (Table 13-6). -/
def mstCodes (int scl v : Bool) : List Nat :=
  if v then (if int then [] else [1]) else if int then (if scl then [7] else [6, 7]) else [7, 1, 2, 3, 4]

/-- The output of MST for one accumulator element (R270). -/
def mstOut (int satf : Bool) (f : ElemFmt) (x : BitVec 36) (scale : FVal) : Nat :=
  match f with
  | .int8 => (BitVec.ofInt 8 (max (-128 : Int) (min 127 x.toInt))).toNat
  | .flt k =>
    let v := if int then FVal.ofInt x.toInt else fp36.decode x.toNat
    let beyond (neg : Bool) : Nat := if satf then k.maxBits neg else if k.inf then k.infBits neg else k.nan
    match mulV v scale with
    | none | some (.nan _ _ _) => k.nan
    | some (.inf n) => beyond n
    | some (.fin n m e) =>
      let r := roundTo k .rne false n m e
      if r.2.getLsbD 2 then beyond n else r.1

/-- The pointer of an element of an MST; none outside a tensor view. -/
def State.mstPtr (s : State) (c : Cmd) (o : SOps) (v : Bool) (e i j : Nat) : Option Nat :=
  if v then s.viewPtr c.kb.toNat i j else some ((((c.kb.toNat : Int) + i * o.imm.toInt + j * e) % (2 ^ 64 : Int)).toNat)
/-- Bytes that an MST moves at an element's pointer. -/
def mstBytes (v : Bool) (f : ElemFmt) : Nat := if v then 2 else f.bytes

/-- The key under which a command keeps the value of the element that it is writing: no pointer. (DEDUCED, log 57.) -/
def elemKey : Nat := 2 ^ 64

/-- An MST has written all its elements: the units of poison that they cover whole are sound again (R61). Whether none must be
waited for. -/
def State.mstClean (s : State) (t : Nat) (spans : List (Nat × Nat)) : Bool × State :=
  if s.dramPoison.isEmpty && s.sdiePoison.isEmpty && s.hPoison.isEmpty && (s.team t).scrPoison.isEmpty &&
    (s.l2.all fun kv => kv.2.poison = 0) then (true, s)
  else s.eCleanUnits t .mtlb (fun p => spans.any fun x => decide (x.1 ≤ p) && decide (p < x.1 + x.2)) (fun _ _ => false)
    ((spans.map fun x => x.1 / 32).eraseDups)

/-- Element of an MST: its value, taken from the tile once (R250), goes to its bytes; after the last element the units that it wrote
whole are cleaned. -/
def State.mstElem (s : State) (t : Nat) (c : Cmd) (o : SOps) (v satf : Bool) (f : ElemFmt) (a : Tile) (scale : FVal)
    (cells : List (Nat × Nat)) (i j : Nat) : ElemRes :=
  let n := mstBytes v f
  let got := amapFind? (s.cmdGot t c.seq) elemKey
  let out := got.getD (mstOut a.int satf f (a.get i j) scale)
  let s := if got.isSome then s else s.updStream t fun st => { st with
    window := st.window.map fun d => if d.seq = c.seq then { d with got := amapInsert d.got elemKey out } else d }
  match (match s.mstPtr c o v f.bytes i j with
    | none => (MRes.val 0, s)
    | some q => s.mWrite t c.seq q n out) with
  | (.val _, s) =>
    if c.elem + 1 < cells.length then .step s else
    (match s.mstClean t (cells.filterMap fun x => (s.mstPtr c o v f.bytes x.1 x.2).map fun p => (p, n)) with
      | (true, s) => .step s
      | (false, s) => .stop (.again s))
  | (er, s) => .stop (CmdRes.ofErr er s)

/-- A command that has moved element `c.elem`: it goes on, or retires after the last. -/
def State.cmdNext (s : State) (t : Nat) (c : Cmd) (total : Nat) : State :=
  if total ≤ c.elem + 1 then s.cmdRetire t c.seq
  else (s.updStream t fun st => { st with
    window := st.window.map fun d => if d.seq = c.seq then { d with elem := c.elem + 1, got := [] } else d }).cmdDue t c

/-- Settle a command that is done at once. -/
def State.cmdSettle (s : State) (t : Nat) (c : Cmd) (r : CmdRes) : State :=
  match r with
  | .retire s => s.cmdRetire t c.seq
  | .again s => if s.engBusy (.stream t c.seq) then s else s.cmdDue t c
  | .fault tr s => s.cmdFault t c tr
  | .breach va l s => s.breach (s.team t).launch va l

/-- One step of an MLD or MST over its masked-in elements. (DEDUCED, log 57.) -/
def State.cmdElem (s : State) (t : Nat) (c : Cmd) (cells : List (Nat × Nat)) (f : Nat → Nat → ElemRes) : State :=
  match cells[c.elem]? with
  | none => s.cmdRetire t c.seq
  | some (i, j) => match f i j with
    | .step s => s.cmdNext t c cells.length
    | .stop r => s.cmdSettle t c r

/-- An MLD: its operand checks, then its next element. -/
def State.mldRun (s : State) (t : Nat) (c : Cmd) (o : SOps) (v satf : Bool) : State :=
  match s.matFmt t o.slot.toNat [1, 2, 3, 4, 6] with
  | none => s.cmdSettle t c (operandFault s)
  | some f =>
    if (satf && f.bytes ≠ 1) || maskBad c.kc true false true (if f.bytes = 2 then 16 else 32) then s.cmdSettle t c (operandFault s)
    else
      let mk := maskOf c.kc
      let x := if v && mk.1 ≠ 0 && mk.2.2 ≠ 0 && !s.cmdFlying t c.seq then s.viewCheck t c.kb.toNat else none
      match x with
      | some tr => s.cmdFault t c tr
      | none => s.cmdElem t c (grid mk.1 mk.2.2) fun i k => s.mldElem t c o v satf f i k

/-- An MST: its operand checks, then its next element. -/
def State.mstRun (s : State) (t : Nat) (st : Stream) (c : Cmd) (o : SOps) (ta tb : Nat) (scl satf v : Bool) : State :=
  let a : Tile := amapGet {} st.a (srcIx o.a)
  let r := s.lr t
  let tsc (n : Nat) : FVal := fp32.decode (slotTscale (r.slot n))
  match s.matFmt t o.slot.toNat (mstCodes a.int scl v) with
  | none => s.cmdSettle t c (operandFault s)
  | some f =>
    if maskBad c.kc true true false 0 || st.parts.any (fun p => p.tile = srcIx o.a) ||
       (scl && (slotElem (r.slot ta) = 0 || slotElem (r.slot tb) = 0)) then s.cmdSettle t c (operandFault s)
    else
      let mk := maskOf c.kc
      let scale := if !scl then FVal.fin false 1 0 else
        match mulV (tsc ta) (tsc tb) with
        | none => FVal.nan false false 0
        | some x => fp32.decode (encodeVal fp32 .rne false x).1
      let x := if v && mk.1 ≠ 0 && mk.2.1 ≠ 0 && !s.cmdFlying t c.seq then s.viewCheck t c.kb.toNat else none
      match x with
      | some tr => s.cmdFault t c tr
      | none => s.cmdElem t c (grid mk.1 mk.2.1) (s.mstElem t c o v satf f a scale (grid mk.1 mk.2.1))

/-- MCLR. -/
def State.mclrRun (s : State) (t : Nat) (c : Cmd) (o : SOps) (int : Bool) : State :=
  if maskBad c.kc true true false 0 then s.cmdSettle t c (operandFault s)
  else
    let mk := maskOf c.kc
    let d := o.d.toNat
    (s.updStream t fun st => { st with
      a := amapInsert st.a d ((amapGet ({} : Tile) st.a d).clear mk.1 mk.2.1 int)
      parts := st.parts.filter fun p => p.tile ≠ d }).cmdRetire t c.seq

/-- The count of an MBAR. -/
def mbarCount (o : SOps) : Nat :=
  (match o.b with
    | .imm x => x.signExtend 32
    | _ => o.imm).toNat % 2 ^ 16
/-- MBAR: one arrival by the stream, with the crossing from M to V. -/
def State.mbarRun (s : State) (t : Nat) (c : Cmd) (o : SOps) : State :=
  match (s.mstCross t).arrive t (.num (srcNum o.a)) (mbarCount o) true with
  | (some tr, s) => s.cmdFault t c { tr with addr := 0 }
  | (none, s) => (s.dropV (s.team t).core).cmdRetire t c.seq

/-- The command of a window. -/
def Stream.cmd? (st : Stream) (seq : Nat) : Option Cmd := st.window.find? fun c => c.seq = seq

/-- A command starts. -/
def Stream.start (st : Stream) (c : Cmd) : Stream :=
  { st with window := st.window.map fun d => if d.seq = c.seq then { d with started := true } else d }

/-- An A tile enters the operand collector when the command that begins its chain starts (R252). -/
def Stream.holdTile (st : Stream) (c : Cmd) : Stream :=
  match mulOf c.instr with
  | some q => if c.root = some c.seq then { st with latch := amapInsert st.latch c.seq (amapGet 0 st.m (srcIx q.o.a)) } else st
  | none => st

/-- A command may run: it has started, or may start. -/
def State.cmdReady (s : State) (t : Nat) (st : Stream) (c : Cmd) : Bool :=
  !c.faulted && (c.started || (st.startable c && !s.streamHeld t))
/-- A context has a command whose next step is due. -/
def State.contextReady (s : State) (t : Nat) : Bool :=
  match (s.team t).stream with
  | none => false
  | some st => st.window.any fun c => s.later.contains (.commandRetire t c.seq) && s.cmdReady t st c
/-- The sequencer context of a team's stream. -/
def State.contextOf (s : State) (t : Nat) : Nat := ((s.team t).stream.map (·.ctx)).getD 0
/-- The place of a team's context in the rotation, from the one that the engine served last. -/
def State.contextPlace (s : State) (t : Nat) : Nat := (s.contextOf t + 3 - (s.core (s.team t).core).mLast % 4) % 4
/-- The engine's turn is a context's: no context before it in the rotation has a command ready (R251). -/
def State.engineTurn (s : State) (t : Nat) : Bool :=
  s.teams.all fun kv => kv.2.core ≠ (s.team t).core || decide (s.contextPlace t ≤ s.contextPlace kv.1) || !s.contextReady kv.1

/-- COMMAND_RETIRE: a command that may run does, to its retirement, in its context's turn at the engine; its accesses to
memory are steps of their own (R248, R250, R251). -/
def execCommandRetire (tid cmd : Nat) (s : State) : Out :=
  match (s.team tid).stream with
  | none => .fault .notEnabled
  | some st => match st.cmd? cmd with
    | none => .fault .notEnabled
    | some c =>
      if !s.cmdReady tid st c || !s.engineTurn tid then .fault .notEnabled else
      let st := if c.started then st else (st.holdTile c).start c
      let s := (s.updStream tid fun _ => st).updCore (s.team tid).core fun k => { k with mLast := s.contextOf tid }
      match c.instr with
      | .mld o => .next (s.mldRun tid c o false false)
      | .mldV o f => .next (s.mldRun tid c o true f)
      | .mst o a b x f => .next (s.mstRun tid st c o a.toNat b.toNat x f false)
      | .mstV o a b x f => .next (s.mstRun tid st c o a.toNat b.toNat x f true)
      | .mclr o i => .next (s.mclrRun tid c o i)
      | .mbar o => .next (s.mbarRun tid c o)
      | .mnop _ => .next (s.cmdRetire tid c.seq)
      | i => match mulOf i with
        | some q => .next (s.cmdSettle tid c (s.mulRun tid st c q))
        | none => .fault .notEnabled

/-- MBW_RETIRE: a started MBW whose barrier has shown the other parity retires, as an acquire (R271). -/
def execMbwRetire (tid cmd : Nat) (s : State) : Out :=
  match (s.team tid).stream with
  | none => .fault .notEnabled
  | some st => match st.cmd? cmd with
    | none => .fault .notEnabled
    | some c => match mbwOf c.instr with
      | none => .fault .notEnabled
      | some (b, par) =>
        if !s.cmdReady tid st c || !(c.elem = 1 || (s.bar tid b).phase.toNat % 2 ≠ par % 2) then .fault .notEnabled
        else
          .next ((s.barLate tid (.num b)).cmdRetire tid c.seq)

/-! ## Dispositions of stream records (R259, Table 20-7). Unit 0 is the fetch, n + 1 command n -/

def State.streamResume (s : State) (t unit : Nat) : State :=
  if unit = 0 then s.updStream t fun st => { st with fetchFault := false } else
  match ((s.team t).stream.bind fun st => st.cmd? (unit - 1)) with
  | none => s
  | some c =>
    ((s.updStream t fun st => { st with
      window := st.window.map fun d => if d.seq = c.seq then { d with faulted := false, started := false, elem := 0, got := [] } else d }).cmdDue
        t c).mbwJudge t
def State.streamSkip (s : State) (t unit : Nat) : State :=
  if unit = 0 then s.updStream t fun st => { st with fetchFault := false, pc := (st.pc + 16) % 2 ^ 64 }
  else s.cmdRetire t (unit - 1)
/-- The stream ends as at MEND; its commands and its other records go. -/
def State.streamKill (s : State) (t : Nat) : State :=
  let core := (s.team t).core
  let s := forEach (match (s.team t).stream with
    | some st => st.window.map (·.seq)
    | none => []) (s.engDrop (Who.ofStream t)) fun s q => s.unpin t q
  let s := s.updStream t fun st => { st with window := [], latch := [], ended := true, done := true, fetchFault := false }
  (s.updCore core fun k => { k with
    book := k.book.filter fun e => !(e.team == t && e.group == 32)
    held := k.held.filter fun h => match h with
      | .engine e => !(e.team == t && e.group == 32)
      | .thread _ _ _ => true }).serveHeld 65 core

/-! ## MPUT (R262) -/

/-- MPUT: each participant's words go into an m register (R262). (DEDUCED, log 59.) -/
def execMput (o : Ops) (w : W3) (s : State) : Out :=
  let n := w3Bytes w
  issue o { src := [(o.a, n / 4), (o.b, 1)] } false (fun i s =>
    i.finish (forEach i.parts s fun s l =>
      let off := (src32 s i l o.b).toNat + l * n
      match (s.team i.t).stream with
      | none => s.takeTrap i.t i.g l { cause := .illegalOperand }
      | some _ =>
        if off % n ≠ 0 || 512 < off + n then s.takeTrap i.t i.g l { cause := .illegalOperand }
        else s.updStream i.t fun st => { st with
          m := amapInsert st.m o.d.toNat (tilePut (amapGet 0 st.m o.d.toNat) 0 (off / n) n (srcData s i l o.a (n / 4))) })
      [] false none) s

end Sys2Proof.Machine
end

