-- ==== Sys2Proof/Machine/Fp64.lean ====
section
/-! DEFINITION. The arithmetic that translated Nirop code builds from sequences (24_portable, R387, R389): IEEE 754 binary64, a
correctly rounded FP32 quotient, and integer division. -/

namespace Sys2Proof.Machine

def fp64 : FFmt := ⟨52, 11, 1023, 0x7FEFFFFFFFFFFFFF, true, 0x7FF8000000000000⟩

/-- A binary64 NaN result: canonical, or the first NaN operand made quiet, under FPM.NANP. (DEDUCED, log 116.) -/
def nan64 (fpm : Word) (ops : List FVal) : Nat :=
  if fpmNanp fpm then
    match ops.find? FVal.isNan with
    | some (.nan _ n x) => fp64.sign n + (fp64.maxF + 1) + (x % 2 ^ 51 + 2 ^ 51)
    | _ => fp64.nan
  else fp64.nan

/-- A result rounded once to binary64, subnormals kept, with its flags; `bad` says that a part of it was invalid. -/
def f64Result (fpm : Word) (ops : List FVal) (bad : Bool) (v : Option FVal) : Nat × FFlags :=
  let inv := ops.any FVal.isSig || bad || v.isNone
  match ops.any FVal.isNan, v with
  | false, some v => if inv then (fp64.nan, flInv) else encodeVal fp64 (fpmRnd fpm .dyn) false v
  | _, _ => (nan64 fpm ops, if inv then flInv else 0)

/-- A quotient of finite non-zero values with bits to spare for a format of 53 bits; the lowest stands for the remainder. -/
def divW (neg : Bool) (m : Nat) (e : Int) (n : Nat) (f : Int) : FVal :=
  let num := m * 2 ^ 192
  .fin neg (2 * (num / n) + (if num % n = 0 then 0 else 1)) (e - f - 193)

/-- The quotient of two values in a format, and its flags beside those of the rounding; none is invalid. -/
def quotV (x y : FVal) : Option (FVal × FFlags) :=
  let neg := x.neg != y.neg
  match x, y with
  | .nan s n f, _ | _, .nan s n f => some (.nan s n f, 0)
  | .inf _, .inf _ => none
  | .inf _, .fin _ _ _ => some (.inf neg, 0)
  | .fin _ _ _, .inf _ => some (.fin neg 0 0, 0)
  | .fin _ m e, .fin _ n f =>
    if n = 0 then (if m = 0 then none else some (.inf neg, flDiv))
    else if m = 0 then some (.fin neg 0 0, 0)
    else some (divW neg m e n f, 0)

def f64Div (fpm : Word) (x y : FVal) : Nat × FFlags :=
  let r := f64Result fpm [x, y] (quotV x y).isNone ((quotV x y).map (·.1))
  (r.1, r.2 ||| ((quotV x y).map (·.2)).getD 0)

def f64Sqrt (fpm : Word) (x : FVal) : Nat × FFlags :=
  match x with
  | .fin n m e =>
    if m = 0 then (fp64.sign n, 0) else if n then (fp64.nan, flInv) else f64Result fpm [x] false (some (sqrtV m e))
  | .inf false => (fp64.infBits false, 0)
  | .inf true => (fp64.nan, flInv)
  | x => f64Result fpm [x] false (some x)

/-- The value of a CVT type's pattern. -/
def cvtVal (t : CvtTy) (x : DWord) : FVal :=
  match CvtTy.fmt t with
  | some k => k.decode (x.toNat % 2 ^ (1 + k.e + k.f))
  | none => FVal.ofInt (if CvtTy.width t = 64 then (if CvtTy.isSigned t then x.toInt else x.toNat)
      else (if CvtTy.isSigned t then (x.setWidth 32).toInt else (x.setWidth 32).toNat))

/-- A narrower type to binary64; a NaN keeps its fraction, extended with zeros. (DEDUCED, log 116.) -/
def f64Of (src : CvtTy) (fpm : Word) (x : DWord) : Nat × FFlags :=
  match cvtVal src x with
  | .nan s n f => (nan64 fpm [.nan s n (f * 2 ^ 25)], if s then flInv else 0)
  | v => encodeVal fp64 (fpmRnd fpm .dyn) false v

/-- Binary64 to a narrower format or to an integer; a NaN keeps the top of its fraction, an integer out of range is the
nearest and raises invalid, as CVT has it (R218). (DEDUCED, log 116.) -/
def f64To (dst : CvtTy) (fpm : Word) (x : FVal) : Nat × FFlags :=
  let r := fpmRnd fpm .dyn
  let wrap (v : Int) : Nat := (BitVec.ofInt (CvtTy.width dst) v).toNat
  match CvtTy.fmt dst, x with
  | some k, .nan s n f => (nanResult k fpm [.nan s n (f / 2 ^ 25)], if s then flInv else 0)
  | some k, v => encodeVal k r false v
  | none, .nan _ _ _ => (0, flInv)
  | none, .inf n => (wrap (satInt (CvtTy.isSigned dst) (CvtTy.width dst) (if n then -(2 ^ 64 : Int) else 2 ^ 64)), flInv)
  | none, .fin n m e =>
    let v : Int := (if n then -1 else 1) * (integral r n m e : Int)
    let t := satInt (CvtTy.isSigned dst) (CvtTy.width dst) v
    (wrap t, if t = v then 0 else flInv)

/-- Bits of a binary64 operation's result. -/
def f64Bits : F64Op → Nat
  | .cmp _ => 1
  | .toTy t => match CvtTy.fmt t with
    | some _ => 32
    | none => CvtTy.width t
  | _ => 64

/-- A binary64 operation on patterns (R389). -/
def f64Fn (op : F64Op) (fpm : Word) (a b c : DWord) : Nat × FFlags :=
  let x := fp64.decode a.toNat
  let y := fp64.decode b.toNat
  let z := fp64.decode c.toNat
  let r := fpmRnd fpm .dyn
  match op with
  | .add => f64Result fpm [x, y] false (sumV r [x, y])
  | .sub =>
    let y := fp64.decode (b ^^^ BitVec.ofNat 64 (2 ^ 63)).toNat
    f64Result fpm [x, y] false (sumV r [x, y])
  | .mul => f64Result fpm [x, y] false (mulV x y)
  | .fma => f64Result fpm [x, y, z] (mulV x y).isNone ((mulV x y).bind fun p => sumV r [p, z])
  | .div => f64Div fpm x y
  | .sqrt => f64Sqrt fpm x
  | .cmp k =>
    let q := fcmpElem fp64 fpm k a.toNat b.toNat
    (q.1.toNat, if q.2 then flInv else 0)
  | .ofTy t => f64Of t fpm a
  | .toTy t => f64To t fpm x

/-- The FP32 quotient, correctly rounded in FPM.RND, under the flush bits as FMUL (R387). (DEDUCED, log 116.) -/
def fdivFn (fpm : Word) (a b : Word) : Nat × FFlags :=
  let x := fIn fp32 fpm false false a.toNat
  let y := fIn fp32 fpm false false b.toNat
  let r := fResult fp32 fpm (fpmRnd fpm .dyn) [x, y] (quotV x y).isNone ((quotV x y).map (·.1))
  (r.1, r.2 ||| ((quotV x y).map (·.2)).getD 0)

/-- A 32-bit integer division by a divisor that is not 0: quotient towards zero, and remainder. (DEDUCED, log 116.) -/
def idivFn (sgn : Bool) (a b : Word) : Word × Word :=
  if sgn then (BitVec.ofInt 32 (a.toInt.tdiv b.toInt), BitVec.ofInt 32 (a.toInt.tmod b.toInt))
  else (BitVec.ofNat 32 (a.toNat / b.toNat), BitVec.ofNat 32 (a.toNat % b.toNat))

end Sys2Proof.Machine
end

