-- ==== Sys2Proof/Machine/Nirop.lean ====
section
/-! DEFINITION. Nirop code (24_portable, R386 to R393): translating a block under the compatibility word, the translation cache,
resolving a PC of a module to native code, running the sequences of translated code, and writing SPXCn. -/

namespace Sys2Proof.Machine

/-- Where the space's cache appears, and where it lies in device memory (Table 24-3). -/
def Space.xcVa (sp : Space) : Nat := bitField 57 29 sp.xc.toNat * 2 ^ 28
def Space.xcPa (sp : Space) : Nat := bitField 28 5 sp.xc.toNat * 2 ^ 28

/-- The launch's code is a Nirop module. -/
def Launch.nen (l : Launch) : Bool := l.lr.nirop.getLsbD 31

/-! ## Translating (R387 to R390, R393) -/

/-- Fields of the compatibility word (Table 24-1). -/
def wIdiv0 (w : Nat) : Nat := bitField 30 29 w
def wDivp (w : Nat) : Bool := bitField 28 28 w == 1
def wSqrtp (w : Nat) : Bool := bitField 27 27 w == 1
def wDeriv (w : Nat) : Nat := bitField 26 25 w
def wFuse (w : Nat) : Bool := bitField 24 24 w == 1

/-- The fields of a native word without guard. -/
def natOps (len : Len) (d : BitVec 8) (a b c : Src) (imm : BitVec 32) : Ops :=
  { len := len, rb := false, g := 7, gn := false, nw := false, d := d, a := a, b := b, c := c, imm := imm }
/-- The fields of a 64-bit word with a destination and vector sources; those it does not have are 0. -/
def natW (d a b c : BitVec 8) : Ops := natOps .w64 d (.v a) (.v b) (.v c) 0
def natM : FMod := { satn := false, nc := false, nb := false, na := false, ab := false, aa := false, rnd := .dyn }
def natNop (len : Len) : Instr := .nop (natOps len 0 (.v 0) (.v 0) (.v 0) 0)

/-- TRAP.LEGACY in place of an operation: A its Nirop offset, B its code (R393). -/
def legacyTrap (off code : Nat) : Instr := .trapLegacy (natOps .w96 0 .imm32 (.imm (BitVec.ofNat 8 code)) (.v 0) (BitVec.ofNat 32 off))

/-- What an operation becomes: native instructions, or a sequence with the instructions that follow it. -/
inductive NItem where
  | code (is : List Instr)
  | seq (x : NSeq) (tail : List Instr)

/-- A register that is neither of two others: the first of three that is not `x`. -/
def tempFor (d t x : BitVec 8) : BitVec 8 := if d ≠ x then d else if t ≠ x then t else t + 1

/-- An instruction transfers control: none stands within a block (R386). -/
def transfers (i : Instr) : Bool :=
  match i with
  | .bra _ | .braAny _ _ _ | .braAll _ _ _ | .brx _ | .call _ | .callx _ | .ret _ => true
  | _ => false

/-- The translation of one operation (R387, R389, R393; Table 24-2). -/
def translateOp (hash word off : Nat) (x : NOp) : NItem :=
  match x with
  | .plain is => .code (is.filter fun i => match i with
    | .swrite _ c => c ≠ 0x20
    | i => !transfers i)
  | .idiv sg q r a b => .seq (.idiv sg (wIdiv0 word) q r a b) (if wIdiv0 word = 2 then [legacyTrap off 1] else [])
  | .fdiv d t a b =>
    let t := tempFor d t a
    if wDivp word then .seq (.fdiv d a b) []
    else .code [.frcp (natW t b 0 0) .f32 false false, .fmul (natW d a t 0) .f32 false natM]
  | .fsqrt d a =>
    .code [if wSqrtp word then .fsqrtIeee (natW d a 0 0) natM else .fsqrt (natW d a 0 0) .f32 false false]
  | .deriv y fine d a =>
    let f := if wDeriv word = 0 then false else if wDeriv word = 1 then true else fine
    .code [if y then .derivY (natW d a 0 0) f else .derivX (natW d a 0 0) f]
  | .mulAdd d t a b c =>
    if wFuse word && Config.niropFuse hash off then .code [.ffma (natW d a b c) .f32 false natM]
    else
      let t := tempFor d t c
      .code [.fmul (natW t a b 0) .f32 false natM, .fadd (natW d t c 0) .f32 false natM]
  | .f64 op d a b c => .seq (.f64 op d a b c) []
  | .f64Other => .code [legacyTrap off 2]
  | .reserved => .code [legacyTrap off 3]
  | .meshBeyond => .code [legacyTrap off 4]
  | .ownMode => .code [legacyTrap off 5]

/-- Translated code as it is laid out: its bytes, the operations and the sequences in it. -/
structure Emit where
  bytes : List Byte := []
  ops   : List (Nat × Nat) := []
  seqs  : List (Nat × Nat × Nat × NSeq) := []

/-- Append a native word. -/
def Emit.word (e : Emit) (i : Instr) : Emit :=
  match encode i with
  | some (n, w) => { e with bytes := e.bytes ++ natToBytes n w }
  | none => e
/-- Fill a fetch block with NOPs. -/
def Emit.fill (e : Emit) : Emit :=
  let gap := 32 - e.bytes.length % 32
  (if gap = 32 then [] else if gap % 8 = 0 then List.replicate (gap / 8) (natNop .w64)
    else natNop .w96 :: List.replicate ((gap - 12) / 8) (natNop .w64)).foldl Emit.word e
/-- Append a native word, in the next fetch block where it would cross into it or leave a gap that no word fits (R149). -/
def Emit.put (e : Emit) (i : Instr) : Emit :=
  match encode i with
  | none => e
  | some (n, _) =>
    let k := e.bytes.length % 32 + n
    if k ≤ 32 && k ≠ 28 then e.word i else e.fill.word i
/-- Append a sequence, in fetch blocks of its own, with what follows it. -/
def Emit.seq (e : Emit) (hash word off : Nat) (x : NSeq) (tail : List Instr) : Emit :=
  let e := e.fill
  let bs := Config.niropSeq hash word off
  let n := 32 * (1 + bs.length % 4)
  let at_ := e.bytes.length
  let e := { e with bytes := e.bytes ++ (bs ++ List.replicate n 0).take n }
  let noDiv := e.bytes.length
  let e := tail.foldl Emit.put e
  { e with seqs := e.seqs ++ [(at_, noDiv, e.bytes.length, x)] }
/-- Append the code of an operation at a Nirop offset. -/
def Emit.op (hash word : Nat) (e : Emit) (off : Nat) (x : NItem) : Emit :=
  match x with
  | .code is =>
    let at_ := e.bytes.length
    let e := is.foldl Emit.put e
    { e with ops := e.ops ++ [(at_, off)] }
  | .seq q tail =>
    let e := e.fill
    { e with ops := e.ops ++ [(e.bytes.length, off)] }.seq hash word off q tail

/-- Operations with their bytes, each at its Nirop offset from `base` on (R386). -/
def niropAt (base : Nat) : List (Nat × NOp) → List (Nat × NOp)
  | [] => []
  | x :: xs => (base, x.2) :: niropAt ((base + x.1) % 2 ^ 32) xs
/-- Bytes of the operations of a block before its end, and of the block. -/
def niropBody (hash : Nat) : Nat := (Config.niropOps hash).foldl (fun n x => n + x.1) 0
def niropBytes (hash : Nat) : Nat := niropBody hash + (Config.niropEnd hash).1

/-- The translation of a block under a word (R390), which begins at the Nirop offset `base`. -/
def translateBlock (hash word base : Nat) : Emit :=
  let e := (niropAt base (Config.niropOps hash)).foldl (fun (e : Emit) x => e.op hash word x.1 (translateOp hash word x.1 x.2)) {}
  e.op hash word ((base + niropBody hash) % 2 ^ 32) (match (Config.niropEnd hash).2 with
    | .jump p n y z => .seq (.jump p n y z) []
    | .code is => .code is)

/-! ## The cache (R390, R391) -/

/-- The Nirop offset of a PC in a launch's module (R386). -/
def Launch.niropOff (l : Launch) (pc : Nat) : Nat := (pc + 2 ^ 64 - l.lr.code) % 2 ^ 32

/-- The entry of a space under (hash, word). Code that bears its Nirop offset (R393) is that of one offset: a block that modules hold
at several is several blocks. (DESIGN CHOICE, log 90.) -/
def State.blockOf (s : State) (space hash word base : Nat) : Option Block :=
  s.blocks.find? fun b => b.space = space && b.hash = hash && b.word = word && b.base = base

/-- The native address of an entry. -/
def State.blockVa (s : State) (b : Block) : Nat := (s.space b.space).xcVa + b.offset

/-- An entry is used: a look-up finds it, or an instruction of it issues. -/
def State.blockUse (s : State) (b : Block) : State :=
  { s with blocks := s.blocks.map fun x => if x = b then { x with used := s.cclk } else x }
/-- Native code of a Nirop launch has issued. -/
def State.niropUse (s : State) (la pc : Nat) : State :=
  match s.blockAt la pc with
  | some (b, _) => s.blockUse b
  | none => s

/-- A PC set of the space has its PC in an entry. -/
def State.blockHeld (s : State) (b : Block) : Bool :=
  let lo := (s.space b.space).xcVa + b.offset
  let in_ (pc : Nat) : Bool := decide (lo ≤ pc) && decide (pc < lo + b.len)
  let live (tm : Team) : Bool := (s.launch tm.launch).space == b.space &&
    tm.groups.any fun g => g.2.threads.any fun th => th.2.stat != .dead && in_ th.2.pc
  s.teams.any (fun kv => live kv.2) || s.saved.any fun kv => kv.2.teams.any fun x => live x.2

/-- Places for 4 KiB of code in a space's cache that hold no entry. (DESIGN CHOICE, log 90.) -/
def State.blockRoom (s : State) (space : Nat) : List Nat :=
  let used := (s.blocks.filter fun b => b.space = space).map fun b => b.offset / 4096
  (List.range 65536).filter fun k => !used.contains k

/-- The entry to evict: the least recently used that no PC set is in. (DESIGN CHOICE, log 90.) -/
def State.blockVictim (s : State) (space : Nat) : Option Block :=
  (s.blocks.filter fun b => b.space = space && !s.blockHeld b).foldl (fun (x : Option Block) b => match x with
    | none => some b
    | some y => if b.used < y.used then some b else some y) none

/-- Write an entry at a place of the cache; instruction caches drop what they hold of it. -/
def State.blockPut (s : State) (space hash word base place : Nat) : State :=
  let e := translateBlock hash word base
  let code := e.bytes.take 4096
  let va := (s.space space).xcVa + 4096 * place
  let stale (x : Nat × Nat × BitVec 256) : Bool :=
    (s.launch x.1).space == space && decide (va ≤ 32 * x.2.1) && decide (32 * x.2.1 < va + 4096)
  let pa := (s.space space).xcPa + 4096 * place
  let s := forEach (List.range (ceilDiv code.length 64)) s fun s k =>
    let bs := (code.drop (64 * k)).take 64
    s.unitPost { unitAcc .cache 0 space (pa + 64 * k) bs.length .store (bytesToNat bs) false with pa := pa + 64 * k } fun s =>
      s.devPut (pa + 64 * k) bs.length 0 .priv (bytesToNat bs) false
  let cores := amapMap (fun _ k => { k with icache := k.icache.filter fun x => !stale x }) s.cores
  let b : Block := { space := space, hash := hash, word := word, base := base, offset := 4096 * place, len := code.length, used := s.cclk
                     ops := e.ops, seqs := e.seqs }
  { s with cores := cores, blocks := s.blocks ++ [b] }

/-- A PC lies in the space's cache: it is a native one. (DESIGN CHOICE, log 91.) -/
def State.niropNative (s : State) (la pc : Nat) : Bool := (s.space (s.launch la).space).inCache pc

/-- A fetch fault of a group parks every thread of its set (R164); one of a stream stops it (R259). -/
def State.fetchFault (s : State) (t gix : Nat) (tr : Trap) : State :=
  if gix = 32 then s.streamFetchFault t tr else
  match (s.group t gix).run with
  | none => s
  | some r => (s.takeTraps t gix r.lanes tr).endIssue t gix r.lanes false false none

/-- A step that is due once. -/
def State.due (s : State) (d : Due) : State := if s.later.contains d then s else { s with later := s.later ++ [d] }

/-- The part of the decode assist that reads a module: a read that fails ends as a fetch that fails. -/
def State.assistRead (s : State) (t g va : Nat) (go : BitVec 256 → State → State) : State :=
  match s.blockRead t va .ctlb .read with
  | (.ok b _, s) => go (BitVec.ofNat 256 b) s
  | (.wait, s) => { s with turn := .later }
  | (.trap tr, s) => s.fetchFault t g tr
  | (.breach va l, s) => s.breach (s.team t).launch va l

/-- The slot of a group whose PC lies in a Nirop module: the block's hash is read from the module's block table; then the set
goes on in the block's entry, or waits for its translation. -/
def State.niropSlot (s : State) (t g : Nat) (lanes : List Nat) (pc : Nat) : State :=
  let l := s.launch (s.team t).launch
  let word := l.lr.nirop.toNat
  match (s.group t g).seek with
  | some (pc', hash) =>
    if pc' ≠ pc then s.updGroup t g fun gr => { gr with seek := none } else
    match s.blockOf l.space hash word (l.niropOff pc) with
    | none => { s.due (.blockTranslate (coreWing (s.team t).core) l.space hash word) with turn := .later }
    | some b => (s.updGroup t g fun gr => { gr with
        seek := none
        threads := amapMap (fun k th => if lanes.contains k then { th with pc := s.blockVa b } else th) gr.threads }).blockUse b
  | none =>
    s.assistRead t g l.lr.code fun h s =>
      let va := (l.lr.code + 8 * Config.niropSlot h.toNat ((pc + 2 ^ 64 - l.lr.code) % 2 ^ 64)) % 2 ^ 64
      s.assistRead t g va fun b s => s.updGroup t g fun gr => { gr with seek := some (pc, blockFrom b va % 2 ^ 64) }

/-- The group waits for the block (hash, word) of a space, which has no entry. (DEDUCED, log 89.) -/
def State.blockMissed (s : State) (t : Nat) (g : Group) (space hash word : Nat) : Bool :=
  let l := s.launch (s.team t).launch
  l.nen && l.space == space && l.lr.nirop.toNat == word &&
  (match g.run, g.seek with
    | some r, some (pc, h) => h == hash && (g.thr (r.lanes.headD 0)).pc == pc && (s.blockOf space hash word (l.niropOff pc)).isNone
    | _, _ => false)
/-- A bound group of a core of the wing that waits for a block, as on a fetch miss: its team, its number, its PC. -/
def State.blockWaiter (s : State) (wing space hash word : Nat) : Option (Nat × Nat × Nat) :=
  s.teams.findSome? fun kv => if coreWing kv.2.core ≠ wing then none else
    kv.2.groups.findSome? fun g => if s.blockMissed kv.1 g.2 space hash word then
      some (kv.1, g.1, (g.2.seek.map (·.1)).getD 0) else none

/-- The decode assist reads the block's bytes, one fetch block after another. (DESIGN CHOICE, log 91.) -/
def State.blockBytes (s : State) (t g : Nat) : List Nat → (State → State) → State
  | [], go => go s
  | va :: rest, go => s.assistRead t g va fun _ s => s.blockBytes t g rest go

/-- The code is written into one of the free places, which is not stated, or in place of the least recently used entry that no
set is in; none where every entry is held. (DESIGN CHOICE, log 90.) -/
def State.blockPlace (s : State) (space : Nat) : Option (Nat × State) :=
  match s.blockRoom space with
  | [] => (s.blockVictim space).map fun b => (b.offset / 4096, { s with blocks := s.blocks.filter (· ≠ b) })
  | p :: ps => some ((p :: ps).getD (Config.freeChoice s.free % (ps.length + 1)) p, { s with free := s.free + 1 })

/-- BLOCK_TRANSLATE: the wing's decode assist reads the block through the CTLB and translates it, and the sets that wait for
it, in whatever wing, go on with the entry. While every entry is held, it waits. -/
def execBlockTranslate (wing space hash word : Nat) (s : State) : Out :=
  match s.blockWaiter wing space hash word with
  | none => .fault .notEnabled
  | some (t, g, pc) =>
    if (s.blockPlace space).isNone then .fault .notEnabled else
    let vas := (List.range (ceilDiv (pc % 32 + niropBytes hash) 32)).map fun j => (pc / 32 * 32 + 32 * j) % 2 ^ 64
    let base := (s.launch (s.team t).launch).niropOff pc
    .next (s.blockBytes t g vas fun s => match s.blockPlace space with
      | some (k, s) => s.blockPut space hash word base k
      | none => s)

/-! ## Sequences of translated code (R387, R389) -/

/-- The sequence that begins at a native PC, and the address of its entry. -/
def State.seqNow (s : State) (la pc : Nat) : Option (Nat × Nat × Nat × NSeq) :=
  (s.blockAt la pc).bind fun x => (x.1.seqAt x.2).map fun q => (pc - x.2, q)

/-- A 64-bit pair of a thread. -/
def Thread.pair (th : Thread) (n : BitVec 8) : DWord := th.readV (n.toNat + 1) ++ th.readV n.toNat

/-- What a sequence leaves in one thread: where it goes on, or the exception it raises (R207). -/
def seqLane (x : NSeq) (code noDiv fin_ : Nat) (th : Thread) : Thread ⊕ Trap :=
  let fp (r : Nat × FFlags) (put : Thread → Thread) : Thread ⊕ Trap :=
    match fpTrap (fpmTraps th.fpm) r.2 with
    | some tr => .inr tr
    | none => .inl { put th with fpm := fpmRaise th.fpm r.2, pc := fin_ }
  match x with
  | .f64 op d a b c =>
    let r := f64Fn op th.fpm (th.pair a) (th.pair b) (th.pair c)
    fp r fun th => match f64Bits op with
      | 1 => th.writeP (d.toNat % 8) (r.1 == 1)
      | 32 => th.writeV d.toNat (BitVec.ofNat 32 r.1)
      | _ => (th.writeV d.toNat (BitVec.ofNat 32 r.1)).writeV (d.toNat + 1) (BitVec.ofNat 32 (r.1 / 2 ^ 32))
  | .fdiv d a b =>
    let r := fdivFn th.fpm (th.readV a.toNat) (th.readV b.toNat)
    fp r fun th => th.writeV d.toNat (BitVec.ofNat 32 r.1)
  | .idiv sg m q r a b =>
    let x := th.readV a.toNat
    let y := th.readV b.toNat
    if y = 0 && m = 2 then .inl { th with pc := noDiv } else
    let z := if y = 0 then (if m = 0 then (0, 0) else (BitVec.ofNat 32 (2 ^ 32 - 1), x)) else idivFn sg x y
    .inl { (th.writeV q.toNat z.1).writeV r.toNat z.2 with pc := fin_ }
  | .jump p n yes no => .inl { th with pc := (code + (if th.readP p.toNat != n then yes else no)) % 2 ^ 64 }

/-- A set comes to a sequence: once no result of the group is pending, each lane has its effect. -/
def State.seqRun (s : State) (t g : Nat) (lanes : List Nat) (pc base : Nat) (q : Nat × Nat × NSeq) : State :=
  let pends := s.pends.filter fun kv => kv.2.team = t ∧ kv.2.gix = g
  let la := (s.team t).launch
  if !pends.isEmpty then
    (if pends.all (·.2.medium) then { s with turn := .later }
     else (s.putWait t g lanes (.results (amapKeys pends))).endRun t g)
  else
    let s := (s.niropUse la pc).trialIssue t g pc
    let s := forEach lanes s fun s l =>
      match seqLane q.2.2 (s.launch la).lr.code (base + q.1) (base + q.2.1) (s.thread t g l) with
      | .inl th => s.updThread t g l fun _ => th
      | .inr tr => s.takeTrap t g l tr
    s.endIssue t g lanes false false none

/-- SPXC_WRITE (R391): ignored while a Nirop launch of the space is live, and where it enables a range past the end of
device memory. A cache that is moved or disabled keeps no entry. (DEDUCED, log 89.) -/
def execSpxcWrite (space : Nat) (value : DWord) (s : State) : Out :=
  if !s.boot.ready then .next s else
  let x := value.toNat
  let v : DWord := BitVec.ofNat 64 (bitField 63 63 x * 2 ^ 63 + bitField 57 5 x * 2 ^ 5)
  let live := s.liveLaunches.any fun kv => kv.2.space == space && kv.2.nen
  if live || (v.getLsbD 63 && decide (0x3000000000 < bitField 28 5 x * 2 ^ 28 + 2 ^ 28)) then .next s else
  let s := if (s.space space).xc = v then s else { s with blocks := s.blocks.filter fun b => b.space ≠ space }
  .next (s.updSpace space fun sp => { sp with xc := v })

end Sys2Proof.Machine
end

