-- ==== Sys2Proof/Machine/Fetch.lean ====
section
/-! DEFINITION. Fetching and decoding (R147 to R149, R164, R165, R368): what a group or a stream issues next, and the fetch
that fills the instruction cache. -/

namespace Sys2Proof.Machine

/-! ## The fetch that fills the instruction cache (R149) -/

/-- The PC that a group with a run, or with number 32 the stream, fetches at. -/
def State.fetchPc (s : State) (t gix : Nat) : Option Nat :=
  if gix = 32 then (s.team t).stream.map (·.pc)
  else (s.group t gix).run.map fun r => ((s.group t gix).thr (r.lanes.headD 0)).pc

/-- A stream may fetch (R248, R251, R259, R365): it has not ended, its window has room, nothing of it is faulted, its team
neither stopped nor pre-empted nor of a grid that is ending. -/
def State.streamFetches (s : State) (t : Nat) : Bool :=
  match (s.team t).stream with
  | none => false
  | some st => !st.ended && !st.done && !st.fetchFault && decide (st.window.length < 32) && st.window.all (fun c => !c.faulted) &&
      !s.streamHeld t

/-- FETCH_BLOCK_FILL: the block at the PC of a group, or of a stream that fetches, is read through the ITLB. A block that the
cache holds already may be read again at any moment; such a read that fails leaves it as it is. A block that must be waited for is
asked for again. -/
def execFetchBlockFill (tid gix : Nat) (s : State) : Out :=
  let core := (s.team tid).core
  let la := (s.team tid).launch
  match s.fetchPc tid gix with
  | none => .fault .notEnabled
  | some pc =>
    let held := (s.icacheAt core la pc).isSome
    if gix = 32 && !s.streamFetches tid then .fault .notEnabled
    else if gix ≠ 32 && !held && s.accBars tid gix (((s.group tid gix).run.map (·.lanes)).getD []) then .fault .notEnabled else
    match s.codeRead tid pc with
    | (.ok b _, s) => .next (s.icachePut core la pc (BitVec.ofNat 256 b))
    | (.wait, s) => .next s
    | (.trap tr, s) => .next (if held then s else s.fetchFault tid gix tr)
    | (.breach va l, s) => .next (if held then s else s.breach la va l)

/-! ## Checks 2 to 7 (Table 09-17) -/

/-- Decode the word at a PC of a group: the instruction, or the cause of the first check that fails. -/
def groupDecode (w pc : Nat) (porter : Bool) : Instr ⊕ Cause :=
  let c := opcOf w
  match Len.ofCode (w % 4) with
  | none => .inr .lenReserved
  | some len =>
    if 32 < pc % 32 + len.bytes then .inr .fetchBoundary
    else if !opcAssigned c then .inr .illegalOpcode
    else if opcStream c then .inr .wrongStream
    else if opcPrivileged c && !porter then .inr .privilege
    else match decodeWord (32 - pc % 32) w with
      | .ok x => .inl x.1
      | .error _ => .inr .illegalOperand

/-- Decode the 16 bytes at a stream's PC (R165). -/
def streamDecode (w : Nat) : Instr ⊕ Cause :=
  let c := opcOf w
  match Len.ofCode (w % 4) with
  | none => .inr .lenReserved
  | some _ =>
    if !opcAssigned c then .inr .illegalOpcode
    else if !opcStream c then .inr .wrongStream
    else match decodeWord 16 w with
      | .ok x => .inl x.1
      | .error _ => .inr .illegalOperand

/-! ## A group's next instruction -/

/-- What comes of a group's slot: a state in which nothing issues, or an instruction to issue at a PC. -/
inductive Slot where
  | none_ (s : State)
  | issue (i : Instr) (pc : Nat) (s : State)

/-- Lanes of a set whose BARRD failed are parked at their next issue (R239): a held thread that was to replay is served (R346). -/
def State.parkPend (s : State) (t g : Nat) (lanes : List Nat) : State :=
  (s.updGroup t g fun gr => { gr with
    threads := amapMap (fun l th => if lanes.contains l then { th with stat := .parked, pend := none } else th) gr.threads
    run := gr.run.map fun r => { r with lanes := r.lanes.filter fun l => !lanes.contains l } }).servedLanes t g lanes

/-- Lanes of a set that match a hardware breakpoint (R368): enabled, of the fetch address, not passed over. -/
def State.breakHits (s : State) (t g pc : Nat) (lanes : List Nat) : List Nat :=
  let on := (s.space (s.spaceOf t)).bp.any fun kv => kv.2.getLsbD 63 && bitField 54 0 kv.2.toNat == bitField 56 2 pc
  if on then lanes.filter fun l => !(s.thread t g l).noBreak else []

/-- Take a hardware breakpoint: the team stops under a debugger, else the threads park (R340, R368). -/
def State.breakTake (s : State) (t g : Nat) (hits : List Nat) : State :=
  if s.attached t && (s.team t).kind ≠ .porter then s.teamStop t 0x40 g (hits.map fun l => (g, l))
  else forEach hits s fun s l => s.takeTrap t g l { cause := .bkpt } true

/-- A set of the group waits at a lane exchange at this PC: the lanes that have come there join it (R194, R136). -/
def Group.exchangeAt (g : Group) (pc : Nat) : Bool :=
  g.waits.any fun kv => match kv.2.cond with
    | .exchange _ => (g.thr (kv.2.lanes.headD 0)).pc = pc
    | _ => false

/-- The slot of a group with a run: parked and stopped lanes first, then Nirop code, the fetch and the decode checks. -/
def State.groupSlot (s : State) (t g : Nat) : Slot :=
  match (s.group t g).run with
  | none => .none_ { s with turn := .later }
  | some r =>
    let pend := r.lanes.filter fun l => (s.thread t g l).pend.isSome
    let pc := (s.thread t g (r.lanes.headD 0)).pc
    let la := (s.team t).launch
    let l := s.launch la
    if r.lanes.isEmpty then .none_ (s.endRun t g)
    else if s.accBars t g r.lanes then .none_ { s with turn := .later }
    else if !pend.isEmpty then .none_ (s.parkPend t g pend)
    else if (s.group t g).exchangeAt pc then .none_ (s.endRun t g)
    else if s.trialHeld t g pc then .none_ { s with turn := .later }
    else if l.nen && !s.niropNative la pc then .none_ (s.niropSlot t g r.lanes pc)
    else
      let hits := s.breakHits t g pc r.lanes
      if !hits.isEmpty then .none_ (s.breakTake t g hits) else
      if let some (o, q) := s.seqNow la pc then .none_ (s.seqRun t g r.lanes pc o q) else
      match s.icacheAt (s.team t).core la pc with
      | none => .none_ { s.due (.ins (.fetchBlockFill t g)) with turn := .later }
      | some b => match groupDecode (blockFrom b pc) pc ((s.team t).kind = .porter) with
        | .inl i => .issue i pc s
        | .inr c => .none_ (s.fetchFault t g { cause := c })

/-- The instruction did issue: it neither held its slot nor ended the run before it (R142, R194). -/
def issued (s s' : State) (t g : Nat) : Bool :=
  s'.turn != .later && (match amapFind? (s'.group t g).waits s.uid with
    | some ⟨_, .results _⟩ | some ⟨_, .loads _⟩ | some ⟨_, .exchange _⟩ => false
    | _ => true)

/-- A W-path access. -/
def isWPath : Instr → Bool
  | .ldw _ _ _ | .stw _ _ _ => true
  | _ => false
/-- What becomes of a group's slot, after its instruction: one that issued counts for a trial that is running (R372) and as a
use of its translated block (R390); one that
did not leaves its reason. -/
def State.slotEnd (s s' : State) (t g pc : Nat) (i : Instr) : State :=
  if issued s s' t g then ((s'.trialIssue t g pc).niropUse (s.team t).launch pc).updGroup t g fun gr => { gr with stall := 0 }
  else s.stallNote s' t g (isWPath i)

/-! ## A stream's next instruction -/

/-- Carry out a stream instruction. -/
def streamExec (i : Instr) (s : State) : Out :=
  match i with
  | .mld o => execMld o s
  | .mldV o f => execMldV o f s
  | .mma o v b f => execMma o v b f s
  | .mmq o v b f => execMmq o v b f s
  | .mmqP o v b f => execMmqP o v b f s
  | .mmi o v b f => execMmi o v b f s
  | .mclr o i => execMclr o i s
  | .mst o a b x f => execMst o a b x f s
  | .mstV o a b x f => execMstV o a b x f s
  | .mbar o => execMbar o s
  | .mbw o => execMbw o s
  | .mnop o => execMnop o s
  | .msetImm o => execMsetImm o s
  | .msetHi o => execMsetHi o s
  | .msetArg o => execMsetArg o s
  | .msetArghi o => execMsetArghi o s
  | .msetSr o => execMsetSr o s
  | .msetC o => execMsetC o s
  | .maddk o => execMaddk o s
  | .mloop o => execMloop o s
  | .mjmp o => execMjmp o s
  | .mend o => execMend o s
  | _ => .fault .noIssuer

/-- SEQUENCER_FETCH: one instruction of a stream is fetched and issued, or takes effect; a block that is absent is fetched
first. -/
def execSequencerFetch (tid : Nat) (s : State) : Out :=
  if !s.streamFetches tid then .fault .notEnabled else
  match s.fetchPc tid 32 with
  | none => .fault .notEnabled
  | some pc => match s.icacheAt (s.team tid).core (s.team tid).launch pc with
    | none => .next (s.due (.ins (.fetchBlockFill tid 32)))
    | some b => match streamDecode (blockFrom b pc % 2 ^ 128) with
      | .inl i => (match streamExec i { s with turn := .stream tid } with
        | .next s' => .next (s'.trialIssue tid 32 pc)
        | o => o)
      | .inr c => .next (s.streamFetchFault tid { cause := c })

end Sys2Proof.Machine
end

