-- ==== Sys2Proof/Machine/LaneX.lean ====
section
/-! DEFINITION. Lane exchange (10_integer_control, R194 to R200). -/

namespace Sys2Proof.Machine

/-- Issue a lane exchange that names `named` lanes (R194): where one holds it up, the run ends before it and
the set waits; else presence is fixed and the body runs. (DEDUCED, log 28.) -/
def exchange (i : Iss) (s : State) (named : List Nat) (body : State → State) : State :=
  let gr := s.group i.t i.g
  if named.any fun n => gr.holdsUp i.run.lanes n then
    (s.putWait i.t i.g i.run.lanes (.exchange named)).endRun i.t i.g
  else body s

/-- Queue vector results of a medium-latency instruction, and finish. -/
def Iss.medium (i : Iss) (s : State) (regs : List (Nat × Nat × Word)) (preds : List (Nat × Nat × Bool)) : State :=
  let s := if regs.isEmpty && preds.isEmpty then s else s.addPend ⟨i.t, i.g, true, false, regs, preds⟩
  i.finish s [] false none
/-- Queue a scalar result, with vector predicates beside it. -/
def Iss.mediumS (i : Iss) (s : State) (regs : List (Nat × Word)) (preds : List (Nat × Nat × Bool)) : State :=
  let s := if regs.isEmpty then s else s.addPend ⟨i.t, i.g, true, true, regs.map fun x => (0, x.1, x.2), []⟩
  i.medium s [] preds

/-! ## LXCH (R196) -/

/-- The source lane of a reader, and whether it is in its segment. -/
inductive LxKind where
  | idx | rot | rev | xor
  deriving DecidableEq, Repr
def LxKind.source (k : LxKind) (w l : Nat) (b : Word) : Nat × Bool :=
  let base := l - l % w
  let r := l - base
  match k with
  | .idx => (base + b.toNat % w, true)
  | .rot =>
    let q : Int := (r : Int) + b.toInt
    (base + (q % (w : Int)).toNat, decide (0 ≤ q) && decide (q < w))
  | .xor => (Nat.xor l (b.toNat % w), true)
  | .rev => (base + (w - 1 - r), true)

def lxch (k : LxKind) (o : Ops) (w pv : BitVec 3) (s : State) : Out :=
  let seg := 2 ^ w.toNat
  issue o { src := (o.a, 1) :: (if k = .rev then [] else [(o.b, 1)]) ++ [(o.c, 1)], vd := [(o.d.toNat, 1)], pw := if pv = 7 then [] else [pv.toNat] } false
    (fun i s =>
      let srcs := i.parts.map fun l => (l, k.source seg l (src32 s i l o.b))
      exchange i s (srcs.map fun x => x.2.1) fun s =>
        let rs := srcs.map fun x =>
          if i.parts.contains x.2.1 then (x.1, src32 s i x.2.1 o.a, x.2.2) else (x.1, src32 s i x.1 o.c, false)
        i.medium s (rs.map fun x => (x.1, o.d.toNat, x.2.1))
          (if pv = 7 then [] else rs.map fun x => (x.1, pv.toNat, x.2.2))) s

def execLxchIdx (o : Ops) (w pv : BitVec 3) (s : State) : Out := lxch .idx o w pv s
def execLxchRot (o : Ops) (w pv : BitVec 3) (s : State) : Out := lxch .rot o w pv s
def execLxchRev (o : Ops) (w pv : BitVec 3) (s : State) : Out := lxch .rev o w pv s
def execLxchXor (o : Ops) (w pv : BitVec 3) (s : State) : Out := lxch .xor o w pv s

/-- LXCH.S: one lane's value into a scalar register; unchanged where that lane is absent. -/
def execLxchS (o : Ops) (pv : BitVec 3) (s : State) : Out :=
  issue o { src := [(o.a, 1), (o.b, 1)], sd := [(o.d.toNat, 1)], pw := if pv = 7 then [] else [pv.toNat] } false (fun i s =>
    match i.parts with
    | [] => i.finish s [] false none
    | l :: _ =>
      let src := (src32 s i l o.b).toNat % 32
      exchange i s [src] fun s =>
        let here := i.parts.contains src
        i.mediumS s (if here then [(o.d.toNat, src32 s i src o.a)] else [])
          (if pv = 7 then [] else i.parts.map fun l => (l, pv.toNat, here))) s

/-! ## Masked instructions (R195) -/

/-- The named lanes of a member mask. -/
def maskLanes (m : Word) : List Nat := (List.range 32).filter fun k => m.getLsbD k

/-- Issue with the member mask in C: the body receives the present named lanes. -/
def masked (o : Ops) (u : Uses) (body : Iss → List Nat → State → State) (s : State) : Out :=
  issue o { u with src := u.src ++ [(o.c, 1)] } false (fun i s =>
    match i.parts with
    | [] => i.finish s [] false none
    | l :: _ =>
      let named := maskLanes (src32 s i l o.c)
      exchange i s named fun s => body i (named.filter fun k => i.parts.contains k) s) s

/-! ## LQRY, LGATH (R197) -/

def lqry (o : Ops) (neg : Bool) (q : BitVec 3) (f : List Bool → Bool) (s : State) : Out :=
  masked o { pr := [q.toNat], pw := [o.d.toNat] } (fun i ps s =>
    let r := f (ps.map fun l => srcP s i l q neg)
    i.medium s [] (i.parts.map fun l => (l, o.d.toNat, r))) s
def execLqryAll (o : Ops) (neg : Bool) (q : BitVec 3) (s : State) : Out := lqry o neg q (fun l => l.all id) s
def execLqryAny (o : Ops) (neg : Bool) (q : BitVec 3) (s : State) : Out := lqry o neg q (fun l => l.any id) s
def execLqrySame (o : Ops) (neg : Bool) (q : BitVec 3) (s : State) : Out :=
  lqry o neg q (fun l => l.all id || l.all fun b => !b) s

/-- The word with a bit for each lane where the predicate holds. -/
def laneWord (l : List Nat) : Word := BitVec.ofNat 32 (l.foldl (fun x k => x + 2 ^ k) 0)

def execLgath (o : Ops) (sc rank neg : Bool) (q : BitVec 3) (s : State) : Out :=
  masked o { pr := [q.toNat], vd := if sc then [] else [(o.d.toNat, 1)], sd := if sc then [(o.d.toNat, 1)] else [], sform := sc }
    (fun i ps s =>
      let on := ps.filter fun l => srcP s i l q neg
      if sc then i.mediumS s [(o.d.toNat, laneWord on)] []
      else i.medium s (i.parts.map fun l =>
        (l, o.d.toNat, if rank then BitVec.ofNat 32 (on.filter (· < l)).length else laneWord on)) []) s

/-! ## MATCH (R198) -/

def execMatch (o : Ops) (wide : Bool) (s : State) : Out :=
  masked o { src := [(o.a, if wide then 2 else 1)], vd := [(o.d.toNat, 1)] } (fun i ps s =>
    let val (l : Nat) : DWord := if wide then src64 s i l o.a true else (src32 s i l o.a).setWidth 64
    i.medium s (i.parts.map fun l =>
      (l, o.d.toNat, laneWord ((List.range 32).filter fun k => k = l || (ps.contains k && val k == val l)))) []) s

/-! ## REDL (R199, R200) -/

/-- The exact reduction of the present lanes' values, finished for the type. -/
def redlFn (op : RedOp) (ty : IntTy) (sat : Bool) (xs : List Word) : Word :=
  match op with
  | .add => fin32 ty sat (xs.foldl (fun t x => t + val32 ty x) 0)
  | .and => xs.foldl (fun t x => t &&& x) (BitVec.allOnes 32)
  | .or => xs.foldl (fun t x => t ||| x) 0
  | .xor => xs.foldl (fun t x => t ^^^ x) 0
  | .min => xs.foldl (iminFn ty) (if IntTy.signed ty then 0x7FFFFFFF else 0xFFFFFFFF)
  | .max => xs.foldl (imaxFn ty) (if IntTy.signed ty then 0x80000000 else 0)

def execRedl (o : Ops) (sc : Bool) (op : RedOp) (ty : IntTy) (sat : Bool) (s : State) : Out :=
  masked o { src := [(o.a, 1)], vd := if sc then [] else [(o.d.toNat, 1)], sd := if sc then [(o.d.toNat, 1)] else [], sform := sc }
    (fun i ps s =>
      let r := redlFn op ty sat (ps.map fun l => src32 s i l o.a)
      if sc then i.mediumS s [(o.d.toNat, r)] [] else i.medium s (i.parts.map fun l => (l, o.d.toNat, r)) []) s

/-- Combine two entries of the tree; the flags gather. -/
def redlComb (op : FRedOp) (r : Rnd) (fpm : Word) (x y : Option Nat) : Option Nat × FFlags :=
  match x, y with
  | none, y => (y, 0)
  | x, none => (x, 0)
  | some a, some b =>
    let u := flushIn fp32 (fpmFi fpm fp32) (fp32.decode a)
    let v := flushIn fp32 (fpmFi fpm fp32) (fp32.decode b)
    let z := match op with
      | .add => fAdd fp32 fpm r u v
      | .min => fMinMax fp32 fpm false u v
      | .max => fMinMax fp32 fpm true u v
    (some z.1, z.2)
/-- One level of the tree: neighbours combine (R200). -/
def redlLevel (op : FRedOp) (r : Rnd) (fpm : Word) : List (Option Nat) → List (Option Nat) × FFlags
  | x :: y :: rest =>
    let c := redlComb op r fpm x y
    let d := redlLevel op r fpm rest
    (c.1 :: d.1, c.2 ||| d.2)
  | l => (l, 0)
/-- The fixed tree over 32 lanes. -/
def redlTree (op : FRedOp) (r : Rnd) (fpm : Word) : Nat → List (Option Nat) → Option Nat × FFlags
  | 0, l => (l.headD none, 0)
  | n + 1, l =>
    let x := redlLevel op r fpm l
    let y := redlTree op r fpm n x.1
    (y.1, x.2 ||| y.2)

/-- REDL.F: under the FPM of the lowest participant, which takes the traps and the flags (R200). (DEDUCED, log 21.) -/
def execRedlF (o : Ops) (op : FRedOp) (rnd : Rnd) (s : State) : Out :=
  masked o { src := [(o.a, 1)], vd := [(o.d.toNat, 1)] } (fun i ps s =>
    let l0 := i.parts.headD 0
    let fpm := (s.thread i.t i.g l0).fpm
    let t := redlTree op (fpmRnd fpm rnd) fpm 5 ((List.range 32).map fun l =>
      if ps.contains l then some (srcF .f32 s i l o.a).toNat else none)
    let d : Nat := match t.1 with
      | some x => x
      | none => match op with
        | .add => 0
        | .min => 0x7F800000
        | .max => 0xFF800000
    match fpTrap (fpmTraps fpm) t.2 with
    | some tr => (i.medium (s.takeTrap i.t i.g l0 tr)
        ((i.parts.filter (· ≠ l0)).map fun l => (l, o.d.toNat, BitVec.ofNat 32 d)) [])
    | none =>
      let s := s.updThread i.t i.g l0 fun th => { th with fpm := fpmRaise th.fpm t.2 }
      i.medium s (i.parts.map fun l => (l, o.d.toNat, BitVec.ofNat 32 d)) []) s

end Sys2Proof.Machine
end

