-- ==== Sys2Proof/Machine/Graphics.lean ====
section
/-! DEFINITION. The graphics instructions (R314, R325 to R328) and the surface atomics (R331). -/

namespace Sys2Proof.Machine

/-! ## Mesh output (R313, R314) -/

/-- The raster state block of a team's draw. -/
def State.rsOf (s : State) (t : Nat) : BitVec 1024 := (s.lr t).raster

/-- Issue for a kind of group: elsewhere every participant raises ILLEGAL_OPERAND. -/
def kindIssue (k : Kind) (o : Ops) (u : Uses) (body : Iss → State → State) (s : State) : Out :=
  issue o u false (fun i s =>
    if (s.team i.t).kind = k then body i s
    else i.finish (s.takeTraps i.t i.g i.parts { cause := .illegalOperand }) [] false none) s

/-- Change a mesh team's output. -/
def State.updMesh (s : State) (t : Nat) (f : MeshOut → MeshOut) : State := s.updTeam t fun tm => { tm with mesh := f tm.mesh }

/-- A mesh overflow of an instruction (R313): under MOVF = 1 a trap, else counted and dropped. (DEDUCED, log 79.) -/
def State.overflowed (s : State) (t : Nat) : Option Trap × State :=
  if rsField (s.rsOf t) 0x18 41 41 = 1 then (some { cause := .meshOverflow }, s) else (none, s.meshOver (s.team t).launch)

/-- Each participant in ascending order, with its trap. -/
def meshLanes (i : Iss) (f : State → Nat → Option Trap × State) (s : State) : State :=
  i.finish (forEach i.parts s fun s l => match f s l with
    | (some tr, s) => s.takeTrap i.t i.g l tr
    | (none, s) => s) [] false none

/-- MSVTX and MSVTX.B128: `n` words at a word of a vertex. -/
def msvtxIssue (n : Nat) (o : Ops) (s : State) : Out :=
  kindIssue .mesh o { src := [(o.a, n), (o.b, 1), (o.c, 1)] } (fun i s => meshLanes i (fun s l =>
    let r := s.rsOf i.t
    let v := (src32 s i l o.b).toNat
    let w := (src32 s i l o.c).toNat
    if w % n ≠ 0 || 4 + rsAttrs r < w + n then (some { cause := .illegalOperand }, s)
    else if rsMaxV r ≤ v then s.overflowed i.t
    else
      let d := if n = 1 then [src32 s i l o.a] else src128 s i l o.a
      (none, s.updMesh i.t fun m => { m with
        verts := (numbered (36 * v + w) d).foldl (fun m x => amapInsert m x.1 x.2) m.verts })) s) s
/-- MSVTX: one word of a vertex; an immediate stands for its integer bits (R10). (DEDUCED, log 79; DESIGN CHOICE, log 124.) -/
def execMsvtx (o : Ops) (s : State) : Out := msvtxIssue 1 o s
def execMsvtxB128 (o : Ops) (s : State) : Out := msvtxIssue 4 o s

/-- MSPRIM: a primitive of the team's output (R313). (DESIGN CHOICE, log 106.) -/
def execMsprim (o : Ops) (s : State) : Out :=
  kindIssue .mesh o { src := [(o.a, 1), (o.b, 1)] } (fun i s => meshLanes i (fun s l =>
    let p := (src32 s i l o.b).toNat
    if rsMaxP (s.rsOf i.t) ≤ p then s.overflowed i.t
    else (none, s.updMesh i.t fun m => { m with prims := amapInsert m.prims p ((src32 s i l o.a).setWidth 25) })) s) s

/-- MSCOUNT: performed once, with the operands of the lowest participant. (DEDUCED, log 79.) -/
def execMscount (o : Ops) (s : State) : Out :=
  kindIssue .mesh o { src := [(o.a, 1), (o.b, 1)] } (fun i s =>
    match i.parts with
    | [] => i.finish s [] false none
    | l :: _ =>
      let r := s.rsOf i.t
      let nv := (src32 s i l o.a).toNat
      let np := (src32 s i l o.b).toNat
      let x := if rsMaxV r < nv || rsMaxP r < np then s.overflowed i.t else (none, s)
      match x with
      | (some tr, s) => i.faultAll s tr false
      | (none, s) =>
        let c := (min nv (rsMaxV r), min np (rsMaxP r))
        i.finish (s.updMesh i.t fun m => { m with counts := amapInsert m.counts i.g c }) [] false none) s

/-! ## INTERP and DERIV (R325, R326) -/

/-- The flight that a fragment lane shades. -/
def State.laneFlight (s : State) (t l : Nat) : Option Flight :=
  (s.team t).frag.bind fun f => (f.flights[l / 4]?).bind fun k => amapFind? s.flights k

/-- INTERP's location of a lane, in 1/256 of a pixel. (DEDUCED, log 85.) -/
def interpSpot (r : BitVec 1024) (t : Tri) (q : Quad) (p : Nat) (centroid : Bool) : Int × Int :=
  let X : Int := 256 * (q.x + p % 2 : Nat)
  let Y : Int := 256 * (q.y + p / 2 : Nat)
  let c := (X + 128, Y + 128)
  if centroid && rsSamp4 r && !t.covers c.1 c.2 then
    match (numbered 0 (sampleSpots true)).find? fun x => q.cover.getLsbD (4 * p + x.1) with
    | some x => (X + x.2.1, Y + x.2.2)
    | none => c
  else c

/-- The value of a slot at a lane of a quad; none for a slot that does not exist. -/
def interpSlot (r : BitVec 1024) (q : Quad) (p : Nat) (mode : InterpMode) (centroid : Bool) (slot : Nat) : Option Nat :=
  match triOf r q.prim with
  | none => none
  | some t =>
    let c := interpSpot r t q p centroid
    let inv := t.verts.map fun v => (Q.ofInt 1).div (Q.ofWord (v.getD 3 0))
    let attr (k : Nat) : List Q := t.verts.map fun v => Q.ofWord (v.getD k 0)
    if slot = 0 then some ({ n := c.1, e := -8 } : Q).toF32
    else if slot = 1 then some ({ n := c.2, e := -8 } : Q).toF32
    else if slot = 2 then some (t.depth c.1 c.2)
    else if slot = 3 then some (t.interp c.1 c.2 inv).toF32
    else if slot = 0x3E then some q.prim.id.prim
    else if slot = 0x3F then some (if t.front then 1 else 0)
    else if 4 + rsAttrs r ≤ slot then none
    else match mode with
      | .flat => some (q.prim.v0.getD slot 0).toNat
      | .linear => some (t.interp c.1 c.2 (attr slot)).toF32
      | .persp =>
        let den := t.interp c.1 c.2 inv
        if den.n = 0 then some 0
        else some ((t.interp c.1 c.2 (((attr slot).zip inv).map fun x => x.1.mul x.2)).div den).toF32

def execInterp (o : Ops) (mode : InterpMode) (centroid : Bool) (s : State) : Out :=
  mediumIssue o { src := [(o.a, 1)], vd := [(o.d.toNat, 1)] } (fun s i l =>
    match s.laneFlight i.t l with
    | none => { trap := some { cause := .illegalOperand } }
    | some f =>
      match interpSlot (s.rsOf i.t) f.quad (l % 4) mode centroid (src32 s i l o.a).toNat with
      | none => { trap := some { cause := .illegalOperand } }
      | some x => res32 o.d (BitVec.ofNat 32 x)) s

/-- The two lanes whose difference a lane computes: the one that is subtracted first. -/
def derivPair (y fine : Bool) (l : Nat) : Nat × Nat :=
  let q := 4 * (l / 4)
  let b := if !fine then q else if y then q + l % 2 else q + 2 * (l % 4 / 2)
  (b, if y then b + 2 else b + 1)

/-- A difference of a quad as DERIV computes it; one that reads an absent lane is +0. -/
def quadDiff (fpm : Word) (here : Nat → Bool) (val : Nat → Word) (y fine : Bool) (l : Nat) : Word × FFlags :=
  let p := derivPair y fine l
  if here p.1 && here p.2 then
    let r := fsubFn .f32 ⟨false, false, false, false, false, false, .dyn⟩ fpm (val p.2) (val p.1)
    (r.1.headD 0, r.2)
  else (0, 0)

/-- DERIV.X and DERIV.Y: a lane exchange that names the lanes of the participants' quads. (DEDUCED, log 85.) -/
def derivIssue (y : Bool) (o : Ops) (fine : Bool) (s : State) : Out :=
  issue o { src := [(o.a, 1)], vd := [(o.d.toNat, 1)] } false (fun i s =>
    let named := (i.parts.flatMap fun l => (List.range 4).map fun k => 4 * (l / 4) + k).eraseDups
    exchange i s named fun s =>
      let rs := i.parts.map fun l =>
        let fpm := (s.thread i.t i.g l).fpm
        let r := quadDiff fpm (fun k => i.parts.contains k) (fun k => src32 s i k o.a) y fine l
        (l, fpLane o.d fpm ([r.1], r.2))
      let ok := rs.filter fun x => x.2.trap.isNone
      let s := i.writeLanes s (rs.map fun x => (x.1, { x.2 with regs := [] }))
      i.medium s (ok.flatMap fun x => x.2.regs.map fun r => (x.1, r.1, r.2)) []) s
def execDerivX (o : Ops) (fine : Bool) (s : State) : Out := derivIssue false o fine s
def execDerivY (o : Ops) (fine : Bool) (s : State) : Out := derivIssue true o fine s

/-! ## Export and discard (R327) -/

/-- Change the export of a lane. -/
def State.updExport (s : State) (t l : Nat) (f : Export → Export) : State :=
  s.updTeam t fun tm => { tm with frag := tm.frag.map fun x => { x with exports := amapInsert x.exports l (f (amapGet {} x.exports l)) } }

def execFragexp (o : Ops) (s : State) : Out :=
  kindIssue .fragment o { src := [(o.a, 4)] } (fun i s =>
    let k := match o.b with
      | .imm b => b.toNat
      | _ => 0
    if rsNcol (s.rsOf i.t) ≤ k then i.finish (s.takeTraps i.t i.g i.parts { cause := .illegalOperand }) [] false none
    else i.finish (forEach i.parts s fun s l =>
      s.updExport i.t l fun e => { e with colour := amapInsert e.colour k (src128 s i l o.a) }) [] false none) s

/-- FRAGEXP.Z: each participant's depth; an immediate stands for its integer bits (R10). (DESIGN CHOICE, log 124.) -/
def execFragexpZ (o : Ops) (s : State) : Out :=
  kindIssue .fragment o { src := [(o.a, 1)] } (fun i s =>
    if rsField (s.rsOf i.t) 0x18 46 46 = 0 then i.finish (s.takeTraps i.t i.g i.parts { cause := .illegalOperand }) [] false none
    else i.finish (forEach i.parts s fun s l => s.updExport i.t l fun e => { e with z := some (src32 s i l o.a) }) [] false none) s

def execFragkill (o : Ops) (s : State) : Out :=
  kindIssue .fragment o {} (fun i s =>
    i.finish (forEach i.parts s fun s l => s.updExport i.t l fun e => { e with killed := true }) [] false none) s

/-! ## Rasteriser-ordered sections (R328) -/

/-- The thread of a fragment team, resident or saved. -/
def State.fragThread (s : State) (t l : Nat) : Thread :=
  match amapFind? s.teams t with
  | some tm => (amapGet {} tm.groups 0).thr l
  | none => match s.saved.findSome? fun kv => amapFind? kv.2.teams t with
    | some tm => (amapGet {} tm.groups 0).thr l
    | none => { stat := .dead }

/-- The fragment of a quad at one pixel is past its section: it has ended it or exited, or is not shaded. -/
def State.sectionDone (s : State) (f : Flight) (p : Nat) : Bool :=
  f.empty || f.exports.isSome || (match f.shader with
    | none => false
    | some (t, k) =>
      let th := s.fragThread t (4 * k + p)
      th.stat = .dead || th.sect = .ended)

/-- A thread may enter its section: every lower fragment of its pixel, of the draws of one queue, is past its own.
(DEDUCED, log 84.) -/
def State.mayEnter (s : State) (t l : Nat) : Bool :=
  match s.laneFlight t l with
  | none => true
  | some f =>
    let k := s.seqKey f.quad.prim.id f.quad.ix
    s.flights.all fun kv => !s.sameQueue kv.2.launch f.launch || kv.2.quad.x ≠ f.quad.x || kv.2.quad.y ≠ f.quad.y ||
      !keyLt (s.seqKey kv.2.quad.prim.id kv.2.quad.ix) k || s.sectionDone kv.2 (l % 4)

def execRocbeg (o : Ops) (s : State) : Out :=
  kindIssue .fragment o {} (fun i s =>
    let bad := i.parts.filter fun l => (s.thread i.t i.g l).sect.isOpen
    let s := s.takeTraps i.t i.g bad { cause := .illegalOperand }
    i.finishWait s (i.parts.filter fun l => !bad.contains l) .roc) s

/-- ROCEND: the thread's earlier SURFACE accesses have completed, since its group issues nothing before that. -/
def execRocend (o : Ops) (s : State) : Out :=
  kindIssue .fragment o {} (fun i s =>
    i.finish (forEach i.parts s fun s l => s.updThread i.t i.g l fun th =>
      { th with sect := if th.sect.isOpen then .ended else th.sect }) [] false none) s

/-- ROC_SECTION_ENTER: the waiting threads whose turn it is enter their sections. -/
def execRocSectionEnter (tid gix wid : Nat) (s : State) : Out :=
  match s.waitOf tid gix wid with
  | some ⟨lanes, .roc⟩ =>
    let go := lanes.filter fun l => s.mayEnter tid l
    if go.isEmpty then .fault .notEnabled else
    let left := lanes.filter fun l => !go.contains l
    .next (s.updGroup tid gix fun gr => { gr with
      readyAt := s.cclk
      waits := if left.isEmpty then amapErase gr.waits wid else amapInsert gr.waits wid ⟨left, .roc⟩
      threads := amapMap (fun l th => if go.contains l then
        { th with stat := if th.pend.isSome then .parked else .ready, pend := none, sect := .open_ s.cclk } else th) gr.threads })
  | _ => .fault .notEnabled

/-- ROC_TIMEOUT: a section held for 2^24 CCLK ends, and its thread is parked. -/
def execRocTimeout (tid lane : Nat) (s : State) : Out :=
  match (s.thread tid 0 lane).sect with
  | .open_ since =>
    let th := s.thread tid 0 lane
    if s.cclk < since + 2 ^ 24 || th.stat = .dead || th.stat = .parked || th.stat = .held || (s.team tid).kind ≠ .fragment
    then .fault .notEnabled
    else
      let s := s.updGroup tid 0 fun gr =>
        ({ gr with threads := amapInsert gr.threads lane { gr.thr lane with sect := .ended, stat := .ready } }).leaveWaits lane
      .next (s.takeTrap tid 0 lane { cause := .rocTimeout })
  | _ => .fault .notEnabled

/-- ROC_PREEMPT_TIMEOUT: pre-emption has waited 2^16 CCLK for a ROCEND: the ordering tokens are to be saved. -/
def execRocPreemptTimeout (tid : Nat) (s : State) : Out :=
  let tm := s.team tid
  let open_ := tm.groups.any fun g => g.2.threads.any fun th => th.2.sect.isOpen
  if !tm.preempt || tm.tokens || !open_ || s.cclk < tm.preemptAt + 2 ^ 16 then .fault .notEnabled else
  .next (s.updTeam tid fun tm => { tm with
    tokens := true
    groups := amapMap (fun _ g => { g with threads := amapMap (fun _ th => { th with sect := th.sect.keep s.cclk }) g.threads }) tm.groups })

/-! ## Surface atomics (R331) -/

/-- SATOM and SATOM.CAS: one update of each participant at its bank. -/
def satomIssue (o : Ops) (p xy w64 : Bool) (op : AOp) (cas : Bool) (x : MemX) (s : State) : Out :=
  let n := atBytes w64
  let w := n / 4
  let m : MMod := { p := p, xy := xy, ty := if w64 then .b64 else .b32, sc := 0 }
  memIssue o { src := (o.a, w) :: (if cas then [(x.e, w)] else []) ++ surfSrc o m x, vd := [(o.d.toNat, w)] }
    (some (o.d.toNat, w)) id (fun i s l =>
      s.surfLane i l n m x n op (op.operand s i l o.a w) (if cas then srcData s i l x.e w else 0) (.vec o.d.toNat w))
    (fun _ _ s => s) s
def execSatom (o : Ops) (p xy w64 sgn : Bool) (op : SatOp) (x : MemX) (s : State) : Out :=
  satomIssue o p xy w64 (.satom op w64 sgn) false x s
def execSatomCas (o : Ops) (p w64 : Bool) (x : MemX) (s : State) : Out :=
  satomIssue o p false w64 (.satomCas w64) true x s

end Sys2Proof.Machine
end

