-- ==== Sys2Proof/Machine/HostMem.lean ====
section
/-! DEFINITION. Host and peers (25_host): host CXL.mem requests, bias flips, the answers of CXL completers, and an
uncorrectable UCIe error (R394 to R403). -/

namespace Sys2Proof.Machine

/-! ## Host requests (R394, R398, R405) -/

/-- Device memory that the host window maps. (DEDUCED, log 94.) -/
def hdmEnd : Nat := 0x3000000000

/-- The unit of a host read, or none where it is poisoned: at the home slice in device bias, in memory in host bias. -/
def State.hostGet (s : State) (pa : Nat) : Option (List Byte) :=
  let u := pa / 64
  let bad : Bool := match amapFind? s.l2 (u / 2) with
    | some l => l.poison.getLsbD (u % 2)
    | none => s.unitPoisoned u 0
  if bad == true then none else some (s.peekBytes (64 * u) 64)

/-- Drop the bytes of a host write wherever they are clean in an L1 (R398). (DESIGN CHOICE, log 92.) -/
def State.hostInv (s : State) (pa n : Nat) : State :=
  let line := pa / 128
  forEach (amapKeys s.cores) s fun s c =>
    if (s.core c).l1.any (fun l => l.pline = line) then (s.overtake c line).l1Inv c line (byteMask (pa % 128) n) else s

/-- Merge a host write at its home: into memory in host bias, else in L2, with both replicas of a REPL line. A unit
written whole loses its poison. -/
def State.hostPut (s : State) (pa : Nat) (bs : List Byte) : State :=
  let n := bs.length
  let x := bytesToNat bs
  let line := pa / 128
  let replica (die : Nat) (s : State) : State := match amapFind? s.repl (2 * line + die) with
    | none => s
    | some r => { s with repl := amapInsert s.repl (2 * line + die) { r with data := lineWrite r.data (pa % 128) n x } }
  if n = 0 then s else
  let s := if s.hostBias pa then s.rowWrite pa n 0 x
    else if (amapFind? s.repl (2 * line)).isSome || (amapFind? s.repl (2 * line + 1)).isSome then
      replica 0 (replica 1 (s.rowWrite pa n 0 x))
    else (s.homeWrite pa n 0 x).hostInv pa n
  if n = 64 then s.unitWritten (pa / 64) else s

/-- Serve a host request. A read of a line in device bias is answered with the line in the Invalid state (R394); in host bias
the host may keep a copy. -/
def State.hostServe (s : State) (r : HostReq) : State :=
  match r.data with
  | none => { s with hostAns := (r.pa, s.hostGet r.pa, !s.hostBias r.pa) :: s.hostAns }
  | some bs => s.hostPut r.pa bs

/-- HOST_MEM_READ of one unit. Before DEVREADY it is answered with poison; while its page is being flipped it waits. -/
def execHostMemRead (pa : Nat) (s : State) : Out :=
  let pa := pa / 64 * 64
  if hdmEnd ≤ pa then .fault .notEnabled
  else if !s.boot.ready then .next { s with hostAns := (pa, none, true) :: s.hostAns }
  else if s.flipping pa then .next { s with hostReqs := s.hostReqs ++ [⟨pa, none⟩] }
  else .next (s.hostServe ⟨pa, none⟩)

/-- HOST_MEM_WRITE of bytes of one unit. The write-back that answers a snoop of a flip to device bias does not wait. -/
def execHostMemWrite (pa : Nat) (data : List Byte) (s : State) : Out :=
  let bs := data.take (64 - pa % 64)
  if hdmEnd ≤ pa then .fault .notEnabled
  else if !s.boot.ready then .next s
  else if s.flipping pa && !s.bias.snoops.contains (pa / 64) then .next { s with hostReqs := s.hostReqs ++ [⟨pa, some bs⟩] }
  else .next (s.hostPut pa bs)

/-! ## Bias (R396, R397) -/

/-- Where the bit of a page lies. -/
def State.biasByte (s : State) (page : Nat) : Nat := bitField 51 12 s.bias.ctl.toNat * 4096 + page / 8
/-- The bit of a page of the bias table. -/
def State.biasBit (s : State) (page : Nat) : Bool := s.peek (s.biasByte page) 1 / 2 ^ (page % 8) % 2 == 1
/-- Any bit of the table at BASE is 1: a byte that memory lists, or one of a line in L2, is not 0. (DEDUCED, log 94.) -/
def State.biasAny (s : State) : Bool :=
  let lo := s.biasByte 0
  let in_ (a : Nat) : Bool := decide (lo ≤ a) && decide (a < lo + 6291456)
  let units := (s.dram.map fun kv => kv.1 / 64) ++ amapKeys s.unitKey ++ (amapKeys s.l2).flatMap fun k => [2 * k, 2 * k + 1]
  units.any fun u => in_ (64 * u) && s.peek (64 * u) 64 != 0

/-- BIASCTL_WRITE. -/
def execBiasctlWrite (value : DWord) (s : State) : Out :=
  if !s.boot.ready then .next s else
  if s.bias.busy || s.biasAny then .next s else
  let x := value.toNat
  .next { s with bias := { s.bias with ctl := BitVec.ofNat 64 (bitField 63 63 x * 2 ^ 63 + bitField 51 12 x * 2 ^ 12) } }

/-- A page holds a booked granule, or one reserved for a saved hold. -/
def State.pageBooked (s : State) (page : Nat) : Bool :=
  s.rows.any fun kv => kv.2.granule / 2 = page && kv.2.state != .closed

/-- A flip is over: BUSY clears and vector 3 is raised. -/
def State.flipDone (s : State) (st : Nat) : State := { s with bias := { s.bias with busy := false, st := st, snoops := [] } }.msiRaise 3

/-- BIASFLIP_GO: a write of BIASFLIP with GO = 1. -/
def execBiasflipGo (value : DWord) (s : State) : Out :=
  if !s.boot.ready then .next s else
  let x := value.toNat
  if s.bias.busy || x % 2 = 0 then .next s else
  let page := bitField 51 12 x
  let dir := value.getLsbD 60
  let s := { s with bias := { s.bias with page := page, dir := dir } }
  if s.hostBias (4096 * page) == dir then .next (s.flipDone 0)
  else if s.pageBooked page then .next (s.flipDone 1)
  else .next { s with
    bias := { s.bias with busy := true, snoops := if dir then [] else (List.range 64).map fun k => 64 * page + k } }

/-- Every L1 copy of a line writes back its dirty bytes and is dropped; its masks are discarded; the L2 line goes to
memory (R397). -/
def State.flipLine (s : State) (line : Nat) : State :=
  let s := forEach (amapKeys s.cores) s fun s c =>
    forEach ((s.core c).l1.filter fun l => l.pline = line) s fun s l => ((s.mergeLine l).l1Drop c l).overtake c line
  let sl := homeOf line
  let s := { s with masks := amapMap (fun k es => if k = sl then es.filter (fun e => e.line ≠ line) else es) s.masks }
  match amapFind? s.l2 line with
  | none => s
  | some l => { s.dramWriteLine line l with l2 := amapErase s.l2 line }

/-- An access that waited for a flip goes on in its page's new bias. -/
def State.flipResume (s : State) (id : Nat) (a : Access) : State :=
  let a := { a with snoops := [] }
  if s.hostBias a.pa then { s with accs := amapInsert s.accs id { a with snoops := [biasMark (a.pa / 64)] } }
  else if a.engine then
    s.serve id a true (fun s => s.devGet a.core a.pa a.n a.key a.cls) fun s x =>
      let s := s.devPut a.pa a.n a.key a.cls x a.bad
      if a.whole && !a.bad then s.devSound a.pa a.cls else s
  else
  let r := s.byClass (some id) a ⟨a.pa, a.cls, a.key, a.h, a.lw⟩
  r.2.settle id a r.1

/-- Nothing that began before the flip still works on its page. (DESIGN CHOICE, log 92.) -/
def State.flipQuiet (s : State) : Bool :=
  let here (a : Access) : Bool := !a.h && a.value.isNone && a.pa / 4096 == s.bias.page && ptrTag a.va ≠ 1 &&
    !a.snoops.contains flipWait && !a.snoops.contains walkWait
  s.bias.snoops.isEmpty && !s.txns.any (fun t => (List.range 32).any fun k => t.onLine (32 * s.bias.page + k)) &&
  s.accs.all fun kv => !here kv.2

/-- BIAS_FLIP_COMPLETE: a page going to host bias leaves the caches; the bit is written and what waits goes on.
(DESIGN CHOICE, log 92.) -/
def execBiasFlipComplete (s : State) : Out :=
  if !s.bias.busy || !s.flipQuiet then .fault .notEnabled else
  let page := s.bias.page
  let s := if s.bias.dir then forEach (List.range 32) s fun s k => s.flipLine (32 * page + k) else s
  let b := s.peek (s.biasByte page) 1
  let b := b - b / 2 ^ (page % 8) % 2 * 2 ^ (page % 8) + (if s.bias.dir then 2 ^ (page % 8) else 0)
  let s := if 4096 * page < hdmEnd then s.pokeBytes (s.biasByte page) 0 [BitVec.ofNat 8 b] else s
  let s := s.flipDone 0
  let s := forEach (s.accs.filter fun kv => kv.2.snoops.contains flipWait) s fun s kv => s.flipResume kv.1 kv.2
  .next (forEach s.hostReqs { s with hostReqs := [] } fun s r => s.hostServe r)

/-- BIRSPI: the host answers the snoop of a unit. The oldest access that waits for it is performed in memory (R398); else
the flip in progress has one snoop less to wait for. -/
def execBirspi (unit : Nat) (s : State) : Out :=
  match s.accs.find? fun kv => kv.2.snoops.contains (biasMark unit) with
  | some (id, a) =>
    let a := { a with snoops := [] }
    .next ({ s with accs := amapInsert s.accs id a }.serve id a true (fun s => s.rowRead a.pa a.n a.key)
      fun s x => let s := (s.rowWrite a.pa a.n a.key x).unitStored a; if a.bad then s.setPoison (a.pa / 64) true else s)
  | none =>
    match s.walkSnooped unit with
    | some s => .next s
    | none =>
    if s.bias.busy && s.bias.snoops.contains unit then
      .next { s with bias := { s.bias with snoops := s.bias.snoops.filter (· ≠ unit) } }
    else .fault .notEnabled

/-! ## Host and peer memory (R400, R401) -/

/-- Two accesses of one thread, or of one group to common bytes: the lower numbered goes first (R224, R232, R234).
(DESIGN CHOICE, log 107.) -/
def Access.before (a b : Access) : Bool :=
  match a.who, b.who with
  | .thread t g l, .thread t' g' l' =>
    t == t' && g == g' && (l == l' || (decide (a.pa < b.pa + b.n) && decide (b.pa < a.pa + a.n)))
  | _, _ => false
/-- An access that waits for its completer, which keeps the order of a thread's requests, and of a group's to a byte. -/
def State.hWaiting (s : State) (acc : Nat) : Option Access :=
  match amapFind? s.accs acc with
  | some a =>
    if a.h && a.value.isNone && !s.accs.any (fun kv => decide (kv.1 < acc) && kv.2.h && kv.2.value.isNone && kv.2.before a) then some a
    else none
  | none => none

/-- H_PATH_COMPLETION: the completer performs the access. `data`, where it has the access's length, is what the completer
holds there by then; else it holds what was last written. (DESIGN CHOICE, log 107.) -/
def execHPathCompletion (acc : Nat) (data : List Byte) (poisoned : Bool) (s : State) : Out :=
  match s.hWaiting acc with
  | none => .fault .notEnabled
  | some a =>
    if !s.portUp a.pa then .fault .notEnabled else
    if poisoned && !a.engine then .next (s.failAcc acc a (poisonTrap a.va a.pa)) else
    let s := if data.length = a.n then s.hPut a.pa a.n (bytesToNat data) else s
    .next (s.serve acc a true (fun s => (s.hGet a.pa a.n, poisoned || s.hBad a.pa, s)) fun s x =>
      let s := s.hPut a.pa a.n x
      if a.bad then s.hMark a.pa true else if a.whole then s.hMark a.pa false else s)

/-- CXL_COMPLETION_TIMEOUT: POISON on the thread, or a poisoned answer to an engine, and an entry of the event log. -/
def execCxlCompletionTimeout (acc : Nat) (s : State) : Out :=
  match s.hWaiting acc with
  | none => .fault .notEnabled
  | some a =>
    let s := if a.engine then s.finishAcc acc { a with bad := true } 0 else s.failAcc acc a (poisonTrap a.va a.pa)
    .next (s.logEvent 4 a.core [a.va, a.pa])

/-- UCIE_UNCORRECTABLE_ERROR: every live grid ends with BREACH, and a machine check is raised (R403). -/
def execUcieUncorrectableError (s : State) : Out :=
  let s := forEach (s.liveLaunches.map (·.1)) s fun s la => s.endGrid la .breach
  .next ((s.logEvent 5 0 []).msiRaise 4)

end Sys2Proof.Machine
end

