-- ==== Sys2Proof/Machine/Manage.lean ====
section
/-! DEFINITION. Reset, bring-up, power and the management controller (26_bringup, R404 to R411; R4). -/

namespace Sys2Proof.Machine

/-! ## Reset and power (R404, R409) -/

/-- What a reset leaves: everything at its reset value but what lies outside the part, the controller's image, its log
and the count of its signatures. -/
def State.cleared (s : State) (powered : Bool) : State :=
  let m := s.mgmt
  let mgmt : Mgmt := { image := m.image, torn := m.torn || (m.writing && !powered), log := m.log, dropped := m.dropped, leaves := m.leaves }
  let boot : Bringup := { powered := powered }
  { State.reset with
    free := s.free
    inputs := s.inputs
    hostMem := s.hostMem
    peerMem := s.peerMem
    mgmt := mgmt
    boot := boot }

/-- The firmware image's signature does not verify (R409). -/
def Mgmt.badImage (m : Mgmt) : Bool := m.torn || !Config.signatureOk m.image

/-- Reset the module: the signature is checked first, and a failed check makes a recovery start: the rails, the domain and the
wing that serve the host port, the port for CXL.io alone, and the recovery mailbox. (DESIGN CHOICE, log 97.) -/
def State.resetModule (s : State) : State :=
  let s := s.cleared true
  if !s.mgmt.badImage then s else
  let s := { s with boot := { s.boot with recov := true, linked := true } }
  (s.setDomain (Config.hostPortUnit % 16) .on).updWing (Config.hostPortUnit / 16 % 8) fun w => { w with up := true }

/-- MODULE_RESET. -/
def execModuleReset (s : State) : Out := .next s.resetModule

/-- MODULE_POWER_LOSS: all contents are lost; an image that was being written will not verify. (DESIGN CHOICE, log 97.) -/
def execModulePowerLoss (s : State) : Out := .next (s.cleared false)

/-! ## Bring-up (R404, R405) -/

/-- Sub-steps of a step of R404. -/
def bringupParts : Nat → Nat
  | 1 => 32
  | 2 => 16
  | 3 => 12
  | _ => 1

/-- A step that stops bring-up when it fails. (DESIGN CHOICE, log 100.) -/
def State.bringupFail (s : State) : State :=
  let p := s.boot.phase
  let code := 1 + Config.freeChoice s.free % 255
  (({ s with free := s.free + 1, boot := { s.boot with fail := true, fcode := code } }.logEvent 7 p [code]).msiRaise 6)

/-- The effect of a completed sub-step. (DESIGN CHOICE, log 101.) -/
def State.bringupDo (s : State) (found : List Nat) : State :=
  let b := s.boot
  match b.phase with
  | 1 => s.setDomain b.sub .on
  | 2 => s.updWing b.sub fun w => { w with up := true }
  | 6 =>
    let bad := (found.filter (· < 4096)).eraseDups
    if bad.isEmpty then s else { s with retired := bad }.logEvent 8 0 bad
  | 7 => { s with boot := { b with gif := BitVec.ofNat 24 (2 ^ 24 - 1) } }
  | 8 =>
    let down := (List.range 4).filter fun k => !found.contains (k + 1)
    let peers : BitVec 4 := BitVec.ofNat 4 (((List.range 4).filter fun k => found.contains (k + 1)).foldl (fun n k => n + 2 ^ k) 0)
    let s := { s with boot := { b with linked := true, peers := peers } }
    if down.isEmpty then s else s.logEvent 9 0 down
  | 9 => { s with sdie := [], sdiePoison := [] }
  | 10 => { s with dram := [], dramPoison := [], unitKey := [] }
  | _ => s

/-- The next sub-step, or DEVREADY after step 10. -/
def State.bringupNext (s : State) : State :=
  let b := s.boot
  if b.sub + 1 < bringupParts b.phase then { s with boot := { b with sub := b.sub + 1 } }
  else if b.phase = 10 then { s with boot := { b with phase := 11, sub := 0, ready := true } }.msiRaise 6
  else { s with boot := { b with phase := b.phase + 1, sub := 0 } }

/-- BRINGUP_STEP_COMPLETE: the rails are stable, or the sub-step in progress has completed, with what it found: in step 6 the
banks that failed, in step 7 where it fails the interfaces trained, in step 8 the ports that linked (0 the host's).
(DESIGN CHOICE, log 6.) -/
def execBringupStepComplete (ok : Bool) (found : List Nat) (s : State) : Out :=
  let b := s.boot
  if !b.powered || b.recov || b.fail || b.ready then .fault .notEnabled
  else if b.phase = 0 then .next { s with boot := { b with phase := 1, sub := 0 } }
  else if (b.phase = 8 && !found.contains 0) || (!ok && (b.phase = 4 || b.phase = 5)) then .next s.bringupFail
  else if !ok && b.phase = 7 then
    let gif := (found.filter (· < 24)).eraseDups.foldl (fun n k => n + 2 ^ k) 0
    .next { s with boot := { b with gif := BitVec.ofNat 24 gif } }.bringupFail
  else .next (s.bringupDo found).bringupNext

/-! ## Clocks, power and temperature (R4, R406, R407) -/

/-- No entry is left in a crossing FIFO: every bank request is held, and every response has been taken. -/
def State.crossingQuiet (s : State) : Bool :=
  s.bankReqs.all (·.held) && s.resps.all fun x => (amapFind? s.pends x.2).isNone && (amapFind? s.accs x.2).isNone

/-- Hold the requests that lie in no FIFO: those behind the first 64 of their column. -/
def State.holdBeyond (s : State) : State :=
  let r := s.bankReqs.foldl (fun (acc : List BankReq × AMap Nat) x =>
    let n := amapGet 0 acc.2 (bankColumn x.bank)
    (acc.1 ++ [{ x with held := x.held || decide (64 ≤ n) }], amapInsert acc.2 (bankColumn x.bank) (n + 1))) ([], [])
  { s with bankReqs := r.1 }

/-- CLOCK_RATIO_CHANGE: 2:1, 5:2 or 3:1, in halves. It begins by holding new requests; once the crossing FIFOs are empty the
ratio switches and the held requests go on (R4, R40). -/
def execClockRatioChange (ratio : Nat) (s : State) : Out :=
  if !(ratio = 4 || ratio = 5 || ratio = 6) then .fault .notEnabled
  else if s.crossingQuiet && (s.ratioTo = none || s.ratioTo = some ratio) then
    .next { s with ratio := ratio, ratioTo := none, bankReqs := s.bankReqs.map fun x => { x with held := false } }
  else if s.ratioTo = none then
    .next { s.holdBeyond with ratioTo := some ratio, later := s.later ++ [.clockRatioChange ratio] }
  else .fault .notEnabled

/-- A change of CCLK: the guarantee of the keys that have W-path instructions in flight is suspended once more (R70).
(DESIGN CHOICE, log 78.) -/
def State.cclkChanged (s : State) : State :=
  { s with rows := amapMap (fun k r => if s.wBusy (k / 256) (k % 256) then { r with susp := r.susp + 1 } else r) s.rows }

/-- POWER_MANAGEMENT_TICK: one sample of the 192 diodes, of the 32 IVRs and of the coolant (°C, tenths of a litre a minute);
the clock is the lower of the one that holds power under the cap and the one that the diodes allow; an excursion of the
coolant is logged when it begins, and a trip is due once one diode has stayed over 120 °C at 1.2 GHz for 10 ms (R406, R407).
(DESIGN CHOICE, log 102.) -/
def execPowerManagementTick (temps : List Nat) (ivrs : IvrSample) (coolant : CoolantSample) (s : State) : Out :=
  let currents := ivrs.currents
  let volts := ivrs.volts
  let coolTemp := coolant.temp
  let coolFlow := coolant.flow
  if !s.boot.powered || temps.length ≠ 192 || currents.length ≠ 32 || volts.length ≠ 32 then .fault .notEnabled else
  let m := s.mgmt
  let steps (x : Nat) : Nat := min 3600 (max 1200 (x / 100 * 100))
  let hot := temps.any fun t => decide (105 < t)
  let allowed := if hot then max 1200 (m.cclkMhz - 100) else 3600
  let hotFor := (numbered 0 temps).filterMap fun x =>
    if m.cclkMhz = 1200 ∧ 120 < x.2 then some (x.1, amapGet 0 m.hotFor x.1 + 1) else none
  let out := decide (40 < coolTemp) || decide (coolFlow < 20)
  let clock := min (steps (Config.capClock s.free m.cap currents volts)) allowed
  let s := if clock = m.cclkMhz then s else s.cclkChanged
  let s := { s with free := s.free + 1, mgmt := { m with
    cclkMhz := clock, temps := temps, currents := currents, volts := volts, coolTemp := coolTemp, coolFlow := coolFlow
    coolOut := out, hotFor := hotFor
    trip := m.trip.or (if hotFor.any fun x => decide (100 ≤ x.2) then some temps else none) } }
  .next (if out && !m.coolOut then s.logEvent 13 0 [coolTemp, coolFlow] else s)

/-- THERMAL_TRIP: a diode over 120 °C at 1.2 GHz for 10 ms removes power; the event is logged first.
(DESIGN CHOICE, log 102.) -/
def execThermalTrip (s : State) : Out :=
  match s.mgmt.trip with
  | none => .fault .notEnabled
  | some temps => .next ((s.logEvent 10 0 temps).cleared false)

/-- IVR_OVERCURRENT: the domain is forced OFF (R55). -/
def execIvrOvercurrent (die k : Nat) (s : State) : Out :=
  execDomainOff die k true (s.logEvent 11 (16 * die + k) [])

/-! ## The mailbox (R408 to R411) -/

def mbOk : Nat := 0
def mbBadcmd : Nat := 1
def mbRefused : Nat := 2
def mbBadsig : Nat := 3

/-- The command bytes in MBDATA. -/
def State.mbBytes (s : State) : List Byte := (List.range (min s.mgmt.mbLen 4096)).map fun k => amapGet 0 s.mgmt.mbData k
/-- Put an answer into MBDATA. -/
def State.mbPut (s : State) (bs : List Byte) : State :=
  let bs := bs.take 4096
  let data := (numbered 0 bs).foldl (fun (m : AMap Byte) (x : Nat × Byte) => amapSet 0 m x.1 x.2) s.mgmt.mbData
  { s with mgmt := { s.mgmt with mbData := data, mbLen := bs.length } }
/-- A command is complete: ST, BUSY clear, vector 5. -/
def State.mbDone (s : State) (st : Nat) : State := { s with mgmt := { s.mgmt with mbSt := st, mbBusy := false } }.msiRaise 5

/-- A write of MBCTL: LEN and a command, ignored while one is in progress. -/
def State.mbctlWrite (s : State) (value : DWord) : State :=
  if s.mgmt.mbBusy then s else
  let x := value.toNat
  { s with mgmt := { s.mgmt with mbLen := min 4096 (bitField 44 32 x), mbCmd := x % 256, mbBusy := true } }

/-- A command in progress. In recovery only SENSORS and FWLOAD are accepted; how another ends is not stated.
(DESIGN CHOICE, log 99.) -/
def mbStep (cmd : Nat) (s : State) (f : State → Out) : Out :=
  if !s.boot.powered || !s.mgmt.mbBusy || s.mgmt.mbCmd ≠ cmd then .fault .notEnabled
  else if s.boot.recov && cmd ≠ 1 && cmd ≠ 5 then
    .next ({ s with free := s.free + 1 }.mbDone (if Config.freeChoice s.free % 2 = 0 then mbBadcmd else mbRefused))
  else f s

def execSensors (s : State) : Out :=
  mbStep 1 s fun s => .next ((s.mbPut (Config.sensorBytes s.mgmt.temps s.mgmt.currents s.mgmt.volts
    s.mgmt.coolTemp s.mgmt.coolFlow s.mgmt.cclkMhz)).mbDone mbOk)

/-- The 32 bytes of a log entry. -/
def LogEntry.bytes (e : LogEntry) : List Byte :=
  natToBytes 8 e.time ++ natToBytes 2 (Config.eventCode e.code).toNat ++ natToBytes 2 (Config.eventSource e.code e.src).toNat ++
  natToBytes 20 (Config.eventData e.code e.data).toNat
def execLogread (s : State) : Out :=
  mbStep 2 s fun s =>
    let es := (s.mgmt.log.drop (Config.logIndex s.mbBytes)).take 127
    .next ((s.mbPut (Config.logLayout (es.map LogEntry.bytes) s.mgmt.dropped)).mbDone mbOk)

def execPowercap (s : State) : Out :=
  mbStep 3 s fun s =>
    let w := Config.capOf s.mbBytes
    if w < 600 || 2400 < w then .next (s.mbDone mbRefused) else .next ({ s with mgmt := { s.mgmt with cap := w } }.mbDone mbOk)

/-- KEYSET: a slot other than 0 takes a new key. Keys that KEYSET has set are numbered from 512. -/
def execKeyset (s : State) : Out :=
  mbStep 4 s fun s =>
    let slot := Config.keySlotOf s.mbBytes % 512
    if slot = 0 then .next (s.mbDone mbRefused)
    else .next ({ s with keys := amapSet slot s.keys slot (512 + Config.unwrapKey s.mgmt.spdm s.mbBytes) }.mbDone mbOk)

/-- A chunk that is refused discards the partial image. -/
def State.fwDrop (s : State) (st : Nat) : State := { s with mgmt := { s.mgmt with partial_ := none } }.mbDone st

/-- A chunk has been accepted: with LAST the image must be whole and verify, and it is then written. -/
def State.fwTake (s : State) (img : List Byte) (total : Nat) (last : Bool) : State :=
  let s := { s with mgmt := { s.mgmt with partial_ := some img, chunkTotal := total } }
  if !last then s.mbDone mbOk
  else if img.length ≠ total then s.fwDrop mbRefused
  else if !Config.signatureOk img then s.fwDrop mbBadsig
  else { s with mgmt := { s.mgmt with writing := true } }

/-- The image has been written: it takes effect at the next reset, which recovery makes at once. (DESIGN CHOICE, log 99.) -/
def State.fwWritten (s : State) : State :=
  let img := s.mgmt.partial_.getD []
  let s := { s with mgmt := { s.mgmt with image := img, partial_ := none, writing := false, torn := false } }.mbDone mbOk
  if s.boot.recov then s.resetModule else s

/-- FWLOAD: one chunk (Table 26-5); while a verified image is being written, the end of the writing. -/
def execFwload (s : State) : Out :=
  mbStep 5 s fun s =>
    if s.mgmt.writing then .next s.fwWritten else
    if s.mgmt.mbLen < 16 then .next (s.mbDone mbBadcmd) else
    let bs := s.mbBytes
    let offset := bytesToNat (bs.take 4)
    let total := bytesToNat ((bs.drop 4).take 4)
    let flags := bytesToNat ((bs.drop 8).take 1)
    let rest := bytesToNat ((bs.drop 9).take 7)
    let body := bs.drop 16
    let last := flags / 2 % 2 == 1
    if 8 ≤ flags || rest ≠ 0 then .next (s.fwDrop mbRefused)
    else if flags / 4 = 1 then .next (s.fwDrop mbOk)
    else if flags % 2 = 1 then
      .next (if offset ≠ 0 then s.fwDrop mbRefused else s.fwTake body total last)
    else match s.mgmt.partial_ with
      | none => .next (s.mbDone mbRefused)
      | some img => .next (if total ≠ s.mgmt.chunkTotal || offset ≠ img.length then s.fwDrop mbRefused
                           else s.fwTake (img ++ body) total last)

/-- DEVSTAT as it reads (Table 26-1). -/
def State.devstat (s : State) : Nat :=
  let b := s.boot
  let flag (k : Nat) (x : Bool) : Nat := if x then 2 ^ k else 0
  flag 63 b.ready + flag 62 b.fail + flag 61 b.recov + 2 ^ 56 * b.phase + 2 ^ 48 * (b.fcode % 256) + 2 ^ 35 * s.retired.length + b.gif.toNat
/-- A word of SRETMAP as it reads (R44). -/
def State.sretmapWord (s : State) (w : Nat) : Nat := (s.retired.filter fun b => b / 64 = w).foldl (fun n b => n + 2 ^ (b % 64)) 0
/-- What measurements cover: the firmware image, SRETMAP and DEVSTAT (R411). -/
def State.measured (s : State) : List Byte :=
  s.mgmt.image ++ ((List.range 64).flatMap fun w => natToBytes 8 (s.sretmapWord w)) ++ natToBytes 8 s.devstat

/-- Codes of the requests that R411 names. (PRESUMED, log 98.) -/
def spdmRequests : List Nat := [0x84, 0xE1, 0xE3, 0x81, 0x82, 0x83, 0xE0, 0xE4]
/-- The code of an SPDM message. -/
def spdmCode (msg : List Byte) : Nat := (msg.getD 1 0).toNat
/-- A request whose answer is signed: CHALLENGE, KEY_EXCHANGE, and GET_MEASUREMENTS that asks for it. (PRESUMED, log 98.) -/
def spdmSigned (msg : List Byte) : Bool :=
  spdmCode msg == 0x83 || spdmCode msg == 0xE4 || (spdmCode msg == 0xE0 && (msg.getD 2 0).getLsbD 0)
/-- The answer to a request that is not supported: ERROR, UnsupportedRequest. (PRESUMED, log 98.) -/
def spdmUnsupported (msg : List Byte) : List Byte := [0x12, 0x7F, 0x07, msg.getD 1 0]

/-- SPDM: one message each way; a signature takes a leaf of 2^20, and is refused after the last (R411). -/
def execSpdm (s : State) : Out :=
  mbStep 6 s fun s =>
    let msg := s.mbBytes
    let signs := spdmSigned msg
    if !spdmRequests.contains (spdmCode msg) then .next ((s.mbPut (spdmUnsupported msg)).mbDone mbOk)
    else if signs && decide (2 ^ 20 ≤ s.mgmt.leaves) then .next (s.mbDone mbRefused) else
    let reply := Config.spdmReply s.mgmt.spdm msg s.measured (if signs then some s.mgmt.leaves else none)
    let m := s.mgmt
    .next (({ s with mgmt := { m with spdm := m.spdm ++ [msg], leaves := if signs then m.leaves + 1 else m.leaves } }.mbPut reply).mbDone mbOk)

/-- MAILBOX_BADCMD: any other code. -/
def execMailboxBadcmd (cmd : Nat) (s : State) : Out :=
  if 1 ≤ cmd && cmd ≤ 6 then .fault .notEnabled else mbStep cmd s fun s => .next (s.mbDone mbBadcmd)

/-- SCRATCHPAD_SLOT_GRANT: a bank's slot is taken, or stays unused; accesses to scratchpad are performed by their own
steps, so a grant shows only in timing (R288). (DESIGN CHOICE, log 103.) -/
def execScratchpadSlotGrant (core bank : Nat) (s : State) : Out :=
  if 192 ≤ core || 32 ≤ bank then .fault .notEnabled else .next s

end Sys2Proof.Machine
end

