-- ==== Sys2Proof/Machine/Porter.lean ====
section
/-! DEFINITION. Traps by instruction, the night porter, and dispositions of records by it and by the host
(20_faults, R348 to R358). -/

namespace Sys2Proof.Machine

/-! ## TRAP, TRAP.LEGACY, BKPT (R353) -/

/-- Each participant raises a trap of its own. -/
def raiseIssue (o : Ops) (u : Uses) (tr : State → Iss → Nat → Trap) (s : State) : Out :=
  issue o u false (fun i s => i.finish (forEach (i.parts.map fun l => (l, tr s i l)) s fun s x =>
    s.takeTrap i.t i.g x.1 x.2) [] false none) s

def execTrap (o : Ops) (s : State) : Out :=
  raiseIssue o { src := [(o.a, 1)] } (fun s i l => { cause := .software, info := (src32 s i l o.a).toNat }) s
def execTrapLegacy (o : Ops) (s : State) : Out :=
  raiseIssue o { src := [(o.a, 1), (o.b, 1)] } (fun s i l =>
    { cause := .legacy, info := 2 ^ 32 * (src32 s i l o.a).toNat + (src32 s i l o.b).toNat }) s

/-- BKPT: under a debugger the team stops, with every participant in the report; threads that such a report named go past
it at their first issue (R340, R366). -/
def execBkpt (o : Ops) (s : State) : Out :=
  issue o { src := [(o.a, 1)] } false (fun i s =>
    if s.attached i.t && (s.team i.t).kind ≠ .porter then
      let hit := i.parts.filter fun l => !(s.thread i.t i.g l).noBreak
      if hit.isEmpty then i.finish s [] false none
      else s.teamStop i.t 0x40 i.g (hit.map fun l => (i.g, l))
    else i.finish (forEach (i.parts.map fun l => (l, (src32 s i l o.a).toNat)) s fun s x =>
      s.takeTrap i.t i.g x.1 { cause := .bkpt, info := x.2 }) [] false none) s

/-! ## The night porter wakes and sleeps (R349, R357) -/

/-- The night porter goes to sleep. -/
def State.porterSleep (s : State) (core t : Nat) : State :=
  { s.updCore core (fun k => { k with porter := none }) with
    teams := amapErase s.teams t, pends := amapFilter (fun _ p => p.team ≠ t) s.pends }

/-- The record that wakes the porter (R349, R347): the oldest that it has not read of a launch with HDL = 1; else, where
FULL rose while it slept, the oldest of such a launch. (DEDUCED, log 29.) -/
def State.wakeRecord (s : State) (core : Nat) : Option GbEntry :=
  let mine (e : GbEntry) : Bool := !e.host && (s.launch e.launch).lr.hdl
  let k := s.core core
  match k.book.find? fun e => !e.read && mine e with
  | some e => some e
  | none => if k.called then k.book.find? mine else none

/-- PORTER_WAKE: the porter starts for the launch of that record, whose records it reads again. (DEDUCED, log 29.) -/
def execPorterWake (core : Nat) (s : State) : Out :=
  if !s.porterAsleep core then .fault .notEnabled else
  match s.wakeRecord core with
  | none => .fault .notEnabled
  | some e =>
    let la := e.launch
    let r := (s.launch la).lr
    let s := match s.porterTeam core with
      | some t => s.porterSleep core t
      | none => s
    let s := s.updCore core fun k => { k with
      porter := some la
      called := false
      book := k.book.map fun x => if x.launch = la then { x with read := false } else x }
    let th : Thread := { pc := (r.code + r.hdlpc) % 2 ^ 64, fpm := r.startFpm }
    let g : Group := { s := (numbered 0 r.args).foldl (fun m x => amapSet 0 m x.1 x.2) [], threads := [(0, th)], readyAt := s.cclk }
    let tm : Team := { kind := .porter, launch := la, core := core, groups := [(0, g)] }
    .next { s with uid := s.uid + 1, teams := amapInsert s.teams s.uid tm }

/-- RTT: the service ends and the porter sleeps. -/
def execRtt (o : Ops) (s : State) : Out :=
  issue o {} true (fun i s =>
    if i.parts.isEmpty then i.finish s [] true none else s.porterSleep (s.team i.t).core i.t) s

/-! ## Dispositions (R356, Table 20-7) -/

/-- What a disposal does with a record. -/
inductive Disp where
  | resume | skip | kill | killGroup
  deriving DecidableEq, Repr

/-- A record is of a thread. -/
def GbEntry.ofThread (e : GbEntry) (t g l : Nat) : Bool := e.team == t && e.group == g && e.lane == l
/-- Records of a thread that are in the book or held, other than one. (DEDUCED, log 29; DEDUCED, log 32.) -/
def State.otherRecords (s : State) (c : Nat) (e : GbEntry) : List GbEntry :=
  let k := s.core c
  ((k.book.filter fun x => x.seq ≠ e.seq) ++ k.held.filterMap fun h => match h with
    | .engine x => some x
    | .thread _ _ _ => none).filter fun x => x.ofThread e.team e.group e.lane

/-- RESUME and RESUME.SKIP of a thread record. A record of a failed BARRD leaves the PC alone (R239). The thread stays
parked while another record of it is undisposed. (DEDUCED, log 32.) -/
def State.threadResume (s : State) (c : Nat) (e : GbEntry) (skip : Bool) : State :=
  let t := e.team
  let g := e.group
  let l := e.lane
  let others := s.otherRecords c e
  let s := if others.any (·.barrd) then s else s.updThread t g l fun th => { th with pend := none }
  if (s.thread t g l).stat ≠ .parked then s else
  let s := s.updThread t g l fun th => { th with trapCause := BitVec.ofNat 8 e.cause }
  let s := if e.barrd then s
    else if skip then
      let n := s.skipLen t (s.thread t g l).pc
      n.2.updThread t g l fun th => { th with pc := (th.pc + n.1) % 2 ^ 64 }
    else s.updThread t g l fun th => { th with noBreak := e.brk }
  if others.isEmpty then s.makeReady t g l else s

/-- KILLT.G: the whole group, its records and held threads. -/
def State.threadKillGroup (s : State) (c t g : Nat) : State :=
  let s := (s.killGroup t g).unhold c fun h => match h with
    | .thread t' g' _ => t' == t && g' == g
    | .engine x => x.team == t && x.group == g
  s.updCore c fun k => { k with book := k.book.filter fun x => !(x.team == t && x.group == g) }

/-- Dispose of a record of a core's book: its effect, and its entry is free. -/
def State.dispose (s : State) (c : Nat) (e : GbEntry) (d : Disp) : State :=
  let s := if e.group < 32 then
      match d with
      | .resume => s.threadResume c e false
      | .skip => s.threadResume c e true
      | .kill => s.killThread e.team e.group e.lane
      | .killGroup => s.threadKillGroup c e.team e.group
    else if e.group = 32 then
      match d with
      | .resume => s.streamResume e.team e.unit
      | .skip => s.streamSkip e.team e.unit
      | _ => s.streamKill e.team
    else if e.group = 33 then
      match d with
      | .resume => s.copyResume e.unit
      | _ => s.copyKill e.unit
    else s
  s.bookFree c e.seq

/-- The undisposed record of the porter's launch that holds a SEQ. -/
def State.porterRecord (s : State) (t seq : Nat) : Option GbEntry :=
  (s.core (s.team t).core).book.find? fun e => e.seq = seq % 2 ^ 24 && e.launch = (s.team t).launch

/-- The sources and destination of a privileged word. (DESIGN CHOICE, log 110.) -/
def privUses (o : Ops) (src : List (Src × Nat)) : Uses := { src := src, sd := [(o.d.toNat, 1)] }

/-- Before a record is passed: the word that it skips has been read, or must be waited for. (DESIGN CHOICE, log 33.) -/
def State.skipReady (s : State) (e : GbEntry) : Bool × State :=
  let th := s.thread e.team e.group e.lane
  if 32 ≤ e.group || e.barrd || th.stat ≠ .parked then (true, s) else s.skipFetch e.team th.pc

/-- A disposition by the porter, with its status. `ready` tells whether it can be carried out now. -/
def disposeIssue (o : Ops) (f : State → Nat → GbEntry → State) (s : State)
    (ready : State → GbEntry → Bool × State := fun s _ => (true, s)) : Out :=
  onceIssue o (privUses o [(o.a, 1)]) true false (fun i l s =>
    match s.porterRecord i.t (src32 s i l o.a).toNat with
    | none => i.finish (s.writeS i.t i.g o.d.toNat 1) [] false none
    | some e => match ready s e with
      | (true, s) => i.finish (f (s.writeS i.t i.g o.d.toNat 0) (s.team i.t).core e) [] false none
      | (false, s) => { s with turn := .later }) s
def execResume (o : Ops) (s : State) : Out := disposeIssue o (fun s c e => s.dispose c e .resume) s
def execResumeSkip (o : Ops) (s : State) : Out := disposeIssue o (fun s c e => s.dispose c e .skip) s State.skipReady
def execKillt (o : Ops) (s : State) : Out := disposeIssue o (fun s c e => s.dispose c e .kill) s
def execKilltG (o : Ops) (s : State) : Out := disposeIssue o (fun s c e => s.dispose c e .killGroup) s
def execHaltt (o : Ops) (s : State) : Out := disposeIssue o (fun s _ e => s.endGrid e.launch .ended) s

/-! ## GBREAD (R354) -/

def execGbread (o : Ops) (q : BitVec 3) (s : State) : Out :=
  onceIssue o { src := [], sd := [(o.d.toNat, 16)], pw := [q.toNat] } true false (fun i l s =>
    let c := (s.team i.t).core
    let flag (s : State) (b : Bool) : State := s.addPend ⟨i.t, i.g, false, false, [], [(l, q.toNat, b)]⟩
    match (s.core c).book.find? fun e => e.launch = (s.team i.t).launch && !e.read && !e.host with
    | none => i.finish (flag s false) [] false none
    | some e =>
      let s := s.updCore c fun k => { k with book := k.book.map fun x => if x.seq = e.seq then { x with read := true } else x }
      let ws := e.words.flatMap fun w => toWords 2 w.toNat
      let s := s.addPend ⟨i.t, i.g, false, true, (numbered o.d.toNat ws).map fun x => (0, x.1, x.2), []⟩
      i.finish (flag s true) [] false none) s

/-! ## PKRD and PKWR (R355) -/

/-- A selector that names a piece of a thread's state, of a record of a thread. (DEDUCED, log 31.) -/
def State.selOk (s : State) (e : GbEntry) (sel : Nat) : Bool :=
  decide (e.group < 32) && decide (sel < 0x144) && (decide (0x100 ≤ sel) || decide (sel < s.regCount e.team))
/-- Read a piece of the parked thread. -/
def State.peekSel (s : State) (e : GbEntry) (sel : Nat) : Nat :=
  let th := s.thread e.team e.group e.lane
  if sel < 0x100 then (th.readV sel).toNat
  else if sel < 0x140 then (s.readS e.team e.group (sel - 0x100)).toNat
  else if sel = 0x140 then th.p.toNat % 128
  else if sel = 0x141 then s.pcOffset e.team th.pc
  else if sel = 0x142 then th.fpm.toNat
  else (s.rowstat e.team e.group).toNat
/-- Patch a piece; none where the value is refused (R189, R355, R392). -/
def State.patchSel (s : State) (e : GbEntry) (sel : Nat) (x : Word) : Option State :=
  let t := e.team
  let g := e.group
  let l := e.lane
  if sel < 0x100 then some (s.writeV t g l sel x)
  else if sel < 0x140 then some (s.writeS t g (sel - 0x100) x)
  else if sel = 0x140 then some (s.updThread t g l fun th => { th with p := BitVec.ofNat 8 (x.toNat % 128) })
  else if sel = 0x141 then
    if (s.lr t).nirop.getLsbD 31 || x.toNat % 4 ≠ 0 then none
    else some (s.updThread t g l fun th => { th with pc := ((s.lr t).code + x.toNat) % 2 ^ 64 })
  else if sel = 0x142 then if fpmLegal x then some (s.updThread t g l fun th => { th with fpm := x }) else none
  else some (s.updGroup t g fun gr => { gr with rowKey := (x >>> 24).setWidth 8 })

/-- PKRD: a piece of a parked thread, 0 where the SEQ names no record (R355). (DEDUCED, log 31.) -/
def execPkrd (o : Ops) (s : State) : Out :=
  onceIssue o (privUses o [(o.a, 1), (o.b, 1)]) true false (fun i l s =>
    let sel := (src32 s i l o.b).toNat
    if 0x144 ≤ sel then i.faultAll s { cause := .illegalOperand } false else
    match s.porterRecord i.t (src32 s i l o.a).toNat with
    | none => i.finish (s.scalPend i o.d.toNat 1 0) [] false none
    | some e =>
      if s.selOk e sel then i.finish (s.scalPend i o.d.toNat 1 (s.peekSel e sel)) [] false none
      else i.faultAll s { cause := .illegalOperand } false) s
/-- PKWR: a piece of a parked thread written; 1 where the SEQ names no record (R355). (DEDUCED, log 31.) -/
def execPkwr (o : Ops) (s : State) : Out :=
  onceIssue o (privUses o [(o.a, 1), (o.b, 1), (o.c, 1)]) true false (fun i l s =>
    let sel := (src32 s i l o.b).toNat
    if 0x144 ≤ sel then i.faultAll s { cause := .illegalOperand } false else
    match s.porterRecord i.t (src32 s i l o.a).toNat with
    | none => i.finish (s.writeS i.t i.g o.d.toNat 1) [] false none
    | some e =>
      match if s.selOk e sel then s.patchSel e sel (src32 s i l o.c) else none with
      | some s => i.finish (s.writeS i.t i.g o.d.toNat 0) [] false none
      | none => i.faultAll s { cause := .illegalOperand } false) s

/-! ## The host's side (R347, R351, R352) -/

/-- The host-delivered record of a core that holds a SEQ. -/
def State.hostRecord (s : State) (core seq : Nat) : Option GbEntry :=
  (s.core core).book.find? fun e => e.seq = seq % 2 ^ 24 && e.host
/-- A GBDISP write: one that names no host-delivered record is ignored. -/
def hostDispose (core seq : Nat) (f : GbEntry → State) (s : State) : Out :=
  if !s.boot.ready then .next s else
  match s.hostRecord core seq with
  | none => .next s
  | some e => .next (f e)
def execHostResume (core seq : Nat) (s : State) : Out := hostDispose core seq (fun e => s.dispose core e .resume) s
/-- The word that is passed may have to be read first. -/
def execHostResumeSkip (core seq : Nat) (s : State) : Out :=
  hostDispose core seq (fun e => match s.skipReady e with
    | (true, s) => s.dispose core e .skip
    | (false, s) => { s with later := s.later ++ [.hostResumeSkip core seq] }) s
def execHostKillt (core seq : Nat) (s : State) : Out := hostDispose core seq (fun e => s.dispose core e .kill) s
def execHostKilltG (core seq : Nat) (s : State) : Out := hostDispose core seq (fun e => s.dispose core e .killGroup) s
def execHostEndGrid (core seq : Nat) (s : State) : Out := hostDispose core seq (fun e => s.endGrid e.launch .ended) s

/-- GBPKc as it reads after an operation (Table 20-11). -/
def gbpkValue (st op sel seq : Nat) : DWord := BitVec.ofNat 64 (2 ^ 61 * st + 2 ^ 60 * op + 2 ^ 51 * (sel % 512) + 2 ^ 24 * (seq % 2 ^ 24))
/-- One operation through GBPKc: 1 STALE, 2 BADSEL. (DESIGN CHOICE, log 34.) -/
def gbpkOp (core seq sel op : Nat) (f : State → GbEntry → Option State) (s : State) : Out :=
  let done (s : State) (st : Nat) : Out := .next (s.updCore core fun k => { k with gbpk := gbpkValue st op sel seq })
  if !s.boot.ready then .next s else
  match s.hostRecord core seq with
  | none => done s 1
  | some e =>
    match if s.selOk e (sel % 512) then f s e else none with
    | some s => done s 0
    | none => done s 2
def execGbpkRead (core seq sel : Nat) (s : State) : Out :=
  gbpkOp core seq sel 0 (fun s e => some (s.updCore core fun k => { k with gbpkv := BitVec.ofNat 32 (s.peekSel e (sel % 512)) })) s
def execGbpkWrite (core seq sel : Nat) (s : State) : Out :=
  gbpkOp core seq sel 1 (fun s e => s.patchSel e (sel % 512) (s.core core).gbpkv) s
/-- A write of GBSTATc: FULL is cleared by a 1. -/
def execGbstatClear (core : Nat) (value : DWord) (s : State) : Out :=
  if !s.boot.ready then .next s else
  .next (if value.getLsbD 31 then s.updCore core fun k => { k with full := false } else s)

end Sys2Proof.Machine
end

