-- ==== Sys2Proof/Machine/Ring.lean ====
section
/-! DEFINITION. The host ring (16_scheduling, R299 to R301): its registers, and one step for each kind of entry. -/

namespace Sys2Proof.Machine

/-- Entries of the ring. -/
def Ring.size (r : Ring) : Nat := 2 ^ (r.logn + 4)

/-- HRCTL_WRITE: with EN = 1 only EN changes; a write of LOGN 12 to 15 is ignored. -/
def execHrctlWrite (value : DWord) (s : State) : Out :=
  if !s.boot.ready then .next s else
  let x := value.toNat
  let en := value.getLsbD 0
  if s.ring.en then .next { if en then s else s.engDrop (· == Who.unit .ring) with ring := { s.ring with en := en } }
  else if 12 ≤ bitField 11 8 x then .next s
  else .next { s with ring := { s.ring with base := x / 4096, logn := bitField 11 8 x, en := en } }

/-- RING_DOORBELL: a write of HRTAIL; one that sets a bit above TAIL is ignored. -/
def execRingDoorbell (value : DWord) (s : State) : Out :=
  if !s.boot.ready then .next s else
  if 2 ^ 16 ≤ value.toNat then .next s else .next { s with ring := { s.ring with tail := value.toNat } }

/-- An entry of the ring as a number of 64 bytes, or none where the device reads no entry: before DEVREADY, with the
ring disabled or empty. -/
def State.ringEntry (s : State) : Option Nat :=
  let r := s.ring
  if s.boot.ready && r.en && r.head % r.size != r.tail % r.size then
    some (memRead s.hostMem (4096 * r.base + 64 * (r.head % r.size)) 64)
  else none

/-- The fields of an entry (Table 16-4). -/
def reOp (x : Nat) : Nat := bitField 7 0 x
def reQid (x : Nat) : Nat := bitField 15 8 x
def reIrq (x : Nat) : Bool := bitField 16 16 x == 1
def reRecord (x : Nat) : Nat := bitField 127 64 x
def reCaddr (x : Nat) : Nat := bitField 191 128 x
def reSpace (x : Nat) : Nat := bitField 203 192 x
def reScope (x : Nat) : Nat := bitField 205 204 x
def rePages (x : Nat) : Nat := bitField 225 206 x
def reTicket (x : Nat) : Nat := bitField 207 192 x
def reVa (x : Nat) : Nat := bitField 312 268 x * 4096

/-- An entry that is skipped and counted: an unknown OP, a reserved field set, an address that is no multiple of its
size, or a TLBI with SCOPE 11 or a PAGE scope of no pages. (DEDUCED, log 95.) -/
def reBad (x : Nat) : Bool :=
  decide (3 < reOp x) || bitField 63 17 x != 0 || x / 2 ^ 320 % 2 ^ 192 != 0 || reCaddr x % 16 != 0 ||
  (reOp x == 1 && reRecord x % 64 != 0) || (reOp x == 2 && (reScope x == 3 || (reScope x == 0 && rePages x == 0)))

/-- The device has copied an entry. (DEDUCED, log 95.) -/
def State.ringPass (s : State) : State :=
  { s with ring := { s.ring with head := (s.ring.head + 1) % s.ring.size } }

/-- Carry out the entry at HEAD, where it is one of an operation. -/
def ringStep (op : Nat) (s : State) (f : State → Nat → Out) : Out :=
  match s.ringEntry with
  | none => .fault .notEnabled
  | some x => if reOp x ≠ op || reBad x then .fault .notEnabled else f s.ringPass x

def execRingNop (s : State) : Out := ringStep 0 s fun s _ => .next s

/-- Read one 64 B unit of a launch record at its home, and whether it is poisoned. (DEDUCED, log 65.) -/
def State.recUnit (s : State) (pa : Nat) : EAns × State :=
  s.unitAt { unitAcc .ring 0 0 pa 64 (.load false) 0 false with pa := pa } fun s =>
    (bytesToNat (s.peekBytes pa 64), match amapFind? s.l2 (pa / 128) with
      | some l => l.poison.getLsbD (pa / 64 % 2)
      | none => s.unitPoisoned (pa / 64) 0, s)
/-- The units of a record from `pa` on, `n` of them: its bytes and whether one is poisoned; none where one must be waited for. -/
def State.recUnits (s : State) (pa : Nat) : Nat → Option (Nat × Bool) × State
  | 0 => (some (0, false), s)
  | n + 1 =>
    let x := s.recUnit pa
    let y := x.2.recUnits (pa + 64) n
    (match x.1, y.1 with
      | .val v bad, some z => some (v + 2 ^ 512 * z.1, bad || z.2)
      | _, _ => none, y.2)

/-- Read a launch record at a physical address; poisoned bytes are no bytes that the specification states. None where it must be
waited for. (DEDUCED, log 65; DEDUCED, log 95.) -/
def State.recordAt (s : State) (pa : Nat) : Option Nat × State :=
  match s.recUnits pa 1 with
  | (none, s) => (none, s)
  | (some h, s) =>
    match s.recUnits pa (ceilDiv (recBytes h.1) 64) with
    | (none, s) => (none, s)
    | (some r, s) =>
      let s := s.engDrop (· == Who.unit .ring)
      if r.2 then (some (Config.freeChoice s.free % 2 ^ (8 * 640)), { s with free := s.free + 1 }) else (some (r.1 % 2 ^ (8 * recBytes h.1)), s)

/-- RING_LAUNCH: enqueue a launch. A full queue stops the ring at the entry, and it waits there for the record. -/
def execRingLaunch (s : State) : Out :=
  match s.ringEntry with
  | none => .fault .notEnabled
  | some x =>
    if reOp x ≠ 1 || reBad x || decide (64 ≤ (s.queue (reQid x)).items.length) then .fault .notEnabled else
    match s.recordAt (reRecord x) with
    | (none, s) => .next s
    | (some r, s) => .next (s.ringPass.enqueue (reQid x) r (reRecord x) (reCaddr x) (reIrq x) false).2

/-- RING_TLBI: start a shootdown, reported once every wing has acknowledged it (R108, R300). -/
def execRingTlbi (s : State) : Out :=
  ringStep 2 s fun s x =>
    let sc := reScope x
    .next (s.shootStart ⟨sc, if sc = 2 then 0 else reSpace x, if sc = 0 then reVa x else 0, if sc = 0 then rePages x else 1,
                         none, reCaddr x, reIrq x⟩)

/-- CANCEL of a ticket (R301): a live launch leaves its queue, or its grid is stopped. The answer tells whether a live
launch had the ticket. (DEDUCED, log 95.) -/
def State.cancel (s : State) (ticket : Nat) : Bool × State :=
  match s.byTicket ticket with
  | none => (false, s)
  | some la =>
    let l := s.launch la
    (true, if l.live.isEmpty && l.saved.isEmpty && l.next = 0 then s.failLaunch la .cancelled else s.endGrid la .cancelled)

/-- RING_CANCEL. -/
def execRingCancel (s : State) : Out :=
  ringStep 3 s fun s x =>
    match s.cancel (reTicket x) with
    | (hit, s) => .next (s.completionRecord (reCaddr x) (reTicket x) (if hit then Status.code .cancelled else Status.code .ok) false (reIrq x))

/-- RING_UNKNOWN_OP: an entry that is skipped, and counted in the event log. -/
def execRingUnknownOp (s : State) : Out :=
  match s.ringEntry with
  | none => .fault .notEnabled
  | some x => if reBad x then .next (s.ringPass.logEvent 6 0 [x]) else .fault .notEnabled

/-! ## Configuration registers of queues and spaces -/

/-- Live launches of a space. -/
def State.spaceLive (s : State) (n : Nat) : Bool := s.liveLaunches.any fun kv => kv.2.space == n

/-- QCFG_WRITE (R294): CLASS 11 is ignored; while COUNT is not 0 only WEIGHT changes. (DEDUCED, log 67.) -/
def execQcfgWrite (n : Nat) (value : DWord) (s : State) : Out :=
  if !s.boot.ready then .next s else
  let x := value.toNat
  let w := bitField 47 40 x
  let w := if w = 0 then 1 else w
  if bitField 62 61 x = 3 then .next s
  else .next (s.updQueue n fun q =>
    if !q.items.isEmpty then { q with weight := w } else
    { q with en := value.getLsbD 63, cls := bitField 62 61 x, die := bitField 60 60 x, space := bitField 59 48 x, weight := w })

/-- SPROOT_WRITE (R90): ignored while a lease of the space is live. With it system software may give the space its window of
surface-table entries (R48). (DESIGN CHOICE, log 70.) -/
def execSprootWrite (space : Nat) (value : SpaceSetup) (s : State) : Out :=
  if !s.boot.ready then .next s else
  let x := value.root.toNat
  let s := match value.win with
    | none => s
    | some w => s.updSpace space fun sp => { sp with steWin := w % 16 }
  if s.leases.any fun kv => kv.2.space == space && kv.2.granted && !kv.2.dying then .next s
  else .next (s.updSpace space fun sp => { sp with root := BitVec.ofNat 64 (bitField 63 63 x * 2 ^ 63 + bitField 51 12 x * 2 ^ 12) })

/-- SPWING_WRITE (R295): ignored while a launch of the space is enqueued, resident or pre-empted. -/
def execSpwingWrite (space : Nat) (value : DWord) (s : State) : Out :=
  if !s.boot.ready then .next s else
  if s.spaceLive space then .next s
  else .next (s.updSpace space fun sp => { sp with wing := BitVec.ofNat 64 (value.toNat % 2 ^ 16) })

/-- SPSAVE_WRITE (R360): ignored while a team of the space is pre-empted. -/
def execSpsaveWrite (space : Nat) (value : DWord) (s : State) : Out :=
  if !s.boot.ready then .next s else
  if s.saved.any (fun kv => (s.launch kv.2.cluster.launch).space == space) || s.draining.any (fun t => s.spaceOf t == space) then .next s
  else .next (s.updSpace space fun sp => { sp with save := BitVec.ofNat 64 (bitField 63 12 value.toNat * 2 ^ 12) })

end Sys2Proof.Machine
end

