-- ==== Sys2Proof/Machine/Registers.lean ====
section
/-! DEFINITION. The device register block (25_host, R395, Tables 25-5 and 25-6): where each register lies, what it reads as,
and what a write of it does. -/

namespace Sys2Proof.Machine

/-- A register of the block. -/
inductive Reg where
  | devstat | mbctl | biasctl | biasflip | dbgreq | hrctl | hrhead | hrtail
  | lreqinfo (die : Nat) | lreqaddr (die : Nat) | lgrant (die : Nat)
  | intlv (n : Nat)
  | sretmap (word : Nat)
  | mbdata (word : Nat)
  | qcfg (n : Nat)
  | sproot (n : Nat) | spwing (n : Nat) | spsave (n : Nat) | spxc (n : Nat) | spdbg (n : Nat) | sptrial (n : Nat)
  | sptrcnt (n : Nat) | spbp (n k : Nat) | spwatch (n k : Nat) | spprog (n k : Nat)
  | gbstat (c : Nat) | gbdisp (c : Nat) | gbpk (c : Nat) | gbpkv (c : Nat) | gbwin (c word : Nat)
  | msixTable (word : Nat)
  | msixPba (word : Nat)
  deriving DecidableEq, Repr

/-- The register of a space's block at an offset in it. -/
def spaceReg (n o : Nat) : Option Reg :=
  match o / 8 with
  | 0 => some (.sproot n)
  | 1 => some (.spwing n)
  | 2 => some (.spsave n)
  | 3 => some (.spxc n)
  | 4 => some (.spdbg n)
  | 5 => some (.sptrial n)
  | 6 => some (.sptrcnt n)
  | w =>
    if 8 ≤ w && w < 24 then some (.spbp n (w - 8))
    else if 24 ≤ w && w < 32 then some (.spwatch n (w - 24))
    else if 32 ≤ w && w < 48 then some (.spprog n (w - 32))
    else none

/-- The register of a core's block at an offset in it. -/
def coreReg (c o : Nat) : Option Reg :=
  if 0x1000 ≤ o then some (.gbwin c ((o - 0x1000) / 8)) else
  match o / 8 with
  | 0 => some (.gbstat c)
  | 1 => some (.gbdisp c)
  | 2 => some (.gbpk c)
  | 3 => some (.gbpkv c)
  | _ => none

/-- The register at an offset of the block; none where Table 25-5 lists none. -/
def regAt (o : Nat) : Option Reg :=
  if o % 8 ≠ 0 then none
  else if o < 0x80 then
    match o with
    | 0x00 => some .devstat
    | 0x08 => some .mbctl
    | 0x10 => some .biasctl
    | 0x18 => some .biasflip
    | 0x20 => some .dbgreq
    | 0x40 => some .hrctl
    | 0x48 => some .hrhead
    | 0x50 => some .hrtail
    | _ => none
  else if o < 0xC0 then
    let d := (o - 0x80) / 0x20
    match (o - 0x80) % 0x20 / 8 with
    | 0 => some (.lreqinfo d)
    | 1 => some (.lreqaddr d)
    | 2 => some (.lgrant d)
    | _ => none
  else if 0x100 ≤ o && o < 0x180 then some (.intlv ((o - 0x100) / 8))
  else if 0x200 ≤ o && o < 0x400 then some (.sretmap ((o - 0x200) / 8))
  else if 0x1000 ≤ o && o < 0x2000 then some (.mbdata ((o - 0x1000) / 8))
  else if 0x2000 ≤ o && o < 0x2800 then some (.qcfg ((o - 0x2000) / 8))
  else if 0x10000 ≤ o && o < 0x210000 then spaceReg ((o - 0x10000) / 0x200) ((o - 0x10000) % 0x200)
  else if 0x400000 ≤ o && o < 0x580000 then coreReg ((o - 0x400000) / 0x2000) ((o - 0x400000) % 0x2000)
  else if 0x600000 ≤ o && o < 0x601000 then some (.msixTable ((o - 0x600000) / 8))
  else if 0x610000 ≤ o && o < 0x610020 then some (.msixPba ((o - 0x610000) / 8))
  else none

/-! ## Reading -/

/-- A bit field of a register's value. -/
def fld (lo x : Nat) : Nat := 2 ^ lo * x
def flag (lo : Nat) (b : Bool) : Nat := if b then 2 ^ lo else 0

/-- A core's guest-book window: entry `i`'s word `w`, 0 where the entry is empty. -/
def State.gbWord (s : State) (c i w : Nat) : Nat :=
  match (s.core c).book[i]? with
  | some e => (e.words.getD w 0).toNat
  | none => 0

/-- What a register reads as. Write-only registers read as 0. (DEDUCED, log 115.) -/
def State.regValue (s : State) (r : Reg) : Nat :=
  match r with
  | .devstat => s.devstat
  | .mbctl => flag 63 s.mgmt.mbBusy + fld 61 s.mgmt.mbSt + fld 32 s.mgmt.mbLen
  | .biasctl => s.bias.ctl.toNat
  | .biasflip => flag 63 s.bias.busy + fld 61 s.bias.st + flag 60 s.bias.dir + fld 12 s.bias.page
  | .dbgreq | .hrtail | .lgrant _ | .gbdisp _ => 0
  | .hrctl => fld 12 s.ring.base + fld 8 s.ring.logn + flag 0 s.ring.en
  | .hrhead => s.ring.head
  | .lreqinfo d => (match (s.die d).posted with
    | none => 0
    | some q => 2 ^ 63 + flag 62 q.release + fld 32 q.space + fld 16 q.lease + q.nrange)
  | .lreqaddr d => (match (s.die d).posted with
    | none => 0
    | some q => q.addr)
  | .intlv n =>
    let r := s.region n
    (amapGet 0 s.intlv n).toNat + fld 34 (amapGet 0 s.intlvSt n) + fld 15 (if r.bad then 0 else s.deadFrames r)
  | .sretmap w => s.sretmapWord w
  | .mbdata w => bytesToNat ((List.range 8).map fun k => amapGet 0 s.mgmt.mbData (8 * w + k))
  | .qcfg n =>
    let q := s.queue n
    flag 63 q.en + fld 61 q.cls + fld 60 q.die + fld 48 q.space + fld 40 q.weight + fld 33 q.items.length
  | .sproot n => (s.space n).root.toNat
  | .spwing n => (s.space n).wing.toNat
  | .spsave n => (s.space n).save.toNat
  | .spxc n => (s.space n).xc.toNat
  | .spdbg n => (s.space n).dbg.toNat
  | .sptrial n => (s.space n).trial.toNat
  | .sptrcnt n => (s.space n).trcnt.toNat
  | .spbp n k => (amapGet 0 (s.space n).bp k).toNat
  | .spwatch n k => (amapGet 0 (s.space n).watch k).toNat
  | .spprog n k => (amapGet 0 (s.space n).prog k).toNat
  | .gbstat c => flag 31 (s.core c).full + fld 16 (s.core c).held.length + (s.core c).book.length
  | .gbpk c => (s.core c).gbpk.toNat
  | .gbpkv c => (s.core c).gbpkv.toNat
  | .gbwin c w => s.gbWord c (w / 8) (w % 8)
  | .msixTable w => (amapGet 0 s.msi.table w).toNat
  | .msixPba w => (s.msi.pending.eraseDups.filter fun v => v / 64 = w).foldl (fun n v => n + 2 ^ (v % 64)) 0

/-- MBDATA and GBWINc, which accept aligned accesses of 4 bytes. -/
def Reg.halves (r : Reg) : Bool :=
  match r with
  | .mbdata _ | .gbwin _ _ => true
  | _ => false
/-- The registers that are served in recovery, and, but for DEVSTAT, written before DEVREADY. -/
def Reg.early (r : Reg) : Bool :=
  match r with
  | .mbctl | .mbdata _ => true
  | _ => false

/-- An access of the block of a size that its registers accept (R395). (DEDUCED, log 115.) -/
def sizeOk (offset size : Nat) : Bool :=
  (size == 8 && offset % 8 == 0) ||
  (size == 4 && offset % 4 == 0 && match regAt (offset / 8 * 8) with
    | some r => r.halves
    | none => false)

/-- A read of the block over CXL.io: all ones at another size; 0 at an offset that the part does not list, and in recovery at
any register but DEVSTAT, MBCTL and MBDATA; none until the host port has linked (R395, R405, R409). (DEDUCED, log 115.) -/
def State.registerRead (s : State) (offset size : Nat) : Option Nat :=
  if !s.boot.powered || !s.boot.linked then none
  else if !sizeOk offset size then some (2 ^ (8 * size) - 1)
  else match regAt (offset / 8 * 8) with
    | none => some 0
    | some r => if s.boot.recov && r ≠ .devstat && !r.early then some 0
      else some (s.regValue r / 2 ^ (8 * (offset % 8)) % 2 ^ (8 * size))

/-- DEVSTAT as the management controller reads it: from step 1 of bring-up on (R405). (DEDUCED, log 115.) -/
def State.controllerDevstat (s : State) : Option Nat :=
  if s.boot.powered && decide (1 ≤ s.boot.phase) then some s.devstat else none

/-! ## Writing -/

/-- The effect of a write that has one, else none: the write is ignored. -/
def ignoreUnless (s : State) (o : Out) : Out :=
  match o with
  | .next s => .next s
  | _ => .next s

/-- INTLV_WRITE (R41, R42): ignored, with ST = BUSY, while a surface in it is ALLOCATING, ACTIVE or RELEASING. -/
def execIntlvWrite (n : Nat) (value : DWord) (s : State) : Out :=
  if !s.boot.ready then .next s else
  let held := s.stes.any fun kv => kv.2.regionIx == n &&
    (kv.2.state == .allocating || kv.2.state == .active || kv.2.state == .releasing)
  if held then .next { s with intlvSt := amapInsert s.intlvSt n 2 } else
  let x := value.toNat
  let v : DWord := BitVec.ofNat 64 (bitField 63 36 x * 2 ^ 36 + x % 2 ^ 12)
  let s := { s with
    intlv := amapInsert s.intlv n v
    intlvSt := amapInsert s.intlvSt n (if (regionOf v).bad then 1 else 0) }
  .next (s.initReserve n)

/-- A write of BIASFLIP: with GO it starts a flip, else it sets DIR and PAGE; ignored while BUSY. -/
def State.biasflipWrite (s : State) (value : DWord) : Out :=
  if value.getLsbD 0 then execBiasflipGo value s
  else if s.bias.busy then .next s
  else .next { s with bias := { s.bias with dir := value.getLsbD 60, page := bitField 51 12 value.toNat } }

/-- A write of DBGREQ (Table 21-1). -/
def State.dbgreqWrite (s : State) (value : DWord) : Out :=
  let x := value.toNat
  let space := bitField 63 52 x
  let ticket := bitField 51 36 x
  let core := bitField 35 28 x
  if bitField 27 3 x ≠ 0 then .next s else
  match x % 8 with
  | 0 => execDbgreqStop space ticket core s
  | 1 => execDbgreqResume space ticket core s
  | 2 => execDbgreqStep space ticket core s
  | 3 => execDbgreqPreempt space ticket core s
  | 4 => execDbgreqDump space ticket core s
  | _ => .next s

/-- A write of LGRANT (Table 06-6). -/
def State.lgrantWrite (s : State) (die : Nat) (value : DWord) : Out :=
  let x := value.toNat
  let lease := bitField 31 16 x
  if 2 ^ 32 ≤ x || bitField 15 2 x ≠ 0 then .next s else
  let rel : Bool := match (s.die die).posted with
    | some q => q.release
    | none => false
  match x % 4 with
  | 0 => if rel == true then ignoreUnless s (execLgrantReleaseAck die lease s) else ignoreUnless s (execLgrantGranted die lease s)
  | 1 => ignoreUnless s (execLgrantRefused die lease s)
  | _ => .next s

/-- A write of GBDISPc (Table 20-5). -/
def State.gbdispWrite (s : State) (c : Nat) (value : DWord) : Out :=
  let x := value.toNat
  let seq := bitField 31 8 x
  if 2 ^ 32 ≤ x || bitField 7 3 x ≠ 0 then .next s else
  match x % 8 with
  | 0 => execHostResume c seq s
  | 1 => execHostResumeSkip c seq s
  | 2 => execHostKillt c seq s
  | 3 => execHostKilltG c seq s
  | 4 => execHostEndGrid c seq s
  | _ => .next s

/-- A write of GBPKc (Table 20-11). -/
def State.gbpkWrite (s : State) (c : Nat) (value : DWord) : Out :=
  let x := value.toNat
  let sel := bitField 59 51 x
  let seq := bitField 47 24 x
  if value.getLsbD 60 then execGbpkWrite c seq sel s else execGbpkRead c seq sel s

/-- A write of SPDBGn: BUSY stays; the counts of a buffer that is placed anew begin at 0. (DESIGN CHOICE, log 40.) -/
def State.spdbgWrite (s : State) (n : Nat) (value : DWord) : State :=
  if value.toNat % 2 ^ 12 ≠ 0 then s else
  s.updSpace n fun sp =>
    let busy : DWord := sp.dbg &&& BitVec.ofNat 64 (2 ^ 58)
    let v : DWord := (value &&& ~~~ BitVec.ofNat 64 (2 ^ 58)) ||| busy
    let same := bitField 51 12 v.toNat == bitField 51 12 sp.dbg.toNat && bitField 57 55 v.toNat == bitField 57 55 sp.dbg.toNat
    if same then { sp with dbg := v } else { sp with dbg := v, traceWritten := 0, traceDropped := 0 }

/-- A write of `size` bytes of MBDATA. -/
def State.mbdataWrite (s : State) (at_ size : Nat) (value : DWord) : State :=
  let data := (numbered at_ (natToBytes size value.toNat)).foldl (fun (m : AMap Byte) (x : Nat × Byte) => amapSet 0 m x.1 x.2)
    s.mgmt.mbData
  { s with mgmt := { s.mgmt with mbData := data } }

/-- A write of the MSI-X table; a vector that is no longer masked sends its pending message. -/
def State.msixWrite (s : State) (w : Nat) (value : DWord) : State :=
  let m := { s.msi with table := amapInsert s.msi.table w value }
  let v := w / 2
  { s with msi := if m.pending.contains v && !m.masked v then
      { m with pending := m.pending.filter (· ≠ v), raised := v :: m.raised } else m }

/-- A write of a register; a read-only one, and one that sets a bit that must be 0, is ignored. -/
def State.regWrite (s : State) (r : Reg) (value : DWord) : Out :=
  match r with
  | .mbctl => .next (s.mbctlWrite value)
  | .mbdata w => .next (s.mbdataWrite (8 * w) 8 value)
  | .biasctl => execBiasctlWrite value s
  | .biasflip => s.biasflipWrite value
  | .dbgreq => s.dbgreqWrite value
  | .hrctl => execHrctlWrite value s
  | .hrtail => execRingDoorbell value s
  | .lgrant d => s.lgrantWrite d value
  | .intlv n => execIntlvWrite n value s
  | .qcfg n => execQcfgWrite n value s
  | .sproot n => execSprootWrite n ⟨value, none⟩ s
  | .spwing n => execSpwingWrite n value s
  | .spsave n => execSpsaveWrite n value s
  | .spxc n => execSpxcWrite n value s
  | .spdbg n => .next (s.spdbgWrite n value)
  | .sptrial n => execSptrialWrite n value s
  | .spbp n k =>
    if bitField 62 55 value.toNat ≠ 0 then .next s
    else .next (s.updSpace n fun sp => { sp with bp := amapInsert sp.bp k value })
  | .spwatch n k =>
    if value.getLsbD 55 then .next s
    else .next (s.updSpace n fun sp => { sp with watch := amapInsert sp.watch k value })
  | .gbstat c => execGbstatClear c value s
  | .gbdisp c => s.gbdispWrite c value
  | .gbpk c => s.gbpkWrite c value
  | .gbpkv c => .next (s.updCore c fun k => { k with gbpkv := BitVec.ofNat 32 value.toNat })
  | .msixTable w => .next (s.msixWrite w value)
  | .devstat | .hrhead | .lreqinfo _ | .lreqaddr _ | .sretmap _ | .sptrcnt _ | .spprog _ _ | .gbwin _ _ | .msixPba _ => .next s

/-- REGISTER_WRITE: a write at an offset of the block. One of another size is ignored; until DEVREADY only MBCTL and MBDATA
take writes (R395, R405, R409). -/
def execRegisterWrite (at_ : RegAt) (value : DWord) (s : State) : Out :=
  let offset := at_.offset
  let size := at_.size
  match regAt (offset / 8 * 8) with
  | none => .next s
  | some r =>
    if !s.boot.powered || (!s.boot.ready && !r.early) || !sizeOk offset size then .next s
    else if size = 4 then (match r with
      | .mbdata w => .next (s.mbdataWrite (8 * w + offset % 8) 4 value)
      | _ => .next s)
    else s.regWrite r value

end Sys2Proof.Machine
end

