-- ==== Sys2Proof/Machine/Texture.lean ====
section
/-! DEFINITION. Textures (17_graphics, R329, R330): descriptors, levels, filtering, and TEX, TEX.L, TEX.G, TEXLD, TEXQ. -/

namespace Sys2Proof.Machine

/-! ## The descriptor (Table 17-4) -/

/-- A texture descriptor. -/
structure TexDesc where
  base   : Nat
  fmt    : Nat
  h      : Nat
  w      : Nat
  levels : Nat
  dim    : Nat
  dl     : Nat
  border : Nat
  au     : Nat
  av     : Nat
  aw     : Nat
  aniso  : Nat
  mip    : Nat
  min_   : Nat
  mag    : Nat
  bias   : Nat
  lmin   : Nat
  lmax   : Nat
  bad    : Bool
  deriving DecidableEq, Repr

/-- Read a descriptor from eight words. -/
def texDesc (ws : List Word) : TexDesc :=
  let r (k : Nat) : Nat := (ws.getD k 0).toNat
  { base := r 0 + 2 ^ 32 * r 1
    fmt := bitField 31 28 (r 2), h := bitField 27 14 (r 2) + 1, w := bitField 13 0 (r 2) + 1
    levels := bitField 16 13 (r 3) + 1, dim := bitField 12 11 (r 3), dl := bitField 10 0 (r 3) + 1
    border := bitField 17 16 (r 4), aw := bitField 15 14 (r 4), av := bitField 13 12 (r 4), au := bitField 11 10 (r 4)
    aniso := bitField 9 6 (r 4), mip := bitField 5 4 (r 4), min_ := bitField 3 2 (r 4), mag := bitField 1 0 (r 4)
    bias := r 5, lmin := r 6, lmax := r 7
    bad := bitField 31 17 (r 3) ≠ 0 || bitField 31 18 (r 4) ≠ 0 || bitField 12 11 (r 3) = 3 || bitField 17 16 (r 4) = 3 ||
      decide (4 < bitField 9 6 (r 4)) || bitField 5 4 (r 4) = 3 || decide (1 < bitField 3 2 (r 4)) ||
      decide (1 < bitField 1 0 (r 4)) || decide (8 < bitField 31 28 (r 2)) }

/-- Width, height and depth of a level; an array's depth is its number of layers. -/
def TexDesc.lw (d : TexDesc) (k : Nat) : Nat := max 1 (d.w / 2 ^ k)
def TexDesc.lh (d : TexDesc) (k : Nat) : Nat := max 1 (d.h / 2 ^ k)
def TexDesc.ld (d : TexDesc) (k : Nat) : Nat := if d.dim = 2 then max 1 (d.dl / 2 ^ k) else d.dl
def TexDesc.bpp (d : TexDesc) : Nat := match surfFmt d.fmt with
  | some x => x.1
  | none => 1
def TexDesc.pitch (d : TexDesc) (k : Nat) : Nat := 128 * ceilDiv (d.lw k * d.bpp) 128
/-- Bytes of a level: its slices follow one another. -/
def TexDesc.levelBytes (d : TexDesc) (k : Nat) : Nat := d.pitch k * d.lh k * (if d.dim = 2 then d.ld k else 1)
def TexDesc.levelAt (d : TexDesc) (k : Nat) : Nat := (List.range k).foldl (fun n j => n + d.levelBytes j) 0
/-- The stride of an array's layers: the whole chain, up to 4 KiB. -/
def TexDesc.stride (d : TexDesc) : Nat := 4096 * ceilDiv (d.levelAt d.levels) 4096
/-- The address of a texel. -/
def TexDesc.addr (d : TexDesc) (k x y z : Nat) : Nat :=
  (d.base + d.levelAt k + (if d.dim = 1 then z * d.stride else if d.dim = 2 then z * d.pitch k * d.lh k else 0) +
    y * d.pitch k + x * d.bpp) % 2 ^ 64

/-! ## Coordinates -/

/-- The texel that an index names under an addressing mode (R330); none is the border. -/
def texIndex (mode size : Nat) (i : Int) : Option Nat :=
  match mode with
  | 0 => some (i % (size : Int)).toNat
  | 1 =>
    let j := (i % (2 * size : Int)).toNat
    some (if j < size then j else 2 * size - 1 - j)
  | 2 => some (if i < 0 then 0 else min i.toNat (size - 1))
  | _ => if i < 0 || (size : Int) ≤ i then none else some i.toNat

/-- The texels of one axis with their weights in 1/256. A coordinate that is no number names a texel that is not stated.
(DEDUCED, log 87.) -/
def texAxis (mode size : Nat) (linear : Bool) (u : Option Q) (free : Nat) : List (Nat × Option Nat) :=
  match u with
  | none => [(256, some (free % size))]
  | some u =>
    let x := u.mul (Q.ofInt size)
    if linear then
      let x := x.sub { n := 1, e := -1 }
      let i := x.floor
      let f := ((x.sub (Q.ofInt i)).mul (Q.ofInt 256)).floor.toNat
      [(256 - f, texIndex mode size i), (f, texIndex mode size (i + 1))]
    else [(256, texIndex mode size x.floor)]

/-- The number of a binary32 word, if it is finite. -/
def finiteQ (w : Word) : Option Q := if nonFinite w.toNat then none else some (Q.ofWord w)

/-- An array's layer: the word rounded to an integer, RNE, then clamped. (DESIGN CHOICE, log 86.) -/
def texLayer (w : Word) (layers free : Nat) : Nat :=
  match fp32.decode w.toNat with
  | .nan _ _ _ => free % layers
  | .inf n => if n then 0 else layers - 1
  | v => let i := (Q.ofF v).nearest
         if i < 0 then 0 else min i.toNat (layers - 1)

/-- The texels of a gathered result: weights over `den`, and addresses; none is the border. -/
structure TexPlan where
  den    : Nat
  texels : List (Nat × Option Nat)
  raw    : Bool := false
  deriving DecidableEq, Repr

/-- What an instruction gives to sample with: coordinates, and a level of detail or derivatives. -/
structure TexIn where
  u    : Word
  v    : Word
  w    : Word
  lod  : Option Word
  dudx : Word := 0
  dvdx : Word := 0
  dudy : Word := 0
  dvdy : Word := 0
  deriving DecidableEq, Repr

/-- |(a W, b H)| as FSQRT.F32 gives it of the exact sum of squares rounded to binary32. (DESIGN CHOICE, log 86.) -/
def texNorm (fpm : Word) (d : TexDesc) (a b : Word) : Nat :=
  let x : Nat := match fp32.decode a.toNat, fp32.decode b.toNat with
    | .nan _ _ _, _ | _, .nan _ _ _ => fp32.nan
    | .inf _, _ | _, .inf _ => fp32.infBits false
    | p, q =>
      let p := (Q.ofF p).mul (Q.ofInt d.w)
      let q := (Q.ofF q).mul (Q.ofInt d.h)
      ((p.mul p).add (q.mul q)).toF32
  (approx .sqrt fp32 fpm (fp32.decode x)).1

/-- The number of probes, whether the x derivatives are the major axis, and the level of detail before BIAS.
(DESIGN CHOICE, log 86; DEDUCED, log 87.) -/
def texProbes (fpm : Word) (d : TexDesc) (i : TexIn) (free : Nat) : Nat × Bool × Word :=
  let rx := texNorm fpm d i.dudx i.dvdx
  let ry := texNorm fpm d i.dudy i.dvdy
  let a := fp32.decode rx
  let b := fp32.decode ry
  let major := a.isNan || b.isNan || decide (0 ≤ cmpV a b)
  let mx := if major then a else b
  let mn := if major then b else a
  let top := 2 ^ d.aniso
  if a.isNan || b.isNan then (1 + free % top, major, BitVec.ofNat 32 fp32.nan)
  else if mx.isInf then (if mn.isInf then 1 + free % top else top, major, BitVec.ofNat 32 (fp32.infBits false))
  else
    let lo : Q := { n := 1, e := -126 }
    let m := if (Q.ofF mn).cmp lo < 0 then lo else Q.ofF mn
    let n := max 1 (min top (-((Q.ofF mx).neg.div m).floor).toNat)
    let x := ((Q.ofF mx).div (Q.ofInt n)).toF32
    (n, major, BitVec.ofNat 32 (approx .log2 fp32 fpm (fp32.decode x)).1)

/-- The level of detail after BIAS and the clamps; where a NaN takes part the level is not stated. (DESIGN CHOICE, log 86.) -/
def texLambda (d : TexDesc) (l : Word) (free : Nat) : Q :=
  let x := fp32.decode (fAdd fp32 0 .rne (fp32.decode l.toNat) (fp32.decode d.bias)).1
  let lo := fp32.decode d.lmin
  let hi := fp32.decode d.lmax
  if x.isNan || lo.isNan || hi.isNan then Q.ofInt (free % d.levels : Nat) else
  let x := if cmpV x lo < 0 then lo else x
  let x := if cmpV x hi > 0 then hi else x
  let top := FVal.ofInt (d.levels - 1 : Nat)
  if x.neg then Q.ofInt 0 else if cmpV x top > 0 then Q.ofF top else Q.ofF x

/-- The levels with their weights in 1/256 (MIP). -/
def texLevels (d : TexDesc) (lam : Q) : List (Nat × Nat) :=
  match d.mip with
  | 0 => [(256, 0)]
  | 1 => [(256, min (lam.add { n := 1, e := -1 }).floor.toNat (d.levels - 1))]
  | _ =>
    let k := lam.floor.toNat
    let f := ((lam.sub (Q.ofInt k)).mul (Q.ofInt 256)).floor.toNat
    [(256 - f, k), (f, min (k + 1) (d.levels - 1))]

/-- The texels of a sample. (DEDUCED, log 87.) -/
def texPlan (fpm : Word) (d : TexDesc) (i : TexIn) (free : Nat) : TexPlan :=
  let c (k : Nat) : Nat := Config.freeChoice (free + k)
  let p := match i.lod with
    | some l => (1, true, l)
    | none => texProbes fpm d i (c 0)
  let n := p.1
  let lam := texLambda d p.2.2 (c 1)
  let linear := (if lam.n ≤ 0 then d.mag else d.min_) = 1
  let probes : List (Option Q × Option Q) := (List.range n).map fun (k : Nat) =>
    let t : Q := { n := 2 * (k : Int) + 1 - (n : Int), d := 2 * n }
    let at_ (x dx : Word) : Option Q := (finiteQ x).bind fun x =>
      if n = 1 then some x else (finiteQ dx).map fun dx => x.add (t.mul dx)
    (at_ i.u (if p.2.1 then i.dudx else i.dudy), at_ i.v (if p.2.1 then i.dvdx else i.dvdy))
  let ts := probes.flatMap fun uv => (texLevels d lam).flatMap fun lv =>
    let k := lv.2
    let xs := texAxis d.au (d.lw k) linear uv.1 (c 2)
    let ys := texAxis d.av (d.lh k) linear uv.2 (c 3)
    let zs := match d.dim with
      | 0 => [(256, some 0)]
      | 1 => [(256, some (texLayer i.w d.dl (c 4)))]
      | _ => texAxis d.aw (d.ld k) linear (finiteQ i.w) (c 4)
    xs.flatMap fun x => ys.flatMap fun y => zs.map fun z =>
      (lv.1 * x.1 * y.1 * z.1, match x.2, y.2, z.2 with
        | some x, some y, some z => some (d.addr k x y z)
        | _, _, _ => none)
  { den := n * 256 ^ 4, texels := ts.filter (·.1 ≠ 0) }

/-! ## Reading the texels -/

/-- Read the texels of a lane: performed, in flight, or trapped. (DEDUCED, log 85.) -/
def texLane (d : TexDesc) (plan : TexPlan) (i : Iss) (s : State) (l : Nat) : LaneMem × State :=
  let pc := (s.thread i.t i.g l).pc
  let reads := plan.texels.filterMap fun x => x.2.map fun a => (x.1, a)
  let pid := s.uid
  let id := s.uid + 1
  let op : TexOp :=
    { pend := pid, pc := pc, fmt := d.fmt, raw := plan.raw, bcode := d.border, den := plan.den
      border := plan.texels.foldl (fun n x => if x.2.isNone then n + x.1 else n) 0
      texels := reads.map fun x => (x.1, none) }
  let p : Pend := ⟨i.t, i.g, false, false, (numbered i.o.d.toNat (List.replicate 4 (0 : Word))).map fun x => (l, x.1, x.2), []⟩
  let s := { s with uid := s.uid + 2, pends := amapInsert s.pends pid p, texs := amapInsert s.texs id op }
  let r := (numbered 0 reads).foldl (fun (acc : LaneMem × State) x =>
    match acc.1.stat with
    | .trap _ | .breach _ => acc
    | _ =>
      let s := acc.2
      let va := x.2.2
      match s.ptrCheck i.t i.g va d.bpp [0] none true with
      | some tr => (⟨l, .trap tr, none⟩, s.texDrop id)
      | none =>
        let a := s.threadAcc i.t i.g l pc i.o.len.bytes (.load false) va d.bpp 0 (.tex id x.1)
        match s.startAcc (s.team i.t).launch a with
        | (.done v, s) => ({ acc.1 with acc := if acc.1.acc.isSome || (s.watchHit a.space va a.n true false).isNone then acc.1.acc else some a },
                           (s.texPut id x.1 v))
        | (.pend, s) => ({ acc.1 with stat := .pend }, s)
        | (.trap tr, s) => (⟨l, .trap tr, none⟩, s.texDrop id)
        | (.breach lv, s) => (⟨l, .breach lv, some a⟩, s.texDrop id)) ((⟨l, .done 0, none⟩, s) : LaneMem × State)
  match r.1.stat with
  | .pend =>
    let s := match r.1.acc with
      | some a => r.2.texWatch id a
      | none => r.2
    (⟨l, .pend, none⟩, s)
  | .done _ => (r.1, (r.2.texSettle id).2)
  | _ => r

/-- The eight words of the descriptor a word names. -/
def State.descOf (s : State) (t g : Nat) (x : Src) : TexDesc :=
  match x with
  | .s n => texDesc ((List.range 8).map fun k => s.readS t g (n.toNat + k))
  | _ => texDesc []
/-- Word `k` of a source that is the first of several registers. -/
def srcAt (s : State) (i : Iss) (l : Nat) (x : Src) (k : Nat) : Word :=
  match x with
  | .v n => s.readV i.t i.g l (n.toNat + k)
  | .s n => s.readS i.t i.g (n.toNat + k)
  | x => src32 s i l x

/-- Coordinates that an instruction reads: two, and a third for an array or 3D texture. -/
def State.texWords (s : State) (o : Ops) : Nat :=
  match s.turn with
  | .group t g => if (s.descOf t g o.b).dim = 0 then 2 else 3
  | _ => 2

/-- A texture instruction: the checks of the descriptor, then the texels of each participant. -/
def texIssue (o : Ops) (cWords : Nat) (raw : Bool) (plan : State → Iss → TexDesc → Nat → TexPlan) (s : State) : Out :=
  issue o { src := [(o.a, s.texWords o), (o.b, 8)] ++ (if cWords = 0 then [] else [(o.c, cWords)]), vd := [(o.d.toNat, 4)] } false
    (fun i s =>
      let d := s.descOf i.t i.g o.b
      let bad (c : Cause) : State := i.finish (s.takeTraps i.t i.g i.parts { cause := c, addr := if c = .misaligned then d.base else 0 }) [] false none
      if i.parts.isEmpty then i.finish s [] false none
      else if d.bad || (d.fmt = 8 && !raw) then bad .illegalOperand
      else if d.base % 128 ≠ 0 then bad .misaligned
      else
        let s0 := s
        match memLanes i (fun s l => texLane d (plan s0 i d l) i s l) i.parts { s with free := s.free + 256 } with
        | (rs, s) => memFinish i s rs [] []) s

/-- The coordinates of a lane. -/
def texCoords (s : State) (i : Iss) (d : TexDesc) (l : Nat) (lod : Option Word) : TexIn :=
  { u := srcAt s i l i.o.a 0, v := srcAt s i l i.o.a 1, w := if d.dim = 0 then 0 else srcAt s i l i.o.a 2, lod := lod }

/-- TEX: derivatives are coarse differences over the participants of each quad. -/
def planTex (s : State) (i : Iss) (d : TexDesc) (l : Nat) : TexPlan :=
  let fpm := (s.thread i.t i.g l).fpm
  let df (k : Nat) (y : Bool) : Word := (quadDiff fpm (fun n => i.parts.contains n) (fun n => srcAt s i n i.o.a k) y false l).1
  texPlan fpm d { texCoords s i d l none with dudx := df 0 false, dvdx := df 1 false, dudy := df 0 true, dvdy := df 1 true }
    (s.free + 8 * l)
/-- TEX.L: the level of detail of C; an immediate stands for its integer bits (R10). (DESIGN CHOICE, log 124.) -/
def planTexL (s : State) (i : Iss) (d : TexDesc) (l : Nat) : TexPlan :=
  texPlan (s.thread i.t i.g l).fpm d (texCoords s i d l (some (src32 s i l i.o.c))) (s.free + 8 * l)
/-- TEX.G: the derivatives of C. -/
def planTexG (s : State) (i : Iss) (d : TexDesc) (l : Nat) : TexPlan :=
  let c (k : Nat) : Word := srcAt s i l i.o.c k
  texPlan (s.thread i.t i.g l).fpm d { texCoords s i d l none with dudx := c 0, dvdx := c 1, dudy := c 2, dvdy := c 3 }
    (s.free + 8 * l)
/-- TEXLD: one texel, without filter; four zeros outside the level. -/
def planTexld (s : State) (i : Iss) (d : TexDesc) (l : Nat) : TexPlan :=
  let c (k : Nat) : Nat := (srcAt s i l i.o.a k).toNat
  let k := (src32 s i l i.o.c).toNat
  let z := if d.dim = 0 then 0 else c 2
  if k < d.levels && c 0 < d.lw k && c 1 < d.lh k && z < (if d.dim = 0 then 1 else d.ld k) then
    { den := 1, texels := [(1, some (d.addr k (c 0) (c 1) z))], raw := true }
  else { den := 1, texels := [], raw := true }
def execTex (o : Ops) (s : State) : Out := texIssue o 0 false planTex s
def execTexL (o : Ops) (s : State) : Out := texIssue o 1 false planTexL s
def execTexG (o : Ops) (s : State) : Out := texIssue o 4 false planTexG s
def execTexld (o : Ops) (s : State) : Out := texIssue o 1 true planTexld s

/-- TEXQ: the dimensions of a level. (DEDUCED, log 87.) -/
def execTexq (o : Ops) (s : State) : Out :=
  issue o { src := [(o.a, 1), (o.b, 8)], vd := [(o.d.toNat, 4)] } false (fun i s =>
    let d := s.descOf i.t i.g o.b
    if d.bad then i.finish (s.takeTraps i.t i.g i.parts { cause := .illegalOperand }) [] false none
    else if i.parts.isEmpty then i.finish s [] false none
    else
      let vals (l : Nat) : List Nat :=
        let k := (src32 s i l o.a).toNat
        if d.levels ≤ k then [0, 0, 0, 0] else [d.lw k, d.lh k, d.ld k, d.levels]
      i.finish (s.addPend ⟨i.t, i.g, false, false, i.parts.flatMap fun l =>
        (numbered o.d.toNat ((vals l).map (BitVec.ofNat 32))).map fun x => (l, x.1, x.2), []⟩) [] false none) s

end Sys2Proof.Machine
end

