-- ==== Sys2Proof/Machine/Dispatch.lean ====
section
/-! DEFINITION. What each instruction and step does: one arm per constructor, each a call of its meaning. -/

namespace Sys2Proof.Machine

def exec (i : Instr) (s : State) : Host.Outcome State Fault Refusal :=
  match i with
  | .mov o sc => Sys2Proof.Machine.execMov o sc s
  | .movi o sc => Sys2Proof.Machine.execMovi o sc s
  | .sel o sc neg q => Sys2Proof.Machine.execSel o sc neg q s
  | .iadd o sc ty sat => Sys2Proof.Machine.execIadd o sc ty sat s
  | .isub o sc ty sat => Sys2Proof.Machine.execIsub o sc ty sat s
  | .iabs o sat => Sys2Proof.Machine.execIabs o sat s
  | .ineg o sat => Sys2Proof.Machine.execIneg o sat s
  | .imin o sc ty => Sys2Proof.Machine.execImin o sc ty s
  | .imax o sc ty => Sys2Proof.Machine.execImax o sc ty s
  | .iadd64 o sc ty sat w => Sys2Proof.Machine.execIadd64 o sc ty sat w s
  | .imul o sc ty sat => Sys2Proof.Machine.execImul o sc ty sat s
  | .imulh o ty => Sys2Proof.Machine.execImulh o ty s
  | .imad o sc ty sat => Sys2Proof.Machine.execImad o sc ty sat s
  | .imadw o ty sat => Sys2Proof.Machine.execImadw o ty sat s
  | .and o sc => Sys2Proof.Machine.execAnd o sc s
  | .or o sc => Sys2Proof.Machine.execOr o sc s
  | .xor o sc => Sys2Proof.Machine.execXor o sc s
  | .not o => Sys2Proof.Machine.execNot o s
  | .lgc3 o table => Sys2Proof.Machine.execLgc3 o table s
  | .shl o sc wrap => Sys2Proof.Machine.execShl o sc wrap s
  | .shr o sc wrap => Sys2Proof.Machine.execShr o sc wrap s
  | .sar o wrap => Sys2Proof.Machine.execSar o wrap s
  | .rot o => Sys2Proof.Machine.execRot o s
  | .fshf o left => Sys2Proof.Machine.execFshf o left s
  | .bfe o ty => Sys2Proof.Machine.execBfe o ty s
  | .bfi o => Sys2Proof.Machine.execBfi o s
  | .popc o => Sys2Proof.Machine.execPopc o s
  | .clz o => Sys2Proof.Machine.execClz o s
  | .brev o => Sys2Proof.Machine.execBrev o s
  | .bysel o => Sys2Proof.Machine.execBysel o s
  | .lea o ty sh => Sys2Proof.Machine.execLea o ty sh s
  | .isetp o ty op qn q cmp => Sys2Proof.Machine.execIsetp o ty op qn q cmp s
  | .fsetp o ty op qn q cmp => Sys2Proof.Machine.execFsetp o ty op qn q cmp s
  | .iaddP o ty => Sys2Proof.Machine.execIaddP o ty s
  | .isubP o ty => Sys2Proof.Machine.execIsubP o ty s
  | .imulP o ty => Sys2Proof.Machine.execImulP o ty s
  | .lgc3P o table => Sys2Proof.Machine.execLgc3P o table s
  | .plop o pa pb pc => Sys2Proof.Machine.execPlop o pa pb pc s
  | .pmov o => Sys2Proof.Machine.execPmov o s
  | .pmovP o bit => Sys2Proof.Machine.execPmovP o bit s
  | .bra o => Sys2Proof.Machine.execBra o s
  | .braAny o neg q => Sys2Proof.Machine.execBraAny o neg q s
  | .braAll o neg q => Sys2Proof.Machine.execBraAll o neg q s
  | .brx o => Sys2Proof.Machine.execBrx o s
  | .call o => Sys2Proof.Machine.execCall o s
  | .callx o => Sys2Proof.Machine.execCallx o s
  | .ret o => Sys2Proof.Machine.execRet o s
  | .exit o => Sys2Proof.Machine.execExit o s
  | .conv o => Sys2Proof.Machine.execConv o s
  | .nop o => Sys2Proof.Machine.execNop o s
  | .pause o => Sys2Proof.Machine.execPause o s
  | .sread o sc code => Sys2Proof.Machine.execSread o sc code s
  | .sreadW o code => Sys2Proof.Machine.execSreadW o code s
  | .swrite o code => Sys2Proof.Machine.execSwrite o code s
  | .launch o => Sys2Proof.Machine.execLaunch o s
  | .prog o => Sys2Proof.Machine.execProg o s
  | .lxchIdx o w pv => Sys2Proof.Machine.execLxchIdx o w pv s
  | .lxchRot o w pv => Sys2Proof.Machine.execLxchRot o w pv s
  | .lxchRev o w pv => Sys2Proof.Machine.execLxchRev o w pv s
  | .lxchXor o w pv => Sys2Proof.Machine.execLxchXor o w pv s
  | .lxchS o pv => Sys2Proof.Machine.execLxchS o pv s
  | .lqryAll o neg q => Sys2Proof.Machine.execLqryAll o neg q s
  | .lqryAny o neg q => Sys2Proof.Machine.execLqryAny o neg q s
  | .lqrySame o neg q => Sys2Proof.Machine.execLqrySame o neg q s
  | .lgath o sc rank neg q => Sys2Proof.Machine.execLgath o sc rank neg q s
  | .match_ o wide => Sys2Proof.Machine.execMatch o wide s
  | .redl o sc op ty sat => Sys2Proof.Machine.execRedl o sc op ty sat s
  | .redlF o op rnd => Sys2Proof.Machine.execRedlF o op rnd s
  | .fadd o ty sc m => Sys2Proof.Machine.execFadd o ty sc m s
  | .fsub o ty sc m => Sys2Proof.Machine.execFsub o ty sc m s
  | .fmul o ty sc m => Sys2Proof.Machine.execFmul o ty sc m s
  | .ffma o ty sc m => Sys2Proof.Machine.execFfma o ty sc m s
  | .fmin o ty sc m => Sys2Proof.Machine.execFmin o ty sc m s
  | .fmax o ty sc m => Sys2Proof.Machine.execFmax o ty sc m s
  | .fdp2 o ty m => Sys2Proof.Machine.execFdp2 o ty m s
  | .frnd o ty sc m => Sys2Proof.Machine.execFrnd o ty sc m s
  | .fclass o ty => Sys2Proof.Machine.execFclass o ty s
  | .fclassP o ty => Sys2Proof.Machine.execFclassP o ty s
  | .frcp o f na aa => Sys2Proof.Machine.execFrcp o f na aa s
  | .frsq o f na aa => Sys2Proof.Machine.execFrsq o f na aa s
  | .fsqrt o f na aa => Sys2Proof.Machine.execFsqrt o f na aa s
  | .fexp2 o f na aa => Sys2Proof.Machine.execFexp2 o f na aa s
  | .flog2 o f na aa => Sys2Proof.Machine.execFlog2 o f na aa s
  | .fsin o f na aa => Sys2Proof.Machine.execFsin o f na aa s
  | .fcos o f na aa => Sys2Proof.Machine.execFcos o f na aa s
  | .frcpIeee o m => Sys2Proof.Machine.execFrcpIeee o m s
  | .fsqrtIeee o m => Sys2Proof.Machine.execFsqrtIeee o m s
  | .cvt o dst src sc hi sat rnd => Sys2Proof.Machine.execCvt o dst src sc hi sat rnd s
  | .cvq2 o satf slot => Sys2Proof.Machine.execCvq2 o satf slot s
  | .cvq4 o satf slot => Sys2Proof.Machine.execCvq4 o satf slot s
  | .cvq8 o slot => Sys2Proof.Machine.execCvq8 o slot s
  | .cvx2 o slot => Sys2Proof.Machine.execCvx2 o slot s
  | .cvx4 o slot => Sys2Proof.Machine.execCvx4 o slot s
  | .cvx8 o slot => Sys2Proof.Machine.execCvx8 o slot s
  | .ldg o m x => Sys2Proof.Machine.execLdg o m x s
  | .stg o m x => Sys2Proof.Machine.execStg o m x s
  | .ldp o m x => Sys2Proof.Machine.execLdp o m x s
  | .stp o m x => Sys2Proof.Machine.execStp o m x s
  | .lds o m x => Sys2Proof.Machine.execLds o m x s
  | .sts o m x => Sys2Proof.Machine.execSts o m x s
  | .ldx o m x => Sys2Proof.Machine.execLdx o m x s
  | .stx o m x => Sys2Proof.Machine.execStx o m x s
  | .ldf o m x => Sys2Proof.Machine.execLdf o m x s
  | .stf o m x => Sys2Proof.Machine.execStf o m x s
  | .ldw o m x => Sys2Proof.Machine.execLdw o m x s
  | .stw o m x => Sys2Proof.Machine.execStw o m x s
  | .ldk o m x => Sys2Proof.Machine.execLdk o m x s
  | .ldsS o m x => Sys2Proof.Machine.execLdsS o m x s
  | .pfg o m x => Sys2Proof.Machine.execPfg o m x s
  | .stew o w x => Sys2Proof.Machine.execStew o w x s
  | .atomg o p ord w64 sgn op x => Sys2Proof.Machine.execAtomg o p ord w64 sgn op x s
  | .atomgCas o p ord w x => Sys2Proof.Machine.execAtomgCas o p ord w x s
  | .atomgF o p ord ft op x => Sys2Proof.Machine.execAtomgF o p ord ft op x s
  | .redg o p w64 sgn op x => Sys2Proof.Machine.execRedg o p w64 sgn op x s
  | .redgF o p ft op x => Sys2Proof.Machine.execRedgF o p ft op x s
  | .atoms o p k x => Sys2Proof.Machine.execAtoms o p k x s
  | .atomx o p k x => Sys2Proof.Machine.execAtomx o p k x s
  | .lda o m x => Sys2Proof.Machine.execLda o m x s
  | .stl o m x => Sys2Proof.Machine.execStl o m x s
  | .fence o x => Sys2Proof.Machine.execFence o x s
  | .fencex o p q x => Sys2Proof.Machine.execFencex o p q x s
  | .barrive o h x => Sys2Proof.Machine.execBarrive o h x s
  | .bwait o h x => Sys2Proof.Machine.execBwait o h x s
  | .bsync o h x => Sys2Proof.Machine.execBsync o h x s
  | .barrd o h x => Sys2Proof.Machine.execBarrd o h x s
  | .binit o h x => Sys2Proof.Machine.execBinit o h x s
  | .balloc o x => Sys2Proof.Machine.execBalloc o x s
  | .bfree o x => Sys2Proof.Machine.execBfree o x s
  | .rowbook o p q sc x => Sys2Proof.Machine.execRowbook o p q sc x s
  | .rowjoin o q x => Sys2Proof.Machine.execRowjoin o q x s
  | .rowfree o x => Sys2Proof.Machine.execRowfree o x s
  | .tlbiPage o x => Sys2Proof.Machine.execTlbiPage o x s
  | .tlbiSpace o x => Sys2Proof.Machine.execTlbiSpace o x s
  | .tlbiAll o x => Sys2Proof.Machine.execTlbiAll o x s
  | .msvtx o => Sys2Proof.Machine.execMsvtx o s
  | .msvtxB128 o => Sys2Proof.Machine.execMsvtxB128 o s
  | .msprim o => Sys2Proof.Machine.execMsprim o s
  | .mscount o => Sys2Proof.Machine.execMscount o s
  | .interp o mode centroid => Sys2Proof.Machine.execInterp o mode centroid s
  | .derivX o fine => Sys2Proof.Machine.execDerivX o fine s
  | .derivY o fine => Sys2Proof.Machine.execDerivY o fine s
  | .fragexp o => Sys2Proof.Machine.execFragexp o s
  | .fragexpZ o => Sys2Proof.Machine.execFragexpZ o s
  | .fragkill o => Sys2Proof.Machine.execFragkill o s
  | .rocbeg o => Sys2Proof.Machine.execRocbeg o s
  | .rocend o => Sys2Proof.Machine.execRocend o s
  | .tex o => Sys2Proof.Machine.execTex o s
  | .texL o => Sys2Proof.Machine.execTexL o s
  | .texG o => Sys2Proof.Machine.execTexG o s
  | .texld o => Sys2Proof.Machine.execTexld o s
  | .texq o => Sys2Proof.Machine.execTexq o s
  | .satom o p xy w64 sgn op x => Sys2Proof.Machine.execSatom o p xy w64 sgn op x s
  | .satomCas o p w64 x => Sys2Proof.Machine.execSatomCas o p w64 x s
  | .cpgather o ch tmpl x => Sys2Proof.Machine.execCpgather o ch tmpl x s
  | .cpscatter o ch tmpl x => Sys2Proof.Machine.execCpscatter o ch tmpl x s
  | .cpscatterAdd o ch tmpl x => Sys2Proof.Machine.execCpscatterAdd o ch tmpl x s
  | .cpwait o p x => Sys2Proof.Machine.execCpwait o p x s
  | .cptest o p x => Sys2Proof.Machine.execCptest o p x s
  | .cpclr o p x => Sys2Proof.Machine.execCpclr o p x s
  | .cpsrcw o x => Sys2Proof.Machine.execCpsrcw o x s
  | .mput o w => Sys2Proof.Machine.execMput o w s
  | .mld o => Sys2Proof.Machine.execMld o s
  | .mldV o satf => Sys2Proof.Machine.execMldV o satf s
  | .mma o v slotB satf => Sys2Proof.Machine.execMma o v slotB satf s
  | .mmq o v slotB satf => Sys2Proof.Machine.execMmq o v slotB satf s
  | .mmqP o v slotB satf => Sys2Proof.Machine.execMmqP o v slotB satf s
  | .mmi o v slotB satf => Sys2Proof.Machine.execMmi o v slotB satf s
  | .mclr o int => Sys2Proof.Machine.execMclr o int s
  | .mst o slotTA slotTB scl satf => Sys2Proof.Machine.execMst o slotTA slotTB scl satf s
  | .mstV o slotTA slotTB scl satf => Sys2Proof.Machine.execMstV o slotTA slotTB scl satf s
  | .mbar o => Sys2Proof.Machine.execMbar o s
  | .mbw o => Sys2Proof.Machine.execMbw o s
  | .mnop o => Sys2Proof.Machine.execMnop o s
  | .msetImm o => Sys2Proof.Machine.execMsetImm o s
  | .msetHi o => Sys2Proof.Machine.execMsetHi o s
  | .msetArg o => Sys2Proof.Machine.execMsetArg o s
  | .msetArghi o => Sys2Proof.Machine.execMsetArghi o s
  | .msetSr o => Sys2Proof.Machine.execMsetSr o s
  | .msetC o => Sys2Proof.Machine.execMsetC o s
  | .maddk o => Sys2Proof.Machine.execMaddk o s
  | .mloop o => Sys2Proof.Machine.execMloop o s
  | .mjmp o => Sys2Proof.Machine.execMjmp o s
  | .mend o => Sys2Proof.Machine.execMend o s
  | .trap o => Sys2Proof.Machine.execTrap o s
  | .trapLegacy o => Sys2Proof.Machine.execTrapLegacy o s
  | .bkpt o => Sys2Proof.Machine.execBkpt o s
  | .rtt o => Sys2Proof.Machine.execRtt o s
  | .haltt o => Sys2Proof.Machine.execHaltt o s
  | .gbread o q => Sys2Proof.Machine.execGbread o q s
  | .pkrd o => Sys2Proof.Machine.execPkrd o s
  | .pkwr o => Sys2Proof.Machine.execPkwr o s
  | .resume o => Sys2Proof.Machine.execResume o s
  | .resumeSkip o => Sys2Proof.Machine.execResumeSkip o s
  | .killt o => Sys2Proof.Machine.execKillt o s
  | .killtG o => Sys2Proof.Machine.execKilltG o s
  | .loadResultLand id => Sys2Proof.Machine.execLoadResultLand id s
  | .mediumResultReady id => Sys2Proof.Machine.execMediumResultReady id s
  | .convRelease tid gix => Sys2Proof.Machine.execConvRelease tid gix s
  | .barrierWaitComplete tid gix wid => Sys2Proof.Machine.execBarrierWaitComplete tid gix wid s
  | .barrdArrivalPerform tid k => Sys2Proof.Machine.execBarrdArrivalPerform tid k s
  | .cpwaitComplete tid gix wid => Sys2Proof.Machine.execCpwaitComplete tid gix wid s
  | .cpsrcwComplete tid gix wid => Sys2Proof.Machine.execCpsrcwComplete tid gix wid s
  | .presenceWaitComplete tid gix wid => Sys2Proof.Machine.execPresenceWaitComplete tid gix wid s
  | .pauseExpiry tid gix wid => Sys2Proof.Machine.execPauseExpiry tid gix wid s
  | .syncAccessComplete tid gix wid => Sys2Proof.Machine.execSyncAccessComplete tid gix wid s
  | .rowOpenComplete tid gix wid => Sys2Proof.Machine.execRowOpenComplete tid gix wid s
  | .rocSectionEnter tid gix wid => Sys2Proof.Machine.execRocSectionEnter tid gix wid s
  | .rocTimeout tid lane => Sys2Proof.Machine.execRocTimeout tid lane s
  | .rocPreemptTimeout tid => Sys2Proof.Machine.execRocPreemptTimeout tid s
  | .contextBind core quarter ctx => Sys2Proof.Machine.execContextBind core quarter ctx s
  | .porterSlotTake core => Sys2Proof.Machine.execPorterSlotTake core s
  | .fetchBlockFill tid gix => Sys2Proof.Machine.execFetchBlockFill tid gix s
  | .teamEnd tid => Sys2Proof.Machine.execTeamEnd tid s
  | .fill core line bytes acc => Sys2Proof.Machine.execFill core line bytes acc s
  | .filld core line data poison fd sole race acc => Sys2Proof.Machine.execFilld core line data poison fd sole race acc s
  | .mprobe core line => Sys2Proof.Machine.execMprobe core line s
  | .mrep core line g0 g1 => Sys2Proof.Machine.execMrep core line g0 g1 s
  | .intent core line bytes epoch acc => Sys2Proof.Machine.execIntent core line bytes epoch acc s
  | .mark core line bytes => Sys2Proof.Machine.execMark core line bytes s
  | .markr core line g0 g1 => Sys2Proof.Machine.execMarkr core line g0 g1 s
  | .grant core line acc => Sys2Proof.Machine.execGrant core line acc s
  | .rnack core line acc => Sys2Proof.Machine.execRnack core line acc s
  | .wb core line key data poison dm g0 g1 why => Sys2Proof.Machine.execWb core line key data poison dm g0 g1 why s
  | .wback core line why => Sys2Proof.Machine.execWback core line why s
  | .recall core line => Sys2Proof.Machine.execRecall core line s
  | .darn core epoch acquirer syncLine => Sys2Proof.Machine.execDarn core epoch acquirer syncLine s
  | .darnack core epoch stale syncLine => Sys2Proof.Machine.execDarnack core epoch stale syncLine s
  | .inv core line bytes => Sys2Proof.Machine.execInv core line bytes s
  | .invack core line => Sys2Proof.Machine.execInvack core line s
  | .publish slice core epoch syncLine => Sys2Proof.Machine.execPublish slice core epoch syncLine s
  | .puback slice core epoch syncLine => Sys2Proof.Machine.execPuback slice core epoch syncLine s
  | .hop acc => Sys2Proof.Machine.execHop acc s
  | .hopr acc => Sys2Proof.Machine.execHopr acc s
  | .rstore acc => Sys2Proof.Machine.execRstore acc s
  | .rfwd die acc => Sys2Proof.Machine.execRfwd die acc s
  | .rpack die acc => Sys2Proof.Machine.execRpack die acc s
  | .rcommit die acc => Sys2Proof.Machine.execRcommit die acc s
  | .pageWalk wing tlb space va kind => Sys2Proof.Machine.execPageWalk wing tlb space va kind s
  | .shootdownComplete id => Sys2Proof.Machine.execShootdownComplete id s
  | .lodgingRequestPost die => Sys2Proof.Machine.execLodgingRequestPost die s
  | .lgrantGranted die lease => Sys2Proof.Machine.execLgrantGranted die lease s
  | .lgrantRefused die lease => Sys2Proof.Machine.execLgrantRefused die lease s
  | .lgrantReleaseAck die lease => Sys2Proof.Machine.execLgrantReleaseAck die lease s
  | .sequencerFetch tid => Sys2Proof.Machine.execSequencerFetch tid s
  | .mbwRetire tid cmd => Sys2Proof.Machine.execMbwRetire tid cmd s
  | .commandRetire tid cmd => Sys2Proof.Machine.execCommandRetire tid cmd s
  | .copyElementMove core id => Sys2Proof.Machine.execCopyElementMove core id s
  | .copyChunkLand core id chunk => Sys2Proof.Machine.execCopyChunkLand core id chunk s
  | .copySourceRelease core id => Sys2Proof.Machine.execCopySourceRelease core id s
  | .surfaceAllocate ste => Sys2Proof.Machine.execSurfaceAllocate ste s
  | .surfaceReleaseComplete ste => Sys2Proof.Machine.execSurfaceReleaseComplete ste s
  | .pressSpillStart region stack firm => Sys2Proof.Machine.execPressSpillStart region stack firm s
  | .spillComplete ste frame => Sys2Proof.Machine.execSpillComplete ste frame s
  | .fillComplete ste frame => Sys2Proof.Machine.execFillComplete ste frame s
  | .frameAgeTick => Sys2Proof.Machine.execFrameAgeTick s
  | .bankGrant stack column bank => Sys2Proof.Machine.execBankGrant stack column bank s
  | .coverageToken wing => Sys2Proof.Machine.execCoverageToken wing s
  | .quadRetire bru => Sys2Proof.Machine.execQuadRetire bru s
  | .primitiveEmit queue => Sys2Proof.Machine.execPrimitiveEmit queue s
  | .rasterisePrimitive wing => Sys2Proof.Machine.execRasterisePrimitive wing s
  | .fragmentGroupLaunch wing core quarter => Sys2Proof.Machine.execFragmentGroupLaunch wing core quarter s
  | .domainRetentionEnter die k => Sys2Proof.Machine.execDomainRetentionEnter die k s
  | .domainWake die k => Sys2Proof.Machine.execDomainWake die k s
  | .domainOff die k forced => Sys2Proof.Machine.execDomainOff die k forced s
  | .domainOn die k => Sys2Proof.Machine.execDomainOn die k s
  | .debugSurfaceRead ste addr => Sys2Proof.Machine.execDebugSurfaceRead ste addr s
  | .rowRefreshClose space key => Sys2Proof.Machine.execRowRefreshClose space key s
  | .rowRefreshReopen space key => Sys2Proof.Machine.execRowRefreshReopen space key s
  | .memoryPatrol channel bank row corrected uncorrectable => Sys2Proof.Machine.execMemoryPatrol channel bank row corrected uncorrectable s
  | .clusterPlace die => Sys2Proof.Machine.execClusterPlace die s
  | .framePreempt die => Sys2Proof.Machine.execFramePreempt die s
  | .normalReservation die => Sys2Proof.Machine.execNormalReservation die s
  | .preemptSave tid => Sys2Proof.Machine.execPreemptSave tid s
  | .teamRestore saved core => Sys2Proof.Machine.execTeamRestore saved core s
  | .gridComplete launch => Sys2Proof.Machine.execGridComplete launch s
  | .porterWake core => Sys2Proof.Machine.execPorterWake core s
  | .blockTranslate wing space hash word => Sys2Proof.Machine.execBlockTranslate wing space hash word s
  | .ringDoorbell value => Sys2Proof.Machine.execRingDoorbell value s
  | .hrctlWrite value => Sys2Proof.Machine.execHrctlWrite value s
  | .ringNop => Sys2Proof.Machine.execRingNop s
  | .ringLaunch => Sys2Proof.Machine.execRingLaunch s
  | .ringTlbi => Sys2Proof.Machine.execRingTlbi s
  | .ringCancel => Sys2Proof.Machine.execRingCancel s
  | .ringUnknownOp => Sys2Proof.Machine.execRingUnknownOp s
  | .intlvWrite n value => Sys2Proof.Machine.execIntlvWrite n value s
  | .sprootWrite space value => Sys2Proof.Machine.execSprootWrite space value s
  | .spwingWrite space value => Sys2Proof.Machine.execSpwingWrite space value s
  | .qcfgWrite n value => Sys2Proof.Machine.execQcfgWrite n value s
  | .spsaveWrite space value => Sys2Proof.Machine.execSpsaveWrite space value s
  | .spxcWrite space value => Sys2Proof.Machine.execSpxcWrite space value s
  | .biasctlWrite value => Sys2Proof.Machine.execBiasctlWrite value s
  | .biasflipGo value => Sys2Proof.Machine.execBiasflipGo value s
  | .biasFlipComplete => Sys2Proof.Machine.execBiasFlipComplete s
  | .gbstatClear core value => Sys2Proof.Machine.execGbstatClear core value s
  | .hostResume core seq => Sys2Proof.Machine.execHostResume core seq s
  | .hostResumeSkip core seq => Sys2Proof.Machine.execHostResumeSkip core seq s
  | .hostKillt core seq => Sys2Proof.Machine.execHostKillt core seq s
  | .hostKilltG core seq => Sys2Proof.Machine.execHostKilltG core seq s
  | .hostEndGrid core seq => Sys2Proof.Machine.execHostEndGrid core seq s
  | .gbpkRead core seq sel => Sys2Proof.Machine.execGbpkRead core seq sel s
  | .gbpkWrite core seq sel => Sys2Proof.Machine.execGbpkWrite core seq sel s
  | .dbgreqStop space ticket core => Sys2Proof.Machine.execDbgreqStop space ticket core s
  | .dbgreqResume space ticket core => Sys2Proof.Machine.execDbgreqResume space ticket core s
  | .dbgreqStep space ticket core => Sys2Proof.Machine.execDbgreqStep space ticket core s
  | .dbgreqPreempt space ticket core => Sys2Proof.Machine.execDbgreqPreempt space ticket core s
  | .dbgreqDump space ticket core => Sys2Proof.Machine.execDbgreqDump space ticket core s
  | .pcSample core quarter => Sys2Proof.Machine.execPcSample core quarter s
  | .trialDebtTick => Sys2Proof.Machine.execTrialDebtTick s
  | .registerWrite at_ value => Sys2Proof.Machine.execRegisterWrite at_ value s
  | .hostMemRead pa => Sys2Proof.Machine.execHostMemRead pa s
  | .hostMemWrite pa data => Sys2Proof.Machine.execHostMemWrite pa data s
  | .birspi unit => Sys2Proof.Machine.execBirspi unit s
  | .hPathCompletion acc data poisoned => Sys2Proof.Machine.execHPathCompletion acc data poisoned s
  | .cxlCompletionTimeout acc => Sys2Proof.Machine.execCxlCompletionTimeout acc s
  | .ucieUncorrectableError => Sys2Proof.Machine.execUcieUncorrectableError s
  | .clockRatioChange ratio => Sys2Proof.Machine.execClockRatioChange ratio s
  | .moduleReset => Sys2Proof.Machine.execModuleReset s
  | .bringupStepComplete ok found => Sys2Proof.Machine.execBringupStepComplete ok found s
  | .powerManagementTick temps ivrs coolant => Sys2Proof.Machine.execPowerManagementTick temps ivrs coolant s
  | .thermalTrip => Sys2Proof.Machine.execThermalTrip s
  | .ivrOvercurrent die k => Sys2Proof.Machine.execIvrOvercurrent die k s
  | .sensors => Sys2Proof.Machine.execSensors s
  | .logread => Sys2Proof.Machine.execLogread s
  | .powercap => Sys2Proof.Machine.execPowercap s
  | .keyset => Sys2Proof.Machine.execKeyset s
  | .fwload => Sys2Proof.Machine.execFwload s
  | .spdm => Sys2Proof.Machine.execSpdm s
  | .mailboxBadcmd cmd => Sys2Proof.Machine.execMailboxBadcmd cmd s
  | .scratchpadSlotGrant core bank => Sys2Proof.Machine.execScratchpadSlotGrant core bank s
  | .wPathAccessComplete acc => Sys2Proof.Machine.execWPathAccessComplete acc s
  | .modulePowerLoss => Sys2Proof.Machine.execModulePowerLoss s
  | .sptrialWrite space value => Sys2Proof.Machine.execSptrialWrite space value s

end Sys2Proof.Machine
end

