-- ==== Sys2Proof/Machine/Events.lean ====
section
/-! DEFINITION. The steps that no group issues: which of them may happen next, how time passes, and whose turn comes
next. The part's units act at once; the model lets one act at a time, in an order that a free choice gives. -/

namespace Sys2Proof.Machine

/-- Carry out a step that is due; `run` is the meaning of the instructions. -/
def runDue (run : Instr → State → Out) (d : Due) (s : State) : Out :=
  match d with
  | .ins i => run i s
  | .mbwRetire t c => execMbwRetire t c s
  | .commandRetire t c => execCommandRetire t c s
  | .copyElementMove c id => execCopyElementMove c id s
  | .copyChunkLand c id k => execCopyChunkLand c id k s
  | .copySourceRelease c id => execCopySourceRelease c id s
  | .surfaceAllocate ix => execSurfaceAllocate ix s
  | .surfaceReleaseComplete ix => execSurfaceReleaseComplete ix s
  | .pressSpillStart r st f => execPressSpillStart r st f s
  | .spillComplete ix f => execSpillComplete ix f s
  | .fillComplete ix f => execFillComplete ix f s
  | .bankGrant st c b => execBankGrant st c b s
  | .coverageToken w => execCoverageToken w s
  | .quadRetire b => execQuadRetire b s
  | .primitiveEmit q => execPrimitiveEmit q s
  | .rasterisePrimitive w => execRasterisePrimitive w s
  | .fragmentGroupLaunch w c q => execFragmentGroupLaunch w c q s
  | .domainWake d k => execDomainWake d k s
  | .debugSurfaceRead x a => execDebugSurfaceRead x a s
  | .rowRefreshClose sp k => execRowRefreshClose sp k s
  | .rowRefreshReopen sp k => execRowRefreshReopen sp k s
  | .clusterPlace d => execClusterPlace d s
  | .framePreempt d => execFramePreempt d s
  | .normalReservation d => execNormalReservation d s
  | .preemptSave t => execPreemptSave t s
  | .teamRestore t c => execTeamRestore t c s
  | .gridComplete l => execGridComplete l s
  | .porterWake c => execPorterWake c s
  | .blockTranslate w sp h x => execBlockTranslate w sp h x s
  | .scratchpadSlotGrant c b => execScratchpadSlotGrant c b s
  | .wPathAccessComplete a => execWPathAccessComplete a s
  | .dbgreqDump sp t c => execDbgreqDump sp t c s
  | .clockRatioChange r => execClockRatioChange r s
  | .hostResumeSkip c q => execHostResumeSkip c q s

/-! ## Steps that may happen of themselves -/

/-- Ends of the waits of a group (Table 08-5). -/
def waitEvents (t g : Nat) (gr : Group) : List (State → Out) :=
  (gr.waits.map fun kv =>
    match kv.2.cond with
    | .parity _ _ => execBarrierWaitComplete t g kv.1
    | .copies _ _ => execCpwaitComplete t g kv.1
    | .source _ _ => execCpsrcwComplete t g kv.1
    | .presence _ => execPresenceWaitComplete t g kv.1
    | .pause _ => execPauseExpiry t g kv.1
    | .rowOpen _ _ => execRowOpenComplete t g kv.1
    | .roc => execRocSectionEnter t g kv.1
    | .sync _ | .fencex _ _ _ _ _ | .results _ | .exchange _ | .loads _ => execSyncAccessComplete t g kv.1) ++
  [execConvRelease t g]

/-- What a team may do besides issuing: ends of waits, open sections running out, a fetch block read again, its stream. -/
def teamEvents (kv : Nat × Team) : List (State → Out) :=
  let t := kv.1
  let tm := kv.2
  (tm.groups.flatMap fun g => waitEvents t g.1 g.2 ++ (if g.2.run.isSome then [execFetchBlockFill t g.1] else [])) ++
  (if tm.kind == .fragment then (List.range 32).map fun l => execRocTimeout t l else []) ++
  (if tm.stream.isSome then [execFetchBlockFill t 32] else [])

/-- Contexts that may bind a group. -/
def State.bindEvents (s : State) : List (State → Out) :=
  ((s.teams.map fun kv => kv.2.core).eraseDups).flatMap fun c =>
    execPorterWake c :: execPorterSlotTake c :: execContextBind c 0 4 ::
    ((List.range 16).map fun k => execContextBind c (k / 4) (k % 4))

/-- The four walkers of each wing (R98). -/
def State.walkEvents (s : State) : List (State → Out) :=
  s.wings.flatMap fun kv => (kv.2.walking.take 4).map fun w =>
    execPageWalk kv.1 (w.tlbs.headD .vtlb) w.space w.va (if w.write then .write else .read)

/-- The dispatchers, the ring, the mailbox, the press, the rows, refresh, debug dumps. -/
def State.unitEvents (s : State) : List (State → Out) :=
  ((List.range 2).flatMap fun d => [execClusterPlace d, execFramePreempt d, execNormalReservation d]) ++
  [execRingNop, execRingLaunch, execRingTlbi, execRingCancel, execRingUnknownOp] ++
  [execSensors, execLogread, execPowercap, execKeyset, execFwload, execSpdm, execMailboxBadcmd s.mgmt.mbCmd, execThermalTrip] ++
  (if s.stes.isEmpty then [] else (List.range 32).flatMap fun k =>
    [execPressSpillStart (k / 2) (k % 2) false, execPressSpillStart (k / 2) (k % 2) true]) ++
  (s.rows.flatMap fun kv => [execRowRefreshClose (kv.1 / 256) (kv.1 % 256), execRowRefreshReopen (kv.1 / 256) (kv.1 % 256)]) ++
  ((amapKeys s.spaces).filter s.dumpReady).map fun n => execDbgreqDump n 0 0

/-- Power management's own steps, for one domain. -/
def State.powerEvents (s : State) : List (State → Out) :=
  let d := Config.freeChoice s.free % 32
  [execClockRatioChange (4 + Config.freeChoice s.free / 32 % 3), execFrameAgeTick, execDomainRetentionEnter (d / 16) (d % 16), execDomainOff (d / 16) (d % 16) false,
   execDomainOn (d / 16) (d % 16)]

/-- The raster pipeline. -/
def State.rasterEvents (s : State) : List (State → Out) :=
  if s.draws.isEmpty then [] else
  ((amapKeys s.queues).map fun q => execPrimitiveEmit q) ++
  ((List.range 16).flatMap fun w => [execRasterisePrimitive w, execCoverageToken w]) ++
  ((amapKeys s.slots).map fun b => execQuadRetire b) ++
  (if s.flights.isEmpty then [] else (List.range 192).flatMap fun c =>
    (List.range 4).map fun q => execFragmentGroupLaunch (coreWing c) c q)

/-- Answers of the host, of peers and of a flip. -/
def State.hostEvents (s : State) : List (State → Out) :=
  (s.accs.filter fun kv => kv.2.h).map (fun kv => execHPathCompletion kv.1 [] false) ++
  (s.accs.filterMap fun kv => if kv.2.snoops.contains (biasMark (kv.2.pa / 64)) then some (execBirspi (kv.2.pa / 64)) else none) ++
  s.bias.snoops.map (fun u => execBirspi u) ++ [execBiasFlipComplete]

/-- A sub-step of bring-up ends as the part finds it. -/
def State.bringupEvent (s : State) : Out :=
  let n := Config.freeChoice s.free
  execBringupStepComplete (n % 2 == 0) ((List.range 4096).filter fun k => n / 2 / 2 ^ k % 2 == 1) { s with free := s.free + 1 }

/-- Every step that may happen of itself. -/
def State.autoEvents (s : State) : List (State → Out) :=
  if !s.boot.ready then State.bringupEvent :: s.unitEvents else
  s.teams.flatMap teamEvents ++ s.bindEvents ++ s.walkEvents ++ s.unitEvents ++ s.powerEvents ++ s.rasterEvents ++ s.hostEvents

/-- The first of a list of steps that can be taken. -/
def firstNext (l : List (State → Out)) (s : State) : Option State :=
  l.findSome? fun f => match f s with
    | .next s' => some s'
    | _ => none

/-- A list from a place on, and then its beginning. -/
def rotate {α : Type} (l : List α) (n : Nat) : List α := l.drop (n % max l.length 1) ++ l.take (n % max l.length 1)

/-- Bindings of quarters in which a group has waited out its bound (R146). -/
def State.lateBinds (s : State) : List (State → Out) :=
  ((s.teams.map fun kv => kv.2.core).eraseDups).flatMap fun c => (List.range 4).flatMap fun q =>
    if (s.bindable c q).any (fun x => s.waitedOut c q (s.group x.1 x.2)) then (List.range 4).map fun k => execContextBind c q k else []

/-- One of the steps that may happen of themselves, or nothing: a late binding first; else, every other time, each in its
turn, so that none waits for ever. (DESIGN CHOICE, log 4; DESIGN CHOICE, log 5.) -/
def State.autoStep (s : State) : State :=
  let n := if s.autoNo % 2 = 0 then s.autoNo / 2 else Config.freeChoice s.free
  let s := { s with free := s.free + 1, autoNo := s.autoNo + 1 }
  match firstNext s.lateBinds s with
  | some s => s
  | none => (firstNext (rotate s.autoEvents n) s).getD s

/-- One of the steps that are due, which is then no longer due; else one that happens of itself. Every other time it is the
oldest that can be taken. (DESIGN CHOICE, log 4.) -/
def State.laterStep (run : Instr → State → Out) (s : State) : State :=
  let n := if s.laterNo % 2 = 0 then 0 else Config.freeChoice s.free
  let s := { s with free := s.free + 1, laterNo := s.laterNo + 1 }
  let try_ (k : Nat) (s : State) : Out := match s.later[k]? with
    | none => .fault .notEnabled
    | some d => runDue run d { s with later := s.later.eraseIdx k }
  match firstNext (rotate ((List.range s.later.length).map try_) n) s with
  | some s => s
  | none => s.autoStep

/-- The next thing that the outside world does; one that does not fit the state has no effect. (DESIGN CHOICE, log 8.) -/
def State.inputStep (run : Instr → State → Out) (s : State) : State :=
  match s.inputs with
  | [] => s.autoStep
  | i :: rest => match run i { s with inputs := rest } with
    | .next s => s
    | _ => { s with inputs := rest }

/-! ## Whose turn comes next -/

/-- Groups that may issue: bound, not stopped (but for the one that steps), with no access in flight that may still fail. -/
def State.groupTurns (s : State) : List Turn :=
  s.teams.flatMap fun kv => kv.2.groups.filterMap fun g => match g.2.run with
    | none => none
    | some r =>
      if kv.2.stop.all (fun st => st.stepping && st.gix == g.1) && !s.accBars kv.1 g.1 r.lanes then some (.group kv.1 g.1) else none
/-- Streams that may fetch. -/
def State.streamTurns (s : State) : List Turn :=
  s.teams.filterMap fun kv => if s.streamFetches kv.1 then some (.stream kv.1) else none

/-- Everything that may come next. (DESIGN CHOICE, log 4; DESIGN CHOICE, log 5.) -/
def State.turns (s : State) : List Turn :=
  s.groupTurns ++ s.streamTurns ++ (if s.later.isEmpty then [] else [.later]) ++ (if s.inputs.isEmpty then [] else [.input])

/-- One CCLK passes: DEVTIME moves by 0 or 1 ns, debt falls, samples are taken.
(DESIGN CHOICE, log 5; DESIGN CHOICE, log 104.) -/
def State.tick (s : State) : State :=
  let s := { s with
    cclk := s.cclk + 1
    devtime := s.devtime + Config.freeChoice s.free % 2
    free := s.free + 1 }
  s.debtFall.sampleTick.stopTraces

/-- The turn of `ts` that has waited longest: one not yet taken, else the one taken longest ago. (DESIGN CHOICE, log 4.) -/
def State.fairTurn (s : State) (ts : List Turn) : Turn :=
  match ts.find? fun t => !s.served.contains t with
  | some t => t
  | none => (s.served.find? ts.contains).getD .auto
/-- A turn that may come again: its team is there, though the turn cannot be taken at the moment. -/
def State.turnStays (s : State) (t : Turn) : Bool :=
  match t with
  | .group t _ | .stream t => (amapFind? s.teams t).isSome
  | _ => true
/-- Give the turn. When the others were taken is kept, also of those that cannot be taken now. -/
def State.giveTurn (s : State) (t : Turn) : State :=
  { s with turn := t, served := (s.served.filter fun x => x ≠ t ∧ s.turnStays x) ++ [t], picks := s.picks + 1, free := s.free + 1 }
/-- Choose the next turn: every other choice is free; the others go to the turn that has waited longest, so that every ready group
issues again within a bounded number of steps (R146). (DESIGN CHOICE, log 4.) -/
def State.pickTurn (s : State) : State :=
  let ts := s.turns ++ [Turn.auto]
  s.giveTurn (if s.picks % 2 = 0 then s.fairTurn ts else ts.getD (Config.freeChoice s.free % ts.length) Turn.auto)

/-- After a step that took turn `t`: time passes, and the next turn is chosen, unless the step itself chose one that
can be taken. (DESIGN CHOICE, log 4.) -/
def State.resched (s : State) (t : Turn) : State :=
  let s := s.tick
  if s.turn ≠ t ∧ (s.turn = .later ∨ s.turn ∈ s.turns) then s else s.pickTurn
/-- After a message, which took nobody's turn: whose turn it was, it is, unless the message took it away. -/
def State.keepTurn (s : State) (t : Turn) : State :=
  let s := { s with turn := t }.tick
  if t ∈ s.turns ++ [Turn.auto] then s else s.pickTurn

end Sys2Proof.Machine
end

