-- ==== Sys2Proof/Machine/Step.lean ====
section
/-! DEFINITION. One step of the part: a message is delivered, or the group, the stream, the due step, the input or the unit
whose turn it is acts. `withFetchWord` places a word for a test. -/

namespace Sys2Proof.Machine

/-- A group's slot: its next instruction issues. (DESIGN CHOICE, log 7.) -/
def groupStep (t g : Nat) (s : State) : Host.Outcome State Fault Refusal :=
  match s.groupSlot t g with
  | .none_ s' => .next (s'.resched s.turn)
  | .issue i pc s =>
    match exec i s with
    | .next s' => .next ((s.slotEnd s' t g pc i).resched s.turn)
    | o => o

/-- A stream's fetch. (DESIGN CHOICE, log 7.) -/
def streamStep (t : Nat) (s : State) : Host.Outcome State Fault Refusal :=
  match exec (.sequencerFetch t) s with
  | .next s' => .next (s'.resched s.turn)
  | _ => .next (s.autoStep.resched s.turn)

/-- One step. A message whose access is gone has no effect; without power only the outside world acts.
(DESIGN CHOICE, log 5; DESIGN CHOICE, log 8; DEDUCED, log 108.) -/
def step (s : State) : Host.Outcome State Fault Refusal :=
  if !s.boot.powered then .next ((s.inputStep exec).resched s.turn) else
  match s.msgs with
  | m :: ms => match exec m { s with msgs := ms } with
    | .next s' => .next (s'.keepTurn s.turn)
    | _ => .next ({ s with msgs := ms }.keepTurn s.turn)
  | [] => match s.turn with
    | .group t g => groupStep t g s
    | .stream t => streamStep t s
    | .later => .next ((s.laterStep exec).resched s.turn)
    | .input => .next ((s.inputStep exec).resched s.turn)
    | .auto => .next (s.autoStep.resched s.turn)

/-- The team, cluster and launch that hold a word placed for a test. (DESIGN CHOICE, log 6.) -/
def fetchTeam : Nat := 0

/-- The word of a table row, whose bits above `nbits` are 0, as a fetch block of its own at PC 0: the block of a group of one
thread, or of a stream for a stream opcode, whose turn it is. It stands for a load of the program from outside: the launch
record, the instruction cache and device memory hold the word. (DESIGN CHOICE, log 6.) -/
def State.withFetchWord (s : State) (nbits w : Nat) : State :=
  let b := BitVec.ofNat 256 (w % 2 ^ nbits % 2 ^ 128)
  let stream := opcStream (opcOf b.toNat)
  let lr : Record := { regs := 256, priv := 1024, ms := stream }
  let la : Launch := { lr := lr, live := [fetchTeam], cores := [0], next := 1, window := 2 ^ 56 }
  let cl : Cluster := { launch := fetchTeam, teams := [fetchTeam] }
  let g : Group := { threads := [(0, {})], run := some ⟨0, [0], 0, []⟩ }
  let tm : Team := { launch := fetchTeam, cluster := fetchTeam, groups := [(0, g)], stream := if stream then some { pc := 0 } else none }
  let s := s.icachePut 0 fetchTeam 0 b
  { s with
    turn := if stream then .stream fetchTeam else .group fetchTeam 0
    msgs := []
    boot := { s.boot with ready := true, phase := 11, powered := true }
    dram := memPut s.dram 0 (natToBytes 32 b.toNat)
    teams := amapInsert s.teams fetchTeam tm
    clusters := amapInsert s.clusters fetchTeam cl
    launches := amapInsert s.launches fetchTeam la }

end Sys2Proof.Machine
end

