-- ==== Sys2Proof/Safety.lean ====
section
/-! DEFINITION. The terms in which claims about the machine are made: when a word issues, what an issue leaves alone, what a
thread and a byte of memory look like from outside. -/

namespace Sys2Proof.Machine

/-! ## Issuing -/

/-- The word of `o` issues for the group of `i`, whose turn it is: none of its lanes has an access in flight that may still
fail, its registers are in range (check 7 of Table 09-17), no result or single-execution load that it touches is pending
(R142), and every latch that it reads has a producer (check 8), an S-form where the word is one (R167). `u` names what the
word reads and writes. -/
structure Issues (s : State) (o : Ops) (u : Uses) (i : Iss) : Prop where
  turn    : s.turn = .group i.t i.g
  run     : (s.group i.t i.g).run = some i.run
  ops     : i.o = o
  parts   : i.parts = i.run.lanes.filter fun l => (s.thread i.t i.g l).guard o
  flight  : s.accHeld i.t i.g i.run.lanes = false
  range   : u.inRange (s.regCount i.t) = true
  pending : s.pendHits i.t i.g o u i.run.lanes i.parts = []
  loads   : s.loadHits i.t i.g u = [] ∨ i.parts = []
  latches : u.latches.all i.run.hasLatch = true ∨ i.parts = []
  scalars : u.sform = false ∨ u.latches.all i.run.scalarLatch = true ∨ i.parts = []

/-- The state in which an issue reads its operands: the model's own count of free values has moved on. -/
def State.reading (s : State) : State := { s with free := s.free + 256 }

/-! ## What a thread looks like -/

/-- A thread's registers: PC, vector registers, predicates, FPM, return stack, TRAPCAUSE. -/
def Thread.arch (th : Thread) : Nat × AMap Word × BitVec 8 × Word × List Nat × Nat × BitVec 8 :=
  (th.pc, th.v, th.p, th.fpm, th.hw, th.spilled, th.trapCause)

/-- The state less its teams, its cores and the interrupts raised. -/
def State.others (s : State) : State := { s with teams := [], cores := [], msi := {} }

/-- A team less its groups and its stop. -/
def Team.body (tm : Team) : Team := { tm with groups := [], stop := none }

/-- A core less its L1 and its guest book: records, SEQ, held list, the thread that is replaying, GBSTAT.FULL and its call. -/
def Core.rest (k : Core) : Core :=
  { k with l1 := [], book := [], held := [], serving := none, nextSeq := 0, full := false, called := false }
/-- A core keeps EPOCH, REGION, the barrier table, the instruction cache, the W path and whatever else is not of its guest book,
and gains no L1 line and no byte in one; lines may go (R29). -/
def Core.kept (k k' : Core) : Prop := k'.rest = k.rest ∧ k'.l1.Sublist k.l1

/-- What the bookkeeping of an issue leaves alone: every register of every thread and group, memory, every core but for its guest
book and private lines that are dropped, and whatever else of the part is not of a group's standing (its run, its waits, its
threads' standing) or an interrupt. -/
structure Quiet (s s' : State) : Prop where
  others : s'.others = s.others
  bodies : ∀ t, (s'.team t).body = (s.team t).body
  scal   : ∀ t g, (s'.group t g).s = (s.group t g).s
  arch   : ∀ t g l, (s'.thread t g l).arch = (s.thread t g l).arch
  cores  : ∀ c, (s.core c).kept (s'.core c)

/-! ## What an issue of lane results leaves -/

/-- The last value that a list of writes gives a place. -/
def lastWrite {α : Type} (ws : List (Nat × α)) (n : Nat) : Option α := ws.foldl (fun a x => if x.1 = n then some x.2 else a) none

/-- Lane `l` of the group holds a thread that is ready. -/
def State.readyAt (s : State) (t g l : Nat) : Prop := ∃ th, amapFind? (s.group t g).threads l = some th ∧ th.stat = .ready

/-- Lane `l` of the group holds a thread. -/
def State.hasLane (s : State) (t g l : Nat) : Bool := (amapFind? (s.group t g).threads l).isSome

/-- The PC past the word of the issue. -/
def Iss.past (i : Iss) (s : State) (l : Nat) : Nat := ((s.thread i.t i.g l).pc + i.o.len.bytes) % 2 ^ 64

/-- The run that an issue leaves its group, if any: the issue's, with one instruction more, no lane more, and before its latches
the one that the issue writes, if it does (R9, R140, R141). -/
def Latched (s' : State) (i : Iss) (y : Option Latch) : Prop :=
  ∀ r, (s'.group i.t i.g).run = some r → r.ctx = i.run.ctx ∧ r.count = i.run.count + 1 ∧ (∀ l ∈ r.lanes, l ∈ i.run.lanes) ∧
    r.y = match y with
      | none => i.run.y
      | some v => (v :: i.run.y).take 4

/-- What an issue leaves of everything but registers: every lane of the run that is ready goes on at `dest`; every other
thread keeps its PC; TRAPCAUSE stays; memory and every other part of the state but the standing of groups, guest books and
interrupts is that of `b` (`s.reading` where the issue does nothing else), every core's L1 with it unless the grid is ending, when
private lines may be dropped. -/
structure Moved (s b s' : State) (i : Iss) (dest : Nat → Nat) : Prop where
  others : s'.others = b.others
  bodies : ∀ t, (s'.team t).body = (b.team t).body
  causes : ∀ t g l, (s'.thread t g l).trapCause = (s.thread t g l).trapCause
  pc     : ∀ l ∈ i.run.lanes, s.readyAt i.t i.g l → (s'.thread i.t i.g l).pc = dest l
  pcs    : ∀ t g l, ¬ (t = i.t ∧ g = i.g ∧ l ∈ i.run.lanes) → (s'.thread t g l).pc = (s.thread t g l).pc
  cores  : ∀ c, (b.core c).kept (s'.core c)
  lines  : b.stopping i.t = false → ∀ c, (s'.core c).l1 = (b.core c).l1
  run    : ∃ y, Latched s' i y

/-- Every thread keeps its return stack. -/
def Uncalled (s s' : State) : Prop :=
  ∀ t g l, (s'.thread t g l).hw = (s.thread t g l).hw ∧ (s'.thread t g l).spilled = (s.thread t g l).spilled

/-- Each participant wrote its results `r`: registers (none under NW), predicates (p7 cannot be written), FPM; no other
register of any thread or group changed. -/
structure Wrote (s b s' : State) (i : Iss) (r : Nat → LaneRes) : Prop extends Moved s b s' i (i.past s) where
  calls  : Uncalled s s'
  regs  : ∀ t g l n, s'.readV t g l n =
    if t = i.t ∧ g = i.g ∧ l ∈ i.parts ∧ i.o.nw = false then (lastWrite (r l).regs n).getD (s.readV t g l n) else s.readV t g l n
  preds : ∀ t g l n, s'.readP t g l n =
    if t = i.t ∧ g = i.g ∧ l ∈ i.parts ∧ n < 7 then (lastWrite (r l).preds n).getD (s.readP t g l n) else s.readP t g l n
  modes : ∀ t g l, (s'.thread t g l).fpm =
    if t = i.t ∧ g = i.g ∧ l ∈ i.parts then (r l).fpm.getD (s.thread t g l).fpm else (s.thread t g l).fpm
  scal  : ∀ t g n, s'.readS t g n = s.readS t g n

/-- The group wrote its scalar registers `r` (none under NW or without a participant; s63 discards), and each participant
its FPM; no vector register and no predicate changed. -/
structure WroteS (s b s' : State) (i : Iss) (r : List (Nat × Word)) (m : Nat → Option Word) : Prop extends Moved s b s' i (i.past s) where
  calls  : Uncalled s s'
  regs  : ∀ t g l n, s'.readV t g l n = s.readV t g l n
  preds : ∀ t g l n, s'.readP t g l n = s.readP t g l n
  modes : ∀ t g l, (s'.thread t g l).fpm =
    if t = i.t ∧ g = i.g ∧ l ∈ i.parts ∧ s.hasLane t g l then (m l).getD (s.thread t g l).fpm else (s.thread t g l).fpm
  scal  : ∀ t g n, s'.readS t g n =
    if t = i.t ∧ g = i.g ∧ i.parts ≠ [] ∧ i.o.nw = false ∧ n ≠ 63 then (lastWrite r n).getD (s.readS t g n) else s.readS t g n

/-- No register of any thread or group changed. -/
abbrev Still (s b s' : State) (i : Iss) : Prop := Wrote s b s' i fun _ => {}

/-- No vector register, predicate, FPM or scalar register of any thread or group changed. -/
structure SameRegs (s s' : State) : Prop where
  regs  : ∀ t g l n, s'.readV t g l n = s.readV t g l n
  preds : ∀ t g l n, s'.readP t g l n = s.readP t g l n
  modes : ∀ t g l, (s'.thread t g l).fpm = (s.thread t g l).fpm
  scal  : ∀ t g n, s'.readS t g n = s.readS t g n

/-! ## What every step keeps -/

/-- What the chosen turn means: a group of that team is bound, its team is not stopped, or steps it, and no access of the lanes of
its run that may still fail is in flight; a stream may fetch; there is an input. -/
def State.turnOk (s : State) : Prop :=
  match s.turn with
  | .group t g => ∃ tm gr r, (t, tm) ∈ s.teams ∧ (g, gr) ∈ tm.groups ∧ gr.run = some r ∧
      (∀ x, tm.stop = some x → x.stepping = true ∧ x.gix = g) ∧ s.accBars t g r.lanes = false
  | .stream t => s.streamFetches t = true
  | .input => s.inputs ≠ []
  | .later | .auto => True

/-- The forms and bounds of the part's memories and tables: every memory is in its canonical form, a guest book holds 64 records
at most (R345), the event log 4,096 entries (R408), CCLK runs from 1.2 to 3.6 GHz (R406), the power cap lies from 600 to 2,400 W,
the clock ratio is one of the three (R4), and the ring has 2^15 entries at most (R299). -/
structure State.InForm (s : State) : Prop where
  dram  : Memory.wf s.dram = true
  host  : Memory.wf s.hostMem = true
  peer  : Memory.wf s.peerMem = true
  sdie  : Memory.wf s.sdie = true
  book  : ∀ kv ∈ s.cores, kv.2.book.length ≤ 64
  log   : s.mgmt.log.length ≤ 4096
  cclk  : 1200 ≤ s.mgmt.cclkMhz ∧ s.mgmt.cclkMhz ≤ 3600
  cap   : 600 ≤ s.mgmt.cap ∧ s.mgmt.cap ≤ 2400
  ratio : s.ratio = 4 ∨ s.ratio = 5 ∨ s.ratio = 6
  ring  : s.ring.logn ≤ 11

/-! ## The forms of the lane instructions

Each relation names, instruction by instruction, the fields, whether the form is scalar, the registers it uses, and what
a lane computes, as chapters 10 and 11 give it. -/

/-- Moves, arithmetic, logic, shifts and fields (R169 to R175), and PMOV to a register (R178). -/
inductive IntForm : Instr → Ops → Bool → Uses → (State → Iss → Nat → LaneRes) → Prop
  | mov o sc : IntForm (.mov o sc) o sc (o.uses 1 0 0 1 sc) fun s i l => res32 o.d (src32 s i l o.a)
  | movi o sc : IntForm (.movi o sc) o sc (o.uses 1 0 0 1 sc) fun s i l => res32 o.d (src32 s i l o.a)
  | sel o sc neg q : IntForm (.sel o sc neg q) o sc { o.uses 1 1 0 1 sc with pr := [q.toNat] } fun s i l =>
      res32 o.d (if s.readP i.t i.g l q.toNat != neg then src32 s i l o.a else src32 s i l o.b)
  | iadd o sc ty sat : IntForm (.iadd o sc ty sat) o sc (o.uses 1 1 0 1 sc) fun s i l =>
      res32 o.d (fin32 ty sat (val32 ty (src32 s i l o.a) + val32 ty (src32 s i l o.b)))
  | isub o sc ty sat : IntForm (.isub o sc ty sat) o sc (o.uses 1 1 0 1 sc) fun s i l =>
      res32 o.d (fin32 ty sat (val32 ty (src32 s i l o.a) - val32 ty (src32 s i l o.b)))
  | iabs o sat : IntForm (.iabs o sat) o false (o.uses 1 0 0 1 false) fun s i l =>
      res32 o.d (fin32 .i32 sat ((src32 s i l o.a).toInt.natAbs : Int))
  | ineg o sat : IntForm (.ineg o sat) o false (o.uses 1 0 0 1 false) fun s i l => res32 o.d (fin32 .i32 sat (-(src32 s i l o.a).toInt))
  | imin o sc ty : IntForm (.imin o sc ty) o sc (o.uses 1 1 0 1 sc) fun s i l =>
      res32 o.d (if val32 ty (src32 s i l o.a) ≤ val32 ty (src32 s i l o.b) then src32 s i l o.a else src32 s i l o.b)
  | imax o sc ty : IntForm (.imax o sc ty) o sc (o.uses 1 1 0 1 sc) fun s i l =>
      res32 o.d (if val32 ty (src32 s i l o.a) ≥ val32 ty (src32 s i l o.b) then src32 s i l o.a else src32 s i l o.b)
  | iadd64 o sc ty sat w : IntForm (.iadd64 o sc ty sat w) o sc (o.uses 2 (if w then 1 else 2) 0 2 sc) fun s i l =>
      res64 o.d (fin64 ty sat (val64 ty (src64 s i l o.a (IntTy.signed ty)) + val64 ty
        (if w then ext64 (IntTy.signed ty) (src32 s i l o.b) else src64 s i l o.b (IntTy.signed ty))))
  | imul o sc ty sat : IntForm (.imul o sc ty sat) o sc (o.uses 1 1 0 1 sc) fun s i l =>
      res32 o.d (fin32 ty sat (val32 ty (src32 s i l o.a) * val32 ty (src32 s i l o.b)))
  | imulh o ty : IntForm (.imulh o ty) o false (o.uses 1 1 0 1 false) fun s i l =>
      res32 o.d (BitVec.ofInt 32 ((val32 ty (src32 s i l o.a) * val32 ty (src32 s i l o.b)) / 2 ^ 32))
  | imad o sc ty sat : IntForm (.imad o sc ty sat) o sc (o.uses 1 1 1 1 sc) fun s i l =>
      res32 o.d (fin32 ty sat (val32 ty (src32 s i l o.a) * val32 ty (src32 s i l o.b) + val32 ty (src32 s i l o.c)))
  | imadw o ty sat : IntForm (.imadw o ty sat) o false (o.uses 1 1 2 2 false) fun s i l =>
      res64 o.d (fin64 (if IntTy.signed ty then .i64 else .n64) sat (val32 ty (src32 s i l o.a) * val32 ty (src32 s i l o.b) +
        val64 (if IntTy.signed ty then .i64 else .n64) (src64 s i l o.c (IntTy.signed ty))))
  | and o sc : IntForm (.and o sc) o sc (o.uses 1 1 0 1 sc) fun s i l => res32 o.d (src32 s i l o.a &&& src32 s i l o.b)
  | or o sc : IntForm (.or o sc) o sc (o.uses 1 1 0 1 sc) fun s i l => res32 o.d (src32 s i l o.a ||| src32 s i l o.b)
  | xor o sc : IntForm (.xor o sc) o sc (o.uses 1 1 0 1 sc) fun s i l => res32 o.d (src32 s i l o.a ^^^ src32 s i l o.b)
  | not o : IntForm (.not o) o false (o.uses 1 0 0 1 false) fun s i l => res32 o.d (~~~ src32 s i l o.a)
  | lgc3 o tb : IntForm (.lgc3 o tb) o false (o.uses 1 1 1 1 false) fun s i l =>
      res32 o.d (lgc3Fn tb (src32 s i l o.a) (src32 s i l o.b) (src32 s i l o.c))
  | shl o sc wrap : IntForm (.shl o sc wrap) o sc (o.uses 1 1 0 1 sc) fun s i l => res32 o.d (shlFn wrap (src32 s i l o.a) (src32 s i l o.b))
  | shr o sc wrap : IntForm (.shr o sc wrap) o sc (o.uses 1 1 0 1 sc) fun s i l => res32 o.d (shrFn wrap (src32 s i l o.a) (src32 s i l o.b))
  | sar o wrap : IntForm (.sar o wrap) o false (o.uses 1 1 0 1 false) fun s i l => res32 o.d (sarFn wrap (src32 s i l o.a) (src32 s i l o.b))
  | rot o : IntForm (.rot o) o false (o.uses 1 1 0 1 false) fun s i l =>
      res32 o.d ((src32 s i l o.a).rotateLeft ((src32 s i l o.b).toNat % 32))
  | fshf o left : IntForm (.fshf o left) o false (o.uses 1 1 1 1 false) fun s i l =>
      res32 o.d (fshfFn left (src32 s i l o.a) (src32 s i l o.b) (src32 s i l o.c))
  | bfe o ty : IntForm (.bfe o ty) o false (o.uses 1 1 1 1 false) fun s i l =>
      res32 o.d (bfeFn ty (src32 s i l o.a) (src32 s i l o.b) (src32 s i l o.c))
  | bfi o : IntForm (.bfi o) o false (o.uses 1 1 1 1 false) fun s i l =>
      res32 o.d (bfiFn (src32 s i l o.a) (src32 s i l o.b) (src32 s i l o.c))
  | popc o : IntForm (.popc o) o false (o.uses 1 0 0 1 false) fun s i l => res32 o.d (popcFn (src32 s i l o.a))
  | clz o : IntForm (.clz o) o false (o.uses 1 0 0 1 false) fun s i l =>
      res32 o.d (if src32 s i l o.a = 0 then 32 else BitVec.ofNat 32 (31 - (src32 s i l o.a).toNat.log2))
  | brev o : IntForm (.brev o) o false (o.uses 1 0 0 1 false) fun s i l => res32 o.d (brevFn (src32 s i l o.a))
  | bysel o : IntForm (.bysel o) o false (o.uses 1 1 1 1 false) fun s i l =>
      res32 o.d (byselFn (src32 s i l o.a) (src32 s i l o.b) (src32 s i l o.c))
  | lea o ty sh : IntForm (.lea o ty sh) o false (o.uses 2 1 0 2 false) fun s i l =>
      res64 o.d (BitVec.ofInt 64 ((src64 s i l o.a false).toNat + val32 ty (src32 s i l o.b) * 2 ^ sh.toNat))
  | pmov o : IntForm (.pmov o) o false { o.uses 0 0 0 1 false with pr := [0, 1, 2, 3, 4, 5, 6] } fun s i l =>
      res32 o.d (BitVec.ofNat 32 (128 + (s.thread i.t i.g l).p.toNat % 128))
  | fclass o ty : IntForm (.fclass o ty) o false (o.uses 1 0 0 1 false) fun s i l =>
      let cs := (elemsOf ty (srcF ty s i l o.a)).map fun x => 2 ^ classOf (fmtOf ty) x
      res32 o.d (BitVec.ofNat 32 (if ty = .f32 then cs.headD 0 else cs.headD 0 + 2 ^ 16 * cs.getD 1 0))

/-- Compares and predicate instructions (R176 to R178, R215). -/
inductive PredForm : Instr → Ops → Uses → (State → Iss → Nat → Bool) → Prop
  | isetp32 o ty op qn q cmp (h : ty ≠ .i64 ∧ ty ≠ .n64) : PredForm (.isetp o ty op qn q cmp) o (o.usesP 1 1 0 [q.toNat]) fun s i l =>
      combineP op (isetpFn ty cmp ((src32 s i l o.a).setWidth 64) ((src32 s i l o.b).setWidth 64)) (s.readP i.t i.g l q.toNat != qn)
  | isetp64 o ty op qn q cmp (h : ty = .i64 ∨ ty = .n64) : PredForm (.isetp o ty op qn q cmp) o (o.usesP 2 2 0 [q.toNat]) fun s i l =>
      combineP op (isetpFn ty cmp (src64 s i l o.a (ty == .i64)) (src64 s i l o.b (ty == .i64))) (s.readP i.t i.g l q.toNat != qn)
  | iaddP o ty : PredForm (.iaddP o ty) o (o.usesP 1 1 0 []) fun s i l =>
      outside ty (val32 ty (src32 s i l o.a) + val32 ty (src32 s i l o.b))
  | isubP o ty : PredForm (.isubP o ty) o (o.usesP 1 1 0 []) fun s i l =>
      outside ty (val32 ty (src32 s i l o.a) - val32 ty (src32 s i l o.b))
  | imulP o ty : PredForm (.imulP o ty) o (o.usesP 1 1 0 []) fun s i l =>
      outside ty (val32 ty (src32 s i l o.a) * val32 ty (src32 s i l o.b))
  | lgc3P o tb : PredForm (.lgc3P o tb) o (o.usesP 1 1 1 []) fun s i l =>
      lgc3Fn tb (src32 s i l o.a) (src32 s i l o.b) (src32 s i l o.c) != 0
  | plop o pa pb pc : PredForm (.plop o pa pb pc) o (o.usesP 0 0 0 [pa.toNat, pb.toNat, pc.toNat]) fun s i l =>
      (src32 s i l o.a).getLsbD ((s.readP i.t i.g l pa.toNat).toNat + 2 * (s.readP i.t i.g l pb.toNat).toNat +
        4 * (s.readP i.t i.g l pc.toNat).toNat)
  | pmovP o bit : PredForm (.pmovP o bit) o (o.usesP 1 0 0 []) fun s i l => (src32 s i l o.a).getLsbD bit.toNat
  | fclassP o ty : PredForm (.fclassP o ty) o (o.usesP 1 1 0 []) fun s i l =>
      (elemsOf ty (srcF ty s i l o.a)).all fun x => (src32 s i l o.b).toNat % 2 ^ 10 / 2 ^ classOf (fmtOf ty) x % 2 == 1

/-- Floating-point arithmetic and conversions (R205 to R221): what a lane computes under an FPM, as words and the exceptions
raised. -/
inductive FloatForm : Instr → Ops → Bool → Uses → (State → Iss → Nat → Word → List Word × FFlags) → Prop
  | fadd o ty sc m : FloatForm (.fadd o ty sc m) o sc (o.uses 1 1 0 1 sc) fun s i l fpm =>
      faddFn ty m fpm (srcF ty s i l o.a) (srcF ty s i l o.b)
  | fsub o ty sc m : FloatForm (.fsub o ty sc m) o sc (o.uses 1 1 0 1 sc) fun s i l fpm =>
      fsubFn ty m fpm (srcF ty s i l o.a) (srcF ty s i l o.b)
  | fmul o ty sc m : FloatForm (.fmul o ty sc m) o sc (o.uses 1 1 0 1 sc) fun s i l fpm =>
      fmulFn ty m fpm (srcF ty s i l o.a) (srcF ty s i l o.b)
  | ffma o ty sc m : FloatForm (.ffma o ty sc m) o sc (o.uses 1 1 1 1 sc) fun s i l fpm =>
      ffmaFn ty m fpm (srcF ty s i l o.a) (srcF ty s i l o.b) (srcF ty s i l o.c)
  | fmin o ty sc m : FloatForm (.fmin o ty sc m) o sc (o.uses 1 1 0 1 sc) fun s i l fpm =>
      fminmaxFn false ty m fpm (srcF ty s i l o.a) (srcF ty s i l o.b)
  | fmax o ty sc m : FloatForm (.fmax o ty sc m) o sc (o.uses 1 1 0 1 sc) fun s i l fpm =>
      fminmaxFn true ty m fpm (srcF ty s i l o.a) (srcF ty s i l o.b)
  | frnd o ty sc m : FloatForm (.frnd o ty sc m) o sc (o.uses 1 0 0 1 sc) fun s i l fpm =>
      fElems ty (fun x _ _ => frndElem (fmtOf ty) m fpm x) (srcF ty s i l o.a) 0 0
  | fdp2 o ty m : FloatForm (.fdp2 o ty m) o false (o.uses (if ty = .f32 then 2 else 1) (if ty = .f32 then 2 else 1) 1 1 false)
      fun s i l fpm => fdp2Fn ty m fpm (fdp2Src ty s i l o.a) (fdp2Src ty s i l o.b) (srcF .f32 s i l o.c).toNat
  | cvt o dst src sc hi sat rnd : FloatForm (.cvt o dst src sc hi sat rnd) o sc (o.uses (CvtTy.width src / 32) 0 0 (CvtTy.width dst / 32) sc)
      fun s i l fpm =>
        let r := cvtFn dst src hi sat rnd fpm (cvtSrc src s i l o.a)
        (toWords (CvtTy.width dst / 32) r.1, r.2)

/-- The approximate functions and the correctly rounded FRCP and FSQRT (R216, R217), of medium latency. -/
inductive FnForm : Instr → Ops → Bool → Uses → (State → Iss → Nat → Word → List Word × FFlags) → Prop
  | frcp o fm na aa : FnForm (.frcp o fm na aa) o (fm == .sf32) (o.uses 1 0 0 1 (fm == .sf32)) (fnWords .rcp fm na aa)
  | frsq o fm na aa : FnForm (.frsq o fm na aa) o (fm == .sf32) (o.uses 1 0 0 1 (fm == .sf32)) (fnWords .rsq fm na aa)
  | fsqrt o fm na aa : FnForm (.fsqrt o fm na aa) o (fm == .sf32) (o.uses 1 0 0 1 (fm == .sf32)) (fnWords .sqrt fm na aa)
  | fexp2 o fm na aa : FnForm (.fexp2 o fm na aa) o (fm == .sf32) (o.uses 1 0 0 1 (fm == .sf32)) (fnWords .exp2 fm na aa)
  | flog2 o fm na aa : FnForm (.flog2 o fm na aa) o (fm == .sf32) (o.uses 1 0 0 1 (fm == .sf32)) (fnWords .log2 fm na aa)
  | fsin o fm na aa : FnForm (.fsin o fm na aa) o (fm == .sf32) (o.uses 1 0 0 1 (fm == .sf32)) (fnWords .sin fm na aa)
  | fcos o fm na aa : FnForm (.fcos o fm na aa) o (fm == .sf32) (o.uses 1 0 0 1 (fm == .sf32)) (fnWords .cos fm na aa)
  | frcpIeee o m : FnForm (.frcpIeee o m) o false (o.uses 1 0 0 1 false) fun s i l fpm => frcpIeeeFn m fpm (srcF .f32 s i l o.a)
  | fsqrtIeee o m : FnForm (.fsqrtIeee o m) o false (o.uses 1 0 0 1 false) fun s i l fpm => fsqrtIeeeFn m fpm (srcF .f32 s i l o.a)

/-- The quantising conversions (R219 to R221): elements per word, the operands' words, and the result under the slot's
format. -/
inductive QuantForm : Instr → Ops → BitVec 3 → Nat → Uses → (ElemFmt → State → Iss → Nat → Word → List Word × FFlags) → Prop
  | cvq2 o satf slot : QuantForm (.cvq2 o satf slot) o slot 2 (o.uses 2 1 0 1 false) fun f s i l fpm => cvqWords 2 f satf s i l fpm
  | cvq4 o satf slot : QuantForm (.cvq4 o satf slot) o slot 4 (o.uses 4 1 0 1 false) fun f s i l fpm => cvqWords 4 f satf s i l fpm
  | cvq8 o slot : QuantForm (.cvq8 o slot) o slot 8 (o.uses 8 1 0 1 false) fun f s i l fpm => cvqWords 8 f false s i l fpm
  | cvx2 o slot : QuantForm (.cvx2 o slot) o slot 2 (o.uses 1 1 0 2 false) fun f s i l fpm => cvxWords 2 f s i l fpm
  | cvx4 o slot : QuantForm (.cvx4 o slot) o slot 4 (o.uses 1 1 0 4 false) fun f s i l fpm => cvxWords 4 f s i l fpm
  | cvx8 o slot : QuantForm (.cvx8 o slot) o slot 8 (o.uses 1 1 0 8 false) fun f s i l fpm => cvxWords 8 f s i l fpm

/-- Branches (R179 to R181): what a word uses, when a participant's branch is in order, and where it goes (none: past the
word). -/
inductive BranchForm : Instr → Ops → Uses → (State → Iss → Nat → Prop) → (State → Iss → Nat → Option Nat) → Prop
  | bra o : BranchForm (.bra o) o {} (fun _ _ _ => True) fun s i l =>
      some ((((s.thread i.t i.g l).pc : Int) + branchDisp o) % 2 ^ 64).toNat
  | braAny o neg q : BranchForm (.braAny o neg q) o { pr := [q.toNat] } (fun _ _ _ => True) fun s i l =>
      if i.parts.any fun k => s.readP i.t i.g k q.toNat != neg then
        some ((((s.thread i.t i.g l).pc : Int) + branchDisp o) % 2 ^ 64).toNat else none
  | braAll o neg q : BranchForm (.braAll o neg q) o { pr := [q.toNat] } (fun _ _ _ => True) fun s i l =>
      if i.parts.all fun k => s.readP i.t i.g k q.toNat != neg then
        some ((((s.thread i.t i.g l).pc : Int) + branchDisp o) % 2 ^ 64).toNat else none
  | brx o : BranchForm (.brx o) o { src := [(o.a, 1)] } (fun s i l => (src32 s i l o.a).toNat % 4 = 0) fun s i l =>
      some (((s.lr i.t).code + (src32 s i l o.a).toNat) % 2 ^ 64)

/-- Calls (R138, R181): the target of a participant, and when it is in order. -/
inductive CallForm : Instr → Ops → Uses → (State → Iss → Nat → Prop) → (State → Iss → Nat → Nat) → Prop
  | call o : CallForm (.call o) o {} (fun _ _ _ => True) fun s i l => (((s.thread i.t i.g l).pc + branchDisp o) % 2 ^ 64).toNat
  | callx o : CallForm (.callx o) o { src := [(o.a, 1)] } (fun s i l => (src32 s i l o.a).toNat % 4 = 0) fun s i l =>
      ((s.lr i.t).code + (src32 s i l o.a).toNat) % 2 ^ 64

/-- Only the participants' return stacks and PCs changed. -/
structure Called (s s' : State) (i : Iss) (dest : Nat → Nat) (stack : Nat → List Nat) : Prop
    extends Moved s s.reading s' i dest, SameRegs s s' where
  deep  : ∀ t g l, (s'.thread t g l).spilled = (s.thread t g l).spilled
  stack : ∀ t g l, (s'.thread t g l).hw = if t = i.t ∧ g = i.g ∧ l ∈ i.parts then stack l else (s.thread t g l).hw

/-- No named lane holds the exchange up (R194). -/
def Iss.allThere (i : Iss) (s : State) (named : List Nat) : Prop := (named.any fun n => (s.group i.t i.g).holdsUp i.run.lanes n) = false

/-- The four ways of naming a source lane (R196). -/
inductive LxForm : Instr → Ops → LxKind → BitVec 3 → BitVec 3 → Prop
  | idx o w pv : LxForm (.lxchIdx o w pv) o .idx w pv
  | rot o w pv : LxForm (.lxchRot o w pv) o .rot w pv
  | rev o w pv : LxForm (.lxchRev o w pv) o .rev w pv
  | xor o w pv : LxForm (.lxchXor o w pv) o .xor w pv

/-- The masked instructions (R195, R197 to R199): what a word uses besides its mask, and from the present named lanes the
results queued for registers (lane, register, value) and for predicates. -/
inductive MaskedForm : Instr → Ops → Uses → (State → Iss → List Nat → List (Nat × Nat × Word)) →
    (State → Iss → List Nat → List (Nat × Nat × Bool)) → Prop
  | lqryAll o neg q : MaskedForm (.lqryAll o neg q) o { pr := [q.toNat], pw := [o.d.toNat] } (fun _ _ _ => []) fun s i ps =>
      i.parts.map fun l => (l, o.d.toNat, ps.all fun k => s.readP i.t i.g k q.toNat != neg)
  | lqryAny o neg q : MaskedForm (.lqryAny o neg q) o { pr := [q.toNat], pw := [o.d.toNat] } (fun _ _ _ => []) fun s i ps =>
      i.parts.map fun l => (l, o.d.toNat, ps.any fun k => s.readP i.t i.g k q.toNat != neg)
  | lqrySame o neg q : MaskedForm (.lqrySame o neg q) o { pr := [q.toNat], pw := [o.d.toNat] } (fun _ _ _ => []) fun s i ps =>
      i.parts.map fun l => (l, o.d.toNat, (ps.all fun k => s.readP i.t i.g k q.toNat != neg) ||
        ps.all fun k => s.readP i.t i.g k q.toNat == neg)
  | lgathMask o neg q : MaskedForm (.lgath o false false neg q) o { pr := [q.toNat], vd := [(o.d.toNat, 1)] } (fun s i ps =>
      i.parts.map fun l => (l, o.d.toNat, laneWord (ps.filter fun k => s.readP i.t i.g k q.toNat != neg))) fun _ _ _ => []
  | lgathRank o neg q : MaskedForm (.lgath o false true neg q) o { pr := [q.toNat], vd := [(o.d.toNat, 1)] } (fun s i ps =>
      i.parts.map fun l => (l, o.d.toNat,
        BitVec.ofNat 32 (ps.filter fun k => (s.readP i.t i.g k q.toNat != neg) && decide (k < l)).length)) fun _ _ _ => []
  | match_ o : MaskedForm (.match_ o false) o { src := [(o.a, 1)], vd := [(o.d.toNat, 1)] } (fun s i ps =>
      i.parts.map fun l => (l, o.d.toNat, laneWord ((List.range 32).filter fun k =>
        k = l || (ps.contains k && src32 s i k o.a == src32 s i l o.a)))) fun _ _ _ => []
  | match64 o : MaskedForm (.match_ o true) o { src := [(o.a, 2)], vd := [(o.d.toNat, 1)] } (fun s i ps =>
      i.parts.map fun l => (l, o.d.toNat, laneWord ((List.range 32).filter fun k =>
        k = l || (ps.contains k && src64 s i k o.a true == src64 s i l o.a true)))) fun _ _ _ => []
  | redl o op ty sat : MaskedForm (.redl o false op ty sat) o { src := [(o.a, 1)], vd := [(o.d.toNat, 1)] } (fun s i ps =>
      i.parts.map fun l => (l, o.d.toNat, redlFn op ty sat (ps.map fun k => src32 s i k o.a))) fun _ _ _ => []

/-- The masked instructions with a scalar destination: the register's value. -/
inductive MaskedScalarForm : Instr → Ops → Uses → (State → Iss → List Nat → Word) → Prop
  | lgath o rank neg q : MaskedScalarForm (.lgath o true rank neg q) o { pr := [q.toNat], sd := [(o.d.toNat, 1)], sform := true }
      fun s i ps => laneWord (ps.filter fun k => s.readP i.t i.g k q.toNat != neg)
  | redl o op ty sat : MaskedScalarForm (.redl o true op ty sat) o { src := [(o.a, 1)], sd := [(o.d.toNat, 1)], sform := true }
      fun s i ps => redlFn op ty sat (ps.map fun k => src32 s i k o.a)

/-! ## The forms of the memory instructions

Words that act lane by lane: what a word uses, the registers its data return to with what widens them, and what one lane
does, given the state at the issue and the state that the lanes below it left. -/

/-- What a load of `m` uses. -/
def loadUses (o : Ops) (m : MMod) : Uses :=
  { src := addrSrc o m.p, vd := if o.nw then [] else [(o.d.toNat, mtyWords m.ty)] }
/-- What an atomic of `n` bytes uses, with or without a destination. -/
def atomUses (o : Ops) (n : Nat) (p cas : Bool) (x : MemX) (ret : Bool) : Uses :=
  { src := (o.a, n / 4) :: (if cas then [(x.e, n / 4)] else []) ++ addrSrc o p,
    vd := if ret then (if o.nw then [] else [(o.d.toNat, n / 4)]) else [] }
/-- The destination of an atomic that returns its value. -/
def atomDst (o : Ops) (n : Nat) (ret : Bool) : Dst := if ret then (if o.nw then .none else .vec o.d.toNat (n / 4)) else .none

/-- The atomics on GLOBAL (R232): bytes, register-pair base, comparison, scope and operand, operation, value returned. -/
inductive AtomForm : Instr → Ops → Nat → Bool → Bool → MemX → AOp → Bool → Prop
  | atomg o p ord w64 sgn op x : AtomForm (.atomg o p ord w64 sgn op x) o (atBytes w64) p false x (.atom (.int w64 sgn op) ord) true
  | cas o p ord w x (h : w ≠ .w16) : AtomForm (.atomgCas o p ord w x) o (w3Bytes w) p true x (.atom (.cas (w = .w8)) ord) true
  | cas16 o p ord x : AtomForm (.atomgCas o p ord .w16 x) o 16 p true x (.cas16 ord) true
  | atomgF o p ord ft op x : AtomForm (.atomgF o p ord ft op x) o 4 p false x (.atom (.flt ft op) ord) true
  | redg o p w64 sgn op x : AtomForm (.redg o p w64 sgn op x) o (atBytes w64) p false x (.atom (.int w64 sgn op) .none) false
  | redgF o p ft op x : AtomForm (.redgF o p ft op x) o 4 p false x (.atom (.flt ft op) .none) false

/-- Words that act lane by lane and wait for nothing (R224 to R227, R232, R331). -/
inductive LaneForm : Instr → Ops → Uses → Option (Nat × Nat) → (Nat → Nat) → (Iss → State → State → Nat → LaneMem × State) → Prop
  | ldg o m x : LaneForm (.ldg o m x) o (loadUses o m) (some (o.d.toNat, mtyWords m.ty)) (AOp.extend (.load (mtySigned m.ty)) (mtyBytes m.ty))
      fun i _ s l => s.dataLane i l (effAddr s i l 0 m.p (2 ^ m.sc.toNat)) (mtyBytes m.ty) [0, 5] (.load (mtySigned m.ty)) 0
        (loadDst o (mtyWords m.ty)) []
  | ldp o m x : LaneForm (.ldp o m x) o (loadUses o m) (some (o.d.toNat, mtyWords m.ty)) (AOp.extend (.load (mtySigned m.ty)) (mtyBytes m.ty))
      fun i _ s l => s.dataLane i l (effAddr s i l 0x50000000 m.p (2 ^ m.sc.toNat)) (mtyBytes m.ty) [5] (.load (mtySigned m.ty)) 0
        (loadDst o (mtyWords m.ty)) []
  | stp o m x : LaneForm (.stp o m x) o { src := (o.a, mtyWords m.ty) :: addrSrc o m.p } none id
      fun i s0 s l => s.dataLane i l (effAddr s i l 0x50000000 m.p (2 ^ m.sc.toNat)) (mtyBytes m.ty) [5] .store
        (srcData s i l o.a (mtyWords m.ty)) .none
        (s0.storeEnds i (mtyBytes m.ty) [5] fun l => effAddr s0 i l 0x50000000 m.p (2 ^ m.sc.toNat))
  | ldf o m x : LaneForm (.ldf o m x) o { loadUses o m with src := surfSrc o m x } (some (o.d.toNat, mtyWords m.ty))
      (AOp.extend (.load (mtySigned m.ty)) (mtyBytes m.ty))
      fun i _ s l => s.surfLane i l (mtyBytes m.ty) m x (2 ^ m.sc.toNat) (.load (mtySigned m.ty)) 0 0 (loadDst o (mtyWords m.ty))
  | atom x o n p cas y op ret (h : AtomForm x o n p cas y op ret) (ord : op.ord = .none) :
      LaneForm x o (atomUses o n p cas y ret) none id fun i _ s l => s.atomLane i l n p y op cas (atomDst o n ret)
  | satom o p xy w64 sgn op x : LaneForm (.satom o p xy w64 sgn op x) o
      { src := (o.a, atBytes w64 / 4) :: surfSrc o { p := p, xy := xy, ty := if w64 then .b64 else .b32, sc := 0 } x,
        vd := [(o.d.toNat, atBytes w64 / 4)] } (some (o.d.toNat, atBytes w64 / 4)) id
      fun i _ s l => s.surfLane i l (atBytes w64) { p := p, xy := xy, ty := if w64 then .b64 else .b32, sc := 0 } x (atBytes w64)
        (.satom op w64 sgn) ((AOp.satom op w64 sgn).operand s i l o.a (atBytes w64 / 4)) 0 (.vec o.d.toNat (atBytes w64 / 4))
  | satomCas o p w64 x : LaneForm (.satomCas o p w64 x) o
      { src := (o.a, atBytes w64 / 4) :: (x.e, atBytes w64 / 4) :: surfSrc o { p := p, xy := false, ty := if w64 then .b64 else .b32, sc := 0 } x,
        vd := [(o.d.toNat, atBytes w64 / 4)] } (some (o.d.toNat, atBytes w64 / 4)) id
      fun i _ s l => s.surfLane i l (atBytes w64) { p := p, xy := false, ty := if w64 then .b64 else .b32, sc := 0 } x (atBytes w64)
        (.satomCas w64) (srcData s i l o.a (atBytes w64 / 4)) (srcData s i l x.e (atBytes w64 / 4)) (.vec o.d.toNat (atBytes w64 / 4))

/-- The SURFACE words (R227, R331): what one uses, its bytes, its pointer's fields and scale, its operation, operand and
comparison value. -/
inductive SurfForm : Instr → Ops → Uses → Nat → MMod → Nat → MemX → AOp → (State → Iss → Nat → Nat) → (State → Iss → Nat → Nat) → Prop
  | ldf o m x : SurfForm (.ldf o m x) o { loadUses o m with src := surfSrc o m x } (mtyBytes m.ty) m (2 ^ m.sc.toNat) x
      (.load (mtySigned m.ty)) (fun _ _ _ => 0) fun _ _ _ => 0
  | stf o m x : SurfForm (.stf o m x) o { src := (o.a, mtyWords m.ty) :: surfSrc o m x } (mtyBytes m.ty) m (2 ^ m.sc.toNat) x
      .store (fun s i l => srcData s i l o.a (mtyWords m.ty)) fun _ _ _ => 0
  | satom o p xy w64 sgn op x : SurfForm (.satom o p xy w64 sgn op x) o
      { src := (o.a, atBytes w64 / 4) :: surfSrc o { p := p, xy := xy, ty := if w64 then .b64 else .b32, sc := 0 } x,
        vd := [(o.d.toNat, atBytes w64 / 4)] } (atBytes w64) { p := p, xy := xy, ty := if w64 then .b64 else .b32, sc := 0 }
      (atBytes w64) x (.satom op w64 sgn) (fun s i l => (AOp.satom op w64 sgn).operand s i l o.a (atBytes w64 / 4)) fun _ _ _ => 0
  | satomCas o p w64 x : SurfForm (.satomCas o p w64 x) o
      { src := (o.a, atBytes w64 / 4) :: (x.e, atBytes w64 / 4) :: surfSrc o { p := p, xy := false, ty := if w64 then .b64 else .b32, sc := 0 } x,
        vd := [(o.d.toNat, atBytes w64 / 4)] } (atBytes w64) { p := p, xy := false, ty := if w64 then .b64 else .b32, sc := 0 }
      (atBytes w64) x (.satomCas w64) (fun s i l => srcData s i l o.a (atBytes w64 / 4))
      fun s i l => srcData s i l x.e (atBytes w64 / 4)

/-- A GLOBAL address of a team translates, in the VTLB, to a HOME page of device memory that nothing holds up (R37, R98, R107,
R397, R398), and no access waits for a walk: the page's place, and the state after the translation. -/
structure AtHome (s : State) (t va : Nat) (kind : AccKind) (need : Need) (p : Phys) (S : State) : Prop where
  none_ : ∀ kv ∈ s.accs, kv.2.snoops.contains walkWait = false
  ok   : s.translate (coreWing (s.team t).core) (s.team t).launch .vtlb va kind need none = (.ok p, S)
  home : p.cls = .home
  dev  : p.h = false
  free : S.flipping p.pa = false
  bias : S.hostBias p.pa = false

/-- An access that has gone on its way to the home of its page: it is in flight as an access of lane `l`, with this operation,
address, place and operand, and its request is with the home. -/
structure Sent (S : State) (id : Nat) (i : Iss) (l : Nat) (op : AOp) (va n data : Nat) (p : Phys) : Prop where
  msg : .hop id ∈ S.msgs
  acc : ∃ a, amapFind? S.accs id = some a ∧ a.who = .thread i.t i.g l ∧ a.op = op ∧ a.va = va ∧ a.n = n ∧ a.data = data ∧ a.pa = p.pa

/-- The scratchpad words (R227, R228): the high word of the base and the space that the address must name. -/
inductive ScrLoad : Instr → Ops → MMod → Nat → Nat → Prop
  | lds o m x : ScrLoad (.lds o m x) o m 0x20000000 2
  | ldx o m x : ScrLoad (.ldx o m x) o m 0 3
inductive ScrStore : Instr → Ops → MMod → Nat → Nat → Prop
  | sts o m x : ScrStore (.sts o m x) o m 0x20000000 2
  | stx o m x : ScrStore (.stx o m x) o m 0 3
inductive ScrAtom : Instr → Ops → Bool → AtKind → MemX → Nat → Nat → Prop
  | atoms o p k x : ScrAtom (.atoms o p k x) o p k x 0x20000000 2
  | atomx o p k x : ScrAtom (.atomx o p k x) o p k x 0 3

/-- The sampled textures (R329, R330): what a word uses and the texels that a lane reads. -/
inductive TexForm : Instr → Ops → Nat → Bool → (State → Iss → TexDesc → Nat → TexPlan) → Prop
  | tex o : TexForm (.tex o) o 0 false planTex
  | texL o : TexForm (.texL o) o 1 false planTexL
  | texG o : TexForm (.texG o) o 4 false planTexG
  | texld o : TexForm (.texld o) o 1 true planTexld

/-- A texel of `n` bytes whose line the core's L1 holds, valid and clean of poison, and what it reads. -/
structure TexelHit (s : State) (i : Iss) (n va v : Nat) : Prop where
  ptr   : s.reading.ptrCheck i.t i.g va n [0] none true = none
  watch : s.watchHit (s.spaceOf i.t) va n true false = none
  line  : ∃ L, (s.core (s.team i.t).core).l1Find (s.spaceOf i.t) (va / 128) = some L ∧ L.cls ≠ .tracked ∧
    s.flipping (128 * L.pline) = false ∧ byteMask (va % 128) n &&& ~~~ L.bv = 0 ∧ byteMask (va % 128) n &&& L.fd = 0 ∧
    L.poison.getLsbD (va % 128 / 64) = false ∧ lineRead L.data (va % 128) n = v

/-! ## Logic, shifts and fields, in the specification's arithmetic -/

/-- R172 to R174: each instruction with the relation that the specification puts between its operands `a`, `b`, `c` and its
result `d`, in unbounded arithmetic or bit by bit. -/
inductive BitForm : Instr → Ops → Bool → Uses → (Word → Word → Word → Word → Prop) → Prop
  | and o sc : BitForm (.and o sc) o sc (o.uses 1 1 0 1 sc) fun a b _ d => ∀ k < 32, d.getLsbD k = (a.getLsbD k && b.getLsbD k)
  | or o sc : BitForm (.or o sc) o sc (o.uses 1 1 0 1 sc) fun a b _ d => ∀ k < 32, d.getLsbD k = (a.getLsbD k || b.getLsbD k)
  | xor o sc : BitForm (.xor o sc) o sc (o.uses 1 1 0 1 sc) fun a b _ d => ∀ k < 32, d.getLsbD k = (a.getLsbD k != b.getLsbD k)
  | not o : BitForm (.not o) o false (o.uses 1 0 0 1 false) fun a _ _ d => ∀ k < 32, d.getLsbD k = !a.getLsbD k
  | lgc3 o tb : BitForm (.lgc3 o tb) o false (o.uses 1 1 1 1 false) fun a b c d =>
      ∀ k < 32, d.getLsbD k = tb.getLsbD ((a.getLsbD k).toNat + 2 * (b.getLsbD k).toNat + 4 * (c.getLsbD k).toNat)
  | shl o sc wrap : BitForm (.shl o sc wrap) o sc (o.uses 1 1 0 1 sc) fun a b _ d =>
      let n := if wrap then b.toNat % 32 else b.toNat
      d.toNat = if 32 ≤ n then 0 else a.toNat * 2 ^ n % 2 ^ 32
  | shr o sc wrap : BitForm (.shr o sc wrap) o sc (o.uses 1 1 0 1 sc) fun a b _ d =>
      let n := if wrap then b.toNat % 32 else b.toNat
      d.toNat = if 32 ≤ n then 0 else a.toNat / 2 ^ n
  | sar o wrap : BitForm (.sar o wrap) o false (o.uses 1 1 0 1 false) fun a b _ d =>
      let n := if wrap then b.toNat % 32 else b.toNat
      d.toInt = a.toInt / 2 ^ min n 31
  | rot o : BitForm (.rot o) o false (o.uses 1 1 0 1 false) fun a b _ d =>
      d.toNat = a.toNat * 2 ^ (b.toNat % 32) % 2 ^ 32 + a.toNat / 2 ^ (32 - b.toNat % 32)
  | fshfR o : BitForm (.fshf o false) o false (o.uses 1 1 1 1 false) fun a b c d =>
      d.toNat = (b.toNat * 2 ^ 32 + a.toNat) / 2 ^ min c.toNat 32 % 2 ^ 32
  | fshfL o : BitForm (.fshf o true) o false (o.uses 1 1 1 1 false) fun a b c d =>
      d.toNat = (b.toNat * 2 ^ 32 + a.toNat) * 2 ^ min c.toNat 32 / 2 ^ 32 % 2 ^ 32
  | bfe o ty (h : ty = .i32 ∨ ty = .n32) : BitForm (.bfe o ty) o false (o.uses 1 1 1 1 false) fun a b c d =>
      let pos := min b.toNat 32
      let len := min c.toNat 32
      let f (k : Nat) : Bool := if pos + k ≤ 31 then a.getLsbD (pos + k) else ty == .i32 && a.getLsbD 31
      ∀ k < 32, d.getLsbD k = if k < len then f k else ty == .i32 && len != 0 && f (len - 1)
  | bfi o : BitForm (.bfi o) o false (o.uses 1 1 1 1 false) fun a b c d =>
      let pos := min (c.toNat % 256) 32
      let len := min (c.toNat / 256 % 256) 32
      ∀ k < 32, d.getLsbD k = if pos ≤ k ∧ k < pos + len then a.getLsbD (k - pos) else b.getLsbD k
  | popc o : BitForm (.popc o) o false (o.uses 1 0 0 1 false) fun a _ _ d => d.toNat = ((List.range 32).filter a.getLsbD).length
  | clz o : BitForm (.clz o) o false (o.uses 1 0 0 1 false) fun a _ _ d =>
      d.toNat ≤ 32 ∧ a.toNat < 2 ^ (32 - d.toNat) ∧ (d.toNat < 32 → a.getLsbD (31 - d.toNat) = true)
  | brev o : BitForm (.brev o) o false (o.uses 1 0 0 1 false) fun a _ _ d => ∀ k < 32, d.getLsbD k = a.getLsbD (31 - k)
  | bysel o : BitForm (.bysel o) o false (o.uses 1 1 1 1 false) fun a b c d => ∀ j < 4,
      let sel := c.toNat / 2 ^ (8 * j) % 256
      let x (k : Nat) : Bool := (b ++ a).getLsbD (8 * (sel % 8) + k)
      ∀ k < 8, d.getLsbD (8 * j + k) =
        if sel / 16 % 4 = 0 then x k else if sel / 16 % 4 = 1 then false else if sel / 16 % 4 = 2 then x 7 else x (7 - k)

end Sys2Proof.Machine
end

