-- ==== Sys2Proof/Certificates/Slice0/Obligations.lean ====
section
/-! DEFINITION. The statements about the machine, for proof. Each docstring names the rules of the specification that it
formalises; a statement that rests on a choice of the model says so. -/

open Sys2Proof Sys2Proof.Machine

/-! ## Lane instructions -/

/-- R169 to R175, R178, R215, R153, R142: a vector move, arithmetic, logic, shift, field, PMOV or FCLASS word writes, for
every participant, the result that its entry gives into its destination (not under NW), goes on past the word, and changes no
other register and no memory; nothing of a core changes but its guest book and, where the grid is ending, private lines that
are dropped. R9, R141: it leaves its results in the latch that the group's next word reads as y0. R167: the scalar form of
such a word performs once, with the operands of the lowest participant, and writes scalar registers of the group and one
scalar latch; without a participant it writes nothing. Where it rests on the model's choices: log 13, 15. -/
def Obligations.IntegerWords : Prop :=
  (∀ x o u f, IntForm x o false u f → ∀ s i, Issues s o u i →
     ∃ s', exec x s = .next s' ∧ Wrote s s.reading s' i (f s.reading i) ∧
       Latched s' i (some (vecLatch (i.parts.map fun l => (l, f s.reading i l))))) ∧
  (∀ x o u f, IntForm x o true u f → ∀ s i, Issues s o { u with sform := true } i →
     ∃ s', exec x s = .next s' ∧ WroteS s s.reading s' i (f s.reading i (i.parts.headD 0)).regs (fun _ => none) ∧
       Latched s' i (if i.parts = [] then none else some ⟨true, (f s.reading i (i.parts.headD 0)).latch, []⟩))

/-- R176 to R178, R215: a compare or predicate word writes one predicate of every participant (p7 cannot be written) and no
register; it leaves no latch (R141). Where it rests on the model's choices: log 15. -/
def Obligations.PredicateWords : Prop :=
  ∀ x o u f, PredForm x o u f → ∀ s i, Issues s o u i →
    ∃ s', exec x s = .next s' ∧ (Wrote s s.reading s' i fun l => resP o.d (f s.reading i l)) ∧ Latched s' i none

/-- R205 to R218: a floating-point vector word, where no exception that it raises is enabled, writes its result and the sticky
flags of each participant's FPM, and leaves its results in a latch (R141); a lane that raises an enabled exception takes
FP_EXCEPTION instead and writes nothing. R208: a floating-point S-form runs under the modes of the lowest participant, writes
scalar registers, and its flags reach the FPM of every participant; every participant traps, and nothing is written, where any
of them enables what it raises. Where it rests on the model's choices: log 22. -/
def Obligations.FloatWords : Prop :=
  (∀ x o u f, FloatForm x o false u f → ∀ s i, Issues s o u i →
     (∀ l ∈ i.parts, fpTrap (fpmTraps (s.thread i.t i.g l).fpm) (f s.reading i l (s.thread i.t i.g l).fpm).2 = none) →
     ∃ s', exec x s = .next s' ∧ (Wrote s s.reading s' i fun l =>
       { resWords o.d (f s.reading i l (s.thread i.t i.g l).fpm).1 with
         fpm := some (fpmRaise (s.thread i.t i.g l).fpm (f s.reading i l (s.thread i.t i.g l).fpm).2) }) ∧
       Latched s' i (some (vecLatch (i.parts.map fun l => (l, resWords o.d (f s.reading i l (s.thread i.t i.g l).fpm).1))))) ∧
  (∀ x o u f, FloatForm x o false u f → ∀ s i, Issues s o u i →
     let rs := i.parts.map fun l =>
       let r := f s.reading i l (s.thread i.t i.g l).fpm
       (l, match fpTrap (fpmTraps (s.thread i.t i.g l).fpm) r.2 with
         | some tr => { trap := some tr }
         | none => { resWords o.d r.1 with fpm := some (fpmRaise (s.thread i.t i.g l).fpm r.2) })
     exec x s = .next (i.finish (i.writeLanes s.reading rs) [] false (some (vecLatch rs)))) ∧
  (∀ x o u f, FloatForm x o true u f → ∀ s i l0 ls, Issues s o { u with sform := true } i → i.parts = l0 :: ls →
     fpTrap (i.parts.foldl (fun e l => e ||| fpmTraps (s.thread i.t i.g l).fpm) 0) (f s.reading i l0 (s.thread i.t i.g l0).fpm).2 = none →
     ∃ s', exec x s = .next s' ∧ (WroteS s s.reading s' i (numbered o.d.toNat (f s.reading i l0 (s.thread i.t i.g l0).fpm).1) fun l =>
       some (fpmRaise (s.thread i.t i.g l).fpm (f s.reading i l0 (s.thread i.t i.g l0).fpm).2)) ∧
       Latched s' i (some ⟨true, (resWords o.d (f s.reading i l0 (s.thread i.t i.g l0).fpm).1).latch, []⟩)) ∧
  (∀ x o u f, FloatForm x o true u f → ∀ s i l0 ls tr, Issues s o { u with sform := true } i → i.parts = l0 :: ls →
     fpTrap (i.parts.foldl (fun e l => e ||| fpmTraps (s.thread i.t i.g l).fpm) 0) (f s.reading i l0 (s.thread i.t i.g l0).fpm).2 = some tr →
     exec x s = .next (i.finish (s.reading.takeTraps i.t i.g i.parts tr) [] false none))

/-- R216, R217, R142: an approximate function, FRCP or FSQRT puts its results on their way, writes FPM, and writes no other
register and no latch yet (R142). R208, R216: the scalar form of such a function puts one scalar result on its way, under the
modes of the lowest participant, and writes the FPM of every participant. Where it rests on the model's choices: log 23, 24.
-/
def Obligations.FunctionWords : Prop :=
  (∀ x o u f, FnForm x o false u f → ∀ s i, Issues s o u i → i.parts ≠ [] →
     (∀ l ∈ i.parts, fpTrap (fpmTraps (s.thread i.t i.g l).fpm) (f s.reading i l (s.thread i.t i.g l).fpm).2 = none) →
     ∃ s', exec x s = .next s' ∧
       Wrote s (s.reading.addPend ⟨i.t, i.g, true, false, i.parts.flatMap fun l =>
           (numbered o.d.toNat (f s.reading i l (s.thread i.t i.g l).fpm).1).map fun w => (l, w.1, w.2), []⟩) s' i
         (fun l => { fpm := some (fpmRaise (s.thread i.t i.g l).fpm (f s.reading i l (s.thread i.t i.g l).fpm).2) }) ∧
       Latched s' i none) ∧
  (∀ x o u f, FnForm x o true u f → ∀ s i l0 ls, Issues s o { u with sform := true } i → i.parts = l0 :: ls →
     fpTrap (i.parts.foldl (fun e l => e ||| fpmTraps (s.thread i.t i.g l).fpm) 0) (f s.reading i l0 (s.thread i.t i.g l0).fpm).2 = none →
     ∃ s', exec x s = .next s' ∧
       WroteS s (s.reading.addPend ⟨i.t, i.g, true, true,
           (numbered o.d.toNat (f s.reading i l0 (s.thread i.t i.g l0).fpm).1).map fun w => (0, w.1, w.2), []⟩) s' i [] (fun l =>
         some (fpmRaise (s.thread i.t i.g l).fpm (f s.reading i l0 (s.thread i.t i.g l0).fpm).2)) ∧ Latched s' i none)

/-- R219 to R221: CVQ and CVX convert under the element format of their slot, where the slot suits them and no exception that
they raise is enabled, and leave their results in a latch (R141). -/
def Obligations.QuantWords : Prop :=
  ∀ x o slot n u f, QuantForm x o slot n u f → ∀ s i k, Issues s o u i → cvFmt s i.t n slot.toNat = some k →
    (∀ l ∈ i.parts, fpTrap (fpmTraps (s.thread i.t i.g l).fpm) (f k s.reading i l (s.thread i.t i.g l).fpm).2 = none) →
    ∃ s', exec x s = .next s' ∧ (Wrote s s.reading s' i fun l =>
      { resWords o.d (f k s.reading i l (s.thread i.t i.g l).fpm).1 with
        fpm := some (fpmRaise (s.thread i.t i.g l).fpm (f k s.reading i l (s.thread i.t i.g l).fpm).2) }) ∧
      Latched s' i (some (vecLatch (i.parts.map fun l => (l, resWords o.d (f k s.reading i l (s.thread i.t i.g l).fpm).1))))

/-! ## Control and special registers -/

/-- R179 to R181, R136: a branch sends each participant to its target, and the other lanes of the run past the word; it
changes no register but PCs, writes no latch, and leaves memory and the cores as they are, but for guest books and private
lines that an ending grid drops. R181, R341: each participant of BRX whose target CODE + A is no multiple of 4 takes
MISALIGNED, in ascending lane order, with the target as its address, and does not go on; the others go to theirs. Where it
rests on the model's choices: log 18, 25. -/
def Obligations.Branches : Prop :=
  (∀ x o u ok tgt, BranchForm x o u ok tgt → ∀ s i, Issues s o u i → (∀ l ∈ i.parts, ok s.reading i l) →
     ∃ s', exec x s = .next s' ∧
       Moved s s.reading s' i (fun l => if l ∈ i.parts then (tgt s.reading i l).getD (i.past s l) else i.past s l) ∧
       Uncalled s s' ∧ SameRegs s s' ∧ Latched s' i none) ∧
  (∀ s o i, Issues s o { src := [(o.a, 1)] } i →
     let dst (l : Nat) := ((s.lr i.t).code + (src32 s.reading i l o.a).toNat) % 2 ^ 64
     exec (.brx o) s = .next (i.jump
       (forEach (i.parts.filter fun l => (src32 s.reading i l o.a).toNat % 4 != 0) s.reading fun S l =>
         S.takeTrap i.t i.g l { cause := .misaligned, addr := dst l })
       ((i.parts.filter fun l => (src32 s.reading i l o.a).toNat % 4 == 0).map fun l => (l, dst l))))

/-- R138, R181: CALL and CALLX push the offset of the next word on each participant's return stack, while its hardware entries
have room, and go to the target. R138: RET pops the newest hardware entry of each participant's return stack and goes to CODE
plus it. Where it rests on the model's choices: log 18, 19. -/
def Obligations.CallsAndReturns : Prop :=
  (∀ x o u ok tgt, CallForm x o u ok tgt → ∀ s i, Issues s o u i → i.parts.Nodup →
     (∀ l ∈ i.parts, ok s.reading i l ∧ (s.thread i.t i.g l).hw.length < 8 ∧
       (s.thread i.t i.g l).hw.length + (s.thread i.t i.g l).spilled < 8 + s.rstackOf i.t ∧ s.readyAt i.t i.g l) →
     ∃ s', exec x s = .next s' ∧
       Called s s' i (fun l => if l ∈ i.parts then tgt s.reading i l else i.past s l)
         fun l => (((s.thread i.t i.g l).pc + o.len.bytes + 2 ^ 64 - (s.lr i.t).code) % 2 ^ 64 % 2 ^ 32) :: (s.thread i.t i.g l).hw) ∧
  (∀ s o i (top : Nat → Nat) (rest : Nat → List Nat), Issues s o {} i → i.parts.Nodup →
     (∀ l ∈ i.parts, (s.thread i.t i.g l).hw = top l :: rest l ∧ s.readyAt i.t i.g l) →
     ∃ s', exec (.ret o) s = .next s' ∧
       Called s s' i (fun l => if l ∈ i.parts then ((s.lr i.t).code + top l) % 2 ^ 64 else i.past s l) rest)

/-- R183 to R186: NOP only goes on; EXIT ends each participant and no other thread, and writes no register; CONV makes each
participant whose mask is not 0 wait with it, and no other thread, ends the run, sends the lanes of the run past the word and
writes no register; a mask of 0 releases at once, and a CONV without a participant waits for nothing (log 121); PAUSE of a count
that is not 0 makes the set wait until that many CCLK have passed. Where it rests on the model's choices: log 121. -/
def Obligations.EndsAndWaits : Prop :=
  (∀ s o i, Issues s o {} i → ∃ s', exec (.nop o) s = .next s' ∧ Still s s.reading s' i) ∧
  (∀ s o i, Issues s o {} i → ∃ S, exec (.exit o) s = .next (i.finish S [] false none) ∧
    (∀ t g l, (S.thread t g l).stat = if t = i.t ∧ g = i.g ∧ l ∈ i.parts then .dead else (s.thread t g l).stat) ∧ Quiet s.reading S) ∧
  (∀ s o i, Issues s o { src := [(o.a, 1)] } i → ∃ S : State, ∃ s', exec (.conv o) s = .next s' ∧ Still s s.reading s' i ∧
    s' = S.endIssue i.t i.g i.run.lanes o.rb true none ∧
    ∀ t g l, (S.thread t g l).stat = if t = i.t ∧ g = i.g ∧ l ∈ i.parts ∧ src32 s.reading i l o.a ≠ 0
      then .conv (src32 s.reading i l o.a) else (s.thread t g l).stat) ∧
  (∀ s o i, Issues s o { src := [(o.a, 1)] } i → i.parts = [] → ∃ s', exec (.pause o) s = .next s' ∧ Still s s.reading s' i) ∧
  (∀ s o i l ls, Issues s o { src := [(o.a, 1)] } i → i.parts = l :: ls →
    let n := (src32 s.reading i l o.a).toNat % 2 ^ 16
    (n = 0 → ∃ s', exec (.pause o) s = .next s' ∧ Still s s.reading s' i) ∧
    (n ≠ 0 → exec (.pause o) s = .next (i.finishWait s.reading i.parts (.pause (s.cclk + n)))))

/-- R187 to R193, R207: SREAD gives each participant the register's value, or the group the value of the lowest one's; SREAD.W
all 64 bits of a clock; each leaves what it read in a latch (R141); SWRITE of FPM replaces it in each participant where the
value is legal, and of ROWSTAT its KEY; PROG counts its participants. Reads and writes of FPM need every medium-latency result
of the lanes to be in. -/
def Obligations.SpecialRegisters : Prop :=
  (∀ s o i code, Issues s o { (o.uses 0 0 0 1 false) with sform := false } i → s.mediumOut i.t i.g i.parts = false →
    ∃ s', exec (.sread o false code) s = .next s' ∧
      (Wrote s s.reading s' i fun l => res32 o.d (s.reading.sreg i.t i.g l code.toNat)) ∧
      Latched s' i (some (vecLatch (i.parts.map fun l => (l, res32 o.d (s.reading.sreg i.t i.g l code.toNat)))))) ∧
  (∀ s o i l ls code, Issues s o { (o.uses 0 0 0 1 true) with sform := true } i → i.parts = l :: ls →
    s.mediumOut i.t i.g i.parts = false →
    ∃ s', exec (.sread o true code) s = .next s' ∧
      WroteS s s.reading s' i [(o.d.toNat, s.reading.sreg i.t i.g l code.toNat)] (fun _ => none) ∧
      Latched s' i (some ⟨true, (s.reading.sreg i.t i.g l code.toNat).setWidth 64, []⟩)) ∧
  (∀ s o i code, Issues s o (o.uses 0 0 0 2 false) i →
    ∃ s', exec (.sreadW o code) s = .next s' ∧ Wrote s s.reading s' i fun _ =>
      res64 o.d (BitVec.ofNat 64 (if code = 0x18 then s.clockOf (s.team i.t).core else s.devtime))) ∧
  (∀ s o i, Issues s o { src := [(o.a, 1)] } i → s.mediumOut i.t i.g i.parts = false →
    (∀ l ∈ i.parts, fpmLegal (src32 s.reading i l o.a) = true) →
    ∃ s', exec (.swrite o 0x20) s = .next s' ∧ Wrote s s.reading s' i fun l => { fpm := some (src32 s.reading i l o.a) }) ∧
  (∀ s o i l ls code, Issues s o { src := [(o.a, 1)] } i → i.parts = l :: ls → code ≠ 0x20 →
    exec (.swrite o code) s = .next (i.finish (s.reading.updGroup i.t i.g fun gr =>
      { gr with rowKey := (src32 s.reading i l o.a >>> 24).setWidth 8 }) [] false none)) ∧
  (∀ s o i l ls, Issues s o { src := [(o.a, 1)] } i → i.parts = l :: ls → (src32 s.reading i l o.a).toNat < 16 →
    ∃ s', exec (.prog o) s = .next s' ∧ Still s (s.reading.updSpace (s.spaceOf i.t) fun sp =>
      { sp with prog := amapInsert sp.prog (src32 s.reading i l o.a).toNat
                          (amapGet 0 sp.prog (src32 s.reading i l o.a).toNat + BitVec.ofNat 64 i.parts.length) }) s' i)

/-! ## Lane exchange -/

/-- R194, R196: LXCH, once every lane that it names has come, queues for each participant the value of A of its source lane, and
for the predicate whether the source lies in its segment; where the source takes no part, the reader's own C and false. Nothing
is written yet. R196: LXCH.S queues A of the lane that B names for a scalar register, where that lane takes part, and whether it
does for the predicate of every participant. Where it rests on the model's choices: log 28. -/
def Obligations.LaneExchanges : Prop :=
  (∀ x o k w pv, LxForm x o k w pv → ∀ s i,
     Issues s o { src := (o.a, 1) :: (if k = .rev then [] else [(o.b, 1)]) ++ [(o.c, 1)], vd := [(o.d.toNat, 1)], pw := if pv = 7 then [] else [pv.toNat] } i →
     i.parts ≠ [] → i.allThere s (i.parts.map fun l => (k.source (2 ^ w.toNat) l (src32 s.reading i l o.b)).1) →
     ∃ s', exec x s = .next s' ∧
       Still s (s.reading.addPend ⟨i.t, i.g, true, false,
         i.parts.map fun l =>
           let from_ := k.source (2 ^ w.toNat) l (src32 s.reading i l o.b)
           (l, o.d.toNat, if i.parts.contains from_.1 then src32 s.reading i from_.1 o.a else src32 s.reading i l o.c),
         if pv = 7 then [] else i.parts.map fun l =>
           let from_ := k.source (2 ^ w.toNat) l (src32 s.reading i l o.b)
           (l, pv.toNat, i.parts.contains from_.1 && from_.2)⟩) s' i) ∧
  (∀ s o (pv : BitVec 3) i l ls,
     Issues s o { src := [(o.a, 1), (o.b, 1)], sd := [(o.d.toNat, 1)], pw := if pv = 7 then [] else [pv.toNat] } i →
     i.parts = l :: ls → i.allThere s [(src32 s.reading i l o.b).toNat % 32] →
     let from_ := (src32 s.reading i l o.b).toNat % 32
     exec (.lxchS o pv) s = .next (i.mediumS s.reading
       (if i.parts.contains from_ then [(o.d.toNat, src32 s.reading i from_ o.a)] else [])
       (if pv = 7 then [] else i.parts.map fun l => (l, pv.toNat, i.parts.contains from_))))

/-- R195, R197 to R199: LQRY, LGATH, MATCH and REDL, once every lane of the member mask has come, queue for each participant the
result over the present named lanes; nothing is written yet. R195, R197, R199: LGATH and REDL with a scalar destination queue
one result for the group. -/
def Obligations.MaskedWords : Prop :=
  (∀ x o u regs preds, MaskedForm x o u regs preds → ∀ s i l ls, Issues s o { u with src := u.src ++ [(o.c, 1)] } i →
     i.parts = l :: ls → i.allThere s (maskLanes (src32 s.reading i l o.c)) →
     let ps := (maskLanes (src32 s.reading i l o.c)).filter fun k => i.parts.contains k
     ∃ s', exec x s = .next s' ∧
       Still s (s.reading.addPend ⟨i.t, i.g, true, false, regs s.reading i ps, preds s.reading i ps⟩) s' i) ∧
  (∀ x o u val, MaskedScalarForm x o u val → ∀ s i l ls, Issues s o { u with src := u.src ++ [(o.c, 1)] } i →
     i.parts = l :: ls → i.allThere s (maskLanes (src32 s.reading i l o.c)) →
     let ps := (maskLanes (src32 s.reading i l o.c)).filter fun k => i.parts.contains k
     ∃ s', exec x s = .next s' ∧
       Still s (s.reading.addPend ⟨i.t, i.g, true, true, [(0, o.d.toNat, val s.reading i ps)], []⟩) s' i)

/-- R200, R207: REDL.F reduces in the fixed tree under the FPM of the lowest participant, which takes the flags; where none of
them is enabled every participant's result is queued. R176, R207: FSETP writes the comparison, and no latch, where no enabled
exception is raised. Where it rests on the model's choices: log 21. -/
def Obligations.FloatReduceAndCompare : Prop :=
  (∀ s o op rnd i l ls, Issues s o { src := [(o.a, 1)] ++ [(o.c, 1)], vd := [(o.d.toNat, 1)] } i →
    i.parts = l :: ls → i.allThere s (maskLanes (src32 s.reading i l o.c)) →
    let ps := (maskLanes (src32 s.reading i l o.c)).filter fun k => i.parts.contains k
    let fpm := (s.thread i.t i.g l).fpm
    let r := redlTree op (fpmRnd fpm rnd) fpm 5 ((List.range 32).map fun k =>
      if ps.contains k then some (srcF .f32 s.reading i k o.a).toNat else none)
    ∀ v, r.1 = some v → fpTrap (fpmTraps fpm) r.2 = none →
      exec (.redlF o op rnd) s = .next (i.medium (s.reading.updThread i.t i.g l fun th => { th with fpm := fpmRaise th.fpm r.2 })
        (i.parts.map fun l => (l, o.d.toNat, BitVec.ofNat 32 v)) [])) ∧
  (∀ s o ty op qn q cmp i, Issues s o (o.usesP 1 1 0 [q.toNat]) i →
    let el (l : Nat) := (List.range (elemsOf ty (srcF ty s.reading i l o.a)).length).map fun n =>
      fcmpElem (fmtOf ty) (s.thread i.t i.g l).fpm cmp ((elemsOf ty (srcF ty s.reading i l o.a)).getD n 0)
        ((elemsOf ty (srcF ty s.reading i l o.b)).getD n 0)
    (∀ l ∈ i.parts, ((el l).any (·.2)) = false ∨ (fpmTraps (s.thread i.t i.g l).fpm).getLsbD 4 = false) →
    ∃ s', exec (.fsetp o ty op qn q cmp) s = .next s' ∧ (Wrote s s.reading s' i fun l =>
      resP o.d (combineP op ((el l).all (·.1)) (s.readP i.t i.g l q.toNat != qn))) ∧ Latched s' i none)

/-! ## Memory -/

/-- R58, R404: a byte of memory reads as it was last written, and as zero where nothing has written it; every write keeps the
canonical form of a memory; a write of `n` bytes reads back as its low `n` bytes, and leaves every byte outside them. Where it
rests on the model's choices: log 9. -/
def Obligations.MemoryOperations : Prop :=
  (∀ a, memGet [] a = 0) ∧
  (∀ m a b, Memory.wf m = true → Memory.wf (memSet m a b) = true ∧ memGet (memSet m a b) a = b ∧
    ∀ c, c ≠ a → memGet (memSet m a b) c = memGet m c) ∧
  (∀ m a n x, Memory.wf m = true → Memory.wf (memWrite m a n x) = true ∧ memRead (memWrite m a n x) a n = x % 2 ^ (8 * n) ∧
    ∀ c, (c < a ∨ a + n ≤ c) → memGet (memWrite m a n x) c = memGet m c) ∧
  (∀ d o n x, o + n ≤ 128 → lineRead (lineWrite d o n x) o n = x % 2 ^ (8 * n) ∧
    ∀ p k, p + k ≤ 128 → (p + k ≤ o ∨ o + n ≤ p) → lineRead (lineWrite d o n x) p k = lineRead d p k)

/-- R224 to R227, R232, R331: LDG, LDP, STP, LDF, an atomic without an order and SATOM perform their participants' accesses in
ascending lane order, each at the effective address of its lane after the checks of its pointer; the words of the loads that
are performed at once are on their way, the lanes that trapped are parked, and the set goes on. LDF, STF, SATOM and SATOM.CAS
of one participant whose pointer is sound and whose surface, frame and domain are at hand put its access in flight and queue
its request at the bank (R53); the bank performs it when it grants it. ATOMG, REDG and their forms without an order, of one
participant on a HOME page, send the access to its home. R61, R227, R275, R276: STG stores its participants' data lane by
lane, an aperture's lanes as copies; where a template or a channel must be waited for it does not issue; STF stores to
SURFACE, lane by lane. The lanes with whose store the word has written a unit whole, 64 bytes of GLOBAL or a 32-byte word of a
bank, clear its poison. Where it rests on the model's choices: log 11, 53, 75. -/
def Obligations.LaneMemoryWords : Prop :=
  (∀ x o u d ext f, LaneForm x o u d ext f → ∀ s i, Issues s o u i →
     let r := memLanes i (f i s.reading) i.parts s.reading
     exec x s = .next (memFinish i r.2 r.1 (d.elim [] fun y => if o.nw then [] else loadRegs r.1 y.1 y.2 ext) [])) ∧
  (∀ y o u n m sc x op data cmp, SurfForm y o u n m sc x op data cmp → ∀ s i l p bad bank byte addr S, Issues s o u i → i.parts = [l] →
     s.stopping i.t = false → s.reading.surfPtr i l m x sc = some (p, bad) →
     s.reading.ptrCheck i.t i.g p n [1] (if m.xy then some bad else none) true = none →
     s.reading.reach (surfIx p) (surfOff p) false p = (.go bank byte addr, S) →
     ∃ a : Access, exec y s = .next (i.finish ((S.accNew a).2.bankAskAcc bank S.uid a) [] false none) ∧
       a.who = .thread i.t i.g l ∧ a.op = op ∧ a.va = p ∧ a.n = n ∧ a.data = data s.reading i l ∧
       (op ≠ .store → o.nw = false → a.dst = .vec o.d.toNat (mtyWords m.ty)) ∧
       a.cmp = if op = .store then (if (lastStores 32 [(l, p, n)]).any fun e => e.1 = l then 1 else 0) else cmp s.reading i l) ∧
  (∀ y o n p cas x op ret, AtomForm y o n p cas x op ret → op.ord = .none → ∀ s i l ph S, Issues s o (atomUses o n p cas x ret) i →
     i.parts = [l] → let ea := effAddr s.reading i l 0 p n
     s.reading.ptrCheck i.t i.g ea n [0] none true = none → AtHome s.reading i.t ea .write .atomic ph S →
     ∃ T, exec y s = .next (i.finish T [] false none) ∧ Sent T S.uid i l op ea n (op.operand s.reading i l o.a (n / 4)) ph) ∧
  (∀ o m x s i, Issues s o { src := (o.a, mtyWords m.ty) :: addrSrc o m.p } i →
    let n := mtyBytes m.ty
    let addr (S : State) (l : Nat) := effAddr S i l 0 m.p (2 ^ m.sc.toNat)
    let data (S : State) (l : Nat) := srcData S i l o.a (mtyWords m.ty)
    let ap := i.parts.filter fun l => ptrTag (addr s.reading l) = 7 && m.ty == .b32 &&
      (s.reading.ptrCheck i.t i.g (addr s.reading l) n [7] none true).isNone
    let ns := (ap.map fun l => data s.reading l % 64).eraseDups
    match s.reading.templates i.t ns with
    | (none, S) => exec (.stg o m x) s = .next { S with turn := .later }
    | (some ts, S) => exec (.stg o m x) s = .next
        (match stgLanes i n (m.ty == .b32) (s.reading.storeEnds i n [0] (addr s.reading)) ts addr data i.parts S with
        | none => { S with turn := .later }
        | some r => memFinish i (r.2.templatesDone i.t ns) r.1 [] [])) ∧
  (∀ o m x s i, Issues s o { src := (o.a, mtyWords m.ty) :: surfSrc o m x } i →
    let n := mtyBytes m.ty
    let ends := lastStores 32 (i.parts.filterMap fun l => match s.reading.surfPtr i l m x (2 ^ m.sc.toNat) with
      | some (p, bad) =>
        if (s.reading.ptrCheck i.t i.g p n [1] (if m.xy then some bad else none) true).isSome then none else some (l, p, n)
      | none => none)
    let r := memLanes i (fun s l => s.surfLane i l n m x (2 ^ m.sc.toNat) .store (srcData s i l o.a (mtyWords m.ty))
      (if ends.any fun e => e.1 = l then 1 else 0) .none) i.parts s.reading
    exec (.stf o m x) s = .next (memFinish i r.2 r.1 [] []))

/-- R80, R224, R227: LDG of one participant whose bytes lie valid and clean of poison in a PRIV line of its core's L1 puts the
bytes on their way to its registers, widened, and writes no register yet. R80, R224: STG of one participant to a writable PRIV
line of its core's L1 writes its bytes there, marks them valid and dirty, and changes no register and no memory beyond L1;
each makes the line the most recently used of its set (R74). R28, R227: LDP and STP of at most 4 bytes do the same at the
private address of their offset; the wider ones do their 4-byte pieces in turn, and LDP puts what they read on its way. Where
it rests on the model's choices: log 44, 48. -/
def Obligations.CacheHits : Prop :=
  (∀ s o m x i l L, Issues s o (loadUses o m) i → i.parts = [l] → o.nw = false → s.stopping i.t = false →
     let p := effAddr s.reading i l 0 m.p (2 ^ m.sc.toNat)
     let n := mtyBytes m.ty
     s.reading.ptrCheck i.t i.g p n [0, 5] none true = none → ptrTag p = 0 →
     (s.core (s.team i.t).core).l1Find (s.spaceOf i.t) (p / 128) = some L → L.cls = .priv → s.flipping (128 * L.pline) = false →
     byteMask (p % 128) n &&& ~~~ L.bv = 0 → byteMask (p % 128) n &&& L.fd = 0 → L.poison.getLsbD (p % 128 / 64) = false →
     s.watchHit (s.spaceOf i.t) p n true false = none →
     ∃ s', exec (.ldg o m x) s = .next s' ∧
       Still s ((s.reading.l1Put (s.team i.t).core L).addPend ⟨i.t, i.g, false, false,
         (numbered o.d.toNat (toWords (mtyWords m.ty) ((AOp.load (mtySigned m.ty)).extend n (lineRead L.data (p % 128) n)))).map
           fun w => (l, w.1, w.2), []⟩) s' i) ∧
  (∀ s o m x i l L, Issues s o { src := (o.a, mtyWords m.ty) :: addrSrc o m.p } i → i.parts = [l] → s.stopping i.t = false →
     (∀ kv ∈ s.accs, kv.2.snoops.contains walkWait = false) →
     let p := effAddr s.reading i l 0 m.p (2 ^ m.sc.toNat)
     let n := mtyBytes m.ty
     s.reading.ptrCheck i.t i.g p n [0] none true = none → ptrTag p = 0 →
     (s.core (s.team i.t).core).l1Find (s.spaceOf i.t) (p / 128) = some L → L.cls = .priv → L.w = true →
     s.flipping (128 * L.pline) = false → s.watchHit (s.spaceOf i.t) p n false true = none →
     let K : L1Line := { L with
       data := lineWrite L.data (p % 128) n (srcData s.reading i l o.a (mtyWords m.ty))
       bv := L.bv ||| byteMask (p % 128) n
       dm := L.dm ||| byteMask (p % 128) n }
     ∃ s', exec (.stg o m x) s = .next s' ∧ Still s (s.reading.l1Put (s.team i.t).core K) s' i ∧
       (s'.core (s.team i.t).core).l1Find (s.spaceOf i.t) (p / 128) = some K ∧
       lineRead K.data (p % 128) n = srcData s.reading i l o.a (mtyWords m.ty) % 2 ^ (8 * n)) ∧
  (∀ s o m x i l L, Issues s o (loadUses o m) i → i.parts = [l] → o.nw = false → s.stopping i.t = false →
     let p := effAddr s.reading i l 0x50000000 m.p (2 ^ m.sc.toNat)
     let va := s.privAddr i.t i.g l (8 * s.rstackOf i.t + p % 2 ^ 32)
     let n := mtyBytes m.ty
     n ≤ 4 → s.reading.ptrCheck i.t i.g p n [5] none true = none →
     (s.core (s.team i.t).core).l1Find (s.spaceOf i.t) (va / 128) = some L → L.cls = .priv → s.flipping (128 * L.pline) = false →
     byteMask (va % 128) n &&& ~~~ L.bv = 0 → byteMask (va % 128) n &&& L.fd = 0 → L.poison.getLsbD (va % 128 / 64) = false →
     s.watchHit (s.spaceOf i.t) va n true false = none →
     ∃ s', exec (.ldp o m x) s = .next s' ∧
       Still s ((s.reading.l1Put (s.team i.t).core L).addPend ⟨i.t, i.g, false, false,
         (numbered o.d.toNat (toWords (mtyWords m.ty) ((AOp.load (mtySigned m.ty)).extend n (lineRead L.data (va % 128) n)))).map
           fun w => (l, w.1, w.2), []⟩) s' i) ∧
  (∀ s o m x i l L, Issues s o { src := (o.a, mtyWords m.ty) :: addrSrc o m.p } i → i.parts = [l] → s.stopping i.t = false →
     (∀ kv ∈ s.accs, kv.2.snoops.contains walkWait = false) →
     let p := effAddr s.reading i l 0x50000000 m.p (2 ^ m.sc.toNat)
     let va := s.privAddr i.t i.g l (8 * s.rstackOf i.t + p % 2 ^ 32)
     let n := mtyBytes m.ty
     n ≤ 4 → s.reading.ptrCheck i.t i.g p n [5] none true = none →
     (s.core (s.team i.t).core).l1Find (s.spaceOf i.t) (va / 128) = some L → L.cls = .priv → L.w = true →
     s.flipping (128 * L.pline) = false → s.watchHit (s.spaceOf i.t) va n false true = none →
     let K : L1Line := { L with
       data := lineWrite L.data (va % 128) n (srcData s.reading i l o.a (mtyWords m.ty))
       bv := L.bv ||| byteMask (va % 128) n
       dm := L.dm ||| byteMask (va % 128) n }
     ∃ s', exec (.stp o m x) s = .next s' ∧ Still s (s.reading.l1Put (s.team i.t).core K) s' i ∧
       (s'.core (s.team i.t).core).l1Find (s.spaceOf i.t) (va / 128) = some K ∧
       lineRead K.data (va % 128) n = srcData s.reading i l o.a (mtyWords m.ty) % 2 ^ (8 * n)) ∧
  (∀ s o m x i l v S, i.parts = [l] → 4 < mtyBytes m.ty → (S.space (s.spaceOf i.t)).watch = [] →
     let p := effAddr s.reading i l 0x50000000 m.p (2 ^ m.sc.toNat)
     s.reading.ptrCheck i.t i.g p (mtyBytes m.ty) [5] none true = none →
     let go (write : Bool) (ends : List (Nat × Nat)) (d : Nat) := s.reading.privPieces i.t i.g l (s.thread i.t i.g l).pc write ends
       (8 * s.rstackOf i.t + p % 2 ^ 32) (privData (mtyBytes m.ty) d)
     (Issues s o (loadUses o m) i → o.nw = false → go false [] 0 = (v, none, S) → exec (.ldp o m x) s = .next (i.finish (S.addPend
       ⟨i.t, i.g, false, false, (numbered o.d.toNat (toWords (mtyWords m.ty) ((AOp.load (mtySigned m.ty)).extend (mtyBytes m.ty) v))).map
         fun w => (l, w.1, w.2), []⟩) [] false none)) ∧
     (Issues s o { src := (o.a, mtyWords m.ty) :: addrSrc o m.p } i →
       go true (s.reading.storeEnds i (mtyBytes m.ty) [5] fun l => effAddr s.reading i l 0x50000000 m.p (2 ^ m.sc.toNat))
         (srcData s.reading i l o.a (mtyWords m.ty)) = (v, none, S) → exec (.stp o m x) s = .next (i.finish S [] false none)))

/-- R25, R123, R227: LDS and LDX, where every participant's pointer passes its checks, its line is present and its words carry
no poison, put the little-endian bytes of the scratchpad on their way, widened; no register is written yet. R25, R227: a
scratchpad load with a participant whose line is absent waits until the lines are present; one whose pointer fails traps. This
is the whole of LDS and LDX. Where it rests on the model's choices: log 42. -/
def Obligations.ScratchLoads : Prop :=
  (∀ x o m high tag, ScrLoad x o m high tag → ∀ s i, Issues s o (loadUses o m) i → (∀ a ∈ s.accs, a.1 < s.uid) → s.stopping i.t = false →
     let p (l : Nat) := effAddr s.reading i l high m.p (2 ^ m.sc.toNat)
     let at_ (l : Nat) := s.scrTarget i.t (p l)
     let n := mtyBytes m.ty
     (∀ l ∈ i.parts, s.reading.ptrCheck i.t i.g (p l) n [tag] none true = none ∧ s.present (at_ l).1 (at_ l).2 = true ∧
       (s.scrRead (at_ l).1 (at_ l).2 n).2 = false) →
     ∃ s', exec x s = .next s' ∧
       Still s (if o.nw || i.parts.isEmpty then s.reading else s.reading.addPend ⟨i.t, i.g, false, false, i.parts.flatMap fun l =>
         (numbered o.d.toNat (toWords (mtyWords m.ty) ((AOp.load (mtySigned m.ty)).extend n (s.scrRead (at_ l).1 (at_ l).2 n).1))).map
           fun w => (l, w.1, w.2), []⟩) s' i) ∧
  (∀ x o m high tag, ScrLoad x o m high tag → ∀ s i, Issues s o (loadUses o m) i →
     let r := memLanes i (fun s l => s.scrLoad i l (effAddr s i l high m.p (2 ^ m.sc.toNat)) (mtyBytes m.ty) tag (.load (mtySigned m.ty))
       (loadDst o (mtyWords m.ty))) i.parts s.reading
     let regs := if o.nw then [] else loadRegs r.1 o.d.toNat (mtyWords m.ty) ((AOp.load (mtySigned m.ty)).extend (mtyBytes m.ty))
     exec x s = .next (scrFinish i s.uid r.1 i.parts (if regs.isEmpty then none else some ⟨i.t, i.g, false, false, regs, []⟩) r.2))

/-- R25, R123, R227: STS and STX, where every participant's pointer passes its checks, write the low bytes of their data to
the scratchpads in ascending lane order, and change no register and no other memory; nothing of a core changes but its guest
book; no scratchpad here holds poison. R123, R232: ATOMS and ATOMX of one participant whose pointer passes its checks read the
old value and write the updated one in one step, and put the old value on its way. Where it rests on the model's choices: log
42. -/
def Obligations.ScratchWrites : Prop :=
  (∀ x o m high tag, ScrStore x o m high tag → ∀ s i, Issues s o { src := (o.a, mtyWords m.ty) :: addrSrc o m.p } i →
     s.stopping i.t = false → (∀ t, (s.pad t).scrPoison = []) →
     let p (l : Nat) := effAddr s.reading i l high m.p (2 ^ m.sc.toNat)
     (∀ l ∈ i.parts, s.reading.ptrCheck i.t i.g (p l) (mtyBytes m.ty) [tag] none true = none) →
     ∃ s', exec x s = .next s' ∧
       Still s (forEach i.parts s.reading fun b l => b.scrWrite (s.scrTarget i.t (p l)).1 (s.scrTarget i.t (p l)).2 (mtyBytes m.ty)
         (srcData s.reading i l o.a (mtyWords m.ty))) s' i) ∧
  (∀ x o p k y high tag, ScrAtom x o p k y high tag → ∀ s i l, Issues s o (atomUses o (atKindBytes k) p (atKindCas k) y true) i →
     i.parts = [l] → s.stopping i.t = false → o.nw = false →
     let n := atKindBytes k
     let ea := effAddr s.reading i l high p n
     let t := s.scrTarget i.t ea
     let old := s.scrRead t.1 t.2 n
     s.reading.ptrCheck i.t i.g ea n [tag] none true = none → old.2 = false →
     let new := (AOp.atom k .none).update n old.1 (srcData s.reading i l o.a (n / 4)) (if atKindCas k then srcData s.reading i l y.e (n / 4) else 0)
     ∃ s', exec x s = .next s' ∧
       Still s ((new.elim s.reading fun v => s.reading.scrWrite t.1 t.2 n v).addPend ⟨i.t, i.g, false, false,
         (numbered o.d.toNat (toWords (n / 4) old.1)).map fun w => (l, w.1, w.2), []⟩) s' i)

/-- R225, R228: LDK and LDS.S perform once, at the address of the lowest participant, and the scalar registers of the group
receive the words; a trap reaches every participant. -/
def Obligations.SingleLoads : Prop :=
  (∀ o m x s i l ls, Issues s o { src := addrSrc o m.p, sd := if o.nw then [] else [(o.d.toNat, mtyWords m.ty)], sform := true } i →
    i.parts = l :: ls →
    let n := mtyBytes m.ty
    let r := s.reading.dataLane i l (effAddr s.reading i l 0 m.p (2 ^ m.sc.toNat)) n [0, 5] (.load (mtySigned m.ty)) 0
      (if o.nw then .none else .scal o.d.toNat (mtyWords m.ty)) []
    let S := r.2.setMates s.uid i.parts
    (∀ tr, r.1.stat = .trap tr → exec (.ldk o m x) s = .next (i.faultAll S tr false)) ∧
    (r.1.stat = .pend → exec (.ldk o m x) s = .next (i.finish S [] false none)) ∧
    (∀ v, r.1.stat = .done v → watchLanes S [r.1] = [] → exec (.ldk o m x) s = .next
      (i.finish (if o.nw then S else S.scalPend i o.d.toNat (mtyWords m.ty) ((AOp.load (mtySigned m.ty)).extend n v)) [] false none))) ∧
  (∀ o m x s i l ls, Issues s o { src := addrSrc o m.p, sd := if o.nw then [] else [(o.d.toNat, 1)], sform := true } i →
    i.parts = l :: ls →
    let n := mtyBytes m.ty
    let r := s.reading.scrLoad i l (effAddr s.reading i l 0x20000000 m.p (2 ^ m.sc.toNat)) n 2 (.load (mtySigned m.ty))
      (if o.nw then .none else .scal o.d.toNat 1)
    let S := r.2.setMates s.uid i.parts
    (∀ tr, r.1.stat = .trap tr → exec (.ldsS o m x) s = .next (i.faultAll S tr false)) ∧
    (r.1.stat = .pend → exec (.ldsS o m x) s = .next (scrFinish i s.uid [] i.parts none S)) ∧
    (∀ v, r.1.stat = .done v → exec (.ldsS o m x) s = .next
      (i.finish (if o.nw then S else S.scalPend i o.d.toNat 1 ((AOp.load (mtySigned m.ty)).extend n v)) [] false none)))

/-- R69 to R72: LDW and STW without a participant only go on; with the W path full, or while a lane whose row its team keeps only
DROPPED waits for its bytes' page (R397, R398), they are tried again; otherwise each participant's bytes move to or from its row
at once, and where one lane's did, the word becomes an entry of the core's W path, which W_PATH_ACCESS_COMPLETE ends. LDW of one
participant whose team holds the row and whose bytes are clean of poison keeps them, widened, for its registers, which the
entry's end fills; STW of one participant to a writable row that its team holds writes its bytes there. Where it rests on the
model's choices: log 53. -/
def Obligations.RowAccesses : Prop :=
  (∀ store o m x s i,
    Issues s o { src := (if store then [(o.a, mtyWords m.ty)] else []) ++ addrSrc o m.p,
                 vd := if store || o.nw then [] else [(o.d.toNat, mtyWords m.ty)] } i →
    let run := exec (if store then .stw o m x else .ldw o m x) s
    let addr (l : Nat) := effAddr s.reading i l 0x40000000 m.p (2 ^ m.sc.toNat)
    let q := s.reading.rowAsk i addr (mtyBytes m.ty) store fun l => srcData s.reading i l o.a (mtyWords m.ty)
    let r := memLanes i (fun s l => s.rowLane i l (addr l) (mtyBytes m.ty) store (srcData s i l o.a (mtyWords m.ty))) i.parts q.2
    (i.parts = [] → ∃ s', run = .next s' ∧ Still s s.reading s' i) ∧
    (i.parts ≠ [] → 8 ≤ (s.core (s.team i.t).core).wpath.length → run = .next { s.reading with turn := .later }) ∧
    (i.parts ≠ [] → (s.core (s.team i.t).core).wpath.length < 8 → q.1 = false → run = .next { q.2 with turn := .later }) ∧
    (i.parts ≠ [] → (s.core (s.team i.t).core).wpath.length < 8 → q.1 = true → r.1.filterMap (·.acc) = [] →
      run = .next (i.finish (takeLaneTraps (r.2.rowTaken i) i r.1) [] false none)) ∧
    (i.parts ≠ [] → (s.core (s.team i.t).core).wpath.length < 8 → q.1 = true → r.1.filterMap (·.acc) ≠ [] →
      ∃ (S : State) (id : Nat), run = .next (i.finish S [] false none) ∧ id ∈ (S.core (s.team i.t).core).wpath ∧ (amapFind? S.accs id).isSome)) ∧
  (∀ o m x s i l r pa v S, Issues s o { src := addrSrc o m.p, vd := [(o.d.toNat, mtyWords m.ty)] } i → i.parts = [l] → o.nw = false →
    s.stopping i.t = false → (s.core (s.team i.t).core).wpath.length < 8 →
    let ea := effAddr s.reading i l 0x40000000 m.p (2 ^ m.sc.toNat)
    s.reading.ptrCheck i.t i.g ea (mtyBytes m.ty) [4] none true = none → s.rowPlace i.t ea = some (r, pa) →
    r.heldBy i.t = true → s.reading.rowRead pa (mtyBytes m.ty) r.key = (v, false, S) → ∃ (T : State) (id : Nat) (a : Access),
      exec (.ldw o m x) s = .next (i.finish T [] false none) ∧ id ∈ (T.core (s.team i.t).core).wpath ∧
      amapFind? T.accs id = some a ∧ a.va = ea ∧ a.pa = pa ∧ a.snoops = [bitField 18 11 ea] ∧
      amapFind? T.pends a.cmp = some ⟨i.t, i.g, false, false,
        (numbered o.d.toNat (toWords (mtyWords m.ty) ((AOp.load (mtySigned m.ty)).extend (mtyBytes m.ty) v))).map fun w => (l, w.1, w.2), []⟩) ∧
  (∀ o m x s i l r pa, Issues s o { src := (o.a, mtyWords m.ty) :: addrSrc o m.p } i → i.parts = [l] → s.stopping i.t = false →
    (s.core (s.team i.t).core).wpath.length < 8 → let ea := effAddr s.reading i l 0x40000000 m.p (2 ^ m.sc.toNat)
    s.reading.ptrCheck i.t i.g ea (mtyBytes m.ty) [4] none true = none → s.rowPlace i.t ea = some (r, pa) →
    r.heldBy i.t = true → r.wr = true →
    ∃ (T : State) (id : Nat) (a : Access), exec (.stw o m x) s = .next (i.finish T [] false none) ∧
      id ∈ (T.core (s.team i.t).core).wpath ∧ amapFind? T.accs id = some a ∧ a.va = ea ∧ a.pa = pa ∧ a.snoops = [bitField 18 11 ea] ∧
      T.dram = (s.rowWrite pa (mtyBytes m.ty) r.key (srcData s.reading i l o.a (mtyWords m.ty))).dram)

/-- R230: PFG brings each participant's line nearer, where its pointer is sound and its page reads, waits for the walk of a
page that its TLB misses without holding up the thread, and can raise nothing (log 117). R231: STEW, for a descriptor index
inside the space's window, sends the eight words at B to the surface block, and its result is on its way. -/
def Obligations.PrefetchAndDescriptors : Prop :=
  (∀ o m x s i, Issues s o { src := addrSrc o m.p } i → exec (.pfg o m x) s = .next (i.finish (forEach i.parts s.reading fun S l =>
    let p := effAddr S i l 0 m.p (2 ^ m.sc.toNat)
    let tm := S.team i.t
    if (S.ptrCheck i.t i.g p 1 [0] none false).isSome then S else
    match S.translate (coreWing tm.core) tm.launch .vtlb p .read .plain none with
    | (.ok y, S) => S.prefetch tm.core y
    | (.wait, S) => (S.accNew { unitAcc (.prefetch tm.launch) tm.core (S.launch tm.launch).space p 1 (.load false) 0 false with
        snoops := [walkWait] }).2
    | (_, S) => S) [] false none)) ∧
  (∀ o m x s i l y S, Issues s o { src := addrSrc o m.p } i → i.parts = [l] →
    let p := effAddr s.reading i l 0 m.p (2 ^ m.sc.toNat)
    s.reading.ptrCheck i.t i.g p 1 [0] none false = none →
    s.reading.translate (coreWing (s.team i.t).core) (s.team i.t).launch .vtlb p .read .plain none = (.ok y, S) →
    exec (.pfg o m x) s = .next (i.finish (S.prefetch (s.team i.t).core y) [] false none)) ∧
  (∀ o w x s i l ls, Issues s o { src := [(o.a, 1), (o.b, 8)], sd := if o.nw then [] else [(o.d.toNat, 1)] } i → i.parts = l :: ls →
    let a := (src32 s.reading i l o.a).toNat
    (2 ^ 12 ≤ a → exec (.stew o w x) s = .next (i.faultAll s.reading { cause := .illegalOperand } false)) ∧
    (a < 2 ^ 12 → s.inSteWindow (s.spaceOf i.t) a = false → exec (.stew o w x) s = .next (i.faultAll s.reading { cause := .privilege } false)) ∧
    (∀ b, a < 2 ^ 12 → s.inSteWindow (s.spaceOf i.t) a = true → o.b = .s b →
      let v := BitVec.ofNat 256 (ofWords ((List.range 8).map fun k => s.readS i.t i.g (b.toNat + k)))
      exec (.stew o w x) s = .next (i.finish (if o.nw then s.reading.stewArrive (s.spaceOf i.t) a v w 0 else
        State.stewArrive { s.reading with
            uid := s.uid + 1, pends := amapInsert s.pends s.uid ⟨i.t, i.g, false, true, [(0, o.d.toNat, 0)], []⟩ }
          (s.spaceOf i.t) a v w s.uid) [] false none)))

/-! ## Synchronisation -/

/-- R83, R232: an atomic with an order is a waiting instruction: where a participant's access was started the set waits for
those accesses, after the release side on the core for a release at cluster scope or wider. The access of one participant on a
HOME page is sent to its home, and the set waits for it. R115, R122: it is tried again while an earlier W-path access of a
participant is in flight. Where it rests on the model's choices: log 49. -/
def Obligations.OrderedAtomics : Prop :=
  (∀ x o n p cas y op ret, AtomForm x o n p cas y op ret → op.ord ≠ .none → ∀ s i, Issues s o (atomUses o n p cas y ret) i →
    s.wpathHeld i.t i.g i.parts = false →
    let r := memLanes i (fun s l => s.atomLane i l n p y op cas (atomDst o n ret)) i.parts s.reading
    let S := takeLaneTraps (r.2.setWaits s.uid) i r.1
    (S.newAccs s.uid = [] → exec x s = .next (i.finish S [] true none)) ∧
    (S.newAccs s.uid ≠ [] → exec x s = .next
      (i.finishWait (S.releaseSide (S.team i.t).core y.scope.wide op.ord.releases (y.scope == .system)) i.parts (.sync (S.newAccs s.uid))))) ∧
  (∀ y o n p cas x op ret, AtomForm y o n p cas x op ret → op.ord ≠ .none → ∀ s i l ph S, Issues s o (atomUses o n p cas x ret) i →
    s.wpathHeld i.t i.g i.parts = false → i.parts = [l] → let ea := effAddr s.reading i l 0 p n
    s.reading.ptrCheck i.t i.g ea n [0] none true = none → AtHome s.reading i.t ea .write .sync ph S → s.uid ≤ S.uid →
    ∃ T, exec y s = .next (i.finishWait (T.releaseSide (T.team i.t).core x.scope.wide op.ord.releases (x.scope == .system)) [l]
      (.sync (T.newAccs s.uid))) ∧ Sent T S.uid i l op ea n (op.operand s.reading i l o.a (n / 4)) ph) ∧
  (∀ x o n p cas y op ret, AtomForm x o n p cas y op ret → op.ord ≠ .none → ∀ s i, Issues s o (atomUses o n p cas y ret) i →
    s.wpathHeld i.t i.g i.parts = true → exec x s = .next { s.reading with turn := .later })

/-- R234: LDA makes the set wait for its acquiring loads; STL first makes the core release, and then records the core's epoch
with its stores; the access of one participant on a HOME page is sent to its home. R83, R235: FENCE at cluster scope or wider
publishes and acquires; FENCEX within one path is FENCE, and between two writes its source path back and waits for what the
team has in flight on it: its W-path accesses, its copies, or the flights whose quads have exited; without a participant a
fence only ends the run. R115, R122: each of the four is tried again while an earlier W-path access of a participant is in
flight. Where it rests on the model's choices: log 48, 50. -/
def Obligations.AcquireReleaseAndFences : Prop :=
  (∀ o m x s i, Issues s o { src := addrSrc o m.p, vd := if o.nw then [] else [(o.d.toNat, mtyWords m.ty)] } i →
    s.wpathHeld i.t i.g i.parts = false → i.parts = [] → s.newAccs s.uid = [] → exec (.lda o m x) s = .next (i.finish (s.reading.setWaits s.uid) [] true none)) ∧
  (∀ o m x s i l, Issues s o { src := addrSrc o m.p, vd := if o.nw then [] else [(o.d.toNat, mtyWords m.ty)] } i →
    s.wpathHeld i.t i.g i.parts = false → i.parts = [l] →
    let ea := effAddr s.reading i l 0 m.p (2 ^ m.sc.toNat)
    s.reading.ptrCheck i.t i.g ea (mtyBytes m.ty) [0] none true = none →
    let r := s.reading.globLane i l ea (mtyBytes m.ty) (.lda (mtySigned m.ty)) 0 0 (if o.nw then .none else .vec o.d.toNat (mtyWords m.ty)) x.scope
    r.1.stat = .pend → (r.2.setWaits s.uid).newAccs s.uid ≠ [] →
    exec (.lda o m x) s = .next (i.finishWait (r.2.setWaits s.uid) i.parts (.sync ((r.2.setWaits s.uid).newAccs s.uid)))) ∧
  (∀ o m x s i l, Issues s o { src := (o.a, mtyWords m.ty) :: addrSrc o m.p } i →
    s.wpathHeld i.t i.g i.parts = false → i.parts = [l] → x.scope.wide = false →
    let ea := effAddr s.reading i l 0 m.p (2 ^ m.sc.toNat)
    s.reading.ptrCheck i.t i.g ea (mtyBytes m.ty) [0] none true = none →
    let r := s.reading.globLane i l ea (mtyBytes m.ty) .stl (srcData s.reading i l o.a (mtyWords m.ty)) 0 .none x.scope
    r.1.stat = .pend → (r.2.setWaits s.uid).newAccs s.uid ≠ [] →
    exec (.stl o m x) s = .next (i.finishWait (r.2.setWaits s.uid) i.parts (.sync ((r.2.setWaits s.uid).newAccs s.uid)))) ∧
  (∀ o m x s i l ph S, Issues s o { src := addrSrc o m.p, vd := if o.nw then [] else [(o.d.toNat, mtyWords m.ty)] } i →
    s.wpathHeld i.t i.g i.parts = false → i.parts = [l] → let ea := effAddr s.reading i l 0 m.p (2 ^ m.sc.toNat)
    s.reading.ptrCheck i.t i.g ea (mtyBytes m.ty) [0] none true = none → AtHome s.reading i.t ea .read .sync ph S → s.uid ≤ S.uid →
    ∃ T, exec (.lda o m x) s = .next (i.finishWait T [l] (.sync (T.newAccs s.uid))) ∧
      Sent T S.uid i l (.lda (mtySigned m.ty)) ea (mtyBytes m.ty) 0 ph) ∧
  (∀ o m x s i l ph S, Issues s o { src := (o.a, mtyWords m.ty) :: addrSrc o m.p } i →
    s.wpathHeld i.t i.g i.parts = false → i.parts = [l] → let ea := effAddr s.reading i l 0 m.p (2 ^ m.sc.toNat)
    s.reading.ptrCheck i.t i.g ea (mtyBytes m.ty) [0] none true = none → AtHome s.reading i.t ea .write .sync ph S → s.uid ≤ S.uid →
    ∃ T, Sent T S.uid i l .stl ea (mtyBytes m.ty) (srcData s.reading i l o.a (mtyWords m.ty)) ph ∧
      let c := (T.team i.t).core
      let R := T.releaseSide c x.scope.wide true (x.scope == .system)
      let A := amapMap (fun k a => if s.uid ≤ k then { a with cmp := (R.core c).epoch } else a) R.accs
      exec (.stl o m x) s = .next (i.finishWait (if x.scope.wide then ({ R with accs := A } : State).regionEnd c true else R) [l]
        (.sync (T.newAccs s.uid)))) ∧
  (∀ o x s i, Issues s o {} i → s.wpathHeld i.t i.g i.parts = false → i.parts ≠ [] →
    exec (.fence o x) s = .next (i.finishWait (s.reading.fenceNow (s.team i.t).core x.scope) i.parts (.sync [])) ∧
    ∀ p, exec (.fencex o p p x) s = .next (i.finishWait (s.reading.fenceNow (s.team i.t).core x.scope) i.parts (.sync []))) ∧
  (∀ o x s i p q, Issues s o {} i → s.wpathHeld i.t i.g i.parts = false → i.parts ≠ [] → p ≠ q →
    exec (.fencex o p q x) s = .next (i.finishWait
      (if p = .v then (s.reading.releasePriv (s.team i.t).core).releaseTracked (s.team i.t).core else s.reading) i.parts
      (.fencex
        (if p = .w then s.accs.filterMap fun kv => match kv.2.who with
          | .thread t _ _ => if t = i.t && kv.2.va / 2 ^ 60 = 4 then some kv.1 else none
          | _ => none else [])
        (if p = .c then s.copies.filterMap fun kv => if kv.2.team = i.t then some kv.1 else none else [])
        (if p = .f then (match (s.team i.t).frag with
          | none => []
          | some f => f.flights.filter fun k => match (amapFind? s.flights k).bind Flight.shader with
            | some y => s.quadExited y.1 y.2
            | none => false) else [])
        p q))) ∧
  (∀ o x s i, Issues s o {} i → s.wpathHeld i.t i.g i.parts = false → i.parts = [] → exec (.fence o x) s = .next (i.finish s.reading [] true none) ∧
    ∀ p q, exec (.fencex o p q x) s = .next (i.finish s.reading [] true none)) ∧
  (∀ o x s i, Issues s o {} i → s.wpathHeld i.t i.g i.parts = true →
    exec (.fence o x) s = .next { s.reading with turn := .later } ∧
    ∀ p q, exec (.fencex o p q x) s = .next { s.reading with turn := .later }) ∧
  (∀ o m x s i, s.wpathHeld i.t i.g i.parts = true →
    (Issues s o { src := addrSrc o m.p, vd := if o.nw then [] else [(o.d.toNat, mtyWords m.ty)] } i →
      exec (.lda o m x) s = .next { s.reading with turn := .later }) ∧
    (Issues s o { src := (o.a, mtyWords m.ty) :: addrSrc o m.p } i → exec (.stl o m x) s = .next { s.reading with turn := .later }))

/-- R236, R237: an arrival at a freed object raises BARRIER_STALE, one of count 0 or above the barrier's limit ILLEGAL_OPERAND,
one whose count is not the expected one BARRIER_COUNT, and none of these is recorded. Any other arrival at a barrier of the team
is recorded: it advances the arrivals, fixes the count of its phase, and where it is the last of its phase opens the next one,
whose count is the preset. Every other barrier of a team stands. Where it rests on the model's choices: log 51. -/
def Obligations.Arrivals : Prop :=
  (∀ (s : State) t (r : BarRef) n mx, s.barLive t r = false → s.arrive t r n mx = (some { cause := .barrierStale, aux := r.aux, info := r.info }, s)) ∧
  (∀ (s : State) t (r : BarRef) n mx, s.barLive t r = true → (n = 0 ∨ r.limit < n) → s.arrive t r n mx = (some { cause := .illegalOperand }, s)) ∧
  (∀ (s : State) t (r : BarRef) n mx, s.barLive t r = true → n ≠ 0 → n ≤ r.limit → (s.barGet t r).expect ≠ 0 → n ≠ (s.barGet t r).expect →
    s.arrive t r n mx = (some { cause := .barrierCount, aux := r.aux, info := 2 ^ 16 * (s.barGet t r).expect + n }, s)) ∧
  (∀ (s : State) t k n mx, (amapFind? s.teams t).isSome → k < 16 → n ≠ 0 → n ≤ 1025 → ((s.bar t k).expect = 0 ∨ n = (s.bar t k).expect) →
    let x := s.arrive t (.num k) n mx
    x.1 = none ∧ ∀ t' k', k' < 16 → x.2.bar t' k' =
      if t' = t ∧ k' = k then
        if (s.bar t k).arrived + 1 = n then
          { s.bar t k with
            phase := (s.bar t k).phase + 1, arrived := 0, expect := (s.bar t k).preset, recs := [], mx := false,
            past := (s.bar t k).ended (s.bar t k).recs, pastMx := mx || (s.bar t k).mx }
        else { s.bar t k with arrived := (s.bar t k).arrived + 1, expect := n, mx := mx || (s.bar t k).mx }
      else s.bar t' k')

/-- R238: BARRIVE arrives for each participant and goes on; BWAIT makes the set wait for the barriers whose parity is still the
one given, with an acquire from the recorded cores where a cluster barrier's has changed; BSYNC arrives and waits for the phase
arrived in, unless the arrival ended it. R239: BARRD of mask 0 arrives at once, of another mask leaves its arrival to be
performed, and goes on. R240: BINIT sets a barrier up afresh; BFREE drops an object. R240: BALLOC answers 0 where the core's
table of 256 is full, and else the handle (index, generation) of a free entry, which belongs to the team from then on. Of one
participant whose barrier stands, with a count that the barrier takes, BARRIVE, BSYNC and BARRD record their arrival and trap
nothing. Where it rests on the model's choices: log 27, 51. -/
def Obligations.BarrierWords : Prop :=
  (∀ o h x s i, Issues s o (barUses o) i → s.wpathHeld i.t i.g i.parts = false →
    exec (.barrive o h x) s = .next (i.finish (forEach i.parts s.reading fun s l => s.arriveLane i l h) [] false none)) ∧
  (∀ o h x s i l r, i.parts = [l] → s.wpathHeld i.t i.g i.parts = false → (barOps s.reading i l h).1 = .inl r →
    let n := (barOps s.reading i l h).2 % 2 ^ 16
    s.barLive i.t r = true → n ≠ 0 → n ≤ r.limit → ((s.barGet i.t r).expect = 0 ∨ n = (s.barGet i.t r).expect) →
    ∃ S, s.reading.arrive i.t r n = (none, S) ∧
      (Issues s o (barUses o) i → exec (.barrive o h x) s = .next (i.finish S [] false none) ∧
        let ph := (s.barGet i.t r).phase.toNat
        exec (.bsync o h x) s = .next (if (S.barGet i.t r).phase.toNat = ph
          then i.finishWait S [l] (.parity (S.thread i.t i.g l).pc [(l, r, ph)]) else i.finish S [] true none)) ∧
      (Issues s o { src := [(o.a, 1), (o.b, 1), (o.c, 1)] } i → (src32 s.reading i l o.c).toNat % 2 ^ 16 = 0 →
        exec (.barrd o h x) s = .next (i.finish S [] false none))) ∧
  (∀ o h x s i l r, Issues s o { src := [(o.a, 1), (o.b, 1), (o.c, 1)] } i → s.wpathHeld i.t i.g i.parts = false → i.parts = [l] →
    (barOps s.reading i l h).1 = .inl r → let mask := (src32 s.reading i l o.c).toNat % 2 ^ 16
    mask ≠ 0 →
    let d : Deferred := ⟨i.g, l, s.pcOffset i.t (s.thread i.t i.g l).pc, r, (barOps s.reading i l h).2 % 2 ^ 16, s.copies.filterMap fun kv =>
      if kv.2.team = i.t && kv.2.gix = i.g && tmplBen kv.2.tmpl && mask / 2 ^ tmplBmap kv.2.tmpl % 2 == 1 then some kv.1 else none⟩
    let S := State.updTeam { s.reading with uid := s.uid + 1 } i.t fun tm => { tm with deferred := amapInsert tm.deferred s.uid d }
    exec (.barrd o h x) s = .next (i.finish { S with later := S.later ++ [.ins (.barrdArrivalPerform i.t s.uid)] } [] false none)) ∧
  (∀ o h x s i (r : Nat → BarRef), Issues s o (barUses o) i → (∀ l ∈ i.parts, (barOps s.reading i l h).1 = .inl (r l)) →
    let xs := i.parts.map fun l => (l, r l, (barOps s.reading i l h).2)
    let ended := (xs.filter fun x => (s.barGet i.t x.2.1).phase.toNat % 2 ≠ x.2.2 % 2).map fun x => x.2.1
    exec (.bwait o h x) s = .next (barWait i (forEach ended.eraseDups s.reading fun S r => S.barLate i.t r) xs)) ∧
  (∀ o h x s i l r, Issues s o (barUses o) i → i.parts = [l] → (barOps s.reading i l h).1 = .inl r →
    let p := (barOps s.reading i l h).2
    ((s.barGet i.t r).phase.toNat % 2 = p % 2 →
      exec (.bwait o h x) s = .next (i.finishWait s.reading [l] (.parity (s.thread i.t i.g l).pc [(l, r, p)]))) ∧
    ((s.barGet i.t r).phase.toNat % 2 ≠ p % 2 → r.wide = false → exec (.bwait o h x) s = .next (i.finish s.reading [] true none))) ∧
  (∀ o h x s i, Issues s o (barUses o) i → s.wpathHeld i.t i.g i.parts = false → ∃ S xs, exec (.bsync o h x) s =
    .next (if xs.isEmpty then i.finish S [] true none
      else i.finishWait S i.parts (.parity (S.thread i.t i.g (i.parts.headD 0)).pc xs))) ∧
  (∀ o h x s i, Issues s o { src := [(o.a, 1), (o.b, 1), (o.c, 1)] } i → s.wpathHeld i.t i.g i.parts = false →
    ∃ S, exec (.barrd o h x) s = .next (i.finish S [] false none)) ∧
  (∀ o h x s i l r, Issues s o (barUses o) i → i.parts = [l] → (barOps s.reading i l h).1 = .inl r →
    let n := (barOps s.reading i l h).2 % 2 ^ 16
    (n ≤ r.limit → exec (.binit o h x) s = .next (i.finish ((s.reading.barSet i.t r
      { phase := 0, arrived := 0, expect := n, preset := n, recs := [] }).barJudge i.t r) [] false none)) ∧
    (r.limit < n → exec (.binit o h x) s = .next (i.finish (s.reading.takeTrap i.t i.g l { cause := .illegalOperand }) [] false none))) ∧
  (∀ o x s i l ix gen, Issues s o { src := [(o.a, 1)] } i → i.parts = [l] →
    s.reading.barRef i.t true (src32 s.reading i l o.a).toNat = .inl (.handle ix gen) →
    exec (.bfree o x) s = .next (i.finish ((s.reading.barDrop i.t (.handle ix gen)).barErase (s.team i.t).core ix)
      [] false none)) ∧
  (∀ o x s i l ls, Issues s o { sd := if o.nw then [] else [(o.d.toNat, 1)] } i → i.parts = l :: ls → o.nw = false →
     let core := (s.team i.t).core
     ((s.core core).barFree = [] → exec (.balloc o x) s = .next (i.finish (s.reading.scalPend i o.d.toNat 1 0) [] false none)) ∧
     ((s.core core).barFree ≠ [] → ∃ ix ∈ (s.core core).barFree, ∃ S : State, exec (.balloc o x) s = .next
         (i.finish (S.scalPend i o.d.toNat 1 (ix + 256 * (amapGet ({} : BarObj) (s.core core).barTab ix).gen)) [] false none) ∧
       (amapGet ({} : BarObj) (S.core core).barTab ix).team = some i.t ∧ ∀ k, k ≠ ix →
         amapGet ({} : BarObj) (S.core core).barTab k = amapGet {} (s.core core).barTab k))

/-! ## Rows, shootdowns and launches -/

/-- R67, R68, R73, R241: ROWJOIN of a key that no team holds answers false with LAST FREE, of one that the team holds true
with LAST OK, at the limit of eight keys a core false with LAST LIMIT, and else it joins the holders, true with LAST OK,
opening a row that is closed, and waits for a row that is opening; ROWFREE of a key that is not the team's changes nothing but
LAST, is tried again while an access of the team to the row is in flight, and else ends the hold. R65, R241: ROWBOOK whose
pointer fails its check, or whose address does not translate, traps on every participant; one whose TLB misses, or whose page
is being flipped, is tried again (log 117); else it answers as Table 04-2 says. Where it rests on the model's choices: log 78.
-/
def Obligations.RowWords : Prop :=
  (∀ o q x s i l ls, Issues s o { src := [(o.a, 1)], pw := [q.toNat] } i → i.parts = l :: ls →
    let key := bitField 18 11 (src32 s.reading i l o.a).toNat
    let answer (last : Nat) : Out := .next (rowFinish i ((s.reading.writePs i q.toNat (last == 0)).rowLast i.t i.g key last) key last false)
    (s.row? (s.spaceOf i.t) key = none → exec (.rowjoin o q x) s = answer 3) ∧
    (∀ r, s.row? (s.spaceOf i.t) key = some r → r.holders = [] → exec (.rowjoin o q x) s = answer 3) ∧
    (∀ r, s.row? (s.spaceOf i.t) key = some r → r.heldBy i.t = true → exec (.rowjoin o q x) s = answer 0) ∧
    (∀ r, s.row? (s.spaceOf i.t) key = some r → r.holders ≠ [] → r.heldBy i.t = false → 8 ≤ s.bookedOn (s.team i.t).core →
      exec (.rowjoin o q x) s = answer 2) ∧
    (∀ r, s.row? (s.spaceOf i.t) key = some r → r.holders ≠ [] → r.heldBy i.t = false → s.bookedOn (s.team i.t).core < 8 →
      let S := s.reading.setRow (s.spaceOf i.t) key { r with
        holders := r.holders ++ [i.t], dropped := r.dropped.filter (· ≠ i.t), state := if !r.live then .opening else r.state }
      exec (.rowjoin o q x) s = .next (rowFinish i (((if !r.live then S.openRow (s.team i.t).core r.granule else S).writePs i q.toNat
        true).rowLast i.t i.g key 0) key 0 (!r.live)))) ∧
  (∀ o x s i l ls, Issues s o { src := [(o.a, 1)] } i → i.parts = l :: ls →
    let key := bitField 18 11 (src32 s.reading i l o.a).toNat
    (s.keyHeld i.t key = false → exec (.rowfree o x) s = .next (i.finish (s.reading.rowLast i.t i.g key 3) [] true none)) ∧
    (s.keyHeld i.t key = true → s.rowBusy i.t key = true → exec (.rowfree o x) s = .next { s.reading with turn := .later }) ∧
    (s.keyHeld i.t key = true → s.rowBusy i.t key = false → exec (.rowfree o x) s =
      .next (i.finish ((s.reading.rowEnd (s.spaceOf i.t) key i.t).rowLast i.t i.g key 0) [] true none))) ∧
  (∀ o p q sc x s i l ls, Issues s o { src := addrSrc o p, sd := if o.nw then [] else [(o.d.toNat, 1)], pw := [q.toNat] } i →
    i.parts = l :: ls →
    let ea := effAddr s.reading i l 0 p (2 ^ sc.toNat)
    (∀ tr, s.reading.ptrCheck i.t i.g ea 1 [0] none false = some tr →
      exec (.rowbook o p q sc x) s = .next (i.faultAll s.reading tr true)) ∧
    (s.reading.ptrCheck i.t i.g ea 1 [0] none false = none → ∀ X S,
      s.reading.translate (coreWing (s.team i.t).core) (s.team i.t).launch .ctlb ea .read .rowbook none = (X, S) →
      (∀ tr, X = .trap tr → exec (.rowbook o p q sc x) s = .next (i.faultAll S tr true)) ∧
      (X = .wait → exec (.rowbook o p q sc x) s = .next { S with turn := .later }) ∧
      (∀ ph, X = .ok ph → S.flipping ph.pa = true → exec (.rowbook o p q sc x) s = .next { S with turn := .later }) ∧
      (∀ ph, X = .ok ph → S.flipping ph.pa = false → ∀ key last opens T, S.bookOutcome i.t ph = (key, last, opens, T) →
        let T := if opens then T.openRow (s.team i.t).core (ph.pa / 2048) else T
        let T := if o.nw then T else T.writeS i.t i.g o.d.toNat (BitVec.ofNat 32 (key * 2 ^ 11))
        exec (.rowbook o p q sc x) s = .next (rowFinish i ((T.writePs i q.toNat (last == 0)).rowLast i.t i.g key last) key last opens))))

/-- R162, R242: TLBI, which only the night porter may run, starts a shootdown of its scope, and the result is on its way; a
count of 0 pages is illegal. R191: LAUNCH reads the record of every participant, is tried again while one has to be waited
for, and then enqueues each participant's launch in lane order, and their tickets are on their way; of one participant, whose
record is readable, the launch joins a queue of its space that has room, and its ticket is on its way, and with the queue full
or not of its space the ticket is 0. Where it rests on the model's choices: log 65, 106. -/
def Obligations.ShootdownAndLaunch : Prop :=
  (∀ o x s i l ls, i.parts = l :: ls → (s.team i.t).kind = .porter →
    let S : State := if o.nw then s.reading else
      { s.reading with uid := s.uid + 1, pends := amapInsert s.pends s.uid ⟨i.t, i.g, false, true, [(0, o.d.toNat, 1)], []⟩ }
    let y := if o.nw then none else some s.uid
    let sd : List (Nat × Nat) := if o.nw then [] else [(o.d.toNat, 1)]
    let space := (src32 s.reading i l o.a).toNat % 2 ^ 12
    let pages := (src32 s.reading i l o.c).toNat % 2 ^ 20
    (Issues s o { src := (o.a, 1) :: [(o.b, 2), (o.c, 1)], sd := sd } i →
      (pages = 0 → exec (.tlbiPage o x) s = .next (i.faultAll s.reading { cause := .illegalOperand } false)) ∧
      (pages ≠ 0 → exec (.tlbiPage o x) s = .next (i.finish
        (S.shootStart ⟨0, space, (src64 s.reading i l o.b false).toNat % 2 ^ 57 / 4096 * 4096, pages, y, 0, false⟩) [] false none))) ∧
    (Issues s o { src := [(o.a, 1)], sd := sd } i →
      exec (.tlbiSpace o x) s = .next (i.finish (S.shootStart ⟨1, space, 0, 1, y, 0, false⟩) [] false none)) ∧
    (Issues s o { sd := sd } i → exec (.tlbiAll o x) s = .next (i.finish (S.shootStart ⟨2, 0, 0, 1, y, 0, false⟩) [] false none))) ∧
  (∀ o s i l rec_ a S, Issues s o { src := [(o.a, 1), (o.b, 2)], vd := [(o.d.toNat, 1)] } i → i.parts = [l] → o.nw = false →
    s.reading.recRead i.t i.g l (src64 s.reading i l o.b false).toNat = (.ok rec_ a, S) →
    let T := S.recDone i
    let qid := (src32 T i l o.a).toNat
    let r := T.enqueue qid rec_ a 0 false true
    let ticket (n : Nat) : Pend := ⟨i.t, i.g, false, false, [(l, o.d.toNat, BitVec.ofNat 32 n)], []⟩
    (qid < 256 → (T.queue qid).space = T.spaceOf i.t → (T.queue qid).items.length < 64 →
      exec (.launch o) s = .next (i.finish (r.2.addPend (ticket r.1)) [] false none)) ∧
    ((256 ≤ qid ∨ (T.queue qid).space ≠ T.spaceOf i.t ∨ 64 ≤ (T.queue qid).items.length) →
      exec (.launch o) s = .next (i.finish (T.addPend (ticket 0)) [] false none))) ∧
  (∀ o s i, Issues s o { src := [(o.a, 1), (o.b, 2)], vd := if o.nw then [] else [(o.d.toNat, 1)] } i →
    let x := s.reading.recReads i i.parts
    let r := x.1.foldl (fun (acc : List (Nat × Nat) × State) y => acc.2.launchLane i y.1 y.2 acc.1) ([], x.2.recDone i)
    (x.1.any (·.2 == .wait) = true → exec (.launch o) s = .next { x.2 with turn := .later }) ∧
    (x.1.any (·.2 == .wait) = false → exec (.launch o) s = .next (i.finish (if o.nw || r.1.isEmpty then r.2 else
      r.2.addPend ⟨i.t, i.g, false, false, r.1.map fun x => (x.1, o.d.toNat, BitVec.ofNat 32 x.2), []⟩) [] false none)))

/-! ## Traps -/

/-- R341 to R346: a trap of a thread of a grid that is not ending, where the core's guest book has room, parks the thread with its
PC and every register as they were, takes it out of its run, and enters one record, with the next free SEQ, whose words are
those of Table 20-2 and whose CAUSE is the trap's; no other thread's standing changes. Where the book is full the thread is
held, and the book's FULL bit rises. R356, Table 20-7: disposing of the one record of a parked thread, with nothing held, frees
its entry: RESUME makes the thread ready at its PC, RESUME.SKIP past its word, both with the cause in TRAPCAUSE; KILLT ends it,
KILLT.G every live thread of its group with their records; no other register of it changes. Where it rests on the model's
choices: log 29, 32, 33, 71. -/
def Obligations.TakingATrap : Prop :=
  (∀ s t g l tr, tr.cause ≠ .outOfLodging → (s.team t).kind ≠ .porter → s.stopping t = false → (amapFind? s.teams t).isSome →
    ((tr.cause = .bkpt ∨ tr.cause = .watch) → s.attached t = false) →
    let c := (s.team t).core
    let s' := s.takeTrap t g l tr
    (s.core c).serving ≠ some (t, g, l) →
    (Quiet s s' ∧ (∀ t' g' l', ¬ (t' = t ∧ g' = g ∧ l' = l) → (s'.thread t' g' l').stat = (s.thread t' g' l').stat) ∧
      ∀ r, (s'.group t g).run = some r → l ∉ r.lanes) ∧
    (s.bookFull c = false → (s'.thread t g l).stat = .parked ∧ ∃ e : GbEntry,
      (s'.core c).book = (s.core c).book ++ [e.withSeq (nextFreeSeq ((s.core c).book.map (·.seq)) 65 (s.core c).nextSeq)] ∧
      e.team = t ∧ e.launch = (s.team t).launch ∧ e.words = s.faultRecord t g l (s.pcOffset t (s.thread t g l).pc) tr ∧
      ∀ n, (e.withSeq n).cause = tr.cause.code) ∧
    (s.bookFull c = true → (s'.thread t g l).stat = .held ∧ (s'.core c).held = (s.core c).held ++ [.thread t g l] ∧
      (s'.core c).full = true ∧ (s'.core c).book = (s.core c).book)) ∧
  (∀ (s : State) (e : GbEntry), e.group < 32 → (amapFind? s.teams e.team).isSome → (s.thread e.team e.group e.lane).stat = .parked →
    let c := (s.team e.team).core
    (s.core c).held = [] →
    let th := s.thread e.team e.group e.lane
    let after (d : Disp) := (s.dispose c e d).thread e.team e.group e.lane
    let book (d : Disp) := ((s.dispose c e d).core c).book
    (e.barrd = false → s.otherRecords c e = [] →
      ((after .resume).stat = .ready ∧ (after .resume).pc = th.pc ∧ (after .resume).trapCause = BitVec.ofNat 8 e.cause ∧
        (after .resume).noBreak = e.brk) ∧
      ((after .skip).stat = .ready ∧ (after .skip).pc = (th.pc + (s.skipLen e.team th.pc).1) % 2 ^ 64 ∧
        (after .skip).trapCause = BitVec.ofNat 8 e.cause)) ∧
    (after .kill).stat = .dead ∧ (∀ l, ((s.dispose c e .killGroup).thread e.team e.group l).stat = .dead ∨
      amapFind? (s.group e.team e.group).threads l = none) ∧
    (∀ d, (after d).v = th.v ∧ (after d).p = th.p ∧ (after d).fpm = th.fpm ∧ (after d).hw = th.hw ∧ (after d).spilled = th.spilled) ∧
    (∀ d, d ≠ .killGroup → book d = (s.core c).book.filter (·.seq ≠ e.seq)) ∧
    book .killGroup = ((s.core c).book.filter fun x => !(x.team == e.team && x.group == e.group)).filter (·.seq ≠ e.seq))

/-- R353: TRAP and TRAP.LEGACY take a trap on each participant, with the operand that each read before any of them trapped;
BKPT does so where no debugger is attached. R340, R366: under a debugger BKPT stops the team, with the participants that a
report has not named, and goes on where there is none. -/
def Obligations.TrapWords : Prop :=
  (∀ o s i, Issues s o { src := [(o.a, 1)] } i →
    exec (.trap o) s = .next (i.finish (forEach (i.parts.map fun l => (l, (src32 s.reading i l o.a).toNat)) s.reading fun b x =>
      b.takeTrap i.t i.g x.1 { cause := .software, info := x.2 }) [] false none)) ∧
  (∀ o s i, Issues s o { src := [(o.a, 1), (o.b, 1)] } i →
    exec (.trapLegacy o) s = .next (i.finish (forEach (i.parts.map fun l =>
        (l, 2 ^ 32 * (src32 s.reading i l o.a).toNat + (src32 s.reading i l o.b).toNat)) s.reading fun b x =>
      b.takeTrap i.t i.g x.1 { cause := .legacy, info := x.2 }) [] false none)) ∧
  (∀ o s i, Issues s o { src := [(o.a, 1)] } i → s.attached i.t = false ∨ (s.team i.t).kind = .porter →
    exec (.bkpt o) s = .next (i.finish (forEach (i.parts.map fun l => (l, (src32 s.reading i l o.a).toNat)) s.reading fun b x =>
      b.takeTrap i.t i.g x.1 { cause := .bkpt, info := x.2 }) [] false none)) ∧
  (∀ o s i, Issues s o { src := [(o.a, 1)] } i → s.attached i.t = true → (s.team i.t).kind ≠ .porter →
    let hit := i.parts.filter fun l => !(s.thread i.t i.g l).noBreak
    exec (.bkpt o) s = .next (if hit = [] then i.finish s.reading [] false none
      else s.reading.teamStop i.t 0x40 i.g (hit.map fun l => (i.g, l))))

/-- R162: a vector word at the sequencer's turn stops the stream's fetch with WRONG_STREAM, and a stream word that a group
fetched raises WRONG_STREAM on every lane of the run. R162, R342: a privileged word raises PRIVILEGE on every lane of a run that
is not the night porter's. R161: a register out of range raises ILLEGAL_OPERAND on every lane. Where it rests on the model's
choices: log 15. -/
def Obligations.RefusedWords : Prop :=
  (∀ i o s t g r, sopsOf i = some o → s.turn = .group t g → (s.group t g).run = some r →
    exec i s = .next ((s.takeTraps t g r.lanes { cause := .wrongStream }).endIssue t g r.lanes false false none)) ∧
  (∀ x o sc u f, IntForm x o sc u f → ∀ s t, s.turn = .stream t → exec x s = .next (s.streamFetchFault t { cause := .wrongStream })) ∧
  (∀ x o sc u f, IntForm x o sc u f → ∀ s t g r, s.turn = .group t g → (s.group t g).run = some r → s.accHeld t g r.lanes = false →
    ({ u with sform := sc } : Uses).inRange (s.regCount t) = false →
    exec x s = .next ((s.takeTraps t g r.lanes { cause := .illegalOperand }).endIssue t g r.lanes o.rb false none)) ∧
  (∀ o q x s t g r, s.turn = .group t g → (s.group t g).run = some r → s.accBars t g r.lanes = false → (s.team t).kind ≠ .porter →
    ∀ y ∈ [Instr.tlbiPage o x, .tlbiSpace o x, .tlbiAll o x, .rtt o, .haltt o, .gbread o q, .pkrd o, .pkwr o, .resume o,
      .resumeSkip o, .killt o, .killtG o],
    exec y s = .next ((s.takeTraps t g r.lanes { cause := .privilege }).endIssue t g r.lanes o.rb false none))

/-! ## The night porter's words -/

/-- R349, R357: RTT of the night porter ends its service. R356: RESUME, RESUME.SKIP, KILLT, KILLT.G and HALTT answer 1 for a
SEQ that names no record of the porter's launch, and else 0, and dispose of the record; RESUME.SKIP is tried again while the
word to pass must be fetched (log 33). R354: GBREAD gives the oldest unread record of the porter's launch that is not the
host's, marks it read, and answers true; with none it answers false. R355: PKRD reads a piece of a parked thread, 0 where the
SEQ names no record; PKWR writes one, and answers 1 where the SEQ names none; a selector that names nothing is illegal. Where
it rests on the model's choices: log 29, 31, 32. -/
def Obligations.PorterWords : Prop :=
  (∀ o s i, Issues s o {} i → (s.team i.t).kind = .porter →
    exec (.rtt o) s = .next (if i.parts = [] then i.finish s.reading [] true none else s.reading.porterSleep (s.team i.t).core i.t)) ∧
  (∀ o s i l ls, Issues s o (privUses o [(o.a, 1)]) i → (s.team i.t).kind = .porter → i.parts = l :: ls →
    (s.porterRecord i.t (src32 s.reading i l o.a).toNat = none →
      ∀ y ∈ [Instr.resume o, .resumeSkip o, .killt o, .killtG o, .haltt o],
        exec y s = .next (i.finish (s.reading.writeS i.t i.g o.d.toNat 1) [] false none)) ∧
    (∀ e, s.porterRecord i.t (src32 s.reading i l o.a).toNat = some e →
      let S := s.reading.writeS i.t i.g o.d.toNat 0
      let c := (s.team i.t).core
      exec (.resume o) s = .next (i.finish (S.dispose c e .resume) [] false none) ∧
      (∀ T, s.reading.skipReady e = (true, T) →
        exec (.resumeSkip o) s = .next (i.finish ((T.writeS i.t i.g o.d.toNat 0).dispose (T.team i.t).core e .skip) [] false none)) ∧
      (∀ T, s.reading.skipReady e = (false, T) → exec (.resumeSkip o) s = .next { T with turn := .later }) ∧
      exec (.killt o) s = .next (i.finish (S.dispose c e .kill) [] false none) ∧
      exec (.killtG o) s = .next (i.finish (S.dispose c e .killGroup) [] false none) ∧
      exec (.haltt o) s = .next (i.finish (S.endGrid e.launch .ended) [] false none))) ∧
  (∀ o (q : BitVec 3) s i l ls, Issues s o { src := [], sd := [(o.d.toNat, 16)], pw := [q.toNat] } i → (s.team i.t).kind = .porter →
    i.parts = l :: ls →
    let c := (s.team i.t).core
    let next := (s.core c).book.find? fun e => e.launch = (s.team i.t).launch && !e.read && !e.host
    (next = none → exec (.gbread o q) s = .next (i.finish (s.reading.addPend ⟨i.t, i.g, false, false, [], [(l, q.toNat, false)]⟩) [] false none)) ∧
    (∀ e, next = some e → exec (.gbread o q) s = .next (i.finish
      (((s.reading.updCore c fun k => { k with book := k.book.map fun x => if x.seq = e.seq then { x with read := true } else x }).addPend
        ⟨i.t, i.g, false, true, (numbered o.d.toNat (e.words.flatMap fun w => toWords 2 w.toNat)).map fun x => (0, x.1, x.2), []⟩).addPend
          ⟨i.t, i.g, false, false, [], [(l, q.toNat, true)]⟩) [] false none))) ∧
  (∀ o s i l ls, Issues s o (privUses o [(o.a, 1), (o.b, 1)]) i → (s.team i.t).kind = .porter → i.parts = l :: ls →
    let sel := (src32 s.reading i l o.b).toNat
    (0x144 ≤ sel → exec (.pkrd o) s = .next (i.faultAll s.reading { cause := .illegalOperand } false)) ∧
    (sel < 0x144 → s.porterRecord i.t (src32 s.reading i l o.a).toNat = none →
      exec (.pkrd o) s = .next (i.finish (s.reading.scalPend i o.d.toNat 1 0) [] false none)) ∧
    (∀ e, sel < 0x144 → s.porterRecord i.t (src32 s.reading i l o.a).toNat = some e → s.selOk e sel = true →
      exec (.pkrd o) s = .next (i.finish (s.reading.scalPend i o.d.toNat 1 (s.peekSel e sel)) [] false none))) ∧
  (∀ o s i l ls, Issues s o (privUses o [(o.a, 1), (o.b, 1), (o.c, 1)]) i → (s.team i.t).kind = .porter → i.parts = l :: ls →
    let sel := (src32 s.reading i l o.b).toNat
    (sel < 0x144 → s.porterRecord i.t (src32 s.reading i l o.a).toNat = none →
      exec (.pkwr o) s = .next (i.finish (s.reading.writeS i.t i.g o.d.toNat 1) [] false none)) ∧
    (∀ e S, sel < 0x144 → s.porterRecord i.t (src32 s.reading i l o.a).toNat = some e → s.selOk e sel = true →
      s.reading.patchSel e sel (src32 s.reading i l o.c) = some S →
      exec (.pkwr o) s = .next (i.finish (S.writeS i.t i.g o.d.toNat 0) [] false none)) ∧
    (∀ e, sel < 0x144 → s.porterRecord i.t (src32 s.reading i l o.a).toNat = some e → s.selOk e sel = true →
      s.reading.patchSel e sel (src32 s.reading i l o.c) = none →
      exec (.pkwr o) s = .next (i.faultAll s.reading { cause := .illegalOperand } false)))

/-! ## Graphics, textures and copies -/

/-- R313, R314: the mesh words act for a mesh group: MSVTX writes words of a vertex of the team's output, MSPRIM a primitive,
MSCOUNT the group's counts; a word index beyond the vertex is illegal, and a vertex, a primitive or a count beyond the draw's
limits is the draw's overflow, which traps under MOVF = 1 and else is counted, drops the write and clamps the counts. In a
group of another kind they raise ILLEGAL_OPERAND on every participant. R327, R328: FRAGEXP, FRAGEXP.Z and FRAGKILL of a
fragment team record each participant's colour, depth or discard; a colour target or a depth export that the draw does not
have is illegal; ROCBEG waits for the thread's turn at its pixel, ROCEND ends its section. Where it rests on the model's
choices: log 79, 84. -/
def Obligations.GraphicsWords : Prop :=
  (∀ o s i l, Issues s o { src := [(o.a, 1), (o.b, 1), (o.c, 1)] } i → (s.team i.t).kind = .mesh → i.parts = [l] →
    let v := (src32 s.reading i l o.b).toNat
    let w := (src32 s.reading i l o.c).toNat
    w < 4 + rsAttrs (s.rsOf i.t) → v < rsMaxV (s.rsOf i.t) →
    exec (.msvtx o) s = .next (i.finish (s.reading.updMesh i.t fun m =>
      { m with verts := amapInsert m.verts (36 * v + w) (src32 s.reading i l o.a) }) [] false none)) ∧
  (∀ o s i l, Issues s o { src := [(o.a, 4), (o.b, 1), (o.c, 1)] } i → (s.team i.t).kind = .mesh → i.parts = [l] →
    let v := (src32 s.reading i l o.b).toNat
    let w := (src32 s.reading i l o.c).toNat
    w % 4 = 0 → w + 4 ≤ 4 + rsAttrs (s.rsOf i.t) → v < rsMaxV (s.rsOf i.t) →
    exec (.msvtxB128 o) s = .next (i.finish (s.reading.updMesh i.t fun m => { m with
      verts := (numbered (36 * v + w) (src128 s.reading i l o.a)).foldl (fun m x => amapInsert m x.1 x.2) m.verts }) [] false none)) ∧
  (∀ o s i l, Issues s o { src := [(o.a, 1), (o.b, 1)] } i → (s.team i.t).kind = .mesh → i.parts = [l] →
    (src32 s.reading i l o.b).toNat < rsMaxP (s.rsOf i.t) →
    exec (.msprim o) s = .next (i.finish (s.reading.updMesh i.t fun m =>
      { m with prims := amapInsert m.prims (src32 s.reading i l o.b).toNat ((src32 s.reading i l o.a).setWidth 25) }) [] false none)) ∧
  (∀ o s i l ls, Issues s o { src := [(o.a, 1), (o.b, 1)] } i → (s.team i.t).kind = .mesh → i.parts = l :: ls →
    (src32 s.reading i l o.a).toNat ≤ rsMaxV (s.rsOf i.t) → (src32 s.reading i l o.b).toNat ≤ rsMaxP (s.rsOf i.t) →
    exec (.mscount o) s = .next (i.finish (s.reading.updMesh i.t fun m => { m with
      counts := amapInsert m.counts i.g ((src32 s.reading i l o.a).toNat, (src32 s.reading i l o.b).toNat) }) [] false none)) ∧
  (∀ o s i l, (s.team i.t).kind = .mesh → i.parts = [l] →
    let v := (src32 s.reading i l o.b).toNat
    let w := (src32 s.reading i l o.c).toNat
    let illegal : Out := .next (i.finish (s.reading.takeTrap i.t i.g l { cause := .illegalOperand }) [] false none)
    let overflow : Out := .next (i.finish (if rsField (s.rsOf i.t) 0x18 41 41 = 1 then s.reading.takeTrap i.t i.g l { cause := .meshOverflow }
      else s.reading.meshOver (s.team i.t).launch) [] false none)
    (Issues s o { src := [(o.a, 1), (o.b, 1), (o.c, 1)] } i →
      (4 + rsAttrs (s.rsOf i.t) ≤ w → exec (.msvtx o) s = illegal) ∧
      (w < 4 + rsAttrs (s.rsOf i.t) → rsMaxV (s.rsOf i.t) ≤ v → exec (.msvtx o) s = overflow)) ∧
    (Issues s o { src := [(o.a, 4), (o.b, 1), (o.c, 1)] } i →
      (w % 4 ≠ 0 ∨ 4 + rsAttrs (s.rsOf i.t) < w + 4 → exec (.msvtxB128 o) s = illegal) ∧
      (w % 4 = 0 → w + 4 ≤ 4 + rsAttrs (s.rsOf i.t) → rsMaxV (s.rsOf i.t) ≤ v → exec (.msvtxB128 o) s = overflow)) ∧
    (Issues s o { src := [(o.a, 1), (o.b, 1)] } i → rsMaxP (s.rsOf i.t) ≤ v → exec (.msprim o) s = overflow)) ∧
  (∀ o s i l ls, Issues s o { src := [(o.a, 1), (o.b, 1)] } i → (s.team i.t).kind = .mesh → i.parts = l :: ls →
    let nv := (src32 s.reading i l o.a).toNat
    let np := (src32 s.reading i l o.b).toNat
    (rsMaxV (s.rsOf i.t) < nv ∨ rsMaxP (s.rsOf i.t) < np) →
    exec (.mscount o) s = .next (if rsField (s.rsOf i.t) 0x18 41 41 = 1 then i.faultAll s.reading { cause := .meshOverflow } false else
      i.finish ((s.reading.meshOver (s.team i.t).launch).updMesh i.t fun m => { m with
        counts := amapInsert m.counts i.g (min nv (rsMaxV (s.rsOf i.t)), min np (rsMaxP (s.rsOf i.t))) }) [] false none)) ∧
  (∀ o s i, (s.team i.t).kind ≠ .mesh →
    let out : Out := .next (i.finish (s.reading.takeTraps i.t i.g i.parts { cause := .illegalOperand }) [] false none)
    (Issues s o { src := [(o.a, 1), (o.b, 1), (o.c, 1)] } i → exec (.msvtx o) s = out) ∧
    (Issues s o { src := [(o.a, 4), (o.b, 1), (o.c, 1)] } i → exec (.msvtxB128 o) s = out) ∧
    (Issues s o { src := [(o.a, 1), (o.b, 1)] } i → exec (.msprim o) s = out ∧ exec (.mscount o) s = out)) ∧
  (∀ o s i k, Issues s o { src := [(o.a, 4)] } i → (s.team i.t).kind = .fragment → o.b = .imm k →
    exec (.fragexp o) s = .next (i.finish (if k.toNat < rsNcol (s.rsOf i.t) then forEach i.parts s.reading fun s l =>
        s.updExport i.t l fun e => { e with colour := amapInsert e.colour k.toNat (src128 s i l o.a) }
      else s.reading.takeTraps i.t i.g i.parts { cause := .illegalOperand }) [] false none)) ∧
  (∀ o s i, Issues s o { src := [(o.a, 1)] } i → (s.team i.t).kind = .fragment →
    exec (.fragexpZ o) s = .next (i.finish (if rsField (s.rsOf i.t) 0x18 46 46 = 0
      then s.reading.takeTraps i.t i.g i.parts { cause := .illegalOperand }
      else forEach i.parts s.reading fun s l => s.updExport i.t l fun e => { e with z := some (src32 s i l o.a) }) [] false none)) ∧
  (∀ o s i, Issues s o {} i → (s.team i.t).kind = .fragment →
    exec (.fragkill o) s = .next (i.finish (forEach i.parts s.reading fun s l => s.updExport i.t l fun e => { e with killed := true }) [] false none) ∧
    ((∀ l ∈ i.parts, (s.thread i.t i.g l).sect.isOpen = false) → exec (.rocbeg o) s = .next (i.finishWait s.reading i.parts .roc)) ∧
    exec (.rocend o) s = .next (i.finish (forEach i.parts s.reading fun s l => s.updThread i.t i.g l fun th =>
      { th with sect := if th.sect.isOpen then .ended else th.sect }) [] false none))

/-- R325, R326: INTERP queues for each participant of a fragment team the value of a slot that exists; DERIV.X and DERIV.Y, once
the lanes of the participants' quads have come, the difference across the quad, and raise its flags. No register is written yet.
Where it rests on the model's choices: log 85. -/
def Obligations.QuadWords : Prop :=
  (∀ o mode cen s i (f : Nat → Flight) (x : Nat → Nat), Issues s o { src := [(o.a, 1)], vd := [(o.d.toNat, 1)] } i → i.parts ≠ [] →
    (∀ l ∈ i.parts, s.laneFlight i.t l = some (f l) ∧
      interpSlot (s.rsOf i.t) (f l).quad (l % 4) mode cen (src32 s.reading i l o.a).toNat = some (x l)) →
    ∃ s', exec (.interp o mode cen) s = .next s' ∧
      Still s (s.reading.addPend ⟨i.t, i.g, true, false, i.parts.map fun l => (l, o.d.toNat, BitVec.ofNat 32 (x l)), []⟩) s' i) ∧
  (∀ o fine y s i, Issues s o { src := [(o.a, 1)], vd := [(o.d.toNat, 1)] } i → i.parts ≠ [] →
    i.allThere s (i.parts.flatMap fun l => (List.range 4).map fun k => 4 * (l / 4) + k).eraseDups →
    let q (l : Nat) := quadDiff (s.thread i.t i.g l).fpm (fun k => i.parts.contains k) (fun k => src32 s.reading i k o.a) y fine l
    (∀ l ∈ i.parts, fpTrap (fpmTraps (s.thread i.t i.g l).fpm) (q l).2 = none) →
    ∃ s', exec (if y then .derivY o fine else .derivX o fine) s = .next s' ∧
      Wrote s (s.reading.addPend ⟨i.t, i.g, true, false, i.parts.map fun l => (l, o.d.toNat, (q l).1), []⟩) s' i
        fun l => { fpm := some (fpmRaise (s.thread i.t i.g l).fpm (q l).2) })

/-- R329, R330: a texture word whose descriptor is bad traps on every participant, and one whose base is no multiple of 128
raises MISALIGNED; else each participant's texels are read in lane order. Of one participant whose texels lie in L1, or in the
border, the words of the filtered result are on their way. TEXQ queues the dimensions of each participant's level. Where it
rests on the model's choices: log 86, 87, 88. -/
def Obligations.TextureWords : Prop :=
  (∀ x o n raw plan, TexForm x o n raw plan → ∀ s i,
    Issues s o { src := [(o.a, s.texWords o), (o.b, 8)] ++ (if n = 0 then [] else [(o.c, n)]), vd := [(o.d.toNat, 4)] } i → i.parts ≠ [] →
    let d := s.descOf i.t i.g o.b
    (d.bad = true ∨ (d.fmt = 8 ∧ raw = false) → exec x s = .next (i.finish (s.reading.takeTraps i.t i.g i.parts { cause := .illegalOperand }) [] false none)) ∧
    (d.bad = false → (d.fmt = 8 → raw = true) → d.base % 128 ≠ 0 →
      exec x s = .next (i.finish (s.reading.takeTraps i.t i.g i.parts { cause := .misaligned, addr := d.base }) [] false none)) ∧
    (d.bad = false → (d.fmt = 8 → raw = true) → d.base % 128 = 0 →
      let r := memLanes i (fun b l => texLane d (plan s.reading i d l) i b l) i.parts { s.reading with free := s.reading.free + 256 }
      exec x s = .next (memFinish i r.2 r.1 [] []))) ∧
  (∀ o s i, Issues s o { src := [(o.a, 1), (o.b, 8)], vd := [(o.d.toNat, 4)] } i → i.parts ≠ [] → (s.descOf i.t i.g o.b).bad = false →
    let d := s.descOf i.t i.g o.b
    ∃ s', exec (.texq o) s = .next s' ∧ Still s (s.reading.addPend ⟨i.t, i.g, false, false, i.parts.flatMap fun l =>
      let k := (src32 s.reading i l o.a).toNat
      (numbered o.d.toNat ((if d.levels ≤ k then [0, 0, 0, 0] else [d.lw k, d.lh k, d.ld k, d.levels]).map (BitVec.ofNat 32))).map
        fun x => (l, x.1, x.2), []⟩) s' i) ∧
  (∀ x o n raw plan, TexForm x o n raw plan → ∀ s i l (v : Nat → Nat),
    Issues s o { src := [(o.a, s.texWords o), (o.b, 8)] ++ (if n = 0 then [] else [(o.c, n)]), vd := [(o.d.toNat, 4)] } i → i.parts = [l] →
    s.stopping i.t = false → let d := s.descOf i.t i.g o.b
    d.bad = false → (d.fmt = 8 → raw = true) → d.base % 128 = 0 → let p := plan s.reading i d l
    (∀ q ∈ p.texels, ∀ a, q.2 = some a → TexelHit s i d.bpp a (v a)) →
    let border := p.texels.foldl (fun n x => if x.2.isNone then n + x.1 else n) 0
    let texels := p.texels.filterMap fun x => x.2.map fun a => (x.1, some (v a))
    let op : TexOp := ⟨s.uid, (s.thread i.t i.g l).pc, d.fmt, p.raw, d.border, p.den, border, texels, none⟩
    ∃ T, exec x s = .next (i.finish T [] false none) ∧ .ins (.loadResultLand s.uid) ∈ T.later ∧
      amapFind? T.pends s.uid = some ⟨i.t, i.g, false, false,
        ((numbered o.d.toNat (List.replicate 4 (0 : Word))).zip op.result).map fun y => (l, y.1.1, y.2), []⟩)

/-- R276, R289: a gather or scatter by a group without the copy role traps on every participant; where its channel or the
engine is full, or its template must be waited for, it is tried again; one whose template cannot be read, or is not sound or
of its kind, traps on every participant; else it issues a copy of the participants whose rows check, and each of the others
traps with its row's cause. R290: CPWAIT goes on where every bit of its mask is set in the bitmap, as an acquire where their
copies were of cluster scope or wider, and else waits; CPTEST writes whether they are, where they are as the same acquire;
CPCLR clears them; CPSRCW goes on where the channel's count of released copies has reached its operand, and else waits. A
bitmap above 15 or a channel above 7 traps on every participant. Where it rests on the model's choices: log 53, 55, 113. -/
def Obligations.CopyWords : Prop :=
  (∀ gather add o ch n x s i l ls, (gather = true → add = false) → Issues s o { src := [(o.a, 1), (o.b, 1)] } i → i.parts = l :: ls →
     let run := exec (if gather then .cpgather o ch n x else if add then .cpscatterAdd o ch n x else .cpscatter o ch n x) s
     ((s.group i.t i.g).roleC = false → run = .next (i.finish (s.reading.takeTraps i.t i.g i.parts { cause := .apertureRole }) [] false none)) ∧
     ((s.group i.t i.g).roleC = true → s.copyRoom (s.team i.t).core ch.toNat = false → run = .next { s.reading with turn := .later }) ∧
     ((s.group i.t i.g).roleC = true → s.copyRoom (s.team i.t).core ch.toNat = true → ∀ Y S, s.reading.template i.t n.toNat = (Y, S) →
       (Y = none → run = .next { S with turn := .later }) ∧
       (∀ tr, Y = some (.inr tr) → run = .next (i.finish ((S.templatesDone i.t [n.toNat]).takeTraps i.t i.g i.parts tr) [] false none)) ∧
       (∀ y, Y = some (.inl y) →
         let unfit := tmplBad y || tmplKind y ≠ (if add then 2 else 0) || tmplDim y 1 ≠ 1 || tmplDim y 2 ≠ 1 || !tmplBen y
         let mk (rows : List (Nat × Int)) : Copy :=
           { team := i.t, gix := i.g, lane := l, pc := s.pcOffset i.t (s.thread i.t i.g l).pc, ch := ch.toNat, tmpl := y,
             iter := (BitVec.ofNat 26 (src32 S i l o.b).toNat).toInt, gather := gather, scatter := !gather, rows := rows }
         let rows := i.parts.map fun l => (l, (src32 S i l o.a).toInt)
         let good := rows.filter fun r => (S.copyCheck (mk [r])).isNone
         let T := forEach (rows.filterMap fun r => (S.copyCheck (mk [r])).map fun tr => (r.1, tr)) S fun s b => s.takeTrap i.t i.g b.1 b.2
         (unfit = true → run = .next (i.finish (S.takeTraps i.t i.g i.parts { cause := .illegalOperand }) [] false none)) ∧
         (unfit = false → run = .next (i.finish (if good.isEmpty then T else T.copyIssue (mk good)) [] false none)) ∧
         (unfit = false → (∀ r ∈ rows, S.copyCheck (mk [r]) = none) → run = .next (i.finish (S.copyIssue (mk rows)) [] false none))))) ∧
  (∀ o p x s i l ls, i.parts = l :: ls →
    let k := (cpMask s.reading i l p).1
    let m := (cpMask s.reading i l p).2
    (Issues s o (cpUses o p) i → 16 ≤ k →
      exec (.cpwait o p x) s = .next (i.finish (s.reading.takeTraps i.t i.g i.parts { cause := .illegalOperand }) [] true none) ∧
      exec (.cpclr o p x) s = .next (i.finish (s.reading.takeTraps i.t i.g i.parts { cause := .illegalOperand }) [] false none)) ∧
    (Issues s o (cpUses o p) i → k < 16 →
      exec (.cpwait o p x) s = .next (if s.bitsSet i.t k m then i.finish (s.reading.cpAcquire i.t k m) [] true none else i.finishWait s.reading i.parts (.copies k m)) ∧
      exec (.cpclr o p x) s = .next (i.finish (s.reading.updTeam i.t fun tm =>
        { tm with bmaps := amapInsert tm.bmaps k (amapGet 0 tm.bmaps k &&& ~~~ m) }) [] false none)) ∧
    (Issues s o { cpUses o p with pw := [o.d.toNat] } i → 16 ≤ k →
      exec (.cptest o p x) s = .next (i.finish (s.reading.takeTraps i.t i.g i.parts { cause := .illegalOperand }) [] false none)) ∧
    (Issues s o { cpUses o p with pw := [o.d.toNat] } i → k < 16 → ∃ s', exec (.cptest o p x) s = .next s' ∧
      (Wrote s (if s.bitsSet i.t k m then s.reading.cpAcquire i.t k m else s.reading) s' i fun _ => resP o.d (s.bitsSet i.t k m)) ∧
      Latched s' i none)) ∧
  (∀ o x s i l ls, Issues s o (cpUses o false) i → i.parts = l :: ls →
    let k := (src32 s.reading i l o.a).toNat
    let n := src32 s.reading i l o.b
    (8 ≤ k → exec (.cpsrcw o x) s = .next (i.finish (s.reading.takeTraps i.t i.g i.parts { cause := .illegalOperand }) [] true none)) ∧
    (k < 8 → exec (.cpsrcw o x) s = .next
      (if s.sourceFree i.t k n then i.finish s.reading [] true none else i.finishWait s.reading i.parts (.source k n))))

/-! ## The matrix stream -/

/-- R262: MPUT of one participant, in a team that has a matrix stream, writes its words at byte B + lane times the width of m
register D, and else traps where they would not fit. R248, R249: a command of the stream captures its k registers and takes
its place at the end of the window, with the predecessors that it names, each the newest command of that identifier, and is
the newest of the last 63; the sequencer goes on past it and changes no register of the stream. One that names a predecessor
that is not among the last 63 commands faults. Where it rests on the model's choices: log 57, 59. -/
def Obligations.StreamCommands : Prop :=
  (∀ o w s i l, Issues s o { src := [(o.a, w3Bytes w / 4), (o.b, 1)] } i → i.parts = [l] → (s.team i.t).stream ≠ none →
     let n := w3Bytes w
     let off := (src32 s.reading i l o.b).toNat + l * n
     exec (.mput o w) s = .next (i.finish (if off % n ≠ 0 ∨ 512 < off + n then s.reading.takeTrap i.t i.g l { cause := .illegalOperand }
       else s.reading.updStream i.t fun st => { st with
         m := amapInsert st.m o.d.toNat (tilePut (amapGet 0 st.m o.d.toNat) 0 (off / n) n (srcData s.reading i l o.a (n / 4))) }) [] false none)) ∧
  (∀ (o : SOps) (int scl satf view : Bool) (b e : BitVec 3), ∀ x ∈ [Instr.mld o, .mldV o satf, .mma o view b satf, .mmq o view b satf,
     .mmqP o view b satf, .mmi o view b satf, .mclr o int, .mst o b e scl satf, .mstV o b e scl satf, .mbar o, .mbw o, .mnop o],
     ∀ s t st, s.turn = .stream t → (s.team t).stream = some st →
     let known (v : Bool) (p : BitVec 6) : Prop := v = true → ∃ h ∈ st.history, h.1 = p.toNat
     ∃ (c : Cmd) (st' : Stream),
       c.seq = st.nextSeq ∧ c.cid = o.cid.toNat ∧ c.instr = x ∧ c.pc = st.pc ∧ c.ka = amapGet 0 st.k (srcIx o.a) ∧
       c.kb = amapGet 0 st.k (srcIx o.b) ∧ c.kc = amapGet 0 st.k (srcIx o.c) ∧ c.kc1 = amapGet 0 st.k (srcIx o.c + 1) ∧
       st'.pc = (st.pc + 16) % 2 ^ 64 ∧ st'.window = st.window ++ [c] ∧ st'.nextSeq = st.nextSeq + 1 ∧
       st'.history = (c.cid, c.seq) :: st.history.take 62 ∧
       c.preds = ((if o.v0 then [o.pred0] else []) ++ if o.v1 then [o.pred1] else []).filterMap (fun p =>
         (st.history.find? fun h => h.1 = p.toNat).map (·.2)) ∧
       st'.k = st.k ∧ st'.c = st.c ∧ st'.m = st.m ∧ st'.a = st.a ∧ st'.parts = st.parts ∧
       (known o.v0 o.pred0 → known o.v1 o.pred1 → exec x s = .next (((s.updStream t fun _ => st').cmdDue t c).mbwJudge t)) ∧
       (¬ (known o.v0 o.pred0 ∧ known o.v1 o.pred1) → exec x s = .next ((s.updStream t fun _ => st').cmdFault t c { cause := .illegalOperand })))

/-- R273, R274: MSET sets a k register to an immediate, its high half, an argument word or a special register; MSET.C a
counter; MADDK adds; MLOOP counts its register down and goes back while it has not run out; MJMP jumps; MEND ends the stream
once its window is empty. -/
def Obligations.StreamControl : Prop :=
  ∀ (o : SOps) s t st, s.turn = .stream t → (s.team t).stream = some st →
    let go (f : Stream) : Out := .next (s.updStream t fun _ => { f with pc := (st.pc + 16) % 2 ^ 64 })
    let kd := amapGet 0 st.k o.d.toNat
    exec (.msetImm o) s = go (st.setK o.d (o.imm.signExtend 64)) ∧
    exec (.msetHi o) s = go (st.setK o.d (o.imm ++ kd.setWidth 32)) ∧
    exec (.msetArg o) s = go (st.setK o.d ((kd >>> 32).setWidth 32 ++ (s.lr t).args.getD o.imm.toNat 0)) ∧
    exec (.msetArghi o) s = go (st.setK o.d ((s.lr t).args.getD o.imm.toNat 0 ++ kd.setWidth 32)) ∧
    exec (.msetSr o) s = go (st.setK o.d ((s.sreg t 0 0 o.imm.toNat).setWidth 64)) ∧
    exec (.msetC o) s = go { st with c := amapInsert st.c o.d.toNat ((st.kOrImm o.a o.imm).setWidth 32) } ∧
    exec (.maddk o) s = go (st.setK o.d (amapGet 0 st.k (srcIx o.a) + st.kOrImm o.b o.imm)) ∧
    (let c := amapGet 0 st.c (srcIx o.a)
     exec (.mloop o) s = .next (s.updStream t fun st => if c = 0 then { st with pc := (st.pc + 16) % 2 ^ 64 } else
      { st with c := amapInsert st.c (srcIx o.a) (c - 1), pc := if c = 1 then (st.pc + 16) % 2 ^ 64 else st.target o.imm })) ∧
    exec (.mjmp o) s = .next (s.updStream t fun st => { st with pc := st.target o.imm }) ∧
    exec (.mend o) s = .next (s.updStream t fun st => { st with ended := true, done := st.done || st.window.isEmpty })

/-! ## Events: results and waits -/

/-- R142, R224: a result on its way that lands, of long or of medium latency, writes its scalar registers, or the registers
and predicates of its lanes that are not dead, and no other register. R137, R142, R186, R235, R238, R239, R290: a set that
waits goes on once what it waits for has come, in a team whose restore, if it was pre-empted, is over (R362): the lanes of a
wait become ready, one whose BARRD failed meanwhile is parked, and no register changes. Where it rests on the model's choices:
log 17. -/
def Obligations.ResultsAndWaits : Prop :=
  (∀ s id p, amapFind? s.pends id = some p → (amapFind? s.teams p.team).isSome →
     ∃ s', exec (if p.medium then .mediumResultReady id else .loadResultLand id) s = .next s' ∧
       (∀ t g l, (s'.thread t g l).pc = (s.thread t g l).pc ∧ (s'.thread t g l).fpm = (s.thread t g l).fpm) ∧
       (p.scalar = true →
         (∀ t g n, s'.readS t g n = if t = p.team ∧ g = p.gix ∧ n ≠ 63 then (lastWrite (p.regs.map (·.2)) n).getD (s.readS t g n) else s.readS t g n) ∧
         ∀ t g l n, s'.readV t g l n = s.readV t g l n ∧ s'.readP t g l n = s.readP t g l n) ∧
       (p.scalar = false →
         (∀ t g n, s'.readS t g n = s.readS t g n) ∧
         (∀ t g l n, s'.readV t g l n = if t = p.team ∧ g = p.gix ∧ (s.thread t g l).stat ≠ .dead
           then (lastWrite ((p.regs.filter (·.1 = l)).map (·.2)) n).getD (s.readV t g l n) else s.readV t g l n) ∧
         ∀ t g l n, s'.readP t g l n = if t = p.team ∧ g = p.gix ∧ (s.thread t g l).stat ≠ .dead ∧ n < 7
           then (lastWrite ((p.preds.filter (·.1 = l)).map (·.2)) n).getD (s.readP t g l n) else s.readP t g l n)) ∧
  (∀ s t g w wt, amapFind? (s.group t g).waits w = some wt → (amapFind? s.teams t).isSome →
    SameRegs s (s.endWait t g w) ∧ ∀ l ∈ wt.lanes, (s.thread t g l).stat = .waiting w → (s.hasLane t g l) = true →
      ((s.endWait t g w).thread t g l).stat = if (s.thread t g l).pend.isSome then .parked else .ready) ∧
  (∀ (s : State) t g w ls pc, s.waitOf t g w = some ⟨ls, .parity pc []⟩ →
    exec (.barrierWaitComplete t g w) s = .next (s.endWait t g w)) ∧
  (∀ (s : State) t g w ls b m, s.waitOf t g w = some ⟨ls, .copies b m⟩ → m &&& ~~~ amapGet 0 (s.team t).bmaps b = 0 →
    exec (.cpwaitComplete t g w) s = .next ((if m &&& amapGet 0 (s.team t).wideBits b = 0 then s
      else s.regionEnd (s.team t).core false).endWait t g w)) ∧
  (∀ (s : State) t g w ls ch (n : Word), s.waitOf t g w = some ⟨ls, .source ch n⟩ →
    0 ≤ (amapGet 0 (s.team t).released ch - n).toInt → exec (.cpsrcwComplete t g w) s = .next (s.endWait t g w)) ∧
  (∀ (s : State) t g w ls u, s.waitOf t g w = some ⟨ls, .pause u⟩ → u ≤ s.cclk →
    exec (.pauseExpiry t g w) s = .next (s.endWait t g w)) ∧
  (∀ (s : State) t g w ls ids, s.waitOf t g w = some ⟨ls, .sync ids⟩ ∨ s.waitOf t g w = some ⟨ls, .loads ids⟩ →
    (∀ k ∈ ids, amapFind? s.accs k = none) → exec (.syncAccessComplete t g w) s = .next (s.endWait t g w)) ∧
  (∀ (s : State) t g w ls as cs fs p q, s.waitOf t g w = some ⟨ls, .fencex as cs fs p q⟩ → (∀ k ∈ as, amapFind? s.accs k = none) →
    (∀ k ∈ cs, ∀ c, amapFind? s.copies k = some c → c.reported = true) → (∀ k ∈ fs, amapFind? s.flights k = none) →
    exec (.syncAccessComplete t g w) s = .next ((s.fencexDone t p q).endWait t g w)) ∧
  (∀ (s : State) t g w ls sp k r, s.waitOf t g w = some ⟨ls, .rowOpen sp k⟩ → s.row? sp k = some r → r.state = .opening →
    exec (.rowOpenComplete t g w) s = .next ((s.setRow sp k { r with state := .open_ }).endWait t g w)) ∧
  (∀ (s : State) t g w ls, s.waitOf t g w = some ⟨ls, .presence []⟩ →
    exec (.presenceWaitComplete t g w) s = .next (s.endWait t g w)) ∧
  (∀ (s : State) t g w ls k a, s.waitOf t g w = some ⟨ls, .presence [k]⟩ → amapFind? s.accs k = some a →
    s.present (s.scrTarget t a.va).1 (s.scrTarget t a.va).2 = true →
    exec (.presenceWaitComplete t g w) s = .next (
      let S := (if (s.pad (s.scrTarget t a.va).1).wideLines.contains ((s.scrTarget t a.va).2 / 128) then s.regionEnd (s.team t).core false
        else s).endWait t g w
      let y := S.scrTarget t a.va
      if (S.scrRead y.1 y.2 a.n).2 then S.failAcc k a { cause := .poison, addr := a.va } else S.finishAcc k a (S.scrRead y.1 y.2 a.n).1)) ∧
  (∀ s t g l, (s.group t g).convSet ≠ [] → (amapFind? s.teams t).isSome → l ∈ (s.group t g).convSet → s.hasLane t g l = true →
    ∃ s', exec (.convRelease t g) s = .next s' ∧ SameRegs s s' ∧
      (s'.thread t g l).stat = if (s.thread t g l).pend.isSome then .parked else .ready) ∧
  (∀ s t k d, amapFind? (s.team t).deferred k = some d → (s.team t).restore = false → (∀ c ∈ d.copies, amapFind? s.copies c = none) →
    exec (.barrdArrivalPerform t k) s = .next ((s.updTeam t fun tm => { tm with deferred := amapErase tm.deferred k }).barrdPerform t d))

/-! ## Events: coherence -/

/-- R80, R82, R84, R87: FILL at a home that serves the line answers it with FILLD, or asks a sole sharer for its masks with
MPROBE first; MPROBE is answered with MREP, after which the fill that waited is answered; FILLD fills the line, or installs it
where it is absent, and serves the access and those that wait with it; FILLD with RACE fails the access. INTENT is answered with
GRANT, or RNACK where it races, after every other sharer's MARKR; GRANT performs the store; RNACK raises RACE on it and nothing
is written; MARK marks the bytes foreign, and is answered with MARKR. A request for a busy line waits at the home. Where it
rests on the model's choices: log 47, 111, 112. -/
def Obligations.FillsAndIntents : Prop :=
  (∀ s core line bytes acc a, amapFind? s.accs acc = some a → s.lineBusy line = true →
    exec (.fill core line bytes acc) s = .next { s with homeWait := s.homeWait ++ [(line, .fill core line bytes acc)] } ∧
    ∀ e, exec (.intent core line bytes e acc) s = .next { s with homeWait := s.homeWait ++ [(line, .intent core line bytes e acc)] }) ∧
  (∀ s core line bytes acc a, amapFind? s.accs acc = some a → s.lineBusy line = false →
    let S := s.l2Fetch line a.key
    S.demoted line = false → (S.l2At line).sharers = [] →
    exec (.fill core line bytes acc) s = .next (let race := bytes != 0 && S.raceAt line core bytes false
      let T := if race then S else S.updL2 line fun l => { l with sharers := core :: l.sharers.filter (· ≠ core) }
      (T.send (.filld core line (S.l2At line).data (S.l2At line).poison (T.foreignBytes line core) true race acc)).demoteIfDue line) ∧
    ∀ e, a.op.isAtom = false → amapFind? S.accs acc = some a → exec (.intent core line bytes e acc) s = .next (
      if S.raceAt line core bytes true then (S.send (.rnack core line acc)).demoteIfDue line
      else ((S.maskPut line core none (some ⟨e, 0, bytes⟩)).send (.grant core line acc)).demoteIfDue line)) ∧
  (∀ s core line bytes acc a c, amapFind? s.accs acc = some a → s.lineBusy line = false → c ≠ core →
    let S := s.l2Fetch line a.key
    S.demoted line = false → (S.l2At line).sharers = [c] →
    exec (.fill core line bytes acc) s = .next ((S.addTxn (.fill line core bytes acc [c])).send (.mprobe c line)) ∧
    ∀ e, exec (.intent core line bytes e acc) s = .next ((S.addTxn (.intent line core bytes e acc [c])).send (.mark c line bytes))) ∧
  (∀ (s : State) core line, (s.core core).l1Tracked line = none →
    exec (.mprobe core line) s = .next (s.send (.mrep core line none none)) ∧
    ∀ bytes, exec (.mark core line bytes) s = .next (s.send (.markr core line none none))) ∧
  (∀ (s : State) core line l, (s.core core).l1Tracked line = some l → ∃ S : State, exec (.mprobe core line) s = .next (S.send (.mrep core line l.g0 l.g1)) ∧
    ∀ bytes, ∃ S : State, exec (.mark core line bytes) s = .next (S.send (.markr core line l.g0 l.g1)) ∧
      ∀ x ∈ (S.core core).l1, x.pline = line → x.sole = false ∧ bytes &&& ~~~ x.fd = 0) ∧
  (∀ s core line g0 g1, (∀ t ∈ (s.maskPut line core g0 g1).txns, ∀ c b a w, t ≠ .fill line c b a w) →
    exec (.mrep core line g0 g1) s = .next ((s.maskPut line core g0 g1).demoteIfDue line)) ∧
  (∀ s core line g0 g1 c b acc, (s.maskPut line core g0 g1).txns = [.fill line c b acc [core]] →
    exec (.mrep core line g0 g1) s =
      .next ((({ s.maskPut line core g0 g1 with txns := [] } : State).homeWake line).fillAnswer c line b acc)) ∧
  (∀ s core line g0 g1, (∀ t ∈ (s.maskPut line core g0 g1).txns, ∀ c b e a w, t ≠ .intent line c b e a w) →
    exec (.markr core line g0 g1) s = .next ((s.maskPut line core g0 g1).demoteIfDue line)) ∧
  (∀ s core line g0 g1 c b e acc, (s.maskPut line core g0 g1).txns = [.intent line c b e acc [core]] →
    exec (.markr core line g0 g1) s =
      .next ((({ s.maskPut line core g0 g1 with txns := [] } : State).homeWake line).intentAnswer c line b e acc)) ∧
  (∀ s core line data poison fd sole acc a, s.accs = [(acc, a)] →
    let S : State := { s with accs := [(acc, { a with filling := false })] }
    exec (.filld core line data poison fd sole true acc) s =
      .next (S.failAcc acc { a with filling := false } { cause := .race, addr := a.va }) ∧
    exec (.rnack core line acc) s = .next (s.failAcc acc a { cause := .race, addr := a.va })) ∧
  (∀ s core line data poison fd sole acc a, s.accs = [(acc, a)] → a.once = true → a.op.isStore = false →
    poison.getLsbD (a.pa % 128 / 64) = false →
    exec (.filld core line data poison fd sole false acc) s =
      .next (({ s with accs := [(acc, { a with filling := false })] } : State).finishAcc acc { a with filling := false } (lineRead data (a.va % 128) a.n))) ∧
  (∀ s core line data poison fd sole acc a, s.accs = [(acc, a)] → a.once = false →
    let S : State := { s with accs := [(acc, { a with filling := false })] }
    (∀ L, (s.core core).l1Tracked line = some L → exec (.filld core line data poison fd sole false acc) s =
      .next ((S.l1Put core { (L.fill data poison fd) with sole := sole }).fillDone acc { a with filling := false } line)) ∧
    ((s.core core).l1Tracked line = none → exec (.filld core line data poison fd sole false acc) s =
      .next (let L : L1Line := { space := a.space, vline := a.va / 128, pline := line, cls := .tracked, key := a.key, data := data, bv := BitVec.allOnes 128, dm := 0, fd := fd, sole := sole, w := a.lw, poison := poison }
        (((S.l1Oust core line).l1Room core (a.va / 128)).l1Put core L).fillDone acc { a with filling := false } line))) ∧
  (∀ s core line acc a, amapFind? s.accs acc = some a →
    ((s.core core).l1Tracked line = none → exec (.grant core line acc) s = .next (s.startFill acc a)) ∧
    ∀ l, (s.core core).l1Tracked line = some l → exec (.grant core line acc) s = .next ((s.l1StoreHit a l true).finishAcc acc a 0))

/-- R77, R82, R83, R87: WB merges its marked bytes at the home and is acknowledged; RECALL and DARN make a core write back; INV
makes clean bytes invalid and is acknowledged; a stale DARN is answered as such, and a published epoch at once; PUBLISH advances
the slice's PUB, and after the last PUBACK the acquires that waited are answered. Where it rests on the model's choices: log 48.
-/
def Obligations.WriteBacksAndDarnings : Prop :=
  (∀ s core line key data poison dm g0 g1 why,
    let S := ((s.mergeLine { space := 0, vline := 0, pline := line, cls := .tracked, key := key, data := data, bv := dm,
                             dm := dm, poison := poison }).maskPut line core g0 g1)
    (why = .plain ∨ why = .recall → exec (.wb core line key data poison dm g0 g1 why) s =
      .next (((S.send (.wback core line why)).recallServed core line).demoteIfDue line)) ∧
    ∀ a e y, why = .darn a e y →
      ((a = core ∨ (S.l2At line).sharers.contains a = false) → exec (.wb core line key data poison dm g0 g1 why) s =
        .next ((S.send (.wback core line why)).demoteIfDue line)) ∧
      (a ≠ core → (S.l2At line).sharers.contains a = true → exec (.wb core line key data poison dm g0 g1 why) s =
        .next ((S.addTxn (.inval line a core why)).send (.inv a line dm)))) ∧
  (∀ s core line, exec (.wback core line .plain) s = .next s ∧ exec (.wback core line .recall) s = .next s) ∧
  (∀ s core line a e y, exec (.wback core line (.darn a e y)) s =
    .next ((s.updCore core fun k => { k with outWb := k.outWb - 1 }).darnAcks core)) ∧
  (∀ s core line, let S := s.overtake core line
    ((S.core core).l1Tracked line = none → exec (.recall core line) s = .next (S.send (.wb core line 0 0 0 0 none none .recall))) ∧
    ∀ l, (S.core core).l1Tracked line = some l →
      exec (.recall core line) s = .next ((S.l1Drop core l).send (.wb core line l.key l.data l.poison l.dm l.g0 l.g1 .recall))) ∧
  (∀ s core e acq y, ((s.core core).epoch ≤ e → exec (.darn core e acq y) s = .next (s.send (.darnack core e true y))) ∧
    (e < (s.core core).epoch → e ≤ s.pubOf (homeOf y) core → exec (.darn core e acq y) s = .next (s.send (.darnack core e false y))) ∧
    (e < (s.core core).epoch → s.pubOf (homeOf y) core < e →
      let owed := (s.core core).l1.filter fun l => l.cls = .tracked && s.darnBytes core e l != 0
      (owed = [] → exec (.darn core e acq y) s =
        .next ((s.updCore core fun k => { k with darns := k.darns ++ [(e, acq, y)] }).darnAcks core)) ∧
      ∀ l, owed = [l] → let m := s.darnBytes core e l
        exec (.darn core e acq y) s = .next ((((s.l1Each core fun x => some (if x.is l.space l.vline then x.darned e m else x)).send
          (.wb core l.pline l.key l.data l.poison m l.g0 l.g1 (.darn acq e y))).updCore core fun k =>
            { k with outWb := k.outWb + 1, darns := k.darns ++ [(e, acq, y)] }).darnAcks core))) ∧
  (∀ s core y e accs, s.txns = [.darn y core e accs] →
    exec (.darnack core e true y) s = .next (({ s with txns := [], homeRec := amapSet (0, 0) s.homeRec y (core, 0) } : State).replyAll accs) ∧
    ∃ S : State, exec (.darnack core e false y) s = .next S ∧ S.txns = [.publish core e y (List.range 192) accs] ∧
      ∀ k < 192, Instr.publish k core e y ∈ S.msgs) ∧
  (∀ s core line bytes, exec (.inv core line bytes) s = .next (((s.overtake core line).l1Inv core line bytes).send (.invack core line))) ∧
  (∀ s core line c why, s.txns = [.inval line core c why] →
    exec (.invack core line) s = .next (((({ s with txns := [] } : State).homeWake line).send (.wback c line why)).demoteIfDue line)) ∧
  (∀ s k core e y, exec (.publish k core e y) s = .next (((s.setPub k core e).purgeMasks k).send (.puback k core e y))) ∧
  (∀ s k core e y w accs, s.txns = [.publish core e y w accs] → k ∈ w → exec (.puback k core e y) s =
    .next (if w.filter (· ≠ k) = [] then ({ s with txns := [] } : State).replyAll accs
      else { s with txns := [.publish core e y (w.filter (· ≠ k)) accs] }))

/-- R36, R37, R82, R84, R86: an access hopped to the home of a HOME word is served there; of a REPL word from its die's
replica, once no store to the line is pending; of a TRACKED word whose line is demoted at the home, where it fails if it
races, and else it misses again. HOPR completes it with its value, an acquire taking effect first. A store to REPL is
forwarded to both replicas, which acknowledge, the first of the two commits writes device memory too, and the store completes
when both have committed. Where it rests on the model's choices: log 108, 112, 120. -/
def Obligations.HopsAndReplicas : Prop :=
  (∀ s acc a, amapFind? s.accs acc = some a → a.cls = .home ∨ a.cls = .priv ∨ a.cls = .ro →
    exec (.hop acc) s = .next (s.serve acc a false (fun s => s.homeRead a.pa a.n a.key) fun s x => (s.homeWrite a.pa a.n a.key x).unitStored a)) ∧
  (∀ s acc a, amapFind? s.accs acc = some a → a.cls = .home → a.op.ord = .none → a.engine = false →
    let r := s.homeRead a.pa a.n a.key
    r.2.1 = false → exec (.hop acc) s = .next ((((match a.op.update a.n r.1 a.data a.cmp with
      | none => r.2.2
      | some x => (r.2.2.homeWrite a.pa a.n a.key x).unitStored a).accValue acc a r.1).send (.hopr acc)))) ∧
  (∀ s acc a, amapFind? s.accs acc = some a → a.cls = .repl →
    let r := s.replLine a.pline (coreDie a.core) a.key
    (r.pending ≠ [] → exec (.hop acc) s = .next { s with homeWait := s.homeWait ++ [(a.pline, .hop acc)] }) ∧
    (r.pending = [] → r.poison.getLsbD (a.pa % 128 / 64) = false → exec (.hop acc) s = .next
      (((s.replPut a.pline (coreDie a.core) r).accValue acc a (lineRead r.data (a.pa % 128) a.n)).send (.hopr acc))) ∧
    (r.pending = [] → r.poison.getLsbD (a.pa % 128 / 64) = true → a.dst ≠ .none → exec (.hop acc) s = .next
      ((s.replPut a.pline (coreDie a.core) r).failAcc acc a (poisonTrap a.va a.pa)))) ∧
  (∀ s acc a, amapFind? s.accs acc = some a → a.cls = .tracked → s.lineBusy a.pline = false →
    let S := s.l2Fetch a.pline a.key
    let b := byteMask (a.pa % 128) a.n
    (S.demoted a.pline = false → a.op.isAtom = false → exec (.hop acc) s = .next (S.startFill acc a)) ∧
    (S.demoted a.pline = true → S.raceAt a.pline a.core b a.op.writes = true →
      exec (.hop acc) s = .next (S.failAcc acc a { cause := .race, addr := a.va })) ∧
    (S.demoted a.pline = true → S.raceAt a.pline a.core b a.op.writes = false → ∀ v, (S.atHome a).1 = .done v →
      exec (.hop acc) s = .next ((((S.atHome a).2.maskPut a.pline a.core none
        (some (if a.op.writes then ⟨(S.core a.core).epoch, 0, b⟩ else ⟨(S.core a.core).epoch, b, 0⟩))).accValue acc a v).send (.hopr acc)))) ∧
  (∀ s acc a v, amapFind? s.accs acc = some a → a.value = some v → exec (.hopr acc) s = .next ((s.syncDone a).finishAcc acc a v)) ∧
  (∀ s acc a, amapFind? s.accs acc = some a →
    ∃ S : State, exec (.rstore acc) s = .next S ∧ Instr.rfwd 0 acc ∈ S.msgs ∧ Instr.rfwd 1 acc ∈ S.msgs) ∧
  (∀ s die acc a, amapFind? s.accs acc = some a →
    ∃ S : State, exec (.rfwd die acc) s = .next (S.send (.rpack die acc)) ∧ acc ∈ (S.replLine a.pline die a.key).pending) ∧
  (∀ s die acc a, amapFind? s.accs acc = some a → a.snoops = [die] →
    ∃ S : State, exec (.rpack die acc) s = .next S ∧ Instr.rcommit 0 acc ∈ S.msgs ∧ Instr.rcommit 1 acc ∈ S.msgs) ∧
  (∀ s die acc a, amapFind? s.accs acc = some a →
    let r := s.replLine a.pline die a.key
    let R := { r with
      data := lineWrite r.data (a.pa % 128) a.n a.data
      pending := r.pending.filter (· ≠ acc)
      poison := if a.whole then r.poison &&& ~~~ BitVec.ofNat 2 (2 ^ (a.pa % 128 / 64)) else r.poison }
    let commit := fun (s : State) => let S := s.replPut a.pline die R
      State.homeWake { S with accs := amapInsert S.accs acc { a with snoops := a.snoops.filter (· ≠ die) } } a.pline
    (a.snoops = [die] → exec (.rcommit die acc) s = .next ((commit s).finishAcc acc a 0)) ∧
    (a.snoops = [0, 1] → die < 2 → exec (.rcommit die acc) s = .next (commit ((s.rowWrite a.pa a.n a.key a.data).unitStored a))))

/-! ## Events: translation, streams, copies -/

/-- R92, R97, R98: one of the four walkers of a wing serves a walk that waits: a walk that finds a leaf puts its entry into
the TLBs that asked for it, and one that finds none leaves its outcome to its requesters, with the level it stopped at; the
accesses that waited go on. R102, R103: the lodging requests of a die are posted one at a time, with vector 1 + die, and a
grant, a refusal or the acknowledgement of a release answers the one posted; a refusal ends the launches of the lease with
LODGING_REFUSED. R108, R242: the oldest shootdown completes once no access of a translated address that it covers is in
flight, with its result and its completion record. R391: a code block that is wanted is read, and takes a free page of the
window. Where it rests on the model's choices: log 46, 90, 114. -/
def Obligations.TranslationEvents : Prop :=
  (∀ s wing tlb kind w ws, (s.wing wing).walking = w :: ws → w.write = (kind == .write) → w.tlbs = [tlb] → s.shoots = [] →
    w.snoops = none → (s.space w.space).inCache w.va = false →
    let root := bitField 51 12 (s.space w.space).root.toNat * 4096
    let st := walkStart (s.wing wing) w.space w.va root
    let reads := if 0x2FFFFFF000 < root then [] else walkReads s w.space w.va (5 - st.1) st.1 st.2
    (∀ a ∈ reads, s.flipping a = false ∧ s.hostBias a = false) →
    let x := s.walk wing w.space w.va w.write w.need
    (∀ f, x.1 = .leaf f → ∃ e : TlbEntry, exec (.pageWalk wing tlb w.space w.va kind) s = .next (
        let T := (x.2.updWing wing fun y => y.tlbAdd tlb e).updWalk wing w fun _ => none
        (forEach (T.walkWaiters wing) T fun b y => b.walkResume y.1 y.2).walkTidy wing) ∧
      e.va = w.va - w.va % f.size ∧ e.size = f.size ∧ e.space = w.space ∧ e.g = f.g ∧ e.base = f.base ∧ e.h = f.h ∧ e.key = f.key ∧
      e.cls = f.cls ∧ e.w = f.w ∧ e.x = f.x ∧ e.d = f.d) ∧
    ∀ lvl, ∀ en, x.1 = (match en with | some v => .format lvl v | none => .breach lvl) →
      exec (.pageWalk wing tlb w.space w.va kind) s = .next (
        let T := x.2.updWalk wing w fun y => some { y with served := some (lvl, en) }
        (forEach (T.walkWaiters wing) T fun b y => b.walkResume y.1 y.2).walkTidy wing)) ∧
  (∀ s die r rest, (s.die die).posted = none → (s.die die).reqs = r :: rest → ∃ S : State,
    exec (.lodgingRequestPost die) s = .next (S.msiRaise (1 + die)) ∧ (S.die die).posted = some r ∧ (S.die die).reqs = rest) ∧
  (∀ s die r, s.boot.ready = true → (s.die die).posted = some r → r.release = false →
    let S := s.updDie die fun d => { d with posted := none }
    (∃ T : State, exec (.lgrantGranted die r.lease) s = .next (T.leaseEnd r.lease) ∧ (T.die die).posted = none ∧
      ∀ l, amapFind? s.leases r.lease = some l → amapFind? T.leases r.lease = some { l with granted := true }) ∧
    exec (.lgrantRefused die r.lease) s = .next (forEach (s.launches.filter fun kv => kv.2.lease = some r.lease && !kv.2.complete)
      { S with leases := amapErase s.leases r.lease } fun b kv =>
        (b.failLaunch kv.1 .lodgingRefused).updLaunch kv.1 fun x => { x with lease := none })) ∧
  (∀ s die r, s.boot.ready = true → (s.die die).posted = some r → r.release = true → ∃ S : State,
    exec (.lgrantReleaseAck die r.lease) s = .next S ∧ (S.die die).posted = none ∧ S.leases = amapErase s.leases r.lease) ∧
  (∀ s die lease, s.boot.ready = false → ∀ x ∈ [Instr.lgrantGranted die lease, .lgrantRefused die lease, .lgrantReleaseAck die lease],
    exec x s = .next s) ∧
  (∀ s id x rest, s.shoots = (id, x) :: rest → s.shootBusy x = false →
    let S : State := { s.shootDo x with shoots := rest }
    (x.pend = none → exec (.shootdownComplete id) s = .next (S.completionRecord x.caddr 0 0 false x.irq)) ∧
    ∀ p, x.pend = some p → exec (.shootdownComplete id) s = .next (
      ({ S with later := S.later ++ [Due.ins (.loadResultLand p)] } : State).completionRecord x.caddr 0 0 false x.irq)) ∧
  (∀ s wing space hash word t g pc p ps, s.blockWaiter wing space hash word = some (t, g, pc) → s.blockRoom space = p :: ps →
    exec (.blockTranslate wing space hash word) s = .next (s.blockBytes t g
      ((List.range (ceilDiv (pc % 32 + niropBytes hash) 32)).map fun j => (pc / 32 * 32 + 32 * j) % 2 ^ 64) fun b =>
        match b.blockPlace space with
        | some (k, c) => c.blockPut space hash word ((s.launch (s.team t).launch).niropOff pc) k
        | none => b)) ∧
  (∀ (s : State) space p ps, s.blockRoom space = p :: ps →
    ∃ k ∈ p :: ps, s.blockPlace space = some (k, { s with free := s.free + 1 }))

/-- R248, R250, R251, R271: the sequencer fetches the word at its PC and performs it, fetching its block first where the cache
lacks it; MBW, once its barrier shows the other parity, retires, as a wait on the barrier that finds its phase over; in its
context's turn at the engine a command that may run does: MCLR clears its part of the tile and MNOP does nothing, and both
retire, as does a multiplication or an MLD whose mask leaves nothing, and MBAR with its arrival; an MLD moves its elements row
by row into its tile and an MST out of it, each element's value taken once and moved byte by byte in steps of their own, and
goes on to the next element once it has every byte, an MST after its last once the units that it wrote whole are cleaned; a
multiplication whose B it has read adds its products and retires. Where it rests on the model's choices: log 57, 58. -/
def Obligations.StreamEvents : Prop :=
  (∀ s t pc b x, s.streamFetches t = true → s.fetchPc t 32 = some pc → s.icacheAt (s.team t).core (s.team t).launch pc = some b →
    streamDecode (blockFrom b pc % 2 ^ 128) = .inl x → ∀ S, streamExec x { s with turn := .stream t } = .next S →
    exec (.sequencerFetch t) s = .next (S.trialIssue t 32 pc)) ∧
  (∀ s t st pc b o, (s.team t).stream = some st → s.streamFetches t = true → s.fetchPc t 32 = some pc → s.icacheAt (s.team t).core (s.team t).launch pc = some b →
    streamDecode (blockFrom b pc % 2 ^ 128) = .inl (.msetImm o) → exec (.sequencerFetch t) s = .next
      ((({ s with turn := .stream t } : State).updStream t fun _ =>
        { st.setK o.d (o.imm.signExtend 64) with pc := (st.pc + 16) % 2 ^ 64 }).trialIssue t 32 pc)) ∧
  (∀ s t pc b c, s.streamFetches t = true → s.fetchPc t 32 = some pc → s.icacheAt (s.team t).core (s.team t).launch pc = some b →
    streamDecode (blockFrom b pc % 2 ^ 128) = .inr c → exec (.sequencerFetch t) s = .next (s.streamFetchFault t { cause := c })) ∧
  (∀ s t pc, s.streamFetches t = true → s.fetchPc t 32 = some pc → s.icacheAt (s.team t).core (s.team t).launch pc = none →
    exec (.sequencerFetch t) s = .next (s.due (.ins (.fetchBlockFill t 32)))) ∧
  (∀ s t st c b par, (s.team t).stream = some st → st.cmd? c.seq = some c → mbwOf c.instr = some (b, par) → c.faulted = false →
    (c.started = true ∨ (st.startable c = true ∧ s.streamHeld t = false)) → (s.bar t b).phase.toNat % 2 ≠ par % 2 →
    exec (.mbwRetire t c.seq) s = .next ((s.barLate t (.num b)).cmdRetire t c.seq)) ∧
  (∀ s t st c, (s.team t).stream = some st → st.cmd? c.seq = some c → c.faulted = false →
    (c.started = true ∨ (st.startable c = true ∧ s.streamHeld t = false)) → s.engineTurn t = true →
    let st1 := if c.started then st else (st.holdTile c).start c
    let S := (s.updStream t fun _ => st1).updCore (s.team t).core fun k => { k with mLast := s.contextOf t }
    let mk := maskOf c.kc
    let got (p n : Nat) : Nat := (mParts p n).foldl (fun v q => v + amapGet 0 (S.cmdGot t c.seq) q.1 * 2 ^ (8 * q.2.2)) 0
    let whole (p n : Nat) : Prop := ∀ q ∈ mParts p n, (amapFind? (S.cmdGot t c.seq) q.1).isSome
    let left (S : State) (p n : Nat) := (mParts p n).filter fun q => (amapFind? (S.cmdGot t c.seq) q.1).isNone
    let keep (out : Nat) : State := if (amapFind? (S.cmdGot t c.seq) elemKey).isSome then S else S.updStream t fun st => { st with
      window := st.window.map fun d => if d.seq = c.seq then { d with got := amapInsert d.got elemKey out } else d }
    let run := exec (.commandRetire t c.seq) s
    (∀ o, c.instr = .mnop o → run = .next (S.cmdRetire t c.seq)) ∧
    (∀ o int, c.instr = .mclr o int → maskBad c.kc true true false 0 = false → run =
      .next ((S.updStream t fun st => { st with
        a := amapInsert st.a o.d.toNat ((amapGet ({} : Tile) st.a o.d.toNat).clear mk.1 mk.2.1 int)
        parts := st.parts.filter fun p => p.tile ≠ o.d.toNat }).cmdRetire t c.seq)) ∧
    (∀ o S', c.instr = .mbar o → (S.mstCross t).arrive t (.num (srcNum o.a)) (mbarCount o) true = (none, S') →
      run = .next ((S'.dropV (S'.team t).core).cmdRetire t c.seq)) ∧
    (∀ q fa fb, mulOf c.instr = some q → S.matFmt t q.o.slot.toNat q.kind.codes = some fa → S.matFmt t q.slotB q.kind.codes = some fb →
      maskBad c.kc true true true q.kind.kmax = false → q.p = false → st1.parts = [] →
      ((mk.1 = 0 ∨ mk.2.1 = 0 ∨ (mk.2.2 = 0 ∧ q.o.cl = false)) → run = .next (S.cmdRetire t c.seq)) ∧
      (let d := q.o.d.toNat
       let int := q.kind == .mmi
       let t1 : Tile := if q.o.cl then (amapGet {} st1.a d).clear mk.1 mk.2.1 int else amapGet {} st1.a d
       let addr (x : Nat × Nat) : Nat := ((((c.kb.toNat : Int) + x.1 * q.o.imm.toInt + x.2 * fb.bytes) % (2 ^ 64 : Int)).toNat)
       mk.1 ≠ 0 → mk.2.1 ≠ 0 → mk.2.2 ≠ 0 → t1.int = int → q.v = false → (∀ x ∈ grid mk.2.2 mk.2.1, whole (addr x) fb.bytes) →
       let bv := (grid mk.2.2 mk.2.1).map fun x => got (addr x) fb.bytes
       let av := match c.root with
         | some r => (amapFind? st1.latch r).getD (amapGet 0 st1.m (srcIx q.o.a))
         | none => amapGet 0 st1.m (srcIx q.o.a)
       run = .next ((S.updStream t fun st => st.mulApply q mk t1 (fun i k => fa.value (tileElem av i k fa.bytes))
         (fun k j => fb.value (bv.getD (k * mk.2.1 + j) 0)) []).cmdRetire t c.seq))) ∧
    (∀ q S', mulOf c.instr = some q → S.mulRun t st1 c q = .retire S' → run = .next (S'.cmdRetire t c.seq)) ∧
    (∀ o view satf f, c.instr = (if view then .mldV o satf else .mld o) → S.matFmt t o.slot.toNat [1, 2, 3, 4, 6] = some f →
      (view = true → satf = true → f.bytes = 1) → maskBad c.kc true false true (if f.bytes = 2 then 16 else 32) = false →
      (mk.1 = 0 ∨ mk.2.2 = 0 → run = .next (S.cmdRetire t c.seq)) ∧
      ∀ i k, (grid mk.1 mk.2.2)[c.elem]? = some (i, k) → (view = true → S.cmdFlying t c.seq = true ∨ S.viewCheck t c.kb.toNat = none) →
        let p := ((((c.kb.toNat : Int) + i * o.imm.toInt + k * f.bytes) % (2 ^ 64 : Int)).toNat)
        let put (S : State) (w : Nat) : State := S.updStream t fun st =>
          { st with m := amapInsert st.m o.d.toNat (tilePut (amapGet 0 st.m o.d.toNat) i k f.bytes w) }
        (∀ w S', view = true → S.viewRead t c.seq c.kb.toNat i k ((S.lr t).slot o.slot.toNat) f satf = (.val w, S') →
          run = .next ((put S' w).cmdNext t c (mk.1 * mk.2.2))) ∧
        (view = false → whole p f.bytes → run = .next ((put S (got p f.bytes)).cmdNext t c (mk.1 * mk.2.2))) ∧
        let F : State := { S with free := S.free + 1 }
        (view = false → S.cmdFlying t c.seq = false → F.ptrCheck t 0 p f.bytes [0, 1, 2] none true = none →
          ∀ q, S.mPart t c.seq false (left S p f.bytes) = some q → ptrTag q.1 = 2 → (F.scrRead t (q.1 % 2 ^ 19) q.2.1).2 = false →
            run = .next ((F.cmdGets t c.seq q.1 (F.scrRead t (q.1 % 2 ^ 19) q.2.1).1).cmdDue t c))) ∧
    (∀ o a b satf f, c.instr = .mst o a b false satf →
      let tile : Tile := amapGet {} st1.a (srcIx o.a)
      S.matFmt t o.slot.toNat (mstCodes tile.int false false) = some f → maskBad c.kc true true false 0 = false →
      st1.parts.any (fun p => p.tile = srcIx o.a) = false →
      (mk.1 = 0 ∨ mk.2.1 = 0 → run = .next (S.cmdRetire t c.seq)) ∧
      ∀ i j, (grid mk.1 mk.2.1)[c.elem]? = some (i, j) →
        let p := ((((c.kb.toNat : Int) + i * o.imm.toInt + j * f.bytes) % (2 ^ 64 : Int)).toNat)
        let out := (amapFind? (S.cmdGot t c.seq) elemKey).getD (mstOut tile.int satf f (tile.get i j) (.fin false 1 0))
        let T := keep out
        let spans := (grid mk.1 mk.2.1).filterMap fun x => (T.mstPtr c o false f.bytes x.1 x.2).map fun p => (p, f.bytes)
        (left T p f.bytes = [] → c.elem + 1 < mk.1 * mk.2.1 → run = .next (T.cmdNext t c (mk.1 * mk.2.1))) ∧
        (∀ S', left T p f.bytes = [] → mk.1 * mk.2.1 ≤ c.elem + 1 → T.mstClean t spans = (true, S') →
          run = .next (S'.cmdNext t c (mk.1 * mk.2.1))) ∧
        (let F : State := { T with free := T.free + 1 }
        T.cmdFlying t c.seq = false → F.ptrCheck t 0 p f.bytes [0, 1, 2] none true = none →
          ∀ q, T.mPart t c.seq true (left T p f.bytes) = some q → ptrTag q.1 = 2 →
            run = .next (((F.scrWrite t (q.1 % 2 ^ 19) q.2.1 (out / 2 ^ (8 * q.2.2) % 2 ^ (8 * q.2.1))).cmdGets
              t c.seq q.1 0).cmdDue t c))) ∧
    (∀ o a b satf f, c.instr = .mstV o a b false satf →
      let tile : Tile := amapGet {} st1.a (srcIx o.a)
      S.matFmt t o.slot.toNat (mstCodes tile.int false true) = some f → maskBad c.kc true true false 0 = false →
      st1.parts.any (fun p => p.tile = srcIx o.a) = false →
      (mk.1 = 0 ∨ mk.2.1 = 0 → run = .next (S.cmdRetire t c.seq)) ∧
      ∀ i j, (grid mk.1 mk.2.1)[c.elem]? = some (i, j) → S.cmdFlying t c.seq = true ∨ S.viewCheck t c.kb.toNat = none →
        let out := (amapFind? (S.cmdGot t c.seq) elemKey).getD (mstOut tile.int satf f (tile.get i j) (.fin false 1 0))
        let T := keep out
        let spans := (grid mk.1 mk.2.1).filterMap fun x => (T.viewPtr c.kb.toNat x.1 x.2).map fun p => (p, 2)
        T.viewPtr c.kb.toNat i j = none ∨ (∃ p, T.viewPtr c.kb.toNat i j = some p ∧ left T p 2 = []) →
          (c.elem + 1 < mk.1 * mk.2.1 → run = .next (T.cmdNext t c (mk.1 * mk.2.1))) ∧
          ∀ S', mk.1 * mk.2.1 ≤ c.elem + 1 → T.mstClean t spans = (true, S') → run = .next (S'.cmdNext t c (mk.1 * mk.2.1))))

/-- R278 to R283: a copy moves its elements in order: it reads the element and writes it, scratchpad to scratchpad at once; a
fault stops it, with its record. Once every element of a chunk has moved and the units that it wrote whole are cleaned the
chunk lands, and sets its bit of the completion bitmap that the template names; after the last read the source is released,
and RELEASED of the channel advances. Where it rests on the model's choices: log 54. -/
def Obligations.CopyEvents : Prop :=
  (∀ s core id c, amapFind? s.copies id = some c → (s.team c.team).core = core → c.faulted = false → c.pos < c.total →
    s.copyTurn id c = true → (s.team c.team).preempt = false → (∀ kv ∈ s.accs, kv.2.who ≠ .copy core id) →
    let sp := ptrAdd c.src0 (c.offs c.pos).1
    let dp := ptrAdd c.dst0 (c.offs c.pos).2
    let r := s.scrRead c.team (sp % 2 ^ 19) c.e
    ptrTag sp = 2 → ptrTag dp = 2 → tmplKind c.tmpl ≠ 2 → r.2 = false →
    let C := { c with read := true }
    exec (.copyElementMove core id) s = .next ((State.scrWrite { s with copies := amapInsert s.copies id C }
      c.team (dp % 2 ^ 19) c.e r.1).copyMoved core id C false)) ∧
  (∀ s core id c tr S, amapFind? s.copies id = some c → (s.team c.team).core = core → c.faulted = false → c.pos < c.total →
    s.copyTurn id c = true → (s.team c.team).preempt = false → (∀ kv ∈ s.accs, kv.2.who ≠ .copy core id) →
    s.eResolve c.team (ptrAdd c.src0 (c.offs c.pos).1) .ctlb false .plain none = (.trap tr, S) →
    let C := { c with read := c.read || S.engBusy (.copy core id) }
    exec (.copyElementMove core id) s = .next (State.copyFault { S with copies := amapInsert S.copies id C } id C tr)) ∧
  (∀ s core id c, amapFind? s.copies id = some c → (s.team c.team).core = core → c.released = false → c.total ≤ c.pos →
    s.copyTurn id c = true →
    exec (.copySourceRelease core id) s = .next ({ s with copies := amapInsert s.copies id { c with released := true } }.releaseSource c)) ∧
  (∀ s core id c chunk, amapFind? s.copies id = some c → (s.team c.team).core = core → c.chunks.contains chunk = false →
    chunk < c.nc → c.faulted = false → c.chunkDone c.pos chunk = true →
    (c.total ≤ c.pos ∨ ∃ k < c.total, c.chunkOf k = chunk) → (c.chunks.length + 1 = c.nc → c.released = true) →
    (∀ S, s.copyClean c chunk = (true, S) → exec (.copyChunkLand core id chunk) s = .next (S.chunkLand id c chunk)) ∧
    ∀ S, s.copyClean c chunk = (false, S) →
      exec (.copyChunkLand core id chunk) s = .next { S with later := S.later ++ [.copyChunkLand core id chunk] }) ∧
  (∀ (s : State) id c chunk, (amapFind? s.teams c.team).isSome → tmplBen c.tmpl = true →
    amapGet 0 ((s.chunkLand id c chunk).team c.team).bmaps (tmplBmap c.tmpl) =
      amapGet 0 (s.team c.team).bmaps (tmplBmap c.tmpl) ||| BitVec.ofNat 64 (2 ^ (tmplChbase c.tmpl + chunk))) ∧
  (∀ (s : State) id c chunk, c.nc = 1 → amapFind? (s.chunkLand id c chunk).copies id = none)

/-! ## Events: surfaces -/

/-- R45 to R52: a surface that is being allocated becomes active once its frames are placed, or has no space where none will
come free; a surface that is being released, with no access, copy, quad or press work in progress on it, is inactive and its
frames are free; the press spills a frame when one is wanted, for the reserve, another than one whose refill took it where
there is another, or for an allocation; a frame whose spill is done is spilled, and a firm one's region frame is the reserve,
but one whose translation fails stays resident; a frame whose fill is done is resident with its bytes; the frames' ages
advance. R53, R54: a bank of the surface die serves the request that its arbiter picks, or first wakes its domain; R56: a
debug read of a region gives the bytes of its banks. Where it rests on the model's choices: log 72, 75. -/
def Obligations.SurfaceEvents : Prop :=
  (∀ s ix, (s.ste ix).state = .allocating → s.ratioTo = none →
    let ri := (s.ste ix).regionIx
    let need (k : Nat) := (s.ste ix).framesNeeded ((s.region ri).stack % 2) k
    (∀ k < 2, need k ≤ (s.framesFree ri k).length) →
    exec (.surfaceAllocate ix) s = .next ((((s.placeFrames ix 0 (need 0)).placeFrames ix 1 (need 1)).updSte ix fun e =>
      { e with state := .active }).steEnded ix)) ∧
  (∀ s ix, (s.ste ix).state = .allocating → s.ratioTo = none →
    let ri := (s.ste ix).regionIx
    (∃ k < 2, (s.framesFree ri k).length < (s.ste ix).framesNeeded ((s.region ri).stack % 2) k ∧ s.evictable ri k = [] ∧
      s.spilling ri k false = 0) →
    exec (.surfaceAllocate ix) s = .next ((s.updSte ix fun e => { e with state := .noSpace }).steEnded ix)) ∧
  (∀ s ix, (s.ste ix).state = .releasing → s.steBusy ix = false → ∃ S : State, exec (.surfaceReleaseComplete ix) s =
    .next (S.steEnded ix) ∧ (S.ste ix).state = .inactive ∧ (S.ste ix).frames = []) ∧
  (∀ s region stack ix k f,
    let S (firm : Bool) := (s.updSte ix fun e => e.setFrame k { f with state := .spilling firm, comp := e.compress }).pressAsk ix k f true
    (s.pressPick (s.pressCands region stack true) = some (ix, k, f) →
      (amapFind? s.reserve (2 * region + stack)) = none → s.spilling region stack true = 0 →
      exec (.pressSpillStart region stack true) s = .next { S true with later := (S true).later ++ [.spillComplete ix k] }) ∧
    (s.pressPick (s.evictable region stack) = some (ix, k, f) →
      (∃ kv ∈ s.stes, kv.2.state = .allocating ∧ kv.2.regionIx = region ∧ (s.framesFree region stack).length +
        s.spilling region stack false < kv.2.framesNeeded ((s.region region).stack % 2) stack) →
      exec (.pressSpillStart region stack false) s = .next { S false with later := (S false).later ++ [.spillComplete ix k] })) ∧
  (∀ (s : State) region stack, ∀ x ∈ s.pressCands region stack true, x.2.2.refill = true →
    ∀ y ∈ s.evictable region stack, y.2.2.refill = true) ∧
  (∀ s ix k f firm S, amapFind? (s.ste ix).frames k = some f → f.state = .spilling firm → s.pressBusy ix k = false →
    (s.spillFrame ix k f = (.wait, S) → exec (.spillComplete ix k) s = .next { S with later := S.later ++ [.spillComplete ix k] }) ∧
    (s.spillFrame ix k f = (.failed, S) → exec (.spillComplete ix k) s =
      .next (((S.pressDone ix k).updSte ix fun e => e.setFrame k { f with state := .resident, barred := true }).surfWake)) ∧
    (s.spillFrame ix k f = (.done, S) → exec (.spillComplete ix k) s = .next (
      let saved := (s.tileBytesAt (s.region (s.ste ix).regionIx) (f.region * 16384) 16384).1
      let T := (S.pressDone ix k).updSte ix fun e => e.setFrame k { f with state := .spilled, saved := if f.comp then saved else [] }
      let U : State := { T with resps := T.resps.filter (·.2 ≠ pressResp) }
      (if firm then U.setReserve (s.ste ix).regionIx (k % 2) f.region else U).surfWake))) ∧
  (∀ s ix k f S, amapFind? (s.ste ix).frames k = some f → f.state = .filling → s.pressBusy ix k = false →
    (s.fillFrame ix k f = (false, S) → exec (.fillComplete ix k) s = .next { S with later := S.later ++ [.fillComplete ix k] }) ∧
    (s.fillFrame ix k f = (true, S) → exec (.fillComplete ix k) s =
      .next (((S.pressDone ix k).updSte ix fun e => e.setFrame k { f with state := .resident, saved := [] }).surfWake))) ∧
  (∀ s, exec .frameAgeTick s = .next { s with age := s.age + 1 }) ∧
  (∀ s stack column bank x, let b := 2048 * stack + 32 * column + bank
    s.bankPick b = some x →
    (s.domain (bankDomain b) ≠ .retention → exec (.bankGrant stack column bank) s =
      .next ({ s with bankReqs := s.bankReqs.erase x }.grantDo x)) ∧
    (s.domain (bankDomain b) = .retention → ∃ ds, exec (.bankGrant stack column bank) s = .next { s with later := s.later ++ ds } ∧
      Due.bankGrant stack column bank ∈ ds) ∧
    ∀ id a bk byte addr T, s.domain (bankDomain b) ≠ .retention → x.job = .acc id → amapFind? s.accs id = some a → x.bank = b → bk = b →
      let S : State := { s with bankReqs := s.bankReqs.erase x, bankLast := amapInsert s.bankLast b x.cls }
      S.reach (surfIx a.va) (surfOff a.va) true a.va = (.go bk byte addr, T) →
      let y := a.seen (T.bankRead (T.ste (surfIx a.va)) (surfOff a.va) bk byte a.n).2
      exec (.bankGrant stack column bank) s = .next
        (((T.bankDo y bk byte addr).2.settle id y (T.bankDo y bk byte addr).1).respond (bankColumn b) y id T.uid)) ∧
  (∀ s addr r, s.ratioTo = none → (List.range 16).find? (fun r => (s.region r).ok && decide ((s.region r).base * 2 ^ 20 ≤ addr) &&
      decide (addr + 4 ≤ (s.region r).base * 2 ^ 20 + (s.region r).size)) = some r →
    exec (.debugSurfaceRead none addr) s = .next (s.dbgBank
      ((List.range 4).map fun k => (s.region r).place (addr + k - (s.region r).base * 2 ^ 20)) none)) ∧
  (∀ s ix addr, s.ratioTo = none → (s.ste ix).state = .allocating →
    exec (.debugSurfaceRead (some ix) addr) s = .next { s with later := s.later ++ [.debugSurfaceRead (some ix) addr] }) ∧
  (∀ s ix addr T, s.ratioTo = none → (s.ste ix).state = .active → addr + 4 ≤ (s.ste ix).viewBytes → s.dbgFrames ix addr = (true, T) →
    exec (.debugSurfaceRead (some ix) addr) s = .next (T.dbgBank ((List.range 4).map fun k => T.viewPlace ix (addr + k)) (some (T.ste ix, addr))))

/-! ## Events: the raster path, domains, rows -/

/-- R313 to R322, R324, R328: a mesh team that has ended gives up its primitives one at a time; a wing rasterises the primitive
at the head of its queue once its quads are gone; the quad at the head enters its banks, one slot at each, and the quad at the
head of a bank leaves it, and each asks for a bank that is not idle; unshaded quads become a fragment group where a quarter has
room; a section held for 2^24 CCLK raises ROC_TIMEOUT, and a pre-emption that has waited 2^16 CCLK for a section saves its
tokens. Where it rests on the model's choices: log 80, 81, 82, 83. -/
def Obligations.RasterEvents : Prop :=
  (∀ s q la d t tm, s.emitDraw q = some (la, d) →
    (s.teams.find? fun kv => kv.2.launch = la && kv.2.kind == .mesh && kv.2.number = d.team) = some (t, tm) → tm.preempt = false →
    (∀ g ∈ tm.groups, g.2.liveLanes = []) →
    exec (.primitiveEmit q) s = .next (let S := s.sealMesh t
      if (S.team t).mesh.np ≤ d.prim then S.updDraw la fun d => { d with team := d.team + 1, prim := 0 }
      else (S.emitPrim t la d.team d.prim).updDraw la fun d => { d with prim := d.prim + 1 })) ∧
  (∀ s w la p rest, (s.wing w).queue = (la, p) :: rest → (s.wing w).quads = [] →
    exec (.rasterisePrimitive w) s = .next (s.updWing w fun x => { x with
      queue := rest
      quads := ((s.quadsOf (s.launch la).lr.raster p).filter fun q => s.tileWing (s.launch la).space q.x q.y = w).map fun q => (la, q) })) ∧
  (∀ s w la q rest, (s.wing w).quads = (la, q) :: rest → s.tokenTurn w la q = true →
    (∀ b, s.testBank la q = some b → s.bankIdle b = true) → (s.testBank la q = none → s.ratioTo = none) →
    (∀ S x, s.reachSpots (s.quadSpots (s.launch la).lr.raster q) false = ((true, x), S) → exec (.coverageToken w) s = .next S) ∧
    (∀ S off, s.reachSpots (s.quadSpots (s.launch la).lr.raster q) false = ((false, true, off), S) →
      (∀ b, (amapGet [] S.slots b).length < 32) → ∃ T, exec (.coverageToken w) s = .next T ∧ (T.wing w).quads = rest) ∧
    (∀ T, s.tokenGo w la q rest = some T → exec (.coverageToken w) s = .next T)) ∧
  (∀ s w la q rest b, (s.wing w).quads = (la, q) :: rest → s.tokenTurn w la q = true → s.testBank la q = some b →
    s.bankIdle b = false → (∀ x ∈ s.bankReqs, x.bank = b → x.job ≠ .token w) →
    exec (.coverageToken w) s = .next (s.bankAsk { bank := b, cls := 0, src := w, read := false, job := .token w })) ∧
  (∀ s bru id ids f, amapGet [] s.slots bru = id :: ids → amapFind? s.flights id = some f → f.empty = true →
    exec (.quadRetire bru) s = .next (s.popSlot bru id f)) ∧
  (∀ s bru id f, s.retireHead bru = some (id, f) → f.empty = false →
    (s.bankIdle bru = true → exec (.quadRetire bru) s = .next (s.retireGo bru id f)) ∧
    (s.bankIdle bru = false → (∀ x ∈ s.bankReqs, x.bank = bru → x.job ≠ .retire) →
      exec (.quadRetire bru) s = .next (s.bankAsk { bank := bru, cls := 0, src := f.wing, read := false, job := .retire }))) ∧
  (∀ s w core quarter x f0 rest, s.unshaded w = (x, f0) :: rest →
    let l := s.launch f0.launch
    let regs := 8 * (rsField l.lr.raster 0x20 43 39 + 1)
    coreWing core = w → core < 192 → quarter < 4 → l.status = none → l.complete = false → (s.space l.space).dumped = false →
    s.quarterRoom (s.coreTeams core []) regs quarter ≠ 0 → s.coreFits core [] { groups := 1, regs := regs } = true →
    s.wingHolds w l.lease = true → ∃ T t tm, exec (.fragmentGroupLaunch w core quarter) s = .next T ∧ amapFind? T.teams t = some tm ∧
      tm.kind = .fragment ∧ tm.launch = f0.launch ∧ tm.core = core) ∧
  (∀ s t l since, (s.thread t 0 l).sect = .open_ since → since + 2 ^ 24 ≤ s.cclk → (s.thread t 0 l).stat = .ready →
    (s.team t).kind = .fragment → ∃ S : State, exec (.rocTimeout t l) s = .next (S.takeTrap t 0 l { cause := .rocTimeout }) ∧
      (S.thread t 0 l).sect = .ended ∧ (S.thread t 0 l).pc = (s.thread t 0 l).pc) ∧
  (∀ s t g k w ls, s.waitOf t g w = some ⟨ls, .roc⟩ → k ∈ ls → s.mayEnter t k = true → s.hasLane t g k = true →
    ∃ S, exec (.rocSectionEnter t g w) s = .next S ∧ SameRegs s S ∧ (S.thread t g k).sect = .open_ s.cclk) ∧
  (∀ s t, (s.team t).preempt = true → (s.team t).tokens = false → (amapFind? s.teams t).isSome →
    ((s.team t).groups.any fun g => g.2.threads.any fun th => th.2.sect.isOpen) = true → (s.team t).preemptAt + 2 ^ 16 ≤ s.cclk →
    ∃ S, exec (.rocPreemptTimeout t) s = .next S ∧ (S.team t).tokens = true ∧ SameRegs s S)

/-- R55: a domain that is ON and idle may enter RETENTION, from which it wakes with its content; OFF loses the content, whether
forced or once nothing holds it, and ON follows OFF. R60, R62, R70: a row that is open closes for refresh and reopens, and the
patrol logs what it corrects and poisons the units that it cannot correct. R288: the slot of a scratchpad bank serves a request
that the model has performed. Where it rests on the model's choices: log 77. -/
def Obligations.DomainsAndRows : Prop :=
  (∀ s die k, s.domain (16 * die + k) = .on → (∀ x ∈ s.bankReqs, bankDomain x.bank ≠ 16 * die + k) →
    exec (.domainRetentionEnter die k) s = .next (s.setDomain (16 * die + k) .retention)) ∧
  (∀ s die k, s.domain (16 * die + k) = .retention → exec (.domainWake die k) s = .next (s.setDomain (16 * die + k) .on).surfWake) ∧
  (∀ s die k forced, s.domain (16 * die + k) ≠ .off → (forced = true ∨ s.domainHeld (16 * die + k) = false) →
    exec (.domainOff die k forced) s = .next ((s.domainLose (16 * die + k)).setDomain (16 * die + k) .off).surfWake) ∧
  (∀ s die k, s.domain (16 * die + k) = .off →
    exec (.domainOn die k) s = .next ((s.domainLose (16 * die + k)).setDomain (16 * die + k) .on).surfWake) ∧
  (∀ s die k, s.domain (16 * die + k) ≠ .off → let S := s.logEvent 11 (16 * die + k) []
    exec (.ivrOvercurrent die k) s = .next ((S.domainLose (16 * die + k)).setDomain (16 * die + k) .off).surfWake) ∧
  (∀ s sp k r, s.row? sp k = some r → r.state = .open_ →
    let busy := s.wBusy sp k
    exec (.rowRefreshClose sp k) s = .next (s.setRow sp k { r with
      state := .refresh, counted := busy, susp := if busy then r.susp + 1 else r.susp })) ∧
  (∀ s sp k r, s.row? sp k = some r → r.state = .refresh →
    exec (.rowRefreshReopen sp k) s = .next (s.setRow sp k { r with state := .open_, counted := false })) ∧
  (∀ s c b r cor unc, (∀ kv ∈ s.rows, kv.2.live = false ∨ kv.2.state = .refresh ∨
      ¬ ∃ x, dramPlace (kv.2.granule * 2048) = (c, b, r, x)) → (∀ u ∈ unc, ∃ x, dramPlace (64 * u) = (c, b, r, x)) →
    ∃ S, exec (.memoryPatrol c b r cor unc) s = .next S ∧ (∀ u, u ∈ S.dramPoison ↔ u ∈ s.dramPoison ∨ u ∈ unc) ∧ S.dram = s.dram ∧
      S.mgmt = (forEach cor s fun S u => S.logEvent 12 c [u]).mgmt) ∧
  (∀ s c b, c < 192 → b < 32 → exec (.scratchpadSlotGrant c b) s = .next s) ∧
  (∀ s acc a, amapFind? s.accs acc = some a → a.va / 2 ^ 60 = 4 →
    (∀ k ∈ a.snoops, ∀ r, s.row? a.space k = some r → r.state ≠ .refresh) → ∃ S : State,
    exec (.wPathAccessComplete acc) s = .next (if a.cmp = 0 then S else { S with later := S.later ++ [.ins (.loadResultLand a.cmp)] }) ∧
      acc ∉ (S.core a.core).wpath ∧ S.accs = amapErase s.accs acc ∧ SameRegs s S)

/-! ## Events: scheduling -/

/-- R130, R139, R298, R303 to R307, R348, R349, R359, R362: the first cluster in order that fits is placed, or a turn passes,
and a launch whose space is disabled by then ends; a cluster that must make room is pre-empted, and its rectangle kept for the
one that needs it; a NORMAL cluster that has waited 1 ms reserves; a pre-empted team that has come to rest, all of its cluster
with it, is saved with its registers where the pool has places for the cluster, and a saved one restored with them; a group
that may run takes a context; the night porter wakes for a record, and takes slots; a fetch block is filled; a team that is
over ends, and a grid that is over completes. Where it rests on the model's choices: log 6, 26, 29, 56, 60, 66, 69. -/
def Obligations.SchedulingEvents : Prop :=
  (∀ s die x, ((s.tryOrder die).find? fun x => s.spaceOff x.2) = some x →
    exec (.clusterPlace die) s = .next (s.failLaunch x.2.la .noSpace)) ∧
  (∀ s die q c w corner, ((s.tryOrder die).find? fun x => s.spaceOff x.2) = none →
    ((s.tryOrder die).findSome? fun x => (s.findRect die x.2).map fun r => (x, r)) = some ((q, c), (w, corner)) →
    let l := s.launch c.la
    let bad := c.saved.isNone && l.next = 0 && l.lr.kind && s.rasterStesBad l.space l.lr.raster
    let S := if l.cls = 1 then s.roundRobin die q else s
    (bad = true → exec (.clusterPlace die) s = .next (s.failLaunch c.la .badLaunch)) ∧
    (bad = false → exec (.clusterPlace die) s = .next (((match c.saved with
      | none => S.placeNew c.la w corner
      | some k => S.placeSaved c.la k w corner).updDie die fun d => { d with pointer := (w + 1) % 16 })))) ∧
  (∀ s die S, ((s.tryOrder die).find? fun x => s.spaceOff x.2) = none →
    (∀ x ∈ s.tryOrder die, s.findRect die x.2 = none) → s.passTurn die = some S → exec (.clusterPlace die) s = .next S) ∧
  (∀ s die la cs cores, s.preemptFor die = some (la, cs, cores) →
    exec (.framePreempt die) s = .next ((s.preemptClusters cs).updDie die fun d =>
      { d with cleared := (d.cleared.filter fun h => h.1 ≠ la) ++ [(la, cores)] })) ∧
  (∀ s die x, ((s.die die).reserve.any fun f => s.placing f.la) = false →
    (s.classCands die 1).filter (fun x => ((s.waitSince x.1).any fun n => decide (n + 1000000 ≤ s.devtime)) &&
      (s.findRect die x.2).isNone) = [x] →
    exec (.normalReservation die) s = .next (s.updDie die fun d => { d with reserve := (s.queue x.1).front })) ∧
  (∀ s t tm v, amapFind? s.teams t = some tm → s.leaving t = true → s.drained t = true → s.stopping t = false →
    (amapFind? s.saved tm.cluster = some v ∨ (amapFind? s.saved tm.cluster = none ∧ (∀ u ∈ s.residents tm.cluster, s.drained u = true) ∧
      v = { cluster := s.cluster tm.cluster, places := (s.poolPlan (s.poolSize (s.spaceOf t)) (s.poolTaken (s.spaceOf t))
        (s.residents tm.cluster)).getD [] })) →
    (amapFind? v.places t = none → exec (.preemptSave t) s = .next (s.keepCluster tm.cluster)) ∧
    ∀ place, amapFind? v.places t = some place →
      ∃ S y x, exec (.preemptSave t) s = .next S ∧ amapFind? S.saved tm.cluster = some y ∧ amapFind? y.teams t = some x ∧
        (∀ g l, (amapGet {} (amapGet {} x.groups g).threads l).arch = (s.thread t g l).arch) ∧
        (∀ g, (amapGet {} x.groups g).s = (s.group t g).s) ∧
        (amapSorted none s.teams = true → (s.core tm.core).held = [] → amapFind? S.teams t = none)) ∧
  (∀ s t tm v, amapFind? s.teams t = some tm → amapFind? s.saved tm.cluster = some v → tm.restore = true →
    (s.cluster tm.cluster).byDbg = false → s.stopping t = false →
    ∃ S, exec (.teamRestore t tm.core) s = .next S ∧ (S.team t).preempt = false ∧ (S.team t).restore = false ∧
      (∀ g l, (S.thread t g l).arch = (s.thread t g l).arch) ∧ ∀ g, (S.group t g).s = (s.group t g).s) ∧
  (∀ s core quarter ctx t g, ctx < 4 → ctx ∉ s.boundCtxs core quarter → s.bindPick core quarter = some (t, g) →
    exec (.contextBind core quarter ctx) s = .next (s.bind t g ctx)) ∧
  (∀ s core t, s.porterTeam core = some t → ((s.group t 0).run.isSome = true →
      exec (.porterSlotTake core) s = .next { s with turn := .group t 0 }) ∧
    ((s.group t 0).run = none → s.groupReady t 0 = true → exec (.contextBind core 0 4) s = .next (s.bind t 0 4))) ∧
  (∀ s core e, s.porterAsleep core = true → s.wakeRecord core = some e →
    ∃ S t, exec (.porterWake core) s = .next S ∧ (S.core core).porter = some e.launch ∧ (S.team t).kind = .porter ∧
      (S.team t).launch = e.launch ∧ (S.team t).core = core ∧
      (S.thread t 0 0).pc = ((s.launch e.launch).lr.code + (s.launch e.launch).lr.hdlpc) % 2 ^ 64 ∧
      (S.thread t 0 0).fpm = (s.launch e.launch).lr.startFpm) ∧
  (∀ s t g pc S, s.fetchPc t g = some pc → (g = 32 → s.streamFetches t = true) →
    let core := (s.team t).core
    let la := (s.team t).launch
    let held := (s.icacheAt core la pc).isSome
    (g ≠ 32 → held = false → s.accBars t g (((s.group t g).run.map (·.lanes)).getD []) = false) →
    (∀ b poison, s.codeRead t pc = (.ok b poison, S) →
      exec (.fetchBlockFill t g) s = .next (S.icachePut core la pc (BitVec.ofNat 256 b))) ∧
    (s.codeRead t pc = (.wait, S) → exec (.fetchBlockFill t g) s = .next S) ∧
    (∀ tr, s.codeRead t pc = (.trap tr, S) → exec (.fetchBlockFill t g) s = .next (if held then S else S.fetchFault t g tr)) ∧
    ∀ va l, s.codeRead t pc = (.breach va l, S) → exec (.fetchBlockFill t g) s = .next (if held then S else S.breach la va l)) ∧
  (∀ s t, (amapFind? s.teams t).isSome → s.teamOver t = true → exec (.teamEnd t) s = .next ((s.fragExport t).teamRemove t)) ∧
  (∀ s la l, amapFind? s.launches la = some l → l.complete = false → s.gridOver la = true →
    ∀ D, (forEach l.cores s fun s c => s.publishNow c).rowSweep.drawReport la = (true, D) →
    ∃ S, exec (.gridComplete la) s = .next S ∧ (S.launch la).complete = true ∧ (l.caddr ≠ 0 → ∃ m, S.hostMem =
      memWrite m l.caddr 16 (l.ticket % 2 ^ 16 + 2 ^ 16 * (l.status.getD .ok).code +
        (if l.due ≠ 0 ∧ l.due < s.devtime + 2 ^ 46 then 2 ^ 24 else 0) + 2 ^ 64 * (s.devtime % 2 ^ 64))))

/-! ## Events: the host -/

/-- R299, R300, R301, R405: before DEVREADY a register write is ignored; after it HRCTL sets the ring up while it is disabled,
a doorbell moves TAIL, and the device carries out the entry at HEAD and advances HEAD: NOP does nothing more, LAUNCH enqueues
once its record is read, TLBI starts a shootdown, CANCEL cancels and completes, and an entry that is not sound is skipped and
logged. Where it rests on the model's choices: log 65, 95. -/
def Obligations.RingEvents : Prop :=
  (∀ s v, (s.boot.ready = false ∨ 2 ^ 16 ≤ v.toNat) → exec (.ringDoorbell v) s = .next s) ∧
  (∀ s v, s.boot.ready = true → v.toNat < 2 ^ 16 → exec (.ringDoorbell v) s = .next { s with ring := { s.ring with tail := v.toNat } }) ∧
  (∀ s v, (s.boot.ready = false ∨ (s.ring.en = false ∧ 12 ≤ bitField 11 8 v.toNat)) → exec (.hrctlWrite v) s = .next s) ∧
  (∀ s v, s.boot.ready = true → s.ring.en = true → exec (.hrctlWrite v) s = .next
    { if v.getLsbD 0 then s else s.engDrop (· == Who.unit .ring) with ring := { s.ring with en := v.getLsbD 0 } }) ∧
  (∀ s v, s.boot.ready = true → s.ring.en = false → bitField 11 8 v.toNat < 12 → exec (.hrctlWrite v) s = .next { s with
    ring := { s.ring with base := v.toNat / 4096, logn := bitField 11 8 v.toNat, en := v.getLsbD 0 } }) ∧
  (∀ s x, s.ringEntry = some x → reBad x = true → exec .ringUnknownOp s = .next (s.ringPass.logEvent 6 0 [x])) ∧
  (∀ s x, s.ringEntry = some x → reBad x = false →
    (reOp x = 0 → exec .ringNop s = .next s.ringPass) ∧
    (∀ S, reOp x = 1 → (s.queue (reQid x)).items.length < 64 →
      (∀ r, s.recordAt (reRecord x) = (some r, S) → exec .ringLaunch s = .next
        (S.ringPass.enqueue (reQid x) r (reRecord x) (reCaddr x) (reIrq x) false).2) ∧
      (s.recordAt (reRecord x) = (none, S) → exec .ringLaunch s = .next S)) ∧
    (reOp x = 2 → exec .ringTlbi s = .next (s.ringPass.shootStart ⟨reScope x, if reScope x = 2 then 0 else reSpace x,
      if reScope x = 0 then reVa x else 0, if reScope x = 0 then rePages x else 1, none, reCaddr x, reIrq x⟩)) ∧
    (reOp x = 3 → exec .ringCancel s = .next ((s.ringPass.cancel (reTicket x)).2.completionRecord (reCaddr x) (reTicket x)
      (if (s.ringPass.cancel (reTicket x)).1 then Status.code .cancelled else Status.code .ok) false (reIrq x))))

/-- R42, R48, R90, R298, R347, R360, R367, R391, R395, R396, R405: what a write of a device register leaves in it, the writes
that a live use of the space or the queue makes it ignore, and that before DEVREADY only the mailbox registers take writes.
Where it rests on the model's choices: log 67, 70, 89, 94, 115. -/
def Obligations.RegisterWrites : Prop :=
  (∀ s n v, s.boot.ready = true →
    let held := s.stes.any fun kv => kv.2.regionIx == n && (kv.2.state == .allocating || kv.2.state == .active || kv.2.state == .releasing)
    (held = true → exec (.intlvWrite n v) s = .next { s with intlvSt := amapInsert s.intlvSt n 2 }) ∧
    (held = false → ∃ S : State, exec (.intlvWrite n v) s = .next (S.initReserve n) ∧
      amapGet 0 S.intlv n = BitVec.ofNat 64 (bitField 63 36 v.toNat * 2 ^ 36 + v.toNat % 2 ^ 12))) ∧
  (∀ s sp v win, s.boot.ready = true →
    let S := match win with
      | none => s
      | some w => s.updSpace sp fun x => { x with steWin := w % 16 }
    exec (.sprootWrite sp ⟨v, win⟩) s = .next (if s.leases.any (fun kv => kv.2.space == sp && kv.2.granted && !kv.2.dying) then S
      else S.updSpace sp fun x => { x with root := BitVec.ofNat 64 (bitField 63 63 v.toNat * 2 ^ 63 + bitField 51 12 v.toNat * 2 ^ 12) })) ∧
  (∀ s sp v, s.boot.ready = true → exec (.spwingWrite sp v) s = .next (if s.spaceLive sp then s
    else s.updSpace sp fun x => { x with wing := BitVec.ofNat 64 (v.toNat % 2 ^ 16) })) ∧
  (∀ s n v, s.boot.ready = true → (bitField 62 61 v.toNat = 3 → exec (.qcfgWrite n v) s = .next s) ∧
    (bitField 62 61 v.toNat ≠ 3 → ∃ S, exec (.qcfgWrite n v) s = .next S ∧ (S.queue n).items = (s.queue n).items ∧
    (S.queue n).weight = (if bitField 47 40 v.toNat = 0 then 1 else bitField 47 40 v.toNat) ∧
    ((s.queue n).items = [] → (S.queue n).en = v.getLsbD 63 ∧ (S.queue n).cls = bitField 62 61 v.toNat ∧
      (S.queue n).die = bitField 60 60 v.toNat ∧ (S.queue n).space = bitField 59 48 v.toNat))) ∧
  (∀ s sp v, s.boot.ready = true → exec (.spsaveWrite sp v) s = .next
    (if s.saved.any (fun kv => (s.launch kv.2.cluster.launch).space == sp) || s.draining.any (fun t => s.spaceOf t == sp) then s
     else s.updSpace sp fun x => { x with save := BitVec.ofNat 64 (bitField 63 12 v.toNat * 2 ^ 12) })) ∧
  (∀ s sp (v : DWord), s.boot.ready = true →
    let x : DWord := BitVec.ofNat 64 (bitField 63 63 v.toNat * 2 ^ 63 + bitField 57 5 v.toNat * 2 ^ 5)
    let live := s.liveLaunches.any fun kv => kv.2.space == sp && kv.2.nen
    exec (.spxcWrite sp v) s = .next (if live || (x.getLsbD 63 && decide (0x3000000000 < bitField 28 5 v.toNat * 2 ^ 28 + 2 ^ 28)) then s else
      (if (s.space sp).xc = x then s else { s with blocks := s.blocks.filter fun b => b.space ≠ sp }).updSpace sp fun y => { y with xc := x })) ∧
  (∀ s v, s.boot.ready = true → exec (.biasctlWrite v) s = .next (if s.bias.busy || s.biasAny then s else
    { s with bias := { s.bias with ctl := BitVec.ofNat 64 (bitField 63 63 v.toNat * 2 ^ 63 + bitField 51 12 v.toNat * 2 ^ 12) } })) ∧
  (∀ s sp (v : DWord), s.boot.ready = true → v.toNat % 2 ^ 8 = 0 → bitField 62 60 v.toNat = 0 →
    let S := s.updSpace sp fun x => { x with
      trial := v
      trcnt := if v.getLsbD 63 && !(s.space sp).trial.getLsbD 63 then 0 else x.trcnt }
    exec (.sptrialWrite sp v) s = .next (if v.getLsbD 63 then S else S.debtMap sp fun _ _ g => { g with debt := 0 })) ∧
  (∀ s c (v : DWord), s.boot.ready = true → exec (.gbstatClear c v) s =
    .next (if v.getLsbD 31 then s.updCore c fun k => { k with full := false } else s)) ∧
  (∀ s n sp c v win, s.boot.ready = false → exec (.intlvWrite n v) s = .next s ∧ exec (.sprootWrite sp ⟨v, win⟩) s = .next s ∧
    exec (.spwingWrite sp v) s = .next s ∧ exec (.qcfgWrite n v) s = .next s ∧ exec (.spsaveWrite sp v) s = .next s ∧
    exec (.spxcWrite sp v) s = .next s ∧ exec (.biasctlWrite v) s = .next s ∧ exec (.sptrialWrite sp v) s = .next s ∧
    exec (.gbstatClear c v) s = .next s) ∧
  (∀ s off size v, (regAt (off / 8 * 8) = none ∨ s.boot.powered = false ∨ sizeOk off size = false) →
    exec (.registerWrite ⟨off, size⟩ v) s = .next s) ∧
  (∀ s off v r, regAt off = some r → off % 8 = 0 → s.boot.powered = true → (s.boot.ready = true ∨ r.early = true) →
    exec (.registerWrite ⟨off, 8⟩ v) s = s.regWrite r v) ∧
  (∀ s off v w, regAt (off / 8 * 8) = some (.mbdata w) → off % 4 = 0 → s.boot.powered = true →
    exec (.registerWrite ⟨off, 4⟩ v) s = .next (s.mbdataWrite (8 * w + off % 8) 4 v)) ∧
  (∀ s off size v r, regAt (off / 8 * 8) = some r → s.boot.ready = false → r ≠ .mbctl → (∀ w, r ≠ .mbdata w) →
    exec (.registerWrite ⟨off, size⟩ v) s = .next s)

/-- R394 to R402: host accesses to device memory wait while their page is being flipped, and are served at once otherwise, a
read in device bias with the line in the Invalid state; a bias flip that is asked for starts, unless the page has that bias
already or a row of it is booked, and on its end what waited goes on; BIRspI of a unit serves the access that waits for it; the
completion of an H access performs it, a poisoned one and a timeout raise POISON. Where it rests on the model's choices: log 92,
93, 107. -/
def Obligations.HostMemoryEvents : Prop :=
  (∀ s pa, pa / 64 * 64 < hdmEnd → exec (.hostMemRead pa) s = .next (
    if !s.boot.ready then { s with hostAns := (pa / 64 * 64, none, true) :: s.hostAns }
    else if s.flipping (pa / 64 * 64) then { s with hostReqs := s.hostReqs ++ [⟨pa / 64 * 64, none⟩] }
    else { s with hostAns := (pa / 64 * 64, s.hostGet (pa / 64 * 64), !s.hostBias (pa / 64 * 64)) :: s.hostAns })) ∧
  (∀ s pa data, pa < hdmEnd → exec (.hostMemWrite pa data) s = .next (
    if !s.boot.ready then s
    else if s.flipping pa && !s.bias.snoops.contains (pa / 64) then { s with hostReqs := s.hostReqs ++ [⟨pa, some (data.take (64 - pa % 64))⟩] }
    else s.hostPut pa (data.take (64 - pa % 64)))) ∧
  (∀ s (v : DWord), (s.boot.ready = false ∨ s.bias.busy = true ∨ v.getLsbD 0 = false) → exec (.biasflipGo v) s = .next s) ∧
  (∀ s (v : DWord), s.boot.ready = true → s.bias.busy = false → v.getLsbD 0 = true →
    let page := bitField 51 12 v.toNat
    let S : State := { s with bias := { s.bias with page := page, dir := v.getLsbD 60 } }
    (S.hostBias (4096 * page) = v.getLsbD 60 → exec (.biasflipGo v) s = .next (S.flipDone 0)) ∧
    (S.hostBias (4096 * page) ≠ v.getLsbD 60 → S.pageBooked page = true → exec (.biasflipGo v) s = .next (S.flipDone 1)) ∧
    (S.hostBias (4096 * page) ≠ v.getLsbD 60 → S.pageBooked page = false → ∃ T, exec (.biasflipGo v) s = .next T ∧
      T.bias.busy = true ∧ T.bias.page = page ∧ T.bias.dir = v.getLsbD 60 ∧
      T.bias.snoops = if v.getLsbD 60 then [] else (List.range 64).map fun k => 64 * page + k)) ∧
  (∀ s, s.bias.busy = true → s.flipQuiet = true → ∃ F : State, F.bias.busy = false ∧ F.bias.snoops = [] ∧ F.bias.st = 0 ∧
    exec .biasFlipComplete s = .next
      (let R := forEach (F.accs.filter fun kv => kv.2.snoops.contains flipWait) F fun S kv => S.flipResume kv.1 kv.2
       forEach R.hostReqs { R with hostReqs := [] } fun S r => S.hostServe r)) ∧
  (∀ s u id a, s.accs.find? (fun kv => kv.2.snoops.contains (biasMark u)) = some (id, a) →
    let b : Access := { a with snoops := [] }
    exec (.birspi u) s = .next (({ s with accs := amapInsert s.accs id b }.serve id b true (fun S => S.rowRead a.pa a.n a.key)
      fun S x => let S := (S.rowWrite a.pa a.n a.key x).unitStored b; if a.bad then S.setPoison (a.pa / 64) true else S))) ∧
  (∀ s u S, s.accs = [] → s.walkSnooped u = some S → exec (.birspi u) s = .next S) ∧
  (∀ s u, s.accs = [] → s.walkSnooped u = none → s.bias.busy = true → u ∈ s.bias.snoops → exec (.birspi u) s =
    .next { s with bias := { s.bias with snoops := s.bias.snoops.filter (· ≠ u) } }) ∧
  (∀ s acc a, s.hWaiting acc = some a →
    (a.engine = false → exec (.cxlCompletionTimeout acc) s = .next ((s.failAcc acc a (poisonTrap a.va a.pa)).logEvent 4 a.core [a.va, a.pa])) ∧
    (a.engine = true → exec (.cxlCompletionTimeout acc) s = .next ((s.finishAcc acc { a with bad := true } 0).logEvent 4 a.core [a.va, a.pa])) ∧
    (s.portUp a.pa = true →
      (∀ data, a.engine = false → exec (.hPathCompletion acc data true) s = .next (s.failAcc acc a (poisonTrap a.va a.pa))) ∧
      (∀ data poisoned, (poisoned = true → a.engine = true) → exec (.hPathCompletion acc data poisoned) s = .next
        ((if data.length = a.n then s.hPut a.pa a.n (bytesToNat data) else s).serve acc a true
          (fun S => (S.hGet a.pa a.n, poisoned || S.hBad a.pa, S)) fun S x =>
            let S := S.hPut a.pa a.n x
            if a.bad then S.hMark a.pa true else if a.whole then S.hMark a.pa false else S))))

/-- R347, R351, R352, R356, R405: before DEVREADY these writes are ignored; after it the host disposes of its records as the
porter does, a word that is to be passed being read first, and reads and patches their threads; a SEQ that names no record of
the host's does nothing but set GBPK's status. R364 to R373: a debugger that is enabled stops, resumes and steps the teams
that it names; a RESUME lifts what a debugger's PREEMPT holds; a cluster that is named is pre-empted where its save fits its
pool; a dump goes from part to part; a sample of a core counts for every space that samples; the trial debts fall. Where it
rests on the model's choices: log 34, 36, 37. -/
def Obligations.HostDebugEvents : Prop :=
  (∀ s c q, s.boot.ready = true → s.hostRecord c q = none →
    (∀ x ∈ [Instr.hostResume c q, .hostResumeSkip c q, .hostKillt c q, .hostKilltG c q, .hostEndGrid c q], exec x s = .next s) ∧
    ∀ sel, exec (.gbpkRead c q sel) s = .next (s.updCore c fun k => { k with gbpk := gbpkValue 1 0 sel q }) ∧
      exec (.gbpkWrite c q sel) s = .next (s.updCore c fun k => { k with gbpk := gbpkValue 1 1 sel q })) ∧
  (∀ s c q e, s.boot.ready = true → s.hostRecord c q = some e →
    exec (.hostResume c q) s = .next (s.dispose c e .resume) ∧ 
    (∀ S, s.skipReady e = (true, S) → exec (.hostResumeSkip c q) s = .next (S.dispose c e .skip)) ∧
    (∀ S, s.skipReady e = (false, S) → exec (.hostResumeSkip c q) s = .next { S with later := S.later ++ [.hostResumeSkip c q] }) ∧
    exec (.hostKillt c q) s = .next (s.dispose c e .kill) ∧ exec (.hostKilltG c q) s = .next (s.dispose c e .killGroup) ∧
    exec (.hostEndGrid c q) s = .next (s.endGrid e.launch .ended) ∧
    ∀ sel, s.selOk e (sel % 512) = true →
      (∃ S : State, exec (.gbpkRead c q sel) s = .next (S.updCore c fun k => { k with gbpk := gbpkValue 0 0 sel q }) ∧
        (S.core c).gbpkv = BitVec.ofNat 32 (s.peekSel e (sel % 512))) ∧
      ∀ S, s.patchSel e (sel % 512) (s.core c).gbpkv = some S →
        exec (.gbpkWrite c q sel) s = .next (S.updCore c fun k => { k with gbpk := gbpkValue 0 1 sel q })) ∧
  (∀ s sp tk c, s.dbgOn sp = false → ∀ x ∈ [Instr.dbgreqStop sp tk c, .dbgreqResume sp tk c, .dbgreqStep sp tk c, .dbgreqDump sp tk c],
    exec x s = .next s) ∧
  (∀ s sp tk c q sel, s.boot.ready = false → ∀ x ∈ [Instr.dbgreqStop sp tk c, .dbgreqResume sp tk c, .dbgreqStep sp tk c,
    .dbgreqDump sp tk c, .dbgreqPreempt sp tk c, .hostResume c q, .hostResumeSkip c q, .hostKillt c q, .hostKilltG c q,
    .hostEndGrid c q, .gbpkRead c q sel, .gbpkWrite c q sel], exec x s = .next s) ∧
  (∀ s sp tk c, s.boot.ready = true → s.dbgOn sp = true →
    exec (.dbgreqStop sp tk c) s = .next (forEach (s.dbgTeams sp tk c) s fun s t => if (s.team t).stop.isSome then s else
      s.teamStop t 0 (((s.team t).groups.head?.map (·.1)).getD 0) []) ∧
    exec (.dbgreqStep sp tk c) s = .next (forEach (s.dbgTeams sp tk c) s fun s t =>
      s.updTeam t fun tm => { tm with stop := tm.stop.map fun x => { x with stepping := true } }) ∧
    (∃ S, exec (.dbgreqResume sp tk c) s = .next S ∧ SameRegs s S ∧ ∀ t ∈ s.dbgTeams sp tk c, (S.team t).stop = none ∧
      (S.cluster (s.team t).cluster).byDbg = false) ∧
    let x := s.space sp
    let run := exec (.dbgreqDump sp 0 c) s
    (x.dbg.getLsbD 58 = false → run = .next ((s.updSpace sp fun x =>
      { x with dbg := x.dbg ||| BitVec.ofNat 64 (2 ^ 58), dumped := false }).dumpDue sp c)) ∧
    (x.dbg.getLsbD 58 = true → s.dumpReady sp = false → run = .next (s.dumpDue sp c)) ∧
    (x.dbg.getLsbD 58 = true → s.dumpReady sp = true → x.dumped = false → run = .next ((s.dumpTeams sp).dumpDue sp c)) ∧
    ∀ S, x.dbg.getLsbD 58 = true → s.dumpReady sp = true → x.dumped = true →
      (s.capture sp = (false, S) → run = .next (S.dumpDue sp c)) ∧
      (s.capture sp = (true, S) → run = .next (S.updSpace sp fun x => { x with dbg := x.dbg &&& ~~~ BitVec.ofNat 64 (2 ^ 58) }))) ∧
  (∀ s sp tk c, s.dbgTeams sp tk c = [] → exec (.dbgreqPreempt sp tk c) s = .next s) ∧
  (∀ s sp tk c k, s.boot.ready = true → ((s.dbgTeams sp tk c).map fun t => (s.team t).cluster).eraseDups = [k] →
    s.stopping ((s.residents k).headD 0) = false →
    let busy := (s.residents k).any fun t => (s.team t).preempt
    let run := exec (.dbgreqPreempt sp tk c) s
    (busy = true → run = .next (s.updCluster k fun x => { x with byDbg := true })) ∧
    (busy = false → s.poolFits sp (s.residents k) = true → run = .next ((s.preemptClusters [k]).updCluster k fun x => { x with byDbg := true })) ∧
    (busy = false → s.poolFits sp (s.residents k) = false → run = .next s)) ∧
  (∀ s c q, s.sampling ≠ [] → exec (.pcSample c q) s = .next (forEach s.sampling s fun S n => S.sample n c q)) ∧
  (∀ s, exec .trialDebtTick s = .next s.debtFall)

/-! ## Events: the module -/

/-- R4, R40, R402 to R407: power-loss and reset clear the module; bring-up advances step by step; an uncorrectable UCIe error
ends every grid with a machine check; a change of the clock ratio holds new requests until the crossing is quiet; each tick
samples the module, keeps CCLK within its table and lowers it where a diode is hot, and a trip that one diode has made due
removes power. R408 to R411: a mailbox command in progress completes with its status, BUSY clear and vector 5: SENSORS and
LOGREAD put an answer, POWERCAP sets a cap from 600 to 2,400 W and KEYSET a key slot other than 0, and both refuse other
values; FWLOAD takes the chunks of an image in order; SPDM answers, and signs with a leaf of 2^20; an unknown command is
BADCMD. Where an argument lies in the command's bytes the model leaves free (R408 gives no layout). Where it rests on the
model's choices: log 6, 97, 98, 99, 102. -/
def Obligations.ModuleEvents : Prop :=
  (∀ s, exec .moduleReset s = .next s.resetModule ∧ exec .modulePowerLoss s = .next (s.cleared false)) ∧
  (∀ s, exec .ucieUncorrectableError s = .next (((forEach (s.liveLaunches.map (·.1)) s fun S la => S.endGrid la .breach).logEvent 5 0
    []).msiRaise 4)) ∧
  (∀ s r, (r = 4 ∨ r = 5 ∨ r = 6) →
    (s.crossingQuiet = true → (s.ratioTo = none ∨ s.ratioTo = some r) → exec (.clockRatioChange r) s = .next
      { s with ratio := r, ratioTo := none, bankReqs := s.bankReqs.map fun x => { x with held := false } }) ∧
    (s.crossingQuiet = false → s.ratioTo = none → exec (.clockRatioChange r) s = .next
      { s.holdBeyond with ratioTo := some r, later := s.later ++ [.clockRatioChange r] })) ∧
  (∀ s ok found, s.boot.powered = true → s.boot.recov = false → s.boot.fail = false → s.boot.ready = false → s.boot.phase = 0 →
    exec (.bringupStepComplete ok found) s = .next { s with boot := { s.boot with phase := 1, sub := 0 } }) ∧
  (∀ s found, s.boot.powered = true → s.boot.recov = false → s.boot.fail = false → s.boot.ready = false → s.boot.phase ≠ 0 →
    (s.boot.phase = 8 → 0 ∈ found) → exec (.bringupStepComplete true found) s = .next (s.bringupDo found).bringupNext) ∧
  (∀ s ok found, s.boot.powered = true → s.boot.recov = false → s.boot.fail = false → s.boot.ready = false →
    ((s.boot.phase = 8 ∧ 0 ∉ found) ∨ (ok = false ∧ (s.boot.phase = 4 ∨ s.boot.phase = 5))) →
    exec (.bringupStepComplete ok found) s = .next s.bringupFail) ∧
  (∀ s temps currents volts t f, s.boot.powered = true → temps.length = 192 → currents.length = 32 → volts.length = 32 →
    ∃ S, exec (.powerManagementTick temps ⟨currents, volts⟩ ⟨t, f⟩) s = .next S ∧ S.mgmt.temps = temps ∧ S.mgmt.currents = currents ∧
      S.mgmt.volts = volts ∧ S.mgmt.coolTemp = t ∧ S.mgmt.coolFlow = f ∧ 1200 ≤ S.mgmt.cclkMhz ∧ S.mgmt.cclkMhz ≤ 3600 ∧
      ((∃ x ∈ temps, 105 < x) → S.mgmt.cclkMhz ≤ max 1200 (s.mgmt.cclkMhz - 100)) ∧
      (S.mgmt.cclkMhz = s.mgmt.cclkMhz → S.rows = s.rows) ∧ S.mgmt.coolOut = (decide (40 < t) || decide (f < 20)) ∧
      S.mgmt.trip = s.mgmt.trip.or (if S.mgmt.hotFor.any fun x => decide (100 ≤ x.2) then some temps else none)) ∧
  (∀ s temps, s.mgmt.trip = some temps → exec .thermalTrip s = .next ((s.logEvent 10 0 temps).cleared false)) ∧
  (∀ s, s.boot.powered = true → s.boot.recov = false → s.mgmt.mbBusy = true →
     (s.mgmt.mbCmd = 1 → exec .sensors s = .next ((s.mbPut (Config.sensorBytes s.mgmt.temps s.mgmt.currents s.mgmt.volts
       s.mgmt.coolTemp s.mgmt.coolFlow s.mgmt.cclkMhz)).mbDone 0)) ∧
     (s.mgmt.mbCmd = 2 → exec .logread s = .next ((s.mbPut (Config.logLayout
       (((s.mgmt.log.drop (Config.logIndex s.mbBytes)).take 127).map LogEntry.bytes) s.mgmt.dropped)).mbDone 0)) ∧
     (s.mgmt.mbCmd = 3 → exec .powercap s = .next (let w := Config.capOf s.mbBytes
       if w < 600 ∨ 2400 < w then s.mbDone 2 else ({ s with mgmt := { s.mgmt with cap := w } } : State).mbDone 0)) ∧
     (s.mgmt.mbCmd = 4 → exec .keyset s = .next (let slot := Config.keySlotOf s.mbBytes % 512
       if slot = 0 then s.mbDone 2
       else ({ s with keys := amapSet slot s.keys slot (512 + Config.unwrapKey s.mgmt.spdm s.mbBytes) } : State).mbDone 0)) ∧
     (s.mgmt.mbCmd = 5 → s.mgmt.writing = false → s.mgmt.mbLen < 16 → exec .fwload s = .next (s.mbDone 1)) ∧
     (s.mgmt.mbCmd = 5 → s.mgmt.writing = true → exec .fwload s = .next s.fwWritten) ∧
     (s.mgmt.mbCmd = 5 → s.mgmt.writing = false → 16 ≤ s.mgmt.mbLen → bytesToNat ((s.mbBytes.drop 8).take 1) < 4 →
       bytesToNat ((s.mbBytes.drop 9).take 7) = 0 →
       let offset := bytesToNat (s.mbBytes.take 4)
       let total := bytesToNat ((s.mbBytes.drop 4).take 4)
       let flags := bytesToNat ((s.mbBytes.drop 8).take 1)
       (flags % 2 = 1 → offset = 0 → exec .fwload s = .next (s.fwTake (s.mbBytes.drop 16) total (flags / 2 % 2 == 1))) ∧
       ∀ img, flags % 2 = 0 → s.mgmt.partial_ = some img → total = s.mgmt.chunkTotal → offset = img.length →
         exec .fwload s = .next (s.fwTake (img ++ s.mbBytes.drop 16) total (flags / 2 % 2 == 1))) ∧
     (s.mgmt.mbCmd = 6 → spdmCode s.mbBytes ∈ spdmRequests →
       (spdmSigned s.mbBytes = true → 2 ^ 20 ≤ s.mgmt.leaves → exec .spdm s = .next (s.mbDone 2)) ∧
       ((spdmSigned s.mbBytes = true → s.mgmt.leaves < 2 ^ 20) → exec .spdm s = .next (({ s with mgmt := { s.mgmt with
         spdm := s.mgmt.spdm ++ [s.mbBytes]
         leaves := if spdmSigned s.mbBytes then s.mgmt.leaves + 1 else s.mgmt.leaves } }.mbPut (Config.spdmReply s.mgmt.spdm s.mbBytes
           s.measured (if spdmSigned s.mbBytes then some s.mgmt.leaves else none))).mbDone 0))) ∧
     (s.mgmt.mbCmd = 6 → spdmCode s.mbBytes ∉ spdmRequests → exec .spdm s = .next ((s.mbPut (spdmUnsupported s.mbBytes)).mbDone 0)) ∧
     ∀ c, c = s.mgmt.mbCmd → (c = 0 ∨ 6 < c) → exec (.mailboxBadcmd c) s = .next (s.mbDone 1))

/-! ## Rules in the specification's own arithmetic, decoding, reset and the step -/

/-- R172, R173, R174: the logic instructions, the shifts and the field and byte instructions write, for every participant (or
once for the group, in an .S form), the word that the rule's formulas give of their operands, and change no other register and
no memory; nothing of a core changes but its guest book and, where the grid is ending, private lines that are dropped. -/
def Obligations.BitRules : Prop :=
  ∀ x o sc u rel, BitForm x o sc u rel → ∀ s i, Issues s o { u with sform := sc } i →
    ∃ (s' : State) (r : Nat → Word), exec x s = .next s' ∧
      (∀ l, rel (src32 s.reading i l o.a) (src32 s.reading i l o.b) (src32 s.reading i l o.c) (r l)) ∧
      (sc = false → Wrote s s.reading s' i fun l => res32 o.d (r l)) ∧
      (sc = true → WroteS s s.reading s' i [(o.d.toNat, r (i.parts.headD 0))] fun _ => none)

/-- R269, R272: MCLR with a legal mask sets the masked-in elements of its tile to zero, gives the tile its kind, unbinds the tile's partial and
retires; with M = 0 or N = 0 no element is masked in. MNOP retires when it starts, with no other effect. -/
def Obligations.MclrAndMnop : Prop :=
  ∀ s t st c o, (s.team t).stream = some st → st.cmd? c.seq = some c → c.faulted = false →
    (c.started = true ∨ (st.startable c = true ∧ s.streamHeld t = false)) → s.engineTurn t = true →
    let st1 := if c.started then st else st.start c
    let start := (s.updStream t fun _ => st1).updCore (s.team t).core fun k => { k with mLast := (s.team t).slot }
    (c.instr = .mnop o → exec (.commandRetire t c.seq) s = .next (start.cmdRetire t c.seq)) ∧
    (∀ int, c.instr = .mclr o int → maskBad c.kc true true false 0 = false →
      let M := bitField 4 0 c.kc.toNat
      let N := bitField 12 8 c.kc.toNat
      let old : Tile := amapGet {} st.a o.d.toNat
      ∃ tile : Tile, exec (.commandRetire t c.seq) s = .next ((start.updStream t fun _ => { st1 with
          a := amapInsert st.a o.d.toNat tile, parts := st.parts.filter fun p => p.tile ≠ o.d.toNat }).cmdRetire t c.seq) ∧
        tile.int = int ∧ ∀ i < 16, ∀ j < 16, tile.get i j = if i < M ∧ j < N then 0 else old.get i j)

/-- Words that the listings of the specification encode (N19, N20, N36, chapters 9, 11 to 13, 20) decode to the instructions that
they list; a word of zeros is ILLEGAL_OPCODE and one whose LEN is 11 LEN_RESERVED (R163). -/
def Obligations.DecodeWords : Prop :=
  let o : Ops := ⟨.w64, false, 7, false, false, 0, .v 0, .v 0, .v 0, 0⟩
  decodeWord 32 0x0000601203007418 = .ok (.ffma { o with nw := true, a := .s 1, b := .v 2, c := .v 3 } .f32 false
    ⟨false, false, false, false, false, false, .rne⟩, 8) ∧
  decodeWord 32 (0x0C00180006057049 + 0x000186A0 * 2 ^ 64) = .ok (.iadd { o with len := .w96, d := 5, a := .v 3, b := .imm32, imm := 100000 }
    false .i32 false, 12) ∧
  decodeWord 32 0x0100080000017208 = .ok (.isetp { o with d := 1, b := .s 0 } .n32 .none false 0 .lt, 8) ∧
  decodeWord 32 0x8100082000027800 = .ok (.ldg { o with d := 2, b := .s 4 } ⟨true, false, .b32, 2⟩ MemX.default, 8) ∧
  decodeWord 32 0x00000005FE007304 = .ok (.conv { o with rb := true, a := .imm 255 }, 8) ∧
  decodeWord 32 0x00000000000092F8 = .ok (.exit { o with g := 1, gn := true }, 8) ∧
  decodeWord 32 0x00000005E00072C0 = .ok (.bra { o with a := .imm 0xF0 }, 8) ∧
  decodeWord 32 0x0000000228057F60 = .ok (.resumeSkip { o with d := 5, a := .s 20 }, 8) ∧
  decodeWord 32 0x0500081800087688 = .ok (.cvq4 { o with d := 8, b := .s 3 } true 2, 8) ∧
  decodeWord 32 (0x0100A01804047E12 + 0x60 * 2 ^ 64 + 0x1E280300 * 2 ^ 96) =
    .ok (.mma ⟨4, .v 2, .v 3, .v 5, 0x60, 7, true, 5, false, 0, 1, true, false⟩ false 2 false, 16) ∧
  decodeWord 32 0 = .error .illegalOpcode ∧ decodeWord 32 0x7FFB = .error .lenReserved

/-- R147 to R161, R245: the decoder reads from the word of every well-formed instruction that instruction and its length. -/
def Obligations.DecodeEncode : Prop := ∀ i e, i.wf = true → encode i = some e → decodeWord e.1 e.2 = .ok (i, e.1)

/-- R76, R189, R190, R381, R404: right after reset nothing is placed and nothing is in flight, both clocks stand at 0, every
core's EPOCH is 1 and its REGION 0, every line's recorded release is (0, 0) and every PUB 0, the part is not ready, every
memory lists nothing, which is its canonical form, and the tables and clocks are within their bounds. The first turn is the
model's own. Where it rests on the model's choices: log 1, 9. -/
def Obligations.ResetState : Prop :=
  let s := State.reset
  s.cclk = 0 ∧ s.devtime = 0 ∧ s.boot.ready = false ∧ s.turn = .auto ∧ s.nextTicket = 1 ∧
  (∀ c, (s.core c).epoch = 1 ∧ (s.core c).region = 0) ∧ (∀ line, amapGet (0, 0) s.homeRec line = (0, 0)) ∧
  (∀ k c, s.pubOf k c = 0) ∧ (∀ a, memGet s.dram a = 0) ∧
  s.teams = [] ∧ s.launches = [] ∧ s.accs = [] ∧ s.copies = [] ∧ s.msgs = [] ∧ s.later = [] ∧ s.inputs = [] ∧
  s.InForm

/-- A step runs what it decoded (R134, R140, R164, R165, R248). A message in flight is delivered first, the oldest one, and
keeps the turn of what may act. At a group's turn, where its run has lanes, none of them waits for an access that may fail, is
parked, at a breakpoint, outside a running trial waits at an exchange, is at an untranslated Nirop word or in the sequence of
one, the block at the PC is in the instruction cache and its word passes the decode checks, the step is that instruction's
meaning, and counts in a trial and as a use of its translated block, or leaves the reason why it did not issue. The checks
pass for a word that decodes to `i`, lies in its block, is no stream word, and is not privileged unless the night porter
fetched it. At a stream's turn the step is its fetch. After it time passes and the next turn is chosen (the model's own).
Where it rests on the model's choices: log 5. -/
def Obligations.StepRunsDecoded : Prop :=
  (∀ s m ms s', s.boot.powered = true → s.msgs = m :: ms → exec m { s with msgs := ms } = .next s' → step s = .next (s'.keepTurn s.turn)) ∧
  (∀ s t g r b i, s.boot.powered = true → s.msgs = [] → s.turn = .group t g → (s.group t g).run = some r → r.lanes ≠ [] →
    s.accBars t g r.lanes = false → (∀ l ∈ r.lanes, (s.thread t g l).pend = none) →
    let pc := (s.thread t g (r.lanes.headD 0)).pc
    let la := (s.team t).launch
    (s.group t g).exchangeAt pc = false → s.trialHeld t g pc = false → s.seqNow la pc = none → ((s.launch la).nen = false ∨ s.niropNative la pc = true) → s.breakHits t g pc r.lanes = [] →
    s.icacheAt (s.team t).core la pc = some b → groupDecode (blockFrom b pc) pc ((s.team t).kind = .porter) = .inl i →
    (∀ s', exec i s = .next s' → step s = .next ((s.slotEnd s' t g pc i).resched s.turn)) ∧
    (∀ f, exec i s = .fault f → step s = .fault f) ∧ ∀ f, exec i s = .refused f → step s = .refused f) ∧
  (∀ w pc porter i n, decodeWord (32 - pc % 32) w = .ok (i, n) → opcStream (opcOf w) = false →
    (opcPrivileged (opcOf w) = false ∨ porter = true) → groupDecode w pc porter = .inl i) ∧
  (∀ s t s', s.boot.powered = true → s.msgs = [] → s.turn = .stream t → exec (.sequencerFetch t) s = .next s' →
    step s = .next (s'.resched s.turn))

/-- R142, R251, R259, R365: the part never stops: from every state, those that no run reaches too, a step answers a next state;
whatever a word or an event does wrong is a trap, a status or nothing, never a stop of the model. The turn that the step leaves is
that of something that may act: a due step, a step that happens of itself, an input that there is, a group that has a run, is not
stopped but to step, and has no access in flight that may fail, or a stream that may fetch. (The choice among these is the
model's free choice.) Where it rests on the model's choices: log 4, 5, 7, 8. -/
def Obligations.EveryStepAnswers : Prop := ∀ s, ∃ s', step s = .next s' ∧ s'.turnOk

/-- R4, R299, R345, R406, R408: every step keeps the forms and bounds of the part's memories and tables: the four memories are in
their canonical form (the model's own), a guest book holds 64 records at most and the event log 4,096 entries, the clock, its ratio
and the power cap stay in their ranges, and so does the size of the ring. Where it rests on the model's choices: log 8. -/
def Obligations.EveryStepKeepsForms : Prop := ∀ s s', s.InForm → step s = .next s' → s'.InForm
end

