-- ==== Sys2Proof/Laws/Exec.lean ====
section
/-! SUPPORT. What `exec` does with each constructor: its meaning. -/

namespace Sys2Proof.Machine

@[simp] theorem exec_mov {o sc} {s} : exec (.mov o sc) s = Sys2Proof.Machine.execMov o sc s := rfl
@[simp] theorem exec_movi {o sc} {s} : exec (.movi o sc) s = Sys2Proof.Machine.execMovi o sc s := rfl
@[simp] theorem exec_sel {o sc neg q} {s} : exec (.sel o sc neg q) s = Sys2Proof.Machine.execSel o sc neg q s := rfl
@[simp] theorem exec_iadd {o sc ty sat} {s} : exec (.iadd o sc ty sat) s = Sys2Proof.Machine.execIadd o sc ty sat s := rfl
@[simp] theorem exec_isub {o sc ty sat} {s} : exec (.isub o sc ty sat) s = Sys2Proof.Machine.execIsub o sc ty sat s := rfl
@[simp] theorem exec_iabs {o sat} {s} : exec (.iabs o sat) s = Sys2Proof.Machine.execIabs o sat s := rfl
@[simp] theorem exec_ineg {o sat} {s} : exec (.ineg o sat) s = Sys2Proof.Machine.execIneg o sat s := rfl
@[simp] theorem exec_imin {o sc ty} {s} : exec (.imin o sc ty) s = Sys2Proof.Machine.execImin o sc ty s := rfl
@[simp] theorem exec_imax {o sc ty} {s} : exec (.imax o sc ty) s = Sys2Proof.Machine.execImax o sc ty s := rfl
@[simp] theorem exec_iadd64 {o sc ty sat w} {s} : exec (.iadd64 o sc ty sat w) s = Sys2Proof.Machine.execIadd64 o sc ty sat w s := rfl
@[simp] theorem exec_imul {o sc ty sat} {s} : exec (.imul o sc ty sat) s = Sys2Proof.Machine.execImul o sc ty sat s := rfl
@[simp] theorem exec_imulh {o ty} {s} : exec (.imulh o ty) s = Sys2Proof.Machine.execImulh o ty s := rfl
@[simp] theorem exec_imad {o sc ty sat} {s} : exec (.imad o sc ty sat) s = Sys2Proof.Machine.execImad o sc ty sat s := rfl
@[simp] theorem exec_imadw {o ty sat} {s} : exec (.imadw o ty sat) s = Sys2Proof.Machine.execImadw o ty sat s := rfl
@[simp] theorem exec_and {o sc} {s} : exec (.and o sc) s = Sys2Proof.Machine.execAnd o sc s := rfl
@[simp] theorem exec_or {o sc} {s} : exec (.or o sc) s = Sys2Proof.Machine.execOr o sc s := rfl
@[simp] theorem exec_xor {o sc} {s} : exec (.xor o sc) s = Sys2Proof.Machine.execXor o sc s := rfl
@[simp] theorem exec_not {o} {s} : exec (.not o) s = Sys2Proof.Machine.execNot o s := rfl
@[simp] theorem exec_lgc3 {o table} {s} : exec (.lgc3 o table) s = Sys2Proof.Machine.execLgc3 o table s := rfl
@[simp] theorem exec_shl {o sc wrap} {s} : exec (.shl o sc wrap) s = Sys2Proof.Machine.execShl o sc wrap s := rfl
@[simp] theorem exec_shr {o sc wrap} {s} : exec (.shr o sc wrap) s = Sys2Proof.Machine.execShr o sc wrap s := rfl
@[simp] theorem exec_sar {o wrap} {s} : exec (.sar o wrap) s = Sys2Proof.Machine.execSar o wrap s := rfl
@[simp] theorem exec_rot {o} {s} : exec (.rot o) s = Sys2Proof.Machine.execRot o s := rfl
@[simp] theorem exec_fshf {o left} {s} : exec (.fshf o left) s = Sys2Proof.Machine.execFshf o left s := rfl
@[simp] theorem exec_bfe {o ty} {s} : exec (.bfe o ty) s = Sys2Proof.Machine.execBfe o ty s := rfl
@[simp] theorem exec_bfi {o} {s} : exec (.bfi o) s = Sys2Proof.Machine.execBfi o s := rfl
@[simp] theorem exec_popc {o} {s} : exec (.popc o) s = Sys2Proof.Machine.execPopc o s := rfl
@[simp] theorem exec_clz {o} {s} : exec (.clz o) s = Sys2Proof.Machine.execClz o s := rfl
@[simp] theorem exec_brev {o} {s} : exec (.brev o) s = Sys2Proof.Machine.execBrev o s := rfl
@[simp] theorem exec_bysel {o} {s} : exec (.bysel o) s = Sys2Proof.Machine.execBysel o s := rfl
@[simp] theorem exec_lea {o ty sh} {s} : exec (.lea o ty sh) s = Sys2Proof.Machine.execLea o ty sh s := rfl
@[simp] theorem exec_isetp {o ty op qn q cmp} {s} : exec (.isetp o ty op qn q cmp) s = Sys2Proof.Machine.execIsetp o ty op qn q cmp s := rfl
@[simp] theorem exec_fsetp {o ty op qn q cmp} {s} : exec (.fsetp o ty op qn q cmp) s = Sys2Proof.Machine.execFsetp o ty op qn q cmp s := rfl
@[simp] theorem exec_iaddP {o ty} {s} : exec (.iaddP o ty) s = Sys2Proof.Machine.execIaddP o ty s := rfl
@[simp] theorem exec_isubP {o ty} {s} : exec (.isubP o ty) s = Sys2Proof.Machine.execIsubP o ty s := rfl
@[simp] theorem exec_imulP {o ty} {s} : exec (.imulP o ty) s = Sys2Proof.Machine.execImulP o ty s := rfl
@[simp] theorem exec_lgc3P {o table} {s} : exec (.lgc3P o table) s = Sys2Proof.Machine.execLgc3P o table s := rfl
@[simp] theorem exec_plop {o pa pb pc} {s} : exec (.plop o pa pb pc) s = Sys2Proof.Machine.execPlop o pa pb pc s := rfl
@[simp] theorem exec_pmov {o} {s} : exec (.pmov o) s = Sys2Proof.Machine.execPmov o s := rfl
@[simp] theorem exec_pmovP {o bit} {s} : exec (.pmovP o bit) s = Sys2Proof.Machine.execPmovP o bit s := rfl
@[simp] theorem exec_bra {o} {s} : exec (.bra o) s = Sys2Proof.Machine.execBra o s := rfl
@[simp] theorem exec_braAny {o neg q} {s} : exec (.braAny o neg q) s = Sys2Proof.Machine.execBraAny o neg q s := rfl
@[simp] theorem exec_braAll {o neg q} {s} : exec (.braAll o neg q) s = Sys2Proof.Machine.execBraAll o neg q s := rfl
@[simp] theorem exec_brx {o} {s} : exec (.brx o) s = Sys2Proof.Machine.execBrx o s := rfl
@[simp] theorem exec_call {o} {s} : exec (.call o) s = Sys2Proof.Machine.execCall o s := rfl
@[simp] theorem exec_callx {o} {s} : exec (.callx o) s = Sys2Proof.Machine.execCallx o s := rfl
@[simp] theorem exec_ret {o} {s} : exec (.ret o) s = Sys2Proof.Machine.execRet o s := rfl
@[simp] theorem exec_exit {o} {s} : exec (.exit o) s = Sys2Proof.Machine.execExit o s := rfl
@[simp] theorem exec_conv {o} {s} : exec (.conv o) s = Sys2Proof.Machine.execConv o s := rfl
@[simp] theorem exec_nop {o} {s} : exec (.nop o) s = Sys2Proof.Machine.execNop o s := rfl
@[simp] theorem exec_pause {o} {s} : exec (.pause o) s = Sys2Proof.Machine.execPause o s := rfl
@[simp] theorem exec_sread {o sc code} {s} : exec (.sread o sc code) s = Sys2Proof.Machine.execSread o sc code s := rfl
@[simp] theorem exec_sreadW {o code} {s} : exec (.sreadW o code) s = Sys2Proof.Machine.execSreadW o code s := rfl
@[simp] theorem exec_swrite {o code} {s} : exec (.swrite o code) s = Sys2Proof.Machine.execSwrite o code s := rfl
@[simp] theorem exec_launch {o} {s} : exec (.launch o) s = Sys2Proof.Machine.execLaunch o s := rfl
@[simp] theorem exec_prog {o} {s} : exec (.prog o) s = Sys2Proof.Machine.execProg o s := rfl
@[simp] theorem exec_lxchIdx {o w pv} {s} : exec (.lxchIdx o w pv) s = Sys2Proof.Machine.execLxchIdx o w pv s := rfl
@[simp] theorem exec_lxchRot {o w pv} {s} : exec (.lxchRot o w pv) s = Sys2Proof.Machine.execLxchRot o w pv s := rfl
@[simp] theorem exec_lxchRev {o w pv} {s} : exec (.lxchRev o w pv) s = Sys2Proof.Machine.execLxchRev o w pv s := rfl
@[simp] theorem exec_lxchXor {o w pv} {s} : exec (.lxchXor o w pv) s = Sys2Proof.Machine.execLxchXor o w pv s := rfl
@[simp] theorem exec_lxchS {o pv} {s} : exec (.lxchS o pv) s = Sys2Proof.Machine.execLxchS o pv s := rfl
@[simp] theorem exec_lqryAll {o neg q} {s} : exec (.lqryAll o neg q) s = Sys2Proof.Machine.execLqryAll o neg q s := rfl
@[simp] theorem exec_lqryAny {o neg q} {s} : exec (.lqryAny o neg q) s = Sys2Proof.Machine.execLqryAny o neg q s := rfl
@[simp] theorem exec_lqrySame {o neg q} {s} : exec (.lqrySame o neg q) s = Sys2Proof.Machine.execLqrySame o neg q s := rfl
@[simp] theorem exec_lgath {o sc rank neg q} {s} : exec (.lgath o sc rank neg q) s = Sys2Proof.Machine.execLgath o sc rank neg q s := rfl
@[simp] theorem exec_match_ {o wide} {s} : exec (.match_ o wide) s = Sys2Proof.Machine.execMatch o wide s := rfl
@[simp] theorem exec_redl {o sc op ty sat} {s} : exec (.redl o sc op ty sat) s = Sys2Proof.Machine.execRedl o sc op ty sat s := rfl
@[simp] theorem exec_redlF {o op rnd} {s} : exec (.redlF o op rnd) s = Sys2Proof.Machine.execRedlF o op rnd s := rfl
@[simp] theorem exec_fadd {o ty sc m} {s} : exec (.fadd o ty sc m) s = Sys2Proof.Machine.execFadd o ty sc m s := rfl
@[simp] theorem exec_fsub {o ty sc m} {s} : exec (.fsub o ty sc m) s = Sys2Proof.Machine.execFsub o ty sc m s := rfl
@[simp] theorem exec_fmul {o ty sc m} {s} : exec (.fmul o ty sc m) s = Sys2Proof.Machine.execFmul o ty sc m s := rfl
@[simp] theorem exec_ffma {o ty sc m} {s} : exec (.ffma o ty sc m) s = Sys2Proof.Machine.execFfma o ty sc m s := rfl
@[simp] theorem exec_fmin {o ty sc m} {s} : exec (.fmin o ty sc m) s = Sys2Proof.Machine.execFmin o ty sc m s := rfl
@[simp] theorem exec_fmax {o ty sc m} {s} : exec (.fmax o ty sc m) s = Sys2Proof.Machine.execFmax o ty sc m s := rfl
@[simp] theorem exec_fdp2 {o ty m} {s} : exec (.fdp2 o ty m) s = Sys2Proof.Machine.execFdp2 o ty m s := rfl
@[simp] theorem exec_frnd {o ty sc m} {s} : exec (.frnd o ty sc m) s = Sys2Proof.Machine.execFrnd o ty sc m s := rfl
@[simp] theorem exec_fclass {o ty} {s} : exec (.fclass o ty) s = Sys2Proof.Machine.execFclass o ty s := rfl
@[simp] theorem exec_fclassP {o ty} {s} : exec (.fclassP o ty) s = Sys2Proof.Machine.execFclassP o ty s := rfl
@[simp] theorem exec_frcp {o f na aa} {s} : exec (.frcp o f na aa) s = Sys2Proof.Machine.execFrcp o f na aa s := rfl
@[simp] theorem exec_frsq {o f na aa} {s} : exec (.frsq o f na aa) s = Sys2Proof.Machine.execFrsq o f na aa s := rfl
@[simp] theorem exec_fsqrt {o f na aa} {s} : exec (.fsqrt o f na aa) s = Sys2Proof.Machine.execFsqrt o f na aa s := rfl
@[simp] theorem exec_fexp2 {o f na aa} {s} : exec (.fexp2 o f na aa) s = Sys2Proof.Machine.execFexp2 o f na aa s := rfl
@[simp] theorem exec_flog2 {o f na aa} {s} : exec (.flog2 o f na aa) s = Sys2Proof.Machine.execFlog2 o f na aa s := rfl
@[simp] theorem exec_fsin {o f na aa} {s} : exec (.fsin o f na aa) s = Sys2Proof.Machine.execFsin o f na aa s := rfl
@[simp] theorem exec_fcos {o f na aa} {s} : exec (.fcos o f na aa) s = Sys2Proof.Machine.execFcos o f na aa s := rfl
@[simp] theorem exec_frcpIeee {o m} {s} : exec (.frcpIeee o m) s = Sys2Proof.Machine.execFrcpIeee o m s := rfl
@[simp] theorem exec_fsqrtIeee {o m} {s} : exec (.fsqrtIeee o m) s = Sys2Proof.Machine.execFsqrtIeee o m s := rfl
@[simp] theorem exec_cvt {o dst src sc hi sat rnd} {s} : exec (.cvt o dst src sc hi sat rnd) s = Sys2Proof.Machine.execCvt o dst src sc hi sat rnd s := rfl
@[simp] theorem exec_cvq2 {o satf slot} {s} : exec (.cvq2 o satf slot) s = Sys2Proof.Machine.execCvq2 o satf slot s := rfl
@[simp] theorem exec_cvq4 {o satf slot} {s} : exec (.cvq4 o satf slot) s = Sys2Proof.Machine.execCvq4 o satf slot s := rfl
@[simp] theorem exec_cvq8 {o slot} {s} : exec (.cvq8 o slot) s = Sys2Proof.Machine.execCvq8 o slot s := rfl
@[simp] theorem exec_cvx2 {o slot} {s} : exec (.cvx2 o slot) s = Sys2Proof.Machine.execCvx2 o slot s := rfl
@[simp] theorem exec_cvx4 {o slot} {s} : exec (.cvx4 o slot) s = Sys2Proof.Machine.execCvx4 o slot s := rfl
@[simp] theorem exec_cvx8 {o slot} {s} : exec (.cvx8 o slot) s = Sys2Proof.Machine.execCvx8 o slot s := rfl
@[simp] theorem exec_ldg {o m x} {s} : exec (.ldg o m x) s = Sys2Proof.Machine.execLdg o m x s := rfl
@[simp] theorem exec_stg {o m x} {s} : exec (.stg o m x) s = Sys2Proof.Machine.execStg o m x s := rfl
@[simp] theorem exec_ldp {o m x} {s} : exec (.ldp o m x) s = Sys2Proof.Machine.execLdp o m x s := rfl
@[simp] theorem exec_stp {o m x} {s} : exec (.stp o m x) s = Sys2Proof.Machine.execStp o m x s := rfl
@[simp] theorem exec_lds {o m x} {s} : exec (.lds o m x) s = Sys2Proof.Machine.execLds o m x s := rfl
@[simp] theorem exec_sts {o m x} {s} : exec (.sts o m x) s = Sys2Proof.Machine.execSts o m x s := rfl
@[simp] theorem exec_ldx {o m x} {s} : exec (.ldx o m x) s = Sys2Proof.Machine.execLdx o m x s := rfl
@[simp] theorem exec_stx {o m x} {s} : exec (.stx o m x) s = Sys2Proof.Machine.execStx o m x s := rfl
@[simp] theorem exec_ldf {o m x} {s} : exec (.ldf o m x) s = Sys2Proof.Machine.execLdf o m x s := rfl
@[simp] theorem exec_stf {o m x} {s} : exec (.stf o m x) s = Sys2Proof.Machine.execStf o m x s := rfl
@[simp] theorem exec_ldw {o m x} {s} : exec (.ldw o m x) s = Sys2Proof.Machine.execLdw o m x s := rfl
@[simp] theorem exec_stw {o m x} {s} : exec (.stw o m x) s = Sys2Proof.Machine.execStw o m x s := rfl
@[simp] theorem exec_ldk {o m x} {s} : exec (.ldk o m x) s = Sys2Proof.Machine.execLdk o m x s := rfl
@[simp] theorem exec_ldsS {o m x} {s} : exec (.ldsS o m x) s = Sys2Proof.Machine.execLdsS o m x s := rfl
@[simp] theorem exec_pfg {o m x} {s} : exec (.pfg o m x) s = Sys2Proof.Machine.execPfg o m x s := rfl
@[simp] theorem exec_stew {o w x} {s} : exec (.stew o w x) s = Sys2Proof.Machine.execStew o w x s := rfl
@[simp] theorem exec_atomg {o p ord w64 sgn op x} {s} : exec (.atomg o p ord w64 sgn op x) s = Sys2Proof.Machine.execAtomg o p ord w64 sgn op x s := rfl
@[simp] theorem exec_atomgCas {o p ord w x} {s} : exec (.atomgCas o p ord w x) s = Sys2Proof.Machine.execAtomgCas o p ord w x s := rfl
@[simp] theorem exec_atomgF {o p ord ft op x} {s} : exec (.atomgF o p ord ft op x) s = Sys2Proof.Machine.execAtomgF o p ord ft op x s := rfl
@[simp] theorem exec_redg {o p w64 sgn op x} {s} : exec (.redg o p w64 sgn op x) s = Sys2Proof.Machine.execRedg o p w64 sgn op x s := rfl
@[simp] theorem exec_redgF {o p ft op x} {s} : exec (.redgF o p ft op x) s = Sys2Proof.Machine.execRedgF o p ft op x s := rfl
@[simp] theorem exec_atoms {o p k x} {s} : exec (.atoms o p k x) s = Sys2Proof.Machine.execAtoms o p k x s := rfl
@[simp] theorem exec_atomx {o p k x} {s} : exec (.atomx o p k x) s = Sys2Proof.Machine.execAtomx o p k x s := rfl
@[simp] theorem exec_lda {o m x} {s} : exec (.lda o m x) s = Sys2Proof.Machine.execLda o m x s := rfl
@[simp] theorem exec_stl {o m x} {s} : exec (.stl o m x) s = Sys2Proof.Machine.execStl o m x s := rfl
@[simp] theorem exec_fence {o x} {s} : exec (.fence o x) s = Sys2Proof.Machine.execFence o x s := rfl
@[simp] theorem exec_fencex {o p q x} {s} : exec (.fencex o p q x) s = Sys2Proof.Machine.execFencex o p q x s := rfl
@[simp] theorem exec_barrive {o h x} {s} : exec (.barrive o h x) s = Sys2Proof.Machine.execBarrive o h x s := rfl
@[simp] theorem exec_bwait {o h x} {s} : exec (.bwait o h x) s = Sys2Proof.Machine.execBwait o h x s := rfl
@[simp] theorem exec_bsync {o h x} {s} : exec (.bsync o h x) s = Sys2Proof.Machine.execBsync o h x s := rfl
@[simp] theorem exec_barrd {o h x} {s} : exec (.barrd o h x) s = Sys2Proof.Machine.execBarrd o h x s := rfl
@[simp] theorem exec_binit {o h x} {s} : exec (.binit o h x) s = Sys2Proof.Machine.execBinit o h x s := rfl
@[simp] theorem exec_balloc {o x} {s} : exec (.balloc o x) s = Sys2Proof.Machine.execBalloc o x s := rfl
@[simp] theorem exec_bfree {o x} {s} : exec (.bfree o x) s = Sys2Proof.Machine.execBfree o x s := rfl
@[simp] theorem exec_rowbook {o p q sc x} {s} : exec (.rowbook o p q sc x) s = Sys2Proof.Machine.execRowbook o p q sc x s := rfl
@[simp] theorem exec_rowjoin {o q x} {s} : exec (.rowjoin o q x) s = Sys2Proof.Machine.execRowjoin o q x s := rfl
@[simp] theorem exec_rowfree {o x} {s} : exec (.rowfree o x) s = Sys2Proof.Machine.execRowfree o x s := rfl
@[simp] theorem exec_tlbiPage {o x} {s} : exec (.tlbiPage o x) s = Sys2Proof.Machine.execTlbiPage o x s := rfl
@[simp] theorem exec_tlbiSpace {o x} {s} : exec (.tlbiSpace o x) s = Sys2Proof.Machine.execTlbiSpace o x s := rfl
@[simp] theorem exec_tlbiAll {o x} {s} : exec (.tlbiAll o x) s = Sys2Proof.Machine.execTlbiAll o x s := rfl
@[simp] theorem exec_msvtx {o} {s} : exec (.msvtx o) s = Sys2Proof.Machine.execMsvtx o s := rfl
@[simp] theorem exec_msvtxB128 {o} {s} : exec (.msvtxB128 o) s = Sys2Proof.Machine.execMsvtxB128 o s := rfl
@[simp] theorem exec_msprim {o} {s} : exec (.msprim o) s = Sys2Proof.Machine.execMsprim o s := rfl
@[simp] theorem exec_mscount {o} {s} : exec (.mscount o) s = Sys2Proof.Machine.execMscount o s := rfl
@[simp] theorem exec_interp {o mode centroid} {s} : exec (.interp o mode centroid) s = Sys2Proof.Machine.execInterp o mode centroid s := rfl
@[simp] theorem exec_derivX {o fine} {s} : exec (.derivX o fine) s = Sys2Proof.Machine.execDerivX o fine s := rfl
@[simp] theorem exec_derivY {o fine} {s} : exec (.derivY o fine) s = Sys2Proof.Machine.execDerivY o fine s := rfl
@[simp] theorem exec_fragexp {o} {s} : exec (.fragexp o) s = Sys2Proof.Machine.execFragexp o s := rfl
@[simp] theorem exec_fragexpZ {o} {s} : exec (.fragexpZ o) s = Sys2Proof.Machine.execFragexpZ o s := rfl
@[simp] theorem exec_fragkill {o} {s} : exec (.fragkill o) s = Sys2Proof.Machine.execFragkill o s := rfl
@[simp] theorem exec_rocbeg {o} {s} : exec (.rocbeg o) s = Sys2Proof.Machine.execRocbeg o s := rfl
@[simp] theorem exec_rocend {o} {s} : exec (.rocend o) s = Sys2Proof.Machine.execRocend o s := rfl
@[simp] theorem exec_tex {o} {s} : exec (.tex o) s = Sys2Proof.Machine.execTex o s := rfl
@[simp] theorem exec_texL {o} {s} : exec (.texL o) s = Sys2Proof.Machine.execTexL o s := rfl
@[simp] theorem exec_texG {o} {s} : exec (.texG o) s = Sys2Proof.Machine.execTexG o s := rfl
@[simp] theorem exec_texld {o} {s} : exec (.texld o) s = Sys2Proof.Machine.execTexld o s := rfl
@[simp] theorem exec_texq {o} {s} : exec (.texq o) s = Sys2Proof.Machine.execTexq o s := rfl
@[simp] theorem exec_satom {o p xy w64 sgn op x} {s} : exec (.satom o p xy w64 sgn op x) s = Sys2Proof.Machine.execSatom o p xy w64 sgn op x s := rfl
@[simp] theorem exec_satomCas {o p w64 x} {s} : exec (.satomCas o p w64 x) s = Sys2Proof.Machine.execSatomCas o p w64 x s := rfl
@[simp] theorem exec_cpgather {o ch tmpl x} {s} : exec (.cpgather o ch tmpl x) s = Sys2Proof.Machine.execCpgather o ch tmpl x s := rfl
@[simp] theorem exec_cpscatter {o ch tmpl x} {s} : exec (.cpscatter o ch tmpl x) s = Sys2Proof.Machine.execCpscatter o ch tmpl x s := rfl
@[simp] theorem exec_cpscatterAdd {o ch tmpl x} {s} : exec (.cpscatterAdd o ch tmpl x) s = Sys2Proof.Machine.execCpscatterAdd o ch tmpl x s := rfl
@[simp] theorem exec_cpwait {o p x} {s} : exec (.cpwait o p x) s = Sys2Proof.Machine.execCpwait o p x s := rfl
@[simp] theorem exec_cptest {o p x} {s} : exec (.cptest o p x) s = Sys2Proof.Machine.execCptest o p x s := rfl
@[simp] theorem exec_cpclr {o p x} {s} : exec (.cpclr o p x) s = Sys2Proof.Machine.execCpclr o p x s := rfl
@[simp] theorem exec_cpsrcw {o x} {s} : exec (.cpsrcw o x) s = Sys2Proof.Machine.execCpsrcw o x s := rfl
@[simp] theorem exec_mput {o w} {s} : exec (.mput o w) s = Sys2Proof.Machine.execMput o w s := rfl
@[simp] theorem exec_mld {o} {s} : exec (.mld o) s = Sys2Proof.Machine.execMld o s := rfl
@[simp] theorem exec_mldV {o satf} {s} : exec (.mldV o satf) s = Sys2Proof.Machine.execMldV o satf s := rfl
@[simp] theorem exec_mma {o v slotB satf} {s} : exec (.mma o v slotB satf) s = Sys2Proof.Machine.execMma o v slotB satf s := rfl
@[simp] theorem exec_mmq {o v slotB satf} {s} : exec (.mmq o v slotB satf) s = Sys2Proof.Machine.execMmq o v slotB satf s := rfl
@[simp] theorem exec_mmqP {o v slotB satf} {s} : exec (.mmqP o v slotB satf) s = Sys2Proof.Machine.execMmqP o v slotB satf s := rfl
@[simp] theorem exec_mmi {o v slotB satf} {s} : exec (.mmi o v slotB satf) s = Sys2Proof.Machine.execMmi o v slotB satf s := rfl
@[simp] theorem exec_mclr {o int} {s} : exec (.mclr o int) s = Sys2Proof.Machine.execMclr o int s := rfl
@[simp] theorem exec_mst {o slotTA slotTB scl satf} {s} : exec (.mst o slotTA slotTB scl satf) s = Sys2Proof.Machine.execMst o slotTA slotTB scl satf s := rfl
@[simp] theorem exec_mstV {o slotTA slotTB scl satf} {s} : exec (.mstV o slotTA slotTB scl satf) s = Sys2Proof.Machine.execMstV o slotTA slotTB scl satf s := rfl
@[simp] theorem exec_mbar {o} {s} : exec (.mbar o) s = Sys2Proof.Machine.execMbar o s := rfl
@[simp] theorem exec_mbw {o} {s} : exec (.mbw o) s = Sys2Proof.Machine.execMbw o s := rfl
@[simp] theorem exec_mnop {o} {s} : exec (.mnop o) s = Sys2Proof.Machine.execMnop o s := rfl
@[simp] theorem exec_msetImm {o} {s} : exec (.msetImm o) s = Sys2Proof.Machine.execMsetImm o s := rfl
@[simp] theorem exec_msetHi {o} {s} : exec (.msetHi o) s = Sys2Proof.Machine.execMsetHi o s := rfl
@[simp] theorem exec_msetArg {o} {s} : exec (.msetArg o) s = Sys2Proof.Machine.execMsetArg o s := rfl
@[simp] theorem exec_msetArghi {o} {s} : exec (.msetArghi o) s = Sys2Proof.Machine.execMsetArghi o s := rfl
@[simp] theorem exec_msetSr {o} {s} : exec (.msetSr o) s = Sys2Proof.Machine.execMsetSr o s := rfl
@[simp] theorem exec_msetC {o} {s} : exec (.msetC o) s = Sys2Proof.Machine.execMsetC o s := rfl
@[simp] theorem exec_maddk {o} {s} : exec (.maddk o) s = Sys2Proof.Machine.execMaddk o s := rfl
@[simp] theorem exec_mloop {o} {s} : exec (.mloop o) s = Sys2Proof.Machine.execMloop o s := rfl
@[simp] theorem exec_mjmp {o} {s} : exec (.mjmp o) s = Sys2Proof.Machine.execMjmp o s := rfl
@[simp] theorem exec_mend {o} {s} : exec (.mend o) s = Sys2Proof.Machine.execMend o s := rfl
@[simp] theorem exec_trap {o} {s} : exec (.trap o) s = Sys2Proof.Machine.execTrap o s := rfl
@[simp] theorem exec_trapLegacy {o} {s} : exec (.trapLegacy o) s = Sys2Proof.Machine.execTrapLegacy o s := rfl
@[simp] theorem exec_bkpt {o} {s} : exec (.bkpt o) s = Sys2Proof.Machine.execBkpt o s := rfl
@[simp] theorem exec_rtt {o} {s} : exec (.rtt o) s = Sys2Proof.Machine.execRtt o s := rfl
@[simp] theorem exec_haltt {o} {s} : exec (.haltt o) s = Sys2Proof.Machine.execHaltt o s := rfl
@[simp] theorem exec_gbread {o q} {s} : exec (.gbread o q) s = Sys2Proof.Machine.execGbread o q s := rfl
@[simp] theorem exec_pkrd {o} {s} : exec (.pkrd o) s = Sys2Proof.Machine.execPkrd o s := rfl
@[simp] theorem exec_pkwr {o} {s} : exec (.pkwr o) s = Sys2Proof.Machine.execPkwr o s := rfl
@[simp] theorem exec_resume {o} {s} : exec (.resume o) s = Sys2Proof.Machine.execResume o s := rfl
@[simp] theorem exec_resumeSkip {o} {s} : exec (.resumeSkip o) s = Sys2Proof.Machine.execResumeSkip o s := rfl
@[simp] theorem exec_killt {o} {s} : exec (.killt o) s = Sys2Proof.Machine.execKillt o s := rfl
@[simp] theorem exec_killtG {o} {s} : exec (.killtG o) s = Sys2Proof.Machine.execKilltG o s := rfl
@[simp] theorem exec_loadResultLand {id} {s} : exec (.loadResultLand id) s = Sys2Proof.Machine.execLoadResultLand id s := rfl
@[simp] theorem exec_mediumResultReady {id} {s} : exec (.mediumResultReady id) s = Sys2Proof.Machine.execMediumResultReady id s := rfl
@[simp] theorem exec_convRelease {tid gix} {s} : exec (.convRelease tid gix) s = Sys2Proof.Machine.execConvRelease tid gix s := rfl
@[simp] theorem exec_barrierWaitComplete {tid gix wid} {s} : exec (.barrierWaitComplete tid gix wid) s = Sys2Proof.Machine.execBarrierWaitComplete tid gix wid s := rfl
@[simp] theorem exec_barrdArrivalPerform {tid k} {s} : exec (.barrdArrivalPerform tid k) s = Sys2Proof.Machine.execBarrdArrivalPerform tid k s := rfl
@[simp] theorem exec_cpwaitComplete {tid gix wid} {s} : exec (.cpwaitComplete tid gix wid) s = Sys2Proof.Machine.execCpwaitComplete tid gix wid s := rfl
@[simp] theorem exec_cpsrcwComplete {tid gix wid} {s} : exec (.cpsrcwComplete tid gix wid) s = Sys2Proof.Machine.execCpsrcwComplete tid gix wid s := rfl
@[simp] theorem exec_presenceWaitComplete {tid gix wid} {s} : exec (.presenceWaitComplete tid gix wid) s = Sys2Proof.Machine.execPresenceWaitComplete tid gix wid s := rfl
@[simp] theorem exec_pauseExpiry {tid gix wid} {s} : exec (.pauseExpiry tid gix wid) s = Sys2Proof.Machine.execPauseExpiry tid gix wid s := rfl
@[simp] theorem exec_syncAccessComplete {tid gix wid} {s} : exec (.syncAccessComplete tid gix wid) s = Sys2Proof.Machine.execSyncAccessComplete tid gix wid s := rfl
@[simp] theorem exec_rowOpenComplete {tid gix wid} {s} : exec (.rowOpenComplete tid gix wid) s = Sys2Proof.Machine.execRowOpenComplete tid gix wid s := rfl
@[simp] theorem exec_rocSectionEnter {tid gix wid} {s} : exec (.rocSectionEnter tid gix wid) s = Sys2Proof.Machine.execRocSectionEnter tid gix wid s := rfl
@[simp] theorem exec_rocTimeout {tid lane} {s} : exec (.rocTimeout tid lane) s = Sys2Proof.Machine.execRocTimeout tid lane s := rfl
@[simp] theorem exec_rocPreemptTimeout {tid} {s} : exec (.rocPreemptTimeout tid) s = Sys2Proof.Machine.execRocPreemptTimeout tid s := rfl
@[simp] theorem exec_contextBind {core quarter ctx} {s} : exec (.contextBind core quarter ctx) s = Sys2Proof.Machine.execContextBind core quarter ctx s := rfl
@[simp] theorem exec_porterSlotTake {core} {s} : exec (.porterSlotTake core) s = Sys2Proof.Machine.execPorterSlotTake core s := rfl
@[simp] theorem exec_fetchBlockFill {tid gix} {s} : exec (.fetchBlockFill tid gix) s = Sys2Proof.Machine.execFetchBlockFill tid gix s := rfl
@[simp] theorem exec_teamEnd {tid} {s} : exec (.teamEnd tid) s = Sys2Proof.Machine.execTeamEnd tid s := rfl
@[simp] theorem exec_fill {core line bytes acc} {s} : exec (.fill core line bytes acc) s = Sys2Proof.Machine.execFill core line bytes acc s := rfl
@[simp] theorem exec_filld {core line data poison fd sole race acc} {s} : exec (.filld core line data poison fd sole race acc) s = Sys2Proof.Machine.execFilld core line data poison fd sole race acc s := rfl
@[simp] theorem exec_mprobe {core line} {s} : exec (.mprobe core line) s = Sys2Proof.Machine.execMprobe core line s := rfl
@[simp] theorem exec_mrep {core line g0 g1} {s} : exec (.mrep core line g0 g1) s = Sys2Proof.Machine.execMrep core line g0 g1 s := rfl
@[simp] theorem exec_intent {core line bytes epoch acc} {s} : exec (.intent core line bytes epoch acc) s = Sys2Proof.Machine.execIntent core line bytes epoch acc s := rfl
@[simp] theorem exec_mark {core line bytes} {s} : exec (.mark core line bytes) s = Sys2Proof.Machine.execMark core line bytes s := rfl
@[simp] theorem exec_markr {core line g0 g1} {s} : exec (.markr core line g0 g1) s = Sys2Proof.Machine.execMarkr core line g0 g1 s := rfl
@[simp] theorem exec_grant {core line acc} {s} : exec (.grant core line acc) s = Sys2Proof.Machine.execGrant core line acc s := rfl
@[simp] theorem exec_rnack {core line acc} {s} : exec (.rnack core line acc) s = Sys2Proof.Machine.execRnack core line acc s := rfl
@[simp] theorem exec_wb {core line key data poison dm g0 g1 why} {s} : exec (.wb core line key data poison dm g0 g1 why) s = Sys2Proof.Machine.execWb core line key data poison dm g0 g1 why s := rfl
@[simp] theorem exec_wback {core line why} {s} : exec (.wback core line why) s = Sys2Proof.Machine.execWback core line why s := rfl
@[simp] theorem exec_recall {core line} {s} : exec (.recall core line) s = Sys2Proof.Machine.execRecall core line s := rfl
@[simp] theorem exec_darn {core epoch acquirer syncLine} {s} : exec (.darn core epoch acquirer syncLine) s = Sys2Proof.Machine.execDarn core epoch acquirer syncLine s := rfl
@[simp] theorem exec_darnack {core epoch stale syncLine} {s} : exec (.darnack core epoch stale syncLine) s = Sys2Proof.Machine.execDarnack core epoch stale syncLine s := rfl
@[simp] theorem exec_inv {core line bytes} {s} : exec (.inv core line bytes) s = Sys2Proof.Machine.execInv core line bytes s := rfl
@[simp] theorem exec_invack {core line} {s} : exec (.invack core line) s = Sys2Proof.Machine.execInvack core line s := rfl
@[simp] theorem exec_publish {slice core epoch syncLine} {s} : exec (.publish slice core epoch syncLine) s = Sys2Proof.Machine.execPublish slice core epoch syncLine s := rfl
@[simp] theorem exec_puback {slice core epoch syncLine} {s} : exec (.puback slice core epoch syncLine) s = Sys2Proof.Machine.execPuback slice core epoch syncLine s := rfl
@[simp] theorem exec_hop {acc} {s} : exec (.hop acc) s = Sys2Proof.Machine.execHop acc s := rfl
@[simp] theorem exec_hopr {acc} {s} : exec (.hopr acc) s = Sys2Proof.Machine.execHopr acc s := rfl
@[simp] theorem exec_rstore {acc} {s} : exec (.rstore acc) s = Sys2Proof.Machine.execRstore acc s := rfl
@[simp] theorem exec_rfwd {die acc} {s} : exec (.rfwd die acc) s = Sys2Proof.Machine.execRfwd die acc s := rfl
@[simp] theorem exec_rpack {die acc} {s} : exec (.rpack die acc) s = Sys2Proof.Machine.execRpack die acc s := rfl
@[simp] theorem exec_rcommit {die acc} {s} : exec (.rcommit die acc) s = Sys2Proof.Machine.execRcommit die acc s := rfl
@[simp] theorem exec_pageWalk {wing tlb space va kind} {s} : exec (.pageWalk wing tlb space va kind) s = Sys2Proof.Machine.execPageWalk wing tlb space va kind s := rfl
@[simp] theorem exec_shootdownComplete {id} {s} : exec (.shootdownComplete id) s = Sys2Proof.Machine.execShootdownComplete id s := rfl
@[simp] theorem exec_lodgingRequestPost {die} {s} : exec (.lodgingRequestPost die) s = Sys2Proof.Machine.execLodgingRequestPost die s := rfl
@[simp] theorem exec_lgrantGranted {die lease} {s} : exec (.lgrantGranted die lease) s = Sys2Proof.Machine.execLgrantGranted die lease s := rfl
@[simp] theorem exec_lgrantRefused {die lease} {s} : exec (.lgrantRefused die lease) s = Sys2Proof.Machine.execLgrantRefused die lease s := rfl
@[simp] theorem exec_lgrantReleaseAck {die lease} {s} : exec (.lgrantReleaseAck die lease) s = Sys2Proof.Machine.execLgrantReleaseAck die lease s := rfl
@[simp] theorem exec_sequencerFetch {tid} {s} : exec (.sequencerFetch tid) s = Sys2Proof.Machine.execSequencerFetch tid s := rfl
@[simp] theorem exec_mbwRetire {tid cmd} {s} : exec (.mbwRetire tid cmd) s = Sys2Proof.Machine.execMbwRetire tid cmd s := rfl
@[simp] theorem exec_commandRetire {tid cmd} {s} : exec (.commandRetire tid cmd) s = Sys2Proof.Machine.execCommandRetire tid cmd s := rfl
@[simp] theorem exec_copyElementMove {core id} {s} : exec (.copyElementMove core id) s = Sys2Proof.Machine.execCopyElementMove core id s := rfl
@[simp] theorem exec_copyChunkLand {core id chunk} {s} : exec (.copyChunkLand core id chunk) s = Sys2Proof.Machine.execCopyChunkLand core id chunk s := rfl
@[simp] theorem exec_copySourceRelease {core id} {s} : exec (.copySourceRelease core id) s = Sys2Proof.Machine.execCopySourceRelease core id s := rfl
@[simp] theorem exec_surfaceAllocate {ste} {s} : exec (.surfaceAllocate ste) s = Sys2Proof.Machine.execSurfaceAllocate ste s := rfl
@[simp] theorem exec_surfaceReleaseComplete {ste} {s} : exec (.surfaceReleaseComplete ste) s = Sys2Proof.Machine.execSurfaceReleaseComplete ste s := rfl
@[simp] theorem exec_pressSpillStart {region stack firm} {s} : exec (.pressSpillStart region stack firm) s = Sys2Proof.Machine.execPressSpillStart region stack firm s := rfl
@[simp] theorem exec_spillComplete {ste frame} {s} : exec (.spillComplete ste frame) s = Sys2Proof.Machine.execSpillComplete ste frame s := rfl
@[simp] theorem exec_fillComplete {ste frame} {s} : exec (.fillComplete ste frame) s = Sys2Proof.Machine.execFillComplete ste frame s := rfl
@[simp] theorem exec_frameAgeTick {s} : exec (.frameAgeTick) s = Sys2Proof.Machine.execFrameAgeTick s := rfl
@[simp] theorem exec_bankGrant {stack column bank} {s} : exec (.bankGrant stack column bank) s = Sys2Proof.Machine.execBankGrant stack column bank s := rfl
@[simp] theorem exec_coverageToken {wing} {s} : exec (.coverageToken wing) s = Sys2Proof.Machine.execCoverageToken wing s := rfl
@[simp] theorem exec_quadRetire {bru} {s} : exec (.quadRetire bru) s = Sys2Proof.Machine.execQuadRetire bru s := rfl
@[simp] theorem exec_primitiveEmit {queue} {s} : exec (.primitiveEmit queue) s = Sys2Proof.Machine.execPrimitiveEmit queue s := rfl
@[simp] theorem exec_rasterisePrimitive {wing} {s} : exec (.rasterisePrimitive wing) s = Sys2Proof.Machine.execRasterisePrimitive wing s := rfl
@[simp] theorem exec_fragmentGroupLaunch {wing core quarter} {s} : exec (.fragmentGroupLaunch wing core quarter) s = Sys2Proof.Machine.execFragmentGroupLaunch wing core quarter s := rfl
@[simp] theorem exec_domainRetentionEnter {die k} {s} : exec (.domainRetentionEnter die k) s = Sys2Proof.Machine.execDomainRetentionEnter die k s := rfl
@[simp] theorem exec_domainWake {die k} {s} : exec (.domainWake die k) s = Sys2Proof.Machine.execDomainWake die k s := rfl
@[simp] theorem exec_domainOff {die k forced} {s} : exec (.domainOff die k forced) s = Sys2Proof.Machine.execDomainOff die k forced s := rfl
@[simp] theorem exec_domainOn {die k} {s} : exec (.domainOn die k) s = Sys2Proof.Machine.execDomainOn die k s := rfl
@[simp] theorem exec_debugSurfaceRead {ste addr} {s} : exec (.debugSurfaceRead ste addr) s = Sys2Proof.Machine.execDebugSurfaceRead ste addr s := rfl
@[simp] theorem exec_rowRefreshClose {space key} {s} : exec (.rowRefreshClose space key) s = Sys2Proof.Machine.execRowRefreshClose space key s := rfl
@[simp] theorem exec_rowRefreshReopen {space key} {s} : exec (.rowRefreshReopen space key) s = Sys2Proof.Machine.execRowRefreshReopen space key s := rfl
@[simp] theorem exec_memoryPatrol {channel bank row corrected uncorrectable} {s} : exec (.memoryPatrol channel bank row corrected uncorrectable) s = Sys2Proof.Machine.execMemoryPatrol channel bank row corrected uncorrectable s := rfl
@[simp] theorem exec_clusterPlace {die} {s} : exec (.clusterPlace die) s = Sys2Proof.Machine.execClusterPlace die s := rfl
@[simp] theorem exec_framePreempt {die} {s} : exec (.framePreempt die) s = Sys2Proof.Machine.execFramePreempt die s := rfl
@[simp] theorem exec_normalReservation {die} {s} : exec (.normalReservation die) s = Sys2Proof.Machine.execNormalReservation die s := rfl
@[simp] theorem exec_preemptSave {tid} {s} : exec (.preemptSave tid) s = Sys2Proof.Machine.execPreemptSave tid s := rfl
@[simp] theorem exec_teamRestore {saved core} {s} : exec (.teamRestore saved core) s = Sys2Proof.Machine.execTeamRestore saved core s := rfl
@[simp] theorem exec_gridComplete {launch} {s} : exec (.gridComplete launch) s = Sys2Proof.Machine.execGridComplete launch s := rfl
@[simp] theorem exec_porterWake {core} {s} : exec (.porterWake core) s = Sys2Proof.Machine.execPorterWake core s := rfl
@[simp] theorem exec_blockTranslate {wing space hash word} {s} : exec (.blockTranslate wing space hash word) s = Sys2Proof.Machine.execBlockTranslate wing space hash word s := rfl
@[simp] theorem exec_ringDoorbell {value} {s} : exec (.ringDoorbell value) s = Sys2Proof.Machine.execRingDoorbell value s := rfl
@[simp] theorem exec_hrctlWrite {value} {s} : exec (.hrctlWrite value) s = Sys2Proof.Machine.execHrctlWrite value s := rfl
@[simp] theorem exec_ringNop {s} : exec (.ringNop) s = Sys2Proof.Machine.execRingNop s := rfl
@[simp] theorem exec_ringLaunch {s} : exec (.ringLaunch) s = Sys2Proof.Machine.execRingLaunch s := rfl
@[simp] theorem exec_ringTlbi {s} : exec (.ringTlbi) s = Sys2Proof.Machine.execRingTlbi s := rfl
@[simp] theorem exec_ringCancel {s} : exec (.ringCancel) s = Sys2Proof.Machine.execRingCancel s := rfl
@[simp] theorem exec_ringUnknownOp {s} : exec (.ringUnknownOp) s = Sys2Proof.Machine.execRingUnknownOp s := rfl
@[simp] theorem exec_intlvWrite {n value} {s} : exec (.intlvWrite n value) s = Sys2Proof.Machine.execIntlvWrite n value s := rfl
@[simp] theorem exec_sprootWrite {space value} {s} : exec (.sprootWrite space value) s = Sys2Proof.Machine.execSprootWrite space value s := rfl
@[simp] theorem exec_spwingWrite {space value} {s} : exec (.spwingWrite space value) s = Sys2Proof.Machine.execSpwingWrite space value s := rfl
@[simp] theorem exec_qcfgWrite {n value} {s} : exec (.qcfgWrite n value) s = Sys2Proof.Machine.execQcfgWrite n value s := rfl
@[simp] theorem exec_spsaveWrite {space value} {s} : exec (.spsaveWrite space value) s = Sys2Proof.Machine.execSpsaveWrite space value s := rfl
@[simp] theorem exec_spxcWrite {space value} {s} : exec (.spxcWrite space value) s = Sys2Proof.Machine.execSpxcWrite space value s := rfl
@[simp] theorem exec_biasctlWrite {value} {s} : exec (.biasctlWrite value) s = Sys2Proof.Machine.execBiasctlWrite value s := rfl
@[simp] theorem exec_biasflipGo {value} {s} : exec (.biasflipGo value) s = Sys2Proof.Machine.execBiasflipGo value s := rfl
@[simp] theorem exec_biasFlipComplete {s} : exec (.biasFlipComplete) s = Sys2Proof.Machine.execBiasFlipComplete s := rfl
@[simp] theorem exec_gbstatClear {core value} {s} : exec (.gbstatClear core value) s = Sys2Proof.Machine.execGbstatClear core value s := rfl
@[simp] theorem exec_hostResume {core seq} {s} : exec (.hostResume core seq) s = Sys2Proof.Machine.execHostResume core seq s := rfl
@[simp] theorem exec_hostResumeSkip {core seq} {s} : exec (.hostResumeSkip core seq) s = Sys2Proof.Machine.execHostResumeSkip core seq s := rfl
@[simp] theorem exec_hostKillt {core seq} {s} : exec (.hostKillt core seq) s = Sys2Proof.Machine.execHostKillt core seq s := rfl
@[simp] theorem exec_hostKilltG {core seq} {s} : exec (.hostKilltG core seq) s = Sys2Proof.Machine.execHostKilltG core seq s := rfl
@[simp] theorem exec_hostEndGrid {core seq} {s} : exec (.hostEndGrid core seq) s = Sys2Proof.Machine.execHostEndGrid core seq s := rfl
@[simp] theorem exec_gbpkRead {core seq sel} {s} : exec (.gbpkRead core seq sel) s = Sys2Proof.Machine.execGbpkRead core seq sel s := rfl
@[simp] theorem exec_gbpkWrite {core seq sel} {s} : exec (.gbpkWrite core seq sel) s = Sys2Proof.Machine.execGbpkWrite core seq sel s := rfl
@[simp] theorem exec_dbgreqStop {space ticket core} {s} : exec (.dbgreqStop space ticket core) s = Sys2Proof.Machine.execDbgreqStop space ticket core s := rfl
@[simp] theorem exec_dbgreqResume {space ticket core} {s} : exec (.dbgreqResume space ticket core) s = Sys2Proof.Machine.execDbgreqResume space ticket core s := rfl
@[simp] theorem exec_dbgreqStep {space ticket core} {s} : exec (.dbgreqStep space ticket core) s = Sys2Proof.Machine.execDbgreqStep space ticket core s := rfl
@[simp] theorem exec_dbgreqPreempt {space ticket core} {s} : exec (.dbgreqPreempt space ticket core) s = Sys2Proof.Machine.execDbgreqPreempt space ticket core s := rfl
@[simp] theorem exec_dbgreqDump {space ticket core} {s} : exec (.dbgreqDump space ticket core) s = Sys2Proof.Machine.execDbgreqDump space ticket core s := rfl
@[simp] theorem exec_pcSample {core quarter} {s} : exec (.pcSample core quarter) s = Sys2Proof.Machine.execPcSample core quarter s := rfl
@[simp] theorem exec_trialDebtTick {s} : exec (.trialDebtTick) s = Sys2Proof.Machine.execTrialDebtTick s := rfl
@[simp] theorem exec_registerWrite {at_ value} {s} : exec (.registerWrite at_ value) s = Sys2Proof.Machine.execRegisterWrite at_ value s := rfl
@[simp] theorem exec_hostMemRead {pa} {s} : exec (.hostMemRead pa) s = Sys2Proof.Machine.execHostMemRead pa s := rfl
@[simp] theorem exec_hostMemWrite {pa data} {s} : exec (.hostMemWrite pa data) s = Sys2Proof.Machine.execHostMemWrite pa data s := rfl
@[simp] theorem exec_birspi {unit} {s} : exec (.birspi unit) s = Sys2Proof.Machine.execBirspi unit s := rfl
@[simp] theorem exec_hPathCompletion {acc data poisoned} {s} : exec (.hPathCompletion acc data poisoned) s = Sys2Proof.Machine.execHPathCompletion acc data poisoned s := rfl
@[simp] theorem exec_cxlCompletionTimeout {acc} {s} : exec (.cxlCompletionTimeout acc) s = Sys2Proof.Machine.execCxlCompletionTimeout acc s := rfl
@[simp] theorem exec_ucieUncorrectableError {s} : exec (.ucieUncorrectableError) s = Sys2Proof.Machine.execUcieUncorrectableError s := rfl
@[simp] theorem exec_clockRatioChange {ratio} {s} : exec (.clockRatioChange ratio) s = Sys2Proof.Machine.execClockRatioChange ratio s := rfl
@[simp] theorem exec_moduleReset {s} : exec (.moduleReset) s = Sys2Proof.Machine.execModuleReset s := rfl
@[simp] theorem exec_bringupStepComplete {ok found} {s} : exec (.bringupStepComplete ok found) s = Sys2Proof.Machine.execBringupStepComplete ok found s := rfl
@[simp] theorem exec_powerManagementTick {temps ivrs coolant} {s} : exec (.powerManagementTick temps ivrs coolant) s = Sys2Proof.Machine.execPowerManagementTick temps ivrs coolant s := rfl
@[simp] theorem exec_thermalTrip {s} : exec (.thermalTrip) s = Sys2Proof.Machine.execThermalTrip s := rfl
@[simp] theorem exec_ivrOvercurrent {die k} {s} : exec (.ivrOvercurrent die k) s = Sys2Proof.Machine.execIvrOvercurrent die k s := rfl
@[simp] theorem exec_sensors {s} : exec (.sensors) s = Sys2Proof.Machine.execSensors s := rfl
@[simp] theorem exec_logread {s} : exec (.logread) s = Sys2Proof.Machine.execLogread s := rfl
@[simp] theorem exec_powercap {s} : exec (.powercap) s = Sys2Proof.Machine.execPowercap s := rfl
@[simp] theorem exec_keyset {s} : exec (.keyset) s = Sys2Proof.Machine.execKeyset s := rfl
@[simp] theorem exec_fwload {s} : exec (.fwload) s = Sys2Proof.Machine.execFwload s := rfl
@[simp] theorem exec_spdm {s} : exec (.spdm) s = Sys2Proof.Machine.execSpdm s := rfl
@[simp] theorem exec_mailboxBadcmd {cmd} {s} : exec (.mailboxBadcmd cmd) s = Sys2Proof.Machine.execMailboxBadcmd cmd s := rfl
@[simp] theorem exec_scratchpadSlotGrant {core bank} {s} : exec (.scratchpadSlotGrant core bank) s = Sys2Proof.Machine.execScratchpadSlotGrant core bank s := rfl
@[simp] theorem exec_wPathAccessComplete {acc} {s} : exec (.wPathAccessComplete acc) s = Sys2Proof.Machine.execWPathAccessComplete acc s := rfl
@[simp] theorem exec_modulePowerLoss {s} : exec (.modulePowerLoss) s = Sys2Proof.Machine.execModulePowerLoss s := rfl
@[simp] theorem exec_sptrialWrite {space value} {s} : exec (.sptrialWrite space value) s = Sys2Proof.Machine.execSptrialWrite space value s := rfl

end Sys2Proof.Machine
end

