-- ==== Sys2Proof/Laws/Maps.lean ====
section
/-! SUPPORT. Association lists by key: what each operation reads back as, and that each keeps the canonical form. -/

namespace Sys2Proof

variable {α : Type}

/-! ## Reading back -/

@[simp] theorem amapGet_nil (d : α) (k : Nat) : amapGet d [] k = d := rfl
@[simp] theorem amapFind?_nil (k : Nat) : amapFind? ([] : AMap α) k = none := rfl

/-- The value at a key is the listed one, or the default. -/
theorem amapGet_eq_find (d : α) (m : AMap α) (k : Nat) : amapGet d m k = (amapFind? m k).getD d := by
  induction m with
  | nil => rfl
  | cons x m ih => obtain ⟨a, b⟩ := x; simp only [amapGet, amapFind?]; split_ifs <;> simp [ih]

theorem amapFind?_insert_same (m : AMap α) (k : Nat) (v : α) : amapFind? (amapInsert m k v) k = some v := by
  induction m with
  | nil => simp [amapInsert, amapFind?]
  | cons x m ih => obtain ⟨a, b⟩ := x; simp only [amapInsert]; split_ifs <;> simp [amapFind?, *]

theorem amapFind?_insert_other (m : AMap α) (j k : Nat) (v : α) (h : j ≠ k) :
    amapFind? (amapInsert m k v) j = amapFind? m j := by
  induction m with
  | nil => simp only [amapInsert, amapFind?]; split_ifs <;> first | rfl | omega
  | cons x m ih =>
    obtain ⟨a, b⟩ := x
    simp only [amapInsert]
    split_ifs with h1 h2
    · subst h1; simp only [amapFind?]; split_ifs <;> first | rfl | omega
    · simp only [amapFind?]; split_ifs <;> first | rfl | omega
    · simp only [amapFind?]; split_ifs <;> first | rfl | exact ih

theorem amapGet_insert_same (d : α) (m : AMap α) (k : Nat) (v : α) : amapGet d (amapInsert m k v) k = v := by
  simp [amapGet_eq_find, amapFind?_insert_same]

theorem amapGet_insert_other (d : α) (m : AMap α) (j k : Nat) (v : α) (h : j ≠ k) :
    amapGet d (amapInsert m k v) j = amapGet d m j := by
  simp [amapGet_eq_find, amapFind?_insert_other _ _ _ _ h]

theorem amapFind?_map (f : Nat → α → α) (m : AMap α) (k : Nat) :
    amapFind? (amapMap f m) k = (amapFind? m k).map (f k) := by
  induction m with
  | nil => rfl
  | cons x m ih =>
    obtain ⟨a, b⟩ := x
    simp only [amapMap, List.map_cons, amapFind?]
    split_ifs with h1 h2
    · simp [h1]
    · rfl
    · exact ih

/-! ## The canonical form -/

/-- Every listed key is above `lo`. -/
def keysAbove (lo : Option Nat) (m : AMap α) : Prop := ∀ kv ∈ m, match lo with
  | none => True
  | some l => l < kv.1

theorem amapSorted_cons (lo : Option Nat) (k : Nat) (v : α) (m : AMap α) :
    amapSorted lo ((k, v) :: m) = true ↔ keysAbove lo [(k, v)] ∧ amapSorted (some k) m = true := by
  cases lo <;> simp [amapSorted, keysAbove]

theorem amapSorted_weaken (l k : Nat) (m : AMap α) (h : l < k) (hs : amapSorted (some k) m = true) :
    amapSorted (some l) m = true := by
  cases m with
  | nil => rfl
  | cons x m =>
    obtain ⟨a, b⟩ := x
    simp only [amapSorted, Bool.and_eq_true, decide_eq_true_eq] at hs ⊢
    exact ⟨by omega, hs.2⟩

theorem amapSorted_none (m : AMap α) (k : Nat) (hs : amapSorted (some k) m = true) : amapSorted none m = true := by
  cases m with
  | nil => rfl
  | cons x m => obtain ⟨a, b⟩ := x; simp only [amapSorted, Bool.and_eq_true] at hs ⊢; exact hs.2

/-- A key at or below every listed one is not listed. -/
theorem amapFind?_below (m : AMap α) (l k : Nat) (hs : amapSorted (some l) m = true) (h : k ≤ l) : amapFind? m k = none := by
  cases m with
  | nil => rfl
  | cons x m =>
    obtain ⟨a, b⟩ := x
    simp only [amapSorted, Bool.and_eq_true, decide_eq_true_eq] at hs
    simp only [amapFind?]
    split_ifs <;> first | rfl | omega

theorem amapSorted_insert (lo : Option Nat) (m : AMap α) (k : Nat) (v : α)
    (hs : amapSorted lo m = true) (h : keysAbove lo [(k, v)]) : amapSorted lo (amapInsert m k v) = true := by
  induction m generalizing lo with
  | nil => exact (amapSorted_cons ..).2 ⟨h, rfl⟩
  | cons x m ih =>
    obtain ⟨a, b⟩ := x
    have hx := (amapSorted_cons ..).1 hs
    simp only [amapInsert]
    split_ifs with h1 h2
    · subst h1; exact (amapSorted_cons ..).2 ⟨h, hx.2⟩
    · exact (amapSorted_cons ..).2 ⟨h, (amapSorted_cons ..).2 ⟨by simpa [keysAbove] using h2, hx.2⟩⟩
    · refine (amapSorted_cons ..).2 ⟨hx.1, ih (some a) hx.2 ?_⟩
      simp only [keysAbove, List.mem_singleton, forall_eq]; omega

theorem amapSorted_erase (lo : Option Nat) (m : AMap α) (k : Nat) (hs : amapSorted lo m = true) :
    amapSorted lo (amapErase m k) = true := by
  induction m generalizing lo with
  | nil => rfl
  | cons x m ih =>
    obtain ⟨a, b⟩ := x
    have hx := (amapSorted_cons ..).1 hs
    simp only [amapErase]
    split_ifs with h1 h2
    · cases lo with
      | none => exact amapSorted_none _ _ hx.2
      | some l => exact amapSorted_weaken _ _ _ (by simpa [keysAbove] using hx.1) hx.2
    · exact hs
    · exact (amapSorted_cons ..).2 ⟨hx.1, ih (some a) hx.2⟩

theorem mem_amapInsert (m : AMap α) (k : Nat) (v : α) (x : Nat × α) (h : x ∈ amapInsert m k v) : x = (k, v) ∨ x ∈ m := by
  induction m with
  | nil => simpa [amapInsert] using h
  | cons y m ih =>
    obtain ⟨a, b⟩ := y
    simp only [amapInsert] at h
    split_ifs at h with h1 h2
    · rcases List.mem_cons.1 h with h | h
      · exact .inl h
      · exact .inr (List.mem_cons_of_mem _ h)
    · rcases List.mem_cons.1 h with h | h
      · exact .inl h
      · exact .inr h
    · rcases List.mem_cons.1 h with h | h
      · exact .inr (h ▸ List.mem_cons_self ..)
      · exact (ih h).imp_right (List.mem_cons_of_mem _)

theorem mem_amapErase (m : AMap α) (k : Nat) (x : Nat × α) (h : x ∈ amapErase m k) : x ∈ m := by
  induction m with
  | nil => exact h
  | cons y m ih =>
    obtain ⟨a, b⟩ := y
    simp only [amapErase] at h
    split_ifs at h with h1 h2
    · exact List.mem_cons_of_mem _ h
    · exact h
    · rcases List.mem_cons.1 h with h | h
      · exact h ▸ List.mem_cons_self ..
      · exact List.mem_cons_of_mem _ (ih h)

theorem amapFind?_erase_same (lo : Option Nat) (m : AMap α) (k : Nat) (hs : amapSorted lo m = true) :
    amapFind? (amapErase m k) k = none := by
  induction m generalizing lo with
  | nil => rfl
  | cons x m ih =>
    obtain ⟨a, b⟩ := x
    have hx := (amapSorted_cons ..).1 hs
    simp only [amapErase]
    split_ifs with h1 h2
    · exact amapFind?_below _ _ _ hx.2 (by omega)
    · simp [amapFind?, h1, h2]
    · simp only [amapFind?, if_neg h1, if_neg h2]; exact ih _ hx.2

theorem amapFind?_erase_other (lo : Option Nat) (m : AMap α) (j k : Nat) (h : j ≠ k) (hs : amapSorted lo m = true) :
    amapFind? (amapErase m k) j = amapFind? m j := by
  induction m generalizing lo with
  | nil => rfl
  | cons x m ih =>
    obtain ⟨a, b⟩ := x
    have hx := (amapSorted_cons ..).1 hs
    simp only [amapErase]
    split_ifs with h1 h2
    · simp only [amapFind?]
      split_ifs with h3 h4
      · omega
      · exact amapFind?_below _ _ _ hx.2 (by omega)
      · rfl
    · rfl
    · simp only [amapFind?]; split_ifs <;> first | rfl | exact ih _ hx.2

variable [DecidableEq α]

theorem amapWf_sorted (d : α) (m : AMap α) (h : amapWf d m = true) : amapSorted none m = true := by
  simp only [amapWf, Bool.and_eq_true] at h; exact h.1

/-- A read after a write of the same key. -/
theorem amapGet_set_same (d : α) (m : AMap α) (k : Nat) (v : α) (h : amapSorted none m = true) :
    amapGet d (amapSet d m k v) k = v := by
  unfold amapSet
  split_ifs with hv
  · rw [amapGet_eq_find, amapFind?_erase_same _ _ _ h, hv]; rfl
  · exact amapGet_insert_same ..

/-- A write leaves every other key alone. -/
theorem amapGet_set_other (d : α) (m : AMap α) (j k : Nat) (v : α) (hj : j ≠ k) (h : amapSorted none m = true) :
    amapGet d (amapSet d m k v) j = amapGet d m j := by
  unfold amapSet
  split_ifs with hv
  · rw [amapGet_eq_find, amapGet_eq_find, amapFind?_erase_other _ _ _ _ hj h]
  · exact amapGet_insert_other _ _ _ _ _ hj

/-- A write keeps the canonical form. -/
theorem amapWf_set (d : α) (m : AMap α) (k : Nat) (v : α) (h : amapWf d m = true) : amapWf d (amapSet d m k v) = true := by
  simp only [amapWf, Bool.and_eq_true, List.all_eq_true, decide_eq_true_eq] at h ⊢
  unfold amapSet
  split_ifs with hv
  · exact ⟨amapSorted_erase _ _ _ h.1, fun x hx => h.2 x (mem_amapErase _ _ _ hx)⟩
  · refine ⟨amapSorted_insert _ _ _ _ h.1 (by simp [keysAbove]), fun x hx => ?_⟩
    rcases mem_amapInsert _ _ _ _ hx with rfl | hx
    · exact hv
    · exact h.2 x hx

end Sys2Proof
end

