-- ==== Sys2Proof/Laws/State.lean ====
section
/-! SUPPORT. What each update of the state does to each field: one lemma per field per update, and reading back what an
update wrote. -/

namespace Sys2Proof.Machine

/-! ## updCore -/

@[simp] theorem State.updCore_free (s : State) (c : Nat) (f : Core → Core) : (s.updCore c f).free = s.free := rfl
@[simp] theorem State.updCore_turn (s : State) (c : Nat) (f : Core → Core) : (s.updCore c f).turn = s.turn := rfl
@[simp] theorem State.updCore_served (s : State) (c : Nat) (f : Core → Core) : (s.updCore c f).served = s.served := rfl
@[simp] theorem State.updCore_picks (s : State) (c : Nat) (f : Core → Core) : (s.updCore c f).picks = s.picks := rfl
@[simp] theorem State.updCore_laterNo (s : State) (c : Nat) (f : Core → Core) : (s.updCore c f).laterNo = s.laterNo := rfl
@[simp] theorem State.updCore_autoNo (s : State) (c : Nat) (f : Core → Core) : (s.updCore c f).autoNo = s.autoNo := rfl
@[simp] theorem State.updCore_uid (s : State) (c : Nat) (f : Core → Core) : (s.updCore c f).uid = s.uid := rfl
@[simp] theorem State.updCore_cclk (s : State) (c : Nat) (f : Core → Core) : (s.updCore c f).cclk = s.cclk := rfl
@[simp] theorem State.updCore_devtime (s : State) (c : Nat) (f : Core → Core) : (s.updCore c f).devtime = s.devtime := rfl
@[simp] theorem State.updCore_ratio (s : State) (c : Nat) (f : Core → Core) : (s.updCore c f).ratio = s.ratio := rfl
@[simp] theorem State.updCore_age (s : State) (c : Nat) (f : Core → Core) : (s.updCore c f).age = s.age := rfl
@[simp] theorem State.updCore_wings (s : State) (c : Nat) (f : Core → Core) : (s.updCore c f).wings = s.wings := rfl
@[simp] theorem State.updCore_dies (s : State) (c : Nat) (f : Core → Core) : (s.updCore c f).dies = s.dies := rfl
@[simp] theorem State.updCore_teams (s : State) (c : Nat) (f : Core → Core) : (s.updCore c f).teams = s.teams := rfl
@[simp] theorem State.updCore_clusters (s : State) (c : Nat) (f : Core → Core) : (s.updCore c f).clusters = s.clusters := rfl
@[simp] theorem State.updCore_saved (s : State) (c : Nat) (f : Core → Core) : (s.updCore c f).saved = s.saved := rfl
@[simp] theorem State.updCore_launches (s : State) (c : Nat) (f : Core → Core) : (s.updCore c f).launches = s.launches := rfl
@[simp] theorem State.updCore_queues (s : State) (c : Nat) (f : Core → Core) : (s.updCore c f).queues = s.queues := rfl
@[simp] theorem State.updCore_spaces (s : State) (c : Nat) (f : Core → Core) : (s.updCore c f).spaces = s.spaces := rfl
@[simp] theorem State.updCore_nextTicket (s : State) (c : Nat) (f : Core → Core) : (s.updCore c f).nextTicket = s.nextTicket := rfl
@[simp] theorem State.updCore_leases (s : State) (c : Nat) (f : Core → Core) : (s.updCore c f).leases = s.leases := rfl
@[simp] theorem State.updCore_shoots (s : State) (c : Nat) (f : Core → Core) : (s.updCore c f).shoots = s.shoots := rfl
@[simp] theorem State.updCore_blocks (s : State) (c : Nat) (f : Core → Core) : (s.updCore c f).blocks = s.blocks := rfl
@[simp] theorem State.updCore_l2 (s : State) (c : Nat) (f : Core → Core) : (s.updCore c f).l2 = s.l2 := rfl
@[simp] theorem State.updCore_repl (s : State) (c : Nat) (f : Core → Core) : (s.updCore c f).repl = s.repl := rfl
@[simp] theorem State.updCore_homeRec (s : State) (c : Nat) (f : Core → Core) : (s.updCore c f).homeRec = s.homeRec := rfl
@[simp] theorem State.updCore_masks (s : State) (c : Nat) (f : Core → Core) : (s.updCore c f).masks = s.masks := rfl
@[simp] theorem State.updCore_maskDrop (s : State) (c : Nat) (f : Core → Core) : (s.updCore c f).maskDrop = s.maskDrop := rfl
@[simp] theorem State.updCore_pub (s : State) (c : Nat) (f : Core → Core) : (s.updCore c f).pub = s.pub := rfl
@[simp] theorem State.updCore_txns (s : State) (c : Nat) (f : Core → Core) : (s.updCore c f).txns = s.txns := rfl
@[simp] theorem State.updCore_homeWait (s : State) (c : Nat) (f : Core → Core) : (s.updCore c f).homeWait = s.homeWait := rfl
@[simp] theorem State.updCore_dram (s : State) (c : Nat) (f : Core → Core) : (s.updCore c f).dram = s.dram := rfl
@[simp] theorem State.updCore_dramPoison (s : State) (c : Nat) (f : Core → Core) : (s.updCore c f).dramPoison = s.dramPoison := rfl
@[simp] theorem State.updCore_unitKey (s : State) (c : Nat) (f : Core → Core) : (s.updCore c f).unitKey = s.unitKey := rfl
@[simp] theorem State.updCore_keys (s : State) (c : Nat) (f : Core → Core) : (s.updCore c f).keys = s.keys := rfl
@[simp] theorem State.updCore_hostMem (s : State) (c : Nat) (f : Core → Core) : (s.updCore c f).hostMem = s.hostMem := rfl
@[simp] theorem State.updCore_peerMem (s : State) (c : Nat) (f : Core → Core) : (s.updCore c f).peerMem = s.peerMem := rfl
@[simp] theorem State.updCore_hPoison (s : State) (c : Nat) (f : Core → Core) : (s.updCore c f).hPoison = s.hPoison := rfl
@[simp] theorem State.updCore_rows (s : State) (c : Nat) (f : Core → Core) : (s.updCore c f).rows = s.rows := rfl
@[simp] theorem State.updCore_accs (s : State) (c : Nat) (f : Core → Core) : (s.updCore c f).accs = s.accs := rfl
@[simp] theorem State.updCore_pends (s : State) (c : Nat) (f : Core → Core) : (s.updCore c f).pends = s.pends := rfl
@[simp] theorem State.updCore_texs (s : State) (c : Nat) (f : Core → Core) : (s.updCore c f).texs = s.texs := rfl
@[simp] theorem State.updCore_msgs (s : State) (c : Nat) (f : Core → Core) : (s.updCore c f).msgs = s.msgs := rfl
@[simp] theorem State.updCore_later (s : State) (c : Nat) (f : Core → Core) : (s.updCore c f).later = s.later := rfl
@[simp] theorem State.updCore_inputs (s : State) (c : Nat) (f : Core → Core) : (s.updCore c f).inputs = s.inputs := rfl
@[simp] theorem State.updCore_copies (s : State) (c : Nat) (f : Core → Core) : (s.updCore c f).copies = s.copies := rfl
@[simp] theorem State.updCore_intlv (s : State) (c : Nat) (f : Core → Core) : (s.updCore c f).intlv = s.intlv := rfl
@[simp] theorem State.updCore_intlvSt (s : State) (c : Nat) (f : Core → Core) : (s.updCore c f).intlvSt = s.intlvSt := rfl
@[simp] theorem State.updCore_retired (s : State) (c : Nat) (f : Core → Core) : (s.updCore c f).retired = s.retired := rfl
@[simp] theorem State.updCore_stes (s : State) (c : Nat) (f : Core → Core) : (s.updCore c f).stes = s.stes := rfl
@[simp] theorem State.updCore_reserve (s : State) (c : Nat) (f : Core → Core) : (s.updCore c f).reserve = s.reserve := rfl
@[simp] theorem State.updCore_sdie (s : State) (c : Nat) (f : Core → Core) : (s.updCore c f).sdie = s.sdie := rfl
@[simp] theorem State.updCore_sdiePoison (s : State) (c : Nat) (f : Core → Core) : (s.updCore c f).sdiePoison = s.sdiePoison := rfl
@[simp] theorem State.updCore_domains (s : State) (c : Nat) (f : Core → Core) : (s.updCore c f).domains = s.domains := rfl
@[simp] theorem State.updCore_bankLast (s : State) (c : Nat) (f : Core → Core) : (s.updCore c f).bankLast = s.bankLast := rfl
@[simp] theorem State.updCore_bankReqs (s : State) (c : Nat) (f : Core → Core) : (s.updCore c f).bankReqs = s.bankReqs := rfl
@[simp] theorem State.updCore_resps (s : State) (c : Nat) (f : Core → Core) : (s.updCore c f).resps = s.resps := rfl
@[simp] theorem State.updCore_ratioTo (s : State) (c : Nat) (f : Core → Core) : (s.updCore c f).ratioTo = s.ratioTo := rfl
@[simp] theorem State.updCore_dbgAns (s : State) (c : Nat) (f : Core → Core) : (s.updCore c f).dbgAns = s.dbgAns := rfl
@[simp] theorem State.updCore_draws (s : State) (c : Nat) (f : Core → Core) : (s.updCore c f).draws = s.draws := rfl
@[simp] theorem State.updCore_flights (s : State) (c : Nat) (f : Core → Core) : (s.updCore c f).flights = s.flights := rfl
@[simp] theorem State.updCore_slots (s : State) (c : Nat) (f : Core → Core) : (s.updCore c f).slots = s.slots := rfl
@[simp] theorem State.updCore_ring (s : State) (c : Nat) (f : Core → Core) : (s.updCore c f).ring = s.ring := rfl
@[simp] theorem State.updCore_msi (s : State) (c : Nat) (f : Core → Core) : (s.updCore c f).msi = s.msi := rfl
@[simp] theorem State.updCore_bias (s : State) (c : Nat) (f : Core → Core) : (s.updCore c f).bias = s.bias := rfl
@[simp] theorem State.updCore_hostReqs (s : State) (c : Nat) (f : Core → Core) : (s.updCore c f).hostReqs = s.hostReqs := rfl
@[simp] theorem State.updCore_hostAns (s : State) (c : Nat) (f : Core → Core) : (s.updCore c f).hostAns = s.hostAns := rfl
@[simp] theorem State.updCore_mgmt (s : State) (c : Nat) (f : Core → Core) : (s.updCore c f).mgmt = s.mgmt := rfl
@[simp] theorem State.updCore_boot (s : State) (c : Nat) (f : Core → Core) : (s.updCore c f).boot = s.boot := rfl
@[simp] theorem State.updCore_same (s : State) (c : Nat) (f : Core → Core) : (s.updCore c f).core c = f (s.core c) := amapGet_insert_same _ _ _ _
theorem State.updCore_other (s : State) (x y : Nat) (f : Core → Core) (h : x ≠ y) : (s.updCore y f).core x = s.core x := amapGet_insert_other _ _ _ _ _ h

/-! ## updWing -/

@[simp] theorem State.updWing_free (s : State) (w : Nat) (f : Wing → Wing) : (s.updWing w f).free = s.free := rfl
@[simp] theorem State.updWing_turn (s : State) (w : Nat) (f : Wing → Wing) : (s.updWing w f).turn = s.turn := rfl
@[simp] theorem State.updWing_served (s : State) (w : Nat) (f : Wing → Wing) : (s.updWing w f).served = s.served := rfl
@[simp] theorem State.updWing_picks (s : State) (w : Nat) (f : Wing → Wing) : (s.updWing w f).picks = s.picks := rfl
@[simp] theorem State.updWing_laterNo (s : State) (w : Nat) (f : Wing → Wing) : (s.updWing w f).laterNo = s.laterNo := rfl
@[simp] theorem State.updWing_autoNo (s : State) (w : Nat) (f : Wing → Wing) : (s.updWing w f).autoNo = s.autoNo := rfl
@[simp] theorem State.updWing_uid (s : State) (w : Nat) (f : Wing → Wing) : (s.updWing w f).uid = s.uid := rfl
@[simp] theorem State.updWing_cclk (s : State) (w : Nat) (f : Wing → Wing) : (s.updWing w f).cclk = s.cclk := rfl
@[simp] theorem State.updWing_devtime (s : State) (w : Nat) (f : Wing → Wing) : (s.updWing w f).devtime = s.devtime := rfl
@[simp] theorem State.updWing_ratio (s : State) (w : Nat) (f : Wing → Wing) : (s.updWing w f).ratio = s.ratio := rfl
@[simp] theorem State.updWing_age (s : State) (w : Nat) (f : Wing → Wing) : (s.updWing w f).age = s.age := rfl
@[simp] theorem State.updWing_cores (s : State) (w : Nat) (f : Wing → Wing) : (s.updWing w f).cores = s.cores := rfl
@[simp] theorem State.updWing_dies (s : State) (w : Nat) (f : Wing → Wing) : (s.updWing w f).dies = s.dies := rfl
@[simp] theorem State.updWing_teams (s : State) (w : Nat) (f : Wing → Wing) : (s.updWing w f).teams = s.teams := rfl
@[simp] theorem State.updWing_clusters (s : State) (w : Nat) (f : Wing → Wing) : (s.updWing w f).clusters = s.clusters := rfl
@[simp] theorem State.updWing_saved (s : State) (w : Nat) (f : Wing → Wing) : (s.updWing w f).saved = s.saved := rfl
@[simp] theorem State.updWing_launches (s : State) (w : Nat) (f : Wing → Wing) : (s.updWing w f).launches = s.launches := rfl
@[simp] theorem State.updWing_queues (s : State) (w : Nat) (f : Wing → Wing) : (s.updWing w f).queues = s.queues := rfl
@[simp] theorem State.updWing_spaces (s : State) (w : Nat) (f : Wing → Wing) : (s.updWing w f).spaces = s.spaces := rfl
@[simp] theorem State.updWing_nextTicket (s : State) (w : Nat) (f : Wing → Wing) : (s.updWing w f).nextTicket = s.nextTicket := rfl
@[simp] theorem State.updWing_leases (s : State) (w : Nat) (f : Wing → Wing) : (s.updWing w f).leases = s.leases := rfl
@[simp] theorem State.updWing_shoots (s : State) (w : Nat) (f : Wing → Wing) : (s.updWing w f).shoots = s.shoots := rfl
@[simp] theorem State.updWing_blocks (s : State) (w : Nat) (f : Wing → Wing) : (s.updWing w f).blocks = s.blocks := rfl
@[simp] theorem State.updWing_l2 (s : State) (w : Nat) (f : Wing → Wing) : (s.updWing w f).l2 = s.l2 := rfl
@[simp] theorem State.updWing_repl (s : State) (w : Nat) (f : Wing → Wing) : (s.updWing w f).repl = s.repl := rfl
@[simp] theorem State.updWing_homeRec (s : State) (w : Nat) (f : Wing → Wing) : (s.updWing w f).homeRec = s.homeRec := rfl
@[simp] theorem State.updWing_masks (s : State) (w : Nat) (f : Wing → Wing) : (s.updWing w f).masks = s.masks := rfl
@[simp] theorem State.updWing_maskDrop (s : State) (w : Nat) (f : Wing → Wing) : (s.updWing w f).maskDrop = s.maskDrop := rfl
@[simp] theorem State.updWing_pub (s : State) (w : Nat) (f : Wing → Wing) : (s.updWing w f).pub = s.pub := rfl
@[simp] theorem State.updWing_txns (s : State) (w : Nat) (f : Wing → Wing) : (s.updWing w f).txns = s.txns := rfl
@[simp] theorem State.updWing_homeWait (s : State) (w : Nat) (f : Wing → Wing) : (s.updWing w f).homeWait = s.homeWait := rfl
@[simp] theorem State.updWing_dram (s : State) (w : Nat) (f : Wing → Wing) : (s.updWing w f).dram = s.dram := rfl
@[simp] theorem State.updWing_dramPoison (s : State) (w : Nat) (f : Wing → Wing) : (s.updWing w f).dramPoison = s.dramPoison := rfl
@[simp] theorem State.updWing_unitKey (s : State) (w : Nat) (f : Wing → Wing) : (s.updWing w f).unitKey = s.unitKey := rfl
@[simp] theorem State.updWing_keys (s : State) (w : Nat) (f : Wing → Wing) : (s.updWing w f).keys = s.keys := rfl
@[simp] theorem State.updWing_hostMem (s : State) (w : Nat) (f : Wing → Wing) : (s.updWing w f).hostMem = s.hostMem := rfl
@[simp] theorem State.updWing_peerMem (s : State) (w : Nat) (f : Wing → Wing) : (s.updWing w f).peerMem = s.peerMem := rfl
@[simp] theorem State.updWing_hPoison (s : State) (w : Nat) (f : Wing → Wing) : (s.updWing w f).hPoison = s.hPoison := rfl
@[simp] theorem State.updWing_rows (s : State) (w : Nat) (f : Wing → Wing) : (s.updWing w f).rows = s.rows := rfl
@[simp] theorem State.updWing_accs (s : State) (w : Nat) (f : Wing → Wing) : (s.updWing w f).accs = s.accs := rfl
@[simp] theorem State.updWing_pends (s : State) (w : Nat) (f : Wing → Wing) : (s.updWing w f).pends = s.pends := rfl
@[simp] theorem State.updWing_texs (s : State) (w : Nat) (f : Wing → Wing) : (s.updWing w f).texs = s.texs := rfl
@[simp] theorem State.updWing_msgs (s : State) (w : Nat) (f : Wing → Wing) : (s.updWing w f).msgs = s.msgs := rfl
@[simp] theorem State.updWing_later (s : State) (w : Nat) (f : Wing → Wing) : (s.updWing w f).later = s.later := rfl
@[simp] theorem State.updWing_inputs (s : State) (w : Nat) (f : Wing → Wing) : (s.updWing w f).inputs = s.inputs := rfl
@[simp] theorem State.updWing_copies (s : State) (w : Nat) (f : Wing → Wing) : (s.updWing w f).copies = s.copies := rfl
@[simp] theorem State.updWing_intlv (s : State) (w : Nat) (f : Wing → Wing) : (s.updWing w f).intlv = s.intlv := rfl
@[simp] theorem State.updWing_intlvSt (s : State) (w : Nat) (f : Wing → Wing) : (s.updWing w f).intlvSt = s.intlvSt := rfl
@[simp] theorem State.updWing_retired (s : State) (w : Nat) (f : Wing → Wing) : (s.updWing w f).retired = s.retired := rfl
@[simp] theorem State.updWing_stes (s : State) (w : Nat) (f : Wing → Wing) : (s.updWing w f).stes = s.stes := rfl
@[simp] theorem State.updWing_reserve (s : State) (w : Nat) (f : Wing → Wing) : (s.updWing w f).reserve = s.reserve := rfl
@[simp] theorem State.updWing_sdie (s : State) (w : Nat) (f : Wing → Wing) : (s.updWing w f).sdie = s.sdie := rfl
@[simp] theorem State.updWing_sdiePoison (s : State) (w : Nat) (f : Wing → Wing) : (s.updWing w f).sdiePoison = s.sdiePoison := rfl
@[simp] theorem State.updWing_domains (s : State) (w : Nat) (f : Wing → Wing) : (s.updWing w f).domains = s.domains := rfl
@[simp] theorem State.updWing_bankLast (s : State) (w : Nat) (f : Wing → Wing) : (s.updWing w f).bankLast = s.bankLast := rfl
@[simp] theorem State.updWing_bankReqs (s : State) (w : Nat) (f : Wing → Wing) : (s.updWing w f).bankReqs = s.bankReqs := rfl
@[simp] theorem State.updWing_resps (s : State) (w : Nat) (f : Wing → Wing) : (s.updWing w f).resps = s.resps := rfl
@[simp] theorem State.updWing_ratioTo (s : State) (w : Nat) (f : Wing → Wing) : (s.updWing w f).ratioTo = s.ratioTo := rfl
@[simp] theorem State.updWing_dbgAns (s : State) (w : Nat) (f : Wing → Wing) : (s.updWing w f).dbgAns = s.dbgAns := rfl
@[simp] theorem State.updWing_draws (s : State) (w : Nat) (f : Wing → Wing) : (s.updWing w f).draws = s.draws := rfl
@[simp] theorem State.updWing_flights (s : State) (w : Nat) (f : Wing → Wing) : (s.updWing w f).flights = s.flights := rfl
@[simp] theorem State.updWing_slots (s : State) (w : Nat) (f : Wing → Wing) : (s.updWing w f).slots = s.slots := rfl
@[simp] theorem State.updWing_ring (s : State) (w : Nat) (f : Wing → Wing) : (s.updWing w f).ring = s.ring := rfl
@[simp] theorem State.updWing_msi (s : State) (w : Nat) (f : Wing → Wing) : (s.updWing w f).msi = s.msi := rfl
@[simp] theorem State.updWing_bias (s : State) (w : Nat) (f : Wing → Wing) : (s.updWing w f).bias = s.bias := rfl
@[simp] theorem State.updWing_hostReqs (s : State) (w : Nat) (f : Wing → Wing) : (s.updWing w f).hostReqs = s.hostReqs := rfl
@[simp] theorem State.updWing_hostAns (s : State) (w : Nat) (f : Wing → Wing) : (s.updWing w f).hostAns = s.hostAns := rfl
@[simp] theorem State.updWing_mgmt (s : State) (w : Nat) (f : Wing → Wing) : (s.updWing w f).mgmt = s.mgmt := rfl
@[simp] theorem State.updWing_boot (s : State) (w : Nat) (f : Wing → Wing) : (s.updWing w f).boot = s.boot := rfl
@[simp] theorem State.updWing_same (s : State) (w : Nat) (f : Wing → Wing) : (s.updWing w f).wing w = f (s.wing w) := amapGet_insert_same _ _ _ _
theorem State.updWing_other (s : State) (x y : Nat) (f : Wing → Wing) (h : x ≠ y) : (s.updWing y f).wing x = s.wing x := amapGet_insert_other _ _ _ _ _ h

/-! ## updDie -/

@[simp] theorem State.updDie_free (s : State) (d : Nat) (f : Die → Die) : (s.updDie d f).free = s.free := rfl
@[simp] theorem State.updDie_turn (s : State) (d : Nat) (f : Die → Die) : (s.updDie d f).turn = s.turn := rfl
@[simp] theorem State.updDie_served (s : State) (d : Nat) (f : Die → Die) : (s.updDie d f).served = s.served := rfl
@[simp] theorem State.updDie_picks (s : State) (d : Nat) (f : Die → Die) : (s.updDie d f).picks = s.picks := rfl
@[simp] theorem State.updDie_laterNo (s : State) (d : Nat) (f : Die → Die) : (s.updDie d f).laterNo = s.laterNo := rfl
@[simp] theorem State.updDie_autoNo (s : State) (d : Nat) (f : Die → Die) : (s.updDie d f).autoNo = s.autoNo := rfl
@[simp] theorem State.updDie_uid (s : State) (d : Nat) (f : Die → Die) : (s.updDie d f).uid = s.uid := rfl
@[simp] theorem State.updDie_cclk (s : State) (d : Nat) (f : Die → Die) : (s.updDie d f).cclk = s.cclk := rfl
@[simp] theorem State.updDie_devtime (s : State) (d : Nat) (f : Die → Die) : (s.updDie d f).devtime = s.devtime := rfl
@[simp] theorem State.updDie_ratio (s : State) (d : Nat) (f : Die → Die) : (s.updDie d f).ratio = s.ratio := rfl
@[simp] theorem State.updDie_age (s : State) (d : Nat) (f : Die → Die) : (s.updDie d f).age = s.age := rfl
@[simp] theorem State.updDie_cores (s : State) (d : Nat) (f : Die → Die) : (s.updDie d f).cores = s.cores := rfl
@[simp] theorem State.updDie_wings (s : State) (d : Nat) (f : Die → Die) : (s.updDie d f).wings = s.wings := rfl
@[simp] theorem State.updDie_teams (s : State) (d : Nat) (f : Die → Die) : (s.updDie d f).teams = s.teams := rfl
@[simp] theorem State.updDie_clusters (s : State) (d : Nat) (f : Die → Die) : (s.updDie d f).clusters = s.clusters := rfl
@[simp] theorem State.updDie_saved (s : State) (d : Nat) (f : Die → Die) : (s.updDie d f).saved = s.saved := rfl
@[simp] theorem State.updDie_launches (s : State) (d : Nat) (f : Die → Die) : (s.updDie d f).launches = s.launches := rfl
@[simp] theorem State.updDie_queues (s : State) (d : Nat) (f : Die → Die) : (s.updDie d f).queues = s.queues := rfl
@[simp] theorem State.updDie_spaces (s : State) (d : Nat) (f : Die → Die) : (s.updDie d f).spaces = s.spaces := rfl
@[simp] theorem State.updDie_nextTicket (s : State) (d : Nat) (f : Die → Die) : (s.updDie d f).nextTicket = s.nextTicket := rfl
@[simp] theorem State.updDie_leases (s : State) (d : Nat) (f : Die → Die) : (s.updDie d f).leases = s.leases := rfl
@[simp] theorem State.updDie_shoots (s : State) (d : Nat) (f : Die → Die) : (s.updDie d f).shoots = s.shoots := rfl
@[simp] theorem State.updDie_blocks (s : State) (d : Nat) (f : Die → Die) : (s.updDie d f).blocks = s.blocks := rfl
@[simp] theorem State.updDie_l2 (s : State) (d : Nat) (f : Die → Die) : (s.updDie d f).l2 = s.l2 := rfl
@[simp] theorem State.updDie_repl (s : State) (d : Nat) (f : Die → Die) : (s.updDie d f).repl = s.repl := rfl
@[simp] theorem State.updDie_homeRec (s : State) (d : Nat) (f : Die → Die) : (s.updDie d f).homeRec = s.homeRec := rfl
@[simp] theorem State.updDie_masks (s : State) (d : Nat) (f : Die → Die) : (s.updDie d f).masks = s.masks := rfl
@[simp] theorem State.updDie_maskDrop (s : State) (d : Nat) (f : Die → Die) : (s.updDie d f).maskDrop = s.maskDrop := rfl
@[simp] theorem State.updDie_pub (s : State) (d : Nat) (f : Die → Die) : (s.updDie d f).pub = s.pub := rfl
@[simp] theorem State.updDie_txns (s : State) (d : Nat) (f : Die → Die) : (s.updDie d f).txns = s.txns := rfl
@[simp] theorem State.updDie_homeWait (s : State) (d : Nat) (f : Die → Die) : (s.updDie d f).homeWait = s.homeWait := rfl
@[simp] theorem State.updDie_dram (s : State) (d : Nat) (f : Die → Die) : (s.updDie d f).dram = s.dram := rfl
@[simp] theorem State.updDie_dramPoison (s : State) (d : Nat) (f : Die → Die) : (s.updDie d f).dramPoison = s.dramPoison := rfl
@[simp] theorem State.updDie_unitKey (s : State) (d : Nat) (f : Die → Die) : (s.updDie d f).unitKey = s.unitKey := rfl
@[simp] theorem State.updDie_keys (s : State) (d : Nat) (f : Die → Die) : (s.updDie d f).keys = s.keys := rfl
@[simp] theorem State.updDie_hostMem (s : State) (d : Nat) (f : Die → Die) : (s.updDie d f).hostMem = s.hostMem := rfl
@[simp] theorem State.updDie_peerMem (s : State) (d : Nat) (f : Die → Die) : (s.updDie d f).peerMem = s.peerMem := rfl
@[simp] theorem State.updDie_hPoison (s : State) (d : Nat) (f : Die → Die) : (s.updDie d f).hPoison = s.hPoison := rfl
@[simp] theorem State.updDie_rows (s : State) (d : Nat) (f : Die → Die) : (s.updDie d f).rows = s.rows := rfl
@[simp] theorem State.updDie_accs (s : State) (d : Nat) (f : Die → Die) : (s.updDie d f).accs = s.accs := rfl
@[simp] theorem State.updDie_pends (s : State) (d : Nat) (f : Die → Die) : (s.updDie d f).pends = s.pends := rfl
@[simp] theorem State.updDie_texs (s : State) (d : Nat) (f : Die → Die) : (s.updDie d f).texs = s.texs := rfl
@[simp] theorem State.updDie_msgs (s : State) (d : Nat) (f : Die → Die) : (s.updDie d f).msgs = s.msgs := rfl
@[simp] theorem State.updDie_later (s : State) (d : Nat) (f : Die → Die) : (s.updDie d f).later = s.later := rfl
@[simp] theorem State.updDie_inputs (s : State) (d : Nat) (f : Die → Die) : (s.updDie d f).inputs = s.inputs := rfl
@[simp] theorem State.updDie_copies (s : State) (d : Nat) (f : Die → Die) : (s.updDie d f).copies = s.copies := rfl
@[simp] theorem State.updDie_intlv (s : State) (d : Nat) (f : Die → Die) : (s.updDie d f).intlv = s.intlv := rfl
@[simp] theorem State.updDie_intlvSt (s : State) (d : Nat) (f : Die → Die) : (s.updDie d f).intlvSt = s.intlvSt := rfl
@[simp] theorem State.updDie_retired (s : State) (d : Nat) (f : Die → Die) : (s.updDie d f).retired = s.retired := rfl
@[simp] theorem State.updDie_stes (s : State) (d : Nat) (f : Die → Die) : (s.updDie d f).stes = s.stes := rfl
@[simp] theorem State.updDie_reserve (s : State) (d : Nat) (f : Die → Die) : (s.updDie d f).reserve = s.reserve := rfl
@[simp] theorem State.updDie_sdie (s : State) (d : Nat) (f : Die → Die) : (s.updDie d f).sdie = s.sdie := rfl
@[simp] theorem State.updDie_sdiePoison (s : State) (d : Nat) (f : Die → Die) : (s.updDie d f).sdiePoison = s.sdiePoison := rfl
@[simp] theorem State.updDie_domains (s : State) (d : Nat) (f : Die → Die) : (s.updDie d f).domains = s.domains := rfl
@[simp] theorem State.updDie_bankLast (s : State) (d : Nat) (f : Die → Die) : (s.updDie d f).bankLast = s.bankLast := rfl
@[simp] theorem State.updDie_bankReqs (s : State) (d : Nat) (f : Die → Die) : (s.updDie d f).bankReqs = s.bankReqs := rfl
@[simp] theorem State.updDie_resps (s : State) (d : Nat) (f : Die → Die) : (s.updDie d f).resps = s.resps := rfl
@[simp] theorem State.updDie_ratioTo (s : State) (d : Nat) (f : Die → Die) : (s.updDie d f).ratioTo = s.ratioTo := rfl
@[simp] theorem State.updDie_dbgAns (s : State) (d : Nat) (f : Die → Die) : (s.updDie d f).dbgAns = s.dbgAns := rfl
@[simp] theorem State.updDie_draws (s : State) (d : Nat) (f : Die → Die) : (s.updDie d f).draws = s.draws := rfl
@[simp] theorem State.updDie_flights (s : State) (d : Nat) (f : Die → Die) : (s.updDie d f).flights = s.flights := rfl
@[simp] theorem State.updDie_slots (s : State) (d : Nat) (f : Die → Die) : (s.updDie d f).slots = s.slots := rfl
@[simp] theorem State.updDie_ring (s : State) (d : Nat) (f : Die → Die) : (s.updDie d f).ring = s.ring := rfl
@[simp] theorem State.updDie_msi (s : State) (d : Nat) (f : Die → Die) : (s.updDie d f).msi = s.msi := rfl
@[simp] theorem State.updDie_bias (s : State) (d : Nat) (f : Die → Die) : (s.updDie d f).bias = s.bias := rfl
@[simp] theorem State.updDie_hostReqs (s : State) (d : Nat) (f : Die → Die) : (s.updDie d f).hostReqs = s.hostReqs := rfl
@[simp] theorem State.updDie_hostAns (s : State) (d : Nat) (f : Die → Die) : (s.updDie d f).hostAns = s.hostAns := rfl
@[simp] theorem State.updDie_mgmt (s : State) (d : Nat) (f : Die → Die) : (s.updDie d f).mgmt = s.mgmt := rfl
@[simp] theorem State.updDie_boot (s : State) (d : Nat) (f : Die → Die) : (s.updDie d f).boot = s.boot := rfl
@[simp] theorem State.updDie_same (s : State) (d : Nat) (f : Die → Die) : (s.updDie d f).die d = f (s.die d) := amapGet_insert_same _ _ _ _
theorem State.updDie_other (s : State) (x y : Nat) (f : Die → Die) (h : x ≠ y) : (s.updDie y f).die x = s.die x := amapGet_insert_other _ _ _ _ _ h

/-! ## updTeam -/

@[simp] theorem State.updTeam_free (s : State) (t : Nat) (f : Team → Team) : (s.updTeam t f).free = s.free := rfl
@[simp] theorem State.updTeam_turn (s : State) (t : Nat) (f : Team → Team) : (s.updTeam t f).turn = s.turn := rfl
@[simp] theorem State.updTeam_served (s : State) (t : Nat) (f : Team → Team) : (s.updTeam t f).served = s.served := rfl
@[simp] theorem State.updTeam_picks (s : State) (t : Nat) (f : Team → Team) : (s.updTeam t f).picks = s.picks := rfl
@[simp] theorem State.updTeam_laterNo (s : State) (t : Nat) (f : Team → Team) : (s.updTeam t f).laterNo = s.laterNo := rfl
@[simp] theorem State.updTeam_autoNo (s : State) (t : Nat) (f : Team → Team) : (s.updTeam t f).autoNo = s.autoNo := rfl
@[simp] theorem State.updTeam_uid (s : State) (t : Nat) (f : Team → Team) : (s.updTeam t f).uid = s.uid := rfl
@[simp] theorem State.updTeam_cclk (s : State) (t : Nat) (f : Team → Team) : (s.updTeam t f).cclk = s.cclk := rfl
@[simp] theorem State.updTeam_devtime (s : State) (t : Nat) (f : Team → Team) : (s.updTeam t f).devtime = s.devtime := rfl
@[simp] theorem State.updTeam_ratio (s : State) (t : Nat) (f : Team → Team) : (s.updTeam t f).ratio = s.ratio := rfl
@[simp] theorem State.updTeam_age (s : State) (t : Nat) (f : Team → Team) : (s.updTeam t f).age = s.age := rfl
@[simp] theorem State.updTeam_cores (s : State) (t : Nat) (f : Team → Team) : (s.updTeam t f).cores = s.cores := rfl
@[simp] theorem State.updTeam_wings (s : State) (t : Nat) (f : Team → Team) : (s.updTeam t f).wings = s.wings := rfl
@[simp] theorem State.updTeam_dies (s : State) (t : Nat) (f : Team → Team) : (s.updTeam t f).dies = s.dies := rfl
@[simp] theorem State.updTeam_clusters (s : State) (t : Nat) (f : Team → Team) : (s.updTeam t f).clusters = s.clusters := rfl
@[simp] theorem State.updTeam_saved (s : State) (t : Nat) (f : Team → Team) : (s.updTeam t f).saved = s.saved := rfl
@[simp] theorem State.updTeam_launches (s : State) (t : Nat) (f : Team → Team) : (s.updTeam t f).launches = s.launches := rfl
@[simp] theorem State.updTeam_queues (s : State) (t : Nat) (f : Team → Team) : (s.updTeam t f).queues = s.queues := rfl
@[simp] theorem State.updTeam_spaces (s : State) (t : Nat) (f : Team → Team) : (s.updTeam t f).spaces = s.spaces := rfl
@[simp] theorem State.updTeam_nextTicket (s : State) (t : Nat) (f : Team → Team) : (s.updTeam t f).nextTicket = s.nextTicket := rfl
@[simp] theorem State.updTeam_leases (s : State) (t : Nat) (f : Team → Team) : (s.updTeam t f).leases = s.leases := rfl
@[simp] theorem State.updTeam_shoots (s : State) (t : Nat) (f : Team → Team) : (s.updTeam t f).shoots = s.shoots := rfl
@[simp] theorem State.updTeam_blocks (s : State) (t : Nat) (f : Team → Team) : (s.updTeam t f).blocks = s.blocks := rfl
@[simp] theorem State.updTeam_l2 (s : State) (t : Nat) (f : Team → Team) : (s.updTeam t f).l2 = s.l2 := rfl
@[simp] theorem State.updTeam_repl (s : State) (t : Nat) (f : Team → Team) : (s.updTeam t f).repl = s.repl := rfl
@[simp] theorem State.updTeam_homeRec (s : State) (t : Nat) (f : Team → Team) : (s.updTeam t f).homeRec = s.homeRec := rfl
@[simp] theorem State.updTeam_masks (s : State) (t : Nat) (f : Team → Team) : (s.updTeam t f).masks = s.masks := rfl
@[simp] theorem State.updTeam_maskDrop (s : State) (t : Nat) (f : Team → Team) : (s.updTeam t f).maskDrop = s.maskDrop := rfl
@[simp] theorem State.updTeam_pub (s : State) (t : Nat) (f : Team → Team) : (s.updTeam t f).pub = s.pub := rfl
@[simp] theorem State.updTeam_txns (s : State) (t : Nat) (f : Team → Team) : (s.updTeam t f).txns = s.txns := rfl
@[simp] theorem State.updTeam_homeWait (s : State) (t : Nat) (f : Team → Team) : (s.updTeam t f).homeWait = s.homeWait := rfl
@[simp] theorem State.updTeam_dram (s : State) (t : Nat) (f : Team → Team) : (s.updTeam t f).dram = s.dram := rfl
@[simp] theorem State.updTeam_dramPoison (s : State) (t : Nat) (f : Team → Team) : (s.updTeam t f).dramPoison = s.dramPoison := rfl
@[simp] theorem State.updTeam_unitKey (s : State) (t : Nat) (f : Team → Team) : (s.updTeam t f).unitKey = s.unitKey := rfl
@[simp] theorem State.updTeam_keys (s : State) (t : Nat) (f : Team → Team) : (s.updTeam t f).keys = s.keys := rfl
@[simp] theorem State.updTeam_hostMem (s : State) (t : Nat) (f : Team → Team) : (s.updTeam t f).hostMem = s.hostMem := rfl
@[simp] theorem State.updTeam_peerMem (s : State) (t : Nat) (f : Team → Team) : (s.updTeam t f).peerMem = s.peerMem := rfl
@[simp] theorem State.updTeam_hPoison (s : State) (t : Nat) (f : Team → Team) : (s.updTeam t f).hPoison = s.hPoison := rfl
@[simp] theorem State.updTeam_rows (s : State) (t : Nat) (f : Team → Team) : (s.updTeam t f).rows = s.rows := rfl
@[simp] theorem State.updTeam_accs (s : State) (t : Nat) (f : Team → Team) : (s.updTeam t f).accs = s.accs := rfl
@[simp] theorem State.updTeam_pends (s : State) (t : Nat) (f : Team → Team) : (s.updTeam t f).pends = s.pends := rfl
@[simp] theorem State.updTeam_texs (s : State) (t : Nat) (f : Team → Team) : (s.updTeam t f).texs = s.texs := rfl
@[simp] theorem State.updTeam_msgs (s : State) (t : Nat) (f : Team → Team) : (s.updTeam t f).msgs = s.msgs := rfl
@[simp] theorem State.updTeam_later (s : State) (t : Nat) (f : Team → Team) : (s.updTeam t f).later = s.later := rfl
@[simp] theorem State.updTeam_inputs (s : State) (t : Nat) (f : Team → Team) : (s.updTeam t f).inputs = s.inputs := rfl
@[simp] theorem State.updTeam_copies (s : State) (t : Nat) (f : Team → Team) : (s.updTeam t f).copies = s.copies := rfl
@[simp] theorem State.updTeam_intlv (s : State) (t : Nat) (f : Team → Team) : (s.updTeam t f).intlv = s.intlv := rfl
@[simp] theorem State.updTeam_intlvSt (s : State) (t : Nat) (f : Team → Team) : (s.updTeam t f).intlvSt = s.intlvSt := rfl
@[simp] theorem State.updTeam_retired (s : State) (t : Nat) (f : Team → Team) : (s.updTeam t f).retired = s.retired := rfl
@[simp] theorem State.updTeam_stes (s : State) (t : Nat) (f : Team → Team) : (s.updTeam t f).stes = s.stes := rfl
@[simp] theorem State.updTeam_reserve (s : State) (t : Nat) (f : Team → Team) : (s.updTeam t f).reserve = s.reserve := rfl
@[simp] theorem State.updTeam_sdie (s : State) (t : Nat) (f : Team → Team) : (s.updTeam t f).sdie = s.sdie := rfl
@[simp] theorem State.updTeam_sdiePoison (s : State) (t : Nat) (f : Team → Team) : (s.updTeam t f).sdiePoison = s.sdiePoison := rfl
@[simp] theorem State.updTeam_domains (s : State) (t : Nat) (f : Team → Team) : (s.updTeam t f).domains = s.domains := rfl
@[simp] theorem State.updTeam_bankLast (s : State) (t : Nat) (f : Team → Team) : (s.updTeam t f).bankLast = s.bankLast := rfl
@[simp] theorem State.updTeam_bankReqs (s : State) (t : Nat) (f : Team → Team) : (s.updTeam t f).bankReqs = s.bankReqs := rfl
@[simp] theorem State.updTeam_resps (s : State) (t : Nat) (f : Team → Team) : (s.updTeam t f).resps = s.resps := rfl
@[simp] theorem State.updTeam_ratioTo (s : State) (t : Nat) (f : Team → Team) : (s.updTeam t f).ratioTo = s.ratioTo := rfl
@[simp] theorem State.updTeam_dbgAns (s : State) (t : Nat) (f : Team → Team) : (s.updTeam t f).dbgAns = s.dbgAns := rfl
@[simp] theorem State.updTeam_draws (s : State) (t : Nat) (f : Team → Team) : (s.updTeam t f).draws = s.draws := rfl
@[simp] theorem State.updTeam_flights (s : State) (t : Nat) (f : Team → Team) : (s.updTeam t f).flights = s.flights := rfl
@[simp] theorem State.updTeam_slots (s : State) (t : Nat) (f : Team → Team) : (s.updTeam t f).slots = s.slots := rfl
@[simp] theorem State.updTeam_ring (s : State) (t : Nat) (f : Team → Team) : (s.updTeam t f).ring = s.ring := rfl
@[simp] theorem State.updTeam_msi (s : State) (t : Nat) (f : Team → Team) : (s.updTeam t f).msi = s.msi := rfl
@[simp] theorem State.updTeam_bias (s : State) (t : Nat) (f : Team → Team) : (s.updTeam t f).bias = s.bias := rfl
@[simp] theorem State.updTeam_hostReqs (s : State) (t : Nat) (f : Team → Team) : (s.updTeam t f).hostReqs = s.hostReqs := rfl
@[simp] theorem State.updTeam_hostAns (s : State) (t : Nat) (f : Team → Team) : (s.updTeam t f).hostAns = s.hostAns := rfl
@[simp] theorem State.updTeam_mgmt (s : State) (t : Nat) (f : Team → Team) : (s.updTeam t f).mgmt = s.mgmt := rfl
@[simp] theorem State.updTeam_boot (s : State) (t : Nat) (f : Team → Team) : (s.updTeam t f).boot = s.boot := rfl

/-! ## updCluster -/

@[simp] theorem State.updCluster_free (s : State) (c : Nat) (f : Cluster → Cluster) : (s.updCluster c f).free = s.free := rfl
@[simp] theorem State.updCluster_turn (s : State) (c : Nat) (f : Cluster → Cluster) : (s.updCluster c f).turn = s.turn := rfl
@[simp] theorem State.updCluster_served (s : State) (c : Nat) (f : Cluster → Cluster) : (s.updCluster c f).served = s.served := rfl
@[simp] theorem State.updCluster_picks (s : State) (c : Nat) (f : Cluster → Cluster) : (s.updCluster c f).picks = s.picks := rfl
@[simp] theorem State.updCluster_laterNo (s : State) (c : Nat) (f : Cluster → Cluster) : (s.updCluster c f).laterNo = s.laterNo := rfl
@[simp] theorem State.updCluster_autoNo (s : State) (c : Nat) (f : Cluster → Cluster) : (s.updCluster c f).autoNo = s.autoNo := rfl
@[simp] theorem State.updCluster_uid (s : State) (c : Nat) (f : Cluster → Cluster) : (s.updCluster c f).uid = s.uid := rfl
@[simp] theorem State.updCluster_cclk (s : State) (c : Nat) (f : Cluster → Cluster) : (s.updCluster c f).cclk = s.cclk := rfl
@[simp] theorem State.updCluster_devtime (s : State) (c : Nat) (f : Cluster → Cluster) : (s.updCluster c f).devtime = s.devtime := rfl
@[simp] theorem State.updCluster_ratio (s : State) (c : Nat) (f : Cluster → Cluster) : (s.updCluster c f).ratio = s.ratio := rfl
@[simp] theorem State.updCluster_age (s : State) (c : Nat) (f : Cluster → Cluster) : (s.updCluster c f).age = s.age := rfl
@[simp] theorem State.updCluster_cores (s : State) (c : Nat) (f : Cluster → Cluster) : (s.updCluster c f).cores = s.cores := rfl
@[simp] theorem State.updCluster_wings (s : State) (c : Nat) (f : Cluster → Cluster) : (s.updCluster c f).wings = s.wings := rfl
@[simp] theorem State.updCluster_dies (s : State) (c : Nat) (f : Cluster → Cluster) : (s.updCluster c f).dies = s.dies := rfl
@[simp] theorem State.updCluster_teams (s : State) (c : Nat) (f : Cluster → Cluster) : (s.updCluster c f).teams = s.teams := rfl
@[simp] theorem State.updCluster_saved (s : State) (c : Nat) (f : Cluster → Cluster) : (s.updCluster c f).saved = s.saved := rfl
@[simp] theorem State.updCluster_launches (s : State) (c : Nat) (f : Cluster → Cluster) : (s.updCluster c f).launches = s.launches := rfl
@[simp] theorem State.updCluster_queues (s : State) (c : Nat) (f : Cluster → Cluster) : (s.updCluster c f).queues = s.queues := rfl
@[simp] theorem State.updCluster_spaces (s : State) (c : Nat) (f : Cluster → Cluster) : (s.updCluster c f).spaces = s.spaces := rfl
@[simp] theorem State.updCluster_nextTicket (s : State) (c : Nat) (f : Cluster → Cluster) : (s.updCluster c f).nextTicket = s.nextTicket := rfl
@[simp] theorem State.updCluster_leases (s : State) (c : Nat) (f : Cluster → Cluster) : (s.updCluster c f).leases = s.leases := rfl
@[simp] theorem State.updCluster_shoots (s : State) (c : Nat) (f : Cluster → Cluster) : (s.updCluster c f).shoots = s.shoots := rfl
@[simp] theorem State.updCluster_blocks (s : State) (c : Nat) (f : Cluster → Cluster) : (s.updCluster c f).blocks = s.blocks := rfl
@[simp] theorem State.updCluster_l2 (s : State) (c : Nat) (f : Cluster → Cluster) : (s.updCluster c f).l2 = s.l2 := rfl
@[simp] theorem State.updCluster_repl (s : State) (c : Nat) (f : Cluster → Cluster) : (s.updCluster c f).repl = s.repl := rfl
@[simp] theorem State.updCluster_homeRec (s : State) (c : Nat) (f : Cluster → Cluster) : (s.updCluster c f).homeRec = s.homeRec := rfl
@[simp] theorem State.updCluster_masks (s : State) (c : Nat) (f : Cluster → Cluster) : (s.updCluster c f).masks = s.masks := rfl
@[simp] theorem State.updCluster_maskDrop (s : State) (c : Nat) (f : Cluster → Cluster) : (s.updCluster c f).maskDrop = s.maskDrop := rfl
@[simp] theorem State.updCluster_pub (s : State) (c : Nat) (f : Cluster → Cluster) : (s.updCluster c f).pub = s.pub := rfl
@[simp] theorem State.updCluster_txns (s : State) (c : Nat) (f : Cluster → Cluster) : (s.updCluster c f).txns = s.txns := rfl
@[simp] theorem State.updCluster_homeWait (s : State) (c : Nat) (f : Cluster → Cluster) : (s.updCluster c f).homeWait = s.homeWait := rfl
@[simp] theorem State.updCluster_dram (s : State) (c : Nat) (f : Cluster → Cluster) : (s.updCluster c f).dram = s.dram := rfl
@[simp] theorem State.updCluster_dramPoison (s : State) (c : Nat) (f : Cluster → Cluster) : (s.updCluster c f).dramPoison = s.dramPoison := rfl
@[simp] theorem State.updCluster_unitKey (s : State) (c : Nat) (f : Cluster → Cluster) : (s.updCluster c f).unitKey = s.unitKey := rfl
@[simp] theorem State.updCluster_keys (s : State) (c : Nat) (f : Cluster → Cluster) : (s.updCluster c f).keys = s.keys := rfl
@[simp] theorem State.updCluster_hostMem (s : State) (c : Nat) (f : Cluster → Cluster) : (s.updCluster c f).hostMem = s.hostMem := rfl
@[simp] theorem State.updCluster_peerMem (s : State) (c : Nat) (f : Cluster → Cluster) : (s.updCluster c f).peerMem = s.peerMem := rfl
@[simp] theorem State.updCluster_hPoison (s : State) (c : Nat) (f : Cluster → Cluster) : (s.updCluster c f).hPoison = s.hPoison := rfl
@[simp] theorem State.updCluster_rows (s : State) (c : Nat) (f : Cluster → Cluster) : (s.updCluster c f).rows = s.rows := rfl
@[simp] theorem State.updCluster_accs (s : State) (c : Nat) (f : Cluster → Cluster) : (s.updCluster c f).accs = s.accs := rfl
@[simp] theorem State.updCluster_pends (s : State) (c : Nat) (f : Cluster → Cluster) : (s.updCluster c f).pends = s.pends := rfl
@[simp] theorem State.updCluster_texs (s : State) (c : Nat) (f : Cluster → Cluster) : (s.updCluster c f).texs = s.texs := rfl
@[simp] theorem State.updCluster_msgs (s : State) (c : Nat) (f : Cluster → Cluster) : (s.updCluster c f).msgs = s.msgs := rfl
@[simp] theorem State.updCluster_later (s : State) (c : Nat) (f : Cluster → Cluster) : (s.updCluster c f).later = s.later := rfl
@[simp] theorem State.updCluster_inputs (s : State) (c : Nat) (f : Cluster → Cluster) : (s.updCluster c f).inputs = s.inputs := rfl
@[simp] theorem State.updCluster_copies (s : State) (c : Nat) (f : Cluster → Cluster) : (s.updCluster c f).copies = s.copies := rfl
@[simp] theorem State.updCluster_intlv (s : State) (c : Nat) (f : Cluster → Cluster) : (s.updCluster c f).intlv = s.intlv := rfl
@[simp] theorem State.updCluster_intlvSt (s : State) (c : Nat) (f : Cluster → Cluster) : (s.updCluster c f).intlvSt = s.intlvSt := rfl
@[simp] theorem State.updCluster_retired (s : State) (c : Nat) (f : Cluster → Cluster) : (s.updCluster c f).retired = s.retired := rfl
@[simp] theorem State.updCluster_stes (s : State) (c : Nat) (f : Cluster → Cluster) : (s.updCluster c f).stes = s.stes := rfl
@[simp] theorem State.updCluster_reserve (s : State) (c : Nat) (f : Cluster → Cluster) : (s.updCluster c f).reserve = s.reserve := rfl
@[simp] theorem State.updCluster_sdie (s : State) (c : Nat) (f : Cluster → Cluster) : (s.updCluster c f).sdie = s.sdie := rfl
@[simp] theorem State.updCluster_sdiePoison (s : State) (c : Nat) (f : Cluster → Cluster) : (s.updCluster c f).sdiePoison = s.sdiePoison := rfl
@[simp] theorem State.updCluster_domains (s : State) (c : Nat) (f : Cluster → Cluster) : (s.updCluster c f).domains = s.domains := rfl
@[simp] theorem State.updCluster_bankLast (s : State) (c : Nat) (f : Cluster → Cluster) : (s.updCluster c f).bankLast = s.bankLast := rfl
@[simp] theorem State.updCluster_bankReqs (s : State) (c : Nat) (f : Cluster → Cluster) : (s.updCluster c f).bankReqs = s.bankReqs := rfl
@[simp] theorem State.updCluster_resps (s : State) (c : Nat) (f : Cluster → Cluster) : (s.updCluster c f).resps = s.resps := rfl
@[simp] theorem State.updCluster_ratioTo (s : State) (c : Nat) (f : Cluster → Cluster) : (s.updCluster c f).ratioTo = s.ratioTo := rfl
@[simp] theorem State.updCluster_dbgAns (s : State) (c : Nat) (f : Cluster → Cluster) : (s.updCluster c f).dbgAns = s.dbgAns := rfl
@[simp] theorem State.updCluster_draws (s : State) (c : Nat) (f : Cluster → Cluster) : (s.updCluster c f).draws = s.draws := rfl
@[simp] theorem State.updCluster_flights (s : State) (c : Nat) (f : Cluster → Cluster) : (s.updCluster c f).flights = s.flights := rfl
@[simp] theorem State.updCluster_slots (s : State) (c : Nat) (f : Cluster → Cluster) : (s.updCluster c f).slots = s.slots := rfl
@[simp] theorem State.updCluster_ring (s : State) (c : Nat) (f : Cluster → Cluster) : (s.updCluster c f).ring = s.ring := rfl
@[simp] theorem State.updCluster_msi (s : State) (c : Nat) (f : Cluster → Cluster) : (s.updCluster c f).msi = s.msi := rfl
@[simp] theorem State.updCluster_bias (s : State) (c : Nat) (f : Cluster → Cluster) : (s.updCluster c f).bias = s.bias := rfl
@[simp] theorem State.updCluster_hostReqs (s : State) (c : Nat) (f : Cluster → Cluster) : (s.updCluster c f).hostReqs = s.hostReqs := rfl
@[simp] theorem State.updCluster_hostAns (s : State) (c : Nat) (f : Cluster → Cluster) : (s.updCluster c f).hostAns = s.hostAns := rfl
@[simp] theorem State.updCluster_mgmt (s : State) (c : Nat) (f : Cluster → Cluster) : (s.updCluster c f).mgmt = s.mgmt := rfl
@[simp] theorem State.updCluster_boot (s : State) (c : Nat) (f : Cluster → Cluster) : (s.updCluster c f).boot = s.boot := rfl
@[simp] theorem State.updCluster_same (s : State) (c : Nat) (f : Cluster → Cluster) : (s.updCluster c f).cluster c = f (s.cluster c) := amapGet_insert_same _ _ _ _
theorem State.updCluster_other (s : State) (x y : Nat) (f : Cluster → Cluster) (h : x ≠ y) : (s.updCluster y f).cluster x = s.cluster x := amapGet_insert_other _ _ _ _ _ h

/-! ## updLaunch -/

@[simp] theorem State.updLaunch_free (s : State) (l : Nat) (f : Launch → Launch) : (s.updLaunch l f).free = s.free := rfl
@[simp] theorem State.updLaunch_turn (s : State) (l : Nat) (f : Launch → Launch) : (s.updLaunch l f).turn = s.turn := rfl
@[simp] theorem State.updLaunch_served (s : State) (l : Nat) (f : Launch → Launch) : (s.updLaunch l f).served = s.served := rfl
@[simp] theorem State.updLaunch_picks (s : State) (l : Nat) (f : Launch → Launch) : (s.updLaunch l f).picks = s.picks := rfl
@[simp] theorem State.updLaunch_laterNo (s : State) (l : Nat) (f : Launch → Launch) : (s.updLaunch l f).laterNo = s.laterNo := rfl
@[simp] theorem State.updLaunch_autoNo (s : State) (l : Nat) (f : Launch → Launch) : (s.updLaunch l f).autoNo = s.autoNo := rfl
@[simp] theorem State.updLaunch_uid (s : State) (l : Nat) (f : Launch → Launch) : (s.updLaunch l f).uid = s.uid := rfl
@[simp] theorem State.updLaunch_cclk (s : State) (l : Nat) (f : Launch → Launch) : (s.updLaunch l f).cclk = s.cclk := rfl
@[simp] theorem State.updLaunch_devtime (s : State) (l : Nat) (f : Launch → Launch) : (s.updLaunch l f).devtime = s.devtime := rfl
@[simp] theorem State.updLaunch_ratio (s : State) (l : Nat) (f : Launch → Launch) : (s.updLaunch l f).ratio = s.ratio := rfl
@[simp] theorem State.updLaunch_age (s : State) (l : Nat) (f : Launch → Launch) : (s.updLaunch l f).age = s.age := rfl
@[simp] theorem State.updLaunch_cores (s : State) (l : Nat) (f : Launch → Launch) : (s.updLaunch l f).cores = s.cores := rfl
@[simp] theorem State.updLaunch_wings (s : State) (l : Nat) (f : Launch → Launch) : (s.updLaunch l f).wings = s.wings := rfl
@[simp] theorem State.updLaunch_dies (s : State) (l : Nat) (f : Launch → Launch) : (s.updLaunch l f).dies = s.dies := rfl
@[simp] theorem State.updLaunch_teams (s : State) (l : Nat) (f : Launch → Launch) : (s.updLaunch l f).teams = s.teams := rfl
@[simp] theorem State.updLaunch_clusters (s : State) (l : Nat) (f : Launch → Launch) : (s.updLaunch l f).clusters = s.clusters := rfl
@[simp] theorem State.updLaunch_saved (s : State) (l : Nat) (f : Launch → Launch) : (s.updLaunch l f).saved = s.saved := rfl
@[simp] theorem State.updLaunch_queues (s : State) (l : Nat) (f : Launch → Launch) : (s.updLaunch l f).queues = s.queues := rfl
@[simp] theorem State.updLaunch_spaces (s : State) (l : Nat) (f : Launch → Launch) : (s.updLaunch l f).spaces = s.spaces := rfl
@[simp] theorem State.updLaunch_nextTicket (s : State) (l : Nat) (f : Launch → Launch) : (s.updLaunch l f).nextTicket = s.nextTicket := rfl
@[simp] theorem State.updLaunch_leases (s : State) (l : Nat) (f : Launch → Launch) : (s.updLaunch l f).leases = s.leases := rfl
@[simp] theorem State.updLaunch_shoots (s : State) (l : Nat) (f : Launch → Launch) : (s.updLaunch l f).shoots = s.shoots := rfl
@[simp] theorem State.updLaunch_blocks (s : State) (l : Nat) (f : Launch → Launch) : (s.updLaunch l f).blocks = s.blocks := rfl
@[simp] theorem State.updLaunch_l2 (s : State) (l : Nat) (f : Launch → Launch) : (s.updLaunch l f).l2 = s.l2 := rfl
@[simp] theorem State.updLaunch_repl (s : State) (l : Nat) (f : Launch → Launch) : (s.updLaunch l f).repl = s.repl := rfl
@[simp] theorem State.updLaunch_homeRec (s : State) (l : Nat) (f : Launch → Launch) : (s.updLaunch l f).homeRec = s.homeRec := rfl
@[simp] theorem State.updLaunch_masks (s : State) (l : Nat) (f : Launch → Launch) : (s.updLaunch l f).masks = s.masks := rfl
@[simp] theorem State.updLaunch_maskDrop (s : State) (l : Nat) (f : Launch → Launch) : (s.updLaunch l f).maskDrop = s.maskDrop := rfl
@[simp] theorem State.updLaunch_pub (s : State) (l : Nat) (f : Launch → Launch) : (s.updLaunch l f).pub = s.pub := rfl
@[simp] theorem State.updLaunch_txns (s : State) (l : Nat) (f : Launch → Launch) : (s.updLaunch l f).txns = s.txns := rfl
@[simp] theorem State.updLaunch_homeWait (s : State) (l : Nat) (f : Launch → Launch) : (s.updLaunch l f).homeWait = s.homeWait := rfl
@[simp] theorem State.updLaunch_dram (s : State) (l : Nat) (f : Launch → Launch) : (s.updLaunch l f).dram = s.dram := rfl
@[simp] theorem State.updLaunch_dramPoison (s : State) (l : Nat) (f : Launch → Launch) : (s.updLaunch l f).dramPoison = s.dramPoison := rfl
@[simp] theorem State.updLaunch_unitKey (s : State) (l : Nat) (f : Launch → Launch) : (s.updLaunch l f).unitKey = s.unitKey := rfl
@[simp] theorem State.updLaunch_keys (s : State) (l : Nat) (f : Launch → Launch) : (s.updLaunch l f).keys = s.keys := rfl
@[simp] theorem State.updLaunch_hostMem (s : State) (l : Nat) (f : Launch → Launch) : (s.updLaunch l f).hostMem = s.hostMem := rfl
@[simp] theorem State.updLaunch_peerMem (s : State) (l : Nat) (f : Launch → Launch) : (s.updLaunch l f).peerMem = s.peerMem := rfl
@[simp] theorem State.updLaunch_hPoison (s : State) (l : Nat) (f : Launch → Launch) : (s.updLaunch l f).hPoison = s.hPoison := rfl
@[simp] theorem State.updLaunch_rows (s : State) (l : Nat) (f : Launch → Launch) : (s.updLaunch l f).rows = s.rows := rfl
@[simp] theorem State.updLaunch_accs (s : State) (l : Nat) (f : Launch → Launch) : (s.updLaunch l f).accs = s.accs := rfl
@[simp] theorem State.updLaunch_pends (s : State) (l : Nat) (f : Launch → Launch) : (s.updLaunch l f).pends = s.pends := rfl
@[simp] theorem State.updLaunch_texs (s : State) (l : Nat) (f : Launch → Launch) : (s.updLaunch l f).texs = s.texs := rfl
@[simp] theorem State.updLaunch_msgs (s : State) (l : Nat) (f : Launch → Launch) : (s.updLaunch l f).msgs = s.msgs := rfl
@[simp] theorem State.updLaunch_later (s : State) (l : Nat) (f : Launch → Launch) : (s.updLaunch l f).later = s.later := rfl
@[simp] theorem State.updLaunch_inputs (s : State) (l : Nat) (f : Launch → Launch) : (s.updLaunch l f).inputs = s.inputs := rfl
@[simp] theorem State.updLaunch_copies (s : State) (l : Nat) (f : Launch → Launch) : (s.updLaunch l f).copies = s.copies := rfl
@[simp] theorem State.updLaunch_intlv (s : State) (l : Nat) (f : Launch → Launch) : (s.updLaunch l f).intlv = s.intlv := rfl
@[simp] theorem State.updLaunch_intlvSt (s : State) (l : Nat) (f : Launch → Launch) : (s.updLaunch l f).intlvSt = s.intlvSt := rfl
@[simp] theorem State.updLaunch_retired (s : State) (l : Nat) (f : Launch → Launch) : (s.updLaunch l f).retired = s.retired := rfl
@[simp] theorem State.updLaunch_stes (s : State) (l : Nat) (f : Launch → Launch) : (s.updLaunch l f).stes = s.stes := rfl
@[simp] theorem State.updLaunch_reserve (s : State) (l : Nat) (f : Launch → Launch) : (s.updLaunch l f).reserve = s.reserve := rfl
@[simp] theorem State.updLaunch_sdie (s : State) (l : Nat) (f : Launch → Launch) : (s.updLaunch l f).sdie = s.sdie := rfl
@[simp] theorem State.updLaunch_sdiePoison (s : State) (l : Nat) (f : Launch → Launch) : (s.updLaunch l f).sdiePoison = s.sdiePoison := rfl
@[simp] theorem State.updLaunch_domains (s : State) (l : Nat) (f : Launch → Launch) : (s.updLaunch l f).domains = s.domains := rfl
@[simp] theorem State.updLaunch_bankLast (s : State) (l : Nat) (f : Launch → Launch) : (s.updLaunch l f).bankLast = s.bankLast := rfl
@[simp] theorem State.updLaunch_bankReqs (s : State) (l : Nat) (f : Launch → Launch) : (s.updLaunch l f).bankReqs = s.bankReqs := rfl
@[simp] theorem State.updLaunch_resps (s : State) (l : Nat) (f : Launch → Launch) : (s.updLaunch l f).resps = s.resps := rfl
@[simp] theorem State.updLaunch_ratioTo (s : State) (l : Nat) (f : Launch → Launch) : (s.updLaunch l f).ratioTo = s.ratioTo := rfl
@[simp] theorem State.updLaunch_dbgAns (s : State) (l : Nat) (f : Launch → Launch) : (s.updLaunch l f).dbgAns = s.dbgAns := rfl
@[simp] theorem State.updLaunch_draws (s : State) (l : Nat) (f : Launch → Launch) : (s.updLaunch l f).draws = s.draws := rfl
@[simp] theorem State.updLaunch_flights (s : State) (l : Nat) (f : Launch → Launch) : (s.updLaunch l f).flights = s.flights := rfl
@[simp] theorem State.updLaunch_slots (s : State) (l : Nat) (f : Launch → Launch) : (s.updLaunch l f).slots = s.slots := rfl
@[simp] theorem State.updLaunch_ring (s : State) (l : Nat) (f : Launch → Launch) : (s.updLaunch l f).ring = s.ring := rfl
@[simp] theorem State.updLaunch_msi (s : State) (l : Nat) (f : Launch → Launch) : (s.updLaunch l f).msi = s.msi := rfl
@[simp] theorem State.updLaunch_bias (s : State) (l : Nat) (f : Launch → Launch) : (s.updLaunch l f).bias = s.bias := rfl
@[simp] theorem State.updLaunch_hostReqs (s : State) (l : Nat) (f : Launch → Launch) : (s.updLaunch l f).hostReqs = s.hostReqs := rfl
@[simp] theorem State.updLaunch_hostAns (s : State) (l : Nat) (f : Launch → Launch) : (s.updLaunch l f).hostAns = s.hostAns := rfl
@[simp] theorem State.updLaunch_mgmt (s : State) (l : Nat) (f : Launch → Launch) : (s.updLaunch l f).mgmt = s.mgmt := rfl
@[simp] theorem State.updLaunch_boot (s : State) (l : Nat) (f : Launch → Launch) : (s.updLaunch l f).boot = s.boot := rfl
@[simp] theorem State.updLaunch_same (s : State) (l : Nat) (f : Launch → Launch) : (s.updLaunch l f).launch l = f (s.launch l) := amapGet_insert_same _ _ _ _
theorem State.updLaunch_other (s : State) (x y : Nat) (f : Launch → Launch) (h : x ≠ y) : (s.updLaunch y f).launch x = s.launch x := amapGet_insert_other _ _ _ _ _ h

/-! ## updSpace -/

@[simp] theorem State.updSpace_free (s : State) (n : Nat) (f : Space → Space) : (s.updSpace n f).free = s.free := rfl
@[simp] theorem State.updSpace_turn (s : State) (n : Nat) (f : Space → Space) : (s.updSpace n f).turn = s.turn := rfl
@[simp] theorem State.updSpace_served (s : State) (n : Nat) (f : Space → Space) : (s.updSpace n f).served = s.served := rfl
@[simp] theorem State.updSpace_picks (s : State) (n : Nat) (f : Space → Space) : (s.updSpace n f).picks = s.picks := rfl
@[simp] theorem State.updSpace_laterNo (s : State) (n : Nat) (f : Space → Space) : (s.updSpace n f).laterNo = s.laterNo := rfl
@[simp] theorem State.updSpace_autoNo (s : State) (n : Nat) (f : Space → Space) : (s.updSpace n f).autoNo = s.autoNo := rfl
@[simp] theorem State.updSpace_uid (s : State) (n : Nat) (f : Space → Space) : (s.updSpace n f).uid = s.uid := rfl
@[simp] theorem State.updSpace_cclk (s : State) (n : Nat) (f : Space → Space) : (s.updSpace n f).cclk = s.cclk := rfl
@[simp] theorem State.updSpace_devtime (s : State) (n : Nat) (f : Space → Space) : (s.updSpace n f).devtime = s.devtime := rfl
@[simp] theorem State.updSpace_ratio (s : State) (n : Nat) (f : Space → Space) : (s.updSpace n f).ratio = s.ratio := rfl
@[simp] theorem State.updSpace_age (s : State) (n : Nat) (f : Space → Space) : (s.updSpace n f).age = s.age := rfl
@[simp] theorem State.updSpace_cores (s : State) (n : Nat) (f : Space → Space) : (s.updSpace n f).cores = s.cores := rfl
@[simp] theorem State.updSpace_wings (s : State) (n : Nat) (f : Space → Space) : (s.updSpace n f).wings = s.wings := rfl
@[simp] theorem State.updSpace_dies (s : State) (n : Nat) (f : Space → Space) : (s.updSpace n f).dies = s.dies := rfl
@[simp] theorem State.updSpace_teams (s : State) (n : Nat) (f : Space → Space) : (s.updSpace n f).teams = s.teams := rfl
@[simp] theorem State.updSpace_clusters (s : State) (n : Nat) (f : Space → Space) : (s.updSpace n f).clusters = s.clusters := rfl
@[simp] theorem State.updSpace_saved (s : State) (n : Nat) (f : Space → Space) : (s.updSpace n f).saved = s.saved := rfl
@[simp] theorem State.updSpace_launches (s : State) (n : Nat) (f : Space → Space) : (s.updSpace n f).launches = s.launches := rfl
@[simp] theorem State.updSpace_queues (s : State) (n : Nat) (f : Space → Space) : (s.updSpace n f).queues = s.queues := rfl
@[simp] theorem State.updSpace_nextTicket (s : State) (n : Nat) (f : Space → Space) : (s.updSpace n f).nextTicket = s.nextTicket := rfl
@[simp] theorem State.updSpace_leases (s : State) (n : Nat) (f : Space → Space) : (s.updSpace n f).leases = s.leases := rfl
@[simp] theorem State.updSpace_shoots (s : State) (n : Nat) (f : Space → Space) : (s.updSpace n f).shoots = s.shoots := rfl
@[simp] theorem State.updSpace_blocks (s : State) (n : Nat) (f : Space → Space) : (s.updSpace n f).blocks = s.blocks := rfl
@[simp] theorem State.updSpace_l2 (s : State) (n : Nat) (f : Space → Space) : (s.updSpace n f).l2 = s.l2 := rfl
@[simp] theorem State.updSpace_repl (s : State) (n : Nat) (f : Space → Space) : (s.updSpace n f).repl = s.repl := rfl
@[simp] theorem State.updSpace_homeRec (s : State) (n : Nat) (f : Space → Space) : (s.updSpace n f).homeRec = s.homeRec := rfl
@[simp] theorem State.updSpace_masks (s : State) (n : Nat) (f : Space → Space) : (s.updSpace n f).masks = s.masks := rfl
@[simp] theorem State.updSpace_maskDrop (s : State) (n : Nat) (f : Space → Space) : (s.updSpace n f).maskDrop = s.maskDrop := rfl
@[simp] theorem State.updSpace_pub (s : State) (n : Nat) (f : Space → Space) : (s.updSpace n f).pub = s.pub := rfl
@[simp] theorem State.updSpace_txns (s : State) (n : Nat) (f : Space → Space) : (s.updSpace n f).txns = s.txns := rfl
@[simp] theorem State.updSpace_homeWait (s : State) (n : Nat) (f : Space → Space) : (s.updSpace n f).homeWait = s.homeWait := rfl
@[simp] theorem State.updSpace_dram (s : State) (n : Nat) (f : Space → Space) : (s.updSpace n f).dram = s.dram := rfl
@[simp] theorem State.updSpace_dramPoison (s : State) (n : Nat) (f : Space → Space) : (s.updSpace n f).dramPoison = s.dramPoison := rfl
@[simp] theorem State.updSpace_unitKey (s : State) (n : Nat) (f : Space → Space) : (s.updSpace n f).unitKey = s.unitKey := rfl
@[simp] theorem State.updSpace_keys (s : State) (n : Nat) (f : Space → Space) : (s.updSpace n f).keys = s.keys := rfl
@[simp] theorem State.updSpace_hostMem (s : State) (n : Nat) (f : Space → Space) : (s.updSpace n f).hostMem = s.hostMem := rfl
@[simp] theorem State.updSpace_peerMem (s : State) (n : Nat) (f : Space → Space) : (s.updSpace n f).peerMem = s.peerMem := rfl
@[simp] theorem State.updSpace_hPoison (s : State) (n : Nat) (f : Space → Space) : (s.updSpace n f).hPoison = s.hPoison := rfl
@[simp] theorem State.updSpace_rows (s : State) (n : Nat) (f : Space → Space) : (s.updSpace n f).rows = s.rows := rfl
@[simp] theorem State.updSpace_accs (s : State) (n : Nat) (f : Space → Space) : (s.updSpace n f).accs = s.accs := rfl
@[simp] theorem State.updSpace_pends (s : State) (n : Nat) (f : Space → Space) : (s.updSpace n f).pends = s.pends := rfl
@[simp] theorem State.updSpace_texs (s : State) (n : Nat) (f : Space → Space) : (s.updSpace n f).texs = s.texs := rfl
@[simp] theorem State.updSpace_msgs (s : State) (n : Nat) (f : Space → Space) : (s.updSpace n f).msgs = s.msgs := rfl
@[simp] theorem State.updSpace_later (s : State) (n : Nat) (f : Space → Space) : (s.updSpace n f).later = s.later := rfl
@[simp] theorem State.updSpace_inputs (s : State) (n : Nat) (f : Space → Space) : (s.updSpace n f).inputs = s.inputs := rfl
@[simp] theorem State.updSpace_copies (s : State) (n : Nat) (f : Space → Space) : (s.updSpace n f).copies = s.copies := rfl
@[simp] theorem State.updSpace_intlv (s : State) (n : Nat) (f : Space → Space) : (s.updSpace n f).intlv = s.intlv := rfl
@[simp] theorem State.updSpace_intlvSt (s : State) (n : Nat) (f : Space → Space) : (s.updSpace n f).intlvSt = s.intlvSt := rfl
@[simp] theorem State.updSpace_retired (s : State) (n : Nat) (f : Space → Space) : (s.updSpace n f).retired = s.retired := rfl
@[simp] theorem State.updSpace_stes (s : State) (n : Nat) (f : Space → Space) : (s.updSpace n f).stes = s.stes := rfl
@[simp] theorem State.updSpace_reserve (s : State) (n : Nat) (f : Space → Space) : (s.updSpace n f).reserve = s.reserve := rfl
@[simp] theorem State.updSpace_sdie (s : State) (n : Nat) (f : Space → Space) : (s.updSpace n f).sdie = s.sdie := rfl
@[simp] theorem State.updSpace_sdiePoison (s : State) (n : Nat) (f : Space → Space) : (s.updSpace n f).sdiePoison = s.sdiePoison := rfl
@[simp] theorem State.updSpace_domains (s : State) (n : Nat) (f : Space → Space) : (s.updSpace n f).domains = s.domains := rfl
@[simp] theorem State.updSpace_bankLast (s : State) (n : Nat) (f : Space → Space) : (s.updSpace n f).bankLast = s.bankLast := rfl
@[simp] theorem State.updSpace_bankReqs (s : State) (n : Nat) (f : Space → Space) : (s.updSpace n f).bankReqs = s.bankReqs := rfl
@[simp] theorem State.updSpace_resps (s : State) (n : Nat) (f : Space → Space) : (s.updSpace n f).resps = s.resps := rfl
@[simp] theorem State.updSpace_ratioTo (s : State) (n : Nat) (f : Space → Space) : (s.updSpace n f).ratioTo = s.ratioTo := rfl
@[simp] theorem State.updSpace_dbgAns (s : State) (n : Nat) (f : Space → Space) : (s.updSpace n f).dbgAns = s.dbgAns := rfl
@[simp] theorem State.updSpace_draws (s : State) (n : Nat) (f : Space → Space) : (s.updSpace n f).draws = s.draws := rfl
@[simp] theorem State.updSpace_flights (s : State) (n : Nat) (f : Space → Space) : (s.updSpace n f).flights = s.flights := rfl
@[simp] theorem State.updSpace_slots (s : State) (n : Nat) (f : Space → Space) : (s.updSpace n f).slots = s.slots := rfl
@[simp] theorem State.updSpace_ring (s : State) (n : Nat) (f : Space → Space) : (s.updSpace n f).ring = s.ring := rfl
@[simp] theorem State.updSpace_msi (s : State) (n : Nat) (f : Space → Space) : (s.updSpace n f).msi = s.msi := rfl
@[simp] theorem State.updSpace_bias (s : State) (n : Nat) (f : Space → Space) : (s.updSpace n f).bias = s.bias := rfl
@[simp] theorem State.updSpace_hostReqs (s : State) (n : Nat) (f : Space → Space) : (s.updSpace n f).hostReqs = s.hostReqs := rfl
@[simp] theorem State.updSpace_hostAns (s : State) (n : Nat) (f : Space → Space) : (s.updSpace n f).hostAns = s.hostAns := rfl
@[simp] theorem State.updSpace_mgmt (s : State) (n : Nat) (f : Space → Space) : (s.updSpace n f).mgmt = s.mgmt := rfl
@[simp] theorem State.updSpace_boot (s : State) (n : Nat) (f : Space → Space) : (s.updSpace n f).boot = s.boot := rfl
@[simp] theorem State.updSpace_same (s : State) (n : Nat) (f : Space → Space) : (s.updSpace n f).space n = f (s.space n) := amapGet_insert_same _ _ _ _
theorem State.updSpace_other (s : State) (x y : Nat) (f : Space → Space) (h : x ≠ y) : (s.updSpace y f).space x = s.space x := amapGet_insert_other _ _ _ _ _ h

/-! ## updQueue -/

@[simp] theorem State.updQueue_free (s : State) (n : Nat) (f : Queue → Queue) : (s.updQueue n f).free = s.free := rfl
@[simp] theorem State.updQueue_turn (s : State) (n : Nat) (f : Queue → Queue) : (s.updQueue n f).turn = s.turn := rfl
@[simp] theorem State.updQueue_served (s : State) (n : Nat) (f : Queue → Queue) : (s.updQueue n f).served = s.served := rfl
@[simp] theorem State.updQueue_picks (s : State) (n : Nat) (f : Queue → Queue) : (s.updQueue n f).picks = s.picks := rfl
@[simp] theorem State.updQueue_laterNo (s : State) (n : Nat) (f : Queue → Queue) : (s.updQueue n f).laterNo = s.laterNo := rfl
@[simp] theorem State.updQueue_autoNo (s : State) (n : Nat) (f : Queue → Queue) : (s.updQueue n f).autoNo = s.autoNo := rfl
@[simp] theorem State.updQueue_uid (s : State) (n : Nat) (f : Queue → Queue) : (s.updQueue n f).uid = s.uid := rfl
@[simp] theorem State.updQueue_cclk (s : State) (n : Nat) (f : Queue → Queue) : (s.updQueue n f).cclk = s.cclk := rfl
@[simp] theorem State.updQueue_devtime (s : State) (n : Nat) (f : Queue → Queue) : (s.updQueue n f).devtime = s.devtime := rfl
@[simp] theorem State.updQueue_ratio (s : State) (n : Nat) (f : Queue → Queue) : (s.updQueue n f).ratio = s.ratio := rfl
@[simp] theorem State.updQueue_age (s : State) (n : Nat) (f : Queue → Queue) : (s.updQueue n f).age = s.age := rfl
@[simp] theorem State.updQueue_cores (s : State) (n : Nat) (f : Queue → Queue) : (s.updQueue n f).cores = s.cores := rfl
@[simp] theorem State.updQueue_wings (s : State) (n : Nat) (f : Queue → Queue) : (s.updQueue n f).wings = s.wings := rfl
@[simp] theorem State.updQueue_dies (s : State) (n : Nat) (f : Queue → Queue) : (s.updQueue n f).dies = s.dies := rfl
@[simp] theorem State.updQueue_teams (s : State) (n : Nat) (f : Queue → Queue) : (s.updQueue n f).teams = s.teams := rfl
@[simp] theorem State.updQueue_clusters (s : State) (n : Nat) (f : Queue → Queue) : (s.updQueue n f).clusters = s.clusters := rfl
@[simp] theorem State.updQueue_saved (s : State) (n : Nat) (f : Queue → Queue) : (s.updQueue n f).saved = s.saved := rfl
@[simp] theorem State.updQueue_launches (s : State) (n : Nat) (f : Queue → Queue) : (s.updQueue n f).launches = s.launches := rfl
@[simp] theorem State.updQueue_spaces (s : State) (n : Nat) (f : Queue → Queue) : (s.updQueue n f).spaces = s.spaces := rfl
@[simp] theorem State.updQueue_nextTicket (s : State) (n : Nat) (f : Queue → Queue) : (s.updQueue n f).nextTicket = s.nextTicket := rfl
@[simp] theorem State.updQueue_leases (s : State) (n : Nat) (f : Queue → Queue) : (s.updQueue n f).leases = s.leases := rfl
@[simp] theorem State.updQueue_shoots (s : State) (n : Nat) (f : Queue → Queue) : (s.updQueue n f).shoots = s.shoots := rfl
@[simp] theorem State.updQueue_blocks (s : State) (n : Nat) (f : Queue → Queue) : (s.updQueue n f).blocks = s.blocks := rfl
@[simp] theorem State.updQueue_l2 (s : State) (n : Nat) (f : Queue → Queue) : (s.updQueue n f).l2 = s.l2 := rfl
@[simp] theorem State.updQueue_repl (s : State) (n : Nat) (f : Queue → Queue) : (s.updQueue n f).repl = s.repl := rfl
@[simp] theorem State.updQueue_homeRec (s : State) (n : Nat) (f : Queue → Queue) : (s.updQueue n f).homeRec = s.homeRec := rfl
@[simp] theorem State.updQueue_masks (s : State) (n : Nat) (f : Queue → Queue) : (s.updQueue n f).masks = s.masks := rfl
@[simp] theorem State.updQueue_maskDrop (s : State) (n : Nat) (f : Queue → Queue) : (s.updQueue n f).maskDrop = s.maskDrop := rfl
@[simp] theorem State.updQueue_pub (s : State) (n : Nat) (f : Queue → Queue) : (s.updQueue n f).pub = s.pub := rfl
@[simp] theorem State.updQueue_txns (s : State) (n : Nat) (f : Queue → Queue) : (s.updQueue n f).txns = s.txns := rfl
@[simp] theorem State.updQueue_homeWait (s : State) (n : Nat) (f : Queue → Queue) : (s.updQueue n f).homeWait = s.homeWait := rfl
@[simp] theorem State.updQueue_dram (s : State) (n : Nat) (f : Queue → Queue) : (s.updQueue n f).dram = s.dram := rfl
@[simp] theorem State.updQueue_dramPoison (s : State) (n : Nat) (f : Queue → Queue) : (s.updQueue n f).dramPoison = s.dramPoison := rfl
@[simp] theorem State.updQueue_unitKey (s : State) (n : Nat) (f : Queue → Queue) : (s.updQueue n f).unitKey = s.unitKey := rfl
@[simp] theorem State.updQueue_keys (s : State) (n : Nat) (f : Queue → Queue) : (s.updQueue n f).keys = s.keys := rfl
@[simp] theorem State.updQueue_hostMem (s : State) (n : Nat) (f : Queue → Queue) : (s.updQueue n f).hostMem = s.hostMem := rfl
@[simp] theorem State.updQueue_peerMem (s : State) (n : Nat) (f : Queue → Queue) : (s.updQueue n f).peerMem = s.peerMem := rfl
@[simp] theorem State.updQueue_hPoison (s : State) (n : Nat) (f : Queue → Queue) : (s.updQueue n f).hPoison = s.hPoison := rfl
@[simp] theorem State.updQueue_rows (s : State) (n : Nat) (f : Queue → Queue) : (s.updQueue n f).rows = s.rows := rfl
@[simp] theorem State.updQueue_accs (s : State) (n : Nat) (f : Queue → Queue) : (s.updQueue n f).accs = s.accs := rfl
@[simp] theorem State.updQueue_pends (s : State) (n : Nat) (f : Queue → Queue) : (s.updQueue n f).pends = s.pends := rfl
@[simp] theorem State.updQueue_texs (s : State) (n : Nat) (f : Queue → Queue) : (s.updQueue n f).texs = s.texs := rfl
@[simp] theorem State.updQueue_msgs (s : State) (n : Nat) (f : Queue → Queue) : (s.updQueue n f).msgs = s.msgs := rfl
@[simp] theorem State.updQueue_later (s : State) (n : Nat) (f : Queue → Queue) : (s.updQueue n f).later = s.later := rfl
@[simp] theorem State.updQueue_inputs (s : State) (n : Nat) (f : Queue → Queue) : (s.updQueue n f).inputs = s.inputs := rfl
@[simp] theorem State.updQueue_copies (s : State) (n : Nat) (f : Queue → Queue) : (s.updQueue n f).copies = s.copies := rfl
@[simp] theorem State.updQueue_intlv (s : State) (n : Nat) (f : Queue → Queue) : (s.updQueue n f).intlv = s.intlv := rfl
@[simp] theorem State.updQueue_intlvSt (s : State) (n : Nat) (f : Queue → Queue) : (s.updQueue n f).intlvSt = s.intlvSt := rfl
@[simp] theorem State.updQueue_retired (s : State) (n : Nat) (f : Queue → Queue) : (s.updQueue n f).retired = s.retired := rfl
@[simp] theorem State.updQueue_stes (s : State) (n : Nat) (f : Queue → Queue) : (s.updQueue n f).stes = s.stes := rfl
@[simp] theorem State.updQueue_reserve (s : State) (n : Nat) (f : Queue → Queue) : (s.updQueue n f).reserve = s.reserve := rfl
@[simp] theorem State.updQueue_sdie (s : State) (n : Nat) (f : Queue → Queue) : (s.updQueue n f).sdie = s.sdie := rfl
@[simp] theorem State.updQueue_sdiePoison (s : State) (n : Nat) (f : Queue → Queue) : (s.updQueue n f).sdiePoison = s.sdiePoison := rfl
@[simp] theorem State.updQueue_domains (s : State) (n : Nat) (f : Queue → Queue) : (s.updQueue n f).domains = s.domains := rfl
@[simp] theorem State.updQueue_bankLast (s : State) (n : Nat) (f : Queue → Queue) : (s.updQueue n f).bankLast = s.bankLast := rfl
@[simp] theorem State.updQueue_bankReqs (s : State) (n : Nat) (f : Queue → Queue) : (s.updQueue n f).bankReqs = s.bankReqs := rfl
@[simp] theorem State.updQueue_resps (s : State) (n : Nat) (f : Queue → Queue) : (s.updQueue n f).resps = s.resps := rfl
@[simp] theorem State.updQueue_ratioTo (s : State) (n : Nat) (f : Queue → Queue) : (s.updQueue n f).ratioTo = s.ratioTo := rfl
@[simp] theorem State.updQueue_dbgAns (s : State) (n : Nat) (f : Queue → Queue) : (s.updQueue n f).dbgAns = s.dbgAns := rfl
@[simp] theorem State.updQueue_draws (s : State) (n : Nat) (f : Queue → Queue) : (s.updQueue n f).draws = s.draws := rfl
@[simp] theorem State.updQueue_flights (s : State) (n : Nat) (f : Queue → Queue) : (s.updQueue n f).flights = s.flights := rfl
@[simp] theorem State.updQueue_slots (s : State) (n : Nat) (f : Queue → Queue) : (s.updQueue n f).slots = s.slots := rfl
@[simp] theorem State.updQueue_ring (s : State) (n : Nat) (f : Queue → Queue) : (s.updQueue n f).ring = s.ring := rfl
@[simp] theorem State.updQueue_msi (s : State) (n : Nat) (f : Queue → Queue) : (s.updQueue n f).msi = s.msi := rfl
@[simp] theorem State.updQueue_bias (s : State) (n : Nat) (f : Queue → Queue) : (s.updQueue n f).bias = s.bias := rfl
@[simp] theorem State.updQueue_hostReqs (s : State) (n : Nat) (f : Queue → Queue) : (s.updQueue n f).hostReqs = s.hostReqs := rfl
@[simp] theorem State.updQueue_hostAns (s : State) (n : Nat) (f : Queue → Queue) : (s.updQueue n f).hostAns = s.hostAns := rfl
@[simp] theorem State.updQueue_mgmt (s : State) (n : Nat) (f : Queue → Queue) : (s.updQueue n f).mgmt = s.mgmt := rfl
@[simp] theorem State.updQueue_boot (s : State) (n : Nat) (f : Queue → Queue) : (s.updQueue n f).boot = s.boot := rfl
@[simp] theorem State.updQueue_same (s : State) (n : Nat) (f : Queue → Queue) : (s.updQueue n f).queue n = f (s.queue n) := amapGet_insert_same _ _ _ _
theorem State.updQueue_other (s : State) (x y : Nat) (f : Queue → Queue) (h : x ≠ y) : (s.updQueue y f).queue x = s.queue x := amapGet_insert_other _ _ _ _ _ h

/-! ## updSte -/

@[simp] theorem State.updSte_free (s : State) (n : Nat) (f : Ste → Ste) : (s.updSte n f).free = s.free := rfl
@[simp] theorem State.updSte_turn (s : State) (n : Nat) (f : Ste → Ste) : (s.updSte n f).turn = s.turn := rfl
@[simp] theorem State.updSte_served (s : State) (n : Nat) (f : Ste → Ste) : (s.updSte n f).served = s.served := rfl
@[simp] theorem State.updSte_picks (s : State) (n : Nat) (f : Ste → Ste) : (s.updSte n f).picks = s.picks := rfl
@[simp] theorem State.updSte_laterNo (s : State) (n : Nat) (f : Ste → Ste) : (s.updSte n f).laterNo = s.laterNo := rfl
@[simp] theorem State.updSte_autoNo (s : State) (n : Nat) (f : Ste → Ste) : (s.updSte n f).autoNo = s.autoNo := rfl
@[simp] theorem State.updSte_uid (s : State) (n : Nat) (f : Ste → Ste) : (s.updSte n f).uid = s.uid := rfl
@[simp] theorem State.updSte_cclk (s : State) (n : Nat) (f : Ste → Ste) : (s.updSte n f).cclk = s.cclk := rfl
@[simp] theorem State.updSte_devtime (s : State) (n : Nat) (f : Ste → Ste) : (s.updSte n f).devtime = s.devtime := rfl
@[simp] theorem State.updSte_ratio (s : State) (n : Nat) (f : Ste → Ste) : (s.updSte n f).ratio = s.ratio := rfl
@[simp] theorem State.updSte_age (s : State) (n : Nat) (f : Ste → Ste) : (s.updSte n f).age = s.age := rfl
@[simp] theorem State.updSte_cores (s : State) (n : Nat) (f : Ste → Ste) : (s.updSte n f).cores = s.cores := rfl
@[simp] theorem State.updSte_wings (s : State) (n : Nat) (f : Ste → Ste) : (s.updSte n f).wings = s.wings := rfl
@[simp] theorem State.updSte_dies (s : State) (n : Nat) (f : Ste → Ste) : (s.updSte n f).dies = s.dies := rfl
@[simp] theorem State.updSte_teams (s : State) (n : Nat) (f : Ste → Ste) : (s.updSte n f).teams = s.teams := rfl
@[simp] theorem State.updSte_clusters (s : State) (n : Nat) (f : Ste → Ste) : (s.updSte n f).clusters = s.clusters := rfl
@[simp] theorem State.updSte_saved (s : State) (n : Nat) (f : Ste → Ste) : (s.updSte n f).saved = s.saved := rfl
@[simp] theorem State.updSte_launches (s : State) (n : Nat) (f : Ste → Ste) : (s.updSte n f).launches = s.launches := rfl
@[simp] theorem State.updSte_queues (s : State) (n : Nat) (f : Ste → Ste) : (s.updSte n f).queues = s.queues := rfl
@[simp] theorem State.updSte_spaces (s : State) (n : Nat) (f : Ste → Ste) : (s.updSte n f).spaces = s.spaces := rfl
@[simp] theorem State.updSte_nextTicket (s : State) (n : Nat) (f : Ste → Ste) : (s.updSte n f).nextTicket = s.nextTicket := rfl
@[simp] theorem State.updSte_leases (s : State) (n : Nat) (f : Ste → Ste) : (s.updSte n f).leases = s.leases := rfl
@[simp] theorem State.updSte_shoots (s : State) (n : Nat) (f : Ste → Ste) : (s.updSte n f).shoots = s.shoots := rfl
@[simp] theorem State.updSte_blocks (s : State) (n : Nat) (f : Ste → Ste) : (s.updSte n f).blocks = s.blocks := rfl
@[simp] theorem State.updSte_l2 (s : State) (n : Nat) (f : Ste → Ste) : (s.updSte n f).l2 = s.l2 := rfl
@[simp] theorem State.updSte_repl (s : State) (n : Nat) (f : Ste → Ste) : (s.updSte n f).repl = s.repl := rfl
@[simp] theorem State.updSte_homeRec (s : State) (n : Nat) (f : Ste → Ste) : (s.updSte n f).homeRec = s.homeRec := rfl
@[simp] theorem State.updSte_masks (s : State) (n : Nat) (f : Ste → Ste) : (s.updSte n f).masks = s.masks := rfl
@[simp] theorem State.updSte_maskDrop (s : State) (n : Nat) (f : Ste → Ste) : (s.updSte n f).maskDrop = s.maskDrop := rfl
@[simp] theorem State.updSte_pub (s : State) (n : Nat) (f : Ste → Ste) : (s.updSte n f).pub = s.pub := rfl
@[simp] theorem State.updSte_txns (s : State) (n : Nat) (f : Ste → Ste) : (s.updSte n f).txns = s.txns := rfl
@[simp] theorem State.updSte_homeWait (s : State) (n : Nat) (f : Ste → Ste) : (s.updSte n f).homeWait = s.homeWait := rfl
@[simp] theorem State.updSte_dram (s : State) (n : Nat) (f : Ste → Ste) : (s.updSte n f).dram = s.dram := rfl
@[simp] theorem State.updSte_dramPoison (s : State) (n : Nat) (f : Ste → Ste) : (s.updSte n f).dramPoison = s.dramPoison := rfl
@[simp] theorem State.updSte_unitKey (s : State) (n : Nat) (f : Ste → Ste) : (s.updSte n f).unitKey = s.unitKey := rfl
@[simp] theorem State.updSte_keys (s : State) (n : Nat) (f : Ste → Ste) : (s.updSte n f).keys = s.keys := rfl
@[simp] theorem State.updSte_hostMem (s : State) (n : Nat) (f : Ste → Ste) : (s.updSte n f).hostMem = s.hostMem := rfl
@[simp] theorem State.updSte_peerMem (s : State) (n : Nat) (f : Ste → Ste) : (s.updSte n f).peerMem = s.peerMem := rfl
@[simp] theorem State.updSte_hPoison (s : State) (n : Nat) (f : Ste → Ste) : (s.updSte n f).hPoison = s.hPoison := rfl
@[simp] theorem State.updSte_rows (s : State) (n : Nat) (f : Ste → Ste) : (s.updSte n f).rows = s.rows := rfl
@[simp] theorem State.updSte_accs (s : State) (n : Nat) (f : Ste → Ste) : (s.updSte n f).accs = s.accs := rfl
@[simp] theorem State.updSte_pends (s : State) (n : Nat) (f : Ste → Ste) : (s.updSte n f).pends = s.pends := rfl
@[simp] theorem State.updSte_texs (s : State) (n : Nat) (f : Ste → Ste) : (s.updSte n f).texs = s.texs := rfl
@[simp] theorem State.updSte_msgs (s : State) (n : Nat) (f : Ste → Ste) : (s.updSte n f).msgs = s.msgs := rfl
@[simp] theorem State.updSte_later (s : State) (n : Nat) (f : Ste → Ste) : (s.updSte n f).later = s.later := rfl
@[simp] theorem State.updSte_inputs (s : State) (n : Nat) (f : Ste → Ste) : (s.updSte n f).inputs = s.inputs := rfl
@[simp] theorem State.updSte_copies (s : State) (n : Nat) (f : Ste → Ste) : (s.updSte n f).copies = s.copies := rfl
@[simp] theorem State.updSte_intlv (s : State) (n : Nat) (f : Ste → Ste) : (s.updSte n f).intlv = s.intlv := rfl
@[simp] theorem State.updSte_intlvSt (s : State) (n : Nat) (f : Ste → Ste) : (s.updSte n f).intlvSt = s.intlvSt := rfl
@[simp] theorem State.updSte_retired (s : State) (n : Nat) (f : Ste → Ste) : (s.updSte n f).retired = s.retired := rfl
@[simp] theorem State.updSte_reserve (s : State) (n : Nat) (f : Ste → Ste) : (s.updSte n f).reserve = s.reserve := rfl
@[simp] theorem State.updSte_sdie (s : State) (n : Nat) (f : Ste → Ste) : (s.updSte n f).sdie = s.sdie := rfl
@[simp] theorem State.updSte_sdiePoison (s : State) (n : Nat) (f : Ste → Ste) : (s.updSte n f).sdiePoison = s.sdiePoison := rfl
@[simp] theorem State.updSte_domains (s : State) (n : Nat) (f : Ste → Ste) : (s.updSte n f).domains = s.domains := rfl
@[simp] theorem State.updSte_bankLast (s : State) (n : Nat) (f : Ste → Ste) : (s.updSte n f).bankLast = s.bankLast := rfl
@[simp] theorem State.updSte_bankReqs (s : State) (n : Nat) (f : Ste → Ste) : (s.updSte n f).bankReqs = s.bankReqs := rfl
@[simp] theorem State.updSte_resps (s : State) (n : Nat) (f : Ste → Ste) : (s.updSte n f).resps = s.resps := rfl
@[simp] theorem State.updSte_ratioTo (s : State) (n : Nat) (f : Ste → Ste) : (s.updSte n f).ratioTo = s.ratioTo := rfl
@[simp] theorem State.updSte_dbgAns (s : State) (n : Nat) (f : Ste → Ste) : (s.updSte n f).dbgAns = s.dbgAns := rfl
@[simp] theorem State.updSte_draws (s : State) (n : Nat) (f : Ste → Ste) : (s.updSte n f).draws = s.draws := rfl
@[simp] theorem State.updSte_flights (s : State) (n : Nat) (f : Ste → Ste) : (s.updSte n f).flights = s.flights := rfl
@[simp] theorem State.updSte_slots (s : State) (n : Nat) (f : Ste → Ste) : (s.updSte n f).slots = s.slots := rfl
@[simp] theorem State.updSte_ring (s : State) (n : Nat) (f : Ste → Ste) : (s.updSte n f).ring = s.ring := rfl
@[simp] theorem State.updSte_msi (s : State) (n : Nat) (f : Ste → Ste) : (s.updSte n f).msi = s.msi := rfl
@[simp] theorem State.updSte_bias (s : State) (n : Nat) (f : Ste → Ste) : (s.updSte n f).bias = s.bias := rfl
@[simp] theorem State.updSte_hostReqs (s : State) (n : Nat) (f : Ste → Ste) : (s.updSte n f).hostReqs = s.hostReqs := rfl
@[simp] theorem State.updSte_hostAns (s : State) (n : Nat) (f : Ste → Ste) : (s.updSte n f).hostAns = s.hostAns := rfl
@[simp] theorem State.updSte_mgmt (s : State) (n : Nat) (f : Ste → Ste) : (s.updSte n f).mgmt = s.mgmt := rfl
@[simp] theorem State.updSte_boot (s : State) (n : Nat) (f : Ste → Ste) : (s.updSte n f).boot = s.boot := rfl
@[simp] theorem State.updSte_same (s : State) (n : Nat) (f : Ste → Ste) : (s.updSte n f).ste n = f (s.ste n) := amapGet_insert_same _ _ _ _
theorem State.updSte_other (s : State) (x y : Nat) (f : Ste → Ste) (h : x ≠ y) : (s.updSte y f).ste x = s.ste x := amapGet_insert_other _ _ _ _ _ h

end Sys2Proof.Machine
end

