-- ==== Sys2Proof/Laws/Issue.lean ====
section
/-! SUPPORT. What the bookkeeping of an issue does: its operations are quiet, and an issue that nothing stops runs its body. -/

namespace Sys2Proof.Machine

/-! ## Reading back teams and groups -/

theorem State.team_updTeam (s : State) (t t' : Nat) (f : Team → Team) :
    (s.updTeam t f).team t' = if t' = t ∧ (amapFind? s.teams t).isSome then f (s.team t) else s.team t' := by
  simp only [State.team, State.updTeam, amapGet_eq_find, amapFind?_map]
  by_cases h : t' = t
  · subst h; cases amapFind? s.teams t' <;> simp
  · cases amapFind? s.teams t' <;> simp [h]

theorem State.present_updTeam (s : State) (t t' : Nat) (f : Team → Team) :
    (amapFind? (s.updTeam t f).teams t').isSome = (amapFind? s.teams t').isSome := by
  simp [State.updTeam, amapFind?_map]

theorem State.group_updGroup (s : State) (t g t' g' : Nat) (f : Group → Group) :
    (s.updGroup t g f).group t' g' =
      if t' = t ∧ g' = g ∧ (amapFind? s.teams t).isSome then f (s.group t g) else s.group t' g' := by
  simp only [State.group, State.updGroup, State.team_updTeam]
  by_cases h : t' = t ∧ (amapFind? s.teams t).isSome
  · rw [if_pos h]
    obtain ⟨rfl, h⟩ := h
    by_cases hg : g' = g
    · subst hg; simp [h, amapGet_insert_same]
    · simp [hg, amapGet_insert_other]
  · rw [if_neg h, if_neg fun h' => h ⟨h'.1, h'.2.2⟩]

/-- A group that is bound stands in a team that is there. -/
theorem State.present_of_run (s : State) (t g : Nat) (r : Run) (h : (s.group t g).run = some r) :
    (amapFind? s.teams t).isSome := by
  unfold State.group State.team at h
  rw [amapGet_eq_find (m := s.teams)] at h
  cases hf : amapFind? s.teams t with
  | some _ => rfl
  | none => rw [hf] at h; simp at h

theorem Group.thr_map (m : AMap Thread) (f : Nat → Thread → Thread) (l : Nat) (h : ∀ l th, (f l th).arch = th.arch) :
    (amapGet {} (amapMap f m) l).arch = (amapGet {} m l : Thread).arch := by
  simp only [amapGet_eq_find, amapFind?_map]
  cases amapFind? m l <;> simp [h]

theorem Group.thr_insert (m : AMap Thread) (k l : Nat) (th : Thread) (h : th.arch = (amapGet {} m k : Thread).arch) :
    (amapGet {} (amapInsert m k th) l).arch = (amapGet {} m l : Thread).arch := by
  by_cases hk : l = k
  · subst hk; rw [amapGet_insert_same, h]
  · rw [amapGet_insert_other _ _ _ _ _ hk]

/-- Taking a place in the ready order changes nothing else of a group. -/
@[simp] theorem Group.readySince_s (old new : Group) (now : Nat) : (old.readySince now new).s = new.s := by
  unfold Group.readySince; split_ifs <;> rfl
@[simp] theorem Group.readySince_threads (old new : Group) (now : Nat) : (old.readySince now new).threads = new.threads := by
  unfold Group.readySince; split_ifs <;> rfl
@[simp] theorem Group.readySince_run (old new : Group) (now : Nat) : (old.readySince now new).run = new.run := by
  unfold Group.readySince; split_ifs <;> rfl

/-! ## Quiet operations -/

theorem Core.kept_refl (k : Core) : k.kept k := ⟨rfl, List.Sublist.refl _⟩
theorem Core.kept_trans {a b c : Core} (h : a.kept b) (k : b.kept c) : a.kept c := ⟨k.1.trans h.1, k.2.trans h.2⟩
/-- A change of a core's guest book alone. -/
theorem Core.kept_book {k k' : Core} (h : k'.rest = k.rest) (l : k'.l1 = k.l1) : k.kept k' := ⟨h, by rw [l]⟩

theorem State.core_updCore (s : State) (c c' : Nat) (f : Core → Core) :
    (s.updCore c f).core c' = if c' = c then f (s.core c) else s.core c' := by
  simp only [State.core, State.updCore]
  split_ifs with h
  · subst h; exact amapGet_insert_same ..
  · exact amapGet_insert_other _ _ _ _ _ h

theorem Quiet.refl (s : State) : Quiet s s := ⟨rfl, fun _ => rfl, fun _ _ => rfl, fun _ _ _ => rfl, fun _ => Core.kept_refl _⟩

theorem Quiet.trans {a b c : State} (h : Quiet a b) (k : Quiet b c) : Quiet a c :=
  ⟨k.others.trans h.others, fun t => (k.bodies t).trans (h.bodies t), fun t g => (k.scal t g).trans (h.scal t g),
   fun t g l => (k.arch t g l).trans (h.arch t g l), fun c => Core.kept_trans (h.cores c) (k.cores c)⟩

theorem quiet_ite {s a b : State} {c : Prop} [Decidable c] (h : Quiet s a) (k : Quiet s b) : Quiet s (if c then a else b) := by
  split_ifs
  · exact h
  · exact k

theorem quiet_updGroup (s : State) (t g : Nat) (f : Group → Group)
    (h : ∀ gr, (f gr).s = gr.s ∧ ∀ l, (amapGet {} (f gr).threads l : Thread).arch = (amapGet {} gr.threads l : Thread).arch) :
    Quiet s (s.updGroup t g f) := by
  refine ⟨rfl, fun t' => ?_, fun t' g' => ?_, fun t' g' l => ?_, fun _ => Core.kept_refl _⟩
  · simp only [State.updGroup, State.team_updTeam]; split_ifs with hc
    · obtain ⟨rfl, -⟩ := hc; rfl
    · rfl
  · rw [State.group_updGroup]; split_ifs with hc
    · obtain ⟨rfl, rfl, -⟩ := hc; exact (h _).1
    · rfl
  · simp only [State.thread, State.group_updGroup]; split_ifs with hc
    · obtain ⟨rfl, rfl, -⟩ := hc; exact (h _).2 l
    · rfl

theorem quiet_updCore (s : State) (c : Nat) (f : Core → Core) (h : ∀ k : Core, k.kept (f k)) : Quiet s (s.updCore c f) :=
  ⟨rfl, fun _ => rfl, fun _ _ => rfl, fun _ _ _ => rfl, fun c' => by
    rw [State.core_updCore]
    split_ifs with hc
    · subst hc; exact h _
    · exact Core.kept_refl _⟩

theorem quiet_msiRaise (s : State) (v : Nat) : Quiet s (s.msiRaise v) :=
  ⟨rfl, fun _ => rfl, fun _ _ => rfl, fun _ _ _ => rfl, fun _ => Core.kept_refl _⟩

theorem quiet_bookPut (s : State) (c : Nat) (e : GbEntry) : Quiet s (s.bookPut c e) := by
  unfold State.bookPut
  dsimp only
  refine quiet_ite (Quiet.trans ?_ (quiet_msiRaise ..)) ?_
  all_goals exact quiet_updCore _ _ _ fun _ => Core.kept_book rfl rfl

theorem quiet_serveHeld (n : Nat) (s : State) (c : Nat) : Quiet s (State.serveHeld n s c) := by
  induction n generalizing s with
  | zero => exact Quiet.refl s
  | succ n ih =>
    unfold State.serveHeld
    dsimp only
    split_ifs
    · exact Quiet.refl s
    · split
      · exact Quiet.refl s
      · refine Quiet.trans (Quiet.trans ?_ (quiet_bookPut ..)) (ih _)
        exact quiet_updCore _ _ _ fun _ => Core.kept_book rfl rfl
      · refine Quiet.trans ?_ (quiet_updGroup _ _ _ _ fun gr => ⟨by simp, fun l => ?_⟩)
        · exact quiet_updCore _ _ _ fun _ => Core.kept_book rfl rfl
        · rw [Group.readySince_threads]
          exact Group.thr_insert _ _ _ _ rfl

theorem quiet_servedLanes (s : State) (t g : Nat) (ls : List Nat) : Quiet s (s.servedLanes t g ls) := by
  unfold State.servedLanes
  dsimp only
  split
  · split_ifs
    · refine Quiet.trans ?_ (quiet_serveHeld ..)
      exact quiet_updCore _ _ _ fun _ => Core.kept_book rfl rfl
    · exact Quiet.refl s
  · exact Quiet.refl s

theorem quiet_dropPrivate (s : State) (t g : Nat) : Quiet s (s.dropPrivate t g) := by
  unfold State.dropPrivate
  dsimp only
  split_ifs
  · exact Quiet.refl s
  · exact quiet_updCore _ _ _ fun k => ⟨rfl, List.filter_sublist⟩

theorem quiet_afterEnd (s : State) (t g : Nat) : Quiet s (s.afterEnd t g) := by
  unfold State.afterEnd
  split_ifs
  · exact quiet_dropPrivate ..
  · exact Quiet.refl _

theorem quiet_unhold (s : State) (c : Nat) (p : Held → Bool) : Quiet s (s.unhold c p) :=
  quiet_updCore _ _ _ fun _ => Core.kept_book rfl rfl

theorem quiet_killThread (s : State) (t g l : Nat) : Quiet s (s.killThread t g l) := by
  unfold State.killThread
  split_ifs
  · exact Quiet.refl s
  · refine Quiet.trans (Quiet.trans (Quiet.trans ?_ (quiet_afterEnd ..)) (quiet_unhold ..)) (quiet_serveHeld ..)
    refine quiet_updGroup _ _ _ _ fun gr => ⟨by simp [Group.leaveWaits], fun k => ?_⟩
    simp only [Group.readySince_threads, Group.leaveWaits]
    exact Group.thr_insert _ _ _ _ rfl

theorem quiet_forEach {α : Type} (l : List α) (s : State) (f : State → α → State) (h : ∀ s x, Quiet s (f s x)) :
    Quiet s (forEach l s f) := by
  unfold forEach
  induction l generalizing s with
  | nil => exact Quiet.refl s
  | cons x l ih => exact (h s x).trans (ih _)

theorem quiet_killGroup (s : State) (t g : Nat) : Quiet s (s.killGroup t g) := quiet_forEach _ _ _ fun _ _ => quiet_killThread ..

theorem quiet_endRun (s : State) (t g : Nat) : Quiet s (s.endRun t g) := by
  unfold State.endRun
  dsimp only
  have h := quiet_updGroup s t g (fun gr => { gr with run := none, readyAt := s.cclk }) fun _ => ⟨rfl, fun _ => rfl⟩
  split_ifs
  · exact h.trans (quiet_killGroup ..)
  · exact h

theorem quiet_updTeam_groups (s : State) (t : Nat) (f : Team → Team) (hb : ∀ tm, (f tm).body = tm.body)
    (h : ∀ tm g, (amapGet {} (f tm).groups g : Group).s = (amapGet {} tm.groups g : Group).s ∧
      ∀ l, (amapGet {} (amapGet {} (f tm).groups g : Group).threads l : Thread).arch =
        (amapGet {} (amapGet {} tm.groups g : Group).threads l : Thread).arch) : Quiet s (s.updTeam t f) := by
  refine ⟨rfl, fun t' => ?_, fun t' g' => ?_, fun t' g' l => ?_, fun _ => Core.kept_refl _⟩
  · rw [State.team_updTeam]; split_ifs with hc
    · obtain ⟨rfl, -⟩ := hc; exact hb _
    · rfl
  · simp only [State.group, State.team_updTeam]; split_ifs with hc
    · obtain ⟨rfl, -⟩ := hc; exact (h _ _).1
    · rfl
  · simp only [State.thread, State.group, State.team_updTeam]; split_ifs with hc
    · obtain ⟨rfl, -⟩ := hc; exact (h _ _).2 l
    · rfl

theorem quiet_teamStop (s : State) (t c g : Nat) (ths : List (Nat × Nat)) : Quiet s (s.teamStop t c g ths) := by
  unfold State.teamStop
  refine quiet_updTeam_groups _ _ _ (fun _ => rfl) fun tm g' => ?_
  simp only [amapGet_eq_find, amapFind?_map]
  cases amapFind? tm.groups g' with
  | none => exact ⟨rfl, fun _ => rfl⟩
  | some gr =>
    refine ⟨rfl, fun l => ?_⟩
    simp only [Option.map_some, Option.getD_some, amapFind?_map]
    cases amapFind? gr.threads l with
    | none => rfl
    | some th => simp only [Option.map_some, Option.getD_some]; split_ifs <;> rfl

theorem quiet_restop (s : State) (t c g : Nat) (ths : List (Nat × Nat)) :
    Quiet s ((s.updTeam t fun tm => { tm with stop := none }).teamStop t c g ths) := by
  have h := quiet_updTeam_groups s t (fun tm => { tm with stop := none }) (fun _ => rfl) fun _ _ => ⟨rfl, fun _ => rfl⟩
  exact h.trans (quiet_teamStop _ t c g ths)

/-- The bookkeeping at the end of an issue writes no register and no memory. -/
theorem quiet_endIssue (s : State) (t g : Nat) (ls : List Nat) (rb w : Bool) (y : Option Latch) :
    Quiet s (s.endIssue t g ls rb w y) := by
  unfold State.endIssue
  dsimp only
  split
  · exact quiet_servedLanes ..
  · rename_i r _
    have base (r' : Option Run) (c : Prop) [Decidable c] : Quiet s ((if c then
        (s.updGroup t g fun gr => { gr with
          run := r', threads := amapMap (fun l th => if ls.contains l then { th with noBreak := false } else th) gr.threads }).endRun t g
        else s.updGroup t g fun gr => { gr with
          run := r', threads := amapMap (fun l th => if ls.contains l then { th with noBreak := false } else th) gr.threads }).servedLanes t g ls) := by
      refine Quiet.trans (quiet_ite (Quiet.trans ?_ (quiet_endRun ..)) ?_) (quiet_servedLanes ..)
      all_goals
        refine quiet_updGroup _ _ _ _ fun gr => ⟨rfl, fun l => ?_⟩
        exact Group.thr_map gr.threads (fun l th => if ls.contains l then { th with noBreak := false } else th) l
          fun k th => by split_ifs <;> rfl
    split
    · exact base _ _
    · refine quiet_ite (Quiet.trans ?_ (quiet_restop ..)) ?_
      · exact base _ _
      · exact base _ _

/-! ## Cores' lines, and the run, at the end of an issue -/

/-- Every core keeps its L1. -/
structure Lines (s s' : State) : Prop where
  l1 : ∀ c, (s'.core c).l1 = (s.core c).l1

/-- States with the same cores. -/
theorem Lines.of_eq {s s' : State} (h : s'.cores = s.cores) : Lines s s' := ⟨fun c => by simp only [State.core, h]⟩
theorem Lines.trans {a b c : State} (h : Lines a b) (k : Lines b c) : Lines a c := ⟨fun n => (k.l1 n).trans (h.l1 n)⟩
theorem lines_updCore (s : State) (c : Nat) (f : Core → Core) (h : ∀ k : Core, (f k).l1 = k.l1) : Lines s (s.updCore c f) := ⟨fun c' => by
  rw [State.core_updCore]
  split_ifs with hc
  · subst hc; exact h _
  · rfl⟩
theorem lines_bookPut (s : State) (c : Nat) (e : GbEntry) : Lines s (s.bookPut c e) := by
  unfold State.bookPut
  dsimp only
  generalize hx : s.updCore c _ = x
  have h : Lines s x := by subst hx; exact lines_updCore _ _ _ fun _ => rfl
  split_ifs
  · exact h.trans (.of_eq rfl)
  · exact h
theorem lines_serveHeld (n : Nat) (s : State) (c : Nat) : Lines s (State.serveHeld n s c) := by
  induction n generalizing s with
  | zero => exact .of_eq rfl
  | succ n ih =>
    unfold State.serveHeld
    dsimp only
    split
    · exact .of_eq rfl
    · split
      · exact .of_eq rfl
      · refine Lines.trans (Lines.trans ?_ (lines_bookPut ..)) (ih _)
        exact lines_updCore _ _ _ fun _ => rfl
      · generalize hx : s.updCore c _ = x
        have h : Lines s x := by subst hx; exact lines_updCore _ _ _ fun _ => rfl
        exact h.trans (.of_eq rfl)
theorem lines_servedLanes (s : State) (t g : Nat) (ls : List Nat) : Lines s (s.servedLanes t g ls) := by
  unfold State.servedLanes
  dsimp only
  split
  · split
    · refine Lines.trans ?_ (lines_serveHeld ..)
      exact lines_updCore _ _ _ fun _ => rfl
    · exact .of_eq rfl
  · exact .of_eq rfl

theorem State.stopping_updGroup (s : State) (t g t' : Nat) (f : Group → Group) : (s.updGroup t g f).stopping t' = s.stopping t' := by
  have e : ((s.updGroup t g f).team t').launch = (s.team t').launch := by
    simp only [State.updGroup, State.team_updTeam]
    split_ifs with hc
    · obtain ⟨rfl, -⟩ := hc; rfl
    · rfl
  unfold State.stopping
  rw [e]; rfl

theorem lines_endRun (s : State) (t g : Nat) (h : s.stopping t = false) : Lines s (s.endRun t g) := by
  unfold State.endRun
  dsimp only
  rw [State.stopping_updGroup, h]
  exact .of_eq rfl

/-- Where its grid is not ending, the end of an issue drops no line. -/
theorem lines_endIssue (s : State) (t g : Nat) (ls : List Nat) (rb w : Bool) (y : Option Latch) (h : s.stopping t = false) :
    Lines s (s.endIssue t g ls rb w y) := by
  unfold State.endIssue
  dsimp only
  split
  · exact lines_servedLanes ..
  · have base (f : Group → Group) (c : Prop) [Decidable c] :
        Lines s ((if c then (s.updGroup t g f).endRun t g else s.updGroup t g f).servedLanes t g ls) := by
      refine Lines.trans ?_ (lines_servedLanes ..)
      split
      · exact Lines.trans (b := s.updGroup t g f) (.of_eq rfl) (lines_endRun _ _ _ (by rw [State.stopping_updGroup]; exact h))
      · exact .of_eq rfl
    split
    · exact base _ _
    · split
      · exact (base _ _).trans (.of_eq rfl)
      · exact base _ _

/-- The run of a group, where it has one, is one that `P` allows. -/
def RunsIn (s : State) (t g : Nat) (P : Run → Prop) : Prop := ∀ r, (s.group t g).run = some r → P r

theorem runs_updGroup (s : State) (t g t' g' : Nat) (f : Group → Group) (P : Run → Prop) (h : RunsIn s t g P)
    (hf : ∀ gr r, (f gr).run = some r → gr.run = some r) : RunsIn (s.updGroup t' g' f) t g P := by
  intro r hr
  rw [State.group_updGroup] at hr
  split_ifs at hr with hc
  · obtain ⟨rfl, rfl, -⟩ := hc; exact h r (hf _ _ hr)
  · exact h r hr
theorem runs_serveHeld (n : Nat) (s : State) (c t g : Nat) (P : Run → Prop) (h : RunsIn s t g P) : RunsIn (State.serveHeld n s c) t g P := by
  induction n generalizing s with
  | zero => exact h
  | succ n ih =>
    unfold State.serveHeld
    dsimp only
    split_ifs
    · exact h
    · split
      · exact h
      · refine ih _ fun r hr => h r ?_
        unfold State.bookPut at hr
        dsimp only at hr
        split_ifs at hr <;> exact hr
      · exact runs_updGroup _ _ _ _ _ _ _ h fun gr r hr => by rwa [Group.readySince_run] at hr
theorem runs_servedLanes (s : State) (t g t' g' : Nat) (ls : List Nat) (P : Run → Prop) (h : RunsIn s t g P) :
    RunsIn (s.servedLanes t' g' ls) t g P := by
  unfold State.servedLanes
  dsimp only
  split
  · split_ifs
    · exact runs_serveHeld _ _ _ _ _ _ h
    · exact h
  · exact h
theorem runs_killThread (s : State) (t g k : Nat) : RunsIn s t g (fun _ => False) → RunsIn (s.killThread t g k) t g fun _ => False := by
  intro h
  unfold State.killThread
  split_ifs
  · exact h
  · refine runs_serveHeld _ _ _ _ _ _ fun r hr => ?_
    have h1 : RunsIn (s.updGroup t g fun gr0 =>
        gr0.readySince s.cclk { ({ gr0 with threads := amapInsert gr0.threads k ((gr0.thr k).finish true) } : Group).leaveWaits k with
          run := match (({ gr0 with threads := amapInsert gr0.threads k ((gr0.thr k).finish true) } : Group).leaveWaits k).run with
            | none => none
            | some r => if (r.lanes.filter (· ≠ k)).isEmpty then none else some { r with lanes := r.lanes.filter (· ≠ k) } }) t g fun _ => False := by
      intro r hr
      rw [State.group_updGroup] at hr
      split_ifs at hr with hc
      · rw [Group.readySince_run] at hr
        cases hx : (s.group t g).run with
        | some x => exact h x hx
        | none =>
          have e : (({ s.group t g with threads := amapInsert (s.group t g).threads k (((s.group t g).thr k).finish true) } : Group).leaveWaits k).run =
            (s.group t g).run := rfl
          simp only [hx] at hr
          cases hr
      · exact h r hr
    apply h1 r
    unfold State.unhold at hr
    have e : ∀ (x : State) (c : Nat) (f : Core → Core), (x.updCore c f).group t g = x.group t g := fun _ _ _ => rfl
    rw [e] at hr
    unfold State.afterEnd State.dropPrivate at hr
    dsimp only at hr
    split_ifs at hr <;> exact hr

theorem runs_forEach {α : Type} (l : List α) (s : State) (t g : Nat) (P : Run → Prop) (f : State → α → State)
    (h : ∀ s x, RunsIn s t g P → RunsIn (f s x) t g P) (hs : RunsIn s t g P) : RunsIn (forEach l s f) t g P := by
  unfold forEach
  induction l generalizing s with
  | nil => exact hs
  | cons x l ih => exact ih _ (h s x hs)

theorem runs_endRun (s : State) (t g : Nat) : RunsIn (s.endRun t g) t g fun _ => False := by
  unfold State.endRun
  dsimp only
  have h : RunsIn (s.updGroup t g fun gr => { gr with run := none, readyAt := s.cclk }) t g fun _ => False := by
    intro r hr
    rw [State.group_updGroup] at hr
    by_cases hc : (amapFind? s.teams t).isSome
    · rw [if_pos ⟨rfl, rfl, hc⟩] at hr; exact absurd hr (by simp)
    · rw [if_neg fun h => hc h.2.2] at hr
      exact hc (State.present_of_run s t g r hr)
  split_ifs
  · exact runs_forEach _ _ _ _ _ _ (fun s x => runs_killThread s t g x) h
  · exact h

/-- A team that is stopped has no run. -/
theorem runs_teamStop (s : State) (t c k g : Nat) (ths : List (Nat × Nat)) : RunsIn (s.teamStop t c k ths) t g fun _ => False := by
  intro r hr
  unfold State.teamStop at hr
  simp only [State.group, State.team_updTeam, true_and] at hr
  split_ifs at hr with hc
  · simp only [amapGet_eq_find, amapFind?_map] at hr
    cases hf : amapFind? ((amapFind? s.teams t).getD { }).groups g <;> simp [State.team, amapGet_eq_find, hf] at hr
  · unfold State.team at hr
    rw [amapGet_eq_find (m := s.teams)] at hr
    cases hf : amapFind? s.teams t with
    | some _ => simp [hf] at hc
    | none => rw [hf] at hr; simp at hr

/-- What the end of an issue leaves of a run: the same with one instruction more, no lane more, and the latch written. -/
theorem runs_endIssue (s : State) (t g : Nat) (ls : List Nat) (rb w : Bool) (y : Option Latch) (r0 : Run)
    (h0 : (s.group t g).run = some r0) : RunsIn (s.endIssue t g ls rb w y) t g fun r =>
      r.ctx = r0.ctx ∧ r.count = r0.count + 1 ∧ (∀ l ∈ r.lanes, l ∈ r0.lanes) ∧ r.y = match y with
        | none => r0.y
        | some v => (v :: r0.y).take 4 := by
  unfold State.endIssue
  dsimp only
  rw [h0]
  dsimp only
  have base (P : Run → Prop) (c : Prop) [Decidable c] (r1 : Run) (f : Group → AMap Thread) (hr : P r1) :
      RunsIn ((if c then (s.updGroup t g fun gr => { gr with run := some r1, threads := f gr }).endRun t g
        else s.updGroup t g fun gr => { gr with run := some r1, threads := f gr }).servedLanes t g ls) t g P := by
    refine runs_servedLanes _ _ _ _ _ _ _ ?_
    split_ifs
    · exact fun r hr => (runs_endRun _ _ _ r hr).elim
    · intro r hr'
      rw [State.group_updGroup, if_pos ⟨rfl, rfl, State.present_of_run s t g r0 h0⟩] at hr'
      cases hr'; exact hr
  rcases y with _ | v <;> dsimp only
  all_goals
    split
    · refine base _ _ _ _ ⟨rfl, rfl, fun l hl => ?_, rfl⟩
      dsimp only at hl
      split at hl
      · cases hl
      · exact List.mem_of_mem_filter (List.mem_of_mem_filter hl)
    · split
      · exact fun r hr => (runs_teamStop _ _ _ _ _ _ r hr).elim
      · refine base _ _ _ _ ⟨rfl, rfl, fun l hl => ?_, rfl⟩
        dsimp only at hl
        split at hl
        · cases hl
        · exact List.mem_of_mem_filter (List.mem_of_mem_filter hl)

/-! ## An issue that nothing stops -/

/-- No access in flight, no access in flight that may fail. -/
theorem State.accBars_of_accHeld (s : State) (t g : Nat) (ls : List Nat) (h : s.accHeld t g ls = false) : s.accBars t g ls = false := by
  unfold State.accHeld at h
  unfold State.accBars
  rw [List.any_eq_false] at h ⊢
  intro kv hkv
  have := h kv hkv
  revert this
  cases kv.2.who <;> simp_all

theorem issue_eq {s : State} {o : Ops} {u : Uses} {i : Iss} (h : Issues s o u i) (priv : Bool) (body : Iss → State → State)
    (hp : priv = true → (s.team i.t).kind = .porter) : issue o u priv body s = .next (body i s.reading) := by
  have hi : ({ t := i.t, g := i.g, run := i.run, o := o, parts := i.run.lanes.filter fun l => (s.thread i.t i.g l).guard o } : Iss) = i := by
    rw [← h.parts, ← h.ops]
  unfold issue
  rw [h.turn]
  have hb : (if priv = true then s.accBars i.t i.g i.run.lanes else s.accHeld i.t i.g i.run.lanes) = false := by
    cases priv
    · exact h.flight
    · exact State.accBars_of_accHeld _ _ _ _ h.flight
  simp only [h.run, hb, h.range, Bool.false_eq_true, if_false, Bool.not_true]
  have hk : (priv && decide ((s.team i.t).kind ≠ .porter)) = false := by
    cases priv with
    | false => rfl
    | true => simp [hp]
  simp only [hk, Bool.false_eq_true, if_false]
  rw [← h.parts, h.pending]
  have hl : (u.latches.all i.run.hasLatch || i.parts.isEmpty) = true := by
    rcases h.latches with h | h <;> simp [h]
  have hs : (u.sform && !u.latches.all i.run.scalarLatch && !i.parts.isEmpty) = false := by
    rcases h.scalars with h | h | h <;> simp [h]
  have hld : (!(s.loadHits i.t i.g u).isEmpty && !i.parts.isEmpty) = false := by
    rcases h.loads with h | h <;> simp [h]
  simp only [hl, hs, hld, if_true, Bool.false_eq_true, if_false]
  rw [h.parts, hi, ← h.turn]; rfl

end Sys2Proof.Machine
end

