-- ==== Sys2Proof/Laws/Memory.lean ====
section
/-! SUPPORT. Memory keeps its canonical form: each operation that writes bytes, or forgets some, answers a canonical memory
from a canonical one, and the memories right after reset are canonical. -/

namespace Sys2Proof.Machine

theorem memSet_wf (m : Mem) (a : Nat) (b : Byte) (h : Memory.wf m = true) : Memory.wf (memSet m a b) = true := amapWf_set _ m a b h

theorem memPut_wf (bs : List Byte) (m : Mem) (a : Nat) (h : Memory.wf m = true) : Memory.wf (memPut m a bs) = true := by
  induction bs generalizing m a with
  | nil => exact h
  | cons b bs ih => exact ih _ _ (memSet_wf m a b h)

theorem memWrite_wf (m : Mem) (a n x : Nat) (h : Memory.wf m = true) : Memory.wf (memWrite m a n x) = true := memPut_wf _ m a h

theorem memFilter_sorted (p : Nat × Byte → Bool) (m : Mem) (lo : Option Nat) (h : amapSorted lo m = true) :
    amapSorted lo (m.filter p) = true := by
  induction m generalizing lo with
  | nil => cases lo <;> rfl
  | cons kv m ih =>
    obtain ⟨k, v⟩ := kv
    rw [amapSorted_cons] at h
    rw [List.filter_cons]
    split
    · rw [amapSorted_cons]
      exact ⟨h.1, ih _ h.2⟩
    · cases lo with
      | none => exact ih _ (amapSorted_none m k h.2)
      | some l => exact ih _ (amapSorted_weaken l k m (by simpa [keysAbove] using h.1) h.2)

theorem memFilter_wf (p : Nat × Byte → Bool) (m : Mem) (h : Memory.wf m = true) : Memory.wf (m.filter p) = true := by
  simp only [Memory.wf, amapWf, Bool.and_eq_true] at h ⊢
  refine ⟨memFilter_sorted p m none h.1, ?_⟩
  rw [List.all_eq_true] at h ⊢
  intro x hx
  exact h.2 x (List.mem_of_mem_filter hx)

theorem foldl_wf {α : Type} (l : List α) (f : Mem → α → Mem) (hf : ∀ m x, Memory.wf m = true → Memory.wf (f m x) = true) (m : Mem)
    (h : Memory.wf m = true) : Memory.wf (l.foldl f m) = true := by
  induction l generalizing m with
  | nil => exact h
  | cons x l ih => exact ih _ (hf m x h)

/-- Device memory. -/
theorem dramWriteUnit_wf (s : State) (u slot : Nat) (bs : List Byte) (poison : Bool) (h : Memory.wf s.dram = true) :
    Memory.wf (s.dramWriteUnit u slot bs poison).dram = true := memPut_wf _ _ _ h

/-- A bank of the surface die. -/
theorem bankWrite_wf (s : State) (e : Ste) (o bank byte n x : Nat) (h : Memory.wf s.sdie = true) :
    Memory.wf (s.bankWrite e o bank byte n x).sdie = true := by
  refine foldl_wf _ _ (fun m k hm => ?_) _ h
  split
  · exact hm
  · exact memSet_wf _ _ _ hm

/-- A scratchpad. -/
theorem scratch_wf (tm : Team) (o n x : Nat) (h : Memory.wf tm.scratch = true) :
    Memory.wf ({ tm with scratch := memWrite tm.scratch o n x } : Team).scratch = true := memWrite_wf _ _ _ _ h

theorem reset_memory : Memory.wf State.reset.dram = true ∧ Memory.wf State.reset.hostMem = true ∧
    Memory.wf State.reset.peerMem = true ∧ Memory.wf State.reset.sdie = true := ⟨rfl, rfl, rfl, rfl⟩

theorem memGet_unlisted (a : Nat) : memGet [] a = Mem.unwritten := rfl

end Sys2Proof.Machine
end

