-- ==== Sys2Proof/Laws/Forms.lean ====
section
/-! SUPPORT. The forms and bounds of `State.InForm` that the shared operations keep: what leaves the memories, the management
controller, the ratio, the ring and the cores' books alone keeps them all, and so does each operation that changes one of these. -/

namespace Sys2Proof.Machine

/-- What `State.InForm` speaks of is unchanged but for the books, whose bound is kept. -/
theorem State.InForm.of {s s' : State} (h : s.InForm) (hd : s'.dram = s.dram) (hh : s'.hostMem = s.hostMem) (hp : s'.peerMem = s.peerMem)
    (hs : s'.sdie = s.sdie) (hm : s'.mgmt = s.mgmt) (hr : s'.ratio = s.ratio) (hg : s'.ring = s.ring)
    (hb : ∀ kv ∈ s'.cores, kv.2.book.length ≤ 64) : s'.InForm :=
  ⟨hd ▸ h.dram, hh ▸ h.host, hp ▸ h.peer, hs ▸ h.sdie, hb, hm ▸ h.log, hm ▸ h.cclk, hm ▸ h.cap, hr ▸ h.ratio, hg ▸ h.ring⟩

theorem mem_of_amapFind? {α : Type} (m : AMap α) (k : Nat) (v : α) (h : amapFind? m k = some v) : (k, v) ∈ m := by
  induction m with
  | nil => simp at h
  | cons x m ih =>
    obtain ⟨a, b⟩ := x
    simp only [amapFind?] at h
    split_ifs at h with e
    · obtain rfl := Option.some.inj h; exact e ▸ List.mem_cons_self ..
    · exact List.mem_cons_of_mem _ (ih h)

theorem State.InForm.core {s : State} (h : s.InForm) (c : Nat) : (s.core c).book.length ≤ 64 := by
  rw [State.core, amapGet_eq_find]
  cases hf : amapFind? s.cores c with
  | none => exact Nat.zero_le _
  | some k => exact h.book (c, k) (mem_of_amapFind? _ _ _ hf)

theorem State.InForm.updCore {s : State} (h : s.InForm) (c : Nat) (f : Core → Core) (hf : (f (s.core c)).book.length ≤ 64) :
    (s.updCore c f).InForm :=
  h.of rfl rfl rfl rfl rfl rfl rfl fun kv hk => by
    rcases mem_amapInsert _ _ _ _ hk with rfl | hk
    · exact hf
    · exact h.book kv hk

/-- A change of a core that leaves its book, or takes records out of it. -/
theorem State.InForm.updCore_le {s : State} (h : s.InForm) (c : Nat) (f : Core → Core)
    (hf : ∀ k : Core, (f k).book.length ≤ k.book.length) : (s.updCore c f).InForm := h.updCore c f ((hf _).trans (h.core c))

theorem State.InForm.updTeam {s : State} (h : s.InForm) (t : Nat) (f : Team → Team) : (s.updTeam t f).InForm := h.of rfl rfl rfl rfl rfl rfl rfl h.book
theorem State.InForm.updGroup {s : State} (h : s.InForm) (t g : Nat) (f : Group → Group) : (s.updGroup t g f).InForm := h.updTeam t _
theorem State.InForm.updThread {s : State} (h : s.InForm) (t g l : Nat) (f : Thread → Thread) : (s.updThread t g l f).InForm := h.updGroup t g _
theorem State.InForm.updWing {s : State} (h : s.InForm) (w : Nat) (f : Wing → Wing) : (s.updWing w f).InForm := h.of rfl rfl rfl rfl rfl rfl rfl h.book
theorem State.InForm.updDie {s : State} (h : s.InForm) (d : Nat) (f : Die → Die) : (s.updDie d f).InForm := h.of rfl rfl rfl rfl rfl rfl rfl h.book
theorem State.InForm.updLaunch {s : State} (h : s.InForm) (l : Nat) (f : Launch → Launch) : (s.updLaunch l f).InForm := h.of rfl rfl rfl rfl rfl rfl rfl h.book
theorem State.InForm.send {s : State} (h : s.InForm) (i : Instr) : (s.send i).InForm := h.of rfl rfl rfl rfl rfl rfl rfl h.book
theorem State.InForm.accNew {s : State} (h : s.InForm) (a : Access) : (s.accNew a).2.InForm := h.of rfl rfl rfl rfl rfl rfl rfl h.book
theorem State.InForm.msiRaise {s : State} (h : s.InForm) (v : Nat) : (s.msiRaise v).InForm := h.of rfl rfl rfl rfl rfl rfl rfl h.book

theorem State.InForm.forEach {α : Type} (l : List α) {s : State} (h : s.InForm) (f : State → α → State)
    (hf : ∀ s x, s.InForm → (f s x).InForm) : (Sys2Proof.Machine.forEach l s f).InForm := by
  induction l generalizing s with
  | nil => exact h
  | cons x l ih => exact ih (hf s x h)

/-- The event log. -/
theorem State.InForm.logEvent {s : State} (h : s.InForm) (code src : Nat) (data : List Nat) : (s.logEvent code src data).InForm := by
  have hl : (s.logEvent code src data).mgmt.log.length ≤ 4096 := by
    have := h.log
    simp only [State.logEvent]
    split
    · simp; omega
    · simp at *; omega
  exact ⟨h.dram, h.host, h.peer, h.sdie, h.book, hl, by simpa [State.logEvent, apply_ite] using h.cclk,
    by simpa [State.logEvent, apply_ite] using h.cap, h.ratio, h.ring⟩

/-! ## The guest book -/

theorem State.InForm.bookPut {s : State} (h : s.InForm) (c : Nat) (e : GbEntry) (room : (s.core c).book.length < 64) : (s.bookPut c e).InForm := by
  have h' := h.updCore c (fun k => { k with
    book := k.book ++ [e.withSeq (nextFreeSeq ((s.core c).book.map (·.seq)) 65 (s.core c).nextSeq)]
    nextSeq := if nextFreeSeq ((s.core c).book.map (·.seq)) 65 (s.core c).nextSeq = 2 ^ 24 - 1 then 1
      else nextFreeSeq ((s.core c).book.map (·.seq)) 65 (s.core c).nextSeq + 1 }) (by simp; omega)
  simp only [State.bookPut]
  split
  · exact h'.msiRaise _
  · exact h'

theorem State.room_of_bookFull {s : State} {c : Nat} (h : s.bookFull c = false) : (s.core c).book.length < 64 := by
  simp only [State.bookFull, Bool.or_eq_false_iff, decide_eq_false_iff_not] at h
  omega

theorem State.InForm.bookHold {s : State} (h : s.InForm) (c : Nat) (x : Held) : (s.bookHold c x).InForm := by
  have h' := h.updCore_le c (fun k => { k with held := k.held ++ [x], full := true, called := k.called || (!(s.core c).full && s.porterAsleep c &&
    (s.core c).book.any fun e => !e.host && (s.launch e.launch).lr.hdl) }) fun _ => Nat.le_refl _
  simp only [State.bookHold]
  split
  · exact h'
  · exact h'.msiRaise _

theorem State.InForm.serveHeld (n : Nat) {s : State} (h : s.InForm) (c : Nat) : (State.serveHeld n s c).InForm := by
  induction n generalizing s with
  | zero => exact h
  | succ n ih =>
    simp only [State.serveHeld]
    split
    · exact h
    · rename_i full
      split
      · exact h
      · rename_i e rest _
        refine ih ((h.updCore_le c (fun k => { k with held := rest }) fun _ => Nat.le_refl _).bookPut c e ?_)
        simp only [Bool.or_eq_true, decide_eq_true_eq, not_or, Nat.not_le] at full
        simpa [State.core_updCore] using full.1
      · rename_i t g l rest _
        exact (h.updCore_le c (fun k => { k with held := rest, serving := some (t, g, l) }) fun _ => Nat.le_refl _).updGroup _ _ _

theorem State.InForm.bookFree {s : State} (h : s.InForm) (c seq : Nat) : (s.bookFree c seq).InForm :=
  (h.updCore_le c (fun k => { k with book := k.book.filter (·.seq ≠ seq) }) fun _ => List.length_filter_le _ _).serveHeld 65 c

/-! ## The memories -/

theorem State.InForm.dramWriteUnit {s : State} (h : s.InForm) (u slot : Nat) (bs : List Byte) (poison : Bool) :
    (s.dramWriteUnit u slot bs poison).InForm := by
  refine ⟨dramWriteUnit_wf s u slot bs poison h.dram, h.host, h.peer, h.sdie, h.book, h.log, h.cclk, h.cap, h.ratio, h.ring⟩
theorem State.InForm.bankWrite {s : State} (h : s.InForm) (e : Ste) (o bank byte n x : Nat) : (s.bankWrite e o bank byte n x).InForm :=
  ⟨h.dram, h.host, h.peer, bankWrite_wf s e o bank byte n x h.sdie, h.book, h.log, h.cclk, h.cap, h.ratio, h.ring⟩
theorem State.InForm.hPut {s : State} (h : s.InForm) (pa n x : Nat) : (s.hPut pa n x).InForm := by
  simp only [State.hPut]
  split
  · exact ⟨h.dram, memWrite_wf _ _ _ _ h.host, h.peer, h.sdie, h.book, h.log, h.cclk, h.cap, h.ratio, h.ring⟩
  · exact ⟨h.dram, h.host, memWrite_wf _ _ _ _ h.peer, h.sdie, h.book, h.log, h.cclk, h.cap, h.ratio, h.ring⟩

end Sys2Proof.Machine
end

