-- ==== Sys2Proof/Laws/Lanes.lean ====
section
/-! SUPPORT. What an issue of lane results leaves: `vecIssue` and `scalIssue` said once. -/

namespace Sys2Proof.Machine

/-! ## Writes to one thread -/

theorem lastWrite_foldl {α : Type} (ws : List (Nat × α)) (n : Nat) (a : Option α) :
    ws.foldl (fun a x => if x.1 = n then some x.2 else a) a = (lastWrite ws n).or a := by
  unfold lastWrite
  induction ws generalizing a with
  | nil => rfl
  | cons x ws ih =>
    simp only [List.foldl_cons]
    rw [ih, ih (if x.1 = n then some x.2 else none)]
    by_cases h : x.1 = n
    · cases List.foldl (fun a x => if x.1 = n then some x.2 else a) none ws <;> simp [h]
    · cases List.foldl (fun a x => if x.1 = n then some x.2 else a) none ws <;> simp [h]

theorem lastWrite_cons {α : Type} (x : Nat × α) (ws : List (Nat × α)) (n : Nat) :
    lastWrite (x :: ws) n = (lastWrite ws n).or (if x.1 = n then some x.2 else none) := by
  conv => lhs; unfold lastWrite
  rw [List.foldl_cons, lastWrite_foldl]

@[simp] theorem lastWrite_nil {α : Type} (n : Nat) : lastWrite ([] : List (Nat × α)) n = none := rfl

theorem readV_writeV (th : Thread) (k n : Nat) (x : Word) : (th.writeV k x).readV n = if k = n then x else th.readV n := by
  unfold Thread.writeV Thread.readV
  by_cases h : k = n
  · subst h; simp [amapGet_insert_same]
  · rw [amapGet_insert_other _ _ _ _ _ (Ne.symm h), if_neg h]

theorem readV_writes (ws : List (Nat × Word)) (th : Thread) (n : Nat) :
    (ws.foldl (fun th x => th.writeV x.1 x.2) th).readV n = (lastWrite ws n).getD (th.readV n) := by
  induction ws generalizing th with
  | nil => rfl
  | cons x ws ih =>
    rw [List.foldl_cons, ih, readV_writeV, lastWrite_cons]
    cases lastWrite ws n <;> by_cases h : x.1 = n <;> simp [h]

theorem readP_writeP (th : Thread) (k n : Nat) (b : Bool) :
    (th.writeP k b).readP n = if k = n ∧ n < 7 then b else th.readP n := by
  unfold Thread.writeP Thread.readP
  by_cases hk : k < 7
  · rw [if_pos hk]
    have hb : (BitVec.ofNat 8 (2 ^ k)).getLsbD n = (decide (n < 8) && decide (k = n)) := by
      rw [BitVec.getLsbD_ofNat, Nat.testBit_two_pow]
    have h7 : ¬ (k = n ∧ n = 7) := by omega
    cases b <;>
      simp only [Bool.false_eq_true, if_false, if_true, BitVec.getLsbD_or, BitVec.getLsbD_and, BitVec.getLsbD_not, hb] <;>
      by_cases h : k = n <;> by_cases h8 : n < 8 <;> (simp_all [BitVec.getLsbD_of_ge, Nat.le_of_not_lt]; try omega)
  · rw [if_neg hk, if_neg (by omega)]

theorem readP_writes (ws : List (Nat × Bool)) (th : Thread) (n : Nat) :
    (ws.foldl (fun th x => th.writeP x.1 x.2) th).readP n =
      if n < 7 then (lastWrite ws n).getD (th.readP n) else th.readP n := by
  induction ws generalizing th with
  | nil => simp
  | cons x ws ih =>
    rw [List.foldl_cons, ih, readP_writeP, lastWrite_cons]
    by_cases hn : n < 7
    · cases lastWrite ws n <;> by_cases h : x.1 = n <;> simp [h, hn]
    · simp [hn]

/-! ## Writes to the lanes of an issue -/

/-- The threads of a group once each lane's results are in place. -/
theorem apply_lanes (nw : Bool) (f : Nat → LaneRes) (ps : List Nat) (ht : ∀ l ∈ ps, (f l).trap = none) (ths : AMap Thread)
    (l : Nat) :
    let th : Thread := amapGet {} ths l
    let th' : Thread := amapGet {} ((ps.map fun l => (l, f l)).foldl (fun ths x => if x.2.trap.isSome then ths else
      amapInsert ths x.1 ((amapGet {} ths x.1 : Thread).apply nw x.2)) ths) l
    (∀ n, th'.readV n = if l ∈ ps ∧ nw = false then (lastWrite (f l).regs n).getD (th.readV n) else th.readV n) ∧
    (∀ n, th'.readP n = if l ∈ ps ∧ n < 7 then (lastWrite (f l).preds n).getD (th.readP n) else th.readP n) ∧
    th'.fpm = (if l ∈ ps then (f l).fpm.getD th.fpm else th.fpm) ∧
    th'.hw = th.hw ∧ th'.spilled = th.spilled ∧ th'.trapCause = th.trapCause ∧ th'.pc = th.pc ∧ th'.stat = th.stat := by
  induction ps generalizing ths with
  | nil => simp
  | cons k ps ih =>
    have hk : (f k).trap = none := ht k (by simp)
    have ih := ih (fun l h => ht l (by simp [h])) (amapInsert ths k ((amapGet {} ths k : Thread).apply nw (f k)))
    simp only [List.map_cons, List.foldl_cons, hk, Option.isSome_none, Bool.false_eq_true, if_false]
    obtain ⟨hv, hp, hf, h1, h2, h3, h4, h5⟩ := ih
    have sameV (ws : List (Nat × Word)) (th : Thread) :
        (ws.foldl (fun th x => th.writeV x.1 x.2) th).hw = th.hw ∧ (ws.foldl (fun th x => th.writeV x.1 x.2) th).spilled = th.spilled ∧
        (ws.foldl (fun th x => th.writeV x.1 x.2) th).trapCause = th.trapCause ∧ (ws.foldl (fun th x => th.writeV x.1 x.2) th).pc = th.pc ∧
        (ws.foldl (fun th x => th.writeV x.1 x.2) th).stat = th.stat ∧ (ws.foldl (fun th x => th.writeV x.1 x.2) th).p = th.p ∧
        (ws.foldl (fun th x => th.writeV x.1 x.2) th).fpm = th.fpm := by
      induction ws generalizing th with
      | nil => simp
      | cons x ws ih => rw [List.foldl_cons]; exact ih _
    have sameP (ws : List (Nat × Bool)) (th : Thread) :
        (ws.foldl (fun th x => th.writeP x.1 x.2) th).hw = th.hw ∧ (ws.foldl (fun th x => th.writeP x.1 x.2) th).spilled = th.spilled ∧
        (ws.foldl (fun th x => th.writeP x.1 x.2) th).trapCause = th.trapCause ∧ (ws.foldl (fun th x => th.writeP x.1 x.2) th).pc = th.pc ∧
        (ws.foldl (fun th x => th.writeP x.1 x.2) th).stat = th.stat ∧ (ws.foldl (fun th x => th.writeP x.1 x.2) th).v = th.v ∧
        (ws.foldl (fun th x => th.writeP x.1 x.2) th).fpm = th.fpm := by
      induction ws generalizing th with
      | nil => simp
      | cons x ws ih =>
        rw [List.foldl_cons]
        have := ih (th.writeP x.1 x.2)
        unfold Thread.writeP at this ⊢
        split_ifs at this ⊢ <;> exact this
    have app (th : Thread) :
        (th.apply nw (f k)).readV = (if nw then th else (f k).regs.foldl (fun th x => th.writeV x.1 x.2) th).readV ∧
        (th.apply nw (f k)).readP = ((f k).preds.foldl (fun th x => th.writeP x.1 x.2) th).readP ∧
        (th.apply nw (f k)).fpm = (f k).fpm.getD th.fpm ∧ (th.apply nw (f k)).hw = th.hw ∧ (th.apply nw (f k)).spilled = th.spilled ∧
        (th.apply nw (f k)).trapCause = th.trapCause ∧ (th.apply nw (f k)).pc = th.pc ∧ (th.apply nw (f k)).stat = th.stat := by
      unfold Thread.apply
      dsimp only
      generalize hth1 : (if nw then th else (f k).regs.foldl (fun th x => th.writeV x.1 x.2) th) = th1
      have h1 : th1.hw = th.hw ∧ th1.spilled = th.spilled ∧ th1.trapCause = th.trapCause ∧ th1.pc = th.pc ∧ th1.stat = th.stat ∧
          th1.p = th.p ∧ th1.fpm = th.fpm := by
        subst hth1; cases nw
        · exact sameV _ _
        · exact ⟨rfl, rfl, rfl, rfl, rfl, rfl, rfl⟩
      have h2 := sameP (f k).preds th1
      have h3 : ((f k).preds.foldl (fun th x => th.writeP x.1 x.2) th1).readP = ((f k).preds.foldl (fun th x => th.writeP x.1 x.2) th).readP := by
        funext n
        rw [readP_writes, readP_writes]
        simp only [Thread.readP, h1.2.2.2.2.2.1]
      generalize (f k).preds.foldl (fun th x => th.writeP x.1 x.2) th1 = th2 at h2 h3 ⊢
      have hv : th2.readV = th1.readV := by funext n; simp only [Thread.readV, h2.2.2.2.2.2.1]
      obtain ⟨a1, a2, a3, a4, a5, a6, a7⟩ := h1
      obtain ⟨b1, b2, b3, b4, b5, b6, b7⟩ := h2
      cases (f k).fpm with
      | none => exact ⟨hv, h3, b7.trans a7, b1.trans a1, b2.trans a2, b3.trans a3, b4.trans a4, b5.trans a5⟩
      | some m => exact ⟨hv, h3, rfl, b1.trans a1, b2.trans a2, b3.trans a3, b4.trans a4, b5.trans a5⟩
    by_cases hl : l = k
    · subst hl
      simp only [amapGet_insert_same] at hv hp hf h1 h2 h3 h4 h5
      obtain ⟨av, ap, af, a1, a2, a3, a4, a5⟩ := app (amapGet {} ths l : Thread)
      refine ⟨fun n => ?_, fun n => ?_, ?_, h1.trans a1, h2.trans a2, h3.trans a3, h4.trans a4, h5.trans a5⟩
      · rw [hv, av]
        cases nw
        · simp only [Bool.false_eq_true, if_false, readV_writes]
          by_cases hm : l ∈ ps <;> cases lastWrite (f l).regs n <;> simp [hm]
        · simp
      · rw [hp, ap, readP_writes]
        by_cases hn : n < 7
        · by_cases hm : l ∈ ps <;> cases lastWrite (f l).preds n <;> simp [hm, hn]
        · simp [hn]
      · rw [hf, af]
        by_cases hm : l ∈ ps <;> cases (f l).fpm <;> simp [hm]
    · simp only [amapGet_insert_other _ _ _ _ _ hl] at hv hp hf h1 h2 h3 h4 h5
      refine ⟨fun n => ?_, fun n => ?_, ?_, h1, h2, h3, h4, h5⟩
      · rw [hv]; simp [hl]
      · rw [hp]; simp [hl]
      · rw [hf]; simp [hl]

/-! ## The end of an issue -/

/-- What a state before the end of an issue has kept of the state at its start; the lanes of the group stand at `at_`. -/
structure Kept (s b S : State) (i : Iss) (at_ : Nat → Nat) : Prop where
  there  : (amapFind? S.teams i.t).isSome
  others : S.others = b.others
  bodies : ∀ t, (S.team t).body = (b.team t).body
  causes : ∀ t g l, (S.thread t g l).trapCause = (s.thread t g l).trapCause
  pcs    : ∀ t g l, (S.thread t g l).pc = if t = i.t ∧ g = i.g then at_ l else (s.thread t g l).pc
  stats  : ∀ l, s.readyAt i.t i.g l → S.readyAt i.t i.g l
  cores  : S.cores = b.cores
  run    : (S.group i.t i.g).run = some i.run

/-- Whether a team's grid is ending is not of its groups. -/
theorem Kept.stopping {s b S : State} {i : Iss} {at_ : Nat → Nat} (k : Kept s b S i at_) (t : Nat) : S.stopping t = b.stopping t := by
  have h1 : S.launches = b.launches := by
    have := congrArg (fun x : State => x.launches) k.others
    exact this
  have h2 : (S.team t).launch = (b.team t).launch := by
    have := congrArg (fun x : Team => x.launch) (k.bodies t)
    exact this
  simp only [State.stopping, State.launch, h1, h2]

theorem thread_advance (s : State) (t g : Nat) (ls : List Nat) (n t' g' l : Nat) (h : (amapFind? s.teams t).isSome) :
    (s.advance t g ls n).thread t' g' l =
      if t' = t ∧ g' = g ∧ ls.contains l = true ∧ (amapFind? (s.group t g).threads l).isSome
      then { s.thread t' g' l with pc := ((s.thread t' g' l).pc + n) % 2 ^ 64 } else s.thread t' g' l := by
  simp only [State.thread, State.advance, State.group_updGroup]
  by_cases hc : t' = t ∧ g' = g
  · obtain ⟨rfl, rfl⟩ := hc
    rw [if_pos ⟨rfl, rfl, h⟩]
    simp only [amapGet_eq_find, amapFind?_map]
    cases hf : amapFind? (s.group t' g').threads l with
    | none => simp
    | some th => simp
  · rw [if_neg fun h' => hc ⟨h'.1, h'.2.1⟩, if_neg fun h' => hc ⟨h'.1, h'.2.1⟩]

theorem others_advance (s : State) (t g : Nat) (ls : List Nat) (n : Nat) : (s.advance t g ls n).others = s.others := rfl

theorem body_advance (s : State) (t g : Nat) (ls : List Nat) (n t' : Nat) : ((s.advance t g ls n).team t').body = (s.team t').body := by
  simp only [State.advance, State.updGroup, State.team_updTeam]
  split_ifs with hc
  · obtain ⟨rfl, -⟩ := hc; rfl
  · rfl

theorem scal_advance (s : State) (t g : Nat) (ls : List Nat) (n t' g' : Nat) : ((s.advance t g ls n).group t' g').s = (s.group t' g').s := by
  simp only [State.advance, State.group_updGroup]
  split_ifs with hc
  · obtain ⟨rfl, rfl, -⟩ := hc; rfl
  · rfl

/-- The end of an issue in which no lane trapped: the ready lanes that did not jump go on, and nothing else of a thread or a
group's scalar registers changes. -/
theorem finish_moved {s b S : State} {i : Iss} {at_ : Nat → Nat} (k : Kept s b S i at_) (J : List Nat)
    (hout : ∀ l, l ∉ i.run.lanes → at_ l = (s.thread i.t i.g l).pc) (w : Bool) (y : Option Latch) :
    Moved s b (i.finish S J w y) i (fun l => if J.contains l then at_ l else (at_ l + i.o.len.bytes) % 2 ^ 64) ∧
    (∀ t g l, ((i.finish S J w y).thread t g l).v = (S.thread t g l).v ∧ ((i.finish S J w y).thread t g l).p = (S.thread t g l).p ∧
      ((i.finish S J w y).thread t g l).fpm = (S.thread t g l).fpm ∧ ((i.finish S J w y).thread t g l).hw = (S.thread t g l).hw ∧
      ((i.finish S J w y).thread t g l).spilled = (S.thread t g l).spilled) ∧
    (∀ t g, ((i.finish S J w y).group t g).s = (S.group t g).s) ∧ Latched (i.finish S J w y) i y := by
  unfold Iss.finish
  dsimp only
  generalize hgo : ((i.going S).filter fun l => !J.contains l) = go
  have q := quiet_endIssue (S.advance i.t i.g go i.o.len.bytes) i.t i.g i.run.lanes i.o.rb w y
  have hl : b.stopping i.t = false → ∀ c, ((State.endIssue (S.advance i.t i.g go i.o.len.bytes) i.t i.g i.run.lanes i.o.rb w y).core c).l1 =
      (b.core c).l1 := by
    intro hb c
    have := (lines_endIssue (S.advance i.t i.g go i.o.len.bytes) i.t i.g i.run.lanes i.o.rb w y (by
      rw [State.advance, State.stopping_updGroup, k.stopping]; exact hb)).l1 c
    rw [this]
    show (S.core c).l1 = _
    simp only [State.core, k.cores]
  have hrun : Latched (State.endIssue (S.advance i.t i.g go i.o.len.bytes) i.t i.g i.run.lanes i.o.rb w y) i y := by
    intro r hr
    exact runs_endIssue _ _ _ _ _ _ _ i.run (by
      rw [State.advance, State.group_updGroup, if_pos ⟨rfl, rfl, k.there⟩]; exact k.run) r hr
  have hcore (c : Nat) : (S.advance i.t i.g go i.o.len.bytes).core c = b.core c := by
    show S.core c = _
    simp only [State.core, k.cores]
  generalize State.endIssue (S.advance i.t i.g go i.o.len.bytes) i.t i.g i.run.lanes i.o.rb w y = E at q hl hrun ⊢
  have arch (t g l : Nat) := q.arch t g l
  simp only [Thread.arch, Prod.mk.injEq, thread_advance _ _ _ _ _ _ _ _ k.there] at arch
  have keep (t g l : Nat) (c : Prop) [Decidable c] (n : Nat) :
      let th := if c then { S.thread t g l with pc := n } else S.thread t g l
      th.v = (S.thread t g l).v ∧ th.p = (S.thread t g l).p ∧ th.fpm = (S.thread t g l).fpm ∧ th.hw = (S.thread t g l).hw ∧
      th.spilled = (S.thread t g l).spilled ∧ th.trapCause = (S.thread t g l).trapCause := by
    dsimp only; split_ifs <;> exact ⟨rfl, rfl, rfl, rfl, rfl, rfl⟩
  refine ⟨⟨?_, fun t => ?_, fun t g l => ?_, fun l hl hr => ?_, fun t g l hn => ?_, fun c => hcore c ▸ q.cores c, hl, ⟨y, hrun⟩⟩,
    fun t g l => ?_, fun t g => ?_, hrun⟩
  · rw [q.others, others_advance, k.others]
  · rw [q.bodies, body_advance, k.bodies]
  · obtain ⟨-, -, -, -, -, -, h3⟩ := arch t g l
    rw [h3]
    have := keep t g l (t = i.t ∧ g = i.g ∧ go.contains l = true ∧ (amapFind? (S.group i.t i.g).threads l).isSome)
      (((S.thread t g l).pc + i.o.len.bytes) % 2 ^ 64)
    exact this.2.2.2.2.2.trans (k.causes t g l)
  · rw [(arch i.t i.g l).1]
    obtain ⟨th, hf, hs⟩ := k.stats l hr
    have hgo' : go.contains l = !J.contains l := by
      subst hgo
      have : l ∈ i.going S := by
        simp only [Iss.going, List.mem_filter, decide_eq_true_eq]
        exact ⟨hl, by simp only [State.thread, amapGet_eq_find, hf, Option.getD_some, hs]⟩
      rw [Bool.eq_iff_iff]
      simp only [List.contains_eq_mem, List.mem_filter, this, true_and, decide_eq_true_eq]
    by_cases hJ : J.contains l = true
    · rw [if_neg (by rw [hgo', hJ]; simp), if_pos hJ, k.pcs, if_pos ⟨rfl, rfl⟩]
    · rw [if_pos ⟨rfl, rfl, by rw [hgo']; simpa using hJ, by simp [hf]⟩, if_neg hJ, k.pcs, if_pos ⟨rfl, rfl⟩]
  · rw [(arch t g l).1, if_neg, k.pcs]
    · split_ifs with hc
      · obtain ⟨rfl, rfl⟩ := hc
        exact hout l fun h => hn ⟨rfl, rfl, h⟩
      · rfl
    · rintro ⟨rfl, rfl, hc, -⟩
      refine hn ⟨rfl, rfl, ?_⟩
      subst hgo
      simp only [Iss.going, List.contains_eq_mem, List.mem_filter, decide_eq_true_eq] at hc
      exact hc.1.1
  · obtain ⟨-, h1, h2, h3, h4, h5, -⟩ := arch t g l
    rw [h1, h2, h3, h4, h5]
    have := keep t g l (t = i.t ∧ g = i.g ∧ go.contains l = true ∧ (amapFind? (S.group i.t i.g).threads l).isSome)
      (((S.thread t g l).pc + i.o.len.bytes) % 2 ^ 64)
    exact ⟨this.1, this.2.1, this.2.2.1, this.2.2.2.1, this.2.2.2.2.1⟩
  · rw [q.scal, scal_advance]

/-- The PCs of the group of an issue. -/
abbrev Iss.here (i : Iss) (s : State) (l : Nat) : Nat := (s.thread i.t i.g l).pc

theorem finish_past {s b S : State} {i : Iss} (k : Kept s b S i (i.here s)) (w : Bool) (y : Option Latch) :
    Moved s b (i.finish S [] w y) i (i.past s) := by
  have := (finish_moved k [] (fun _ _ => rfl) w y).1
  exact ⟨this.others, this.bodies, this.causes, fun l hl hr => by rw [this.pc l hl hr]; rfl, this.pcs, this.cores, this.lines, this.run⟩

/-! ## Vector forms -/

theorem forEach_none {α : Type} (l : List α) (S : State) (f : State → α → State) (h : ∀ s, ∀ x ∈ l, f s x = s) : forEach l S f = S := by
  unfold forEach
  induction l generalizing S with
  | nil => rfl
  | cons x l ih =>
    rw [List.foldl_cons, h S x (by simp)]
    exact ih S fun s y hy => h s y (by simp [hy])

/-- Where no lane traps, writing the lanes' results changes one group. -/
theorem writeLanes_eq (b : State) (i : Iss) (r : Nat → LaneRes) (ht : ∀ l ∈ i.parts, (r l).trap = none) :
    i.writeLanes b (i.parts.map fun l => (l, r l)) = b.updGroup i.t i.g fun gr => { gr with
      threads := (i.parts.map fun l => (l, r l)).foldl (fun ths x => if x.2.trap.isSome then ths else
        amapInsert ths x.1 ((amapGet {} ths x.1 : Thread).apply i.o.nw x.2)) gr.threads } := by
  unfold Iss.writeLanes
  dsimp only
  rw [forEach_none]
  intro s x hx
  obtain ⟨l, hl, rfl⟩ := List.mem_map.1 hx
  simp only [ht l hl]

/-- The state in which the lanes of an issue have their results. -/
theorem kept_writeLanes {s b : State} {i : Iss} (r : Nat → LaneRes) (ht : ∀ l ∈ i.parts, (r l).trap = none)
    (hb : (amapFind? b.teams i.t).isSome) (hg : ∀ t, b.team t = s.team t) (hR : (s.group i.t i.g).run = some i.run) :
    Kept s b (i.writeLanes b (i.parts.map fun l => (l, r l))) i (i.here s) ∧ Uncalled s (i.writeLanes b (i.parts.map fun l => (l, r l))) ∧
    (∀ t g l n, (i.writeLanes b (i.parts.map fun l => (l, r l))).readV t g l n =
      if t = i.t ∧ g = i.g ∧ l ∈ i.parts ∧ i.o.nw = false then (lastWrite (r l).regs n).getD (s.readV t g l n) else s.readV t g l n) ∧
    (∀ t g l n, (i.writeLanes b (i.parts.map fun l => (l, r l))).readP t g l n =
      if t = i.t ∧ g = i.g ∧ l ∈ i.parts ∧ n < 7 then (lastWrite (r l).preds n).getD (s.readP t g l n) else s.readP t g l n) ∧
    (∀ t g l, ((i.writeLanes b (i.parts.map fun l => (l, r l))).thread t g l).fpm =
      if t = i.t ∧ g = i.g ∧ l ∈ i.parts then (r l).fpm.getD (s.thread t g l).fpm else (s.thread t g l).fpm) ∧
    (∀ t g, ((i.writeLanes b (i.parts.map fun l => (l, r l))).group t g).s = (s.group t g).s) := by
  rw [writeLanes_eq b i r ht]
  have hG (t g : Nat) : b.group t g = s.group t g := by simp only [State.group, hg]
  have hT (t g l : Nat) : b.thread t g l = s.thread t g l := by simp only [State.thread, hG]
  generalize hS : (b.updGroup i.t i.g fun gr => { gr with
      threads := (i.parts.map fun l => (l, r l)).foldl (fun ths x => if x.2.trap.isSome then ths else
        amapInsert ths x.1 ((amapGet {} ths x.1 : Thread).apply i.o.nw x.2)) gr.threads }) = S
  have hthr (t g l : Nat) : S.thread t g l =
      if t = i.t ∧ g = i.g then amapGet {} ((i.parts.map fun l => (l, r l)).foldl (fun ths x => if x.2.trap.isSome then ths else
        amapInsert ths x.1 ((amapGet {} ths x.1 : Thread).apply i.o.nw x.2)) (s.group i.t i.g).threads) l else s.thread t g l := by
    subst hS
    simp only [State.thread, State.group_updGroup, hb, and_true]
    split_ifs <;> simp only [hG]
  have hl (l : Nat) := apply_lanes i.o.nw r i.parts ht (s.group i.t i.g).threads l
  refine ⟨⟨?_, ?_, fun t => ?_, fun t g l => ?_, fun t g l => ?_, fun l => ?_, by subst hS; rfl, ?_⟩, fun t g l => ?_, fun t g l n => ?_,
    fun t g l n => ?_, fun t g l => ?_, fun t g => ?_⟩
  · subst hS; rw [State.updGroup, State.present_updTeam]; exact hb
  · subst hS; rfl
  · subst hS; rw [State.updGroup, State.team_updTeam]
    split_ifs with hc
    · obtain ⟨rfl, -⟩ := hc; rfl
    · rfl
  · rw [hthr]; split_ifs with hc
    · obtain ⟨rfl, rfl⟩ := hc; exact (hl l).2.2.2.2.2.1
    · rfl
  · rw [hthr]; split_ifs with hc
    · obtain ⟨rfl, rfl⟩ := hc; exact (hl l).2.2.2.2.2.2.1
    · rfl
  · rintro ⟨th, hf, hs⟩
    have hst := (hl l).2.2.2.2.2.2.2
    have hsome : ∀ (ps : List Nat) (ths : AMap Thread), (amapFind? ths l).isSome →
        (amapFind? ((ps.map fun l => (l, r l)).foldl (fun ths x => if x.2.trap.isSome then ths else
          amapInsert ths x.1 ((amapGet {} ths x.1 : Thread).apply i.o.nw x.2)) ths) l).isSome := by
      intro ps
      induction ps with
      | nil => intro ths h; exact h
      | cons k ps ih =>
        intro ths h
        simp only [List.map_cons, List.foldl_cons]
        apply ih
        split_ifs
        · exact h
        · by_cases hk : l = k
          · subst hk; simp [amapFind?_insert_same]
          · rw [amapFind?_insert_other _ _ _ _ hk]; exact h
    have h1 := hsome i.parts (s.group i.t i.g).threads (by simp [hf])
    obtain ⟨th', h2⟩ := Option.isSome_iff_exists.1 h1
    refine ⟨th', ?_, ?_⟩
    · subst hS; rw [State.group_updGroup, if_pos ⟨rfl, rfl, hb⟩, hG]; exact h2
    · rw [amapGet_eq_find, amapGet_eq_find, hf, h2] at hst; exact hst.trans hs
  · subst hS; rw [State.group_updGroup, if_pos ⟨rfl, rfl, hb⟩, hG]; exact hR
  · rw [hthr]; split_ifs with hc
    · obtain ⟨rfl, rfl⟩ := hc; exact ⟨(hl l).2.2.2.1, (hl l).2.2.2.2.1⟩
    · exact ⟨rfl, rfl⟩
  · simp only [State.readV]; rw [hthr]; by_cases hc : t = i.t ∧ g = i.g
    · rw [if_pos hc, (hl l).1]; obtain ⟨rfl, rfl⟩ := hc; simp only [true_and]; rfl
    · rw [if_neg hc, if_neg fun h => hc ⟨h.1, h.2.1⟩]
  · simp only [State.readP]; rw [hthr]; by_cases hc : t = i.t ∧ g = i.g
    · rw [if_pos hc, (hl l).2.1]; obtain ⟨rfl, rfl⟩ := hc; simp only [true_and]; rfl
    · rw [if_neg hc, if_neg fun h => hc ⟨h.1, h.2.1⟩]
  · rw [hthr]; by_cases hc : t = i.t ∧ g = i.g
    · rw [if_pos hc, (hl l).2.2.1]; obtain ⟨rfl, rfl⟩ := hc; simp only [true_and]; rfl
    · rw [if_neg hc, if_neg fun h => hc ⟨h.1, h.2.1⟩]
  · subst hS; rw [State.group_updGroup]
    split_ifs with hc
    · obtain ⟨rfl, rfl, -⟩ := hc; simp only [hG]
    · simp only [hG]

/-- From the end of an issue to what it left. -/
theorem wrote_finish {s b S : State} {i : Iss} {r : Nat → LaneRes} (k : Kept s b S i (i.here s)) (hc : Uncalled s S)
    (hv : ∀ t g l n, S.readV t g l n =
      if t = i.t ∧ g = i.g ∧ l ∈ i.parts ∧ i.o.nw = false then (lastWrite (r l).regs n).getD (s.readV t g l n) else s.readV t g l n)
    (hp : ∀ t g l n, S.readP t g l n =
      if t = i.t ∧ g = i.g ∧ l ∈ i.parts ∧ n < 7 then (lastWrite (r l).preds n).getD (s.readP t g l n) else s.readP t g l n)
    (hf : ∀ t g l, (S.thread t g l).fpm =
      if t = i.t ∧ g = i.g ∧ l ∈ i.parts then (r l).fpm.getD (s.thread t g l).fpm else (s.thread t g l).fpm)
    (hs : ∀ t g, (S.group t g).s = (s.group t g).s) (w : Bool) (y : Option Latch) :
    Wrote s b (i.finish S [] w y) i r ∧ Latched (i.finish S [] w y) i y := by
  obtain ⟨-, h2, h3, h4⟩ := finish_moved k [] (fun _ _ => rfl) w y
  refine ⟨⟨finish_past k w y, fun t g l => ?_, fun t g l n => ?_, fun t g l n => ?_, fun t g l => ?_, fun t g n => ?_⟩, h4⟩
  · rw [(h2 t g l).2.2.2.1, (h2 t g l).2.2.2.2]; exact hc t g l
  · rw [← hv]; simp only [State.readV, Thread.readV, (h2 t g l).1]
  · rw [← hp]; simp only [State.readP, Thread.readP, (h2 t g l).2.1]
  · rw [← hf, (h2 t g l).2.2.1]
  · simp only [State.readS, Group.readS, h3, hs]

theorem there_reading {s : State} {o : Ops} {u : Uses} {i : Iss} (h : Issues s o u i) : (amapFind? s.reading.teams i.t).isSome :=
  State.present_of_run s i.t i.g i.run h.run

/-- A vector form whose lanes do not trap writes their results. -/
theorem vecIssue_wrote {s : State} {o : Ops} {u : Uses} {i : Iss} (h : Issues s o u i) (latch : Bool) (f : State → Iss → Nat → LaneRes)
    (ht : ∀ l ∈ i.parts, (f s.reading i l).trap = none) :
    ∃ s', vecIssue o u latch f s = .next s' ∧ Wrote s s.reading s' i (f s.reading i) ∧
      Latched s' i (if latch then some (vecLatch (i.parts.map fun l => (l, f s.reading i l))) else none) := by
  unfold vecIssue
  rw [issue_eq h false _ (by simp)]
  refine ⟨_, rfl, ?_⟩
  obtain ⟨k, hc, hv, hp, hf, hs⟩ := kept_writeLanes (s := s) (b := s.reading) (f s.reading i) ht (there_reading h) (fun _ => rfl) h.run
  exact wrote_finish k hc hv hp hf hs _ _

/-- An issue that only ends. -/
theorem still_finish {s : State} {o : Ops} {u : Uses} {i : Iss} (h : Issues s o u i) (b : State) (hg : b.teams = s.teams) (w : Bool)
    (y : Option Latch) : Still s b (i.finish b [] w y) i ∧ Latched (i.finish b [] w y) i y := by
  have hT (t : Nat) : b.team t = s.team t := by simp only [State.team, hg]
  have hG (t g : Nat) : b.group t g = s.group t g := by simp only [State.group, hT]
  have hL (t g l : Nat) : b.thread t g l = s.thread t g l := by simp only [State.thread, hG]
  refine wrote_finish ⟨by rw [hg]; exact there_reading h, rfl, fun _ => rfl, fun t g l => by simp [hL],
    fun t g l => ?_, fun l hr => ?_, rfl, by rw [hG]; exact h.run⟩ (fun t g l => by simp [hL]) (fun t g l n => ?_) (fun t g l n => ?_) (fun t g l => ?_) (fun t g => by rw [hG]) w y
  · rw [hL]; split_ifs with hc
    · obtain ⟨rfl, rfl⟩ := hc; rfl
    · rfl
  · obtain ⟨th, h1, h2⟩ := hr; exact ⟨th, by rw [hG]; exact h1, h2⟩
  · simp [State.readV, hL]
  · simp [State.readP, hL]
  · simp [hL]

/-! ## Scalar forms -/

theorem readS_writeS (gr : Group) (k n : Nat) (x : Word) : (gr.writeS k x).readS n = if k = n ∧ n ≠ 63 then x else gr.readS n := by
  unfold Group.writeS Group.readS
  by_cases hn : n = 63
  · simp [hn]
  · by_cases hk : k = 63
    · subst hk; simp [hn, Ne.symm hn]
    · by_cases h : k = n
      · subst h; simp [hk, amapGet_insert_same]
      · simp [hk, hn, h, amapGet_insert_other _ _ _ _ _ (Ne.symm h)]

theorem readS_writes (ws : List (Nat × Word)) (gr : Group) (n : Nat) :
    (ws.foldl (fun gr x => gr.writeS x.1 x.2) gr).readS n = if n ≠ 63 then (lastWrite ws n).getD (gr.readS n) else gr.readS n := by
  induction ws generalizing gr with
  | nil => simp
  | cons x ws ih =>
    rw [List.foldl_cons, ih, readS_writeS, lastWrite_cons]
    by_cases hn : n = 63
    · simp [hn]
    · cases lastWrite ws n <;> by_cases h : x.1 = n <;> simp [h, hn]

theorem threads_writes (ws : List (Nat × Word)) (gr : Group) : (ws.foldl (fun gr x => gr.writeS x.1 x.2) gr).threads = gr.threads := by
  induction ws generalizing gr with
  | nil => rfl
  | cons x ws ih =>
    rw [List.foldl_cons, ih]
    unfold Group.writeS
    split_ifs <;> rfl

theorem run_writes (ws : List (Nat × Word)) (gr : Group) : (ws.foldl (fun gr x => gr.writeS x.1 x.2) gr).run = gr.run := by
  induction ws generalizing gr with
  | nil => rfl
  | cons x ws ih =>
    rw [List.foldl_cons, ih]
    unfold Group.writeS
    split_ifs <;> rfl

/-- From a change of one group that keeps what its threads hold but FPM, to what the end of the issue leaves. -/
theorem wroteS_finish {s b : State} {i : Iss} {r : List (Nat × Word)} {m : Nat → Option Word} (f : Group → Group)
    (hb : (amapFind? b.teams i.t).isSome) (hg : ∀ t, b.team t = s.team t)
    (hth : ∀ l, let th : Thread := amapGet {} (f (s.group i.t i.g)).threads l
      th = { s.thread i.t i.g l with fpm := if l ∈ i.parts ∧ s.hasLane i.t i.g l then (m l).getD (s.thread i.t i.g l).fpm else (s.thread i.t i.g l).fpm })
    (hrd : ∀ l th, amapFind? (s.group i.t i.g).threads l = some th → th.stat = .ready →
      ∃ th', amapFind? (f (s.group i.t i.g)).threads l = some th' ∧ th'.stat = .ready)
    (hR : (f (s.group i.t i.g)).run = some i.run)
    (hs : ∀ n, (f (s.group i.t i.g)).readS n =
      if i.parts ≠ [] ∧ i.o.nw = false ∧ n ≠ 63 then (lastWrite r n).getD (s.readS i.t i.g n) else s.readS i.t i.g n)
    (w : Bool) (y : Option Latch) :
    WroteS s b (i.finish (b.updGroup i.t i.g f) [] w y) i r m ∧ Latched (i.finish (b.updGroup i.t i.g f) [] w y) i y := by
  have hG (t g : Nat) : b.group t g = s.group t g := by simp only [State.group, hg]
  generalize hS : b.updGroup i.t i.g f = S
  have hgr (t g : Nat) : S.group t g = if t = i.t ∧ g = i.g then f (s.group i.t i.g) else s.group t g := by
    subst hS; simp only [State.group_updGroup, hb, and_true, hG]
  have hthr (t g l : Nat) : S.thread t g l = if t = i.t ∧ g = i.g then { s.thread i.t i.g l with
      fpm := if l ∈ i.parts ∧ s.hasLane i.t i.g l then (m l).getD (s.thread i.t i.g l).fpm else (s.thread i.t i.g l).fpm } else s.thread t g l := by
    show amapGet {} (S.group t g).threads l = _
    rw [hgr]
    by_cases hc : t = i.t ∧ g = i.g
    · rw [if_pos hc, if_pos hc]; exact hth l
    · rw [if_neg hc, if_neg hc]; rfl
  have k : Kept s b S i (i.here s) := by
    refine ⟨?_, ?_, fun t => ?_, fun t g l => ?_, fun t g l => ?_, fun l => ?_, by subst hS; rfl, by rw [hgr, if_pos ⟨rfl, rfl⟩]; exact hR⟩
    · subst hS; rw [State.updGroup, State.present_updTeam]; exact hb
    · subst hS; rfl
    · subst hS; rw [State.updGroup, State.team_updTeam]
      split_ifs with hc
      · obtain ⟨rfl, -⟩ := hc; rfl
      · rfl
    · rw [hthr]; by_cases hc : t = i.t ∧ g = i.g
      · rw [if_pos hc]; obtain ⟨rfl, rfl⟩ := hc; rfl
      · rw [if_neg hc]
    · rw [hthr]; by_cases hc : t = i.t ∧ g = i.g
      · rw [if_pos hc, if_pos hc]
      · rw [if_neg hc, if_neg hc]
    · rintro ⟨th, h1, h2⟩
      obtain ⟨th', h3, h4⟩ := hrd l th h1 h2
      exact ⟨th', by rw [hgr, if_pos ⟨rfl, rfl⟩]; exact h3, h4⟩
  obtain ⟨-, h2, h3, h4⟩ := finish_moved k [] (fun _ _ => rfl) w y
  refine ⟨⟨finish_past k w y, fun t g l => ?_, fun t g l n => ?_, fun t g l n => ?_, fun t g l => ?_, fun t g n => ?_⟩, h4⟩
  · rw [(h2 t g l).2.2.2.1, (h2 t g l).2.2.2.2, hthr]; by_cases hc : t = i.t ∧ g = i.g
    · rw [if_pos hc]; obtain ⟨rfl, rfl⟩ := hc; exact ⟨rfl, rfl⟩
    · rw [if_neg hc]; exact ⟨rfl, rfl⟩
  · simp only [State.readV, Thread.readV, (h2 t g l).1, hthr]; by_cases hc : t = i.t ∧ g = i.g
    · rw [if_pos hc]; obtain ⟨rfl, rfl⟩ := hc; rfl
    · rw [if_neg hc]
  · simp only [State.readP, Thread.readP, (h2 t g l).2.1, hthr]; by_cases hc : t = i.t ∧ g = i.g
    · rw [if_pos hc]; obtain ⟨rfl, rfl⟩ := hc; rfl
    · rw [if_neg hc]
  · rw [(h2 t g l).2.2.1, hthr]
    by_cases hc : t = i.t ∧ g = i.g
    · obtain ⟨rfl, rfl⟩ := hc; simp
    · rw [if_neg hc, if_neg fun h => hc ⟨h.1, h.2.1⟩]
  · have e : (i.finish S [] w y).readS t g n = (S.group t g).readS n := by simp only [State.readS, Group.readS, h3]
    rw [e, hgr]
    by_cases hc : t = i.t ∧ g = i.g
    · rw [if_pos hc, hs n]; obtain ⟨rfl, rfl⟩ := hc; simp only [true_and]
    · rw [if_neg hc, if_neg fun h => hc ⟨h.1, h.2.1⟩]; rfl

theorem thread_eta (th : Thread) : th = { th with fpm := th.fpm } := rfl

/-- An S-form that does not trap writes the group's scalar registers. -/
theorem scalIssue_wrote {s : State} {o : Ops} {u : Uses} {i : Iss} (h : Issues s o { u with sform := true } i) (latch : Bool)
    (f : State → Iss → Nat → LaneRes) (ht : ∀ l ∈ i.parts, (f s.reading i l).trap = none ∧ (f s.reading i l).fpm = none) :
    ∃ s', scalIssue o u latch f s = .next s' ∧
      WroteS s s.reading s' i (f s.reading i (i.parts.headD 0)).regs (fun _ => none) ∧
      Latched s' i (if latch && !i.parts.isEmpty then some ⟨true, (f s.reading i (i.parts.headD 0)).latch, []⟩ else none) := by
  unfold scalIssue
  rw [issue_eq h false _ (by simp)]
  refine ⟨_, rfl, ?_⟩
  cases hp : i.parts with
  | nil =>
    dsimp only
    obtain ⟨this, hy⟩ := still_finish h s.reading rfl false none
    refine ⟨⟨this.toMoved, this.calls, fun t g l n => ?_, fun t g l n => ?_, fun t g l => ?_, fun t g n => ?_⟩, by simpa using hy⟩
    · rw [this.regs, hp]; simp
    · rw [this.preds, hp]; simp
    · rw [this.modes, hp]; simp
    · rw [this.scal]; simp [hp]
  | cons l0 ps =>
    have h0 := ht l0 (by simp [hp])
    have hO := h.ops
    simp only [h0.1, h0.2, List.headD_cons]
    have hy : (latch && !(l0 :: ps).isEmpty) = latch := by simp
    rw [hy]
    refine wroteS_finish (s := s) _ (there_reading h) (fun _ => rfl) (fun l => ?_) (fun l th h1 h2 => ⟨th, ?_, h2⟩) ?_ (fun n => ?_) _ _
    · have : ((if o.nw = true then s.group i.t i.g else
          (f s.reading i l0).regs.foldl (fun gr x => gr.writeS x.1 x.2) (s.group i.t i.g)).threads) = (s.group i.t i.g).threads := by
        split_ifs
        · rfl
        · exact threads_writes _ _
      simp only [this]
      have e : (amapGet {} (s.group i.t i.g).threads l : Thread) = s.thread i.t i.g l := rfl
      rw [e]
      split_ifs <;> exact thread_eta _
    · split_ifs
      · exact h1
      · rw [threads_writes]; exact h1
    · split_ifs
      · exact h.run
      · rw [run_writes]; exact h.run
    · rw [hO, hp]
      cases o.nw
      · simp only [Bool.false_eq_true, if_false]
        rw [readS_writes]
        simp [State.readS]
      · simp [State.readS]

/-! ## Medium latency -/

theorem others_addPend {S b : State} (p : Pend) (h : S.others = b.others) : (S.addPend p).others = (b.addPend p).others := by
  have e (x : State) : (x.addPend p).others = (x.others.addPend p).others := rfl
  rw [e, h, ← e]

/-- The results that an issue of lane results queues. -/
def laneRegs (ls : List Nat) (r : Nat → LaneRes) : List (Nat × Nat × Word) := ls.flatMap fun l => (r l).regs.map fun x => (l, x.1, x.2)
def lanePreds (ls : List Nat) (r : Nat → LaneRes) : List (Nat × Nat × Bool) := ls.flatMap fun l => (r l).preds.map fun x => (l, x.1, x.2)

theorem kept_addPend {s b S : State} {i : Iss} {at_ : Nat → Nat} (p : Pend) (k : Kept s b S i at_) : Kept s (b.addPend p) (S.addPend p) i at_ :=
  ⟨k.there, others_addPend p k.others, k.bodies, k.causes, k.pcs, k.stats, k.cores, k.run⟩

/-- A medium-latency vector form whose lanes do not trap queues their results and writes FPM. -/
theorem mediumIssue_wrote {s : State} {o : Ops} {u : Uses} {i : Iss} (h : Issues s o u i) (f : State → Iss → Nat → LaneRes)
    (ht : ∀ l ∈ i.parts, (f s.reading i l).trap = none)
    (hr : ∀ l ∈ i.parts, (f s.reading i l).regs ≠ [] ∨ (f s.reading i l).preds ≠ []) (hn : i.parts ≠ []) :
    ∃ s', mediumIssue o u f s = .next s' ∧
      Wrote s (s.reading.addPend ⟨i.t, i.g, true, false, laneRegs i.parts (f s.reading i), lanePreds i.parts (f s.reading i)⟩) s' i
        (fun l => { fpm := (f s.reading i l).fpm }) ∧ Latched s' i none := by
  unfold mediumIssue
  rw [issue_eq h false _ (by simp)]
  refine ⟨_, rfl, ?_⟩
  have hok : ((i.parts.map fun l => (l, f s.reading i l)).filter fun x => x.2.trap.isNone) = i.parts.map fun l => (l, f s.reading i l) := by
    rw [List.filter_eq_self]
    intro x hx
    obtain ⟨l, hl, rfl⟩ := List.mem_map.1 hx
    simp [ht l hl]
  have hall : (i.parts.map fun l => (l, f s.reading i l)).all (fun x => x.2.regs.isEmpty && x.2.preds.isEmpty) = false := by
    rw [List.all_eq_false]
    obtain ⟨l, ls, hp⟩ := List.exists_cons_of_ne_nil hn
    refine ⟨(l, f s.reading i l), by simp [hp], ?_⟩
    rcases hr l (by simp [hp]) with h | h <;> simp [h]
  dsimp only
  rw [hok, hall]
  simp only [Bool.false_eq_true, if_false, List.map_map, List.flatMap_map]
  obtain ⟨k, hc, hv, hp, hf, hs⟩ := kept_writeLanes (s := s) (b := s.reading)
    (fun l => { f s.reading i l with regs := [], preds := [] }) (fun l hl => ht l hl) (there_reading h) (fun _ => rfl) h.run
  have e : (i.parts.map ((fun x : Nat × LaneRes => (x.1, { x.2 with regs := [], preds := [] })) ∘ fun l => (l, f s.reading i l))) =
      i.parts.map fun l => (l, { f s.reading i l with regs := [], preds := [] }) := rfl
  rw [e]
  refine wrote_finish (r := fun l => { fpm := (f s.reading i l).fpm }) (kept_addPend _ k) hc ?_ ?_ ?_ ?_ _ _
  · intro t g l n; exact hv t g l n
  · intro t g l n; exact hp t g l n
  · intro t g l; exact hf t g l
  · intro t g; exact hs t g

/-- Results that are queued without a change of FPM. -/
theorem medium_still {s : State} {o : Ops} {u : Uses} {i : Iss} (h : Issues s o u i) (regs : List (Nat × Nat × Word))
    (preds : List (Nat × Nat × Bool)) (hne : ¬ (regs = [] ∧ preds = [])) :
    Still s (s.reading.addPend ⟨i.t, i.g, true, false, regs, preds⟩) (i.medium s.reading regs preds) i ∧
      Latched (i.medium s.reading regs preds) i none := by
  unfold Iss.medium
  have : (regs.isEmpty && preds.isEmpty) = false := by
    cases regs <;> cases preds <;> simp_all
  simp only [this, Bool.false_eq_true, if_false]
  exact still_finish h (s.reading.addPend _) rfl false none

/-! ## Floating point -/

theorem fpLane_some (d : BitVec 8) (fpm : Word) (r : List Word × FFlags) (h : fpTrap (fpmTraps fpm) r.2 = none) :
    fpLane d fpm r = { resWords d r.1 with fpm := some (fpmRaise fpm r.2) } := by
  unfold fpLane; rw [h]

theorem amapInsert_insert {α : Type} (m : AMap α) (k : Nat) (v w : α) : amapInsert (amapInsert m k v) k w = amapInsert m k w := by
  induction m with
  | nil => simp [amapInsert]
  | cons x m ih =>
    obtain ⟨j, y⟩ := x
    simp only [amapInsert]
    split_ifs with h1 h2
    · simp [amapInsert]
    · simp [amapInsert]
    · simp only [amapInsert, h1, h2, if_false, ih]

/-- Two changes of one group are one. -/
theorem updGroup_updGroup (s : State) (t g : Nat) (f1 f2 : Group → Group) :
    (s.updGroup t g f1).updGroup t g f2 = s.updGroup t g fun gr => f2 (f1 gr) := by
  simp only [State.updGroup, State.updTeam]
  congr 1
  simp only [amapMap, List.map_map]
  apply List.map_congr_left
  intro x _
  by_cases hx : x.1 = t
  · simp [hx, amapGet_insert_same, amapInsert_insert]
  · simp [hx]

/-- A floating-point S-form of short latency that no participant traps on. -/
theorem fpScal_wrote {s : State} {o : Ops} {u : Uses} {i : Iss} (h : Issues s o { u with sform := true } i)
    (f : State → Iss → Nat → Word → List Word × FFlags) (l0 : Nat) (ls : List Nat) (hp : i.parts = l0 :: ls) (r : List Word × FFlags)
    (hr : r = f s.reading i l0 (s.thread i.t i.g l0).fpm)
    (ht : fpTrap (i.parts.foldl (fun e l => e ||| fpmTraps (s.thread i.t i.g l).fpm) 0) r.2 = none) :
    ∃ s', fpScal o u false f s = .next s' ∧
      WroteS s s.reading s' i (numbered o.d.toNat r.1) (fun l => some (fpmRaise (s.thread i.t i.g l).fpm r.2)) ∧
      Latched s' i (some ⟨true, (resWords o.d r.1).latch, []⟩) := by
  unfold fpScal
  rw [issue_eq h false _ (by simp)]
  refine ⟨_, rfl, ?_⟩
  have hO := h.ops
  have er : f s.reading i l0 (s.reading.thread i.t i.g l0).fpm = r := hr.symm
  have et : fpTrap ((l0 :: ls).foldl (fun e l => e ||| fpmTraps (s.reading.thread i.t i.g l).fpm) 0) r.2 = none := by rw [← hp]; exact ht
  simp only [hp, er, et, Bool.false_eq_true, if_false]
  rw [updGroup_updGroup]
  refine wroteS_finish (s := s) _ (there_reading h) (fun _ => rfl) (fun l => ?_) (fun l th h1 h2 => ?_) ?_ (fun n => ?_) _ _
  · have e : ∀ gr : Group, (if o.nw = true then gr else (numbered o.d.toNat r.1).foldl (fun gr x => gr.writeS x.1 x.2) gr).threads = gr.threads := by
      intro gr; split_ifs
      · rfl
      · exact threads_writes _ _
    dsimp only
    rw [e]
    simp only [amapGet_eq_find, amapFind?_map, State.thread, State.hasLane]
    cases hf : amapFind? (s.group i.t i.g).threads l with
    | none => simp only [Option.map_none, Option.getD_none, Option.isSome_none, Bool.false_eq_true, and_false, if_false]
    | some th =>
      simp only [Option.map_some, Option.getD_some, Option.isSome_some, and_true, hp, List.contains_eq_mem, decide_eq_true_eq]
      by_cases hl : l ∈ l0 :: ls
      · rw [if_pos hl, if_pos hl]
      · rw [if_neg hl, if_neg hl]
  · have e : ∀ gr : Group, (if o.nw = true then gr else (numbered o.d.toNat r.1).foldl (fun gr x => gr.writeS x.1 x.2) gr).threads = gr.threads := by
      intro gr; split_ifs
      · rfl
      · exact threads_writes _ _
    rw [e]
    simp only [amapFind?_map, h1, Option.map_some]
    refine ⟨_, rfl, ?_⟩
    split_ifs <;> exact h2
  · split_ifs
    · exact h.run
    · rw [run_writes]; exact h.run
  · rw [hO]
    cases hnw : o.nw
    · simp only [Bool.false_eq_true, if_false]
      rw [readS_writes]
      simp only [hp]
      by_cases hn : n = 63
      · simp [hn, Group.readS, State.readS]
      · simp [hn, Group.readS, State.readS]
    · simp [Group.readS, State.readS]

theorem Wrote.congr {s b s' : State} {i : Iss} {r r' : Nat → LaneRes} (h : Wrote s b s' i r) (e : ∀ l ∈ i.parts, r l = r' l) :
    Wrote s b s' i r' := by
  refine ⟨h.toMoved, h.calls, fun t g l n => ?_, fun t g l n => ?_, fun t g l => ?_, h.scal⟩
  · rw [h.regs]
    by_cases hl : l ∈ i.parts
    · rw [e l hl]
    · rw [if_neg (by tauto), if_neg (by tauto)]
  · rw [h.preds]
    by_cases hl : l ∈ i.parts
    · rw [e l hl]
    · rw [if_neg (by tauto), if_neg (by tauto)]
  · rw [h.modes]
    by_cases hl : l ∈ i.parts
    · rw [e l hl]
    · rw [if_neg (by tauto), if_neg (by tauto)]

/-- A latch holds of a lane's results only their 64 bits. -/
theorem vecLatch_congr (ls : List Nat) (f g : Nat → LaneRes) (h : ∀ l ∈ ls, (f l).trap = (g l).trap ∧ (f l).latch = (g l).latch) :
    vecLatch (ls.map fun l => (l, f l)) = vecLatch (ls.map fun l => (l, g l)) := by
  unfold vecLatch
  congr 1
  generalize ([] : AMap DWord) = m
  induction ls generalizing m with
  | nil => rfl
  | cons l ls ih =>
    simp only [List.map_cons, List.foldl_cons]
    rw [(h l (by simp)).1, (h l (by simp)).2]
    exact ih (fun k hk => h k (by simp [hk])) _

/-- A floating-point vector form of short latency that no participant traps on. -/
theorem fpVec_wrote {s : State} {o : Ops} {u : Uses} {i : Iss} (h : Issues s o u i) (f : State → Iss → Nat → Word → List Word × FFlags)
    (ht : ∀ l ∈ i.parts, fpTrap (fpmTraps (s.thread i.t i.g l).fpm) (f s.reading i l (s.thread i.t i.g l).fpm).2 = none) :
    ∃ s', fpVec o u false f s = .next s' ∧ (Wrote s s.reading s' i fun l =>
      { resWords o.d (f s.reading i l (s.thread i.t i.g l).fpm).1 with
        fpm := some (fpmRaise (s.thread i.t i.g l).fpm (f s.reading i l (s.thread i.t i.g l).fpm).2) }) ∧
      Latched s' i (some (vecLatch (i.parts.map fun l => (l, resWords o.d (f s.reading i l (s.thread i.t i.g l).fpm).1)))) := by
  have e (l : Nat) (hl : l ∈ i.parts) := fpLane_some o.d _ _ (ht l hl)
  obtain ⟨s', h1, h2, h3⟩ := vecIssue_wrote h true (fun s i l => fpLane o.d (s.thread i.t i.g l).fpm (f s i l (s.thread i.t i.g l).fpm))
    fun l hl => congrArg LaneRes.trap (e l hl)
  refine ⟨s', h1, h2.congr e, ?_⟩
  rw [if_pos rfl] at h3
  have hy : vecLatch (i.parts.map fun l => (l, fpLane o.d (s.reading.thread i.t i.g l).fpm (f s.reading i l (s.reading.thread i.t i.g l).fpm))) =
      vecLatch (i.parts.map fun l => (l, resWords o.d (f s.reading i l (s.thread i.t i.g l).fpm).1)) :=
    vecLatch_congr i.parts _ _ fun l hl => by
      have he : fpLane o.d (s.reading.thread i.t i.g l).fpm (f s.reading i l (s.reading.thread i.t i.g l).fpm) = _ := e l hl
      rw [he]; exact ⟨rfl, rfl⟩
  rw [← hy]; exact h3

/-- A floating-point vector form of medium latency that no participant traps on. -/
theorem fpMedium_wrote {s : State} {o : Ops} {u : Uses} {i : Iss} (h : Issues s o u i) (f : State → Iss → Nat → Word → List Word × FFlags)
    (hn : i.parts ≠ []) (hw : ∀ l ∈ i.parts, (f s.reading i l (s.thread i.t i.g l).fpm).1 ≠ [])
    (ht : ∀ l ∈ i.parts, fpTrap (fpmTraps (s.thread i.t i.g l).fpm) (f s.reading i l (s.thread i.t i.g l).fpm).2 = none) :
    ∃ s', fpVec o u true f s = .next s' ∧
      Wrote s (s.reading.addPend ⟨i.t, i.g, true, false, i.parts.flatMap fun l =>
          (numbered o.d.toNat (f s.reading i l (s.thread i.t i.g l).fpm).1).map fun w => (l, w.1, w.2), []⟩) s' i
        (fun l => { fpm := some (fpmRaise (s.thread i.t i.g l).fpm (f s.reading i l (s.thread i.t i.g l).fpm).2) }) ∧ Latched s' i none := by
  have e (l : Nat) (hl : l ∈ i.parts) := fpLane_some o.d _ _ (ht l hl)
  have e' (l : Nat) (hl : l ∈ i.parts) : fpLane o.d (s.reading.thread i.t i.g l).fpm (f s.reading i l (s.reading.thread i.t i.g l).fpm) =
      { resWords o.d (f s.reading i l (s.thread i.t i.g l).fpm).1 with
        fpm := some (fpmRaise (s.thread i.t i.g l).fpm (f s.reading i l (s.thread i.t i.g l).fpm).2) } := e l hl
  obtain ⟨s', h1, h2, h3⟩ := mediumIssue_wrote h (fun s i l => fpLane o.d (s.thread i.t i.g l).fpm (f s i l (s.thread i.t i.g l).fpm))
    (fun l hl => congrArg LaneRes.trap (e l hl)) (fun l hl => by
      left
      have hnum : ∀ (ws : List Word) (k : Nat), ws ≠ [] → numbered k ws ≠ [] := by
        intro ws k hws; cases ws with
        | nil => exact absurd rfl hws
        | cons w ws => simp [numbered]
      rw [e' l hl]
      exact hnum _ _ (hw l hl)) hn
  refine ⟨s', h1, ?_⟩
  have e1 : laneRegs i.parts ((fun s i l => fpLane o.d (s.thread i.t i.g l).fpm (f s i l (s.thread i.t i.g l).fpm)) s.reading i) =
      i.parts.flatMap fun l => (numbered o.d.toNat (f s.reading i l (s.thread i.t i.g l).fpm).1).map fun w => (l, w.1, w.2) := by
    unfold laneRegs
    apply List.flatMap_congr
    intro l hl
    dsimp only
    rw [e' l hl]; rfl
  have e2 : lanePreds i.parts ((fun s i l => fpLane o.d (s.thread i.t i.g l).fpm (f s i l (s.thread i.t i.g l).fpm)) s.reading i) = [] := by
    unfold lanePreds
    rw [List.flatMap_eq_nil_iff]
    intro l hl
    dsimp only
    rw [e' l hl]; rfl
  rw [e1, e2] at h2
  exact ⟨h2.congr fun l hl => by rw [e' l hl], h3⟩

/-- A floating-point S-form of medium latency that no participant traps on. -/
theorem fpScalMedium_wrote {s : State} {o : Ops} {u : Uses} {i : Iss} (h : Issues s o { u with sform := true } i)
    (f : State → Iss → Nat → Word → List Word × FFlags) (l0 : Nat) (ls : List Nat) (hp : i.parts = l0 :: ls) (r : List Word × FFlags)
    (hr : r = f s.reading i l0 (s.thread i.t i.g l0).fpm)
    (ht : fpTrap (i.parts.foldl (fun e l => e ||| fpmTraps (s.thread i.t i.g l).fpm) 0) r.2 = none) :
    ∃ s', fpScal o u true f s = .next s' ∧
      WroteS s (s.reading.addPend ⟨i.t, i.g, true, true, (numbered o.d.toNat r.1).map fun w => (0, w.1, w.2), []⟩) s' i []
        (fun l => some (fpmRaise (s.thread i.t i.g l).fpm r.2)) ∧ Latched s' i none := by
  unfold fpScal
  rw [issue_eq h false _ (by simp)]
  refine ⟨_, rfl, ?_⟩
  have er : f s.reading i l0 (s.reading.thread i.t i.g l0).fpm = r := hr.symm
  have et : fpTrap ((l0 :: ls).foldl (fun e l => e ||| fpmTraps (s.reading.thread i.t i.g l).fpm) 0) r.2 = none := by rw [← hp]; exact ht
  simp only [hp, er, et, if_true]
  have e : ∀ (f : Group → Group) (p : Pend), (s.reading.updGroup i.t i.g f).addPend p = (s.reading.addPend p).updGroup i.t i.g f :=
    fun _ _ => rfl
  rw [e]
  generalize hb : s.reading.addPend _ = b
  have hth : (amapFind? b.teams i.t).isSome := by subst hb; exact State.present_of_run s i.t i.g i.run h.run
  have htm : ∀ t, b.team t = s.team t := by subst hb; exact fun _ => rfl
  refine wroteS_finish (s := s) (b := b) (r := []) (m := fun l => some (fpmRaise (s.thread i.t i.g l).fpm r.2)) _ hth htm (fun l => ?_) (fun l th h1 h2 => ?_) h.run (fun n => ?_) _ _
  · dsimp only
    simp only [amapGet_eq_find, amapFind?_map, State.thread, State.hasLane]
    cases hf : amapFind? (s.group i.t i.g).threads l with
    | none => simp only [Option.map_none, Option.getD_none, Option.isSome_none, Bool.false_eq_true, and_false, if_false]
    | some th =>
      simp only [Option.map_some, Option.getD_some, Option.isSome_some, and_true, hp, List.contains_eq_mem, decide_eq_true_eq]
      by_cases hl : l ∈ l0 :: ls
      · rw [if_pos hl, if_pos hl]
      · rw [if_neg hl, if_neg hl]
  · simp only [amapFind?_map, h1, Option.map_some]
    refine ⟨_, rfl, ?_⟩
    split_ifs <;> exact h2
  · simp [State.readS, Group.readS]

/-! ## Jumps -/

/-- A change of one group that only moves threads and their return stacks. -/
theorem kept_move {s b : State} {i : Iss} (f : Group → Group) (at_ : Nat → Nat) (hb : (amapFind? b.teams i.t).isSome)
    (hg : ∀ t, b.team t = s.team t)
    (hth : ∀ l, ((amapGet {} (f (s.group i.t i.g)).threads l : Thread)).trapCause = (s.thread i.t i.g l).trapCause ∧
      ((amapGet {} (f (s.group i.t i.g)).threads l : Thread)).pc = at_ l)
    (hrd : ∀ l th, amapFind? (s.group i.t i.g).threads l = some th → th.stat = .ready →
      ∃ th', amapFind? (f (s.group i.t i.g)).threads l = some th' ∧ th'.stat = .ready)
    (hR : (f (s.group i.t i.g)).run = some i.run) :
    Kept s b (b.updGroup i.t i.g f) i at_ := by
  have hG (t g : Nat) : b.group t g = s.group t g := by simp only [State.group, hg]
  have hgr (t g : Nat) : (b.updGroup i.t i.g f).group t g = if t = i.t ∧ g = i.g then f (s.group i.t i.g) else s.group t g := by
    simp only [State.group_updGroup, hb, and_true, hG]
  have hthr (t g l : Nat) : (b.updGroup i.t i.g f).thread t g l =
      if t = i.t ∧ g = i.g then amapGet {} (f (s.group i.t i.g)).threads l else s.thread t g l := by
    show amapGet {} ((b.updGroup i.t i.g f).group t g).threads l = _
    rw [hgr]
    by_cases hc : t = i.t ∧ g = i.g
    · rw [if_pos hc, if_pos hc]
    · rw [if_neg hc, if_neg hc]; rfl
  refine ⟨?_, rfl, fun t => ?_, fun t g l => ?_, fun t g l => ?_, fun l => ?_, rfl, by rw [hgr, if_pos ⟨rfl, rfl⟩]; exact hR⟩
  · rw [State.updGroup, State.present_updTeam]; exact hb
  · rw [State.updGroup, State.team_updTeam]
    split_ifs with hc
    · obtain ⟨rfl, -⟩ := hc; rfl
    · rfl
  · rw [hthr]; split_ifs with hc
    · obtain ⟨rfl, rfl⟩ := hc; exact (hth l).1
    · rfl
  · rw [hthr]; split_ifs with hc
    · exact (hth l).2
    · rfl
  · rintro ⟨th, h1, h2⟩
    obtain ⟨th', h3, h4⟩ := hrd l th h1 h2
    exact ⟨th', by rw [hgr, if_pos ⟨rfl, rfl⟩]; exact h3, h4⟩

/-- Threads whose PCs have been set. -/
theorem setPcs_threads (ls : List (Nat × Nat)) (ths : AMap Thread) (l : Nat) :
    let th : Thread := amapGet {} (ls.foldl (fun ths x => amapInsert ths x.1 { (amapGet {} ths x.1 : Thread) with pc := x.2 % 2 ^ 64 }) ths) l
    th = { (amapGet {} ths l : Thread) with pc := ((lastWrite ls l).map (· % 2 ^ 64)).getD (amapGet {} ths l : Thread).pc } := by
  induction ls generalizing ths with
  | nil => rfl
  | cons x ls ih =>
    rw [List.foldl_cons]
    rw [ih, lastWrite_cons]
    by_cases h : l = x.1
    · subst h; simp only [amapGet_insert_same]
      cases lastWrite ls x.1 <;> simp
    · simp only [amapGet_insert_other _ _ _ _ _ h, if_neg (Ne.symm h), Option.or_none]

theorem setPcs_find (ls : List (Nat × Nat)) (ths : AMap Thread) (l : Nat) (th : Thread) (hf : amapFind? ths l = some th)
    (hs : th.stat = .ready) :
    ∃ th', amapFind? (ls.foldl (fun ths x => amapInsert ths x.1 { (amapGet {} ths x.1 : Thread) with pc := x.2 % 2 ^ 64 }) ths) l =
      some th' ∧ th'.stat = .ready := by
  induction ls generalizing ths th with
  | nil => exact ⟨th, hf, hs⟩
  | cons x ls ih =>
    rw [List.foldl_cons]
    by_cases h : l = x.1
    · subst h
      exact ih _ _ (amapFind?_insert_same ..) (by simp only [amapGet_eq_find, hf, Option.getD_some, hs])
    · exact ih _ th (by rw [amapFind?_insert_other _ _ _ _ h]; exact hf) hs

theorem lastWrite_map (ps : List Nat) (f : Nat → Nat) (l : Nat) : lastWrite (ps.map fun l => (l, f l)) l = if l ∈ ps then some (f l) else none := by
  induction ps with
  | nil => rfl
  | cons k ps ih =>
    rw [List.map_cons, lastWrite_cons, ih]
    by_cases h : k = l
    · subst h; by_cases hm : k ∈ ps <;> simp [hm]
    · by_cases hm : l ∈ ps <;> simp [hm, h, Ne.symm h]

/-- A jump of some of the participants. -/
theorem jump_moved {s b : State} {i : Iss} (ps : List Nat) (f : Nat → Nat) (hp : ∀ l ∈ ps, l ∈ i.run.lanes)
    (hb : (amapFind? b.teams i.t).isSome) (hg : ∀ t, b.team t = s.team t) (hR : (s.group i.t i.g).run = some i.run) :
    Moved s b (i.jump b (ps.map fun l => (l, f l))) i (fun l => if l ∈ ps then f l % 2 ^ 64 else i.past s l) ∧
    Uncalled s (i.jump b (ps.map fun l => (l, f l))) ∧ SameRegs s (i.jump b (ps.map fun l => (l, f l))) ∧
    Latched (i.jump b (ps.map fun l => (l, f l))) i none := by
  have hG (t g : Nat) : b.group t g = s.group t g := by simp only [State.group, hg]
  unfold Iss.jump State.setPcs
  have hlw (l : Nat) := lastWrite_map ps f l
  generalize hls : (ps.map fun l => (l, f l)) = ls at hlw
  have hfst : ls.map (·.1) = ps := by subst hls; rw [List.map_map]; exact List.map_id ps
  rw [hfst]
  have hth (l : Nat) := setPcs_threads ls (s.group i.t i.g).threads l
  have k := kept_move (s := s) (b := b) (i := i) (fun gr => { gr with
      threads := ls.foldl (fun ths x => amapInsert ths x.1 { (amapGet {} ths x.1 : Thread) with pc := x.2 % 2 ^ 64 }) gr.threads })
    (fun l => if l ∈ ps then f l % 2 ^ 64 else (s.thread i.t i.g l).pc) hb hg (fun l => by
      dsimp only
      rw [hth l]
      refine ⟨rfl, ?_⟩
      rw [hlw]
      split_ifs <;> rfl) (fun l th h1 h2 => setPcs_find ls _ l th h1 h2) hR
  have hthr (t g l : Nat) : ∃ pc, (b.updGroup i.t i.g fun gr => { gr with
      threads := ls.foldl (fun ths x => amapInsert ths x.1 { (amapGet {} ths x.1 : Thread) with pc := x.2 % 2 ^ 64 }) gr.threads }).thread t g l =
      { s.thread t g l with pc := pc } := by
    simp only [State.thread, State.group_updGroup, hb, and_true]
    split_ifs with hc
    · obtain ⟨rfl, rfl⟩ := hc
      exact ⟨((lastWrite ls l).map (· % 2 ^ 64)).getD (s.thread i.t i.g l).pc, by simp only [hG]; exact hth l⟩
    · exact ⟨(s.thread t g l).pc, by simp only [hG]; rfl⟩
  have hsc (t g : Nat) : ((b.updGroup i.t i.g fun gr => { gr with
      threads := ls.foldl (fun ths x => amapInsert ths x.1 { (amapGet {} ths x.1 : Thread) with pc := x.2 % 2 ^ 64 }) gr.threads }).group t g).s =
      (s.group t g).s := by
    simp only [State.group_updGroup, hb, and_true]
    split_ifs with hc
    · obtain ⟨rfl, rfl⟩ := hc; simp only [hG]
    · simp only [hG]
  generalize (b.updGroup i.t i.g fun gr => { gr with
      threads := ls.foldl (fun ths x => amapInsert ths x.1 { (amapGet {} ths x.1 : Thread) with pc := x.2 % 2 ^ 64 }) gr.threads }) = S at k hthr hsc
  obtain ⟨m, h2, h3, h4⟩ := finish_moved k ps (fun l hl => if_neg fun h => hl (hp l h)) false none
  refine ⟨⟨m.others, m.bodies, m.causes, fun l hl hr => ?_, m.pcs, m.cores, m.lines, m.run⟩, fun t g l => ?_,
    ⟨fun t g l n => ?_, fun t g l n => ?_, fun t g l => ?_, fun t g n => ?_⟩, h4⟩
  · rw [m.pc l hl hr]
    simp only [List.contains_eq_mem, decide_eq_true_eq]
    by_cases h : l ∈ ps
    · rw [if_pos h, if_pos h, if_pos h]
    · rw [if_neg h, if_neg h, if_neg h]; rfl
  · obtain ⟨pc, e⟩ := hthr t g l
    rw [(h2 t g l).2.2.2.1, (h2 t g l).2.2.2.2, e]; exact ⟨rfl, rfl⟩
  · obtain ⟨pc, e⟩ := hthr t g l
    simp only [State.readV, Thread.readV, (h2 t g l).1, e]
  · obtain ⟨pc, e⟩ := hthr t g l
    simp only [State.readP, Thread.readP, (h2 t g l).2.1, e]
  · obtain ⟨pc, e⟩ := hthr t g l
    rw [(h2 t g l).2.2.1, e]
  · simp only [State.readS, Group.readS, h3, hsc]

end Sys2Proof.Machine
end

