-- ==== Sys2Proof/Laws/PerInstr.lean ====
section
/-! SUPPORT. The family LengthBits, constructor by constructor: the two lowest bits of every encoded word name its
length (R148). -/

namespace Sys2Proof.Laws

/-- Bits [1:0] of the word of `i` are the code of its length. -/
def LengthBits.Statement (i : Instr) : Prop :=
  ∀ e, encode i = some e → ∃ len, Len.ofCode (e.2 % 4) = some len ∧ len.bytes = e.1

theorem ofCode_code (l : Len) : Len.ofCode l.code = some l := by cases l <;> rfl

theorem code_lt (l : Len) : l.code < 4 := by cases l <;> decide

theorem bitAt_mod (b : Bool) (k : Nat) (h : 2 ≤ k) : bitAt b k % 4 = 0 := by
  obtain ⟨j, rfl⟩ := Nat.exists_eq_add_of_le h
  cases b <;> simp [bitAt, Nat.pow_add]

theorem word_mod (o : Ops) (c m : Nat) : o.word c m % 4 = o.len.code := by
  have h1 := bitAt_mod o.rb 2 (by decide)
  have h2 := bitAt_mod o.gn 15 (by decide)
  have h3 := bitAt_mod o.nw 24 (by decide)
  have h4 := code_lt o.len
  simp only [Ops.word]
  omega

theorem xword_mod (x : MemX) (l : Len) : x.word l % 4 = 0 := by
  have h1 := bitAt_mod x.d2e 109 (by decide)
  cases l <;> simp only [MemX.word] <;> omega

theorem sword_mod (o : SOps) (c m : Nat) : o.word c m % 4 = 2 := by
  have h1 := bitAt_mod o.cl 103 (by decide)
  have h2 := bitAt_mod o.ru 104 (by decide)
  have h3 := bitAt_mod o.v1 114 (by decide)
  have h4 := bitAt_mod o.v0 121 (by decide)
  simp only [SOps.word]
  omega

theorem encO_length {o : Ops} {c m : Nat} {e : EncWord} (h : encO o c m = some e) :
    ∃ len, Len.ofCode (e.2 % 4) = some len ∧ len.bytes = e.1 := by
  cases h
  exact ⟨o.len, by rw [word_mod, ofCode_code], rfl⟩

theorem encX_length {o : Ops} {x : MemX} {c m : Nat} {e : EncWord} (h : encX o x c m = some e) :
    ∃ len, Len.ofCode (e.2 % 4) = some len ∧ len.bytes = e.1 := by
  cases h
  refine ⟨o.len, ?_, rfl⟩
  show Len.ofCode ((o.word c m + x.word o.len) % 4) = _
  rw [Nat.add_mod, word_mod, xword_mod, Nat.add_zero, Nat.mod_eq_of_lt (code_lt _), ofCode_code]

theorem encS_length {o : SOps} {c m : Nat} {e : EncWord} (h : encS o c m = some e) :
    ∃ len, Len.ofCode (e.2 % 4) = some len ∧ len.bytes = e.1 := by
  cases h
  exact ⟨.w128, by rw [sword_mod]; rfl, rfl⟩

theorem LengthBits.mov a0 a1 : LengthBits.Statement (.mov a0 a1) := fun _ h => encO_length h
theorem LengthBits.movi a0 a1 : LengthBits.Statement (.movi a0 a1) := fun _ h => encO_length h
theorem LengthBits.sel a0 a1 a2 a3 : LengthBits.Statement (.sel a0 a1 a2 a3) := fun _ h => encO_length h
theorem LengthBits.iadd a0 a1 a2 a3 : LengthBits.Statement (.iadd a0 a1 a2 a3) := fun _ h => encO_length h
theorem LengthBits.isub a0 a1 a2 a3 : LengthBits.Statement (.isub a0 a1 a2 a3) := fun _ h => encO_length h
theorem LengthBits.iabs a0 a1 : LengthBits.Statement (.iabs a0 a1) := fun _ h => encO_length h
theorem LengthBits.ineg a0 a1 : LengthBits.Statement (.ineg a0 a1) := fun _ h => encO_length h
theorem LengthBits.imin a0 a1 a2 : LengthBits.Statement (.imin a0 a1 a2) := fun _ h => encO_length h
theorem LengthBits.imax a0 a1 a2 : LengthBits.Statement (.imax a0 a1 a2) := fun _ h => encO_length h
theorem LengthBits.iadd64 a0 a1 a2 a3 a4 : LengthBits.Statement (.iadd64 a0 a1 a2 a3 a4) := fun _ h => encO_length h
theorem LengthBits.imul a0 a1 a2 a3 : LengthBits.Statement (.imul a0 a1 a2 a3) := fun _ h => encO_length h
theorem LengthBits.imulh a0 a1 : LengthBits.Statement (.imulh a0 a1) := fun _ h => encO_length h
theorem LengthBits.imad a0 a1 a2 a3 : LengthBits.Statement (.imad a0 a1 a2 a3) := fun _ h => encO_length h
theorem LengthBits.imadw a0 a1 a2 : LengthBits.Statement (.imadw a0 a1 a2) := fun _ h => encO_length h
theorem LengthBits.and a0 a1 : LengthBits.Statement (.and a0 a1) := fun _ h => encO_length h
theorem LengthBits.or a0 a1 : LengthBits.Statement (.or a0 a1) := fun _ h => encO_length h
theorem LengthBits.xor a0 a1 : LengthBits.Statement (.xor a0 a1) := fun _ h => encO_length h
theorem LengthBits.not a0 : LengthBits.Statement (.not a0) := fun _ h => encO_length h
theorem LengthBits.lgc3 a0 a1 : LengthBits.Statement (.lgc3 a0 a1) := fun _ h => encO_length h
theorem LengthBits.shl a0 a1 a2 : LengthBits.Statement (.shl a0 a1 a2) := fun _ h => encO_length h
theorem LengthBits.shr a0 a1 a2 : LengthBits.Statement (.shr a0 a1 a2) := fun _ h => encO_length h
theorem LengthBits.sar a0 a1 : LengthBits.Statement (.sar a0 a1) := fun _ h => encO_length h
theorem LengthBits.rot a0 : LengthBits.Statement (.rot a0) := fun _ h => encO_length h
theorem LengthBits.fshf a0 a1 : LengthBits.Statement (.fshf a0 a1) := fun _ h => encO_length h
theorem LengthBits.bfe a0 a1 : LengthBits.Statement (.bfe a0 a1) := fun _ h => encO_length h
theorem LengthBits.bfi a0 : LengthBits.Statement (.bfi a0) := fun _ h => encO_length h
theorem LengthBits.popc a0 : LengthBits.Statement (.popc a0) := fun _ h => encO_length h
theorem LengthBits.clz a0 : LengthBits.Statement (.clz a0) := fun _ h => encO_length h
theorem LengthBits.brev a0 : LengthBits.Statement (.brev a0) := fun _ h => encO_length h
theorem LengthBits.bysel a0 : LengthBits.Statement (.bysel a0) := fun _ h => encO_length h
theorem LengthBits.lea a0 a1 a2 : LengthBits.Statement (.lea a0 a1 a2) := fun _ h => encO_length h
theorem LengthBits.isetp a0 a1 a2 a3 a4 a5 : LengthBits.Statement (.isetp a0 a1 a2 a3 a4 a5) := fun _ h => encO_length h
theorem LengthBits.fsetp a0 a1 a2 a3 a4 a5 : LengthBits.Statement (.fsetp a0 a1 a2 a3 a4 a5) := fun _ h => encO_length h
theorem LengthBits.iaddP a0 a1 : LengthBits.Statement (.iaddP a0 a1) := fun _ h => encO_length h
theorem LengthBits.isubP a0 a1 : LengthBits.Statement (.isubP a0 a1) := fun _ h => encO_length h
theorem LengthBits.imulP a0 a1 : LengthBits.Statement (.imulP a0 a1) := fun _ h => encO_length h
theorem LengthBits.lgc3P a0 a1 : LengthBits.Statement (.lgc3P a0 a1) := fun _ h => encO_length h
theorem LengthBits.plop a0 a1 a2 a3 : LengthBits.Statement (.plop a0 a1 a2 a3) := fun _ h => encO_length h
theorem LengthBits.pmov a0 : LengthBits.Statement (.pmov a0) := fun _ h => encO_length h
theorem LengthBits.pmovP a0 a1 : LengthBits.Statement (.pmovP a0 a1) := fun _ h => encO_length h
theorem LengthBits.bra a0 : LengthBits.Statement (.bra a0) := fun _ h => encO_length h
theorem LengthBits.braAny a0 a1 a2 : LengthBits.Statement (.braAny a0 a1 a2) := fun _ h => encO_length h
theorem LengthBits.braAll a0 a1 a2 : LengthBits.Statement (.braAll a0 a1 a2) := fun _ h => encO_length h
theorem LengthBits.brx a0 : LengthBits.Statement (.brx a0) := fun _ h => encO_length h
theorem LengthBits.call a0 : LengthBits.Statement (.call a0) := fun _ h => encO_length h
theorem LengthBits.callx a0 : LengthBits.Statement (.callx a0) := fun _ h => encO_length h
theorem LengthBits.ret a0 : LengthBits.Statement (.ret a0) := fun _ h => encO_length h
theorem LengthBits.exit a0 : LengthBits.Statement (.exit a0) := fun _ h => encO_length h
theorem LengthBits.conv a0 : LengthBits.Statement (.conv a0) := fun _ h => encO_length h
theorem LengthBits.nop a0 : LengthBits.Statement (.nop a0) := fun _ h => encO_length h
theorem LengthBits.pause a0 : LengthBits.Statement (.pause a0) := fun _ h => encO_length h
theorem LengthBits.sread a0 a1 a2 : LengthBits.Statement (.sread a0 a1 a2) := fun _ h => encO_length h
theorem LengthBits.sreadW a0 a1 : LengthBits.Statement (.sreadW a0 a1) := fun _ h => encO_length h
theorem LengthBits.swrite a0 a1 : LengthBits.Statement (.swrite a0 a1) := fun _ h => encO_length h
theorem LengthBits.launch a0 : LengthBits.Statement (.launch a0) := fun _ h => encO_length h
theorem LengthBits.prog a0 : LengthBits.Statement (.prog a0) := fun _ h => encO_length h
theorem LengthBits.lxchIdx a0 a1 a2 : LengthBits.Statement (.lxchIdx a0 a1 a2) := fun _ h => encO_length h
theorem LengthBits.lxchRot a0 a1 a2 : LengthBits.Statement (.lxchRot a0 a1 a2) := fun _ h => encO_length h
theorem LengthBits.lxchRev a0 a1 a2 : LengthBits.Statement (.lxchRev a0 a1 a2) := fun _ h => encO_length h
theorem LengthBits.lxchXor a0 a1 a2 : LengthBits.Statement (.lxchXor a0 a1 a2) := fun _ h => encO_length h
theorem LengthBits.lxchS a0 a1 : LengthBits.Statement (.lxchS a0 a1) := fun _ h => encO_length h
theorem LengthBits.lqryAll a0 a1 a2 : LengthBits.Statement (.lqryAll a0 a1 a2) := fun _ h => encO_length h
theorem LengthBits.lqryAny a0 a1 a2 : LengthBits.Statement (.lqryAny a0 a1 a2) := fun _ h => encO_length h
theorem LengthBits.lqrySame a0 a1 a2 : LengthBits.Statement (.lqrySame a0 a1 a2) := fun _ h => encO_length h
theorem LengthBits.lgath a0 a1 a2 a3 a4 : LengthBits.Statement (.lgath a0 a1 a2 a3 a4) := fun _ h => encO_length h
theorem LengthBits.match_ a0 a1 : LengthBits.Statement (.match_ a0 a1) := fun _ h => encO_length h
theorem LengthBits.redl a0 a1 a2 a3 a4 : LengthBits.Statement (.redl a0 a1 a2 a3 a4) := fun _ h => encO_length h
theorem LengthBits.redlF a0 a1 a2 : LengthBits.Statement (.redlF a0 a1 a2) := fun _ h => encO_length h
theorem LengthBits.fadd a0 a1 a2 a3 : LengthBits.Statement (.fadd a0 a1 a2 a3) := fun _ h => encO_length h
theorem LengthBits.fsub a0 a1 a2 a3 : LengthBits.Statement (.fsub a0 a1 a2 a3) := fun _ h => encO_length h
theorem LengthBits.fmul a0 a1 a2 a3 : LengthBits.Statement (.fmul a0 a1 a2 a3) := fun _ h => encO_length h
theorem LengthBits.ffma a0 a1 a2 a3 : LengthBits.Statement (.ffma a0 a1 a2 a3) := fun _ h => encO_length h
theorem LengthBits.fmin a0 a1 a2 a3 : LengthBits.Statement (.fmin a0 a1 a2 a3) := fun _ h => encO_length h
theorem LengthBits.fmax a0 a1 a2 a3 : LengthBits.Statement (.fmax a0 a1 a2 a3) := fun _ h => encO_length h
theorem LengthBits.fdp2 a0 a1 a2 : LengthBits.Statement (.fdp2 a0 a1 a2) := fun _ h => encO_length h
theorem LengthBits.frnd a0 a1 a2 a3 : LengthBits.Statement (.frnd a0 a1 a2 a3) := fun _ h => encO_length h
theorem LengthBits.fclass a0 a1 : LengthBits.Statement (.fclass a0 a1) := fun _ h => encO_length h
theorem LengthBits.fclassP a0 a1 : LengthBits.Statement (.fclassP a0 a1) := fun _ h => encO_length h
theorem LengthBits.frcp a0 a1 a2 a3 : LengthBits.Statement (.frcp a0 a1 a2 a3) := fun _ h => encO_length h
theorem LengthBits.frsq a0 a1 a2 a3 : LengthBits.Statement (.frsq a0 a1 a2 a3) := fun _ h => encO_length h
theorem LengthBits.fsqrt a0 a1 a2 a3 : LengthBits.Statement (.fsqrt a0 a1 a2 a3) := fun _ h => encO_length h
theorem LengthBits.fexp2 a0 a1 a2 a3 : LengthBits.Statement (.fexp2 a0 a1 a2 a3) := fun _ h => encO_length h
theorem LengthBits.flog2 a0 a1 a2 a3 : LengthBits.Statement (.flog2 a0 a1 a2 a3) := fun _ h => encO_length h
theorem LengthBits.fsin a0 a1 a2 a3 : LengthBits.Statement (.fsin a0 a1 a2 a3) := fun _ h => encO_length h
theorem LengthBits.fcos a0 a1 a2 a3 : LengthBits.Statement (.fcos a0 a1 a2 a3) := fun _ h => encO_length h
theorem LengthBits.frcpIeee a0 a1 : LengthBits.Statement (.frcpIeee a0 a1) := fun _ h => encO_length h
theorem LengthBits.fsqrtIeee a0 a1 : LengthBits.Statement (.fsqrtIeee a0 a1) := fun _ h => encO_length h
theorem LengthBits.cvt a0 a1 a2 a3 a4 a5 a6 : LengthBits.Statement (.cvt a0 a1 a2 a3 a4 a5 a6) := fun _ h => encO_length h
theorem LengthBits.cvq2 a0 a1 a2 : LengthBits.Statement (.cvq2 a0 a1 a2) := fun _ h => encO_length h
theorem LengthBits.cvq4 a0 a1 a2 : LengthBits.Statement (.cvq4 a0 a1 a2) := fun _ h => encO_length h
theorem LengthBits.cvq8 a0 a1 : LengthBits.Statement (.cvq8 a0 a1) := fun _ h => encO_length h
theorem LengthBits.cvx2 a0 a1 : LengthBits.Statement (.cvx2 a0 a1) := fun _ h => encO_length h
theorem LengthBits.cvx4 a0 a1 : LengthBits.Statement (.cvx4 a0 a1) := fun _ h => encO_length h
theorem LengthBits.cvx8 a0 a1 : LengthBits.Statement (.cvx8 a0 a1) := fun _ h => encO_length h
theorem LengthBits.ldg a0 a1 a2 : LengthBits.Statement (.ldg a0 a1 a2) := fun _ h => encX_length h
theorem LengthBits.stg a0 a1 a2 : LengthBits.Statement (.stg a0 a1 a2) := fun _ h => encX_length h
theorem LengthBits.ldp a0 a1 a2 : LengthBits.Statement (.ldp a0 a1 a2) := fun _ h => encX_length h
theorem LengthBits.stp a0 a1 a2 : LengthBits.Statement (.stp a0 a1 a2) := fun _ h => encX_length h
theorem LengthBits.lds a0 a1 a2 : LengthBits.Statement (.lds a0 a1 a2) := fun _ h => encX_length h
theorem LengthBits.sts a0 a1 a2 : LengthBits.Statement (.sts a0 a1 a2) := fun _ h => encX_length h
theorem LengthBits.ldx a0 a1 a2 : LengthBits.Statement (.ldx a0 a1 a2) := fun _ h => encX_length h
theorem LengthBits.stx a0 a1 a2 : LengthBits.Statement (.stx a0 a1 a2) := fun _ h => encX_length h
theorem LengthBits.ldf a0 a1 a2 : LengthBits.Statement (.ldf a0 a1 a2) := fun _ h => encX_length h
theorem LengthBits.stf a0 a1 a2 : LengthBits.Statement (.stf a0 a1 a2) := fun _ h => encX_length h
theorem LengthBits.ldw a0 a1 a2 : LengthBits.Statement (.ldw a0 a1 a2) := fun _ h => encX_length h
theorem LengthBits.stw a0 a1 a2 : LengthBits.Statement (.stw a0 a1 a2) := fun _ h => encX_length h
theorem LengthBits.ldk a0 a1 a2 : LengthBits.Statement (.ldk a0 a1 a2) := fun _ h => encX_length h
theorem LengthBits.ldsS a0 a1 a2 : LengthBits.Statement (.ldsS a0 a1 a2) := fun _ h => encX_length h
theorem LengthBits.pfg a0 a1 a2 : LengthBits.Statement (.pfg a0 a1 a2) := fun _ h => encX_length h
theorem LengthBits.stew a0 a1 a2 : LengthBits.Statement (.stew a0 a1 a2) := fun _ h => encX_length h
theorem LengthBits.atomg a0 a1 a2 a3 a4 a5 a6 : LengthBits.Statement (.atomg a0 a1 a2 a3 a4 a5 a6) := fun _ h => encX_length h
theorem LengthBits.atomgCas a0 a1 a2 a3 a4 : LengthBits.Statement (.atomgCas a0 a1 a2 a3 a4) := fun _ h => encX_length h
theorem LengthBits.atomgF a0 a1 a2 a3 a4 a5 : LengthBits.Statement (.atomgF a0 a1 a2 a3 a4 a5) := fun _ h => encX_length h
theorem LengthBits.redg a0 a1 a2 a3 a4 a5 : LengthBits.Statement (.redg a0 a1 a2 a3 a4 a5) := fun _ h => encX_length h
theorem LengthBits.redgF a0 a1 a2 a3 a4 : LengthBits.Statement (.redgF a0 a1 a2 a3 a4) := fun _ h => encX_length h
theorem LengthBits.atoms a0 a1 a2 a3 : LengthBits.Statement (.atoms a0 a1 a2 a3) := fun _ h => encX_length h
theorem LengthBits.atomx a0 a1 a2 a3 : LengthBits.Statement (.atomx a0 a1 a2 a3) := fun _ h => encX_length h
theorem LengthBits.lda a0 a1 a2 : LengthBits.Statement (.lda a0 a1 a2) := fun _ h => encX_length h
theorem LengthBits.stl a0 a1 a2 : LengthBits.Statement (.stl a0 a1 a2) := fun _ h => encX_length h
theorem LengthBits.fence a0 a1 : LengthBits.Statement (.fence a0 a1) := fun _ h => encX_length h
theorem LengthBits.fencex a0 a1 a2 a3 : LengthBits.Statement (.fencex a0 a1 a2 a3) := fun _ h => encX_length h
theorem LengthBits.barrive a0 a1 a2 : LengthBits.Statement (.barrive a0 a1 a2) := fun _ h => encX_length h
theorem LengthBits.bwait a0 a1 a2 : LengthBits.Statement (.bwait a0 a1 a2) := fun _ h => encX_length h
theorem LengthBits.bsync a0 a1 a2 : LengthBits.Statement (.bsync a0 a1 a2) := fun _ h => encX_length h
theorem LengthBits.barrd a0 a1 a2 : LengthBits.Statement (.barrd a0 a1 a2) := fun _ h => encX_length h
theorem LengthBits.binit a0 a1 a2 : LengthBits.Statement (.binit a0 a1 a2) := fun _ h => encX_length h
theorem LengthBits.balloc a0 a1 : LengthBits.Statement (.balloc a0 a1) := fun _ h => encX_length h
theorem LengthBits.bfree a0 a1 : LengthBits.Statement (.bfree a0 a1) := fun _ h => encX_length h
theorem LengthBits.rowbook a0 a1 a2 a3 a4 : LengthBits.Statement (.rowbook a0 a1 a2 a3 a4) := fun _ h => encX_length h
theorem LengthBits.rowjoin a0 a1 a2 : LengthBits.Statement (.rowjoin a0 a1 a2) := fun _ h => encX_length h
theorem LengthBits.rowfree a0 a1 : LengthBits.Statement (.rowfree a0 a1) := fun _ h => encX_length h
theorem LengthBits.tlbiPage a0 a1 : LengthBits.Statement (.tlbiPage a0 a1) := fun _ h => encX_length h
theorem LengthBits.tlbiSpace a0 a1 : LengthBits.Statement (.tlbiSpace a0 a1) := fun _ h => encX_length h
theorem LengthBits.tlbiAll a0 a1 : LengthBits.Statement (.tlbiAll a0 a1) := fun _ h => encX_length h
theorem LengthBits.msvtx a0 : LengthBits.Statement (.msvtx a0) := fun _ h => encO_length h
theorem LengthBits.msvtxB128 a0 : LengthBits.Statement (.msvtxB128 a0) := fun _ h => encO_length h
theorem LengthBits.msprim a0 : LengthBits.Statement (.msprim a0) := fun _ h => encO_length h
theorem LengthBits.mscount a0 : LengthBits.Statement (.mscount a0) := fun _ h => encO_length h
theorem LengthBits.interp a0 a1 a2 : LengthBits.Statement (.interp a0 a1 a2) := fun _ h => encO_length h
theorem LengthBits.derivX a0 a1 : LengthBits.Statement (.derivX a0 a1) := fun _ h => encO_length h
theorem LengthBits.derivY a0 a1 : LengthBits.Statement (.derivY a0 a1) := fun _ h => encO_length h
theorem LengthBits.fragexp a0 : LengthBits.Statement (.fragexp a0) := fun _ h => encO_length h
theorem LengthBits.fragexpZ a0 : LengthBits.Statement (.fragexpZ a0) := fun _ h => encO_length h
theorem LengthBits.fragkill a0 : LengthBits.Statement (.fragkill a0) := fun _ h => encO_length h
theorem LengthBits.rocbeg a0 : LengthBits.Statement (.rocbeg a0) := fun _ h => encO_length h
theorem LengthBits.rocend a0 : LengthBits.Statement (.rocend a0) := fun _ h => encO_length h
theorem LengthBits.tex a0 : LengthBits.Statement (.tex a0) := fun _ h => encO_length h
theorem LengthBits.texL a0 : LengthBits.Statement (.texL a0) := fun _ h => encO_length h
theorem LengthBits.texG a0 : LengthBits.Statement (.texG a0) := fun _ h => encO_length h
theorem LengthBits.texld a0 : LengthBits.Statement (.texld a0) := fun _ h => encO_length h
theorem LengthBits.texq a0 : LengthBits.Statement (.texq a0) := fun _ h => encO_length h
theorem LengthBits.satom a0 a1 a2 a3 a4 a5 a6 : LengthBits.Statement (.satom a0 a1 a2 a3 a4 a5 a6) := fun _ h => encX_length h
theorem LengthBits.satomCas a0 a1 a2 a3 : LengthBits.Statement (.satomCas a0 a1 a2 a3) := fun _ h => encX_length h
theorem LengthBits.cpgather a0 a1 a2 a3 : LengthBits.Statement (.cpgather a0 a1 a2 a3) := fun _ h => encX_length h
theorem LengthBits.cpscatter a0 a1 a2 a3 : LengthBits.Statement (.cpscatter a0 a1 a2 a3) := fun _ h => encX_length h
theorem LengthBits.cpscatterAdd a0 a1 a2 a3 : LengthBits.Statement (.cpscatterAdd a0 a1 a2 a3) := fun _ h => encX_length h
theorem LengthBits.cpwait a0 a1 a2 : LengthBits.Statement (.cpwait a0 a1 a2) := fun _ h => encX_length h
theorem LengthBits.cptest a0 a1 a2 : LengthBits.Statement (.cptest a0 a1 a2) := fun _ h => encX_length h
theorem LengthBits.cpclr a0 a1 a2 : LengthBits.Statement (.cpclr a0 a1 a2) := fun _ h => encX_length h
theorem LengthBits.cpsrcw a0 a1 : LengthBits.Statement (.cpsrcw a0 a1) := fun _ h => encX_length h
theorem LengthBits.mput a0 a1 : LengthBits.Statement (.mput a0 a1) := fun _ h => encO_length h
theorem LengthBits.mld a0 : LengthBits.Statement (.mld a0) := fun _ h => encS_length h
theorem LengthBits.mldV a0 a1 : LengthBits.Statement (.mldV a0 a1) := fun _ h => encS_length h
theorem LengthBits.mma a0 a1 a2 a3 : LengthBits.Statement (.mma a0 a1 a2 a3) := fun _ h => encS_length h
theorem LengthBits.mmq a0 a1 a2 a3 : LengthBits.Statement (.mmq a0 a1 a2 a3) := fun _ h => encS_length h
theorem LengthBits.mmqP a0 a1 a2 a3 : LengthBits.Statement (.mmqP a0 a1 a2 a3) := fun _ h => encS_length h
theorem LengthBits.mmi a0 a1 a2 a3 : LengthBits.Statement (.mmi a0 a1 a2 a3) := fun _ h => encS_length h
theorem LengthBits.mclr a0 a1 : LengthBits.Statement (.mclr a0 a1) := fun _ h => encS_length h
theorem LengthBits.mst a0 a1 a2 a3 a4 : LengthBits.Statement (.mst a0 a1 a2 a3 a4) := fun _ h => encS_length h
theorem LengthBits.mstV a0 a1 a2 a3 a4 : LengthBits.Statement (.mstV a0 a1 a2 a3 a4) := fun _ h => encS_length h
theorem LengthBits.mbar a0 : LengthBits.Statement (.mbar a0) := fun _ h => encS_length h
theorem LengthBits.mbw a0 : LengthBits.Statement (.mbw a0) := fun _ h => encS_length h
theorem LengthBits.mnop a0 : LengthBits.Statement (.mnop a0) := fun _ h => encS_length h
theorem LengthBits.msetImm a0 : LengthBits.Statement (.msetImm a0) := fun _ h => encS_length h
theorem LengthBits.msetHi a0 : LengthBits.Statement (.msetHi a0) := fun _ h => encS_length h
theorem LengthBits.msetArg a0 : LengthBits.Statement (.msetArg a0) := fun _ h => encS_length h
theorem LengthBits.msetArghi a0 : LengthBits.Statement (.msetArghi a0) := fun _ h => encS_length h
theorem LengthBits.msetSr a0 : LengthBits.Statement (.msetSr a0) := fun _ h => encS_length h
theorem LengthBits.msetC a0 : LengthBits.Statement (.msetC a0) := fun _ h => encS_length h
theorem LengthBits.maddk a0 : LengthBits.Statement (.maddk a0) := fun _ h => encS_length h
theorem LengthBits.mloop a0 : LengthBits.Statement (.mloop a0) := fun _ h => encS_length h
theorem LengthBits.mjmp a0 : LengthBits.Statement (.mjmp a0) := fun _ h => encS_length h
theorem LengthBits.mend a0 : LengthBits.Statement (.mend a0) := fun _ h => encS_length h
theorem LengthBits.trap a0 : LengthBits.Statement (.trap a0) := fun _ h => encO_length h
theorem LengthBits.trapLegacy a0 : LengthBits.Statement (.trapLegacy a0) := fun _ h => encO_length h
theorem LengthBits.bkpt a0 : LengthBits.Statement (.bkpt a0) := fun _ h => encO_length h
theorem LengthBits.rtt a0 : LengthBits.Statement (.rtt a0) := fun _ h => encO_length h
theorem LengthBits.haltt a0 : LengthBits.Statement (.haltt a0) := fun _ h => encO_length h
theorem LengthBits.gbread a0 a1 : LengthBits.Statement (.gbread a0 a1) := fun _ h => encO_length h
theorem LengthBits.pkrd a0 : LengthBits.Statement (.pkrd a0) := fun _ h => encO_length h
theorem LengthBits.pkwr a0 : LengthBits.Statement (.pkwr a0) := fun _ h => encO_length h
theorem LengthBits.resume a0 : LengthBits.Statement (.resume a0) := fun _ h => encO_length h
theorem LengthBits.resumeSkip a0 : LengthBits.Statement (.resumeSkip a0) := fun _ h => encO_length h
theorem LengthBits.killt a0 : LengthBits.Statement (.killt a0) := fun _ h => encO_length h
theorem LengthBits.killtG a0 : LengthBits.Statement (.killtG a0) := fun _ h => encO_length h
theorem LengthBits.loadResultLand a0 : LengthBits.Statement (.loadResultLand a0) := nofun
theorem LengthBits.mediumResultReady a0 : LengthBits.Statement (.mediumResultReady a0) := nofun
theorem LengthBits.convRelease a0 a1 : LengthBits.Statement (.convRelease a0 a1) := nofun
theorem LengthBits.barrierWaitComplete a0 a1 a2 : LengthBits.Statement (.barrierWaitComplete a0 a1 a2) := nofun
theorem LengthBits.barrdArrivalPerform a0 a1 : LengthBits.Statement (.barrdArrivalPerform a0 a1) := nofun
theorem LengthBits.cpwaitComplete a0 a1 a2 : LengthBits.Statement (.cpwaitComplete a0 a1 a2) := nofun
theorem LengthBits.cpsrcwComplete a0 a1 a2 : LengthBits.Statement (.cpsrcwComplete a0 a1 a2) := nofun
theorem LengthBits.presenceWaitComplete a0 a1 a2 : LengthBits.Statement (.presenceWaitComplete a0 a1 a2) := nofun
theorem LengthBits.pauseExpiry a0 a1 a2 : LengthBits.Statement (.pauseExpiry a0 a1 a2) := nofun
theorem LengthBits.syncAccessComplete a0 a1 a2 : LengthBits.Statement (.syncAccessComplete a0 a1 a2) := nofun
theorem LengthBits.rowOpenComplete a0 a1 a2 : LengthBits.Statement (.rowOpenComplete a0 a1 a2) := nofun
theorem LengthBits.rocSectionEnter a0 a1 a2 : LengthBits.Statement (.rocSectionEnter a0 a1 a2) := nofun
theorem LengthBits.rocTimeout a0 a1 : LengthBits.Statement (.rocTimeout a0 a1) := nofun
theorem LengthBits.rocPreemptTimeout a0 : LengthBits.Statement (.rocPreemptTimeout a0) := nofun
theorem LengthBits.contextBind a0 a1 a2 : LengthBits.Statement (.contextBind a0 a1 a2) := nofun
theorem LengthBits.porterSlotTake a0 : LengthBits.Statement (.porterSlotTake a0) := nofun
theorem LengthBits.fetchBlockFill a0 a1 : LengthBits.Statement (.fetchBlockFill a0 a1) := nofun
theorem LengthBits.teamEnd a0 : LengthBits.Statement (.teamEnd a0) := nofun
theorem LengthBits.fill a0 a1 a2 a3 : LengthBits.Statement (.fill a0 a1 a2 a3) := nofun
theorem LengthBits.filld a0 a1 a2 a3 a4 a5 a6 a7 : LengthBits.Statement (.filld a0 a1 a2 a3 a4 a5 a6 a7) := nofun
theorem LengthBits.mprobe a0 a1 : LengthBits.Statement (.mprobe a0 a1) := nofun
theorem LengthBits.mrep a0 a1 a2 a3 : LengthBits.Statement (.mrep a0 a1 a2 a3) := nofun
theorem LengthBits.intent a0 a1 a2 a3 a4 : LengthBits.Statement (.intent a0 a1 a2 a3 a4) := nofun
theorem LengthBits.mark a0 a1 a2 : LengthBits.Statement (.mark a0 a1 a2) := nofun
theorem LengthBits.markr a0 a1 a2 a3 : LengthBits.Statement (.markr a0 a1 a2 a3) := nofun
theorem LengthBits.grant a0 a1 a2 : LengthBits.Statement (.grant a0 a1 a2) := nofun
theorem LengthBits.rnack a0 a1 a2 : LengthBits.Statement (.rnack a0 a1 a2) := nofun
theorem LengthBits.wb a0 a1 a2 a3 a4 a5 a6 a7 a8 : LengthBits.Statement (.wb a0 a1 a2 a3 a4 a5 a6 a7 a8) := nofun
theorem LengthBits.wback a0 a1 a2 : LengthBits.Statement (.wback a0 a1 a2) := nofun
theorem LengthBits.recall a0 a1 : LengthBits.Statement (.recall a0 a1) := nofun
theorem LengthBits.darn a0 a1 a2 a3 : LengthBits.Statement (.darn a0 a1 a2 a3) := nofun
theorem LengthBits.darnack a0 a1 a2 a3 : LengthBits.Statement (.darnack a0 a1 a2 a3) := nofun
theorem LengthBits.inv a0 a1 a2 : LengthBits.Statement (.inv a0 a1 a2) := nofun
theorem LengthBits.invack a0 a1 : LengthBits.Statement (.invack a0 a1) := nofun
theorem LengthBits.publish a0 a1 a2 a3 : LengthBits.Statement (.publish a0 a1 a2 a3) := nofun
theorem LengthBits.puback a0 a1 a2 a3 : LengthBits.Statement (.puback a0 a1 a2 a3) := nofun
theorem LengthBits.hop a0 : LengthBits.Statement (.hop a0) := nofun
theorem LengthBits.hopr a0 : LengthBits.Statement (.hopr a0) := nofun
theorem LengthBits.rstore a0 : LengthBits.Statement (.rstore a0) := nofun
theorem LengthBits.rfwd a0 a1 : LengthBits.Statement (.rfwd a0 a1) := nofun
theorem LengthBits.rpack a0 a1 : LengthBits.Statement (.rpack a0 a1) := nofun
theorem LengthBits.rcommit a0 a1 : LengthBits.Statement (.rcommit a0 a1) := nofun
theorem LengthBits.pageWalk a0 a1 a2 a3 a4 : LengthBits.Statement (.pageWalk a0 a1 a2 a3 a4) := nofun
theorem LengthBits.shootdownComplete a0 : LengthBits.Statement (.shootdownComplete a0) := nofun
theorem LengthBits.lodgingRequestPost a0 : LengthBits.Statement (.lodgingRequestPost a0) := nofun
theorem LengthBits.lgrantGranted a0 a1 : LengthBits.Statement (.lgrantGranted a0 a1) := nofun
theorem LengthBits.lgrantRefused a0 a1 : LengthBits.Statement (.lgrantRefused a0 a1) := nofun
theorem LengthBits.lgrantReleaseAck a0 a1 : LengthBits.Statement (.lgrantReleaseAck a0 a1) := nofun
theorem LengthBits.sequencerFetch a0 : LengthBits.Statement (.sequencerFetch a0) := nofun
theorem LengthBits.mbwRetire a0 a1 : LengthBits.Statement (.mbwRetire a0 a1) := nofun
theorem LengthBits.commandRetire a0 a1 : LengthBits.Statement (.commandRetire a0 a1) := nofun
theorem LengthBits.copyElementMove a0 a1 : LengthBits.Statement (.copyElementMove a0 a1) := nofun
theorem LengthBits.copyChunkLand a0 a1 a2 : LengthBits.Statement (.copyChunkLand a0 a1 a2) := nofun
theorem LengthBits.copySourceRelease a0 a1 : LengthBits.Statement (.copySourceRelease a0 a1) := nofun
theorem LengthBits.surfaceAllocate a0 : LengthBits.Statement (.surfaceAllocate a0) := nofun
theorem LengthBits.surfaceReleaseComplete a0 : LengthBits.Statement (.surfaceReleaseComplete a0) := nofun
theorem LengthBits.pressSpillStart a0 a1 a2 : LengthBits.Statement (.pressSpillStart a0 a1 a2) := nofun
theorem LengthBits.spillComplete a0 a1 : LengthBits.Statement (.spillComplete a0 a1) := nofun
theorem LengthBits.fillComplete a0 a1 : LengthBits.Statement (.fillComplete a0 a1) := nofun
theorem LengthBits.frameAgeTick : LengthBits.Statement (.frameAgeTick) := nofun
theorem LengthBits.bankGrant a0 a1 a2 : LengthBits.Statement (.bankGrant a0 a1 a2) := nofun
theorem LengthBits.coverageToken a0 : LengthBits.Statement (.coverageToken a0) := nofun
theorem LengthBits.quadRetire a0 : LengthBits.Statement (.quadRetire a0) := nofun
theorem LengthBits.primitiveEmit a0 : LengthBits.Statement (.primitiveEmit a0) := nofun
theorem LengthBits.rasterisePrimitive a0 : LengthBits.Statement (.rasterisePrimitive a0) := nofun
theorem LengthBits.fragmentGroupLaunch a0 a1 a2 : LengthBits.Statement (.fragmentGroupLaunch a0 a1 a2) := nofun
theorem LengthBits.domainRetentionEnter a0 a1 : LengthBits.Statement (.domainRetentionEnter a0 a1) := nofun
theorem LengthBits.domainWake a0 a1 : LengthBits.Statement (.domainWake a0 a1) := nofun
theorem LengthBits.domainOff a0 a1 a2 : LengthBits.Statement (.domainOff a0 a1 a2) := nofun
theorem LengthBits.domainOn a0 a1 : LengthBits.Statement (.domainOn a0 a1) := nofun
theorem LengthBits.debugSurfaceRead a0 a1 : LengthBits.Statement (.debugSurfaceRead a0 a1) := nofun
theorem LengthBits.rowRefreshClose a0 a1 : LengthBits.Statement (.rowRefreshClose a0 a1) := nofun
theorem LengthBits.rowRefreshReopen a0 a1 : LengthBits.Statement (.rowRefreshReopen a0 a1) := nofun
theorem LengthBits.memoryPatrol a0 a1 a2 a3 a4 : LengthBits.Statement (.memoryPatrol a0 a1 a2 a3 a4) := nofun
theorem LengthBits.clusterPlace a0 : LengthBits.Statement (.clusterPlace a0) := nofun
theorem LengthBits.framePreempt a0 : LengthBits.Statement (.framePreempt a0) := nofun
theorem LengthBits.normalReservation a0 : LengthBits.Statement (.normalReservation a0) := nofun
theorem LengthBits.preemptSave a0 : LengthBits.Statement (.preemptSave a0) := nofun
theorem LengthBits.teamRestore a0 a1 : LengthBits.Statement (.teamRestore a0 a1) := nofun
theorem LengthBits.gridComplete a0 : LengthBits.Statement (.gridComplete a0) := nofun
theorem LengthBits.porterWake a0 : LengthBits.Statement (.porterWake a0) := nofun
theorem LengthBits.blockTranslate a0 a1 a2 a3 : LengthBits.Statement (.blockTranslate a0 a1 a2 a3) := nofun
theorem LengthBits.ringDoorbell a0 : LengthBits.Statement (.ringDoorbell a0) := nofun
theorem LengthBits.hrctlWrite a0 : LengthBits.Statement (.hrctlWrite a0) := nofun
theorem LengthBits.ringNop : LengthBits.Statement (.ringNop) := nofun
theorem LengthBits.ringLaunch : LengthBits.Statement (.ringLaunch) := nofun
theorem LengthBits.ringTlbi : LengthBits.Statement (.ringTlbi) := nofun
theorem LengthBits.ringCancel : LengthBits.Statement (.ringCancel) := nofun
theorem LengthBits.ringUnknownOp : LengthBits.Statement (.ringUnknownOp) := nofun
theorem LengthBits.intlvWrite a0 a1 : LengthBits.Statement (.intlvWrite a0 a1) := nofun
theorem LengthBits.sprootWrite a0 a1 : LengthBits.Statement (.sprootWrite a0 a1) := nofun
theorem LengthBits.spwingWrite a0 a1 : LengthBits.Statement (.spwingWrite a0 a1) := nofun
theorem LengthBits.qcfgWrite a0 a1 : LengthBits.Statement (.qcfgWrite a0 a1) := nofun
theorem LengthBits.spsaveWrite a0 a1 : LengthBits.Statement (.spsaveWrite a0 a1) := nofun
theorem LengthBits.spxcWrite a0 a1 : LengthBits.Statement (.spxcWrite a0 a1) := nofun
theorem LengthBits.biasctlWrite a0 : LengthBits.Statement (.biasctlWrite a0) := nofun
theorem LengthBits.biasflipGo a0 : LengthBits.Statement (.biasflipGo a0) := nofun
theorem LengthBits.biasFlipComplete : LengthBits.Statement (.biasFlipComplete) := nofun
theorem LengthBits.gbstatClear a0 a1 : LengthBits.Statement (.gbstatClear a0 a1) := nofun
theorem LengthBits.hostResume a0 a1 : LengthBits.Statement (.hostResume a0 a1) := nofun
theorem LengthBits.hostResumeSkip a0 a1 : LengthBits.Statement (.hostResumeSkip a0 a1) := nofun
theorem LengthBits.hostKillt a0 a1 : LengthBits.Statement (.hostKillt a0 a1) := nofun
theorem LengthBits.hostKilltG a0 a1 : LengthBits.Statement (.hostKilltG a0 a1) := nofun
theorem LengthBits.hostEndGrid a0 a1 : LengthBits.Statement (.hostEndGrid a0 a1) := nofun
theorem LengthBits.gbpkRead a0 a1 a2 : LengthBits.Statement (.gbpkRead a0 a1 a2) := nofun
theorem LengthBits.gbpkWrite a0 a1 a2 : LengthBits.Statement (.gbpkWrite a0 a1 a2) := nofun
theorem LengthBits.dbgreqStop a0 a1 a2 : LengthBits.Statement (.dbgreqStop a0 a1 a2) := nofun
theorem LengthBits.dbgreqResume a0 a1 a2 : LengthBits.Statement (.dbgreqResume a0 a1 a2) := nofun
theorem LengthBits.dbgreqStep a0 a1 a2 : LengthBits.Statement (.dbgreqStep a0 a1 a2) := nofun
theorem LengthBits.dbgreqPreempt a0 a1 a2 : LengthBits.Statement (.dbgreqPreempt a0 a1 a2) := nofun
theorem LengthBits.dbgreqDump a0 a1 a2 : LengthBits.Statement (.dbgreqDump a0 a1 a2) := nofun
theorem LengthBits.pcSample a0 a1 : LengthBits.Statement (.pcSample a0 a1) := nofun
theorem LengthBits.trialDebtTick : LengthBits.Statement (.trialDebtTick) := nofun
theorem LengthBits.registerWrite a0 a1 : LengthBits.Statement (.registerWrite a0 a1) := nofun
theorem LengthBits.hostMemRead a0 : LengthBits.Statement (.hostMemRead a0) := nofun
theorem LengthBits.hostMemWrite a0 a1 : LengthBits.Statement (.hostMemWrite a0 a1) := nofun
theorem LengthBits.birspi a0 : LengthBits.Statement (.birspi a0) := nofun
theorem LengthBits.hPathCompletion a0 a1 a2 : LengthBits.Statement (.hPathCompletion a0 a1 a2) := nofun
theorem LengthBits.cxlCompletionTimeout a0 : LengthBits.Statement (.cxlCompletionTimeout a0) := nofun
theorem LengthBits.ucieUncorrectableError : LengthBits.Statement (.ucieUncorrectableError) := nofun
theorem LengthBits.clockRatioChange a0 : LengthBits.Statement (.clockRatioChange a0) := nofun
theorem LengthBits.moduleReset : LengthBits.Statement (.moduleReset) := nofun
theorem LengthBits.bringupStepComplete a0 a1 : LengthBits.Statement (.bringupStepComplete a0 a1) := nofun
theorem LengthBits.powerManagementTick a0 a1 a2 : LengthBits.Statement (.powerManagementTick a0 a1 a2) := nofun
theorem LengthBits.thermalTrip : LengthBits.Statement (.thermalTrip) := nofun
theorem LengthBits.ivrOvercurrent a0 a1 : LengthBits.Statement (.ivrOvercurrent a0 a1) := nofun
theorem LengthBits.sensors : LengthBits.Statement (.sensors) := nofun
theorem LengthBits.logread : LengthBits.Statement (.logread) := nofun
theorem LengthBits.powercap : LengthBits.Statement (.powercap) := nofun
theorem LengthBits.keyset : LengthBits.Statement (.keyset) := nofun
theorem LengthBits.fwload : LengthBits.Statement (.fwload) := nofun
theorem LengthBits.spdm : LengthBits.Statement (.spdm) := nofun
theorem LengthBits.mailboxBadcmd a0 : LengthBits.Statement (.mailboxBadcmd a0) := nofun
theorem LengthBits.scratchpadSlotGrant a0 a1 : LengthBits.Statement (.scratchpadSlotGrant a0 a1) := nofun
theorem LengthBits.wPathAccessComplete a0 : LengthBits.Statement (.wPathAccessComplete a0) := nofun
theorem LengthBits.modulePowerLoss : LengthBits.Statement (.modulePowerLoss) := nofun
theorem LengthBits.sptrialWrite a0 a1 : LengthBits.Statement (.sptrialWrite a0 a1) := nofun

end Sys2Proof.Laws
end

