-- ==== Sys2Proof/Tests/Slice0.lean ====
section
/-! SUPPORT. Tests: words written out from the encoding tables, a term that each well-formedness check refuses, small steps with
the results that the specification states, and for every statement with hypotheses a state and operands that meet them. -/

namespace Sys2Proof.Tests

open Sys2Proof Sys2Proof.Machine

/-! ## Decoding

Each word is composed by hand from its opcode (Tables 09-9 to 09-16) and the fields of its entry's encoding table, with operands
at places where a dropped or shifted bit shows. -/

def o : Ops := ⟨.w64, false, 7, false, false, 0, .v 0, .v 0, .v 0, 0⟩
def q : SOps := ⟨0, .v 0, .v 0, .v 0, 0, 0, false, 0, false, 0, 0, false, false⟩
def x : MemX := MemX.default
/-- Each word decodes to its instruction, which encodes to the word. -/
def listed (l : List (Nat × Instr)) : Bool :=
  l.all fun y => decide (decodeTableWord 128 y.1 = some y.2) && decide ((encode y.2).map (·.2) = some y.1)

theorem test_decode_arith_1 : listed
    [(0x0000000206057008, .mov { o with d := 5, a := .s 3 } false),
     (0x00000000123456780000000600097021, .movi { o with len := .w96, d := 9, a := .imm32, imm := 305419896 } true),
     (0x0500001804017028, .sel { o with d := 1, a := .v 2, b := .v 3 } false true 2),
     (0x4C00103A0A047050, .iadd { o with d := 4, a := .s 5, b := .imm 7 } true .i32 true),
     (0x5C0000300A047058, .isub { o with d := 4, a := .v 5, b := .v 6 } false .n32 true),
     (0x4C00000004017078, .iabs { o with d := 1, a := .v 2 } true),
     (0x0C00000008037080, .ineg { o with d := 3, a := .v 4 } false),
     (0x1C000018040170B8, .imin { o with d := 1, a := .v 2, b := .v 3 } false .n32),
     (0x0C00081A040170D0, .imax { o with d := 1, a := .s 2, b := .s 3 } true .i32)] = true := by decide

theorem test_decode_arith_2 : listed
    [(0x9000003808027068, .iadd64 { o with d := 2, a := .v 4, b := .v 7 } false .i64 false true),
     (0x00000A0804017088, .imul { o with d := 1, a := .v 2, b := .y 1 } false .b32 false),
     (0x1C00001804017098, .imulh { o with d := 1, a := .v 2, b := .v 3 } .n32),
     (0x0C008018040170A0, .imad { o with d := 1, a := .v 2, b := .v 3, c := .v 4 } false .i32 false),
     (0x1C008018040270B0, .imadw { o with d := 2, a := .v 2, b := .v 3, c := .v 4 } .n32 false)] = true := by decide

theorem test_decode_logic_1 : listed
    [(0x000017FA020670E0, .and { o with d := 6, a := .s 1, b := .imm 255 } true),
     (0x000017FA020670F0, .or { o with d := 6, a := .s 1, b := .imm 255 } true),
     (0x000017FA02067100, .xor { o with d := 6, a := .s 1, b := .imm 255 } true),
     (0x000000000E067108, .not { o with d := 6, a := .v 7 }),
     (0x5400801804017110, .lgc3 { o with d := 1, a := .v 2, b := .v 3, c := .v 4 } 0xA8),
     (0x8000001804017118, .shl { o with d := 1, a := .v 2, b := .v 3 } false true),
     (0x0000102204017130, .shr { o with d := 1, a := .s 2, b := .imm 4 } true false),
     (0x8000001804017138, .sar { o with d := 1, a := .v 2, b := .v 3 } true),
     (0x0000001804017140, .rot { o with d := 1, a := .v 2, b := .v 3 })] = true := by decide

theorem test_decode_logic_2 : listed
    [(0x8000801804017148, .fshf { o with d := 1, a := .v 2, b := .v 3, c := .v 4 } true),
     (0x0C00801804017150, .bfe { o with d := 1, a := .v 2, b := .v 3, c := .v 4 } .i32),
     (0x0000801804017158, .bfi { o with d := 1, a := .v 2, b := .v 3, c := .v 4 }),
     (0x0000000012017160, .popc { o with d := 1, a := .v 9 }),
     (0x0000000012027168, .clz { o with d := 2, a := .v 9 }),
     (0x0000000012037170, .brev { o with d := 3, a := .v 9 }),
     (0x0020801804017040, .bysel { o with d := 1, a := .v 2, b := .v 3, c := .s 4 }),
     (0x1E00001A08027038, .lea { o with d := 2, a := .s 4, b := .v 3 } .n32 4)] = true := by decide

theorem test_decode_preds : listed
    [(0xF680001002067228, .isetp { o with d := 6, a := .v 1, b := .v 2 } .n16x2 .xor true 5 .ge),
     (0x8780001002007240, .fsetp { o with a := .v 1, b := .v 2 } .bf16x2 .or false 1 .nan),
     (0x1C00001002007268, .iaddP { o with a := .v 1, b := .v 2 } .n32),
     (0x1C00001002017270, .isubP { o with d := 1, a := .v 1, b := .v 2 } .n32),
     (0x1C00001002027278, .imulP { o with d := 2, a := .v 1, b := .v 2 } .n32),
     (0x4B00601002017280, .lgc3P { o with d := 1, a := .v 1, b := .v 2, c := .v 3 } 0x96),
     (0x298000052C047250, .plop { o with d := 4, a := .imm 150 } 1 2 3),
     (0x0000000000087258, .pmov { o with d := 8 }),
     (0x0F80000006027260, .pmovP { o with d := 2, a := .v 3 } 31)] = true := by decide

theorem test_decode_control_1 : listed
    [(0x000000000000010000000006000032C1, .bra { o with len := .w96, g := 3, a := .imm32, imm := 256 }),
     (0x06000004040072C8, .braAny { o with a := .imm 2 } true 4),
     (0x06000004040072D0, .braAll { o with a := .imm 2 } true 4),
     (0x00000000060072D8, .brx { o with a := .v 3 }),
     (0x00000005000072E0, .call { o with a := .imm 128 }),
     (0x00000002060072E8, .callx { o with a := .s 3 }),
     (0x000000000000A2F4, .ret { o with rb := true, g := 2, gn := true }),
     (0x000000000000A2FC, .exit { o with rb := true, g := 2, gn := true }),
     (0x000000000000A30C, .nop { o with rb := true, g := 2, gn := true })] = true := by decide

theorem test_decode_control_2 : listed
    [(0x000000000A007300, .conv { o with a := .v 5 }),
     (0x00000004C8007310, .pause { o with a := .imm 100 }),
     (0x2180000000047348, .sread { o with d := 4 } true 0x43),
     (0x0D00000000047350, .sreadW { o with d := 4 } 0x1A),
     (0x108000000A007358, .swrite { o with a := .v 5 } 0x21),
     (0x0000082004017360, .launch { o with d := 1, a := .v 2, b := .s 4 }),
     (0x000000041E007368, .prog { o with a := .imm 15 })] = true := by decide

theorem test_decode_lanes_1 : listed
    [(0x3180801804017C00, .lxchIdx { o with d := 1, a := .v 2, b := .v 3, c := .v 4 } 3 6),
     (0x3180801804017C08, .lxchRot { o with d := 1, a := .v 2, b := .v 3, c := .v 4 } 3 6),
     (0x3180801804017C18, .lxchXor { o with d := 1, a := .v 2, b := .v 3, c := .v 4 } 3 6),
     (0x3A80800004017C10, .lxchRev { o with d := 1, a := .v 2, c := .v 4 } 5 7),
     (0x0A80081804017C20, .lxchS { o with d := 1, a := .v 2, b := .s 3 } 1),
     (0x05A0200000027C28, .lqryAll { o with d := 2, c := .s 1 } true 3),
     (0x05A0200000027C30, .lqryAny { o with d := 2, c := .s 1 } true 3),
     (0x05A0200000027C38, .lqrySame { o with d := 2, c := .s 1 } true 3),
     (0x05DFE00000077C48, .lgath { o with d := 7, c := .imm 255 } true false true 3)] = true := by decide

theorem test_decode_lanes_2 : listed
    [(0x09DFE00000077C40, .lgath { o with d := 7, c := .imm 255 } false true false 3),
     (0x8020600004077C50, .match_ { o with d := 7, a := .v 2, c := .s 3 } true),
     (0x1D20600004077C60, .redl { o with d := 7, a := .v 2, c := .s 3 } true .max .n32 false),
     (0x09A0600004077C68, .redlF { o with d := 7, a := .v 2, c := .s 3 } .max .rup)] = true := by decide

theorem test_decode_floats_1 : listed
    [(0x0980081A04017448, .fadd { o with d := 1, a := .s 2, b := .s 3 } .f32 true ⟨false, false, false, false, true, false, .rup⟩),
     (0x8400081A04017550, .fmul { o with d := 1, a := .s 2, b := .s 3 } .bf16x2 true ⟨true, false, false, false, false, true, .rne⟩),
     (0x2000081A040174E0, .fmin { o with d := 1, a := .s 2, b := .s 3 } .f16x2 true ⟨false, false, true, false, false, false, .rne⟩),
     (0x1000081A04017470, .fmax { o with d := 1, a := .s 2, b := .s 3 } .f32 true ⟨false, false, false, true, false, false, .rne⟩),
     (0x2280001804017488, .fsub { o with d := 1, a := .v 2, b := .v 3 } .f16x2 false ⟨false, false, true, false, false, false, .dyn⟩),
     (0xC000801804017518, .ffma { o with d := 1, a := .v 2, b := .v 3, c := .v 4 } .bf16x2 false ⟨true, true, false, false, false, false, .rne⟩),
     (0x10808018040174C0, .fdp2 { o with d := 1, a := .v 2, b := .v 3, c := .v 4 } .f16x2 ⟨false, false, false, true, false, false, .rtz⟩),
     (0x0500000004017438, .frnd { o with d := 1, a := .v 2 } .f32 false ⟨false, false, false, false, false, true, .rdn⟩),
     (0x00000000040174B0, .fclass { o with d := 1, a := .v 2 } .f16x2)] = true := by decide

theorem test_decode_floats_2 : listed
    [(0x8000101804017248, .fclassP { o with d := 1, a := .v 2, b := .imm 3 } .bf16x2),
     (0x1000000004017700, .frcp { o with d := 1, a := .v 2 } .f32 true false),
     (0x0400000004027748, .frsq { o with d := 2, a := .v 2 } .f16x2 false true),
     (0x1400000204037790, .fsqrt { o with d := 3, a := .s 2 } .sf32 true true),
     (0x1000000004047718, .fexp2 { o with d := 4, a := .v 2 } .f32 true false),
     (0x0400000004057760, .flog2 { o with d := 5, a := .v 2 } .f16x2 false true),
     (0x14000002040677A8, .fsin { o with d := 6, a := .s 2 } .sf32 true true),
     (0x1000000004077730, .fcos { o with d := 7, a := .v 2 } .f32 true false),
     (0x16000000040177C0, .frcpIeee { o with d := 1, a := .v 2 } ⟨false, false, false, true, false, true, .rna⟩)] = true := by decide

theorem test_decode_floats_3 : listed
    [(0x16000000040177C8, .fsqrtIeee { o with d := 1, a := .v 2 } ⟨false, false, false, true, false, true, .rna⟩),
     (0x8880000006027630, .cvt { o with d := 2, a := .v 3 } .n64 .f16 false true false .rtz),
     (0x2C00000208027648, .cvt { o with d := 2, a := .s 4 } .i32 .i64 true false true .rne),
     (0x0700081804017680, .cvq2 { o with d := 1, a := .v 2, b := .s 3 } true 6),
     (0x0700081808017688, .cvq4 { o with d := 1, a := .v 4, b := .s 3 } true 6),
     (0x0380081810017690, .cvq8 { o with d := 1, a := .v 8, b := .s 3 } 7),
     (0x0380081802027698, .cvx2 { o with d := 2, a := .v 1, b := .s 3 } 7),
     (0x03800818020476A0, .cvx4 { o with d := 4, a := .v 1, b := .s 3 } 7),
     (0x03800818020876A8, .cvx8 { o with d := 8, a := .v 1, b := .s 3 } 7)] = true := by decide

theorem test_decode_memory_1 : listed
    [(0x9440A82000037800, .ldg { o with d := 3, b := .s 4, c := .imm 5 } ⟨true, false, .n8, 0⟩ x),
     (0x0200404808007828, .stg { o with a := .v 4, b := .v 9, c := .v 2 } ⟨false, false, .b128, 4⟩ x),
     (0x0880402000037830, .ldp { o with d := 3, b := .v 4, c := .v 2 } ⟨false, false, .i16, 1⟩ x),
     (0x00000000FFFFFFF80180C02804007851, .stp { o with len := .w96, a := .v 2, b := .v 5, c := .v 6, imm := 4294967288 } ⟨false, false, .b64, 3⟩ x),
     (0x0200C82800047870, .lds { o with d := 4, b := .s 5, c := .v 6 } ⟨false, false, .b128, 4⟩ x),
     (0x0400001804007878, .sts { o with a := .v 2, b := .v 3 } ⟨false, false, .i8, 0⟩ x),
     (0x8180C02000027898, .ldx { o with d := 2, b := .v 4, c := .v 6 } ⟨true, false, .b64, 3⟩ x),
     (0x8100C024120078A8, .stx { o with a := .imm 9, b := .v 4, c := .v 6 } ⟨true, false, .b32, 2⟩ x),
     (0x0180C020000278F8, .ldw { o with d := 2, b := .v 4, c := .v 6 } ⟨false, false, .b64, 3⟩ x)] = true := by decide

theorem test_decode_memory_2 : listed
    [(0x1880C02004007908, .stw { o with a := .v 2, b := .v 4, c := .v 6 } ⟨false, false, .n16, 1⟩ x),
     (0x8220E83000047930, .ldk { o with d := 4, b := .s 6, c := .s 7 } ⟨true, false, .b128, 4⟩ x),
     (0x00000200000000408100E83000007942, .pfg { o with len := .w128, b := .s 6, c := .v 7, imm := 64 } ⟨true, false, .b32, 2⟩ ⟨.v 0, 0, false, .group, 2⟩),
     (0x08A0E83000047938, .ldsS { o with d := 4, b := .s 6, c := .s 7 } ⟨false, false, .i16, 1⟩ x),
     (0x014001000000000040008018000278CA, .ldf { o with len := .w128, d := 2, b := .v 3, c := .v 4 } ⟨false, true, .b64, 0⟩ ⟨.v 5, 0, false, .group, 1⟩),
     (0x9400C020040078D8, .stf { o with a := .v 2, b := .v 4, c := .v 6 } ⟨true, false, .n8, 0⟩ x),
     (0x8000084004047948, .stew { o with d := 4, a := .v 2, b := .s 8 } true x)] = true := by decide

theorem test_decode_atomics_1 : listed
    [(0x00000C0000000000D101003008027A4A, .atomg { o with len := .w128, d := 2, a := .v 4, b := .v 6, c := .v 8 } true .rel true true .max ⟨.v 0, 0, false, .die, 0⟩),
     (0x41400000000000000000003008027A52, .atomgCas { o with len := .w128, d := 2, a := .v 4, b := .v 6 } false .none .w4 ⟨.s 5, 0, false, .group, 0⟩),
     (0x0900003008027A68, .atomgF { o with d := 2, a := .v 4, b := .v 6 } false .none .f16x2 .max x),
     (0x1080003008007A70, .redg { o with a := .v 4, b := .v 6 } false false true .min x),
     (0x9000003008007A80, .redgF { o with a := .v 4, b := .v 6 } true .bf16x2 .add x),
     (0x0300003008027A90, .atoms { o with d := 2, a := .v 4, b := .v 6 } false (.int true false .exch) x),
     (0x01C00000000000000000003008027A9A, .atoms { o with len := .w128, d := 2, a := .v 4, b := .v 6 } false (.cas false) ⟨.v 7, 0, false, .group, 0⟩),
     (0x8080003008027AD0, .atomx { o with d := 2, a := .v 4, b := .v 6 } true (.flt .f32 .min) x),
     (0x00001500000000008000082000037A02, .lda { o with len := .w128, d := 3, b := .s 4 } ⟨true, false, .b32, 0⟩ ⟨.v 0, 0, false, .system, 1⟩)] = true := by decide

theorem test_decode_atomics_2 : listed
    [(0x8180282004007A20, .stl { o with a := .v 2, b := .s 4, c := .v 1 } ⟨true, false, .b64, 3⟩ x),
     (0x00000800000000000000000000007A32, .fence { o with len := .w128 } ⟨.v 0, 0, false, .cluster, 0⟩),
     (0x0680000000007A38, .fencex o .m .h x)] = true := by decide

theorem test_decode_sync_1 : listed
    [(0x8000001002007B00, .barrive { o with a := .v 1, b := .v 2 } true x),
     (0x8000001002007B08, .bwait { o with a := .v 1, b := .v 2 } true x),
     (0x8000001002007B10, .bsync { o with a := .v 1, b := .v 2 } true x),
     (0x8000001002007B30, .binit { o with a := .v 1, b := .v 2 } true x),
     (0x0000801406007B18, .barrd { o with a := .imm 3, b := .v 2, c := .v 4 } false x),
     (0x0000000000077B20, .balloc { o with d := 7 } x),
     (0x000000000E007B28, .bfree { o with a := .v 7 } x),
     (0x8A00C82000077B40, .rowbook { o with d := 7, b := .s 4, c := .v 6 } true 2 4 x),
     (0x0C0000020E007B48, .rowjoin { o with a := .s 7 } 3 x)] = true := by decide

theorem test_decode_sync_2 : listed
    [(0x000000020E007B50, .rowfree { o with a := .s 7 } x),
     (0x0041082202037B80, .tlbiPage { o with d := 3, a := .s 1, b := .s 4, c := .imm 8 } x),
     (0x0080000202037B80, .tlbiSpace { o with d := 3, a := .s 1 } x),
     (0x0100000000037B80, .tlbiAll { o with d := 3 } x)] = true := by decide

theorem test_decode_graphics_1 : listed
    [(0x0040601002007C80, .msvtx { o with a := .v 1, b := .v 2, c := .imm 3 }),
     (0x0040801008007C88, .msvtxB128 { o with a := .v 4, b := .v 2, c := .imm 4 }),
     (0x0000001002007C90, .msprim { o with a := .v 1, b := .v 2 }),
     (0x0000001002007C98, .mscount { o with a := .v 1, b := .v 2 }),
     (0x0300000408017CA0, .interp { o with d := 1, a := .imm 4 } .flat true),
     (0x0080000004017CA8, .derivX { o with d := 1, a := .v 2 } true),
     (0x0000000004017CB0, .derivY { o with d := 1, a := .v 2 } false),
     (0x0000103808007CB8, .fragexp { o with a := .v 4, b := .imm 7 }),
     (0x000000000A007CC0, .fragexpZ { o with a := .v 5 })] = true := by decide

theorem test_decode_graphics_2 : listed
    [(0x0000000000007CC8, .fragkill o),
     (0x0000000000007CD0, .rocbeg o),
     (0x0000000000007CD8, .rocend o),
     (0x0000084004047CE0, .tex { o with d := 4, a := .v 2, b := .s 8 }),
     (0x0001284004047CE8, .texL { o with d := 4, a := .v 2, b := .s 8, c := .v 9 }),
     (0x0001284004047CF0, .texG { o with d := 4, a := .v 2, b := .s 8, c := .v 9 }),
     (0x0040284004047CF8, .texld { o with d := 4, a := .v 2, b := .s 8, c := .imm 1 }),
     (0x0000084404047D00, .texq { o with d := 4, a := .imm 2, b := .s 8 }),
     (0x8E80E03008027D08, .satom { o with d := 2, a := .v 4, b := .v 6, c := .v 7 } true false true true (.int .xor) x)] = true := by decide

theorem test_decode_graphics_3 : listed
    [(0x02000000000000008000E03008027D12, .satomCas { o with len := .w128, d := 2, a := .v 4, b := .v 6, c := .v 7 } true false ⟨.v 8, 0, false, .group, 0⟩)] = true := by decide

theorem test_decode_copies : listed
    [(0xD280081002007D40, .cpgather { o with a := .v 1, b := .s 2 } 6 37 x),
     (0xD280081002007D48, .cpscatter { o with a := .v 1, b := .s 2 } 6 37 x),
     (0xD280081002007D50, .cpscatterAdd { o with a := .v 1, b := .s 2 } 6 37 x),
     (0x8000082406007D58, .cpwait { o with a := .imm 3, b := .s 4 } true x),
     (0x0000082406027D60, .cptest { o with d := 2, a := .imm 3, b := .s 4 } false x),
     (0x00000000000000070000180406007D69, .cpclr { o with len := .w96, a := .imm 3, b := .imm32, imm := 7 } false x),
     (0x0000082406007D70, .cpsrcw { o with a := .imm 3, b := .s 4 } x)] = true := by decide

theorem test_decode_stream_1 : listed
    [(0x00000018040F7EC8, .mput { o with d := 15, a := .v 2, b := .v 3 } .w8),
     (0x24000400000000400000A02000037E02, .mld { q with d := 3, b := .v 4, c := .v 5, imm := 64, cid := 9, slot := 2 }),
     (0x03F80000000000004000A02000037E0A, .mldV { q with d := 3, b := .v 4, c := .v 5, pred0 := 63, v0 := true } true),
     (0xFC000080000000000180A01804047E1A, .mma { q with d := 4, a := .v 2, b := .v 3, c := .v 5, cid := 63, cl := true } true 3 false),
     (0x0580A01804047E32, .mmq { q with d := 4, a := .v 2, b := .v 3, c := .v 5 } true 3 true),
     (0x00000000000000050180C01804047E2A, .mmqP { q with d := 4, a := .v 2, b := .v 3, c := .v 6, imm := 5 } false 3 false),
     (0x00049000000000000080C01804047E42, .mmi { q with d := 4, a := .v 2, b := .v 3, c := .v 6, pred1 := 9, v1 := true } false 1 false),
     (0x0080A000003F7E52, .mclr { q with d := 63, c := .v 5 } true),
     (0x00000E00000000086880A01850007E5A, .mst { q with a := .v 40, b := .v 3, c := .v 5, imm := 8, slot := 7 } 1 2 true true)] = true := by decide

theorem test_decode_stream_2 : listed
    [(0x4000A01850007E62, .mstV { q with a := .v 40, b := .v 3, c := .v 5 } 0 0 false true),
     (0x000000000000012C0000180422007E6A, .mbar { q with a := .imm 17, b := .imm32, imm := 300 }),
     (0x0000100C22007E72, .mbw { q with a := .imm 17, b := .imm 1 }),
     (0x16243000000000000000000000007E7A, .mnop { q with cid := 5, pred0 := 4, pred1 := 3, v0 := true, v1 := true }),
     (0x000000000000000700000000000F7E82, .msetImm { q with d := 15, imm := 7 }),
     (0x000000000000000700800000000F7E82, .msetHi { q with d := 15, imm := 7 }),
     (0x000000000000000701000000000F7E82, .msetArg { q with d := 15, imm := 7 }),
     (0x000000000000000701800000000F7E82, .msetArghi { q with d := 15, imm := 7 }),
     (0x000000000000000702000000000F7E82, .msetSr { q with d := 15, imm := 7 })] = true := by decide

theorem test_decode_stream_3 : listed
    [(0x00000000000000630000000600077E8A, .msetC { q with d := 7, a := .imm32, imm := 99 }),
     (0x000017F804017E92, .maddk { q with d := 1, a := .v 2, b := .imm 255 }),
     (0x00000000FFFFFFF0000000000E007E9A, .mloop { q with a := .v 7, imm := 4294967280 }),
     (0x00000000000000200000000000007EA2, .mjmp { q with imm := 32 }),
     (0x0000000000007EAA, .mend q)] = true := by decide

theorem test_decode_traps_1 : listed
    [(0x000000000A007F00, .trap { o with a := .v 5 }),
     (0x008000300A007F00, .trapLegacy { o with a := .v 5, b := .v 6 }),
     (0x000000040A007F08, .bkpt { o with a := .imm 5 }),
     (0x0000000000007F10, .rtt o),
     (0x000000020C057F18, .haltt { o with d := 5, a := .s 6 }),
     (0x0180000000107F40, .gbread { o with d := 16 } 3),
     (0x0000103A0C057F48, .pkrd { o with d := 5, a := .s 6, b := .imm 7 }),
     (0x0021103A0C057F50, .pkwr { o with d := 5, a := .s 6, b := .imm 7, c := .s 8 }),
     (0x000000020C057F58, .resume { o with d := 5, a := .s 6 })] = true := by decide

theorem test_decode_traps_2 : listed
    [(0x000000020C057F60, .resumeSkip { o with d := 5, a := .s 6 }),
     (0x000000020C057F68, .killt { o with d := 5, a := .s 6 }),
     (0x000000020C057F70, .killtG { o with d := 5, a := .s 6 })] = true := by decide

/-! ## Ill-formed terms -/

def refused (l : List Instr) : Bool := l.all fun i => !i.wf

/-- R151, R153: GN with guard 7, NW on a word that writes no latch or with D not 0. -/
theorem test_illformed_guard_nw : refused [.mov { o with gn := true } false, .iaddP { o with nw := true } .n32,
  .mov { o with nw := true, d := 1 } false] = true := by decide
/-- R148, R154: IMM32 without a 96-bit word, IMM32 that no field names in a 64-bit word, a 128-bit word of another class. -/
theorem test_illformed_length : refused [.mov { o with a := .imm32 } false, .mov { o with imm := 1 } false,
  .mov { o with len := .w128 } false, .rocbeg { o with len := .w96 }, .ldf { o with b := .v 2 } ⟨false, true, .b32, 0⟩ x] = true := by decide
/-- R153: fields that an entry does not use. -/
theorem test_illformed_unused : refused [.mov { o with b := .v 1 } false, .not { o with c := .s 0 }, .nop { o with d := 1 },
  .exit { o with a := .v 1 }, .ldg { o with a := .v 1, b := .v 2 } ⟨true, false, .b32, 0⟩ x, .mend { q with imm := 1 },
  .mnop { q with pred0 := 1 }, .fence { o with b := .v 1 } x] = true := by decide
/-- R152: destination kinds, ranges and alignment. -/
theorem test_illformed_destination : refused [.iadd64 { o with d := 1 } false .i64 false false, .mov { o with d := 64 } true,
  .pmovP { o with d := 7 } 0, .cvx8 { o with d := 4 } 0, .gbread { o with d := 8 } 0, .mld { q with d := 16 }, .mclr { q with d := 64 } false,
  .mput { o with d := 16 } .w4, .rowjoin o 7 x] = true := by decide
/-- R154, R155, R167: source kinds and alignment. -/
theorem test_illformed_source : refused [.movi { o with a := .v 1 } false, .iadd { o with a := .v 1 } true .b32 false,
  .iadd64 { o with a := .v 1 } false .i64 false false, .plop { o with a := .s 1 } 0 0 0, .bra { o with a := .v 1 },
  .bra { o with len := .w96, a := .imm32, imm := 2 }, .cvq4 { o with a := .v 2 } false 0, .tex { o with b := .s 4 },
  .lqryAll { o with c := .v 1 } false 0, .fragexp { o with a := .v 4, b := .imm 8 }, .prog { o with a := .imm 16 },
  .mma { q with a := .v 16 } false 0 false, .mbar { q with a := .imm 20, b := .imm 1 }, .mbw { q with a := .imm 3, b := .imm 2 }] = true := by decide
/-- R156, R168, R177: types and modifiers that an entry does not allow. -/
theorem test_illformed_type : refused [.iadd o false .b32 true, .iadd o false .i8 false, .imin o false .b32, .bfe o .b32,
  .lea o .i32 5, .isetp o .i32 .none true 0 .eq, .isetp o .i32 .none false 0 .nan, .redl { o with c := .imm 255 } false .min .b32 false,
  .fadd o .f32 false ⟨false, true, false, false, false, false, .rne⟩, .fsub { o with a := .s 0, b := .s 0 } .f16x2 true ⟨false, false, false, false, false, false, .rne⟩,
  .cvt o .f32 .f32 false true false .rne, .sread o false 0x13, .sreadW o 0x19, .swrite o 0x22, .lxchIdx o 6 0,
  .mma q false 0 true, .mst { q with b := .v 1, c := .v 2 } 1 0 false false, .msetSr { q with imm := 0x13 }, .msetArg { q with imm := 16 }] = true := by decide
/-- R223, R226, R232, R234: addresses, coordinates, and X fields that an entry does not use. -/
theorem test_illformed_address : refused [.ldg { o with b := .imm 1 } ⟨false, false, .b32, 0⟩ x, .ldg { o with b := .v 1 } ⟨true, false, .b32, 0⟩ x,
  .ldg { o with b := .v 2, c := .imm 1 } ⟨true, false, .b32, 1⟩ x, .ldg { o with b := .v 2 } ⟨true, false, .b32, 5⟩ x, .ldx { o with b := .v 2 } ⟨false, false, .b32, 0⟩ x,
  .ldg { o with b := .v 2 } ⟨true, true, .b32, 0⟩ x, .stg { o with a := .imm 1, b := .v 2 } ⟨true, false, .b64, 0⟩ x,
  .redg { o with b := .v 2 } true false false .exch x, .atomgCas { o with b := .v 2 } true .none .w4 x,
  .fence { o with len := .w128 } { x with hint := 1 }, .ldk { o with b := .v 2 } ⟨true, false, .b32, 0⟩ x, .ldsS { o with b := .s 2 } ⟨false, false, .b64, 0⟩ x] = true := by decide

/-! ## Small steps -/

/-- One group of one thread, whose turn it is, with these vector and scalar registers, predicates and FPM; 256 registers a thread. -/
def one (v : AMap Word) (s : AMap Word := []) (p : BitVec 8 := 0) (fpm : Word := 0) : State :=
  (State.reset.withFetchWord 64 0x7308).updGroup 0 0 fun g => { g with s := s, threads := [(0, { v := v, p := p, fpm := fpm })] }
/-- One group of `n` threads in one run, thread `l` with `f l` in v1. -/
def many (n : Nat) (f : Nat → Word) (p : Nat → BitVec 8 := fun _ => 0) : State :=
  (State.reset.withFetchWord 64 0x7308).updGroup 0 0 fun g =>
    { g with threads := (List.range n).map fun l => (l, { v := [(1, f l)], p := p l }), run := some ⟨0, List.range n, 0, []⟩ }
def after (i : Instr) (s : State) : State := match exec i s with | .next s => s | _ => State.reset
/-- vN of thread 0 after `i`. -/
def vOf (i : Instr) (s : State) (n : Nat) : Nat := ((after i s).readV 0 0 0 n).toNat
def sOf (i : Instr) (s : State) (n : Nat) : Nat := ((after i s).readS 0 0 n).toNat
def pOf (i : Instr) (s : State) (n : Nat) : Bool := (after i s).readP 0 0 0 n
def pcOf (i : Instr) (s : State) : Nat := ((after i s).thread 0 0 0).pc
/-- The results that `i` put on their way: lane, register, value; or predicates. -/
def wayOf (i : Instr) (s : State) : List (Nat × Nat × Nat) := (after i s).pends.flatMap fun p => p.2.regs.map fun r => (r.1, r.2.1, r.2.2.toNat)
def wayP (i : Instr) (s : State) : List (Nat × Nat × Bool) := (after i s).pends.flatMap fun p => p.2.preds
/-- Cause and INFO of the newest record. -/
def causeOf (i : Instr) (s : State) : List Nat := ((after i s).core 0).book.map (·.cause)

def dab : Ops := { o with d := 5, a := .v 1, b := .v 2 }
def dabc : Ops := { o with d := 5, a := .v 1, b := .v 2, c := .v 3 }

/-- R170, edge cases of the add family. -/
theorem test_add_family : vOf (.iabs { o with d := 5, a := .v 1 } false) (one [(1, 0x80000000)]) 5 = 0x80000000 ∧
    vOf (.iabs { o with d := 5, a := .v 1 } true) (one [(1, 0x80000000)]) 5 = 0x7FFFFFFF ∧
    vOf (.ineg { o with d := 5, a := .v 1 } true) (one [(1, 0x80000000)]) 5 = 0x7FFFFFFF ∧
    vOf (.iadd dab false .n32 true) (one [(1, 0xFFFFFFFF), (2, 1)]) 5 = 0xFFFFFFFF ∧
    vOf (.iadd dab false .b32 false) (one [(1, 0xFFFFFFFF), (2, 3)]) 5 = 2 ∧ vOf (.isub dab false .n32 true) (one [(2, 1)]) 5 = 0 ∧
    vOf (.imin dab false .i32) (one [(1, 1), (2, 0xFFFFFFFF)]) 5 = 0xFFFFFFFF ∧ vOf (.imax dab false .n32) (one [(1, 1), (2, 0xFFFFFFFF)]) 5 = 0xFFFFFFFF ∧
    sOf (.iadd { o with d := 5, a := .s 1, b := .imm 0xFF } true .b32 false) (one [] [(1, 7)]) 5 = 6 := by decide
/-- R169, R171, R175: a source that is also the destination, the 64-bit carry, floor division, a negative index. -/
theorem test_wide_and_multiply : vOf (.iadd64 { o with d := 2, a := .v 2, b := .v 4 } false .i64 false false) (one [(2, 0xFFFFFFFF), (4, 1)]) 3 = 1 ∧
    vOf (.imulh dab .i32) (one [(1, 0xFFFFFFFF), (2, 1)]) 5 = 0xFFFFFFFF ∧ vOf (.imul dab false .i32 true) (one [(1, 0x10000), (2, 0x10000)]) 5 = 0x7FFFFFFF ∧
    vOf (.imad dabc false .b32 false) (one [(1, 3), (2, 5), (3, 7)]) 5 = 22 ∧ vOf (.imadw { o with d := 6, a := .v 1, b := .v 2, c := .v 4 } .n32 false)
      (one [(1, 0xFFFFFFFF), (2, 2), (4, 2)]) 7 = 2 ∧
    vOf (.lea { o with d := 2, a := .v 4, b := .v 6 } .i32 2) (one [(5, 1), (6, 0xFFFFFFFF)]) 2 = 0xFFFFFFFC ∧
    vOf (.sel dab false false 2) (one [(1, 10), (2, 20)] [] 4) 5 = 10 ∧ vOf (.sel dab false true 7) (one [(1, 10), (2, 20)]) 5 = 20 := by decide
/-- R172 to R174, with the edge cases and selectors of their entries. -/
theorem test_bits : vOf (.lgc3 dabc 0xA8) (one [(1, 0xF0F0), (2, 0xFF00), (3, 0xF)]) 5 = 0xF000 ∧
    vOf (.shl dab false false) (one [(1, 1), (2, 32)]) 5 = 0 ∧ vOf (.shl dab false true) (one [(1, 1), (2, 33)]) 5 = 2 ∧
    vOf (.sar dab false) (one [(1, 0x80000000), (2, 40)]) 5 = 0xFFFFFFFF ∧ vOf (.rot dab) (one [(1, 0x80000001)]) 5 = 0x80000001 ∧
    vOf (.fshf dabc false) (one [(1, 1), (2, 2), (3, 32)]) 5 = 2 ∧ vOf (.fshf dabc true) (one [(1, 1), (2, 2), (3, 32)]) 5 = 1 ∧
    vOf (.bfe dabc .i32) (one [(1, 0xF0), (2, 4), (3, 4)]) 5 = 0xFFFFFFFF ∧ vOf (.bfi dabc) (one [(1, 0xF), (2, 0xFFFF), (3, 0x0408)]) 5 = 0xFFFF ∧
    vOf (.bysel dabc) (one [(1, 0x80000001), (2, 5), (3, 0x23232323)]) 5 = 0xFFFFFFFF ∧
    vOf (.bysel dabc) (one [(1, 0x12345678), (3, 0x00010203)]) 5 = 0x78563412 ∧ vOf (.clz dab) (one []) 5 = 32 ∧
    vOf (.brev dab) (one [(1, 1)]) 5 = 0x80000000 ∧ vOf (.popc dab) (one [(1, 0xF00F)]) 5 = 8 := by decide
/-- R176 to R178: overflow into a predicate, p7, PMOV's bit 7. -/
theorem test_predicates : pOf (.iaddP { o with d := 2, a := .v 1, b := .v 2 } .n32) (one [(1, 0xFFFFFFFF), (2, 1)]) 2 = true ∧
    pOf (.isetp { o with d := 2, a := .v 1, b := .v 2 } .i32 .and true 3 .lt) (one [(1, 0xFFFFFFFF)] [] 0) 2 = true ∧
    pOf (.plop { o with d := 4, a := .imm 0x80 } 1 2 7) (one [] [] 6) 4 = true ∧ pOf (.pmovP { o with d := 4, a := .v 1 } 31) (one [(1, 0x80000000)]) 4 = true ∧
    vOf (.pmov { o with d := 5 }) (one [] [] 5) 5 = 133 := by decide
/-- R180 to R186: a guard that is false, a taken branch, CALL's and RET's offsets, EXIT. -/
theorem test_control : pcOf (.bra { o with a := .imm 4 }) (one []) = 16 ∧ pcOf (.bra { o with a := .imm 4, g := 1 }) (one []) = 8 ∧
    pcOf (.brx { o with a := .v 1 }) (one [(1, 64)]) = 64 ∧ ((after (.call { o with a := .imm 4 }) (one [])).thread 0 0 0).hw = [8] ∧
    ((after (.exit o) (one [])).thread 0 0 0).stat = .dead ∧ causeOf (.brx { o with a := .v 1 }) (one [(1, 2)]) = [Cause.misaligned.code] ∧
    ((after (.conv { o with a := .v 1 }) (one [(1, 1)])).thread 0 0 0).stat = .conv 1 := by decide
/-- R188, R189, R193: an identity register, FPM, PROG. -/
theorem test_special : vOf (.sread { o with d := 5 } false 0x20) (one [] [] 0 0x803) 5 = 0x803 ∧
    ((after (.swrite { o with a := .v 1 } 0x20) (one [(1, 0x200)])).thread 0 0 0).fpm = 0x200 ∧
    amapGet 0 ((after (.prog { o with a := .imm 3 }) (one [])).space 0).prog 3 = 1 := by decide
/-- R196 to R200: four lanes in one run. -/
theorem test_lanes : wayOf (.lxchXor { o with d := 5, a := .v 1, b := .imm 1 } 2 7) (many 4 fun l => BitVec.ofNat 32 (10 + l)) =
      [(0, 5, 11), (1, 5, 10), (2, 5, 13), (3, 5, 12)] ∧
    wayOf (.redl { o with d := 5, a := .v 1, c := .imm 0xF } true .add .b32 false) (many 4 fun l => BitVec.ofNat 32 (10 + l)) = [(0, 5, 46)] ∧
    wayOf (.match_ { o with d := 5, a := .v 1, c := .imm 0xF } false) (many 4 fun l => BitVec.ofNat 32 (l % 2)) =
      [(0, 5, 5), (1, 5, 10), (2, 5, 5), (3, 5, 10)] ∧
    wayOf (.lgath { o with d := 5, c := .imm 0xF } false true false 1) (many 4 (fun _ => 0) fun _ => 2) = [(0, 5, 0), (1, 5, 1), (2, 5, 2), (3, 5, 3)] ∧
    wayP (.lqryAny { o with d := 3, c := .imm 3 } false 1) (many 2 (fun _ => 0) fun l => if l = 1 then 2 else 0) = [(0, 3, true), (1, 3, true)] := by decide
/-- R203 to R218: 1 + 2, a tie to even with flags, the worked conversion of chapter 11 (Table 11-11). -/
theorem test_floats : vOf (.fadd dab .f32 false ⟨false, false, false, false, false, false, .rne⟩) (one [(1, 0x3F800000), (2, 0x40000000)]) 5 = 0x40400000 ∧
    vOf (.ffma dabc .f32 false ⟨false, false, false, false, false, false, .rne⟩) (one [(1, 0x1A000000), (2, 0x1A000000)]) 5 = 0 ∧
    (after (.ffma dabc .f32 false ⟨false, false, false, false, false, false, .rne⟩) (one [(1, 0x1A000000), (2, 0x1A000000)])).readV 0 0 0 5 = 0 ∧
    vOf (.cvt dab .i32 .f32 false false false .rtz) (one [(1, 0xC0200000)]) 5 = 0xFFFFFFFE := by decide
/-- Table 11-11: CVQ4.SATF of 100, 250, −0.3 and 0.001 by 0.5 into E4M3, the flags it raises, and CVX4 of the result. -/
theorem test_quantise :
    let st := (one [(0, 0x42C80000), (1, 0x437A0000), (2, 0xBE99999A), (3, 0x3A83126F)] [(3, 0x3F000000)] 0 0x200).updLaunch 0 fun l =>
      { l with lr := { l.lr with slots := [0, 0, 3 * 2 ^ 14] } }
    let t := after (.cvq4 { o with d := 8, a := .v 0, b := .s 3 } true 2) st
    (t.readV 0 0 0 8).toNat = 0x01B27E74 ∧ (t.thread 0 0 0).fpm = 0x01C00200 ∧
    vOf (.cvq4 { o with d := 8, a := .v 0, b := .s 3 } false 2) st 8 = 0x01B27F74 := by decide
theorem test_expand :
    let st := (one [(8, 0x01B27E74)] [(3, 0x3F000000)] 0 0x200).updLaunch 0 fun l => { l with lr := { l.lr with slots := [0, 0, 3 * 2 ^ 14] } }
    let t := after (.cvx4 { o with d := 12, a := .v 8, b := .s 3 } 2) st
    (List.range 4).map (fun k => (t.readV 0 0 0 (12 + k)).toNat) = [0x42C00000, 0x43600000, 0xBEA00000, 0x3A800000] := by decide

/-- With 4,096 B of scratchpad a team. -/
def wide (s : State) : State := s.updLaunch 0 fun l => { l with lr := { l.lr with scratch := 4096 } }
def pad : State := (one [(1, 0x80FF), (2, 4)]).updTeam 0 fun tm => { tm with scratch := memWrite [] 4 2 0x80FF }
/-- R25, R227: a byte of a scratchpad store, and a load that widens it. -/
theorem test_scratch : memRead ((after (.sts { o with a := .v 1, b := .v 2 } ⟨false, false, .n8, 0⟩ x)
      (wide (one [(1, 0x80FF), (2, 4)]))).team 0).scratch 4 4 = 0xFF ∧
    wayOf (.lds { o with d := 5, b := .v 2 } ⟨false, false, .i16, 0⟩ x) (wide pad) =
      [(0, 5, 0xFFFF80FF)] := by decide
/-- R22, R227: a pointer of another space, an offset that is not a multiple of the width. -/
theorem test_pointer_traps : causeOf (.ldx { o with d := 5, b := .v 2 } ⟨true, false, .b32, 0⟩ x) (one []) = [Cause.tagMismatch.code] ∧
    causeOf (.lds { o with d := 5, b := .v 2 } ⟨false, false, .b32, 0⟩ x) (wide (one [(2, 2)])) = [Cause.misaligned.code] := by decide
/-- R236: the first arrival of two fixes the count; BSYNC of one ends its phase at once; a count of 0 is illegal. -/
theorem test_barrier : (((after (.barrive { o with a := .imm 3, b := .imm 2 } false x) (one [])).bar 0 3).arrived,
      ((after (.barrive { o with a := .imm 3, b := .imm 2 } false x) (one [])).bar 0 3).expect) = (1, 2) ∧
    ((after (.bsync { o with a := .imm 3, b := .imm 1 } false x) (one [])).bar 0 3).phase = 1 ∧
    causeOf (.barrive { o with a := .imm 3, b := .imm 0 } false x) (one []) = [Cause.illegalOperand.code] := by decide
/-- R341, R353: TRAP parks the thread at its PC; a privileged word of another team raises PRIVILEGE. -/
theorem test_trap : ((after (.trap { o with a := .v 1 }) (one [(1, 7)])).thread 0 0 0).stat = .parked ∧
    ((after (.trap { o with a := .v 1 }) (one [(1, 7)])).thread 0 0 0).pc = 0 ∧
    causeOf (.trap { o with a := .v 1 }) (one [(1, 7)]) = [Cause.software.code] ∧ causeOf (.rtt o) (one []) = [Cause.privilege.code] := by decide
def strm (k : AMap DWord) (c : AMap Word) : State := { (one []).updTeam 0 fun tm => { tm with stream := some { pc := 64, k := k, c := c } } with turn := .stream 0 }
def streamOf (i : Instr) (s : State) : Stream := ((after i s).team 0).stream.getD { pc := 0 }
/-- R162: a stream word that a group fetched. R273, R274: MSET sign-extends and keeps the other half, MLOOP counts down. -/
theorem test_stream : causeOf (.mend q) (one []) = [Cause.wrongStream.code] ∧
    amapGet 0 (streamOf (.msetImm { q with d := 2, imm := 0xFFFFFFFF }) (strm [] [])).k 2 = 0xFFFFFFFFFFFFFFFF ∧
    amapGet 0 (streamOf (.msetHi { q with d := 2, imm := 1 }) (strm [(2, 5)] [])).k 2 = 0x100000005 ∧
    (streamOf (.mloop { q with a := .v 1, imm := 0xFFFFFFF0 }) (strm [] [(1, 2)])).pc = 48 ∧
    (streamOf (.mloop { q with a := .v 1, imm := 0xFFFFFFF0 }) (strm [] [(1, 1)])).pc = 80 := by decide
def on : State := { one [] with domains := (List.range 32).map fun d => (d, .on) }
/-- R50, R55, R300, R396, R404: events. -/
theorem test_events : (after .frameAgeTick on).age = 1 ∧ (after (.domainRetentionEnter 0 3) on).domain 3 = .retention ∧
    (after (.ringDoorbell 7) on).ring.tail = 7 ∧ (after .modulePowerLoss on).boot.powered = false ∧
    (after (.clockRatioChange 6) on).ratio = 6 := by decide
/-- R148, R164: LEN 11 and an unassigned opcode at a group's turn are records, not stops. -/
theorem test_withFetchWord : (∃ s', step (State.reset.withFetchWord 64 0x7308) = .next s') ∧
    decodeTableWord 64 0x7308 = some (.nop o) := ⟨⟨_, rfl⟩, by decide⟩

/-! ## Witnesses

For every statement with hypotheses a state and operands that meet those of each of its clauses. -/

theorem issues_of (s : State) (o : Ops) (u : Uses) (turn : s.turn = .group 0 0) (run : (s.group 0 0).run = some ⟨0, [0], 0, []⟩)
    (accs : s.accs = []) (pends : s.pends = []) (guard : (s.thread 0 0 0).guard o = true)
    (range : u.inRange (s.regCount 0) = true) (latches : u.latches = []) : Issues s o u ⟨0, 0, ⟨0, [0], 0, []⟩, o, [0]⟩ where
  turn := turn
  run := run
  ops := rfl
  parts := by simp [guard]
  flight := by simp [State.accHeld, accs]
  range := range
  pending := by simp [State.pendHits, pends]
  loads := .inl (by simp [State.loadHits, accs])
  latches := .inl (by simp [latches])
  scalars := .inr (.inl (by simp [latches]))

/-- A word whose guard is false has no participant. -/
theorem issues_none (s : State) (o : Ops) (u : Uses) (turn : s.turn = .group 0 0) (run : (s.group 0 0).run = some ⟨0, [0], 0, []⟩)
    (accs : s.accs = []) (pends : s.pends = []) (guard : (s.thread 0 0 0).guard o = false)
    (range : u.inRange (s.regCount 0) = true) : Issues s o u ⟨0, 0, ⟨0, [0], 0, []⟩, o, []⟩ where
  turn := turn
  run := run
  ops := rfl
  parts := by simp [guard]
  flight := by simp [State.accHeld, accs]
  range := range
  pending := by simp [State.pendHits, pends]
  loads := .inr rfl
  latches := .inr rfl
  scalars := .inr (.inr rfl)

def z : State := one []
/-- The issue of `o` by that thread. -/
def i0 (o : Ops) : Iss := ⟨0, 0, ⟨0, [0], 0, []⟩, o, [0]⟩
/-- The same with no participant. -/
def none0 (o : Ops) : Iss := ⟨0, 0, ⟨0, [0], 0, []⟩, o, []⟩

theorem z_issues (o : Ops) (u : Uses) (guard : (z.thread 0 0 0).guard o = true) (range : u.inRange 256 = true)
    (latches : u.latches = []) : Issues z o u (i0 o) := issues_of z o u rfl rfl rfl rfl guard range latches

/-- A word that takes a pair, a quad, or a scalar in its place. -/
def pairs : Ops := { o with d := 4, a := .v 8, b := .s 4, c := .s 8 }

theorem witness_IntegerWords : (∃ x o u f, IntForm x o false u f ∧ Issues z o u (i0 o)) ∧
    ∃ x o u f, IntForm x o true u f ∧ Issues z o { u with sform := true } (i0 o) :=
  ⟨⟨_, _, _, _, .iadd dab false .b32 false, z_issues _ _ rfl (by decide) rfl⟩,
   _, _, _, _, .iadd { o with a := .s 1 } true .b32 false, z_issues _ _ rfl (by decide) rfl⟩
theorem witness_PredicateWords : ∃ x o u f, PredForm x o u f ∧ Issues z o u (i0 o) :=
  ⟨_, _, _, _, .isetp64 pairs .i64 .none false 0 .eq (.inl rfl), z_issues _ _ rfl (by decide) rfl⟩
theorem witness_FloatWords : (∃ x o u f, FloatForm x o false u f ∧ Issues z o u (i0 o) ∧ ∀ l ∈ (i0 o).parts,
      fpTrap (fpmTraps (z.thread 0 0 l).fpm) (f z.reading (i0 o) l (z.thread 0 0 l).fpm).2 = none) ∧
    ∃ x o u f, FloatForm x o true u f ∧ Issues z o { u with sform := true } (i0 o) ∧
      fpTrap ((i0 o).parts.foldl (fun e l => e ||| fpmTraps (z.thread 0 0 l).fpm) 0) (f z.reading (i0 o) 0 (z.thread 0 0 0).fpm).2 = none :=
  ⟨⟨_, _, _, _, .fadd dab .f32 false ⟨false, false, false, false, false, false, .rne⟩, z_issues _ _ rfl (by decide) rfl, by decide⟩,
   _, _, _, _, .fadd { o with a := .s 1 } .f32 true ⟨false, false, false, false, false, false, .rne⟩, z_issues _ _ rfl (by decide) rfl, by decide⟩
/-- The thread of `z` with every exception enabled and a signalling NaN in s1. -/
def zt : State := (z.updGroup 0 0 fun g => { g with s := [(1, 0x7F800001)] }).updThread 0 0 0 fun th => { th with fpm := 0x3E0000 }
theorem witness_FloatWords_trap : ∃ x o u f tr, FloatForm x o true u f ∧ Issues zt o { u with sform := true } (i0 o) ∧
    fpTrap ((i0 o).parts.foldl (fun e l => e ||| fpmTraps (zt.thread 0 0 l).fpm) 0) (f zt.reading (i0 o) 0 (zt.thread 0 0 0).fpm).2 = some tr :=
  ⟨_, _, _, _, _, .fadd { o with a := .s 1 } .f32 true ⟨false, false, false, false, false, false, .rne⟩,
   issues_of _ _ _ rfl rfl rfl rfl rfl (by decide) rfl, rfl⟩
theorem witness_FunctionWords : (∃ x o u f, FnForm x o false u f ∧ Issues z o u (i0 o) ∧ ∀ l ∈ (i0 o).parts,
      fpTrap (fpmTraps (z.thread 0 0 l).fpm) (f z.reading (i0 o) l (z.thread 0 0 l).fpm).2 = none) ∧
    ∃ x o u f, FnForm x o true u f ∧ Issues z o { u with sform := true } (i0 o) :=
  ⟨⟨_, _, _, _, .frcpIeee dab ⟨false, false, false, false, false, false, .rne⟩, z_issues _ _ rfl (by decide) rfl, by decide⟩,
   _, _, _, _, .frcp { o with a := .s 1 } .sf32 false false, z_issues _ _ rfl (by decide) rfl⟩
def z4 : State := z.updLaunch 0 fun l => { l with lr := { l.lr with slots := [3 * 2 ^ 14] } }
theorem witness_QuantWords : ∃ x o slot n u f k, QuantForm x o slot n u f ∧ Issues z4 o u (i0 o) ∧ cvFmt z4 0 n slot.toNat = some k ∧
    ∀ l ∈ (i0 o).parts, fpTrap (fpmTraps (z4.thread 0 0 l).fpm) (f k z4.reading (i0 o) l (z4.thread 0 0 l).fpm).2 = none :=
  ⟨_, _, _, _, _, _, (cvFmt z4 0 4 0).get (by decide), .cvx4 pairs 0, issues_of _ _ _ rfl rfl rfl rfl rfl (by decide) rfl, rfl, by decide⟩
theorem witness_BitRules : (∃ x o u f, BitForm x o false u f ∧ Issues z o { u with sform := false } (i0 o)) ∧
    ∃ x o u f, BitForm x o true u f ∧ Issues z o { u with sform := true } (i0 o) :=
  ⟨⟨_, _, _, _, .bfe dabc .i32 (.inl rfl), z_issues _ _ rfl (by decide) rfl⟩,
   _, _, _, _, .shl { o with a := .s 1 } true false, z_issues _ _ rfl (by decide) rfl⟩
theorem witness_Branches : (∃ x o u ok tgt, BranchForm x o u ok tgt ∧ Issues z o u (i0 o) ∧ ∀ l ∈ (i0 o).parts, ok z.reading (i0 o) l) ∧
    ∃ o, Issues (one [(1, 2)]) o { src := [(o.a, 1)] } (i0 o) ∧ (src32 (one [(1, 2)]).reading (i0 o) 0 o.a).toNat % 4 ≠ 0 :=
  ⟨⟨_, _, _, _, _, .brx { o with a := .v 1 }, z_issues _ _ rfl (by decide) rfl, by decide⟩,
   { o with a := .v 1 }, issues_of _ _ _ rfl rfl rfl rfl rfl (by decide) rfl, by decide⟩
theorem witness_CallsAndReturns : (∃ x o u ok tgt, CallForm x o u ok tgt ∧ Issues z o u (i0 o) ∧ (i0 o).parts.Nodup ∧
      ∀ l ∈ (i0 o).parts, ok z.reading (i0 o) l ∧ (z.thread 0 0 l).hw.length < 8 ∧
        (z.thread 0 0 l).hw.length + (z.thread 0 0 l).spilled < 8 + z.rstackOf 0 ∧ z.readyAt 0 0 l) ∧
    ∃ (top : Nat → Nat) (rest : Nat → List Nat), Issues (z.updThread 0 0 0 fun th => { th with hw := [8, 16] }) o {} (i0 o) ∧
      ∀ l ∈ (i0 o).parts, ((z.updThread 0 0 0 fun th => { th with hw := [8, 16] }).thread 0 0 l).hw = top l :: rest l ∧
        (z.updThread 0 0 0 fun th => { th with hw := [8, 16] }).readyAt 0 0 l :=
  ⟨⟨_, _, _, _, _, .callx { o with a := .v 1 }, z_issues _ _ rfl (by decide) rfl, by decide,
      fun l hl => by cases List.mem_singleton.1 hl; exact ⟨by decide, by decide, by decide, _, rfl, rfl⟩⟩,
   fun _ => 8, fun _ => [16], issues_of _ _ _ rfl rfl rfl rfl rfl (by decide) rfl,
      fun l hl => by cases List.mem_singleton.1 hl; exact ⟨rfl, _, rfl, rfl⟩⟩
theorem witness_EndsAndWaits_none : Issues z { o with g := 0, a := .imm 1 } { src := [(.imm 1, 1)] } (none0 { o with g := 0, a := .imm 1 }) :=
  issues_none _ _ _ rfl rfl rfl rfl rfl (by decide)
theorem witness_EndsAndWaits : Issues z o {} (i0 o) ∧ Issues z { o with a := .v 1 } { src := [(.v 1, 1)] } (i0 { o with a := .v 1 }) ∧
    (src32 z.reading (i0 { o with a := .v 1 }) 0 (.v 1)).toNat % 2 ^ 16 = 0 ∧ (src32 z.reading (i0 o) 0 (.imm 1)).toNat % 2 ^ 16 ≠ 0 ∧
    z.hasLane 0 0 0 = true :=
  ⟨z_issues _ _ rfl (by decide) rfl, z_issues _ _ rfl (by decide) rfl, by decide, by decide, rfl⟩
theorem witness_SpecialRegisters : Issues z o { (o.uses 0 0 0 1 false) with sform := false } (i0 o) ∧ z.mediumOut 0 0 (i0 o).parts = false ∧
    Issues z o { (o.uses 0 0 0 1 true) with sform := true } (i0 o) ∧ Issues z o (o.uses 0 0 0 2 false) (i0 o) ∧
    Issues z { o with a := .imm 15 } { src := [(.imm 15, 1)] } (i0 { o with a := .imm 15 }) ∧
    fpmLegal (src32 z.reading (i0 o) 0 (.imm 0)) = true ∧
    (src32 z.reading (i0 o) 0 (.imm 15)).toNat < 16 ∧ (0x21 : BitVec 8) ≠ 0x20 :=
  ⟨z_issues _ _ rfl (by decide) rfl, by decide, z_issues _ _ rfl (by decide) rfl, z_issues _ _ rfl (by decide) rfl,
   z_issues _ _ rfl (by decide) rfl, by decide, by decide, by decide⟩
theorem witness_LaneExchanges : (∃ x o k w pv, LxForm x o k w pv ∧ Issues z o { src := (o.a, 1) :: (if k = .rev then [] else [(o.b, 1)]) ++ [(o.c, 1)], vd := [(o.d.toNat, 1)], pw := if pv = 7 then [] else [pv.toNat] } (i0 o) ∧
      (i0 o).allThere z ((i0 o).parts.map fun l => (k.source (2 ^ w.toNat) l (src32 z.reading (i0 o) l o.b)).1)) ∧
    Issues z pairs { src := [(.v 8, 1), (.s 4, 1)], sd := [(4, 1)], pw := [6] } (i0 pairs) ∧ (i0 pairs).allThere z [0] :=
  ⟨⟨_, _, _, _, _, .xor dabc 0 6, z_issues _ _ rfl (by decide) rfl, rfl⟩, z_issues _ _ rfl (by decide) rfl, rfl⟩
theorem witness_MaskedWords : (∃ x o u regs preds, MaskedForm x o u regs preds ∧ Issues z o { u with src := u.src ++ [(o.c, 1)] } (i0 o) ∧
      (i0 o).allThere z (maskLanes (src32 z.reading (i0 o) 0 o.c))) ∧
    ∃ x o u val, MaskedScalarForm x o u val ∧ Issues z o { u with src := u.src ++ [(o.c, 1)] } (i0 o) ∧
      (i0 o).allThere z (maskLanes (src32 z.reading (i0 o) 0 o.c)) :=
  ⟨⟨_, _, _, _, _, .redl { dab with c := .imm 255 } .max .i32 false, z_issues _ _ rfl (by decide) rfl, rfl⟩,
   _, _, _, _, .redl { dab with c := .imm 255 } .max .i32 false, z_issues _ _ rfl (by decide) rfl, rfl⟩
theorem witness_FloatReduceAndCompare : Issues z { dab with c := .imm 1 } { src := [(.v 1, 1)] ++ [(.imm 1, 1)], vd := [(5, 1)] } (i0 { dab with c := .imm 1 }) ∧
    (i0 o).allThere z (maskLanes (src32 z.reading (i0 o) 0 (.imm 1))) ∧ (redlTree .add (fpmRnd 0 .rne) 0 5 ((List.range 32).map fun k =>
      if k = 0 then some 0x3F800000 else none)).1 = some 0x3F800000 ∧ fpTrap (fpmTraps 0) 0 = none ∧
    Issues z pairs (pairs.usesP 1 1 0 [0]) (i0 pairs) ∧ (fpmTraps (z.thread 0 0 0).fpm).getLsbD 4 = false :=
  ⟨z_issues _ _ rfl (by decide) rfl, rfl, by decide, by decide, z_issues _ _ rfl (by decide) rfl, by decide⟩
theorem witness_MemoryOperations : Memory.wf (memWrite [] 4 2 0x80FF) = true ∧ Memory.wf [] = true ∧ 124 + 4 ≤ 128 := by decide
theorem witness_LaneMemoryWords : (∃ x o u d ext f, LaneForm x o u d ext f ∧ Issues z o u (i0 o)) ∧
    Issues z pairs { src := (.v 8, 4) :: addrSrc pairs true } (i0 pairs) ∧
    Issues z pairs { src := (.v 8, 4) :: surfSrc pairs ⟨true, false, .b128, 0⟩ x } (i0 pairs) :=
  ⟨⟨_, _, _, _, _, _, .ldg pairs ⟨true, false, .b128, 4⟩ x, z_issues _ _ rfl (by decide) rfl⟩, z_issues _ _ rfl (by decide) rfl,
   z_issues _ _ rfl (by decide) rfl⟩
/-- The thread of `z` with the first page of GLOBAL lodged and translated: class HOME for its accesses, PRIV for ROWBOOK. -/
def tl : State := (z.updLaunch 0 fun l => { l with lease := some 5 }).updWing 0 fun w => { w with
  ranges := [⟨0, 5, 0, 31, 1⟩], vtlb := [⟨0, 4096, 0, false, 2 ^ 20, false, 0, .home, true, false, true, [], false, 0⟩],
  ctlb := [⟨0, 4096, 0, false, 2 ^ 20, false, 0, .priv, true, false, true, [], false, 0⟩] }
theorem tl_issues (o : Ops) (u : Uses) (guard : (tl.thread 0 0 0).guard o = true) (range : u.inRange 256 = true)
    (latches : u.latches = []) : Issues tl o u (i0 o) := issues_of tl o u rfl rfl rfl rfl guard range latches
/-- One thread whose pair v2:v3 names byte 0 of GLOBAL, a PRIV line of it in L1, writable. -/
def hit : State := z.updCore 0 fun k => { k with l1 := [⟨0, 0, 8, .priv, 0, 7, 255, 0, 0, 0, none, none, true, true, 0⟩] }
def v23 : Ops := { o with b := .v 2, c := .imm 0 }
def b32 : MMod := ⟨true, false, .b32, 0⟩
theorem witness_CacheHits : Issues hit { v23 with d := 5 } (loadUses { v23 with d := 5 } b32) (i0 { v23 with d := 5 }) ∧
    Issues hit v23 { src := (.v 0, 1) :: addrSrc v23 true } (i0 v23) ∧ hit.stopping 0 = false ∧
    (let p := effAddr hit.reading (i0 v23) 0 0 true 1
     hit.reading.ptrCheck 0 0 p 4 [0, 5] none true = none ∧ hit.reading.ptrCheck 0 0 p 4 [0] none true = none ∧ ptrTag p = 0 ∧
     (hit.core 0).l1Find 0 (p / 128) = some ⟨0, 0, 8, .priv, 0, 7, 255, 0, 0, 0, none, none, true, true, 0⟩ ∧
     hit.flipping (128 * 8) = false ∧ byteMask (p % 128) 4 &&& ~~~ (255 : ByteMask) = 0 ∧ byteMask (p % 128) 4 &&& (0 : ByteMask) = 0 ∧
     (0 : BitVec 2).getLsbD (p % 128 / 64) = false ∧ hit.watchHit 0 p 4 true false = none ∧ hit.watchHit 0 p 4 false true = none) :=
  ⟨issues_of _ _ _ rfl rfl rfl rfl rfl (by decide) rfl, issues_of _ _ _ rfl rfl rfl rfl rfl (by decide) rfl, by decide,
   by decide, by decide, by decide, rfl, by decide, by decide, by decide, by decide, by decide, by decide⟩
/-- A scratchpad of 4,096 B, with an offset in v2. -/
def scr : State := wide (one [(2, 4)])
theorem scr_clean (t : Nat) : (scr.pad t).scrPoison = [] := by
  cases t with
  | zero => rfl
  | succ t => rfl
theorem witness_ScratchLoads : ∃ x o m high tag, ScrLoad x o m high tag ∧ Issues scr o (loadUses o m) (i0 o) ∧ (∀ a ∈ scr.accs, a.1 < scr.uid) ∧
    scr.stopping 0 = false ∧ ∀ l ∈ (i0 o).parts,
      scr.reading.ptrCheck 0 0 (effAddr scr.reading (i0 o) l high m.p (2 ^ m.sc.toNat)) (mtyBytes m.ty) [tag] none true = none ∧
      scr.present (scr.scrTarget 0 (effAddr scr.reading (i0 o) l high m.p (2 ^ m.sc.toNat))).1
        (scr.scrTarget 0 (effAddr scr.reading (i0 o) l high m.p (2 ^ m.sc.toNat))).2 = true ∧
      (scr.scrRead 0 4 (mtyBytes m.ty)).2 = false :=
  ⟨_, v23, ⟨false, false, .b32, 0⟩, _, _, .lds v23 _ x, issues_of _ _ _ rfl rfl rfl rfl rfl (by decide) rfl,
   by rw [show scr.accs = [] from rfl]; exact List.forall_mem_nil _, by decide, by decide⟩
theorem witness_ScratchWrites : (∃ x o m high tag, ScrStore x o m high tag ∧ Issues scr o { src := (o.a, mtyWords m.ty) :: addrSrc o m.p } (i0 o) ∧
      (∀ t, (scr.pad t).scrPoison = []) ∧ ∀ l ∈ (i0 o).parts,
        scr.reading.ptrCheck 0 0 (effAddr scr.reading (i0 o) l high m.p (2 ^ m.sc.toNat)) (mtyBytes m.ty) [tag] none true = none) ∧
    ∃ x o p k y high tag, ScrAtom x o p k y high tag ∧ Issues scr o (atomUses o (atKindBytes k) p (atKindCas k) y true) (i0 o) ∧ o.nw = false ∧
      scr.reading.ptrCheck 0 0 (effAddr scr.reading (i0 o) 0 high p (atKindBytes k)) (atKindBytes k) [tag] none true = none ∧
      (scr.scrRead 0 4 (atKindBytes k)).2 = false :=
  ⟨⟨_, v23, ⟨false, false, .b32, 0⟩, _, _, .sts v23 _ x, issues_of _ _ _ rfl rfl rfl rfl rfl (by decide) rfl,
      scr_clean, by decide⟩,
   _, v23, false, .int false false .add, _, _, _, .atoms v23 false _ x, issues_of _ _ _ rfl rfl rfl rfl rfl (by decide) rfl, rfl, by decide, by decide⟩
theorem witness_SingleLoads : Issues tl pairs { src := addrSrc pairs true, sd := [(4, 4)], sform := true } (i0 pairs) ∧
    Issues scr v23 { src := addrSrc v23 false, sd := [(0, 1)], sform := true } (i0 v23) ∧
    (tl.reading.dataLane (i0 pairs) 0 (effAddr tl.reading (i0 pairs) 0 0 true 1) 16 [0, 5] (.load false) 0 (.scal 4 4) []).1.stat = .pend ∧
    (scr.reading.scrLoad (i0 v23) 0 (effAddr scr.reading (i0 v23) 0 0x20000000 false 1) 4 2 (.load false) (.scal 0 1)).1.stat = .done 0 ∧
    (z.reading.scrLoad (i0 v23) 0 (effAddr z.reading (i0 v23) 0 0x20000000 false 1) 4 2 (.load false) (.scal 0 1)).1.stat =
      .trap { cause := .scratchRange, addr := 0x2000000000000000 } :=
  ⟨tl_issues _ _ rfl (by decide) rfl, issues_of _ _ _ rfl rfl rfl rfl rfl (by decide) rfl, by decide, by decide, by decide⟩
/-- A W path with its eight entries taken. -/
def full : State := z.updCore 0 fun k => { k with wpath := List.range 8 }
theorem witness_RowAccesses : Issues z v23 { src := [] ++ addrSrc v23 false, vd := [(0, 1)] } (i0 v23) ∧
    Issues z { v23 with g := 0 } { src := [(.v 0, 1)] ++ addrSrc v23 false } (none0 { v23 with g := 0 }) ∧
    Issues full v23 { src := [] ++ addrSrc v23 false, vd := [(0, 1)] } (i0 v23) ∧ 8 ≤ (full.core 0).wpath.length ∧ (z.core 0).wpath.length < 8 ∧
    (memLanes (i0 v23) (fun s l => s.rowLane (i0 v23) l (effAddr s (i0 v23) l 0x40000000 false 1) 4 false 0) (i0 v23).parts z.reading).1.filterMap (·.acc) = [] :=
  ⟨z_issues _ _ rfl (by decide) rfl, issues_none _ _ _ rfl rfl rfl rfl rfl (by decide), issues_of _ _ _ rfl rfl rfl rfl rfl (by decide) rfl,
   by decide, by decide, by decide⟩
theorem witness_PrefetchAndDescriptors : Issues z v23 { src := addrSrc v23 true } (i0 v23) ∧
    (∀ v, Issues (one [(1, v)]) { pairs with a := .v 1 } { src := [(.v 1, 1), (.s 4, 8)], sd := [(4, 1)] } (i0 { pairs with a := .v 1 })) ∧
    (src32 (one [(1, 256)]).reading (i0 o) 0 (.v 1)).toNat = 256 ∧ (one [(1, 256)]).inSteWindow 0 256 = false ∧
    2 ^ 12 ≤ (src32 (one [(1, 4096)]).reading (i0 o) 0 (.v 1)).toNat ∧ (src32 z.reading (i0 o) 0 (.v 1)).toNat < 2 ^ 12 ∧ z.inSteWindow 0 256 = false ∧
    z.inSteWindow 0 255 = true :=
  ⟨z_issues _ _ rfl (by decide) rfl, fun _ => issues_of _ _ _ rfl rfl rfl rfl rfl rfl rfl, by decide, by decide, by decide, by decide,
   by decide, by decide⟩
theorem witness_OrderedAtomics : ∃ x o n p cas y op ret, AtomForm x o n p cas y op ret ∧ op.ord ≠ .none ∧ Issues tl o (atomUses o n p cas y ret) (i0 o) ∧
    tl.wpathHeld 0 0 (i0 o).parts = false ∧
    (takeLaneTraps ((memLanes (i0 o) (fun s l => s.atomLane (i0 o) l n p y op cas (atomDst o n ret)) (i0 o).parts tl.reading).2.setWaits tl.uid) (i0 o)
      (memLanes (i0 o) (fun s l => s.atomLane (i0 o) l n p y op cas (atomDst o n ret)) (i0 o).parts tl.reading).1).newAccs tl.uid ≠ [] :=
  ⟨_, v23, _, _, _, _, _, _, .atomg v23 true .ar false false .add x, by decide, tl_issues _ _ rfl (by decide) rfl, by decide, by decide⟩
theorem witness_AcquireReleaseAndFences : Issues tl v23 { src := addrSrc v23 true, vd := [(0, 1)] } (i0 v23) ∧
    Issues tl { v23 with g := 0 } { src := addrSrc v23 true, vd := [(0, 1)] } (none0 { v23 with g := 0 }) ∧
    Issues tl v23 { src := (.v 0, 1) :: addrSrc v23 true } (i0 v23) ∧ Issues tl o {} (i0 o) ∧ Issues tl { o with g := 0 } {} (none0 { o with g := 0 }) ∧
    tl.wpathHeld 0 0 [0] = false ∧ (Scope.team).wide = false ∧ tl.newAccs tl.uid = [] ∧
    tl.reading.ptrCheck 0 0 (effAddr tl.reading (i0 v23) 0 0 true 1) 4 [0] none true = none ∧
    (let r := tl.reading.globLane (i0 v23) 0 (effAddr tl.reading (i0 v23) 0 0 true 1) 4 (.lda false) 0 0 (.vec 0 1) .device
     r.1.stat = .pend ∧ (r.2.setWaits tl.uid).newAccs tl.uid ≠ []) ∧
    (let r := tl.reading.globLane (i0 v23) 0 (effAddr tl.reading (i0 v23) 0 0 true 1) 4 .stl 0 0 .none .team
     r.1.stat = .pend ∧ (r.2.setWaits tl.uid).newAccs tl.uid ≠ []) :=
  ⟨tl_issues _ _ rfl (by decide) rfl, issues_none _ _ _ rfl rfl rfl rfl rfl (by decide), tl_issues _ _ rfl (by decide) rfl,
   tl_issues _ _ rfl (by decide) rfl, issues_none _ _ _ rfl rfl rfl rfl rfl (by decide), by decide, by decide, by decide, by decide, by decide, by decide⟩
/-- A thread whose pair v2:v3 names byte 0 of SURFACE, a resident frame of one tile. -/
def sfs : State := { one [(1, 0x55), (3, 0x10000000)] with
  domains := (List.range 32).map fun d => (d, .on)
  stes := [(0, { state := .active, frames := [(0, { region := 0, state := .resident, age := 0 })] })] }
def sfp : Nat := effAddr sfs.reading (i0 v23) 0 0 true 1
theorem witness_LaneMemoryWords_surface : ∃ y o u n m sc x op data cmp, SurfForm y o u n m sc x op data cmp ∧ Issues sfs o u (i0 o) ∧
      sfs.stopping 0 = false ∧ sfs.reading.surfPtr (i0 o) 0 m x sc = some (sfp, false) ∧ sfs.reading.ptrCheck 0 0 sfp n [1] none true = none ∧
      m.xy = false ∧
      (sfs.reading.reach (surfIx sfp) (surfOff sfp) false sfp) = (.go 0 0 0, (sfs.reading.reach (surfIx sfp) (surfOff sfp) false sfp).2) :=
  ⟨_, { v23 with a := .v 1 }, _, _, _, _, _, _, _, _, .stf _ b32 x, issues_of _ _ _ rfl rfl rfl rfl rfl (by decide) rfl,
    by decide, by decide, by decide, rfl, Prod.ext (by decide) rfl⟩
def atHome (kind : AccKind) (need : Need) (va : Nat) : State := (tl.reading.translate 0 0 .vtlb va kind need none).2
theorem tl_home (kind : AccKind) (need : Need)
    (ok : (tl.reading.translate 0 0 .vtlb 0 kind need none).1 = .ok ⟨2 ^ 20, .home, 0, false, true⟩)
    (free : (atHome kind need 0).flipping (2 ^ 20) = false ∧ (atHome kind need 0).hostBias (2 ^ 20) = false) :
    AtHome tl.reading 0 0 kind need ⟨2 ^ 20, .home, 0, false, true⟩ (atHome kind need 0) :=
  ⟨fun _ h => (List.not_mem_nil h).elim, Prod.ext ok rfl, rfl, rfl, free.1, free.2⟩
theorem witness_LaneMemoryWords_atomics : (∃ y o n p cas x op ret, AtomForm y o n p cas x op ret ∧ op.ord = .none ∧ Issues tl o (atomUses o n p cas x ret) (i0 o) ∧
      effAddr tl.reading (i0 o) 0 0 p n = 0 ∧ tl.reading.ptrCheck 0 0 0 n [0] none true = none) ∧
    AtHome tl.reading 0 0 .write .atomic ⟨2 ^ 20, .home, 0, false, true⟩ (atHome .write .atomic 0) :=
  ⟨⟨_, v23, _, _, _, _, _, _, .redg v23 true false false .add x, rfl, tl_issues _ _ rfl (by decide) rfl, by decide, by decide⟩,
   tl_home _ _ (by decide) (by decide)⟩
theorem witness_OrderedAtomics_home : (∃ y o n p cas x op ret, AtomForm y o n p cas x op ret ∧ op.ord ≠ .none ∧ Issues tl o (atomUses o n p cas x ret) (i0 o) ∧
      effAddr tl.reading (i0 o) 0 0 p n = 0 ∧ tl.reading.ptrCheck 0 0 0 n [0] none true = none) ∧ tl.wpathHeld 0 0 [0] = false ∧
    AtHome tl.reading 0 0 .write .sync ⟨2 ^ 20, .home, 0, false, true⟩ (atHome .write .sync 0) ∧ tl.uid ≤ (atHome .write .sync 0).uid :=
  ⟨⟨_, v23, _, _, _, _, _, _, .atomg v23 true .ar false false .add x, by decide, tl_issues _ _ rfl (by decide) rfl, by decide, by decide⟩, by decide,
   tl_home _ _ (by decide) (by decide), by decide⟩
/-- The thread of `z`, the earlier access 7 of which is on the W path. -/
def wpathed : State := { z with accs := [(7, { who := .thread 0 0 0, core := 0, space := 0, pc := 0, len := 8, op := .load false, va := 2 ^ 62, pa := 0, n := 4,
                                               cls := .home, key := 0, h := false, data := 0, cmp := 0, dst := .none, scope := .device, mates := [0] })] }
theorem witness_AcquireReleaseAndFences_home : effAddr tl.reading (i0 v23) 0 0 true 1 = 0 ∧ tl.reading.ptrCheck 0 0 0 4 [0] none true = none ∧
    AtHome tl.reading 0 0 .write .sync ⟨2 ^ 20, .home, 0, false, true⟩ (atHome .write .sync 0) ∧ tl.uid ≤ (atHome .write .sync 0).uid ∧
    AtHome tl.reading 0 0 .read .sync ⟨2 ^ 20, .home, 0, false, true⟩ (atHome .read .sync 0) ∧ tl.uid ≤ (atHome .read .sync 0).uid ∧
    Path.v ≠ Path.w :=
  ⟨by decide, by decide, tl_home _ _ (by decide) (by decide), by decide, tl_home _ _ (by decide) (by decide), by decide, by decide⟩
theorem wpathed_issues (o : Ops) (u : Uses) (guard : (wpathed.thread 0 0 0).guard o = true) (range : u.inRange 256 = true)
    (latches : u.latches = []) : Issues wpathed o u (i0 o) where
  turn := rfl
  run := rfl
  ops := rfl
  parts := by simp [guard, i0]
  flight := by rfl
  range := range
  pending := by rfl
  loads := .inl (by rfl)
  latches := .inl (by simp [latches])
  scalars := .inr (.inl (by simp [latches]))
/-- LDA, STL, an ordered atomic and the fences while that access is in flight. -/
theorem witness_AcquireReleaseAndFences_held : wpathed.wpathHeld 0 0 [0] = true ∧ Issues wpathed o {} (i0 o) ∧
    Issues wpathed v23 { src := addrSrc v23 true, vd := [(0, 1)] } (i0 v23) ∧ Issues wpathed v23 { src := (.v 0, 1) :: addrSrc v23 true } (i0 v23) ∧
    ∃ x o n p cas y op ret, AtomForm x o n p cas y op ret ∧ op.ord ≠ .none ∧ Issues wpathed o (atomUses o n p cas y ret) (i0 o) :=
  ⟨by decide, wpathed_issues _ _ rfl (by decide) rfl, wpathed_issues _ _ rfl (by decide) rfl, wpathed_issues _ _ rfl (by decide) rfl,
   _, v23, _, _, _, _, _, _, .atomg v23 true .ar false false .add x, by decide, wpathed_issues _ _ rfl (by decide) rfl⟩
def privLineAt (va : Nat) : L1Line := ⟨0, va / 128, 8 + va / 128 % 8, .priv, 0, 7, 255, 0, 0, 0, none, none, true, true, 0⟩
/-- One thread whose private bytes 0 to 7 lie in two PRIV lines of L1, writable; the pointer in v2. -/
def hitPriv : State := z.updCore 0 fun k => { k with l1 := [privLineAt (2 ^ 56), privLineAt (2 ^ 56 + 128)] }
def w64 : MMod := ⟨false, false, .b64, 0⟩
def w32 : MMod := ⟨false, false, .b32, 0⟩
set_option exponentiation.threshold 1100 in
set_option maxRecDepth 8000 in
theorem witness_CacheHits_private : Issues hitPriv { v23 with d := 5 } (loadUses { v23 with d := 5 } w32) (i0 { v23 with d := 5 }) ∧
    Issues hitPriv v23 { src := (.v 0, 1) :: addrSrc v23 false } (i0 v23) ∧ hitPriv.stopping 0 = false ∧
    (let p := effAddr hitPriv.reading (i0 v23) 0 0x50000000 false 1
     let va := hitPriv.privAddr 0 0 0 (8 * hitPriv.rstackOf 0 + p % 2 ^ 32)
     let L := privLineAt (2 ^ 56)
     hitPriv.reading.ptrCheck 0 0 p 4 [5] none true = none ∧ (hitPriv.core 0).l1Find 0 (va / 128) = some L ∧ L.cls = .priv ∧ L.w = true ∧
     hitPriv.flipping (128 * L.pline) = false ∧ byteMask (va % 128) 4 &&& ~~~ L.bv = 0 ∧ byteMask (va % 128) 4 &&& L.fd = 0 ∧
     L.poison.getLsbD (va % 128 / 64) = false ∧ hitPriv.watchHit 0 va 4 true false = none ∧ hitPriv.watchHit 0 va 4 false true = none) :=
  ⟨issues_of _ _ _ rfl rfl rfl rfl rfl (by decide) rfl, issues_of _ _ _ rfl rfl rfl rfl rfl (by decide) rfl, by decide, by decide⟩
theorem witness_CacheHits_wide : Issues hitPriv { v23 with d := 6 } (loadUses { v23 with d := 6 } w64) (i0 { v23 with d := 6 }) ∧
    Issues hitPriv v23 { src := (.v 0, 2) :: addrSrc v23 false } (i0 v23) ∧ 4 < mtyBytes w64.ty ∧
    hitPriv.reading.ptrCheck 0 0 (effAddr hitPriv.reading (i0 v23) 0 0x50000000 false 1) 8 [5] none true = none ∧
    (∃ v S, hitPriv.reading.privPieces 0 0 0 0 false [] (8 * hitPriv.rstackOf 0 + 0) (privData 8 0) = (v, none, S) ∧ (S.space 0).watch = []) ∧
    ∃ v S, hitPriv.reading.privPieces 0 0 0 0 true [] (8 * hitPriv.rstackOf 0 + 0) (privData 8 5) = (v, none, S) ∧ (S.space 0).watch = [] :=
  ⟨issues_of _ _ _ rfl rfl rfl rfl rfl (by decide) rfl, issues_of _ _ _ rfl rfl rfl rfl rfl (by decide) rfl, by decide, by decide,
   ⟨_, _, rfl, by decide⟩, _, _, rfl, by decide⟩
/-- The thread of `z`, whose team holds the row of booking 0, with a ROW pointer in v2. -/
def rowed : State := { z with rows := [(0, ⟨0, 0, true, .open_, [0], [], [], 0, false⟩)] }
theorem witness_RowAccesses_single : Issues rowed v23 { src := addrSrc v23 false, vd := [(0, 1)] } (i0 v23) ∧
    Issues rowed v23 { src := (.v 0, 1) :: addrSrc v23 false } (i0 v23) ∧ rowed.stopping 0 = false ∧ (rowed.core 0).wpath.length < 8 ∧
    (let ea := effAddr rowed.reading (i0 v23) 0 0x40000000 false 1
     rowed.reading.ptrCheck 0 0 ea 4 [4] none true = none ∧ rowed.rowPlace 0 ea = some (⟨0, 0, true, .open_, [0], [], [], 0, false⟩, 0)) ∧
    (∃ v S, rowed.reading.rowRead 0 4 0 = (v, false, S)) ∧ (⟨0, 0, true, .open_, [0], [], [], 0, false⟩ : Row).heldBy 0 = true :=
  ⟨issues_of _ _ _ rfl rfl rfl rfl rfl (by decide) rfl, issues_of _ _ _ rfl rfl rfl rfl rfl (by decide) rfl, by decide, by decide, by decide,
   ⟨(rowed.reading.rowRead 0 4 0).1, (rowed.reading.rowRead 0 4 0).2.2, Prod.ext rfl (Prod.ext (by decide) rfl)⟩, by decide⟩
/-- The same row, no longer held and in a page that is being flipped. -/
def flipped : State := { rowed with
  rows := [(0, ⟨0, 0, true, .open_, [], [], [0], 0, false⟩)], bias := { busy := true, page := 0 } }
theorem witness_RowAccesses_ask : Issues rowed v23 { src := [(.v 0, 1)] ++ addrSrc v23 false } (i0 v23) ∧
    Issues flipped v23 { src := [] ++ addrSrc v23 false, vd := [(0, 1)] } (i0 v23) ∧ (flipped.core 0).wpath.length < 8 ∧
    (let addr (l : Nat) := effAddr rowed.reading (i0 v23) l 0x40000000 false 1
     (rowed.reading.rowAsk (i0 v23) addr 4 true fun _ => 0).1 = true ∧ (flipped.reading.rowAsk (i0 v23) addr 4 false fun _ => 0).1 = false ∧
     (z.reading.rowAsk (i0 v23) addr 4 false fun _ => 0).1 = true ∧
     (memLanes (i0 v23) (fun s l => s.rowLane (i0 v23) l (addr l) 4 true 0) (i0 v23).parts rowed.reading).1.filterMap (·.acc) ≠ []) :=
  ⟨issues_of _ _ _ rfl rfl rfl rfl rfl (by decide) rfl, issues_of _ _ _ rfl rfl rfl rfl rfl (by decide) rfl, by decide, by decide⟩
theorem witness_PrefetchAndDescriptors_done : Issues tl v23 { src := addrSrc v23 true } (i0 v23) ∧ effAddr tl.reading (i0 v23) 0 0 true 1 = 0 ∧
    tl.reading.ptrCheck 0 0 0 1 [0] none false = none ∧
    (tl.reading.translate 0 0 .vtlb 0 .read .plain none).1 = .ok ⟨2 ^ 20, .home, 0, false, true⟩ :=
  ⟨tl_issues _ _ rfl (by decide) rfl, by decide, by decide, by decide⟩
/-- A barrier whose open phase expects three, and an object of the core's table that the team holds. -/
def bars : State := (z.updTeam 0 fun tm => { tm with bars := amapInsert tm.bars 3 { phase := 0, arrived := 1, expect := 3, preset := 0, recs := [] } }).updCore 0
  fun k => { k with barTab := [(2, { gen := 7, team := some 0 })] }
theorem witness_Arrivals : bars.barLive 0 (.handle 2 6) = false ∧ bars.barLive 0 (.num 3) = true ∧ (BarRef.num 15).limit < 1026 ∧ (BarRef.num 16).limit < 12301 ∧
    (bars.barGet 0 (.num 3)).expect ≠ 0 ∧ 1 ≠ (bars.barGet 0 (.num 3)).expect ∧ (amapFind? bars.teams 0).isSome ∧ (bars.bar 0 15).expect = 0 ∧
    3 = (bars.bar 0 3).expect := by decide
def bop : Ops := { o with a := .imm 3, b := .imm 1, c := .imm 0 }
theorem witness_BarrierWords : Issues bars bop (barUses bop) (i0 bop) ∧ bars.wpathHeld 0 0 [0] = false ∧
    (barOps bars.reading (i0 bop) 0 false).1 = .inl (.num 3) ∧ bars.reading.arrive 0 (.num 4) 1 = (none, (bars.reading.arrive 0 (.num 4) 1).2) ∧
    Issues bars bop { src := [(bop.a, 1), (bop.b, 1), (bop.c, 1)] } (i0 bop) ∧ (src32 bars.reading (i0 bop) 0 bop.c).toNat % 2 ^ 16 = 0 ∧
    ((barOps bars.reading (i0 bop) 0 false).2 % 2 ^ 16 ≤ (BarRef.num 3).limit) ∧ (BarRef.num 3).limit < 1026 ∧
    Issues bars { o with a := .s 1 } { src := [(.s 1, 1)] } (i0 { o with a := .s 1 }) ∧ bars.reading.barRef 0 true 0x0702 = .inl (.handle 2 7) ∧
    Issues z o { sd := [(0, 1)] } (i0 o) ∧ (z.core 0).barFree ≠ [] :=
  ⟨issues_of _ _ _ rfl rfl rfl rfl rfl (by decide) rfl, by decide, by decide, Prod.ext (by decide) rfl, issues_of _ _ _ rfl rfl rfl rfl rfl (by decide) rfl,
   by decide, by decide, by decide, issues_of _ _ _ rfl rfl rfl rfl rfl (by decide) rfl, by decide, z_issues _ _ rfl (by decide) rfl, by decide⟩
/-- Nine rows: two held by no team, seven and one by the thread's team and another of its core. -/
def rows : State := { z with
  teams := amapInsert z.teams 9 {}
  rows := (0, ⟨0, 0, false, .open_, [], [], [], 0, false⟩) :: (1, ⟨1, 1, false, .open_, [0], [], [], 0, false⟩) ::
    (List.range 8).map fun k => (2 + k, ⟨2 + k, 2 + k, false, .open_, [9], [], [], 0, false⟩) }
theorem witness_RowWords : Issues rows bop { src := [(bop.a, 1)], pw := [2] } (i0 bop) ∧ Issues rows bop { src := [(bop.a, 1)] } (i0 bop) ∧
    rows.row? 0 200 = none ∧ ((rows.row? 0 0).any fun r => r.holders.isEmpty) = true ∧ ((rows.row? 0 1).any fun r => r.heldBy 0) = true ∧
    ((rows.row? 0 3).any fun r => !r.holders.isEmpty && !r.heldBy 0) = true ∧ 8 ≤ rows.bookedOn 0 ∧
    rows.keyHeld 0 3 = false ∧ rows.keyHeld 0 1 = true ∧ rows.rowBusy 0 1 = false ∧
    Issues z v23 { src := addrSrc v23 true, sd := [(0, 1)], pw := [2] } (i0 v23) ∧
    (z.reading.ptrCheck 0 0 (2 ^ 60) 1 [0] none false).isSome = true ∧ tl.reading.ptrCheck 0 0 (effAddr tl.reading (i0 v23) 0 0 true 1) 1 [0] none false = none ∧
    (tl.reading.translate (coreWing 0) 0 .ctlb 0 .read .rowbook none).1 = .ok ⟨2 ^ 20, .priv, 0, false, true⟩ ∧ tl.flipping (2 ^ 20) = false :=
  ⟨issues_of _ _ _ rfl rfl rfl rfl rfl (by decide) rfl, issues_of _ _ _ rfl rfl rfl rfl rfl (by decide) rfl, by decide, by decide, by decide, by decide,
   by decide, by decide, by decide, by decide, z_issues _ _ rfl (by decide) rfl, by decide, by decide, rfl, by decide⟩
/-- A group of the night porter, with a record of its launch that it has not read, of a thread parked on team 9. -/
def por : State := ({ z with teams := amapInsert z.teams 9 { groups := [(0, { threads := [(0, { stat := .parked })] })] } }.updTeam 0 fun tm => { tm with kind := .porter }).updCore 0
  fun k => { k with book := [⟨5, [0, 0, 0, 0, 0, 0, 0, 0], 9, 0, false, false, false, false, 0⟩] }
theorem por_issues (o : Ops) (u : Uses) (guard : (por.thread 0 0 0).guard o = true) (range : u.inRange 32 = true)
    (latches : u.latches = []) : Issues por o u (i0 o) := issues_of por o u rfl rfl rfl rfl guard range latches
def five : Ops := { o with d := 16, a := .imm 5, b := .imm 3, c := .imm 0 }
theorem witness_ShootdownAndLaunch : Issues por five { src := (five.a, 1) :: [(five.b, 2), (five.c, 1)], sd := [(16, 1)] } (i0 five) ∧ (por.team 0).kind = .porter ∧
    (src32 por.reading (i0 five) 0 five.c).toNat % 2 ^ 20 = 0 ∧ (src32 por.reading (i0 five) 0 five.a).toNat % 2 ^ 20 ≠ 0 ∧
    Issues por five { src := [(five.a, 1)], sd := [(16, 1)] } (i0 five) ∧ Issues por five { sd := [(16, 1)] } (i0 five) ∧
    Issues z v23 { src := [(v23.a, 1), (v23.b, 2)], vd := [(0, 1)] } (i0 v23) :=
  ⟨por_issues _ _ rfl (by decide) rfl, rfl, by decide, by decide, por_issues _ _ rfl (by decide) rfl, por_issues _ _ rfl (by decide) rfl,
   z_issues _ _ rfl (by decide) rfl⟩
/-- A guest book at which a thread is held already. -/
def book : State := z.updCore 0 fun k => { k with held := [.thread 9 0 0] }
theorem witness_TakingATrap : (z.team 0).kind ≠ .porter ∧ (amapFind? z.teams 0).isSome ∧ z.attached 0 = false ∧ (z.core 0).serving ≠ some (0, 0, 0) ∧
    z.bookFull 0 = false ∧ (book.team 0).kind ≠ .porter ∧ (amapFind? book.teams 0).isSome ∧ (book.core 0).serving ≠ some (0, 0, 0) ∧ book.bookFull 0 = true := by decide
/-- A thread of a space with a debugger. -/
def dbg : State := z.updSpace 0 fun sp => { sp with dbg := 0x8000000000000000 }
set_option maxRecDepth 4000 in
theorem witness_TrapWords : Issues z five { src := [(five.a, 1)] } (i0 five) ∧ Issues z five { src := [(five.a, 1), (five.b, 1)] } (i0 five) ∧ z.attached 0 = false ∧
    Issues dbg five { src := [(five.a, 1)] } (i0 five) ∧ dbg.attached 0 = true ∧ (dbg.team 0).kind ≠ .porter :=
  ⟨z_issues _ _ rfl (by decide) rfl, z_issues _ _ rfl (by decide) rfl, by decide, issues_of _ _ _ rfl rfl rfl rfl rfl (by decide) rfl, rfl, by decide⟩
theorem witness_RefusedWords : sopsOf (.mnop q) = some q ∧ z.turn = .group 0 0 ∧ (z.group 0 0).run = some ⟨0, [0], 0, []⟩ ∧ z.accHeld 0 0 [0] = false ∧
    (z.team 0).kind ≠ .porter ∧ (∃ x o sc u f, IntForm x o sc u f ∧ ({ u with sform := sc } : Uses).inRange (por.regCount 0) = false) ∧ (strm [] []).turn = .stream 0 :=
  ⟨rfl, rfl, rfl, by decide, by decide, ⟨_, _, _, _, _, .mov { o with d := 40 } false, by decide⟩, rfl⟩
theorem witness_PorterWords : Issues por o {} (i0 o) ∧ Issues por five (privUses five [(five.a, 1)]) (i0 five) ∧ (por.team 0).kind = .porter ∧
    (por.porterRecord 0 5).isSome = true ∧ por.porterRecord 0 6 = none ∧ Issues por five { src := [], sd := [(16, 16)], pw := [2] } (i0 five) ∧
    (((por.core 0).book.find? fun e => e.launch = (por.team 0).launch && !e.read && !e.host).isSome) = true ∧
    Issues por five (privUses five [(five.a, 1), (five.b, 1)]) (i0 five) ∧ Issues por five (privUses five [(five.a, 1), (five.b, 1), (five.c, 1)]) (i0 five) ∧
    0x144 ≤ (0x144 : Nat) ∧ ((por.porterRecord 0 5).any fun e => por.selOk e 0x143 && (por.patchSel e 0x141 2).isNone && (por.patchSel e 3 2).isSome) = true :=
  ⟨por_issues _ _ rfl (by decide) rfl, por_issues _ _ rfl (by decide) rfl, rfl, by decide, by decide, por_issues _ _ rfl (by decide) rfl, by decide,
   por_issues _ _ rfl (by decide) rfl, por_issues _ _ rfl (by decide) rfl, by decide, by decide⟩
/-- A mesh group, whose draw allows one vertex of four words and one primitive. -/
def mesh : State := z.updTeam 0 fun tm => { tm with kind := .mesh }
/-- A fragment group, whose draw has no colour target and no depth export. -/
def frag : State := (z.updTeam 0 fun tm => { tm with kind := .fragment }).updLaunch 0 fun l => { l with lr := { l.lr with raster := 31 * 2 ^ (0x20 * 8 + 39) } }
set_option exponentiation.threshold 1100 in
set_option maxRecDepth 4000 in
theorem witness_GraphicsWords : Issues mesh five { src := [(five.a, 1), (five.b, 1), (five.c, 1)] } (i0 five) ∧ (mesh.team 0).kind = .mesh ∧
    0 < 4 + rsAttrs (mesh.rsOf 0) ∧ 0 < rsMaxV (mesh.rsOf 0) ∧ 0 < rsMaxP (mesh.rsOf 0) ∧ 0 + 4 ≤ 4 + rsAttrs (mesh.rsOf 0) ∧
    Issues mesh { five with a := .v 4 } { src := [(.v 4, 4), (five.b, 1), (five.c, 1)] } (i0 { five with a := .v 4 }) ∧
    Issues mesh five { src := [(five.a, 1), (five.b, 1)] } (i0 five) ∧ (z.team 0).kind ≠ .mesh ∧ Issues z five { src := [(five.a, 1), (five.b, 1)] } (i0 five) ∧
    Issues frag { o with a := .v 4, b := .imm 7 } { src := [(.v 4, 4)] } (i0 { o with a := .v 4, b := .imm 7 }) ∧ (frag.team 0).kind = .fragment ∧
    Issues frag o {} (i0 o) ∧ ∀ l ∈ (i0 o).parts, (frag.thread 0 0 l).sect.isOpen = false :=
  ⟨issues_of _ _ _ rfl rfl rfl rfl rfl (by decide) rfl, rfl, by decide, by decide, by decide, by decide, issues_of _ _ _ rfl rfl rfl rfl rfl (by decide) rfl,
   issues_of _ _ _ rfl rfl rfl rfl rfl (by decide) rfl, by decide, z_issues _ _ rfl (by decide) rfl, issues_of _ _ _ rfl rfl rfl rfl rfl rfl rfl, rfl,
   issues_of _ _ _ rfl rfl rfl rfl rfl rfl rfl, by decide⟩
theorem witness_QuadWords : Issues z dab { src := [(dab.a, 1)], vd := [(5, 1)] } (i0 dab) ∧
    (i0 dab).allThere z ((i0 dab).parts.flatMap fun l => (List.range 4).map fun k => 4 * (l / 4) + k).eraseDups ∧
    ∀ l ∈ (i0 dab).parts, fpTrap (fpmTraps (z.thread 0 0 l).fpm)
      (quadDiff (z.thread 0 0 l).fpm (fun k => (i0 dab).parts.contains k) (fun k => src32 z.reading (i0 dab) k dab.a) true false l).2 = none :=
  ⟨z_issues _ _ rfl (by decide) rfl, rfl, by decide⟩
theorem witness_TextureWords : (∃ x o n raw plan, TexForm x o n raw plan ∧ Issues z o
      { src := [(o.a, z.texWords o), (o.b, 8)] ++ (if n = 0 then [] else [(o.c, n)]), vd := [(o.d.toNat, 4)] } (i0 o) ∧ (i0 o).parts ≠ []) ∧
    (z.descOf 0 0 (.s 8)).bad = false ∧ (z.descOf 0 0 (.s 8)).base % 128 = 0 :=
  ⟨⟨_, { pairs with b := .s 8 }, _, _, _, .texL _, z_issues _ _ rfl (by decide) rfl, by decide⟩, by decide, by decide⟩
/-- A group with the copy role; a template of kind 0 with a bitmap. -/
def cop : State := (z.updGroup 0 0 fun g => { g with roleC := true }).updTeam 0 fun tm => { tm with templates := [(1, BitVec.ofNat 512 (2 ^ 63 + 2 ^ 51))] }
set_option exponentiation.threshold 600 in
set_option maxRecDepth 4000 in
theorem witness_CopyWords : Issues z five { src := [(five.a, 1), (five.b, 1)] } (i0 five) ∧ (z.group 0 0).roleC = false ∧
    Issues cop five { src := [(five.a, 1), (five.b, 1)] } (i0 five) ∧ (cop.group 0 0).roleC = true ∧ cop.copyRoom 0 7 = true ∧
    (tmplBad (BitVec.ofNat 512 (2 ^ 63 + 2 ^ 51)) || tmplKind (BitVec.ofNat 512 (2 ^ 63 + 2 ^ 51)) ≠ 0 || tmplDim (BitVec.ofNat 512 (2 ^ 63 + 2 ^ 51)) 1 ≠ 1
      || tmplDim (BitVec.ofNat 512 (2 ^ 63 + 2 ^ 51)) 2 ≠ 1 || !tmplBen (BitVec.ofNat 512 (2 ^ 63 + 2 ^ 51))) = false ∧
    cop.reading.template 0 1 = (some (.inl (BitVec.ofNat 512 (2 ^ 63 + 2 ^ 51))), cop.reading) ∧
    Issues z five (cpUses five false) (i0 five) ∧ (cpMask z.reading (i0 five) 0 false).1 < 16 ∧ 16 ≤ (cpMask (one [(1, 16)]).reading (i0 { o with a := .v 1 }) 0 false).1 ∧
    Issues z five { cpUses five false with pw := [2] } (i0 five) ∧ (src32 z.reading (i0 five) 0 five.a).toNat < 8 ∧ 8 ≤ (src32 z.reading (i0 five) 0 (.imm 8)).toNat :=
  ⟨z_issues _ _ rfl (by decide) rfl, rfl, issues_of _ _ _ rfl rfl rfl rfl rfl (by decide) rfl, rfl, by decide, by decide, rfl, z_issues _ _ rfl (by decide) rfl,
   by decide, by decide, z_issues _ _ rfl (by decide) rfl, by decide, by decide⟩
theorem witness_StreamCommands : Issues (z.updTeam 0 fun tm => { tm with stream := some { pc := 0 } }) dab { src := [(dab.a, 1), (dab.b, 1)] } (i0 dab) ∧
    ((z.updTeam 0 fun tm => { tm with stream := some { pc := 0 } }).team 0).stream ≠ none ∧
    sopsOf (.mnop q) = some q ∧ (strm [] []).turn = .stream 0 ∧ ((strm [] []).team 0).stream = some { pc := 64 } :=
  ⟨issues_of _ _ _ rfl rfl rfl rfl rfl (by decide) rfl, by decide, rfl, rfl, rfl⟩
theorem witness_StreamControl : (strm [] [(1, 2)]).turn = .stream 0 ∧ ((strm [] [(1, 2)]).team 0).stream = some { pc := 64, c := [(1, 2)] } := ⟨rfl, rfl⟩
/-- A fragment thread that shades a quad of a triangle, in a draw of 2 by 2 pixels. -/
def shade : State := { (z.updTeam 0 fun tm => { tm with kind := .fragment, frag := some { flights := [4] } }).updLaunch 0 fun l =>
      { l with lr := { l.lr with raster := 0x20002 } } with
  flights := [(4, { quad := { prim := ⟨⟨0, 0, 9⟩, [0, 0, 0, 0x3F800000], [0x3F800000, 0, 0, 0x3F800000], [0, 0x3F800000, 0, 0x3F800000]⟩, ix := 0, x := 0, y := 0, cover := 1, depth := [] },
                    launch := 0, wing := 0, banks := [], tester := 0 })] }
def prims : Ops := { dab with a := .imm 0x3E }
set_option exponentiation.threshold 1100 in
set_option maxRecDepth 8000 in
theorem witness_QuadWords_interp : Issues shade prims { src := [(prims.a, 1)], vd := [(5, 1)] } (i0 prims) ∧ (i0 prims).parts ≠ [] ∧
    ∀ l ∈ (i0 prims).parts, ∃ f, shade.laneFlight 0 l = some f ∧
      interpSlot (shade.rsOf 0) f.quad (l % 4) .flat false (src32 shade.reading (i0 prims) l prims.a).toNat = some 9 :=
  ⟨issues_of _ _ _ rfl rfl rfl rfl rfl (by decide) rfl, by decide, fun l hl => by cases List.mem_singleton.1 hl; exact ⟨_, rfl, by decide⟩⟩
set_option exponentiation.threshold 1100 in
set_option maxRecDepth 8000 in
theorem witness_TextureWords_hit : (∃ x o n raw plan, TexForm x o n raw plan ∧ Issues hit o
      { src := [(o.a, hit.texWords o), (o.b, 8)] ++ (if n = 0 then [] else [(o.c, n)]), vd := [(o.d.toNat, 4)] } (i0 o) ∧ hit.stopping 0 = false ∧
      (hit.descOf 0 0 o.b).bad = false ∧ raw = true ∧ (hit.descOf 0 0 o.b).base % 128 = 0 ∧
      ∀ q ∈ (plan hit.reading (i0 o) (hit.descOf 0 0 o.b) 0).texels, ∀ a, q.2 = some a → a = 0) ∧ (hit.descOf 0 0 (.s 8)).bpp = 1 ∧
    TexelHit hit (i0 o) 1 0 7 :=
  ⟨⟨_, { pairs with b := .s 8 }, _, _, _, .texld _, issues_of _ _ _ rfl rfl rfl rfl rfl (by decide) rfl, by decide, by decide, rfl, by decide,
      fun q hq a ha => by cases List.mem_singleton.1 hq; cases ha; rfl⟩, by decide,
   by decide, by decide, ⟨_, rfl, by decide, by decide, by decide, by decide, by decide, by decide⟩⟩
theorem witness_BarrierWords_single :
    (barOps bars.reading (i0 { bop with b := .imm 3 }) 0 false).1 = .inl (.num 3) ∧ bars.barLive 0 (.num 3) = true ∧
    (let n := (barOps bars.reading (i0 { bop with b := .imm 3 }) 0 false).2 % 2 ^ 16
     n ≠ 0 ∧ n ≤ (BarRef.num 3).limit ∧ n = (bars.barGet 0 (.num 3)).expect) ∧
    Issues bars { bop with b := .imm 3 } (barUses { bop with b := .imm 3 }) (i0 { bop with b := .imm 3 }) ∧
    Issues bars { bop with c := .imm 1 } { src := [(bop.a, 1), (bop.b, 1), (.imm 1, 1)] } (i0 { bop with c := .imm 1 }) ∧
    (src32 bars.reading (i0 { bop with c := .imm 1 }) 0 (.imm 1)).toNat % 2 ^ 16 ≠ 0 ∧
    (bars.barGet 0 (.num 3)).phase.toNat % 2 = (barOps bars.reading (i0 { bop with b := .imm 2 }) 0 false).2 % 2 ∧
    (bars.barGet 0 (.num 3)).phase.toNat % 2 ≠ (barOps bars.reading (i0 bop) 0 false).2 % 2 ∧ (BarRef.num 3).wide = false :=
  ⟨by decide, by decide, by decide, issues_of _ _ _ rfl rfl rfl rfl rfl (by decide) rfl, issues_of _ _ _ rfl rfl rfl rfl rfl (by decide) rfl,
   by decide, by decide, by decide, rfl⟩
/-- Row 0 held by another team of the core, whose page the thread of `tl` names. -/
def booked : State := { tl with
  teams := amapInsert tl.teams 9 {}
  rows := [(0, ⟨0, 0, false, .open_, [], [], [], 0, false⟩), (1, ⟨512, 0, false, .open_, [9], [], [], 0, false⟩)] }
theorem witness_RowWords_join : booked.row? 0 1 = some ⟨512, 0, false, .open_, [9], [], [], 0, false⟩ ∧
    (⟨512, 0, false, .open_, [9], [], [], 0, false⟩ : Row).heldBy 0 = false ∧ booked.bookedOn 0 < 8 ∧ 8 ≤ rows.bookedOn 0 ∧
    Issues booked v23 { src := addrSrc v23 true, sd := [(0, 1)], pw := [2] } (i0 v23) ∧
    booked.reading.ptrCheck 0 0 (effAddr booked.reading (i0 v23) 0 0 true 1) 1 [0] none false = none ∧
    ∃ S, booked.reading.translate (coreWing (booked.team 0).core) (booked.team 0).launch .ctlb (effAddr booked.reading (i0 v23) 0 0 true 1) .read .rowbook none =
        (.ok ⟨2 ^ 20, .priv, 0, false, true⟩, S) ∧ S.flipping (2 ^ 20) = false ∧ S.bookOutcome 0 ⟨2 ^ 20, .priv, 0, false, true⟩ = (0, 1, false, S) :=
  ⟨rfl, by decide, by decide, by decide, issues_of _ _ _ rfl rfl rfl rfl rfl (by decide) rfl, by decide,
   _, rfl, by decide, rfl⟩
/-- A lane whose launch record, all zeros at pointer 0, has been read. -/
def recd : State := { tl with accs := (List.range 4).map fun k => (k, { unitAcc (.record 0 0 0) 0 0 (64 * k) 64 (.load false) 0 false with value := some 0 }) }
/-- The same, its reads not answered yet. -/
def unread : State := { recd with accs := recd.accs.map fun x => (x.1, { x.2 with value := none }) }
set_option exponentiation.threshold 2100 in
set_option maxRecDepth 20000 in
theorem witness_ShootdownAndLaunch_record : Issues recd v23 { src := [(v23.a, 1), (v23.b, 2)], vd := [(0, 1)] } (i0 v23) ∧
    Issues unread v23 { src := [(v23.a, 1), (v23.b, 2)], vd := [(0, 1)] } (i0 v23) ∧
    (∃ S, recd.reading.recRead 0 0 0 (src64 recd.reading (i0 v23) 0 v23.b false).toNat = (.ok 0 0, S) ∧
      (src32 (S.recDone (i0 v23)) (i0 v23) 0 v23.a).toNat < 256 ∧ ((S.recDone (i0 v23)).queue 0).space = (S.recDone (i0 v23)).spaceOf 0 ∧
      ((S.recDone (i0 v23)).queue 0).items.length < 64) ∧
    256 ≤ (src32 (one [(1, 256)]).reading (i0 o) 0 (.v 1)).toNat ∧
    (recd.reading.recReads (i0 v23) (i0 v23).parts).1.any (·.2 == .wait) = false ∧
    (unread.reading.recReads (i0 v23) (i0 v23).parts).1.any (·.2 == .wait) = true :=
  ⟨⟨rfl, rfl, rfl, by decide, by decide, by decide, by decide, .inl (by decide), .inl rfl, .inr (.inl rfl)⟩, ⟨rfl, rfl, rfl, by decide, by decide, by decide, by decide, .inl (by decide), .inl rfl, .inr (.inl rfl)⟩, ⟨_, rfl, by decide, by decide, by decide⟩, by decide, by decide, by decide⟩
/-! ### Events -/

def acc0 : Access := { who := .thread 0 0 0, core := 0, space := 0, pc := 0, len := 8, op := .load false, va := 0, pa := 1024, n := 4, cls := .home,
                       key := 0, h := false, data := 0, cmp := 0, dst := .vec 5 1, scope := .device }
/-- The thread's access 7 is in flight. -/
def flying (a : Access) : State := { z with accs := [(7, a)] }
/-- The thread waits, as set 3. -/
def waiting (c : Cond) : State := z.updGroup 0 0 fun g => { g with run := none, waits := [(3, ⟨[0], c⟩)], threads := [(0, { stat := .waiting 3 })] }
def landing (medium scalar : Bool) : State := { z with pends := [(7, ⟨0, 0, medium, scalar, [(0, 5, 9)], []⟩)] }
theorem witness_ResultsAndWaits : amapFind? (landing true true).pends 7 = some ⟨0, 0, true, true, [(0, 5, 9)], []⟩ ∧
    amapFind? (landing false false).pends 7 = some ⟨0, 0, false, false, [(0, 5, 9)], []⟩ ∧ (amapFind? (landing true true).teams 0).isSome ∧
    (∀ c, amapFind? ((waiting c).group 0 0).waits 3 = some ⟨[0], c⟩) ∧ (amapFind? (waiting .roc).teams 0).isSome ∧
    ((waiting .roc).thread 0 0 0).stat = .waiting 3 ∧ (waiting .roc).hasLane 0 0 0 = true ∧
    (0 : DWord) &&& ~~~ amapGet 0 ((waiting (.copies 1 0)).team 0).bmaps 1 = 0 ∧ 0 ≤ (amapGet 0 ((waiting (.source 1 0)).team 0).released 1 - 0).toInt ∧
    0 ≤ (waiting (.pause 0)).cclk ∧ (∀ k ∈ [7], amapFind? (waiting (.sync [7])).accs k = none) ∧
    (({ waiting (.rowOpen 0 4) with rows := [(4, ⟨0, 4, false, .opening, [0], [], [], 0, false⟩)] } : State).row? 0 4) = some ⟨0, 4, false, .opening, [0], [], [], 0, false⟩ ∧
    amapFind? ({ waiting (.presence [7]) with accs := [(7, acc0)] } : State).accs 7 = some acc0 ∧
    ({ waiting (.presence [7]) with accs := [(7, acc0)] } : State).present ((waiting (.presence [7])).scrTarget 0 acc0.va).1 ((waiting (.presence [7])).scrTarget 0 acc0.va).2 = true ∧
    ((z.updThread 0 0 0 fun th => { th with stat := .conv 1 }).group 0 0).convSet = [0] ∧
    amapFind? ((z.updTeam 0 fun tm => { tm with deferred := [(2, ⟨0, 0, 0, .num 3, 1, []⟩)] }).team 0).deferred 2 = some ⟨0, 0, 0, .num 3, 1, []⟩ :=
  ⟨rfl, rfl, by decide, fun _ => rfl, by decide, rfl, by decide, by decide, by decide, by decide, by decide, rfl, rfl, by decide, by decide, rfl⟩
/-- A home line that one other core shares, and a transaction of it in progress. -/
def shared : State := { flying acc0 with l2 := [(8, { data := 0, sharers := [4] })] }
def busy : State := { flying acc0 with txns := [.fill 8 0 1 7 [4]] }
/-- The access is in flight, and its line is in L2, with no sharer. -/
def homed (a : Access) : State := { flying a with l2 := [(8, { data := 0 })] }
/-- A core that holds the line as TRACKED. -/
def tracked : State := z.updCore 0 fun k => { k with l1 := [⟨0, 0, 8, .tracked, 0, 7, 255, 0, 0, 0, none, none, false, true, 0⟩] }
theorem witness_FillsAndIntents : amapFind? (flying acc0).accs 7 = some acc0 ∧ busy.lineBusy 8 = true ∧ (homed acc0).lineBusy 8 = false ∧
    ((homed acc0).l2Fetch 8 0).demoted 8 = false ∧ (((homed acc0).l2Fetch 8 0).l2At 8).sharers = [] ∧ ((homed acc0).l2Fetch 8 0).raceAt 8 0 15 true = false ∧
    (shared.l2Fetch 8 0).demoted 8 = false ∧ ((shared.l2Fetch 8 0).l2At 8).sharers = [4] ∧ (4 : Nat) ≠ 0 ∧ ((flying acc0).core 0).l1Tracked 8 = none ∧
    ((tracked.core 0).l1Tracked 8).isSome = true ∧ (∀ t ∈ (flying acc0).txns, ∀ c b a w, t ≠ .fill 8 c b a w) ∧
    (∀ t ∈ (flying acc0).txns, ∀ c b e a w, t ≠ .intent 8 c b e a w) ∧ ({ acc0 with once := true } : Access).op.isStore = false :=
  ⟨rfl, by decide, by decide, by decide, by decide, by decide, by decide, by decide, by decide, by decide, by decide, nofun, nofun, rfl⟩
theorem witness_WriteBacksAndDarnings : ((z.overtake 0 8).core 0).l1Tracked 8 = none ∧ (((tracked.overtake 0 8).core 0).l1Tracked 8).isSome = true ∧ (z.core 0).epoch ≤ 1 ∧
    ((z.updCore 0 fun k => { k with epoch := 3 }).core 0).epoch = 3 ∧ 0 ≤ z.pubOf (homeOf 8) 0 ∧ z.pubOf (homeOf 8) 0 < 1 ∧
    ((z.core 0).l1.filter fun l => l.cls = .tracked && z.darnBytes 0 1 l != 0) = [] ∧
    ({ z with txns := [.darn 8 0 1 [7]] } : State).txns = [.darn 8 0 1 [7]] ∧ ({ z with txns := [.inval 8 0 4 .plain] } : State).txns = [.inval 8 0 4 .plain] ∧
    ({ z with txns := [.publish 0 1 8 [5] [7]] } : State).txns = [.publish 0 1 8 [5] [7]] :=
  ⟨by decide, by decide, by decide, by decide, by decide, by decide, by decide, rfl, rfl, rfl⟩
def replAcc : Access := { acc0 with cls := .repl, value := some 3, snoops := [1] }
/-- Die 0 holds a replica of the access's line. -/
def replicas (pending : List Nat) (poison : BitVec 2) : State :=
  { flying replAcc with repl := [(2 * replAcc.pline, { data := 0, poison := poison, pending := pending })] }
theorem witness_HopsAndReplicas : amapFind? (flying acc0).accs 7 = some acc0 ∧ amapFind? (flying replAcc).accs 7 = some replAcc ∧
    ((replicas [] 0).replLine replAcc.pline 0 0).pending = [] ∧ ((replicas [] 0).replLine replAcc.pline 0 0).poison.getLsbD 0 = false ∧
    (replicas [9] 0).replLine replAcc.pline 0 0 = { data := 0, pending := [9] } ∧ ((replicas [] 1).replLine replAcc.pline 0 0).poison.getLsbD 0 = true ∧
    replAcc.dst ≠ .none ∧ replAcc.value = some 3 ∧ replAcc.snoops = [1] ∧ ({ replAcc with snoops := [0, 1] } : Access).snoops = [0, 1] :=
  ⟨rfl, rfl, rfl, rfl, rfl, rfl, by decide, rfl, rfl, rfl⟩
theorem witness_TranslationEvents : (z.walk 0 0 0 false .plain).1 = .breach 0 ∧
    ((z.updDie 0 fun d => { d with reqs := [⟨false, 0, 5, 1, 0⟩] }).die 0).posted = none ∧
    ((z.updDie 0 fun d => { d with reqs := [⟨false, 0, 5, 1, 0⟩] }).die 0).reqs = [⟨false, 0, 5, 1, 0⟩] ∧
    ((z.updDie 0 fun d => { d with posted := some ⟨false, 0, 5, 1, 0⟩ }).die 0).posted = some ⟨false, 0, 5, 1, 0⟩ ∧
    ((z.updDie 0 fun d => { d with posted := some ⟨true, 0, 5, 1, 0⟩ }).die 0).posted = some ⟨true, 0, 5, 1, 0⟩ ∧
    ({ z with shoots := [(3, ⟨2, 0, 0, 1, none, 0, false⟩)] } : State).shoots = [(3, ⟨2, 0, 0, 1, none, 0, false⟩)] :=
  ⟨rfl, rfl, rfl, rfl, rfl, rfl⟩
theorem witness_ResultsAndWaits_fencex :
    (∀ k ∈ [7], ∀ c, amapFind? ({ waiting (.fencex [] [7] [9] .c .v) with copies := [(7, { team := 0, gix := 0, lane := 0, pc := 0, ch := 0, tmpl := 0, iter := 0, faulted := true, cause := some .poison })] } : State).copies k = some c →
      c.reported = true) ∧ (∀ k ∈ [9], amapFind? z.flights k = none) :=
  ⟨fun k hk c hc => by cases List.mem_singleton.1 hk; cases hc; rfl, by decide⟩
def wbk : State := { flying acc0 with txns := [.intent 8 0 1 3 7 [4]] }
theorem witness_FillsAndIntents_answers : (busy.maskPut 8 4 none none).txns = [.fill 8 0 1 7 [4]] ∧ (wbk.maskPut 8 4 none none).txns = [.intent 8 0 1 3 7 [4]] ∧
    (flying { acc0 with once := true }).accs = [(7, { acc0 with once := true })] ∧ (0 : BitVec 2).getLsbD (acc0.pa % 128 / 64) = false ∧ acc0.once = false ∧
    acc0.op.isAtom = false ∧ amapFind? ((homed acc0).l2Fetch 8 0).accs 7 = some acc0 :=
  ⟨rfl, rfl, rfl, by decide, rfl, rfl, rfl⟩
/-- Core 0 in its epoch 3, a line of which holds bytes that it wrote, dirty, in epoch 2. -/
def owing : State := z.updCore 0 fun k => { k with epoch := 3, l1 := [⟨0, 0, 8, .tracked, 0, 7, 255, 15, 0, 0, some ⟨2, 0, 15⟩, none, false, true, 0⟩] }
set_option exponentiation.threshold 1100 in
set_option maxRecDepth 8000 in
theorem witness_WriteBacksAndDarnings_owed : 2 < (owing.core 0).epoch ∧ owing.pubOf (homeOf 8) 0 < 2 ∧
    ((owing.core 0).l1.filter fun l => l.cls = .tracked && owing.darnBytes 0 2 l != 0) =
      [⟨0, 0, 8, .tracked, 0, 7, 255, 15, 0, 0, some ⟨2, 0, 15⟩, none, false, true, 0⟩] ∧
    ((shared.l2At 8).sharers.contains 4 = true ∧ (4 : Nat) ≠ 0 ∧ (shared.l2At 8).sharers.contains 5 = false) ∧
    (3 : Nat) ∈ [3] := by decide
def trackedAcc : Access := { acc0 with cls := .tracked }
def demotedLine : State := { flying trackedAcc with l2 := [(8, { data := 5, demoted := true })] }
theorem witness_HopsAndReplicas_demoted : amapFind? (homed trackedAcc).accs 7 = some trackedAcc ∧ (homed trackedAcc).lineBusy 8 = false ∧ trackedAcc.pline = 8 ∧
    ((homed trackedAcc).l2Fetch 8 0).demoted 8 = false ∧ (demotedLine.l2Fetch 8 0).demoted 8 = true ∧ trackedAcc.op.isAtom = false ∧
    (demotedLine.l2Fetch 8 0).raceAt 8 0 (byteMask (trackedAcc.pa % 128) 4) false = false ∧
    ((demotedLine.maskPut 8 4 none (some ⟨1, 0, 15⟩)).l2Fetch 8 0).raceAt 8 0 15 false = true ∧
    (∃ v, ((demotedLine.l2Fetch 8 0).atHome trackedAcc).1 = .done v) ∧
    acc0.op.ord = .none ∧ acc0.engine = false ∧ ((flying acc0).homeRead 1024 4 0).2.1 = false ∧
    amapFind? (flying { replAcc with snoops := [1] }).accs 7 = some { replAcc with snoops := [1] } :=
  ⟨rfl, by decide, rfl, by decide, by decide, rfl, by decide, by decide, ⟨_, rfl⟩, rfl, rfl, by decide, rfl⟩
/-- A walk-cache entry that points to a table whose first entry is a leaf. -/
def paged : State := { z.updWing 0 fun w => { w with walks := [⟨1, 0, 0, 4096⟩] } with dram := memPut z.dram 4096 [0x83] }
/-- A walk that waits at wing 0, of an address whose tables are those of `paged`; and one of an address that has none. -/
def queued (va : Nat) : State := paged.updWing 0 fun w => { w with walkQ := [{ space := 0, va := va, write := false, need := .plain, tlbs := [.vtlb] }] }
/-- A thread of a Nirop launch that looks for the block of hash 77 at its PC. -/
def niro : State := (z.updLaunch 0 fun l => { l with lr := { l.lr with nirop := 0xAA000803 } }).updGroup 0 0 fun g => { g with seek := some (0, 77) }
theorem niro_room : ∃ p ps, niro.blockRoom 0 = p :: ps :=
  List.exists_cons_of_ne_nil (List.ne_nil_of_mem (List.mem_filter.2 ⟨List.mem_range.2 (by decide : 0 < 65536), rfl⟩))
set_option exponentiation.threshold 1100 in
set_option maxRecDepth 20000 in
theorem witness_TranslationEvents_walk :
    ((queued 0).wing 0).walking = [{ space := 0, va := 0, write := false, need := .plain, tlbs := [.vtlb] }] ∧ (queued 0).shoots = [] ∧
    ((queued 0).space 0).inCache 0 = false ∧
    (let root := bitField 51 12 ((queued 0).space 0).root.toNat * 4096
     let st := walkStart ((queued 0).wing 0) 0 0 root
     ∀ a ∈ (if 0x2FFFFFF000 < root then [] else walkReads (queued 0) 0 0 (5 - st.1) st.1 st.2), (queued 0).flipping a = false ∧ (queued 0).hostBias a = false) ∧
    (∃ f, ((queued 0).walk 0 0 0 false .plain).1 = .leaf f) ∧ ((queued (2 ^ 50)).walk 0 0 (2 ^ 50) false .plain).1 = .breach 0 ∧
    niro.blockWaiter 0 0 77 0xAA000803 = some (0, 0, 0) ∧ z.boot.ready = true ∧ State.reset.boot.ready = false ∧
    ({ z with shoots := [(3, ⟨2, 0, 0, 1, none, 0, false⟩)] } : State).shootBusy ⟨2, 0, 0, 1, none, 0, false⟩ = false :=
  ⟨rfl, rfl, by decide, by decide, ⟨_, rfl⟩, rfl, by decide, rfl, rfl, by decide⟩
def cmd0 (i : Instr) : Cmd := { seq := 4, cid := 0, instr := i, pc := 64, ka := 0, kb := 0, kc := 0, kc1 := 0, preds := [] }
/-- A stream whose window holds one command; 3 is a barrier in phase 1. -/
def winC (c : Cmd) : State := (z4.updTeam 0 fun tm => { tm with bars := amapInsert tm.bars 3 { phase := 1, arrived := 0, expect := 0, preset := 0, recs := [] } }).updTeam 0
  fun tm => { tm with stream := some { pc := 64, window := [c] } }
def win (i : Instr) : State := winC (cmd0 i)
def fetched (b : BitVec 256) : State := (strm [] []).icachePut 0 0 64 b
theorem witness_StreamEvents : (fetched 0x1CF0).streamFetches 0 = true ∧ (fetched 0).fetchPc 0 32 = some 64 ∧ (fetched 0x7E7A).icacheAt 0 0 64 = some 0x7E7A ∧
    (strm [] []).icacheAt 0 0 64 = none ∧ (strm [] []).streamFetches 0 = true ∧ (strm [] []).fetchPc 0 32 = some 64 ∧
    streamDecode (blockFrom (0x7E7A : BitVec 256) 64 % 2 ^ 128) = .inl (.mnop q) ∧ streamDecode (blockFrom (0 : BitVec 256) 64 % 2 ^ 128) = .inr .illegalOpcode ∧
    ((win (.mbw { q with a := .imm 3, b := .imm 0 })).team 0).stream = some { pc := 64, window := [cmd0 (.mbw { q with a := .imm 3, b := .imm 0 })] } ∧
    mbwOf (.mbw { q with a := .imm 3, b := .imm 0 }) = some (3, 0) ∧ ((win (.mnop q)).bar 0 3).phase.toNat % 2 ≠ 0 ∧ (win (.mnop q)).streamHeld 0 = false ∧
    ({ pc := 64, window := [cmd0 (.mnop q)] } : Stream).cmd? 4 = some (cmd0 (.mnop q)) ∧ ({ pc := 64, window := [cmd0 (.mnop q)] } : Stream).startable (cmd0 (.mnop q)) = true ∧
    (win (.mnop q)).engineTurn 0 = true ∧ maskBad 0 true true false 0 = false ∧ (z.arrive 0 (.num 3) (mbarCount { q with a := .imm 3, b := .imm 1 }) true).1 = none :=
  ⟨by decide, by decide, rfl, by decide, by decide, by decide, by decide, by decide, rfl, rfl, by decide, by decide, rfl, by decide, by decide, by decide, by decide⟩
/-- A command of mask (1, 1, 1) whose byte 0 of the scratchpad has come. -/
def cmd1 (i : Instr) : Cmd := { cmd0 i with kc := 0x10101, kb := 2 ^ 61, got := [(2 ^ 61, 5)] }
theorem witness_StreamEvents_multiply : ∃ fa fb, mulOf (.mmq q false 0 false) = some ⟨.mmq, false, false, false, q, 0⟩ ∧
    (winC (cmd1 (.mmq q false 0 false))).matFmt 0 0 MulKind.mmq.codes = some fa ∧ (winC (cmd1 (.mmq q false 0 false))).matFmt 0 0 MulKind.mmq.codes = some fb ∧ fb.bytes = 1 ∧
    maskBad 0x10101 true true true MulKind.mmq.kmax = false ∧ maskOf 0x10101 = (1, 1, 1) ∧ maskOf 0 = (0, 0, 0) ∧
    (amapGet ({} : Tile) ([] : AMap Tile) 0).int = (MulKind.mmq == .mmi) ∧ grid 1 1 = [(0, 0)] ∧ mParts (2 ^ 61) 1 = [(2 ^ 61, 1, 0)] ∧
    (amapFind? ((winC (cmd1 (.mmq q false 0 false))).cmdGot 0 4) (2 ^ 61)).isSome = true :=
  ⟨.flt ⟨3, 4, 7, 126, false, 127⟩, .flt ⟨3, 4, 7, 126, false, 127⟩, rfl, rfl, rfl, rfl, by decide, by decide, by decide, by decide, by decide, by decide, by decide⟩
/-- The same before the byte has come. -/
def cmd2 (i : Instr) : Cmd := { cmd1 i with got := [] }
set_option exponentiation.threshold 1100 in
theorem witness_StreamEvents_moves : ∃ f, (winC (cmd2 (.mld q))).matFmt 0 0 [1, 2, 3, 4, 6] = some f ∧ (winC (cmd2 (.mld q))).matFmt 0 0 (mstCodes false false false) = some f ∧
    f.bytes = 1 ∧ maskBad 0x10101 true false true 32 = false ∧ maskBad 0x10101 true true false 0 = false ∧ (grid 1 1)[(cmd2 (.mld q)).elem]? = some (0, 0) ∧
    ptrTag (2 ^ 61) = 2 ∧ (wide (winC (cmd2 (.mld q)))).cmdFlying 0 4 = false ∧ (wide (winC (cmd2 (.mld q)))).ptrCheck 0 0 (2 ^ 61) 1 [0, 1, 2] none true = none ∧
    (mParts (2 ^ 61) 1).find? (fun y => (amapFind? ((winC (cmd2 (.mld q))).cmdGot 0 4) y.1).isNone) = some (2 ^ 61, 1, 0) ∧
    ((winC (cmd2 (.mld q))).scrRead 0 0 1).2 = false :=
  ⟨.flt ⟨3, 4, 7, 126, false, 127⟩, rfl, rfl, by decide, by decide, by decide, by decide, by decide, by decide, by decide, by decide, by decide⟩
/-- A surface of 2 pixels of a format of two bytes a channel, for a tensor view. -/
def viewed : State := { (winC { cmd0 (.mstV q 0 0 false false) with kc := 0x101, kb := 2 ^ 60 }).updLaunch 0 (fun l => { l with lr := { l.lr with slots := [2 ^ 14] } }) with
  stes := [(0, { value := BitVec.ofNat 256 (2 ^ 50 + 2 ^ 16), state := .active, frames := [(0, { region := 0, state := .resident, age := 0 })] })] }
theorem witness_StreamEvents_views : viewed.viewCheck 0 (2 ^ 60) = none ∧ viewed.viewPtr (2 ^ 60 + 2) 0 0 = none ∧ viewed.viewPtr (2 ^ 60) 0 0 = some (2 ^ 60) ∧
    (viewed.matFmt 0 0 (mstCodes false false true)).isSome = true ∧ (mParts (2 ^ 60) 2).length = 1 := by decide
/-- A copy of one element, from and to byte 0 of GLOBAL; and one within the scratchpad. -/
def cp0 : Copy := { team := 0, gix := 0, lane := 0, pc := 0, ch := 0, tmpl := BitVec.ofNat 512 (2 ^ 63 + 2 ^ 51), iter := 0 }
def cpS : Copy := { cp0 with tmpl := BitVec.ofNat 512 (2 ^ 63 + 2 ^ 51) ||| BitVec.ofNat 512 (2 ^ 509) ||| BitVec.ofNat 512 (2 ^ 445) }
def copying (s : State) (c : Copy) : State := { s with copies := [(7, c)] }
set_option exponentiation.threshold 600 in
set_option maxRecDepth 4000 in
theorem witness_CopyEvents : amapFind? (copying z cp0).copies 7 = some cp0 ∧ cp0.faulted = false ∧ cp0.pos < cp0.total ∧ (copying z cp0).copyTurn 7 cp0 = true ∧ ((copying z cp0).team 0).preempt = false ∧
    (copying z cp0).accs = [] ∧ (ptrTag (ptrAdd cpS.src0 (cpS.offs 0).1) = 2 ∧ ptrTag (ptrAdd cpS.dst0 (cpS.offs 0).2) = 2 ∧ cpS.pos < cpS.total ∧ tmplKind cpS.tmpl ≠ 2 ∧
      ((copying z cpS).scrRead 0 (ptrAdd cpS.src0 (cpS.offs 0).1 % 2 ^ 19) cpS.e).2 = false) ∧
    (∃ tr S, (copying z cp0).eResolve 0 (ptrAdd cp0.src0 (cp0.offs 0).1) .ctlb false .plain none = (.trap tr, S)) ∧
    ({ cp0 with pos := 1 } : Copy).total ≤ 1 ∧ 0 < ({ cp0 with pos := 1 } : Copy).nc ∧ ({ cp0 with pos := 1, released := true } : Copy).chunkDone 1 0 = true ∧ tmplBen cp0.tmpl = true :=
  ⟨rfl, rfl, by decide, by decide, rfl, rfl, by decide, ⟨_, _, rfl⟩, by decide, by decide, by decide, by decide⟩
/-- Surface 3 in a state, with a frame in a state. -/
def surf (st : SteState) (f : FrameState) : State := { z with stes := [(3, { state := st, frames := [(0, { region := 0, state := f, age := 0 })] })] }
/-- The read of a SURFACE word waits at bank 0, whose domain is ON. -/
def surfAcc : Access := { acc0 with va := 2 ^ 60 }
def banked : State := { sfs with accs := [(7, surfAcc)], bankReqs := [{ bank := 0, cls := 2, src := 0, read := true, job := .acc 7 }] }
theorem witness_SurfaceEvents : ((surf .allocating .resident).ste 3).state = .allocating ∧ (surf .allocating .resident).ratioTo = none ∧
    ((surf .releasing .resident).ste 3).state = .releasing ∧ (surf .releasing .resident).steBusy 3 = false ∧ amapFind? (surf .active .resident).reserve 0 = none ∧
    (surf .active .resident).spilling 0 0 true = 0 ∧ amapFind? ((surf .active (.spilling true)).ste 3).frames 0 = some { region := 0, state := .spilling true, age := 0 } ∧
    (surf .active (.spilling true)).pressBusy 3 0 = false ∧ amapFind? ((surf .active .filling).ste 3).frames 0 = some { region := 0, state := .filling, age := 0 } ∧
    banked.bankPick 0 = some { bank := 0, cls := 2, src := 0, read := true, job := .acc 7 } ∧ banked.domain (bankDomain 0) ≠ .retention ∧
    (banked.setDomain (bankDomain 0) .retention).domain (bankDomain 0) = .retention ∧ amapFind? banked.accs 7 = some surfAcc ∧
    (banked.reach (surfIx surfAcc.va) (surfOff surfAcc.va) true surfAcc.va).1 = .go 0 0 0 :=
  ⟨rfl, rfl, rfl, by decide, rfl, by decide, rfl, by decide, rfl, by decide, by decide, by decide, rfl, by decide⟩
/-- Region 0 enabled, with a surface that is being allocated in it, and one whose frame the press may choose. -/
def spilly : State := { z with intlv := [(0, 2 ^ 63 + 20 * 2 ^ 46)], stes := [(2, { state := .active, value := 2 ^ 20, frames := [(0, { region := 0, state := .resident, age := 0 })] }), (3, { state := .allocating })] }
set_option exponentiation.threshold 1100 in
set_option maxRecDepth 20000 in
theorem witness_SurfaceEvents_press : spilly.pressPick (spilly.evictable 0 0) = some (2, 0, { region := 0, state := .resident, age := 0 }) ∧
    ((spilly.ste 3).state = .allocating ∧ (spilly.ste 3).regionIx = 0 ∧
      ({ spilly with intlv := [] } : State).evictable 0 1 = [] ∧ (z.framesFree 0 0).length < (spilly.ste 3).framesNeeded ((z.region 0).stack % 2) 0 ∧ z.evictable 0 0 = [] ∧ z.spilling 0 0 false = 0) ∧
    (List.range 16).find? (fun r => (spilly.region r).ok && decide ((spilly.region r).base * 2 ^ 20 ≤ 0) && decide (0 + 4 ≤ (spilly.region r).base * 2 ^ 20 + (spilly.region r).size)) = some 0 := by decide
set_option exponentiation.threshold 1100 in
set_option maxRecDepth 20000 in
theorem witness_SurfaceEvents_frames : (spilly.ste 3).framesNeeded ((spilly.region 0).stack % 2) 0 = 1 ∧ (spilly.ste 3).framesNeeded ((spilly.region 0).stack % 2) 1 = 0 ∧
    1 ≤ (spilly.framesFree 0 0).length ∧ (∃ T, sfs.dbgFrames 0 0 = (true, T)) ∧ 0 + 4 ≤ (sfs.ste 0).viewBytes ∧ (sfs.ste 0).state = .active :=
  ⟨by decide, by decide, List.length_pos_of_mem (a := 5) (List.mem_filter.2 ⟨List.mem_filter.2 ⟨List.mem_range.2 (by decide), by decide⟩, by decide⟩),
   ⟨_, rfl⟩, by decide, rfl⟩
theorem witness_DomainsAndRows : on.domain 3 = .on ∧ (∀ x ∈ on.bankReqs, bankDomain x.bank ≠ 3) ∧ (on.setDomain 3 .retention).domain 3 = .retention ∧ (on.setDomain 3 .off).domain 3 = .off ∧
    on.domainHeld 3 = false ∧ (rows.row? 0 3).isSome = true ∧ (({ rows with rows := [(4, ⟨0, 4, false, .refresh, [0], [], [], 0, false⟩)] } : State).row? 0 4) =
      some ⟨0, 4, false, .refresh, [0], [], [], 0, false⟩ ∧ z.rows = [] ∧ (∀ u ∈ [0], ∃ x, dramPlace (64 * u) = ((dramPlace 0).1, (dramPlace 0).2.1, (dramPlace 0).2.2.1, x)) ∧
    (191 < 192 ∧ 31 < 32) ∧ amapFind? (flying { acc0 with va := 2 ^ 62 }).accs 7 = some { acc0 with va := 2 ^ 62 } ∧ (2 ^ 62 : Nat) / 2 ^ 60 = 4 :=
  ⟨by decide, by rw [show on.bankReqs = [] from rfl]; exact List.forall_mem_nil _, by decide, by decide, by decide, by decide, rfl, rfl,
   fun u hu => by cases List.mem_singleton.1 hu; exact ⟨_, rfl⟩, by decide, rfl, by decide⟩
/-- A mesh team of a draw of launch 0 with no live lane. -/
def drawing : State := { z.updTeam 0 fun tm => { tm with kind := .mesh, number := 0, groups := [] } with draws := [(0, { launch := 0, queue := 2, number := 0 })] }
def prim0 : Prim := ⟨⟨0, 0, 0⟩, [], [], []⟩
def quad0 : Quad := ⟨prim0, 0, 0, 0, 1, []⟩
def toRaster : State := z.updWing 0 fun w => { w with queue := [(0, prim0)] }
def tokens (st : SteState) : State := { (z.updWing 0 fun w => { w with quads := [(0, quad0)] }).updLaunch 0 fun l => { l with lr := { l.lr with raster := BitVec.ofNat 1024 (2 ^ (0x18 * 8 + 51)) } } with
  stes := [(0, { state := st })] }
def flight0 : Flight := { quad := quad0, launch := 0, wing := 0, banks := [0], tester := 0, empty := true }
def openSect (k : Kind) : State := (z.updTeam 0 fun tm => { tm with kind := k, preempt := true }).updThread 0 0 0 fun th => { th with sect := .open_ 0 }
set_option exponentiation.threshold 1100 in
theorem witness_RasterEvents : drawing.emitDraw 2 = some (0, { launch := 0, queue := 2, number := 0 }) ∧
    (drawing.teams.find? fun kv => kv.2.launch = 0 && kv.2.kind == .mesh && kv.2.number = 0).isSome = true ∧ (drawing.team 0).preempt = false ∧ (drawing.team 0).groups = [] ∧
    (toRaster.wing 0).queue = [(0, prim0)] ∧ (toRaster.wing 0).quads = [] ∧ ((tokens .inactive).wing 0).quads = [(0, quad0)] ∧ (tokens .inactive).tokenTurn 0 0 quad0 = true ∧
    ((tokens .inactive).reachSpots ((tokens .inactive).quadSpots ((tokens .inactive).launch 0).lr.raster quad0) false).1 = (false, true, false) ∧
    ((tokens .allocating).reachSpots ((tokens .allocating).quadSpots ((tokens .allocating).launch 0).lr.raster quad0) false).1 = (true, false, false) ∧
    amapGet [] ({ z with slots := [(3, [9])], flights := [(9, flight0)] } : State).slots 3 = [9] ∧ flight0.empty = true ∧
    (({ z with flights := [(9, { flight0 with empty := false })] } : State).unshaded 0) = [(9, { flight0 with empty := false })] ∧
    ((openSect .fragment).thread 0 0 0).sect = .open_ 0 ∧ ((openSect .fragment).thread 0 0 0).stat = .ready ∧ ((openSect .fragment).team 0).kind = .fragment ∧
    ((openSect .fragment).team 0).preemptAt + 2 ^ 16 ≤ ({ openSect .fragment with cclk := 2 ^ 24 } : State).cclk ∧
    (waiting .roc).waitOf 0 0 3 = some ⟨[0], .roc⟩ ∧ (waiting .roc).mayEnter 0 0 = true ∧ (waiting .roc).hasLane 0 0 0 = true :=
  ⟨by decide, by decide, rfl, rfl, rfl, rfl, rfl, by decide, by decide, by decide, rfl, rfl, rfl, rfl, rfl, rfl, by decide, rfl, by decide, by decide⟩
def idle : State := z.updGroup 0 0 fun g => { g with run := none, threads := [(0, { stat := .ready })] }
theorem witness_SchedulingEvents : idle.bindPick 0 0 = some (0, 0) ∧ (1 : Nat) ∉ idle.boundCtxs 0 0 ∧
    por.porterTeam 0 = some 0 ∧ ((por.group 0 0).run.isSome = true) ∧ z.porterTeam 0 = none ∧ z.porterAsleep 0 = true ∧
    z.fetchPc 0 0 = some 0 ∧ (z.icacheAt 0 0 0).isSome = true ∧
    ((z.updGroup 0 0 fun g => { g with run := none, threads := [] }).teamOver 0) = true ∧
    ((z.updLaunch 0 fun l => { l with live := [], status := some .ended }).gridOver 0) = true :=
  ⟨by decide, by decide, by decide, by decide, by decide, by decide, by decide, by decide, by decide, by decide⟩
/-- A ring of two entries whose first holds the byte `op`. -/
def ringed (op : Byte) : State := { z with ring := { base := 0, logn := 0, en := true, head := 0, tail := 1 }, hostMem := memPut [] 0 [op] }
set_option exponentiation.threshold 320 in
theorem witness_RingEvents : (ringed 4).ringEntry = some 4 ∧ reBad 4 = true ∧ (ringed 1).ringEntry = some 1 ∧ reBad 1 = false ∧ reOp 1 = 1 ∧
    (ringed 1).queue (reQid 1) = (ringed 1).queue 0 ∧ ((ringed 1).queue 0).items = [] ∧ (ringed 3).ringEntry = some 3 ∧ reBad 3 = false ∧ reOp 3 = 3 ∧
    (ringed 1).ring.en = true ∧ z.ring.en = false :=
  ⟨by decide, by decide, by decide, by decide, by decide, rfl, rfl, by decide, by decide, by decide, rfl, rfl⟩
theorem witness_RegisterWrites : ((surf .active .resident).stes.any fun kv => kv.2.regionIx == (surf .active .resident).stes.length && false) = false ∧
    (z.stes.any fun kv => kv.2.regionIx == 3 && (kv.2.state == .allocating || kv.2.state == .active || kv.2.state == .releasing)) = false ∧
    ((surf .active .resident).stes.any fun kv => kv.2.regionIx == 0 && (kv.2.state == .allocating || kv.2.state == .active || kv.2.state == .releasing)) = true ∧
    bitField 62 61 0 ≠ 3 ∧ z.saved = [] ∧ z.draining = [] ∧ ({ z with launches := [] } : State).launches = [] ∧ z.bias.busy = false ∧ z.boot.powered = true ∧ z.boot.ready = true ∧
    regAt 1 = none ∧ (regAt 0).isSome = true ∧ State.reset.boot.ready = false :=
  ⟨by decide, rfl, by decide, by decide, rfl, by decide, rfl, rfl, rfl, rfl, by decide, by decide, rfl⟩
/-- An H access that waits for its completion. -/
def far : State := flying { acc0 with h := true }
theorem witness_HostMemoryEvents : (64 : Nat) / 64 * 64 < hdmEnd ∧ z.flipping 64 = false ∧ State.reset.boot.ready = false ∧ z.hostBias 4096 = false ∧ z.pageBooked 1 = false ∧
    ({ z with rows := [(4, ⟨2, 4, false, .refresh, [0], [], [], 0, false⟩)] } : State).pageBooked 1 = true ∧
    (flying { acc0 with snoops := [biasMark 3] }).accs.find? (fun kv => kv.2.snoops.contains (biasMark 3)) = some (7, { acc0 with snoops := [biasMark 3] }) ∧
    z.accs = [] ∧ ({ z with bias := { z.bias with busy := true, snoops := [3] } } : State).bias.snoops = [3] ∧ far.hWaiting 7 = some { acc0 with h := true } :=
  ⟨by decide, by decide, rfl, by decide, by decide, by decide, by decide, rfl, rfl, by decide⟩
theorem witness_biasFlipComplete : ({ z with bias := { z.bias with busy := true } } : State).flipQuiet = true := by decide
def rec0 : GbEntry := { seq := 6, words := [], team := 0, launch := 0, host := true }
theorem witness_HostDebugEvents : z.hostRecord 0 6 = none ∧ (z.updCore 0 fun k => { k with book := [rec0] }).hostRecord 0 6 = some rec0 ∧
    (z.updCore 0 fun k => { k with book := [rec0] }).selOk rec0 0 = true ∧ z.dbgOn 0 = false ∧ dbg.dbgOn 0 = true ∧ (dbg.space 0).dbg.getLsbD 58 = false ∧
    z.dbgTeams 9 0 0 = [] ∧ (z.updSpace 2 fun sp => { sp with dbg := 0x4000000000000000 }).sampling = [2] :=
  ⟨rfl, rfl, rfl, rfl, by decide, by decide, rfl, by decide⟩
theorem witness_ModuleEvents : z.boot.powered = true ∧ z.boot.recov = false ∧ ({ z with mgmt := { z.mgmt with trip := some [130] } } : State).mgmt.trip = some [130] ∧
    State.reset.boot.powered = true ∧ State.reset.boot.recov = false ∧ State.reset.boot.fail = false ∧ State.reset.boot.ready = false ∧ State.reset.boot.phase = 0 ∧
    ({ z with mgmt := { z.mgmt with mbBusy := true, mbCmd := 4 } } : State).mgmt.mbBusy = true ∧ z.mgmt.mbLen < 16 ∧ z.mgmt.writing = false :=
  ⟨rfl, rfl, rfl, rfl, rfl, rfl, rfl, rfl, rfl, by decide, rfl⟩
theorem witness_StepRunsDecoded : z.boot.powered = true ∧ z.msgs = [] ∧ z.turn = .group 0 0 ∧ (z.group 0 0).run = some ⟨0, [0], 0, []⟩ ∧ z.accHeld 0 0 [0] = false ∧
    (z.thread 0 0 0).pend = none ∧ z.trialHeld 0 0 0 = false ∧ (z.launch 0).nen = false ∧ z.breakHits 0 0 0 [0] = [] ∧ (z.icacheAt 0 0 0).isSome = true ∧
    groupDecode 0x7308 0 false = .inl (.nop o) :=
  ⟨rfl, rfl, rfl, rfl, by decide, by decide, by decide, by decide, by decide, by decide, by decide⟩
theorem witness_DecodeEncode : (Instr.nop o).wf = true ∧ encode (.nop o) = some (8, 0x7308) := ⟨by decide, by decide⟩
def quiet : State := z.updTeam 0 fun tm => { tm with preempt := true, groups := [(0, { threads := [] })] }
/-- Launch 5, at the head of queue 3 of die 0, with wing 0 to place it in. -/
def cand (r : Record) (cls : Nat) : State := { (z.updSpace 0 fun sp => { sp with wing := 1, save := 0x0FF0000000000000 }).updWing 0 fun w => { w with up := true } with
  leases := amapInsert z.leases 6 { space := 0, die := 0, ranges := [], granted := true }
  launches := amapInsert z.launches 5 { lr := r, cls := cls, queue := 3, lease := some 6, next := 1 }
  queues := [(3, { en := true, cls := cls, items := [5] })] }
def heavy : State := (cand { cw := 3, ch := 4, scratch := 4096 } 0).updLaunch 0 fun l => { l with cls := 2, lr := { l.lr with scratch := 512 * 1024 } }
theorem witness_clusterPlace : (((cand {} 1).tryOrder 0).findSome? fun x => ((cand {} 1).findRect 0 x.2).map fun r => (x, r)) = some ((3, ⟨5, none⟩), 0, 0, 0) ∧
    ((cand {} 1).launch 5).next ≠ 0 ∧ ((cand {} 1).launch 5).cls = 1 := by decide
theorem witness_framePreempt : (heavy.preemptFor 0).isSome = true := by decide
/-- A thread launch that has waited for 1,000,000 counts, with every wing down. -/
def late : State := { cand { } 1 with queues := [(3, { en := true, cls := 1, items := [5], front := some ⟨5, none, 1⟩, since := [(⟨5, none, 1⟩, 0)] })], devtime := 1000000, wings := [] }
theorem witness_normalReservation : ((late.die 0).reserve.any fun f => late.placing f.la) = false ∧ (late.classCands 0 1).filter (fun x =>
    ((late.waitSince x.1).any fun n => decide (n + 1000000 ≤ late.devtime)) && (late.findRect 0 x.2).isNone) = [(3, ⟨5, none⟩)] := by decide
/-- The same, another team of its cluster saved, and a place for its own save. -/
def kept : State := { quiet with saved := [(0, { cluster := { teams := [] }, places := [(0, 64)] })] }
def away : State := ({ quiet with saved := [(1, { cluster := { teams := [] } })] } : State).updTeam 0 fun tm => { tm with cluster := 1, restore := true }
theorem witness_preemptSave : (amapFind? quiet.teams 0).isSome = true ∧ quiet.leaving 0 = true ∧ quiet.drained 0 = true ∧ quiet.stopping 0 = false ∧
    (amapFind? quiet.saved (quiet.team 0).cluster = none ∧ (∀ u ∈ quiet.residents (quiet.team 0).cluster, quiet.drained u = true) ∧
      amapFind? ((quiet.poolPlan (quiet.poolSize (quiet.spaceOf 0)) (quiet.poolTaken (quiet.spaceOf 0)) (quiet.residents (quiet.team 0).cluster)).getD []) 0 = none) ∧
    (amapFind? kept.saved (kept.team 0).cluster = some { cluster := { teams := [] }, places := [(0, 64)] } ∧ kept.leaving 0 = true ∧ kept.drained 0 = true ∧
      kept.stopping 0 = false) := by decide
theorem witness_teamRestore : (amapFind? away.teams 0).isSome = true ∧ amapFind? away.saved 1 = some { cluster := { teams := [] } } ∧ (away.team 0).restore = true ∧
    (away.cluster 1).byDbg = false ∧ away.stopping 0 = false ∧ (away.team 0).cluster = 1 := by decide
def shaded : State := { (z.updWing 0 fun w => { w with up := true }) with flights := [(9, { flight0 with empty := false })] }
set_option exponentiation.threshold 1100 in
theorem witness_fragmentGroupLaunch : shaded.unshaded 0 = [(9, { flight0 with empty := false })] ∧ coreWing 0 = 0 ∧ (shaded.launch 0).status = none ∧
    (shaded.launch 0).complete = false ∧ (shaded.space (shaded.launch 0).space).dumped = false ∧ rsField (shaded.launch 0).lr.raster 0x20 43 39 = 0 ∧
    shaded.quarterRoom (shaded.coreTeams 0 []) 8 0 ≠ 0 ∧ shaded.coreFits 0 [] { groups := 1, regs := 8 } = true ∧ shaded.wingHolds 0 (shaded.launch 0).lease = true := by decide
def hdl : State := (z.updCore 0 fun k => { k with book := [{ rec0 with host := false }] }).updLaunch 0 fun l => { l with lr := { l.lr with hdl := true } }
theorem witness_porterWake : hdl.porterAsleep 0 = true ∧ hdl.porterTeam 0 = none ∧
    ((hdl.core 0).book.find? fun e => !e.read && !e.host && (hdl.launch e.launch).lr.hdl) = some { rec0 with host := false } := by decide
/-- A quad at the head of wing 0 whose depth target's bank is to test it. -/
def testing : State := { (z.updWing 0 fun w => { w with quads := [(0, quad0)] }).updLaunch 0 fun l => { l with lr := { l.lr with raster := BitVec.ofNat 1024 (2 ^ (0x18 * 8 + 51)) } } with
  domains := (List.range 32).map fun d => (d, .on)
  stes := [(0, { state := .active, frames := [(0, { region := 0, state := .resident, age := 0 })] })] }
def retiring : State := { z with slots := [(0, [9])], flights := [(9, { flight0 with empty := false, pass := some 1, exports := some [] })] }
set_option exponentiation.threshold 1100 in
set_option maxRecDepth 20000 in
theorem witness_RasterEvents_more : retiring.retireHead 0 = some (9, { flight0 with empty := false, pass := some 1, exports := some [] }) ∧ retiring.bankIdle 0 = true ∧
    ({ retiring with bankReqs := [{ bank := 0, cls := 1, src := 9, read := true, job := .acc 3 }] } : State).bankIdle 0 = false ∧
    (testing.wing 0).quads = [(0, quad0)] ∧ testing.tokenTurn 0 0 quad0 = true ∧ testing.testBank 0 quad0 = some 0 ∧ testing.bankIdle 0 = true ∧
    (testing.tokenGo 0 0 quad0 []).isSome = true ∧
    ((openSect .fragment).team 0).tokens = false ∧ (((openSect .fragment).team 0).groups.any fun g => g.2.threads.any fun th => th.2.sect.isOpen) = true := by decide
/-- It is the turn of queue 3, whose launch no wing can take. -/
def turned : State := ({ cand {} 1 with wings := [] } : State).updDie 0 fun d => { d with rrQueue := 3, rrLeft := 1 }
/-- A block of code at 0 that has been asked for, answered or not. -/
def coded (v : Option Nat) : State := { z with accs := [(7, { unitAcc (.code 0 0 false) 0 0 0 32 (.load false) 0 false with value := v })] }
/-- A porter whose thread is ready. -/
def porReady : State := por.updGroup 0 0 fun g => { g with run := none }
theorem witness_SchedulingEvents_more : (∀ x ∈ turned.tryOrder 0, turned.findRect 0 x.2 = none) ∧ (turned.passTurn 0).isSome = true ∧
    (porReady.porterTeam 0 = some 0 ∧ (porReady.group 0 0).run = none ∧ porReady.groupReady 0 0 = true) ∧
    amapSorted none quiet.teams = true ∧ (quiet.core 0).held = [] ∧ (hdl.wakeRecord 0).isSome = true ∧
    tl.fetchPc 0 0 = some 0 ∧ (tl.icacheAt 0 0 0).isSome = true ∧ (∃ S, (coded (some 7)).codeRead 0 0 = (.ok 7 0, S)) ∧ (∃ S, (coded none).codeRead 0 0 = (.wait, S)) ∧
    (∃ tr S, ({ coded none with accs := [] } : State).codeRead 0 0 = (.trap tr, S)) :=
  ⟨by decide, by decide, by decide, by decide, by decide, by decide, by decide, by decide, ⟨_, rfl⟩, ⟨_, rfl⟩, ⟨_, _, rfl⟩⟩
/-- A TLBI of scope SPACE at the head of the ring. -/
def ringTlbi : State := { ringed 2 with hostMem := memPut (memPut [] 0 [2]) 25 [0x10] }
set_option exponentiation.threshold 320 in
theorem witness_RingEvents_more : (ringed 0).ringEntry = some 0 ∧ reBad 0 = false ∧ reOp 0 = 0 ∧ ringTlbi.ringEntry = some (2 + 2 ^ 204) ∧ reBad (2 + 2 ^ 204) = false ∧
    reOp (2 + 2 ^ 204) = 2 ∧ (7 : DWord).toNat < 2 ^ 16 ∧ 2 ^ 16 ≤ (0x10000 : DWord).toNat ∧ 12 ≤ bitField 11 8 (0xC00 : DWord).toNat ∧
    bitField 11 8 (0xB00 : DWord).toNat < 12 := by decide
theorem witness_RegisterWrites_more : (∃ off r, regAt off = some r ∧ off % 8 = 0 ∧ r.early = true) ∧ (∃ off w, regAt (off / 8 * 8) = some (.mbdata w) ∧ off % 4 = 0 ∧ off % 8 ≠ 0) ∧
    (∃ off r, regAt (off / 8 * 8) = some r ∧ r ≠ .mbctl ∧ ∀ w, r ≠ .mbdata w) ∧ sizeOk 0 2 = false ∧ (z.leases.any fun kv => kv.2.space == 0 && kv.2.granted && !kv.2.dying) = false :=
  ⟨⟨0x08, .mbctl, by decide, by decide, by decide⟩, ⟨0x1004, 0, by decide, by decide, by decide⟩, ⟨0x100, .intlv 0, by decide, by decide, nofun⟩, by decide, by decide⟩
/-- The page of a HOME access is in the bias of the host; a walk waits for the host's answer. -/
def snooped : State := z.updWing 0 fun w => { w with walkQ := [{ space := 0, va := 0, write := false, need := .plain, tlbs := [.vtlb], snoops := some [5] }] }
set_option exponentiation.threshold 1100 in
set_option maxRecDepth 20000 in
theorem witness_HostMemoryEvents_more : (snooped.walkSnooped 5).isSome = true ∧ z.walkSnooped 5 = none ∧ z.bias.busy = false ∧
    (2 ^ 60 + 2 ^ 12 : DWord).getLsbD 0 = false ∧ ((1 + 2 ^ 12 : DWord).getLsbD 0 = true ∧ z.hostBias 4096 = (1 + 2 ^ 12 : DWord).getLsbD 60) ∧
    ((1 + 2 ^ 12 + 2 ^ 60 : DWord).getLsbD 60 = true ∧ z.hostBias 4096 ≠ true) ∧
    ({ far with boot := { far.boot with linked := true } } : State).portUp 0 = true ∧ (far.hWaiting 7).isSome = true ∧
    (flying { acc0 with h := true, who := .stream 0 4 }).hWaiting 7 = some { acc0 with h := true, who := .stream 0 4 } ∧
    ({ acc0 with h := true, who := .stream 0 4 } : Access).engine = true ∧ acc0.engine = false := by decide
/-- A space with a debugger and a save pool, and with a dump in progress. -/
def dumping : State := dbg.updSpace 0 fun sp => { sp with dbg := 0x8400000000000000, save := 0x0FF0000000000000 }
theorem witness_HostDebugEvents_more : dumping.dbgOn 0 = true ∧ (dumping.space 0).dbg.getLsbD 58 = true ∧ dumping.dumpReady 0 = true ∧ z.boot.ready = true ∧
    ((dumping.dbgTeams 0 0 0).map fun t => (dumping.team t).cluster).eraseDups = [0] ∧ ((dumping.residents 0).any fun t => (dumping.team t).preempt) = false ∧
    dumping.stopping ((dumping.residents 0).headD 0) = false ∧ dumping.poolFits 0 (dumping.residents 0) = true ∧
    ((z.updCore 0 fun k => { k with book := [rec0] }).patchSel rec0 3 2).isSome = true := by decide
/-- The mailbox is busy with a command. -/
def boxed (c : Nat) (b : List (Nat × Byte)) (n : Nat) : State := { z with mgmt := { z.mgmt with mbBusy := true, mbCmd := c, mbData := b, mbLen := n } }
set_option exponentiation.threshold 1100 in
set_option maxRecDepth 20000 in
theorem witness_ModuleEvents_more : z.crossingQuiet = true ∧ z.ratioTo = none ∧ ({ z with bankReqs := [{ bank := 0, cls := 1, src := 9, read := true, job := .acc 3 }] } : State).crossingQuiet = false ∧
    (List.replicate 192 (40 : Nat)).length = 192 ∧
    (boxed 5 [] 16).mgmt.writing = false ∧ 16 ≤ (boxed 5 [] 16).mgmt.mbLen ∧ bytesToNat (((boxed 5 [(8, 1)] 16).mbBytes.drop 8).take 1) = 1 ∧
    bytesToNat (((boxed 5 [(8, 1)] 16).mbBytes.drop 9).take 7) = 0 ∧ bytesToNat ((boxed 5 [(8, 1)] 16).mbBytes.take 4) = 0 ∧
    spdmCode (boxed 6 [(1, 0x84)] 4).mbBytes ∈ spdmRequests ∧ spdmCode (boxed 6 [(1, 0x10)] 4).mbBytes ∉ spdmRequests ∧ z.mgmt.leaves < 2 ^ 20 := by decide
theorem witness_StepRunsDecoded_stream : (fetched 0x7E7A).boot.powered = true ∧ (fetched 0x7E7A).msgs = [] ∧ (fetched 0x7E7A).turn = .stream 0 ∧
    decodeWord 32 0x7308 = .ok (.nop o, 8) ∧ opcStream (opcOf 0x7308) = false ∧ opcPrivileged (opcOf 0x7308) = false ∧
    (z.group 0 0).exchangeAt 0 = false ∧ z.seqNow 0 0 = none := by decide
/-- A walk that finds an entry of a form that there is not. -/
def misformed : State := { queued 0 with dram := memPut (queued 0).dram 4096 [0x83, 0, 0, 0, 0, 0, 0, 0x60] }
set_option exponentiation.threshold 1100 in
set_option maxRecDepth 20000 in
theorem witness_TranslationEvents_format : (∃ en, (misformed.walk 0 0 0 false .plain).1 = .format 2 en) ∧
    (let root := bitField 51 12 (misformed.space 0).root.toNat * 4096
     let st := walkStart (misformed.wing 0) 0 0 root
     ∀ a ∈ (if 0x2FFFFFF000 < root then [] else walkReads misformed 0 0 (5 - st.1) st.1 st.2), misformed.flipping a = false ∧ misformed.hostBias a = false) ∧
    (let s := queued (2 ^ 50)
     let root := bitField 51 12 (s.space 0).root.toNat * 4096
     let st := walkStart (s.wing 0) 0 (2 ^ 50) root
     ∀ a ∈ (if 0x2FFFFFF000 < root then [] else walkReads s 0 (2 ^ 50) (5 - st.1) st.1 st.2), s.flipping a = false ∧ s.hostBias a = false) :=
  ⟨⟨_, rfl⟩, by decide, by decide⟩
/-- A page that CTLB does not hold; and one that is being flipped. -/
def untl : State := tl.updWing 0 fun w => { w with ctlb := [] }
def tlflip : State := { tl with bias := { tl.bias with busy := true, page := 256 } }
set_option exponentiation.threshold 1100 in
set_option maxRecDepth 20000 in
theorem witness_RowWords_translation : Issues untl v23 { src := addrSrc v23 true, sd := [(0, 1)], pw := [2] } (i0 v23) ∧
    Issues z v23 { src := addrSrc v23 true, sd := [(0, 1)], pw := [2] } (i0 v23) ∧
    (untl.reading.ptrCheck 0 0 (effAddr untl.reading (i0 v23) 0 0 true 1) 1 [0] none false = none ∧
      ∃ S, untl.reading.translate 0 0 .ctlb (effAddr untl.reading (i0 v23) 0 0 true 1) .read .rowbook none = (.wait, S)) ∧
    (z.reading.ptrCheck 0 0 (effAddr z.reading (i0 v23) 0 0 true 1) 1 [0] none false = none ∧
      ∃ tr S, z.reading.translate 0 0 .ctlb (effAddr z.reading (i0 v23) 0 0 true 1) .read .rowbook none = (.trap tr, S)) ∧
    Issues tlflip v23 { src := addrSrc v23 true, sd := [(0, 1)], pw := [2] } (i0 v23) ∧
    tlflip.reading.ptrCheck 0 0 (effAddr tlflip.reading (i0 v23) 0 0 true 1) 1 [0] none false = none ∧
    ∃ S, tlflip.reading.translate 0 0 .ctlb (effAddr tlflip.reading (i0 v23) 0 0 true 1) .read .rowbook none =
      (.ok ⟨2 ^ 20, .priv, 0, false, true⟩, S) ∧ S.flipping (2 ^ 20) = true :=
  ⟨issues_of _ _ _ rfl rfl rfl rfl rfl (by decide) rfl, z_issues _ _ rfl (by decide) rfl, ⟨by decide, _, rfl⟩, ⟨by decide, _, _, rfl⟩,
   issues_of _ _ _ rfl rfl rfl rfl rfl (by decide) rfl, by decide, _, rfl, by decide⟩
/-- A thread parked at core 0 by its one record. -/
def parkedOne : State := (z.updThread 0 0 0 fun th => { th with stat := .parked }).updCore 0
  fun k => { k with book := [⟨5, [0, 0, 0, 0, 0, 0, 0, 0], 0, 0, false, false, false, false, 0⟩] }
theorem witness_TakingATrap_dispose : (∀ e ∈ (parkedOne.core 0).book, e.group < 32 ∧ (amapFind? parkedOne.teams e.team).isSome = true ∧
      (parkedOne.thread e.team e.group e.lane).stat = .parked ∧ (parkedOne.core (parkedOne.team e.team).core).held = [] ∧ e.barrd = false ∧
      parkedOne.otherRecords 0 e = []) ∧ (parkedOne.core 0).book ≠ [] ∧ z.stopping 0 = false ∧ book.stopping 0 = false := by decide
/-- A porter's record of a thread whose code is not in the instruction cache: it cannot be read, or has been asked for. -/
def unsk : GbEntry := ⟨5, [0, 0, 0, 0, 0, 0, 0, 0], 9, 0, false, false, false, false, 0⟩
def asked : State := { por with accs := [(7, { unitAcc (.code 0 0 false) 0 0 0 32 (.load false) 0 false with value := none })], cores := amapInsert por.cores 0 { por.core 0 with icache := [] } }
set_option exponentiation.threshold 1100 in
set_option maxRecDepth 20000 in
theorem witness_PorterWords_skip : por.porterRecord 0 5 = some unsk ∧ (por.reading.skipReady unsk).1 = true ∧ asked.porterRecord 0 5 = some unsk ∧
    (asked.reading.skipReady unsk).1 = false ∧ (asked.team 0).kind = .porter ∧ asked.accHeld 0 0 [0] = false ∧ z.accBars 0 0 [0] = false := by decide
set_option exponentiation.threshold 1100 in
theorem witness_GraphicsWords_limits : Issues mesh { five with c := .imm 9 } { src := [(.imm 5, 1), (.imm 3, 1), (.imm 9, 1)] } (i0 { five with c := .imm 9 }) ∧
    4 + rsAttrs (mesh.rsOf 0) ≤ (src32 mesh.reading (i0 { five with c := .imm 9 }) 0 (.imm 9)).toNat ∧
    rsMaxV (mesh.rsOf 0) ≤ (src32 mesh.reading (i0 five) 0 five.b).toNat ∧ rsMaxP (mesh.rsOf 0) ≤ (src32 mesh.reading (i0 five) 0 five.b).toNat ∧
    rsMaxV (mesh.rsOf 0) < (src32 mesh.reading (i0 five) 0 five.a).toNat ∧ 0 < 4 + rsAttrs (mesh.rsOf 0) ∧ rsField (mesh.rsOf 0) 0x18 41 41 = 0 :=
  ⟨issues_of _ _ _ rfl rfl rfl rfl rfl (by decide) rfl, by decide⟩
/-- A group with the copy role whose template 1 is being read. -/
def untm : State := { z.updGroup 0 0 fun g => { g with roleC := true } with
  accs := [(7, { unitAcc (.template 0) 0 0 64 16 (.load false) 0 false with value := none })] }
/-- A gather from the scratchpad, whose row 5 lies beyond it. -/
def cpG (row : Int) : Copy := 
  { team := 0, gix := 0, lane := 0, pc := 0, ch := 0, gather := true, rows := [(0, row)], iter := 3,
    tmpl := BitVec.ofNat 512 (2 ^ 63 + 2 ^ 51 + 2 ^ 509 + 2 ^ 364) }
set_option exponentiation.threshold 1100 in
set_option maxRecDepth 20000 in
theorem witness_CopyWords_rows : (∃ S, untm.reading.template 0 1 = (none, S)) ∧ (∃ tr S, ({ untm with accs := [] } : State).reading.template 0 1 = (some (.inr tr), S)) ∧
    (((wide cop).copyCheck (cpG 0)).isNone = true ∧ ((wide cop).copyCheck (cpG 5)).isSome = true) ∧ (tmplBad (0 : BitVec 512) || !tmplBen (0 : BitVec 512)) = true ∧
    ({ untm with accs := [] } : State).copyRoom 0 7 = true ∧ (untm.group 0 0).roleC = true :=
  ⟨⟨_, rfl⟩, ⟨_, _, rfl⟩, ⟨rfl, rfl⟩, by decide, by decide, by decide⟩
theorem witness_StreamCommands_known : (∃ h ∈ ({ pc := 64, history := [(5, 1)] } : Stream).history, h.1 = (5 : BitVec 6).toNat) ∧
    ¬ ∃ h ∈ ({ pc := 64 } : Stream).history, h.1 = (5 : BitVec 6).toNat := by decide
/-- The press writes (or reads) the one tile of surface 3's frame: each 64 B unit is in flight, or answered. -/
def pressing (f : FrameState) (op : AOp) (v : Option Nat) : State := { surf .active f with
  accs := (List.range 16).map fun k => (k, { unitAcc (.press 3 0) 0 0 (64 * k) 64 op 0 false with value := v }) }
set_option exponentiation.threshold 8300 in
set_option maxRecDepth 20000 in
theorem witness_SurfaceEvents_outcomes :
    (∃ S, (surf .active (.spilling true)).spillFrame 3 0 { region := 0, state := .spilling true, age := 0 } = (.failed, S)) ∧
    (∃ S, (pressing (.spilling true) .store none).spillFrame 3 0 { region := 0, state := .spilling true, age := 0 } = (.wait, S)) ∧
    (∃ S, (pressing (.spilling true) .store (some 0)).spillFrame 3 0 { region := 0, state := .spilling true, age := 0 } = (.done, S)) ∧
    (∃ S, (pressing .filling (.load false) none).fillFrame 3 0 { region := 0, state := .filling, age := 0 } = (false, S)) ∧
    (∃ S, (pressing .filling (.load false) (some 0)).fillFrame 3 0 { region := 0, state := .filling, age := 0 } = (true, S)) ∧
    (pressing (.spilling true) .store none).pressBusy 3 0 = false ∧ (pressing .filling (.load false) none).pressBusy 3 0 = false ∧
    spilly.pressPick (spilly.pressCands 0 0 true) = some (2, 0, { region := 0, state := .resident, age := 0 }) ∧
    amapFind? spilly.reserve 0 = none ∧ spilly.spilling 0 0 true = 0 :=
  ⟨⟨_, Prod.ext (by decide) rfl⟩, ⟨_, Prod.ext (by decide) rfl⟩, ⟨_, Prod.ext (by decide) rfl⟩, ⟨_, Prod.ext (by decide) rfl⟩, ⟨_, Prod.ext (by decide) rfl⟩,
   by decide, by decide, by decide, by decide, by decide⟩
set_option exponentiation.threshold 1100 in
set_option maxRecDepth 20000 in
theorem witness_CopyEvents_clean : (∃ S, (copying z cp0).copyClean cp0 0 = (true, S)) ∧
    (∃ S, (copying { untl with dramPoison := [0] } cp0).copyClean cp0 0 = (false, S)) ∧ (∀ kv ∈ (copying z cp0).accs, kv.2.who ≠ .copy 0 7) ∧
    cp0.chunkOf 0 = 0 ∧ cp0.total = 1 ∧ cp0.nc = 1 :=
  ⟨⟨_, Prod.ext (by decide) rfl⟩, ⟨_, Prod.ext (by decide) rfl⟩, by decide, by decide, by decide, by decide⟩
/-- A command that has written its one element, of a byte. -/
def cmd3 : Cmd := { cmd0 (.mst q 0 0 false false) with kc := 0x10101, kb := 2 ^ 61, got := [(2 ^ 61, 0), (elemKey, 5)] }
set_option exponentiation.threshold 1100 in
set_option maxRecDepth 20000 in
theorem witness_StreamEvents_elements :
    (∀ s : State, s.cmdFlying 0 4 = false → s.mPart 0 4 false [(2 ^ 61, 1, 0)] = some (2 ^ 61, 1, 0)) ∧ (winC (cmd2 (.mld q))).cmdFlying 0 4 = false ∧
    ((mParts (2 ^ 61) 1).filter fun y => (amapFind? ((winC (cmd2 (.mld q))).cmdGot 0 4) y.1).isNone) = [(2 ^ 61, 1, 0)] ∧
    (amapFind? ((winC cmd3).cmdGot 0 4) elemKey) = some 5 ∧ ((mParts (2 ^ 61) 1).filter fun y => (amapFind? ((winC cmd3).cmdGot 0 4) y.1).isNone) = [] ∧
    (∃ S, (winC cmd3).mstClean 0 [(2 ^ 61, 1)] = (true, S)) ∧ (winC cmd3).engineTurn 0 = true :=
  ⟨fun s h => by simp [State.mPart, h, Nat.mod_one], by decide, by decide, by decide, by decide, ⟨_, Prod.ext (by decide) rfl⟩, by decide⟩
/-- A fetch whose walk has found nothing. -/
def lost : State := tl.updWing 0 fun w => { w with
  ranges := [⟨0, 5, 0, 31, 2⟩], walkQ := [{ space := 0, va := 0, write := false, need := .plain, tlbs := [.itlb], served := some (2, none) }] }
/-- A draw, and a thread launch, whose first cluster is the next of its queue. -/
def fresh (kind : Bool) (root : DWord) : State :=
  ((cand { kind := kind } 1).updLaunch 5 fun l => { l with next := 0, lr := { l.lr with raster := 2 ^ (0x18 * 8 + 51) } }).updSpace 0 fun sp => { sp with root := root }
set_option exponentiation.threshold 1100 in
set_option maxRecDepth 20000 in
theorem witness_SchedulingEvents_cases :
    (∃ l S, lost.codeRead 0 0 = (.breach 0 l, S)) ∧
    ((cand {} 1).tryOrder 0).find? (fun x => (cand {} 1).spaceOff x.2) = none ∧ ((fresh true (2 ^ 63)).tryOrder 0).find? (fun x => (fresh true (2 ^ 63)).spaceOff x.2) = none ∧
    ((fresh false 0).tryOrder 0).find? (fun x => (fresh false 0).spaceOff x.2) = some (3, ⟨5, none⟩) ∧
    (((fresh true (2 ^ 63)).tryOrder 0).findSome? fun x => ((fresh true (2 ^ 63)).findRect 0 x.2).map fun r => (x, r)) = some ((3, ⟨5, none⟩), 0, 0, 0) ∧
    (let l := (fresh true (2 ^ 63)).launch 5
     l.next = 0 ∧ l.lr.kind = true ∧ (fresh true (2 ^ 63)).rasterStesBad l.space l.lr.raster = true) ∧
    (turned.tryOrder 0).find? (fun x => turned.spaceOff x.2) = none ∧
    (let d := ({ z with draws := [] } : State).updLaunch 0 fun l => { l with live := [], status := some .ended }
     ((forEach (d.launch 0).cores d fun s c => s.publishNow c).rowSweep.drawReport 0).1 = true) :=
  ⟨⟨_, _, rfl⟩, by decide⟩
theorem witness_EveryStepKeepsForms : State.reset.InForm ∧ ∃ s', step State.reset = .next s' :=
  ⟨⟨rfl, rfl, rfl, rfl, by intro kv h; simp [State.reset] at h, by decide, by decide, by decide, by decide, by decide⟩, _, rfl⟩
/-- The units of a launch record at 0 have been asked for, answered or not. -/
def ringAns (v : Option Nat) : State := { ringed 1 with
  accs := (List.range 4).map fun k => (k, { unitAcc .ring 0 0 (64 * k) 64 (.load false) 0 false with value := v }) }
set_option exponentiation.threshold 1100 in
set_option maxRecDepth 20000 in
theorem witness_RingEvents_record : (ringAns (some 0)).ringEntry = some 1 ∧ reRecord 1 = 0 ∧ ((ringAns none).queue (reQid 1)).items.length < 64 ∧
    (∃ S, (ringAns (some 0)).recordAt (reRecord 1) = (some 0, S)) ∧ (∃ S, (ringAns none).recordAt (reRecord 1) = (none, S)) :=
  ⟨by decide, by decide, by decide, ⟨_, rfl⟩, ⟨_, rfl⟩⟩
/-- The host's record of a thread, parked where the instruction cache does not hold its word, which has been asked for. -/
def hosted : State := { parkedOne with
  cores := amapInsert parkedOne.cores 0 { parkedOne.core 0 with icache := [], book := [{ unsk with team := 0, host := true }] }
  accs := [(7, { unitAcc (.code 0 0 false) 0 0 0 32 (.load false) 0 false with value := none })] }
/-- A dump that has not stopped its teams, one that waits for a draw, and one that has saved them. -/
def dumped (d : Bool) : State := { dumping.updSpace 0 (fun sp => { sp with dumped := d }) with teams := [] }
def drawn : State := dumping.updLaunch 0 fun l => { l with lr := { l.lr with kind := true }, next := 1 }
set_option exponentiation.threshold 1100 in
set_option maxRecDepth 20000 in
theorem witness_HostDebugEvents_cases : (∃ e, hosted.hostRecord 0 5 = some e ∧ (∃ S, hosted.skipReady e = (false, S)) ∧ ∃ S, ({ hosted with accs := [] } : State).skipReady e = (true, S)) ∧
    ((dumped false).space 0).dbg.getLsbD 58 = true ∧ (dumped false).dumpReady 0 = true ∧ ((dumped false).space 0).dumped = false ∧ drawn.dumpReady 0 = false ∧
    (drawn.space 0).dbg.getLsbD 58 = true ∧ ((dumped true).space 0).dumped = true ∧ (dumped true).dumpReady 0 = true ∧ (∃ S, (dumped true).capture 0 = (true, S)) ∧
    (quiet.residents 0).any (fun t => (quiet.team t).preempt) = true ∧ dumping.poolFits 0 (dumping.residents 0) = true ∧ z.poolFits 0 (z.residents 0) = false :=
  ⟨⟨_, rfl, ⟨_, Prod.ext (by decide) rfl⟩, _, Prod.ext (by decide) rfl⟩, by decide, by decide, by decide, by decide, by decide, by decide, by decide, ⟨_, Prod.ext (by decide) rfl⟩,
   by decide, by decide, by decide⟩
theorem witness_StepRunsDecoded_message : ({ z with msgs := [.wback 0 8 .plain] } : State).msgs = [.wback 0 8 .plain] ∧
    (∃ s', exec (.wback 0 8 .plain) { z with msgs := [] } = .next s') ∧ z.accBars 0 0 [0] = false := ⟨rfl, ⟨_, rfl⟩, by decide⟩
theorem witness_MclrAndMnop : ((win (.mclr q false)).team 0).stream = some { pc := 64, window := [cmd0 (.mclr q false)] } ∧
    ({ pc := 64, window := [cmd0 (.mclr q false)] } : Stream).cmd? 4 = some (cmd0 (.mclr q false)) ∧
    ({ pc := 64, window := [cmd0 (.mclr q false)] } : Stream).startable (cmd0 (.mclr q false)) = true ∧ (win (.mclr q false)).streamHeld 0 = false ∧
    (cmd0 (.mclr q false)).faulted = false ∧ maskBad 0x1010 true true false 0 = false ∧
    (win (.mclr q false)).engineTurn 0 = true := ⟨rfl, rfl, by decide, by decide, rfl, by decide, by decide⟩
end Sys2Proof.Tests
end

namespace Sys2Proof.Machine

/-! ## The event log and the management controller -/

@[simp] theorem State.logEvent_rows (s : State) (code src : Nat) (data : List Nat) : (s.logEvent code src data).rows = s.rows := rfl
@[simp] theorem State.cclkChanged_mgmt (s : State) : s.cclkChanged.mgmt = s.mgmt := rfl

/-- An event is appended to the log, and the oldest entry drops out of a full one: nothing else of the controller changes. -/
theorem State.logEvent_mgmt (s : State) (code src : Nat) (data : List Nat) :
    ∃ log dropped, (s.logEvent code src data).mgmt = { s.mgmt with log := log, dropped := dropped } := by
  simp only [State.logEvent]
  split
  · exact ⟨_, _, rfl⟩
  · exact ⟨_, s.mgmt.dropped, rfl⟩

/-! ## Clock ratio and bring-up (R4, R40, R404) -/

section
variable (s : State)

theorem clockRatioChange_quiet (r : Nat) (hr : r = 4 ∨ r = 5 ∨ r = 6) (hq : s.crossingQuiet = true)
    (ht : s.ratioTo = none ∨ s.ratioTo = some r) : exec (.clockRatioChange r) s = .next
      { s with ratio := r, ratioTo := none, bankReqs := s.bankReqs.map fun x => { x with held := false } } := by
  have hb : (r = 4 || r = 5 || r = 6) = true := by simpa [or_assoc] using hr
  simp [execClockRatioChange, hb, hq, ht]

theorem clockRatioChange_holds (r : Nat) (hr : r = 4 ∨ r = 5 ∨ r = 6) (hq : s.crossingQuiet = false) (ht : s.ratioTo = none) :
    exec (.clockRatioChange r) s = .next { s.holdBeyond with ratioTo := some r, later := s.later ++ [.clockRatioChange r] } := by
  have hb : (r = 4 || r = 5 || r = 6) = true := by simpa [or_assoc] using hr
  simp [execClockRatioChange, hb, hq, ht]

variable (hp : s.boot.powered = true) (hv : s.boot.recov = false) (hf : s.boot.fail = false) (hr : s.boot.ready = false)
include hp hv hf hr

theorem bringupStepComplete_first (ok : Bool) (found : List Nat) (h : s.boot.phase = 0) :
    exec (.bringupStepComplete ok found) s = .next { s with boot := { s.boot with phase := 1, sub := 0 } } := by
  simp [execBringupStepComplete, hp, hv, hf, hr, h]

theorem bringupStepComplete_ok (found : List Nat) (h : s.boot.phase ≠ 0) (host : s.boot.phase = 8 → 0 ∈ found) :
    exec (.bringupStepComplete true found) s = .next (s.bringupDo found).bringupNext := by
  have : ¬ (s.boot.phase = 8 ∧ 0 ∉ found) := fun ⟨e, n⟩ => n (host e)
  simp_all [execBringupStepComplete]

theorem bringupStepComplete_fail (ok : Bool) (found : List Nat)
    (h : (s.boot.phase = 8 ∧ 0 ∉ found) ∨ (ok = false ∧ (s.boot.phase = 4 ∨ s.boot.phase = 5))) :
    exec (.bringupStepComplete ok found) s = .next s.bringupFail := by
  have h0 : s.boot.phase ≠ 0 := by omega
  simp [execBringupStepComplete, hp, hv, hf, hr, h0, h]
end

/-! ## The power-management tick (R406, R407) -/

/-- The clock that a tick leaves, of `x` that holds power under the cap and the one that the diodes allow, is one of the table's, and no
higher than a hot diode allows. -/
theorem tickClock_bounds (x m : Nat) (hot : Bool) :
    let clock := min (min 3600 (max 1200 (x / 100 * 100))) (if hot then max 1200 (m - 100) else 3600)
    1200 ≤ clock ∧ clock ≤ 3600 ∧ (hot = true → clock ≤ max 1200 (m - 100)) := by
  cases hot
  · simp
  · simp; omega

/-- What a sample of the diodes, the IVRs and the coolant leaves of the module, the log aside. -/
def Sampled (s : State) (temps currents volts : List Nat) (t f : Nat) (S : State) : Prop :=
  S.mgmt.temps = temps ∧ S.mgmt.currents = currents ∧
  S.mgmt.volts = volts ∧ S.mgmt.coolTemp = t ∧ S.mgmt.coolFlow = f ∧ 1200 ≤ S.mgmt.cclkMhz ∧ S.mgmt.cclkMhz ≤ 3600 ∧
  ((∃ x ∈ temps, 105 < x) → S.mgmt.cclkMhz ≤ max 1200 (s.mgmt.cclkMhz - 100)) ∧
  (S.mgmt.cclkMhz = s.mgmt.cclkMhz → S.rows = s.rows) ∧ S.mgmt.coolOut = (decide (40 < t) || decide (f < 20)) ∧
  S.mgmt.trip = s.mgmt.trip.or (if S.mgmt.hotFor.any fun x => decide (100 ≤ x.2) then some temps else none)

/-- Logging an excursion of the coolant takes nothing of the sample away. -/
theorem Sampled.logEvent {s S : State} {temps currents volts : List Nat} {t f : Nat} (h : Sampled s temps currents volts t f S)
    (code src : Nat) (data : List Nat) : Sampled s temps currents volts t f (S.logEvent code src data) := by
  obtain ⟨log, dropped, hm⟩ := S.logEvent_mgmt code src data
  rw [Sampled, hm]; exact h

theorem powerManagementTick_samples (s : State) (temps currents volts : List Nat) (t f : Nat) (hp : s.boot.powered = true)
    (ht : temps.length = 192) (hc : currents.length = 32) (hv : volts.length = 32) :
    ∃ S, exec (.powerManagementTick temps ⟨currents, volts⟩ ⟨t, f⟩) s = .next S ∧ Sampled s temps currents volts t f S := by
  have able : ¬ (!s.boot.powered || decide (temps.length ≠ 192) || decide (currents.length ≠ 32) || decide (volts.length ≠ 32)) = true := by
    simp [hp, ht, hc, hv]
  obtain ⟨lo, hi, cool⟩ := tickClock_bounds (Config.capClock s.free s.mgmt.cap currents volts) s.mgmt.cclkMhz
    (temps.any fun t => decide (105 < t))
  simp only [exec_powerManagementTick, execPowerManagementTick, if_neg able]
  refine ⟨_, rfl, ?_⟩
  have logged {S : State} (b : Bool) (h : Sampled s temps currents volts t f S) :
      Sampled s temps currents volts t f (if b then S.logEvent 13 0 [t, f] else S) := by
    cases b
    · exact h
    · exact h.logEvent _ _ _
  refine logged _ ⟨rfl, rfl, rfl, rfl, rfl, lo, hi, fun ⟨x, hx, h⟩ => cool ?_, fun e => ?_, rfl, rfl⟩
  · exact List.any_eq_true.2 ⟨x, hx, decide_eq_true h⟩
  · dsimp only at e ⊢; rw [if_pos e]

/-! ## The mailbox (R408 to R411) -/

/-- The command in progress is carried out, where the part has not made a recovery start. -/
theorem mbStep_runs {s : State} (hp : s.boot.powered = true) (hv : s.boot.recov = false) (hb : s.mgmt.mbBusy = true) {cmd : Nat}
    (hc : s.mgmt.mbCmd = cmd) (f : State → Out) : mbStep cmd s f = f s := by
  simp [mbStep, hp, hv, hb, hc]

section
variable {s : State} (hp : s.boot.powered = true) (hv : s.boot.recov = false) (hb : s.mgmt.mbBusy = true)
include hp hv hb

theorem sensors_answers (hc : s.mgmt.mbCmd = 1) : exec .sensors s = .next ((s.mbPut (Config.sensorBytes s.mgmt.temps s.mgmt.currents
    s.mgmt.volts s.mgmt.coolTemp s.mgmt.coolFlow s.mgmt.cclkMhz)).mbDone 0) := by
  rw [exec_sensors, execSensors, mbStep_runs hp hv hb hc]; rfl

theorem logread_answers (hc : s.mgmt.mbCmd = 2) : exec .logread s = .next ((s.mbPut (Config.logLayout
    (((s.mgmt.log.drop (Config.logIndex s.mbBytes)).take 127).map LogEntry.bytes) s.mgmt.dropped)).mbDone 0) := by
  rw [exec_logread, execLogread, mbStep_runs hp hv hb hc]; rfl

theorem powercap_sets (hc : s.mgmt.mbCmd = 3) : exec .powercap s = .next (let w := Config.capOf s.mbBytes
    if w < 600 ∨ 2400 < w then s.mbDone 2 else ({ s with mgmt := { s.mgmt with cap := w } } : State).mbDone 0) := by
  simp only [exec_powercap, execPowercap, mbStep_runs hp hv hb hc]
  by_cases h : Config.capOf s.mbBytes < 600 ∨ 2400 < Config.capOf s.mbBytes
  · simp [h, mbRefused]
  · simp [h, mbOk]

theorem keyset_sets (hc : s.mgmt.mbCmd = 4) : exec .keyset s = .next (let slot := Config.keySlotOf s.mbBytes % 512
    if slot = 0 then s.mbDone 2
    else ({ s with keys := amapSet slot s.keys slot (512 + Config.unwrapKey s.mgmt.spdm s.mbBytes) } : State).mbDone 0) := by
  simp only [exec_keyset, execKeyset, mbStep_runs hp hv hb hc]
  split
  · rfl
  · rfl

theorem fwload_short (hc : s.mgmt.mbCmd = 5) (hw : s.mgmt.writing = false) (hl : s.mgmt.mbLen < 16) :
    exec .fwload s = .next (s.mbDone 1) := by
  simp [execFwload, mbStep_runs hp hv hb hc, hw, hl, mbBadcmd]

theorem fwload_written (hc : s.mgmt.mbCmd = 5) (hw : s.mgmt.writing = true) : exec .fwload s = .next s.fwWritten := by
  simp [execFwload, mbStep_runs hp hv hb hc, hw]

/-- A chunk with legal flags (Table 26-5): the first begins an image at offset 0, a later one goes on where the image ends. -/
theorem fwload_chunk (hc : s.mgmt.mbCmd = 5) (hw : s.mgmt.writing = false) (hl : 16 ≤ s.mgmt.mbLen)
    (hf : bytesToNat ((s.mbBytes.drop 8).take 1) < 4) (hz : bytesToNat ((s.mbBytes.drop 9).take 7) = 0) :
    let offset := bytesToNat (s.mbBytes.take 4)
    let total := bytesToNat ((s.mbBytes.drop 4).take 4)
    let flags := bytesToNat ((s.mbBytes.drop 8).take 1)
    (flags % 2 = 1 → offset = 0 → exec .fwload s = .next (s.fwTake (s.mbBytes.drop 16) total (flags / 2 % 2 == 1))) ∧
    ∀ img, flags % 2 = 0 → s.mgmt.partial_ = some img → total = s.mgmt.chunkTotal → offset = img.length →
      exec .fwload s = .next (s.fwTake (img ++ s.mbBytes.drop 16) total (flags / 2 % 2 == 1)) := by
  intro offset total flags
  have reserved : ¬ 8 ≤ flags := by omega
  have abort : flags / 4 ≠ 1 := by omega
  have long : ¬ s.mgmt.mbLen < 16 := by omega
  simp only [exec_fwload, execFwload, mbStep_runs hp hv hb hc]
  refine ⟨fun first h0 => ?_, fun img first hi ht ho => ?_⟩
  · simp [hw, long, reserved, hz, abort, first, h0, flags, offset, total]
  · simp [hw, long, reserved, hz, abort, first, hi, ht, ho, flags, offset, total]

theorem spdm_answers (hc : s.mgmt.mbCmd = 6) (hk : spdmCode s.mbBytes ∈ spdmRequests) :
    (spdmSigned s.mbBytes = true → 2 ^ 20 ≤ s.mgmt.leaves → exec .spdm s = .next (s.mbDone 2)) ∧
    ((spdmSigned s.mbBytes = true → s.mgmt.leaves < 2 ^ 20) → exec .spdm s = .next (({ s with mgmt := { s.mgmt with
      spdm := s.mgmt.spdm ++ [s.mbBytes]
      leaves := if spdmSigned s.mbBytes then s.mgmt.leaves + 1 else s.mgmt.leaves } }.mbPut (Config.spdmReply s.mgmt.spdm s.mbBytes
        s.measured (if spdmSigned s.mbBytes then some s.mgmt.leaves else none))).mbDone 0)) := by
  have known : spdmRequests.contains (spdmCode s.mbBytes) = true := by simpa using hk
  simp only [exec_spdm, execSpdm, mbStep_runs hp hv hb hc, known]
  refine ⟨fun hs hl => ?_, fun hl => ?_⟩
  · rw [if_neg (by simp), if_pos (by simpa [hs] using hl)]; rfl
  · have left : ¬ (spdmSigned s.mbBytes && decide (2 ^ 20 ≤ s.mgmt.leaves)) = true := by
      simpa using hl
    rw [if_neg (by simp), if_neg left]; rfl

theorem spdm_unsupported (hc : s.mgmt.mbCmd = 6) (hk : spdmCode s.mbBytes ∉ spdmRequests) :
    exec .spdm s = .next ((s.mbPut (spdmUnsupported s.mbBytes)).mbDone 0) := by
  simp [execSpdm, mbStep_runs hp hv hb hc, hk, mbOk]

theorem mailboxBadcmd_ends (c : Nat) (hc : c = s.mgmt.mbCmd) (h : c = 0 ∨ 6 < c) : exec (.mailboxBadcmd c) s = .next (s.mbDone 1) := by
  have unknown : ¬ (decide (1 ≤ c) && decide (c ≤ 6)) = true := by simp; omega
  rw [exec_mailboxBadcmd, execMailboxBadcmd, if_neg unknown, mbStep_runs hp hv hb hc.symm]; rfl

end

/-- Settles O52: each event's meaning, case by case, from the lemmas above. -/
theorem moduleEvents : Obligations.ModuleEvents := by
  unfold Obligations.ModuleEvents
  refine ⟨fun s => ⟨rfl, rfl⟩, fun s => rfl, fun s r hr => ⟨clockRatioChange_quiet s r hr, clockRatioChange_holds s r hr⟩,
    fun s ok found hp hv hf hr => bringupStepComplete_first s hp hv hf hr ok found,
    fun s found hp hv hf hr => bringupStepComplete_ok s hp hv hf hr found,
    fun s ok found hp hv hf hr => bringupStepComplete_fail s hp hv hf hr ok found,
    powerManagementTick_samples, fun s temps h => by simp [execThermalTrip, h], fun s hp hv hb => ?_⟩
  exact ⟨sensors_answers hp hv hb, logread_answers hp hv hb, powercap_sets hp hv hb, keyset_sets hp hv hb,
    fwload_short hp hv hb, fwload_written hp hv hb, fwload_chunk hp hv hb, spdm_answers hp hv hb, spdm_unsupported hp hv hb,
    mailboxBadcmd_ends hp hv hb⟩

end Sys2Proof.Machine

namespace Sys2Proof.Machine

/-! ## Every step keeps the forms of the memories and the bounds of the tables (R4, R299, R345, R406, R408)

The invariant `State.InForm` speaks of four memories, the guest books, the module's registers, the clock ratio and the ring. Most
functions of the model write none of these, and few of them write one; so it is kept function by function, in the model's own order,
from the operations of the state up to the dispatch and the step. For each function there is one lemma: its branches are split, and in
each the state is built from states in form. -/

/-- The state that an outcome leads to, if any, is in form. -/
inductive Out.InForm : Out → Prop
  | next {s : State} (h : s.InForm) : Out.InForm (.next s)
  | fault (f : Fault) : Out.InForm (.fault f)
  | refused (r : Refusal) : Out.InForm (.refused r)

/-- The state that an outcome in form leads to. -/
theorem Out.InForm.state {o : Out} (h : o.InForm) {s : State} (e : o = .next s) : s.InForm := by
  cases h with
  | next h => cases e; exact h
  | fault | refused => cases e

/-- A state that differs in none of the memories, the controller, the ratio, the ring and the cores. -/
theorem State.InForm.update {s : State} (h : s.InForm) (free turn served picks laterNo autoNo uid cclk devtime age wings dies teams
    clusters saved launches queues spaces nextTicket leases shoots blocks l2 repl homeRec masks maskDrop pub txns homeWait dramPoison
    unitKey keys hPoison rows accs pends texs msgs later inputs copies intlv intlvSt retired stes reserve sdiePoison domains bankLast
    bankReqs resps ratioTo dbgAns draws flights slots msi bias hostReqs hostAns boot) :
    State.InForm ⟨free, turn, served, picks, laterNo, autoNo, uid, cclk, devtime, s.ratio, age, s.cores, wings, dies, teams,
      clusters, saved, launches, queues, spaces, nextTicket, leases, shoots, blocks, l2, repl, homeRec, masks, maskDrop, pub, txns,
      homeWait, s.dram, dramPoison, unitKey, keys, s.hostMem, s.peerMem, hPoison, rows, accs, pends, texs, msgs, later, inputs, copies,
      intlv, intlvSt, retired, stes, reserve, s.sdie, sdiePoison, domains, bankLast, bankReqs, resps, ratioTo, dbgAns, draws, flights,
      slots, s.ring, msi, bias, hostReqs, hostAns, s.mgmt, boot⟩ :=
  h.of rfl rfl rfl rfl rfl rfl rfl h.book

/-- The state of an answer that comes with one. -/
theorem State.InForm.snd {α : Type} {p : α × State} (h : p.2.InForm) {a : α} {s : State} (e : p = (a, s)) : s.InForm := by
  rw [e] at h; exact h

theorem State.InForm.snd_snd {α β : Type} {p : α × β × State} (h : p.2.2.InForm) {a : α} {b : β} {s : State} (e : p = (a, b, s)) : s.InForm := by
  rw [e] at h; exact h

/-- A state that there may be, or else another. -/
theorem State.InForm.getD {o : Option State} (ho : ∀ S, o = some S → S.InForm) {s : State} (h : s.InForm) : (o.getD s).InForm := by
  cases o with
  | none => exact h
  | some S => exact ho S rfl

/-- A fold keeps the forms where its step does, with or without a value beside the state. -/
theorem State.InForm.foldl {α : Type} (l : List α) {s : State} (h : s.InForm) (f : State → α → State)
    (hf : ∀ s x, s.InForm → (f s x).InForm) : (l.foldl f s).InForm := h.forEach l f hf

theorem State.InForm.foldl_snd {α β : Type} (l : List α) {x : β × State} (h : x.2.InForm) (f : β × State → α → β × State)
    (hf : ∀ x a, x.2.InForm → (f x a).2.InForm) : (l.foldl f x).2.InForm :=
  List.foldlRecOn (motive := fun x => x.2.InForm) l f h fun x hx a _ => hf x a hx

theorem State.InForm.foldl_snd_snd_snd {α β γ δ : Type} (l : List α) {x : β × γ × δ × State} (h : x.2.2.2.InForm)
    (f : β × γ × δ × State → α → β × γ × δ × State) (hf : ∀ x a, x.2.2.2.InForm → (f x a).2.2.2.InForm) :
    (l.foldl f x).2.2.2.InForm :=
  List.foldlRecOn (motive := fun x => x.2.2.2.InForm) l f h fun x hx a _ => hf x a hx

theorem State.InForm.foldl_fst {α β : Type} (l : List α) {x : State × β} (h : x.1.InForm) (f : State × β → α → State × β)
    (hf : ∀ x a, x.1.InForm → (f x a).1.InForm) : (l.foldl f x).1.InForm :=
  List.foldlRecOn (motive := fun x => x.1.InForm) l f h fun x hx a _ => hf x a hx

/-- Bytes are written to the surface die, or a part of it loses its bytes. -/
theorem State.InForm.sdiePut {s : State} (h : s.InForm) (a : Nat) (bs : List Byte) :
    ({ s with sdie := memPut s.sdie a bs } : State).InForm :=
  ⟨h.dram, h.host, h.peer, memPut_wf _ _ _ h.sdie, h.book, h.log, h.cclk, h.cap, h.ratio, h.ring⟩

theorem State.InForm.sdieFilter {s : State} (h : s.InForm) (p : Nat × Byte → Bool) :
    ({ s with sdie := s.sdie.filter p } : State).InForm :=
  ⟨h.dram, h.host, h.peer, memFilter_wf _ _ h.sdie, h.book, h.log, h.cclk, h.cap, h.ratio, h.ring⟩

/-- Host memory is written, or device memory loses the bytes of a range. -/
theorem State.InForm.hostWrite {s : State} (h : s.InForm) (a n x : Nat) :
    ({ s with hostMem := memWrite s.hostMem a n x } : State).InForm :=
  ⟨h.dram, memWrite_wf _ _ _ _ h.host, h.peer, h.sdie, h.book, h.log, h.cclk, h.cap, h.ratio, h.ring⟩

theorem State.InForm.dramFilter {s : State} (h : s.InForm) (p : Nat × Byte → Bool) :
    ({ s with dram := s.dram.filter p } : State).InForm :=
  ⟨memFilter_wf _ _ h.dram, h.host, h.peer, h.sdie, h.book, h.log, h.cclk, h.cap, h.ratio, h.ring⟩

/-- A record that is entered where the book has room, or held (R345, R346). -/
theorem State.InForm.bookEnter {s : State} (h : s.InForm) (c : Nat) (x : Held) (e : GbEntry) :
    (if s.bookFull c then s.bookHold c x else s.bookPut c e).InForm := by
  split
  · exact h.bookHold c x
  · next room => exact h.bookPut c e (State.room_of_bookFull (Bool.eq_false_iff.2 room))

/-- A core changes, its guest book aside. -/
theorem State.InForm.updCore_book {s : State} (h : s.InForm) (c : Nat) (f : Core → Core) (hf : ∀ k, (f k).book = k.book) :
    (s.updCore c f).InForm := h.updCore_le c f fun k => (congrArg List.length (hf k)).le

/-- The state with which a command of the matrix stream, or one element of it, ends is in form. -/
def CmdRes.InForm : CmdRes → Prop
  | .retire s | .again s | .fault _ s | .breach _ _ s => s.InForm

def ElemRes.InForm : ElemRes → Prop
  | .step s => s.InForm
  | .stop r => r.InForm

theorem reset_inForm : State.reset.InForm :=
  ⟨rfl, rfl, rfl, rfl, nofun, by decide, by decide, by decide, .inl rfl, by decide⟩

section
variable {s : State} (h : s.InForm)
include h

/-! ### The operations of teams, traps and the issue of an instruction -/

theorem State.InForm.updPad (t : Nat) (f : Team → Team) : (s.updPad t f).InForm := by
  unfold State.updPad
  extract_lets
  split
  · exact h.updTeam ..
  · exact h.update ..

theorem State.InForm.updCluster (c : Nat) (f : Cluster → Cluster) : (s.updCluster c f).InForm := h.update ..

theorem State.InForm.updSpace (n : Nat) (f : Space → Space) : (s.updSpace n f).InForm := h.update ..

theorem State.InForm.updQueue (n : Nat) (f : Queue → Queue) : (s.updQueue n f).InForm := h.update ..

theorem State.InForm.updSte (n : Nat) (f : Ste → Ste) : (s.updSte n f).InForm := h.update ..

theorem State.InForm.writeV (t g l n : Nat) (x : Word) : (s.writeV t g l n x).InForm := h.updThread ..

theorem State.InForm.writeS (t g n : Nat) (x : Word) : (s.writeS t g n x).InForm := h.updGroup ..

theorem State.InForm.writeP (t g l n : Nat) (b : Bool) : (s.writeP t g l n b).InForm := h.updThread ..

theorem State.InForm.setBar (t n : Nat) (b : Bar) : (s.setBar t n b).InForm := by
  unfold State.setBar
  split
  · exact h.updTeam ..
  · exact h.updCluster ..

theorem State.InForm.engineRecord (t group lane pc unit : Nat) (tr : Trap) : (s.engineRecord t group lane pc unit tr).InForm := by
  unfold State.engineRecord
  split
  · exact h
  · exact h.bookEnter _ _ _

theorem State.InForm.dropPrivate (t g : Nat) : (s.dropPrivate t g).InForm := by
  unfold State.dropPrivate
  extract_lets
  split
  · exact h
  · exact h.updCore_book _ _ fun _ => by rfl

theorem State.InForm.afterEnd (t g : Nat) : (s.afterEnd t g).InForm := by
  unfold State.afterEnd
  split
  · exact h.dropPrivate ..
  · exact h

theorem State.InForm.unhold (c : Nat) (p : Held → Bool) : (s.unhold c p).InForm := h.updCore_book _ _ fun _ => by rfl

theorem State.InForm.killThread (t g l : Nat) : (s.killThread t g l).InForm := by
  unfold State.killThread
  split
  · exact h
  · exact (((h.updGroup ..).afterEnd ..).unhold ..).serveHeld _ _

theorem State.InForm.killGroup (t g : Nat) : (s.killGroup t g).InForm := h.forEach _ _ fun _ _ hS => hS.killThread ..

theorem State.InForm.unpin (t : Nat) (f : Nat → Bool) : (s.unpin t f).InForm := h.updWing ..

theorem State.InForm.engDrop (f : Who → Bool) : (s.engDrop f).InForm := h.update ..

theorem State.InForm.stopTeam (t : Nat) (all : Bool) : (s.stopTeam t all).InForm := by
  unfold State.stopTeam
  refine (((h.forEach _ _ (fun S x hS => ?_)).unpin ..).engDrop _).updTeam ..
  split
  · exact hS.killGroup ..
  · exact hS

theorem State.InForm.markNext (q : Nat) : (s.markNext q).InForm := by
  unfold State.markNext
  extract_lets
  exact h.updQueue ..

theorem State.InForm.queueDrop (la : Nat) : (s.queueDrop la).InForm := (h.updQueue ..).markNext _

theorem State.InForm.endGrid (la : Nat) (st : Status) : (s.endGrid la st).InForm := by
  simp only [State.endGrid]
  split
  · exact h
  · refine State.InForm.forEach _ (State.InForm.update (State.InForm.forEach _ ?_ _ fun s t hs => hs.stopTeam t _) ..) _
      fun s c hs => hs.serveHeld 65 c
    refine (State.InForm.updLaunch (State.InForm.engDrop ?_ _) _ _).queueDrop _
    refine h.of rfl rfl rfl rfl rfl rfl rfl fun kv hk => ?_
    obtain ⟨kv, hm, rfl⟩ := List.mem_map.1 hk
    exact (List.length_filter_le _ _).trans (h.book kv hm)

theorem State.InForm.breach (la va level : Nat) : (s.breach la va level).InForm := ((h.endGrid ..).logEvent ..).msiRaise _

theorem State.InForm.teamStop (t cause gix : Nat) (threads : List (Nat × Nat)) : (s.teamStop t cause gix threads).InForm := h.updTeam ..

theorem State.InForm.porterTrap (t pc : Nat) (tr : Trap) : (s.porterTrap t pc tr).InForm :=
  (((h.endGrid ..).logEvent ..).updCore_book _ _ fun _ => by rfl).update ..

theorem State.InForm.lastTrap (t g l : Nat) : (s.lastTrap t g l).InForm := by
  unfold State.lastTrap
  extract_lets S
  have hS : S.InForm := h.killThread ..
  split
  · exact hS.killGroup ..
  · exact hS

theorem State.InForm.matchStop (t g l code : Nat) : (s.matchStop t g l code).InForm := by
  unfold State.matchStop
  split
  · split
    · exact h.teamStop ..
    split
    · exact h.updTeam ..
    · exact h
  · exact h.teamStop ..

theorem State.InForm.takeTrap (t g l : Nat) (tr : Trap) (brk : Bool) : (s.takeTrap t g l tr brk).InForm := by
  simp only [State.takeTrap]
  split
  · exact h.porterTrap t _ tr
  split
  · exact h.lastTrap t g l
  split
  · exact h.endGrid _ _
  split
  · exact h.matchStop t g l _
  split
  · split
    · exact (h.updGroup t g _).updCore_le _ _ fun _ => Nat.le_refl _
    · exact (h.updGroup t g _).bookHold _ _
  next room =>
    refine (h.updGroup t g _).bookPut _ _ ?_
    show (s.core _).book.length < 64
    grind [State.bookFull]

theorem State.InForm.takeTraps (t g : Nat) (ls : List Nat) (tr : Trap) : (s.takeTraps t g ls tr).InForm :=
  h.forEach _ _ fun _ _ hS => hS.takeTrap ..

theorem State.InForm.makeReady (t g l : Nat) : (s.makeReady t g l).InForm := by
  unfold State.makeReady
  extract_lets
  exact h.updGroup ..

theorem State.InForm.endRun (t g : Nat) : (s.endRun t g).InForm := by
  unfold State.endRun
  extract_lets S
  have hS : S.InForm := h.updGroup ..
  split
  · exact hS.killGroup ..
  · exact hS

theorem State.InForm.servedLanes (t g : Nat) (lanes : List Nat) : (s.servedLanes t g lanes).InForm := by
  unfold State.servedLanes
  extract_lets
  split
  · split
    · exact (h.updCore_book _ _ fun _ => by rfl).serveHeld _ _
    · exact h
  · exact h

theorem State.InForm.endIssue (t g : Nat) (lanes : List Nat) (rb waiting : Bool) (latch : Option Latch) :
    (s.endIssue t g lanes rb waiting latch).InForm := by
  unfold State.endIssue
  extract_lets
  split
  · exact h.servedLanes ..
  extract_lets _ _ _ _ S T U
  have hS : S.InForm := h.updGroup ..
  have hT : T.InForm := by
    unfold T
    split
    · exact hS.endRun ..
    · exact hS
  have hU : U.InForm := hT.servedLanes ..
  split
  · exact hU
  split
  · exact (hU.updTeam ..).teamStop ..
  · exact hU

theorem State.InForm.advance (t g : Nat) (lanes : List Nat) (n : Nat) : (s.advance t g lanes n).InForm := h.updGroup ..

theorem State.InForm.putWait (t g : Nat) (lanes : List Nat) (c : Cond) : (s.putWait t g lanes c).InForm := by
  unfold State.putWait
  extract_lets _ S
  have hS : S.InForm := h.update ..
  split
  · exact h
  · exact hS.updGroup ..

theorem State.InForm.endWait (t g w : Nat) : (s.endWait t g w).InForm := by
  unfold State.endWait
  split
  · exact h
  · exact h.updGroup ..

/-! ### Operands and the shapes of lane instructions -/

theorem State.InForm.streamFetchFault (t : Nat) (tr : Trap) : (s.streamFetchFault t tr).InForm := by
  unfold State.streamFetchFault
  split
  · exact h
  split
  · exact h.endGrid ..
  · exact (h.updTeam ..).engineRecord ..

theorem issue_inForm (o : Ops) (u : Uses) (priv : Bool) (body : Iss → State → State) (hbody : ∀ x S, S.InForm → (body x S).InForm) :
    Out.InForm (issue o u priv body s) := by
  unfold issue
  split
  · exact .next (h.streamFetchFault ..)
  · split
    · exact .fault _
    extract_lets
    split
    · split
      · exact .next (h.update ..)
      split
      · exact .next ((h.takeTraps ..).endIssue ..)
      split
      · exact .next ((h.takeTraps ..).endIssue ..)
      split
      · split
        · exact .next ((h.putWait ..).endRun ..)
        split
        · split
          · exact .next (((h.takeTraps ..).advance ..).endIssue ..)
          · exact .next (hbody _ _ (h.update ..))
        · exact .next (((h.takeTraps ..).advance ..).endIssue ..)
      split
      · exact .next (h.update ..)
      · exact .next ((h.putWait ..).endRun ..)
    split
    · exact .next (h.update ..)
    split
    · exact .next ((h.takeTraps ..).endIssue ..)
    split
    · exact .next ((h.takeTraps ..).endIssue ..)
    split
    · split
      · exact .next ((h.putWait ..).endRun ..)
      split
      · split
        · exact .next (((h.takeTraps ..).advance ..).endIssue ..)
        · exact .next (hbody _ _ (h.update ..))
      · exact .next (((h.takeTraps ..).advance ..).endIssue ..)
    split
    · exact .next (h.update ..)
    · exact .next ((h.putWait ..).endRun ..)
  · exact .fault _

theorem Iss.finish_inForm (i : Iss) (jumped : List Nat) (waiting : Bool) (latch : Option Latch) :
    (Iss.finish i s jumped waiting latch).InForm := (h.advance ..).endIssue ..

theorem Iss.writeLanes_inForm (i : Iss) (rs : List (Nat × LaneRes)) : (Iss.writeLanes i s rs).InForm := by
  unfold Iss.writeLanes
  refine (h.updGroup ..).forEach _ _ fun S x hS => ?_
  split
  · exact hS.takeTrap ..
  · exact hS

theorem vecIssue_inForm (o : Ops) (u : Uses) (latch : Bool) (f : State → Iss → Nat → LaneRes) : Out.InForm (vecIssue o u latch f s) :=
  issue_inForm h _ _ _ _ fun _ _ hS => Iss.finish_inForm (Iss.writeLanes_inForm hS ..) ..

theorem scalIssue_inForm (o : Ops) (u : Uses) (latch : Bool) (f : State → Iss → Nat → LaneRes) : Out.InForm (scalIssue o u latch f s) := by
  unfold scalIssue
  refine issue_inForm h _ _ _ _ fun x S hS => ?_
  split
  · exact Iss.finish_inForm hS ..
  extract_lets _ T
  have hT : T.InForm := hS.updGroup ..
  split
  · exact Iss.finish_inForm (hS.takeTraps ..) ..
  · exact Iss.finish_inForm hT ..

theorem State.InForm.addPend (p : Pend) : (s.addPend p).InForm := h.update ..

theorem mediumIssue_inForm (o : Ops) (u : Uses) (f : State → Iss → Nat → LaneRes) : Out.InForm (mediumIssue o u f s) := by
  unfold mediumIssue
  refine issue_inForm h _ _ _ _ fun x S hS => Iss.finish_inForm ?_ ..
  split
  · exact Iss.writeLanes_inForm hS ..
  · exact (Iss.writeLanes_inForm hS ..).addPend _

theorem State.InForm.landPend (id : Nat) (p : Pend) : (s.landPend id p).InForm :=
  ((h.update ..).updGroup ..).forEach _ _ fun _ _ hS => hS.endWait ..

theorem landResult_inForm (medium : Bool) (id : Nat) : Out.InForm (landResult medium id s) := by
  unfold landResult
  split
  · exact .fault _
  split
  · exact .next (h.landPend ..)
  · exact .fault _

/-! ### Integer words -/

theorem formIssue_inForm (sc : Bool) (o : Ops) (u : Uses) (f : State → Iss → Nat → LaneRes) : Out.InForm (formIssue sc o u f s) := by
  unfold formIssue
  split
  · exact scalIssue_inForm h ..
  · exact vecIssue_inForm h ..

theorem alu1_inForm (o : Ops) (sc : Bool) (f : Word → Word) : Out.InForm (alu1 o sc f s) := formIssue_inForm h ..

theorem alu2_inForm (o : Ops) (sc : Bool) (f : Word → Word → Word) : Out.InForm (alu2 o sc f s) := formIssue_inForm h ..

theorem alu3_inForm (o : Ops) (sc : Bool) (f : Word → Word → Word → Word) : Out.InForm (alu3 o sc f s) := formIssue_inForm h ..

theorem fpVec_inForm (o : Ops) (u : Uses) (medium : Bool) (f : State → Iss → Nat → Word → List Word × FFlags) :
    Out.InForm (fpVec o u medium f s) := by
  unfold fpVec
  extract_lets
  split
  · exact mediumIssue_inForm h ..
  · exact vecIssue_inForm h ..

theorem fpScal_inForm (o : Ops) (u : Uses) (medium : Bool) (f : State → Iss → Nat → Word → List Word × FFlags) :
    Out.InForm (fpScal o u medium f s) := by
  unfold fpScal
  refine issue_inForm h _ _ _ _ fun x S hS => ?_
  extract_lets
  split
  · exact Iss.finish_inForm hS ..
  extract_lets _ T _ U
  have hT : T.InForm := hS.updGroup ..
  have hU : U.InForm := hT.updGroup ..
  split
  · exact Iss.finish_inForm (hS.takeTraps ..) ..
  split
  · exact Iss.finish_inForm (hT.addPend _) ..
  · exact Iss.finish_inForm hU ..

theorem fpIssue_inForm (sc : Bool) (o : Ops) (u : Uses) (medium : Bool) (f : State → Iss → Nat → Word → List Word × FFlags) :
    Out.InForm (fpIssue sc o u medium f s) := by
  unfold fpIssue
  split
  · exact fpScal_inForm h ..
  · exact fpVec_inForm h ..

/-! ### Floating-point words -/

theorem fp2_inForm (o : Ops) (ty : FTy) (sc : Bool) (f : Word → Word → Word → List Word × FFlags) : Out.InForm (fp2 o ty sc f s) :=
  fpIssue_inForm h ..

theorem fnIssue_inForm (fn : Fn) (o : Ops) (fm : TForm) (na aa : Bool) : Out.InForm (fnIssue fn o fm na aa s) := fpIssue_inForm h ..

/-! ### Memory operations shared by accesses -/

theorem State.InForm.noteUnit (u slot : Nat) : (s.noteUnit u slot).InForm := by
  unfold State.noteUnit
  split
  · exact h.logEvent ..
  · exact h

theorem State.InForm.noteFixed (line slot : Nat) : (s.noteFixed line slot).InForm := (h.noteUnit ..).noteUnit ..

theorem State.InForm.setPoison (u : Nat) (p : Bool) : (s.setPoison u p).InForm := h.update ..

theorem State.InForm.notePoison (line : Nat) (p : BitVec 2) : (s.notePoison line p).InForm := by
  unfold State.notePoison
  extract_lets S
  have hS : S.InForm := by
    unfold S
    split
    · exact h.setPoison ..
    · exact h
  split
  · exact hS.setPoison ..
  · exact hS

theorem State.InForm.dramWriteDirty (line k : Nat) (l : L2Line) : (s.dramWriteDirty line k l).InForm := by
  unfold State.dramWriteDirty
  extract_lets
  split
  · exact h
  · exact h.dramWriteUnit ..

theorem State.InForm.dramWriteLine (line : Nat) (l : L2Line) : (s.dramWriteLine line l).InForm := (h.dramWriteDirty ..).dramWriteDirty ..

theorem State.InForm.hMark (pa : Nat) (p : Bool) : (s.hMark pa p).InForm := h.update ..

/-! ### Masks and HOME records -/

theorem State.InForm.setPub (slice core e : Nat) : (s.setPub slice core e).InForm := h.update ..

theorem State.InForm.purgeMasks (slice : Nat) : (s.purgeMasks slice).InForm := by
  unfold State.purgeMasks
  extract_lets
  split
  · exact h
  · exact h.update ..

theorem State.InForm.l1Put (c : Nat) (l : L1Line) : (s.l1Put c l).InForm := h.updCore_book _ _ fun _ => by rfl

theorem State.InForm.l1Drop (c : Nat) (l : L1Line) : (s.l1Drop c l).InForm := h.updCore_book _ _ fun _ => by rfl

theorem State.InForm.overtake (c line : Nat) : (s.overtake c line).InForm := h.update ..

theorem State.InForm.recallNow (line : Nat) : ((s.recallNow line).1).InForm := by
  unfold State.recallNow
  split
  · exact h
  refine (h.foldl_fst _ _ (fun x' a hS => ?_)).update ..
  split
  · exact hS.overtake ..
  · exact (hS.l1Drop ..).overtake ..

theorem State.InForm.maskRoom (sl : Nat) : (s.maskRoom sl).InForm := by
  unfold State.maskRoom
  extract_lets S
  have hS : S.InForm := h.purgeMasks _
  split
  · exact hS
  split
  · exact hS
  extract_lets T U
  have hT : T.InForm := hS.recallNow _
  have hU : U.InForm := hT.update ..
  split
  · exact hU
  · exact hU.update ..

theorem State.InForm.maskPut (line core : Nat) (g0 g1 : Option Gen) : (s.maskPut line core g0 g1).InForm := by
  unfold State.maskPut
  extract_lets _ _ _ _ _ _ _ S
  have hS : S.InForm := by
    unfold S
    split
    · exact h
    · exact h.maskRoom _
  split
  · exact h
  split
  · exact h.update ..
  split
  · exact h.update ..
  · exact hS.update ..

/-! ### The L2 and replicas -/

theorem State.InForm.l2Drop (line : Nat) : (s.l2Drop line).InForm := by
  unfold State.l2Drop
  extract_lets r S
  have hr : r.1.InForm := h.recallNow _
  have hS : S.InForm := hr.foldl _ _ fun _ _ hT => hT.maskPut ..
  split
  · exact hS
  · exact (hS.dramWriteLine ..).update ..

theorem State.InForm.l2Room (slice set : Nat) : (s.l2Room slice set).InForm := by
  unfold State.l2Room
  split
  · exact h.l2Drop _
  · exact h.update ..
  · exact h

theorem State.InForm.replPut (line die : Nat) (r : ReplLine) : (s.replPut line die r).InForm := by
  unfold State.replPut
  refine State.InForm.update (s := _) ?_ ..
  split
  · exact h
  refine (State.InForm.notePoison ?_ ..).l2Room ..
  split
  · exact h.l2Drop _
  · exact h

theorem State.InForm.l2Fetch (line slot : Nat) : (s.l2Fetch line slot).InForm := by
  unfold State.l2Fetch
  extract_lets S _ T
  have hS : S.InForm := h.l2Room ..
  have hT : T.InForm := (hS.noteFixed ..).notePoison ..
  split
  · extract_lets U _ V
    have hU : U.InForm := h.dramWriteLine ..
    have hV : V.InForm := (hU.noteFixed ..).notePoison ..
    split
    · exact h.update ..
    · exact hV.update ..
  · exact hT.update ..

theorem State.InForm.l2Line (line slot : Nat) : (s.l2Line line slot).2.InForm := h.l2Fetch ..

theorem State.InForm.l2Merge (line slot : Nat) (data : Line) (m : ByteMask) : (s.l2Merge line slot data m).InForm := by
  unfold State.l2Merge
  extract_lets S
  have hS : S.InForm := h.l2Fetch ..
  split
  · exact h
  · exact hS.update ..

theorem State.InForm.l2Poison (line slot : Nat) (p : BitVec 2) : (s.l2Poison line slot p).InForm := by
  unfold State.l2Poison
  extract_lets S
  have hS : S.InForm := h.l2Fetch ..
  split
  · exact h
  · exact hS.update ..

theorem State.InForm.unitWritten (u : Nat) : (s.unitWritten u).InForm := by
  unfold State.unitWritten
  refine State.InForm.setPoison ?_ ..
  split
  · exact h
  · exact h.update ..

theorem State.InForm.homeRead (pa n slot : Nat) : (s.homeRead pa n slot).2.2.InForm := h.l2Line ..

theorem State.InForm.homeWrite (pa n slot x : Nat) : (s.homeWrite pa n slot x).InForm := h.l2Merge ..

theorem State.InForm.pokeBytes (pa slot : Nat) (bs : List Byte) : (s.pokeBytes pa slot bs).InForm := by
  induction bs generalizing s pa with
  | nil => exact h
  | cons b bs ih => exact ih (h.homeWrite ..) _

theorem State.InForm.rowRead (pa n slot : Nat) : (s.rowRead pa n slot).2.2.InForm := by
  unfold State.rowRead
  extract_lets _ S
  have hS : S.InForm := h.noteUnit ..
  split
  · exact hS.setPoison ..
  · exact hS

theorem State.InForm.rowWrite (pa n slot x : Nat) : (s.rowWrite pa n slot x).InForm := h.dramWriteUnit ..

/-! ### Translation -/

theorem State.InForm.walk (wing space va : Nat) (write : Bool) (need : Need) : (s.walk wing space va write need).2.InForm := by
  unfold State.walk
  extract_lets _ _ _ S
  have hS : S.InForm := h.updWing ..
  split
  · exact h
  split
  · extract_lets _ _ T
    have hT : T.InForm := by
      unfold T
      split
      · exact hS
      split
      · exact hS.rowWrite ..
      split <;> exact hS.homeWrite ..
    exact hT
  · exact hS

theorem State.InForm.wingLease (w : Nat) (lease : Option Nat) : (s.wingLease w lease).InForm := by
  unfold State.wingLease
  split
  · exact h
  split
  · exact h
  split
  · exact h
  · exact h.updWing ..

theorem State.InForm.tlbFill (wing space : Nat) (tlb : TlbKind) (va : Nat) (f : Leaf) (pin : Option (Nat × Nat)) :
    (s.tlbFill wing space tlb va f pin).InForm := by
  unfold State.tlbFill
  extract_lets
  exact h.updWing ..

theorem State.InForm.walkAsk (wing space : Nat) (tlb : TlbKind) (va : Nat) (write : Bool) (need : Need) :
    (s.walkAsk wing space tlb va write need).InForm := h.updWing ..

theorem State.InForm.xlate (wing space : Nat) (tlb : TlbKind) (va : Nat) (kind : AccKind) (need : Need) (pin : Option (Nat × Nat)) :
    (s.xlate wing space tlb va kind need pin).2.InForm := by
  unfold State.xlate
  extract_lets
  split
  · dsimp only
    exact h.walkAsk ..
  split
  · extract_lets
    dsimp only
    exact h.updWing ..
  split
  · dsimp only
    exact h.walkAsk ..
  dsimp only
  exact h.updWing ..

theorem State.InForm.translate (wing la : Nat) (tlb : TlbKind) (va : Nat) (kind : AccKind) (need : Need) (pin : Option (Nat × Nat)) :
    (s.translate wing la tlb va kind need pin).2.InForm := by
  unfold State.translate
  extract_lets
  split
  · exact h
  split
  · exact h
  split
  · exact h
  · exact h.xlate ..

/-! ### The L1 -/

theorem State.InForm.mergeLine (l : L1Line) : (s.mergeLine l).InForm := by
  unfold State.mergeLine
  extract_lets S
  have hS : S.InForm := h.l2Fetch ..
  split
  · exact h
  · exact hS.update ..

theorem State.InForm.l1Mark (c : Nat) (l : L1Line) (write : Bool) (b : ByteMask) : (s.l1Mark c l write b).InForm := by
  unfold State.l1Mark
  extract_lets
  split
  · exact (h.mergeLine _).l1Put ..
  · exact h.l1Put ..

theorem State.InForm.l1Evict (c : Nat) (l : L1Line) : (s.l1Evict c l).InForm := by
  unfold State.l1Evict
  extract_lets S
  have hS : S.InForm := h.l1Drop ..
  split
  · split
    · exact hS
    · exact hS.update ..
  · exact hS.mergeLine _

theorem State.InForm.l1Oust (c line : Nat) : (s.l1Oust c line).InForm := by
  unfold State.l1Oust
  split
  · exact h.l1Evict ..
  · exact h

theorem State.InForm.l1Room (c vline : Nat) : (s.l1Room c vline).InForm := by
  unfold State.l1Room
  extract_lets
  split
  · exact h
  split
  · exact h.l1Evict ..
  · exact h

theorem State.InForm.l1FillPlain (c space vline : Nat) (p : Phys) : (s.l1FillPlain c space vline p).InForm := by
  unfold State.l1FillPlain
  extract_lets _ r S T
  have hr : r.2.InForm := h.l2Line ..
  have hS : S.InForm := hr
  have hT : T.InForm := hS.l1Room ..
  split
  · exact hS.l1Put ..
  · exact hT.l1Put ..

theorem State.InForm.l1Retag (c space vline : Nat) (p : Phys) : (s.l1Retag c space vline p).InForm := by
  unfold State.l1Retag
  split
  · exact h
  split
  · exact h.l1Evict ..
  split
  · exact h.l1Put ..
  · exact ((h.l1Drop ..).l1Room ..).l1Put ..

theorem State.InForm.l1Each (c : Nat) (f : L1Line → Option L1Line) : (s.l1Each c f).InForm := h.updCore_book _ _ fun _ => by rfl

theorem State.InForm.l1Inv (c line : Nat) (bytes : ByteMask) : (s.l1Inv c line bytes).InForm := h.l1Each ..

theorem State.InForm.releasePriv (c : Nat) : (s.releasePriv c).InForm := (h.foldl _ _ (fun _ _ hS => hS.mergeLine _)).l1Each ..

theorem State.InForm.releaseTracked (c : Nat) : (s.releaseTracked c).InForm := (h.foldl _ _ (fun _ _ hS => hS.mergeLine _)).l1Each ..

theorem State.InForm.publishAll (c e : Nat) : (s.publishAll c e).InForm := h.foldl _ _ fun _ _ hS => (hS.setPub ..).purgeMasks _

theorem State.InForm.clearIm (c : Nat) : (s.clearIm c).InForm := h.l1Each ..

theorem State.InForm.dropForeign (c : Nat) : (s.dropForeign c).InForm := h.l1Each ..

theorem State.InForm.epochWrap (c : Nat) : (s.epochWrap c).InForm := by
  unfold State.epochWrap
  extract_lets S T U V W
  have hS : S.InForm := ((h.releasePriv _).releaseTracked _).publishAll ..
  have hT : T.InForm := hS.dropForeign _
  have hU : U.InForm := hT.l1Each ..
  have hV : V.InForm := hU.update ..
  have hW : W.InForm := hV.foldl _ _ fun _ _ hX => hX.purgeMasks _
  exact hW.updCore_book _ _ fun _ => by rfl

theorem State.InForm.regionEnd (c : Nat) (release : Bool) : (s.regionEnd c release).InForm := by
  unfold State.regionEnd
  refine (State.InForm.clearIm ?_ _).updCore_book _ _ fun _ => by rfl
  split
  · exact h.epochWrap _
  · exact h

theorem State.InForm.publishNow (c : Nat) : (s.publishNow c).InForm :=
  ((((h.releasePriv _).releaseTracked _).publishAll ..).regionEnd ..).dropForeign _

theorem State.InForm.darnNow (c e a : Nat) : (s.darnNow c e a).InForm := by
  unfold State.darnNow
  extract_lets _ S
  have hS : S.InForm := h.foldl _ _ fun _ _ hT => ((hT.mergeLine _).l1Put ..).l1Inv ..
  split
  · exact h
  · exact hS.publishAll ..

theorem State.InForm.dropClean (c : Nat) (f : L1Line → Bool) : (s.dropClean c f).InForm := by
  unfold State.dropClean
  refine h.foldl _ _ fun S x hS => ?_
  split
  · exact hS.l1Evict ..
  · exact hS.l1Each ..

theorem State.InForm.dropV (core : Nat) : (s.dropV core).InForm := h.dropClean ..

theorem State.InForm.mstCross (t : Nat) : (s.mstCross t).InForm := by
  unfold State.mstCross
  split
  · exact h
  refine (h.forEach _ _ (fun S x' hS => ?_)).updTeam ..
  split
  · exact hS
  · exact hS.forEach _ _ fun _ _ hT => (hT.overtake ..).l1Inv ..

theorem State.InForm.mstNote (t line : Nat) (b : ByteMask) : (s.mstNote t line b).InForm := h.updTeam ..

theorem State.InForm.acquireDrop (c : Nat) (sys : Bool) : (s.acquireDrop c sys).InForm := h.dropClean ..

theorem State.InForm.acquireDone (c : Nat) (sys : Bool) : (s.acquireDone c sys).InForm := (h.acquireDrop ..).regionEnd ..

theorem cvqIssue_inForm (n : Nat) (o : Ops) (satf : Bool) (slot : BitVec 3) : Out.InForm (cvqIssue n o satf slot s) := vecIssue_inForm h ..

theorem cvxIssue_inForm (n : Nat) (o : Ops) (slot : BitVec 3) : Out.InForm (cvxIssue n o slot s) := vecIssue_inForm h ..

/-! ### Accesses -/

theorem State.InForm.accPut (id : Option Nat) (a : Access) : (s.accPut id a).2.InForm := by
  unfold State.accPut
  split
  · exact h.update ..
  · exact h.accNew _

theorem State.InForm.l1LoadHit (a : Access) (l : L1Line) : (s.l1LoadHit a l).2.InForm := by
  unfold State.l1LoadHit
  extract_lets
  split
  · exact h
  split
  · exact h.l1Mark ..
  · exact h.l1Put ..

theorem State.InForm.unitStored (a : Access) : (s.unitStored a).InForm := by
  unfold State.unitStored
  split
  · exact h.unitWritten _
  · exact h

theorem State.InForm.l1StoreHit (a : Access) (l : L1Line) (im : Bool) : (s.l1StoreHit a l im).InForm := by
  unfold State.l1StoreHit
  extract_lets _ _ S
  have hS : S.InForm := by
    unfold S
    split
    · exact h.l1Mark ..
    · exact h
  split
  · exact hS
  · exact hS.l1Put ..

theorem State.InForm.sendIntent (id : Nat) (a : Access) : (s.sendIntent id a).InForm := h.send _

theorem State.InForm.tryL1 (id : Option Nat) (a : Access) : ∀ r, s.tryL1 id a = some r → r.2.InForm := by
  intro r e
  unfold State.tryL1 at e
  split at e
  · cases e
  extract_lets b at e
  split at e
  · cases e
  split at e
  · split at e
    · cases e; exact h.l1LoadHit ..
    · cases e
  · split at e
    · cases e
    split at e
    · cases e; exact h.l1StoreHit ..
    · split at e
      · cases e; exact h.l1StoreHit ..
      · cases e; exact (h.accPut ..).sendIntent ..
    · cases e
  · cases e

theorem State.InForm.flushOwn (a : Access) : (s.flushOwn a).InForm := by
  unfold State.flushOwn
  extract_lets
  split
  · exact h
  · exact (h.mergeLine _).l1Each ..

theorem State.InForm.sendFill (id : Nat) (a : Access) : (s.sendFill id a).InForm := (h.update ..).send _

theorem State.InForm.startFill (id : Nat) (a : Access) : (s.startFill id a).InForm := by
  unfold State.startFill
  split
  · exact h.update ..
  · exact h.sendFill ..

theorem State.InForm.byClass (id : Option Nat) (a : Access) (p : Phys) : (s.byClass id a p).2.InForm := by
  unfold State.byClass
  extract_lets S T U r r' r1
  have hS : S.InForm := h.l1Retag ..
  have hT : T.InForm := hS.l1FillPlain ..
  have hU : U.InForm := h.flushOwn _
  have hr : r.2.InForm := hU.accPut ..
  have hr' : r'.2.InForm := hS.accPut ..
  have hr1 : r1.2.InForm := h.accPut ..
  split
  · split
    next e' => exact hS.tryL1 _ _ _ e'
    split
    next e2 => exact hT.tryL1 _ _ _ e2
    · exact hT
  · split
    next e' => exact hS.tryL1 _ _ _ e'
    split
    next e2 => exact hT.tryL1 _ _ _ e2
    · exact hT
  · split
    · exact hr.send _
    split
    next e' => exact hS.tryL1 _ _ _ e'
    · exact hr'.startFill ..
  · exact hr1.send _
  · exact hr1.send _

theorem State.InForm.afterXlate (id : Option Nat) (a : Access) (p : Phys) : (s.afterXlate id a p).2.InForm := by
  unfold State.afterXlate
  extract_lets
  split
  · exact h.accPut ..
  split
  · exact h.accPut ..
  split
  · exact h.accPut ..
  · exact h.byClass ..

theorem State.InForm.startAt (id : Option Nat) (la : Nat) (a : Access) : (s.startAt id la a).2.InForm := by
  unfold State.startAt
  extract_lets
  split
  · exact h.accPut ..
  split
  next e => exact h.tryL1 _ _ _ e
  split
  next e' => exact ((h.translate ..).snd e').accPut ..
  next e' => exact (h.translate ..).snd e'
  next e' => exact (h.translate ..).snd e'
  next e' => exact ((h.translate ..).snd e').afterXlate ..

theorem State.InForm.startAcc (la : Nat) (a : Access) : (s.startAcc la a).2.InForm := h.startAt ..

theorem State.InForm.texSettle (id : Nat) : (s.texSettle id).2.InForm := by
  unfold State.texSettle
  extract_lets S
  have hS : S.InForm := h.update ..
  split
  · exact h
  split
  · exact h
  split
  · exact hS
  · exact hS.update ..

theorem State.InForm.texPut (id k v : Nat) : (s.texPut id k v).InForm := by
  unfold State.texPut
  split
  · exact h
  · exact h.update ..

theorem State.InForm.texWatch (id : Nat) (a : Access) : (s.texWatch id a).InForm := by
  unfold State.texWatch
  split
  · extract_lets
    split
    · exact h
    · exact h.update ..
  · exact h

theorem State.InForm.texDrop (id : Nat) : (s.texDrop id).InForm := by
  unfold State.texDrop
  split
  · exact h
  · exact h.update ..

theorem State.InForm.deliver (a : Access) (v : Nat) : (s.deliver a v).InForm := by
  unfold State.deliver
  extract_lets
  split
  · exact h.addPend _
  · exact h.addPend _
  · exact h.texPut ..
  · exact h

theorem State.InForm.trapAt (t g l pc : Nat) (tr : Trap) : (s.trapAt t g l pc tr).InForm := by
  unfold State.trapAt
  extract_lets S
  have hS : S.InForm := h.updGroup ..
  split
  · exact h
  · exact hS.takeTrap ..

theorem State.InForm.watchAfter (a : Access) : (s.watchAfter a).InForm := by
  unfold State.watchAfter
  split
  · split
    · split
      next e2 => exact ((h.texWatch ..).texSettle _).snd e2
      next e2 =>
        split
        · exact (((h.texWatch ..).texSettle _).snd e2).takeTrap ..
        · exact (((h.texWatch ..).texSettle _).snd e2).trapAt ..
    split
    · exact h
    split
    · exact h
    extract_lets
    split
    · exact h.takeTrap ..
    · exact h.forEach _ _ fun _ _ hS => hS.trapAt ..
  · exact h

theorem State.InForm.engAnswer (id : Nat) (a : Access) : (s.engAnswer id a).InForm := by
  unfold State.engAnswer
  split
  · split <;> exact h.update ..
  · exact h.update ..
  · exact h.update ..
  · exact h

theorem State.InForm.finishAcc (id : Nat) (a : Access) (v : Nat) : (s.finishAcc id a v).InForm := by
  unfold State.finishAcc
  extract_lets S
  have hS : S.InForm := ((h.update ..).deliver ..).watchAfter _
  split
  · exact h.engAnswer ..
  split
  · exact hS.servedLanes ..
  · exact hS

theorem State.InForm.failAcc (id : Nat) (a : Access) (tr : Trap) : (s.failAcc id a tr).InForm := by
  unfold State.failAcc
  extract_lets S _ T
  have hS : S.InForm := h.update ..
  have hT : T.InForm := by
    unfold T
    split
    · exact hS.texDrop _
    · exact hS
  split
  · exact h.engAnswer ..
  split
  · exact hS
  split
  · exact hT.forEach _ _ fun _ _ hU => hU.trapAt ..
  · exact hT

theorem State.InForm.atHome (a : Access) : (s.atHome a).2.InForm := by
  unfold State.atHome
  extract_lets r S
  have hr : r.2.2.InForm := h.homeRead ..
  have hS : S.InForm := hr
  split
  · exact hS
  split
  · exact hS
  · exact (hS.homeWrite ..).unitStored _

theorem State.InForm.settle (id : Nat) (a : Access) (r : AStat) : (s.settle id a r).InForm := by
  unfold State.settle
  extract_lets S
  have hS : S.InForm := h.update ..
  split
  · exact h.finishAcc ..
  · exact h.failAcc ..
  · split
    · exact hS.breach ..
    · exact hS.breach ..
    · exact hS
    · exact hS
  · exact h

theorem State.InForm.syncDone (a : Access) : (s.syncDone a).InForm := by
  unfold State.syncDone
  split
  · exact h.acquireDone ..
  · exact h

theorem State.InForm.syncPerform (a : Access) (old : Nat) (put : State → Nat → State) (hput : ∀ S x, S.InForm → (put S x).InForm) :
    (s.syncPerform a old put).2.InForm := by
  unfold State.syncPerform
  extract_lets
  split
  · exact h
  extract_lets S T
  have hS : S.InForm := hput _ _ h
  have hT : T.InForm := hS.update ..
  split
  · split
    · exact hS.update ..
    · exact hT.regionEnd ..
  · exact hS

/-! ### Units that read and write memory -/

theorem State.InForm.devGet (core pa n key : Nat) (cls : PClass) : (s.devGet core pa n key cls).2.2.InForm := by
  unfold State.devGet
  extract_lets
  split
  · exact h
  split
  · exact h.rowRead ..
  · exact h.homeRead ..

theorem State.InForm.devPut (pa n key : Nat) (cls : PClass) (x : Nat) (poison : Bool) : (s.devPut pa n key cls x poison).InForm := by
  unfold State.devPut
  extract_lets _ _ S T U
  have hS : S.InForm := ((h.replPut ..).replPut ..).rowWrite ..
  have hT : T.InForm := h.rowWrite ..
  have hU : U.InForm := h.homeWrite ..
  split
  · split
    · exact hS.setPoison ..
    · exact hS
  split
  · split
    · exact hT.setPoison ..
    · exact hT
  split
  · exact hU.l2Poison ..
  · exact hU

theorem State.InForm.eInv (core pa n : Nat) (cls : PClass) : (s.eInv core pa n cls).InForm := by
  unfold State.eInv
  extract_lets _ _ S
  have hS : S.InForm := h.l1Inv ..
  split
  · exact hS
  split
  · exact hS
  · exact hS.foldl _ _ fun _ _ hT => (hT.overtake ..).l1Inv ..

theorem State.InForm.replSound (pa die : Nat) : (s.replSound pa die).InForm := by
  unfold State.replSound
  extract_lets S
  have hS : S.InForm := h.unitWritten _
  split
  · exact hS
  · exact hS.update ..

theorem State.InForm.devSound (pa : Nat) (cls : PClass) : (s.devSound pa cls).InForm := by
  unfold State.devSound
  split
  · exact (h.replSound ..).replSound ..
  · exact h.unitWritten _

theorem State.InForm.unitPost (a : Access) (put : State → State) (hput : ∀ S, S.InForm → (put S).InForm) : (s.unitPost a put).InForm := by
  unfold State.unitPost
  split
  · exact h.accNew _
  · exact hput _ h

theorem State.InForm.unitAt (a : Access) (now : State → Nat × Bool × State) (hnow : ∀ S, S.InForm → (now S).2.2.InForm) :
    (s.unitAt a now).2.InForm := by
  unfold State.unitAt
  extract_lets r
  have hr : r.2.2.InForm := hnow _ h
  split
  · exact h
  split
  · exact h.accNew _
  · exact hr.accNew _

theorem State.InForm.unitTake (w : Work) (va n : Nat) : (s.unitTake w va n).InForm := h.update ..

theorem State.InForm.unitRead (w : Work) (t va n al : Nat) (tlb : TlbKind) (kind : AccKind) : (s.unitRead w t va n al tlb kind).2.InForm := by
  unfold State.unitRead
  extract_lets
  split
  · exact h
  split
  next e' => exact (h.translate ..).snd e'
  next e' => exact (h.translate ..).snd e'
  next e' => exact ((h.translate ..).snd e').accNew _
  next e' =>
    extract_lets
    split
    next e2 => exact (((h.translate ..).snd e').unitAt _ _ (fun _ hU => hU.devGet ..)).snd e2
    next e2 => exact (((h.translate ..).snd e').unitAt _ _ (fun _ hU => hU.devGet ..)).snd e2

theorem State.InForm.prefetch (core : Nat) (p : Phys) : (s.prefetch core p).InForm := by
  unfold State.prefetch
  extract_lets
  split
  · exact h
  split
  · exact h.replPut ..
  · exact h.l2Fetch ..

theorem State.InForm.prefetchAt (la core va : Nat) : (s.prefetchAt la core va).InForm := by
  unfold State.prefetchAt
  split
  next e => exact ((h.translate ..).snd e).prefetch ..
  next e => exact ((h.translate ..).snd e).accNew _
  next e => exact (h.translate ..).snd e

/-! ### Surfaces and the press -/

theorem State.InForm.sdieMark (p : Bool) (ws : List Nat) : (s.sdieMark p ws).InForm := h.update ..

theorem State.InForm.setDomain (d : Nat) (x : DomState) : (s.setDomain d x).InForm := h.update ..

theorem State.InForm.pressDone (ix frame : Nat) : (s.pressDone ix frame).InForm := h.engDrop _

theorem State.InForm.pressDrop (ix k : Nat) : (s.pressDrop ix k).InForm := (h.pressDone ..).update ..

theorem State.InForm.pressAsk (ix k : Nat) (f : Frame) (read : Bool) : (s.pressAsk ix k f read).InForm := h.update ..

theorem State.InForm.touchFrame (ix k : Nat) : (s.touchFrame ix k).2.InForm := by
  unfold State.touchFrame
  extract_lets
  split
  · exact h
  extract_lets
  split
  · dsimp only
    exact h.updSte ..
  · dsimp only
    exact (h.updSte ..).pressDrop ..
  · dsimp only
    exact h.updSte ..
  · dsimp only
    exact h.updSte ..
  · split
    · dsimp only
      exact h.updSte ..
    extract_lets S T
    have hS : S.InForm := (h.update ..).updSte ..
    have hT : T.InForm := hS.pressAsk ..
    dsimp only
    exact hT.update ..

theorem State.InForm.reach (ix o : Nat) (taken : Bool) (va : Nat) : (s.reach ix o taken va).2.InForm := by
  unfold State.reach
  extract_lets
  split
  · exact h
  split
  · exact h
  split
  next e' => exact (h.touchFrame ..).snd e'
  next e' =>
    split
    · exact (h.touchFrame ..).snd e'
    extract_lets
    split
    · exact (h.touchFrame ..).snd e'
    · exact (h.touchFrame ..).snd e'
    · split
      · exact (h.touchFrame ..).snd e'
      · exact ((h.touchFrame ..).snd e').update ..

theorem State.InForm.bankAsk (x : BankReq) : (s.bankAsk x).InForm := h.update ..

theorem State.InForm.bankAskAcc (bank id : Nat) (a : Access) : (s.bankAskAcc bank id a).InForm := h.bankAsk _

theorem State.InForm.bankDo (a : Access) (bank byte addr : Nat) : (s.bankDo a bank byte addr).2.InForm := by
  unfold State.bankDo
  extract_lets _ _ S
  have hS : S.InForm := h.update ..
  split
  · exact hS
  split
  · exact hS
  extract_lets T
  have hT : T.InForm := hS.bankWrite ..
  split
  · exact hT.sdieMark ..
  split
  · exact hT.sdieMark ..
  · exact hT

theorem State.InForm.startSurf (a : Access) : (s.startSurf a).2.InForm := by
  unfold State.startSurf
  split
  next e => exact (h.reach ..).snd e
  next e => exact ((h.reach ..).snd e).accNew _
  next e => exact (((h.reach ..).snd e).accNew _).bankAskAcc ..

theorem State.InForm.surfWake : s.surfWake.InForm := by
  unfold State.surfWake
  refine h.forEach _ _ fun S x hS => ?_
  extract_lets
  split
  next e => exact (hS.reach ..).snd e
  next e => exact ((hS.reach ..).snd e).failAcc ..
  next e => exact (((hS.reach ..).snd e).update ..).bankAskAcc ..

theorem State.InForm.pickFrame (l : List Nat) : (s.pickFrame l).2.InForm := by
  unfold State.pickFrame
  split
  · exact h
  · exact h.update ..

theorem State.InForm.setReserve (ri stack f : Nat) : (s.setReserve ri stack f).InForm := h.update ..

theorem State.InForm.takeReserve (ri stack : Nat) : (s.takeReserve ri stack).InForm := by
  unfold State.takeReserve
  split
  · exact h
  split
  next e => exact ((h.pickFrame _).snd e).setReserve ..
  next e => exact (h.pickFrame _).snd e

theorem State.InForm.initReserve (ri : Nat) : (s.initReserve ri).InForm := by
  unfold State.initReserve
  extract_lets S
  have hS : S.InForm := h.update ..
  split
  · exact hS
  split
  · exact (hS.takeReserve ..).takeReserve ..
  · exact hS.takeReserve ..

theorem State.InForm.clearFrame (e : Ste) (f : Nat) : (s.clearFrame e f).InForm := by
  unfold State.clearFrame
  refine h.foldl _ _ fun S x hS => ?_
  extract_lets _ _ _ T U
  have hT : T.InForm := by
    unfold T
    split
    · exact hS.setDomain ..
    · exact hS
  have hU : U.InForm := hT.sdiePut ..
  split
  · exact hS
  · exact hU.sdieMark ..

theorem State.InForm.placeFrames (ix stack n : Nat) : (s.placeFrames ix stack n).InForm := by
  induction n with
  | zero => exact h
  | succ k ih =>
    unfold State.placeFrames
    extract_lets S
    split
    next e => exact (ih.pickFrame _).snd e
    next e => exact (((ih.pickFrame _).snd e).clearFrame ..).updSte ..

theorem State.InForm.reportSte (id status : Nat) : (s.reportSte id status).InForm := by
  unfold State.reportSte
  split
  · exact h
  · exact h.update ..

theorem State.InForm.reportWaits (ix : Nat) : (s.reportWaits ix).InForm := by
  unfold State.reportWaits
  extract_lets
  split
  · exact h
  · exact (h.forEach _ _ (fun _ _ hS => hS.reportSte ..)).updSte ..

theorem State.InForm.pressAbandon (ix : Nat) : (s.pressAbandon ix).InForm := by
  unfold State.pressAbandon
  refine h.forEach _ _ fun S x hS => ?_
  extract_lets _ T
  have hT : T.InForm := (hS.updSte ..).pressDrop ..
  split
  · exact (hS.updSte ..).pressDrop ..
  · split
    · exact hS
    split
    · exact hT
    · exact hT.setReserve ..
  · exact hS

theorem State.InForm.steApply (space ix : Nat) (v : BitVec 256) : (s.steApply space ix v).InForm := by
  unfold State.steApply
  extract_lets _ _ _ _ _ _ _ S _ _ T
  have hS : S.InForm := (h.updSte ..).pressAbandon _
  have hT : T.InForm := h.updSte ..
  split
  · split
    · exact h.updSte ..
    · exact (hS.update ..).surfWake
  split
  · exact hT.update ..
  · exact hT

theorem State.InForm.applyHeld (fuel ix : Nat) : (s.applyHeld fuel ix).InForm := by
  induction fuel generalizing s with
  | zero => exact h
  | succ n ih =>
    unfold State.applyHeld
    extract_lets e
    split
    · exact h
    split
    · exact h
    next r rest _ =>
      extract_lets S T U
      have hT : T.InForm := (h.updSte ..).steApply ..
      have hU : U.InForm := by
        unfold U
        split
        · exact hT.updSte ..
        · exact hT
      exact ih (hU.reportWaits _)

theorem State.InForm.stewArrive (space ix : Nat) (v : BitVec 256) (wait : Bool) (pend : Nat) : (s.stewArrive space ix v wait pend).InForm := by
  unfold State.stewArrive
  extract_lets _ S T
  have hS : S.InForm := h.updSte ..
  have hT : T.InForm := h.steApply ..
  split
  · split
    · exact hS
    · exact hS.reportSte ..
  split
  · exact (hT.updSte ..).reportWaits _
  · exact hT.reportSte ..

theorem State.InForm.steEnded (ix : Nat) : (s.steEnded ix).InForm := (((h.reportWaits _).surfWake).applyHeld ..).surfWake

theorem execSurfaceAllocate_inForm (ix : Nat) : Out.InForm (execSurfaceAllocate ix s) := by
  unfold execSurfaceAllocate
  extract_lets _ _ _ _ _ _ S
  have hS : S.InForm := (h.placeFrames ..).placeFrames ..
  split
  · exact .fault _
  split
  · exact .next ((h.updSte ..).steEnded _)
  split
  · exact .fault _
  · exact .next ((hS.updSte ..).steEnded _)

theorem execPressSpillStart_inForm (region stack : Nat) (firm : Bool) : Out.InForm (execPressSpillStart region stack firm s) := by
  unfold execPressSpillStart
  extract_lets
  split
  · exact .next (((h.updSte ..).pressAsk ..).update ..)
  · exact .fault _

theorem State.InForm.pressXlate (ix va : Nat) (write : Bool) : (s.pressXlate ix va write).2.2.InForm := by
  unfold State.pressXlate
  extract_lets
  split
  · exact h
  · exact h.xlate ..

theorem State.InForm.pressUnit (ix frame va : Nat) (w : Option (Nat × Bool)) : (s.pressUnit ix frame va w).2.InForm := by
  unfold State.pressUnit
  extract_lets
  split
  · exact h
  split
  next e' => exact (h.pressXlate ..).snd_snd e'
  next e' =>
    refine ((h.pressXlate ..).snd_snd e').unitAt _ _ fun T hT => ?_
    split
    · exact hT.devGet ..
    extract_lets U
    have hU : U.InForm := hT.devPut ..
    split
    · exact hU
    · exact hU.devSound ..
  next e' => exact ((h.pressXlate ..).snd_snd e').accNew _
  next e' => exact ((h.pressXlate ..).snd_snd e').accNew _

theorem State.InForm.spillTile (ix frame : Nat) (e : Ste) (tile : Nat) (bs : List Byte) (ps : List Bool) (comp : Bool) :
    (s.spillTile ix frame e tile bs ps comp).2.InForm := by
  unfold State.spillTile
  refine h.foldl_snd _ _ fun x a hS => ?_
  extract_lets
  split
  · exact hS
  split
  iterate 3 next e' => exact (hS.pressUnit ..).snd e'

theorem State.InForm.spillFrame (ix frame : Nat) (f : Frame) : (s.spillFrame ix frame f).2.InForm := by
  unfold State.spillFrame
  refine h.foldl_snd _ _ fun x a hS => ?_
  extract_lets _ y
  have hy : y.2.InForm := hS.spillTile ..
  split
  · exact hS
  · exact hy

theorem execSpillComplete_inForm (ix frame : Nat) : Out.InForm (execSpillComplete ix frame s) := by
  unfold execSpillComplete
  extract_lets
  split
  · extract_lets
    split
    · split
      · exact .fault _
      split
      next e3 => exact .next (((h.spillFrame ..).snd e3).update ..)
      next e3 => exact .next (((((h.spillFrame ..).snd e3).pressDone ..).updSte ..).surfWake)
      next e3 =>
        refine .next (State.InForm.surfWake ?_)
        split
        · exact (((((h.spillFrame ..).snd e3).pressDone ..).updSte ..).update ..).setReserve ..
        · exact ((((h.spillFrame ..).snd e3).pressDone ..).updSte ..).update ..
    · exact .fault _
  · exact .fault _

theorem State.InForm.fillTile (ix frame : Nat) (e : Ste) (tile : Nat) (saved : List Byte) (comp : Bool) :
    ((s.fillTile ix frame e tile saved comp).2.2.2).InForm := by
  unfold State.fillTile
  extract_lets _ _ rd S
  have hrd : rd.2.2.2.InForm := by
    unfold rd
    refine h.foldl_snd_snd_snd _ _ fun x a hS => ?_
    split
    iterate 3 next e' => exact (hS.pressUnit ..).snd e'
  have hS : S.InForm := hrd
  split
  · exact hS
  · exact hS.update ..

theorem State.InForm.fillFrame (ix frame : Nat) (f : Frame) : (s.fillFrame ix frame f).2.InForm :=
  h.foldl_snd _ _ fun _ _ hS => (hS.fillTile ..).foldl _ _ fun _ _ hS1 => (hS1.sdiePut ..).sdieMark ..

theorem execFillComplete_inForm (ix frame : Nat) : Out.InForm (execFillComplete ix frame s) := by
  unfold execFillComplete
  split
  · split
    · exact .fault _
    split
    next e' => exact .next (((h.fillFrame ..).snd e').update ..)
    next e' => exact .next (((((h.fillFrame ..).snd e').pressDone ..).updSte ..).surfWake)
  · exact .fault _

theorem execFrameAgeTick_inForm : Out.InForm (execFrameAgeTick s) := .next (h.update ..)

theorem execDomainRetentionEnter_inForm (die k : Nat) : Out.InForm (execDomainRetentionEnter die k s) := by
  unfold execDomainRetentionEnter
  extract_lets
  split
  · exact .fault _
  · exact .next (h.setDomain ..)

theorem execDomainWake_inForm (die k : Nat) : Out.InForm (execDomainWake die k s) := by
  unfold execDomainWake
  extract_lets
  split
  · exact .fault _
  · exact .next ((h.setDomain ..).surfWake)

theorem State.InForm.domainLose (d : Nat) : (s.domainLose d).InForm := (h.sdieFilter _).update ..

theorem execDomainOff_inForm (die k : Nat) (forced : Bool) : Out.InForm (execDomainOff die k forced s) := by
  unfold execDomainOff
  extract_lets
  split
  · exact .fault _
  · exact .next (((h.domainLose _).setDomain ..).surfWake)

theorem execDomainOn_inForm (die k : Nat) : Out.InForm (execDomainOn die k s) := by
  unfold execDomainOn
  extract_lets
  split
  · exact .fault _
  · exact .next (((h.domainLose _).setDomain ..).surfWake)

theorem State.InForm.dbgAnswer (w : Word) (status : Nat) : (s.dbgAnswer w status).InForm := h.update ..

theorem State.InForm.dbgBank (places : List (Nat × Nat)) (e : Option (Ste × Nat)) : (s.dbgBank places e).InForm := by
  unfold State.dbgBank
  extract_lets _ S
  have hS : S.InForm := by
    unfold S
    split
    · exact (h.forEach _ _ (fun _ _ hT => hT.setDomain ..)).surfWake
    · exact h
  split
  · exact h.dbgAnswer ..
  · exact hS.dbgAnswer ..

theorem State.InForm.dbgFrames (ix addr : Nat) : (s.dbgFrames ix addr).2.InForm := by
  unfold State.dbgFrames
  refine h.foldl_snd _ _ fun x a hS => ?_
  split
  next e => exact (hS.touchFrame ..).snd e

theorem execDebugSurfaceRead_inForm (ste : Option Nat) (addr : Nat) : Out.InForm (execDebugSurfaceRead ste addr s) := by
  unfold execDebugSurfaceRead
  have again {S : State} (hS : S.InForm) : Out.InForm (.next { S with later := S.later ++ [.debugSurfaceRead ste addr] }) :=
    .next (hS.update ..)
  split
  · exact again h
  split
  · extract_lets hit
    clear_value hit
    split
    · exact .fault _
    · exact .next (h.dbgBank ..)
  next ix =>
    extract_lets e
    split
    · split
      · exact .fault _
      have touched := h.dbgFrames ix addr
      split
      next S e => exact again (touched.snd e)
      next S e => exact .next (State.InForm.dbgBank (touched.snd e) ..)
    · exact again h
    · exact .next (h.dbgAnswer ..)

/-! ### Private memory -/

theorem State.InForm.privPieces (t g l pc : Nat) (write : Bool) (ends : List (Nat × Nat)) (i : Nat) (ds : List Nat) :
    (s.privPieces t g l pc write ends i ds).2.2.InForm := by
  induction ds generalizing s i with
  | nil => exact h
  | cons d ds ih =>
    unfold State.privPieces
    extract_lets a b
    have started := h.startAcc (s.team t).launch b
    split
    next e => exact started.snd e
    next e =>
      split
      next e' => exact State.InForm.snd_snd (ih (started.snd e) _) e'
    next e => exact started.snd e

theorem State.InForm.pushReturn (t g l off : Nat) : (s.pushReturn t g l off).2.InForm := by
  unfold State.pushReturn
  extract_lets
  split
  · exact h
  split
  · dsimp only
    exact h.updThread ..
  split
  next e =>
    dsimp only
    exact (h.privPieces ..).snd_snd e
  next e =>
    dsimp only
    exact ((h.privPieces ..).snd_snd e).updThread ..

theorem State.InForm.popReturn (t g l : Nat) : (s.popReturn t g l).2.InForm := by
  unfold State.popReturn
  extract_lets
  split
  · dsimp only
    exact h.updThread ..
  split
  · exact h
  split
  next e' =>
    dsimp only
    exact (h.privPieces ..).snd_snd e'
  next e' =>
    dsimp only
    exact ((h.privPieces ..).snd_snd e').updThread ..

/-! ### Control flow -/

theorem State.InForm.setPcs (t g : Nat) (l : List (Nat × Nat)) : (s.setPcs t g l).InForm := h.updGroup ..

theorem Iss.jump_inForm (i : Iss) (targets : List (Nat × Nat)) : (Iss.jump i s targets).InForm := Iss.finish_inForm (h.setPcs ..) ..

theorem execBra_inForm (o : Ops) : Out.InForm (execBra o s) := issue_inForm h _ _ _ _ fun _ _ hS => Iss.jump_inForm hS ..

theorem braSome_inForm (o : Ops) (q : BitVec 3) (take : State → Iss → Bool) : Out.InForm (braSome o q take s) :=
  issue_inForm h _ _ _ _ fun _ _ hS => Iss.jump_inForm hS ..

theorem execBrx_inForm (o : Ops) : Out.InForm (execBrx o s) := by
  unfold execBrx
  refine issue_inForm h _ _ _ _ fun x S hS => Iss.jump_inForm (hS.forEach _ _ (fun T x' hT => ?_)) ..
  split
  · exact hT.takeTrap ..
  · exact hT

theorem State.InForm.callLane (i : Iss) (l : Nat) (target : Nat ⊕ Trap) : (s.callLane i l target).InForm := by
  unfold State.callLane
  extract_lets
  split
  · exact h.takeTrap ..
  split
  next e => exact ((h.pushReturn ..).snd e).takeTrap ..
  next e => exact ((h.pushReturn ..).snd e).setPcs ..

theorem execCall_inForm (o : Ops) : Out.InForm (execCall o s) :=
  issue_inForm h _ _ _ _ fun _ _ hS => Iss.finish_inForm (hS.forEach _ _ (fun _ _ hT => hT.callLane ..)) ..

theorem execCallx_inForm (o : Ops) : Out.InForm (execCallx o s) :=
  issue_inForm h _ _ _ _ fun _ _ hS => Iss.finish_inForm (hS.forEach _ _ (fun _ _ hT => hT.callLane ..)) ..

theorem execRet_inForm (o : Ops) : Out.InForm (execRet o s) := by
  unfold execRet
  refine issue_inForm h _ _ _ _ fun x S hS => Iss.finish_inForm (hS.forEach _ _ (fun T x' hT => ?_)) ..
  split
  next e => exact ((hT.popReturn ..).snd e).takeTrap ..
  next e => exact ((hT.popReturn ..).snd e).setPcs ..

theorem State.InForm.exitThread (t g l : Nat) : (s.exitThread t g l).InForm := (h.updThread ..).afterEnd ..

theorem execExit_inForm (o : Ops) : Out.InForm (execExit o s) :=
  issue_inForm h _ _ _ _ fun _ _ hS => Iss.finish_inForm (hS.forEach _ _ (fun _ _ hT => hT.exitThread ..)) ..

theorem Iss.finishWait_inForm (i : Iss) (lanes : List Nat) (c : Cond) : (Iss.finishWait i s lanes c).InForm := by
  unfold Iss.finishWait
  extract_lets _ S T
  have hS : S.InForm := h.advance ..
  have hT : T.InForm := hS.putWait ..
  exact hT.endIssue ..

theorem execConv_inForm (o : Ops) : Out.InForm (execConv o s) :=
  issue_inForm h _ _ _ _ fun _ _ hS => ((hS.advance ..).updGroup ..).endIssue ..

theorem execConvRelease_inForm (tid gix : Nat) : Out.InForm (execConvRelease tid gix s) := by
  unfold execConvRelease
  split
  · exact .fault _
  · exact .next (h.updGroup ..)

theorem execNop_inForm (o : Ops) : Out.InForm (execNop o s) := issue_inForm h _ _ _ _ fun _ _ hS => Iss.finish_inForm hS ..

theorem execPause_inForm (o : Ops) : Out.InForm (execPause o s) := by
  unfold execPause
  refine issue_inForm h _ _ _ _ fun x S hS => ?_
  split
  · exact Iss.finish_inForm hS ..
  extract_lets
  split
  · exact Iss.finish_inForm hS ..
  · exact Iss.finishWait_inForm hS ..

theorem execPauseExpiry_inForm (tid gix wid : Nat) : Out.InForm (execPauseExpiry tid gix wid s) := by
  unfold execPauseExpiry
  split
  · split
    · exact .next (h.endWait ..)
    · exact .fault _
  · exact .fault _

/-! ### Special registers -/

theorem fpmHold_inForm (code : BitVec 8) (i : Iss) (body : State → State) (hbody : ∀ S, S.InForm → (body S).InForm) :
    (fpmHold code i s body).InForm := by
  unfold fpmHold
  split
  · exact h.update ..
  · exact hbody _ h

theorem execSread_inForm (o : Ops) (sc : Bool) (code : BitVec 8) : Out.InForm (execSread o sc code s) := by
  unfold execSread
  refine issue_inForm h _ _ _ _ fun x S hS => fpmHold_inForm hS _ _ _ fun T hT => ?_
  extract_lets
  split
  · split
    · exact Iss.finish_inForm hT ..
    refine Iss.finish_inForm ?_ ..
    split
    · exact hT
    · exact hT.writeS ..
  · exact Iss.finish_inForm (Iss.writeLanes_inForm hT ..) ..

theorem execSwrite_inForm (o : Ops) (code : BitVec 8) : Out.InForm (execSwrite o code s) := by
  unfold execSwrite
  refine issue_inForm h _ _ _ _ fun x S hS => ?_
  split
  · exact fpmHold_inForm hS _ _ _ fun _ hT => Iss.finish_inForm (Iss.writeLanes_inForm hT ..) ..
  split
  · exact Iss.finish_inForm hS ..
  · exact Iss.finish_inForm (hS.updGroup ..) ..

theorem execProg_inForm (o : Ops) : Out.InForm (execProg o s) := by
  unfold execProg
  refine issue_inForm h _ _ _ _ fun x S hS => ?_
  split
  · exact Iss.finish_inForm hS ..
  extract_lets _ T
  have hT : T.InForm := hS.updSpace ..
  split
  · exact Iss.finish_inForm (hS.takeTraps ..) ..
  · exact Iss.finish_inForm hT ..

/-! ### Pointers -/

theorem State.InForm.scrWrite (t o n x : Nat) : (s.scrWrite t o n x).InForm := h.updPad ..

theorem State.InForm.scrMark (t : Nat) (p : Bool) (ws : List Nat) : (s.scrMark t p ws).InForm := h.updPad ..

/-! ### Coherence -/

theorem State.InForm.addTxn (t : Txn) : (s.addTxn t).InForm := h.update ..

theorem State.InForm.again (line : Nat) (i : Instr) : Out.InForm (s.again line i) := .next (h.update ..)

theorem State.InForm.homeWake (line : Nat) : (s.homeWake line).InForm := by
  unfold State.homeWake
  split
  · exact h
  · exact h.update ..

theorem State.InForm.dropTxn (t : Txn) : (s.dropTxn t).InForm := by
  unfold State.dropTxn
  extract_lets S
  have hS : S.InForm := h.update ..
  split
  iterate 4 · exact hS.homeWake _
  · exact hS
  · exact hS

theorem State.InForm.swapTxn (t t' : Txn) : (s.swapTxn t t').InForm := h.update ..

theorem State.InForm.updL2 (line : Nat) (f : L2Line → L2Line) : (s.updL2 line f).InForm := h.update ..

theorem State.InForm.demoteIfDue (line : Nat) : (s.demoteIfDue line).InForm := by
  unfold State.demoteIfDue
  extract_lets
  split
  · exact h
  split
  · exact h.updL2 ..
  · exact (h.addTxn _).foldl _ _ fun _ _ hS => hS.send _

theorem State.InForm.fillAnswer (core line : Nat) (bytes : ByteMask) (acc : Nat) : (s.fillAnswer core line bytes acc).InForm := by
  unfold State.fillAnswer
  refine (State.InForm.send ?_ _).demoteIfDue _
  split
  · exact h
  · exact h.updL2 ..

theorem State.InForm.fillHop (acc : Nat) (a : Access) : (s.fillHop acc a).InForm :=
  ((h.update ..).send _).forEach _ _ fun _ _ hS => (hS.update ..).send _

theorem execFill_inForm (core line : Nat) (bytes : ByteMask) (acc : Nat) : Out.InForm (execFill core line bytes acc s) := by
  unfold execFill
  split
  · exact .fault _
  extract_lets S
  have hS : S.InForm := h.l2Fetch ..
  split
  · exact h.again ..
  split
  · exact .next (hS.fillHop ..)
  split
  · split
    · exact .next (hS.fillAnswer ..)
    · exact .next ((hS.addTxn _).send _)
  · exact .next (hS.fillAnswer ..)

theorem execMprobe_inForm (core line : Nat) : Out.InForm (execMprobe core line s) := by
  unfold execMprobe
  split
  · exact .next (h.send _)
  · exact .next ((h.l1Each ..).send _)

theorem execMrep_inForm (core line : Nat) (g0 g1 : Option Gen) : Out.InForm (execMrep core line g0 g1 s) := by
  unfold execMrep
  extract_lets S
  have hS : S.InForm := h.maskPut ..
  split
  · exact .next ((hS.dropTxn _).fillAnswer ..)
  · exact .next (hS.demoteIfDue _)

theorem State.InForm.fillDone (id : Nat) (a : Access) (line : Nat) : (s.fillDone id a line).InForm := by
  unfold State.fillDone
  split
  · exact h
  extract_lets r
  have hr : r.2.InForm := h.l1LoadHit ..
  split
  · split
    · exact (h.l1StoreHit ..).finishAcc ..
    · exact h.sendIntent ..
  · exact hr.settle ..

theorem State.InForm.rideOn (id : Nat) (a : Access) : (s.rideOn id a).InForm := by
  unfold State.rideOn
  extract_lets
  split
  · exact h.startFill ..
  next l _ =>
    split
    · exact (h.update ..).fillDone ..
    · exact h.sendFill ..

theorem State.InForm.serveOnce (id : Nat) (a : Access) (data : Line) (poison : BitVec 2) : (s.serveOnce id a data poison).InForm := by
  unfold State.serveOnce
  split
  · exact h.startFill ..
  next c =>
    split
    · exact h.failAcc ..
    · exact h.finishAcc ..

theorem execFilld_inForm (core line : Nat) (data : Line) (poison : BitVec 2) (fd : ByteMask) (sole race : Bool) (acc : Nat) :
    Out.InForm (execFilld core line data poison fd sole race acc s) := by
  unfold execFilld
  split
  · exact .fault _
  extract_lets _ _ S T U
  have hS : S.InForm := h.update ..
  have hT : T.InForm := (hS.l1Oust ..).l1Room ..
  have hU : U.InForm := by
    unfold U
    split
    · exact hS.l1Put ..
    · exact hT.l1Put ..
  split
  · exact .next ((hS.failAcc ..).forEach _ _ (fun _ _ hV => hV.rideOn ..))
  split
  · exact .next ((hS.serveOnce ..).forEach _ _ (fun _ _ hV => hV.serveOnce ..))
  · exact .next ((hU.fillDone ..).forEach _ _ (fun _ _ hV => hV.rideOn ..))

theorem State.InForm.intentAnswer (core line : Nat) (bytes : ByteMask) (epoch acc : Nat) :
    (s.intentAnswer core line bytes epoch acc).InForm := by
  unfold State.intentAnswer
  split
  · exact h
  extract_lets r S
  have hr : r.2.InForm := h.atHome _
  have hS : S.InForm := hr.maskPut ..
  split
  · split
    · exact (h.failAcc ..).demoteIfDue _
    split
    · exact ((hS.update ..).send _).demoteIfDue _
    · exact (hr.settle ..).demoteIfDue _
  split
  · exact (h.send _).demoteIfDue _
  · exact ((h.maskPut ..).send _).demoteIfDue _

theorem State.InForm.gather (core line : Nat) (bytes : ByteMask) (epoch acc : Nat) : (s.gather core line bytes epoch acc).InForm := by
  unfold State.gather
  extract_lets
  split
  · exact h.intentAnswer ..
  · exact (h.addTxn _).foldl _ _ fun _ _ hS => hS.send _

theorem execIntent_inForm (core line : Nat) (bytes : ByteMask) (epoch acc : Nat) : Out.InForm (execIntent core line bytes epoch acc s) := by
  unfold execIntent
  split
  · exact .fault _
  extract_lets S
  have hS : S.InForm := h.l2Fetch ..
  split
  · exact h.again ..
  split
  · exact .next (hS.send _)
  · exact .next (hS.gather ..)

theorem execMark_inForm (core line : Nat) (bytes : ByteMask) : Out.InForm (execMark core line bytes s) := by
  unfold execMark
  split
  · exact .next (h.send _)
  · exact .next ((h.l1Each ..).send _)

theorem execMarkr_inForm (core line : Nat) (g0 g1 : Option Gen) : Out.InForm (execMarkr core line g0 g1 s) := by
  unfold execMarkr
  extract_lets S
  have hS : S.InForm := h.maskPut ..
  split
  · extract_lets
    split
    · exact .next ((hS.dropTxn _).intentAnswer ..)
    · exact .next (hS.swapTxn ..)
  · exact .next (hS.demoteIfDue _)

theorem execGrant_inForm (core line acc : Nat) : Out.InForm (execGrant core line acc s) := by
  unfold execGrant
  split
  · exact .fault _
  split
  · exact .next ((h.l1StoreHit ..).finishAcc ..)
  · exact .next (h.startFill ..)

theorem execRnack_inForm (core line acc : Nat) : Out.InForm (execRnack core line acc s) := by
  unfold execRnack
  split
  · exact .fault _
  · exact .next (h.failAcc ..)

theorem State.InForm.recallDone (line : Nat) (demote evict : Bool) : (s.recallDone line demote evict).InForm := by
  unfold State.recallDone
  extract_lets S
  have hS : S.InForm := h.updL2 ..
  split
  · exact hS.l2Drop _
  · exact hS

theorem State.InForm.recallServed (core line : Nat) : (s.recallServed core line).InForm := by
  unfold State.recallServed
  split
  · extract_lets
    split
    · exact (h.dropTxn _).recallDone ..
    · exact h.swapTxn ..
  · exact h

theorem execWb_inForm (core line key : Nat) (data : Line) (poison : BitVec 2) (dm : ByteMask) (g0 g1 : Option Gen) (why : WbWhy) :
    Out.InForm (execWb core line key data poison dm g0 g1 why s) := by
  unfold execWb
  extract_lets S T
  have hS : S.InForm := h.mergeLine _
  have hT : T.InForm := hS.maskPut ..
  split
  · exact .next (((hT.send _).recallServed ..).demoteIfDue _)
  · exact .next (((hT.send _).recallServed ..).demoteIfDue _)
  · split
    · exact .next ((hT.addTxn _).send _)
    · exact .next ((hT.send _).demoteIfDue _)

theorem State.InForm.darnAcks (core : Nat) : (s.darnAcks core).InForm := by
  unfold State.darnAcks
  extract_lets
  split
  · exact h
  · exact (h.foldl _ _ (fun _ _ hS => hS.send _)).updCore_book _ _ fun _ => by rfl

theorem execWback_inForm (core line : Nat) (why : WbWhy) : Out.InForm (execWback core line why s) := by
  unfold execWback
  split
  · exact .next ((h.updCore_book _ _ fun _ => by rfl).darnAcks _)
  · exact .next h

theorem execRecall_inForm (core line : Nat) : Out.InForm (execRecall core line s) := by
  unfold execRecall
  extract_lets S
  have hS : S.InForm := h.overtake ..
  split
  · exact .next (hS.send _)
  · exact .next ((hS.l1Drop ..).send _)

theorem execDarn_inForm (core epoch acquirer syncLine : Nat) : Out.InForm (execDarn core epoch acquirer syncLine s) := by
  unfold execDarn
  extract_lets _ S
  have hS : S.InForm := h.foldl _ _ fun _ _ hT => (hT.l1Each ..).send _
  split
  · exact .next (h.send _)
  split
  · exact .next (h.send _)
  · exact .next ((hS.updCore_book _ _ fun _ => by rfl).darnAcks _)

theorem State.InForm.replyAll (accs : List Nat) : (s.replyAll accs).InForm := h.foldl _ _ fun _ _ hS => hS.send _

theorem execDarnack_inForm (core epoch : Nat) (stale : Bool) (syncLine : Nat) : Out.InForm (execDarnack core epoch stale syncLine s) := by
  unfold execDarnack
  split
  next l _ _ _ _ =>
    extract_lets S
    have hS : S.InForm := h.dropTxn _
    split
    · exact .next ((hS.update ..).replyAll _)
    · exact .next ((hS.addTxn _).foldl _ _ (fun _ _ hT => hT.send _))
  · exact .fault _

theorem execInv_inForm (core line : Nat) (bytes : ByteMask) : Out.InForm (execInv core line bytes s) :=
  .next (((h.overtake ..).l1Inv ..).send _)

theorem execInvack_inForm (core line : Nat) : Out.InForm (execInvack core line s) := by
  unfold execInvack
  split
  · exact .next (((h.dropTxn _).send _).demoteIfDue _)
  · exact .fault _

theorem execPublish_inForm (slice core epoch syncLine : Nat) : Out.InForm (execPublish slice core epoch syncLine s) :=
  .next (((h.setPub ..).purgeMasks _).send _)

theorem execPuback_inForm (slice core epoch syncLine : Nat) : Out.InForm (execPuback slice core epoch syncLine s) := by
  unfold execPuback
  split
  next l _ _ _ =>
    extract_lets S
    have hS : S.InForm := h.dropTxn _
    split
    · exact .next (hS.replyAll _)
    · exact .next (hS.addTxn _)
  · exact .fault _

theorem State.InForm.accValue (id : Nat) (a : Access) (v : Nat) : (s.accValue id a v).InForm := h.update ..

theorem State.InForm.startDarn (id core epoch line acquirer : Nat) : (s.startDarn id core epoch line acquirer).InForm := by
  unfold State.startDarn
  extract_lets
  split
  · exact h.update ..
  · exact (h.addTxn _).send _

theorem State.InForm.serve (id : Nat) (a : Access) (direct : Bool) (get : State → Nat × Bool × State) (put : State → Nat → State)
    (hget : ∀ S, S.InForm → (get S).2.2.InForm) (hput : ∀ S x, S.InForm → (put S x).InForm) : (s.serve id a direct get put).InForm := by
  unfold State.serve
  extract_lets r S _ T x U c
  have hr : r.2.2.InForm := hget _ h
  have hS : S.InForm := hr
  have hT : T.InForm := by
    unfold T
    split
    · exact hS
    · exact hput _ _ hS
  have hx : x.2.InForm := hS.syncPerform _ _ _ hput
  have hU : U.InForm := hx.accValue ..
  split
  · exact hS.failAcc ..
  split
  · split
    · exact hT.finishAcc ..
    · exact (hT.accValue ..).send _
  split
  · exact hU.startDarn ..
  · exact hU.send _

theorem execHop_inForm (acc : Nat) : Out.InForm (execHop acc s) := by
  unfold execHop
  split
  · exact .fault _
  extract_lets _ _ S T _ r' _ U
  have hS : S.InForm := h.replPut ..
  have hT : T.InForm := h.l2Fetch ..
  have hr' : r'.2.InForm := hT.atHome _
  have hU : U.InForm := hr'.maskPut ..
  split
  · split
    · exact h.again ..
    next c =>
      split
      · exact .next (hS.failAcc ..)
      · exact .next ((hS.accValue ..).send _)
  · split
    · exact h.again ..
    next c =>
      split
      · split
        · exact .next (hT.failAcc ..)
        split
        · exact .next ((hU.accValue ..).send _)
        · exact .next (hr'.settle ..)
      split
      · exact .next (hT.gather ..)
      · exact .next (hT.startFill ..)
  · exact .next (h.serve _ _ _ _ _ (fun _ hV => hV.homeRead ..) (fun _ _ hV => (hV.homeWrite ..).unitStored _))

theorem execHopr_inForm (acc : Nat) : Out.InForm (execHopr acc s) := by
  unfold execHopr
  split
  · exact .fault _
  split
  · exact .fault _
  · exact .next ((h.syncDone _).finishAcc ..)

theorem execRstore_inForm (acc : Nat) : Out.InForm (execRstore acc s) := by
  unfold execRstore
  split
  · exact .fault _
  · exact .next (((h.update ..).send _).send _)

theorem execRfwd_inForm (die acc : Nat) : Out.InForm (execRfwd die acc s) := by
  unfold execRfwd
  split
  · exact .fault _
  · exact .next ((h.replPut ..).send _)

theorem execRpack_inForm (die acc : Nat) : Out.InForm (execRpack die acc s) := by
  unfold execRpack
  split
  · exact .fault _
  extract_lets _ S
  have hS : S.InForm := h.update ..
  split
  · exact .next ((hS.send _).send _)
  · exact .next hS

theorem execRcommit_inForm (die acc : Nat) : Out.InForm (execRcommit die acc s) := by
  unfold execRcommit
  split
  · exact .fault _
  extract_lets _ _ _ S T U V
  have hS : S.InForm := by
    unfold S
    split
    · exact (h.rowWrite ..).unitStored _
    · exact h
  have hT : T.InForm := hS.replPut ..
  have hU : U.InForm := hT.update ..
  have hV : V.InForm := hU.homeWake _
  split
  · exact .next (hV.finishAcc ..)
  · exact .next hV

/-! ### The walkers -/

theorem State.InForm.walkResume (id : Nat) (a : Access) : (s.walkResume id a).InForm := by
  unfold State.walkResume
  extract_lets
  split
  · exact (h.startAt ..).settle ..
  · exact (h.update ..).prefetchAt ..
  · exact h

theorem State.InForm.updWalk (wing : Nat) (w : Walk) (f : Walk → Option Walk) : (s.updWalk wing w f).InForm := h.updWing ..

theorem State.InForm.walkDo (wing : Nat) (w : Walk) : (s.walkDo wing w).InForm := by
  unfold State.walkDo
  split
  next e => exact (((h.walk ..).snd e).forEach _ _ (fun _ _ hT => hT.tlbFill ..)).updWalk ..
  next e' => exact ((h.walk ..).snd e').updWalk ..
  next e => exact ((h.walk ..).snd e).updWalk ..

theorem State.InForm.walkTidy (wing : Nat) : (s.walkTidy wing).InForm := by
  unfold State.walkTidy
  extract_lets
  exact h.updWing ..

theorem execPageWalk_inForm (wing : Nat) (tlb : TlbKind) (space va : Nat) (kind : AccKind) :
    Out.InForm (execPageWalk wing tlb space va kind s) := by
  unfold execPageWalk
  extract_lets
  split
  · exact .fault _
  extract_lets S
  have hS : S.InForm := by
    unfold S
    split
    · exact h.updWalk ..
    · exact h.walkDo ..
  split
  · exact .fault _
  split
  · exact .next (h.updWalk ..)
  · exact .next ((hS.forEach _ _ (fun _ _ hT => hT.walkResume ..)).walkTidy _)

theorem State.InForm.walkSnooped (unit : Nat) : ∀ r, s.walkSnooped unit = some r → r.InForm := by
  intro r hr
  obtain ⟨kv, -, rfl⟩ := Option.map_eq_some_iff.1 hr
  exact h.updWing ..

/-! ### The engines’ accesses -/

theorem State.InForm.eResolve (t p : Nat) (tlb : TlbKind) (write : Bool) (need : Need) (pin : Option (Nat × Nat)) :
    (s.eResolve t p tlb write need pin).2.InForm := by
  unfold State.eResolve
  extract_lets
  split
  · split
    iterate 3 next e' => exact (h.reach ..).snd e'
  · exact h
  · split <;> exact h
  · split
    iterate 3 next e => exact (h.translate ..).snd e
    next e =>
      split
      · exact (h.translate ..).snd e
      split
      · exact (h.translate ..).snd e
      split <;> exact (h.translate ..).snd e

theorem State.InForm.eRead (core : Nat) (p : EPlace) (n : Nat) : (s.eRead core p n).2.2.InForm := by
  unfold State.eRead
  split
  iterate 3 · exact h
  · exact h.devGet ..

theorem State.InForm.eWrite (core : Nat) (p : EPlace) (n x : Nat) (poison : Bool) : (s.eWrite core p n x poison).InForm := by
  unfold State.eWrite
  split
  · split
    · exact (h.hPut ..).hMark ..
    · exact h.hPut ..
  · extract_lets S
    have hS : S.InForm := h.scrWrite ..
    split
    · exact hS.scrMark ..
    · exact hS
  · extract_lets S
    have hS : S.InForm := h.bankWrite ..
    split
    · exact hS.sdieMark ..
    · exact hS
  · extract_lets S
    have hS : S.InForm := h.devPut ..
    split
    · exact hS
    · exact hS.eInv ..

theorem State.InForm.eClean (p : EPlace) : (s.eClean p).InForm := by
  unfold State.eClean
  split
  · exact h.hMark ..
  · exact h.scrMark ..
  · exact h.sdieMark ..
  · exact h.devSound ..

theorem State.InForm.engPut (r : EReq) (q : EPlace) (x : Nat) (bad : Bool) : (s.engPut r q x bad).InForm := by
  unfold State.engPut
  split
  · extract_lets S
    have hS : S.InForm := h.homeWrite ..
    split
    · exact hS.mstNote ..
    · exact hS
  · exact h.eWrite ..

omit h in
theorem State.InForm.mEarly {s : State} {x : Nat × Bool × State} (h : x.2.2.InForm) (r : EReq) (q : EPlace) : (s.mEarly r q x).2.2.InForm := by
  unfold State.mEarly
  extract_lets S T
  have hS : S.InForm := h
  have hT : T.InForm := hS.update ..
  split
  · split
    · split
      · split <;> exact hT
      · exact h
    · exact h
  · exact h

theorem State.InForm.engNow (r : EReq) (q : EPlace) : (s.engNow r q).2.InForm := by
  unfold State.engNow
  extract_lets _ x S
  have hx : x.2.2.InForm := by
    unfold x
    split
    · exact (h.eRead ..).mEarly ..
    · exact h
  have hS : S.InForm := hx
  split
  · exact hS
  · exact hS.engPut ..

theorem State.InForm.eAccess (r : EReq) : (s.eAccess r).2.InForm := by
  unfold State.eAccess
  extract_lets
  split
  · exact h
  split
  next e' => exact (h.eResolve ..).snd e'
  next e' => exact (h.eResolve ..).snd e'
  next e' =>
    split
    · exact ((h.eResolve ..).snd e').accNew _
    · exact (h.eResolve ..).snd e'
  next e' =>
    extract_lets _ x'
    have hx' : x'.2.InForm := ((h.eResolve ..).snd e').accNew _
    split
    · exact ((h.eResolve ..).snd e').accNew _
    · split
      · exact ((h.eResolve ..).snd e').accNew _
      · exact ((h.eResolve ..).snd e').engNow ..
    · exact ((h.eResolve ..).snd e').engNow ..
    · exact hx'.bankAskAcc ..

theorem State.InForm.eCleanUnits (t : Nat) (tlb : TlbKind) (writes : Nat → Bool) (tainted : Nat → Nat → Bool) (us : List Nat) :
    (s.eCleanUnits t tlb writes tainted us).2.InForm := by
  unfold State.eCleanUnits
  refine h.foldl_snd _ _ fun x a hS => ?_
  split
  next e =>
    extract_lets
    split
    · exact ((hS.eResolve ..).snd e).eClean _
    · exact (hS.eResolve ..).snd e
  next e => exact (hS.eResolve ..).snd e
  · exact hS

/-! ### Copies -/

theorem State.InForm.tmplRead (t va n : Nat) : (s.tmplRead t va n).2.InForm := by
  induction n generalizing s va with
  | zero => exact h
  | succ n ih =>
    unfold State.tmplRead
    have read := h.unitRead (.template t) t va 16 16 .ctlb .read
    split
    next S e =>
      have rest := ih (read.snd e) (va + 16)
      split
      next e' => exact rest.snd e'
      · exact rest
    next e => exact (read.snd e).breach ..
    · exact read

theorem State.InForm.templatesDone (t : Nat) (ns : List Nat) : (s.templatesDone t ns).InForm := h.forEach _ _ fun _ _ hS => hS.unitTake ..

theorem State.InForm.template (t n : Nat) : (s.template t n).2.InForm := by
  unfold State.template
  split
  · exact h
  split
  next e' => exact (((h.tmplRead ..).snd e').templatesDone ..).updTeam ..
  next e' => exact (h.tmplRead ..).snd e'
  next e' => exact (h.tmplRead ..).snd e'

theorem State.InForm.templates (t : Nat) (ns : List Nat) : (s.templates t ns).2.InForm := by
  induction ns generalizing s with
  | nil => exact h
  | cons n ns ih =>
    unfold State.templates
    have one := h.template t n
    split
    next e => exact one.snd e
    next e =>
      have rest := ih (one.snd e)
      split
      next e' => exact rest.snd e'
      · exact rest

theorem State.InForm.copyIssue (c : Copy) : (s.copyIssue c).InForm := ((h.forEach _ _ (fun _ _ hS => hS.updPad ..)).updTeam ..).update ..

theorem State.InForm.apertureStore (t g l pc p data : Nat) (x : BitVec 512 ⊕ Trap) :
    ∀ r, s.apertureStore t g l pc p data x = some r → r.2.InForm := by
  intro r e
  unfold State.apertureStore at e
  split at e
  · cases e; exact h
  extract_lets c at e
  split at e
  · cases e; exact h
  split at e
  · cases e; exact h.copyIssue _
  · cases e

theorem State.InForm.releaseSource (c : Copy) : (s.releaseSource c).InForm := h.updTeam ..

theorem State.InForm.linesEnd (wide : Bool) (ls : List (Nat × Nat)) : (s.linesEnd wide ls).InForm :=
  h.forEach _ _ fun _ _ hS => hS.updPad ..

theorem State.InForm.copyClean (c : Copy) (chunk : Nat) : (s.copyClean c chunk).2.InForm := by
  unfold State.copyClean
  extract_lets
  split
  · exact h
  · exact h.eCleanUnits ..

theorem State.InForm.chunkLand (id : Nat) (c : Copy) (chunk : Nat) : (s.chunkLand id c chunk).InForm := by
  unfold State.chunkLand
  refine (State.InForm.linesEnd ?_ ..).update ..
  extract_lets
  split
  · exact h.updTeam ..
  · exact h

theorem State.InForm.landDue (core id : Nat) (c : Copy) : (s.landDue core id c).InForm := by
  unfold State.landDue
  refine h.forEach _ _ fun S x hS => ?_
  split
  · exact (hS.copyClean ..).chunkLand ..
  · exact hS

theorem State.InForm.copyKill (id : Nat) : (s.copyKill id).InForm := by
  unfold State.copyKill
  split
  · exact h
  refine ((State.InForm.linesEnd ?_ ..).update ..).engDrop _
  split
  · exact h
  · exact h.releaseSource _

theorem State.InForm.copyFault (id : Nat) (c : Copy) (tr : Trap) : (s.copyFault id c tr).InForm := by
  unfold State.copyFault
  extract_lets S
  have hS : S.InForm := (h.engDrop _).landDue ..
  split
  · exact (hS.copyKill _).endGrid ..
  split
  · exact hS.copyKill _
  · exact (hS.update ..).engineRecord ..

theorem State.InForm.copyNext (core id : Nat) (c : Copy) : (s.copyNext core id c).InForm := by
  unfold State.copyNext
  extract_lets _ _ S _ T
  have hS : S.InForm := h.update ..
  have hT : T.InForm := by
    unfold T
    split
    · exact hS.update ..
    · exact hS
  split
  · exact hT.update ..
  · exact hS.update ..

theorem State.InForm.copyMoved (core id : Nat) (c : Copy) (bad : Bool) : (s.copyMoved core id c bad).InForm := (h.engDrop _).copyNext ..

theorem State.InForm.copyStep (core id va : Nat) (c : Copy) (x : EAns) (go : Nat → Bool → State) (hgo : ∀ x y, (go x y).InForm) :
    (s.copyStep core id va c x go).InForm := by
  unfold State.copyStep
  split
  · exact hgo ..
  · split
    · exact h
    · exact h.update ..
  · exact h.copyFault ..
  · exact (h.copyKill _).breach ..

theorem execCopyElementMove_inForm (core id : Nat) : Out.InForm (execCopyElementMove core id s) := by
  unfold execCopyElementMove
  split
  · exact .fault _
  extract_lets _ _ _ _ _ _ _ x' _ _ S T
  have hx' : x'.2.InForm := h.eAccess _
  have hS : S.InForm := hx'
  have hT : T.InForm := hS.update ..
  split
  · exact .fault _
  split
  · exact .next ((h.eAccess _).copyStep _ _ _ _ _ _ (fun _ _ => (h.eAccess _).copyMoved ..))
  · exact .next (hT.copyStep _ _ _ _ _ _ (fun _ _ => (hT.eAccess _).copyStep _ _ _ _ _ _ (fun _ _ => (hT.eAccess _).copyMoved ..)))

theorem execCopyChunkLand_inForm (core id chunk : Nat) : Out.InForm (execCopyChunkLand core id chunk s) := by
  unfold execCopyChunkLand
  split
  · exact .fault _
  split
  · exact .fault _
  split
  next e' => exact .next (((h.copyClean ..).snd e').chunkLand ..)
  next e' => exact .next (((h.copyClean ..).snd e').update ..)

theorem execCopySourceRelease_inForm (core id : Nat) : Out.InForm (execCopySourceRelease core id s) := by
  unfold execCopySourceRelease
  split
  · exact .fault _
  split
  · exact .fault _
  · exact .next ((h.update ..).releaseSource _)

theorem State.InForm.copyResume (id : Nat) : (s.copyResume id).InForm := by
  unfold State.copyResume
  split
  · exact h
  · exact h.update ..

theorem cpRows_inForm (o : Ops) (ch : BitVec 3) (n : BitVec 6) (gather add : Bool) : Out.InForm (cpRows o ch n gather add s) := by
  unfold cpRows
  refine issue_inForm h _ _ _ _ fun x S hS => ?_
  extract_lets
  split
  · exact Iss.finish_inForm hS ..
  extract_lets
  split
  · exact Iss.finish_inForm (hS.takeTraps ..) ..
  split
  · exact hS.update ..
  split
  next e' => exact ((hS.template ..).snd e').update ..
  next e' => exact Iss.finish_inForm ((((hS.template ..).snd e').templatesDone ..).takeTraps ..) ..
  next e' =>
    extract_lets _ _ _ _ _ U V
    have hU : U.InForm := ((hS.template ..).snd e').forEach _ _ fun _ _ hW => hW.takeTrap ..
    have hV : V.InForm := by
      unfold V
      split
      · exact hU
      · exact hU.copyIssue _
    split
    · split
      · exact Iss.finish_inForm (((hS.template ..).snd e').takeTraps ..) ..
      · exact Iss.finish_inForm hV ..
    split
    · exact Iss.finish_inForm (((hS.template ..).snd e').takeTraps ..) ..
    · exact Iss.finish_inForm hV ..

theorem State.InForm.cpAcquire (t b : Nat) (m : DWord) : (s.cpAcquire t b m).InForm := by
  unfold State.cpAcquire
  split
  · exact h
  · exact h.regionEnd ..

theorem cpOnce_inForm (o : Ops) (u : Uses) (limit : Nat) (waiting : Bool) (get : State → Iss → Nat → Nat)
    (body : Iss → Nat → Nat → State → State) (hbody : ∀ x y z S, S.InForm → (body x y z S).InForm) :
    Out.InForm (cpOnce o u limit waiting get body s) := by
  unfold cpOnce
  refine issue_inForm h _ _ _ _ fun x S hS => ?_
  split
  · exact Iss.finish_inForm hS ..
  extract_lets
  split
  · exact Iss.finish_inForm (hS.takeTraps ..) ..
  · exact hbody _ _ _ _ hS

theorem execCpwait_inForm (o : Ops) (p : Bool) (x : MemX) : Out.InForm (execCpwait o p x s) := by
  unfold execCpwait
  refine cpOnce_inForm h _ _ _ _ _ _ fun x x' x1 S hS => ?_
  extract_lets
  split
  · exact Iss.finish_inForm (hS.cpAcquire ..) ..
  · exact Iss.finishWait_inForm hS ..

theorem execCptest_inForm (o : Ops) (p : Bool) (x : MemX) : Out.InForm (execCptest o p x s) := by
  unfold execCptest
  refine cpOnce_inForm h _ _ _ _ _ _ fun x x' x1 S hS => Iss.finish_inForm (Iss.writeLanes_inForm ?_ ..) ..
  split
  · exact hS.cpAcquire ..
  · exact hS

theorem execCpclr_inForm (o : Ops) (p : Bool) (x : MemX) : Out.InForm (execCpclr o p x s) :=
  cpOnce_inForm h _ _ _ _ _ _ fun _ _ _ _ hS => Iss.finish_inForm (hS.updTeam ..) ..

theorem execCpsrcw_inForm (o : Ops) (x : MemX) : Out.InForm (execCpsrcw o x s) := by
  unfold execCpsrcw
  refine cpOnce_inForm h _ _ _ _ _ _ fun x x' x1 S hS => ?_
  extract_lets
  split
  · exact Iss.finish_inForm hS ..
  · exact Iss.finishWait_inForm hS ..

theorem execCpwaitComplete_inForm (tid gix wid : Nat) : Out.InForm (execCpwaitComplete tid gix wid s) := by
  unfold execCpwaitComplete
  split
  · split
    · exact .next ((h.cpAcquire ..).endWait ..)
    · exact .fault _
  · exact .fault _

theorem execCpsrcwComplete_inForm (tid gix wid : Nat) : Out.InForm (execCpsrcwComplete tid gix wid s) := by
  unfold execCpsrcwComplete
  split
  · split
    · exact .next (h.endWait ..)
    · exact .fault _
  · exact .fault _

/-! ### Memory words -/

theorem memLanes_inForm (i : Iss) (f : State → Nat → LaneMem × State) (ls : List Nat) (hf : ∀ S x, S.InForm → (f S x).2.InForm) :
    (memLanes i f ls s).2.InForm := by
  induction ls generalizing s with
  | nil => exact h
  | cons l ls ih =>
    unfold memLanes
    have one := hf s l h
    split
    next r S e =>
    have hS := one.snd e
    split
    · exact hS.breach ..
    split
    · exact hS
    split
    next e' => exact (ih hS).snd e'

theorem takeLaneTraps_inForm (i : Iss) (rs : List LaneMem) : (takeLaneTraps s i rs).InForm := by
  unfold takeLaneTraps
  refine h.forEach _ _ fun S x hS => ?_
  split
  · exact hS.takeTrap ..
  · exact hS

theorem watchStop_inForm (i : Iss) (ws : List (Nat × Trap)) : (watchStop s i ws).InForm := by
  unfold watchStop
  split
  · exact h
  · exact h.teamStop ..

theorem memFinish_inForm (i : Iss) (rs : List LaneMem) (regs : List (Nat × Nat × Word)) (stay : List Nat) :
    (memFinish i s rs regs stay).InForm := by
  unfold memFinish
  refine watchStop_inForm (Iss.finish_inForm ?_ ..) ..
  split
  · split
    · exact takeLaneTraps_inForm h ..
    · exact (takeLaneTraps_inForm h ..).forEach _ _ fun _ _ hS => hS.takeTrap ..
  split
  · exact (takeLaneTraps_inForm h ..).addPend _
  · exact ((takeLaneTraps_inForm h ..).addPend _).forEach _ _ fun _ _ hS => hS.takeTrap ..

theorem memIssue_inForm (o : Ops) (u : Uses) (d : Option (Nat × Nat)) (ext : Nat → Nat) (f : Iss → State → Nat → LaneMem × State)
    (after : Iss → List LaneMem → State → State) (hf : ∀ x S y, S.InForm → (f x S y).2.InForm)
    (hafter : ∀ x y S, S.InForm → (after x y S).InForm) : Out.InForm (memIssue o u d ext f after s) :=
  issue_inForm h _ _ _ _ fun _ _ hS => memFinish_inForm (hafter _ _ _ (memLanes_inForm hS _ _ _ (fun _ _ hT => hf _ _ _ hT))) ..

theorem State.InForm.privLane (i : Iss) (l p n : Nat) (op : AOp) (data : Nat) (dst : Dst) (ends : List (Nat × Nat)) :
    (s.privLane i l p n op data dst ends).2.InForm := by
  unfold State.privLane
  extract_lets _ _ _ _ r
  have hr : r.2.InForm := h.startAcc ..
  split
  · exact hr
  split
  next e => exact (h.privPieces ..).snd_snd e
  next e => exact (h.privPieces ..).snd_snd e

theorem State.InForm.globLane (i : Iss) (l p n : Nat) (op : AOp) (data cmp : Nat) (dst : Dst) (scope : Scope) :
    (s.globLane i l p n op data cmp dst scope).2.InForm := h.startAcc ..

theorem State.InForm.dataLane (i : Iss) (l p n : Nat) (accept : List Nat) (op : AOp) (data : Nat) (dst : Dst) (ends : List (Nat × Nat)) :
    (s.dataLane i l p n accept op data dst ends).2.InForm := by
  unfold State.dataLane
  split
  · exact h
  split
  · exact h.privLane ..
  · exact h.globLane ..

theorem loadG_inForm (o : Ops) (m : MMod) (high : Nat) (accept : List Nat) : Out.InForm (loadG o m high accept s) := by
  simp only [loadG]
  apply memIssue_inForm h
  · exact fun _ _ _ hS => hS.dataLane ..
  · exact fun _ _ _ hS => hS

theorem execStp_inForm (o : Ops) (m : MMod) (x : MemX) : Out.InForm (execStp o m x s) := by
  unfold execStp
  extract_lets
  exact issue_inForm h _ _ _ _ fun _ _ hS => memFinish_inForm (memLanes_inForm hS _ _ _ (fun _ _ hT => hT.dataLane ..)) ..

theorem State.InForm.stgLane (i : Iss) (l p n data : Nat) (b32 : Bool) (ends : List (Nat × Nat)) (ts : List (Nat × (BitVec 512 ⊕ Trap))) :
    ∀ r, s.stgLane i l p n data b32 ends ts = some r → r.2.InForm := by
  unfold State.stgLane
  intro r hr
  split at hr
  · split at hr
    · cases hr; exact h
    · obtain ⟨x, hx, rfl⟩ := Option.map_eq_some_iff.1 hr
      have := h.apertureStore _ _ _ _ _ _ _ x hx
      split <;> exact this
  · cases hr; exact h.dataLane ..

theorem stgLanes_inForm (i : Iss) (n : Nat) (b32 : Bool) (ends : List (Nat × Nat)) (ts : List (Nat × (BitVec 512 ⊕ Trap)))
    (addr data : State → Nat → Nat) (ls : List Nat) : ∀ r, stgLanes i n b32 ends ts addr data ls s = some r → r.2.InForm := by
  induction ls generalizing s with
  | nil => intro r hr; cases hr; exact h
  | cons l ls ih =>
    intro r hr
    unfold stgLanes at hr
    split at hr
    · cases hr
    next x hx =>
      have lane := memLanes_inForm h i (fun _ _ => x) [l] fun _ _ _ => h.stgLane _ _ _ _ _ _ _ _ x hx
      split at hr
      next rs S hm =>
        rw [hm] at lane
        split at hr
        · cases hr; exact lane
        · obtain ⟨y, hy, rfl⟩ := Option.map_eq_some_iff.1 hr
          exact ih lane y hy

theorem execStg_inForm (o : Ops) (m : MMod) (x : MemX) : Out.InForm (execStg o m x s) := by
  simp only [execStg]
  refine issue_inForm h _ _ _ _ fun i S hS => ?_
  split
  next T e => exact ((hS.templates i.t _).snd e).update ..
  next ts T e =>
    have hT := (hS.templates i.t _).snd e
    split
    · exact hT.update ..
    next rs U hm => exact memFinish_inForm (State.InForm.templatesDone (stgLanes_inForm hT _ _ _ _ _ _ _ _ _ hm) ..) ..

theorem State.InForm.scrLoad (i : Iss) (l p n tag : Nat) (op : AOp) (dst : Dst) : (s.scrLoad i l p n tag op dst).2.InForm := by
  unfold State.scrLoad
  extract_lets
  split
  · exact h
  split
  · split <;> exact h
  · exact h.accNew _

theorem scrFinish_inForm (i : Iss) (from_ : Nat) (rs : List LaneMem) (lanes : List Nat) (p : Option Pend) :
    (scrFinish i from_ rs lanes p s).InForm := by
  unfold scrFinish
  extract_lets S T
  have hS : S.InForm := takeLaneTraps_inForm h ..
  have hT : T.InForm := by
    unfold T
    split
    · exact hS
    · exact hS.addPend _
  split
  · exact Iss.finish_inForm hT ..
  · exact Iss.finishWait_inForm hT ..

theorem loadS_inForm (o : Ops) (m : MMod) (high tag : Nat) : Out.InForm (loadS o m high tag s) := by
  unfold loadS
  extract_lets
  exact issue_inForm h _ _ _ _ fun _ _ hS => scrFinish_inForm (memLanes_inForm hS _ _ _ (fun _ _ hT => hT.scrLoad ..)) ..

theorem execPresenceWaitComplete_inForm (tid gix wid : Nat) : Out.InForm (execPresenceWaitComplete tid gix wid s) := by
  unfold execPresenceWaitComplete
  split
  · extract_lets _ _ S
    have hS : S.InForm := by
      unfold S
      refine State.InForm.endWait ?_ ..
      split
      · exact h.regionEnd ..
      · exact h
    split
    · refine .next (hS.forEach _ _ (fun T x' hT => ?_))
      extract_lets
      split
      · exact hT.failAcc ..
      next c => exact hT.finishAcc ..
    · exact .fault _
  · exact .fault _

theorem storeS_inForm (o : Ops) (m : MMod) (high tag : Nat) : Out.InForm (storeS o m high tag s) := by
  unfold storeS
  refine memIssue_inForm h _ _ _ _ _ _ (fun x S x' hS => ?_) fun x x' S hS => hS.forEach _ _ fun T x1 hT => ?_
  · extract_lets
    split
    · exact hS
    · exact hS.scrWrite ..
  · split
    · exact hT
    · exact hT.scrMark ..

theorem State.InForm.surfLane (i : Iss) (l n : Nat) (m : MMod) (x : MemX) (scale : Nat) (op : AOp) (data cmp : Nat) (dst : Dst) :
    (s.surfLane i l n m x scale op data cmp dst).2.InForm := by
  unfold State.surfLane
  split
  · exact h
  extract_lets _ r
  have hr : r.2.InForm := h.startSurf _
  split
  · exact h
  · exact hr

theorem execLdf_inForm (o : Ops) (m : MMod) (x : MemX) : Out.InForm (execLdf o m x s) := by
  simp only [execLdf]
  apply memIssue_inForm h
  · exact fun _ _ _ hS => hS.surfLane ..
  · exact fun _ _ _ hS => hS

theorem execStf_inForm (o : Ops) (m : MMod) (x : MemX) : Out.InForm (execStf o m x s) := by
  unfold execStf
  extract_lets
  exact issue_inForm h _ _ _ _ fun _ _ hS => memFinish_inForm (memLanes_inForm hS _ _ _ (fun _ _ hT => hT.surfLane ..)) ..

theorem State.InForm.rowUnit (a : Access) : (s.rowUnit a).2.InForm := by
  unfold State.rowUnit
  refine h.unitAt _ _ fun S hS => ?_
  split
  · exact hS.rowWrite ..
  · exact hS.rowRead ..

theorem State.InForm.rowAsk (i : Iss) (addr : Nat → Nat) (n : Nat) (store : Bool) (data : Nat → Nat) :
    (s.rowAsk i addr n store data).2.InForm := by
  unfold State.rowAsk
  refine h.foldl_snd _ _ fun x a hS => ?_
  extract_lets
  split
  · extract_lets y'
    have hy' : y'.2.InForm := hS.rowUnit _
    split
    · exact hS
    · exact hy'
  · exact hS

theorem State.InForm.rowLane (i : Iss) (l p n : Nat) (store : Bool) (data : Nat) : (s.rowLane i l p n store data).2.InForm := by
  unfold State.rowLane
  extract_lets
  split
  · exact h
  split
  · exact h
  extract_lets d
  have hd : d.2.2.InForm := by
    unfold d
    split
    · split
      · exact h.rowWrite ..
      · exact h.rowRead ..
    split
    next e2 => exact (h.rowUnit _).snd e2
    next e2 => exact (h.rowUnit _).snd e2
  split
  · exact h
  split <;> exact hd

theorem State.InForm.rowTaken (i : Iss) : (s.rowTaken i).InForm := h.engDrop _

theorem State.InForm.countSusp (space : Nat) (keys : List Nat) : (s.countSusp space keys).InForm := h.update ..

theorem wpathIssue_inForm (o : Ops) (m : MMod) (store : Bool) : Out.InForm (wpathIssue o m store s) := by
  unfold wpathIssue
  refine issue_inForm h _ _ _ _ fun i S hS => ?_
  extract_lets core addr
  split
  · exact Iss.finish_inForm hS ..
  split
  · exact hS.update ..
  have asked := hS.rowAsk i addr (mtyBytes m.ty) store fun l => srcData S i l o.a (mtyWords m.ty)
  split
  next T e => exact (asked.snd e).update ..
  next T e =>
    have lanes := memLanes_inForm (asked.snd e) i
      (fun s l => s.rowLane i l (addr l) (mtyBytes m.ty) store (srcData s i l o.a (mtyWords m.ty))) i.parts fun _ _ hU => hU.rowLane ..
    split
    next rs U eU =>
    have rows := (lanes.snd eU).rowTaken i
    have taken := takeLaneTraps_inForm rows i rs
    extract_lets V as W _ _ _ X
    clear_value as
    split
    · exact Iss.finish_inForm taken ..
    have hW : W.InForm := by
      unfold W
      split
      · exact taken.forEach _ _ fun _ _ hs => hs.setPoison ..
      · exact taken
    have hX : X.InForm := by
      unfold X
      split
      · exact hW
      · exact hW.update ..
    extract_lets Y Z
    have hZ : Z.InForm := (hX.accNew _).updCore_book _ _ fun _ => by rfl
    exact Iss.finish_inForm (State.InForm.update (hZ.countSusp ..) ..) ..

theorem execWPathAccessComplete_inForm (acc : Nat) : Out.InForm (execWPathAccessComplete acc s) := by
  unfold execWPathAccessComplete
  extract_lets S
  have hS : S.InForm := h.update ..
  split
  · exact .fault _
  extract_lets T
  have hT : T.InForm := hS.updCore_book _ _ fun _ => by rfl
  split
  · exact .fault _
  refine .next ?_
  split
  · exact hT
  · exact hT.update ..

theorem onceIssue_inForm (o : Ops) (u : Uses) (priv waiting : Bool) (body : Iss → Nat → State → State)
    (hbody : ∀ x y S, S.InForm → (body x y S).InForm) : Out.InForm (onceIssue o u priv waiting body s) := by
  unfold onceIssue
  refine issue_inForm h _ _ _ _ fun x S hS => ?_
  split
  · exact Iss.finish_inForm hS ..
  · exact hbody _ _ _ hS

theorem Iss.faultAll_inForm (i : Iss) (tr : Trap) (waiting : Bool) : (Iss.faultAll i s tr waiting).InForm :=
  Iss.finish_inForm (h.takeTraps ..) ..

theorem State.InForm.setMates (from_ : Nat) (ls : List Nat) : (s.setMates from_ ls).InForm := h.update ..

theorem State.InForm.scalPend (i : Iss) (d n v : Nat) : (s.scalPend i d n v).InForm := h.addPend _

theorem execLdk_inForm (o : Ops) (m : MMod) (x : MemX) : Out.InForm (execLdk o m x s) := by
  unfold execLdk
  refine onceIssue_inForm h _ _ _ _ _ fun x x' S hS => ?_
  extract_lets _ r T
  have hr : r.2.InForm := hS.dataLane ..
  have hT : T.InForm := hr.setMates ..
  split
  · exact Iss.faultAll_inForm hT ..
  · exact Iss.finish_inForm (hT.breach ..) ..
  · exact Iss.finish_inForm hT ..
  · refine watchStop_inForm (Iss.finish_inForm ?_ ..) ..
    split
    · split
      · exact hT
      · exact hT.forEach _ _ fun _ _ hU => hU.takeTrap ..
    split
    · exact hT.scalPend ..
    · exact (hT.scalPend ..).forEach _ _ fun _ _ hU => hU.takeTrap ..

theorem execLdsS_inForm (o : Ops) (m : MMod) (x : MemX) : Out.InForm (execLdsS o m x s) := by
  unfold execLdsS
  refine onceIssue_inForm h _ _ _ _ _ fun x x' S hS => ?_
  extract_lets _ r T
  have hr : r.2.InForm := hS.scrLoad ..
  have hT : T.InForm := hr.setMates ..
  split
  · exact Iss.faultAll_inForm hT ..
  · refine Iss.finish_inForm ?_ ..
    split
    · exact hT
    · exact hT.scalPend ..
  · exact scrFinish_inForm hT ..

theorem execPfg_inForm (o : Ops) (m : MMod) (x : MemX) : Out.InForm (execPfg o m x s) := by
  unfold execPfg
  refine issue_inForm h _ _ _ _ fun x S hS => Iss.finish_inForm (hS.forEach _ _ (fun T x' hT => ?_)) ..
  extract_lets
  split
  · exact hT
  · exact hT.prefetchAt ..

theorem execStew_inForm (o : Ops) (w : Bool) (x : MemX) : Out.InForm (execStew o w x s) := by
  unfold execStew
  refine onceIssue_inForm h _ _ _ _ _ fun x x' S hS => ?_
  extract_lets _ _ _ _ T
  have hT : T.InForm := by
    unfold T
    split
    · exact hS
    · exact hS.update ..
  split
  · exact Iss.faultAll_inForm hS ..
  split
  · exact Iss.faultAll_inForm hS ..
  · exact Iss.finish_inForm (hT.stewArrive ..) ..

/-! ### Synchronisation -/

theorem syncIssue_inForm (o : Ops) (u : Uses) (body : Iss → State → State) (hbody : ∀ x S, S.InForm → (body x S).InForm) :
    Out.InForm (syncIssue o u body s) := by
  unfold syncIssue
  refine issue_inForm h _ _ _ _ fun x S hS => ?_
  split
  · exact hS.update ..
  · exact hbody _ _ hS

theorem State.InForm.atomLane (i : Iss) (l n : Nat) (p : Bool) (x : MemX) (op : AOp) (cas : Bool) (dst : Dst) :
    (s.atomLane i l n p x op cas dst).2.InForm := by
  unfold State.atomLane
  extract_lets
  split
  · exact h
  · exact h.globLane ..

theorem State.InForm.releaseSide (core : Nat) (wide rel sys : Bool) : (s.releaseSide core wide rel sys).InForm := by
  unfold State.releaseSide
  extract_lets S
  have hS : S.InForm := by
    unfold S
    split
    · exact (h.publishNow _).acquireDrop ..
    · exact h
  split
  · exact h
  · exact hS.releasePriv _

theorem State.InForm.setWaits (from_ : Nat) : (s.setWaits from_).InForm := h.update ..

theorem atomIssue_inForm (o : Ops) (n : Nat) (p cas : Bool) (x : MemX) (op : AOp) (dst : Option Nat) :
    Out.InForm (atomIssue o n p cas x op dst s) := by
  unfold atomIssue
  extract_lets w u lane
  have one (i : Iss) {S : State} (hS : S.InForm) (l : Nat) : (lane i S l).2.InForm := hS.atomLane ..
  split
  · exact memIssue_inForm h _ _ _ _ _ _ (fun i _ l hS => one i hS l) fun _ _ _ hS => hS
  · refine syncIssue_inForm h _ _ _ fun i S hS => ?_
    extract_lets u0
    split
    next rs T e =>
    extract_lets U ids V
    have hT := (memLanes_inForm hS i (lane i) i.parts fun _ l hU => one i hU l).snd e
    have hU : U.InForm := takeLaneTraps_inForm (hT.setWaits u0) i rs
    split
    · exact Iss.finish_inForm hU ..
    · exact Iss.finishWait_inForm (hU.releaseSide ..) ..

theorem atomScr_inForm (o : Ops) (high tag : Nat) (p : Bool) (k : AtKind) (x : MemX) : Out.InForm (atomScr o high tag p k x s) := by
  unfold atomScr
  extract_lets n w cas op
  refine memIssue_inForm h _ _ _ _ _ _ (fun i S l hS => ?_) fun _ _ _ hS => hS
  extract_lets ea y r
  split
  · exact hS
  split
  · exact hS
  split
  · exact hS
  · exact hS.scrWrite ..

theorem syncWord_inForm (o : Ops) (m : MMod) (x : MemX) (store : Bool) : Out.InForm (syncWord o m x store s) := by
  unfold syncWord
  refine syncIssue_inForm h _ _ _ fun i S hS => ?_
  extract_lets u0 lane
  have lanes := memLanes_inForm hS i lane i.parts fun T l hT => by
    unfold lane
    extract_lets ea
    split
    · exact hT
    · exact hT.globLane ..
  split
  next rs T e =>
  extract_lets U ids core V _ W
  have hU : U.InForm := takeLaneTraps_inForm ((lanes.snd e).setWaits u0) ..
  have hV : V.InForm := hU.releaseSide ..
  split
  · exact Iss.finish_inForm hU ..
  · refine Iss.finishWait_inForm ?_ ..
    unfold W
    split
    · exact State.InForm.regionEnd (hV.update ..) ..
    · exact hV

theorem State.InForm.fenceNow (core : Nat) (scope : Scope) : (s.fenceNow core scope).InForm := by
  unfold State.fenceNow
  split
  · exact (h.publishNow _).acquireDrop ..
  · exact h

theorem execFence_inForm (o : Ops) (x : MemX) : Out.InForm (execFence o x s) := by
  unfold execFence
  refine syncIssue_inForm h _ _ _ fun x' S hS => ?_
  split
  · exact Iss.finish_inForm hS ..
  · exact Iss.finishWait_inForm (hS.fenceNow ..) ..

theorem State.InForm.dropL1Granules (core : Nat) (gs : List Nat) : (s.dropL1Granules core gs).InForm :=
  h.forEach _ _ fun _ _ hS => (hS.mergeLine _).l1Drop ..

theorem State.InForm.dropL2Granules (gs : List Nat) : (s.dropL2Granules gs).InForm := h.forEach _ _ fun _ _ hS => hS.l2Drop _

theorem State.InForm.fencexDone (t : Nat) (p q : Path) : (s.fencexDone t p q).InForm := by
  unfold State.fencexDone
  extract_lets _ _ S T
  have hS : S.InForm := by
    unfold S
    split
    · exact (h.dropL1Granules ..).dropL2Granules _
    · exact h
  have hT : T.InForm := by
    unfold T
    split
    · exact hS.mstCross _
    · exact hS
  split
  · exact hT.dropV _
  · exact (hT.dropL1Granules ..).dropL2Granules _
  · exact hT

theorem execFencex_inForm (o : Ops) (p q : Path) (x : MemX) : Out.InForm (execFencex o p q x s) := by
  unfold execFencex
  refine syncIssue_inForm h _ _ _ fun x' S hS => ?_
  extract_lets _ T
  have hT : T.InForm := by
    unfold T
    split
    · exact (hS.releasePriv _).releaseTracked _
    · exact hS
  split
  · exact Iss.finish_inForm hS ..
  split
  · exact Iss.finishWait_inForm (hS.fenceNow ..) ..
  · exact Iss.finishWait_inForm hT ..

theorem execSyncAccessComplete_inForm (tid gix wid : Nat) : Out.InForm (execSyncAccessComplete tid gix wid s) := by
  unfold execSyncAccessComplete
  split
  · split
    · exact .next (h.endWait ..)
    · exact .fault _
  · split
    · exact .next (h.endWait ..)
    · exact .fault _
  · split
    · exact .next ((h.fencexDone ..).endWait ..)
    · exact .fault _
  · exact .fault _

/-! ### The stream -/

theorem State.InForm.mbwJudge (t : Nat) : (s.mbwJudge t).InForm := by
  unfold State.mbwJudge
  split
  · exact h
  · exact h.updTeam ..

/-! ### Traces -/

theorem State.InForm.tracePut (space pa : Nat) (bs : List Byte) : (s.tracePut space pa bs).InForm := h.unitPost _ _ fun _ hS => hS.devPut ..

theorem State.InForm.traceWrite (space : Nat) (ws : List Nat) : (s.traceWrite space ws).InForm := by
  unfold State.traceWrite
  refine (State.InForm.updSpace ?_ ..).tracePut ..
  split
  · exact h
  · exact h.tracePut ..

theorem State.InForm.traceBarrier (t : Nat) (n : Option Nat) : (s.traceBarrier t n).InForm := by
  unfold State.traceBarrier
  extract_lets _ _ S
  have hS : S.InForm := h.update ..
  split
  · exact h
  · exact hS.traceWrite ..

/-! ### Barriers -/

theorem State.InForm.barSet (t : Nat) (r : BarRef) (b : Bar) : (s.barSet t r b).InForm := by
  unfold State.barSet
  split
  · exact h.setBar ..
  · exact h.updCore_book _ _ fun _ => by rfl

theorem State.InForm.barJudge (t : Nat) (r : BarRef) : (s.barJudge t r).InForm := h.forEach _ _ fun _ _ hS => (hS.updTeam ..).mbwJudge _

theorem State.InForm.arriveRelease (core : Nat) : (s.arriveRelease core).2.InForm := (h.releasePriv _).regionEnd ..

theorem State.InForm.barAcquire (t : Nat) (r : BarRef) (recs : List (Nat × Nat)) : (s.barAcquire t r recs).InForm :=
  (h.forEach _ _ (fun _ _ hS => hS.forEach _ _ (fun _ _ hT => hT.darnNow ..))).forEach _ _ fun _ _ hS => hS.acquireDone ..

theorem State.InForm.barLate (t : Nat) (r : BarRef) : (s.barLate t r).InForm := by
  unfold State.barLate
  extract_lets _ _ S
  have hS : S.InForm := (h.forEach _ _ (fun _ _ hT => hT.darnNow ..)).acquireDone ..
  split
  · exact h
  split
  · exact hS.dropV _
  · exact hS

theorem State.InForm.barRejoin (t : Nat) : (s.barRejoin t).InForm := h.forEach _ _ fun _ _ hS => hS.barLate ..

theorem State.InForm.arrive (t : Nat) (r : BarRef) (n : Nat) (mx : Bool) : (s.arrive t r n mx).2.InForm := by
  unfold State.arrive
  extract_lets _ y x S T _ U V W
  have hy : y.2.InForm := h.arriveRelease _
  have hx : x.2.InForm := by
    unfold x
    split
    · exact hy
    · exact h
  have hS : S.InForm := hx
  have hT : T.InForm := hS.barSet ..
  have hU : U.InForm := by
    unfold U
    split
    · exact hT.barAcquire ..
    · exact hT
  have hV : V.InForm := by
    unfold V
    split
    · exact hU.forEach _ _ fun _ _ hX => hX.dropV _
    · exact hU
  have hW : W.InForm := hV.traceBarrier ..
  split
  · exact h
  split
  · exact h
  split
  · exact h
  split
  · exact hW.barJudge ..
  · exact hS.barSet ..

theorem State.InForm.arriveLane (i : Iss) (l : Nat) (hx : Bool) : (s.arriveLane i l hx).InForm := by
  unfold State.arriveLane
  extract_lets
  split
  · exact h.takeTrap ..
  split
  next e' => exact ((h.arrive ..).snd e').takeTrap ..
  next e' => exact (h.arrive ..).snd e'

theorem execBarrive_inForm (o : Ops) (hx : Bool) (x : MemX) : Out.InForm (execBarrive o hx x s) :=
  syncIssue_inForm h _ _ _ fun _ _ hS => Iss.finish_inForm (hS.forEach _ _ (fun _ _ hT => hT.arriveLane ..)) ..

theorem barWait_inForm (i : Iss) (xs : List (Nat × BarRef × Nat)) : (barWait i s xs).InForm := by
  unfold barWait
  extract_lets
  split
  · exact Iss.finish_inForm h ..
  · exact Iss.finishWait_inForm h ..

theorem execBwait_inForm (o : Ops) (hx : Bool) (x : MemX) : Out.InForm (execBwait o hx x s) := by
  unfold execBwait
  refine issue_inForm h _ _ _ _ fun x S hS => barWait_inForm (State.InForm.forEach _ (hS.forEach _ _ (fun T x' hT => ?_)) _ (fun _ _ hT =>
    hT.barLate ..)) ..
  split
  · exact hT.takeTrap ..
  · exact hT

theorem execBsync_inForm (o : Ops) (hx : Bool) (x : MemX) : Out.InForm (execBsync o hx x s) := by
  unfold execBsync
  refine syncIssue_inForm h _ _ _ fun x S hS => ?_
  extract_lets r
  have hr : r.2.InForm := by
    unfold r
    refine hS.foldl_snd _ _ fun x' a hS1 => ?_
    extract_lets T
    have hT : T.InForm := hS1
    split
    · exact hT.takeTrap ..
    extract_lets
    split
    next e' => exact ((hT.arrive ..).snd e').takeTrap ..
    next e' => exact (hT.arrive ..).snd e'
  split
  · exact Iss.finish_inForm hr ..
  · exact Iss.finishWait_inForm hr ..

theorem execBarrierWaitComplete_inForm (tid gix wid : Nat) : Out.InForm (execBarrierWaitComplete tid gix wid s) := by
  unfold execBarrierWaitComplete
  split
  · exact .next (h.endWait ..)
  · exact .fault _

theorem State.InForm.barrdFault (t : Nat) (d : Deferred) (tr : Trap) : (s.barrdFault t d tr).InForm := by
  unfold State.barrdFault
  extract_lets tm tr1 tr2 e S
  split
  · exact h.porterTrap ..
  split
  · exact h
  have entered := h.bookEnter (s.team t).core
  split
  · exact entered ..
  · exact (entered ..).updThread ..

theorem State.InForm.barrdPerform (t : Nat) (d : Deferred) : (s.barrdPerform t d).InForm := by
  unfold State.barrdPerform
  split
  next e => exact ((h.arrive ..).snd e).barrdFault ..
  next e => exact (h.arrive ..).snd e

theorem execBarrd_inForm (o : Ops) (hx : Bool) (x : MemX) : Out.InForm (execBarrd o hx x s) := by
  unfold execBarrd
  refine syncIssue_inForm h _ _ _ fun x S hS => Iss.finish_inForm (hS.forEach _ _ (fun T x' hT => ?_)) ..
  extract_lets _ _ _ _ U
  have hU : U.InForm := hT.update ..
  split
  · exact hT.takeTrap ..
  extract_lets _ V
  have hV : V.InForm := hU.updTeam ..
  split
  · exact hT.barrdPerform ..
  · exact hV.update ..

theorem execBarrdArrivalPerform_inForm (tid k : Nat) : Out.InForm (execBarrdArrivalPerform tid k s) := by
  unfold execBarrdArrivalPerform
  split
  · exact .fault _
  split
  · exact .next ((h.updTeam ..).barrdPerform ..)
  · exact .fault _

theorem execBinit_inForm (o : Ops) (hx : Bool) (x : MemX) : Out.InForm (execBinit o hx x s) := by
  unfold execBinit
  refine issue_inForm h _ _ _ _ fun x S hS => Iss.finish_inForm (hS.forEach _ _ (fun T x' hT => ?_)) ..
  extract_lets
  split
  · exact hT.takeTrap ..
  split
  · exact hT.takeTrap ..
  · exact (hT.barSet ..).barJudge ..

theorem execBalloc_inForm (o : Ops) (x : MemX) : Out.InForm (execBalloc o x s) := by
  unfold execBalloc
  refine onceIssue_inForm h _ _ _ _ _ fun x x' S hS => ?_
  extract_lets _ _ T
  have hT : T.InForm := hS.update ..
  split
  · refine Iss.finish_inForm ?_ ..
    split
    · exact hS
    · exact hS.scalPend ..
  extract_lets _ U
  have hU : U.InForm := hT.updCore_book _ _ fun _ => by rfl
  refine Iss.finish_inForm ?_ ..
  split
  · exact hU
  · exact hU.scalPend ..

theorem State.InForm.barErase (core ix : Nat) : (s.barErase core ix).InForm := h.updCore_book _ _ fun _ => by rfl

theorem State.InForm.barDrop (t : Nat) (r : BarRef) : (s.barDrop t r).InForm :=
  (((h.updTeam ..).forEach _ _ (fun _ _ hS => hS.barrdFault ..)).updTeam ..).forEach _ _ fun _ _ hS => hS.trapAt ..

theorem execBfree_inForm (o : Ops) (x : MemX) : Out.InForm (execBfree o x s) := by
  unfold execBfree
  refine issue_inForm h _ _ _ _ fun x S hS => Iss.finish_inForm (hS.forEach _ _ (fun T x' hT => ?_)) ..
  split
  · exact hT.takeTrap ..
  split
  · exact (hT.barDrop ..).barErase ..
  · exact hT

theorem State.InForm.barFreeTeam (t : Nat) : (s.barFreeTeam t).InForm := h.forEach _ _ fun _ _ hS => hS.barErase ..

/-! ### Rows -/

theorem State.InForm.setRow (space key : Nat) (r : Row) : (s.setRow space key r).InForm := h.update ..

theorem State.InForm.putRow (space key : Nat) (r : Row) : (s.putRow space key r).InForm := by
  unfold State.putRow
  split
  · exact h.update ..
  · exact h.setRow ..

theorem State.InForm.openRow (core granule : Nat) : (s.openRow core granule).InForm := (h.dropL1Granules ..).dropL2Granules _

theorem State.InForm.rowLast (t g key last : Nat) : (s.rowLast t g key last).InForm := h.updGroup ..

theorem State.InForm.rowEnd (space key t : Nat) : (s.rowEnd space key t).InForm := by
  unfold State.rowEnd
  split
  · exact h
  · exact h.putRow ..

theorem State.InForm.rowFreeTeam (t : Nat) : (s.rowFreeTeam t).InForm := h.forEach _ _ fun _ _ hS => hS.rowEnd ..

theorem State.InForm.writePs (i : Iss) (q : Nat) (b : Bool) : (s.writePs i q b).InForm := h.forEach _ _ fun _ _ hS => hS.writeP ..

theorem rowFinish_inForm (i : Iss) (key last : Nat) (opens : Bool) : (rowFinish i s key last opens).InForm := by
  unfold rowFinish
  extract_lets
  split
  · exact Iss.finishWait_inForm h ..
  · exact Iss.finish_inForm h ..

theorem execRowbook_inForm (o : Ops) (p : Bool) (q sc : BitVec 3) (x : MemX) : Out.InForm (execRowbook o p q sc x s) := by
  unfold execRowbook
  refine onceIssue_inForm h _ _ _ _ _ fun x x' S hS => ?_
  extract_lets
  split
  · exact Iss.faultAll_inForm hS ..
  split
  next e' => exact ((hS.translate ..).snd e').update ..
  next e' => exact Iss.faultAll_inForm ((hS.translate ..).snd e') ..
  next e' => exact Iss.finish_inForm (((hS.translate ..).snd e').breach ..) ..
  next e' =>
    split
    · exact ((hS.translate ..).snd e').update ..
    refine rowFinish_inForm ((State.InForm.writePs ?_ ..).rowLast ..) ..
    extract_lets
    split
    · split
      · split
        · exact ((hS.translate ..).snd e').openRow ..
        · exact (hS.translate ..).snd e'
      split
      · split
        · split
          · exact ((hS.translate ..).snd e').openRow ..
          · exact (hS.translate ..).snd e'
        split
        · split
          · exact ((hS.translate ..).snd e').openRow ..
          · exact (hS.translate ..).snd e'
        split
        · exact (((hS.translate ..).snd e').setRow ..).openRow ..
        · exact ((hS.translate ..).snd e').setRow ..
      split
      · split
        · exact ((hS.translate ..).snd e').openRow ..
        · exact (hS.translate ..).snd e'
      split
      · split
        · exact ((hS.translate ..).snd e').openRow ..
        · exact (hS.translate ..).snd e'
      split
      · split
        · exact ((hS.translate ..).snd e').openRow ..
        · exact (hS.translate ..).snd e'
      split
      · exact ((((hS.translate ..).snd e').update ..).setRow ..).openRow ..
      · exact (((hS.translate ..).snd e').update ..).setRow ..
    refine State.InForm.writeS ?_ ..
    split
    · split
      · exact ((hS.translate ..).snd e').openRow ..
      · exact (hS.translate ..).snd e'
    split
    · split
      · split
        · exact ((hS.translate ..).snd e').openRow ..
        · exact (hS.translate ..).snd e'
      split
      · split
        · exact ((hS.translate ..).snd e').openRow ..
        · exact (hS.translate ..).snd e'
      split
      · exact (((hS.translate ..).snd e').setRow ..).openRow ..
      · exact ((hS.translate ..).snd e').setRow ..
    split
    · split
      · exact ((hS.translate ..).snd e').openRow ..
      · exact (hS.translate ..).snd e'
    split
    · split
      · exact ((hS.translate ..).snd e').openRow ..
      · exact (hS.translate ..).snd e'
    split
    · split
      · exact ((hS.translate ..).snd e').openRow ..
      · exact (hS.translate ..).snd e'
    split
    · exact ((((hS.translate ..).snd e').update ..).setRow ..).openRow ..
    · exact (((hS.translate ..).snd e').update ..).setRow ..

theorem execRowjoin_inForm (o : Ops) (q : BitVec 3) (x : MemX) : Out.InForm (execRowjoin o q x s) := by
  unfold execRowjoin
  refine onceIssue_inForm h _ _ _ _ _ fun x x' S hS => ?_
  extract_lets
  split
  · exact rowFinish_inForm ((hS.writePs ..).rowLast ..) ..
  extract_lets _ _ T
  have hT : T.InForm := hS.setRow ..
  split
  · exact rowFinish_inForm ((hS.writePs ..).rowLast ..) ..
  split
  · exact rowFinish_inForm ((hS.writePs ..).rowLast ..) ..
  split
  · exact rowFinish_inForm ((hS.writePs ..).rowLast ..) ..
  refine rowFinish_inForm ((State.InForm.writePs ?_ ..).rowLast ..) ..
  split
  · exact hT.openRow ..
  · exact hT

theorem execRowfree_inForm (o : Ops) (x : MemX) : Out.InForm (execRowfree o x s) := by
  unfold execRowfree
  refine onceIssue_inForm h _ _ _ _ _ fun x x' S hS => ?_
  extract_lets
  split
  · exact Iss.finish_inForm (hS.rowLast ..) ..
  split
  · exact hS.update ..
  · exact Iss.finish_inForm ((hS.rowEnd ..).rowLast ..) ..

theorem execRowOpenComplete_inForm (tid gix wid : Nat) : Out.InForm (execRowOpenComplete tid gix wid s) := by
  unfold execRowOpenComplete
  split
  · refine .next (State.InForm.endWait ?_ ..)
    split
    · exact h.setRow ..
    · exact h
  · exact .fault _

theorem execRowRefreshClose_inForm (space key : Nat) : Out.InForm (execRowRefreshClose space key s) := by
  unfold execRowRefreshClose
  extract_lets
  split
  · split
    · exact .fault _
    · exact .next (h.setRow ..)
  · exact .fault _

theorem execRowRefreshReopen_inForm (space key : Nat) : Out.InForm (execRowRefreshReopen space key s) := by
  unfold execRowRefreshReopen
  split
  · split
    · exact .next (h.setRow ..)
    · exact .fault _
  · exact .fault _

theorem execMemoryPatrol_inForm (channel bank row : Nat) (corrected uncorrectable : List Nat) :
    Out.InForm (execMemoryPatrol channel bank row corrected uncorrectable s) := by
  unfold execMemoryPatrol
  extract_lets _ S
  have hS : S.InForm := h.forEach _ _ fun _ _ hT => hT.logEvent ..
  split
  · exact .fault _
  · exact .next (hS.forEach _ _ (fun _ _ hT => hT.setPoison ..))

theorem State.InForm.shootStart (x : Shoot) : (s.shootStart x).InForm := h.update ..

theorem State.InForm.shootDo (x : Shoot) : (s.shootDo x).InForm :=
  (h.forEach _ _ (fun _ _ hS => hS.forEach _ _ (fun _ _ hT => hT.l1Evict ..))).update ..

theorem tlbiIssue_inForm (o : Ops) (scope : Nat) : Out.InForm (tlbiIssue o scope s) := by
  unfold tlbiIssue
  refine onceIssue_inForm h _ _ _ _ _ fun x x' S hS => ?_
  extract_lets _ _ _ _ T
  have hT : T.InForm := by
    unfold T
    split
    · exact hS
    · exact hS.update ..
  split
  · exact Iss.faultAll_inForm hS ..
  · exact Iss.finish_inForm (hT.shootStart _) ..

/-! ### Launches -/

theorem State.InForm.completionRecord (caddr ticket status : Nat) (missed irq : Bool) :
    (s.completionRecord caddr ticket status missed irq).InForm := by
  unfold State.completionRecord
  extract_lets _ S
  have hS : S.InForm := h.hostWrite ..
  split
  · exact h
  split
  · exact hS.msiRaise _
  · exact hS

theorem State.InForm.lodgeQueue (die : Nat) (r : LodgeReq) : (s.lodgeQueue die r).InForm := (h.updDie ..).update ..

theorem State.InForm.leaseEnd (id : Nat) : (s.leaseEnd id).InForm := by
  unfold State.leaseEnd
  split
  · exact h
  extract_lets S T
  have hS : S.InForm := h.update ..
  have hT : T.InForm := h.updDie ..
  split
  · exact h
  split
  · exact hS.lodgeQueue ..
  split
  · exact h
  · exact hT.update ..

theorem execLodgingRequestPost_inForm (die : Nat) : Out.InForm (execLodgingRequestPost die s) := by
  unfold execLodgingRequestPost
  extract_lets
  split
  · exact .next ((h.updDie ..).msiRaise _)
  · exact .fault _

theorem State.InForm.failLaunch (la : Nat) (st : Status) : (s.failLaunch la st).InForm := by
  unfold State.failLaunch
  extract_lets
  split
  · exact h
  · exact (h.updLaunch ..).queueDrop _

theorem execLgrantGranted_inForm (die lease : Nat) : Out.InForm (execLgrantGranted die lease s) := by
  unfold execLgrantGranted
  extract_lets S T
  have hS : S.InForm := h.updDie ..
  have hT : T.InForm := hS.update ..
  split
  · exact .next h
  split
  · exact .fault _
  split
  · exact .fault _
  · exact .next (hT.leaseEnd _)

theorem execLgrantRefused_inForm (die lease : Nat) : Out.InForm (execLgrantRefused die lease s) := by
  unfold execLgrantRefused
  extract_lets S T
  have hS : S.InForm := h.updDie ..
  have hT : T.InForm := hS.update ..
  split
  · exact .next h
  split
  · exact .fault _
  split
  · exact .fault _
  · exact .next (hT.forEach _ _ (fun _ _ hU => (hU.failLaunch ..).updLaunch ..))

theorem execLgrantReleaseAck_inForm (die lease : Nat) : Out.InForm (execLgrantReleaseAck die lease s) := by
  unfold execLgrantReleaseAck
  extract_lets S
  have hS : S.InForm := h.updDie ..
  split
  · exact .next h
  split
  · exact .fault _
  split
  · exact .fault _
  · exact .next (hS.update ..)

theorem State.InForm.enqueue (qid x addr caddr : Nat) (irq program : Bool) : (s.enqueue qid x addr caddr irq program).2.InForm := by
  unfold State.enqueue
  extract_lets _ _ _ _ _ _ _ _ _ S T U V _ W X
  have hS : S.InForm := h.update ..
  have hT : T.InForm := hS.completionRecord ..
  have hU : U.InForm := (hT.updQueue ..).markNext _
  have hV : V.InForm := by
    unfold V
    split
    · exact hU.update ..
    · exact hU
  have hW : W.InForm := hV.update ..
  have hX : X.InForm := hW.updLaunch ..
  split
  · exact hT
  split
  · dsimp only
    exact hV.updLaunch ..
  dsimp only
  exact hX.lodgeQueue ..

theorem State.InForm.teamRemove (t : Nat) : (s.teamRemove t).InForm := by
  unfold State.teamRemove
  extract_lets _ S T U _ V
  have hS : S.InForm := (h.rowFreeTeam _).barFreeTeam _
  have hT : T.InForm := hS.update ..
  have hU : U.InForm := by
    unfold U
    split
    · exact hT
    · exact hT.updLaunch ..
  have hV : V.InForm := hU.updLaunch ..
  split
  · split
    · exact hU
    · exact hU.updCluster ..
  · exact hV.update ..

theorem State.InForm.fragExport (t : Nat) : (s.fragExport t).InForm := by
  unfold State.fragExport
  split
  · exact h
  · exact h.update ..

theorem execTeamEnd_inForm (tid : Nat) : Out.InForm (execTeamEnd tid s) := by
  unfold execTeamEnd
  split
  · exact .fault _
  split
  · exact .next ((h.fragExport _).teamRemove _)
  · exact .fault _

theorem State.InForm.drawReport (la : Nat) : (s.drawReport la).2.InForm := by
  unfold State.drawReport
  extract_lets _ _ _ _ _ S r
  have hS : S.InForm := by
    unfold S
    split
    · exact h
    · exact (h.updWing ..).wingLease ..
  have hr : r.2.InForm := hS.translate ..
  split
  · exact h
  extract_lets
  split
  · exact h
  split
  · dsimp only
    exact (h.update ..).logEvent ..
  split
  · split
    · exact h
    dsimp only
    exact (h.engDrop _).update ..
  split
  · dsimp only
    exact hr.updWing ..
  · split
    next e3 =>
      dsimp only
      exact ((hr.updWing ..).unitAt _ _ (fun _ hV => (hV.devPut ..).eInv ..)).snd e3
    next e3 =>
      dsimp only
      exact ((((hr.updWing ..).unitAt _ _ (fun _ hV => (hV.devPut ..).eInv ..)).snd e3).engDrop _).update ..
  · dsimp only
    exact ((hr.updWing ..).update ..).logEvent ..

theorem State.InForm.decideDeps (la : Nat) (ok : Bool) : (s.decideDeps la ok).InForm := by
  unfold State.decideDeps
  refine h.forEach _ _ fun S x hS => ?_
  extract_lets T
  have hT : T.InForm := hS.updLaunch ..
  split
  · exact hT
  · exact hT.failLaunch ..

theorem State.InForm.rowSweep : s.rowSweep.InForm := h.forEach _ _ fun _ _ hS => hS.forEach _ _ fun _ _ hT => hT.rowEnd ..

theorem State.InForm.dropRecords (la : Nat) : (s.dropRecords la).InForm := by
  refine State.InForm.forEach _ ?_ _ fun s c hs => hs.serveHeld 65 c
  refine h.of rfl rfl rfl rfl rfl rfl rfl fun kv hk => ?_
  obtain ⟨kv, hm, rfl⟩ := List.mem_map.1 hk
  exact (List.length_filter_le _ _).trans (h.book kv hm)

theorem execGridComplete_inForm (la : Nat) : Out.InForm (execGridComplete la s) := by
  unfold execGridComplete
  split
  · exact .fault _
  extract_lets S
  have hS : S.InForm := h.forEach _ _ fun _ _ hT => hT.publishNow _
  split
  · exact .fault _
  split
  next e' => exact .next (((hS.rowSweep.drawReport _).snd e').update ..)
  next e' =>
    refine .next ((State.InForm.dropRecords ?_ _).update ..)
    split
    · exact (((((hS.rowSweep.drawReport _).snd e').updLaunch ..).decideDeps ..).completionRecord ..).leaseEnd _
    · exact ((((hS.rowSweep.drawReport _).snd e').updLaunch ..).decideDeps ..).completionRecord ..

theorem State.InForm.recPart (t g l p : Nat) : (s.recPart t g l p).2.InForm := by
  unfold State.recPart
  split
  next e => exact (h.unitRead ..).snd e
  · exact h.unitRead ..

theorem State.InForm.recParts (t g l : Nat) (ps : List Nat) : (s.recParts t g l ps).2.InForm := by
  induction ps generalizing s with
  | nil => exact h
  | cons p ps ih =>
    unfold State.recParts
    have one := h.recPart t g l p
    split
    next e =>
      have rest := ih (one.snd e)
      split
      next e' => exact rest.snd e'
      · exact rest
    · exact one

theorem State.InForm.recRead (t g l p : Nat) : (s.recRead t g l p).2.InForm := by
  unfold State.recRead
  split
  · exact h
  split
  · exact h
  split
  next e' =>
    split
    next e2 => exact (((h.recParts ..).snd e').recParts ..).snd e2
    · exact ((h.recParts ..).snd e').recParts ..
  · exact h.recParts ..

theorem State.InForm.recReads (i : Iss) (ls : List Nat) : (s.recReads i ls).2.InForm := by
  induction ls generalizing s with
  | nil => exact h
  | cons l ls ih => exact ih (h.recRead ..)

theorem State.InForm.launchLane (i : Iss) (l : Nat) (r : URes) (acc : List (Nat × Nat)) : (s.launchLane i l r acc).2.InForm := by
  unfold State.launchLane
  extract_lets
  split
  · exact h.takeTrap ..
  · exact h.breach ..
  · exact h
  · extract_lets r'
    have hr' : r'.2.InForm := h.enqueue ..
    split
    · exact h
    · exact hr'

theorem State.InForm.recDone (i : Iss) : (s.recDone i).InForm := h.engDrop _

theorem execLaunch_inForm (o : Ops) : Out.InForm (execLaunch o s) := by
  unfold execLaunch
  refine issue_inForm h _ _ _ _ fun x S hS => ?_
  extract_lets x' T r U
  have hx' : x'.2.InForm := hS.recReads ..
  have hT : T.InForm := hx'
  have hr : r.2.InForm := (hx'.recDone _).foldl_snd _ _ fun _ _ hS1 => hS1.launchLane ..
  have hU : U.InForm := by
    unfold U
    split
    · exact hr
    · exact hr.addPend _
  split
  · exact hT.update ..
  · exact Iss.finish_inForm hU ..

theorem execShootdownComplete_inForm (id : Nat) : Out.InForm (execShootdownComplete id s) := by
  unfold execShootdownComplete
  split
  · exact .fault _
  extract_lets S T U
  have hS : S.InForm := h.shootDo _
  have hT : T.InForm := hS.update ..
  have hU : U.InForm := by
    unfold U
    split
    · exact hT.update ..
    · exact hT
  split
  · exact .fault _
  · exact .next (hU.completionRecord ..)

/-! ### Scheduling -/

theorem State.InForm.roundRobin (die q : Nat) : (s.roundRobin die q).InForm := by
  unfold State.roundRobin
  extract_lets
  exact h.updDie ..

theorem State.InForm.passTurn (die : Nat) : ∀ r, s.passTurn die = some r → r.InForm := by
  intro r e
  unfold State.passTurn at e
  extract_lets d at e
  split at e
  · cases e; exact h.updDie ..
  · cases e

theorem State.InForm.zeroBlocks (la core ix n : Nat) : (s.zeroBlocks la core ix n).InForm := by
  simp only [State.zeroBlocks]
  split
  · exact h
  · exact ((h.dramFilter _).update ..).updCore_le _ _ fun _ => Nat.le_refl _

theorem State.InForm.newTeam (la cid core rank : Nat) : (s.newTeam la cid core rank).InForm := by
  unfold State.newTeam
  refine State.InForm.updCluster ?_ ..
  extract_lets S
  have hS : S.InForm := h.updLaunch ..
  split
  · exact (((hS.update ..).zeroBlocks ..).update ..).acquireDone ..
  · exact ((hS.update ..).zeroBlocks ..).update ..

theorem State.InForm.placed (la cid : Nat) (cores : List Nat) : (s.placed la cid cores).InForm := h.updLaunch ..

theorem State.InForm.placedFront (x : Front) : (s.placedFront x).InForm := ((h.updDie ..).updDie ..).markNext _

theorem State.InForm.placeNew (la w : Nat) (corner : Nat × Nat) : (s.placeNew la w corner).InForm := by
  unfold State.placeNew
  refine State.InForm.placedFront ?_ _
  split
  · exact (((((h.update ..).wingLease ..).forEach _ _ (fun _ _ hS => hS.newTeam ..)).placed ..).updLaunch ..).queueDrop _
  · exact ((((h.update ..).wingLease ..).forEach _ _ (fun _ _ hS => hS.newTeam ..)).placed ..).updLaunch ..

theorem State.InForm.placeSaved (la k w : Nat) (corner : Nat × Nat) : (s.placeSaved la k w corner).InForm := by
  unfold State.placeSaved
  extract_lets _ _ S
  have hS : S.InForm := h.wingLease ..
  split
  · exact h
  refine ((((hS.update ..).forEach _ _ (fun T x' hT => ?_)).placed ..).updLaunch ..).placedFront _
  extract_lets U
  have hU : U.InForm := hT.forEach _ _ fun _ _ hV => hV.updCore_book _ _ fun _ => by rfl
  split
  · exact hT
  · exact hU.update ..

theorem execClusterPlace_inForm (die : Nat) : Out.InForm (execClusterPlace die s) := by
  unfold execClusterPlace
  split
  · exact .next (h.failLaunch ..)
  split
  · split
    next e2 => exact .next (h.passTurn _ _ e2)
    · exact .fault _
  extract_lets _ S T
  have hS : S.InForm := by
    unfold S
    split
    · exact h.roundRobin ..
    · exact h
  have hT : T.InForm := by
    unfold T
    split
    · exact hS.placeNew ..
    · exact hS.placeSaved ..
  split
  · exact .next (h.failLaunch ..)
  · exact .next (hT.updDie ..)

theorem State.InForm.preemptTeam (t : Nat) : (s.preemptTeam t).InForm := by
  unfold State.preemptTeam
  extract_lets S
  have hS : S.InForm := h.updTeam ..
  split
  · exact h
  · exact hS.update ..

theorem State.InForm.preemptClusters (cs : List Nat) : (s.preemptClusters cs).InForm :=
  h.forEach _ _ fun _ _ hS => hS.forEach _ _ fun _ _ hT => hT.preemptTeam _

theorem execFramePreempt_inForm (die : Nat) : Out.InForm (execFramePreempt die s) := by
  unfold execFramePreempt
  split
  · exact .fault _
  · exact .next ((h.preemptClusters _).updDie ..)

theorem execNormalReservation_inForm (die : Nat) : Out.InForm (execNormalReservation die s) := by
  unfold execNormalReservation
  extract_lets
  split
  · exact .fault _
  split
  · exact .fault _
  · exact .next (h.updDie ..)

theorem State.InForm.saveRows (t : Nat) (drop : Bool) : (s.saveRows t drop).InForm := by
  unfold State.saveRows
  refine h.forEach _ _ fun S x hS => ?_
  split
  · exact hS
  extract_lets
  split <;> exact hS.update ..

theorem State.InForm.poolWrite (space o n : Nat) : (s.poolWrite space o n).InForm := h.forEach _ _ fun _ _ hS => (hS.homeWrite ..).update ..

theorem State.InForm.keepCluster (cid : Nat) : (s.keepCluster cid).InForm := by
  unfold State.keepCluster
  extract_lets _ _ _ _ S T U
  have hS : S.InForm := ((h.updDie ..).updDie ..).forEach _ _ fun _ _ hV => hV.updTeam ..
  have hT : T.InForm := hS.update ..
  have hU : U.InForm := hT.updCluster ..
  split
  · exact hU
  refine hU.forEach _ _ fun V x hV => ?_
  split
  · exact hV
  · exact hV.teamStop ..

theorem State.InForm.bookClear (t : Nat) : (s.bookClear t).InForm :=
  ((h.updCore_le _ _ (fun _ => List.length_filter_le _ _)).barFreeTeam _).forEach _ _ fun _ _ hS => hS.updThread ..

theorem State.InForm.clusterSaved (la cid : Nat) (v : Saved) : (s.clusterSaved la cid v).InForm := by
  unfold State.clusterSaved
  extract_lets S
  have hS : S.InForm := h.update ..
  split
  · exact h
  · exact (hS.updLaunch ..).markNext _

theorem State.InForm.saveTeam (t : Nat) (v : Saved) (place : Nat) : (s.saveTeam t v place).InForm :=
  ((((((h.publishNow _).poolWrite ..).saveRows ..).bookClear _).update ..).serveHeld _ _).clusterSaved ..

theorem execPreemptSave_inForm (tid : Nat) : Out.InForm (execPreemptSave tid s) := by
  unfold execPreemptSave
  extract_lets
  split
  · exact .fault _
  extract_lets
  split
  · exact .fault _
  split
  · exact .fault _
  split
  · exact .next (h.keepCluster _)
  · exact .next (h.saveTeam ..)

theorem State.InForm.rejudge (t : Nat) : (s.rejudge t).InForm := h.updTeam ..

theorem State.InForm.restoreRecord (core : Nat) (e : GbEntry) : (s.restoreRecord core e).InForm := by
  simp only [State.restoreRecord]
  split
  next room => exact h.bookPut _ _ (State.room_of_bookFull (by simpa using room))
  split
  · exact (h.updThread ..).bookHold ..
  · exact h.bookHold ..

theorem State.InForm.restoreBook (core t : Nat) (v : Saved) : (s.restoreBook core t v).InForm :=
  (h.forEach _ _ (fun _ _ hS => hS.restoreRecord ..)).forEach _ _ fun _ _ hS => hS.bookHold ..

theorem State.InForm.restoreRows (t : Nat) : (s.restoreRows t).InForm := h.forEach _ _ fun _ _ hS => hS.update ..

theorem State.InForm.restoreCopies (core t : Nat) (v : Saved) : (s.restoreCopies core t v).InForm := h.update ..

theorem State.InForm.clusterBack (t : Nat) : (s.clusterBack t).InForm := by
  simp only [State.clusterBack]
  split
  · exact h
  split
  · exact h.update ..
  split
  · exact (h.update ..).preemptClusters _
  · exact (h.update ..).updCluster _ _

theorem State.InForm.restoreTeam (core t : Nat) (v : Saved) : (s.restoreTeam core t v).InForm :=
  (((((((((h.acquireDone ..).barRejoin _).restoreBook ..).restoreRows _).restoreCopies ..).update ..).updTeam ..).rejudge _).serveHeld _
    _).clusterBack _

theorem execTeamRestore_inForm (saved core : Nat) : Out.InForm (execTeamRestore saved core s) := by
  unfold execTeamRestore
  split
  · exact .fault _
  split
  · exact .fault _
  split
  · exact .fault _
  · exact .next (h.restoreTeam ..)

theorem State.InForm.bind (t g ctx : Nat) : (s.bind t g ctx).InForm := h.updGroup ..

theorem execContextBind_inForm (core quarter ctx : Nat) : Out.InForm (execContextBind core quarter ctx s) := by
  unfold execContextBind
  split
  · split
    · exact .fault _
    split
    · exact .next (h.bind ..)
    · exact .fault _
  split
  · exact .fault _
  split
  · exact .fault _
  · exact .next (h.bind ..)

theorem execPorterSlotTake_inForm (core : Nat) : Out.InForm (execPorterSlotTake core s) := by
  unfold execPorterSlotTake
  split
  · exact .fault _
  split
  · exact .next (h.update ..)
  · exact .fault _

/-! ### The raster pipeline -/

theorem State.InForm.updDraw (la : Nat) (f : Draw → Draw) : (s.updDraw la f).InForm := h.update ..

theorem State.InForm.stick (la b : Nat) : (s.stick la b).InForm := h.updDraw ..

theorem State.InForm.meshOver (la : Nat) : (s.meshOver la).InForm := (h.updDraw ..).stick ..

theorem State.InForm.sealMesh (t : Nat) : (s.sealMesh t).InForm := by
  unfold State.sealMesh
  extract_lets _ _ S
  have hS : S.InForm := h.updTeam ..
  split
  · exact h
  · exact hS.update ..

theorem State.InForm.emitPrim (t la k n : Nat) : (s.emitPrim t la k n).InForm := by
  unfold State.emitPrim
  extract_lets _ _ _ _ S
  have hS : S.InForm := h.meshOver _
  split
  · exact h
  split
  · split
    · exact hS.engineRecord ..
    · exact hS
  split
  · exact h.updDraw ..
  · exact h.forEach _ _ fun _ _ hT => hT.updWing ..

theorem execPrimitiveEmit_inForm (queue : Nat) : Out.InForm (execPrimitiveEmit queue s) := by
  unfold execPrimitiveEmit
  split
  · exact .fault _
  split
  · exact .fault _
  extract_lets S
  have hS : S.InForm := h.sealMesh _
  split
  · exact .fault _
  split
  · exact .next (hS.updDraw ..)
  · exact .next ((hS.emitPrim ..).updDraw ..)

theorem execRasterisePrimitive_inForm (wing : Nat) : Out.InForm (execRasterisePrimitive wing s) := by
  unfold execRasterisePrimitive
  split
  · exact .next (h.updWing ..)
  · exact .fault _

theorem State.InForm.reachSpots (spots : List (Nat × Nat)) (taken : Bool) : (s.reachSpots spots taken).2.InForm := by
  unfold State.reachSpots
  refine h.foldl_snd _ _ fun x a hS => ?_
  split
  iterate 3 next e => exact (hS.reach ..).snd e

theorem State.InForm.zTest (la : Nat) (r : BitVec 1024) (q : Quad) (mask : BitVec 16) (z : Nat → Nat) : (s.zTest la r q mask z).2.InForm := by
  unfold State.zTest
  refine h.foldl_snd _ _ fun x a hS => ?_
  extract_lets S
  have hS1 : S.InForm := hS
  split
  · exact hS
  split
  · exact hS
  extract_lets _ _ T
  have hT : T.InForm := hS1.bankWrite ..
  split
  · exact hS1.stick ..
  · exact hT.update ..

theorem State.InForm.tokenGo (wing la : Nat) (q : Quad) (rest : List (Nat × Quad)) : ∀ r, s.tokenGo wing la q rest = some r → r.InForm := by
  intro r e
  unfold State.tokenGo at e
  extract_lets lr spots at e
  have reached := h.reachSpots spots false
  split at e
  next S eS => cases e; exact reached.snd eS
  next dead off S eS =>
    have hS := reached.snd eS
    extract_lets banks t T empty f id U at e
    have tested : t.2.InForm := by
      unfold t
      split
      · exact hS.zTest ..
      · exact hS
    have hT : T.InForm := by
      unfold T
      split
      · exact tested.stick ..
      · exact tested
    have hU : U.InForm := hT.updWing ..
    split at e
    · cases e
    split at e
    · exact Option.some.inj e ▸ hU
    · exact Option.some.inj e ▸ hU.update ..

theorem State.InForm.rasterAsk (bank src : Nat) (job : BankJob) : ∀ r, (s.rasterAsk bank src job).2 = some r → r.InForm := by
  intro r e
  unfold State.rasterAsk at e
  split at e
  · cases e
  split at e
  · cases e
  · cases e; exact h.bankAsk _

theorem execCoverageToken_inForm (wing : Nat) : Out.InForm (execCoverageToken wing s) := by
  unfold execCoverageToken
  split
  · exact .fault _
  next la q rest _ =>
    extract_lets go
    have gone : go.InForm := by
      unfold go
      split
      next S e => exact .next (h.tokenGo _ _ _ _ S e)
      · exact .fault _
    split
    · exact .fault _
    split
    · split
      · exact .fault _
      · exact gone
    split
    · exact gone
    next S e => exact .next (h.rasterAsk _ _ _ S (congrArg Prod.snd e))
    · exact .fault _

theorem State.InForm.colourStore (la : Nat) (r : BitVec 1024) (t : Nat) (px : Nat × Nat × Nat) (col : List Word) (acc : List (Nat × Nat)) :
    (s.colourStore la r t px col acc).2.InForm := by
  unfold State.colourStore
  extract_lets
  split
  · exact h
  extract_lets _ _ S T
  have hS : S.InForm := h.bankWrite ..
  have hT : T.InForm := hS.update ..
  split
  · exact h.stick ..
  · exact hT

theorem State.InForm.retireColours (la : Nat) (r : BitVec 1024) (f : Flight) (bru : Nat) (pass : BitVec 16) (ex : List Export) :
    (s.retireColours la r f bru pass ex).InForm := by
  unfold State.retireColours
  refine (h.foldl_snd _ _ (fun x a hS => hS.foldl_snd _ _ (fun x' a' hS1 => ?_))).sdieMark ..
  extract_lets
  split
  · exact hS1
  split
  · exact hS1.colourStore ..
  · exact hS1

theorem State.InForm.popSlot (bru id : Nat) (f : Flight) : (s.popSlot bru id f).InForm := h.update ..

theorem State.InForm.retireGo (bru id : Nat) (f : Flight) : (s.retireGo bru id f).InForm := by
  unfold State.retireGo
  extract_lets
  split
  · exact h.popSlot ..
  split
  next snd _ e => exact (h.reachSpots ..).snd e
  next e =>
    refine State.InForm.popSlot ?_ ..
    split
    · exact ((h.reachSpots ..).snd e).stick ..
    · exact (h.reachSpots ..).snd e
  next snd _ e =>
    refine (State.InForm.retireColours ?_ ..).popSlot ..
    split
    · exact (h.reachSpots ..).snd e
    · exact ((h.reachSpots ..).snd e).zTest ..

theorem execQuadRetire_inForm (bru : Nat) : Out.InForm (execQuadRetire bru s) := by
  unfold execQuadRetire
  split
  · exact .fault _
  split
  · exact .next (h.popSlot ..)
  split
  · exact .next (h.retireGo ..)
  next S e => exact .next (h.rasterAsk _ _ _ S (congrArg Prod.snd e))
  · exact .fault _

theorem execFragmentGroupLaunch_inForm (wing core quarter : Nat) : Out.InForm (execFragmentGroupLaunch wing core quarter s) := by
  unfold execFragmentGroupLaunch
  extract_lets
  split
  · exact .fault _
  extract_lets _ _ _ _ _ _ _ S T _ _ _ _ _ _ U
  have hS : S.InForm := (h.wingLease ..).zeroBlocks ..
  have hT : T.InForm := by
    unfold T
    split
    · exact hS.acquireDone ..
    · exact hS
  have hU : U.InForm := hT.update ..
  split
  · exact .fault _
  · exact .next (hU.updLaunch ..)

/-! ### Banks -/

theorem State.InForm.respond (col : Nat) (a : Access) (id pend : Nat) : (s.respond col a id pend).InForm := by
  unfold State.respond
  extract_lets
  split
  · exact h
  · exact h.update ..

theorem State.InForm.grantAcc (bank id : Nat) (a : Access) : (s.grantAcc bank id a).InForm := by
  unfold State.grantAcc
  split
  next e => exact ((h.reach ..).snd e).update ..
  next e => exact ((h.reach ..).snd e).failAcc ..
  next e =>
    extract_lets _ _ r
    have hr : r.2.InForm := ((h.reach ..).snd e).bankDo ..
    split
    next c => exact ((h.reach ..).snd e).bankAskAcc ..
    · exact (hr.settle ..).respond ..

theorem State.InForm.grantDo (x : BankReq) : (s.grantDo x).InForm := by
  unfold State.grantDo
  extract_lets S
  have hS : S.InForm := h.update ..
  split
  · split
    · exact hS
    · exact hS.grantAcc ..
  · split
    · exact hS
    · exact hS.update ..
  · split
    · exact hS
    · exact hS.retireGo ..
  · split
    · exact hS
    split
    · exact State.InForm.getD (fun T => hS.tokenGo _ _ _ _ T) hS
    · exact hS

theorem execBankGrant_inForm (stack column bank : Nat) : Out.InForm (execBankGrant stack column bank s) := by
  unfold execBankGrant
  extract_lets
  split
  · exact .fault _
  split
  · exact .next (h.update ..)
  · exact .next ((h.update ..).grantDo _)

theorem execSurfaceReleaseComplete_inForm (ix : Nat) : Out.InForm (execSurfaceReleaseComplete ix s) := by
  unfold execSurfaceReleaseComplete
  extract_lets _ S _ T
  have hS : S.InForm := h.updSte ..
  have hT : T.InForm := by
    unfold T
    split
    · exact (hS.takeReserve ..).takeReserve ..
    · exact hS.takeReserve ..
  split
  · exact .fault _
  · exact .next (hT.steEnded _)

/-! ### Code -/

theorem State.InForm.icachePut (core la va : Nat) (b : BitVec 256) : (s.icachePut core la va b).InForm := h.updCore_book _ _ fun _ => by rfl

theorem State.InForm.blockRead (t va : Nat) (tlb : TlbKind) (kind : AccKind) : (s.blockRead t va tlb kind).2.InForm := by
  unfold State.blockRead
  extract_lets
  split
  next e => exact (h.unitRead ..).snd e
  next e => exact ((h.unitRead ..).snd e).unitTake ..

theorem State.InForm.codeRead (t va : Nat) : (s.codeRead t va).2.InForm := h.blockRead ..

theorem State.InForm.skipFetch (t pc : Nat) : (s.skipFetch t pc).2.InForm := by
  unfold State.skipFetch
  extract_lets
  split
  · exact h
  split
  next e => exact ((h.codeRead ..).snd e).icachePut ..
  next e => exact (h.codeRead ..).snd e
  next e => exact (h.codeRead ..).snd e

theorem State.InForm.skipLen (t pc : Nat) : (s.skipLen t pc).2.InForm := by
  unfold State.skipLen
  split
  · exact h
  split
  · exact h
  · exact h.update ..

/-! ### Debugging -/

theorem execDbgreqStop_inForm (space ticket core : Nat) : Out.InForm (execDbgreqStop space ticket core s) := by
  unfold execDbgreqStop
  split
  · exact .next h
  split
  · exact .next h
  refine .next (h.forEach _ _ (fun S x hS => ?_))
  split
  · exact hS
  · exact hS.teamStop ..

theorem execDbgreqResume_inForm (space ticket core : Nat) : Out.InForm (execDbgreqResume space ticket core s) := by
  unfold execDbgreqResume
  extract_lets _ _ _ _ _ _ _ S T
  have hS : S.InForm := h.update ..
  have hT : T.InForm := by
    unfold T
    split
    · exact hS.updSpace ..
    · exact hS
  split
  · exact .next h
  split
  · exact .next h
  · exact .next (hT.forEach _ _ (fun _ _ hU => hU.markNext _))

theorem execDbgreqStep_inForm (space ticket core : Nat) : Out.InForm (execDbgreqStep space ticket core s) := by
  unfold execDbgreqStep
  split
  · exact .next h
  split
  · exact .next h
  · exact .next (h.forEach _ _ (fun _ _ hS => hS.updTeam ..))

theorem execDbgreqPreempt_inForm (space ticket core : Nat) : Out.InForm (execDbgreqPreempt space ticket core s) := by
  simp only [execDbgreqPreempt]
  split
  · exact .next h
  · refine .next (h.forEach _ _ fun s cid hs => ?_)
    split
    · exact hs
    split
    · exact hs.updCluster _ _
    split
    · exact (hs.preemptClusters _).updCluster _ _
    · exact hs

theorem State.InForm.captureFrame (ix frame : Nat) (f : Frame) : (s.captureFrame ix frame f).2.InForm :=
  h.foldl_snd _ _ fun _ _ hS => hS.spillTile ..

theorem State.InForm.capture (space : Nat) : (s.capture space).2.InForm := by
  unfold State.capture
  extract_lets _ r
  have hr : r.2.InForm := h.foldl_snd _ _ fun _ _ hS => hS.captureFrame ..
  split
  · exact hr.forEach _ _ fun _ _ hS => hS.pressDone ..
  · exact hr

theorem State.InForm.dumpTeams (space : Nat) : (s.dumpTeams space).InForm := by
  refine (h.updSpace _ _).forEach _ _ fun s cid hs => ?_
  simp only
  split
  · exact hs.preemptClusters _
  · refine hs.forEach _ _ fun s t hs => ?_
    split
    · exact hs
    · exact hs.teamStop ..

theorem State.InForm.dumpDue (space core : Nat) : (s.dumpDue space core).InForm := by
  unfold State.dumpDue
  split
  · exact h
  · exact h.update ..

theorem execDbgreqDump_inForm (space ticket core : Nat) : Out.InForm (execDbgreqDump space ticket core s) := by
  unfold execDbgreqDump
  split
  · exact .next h
  split
  · exact .next h
  split
  · exact .next ((h.updSpace ..).dumpDue ..)
  split
  · exact .next (h.dumpDue ..)
  split
  · exact .next ((h.dumpTeams _).dumpDue ..)
  split
  next e => exact .next (((h.capture _).snd e).dumpDue ..)
  next e => exact .next (((h.capture _).snd e).updSpace ..)

theorem State.InForm.sample (space core quarter : Nat) : (s.sample space core quarter).InForm := by
  unfold State.sample
  split
  · extract_lets
    split
    · exact h
    · exact h.traceWrite ..
  split
  · exact h
  · exact h.traceWrite ..

theorem execPcSample_inForm (core quarter : Nat) : Out.InForm (execPcSample core quarter s) := by
  unfold execPcSample
  split
  · exact .fault _
  · exact .next (h.forEach _ _ (fun _ _ hS => hS.sample ..))

theorem State.InForm.sampleTick : s.sampleTick.InForm := by
  unfold State.sampleTick
  refine h.forEach _ _ fun S x hS => ?_
  extract_lets
  split
  · exact hS
  · exact hS.forEach _ _ fun _ _ hT => hT.forEach _ _ fun _ _ hU => hU.sample ..

theorem State.InForm.debtMap (space : Nat) (f : Nat → Nat → Group → Group) : (s.debtMap space f).InForm := h.update ..

theorem State.InForm.trialIssue (t g pc : Nat) : (s.trialIssue t g pc).InForm := by
  unfold State.trialIssue
  extract_lets
  split
  · exact h
  · exact (h.updSpace ..).debtMap ..

theorem State.InForm.debtFall : s.debtFall.InForm := h.update ..

theorem execTrialDebtTick_inForm : Out.InForm (execTrialDebtTick s) := .next h.debtFall

theorem execSptrialWrite_inForm (space : Nat) (value : DWord) : Out.InForm (execSptrialWrite space value s) := by
  unfold execSptrialWrite
  extract_lets _ _ S
  have hS : S.InForm := h.updSpace ..
  split
  · exact .next h
  split
  · exact .next h
  refine .next ?_
  split
  · exact hS
  · exact hS.debtMap ..

omit h in
theorem State.InForm.stallNote {S : State} (h : S.InForm) (s : State) (t g : Nat) (wPath : Bool) : (s.stallNote S t g wPath).InForm := by
  unfold State.stallNote
  extract_lets
  exact h.updGroup ..

theorem State.InForm.stopTraces : s.stopTraces.InForm := by
  unfold State.stopTraces
  refine h.forEach _ _ fun S x hS => ?_
  extract_lets _ _ T
  have hT : T.InForm := hS.updTeam ..
  split
  · exact hT
  split
  · exact hT
  · exact hT.traceWrite ..

/-! ### The matrix stream -/

theorem streamTurn_inForm (f : Nat → Stream → State → State) (hf : ∀ x y S, S.InForm → (f x y S).InForm) : Out.InForm (streamTurn s f) := by
  unfold streamTurn
  split
  · split
    · exact .fault _
    · exact .next (hf _ _ _ h)
  · split
    · exact .fault _
    · exact .next ((h.takeTraps ..).endIssue ..)
  · exact .fault _

theorem State.InForm.updStream (t : Nat) (f : Stream → Stream) : (s.updStream t f).InForm := h.updTeam ..

theorem State.InForm.cmdFault (t : Nat) (c : Cmd) (tr : Trap) : (s.cmdFault t c tr).InForm := by
  unfold State.cmdFault
  split
  · exact h.endGrid ..
  · exact ((h.engDrop _).updStream ..).engineRecord ..

theorem State.InForm.cmdDue (t : Nat) (c : Cmd) : (s.cmdDue t c).InForm := h.update ..

theorem cmdIssue_inForm (i : Instr) (o : SOps) : Out.InForm (cmdIssue i o s) := by
  unfold cmdIssue
  refine streamTurn_inForm h _ fun x x' S hS => ?_
  extract_lets _ _ _ _ _ _ T
  have hT : T.InForm := hS.updStream ..
  split
  · exact hT.cmdFault ..
  · exact (hT.cmdDue ..).mbwJudge _

theorem control_inForm (f : Nat → Stream → State → Stream) : Out.InForm (control s f) :=
  streamTurn_inForm h _ fun _ _ _ hS => hS.updStream ..

theorem execMloop_inForm (o : SOps) : Out.InForm (execMloop o s) := streamTurn_inForm h _ fun _ _ _ hS => hS.updStream ..

theorem execMjmp_inForm (o : SOps) : Out.InForm (execMjmp o s) := streamTurn_inForm h _ fun _ _ _ hS => hS.updStream ..

theorem execMend_inForm (o : SOps) : Out.InForm (execMend o s) := streamTurn_inForm h _ fun _ _ _ hS => hS.updStream ..

theorem State.InForm.cmdRetire (t seq : Nat) : (s.cmdRetire t seq).InForm := (((h.unpin ..).engDrop _).updStream ..).mbwJudge _

theorem State.InForm.cmdGets (t seq p x : Nat) : (s.cmdGets t seq p x).InForm := (h.engDrop _).updStream ..

theorem State.InForm.mOne (t seq p n : Nat) (op : AOp) (need : Need) (x : Nat) : (s.mOne t seq p n op need x).2.InForm := by
  unfold State.mOne
  extract_lets
  split
  iterate 3 next e => exact (h.eAccess _).snd e
  next e =>
    split
    · exact (h.eAccess _).snd e
    · exact ((h.eAccess _).snd e).cmdGets ..

theorem State.InForm.mMove (t seq p n : Nat) (tags : List Nat) (op : AOp) (need : Need) (x : Nat) :
    (s.mMove t seq p n tags op need x).2.InForm := by
  unfold State.mMove
  extract_lets _ _ S
  have hS : S.InForm := h.update ..
  split
  · exact h
  split
  · exact h
  split
  · exact hS
  · exact hS.mOne ..

theorem State.InForm.mRead (t seq p n : Nat) (tags : List Nat) : (s.mRead t seq p n tags).2.InForm := h.mMove ..

theorem State.InForm.mWrite (t seq p n x : Nat) : (s.mWrite t seq p n x).2.InForm := h.mMove ..

theorem State.InForm.scaleWord (t seq addr : Nat) : (s.scaleWord t seq addr).2.InForm := h.mRead ..

theorem State.InForm.viewRead (t seq p row ch : Nat) (slot : BitVec 128) (f : ElemFmt) (satf : Bool) :
    (s.viewRead t seq p row ch slot f satf).2.InForm := by
  unfold State.viewRead
  split
  · exact h
  extract_lets sc
  have scaled : sc.2.InForm := by
    unfold sc
    split
    · exact h.scaleWord ..
    · exact h
  clear_value sc
  split
  · have read := State.InForm.mRead scaled t seq
    split
    next e => exact (read ..).snd e
    · exact read ..
  · exact scaled

theorem readAll_inForm (f : Nat → Nat → State → MRes × State) (xs : List (Nat × Nat)) (hf : ∀ x xs S, S.InForm → (f x xs S).2.InForm) :
    (readAll f xs s).2.InForm := by
  induction xs generalizing s with
  | nil => exact h
  | cons x xs ih =>
    unfold readAll
    have one := hf x.1 x.2 s h
    split
    next e =>
      split
      next e' => exact (ih (one.snd e)).snd e'
    next e => exact one.snd e

theorem State.InForm.mulScales (t : Nat) (c : Cmd) (sa sb : BitVec 128) (m : Nat) : (s.mulScales t c sa sb m).2.InForm := by
  unfold State.mulScales
  refine readAll_inForm h _ _ fun x x' S hS => ?_
  split
  · split
    · exact hS
    · exact hS.scaleWord ..
  split
  · exact hS
  · exact hS.scaleWord ..

theorem State.InForm.mstClean (t : Nat) (spans : List (Nat × Nat)) : (s.mstClean t spans).2.InForm := by
  unfold State.mstClean
  split
  · exact h
  · exact h.eCleanUnits ..

theorem State.InForm.cmdNext (t : Nat) (c : Cmd) (total : Nat) : (s.cmdNext t c total).InForm := by
  unfold State.cmdNext
  split
  · exact h.cmdRetire ..
  · exact (h.updStream ..).cmdDue ..

theorem CmdRes.ofErr_inForm (e : MRes) : (CmdRes.ofErr e s).InForm := by
  unfold CmdRes.ofErr
  split
  · exact h
  · exact h
  · exact h

theorem State.InForm.operandFault : (Machine.operandFault s).InForm := h

theorem State.InForm.mulRun (t : Nat) (st : Stream) (c : Cmd) (q : MulOp) : (s.mulRun t st c q).InForm := by
  have put (f : Stream → Stream) : (CmdRes.retire (s.updStream t f)).InForm := h.updStream t f
  unfold State.mulRun
  extract_lets mk d int slA slB part t0 t1 x stride mA own
  split
  · split
    · exact h.operandFault
    split
    · exact h.operandFault
    split
    · exact h.operandFault
    split
    · exact h
    split
    · exact put _
    split
    · exact h.operandFault
    split
    · exact h.operandFault
    extract_lets e bs
    clear_value x
    split
    · exact h
    have read : bs.2.InForm := readAll_inForm h _ _ fun k j S hS => by
      split
      · exact hS.viewRead ..
      · exact hS.mRead ..
    clear_value bs
    split
    next er S => exact CmdRes.ofErr_inForm read _
    next bv S =>
      have scales : (if q.p then S.mulScales t c slA slB mk.1 else (([], none), S)).2.InForm := by
        split
        · exact State.InForm.mulScales read ..
        · exact read
      split
      next er T es => exact CmdRes.ofErr_inForm (scales.snd es) _
      next sc T es => exact (scales.snd es).updStream t _
  · exact h.operandFault

theorem State.InForm.mldElem (t : Nat) (c : Cmd) (o : SOps) (v satf : Bool) (f : ElemFmt) (i k : Nat) :
    (s.mldElem t c o v satf f i k).InForm := by
  unfold State.mldElem
  extract_lets slot e r
  have read : r.2.InForm := by
    unfold r
    split
    · exact h.viewRead ..
    · exact h.mRead ..
  clear_value r
  split
  · exact State.InForm.updStream read ..
  · exact CmdRes.ofErr_inForm read _

theorem State.InForm.mstElem (t : Nat) (c : Cmd) (o : SOps) (v satf : Bool) (f : ElemFmt) (a : Tile)
    (scale : FVal) (cells : List (Nat × Nat)) (i j : Nat) : (s.mstElem t c o v satf f a scale cells i j).InForm := by
  unfold State.mstElem
  extract_lets n got out S
  have hS : S.InForm := by
    unfold S
    split
    · exact h
    · exact h.updStream ..
  have wrote : (match S.mstPtr c o v f.bytes i j with
      | none => (MRes.val 0, S)
      | some q => S.mWrite t c.seq q n out).2.InForm := by
    split
    · exact hS
    · exact hS.mWrite ..
  split
  next T e =>
    have hT := wrote.snd e
    split
    · exact hT
    have cleaned := hT.mstClean t (cells.filterMap fun x => (T.mstPtr c o v f.bytes x.1 x.2).map fun p => (p, n))
    split
    next e' => exact cleaned.snd e'
    next e' => exact cleaned.snd e'
  next e => exact CmdRes.ofErr_inForm (wrote.snd e) _

omit h in
theorem State.InForm.cmdSettle {r : CmdRes} (hr : r.InForm) (s : State) (t : Nat) (c : Cmd) : (s.cmdSettle t c r).InForm := by
  cases r with
  | retire S => exact State.InForm.cmdRetire hr ..
  | again S =>
    simp only [State.cmdSettle]
    split
    · exact hr
    · exact State.InForm.cmdDue hr ..
  | fault tr S => exact State.InForm.cmdFault hr ..
  | breach va l S => exact State.InForm.breach hr ..

theorem State.InForm.cmdElem (t : Nat) (c : Cmd) (cells : List (Nat × Nat)) (f : Nat → Nat → ElemRes) (hf : ∀ i j, (f i j).InForm) :
    (s.cmdElem t c cells f).InForm := by
  unfold State.cmdElem
  split
  · exact h.cmdRetire ..
  next i j _ =>
    have hij := hf i j
    split
    next S e => exact State.InForm.cmdNext (by rwa [e] at hij) ..
    next r e => exact State.InForm.cmdSettle (by rwa [e] at hij) ..

theorem State.InForm.mldRun (t : Nat) (c : Cmd) (o : SOps) (v satf : Bool) : (s.mldRun t c o v satf).InForm := by
  unfold State.mldRun
  split
  · exact State.InForm.cmdSettle h.operandFault ..
  refine iteInduction (motive := State.InForm) (fun _ => State.InForm.cmdSettle h.operandFault ..) fun _ => ?_
  extract_lets mk x
  clear_value x
  split
  · exact h.cmdFault ..
  · exact h.cmdElem _ _ _ _ fun _ _ => h.mldElem ..

theorem State.InForm.mstRun (t : Nat) (st : Stream) (c : Cmd) (o : SOps) (ta tb : Nat) (scl satf v : Bool) :
    (s.mstRun t st c o ta tb scl satf v).InForm := by
  unfold State.mstRun
  extract_lets a r tsc mk scale x
  split
  · exact State.InForm.cmdSettle h.operandFault ..
  split
  · exact State.InForm.cmdSettle h.operandFault ..
  clear_value x
  split
  · exact h.cmdFault ..
  · exact h.cmdElem _ _ _ _ fun _ _ => h.mstElem ..

theorem State.InForm.mclrRun (t : Nat) (c : Cmd) (o : SOps) (int : Bool) : (s.mclrRun t c o int).InForm := by
  unfold State.mclrRun
  extract_lets
  split
  · exact State.InForm.cmdSettle h.operandFault ..
  · exact (h.updStream ..).cmdRetire ..

theorem State.InForm.mbarRun (t : Nat) (c : Cmd) (o : SOps) : (s.mbarRun t c o).InForm := by
  unfold State.mbarRun
  split
  next e => exact (((h.mstCross _).arrive ..).snd e).cmdFault ..
  next e => exact ((((h.mstCross _).arrive ..).snd e).dropV _).cmdRetire ..

theorem execCommandRetire_inForm (tid cmd : Nat) : Out.InForm (execCommandRetire tid cmd s) := by
  unfold execCommandRetire
  split
  · exact .fault _
  split
  · exact .fault _
  extract_lets _ S
  have hS : S.InForm := (h.updStream ..).updCore_book _ _ fun _ => by rfl
  split
  · exact .fault _
  split
  · exact .next (hS.mldRun ..)
  · exact .next (hS.mldRun ..)
  · exact .next (hS.mstRun ..)
  · exact .next (hS.mstRun ..)
  · exact .next (hS.mclrRun ..)
  · exact .next (hS.mbarRun ..)
  · exact .next (hS.cmdRetire ..)
  · split
    · exact .next (State.InForm.cmdSettle (hS.mulRun ..) ..)
    · exact .fault _

theorem execMbwRetire_inForm (tid cmd : Nat) : Out.InForm (execMbwRetire tid cmd s) := by
  unfold execMbwRetire
  split
  · exact .fault _
  split
  · exact .fault _
  split
  · exact .fault _
  split
  · exact .fault _
  · exact .next ((h.barLate ..).cmdRetire ..)

theorem State.InForm.streamResume (t unit : Nat) : (s.streamResume t unit).InForm := by
  unfold State.streamResume
  split
  · exact h.updStream ..
  split
  · exact h
  · exact ((h.updStream ..).cmdDue ..).mbwJudge _

theorem State.InForm.streamSkip (t unit : Nat) : (s.streamSkip t unit).InForm := by
  unfold State.streamSkip
  split
  · exact h.updStream ..
  · exact h.cmdRetire ..

theorem State.InForm.streamKill (t : Nat) : (s.streamKill t).InForm :=
  ((((h.engDrop _).forEach _ _ (fun _ _ hS => hS.unpin ..)).updStream ..).updCore_le _ _ (fun _ => List.length_filter_le _ _)).serveHeld _ _

theorem execMput_inForm (o : Ops) (w : W3) : Out.InForm (execMput o w s) := by
  unfold execMput
  refine issue_inForm h _ _ _ _ fun x S hS => Iss.finish_inForm (hS.forEach _ _ (fun T x' hT => ?_)) ..
  extract_lets
  split
  · exact hT.takeTrap ..
  split
  · exact hT.takeTrap ..
  · exact hT.updStream ..

/-! ### Translated code -/

theorem State.InForm.blockUse (b : Block) : (s.blockUse b).InForm := h.update ..

theorem State.InForm.niropUse (la pc : Nat) : (s.niropUse la pc).InForm := by
  unfold State.niropUse
  split
  · exact h.blockUse _
  · exact h

theorem State.InForm.blockPut (space : Nat) (hash word base place : Nat) : (s.blockPut space hash word base place).InForm := by
  unfold State.blockPut
  extract_lets e code va stale pa s1 cores b
  have put : s1.InForm := h.forEach _ _ fun s k hs => hs.unitPost _ _ fun S hS => hS.devPut ..
  refine put.of rfl rfl rfl rfl rfl rfl rfl fun kv hk => ?_
  obtain ⟨kv, hm, rfl⟩ := List.mem_map.1 hk
  exact put.book kv hm

theorem State.InForm.fetchFault (t gix : Nat) (tr : Trap) : (s.fetchFault t gix tr).InForm := by
  unfold State.fetchFault
  split
  · exact h.streamFetchFault ..
  split
  · exact h
  · exact (h.takeTraps ..).endIssue ..

theorem State.InForm.due (d : Due) : (s.due d).InForm := by
  unfold State.due
  split
  · exact h
  · exact h.update ..

theorem State.InForm.assistRead (t g va : Nat) (go : BitVec 256 → State → State) (hgo : ∀ x S, S.InForm → (go x S).InForm) :
    (s.assistRead t g va go).InForm := by
  unfold State.assistRead
  split
  next e => exact hgo _ _ ((h.blockRead ..).snd e)
  next e => exact ((h.blockRead ..).snd e).update ..
  next e => exact ((h.blockRead ..).snd e).fetchFault ..
  next e => exact ((h.blockRead ..).snd e).breach ..

theorem State.InForm.niropSlot (t g : Nat) (lanes : List Nat) (pc : Nat) : (s.niropSlot t g lanes pc).InForm := by
  unfold State.niropSlot
  extract_lets
  split
  · extract_lets S
    have hS : S.InForm := h.due _
    split
    · exact h.updGroup ..
    split
    · exact hS.update ..
    · exact (h.updGroup ..).blockUse _
  · exact h.assistRead _ _ _ _ fun _ _ hS => hS.assistRead _ _ _ _ fun _ _ hT => hT.updGroup ..

theorem State.InForm.blockBytes (t g : Nat) (vas : List Nat) (f : State → State) (hf : ∀ S, S.InForm → (f S).InForm) :
    (s.blockBytes t g vas f).InForm := by
  induction vas generalizing s with
  | nil => exact hf s h
  | cons va rest ih => exact h.assistRead _ _ _ _ fun _ S hS => ih hS

theorem State.InForm.blockPlace (space : Nat) : ∀ r, s.blockPlace space = some r → r.2.InForm := by
  intro r hr
  unfold State.blockPlace at hr
  split at hr
  · obtain ⟨b, -, rfl⟩ := Option.map_eq_some_iff.1 hr
    exact h.update ..
  · cases hr
    exact h.update ..

theorem execBlockTranslate_inForm (wing space : Nat) (hash word : Nat) : Out.InForm (execBlockTranslate wing space hash word s) := by
  unfold execBlockTranslate
  generalize s.blockPlace space = place
  split
  · exact .fault _
  split
  · exact .fault _
  · refine .next (h.blockBytes _ _ _ _ fun S hS => ?_)
    split
    next k T e => exact State.InForm.blockPut (hS.blockPlace _ _ e) ..
    · exact hS

theorem State.InForm.seqRun (t g : Nat) (lanes : List Nat) (pc base : Nat) (q : Nat × Nat × NSeq) : (s.seqRun t g lanes pc base q).InForm := by
  unfold State.seqRun
  extract_lets _ _ S T
  have hS : S.InForm := (h.niropUse ..).trialIssue ..
  have hT : T.InForm := by
    unfold T
    refine hS.forEach _ _ fun U x hU => ?_
    split
    · exact hU.updThread ..
    · exact hU.takeTrap ..
  split
  · split
    · exact h.update ..
    · exact (h.putWait ..).endRun ..
  · exact hT.endIssue ..

theorem execSpxcWrite_inForm (space : Nat) (value : DWord) : Out.InForm (execSpxcWrite space value s) := by
  unfold execSpxcWrite
  extract_lets _ _ _ S
  have hS : S.InForm := by
    unfold S
    split
    · exact h
    · exact h.update ..
  split
  · exact .next h
  split
  · exact .next h
  · exact .next (hS.updSpace ..)

/-! ### Fetching -/

theorem execFetchBlockFill_inForm (tid gix : Nat) : Out.InForm (execFetchBlockFill tid gix s) := by
  unfold execFetchBlockFill
  extract_lets
  split
  · exact .fault _
  extract_lets
  split
  · exact .fault _
  split
  · exact .fault _
  split
  next e' => exact .next (((h.codeRead ..).snd e').icachePut ..)
  next e' => exact .next ((h.codeRead ..).snd e')
  next e' =>
    refine .next ?_
    split
    · exact (h.codeRead ..).snd e'
    · exact ((h.codeRead ..).snd e').fetchFault ..
  next e' =>
    refine .next ?_
    split
    · exact (h.codeRead ..).snd e'
    · exact ((h.codeRead ..).snd e').breach ..

theorem State.InForm.parkPend (t g : Nat) (lanes : List Nat) : (s.parkPend t g lanes).InForm := (h.updGroup ..).servedLanes ..

theorem State.InForm.breakTake (t g : Nat) (hits : List Nat) : (s.breakTake t g hits).InForm := by
  unfold State.breakTake
  split
  · exact h.teamStop ..
  · exact h.forEach _ _ fun _ _ hS => hS.takeTrap ..

omit h in
theorem State.InForm.slotEnd {S : State} (h : S.InForm) (s : State) (t g pc : Nat) (i : Instr) : (s.slotEnd S t g pc i).InForm := by
  unfold State.slotEnd
  split
  · exact ((h.trialIssue ..).niropUse ..).updGroup ..
  · exact h.stallNote ..

theorem streamExec_inForm (i : Instr) : Out.InForm (streamExec i s) := by
  unfold streamExec
  split
  iterate 12 · exact cmdIssue_inForm h ..
  iterate 7 · exact control_inForm h ..
  · exact execMloop_inForm h _
  · exact execMjmp_inForm h _
  · exact execMend_inForm h _
  · exact .fault _

theorem execSequencerFetch_inForm (tid : Nat) : Out.InForm (execSequencerFetch tid s) := by
  unfold execSequencerFetch
  split
  · exact .fault _
  split
  · exact .fault _
  split
  · exact .next (h.due _)
  split
  next i _ =>
    have run : Out.InForm (streamExec i { s with turn := .stream tid }) := streamExec_inForm (h.update ..) i
    split
    next S e => exact .next (State.InForm.trialIssue (run.state e) ..)
    · exact run
  · exact .next (h.streamFetchFault ..)

/-! ### Lane exchange -/

theorem exchange_inForm (i : Iss) (named : List Nat) (body : State → State) (hbody : ∀ S, S.InForm → (body S).InForm) :
    (exchange i s named body).InForm := by
  unfold exchange
  extract_lets
  split
  · exact (h.putWait ..).endRun ..
  · exact hbody _ h

theorem Iss.medium_inForm (i : Iss) (regs : List (Nat × Nat × Word)) (preds : List (Nat × Nat × Bool)) :
    (Iss.medium i s regs preds).InForm := by
  unfold Iss.medium
  refine Iss.finish_inForm ?_ ..
  split
  · exact h
  · exact h.addPend _

theorem Iss.mediumS_inForm (i : Iss) (regs : List (Nat × Word)) (preds : List (Nat × Nat × Bool)) : (Iss.mediumS i s regs preds).InForm := by
  unfold Iss.mediumS
  refine Iss.medium_inForm ?_ ..
  split
  · exact h
  · exact h.addPend _

theorem lxch_inForm (k : LxKind) (o : Ops) (w pv : BitVec 3) : Out.InForm (lxch k o w pv s) := by
  unfold lxch
  extract_lets
  exact issue_inForm h _ _ _ _ fun _ _ hS => exchange_inForm hS _ _ _ fun _ hT => Iss.medium_inForm hT ..

theorem execLxchS_inForm (o : Ops) (pv : BitVec 3) : Out.InForm (execLxchS o pv s) := by
  unfold execLxchS
  refine issue_inForm h _ _ _ _ fun x S hS => ?_
  split
  · exact Iss.finish_inForm hS ..
  · exact exchange_inForm hS _ _ _ fun _ hT => Iss.mediumS_inForm hT ..

theorem masked_inForm (o : Ops) (u : Uses) (body : Iss → List Nat → State → State) (hbody : ∀ x y S, S.InForm → (body x y S).InForm) :
    Out.InForm (masked o u body s) := by
  unfold masked
  refine issue_inForm h _ _ _ _ fun x S hS => ?_
  split
  · exact Iss.finish_inForm hS ..
  · exact exchange_inForm hS _ _ _ fun _ hT => hbody _ _ _ hT

theorem lqry_inForm (o : Ops) (neg : Bool) (q : BitVec 3) (f : List Bool → Bool) : Out.InForm (lqry o neg q f s) :=
  masked_inForm h _ _ _ fun _ _ _ hS => Iss.medium_inForm hS ..

theorem execLgath_inForm (o : Ops) (sc rank neg : Bool) (q : BitVec 3) : Out.InForm (execLgath o sc rank neg q s) := by
  unfold execLgath
  refine masked_inForm h _ _ _ fun x x' S hS => ?_
  extract_lets
  split
  · exact Iss.mediumS_inForm hS ..
  · exact Iss.medium_inForm hS ..

theorem execMatch_inForm (o : Ops) (wide : Bool) : Out.InForm (execMatch o wide s) :=
  masked_inForm h _ _ _ fun _ _ _ hS => Iss.medium_inForm hS ..

theorem execRedl_inForm (o : Ops) (sc : Bool) (op : RedOp) (ty : IntTy) (sat : Bool) : Out.InForm (execRedl o sc op ty sat s) := by
  unfold execRedl
  refine masked_inForm h _ _ _ fun x x' S hS => ?_
  extract_lets
  split
  · exact Iss.mediumS_inForm hS ..
  · exact Iss.medium_inForm hS ..

theorem execRedlF_inForm (o : Ops) (op : FRedOp) (rnd : Rnd) : Out.InForm (execRedlF o op rnd s) := by
  unfold execRedlF
  refine masked_inForm h _ _ _ fun x x' S hS => ?_
  extract_lets _ _ _ _ T
  have hT : T.InForm := hS.updThread ..
  split
  · exact Iss.medium_inForm (hS.takeTrap ..) ..
  · exact Iss.medium_inForm hT ..

/-! ### Graphics words -/

theorem kindIssue_inForm (k : Kind) (o : Ops) (u : Uses) (body : Iss → State → State) (hbody : ∀ x S, S.InForm → (body x S).InForm) :
    Out.InForm (kindIssue k o u body s) := by
  unfold kindIssue
  refine issue_inForm h _ _ _ _ fun x S hS => ?_
  split
  · exact hbody _ _ hS
  · exact Iss.finish_inForm (hS.takeTraps ..) ..

theorem State.InForm.updMesh (t : Nat) (f : MeshOut → MeshOut) : (s.updMesh t f).InForm := h.updTeam ..

theorem State.InForm.overflowed (t : Nat) : (s.overflowed t).2.InForm := by
  unfold State.overflowed
  split
  · exact h
  · exact h.meshOver _

theorem meshLanes_inForm (i : Iss) (f : State → Nat → Option Trap × State) (hf : ∀ S x, S.InForm → (f S x).2.InForm) :
    (meshLanes i f s).InForm := by
  unfold meshLanes
  refine Iss.finish_inForm (h.forEach _ _ (fun S x hS => ?_)) ..
  split
  next e => exact ((hf _ _ hS).snd e).takeTrap ..
  next e => exact (hf _ _ hS).snd e

theorem msvtxIssue_inForm (n : Nat) (o : Ops) : Out.InForm (msvtxIssue n o s) := by
  unfold msvtxIssue
  refine kindIssue_inForm h _ _ _ _ fun x S hS => meshLanes_inForm hS _ _ fun T x' hT => ?_
  extract_lets
  split
  · exact hT
  split
  · exact hT.overflowed _
  dsimp only
  exact hT.updMesh ..

theorem execMsprim_inForm (o : Ops) : Out.InForm (execMsprim o s) := by
  unfold execMsprim
  refine kindIssue_inForm h _ _ _ _ fun x S hS => meshLanes_inForm hS _ _ fun T x' hT => ?_
  extract_lets
  split
  · exact hT.overflowed _
  dsimp only
  exact hT.updMesh ..

theorem execMscount_inForm (o : Ops) : Out.InForm (execMscount o s) := by
  unfold execMscount
  refine kindIssue_inForm h _ _ _ _ fun i S hS => ?_
  split
  · exact Iss.finish_inForm hS ..
  extract_lets r nv np x
  have within : x.2.InForm := by
    unfold x
    split
    · exact hS.overflowed _
    · exact hS
  clear_value x
  split
  · exact Iss.faultAll_inForm within ..
  · exact Iss.finish_inForm (State.InForm.updMesh within ..) ..

theorem derivIssue_inForm (y : Bool) (o : Ops) (fine : Bool) : Out.InForm (derivIssue y o fine s) :=
  issue_inForm h _ _ _ _ fun _ _ hS => exchange_inForm hS _ _ _ fun _ hT => Iss.medium_inForm (Iss.writeLanes_inForm hT ..) ..

theorem State.InForm.updExport (t l : Nat) (f : Export → Export) : (s.updExport t l f).InForm := h.updTeam ..

theorem execFragexp_inForm (o : Ops) : Out.InForm (execFragexp o s) := by
  unfold execFragexp
  refine kindIssue_inForm h _ _ _ _ fun x S hS => ?_
  extract_lets
  split
  · exact Iss.finish_inForm (hS.takeTraps ..) ..
  · exact Iss.finish_inForm (hS.forEach _ _ (fun _ _ hT => hT.updExport ..)) ..

theorem execFragexpZ_inForm (o : Ops) : Out.InForm (execFragexpZ o s) := by
  unfold execFragexpZ
  refine kindIssue_inForm h _ _ _ _ fun x S hS => ?_
  split
  · exact Iss.finish_inForm (hS.takeTraps ..) ..
  · exact Iss.finish_inForm (hS.forEach _ _ (fun _ _ hT => hT.updExport ..)) ..

theorem execFragkill_inForm (o : Ops) : Out.InForm (execFragkill o s) :=
  kindIssue_inForm h _ _ _ _ fun _ _ hS => Iss.finish_inForm (hS.forEach _ _ (fun _ _ hT => hT.updExport ..)) ..

theorem execRocbeg_inForm (o : Ops) : Out.InForm (execRocbeg o s) :=
  kindIssue_inForm h _ _ _ _ fun _ _ hS => Iss.finishWait_inForm (hS.takeTraps ..) ..

theorem execRocend_inForm (o : Ops) : Out.InForm (execRocend o s) :=
  kindIssue_inForm h _ _ _ _ fun _ _ hS => Iss.finish_inForm (hS.forEach _ _ (fun _ _ hT => hT.updThread ..)) ..

theorem execRocSectionEnter_inForm (tid gix wid : Nat) : Out.InForm (execRocSectionEnter tid gix wid s) := by
  unfold execRocSectionEnter
  split
  · extract_lets
    split
    · exact .fault _
    · exact .next (h.updGroup ..)
  · exact .fault _

theorem execRocTimeout_inForm (tid lane : Nat) : Out.InForm (execRocTimeout tid lane s) := by
  unfold execRocTimeout
  extract_lets _ S
  have hS : S.InForm := h.updGroup ..
  split
  · split
    · exact .fault _
    · exact .next (hS.takeTrap ..)
  · exact .fault _

theorem execRocPreemptTimeout_inForm (tid : Nat) : Out.InForm (execRocPreemptTimeout tid s) := by
  unfold execRocPreemptTimeout
  extract_lets
  split
  · exact .fault _
  · exact .next (h.updTeam ..)

theorem satomIssue_inForm (o : Ops) (p xy w64 : Bool) (op : AOp) (cas : Bool) (x : MemX) : Out.InForm (satomIssue o p xy w64 op cas x s) := by
  simp only [satomIssue]
  apply memIssue_inForm h
  · exact fun _ _ _ hS => hS.surfLane ..
  · exact fun _ _ _ hS => hS

/-! ### Host memory -/

theorem State.InForm.hostInv (pa n : Nat) : (s.hostInv pa n).InForm := by
  unfold State.hostInv
  refine h.forEach _ _ fun S x hS => ?_
  split
  · exact (hS.overtake ..).l1Inv ..
  · exact hS

theorem State.InForm.hostPut (pa : Nat) (bs : List Byte) : (s.hostPut pa bs).InForm := by
  unfold State.hostPut
  extract_lets n x line replica S
  have copied (die : Nat) {T : State} (hT : T.InForm) : (replica die T).InForm := by
    unfold replica
    split
    · exact hT
    · exact hT.update ..
  have hS : S.InForm := by
    unfold S
    split
    · exact h.rowWrite ..
    split
    · exact copied 0 (copied 1 (h.rowWrite ..))
    · exact (h.homeWrite ..).hostInv ..
  split
  · exact h
  split
  · exact hS.unitWritten _
  · exact hS

theorem State.InForm.hostServe (r : HostReq) : (s.hostServe r).InForm := by
  unfold State.hostServe
  split
  · exact h.update ..
  · exact h.hostPut ..

theorem execHostMemRead_inForm (pa : Nat) : Out.InForm (execHostMemRead pa s) := by
  unfold execHostMemRead
  extract_lets
  split
  · exact .fault _
  split
  · exact .next (h.update ..)
  split
  · exact .next (h.update ..)
  · exact .next (h.hostServe _)

theorem execHostMemWrite_inForm (pa : Nat) (data : List Byte) : Out.InForm (execHostMemWrite pa data s) := by
  unfold execHostMemWrite
  extract_lets
  split
  · exact .fault _
  split
  · exact .next h
  split
  · exact .next (h.update ..)
  · exact .next (h.hostPut ..)

theorem execBiasctlWrite_inForm (value : DWord) : Out.InForm (execBiasctlWrite value s) := by
  unfold execBiasctlWrite
  extract_lets
  split
  · exact .next h
  split
  · exact .next h
  · exact .next (h.update ..)

theorem State.InForm.flipDone (st : Nat) : (s.flipDone st).InForm := (h.update ..).msiRaise _

theorem execBiasflipGo_inForm (value : DWord) : Out.InForm (execBiasflipGo value s) := by
  unfold execBiasflipGo
  extract_lets _ _ _ _ S
  have hS : S.InForm := h.update ..
  split
  · exact .next h
  split
  · exact .next h
  split
  · exact .next (hS.flipDone _)
  split
  · exact .next (hS.flipDone _)
  · exact .next (hS.update ..)

theorem State.InForm.flipLine (line : Nat) : (s.flipLine line).InForm := by
  unfold State.flipLine
  extract_lets S _ T
  have hS : S.InForm := h.forEach _ _ fun _ _ hU => hU.forEach _ _ fun _ _ hV => ((hV.mergeLine _).l1Drop ..).overtake ..
  have hT : T.InForm := hS.update ..
  split
  · exact hT
  · exact (hT.dramWriteLine ..).update ..

theorem State.InForm.flipResume (id : Nat) (a : Access) : (s.flipResume id a).InForm := by
  unfold State.flipResume
  extract_lets _ r
  have hr : r.2.InForm := h.byClass ..
  split
  · exact h.update ..
  split
  · refine h.serve _ _ _ _ _ (fun _ hS => hS.devGet ..) fun S x hS => ?_
    extract_lets T
    have hT : T.InForm := hS.devPut ..
    split
    · exact hT.devSound ..
    · exact hT
  · exact hr.settle ..

theorem execBiasFlipComplete_inForm : Out.InForm (execBiasFlipComplete s) := by
  unfold execBiasFlipComplete
  extract_lets _ S _ _ T U V
  have hS : S.InForm := by
    unfold S
    split
    · exact h.forEach _ _ fun _ _ hW => hW.flipLine _
    · exact h
  have hT : T.InForm := by
    unfold T
    split
    · exact hS.pokeBytes ..
    · exact hS
  have hU : U.InForm := hT.flipDone _
  have hV : V.InForm := hU.forEach _ _ fun _ _ hW => hW.flipResume ..
  split
  · exact .fault _
  · exact .next ((hV.update ..).forEach _ _ (fun _ _ hW => hW.hostServe _))

theorem execBirspi_inForm (unit : Nat) : Out.InForm (execBirspi unit s) := by
  unfold execBirspi
  extract_lets
  split
  · refine .next ((h.update ..).serve _ _ _ _ _ (fun _ hS => hS.rowRead ..) (fun S x' hS => ?_))
    extract_lets T
    have hT : T.InForm := (hS.rowWrite ..).unitStored _
    split
    · exact hT.setPoison ..
    · exact hT
  split
  next e' => exact .next (h.walkSnooped _ _ e')
  split
  · exact .next (h.update ..)
  · exact .fault _

theorem execHPathCompletion_inForm (acc : Nat) (data : List Byte) (poisoned : Bool) :
    Out.InForm (execHPathCompletion acc data poisoned s) := by
  simp only [execHPathCompletion]
  split
  · exact .fault _
  split
  · exact .fault _
  split
  · exact .next (h.failAcc ..)
  · refine .next (State.InForm.serve (s := ite _ _ _) ?_ _ _ _ _ _ (fun S hS => hS) fun S x hS => ?_)
    · split
      · exact h.hPut ..
      · exact h
    · have put := hS.hPut
      split
      · exact (put ..).hMark ..
      split
      · exact (put ..).hMark ..
      · exact put ..

theorem execCxlCompletionTimeout_inForm (acc : Nat) : Out.InForm (execCxlCompletionTimeout acc s) := by
  unfold execCxlCompletionTimeout
  split
  · exact .fault _
  refine .next (State.InForm.logEvent ?_ ..)
  split
  · exact h.finishAcc ..
  next c => exact h.failAcc ..

theorem execUcieUncorrectableError_inForm : Out.InForm (execUcieUncorrectableError s) :=
  .next (((h.forEach _ _ (fun _ _ hS => hS.endGrid ..)).logEvent ..).msiRaise _)

/-- The module's registers change, the log, the clock and the power cap aside. -/
theorem State.InForm.setMgmt (m : Mgmt)
    (e : m.log = s.mgmt.log ∧ m.cclkMhz = s.mgmt.cclkMhz ∧ m.cap = s.mgmt.cap) : ({ s with mgmt := m } : State).InForm :=
  ⟨h.dram, h.host, h.peer, h.sdie, h.book, e.1 ▸ h.log, e.2.1 ▸ h.cclk, e.2.2 ▸ h.cap, h.ratio, h.ring⟩

/-- The registers of the ring change, and its size is one of R299. -/
theorem State.InForm.setRing (r : Ring) (size : r.logn ≤ 11) : ({ s with ring := r } : State).InForm :=
  ⟨h.dram, h.host, h.peer, h.sdie, h.book, h.log, h.cclk, h.cap, h.ratio, size⟩

/-! ### Management -/

theorem State.InForm.cleared (powered : Bool) : (s.cleared powered).InForm :=
  ⟨rfl, h.host, h.peer, rfl, nofun, h.log, reset_inForm.cclk, reset_inForm.cap, .inl rfl, reset_inForm.ring⟩

theorem State.InForm.resetModule : s.resetModule.InForm := by
  unfold State.resetModule
  extract_lets S _ T
  have hS : S.InForm := h.cleared _
  have hT : T.InForm := hS.update ..
  split
  · exact hS
  · exact (hT.setDomain ..).updWing ..

theorem execModuleReset_inForm : Out.InForm (execModuleReset s) := .next h.resetModule

theorem execModulePowerLoss_inForm : Out.InForm (execModulePowerLoss s) := .next (h.cleared _)

theorem State.InForm.bringupFail : s.bringupFail.InForm := ((h.update ..).logEvent ..).msiRaise _

theorem State.InForm.bringupDo (found : List Nat) : (s.bringupDo found).InForm := by
  unfold State.bringupDo
  extract_lets b bad down peers S
  split
  · exact h.setDomain ..
  · exact h.updWing ..
  · split
    · exact h
    · exact (h.update ..).logEvent ..
  · exact h.update ..
  · split
    · exact h.update ..
    · exact (h.update ..).logEvent ..
  · exact ⟨h.dram, h.host, h.peer, rfl, h.book, h.log, h.cclk, h.cap, h.ratio, h.ring⟩
  · exact ⟨rfl, h.host, h.peer, h.sdie, h.book, h.log, h.cclk, h.cap, h.ratio, h.ring⟩
  · exact h

theorem State.InForm.bringupNext : s.bringupNext.InForm := by
  unfold State.bringupNext
  extract_lets
  split
  · exact h.update ..
  split
  · exact (h.update ..).msiRaise _
  · exact h.update ..

theorem execBringupStepComplete_inForm (ok : Bool) (found : List Nat) : Out.InForm (execBringupStepComplete ok found s) := by
  unfold execBringupStepComplete
  extract_lets
  split
  · exact .fault _
  split
  · exact .next (h.update ..)
  split
  · exact .next h.bringupFail
  split
  · exact .next ((h.update ..).bringupFail)
  · exact .next ((h.bringupDo _).bringupNext)

theorem State.InForm.holdBeyond : s.holdBeyond.InForm := h.update ..

theorem execClockRatioChange_inForm (ratio : Nat) : Out.InForm (execClockRatioChange ratio s) := by
  unfold execClockRatioChange
  split
  · exact .fault _
  next known =>
    split
    · exact .next ⟨h.dram, h.host, h.peer, h.sdie, h.book, h.log, h.cclk, h.cap, by simpa [or_iff_not_imp_left] using known, h.ring⟩
    split
    · exact .next (h.holdBeyond.update ..)
    · exact .fault _

theorem State.InForm.cclkChanged : s.cclkChanged.InForm := h.update ..

theorem execPowerManagementTick_inForm (temps : List Nat) (ivrs : IvrSample) (coolant : CoolantSample) :
    Out.InForm (execPowerManagementTick temps ivrs coolant s) := by
  unfold execPowerManagementTick
  extract_lets currents volts coolTemp coolFlow m steps hot allowed hotFor out clock S T
  split
  · exact .fault _
  · obtain ⟨lo, hi, -⟩ := tickClock_bounds (Config.capClock s.free m.cap currents volts) m.cclkMhz hot
    have told : S.InForm := by
      unfold S
      split
      · exact h
      · exact h.cclkChanged
    have sampled : T.InForm := ⟨told.dram, told.host, told.peer, told.sdie, told.book, h.log, ⟨lo, hi⟩, h.cap, told.ratio, told.ring⟩
    split
    · exact .next (sampled.logEvent ..)
    · exact .next sampled

theorem execThermalTrip_inForm : Out.InForm (execThermalTrip s) := by
  unfold execThermalTrip
  split
  · exact .fault _
  · exact .next ((h.logEvent ..).cleared _)

theorem execIvrOvercurrent_inForm (die k : Nat) : Out.InForm (execIvrOvercurrent die k s) := execDomainOff_inForm (h.logEvent ..) ..

theorem State.InForm.mbPut (bs : List Byte) : (s.mbPut bs).InForm := h.setMgmt _ (by exact ⟨rfl, rfl, rfl⟩)

theorem State.InForm.mbDone (st : Nat) : (s.mbDone st).InForm := (h.setMgmt _ (by exact ⟨rfl, rfl, rfl⟩)).msiRaise 5

theorem State.InForm.mbctlWrite (value : DWord) : (s.mbctlWrite value).InForm := by
  unfold State.mbctlWrite
  split
  · exact h
  · exact h.setMgmt _ (by exact ⟨rfl, rfl, rfl⟩)

theorem mbStep_inForm (cmd : Nat) (f : State → Out) (hf : ∀ S, S.InForm → Out.InForm (f S)) : Out.InForm (mbStep cmd s f) := by
  unfold mbStep
  split
  · exact .fault _
  split
  · exact .next ((h.update ..).mbDone _)
  · exact hf _ h

theorem execSensors_inForm : Out.InForm (execSensors s) := mbStep_inForm h _ _ fun _ hS => .next ((hS.mbPut _).mbDone _)

theorem execLogread_inForm : Out.InForm (execLogread s) := mbStep_inForm h _ _ fun _ hS => .next ((hS.mbPut _).mbDone _)

theorem execPowercap_inForm : Out.InForm (execPowercap s) := by
  refine mbStep_inForm h 3 _ fun S hS => ?_
  simp only
  split
  · exact .next (hS.mbDone _)
  next cap =>
    have capped : ({ S with mgmt := { S.mgmt with cap := Config.capOf S.mbBytes } } : State).InForm :=
      ⟨hS.dram, hS.host, hS.peer, hS.sdie, hS.book, hS.log, hS.cclk, by simpa using cap, hS.ratio, hS.ring⟩
    exact .next (capped.mbDone _)

theorem execKeyset_inForm : Out.InForm (execKeyset s) := by
  unfold execKeyset
  refine mbStep_inForm h _ _ fun S hS => ?_
  extract_lets
  split
  · exact .next (hS.mbDone _)
  · exact .next ((hS.update ..).mbDone _)

theorem State.InForm.fwDrop (st : Nat) : (s.fwDrop st).InForm := (h.setMgmt _ (by exact ⟨rfl, rfl, rfl⟩)).mbDone st

theorem State.InForm.fwTake (img : List Byte) (total : Nat) (last : Bool) : (s.fwTake img total last).InForm := by
  unfold State.fwTake
  extract_lets m S
  have kept : S.InForm := h.setMgmt _ (by exact ⟨rfl, rfl, rfl⟩)
  split
  · exact kept.mbDone _
  split
  · exact kept.fwDrop _
  split
  · exact kept.fwDrop _
  · exact kept.setMgmt _ (by exact ⟨rfl, rfl, rfl⟩)

theorem State.InForm.fwWritten : s.fwWritten.InForm := by
  unfold State.fwWritten
  extract_lets img m S
  have written : S.InForm := (h.setMgmt _ (by exact ⟨rfl, rfl, rfl⟩)).mbDone _
  split
  · exact written.resetModule
  · exact written

theorem execFwload_inForm : Out.InForm (execFwload s) := by
  unfold execFwload
  refine mbStep_inForm h _ _ fun S hS => ?_
  extract_lets
  split
  · exact .next hS.fwWritten
  split
  · exact .next (hS.mbDone _)
  split
  · exact .next (hS.fwDrop _)
  split
  · exact .next (hS.fwDrop _)
  split
  · refine .next ?_
    split
    · exact hS.fwDrop _
    · exact hS.fwTake ..
  split
  · exact .next (hS.mbDone _)
  refine .next ?_
  split
  · exact hS.fwDrop _
  · exact hS.fwTake ..

theorem execSpdm_inForm : Out.InForm (execSpdm s) := by
  refine mbStep_inForm h 6 _ fun S hS => ?_
  simp only
  split
  · exact .next ((hS.mbPut _).mbDone _)
  split
  · exact .next (hS.mbDone _)
  · exact .next (((hS.setMgmt _ (by exact ⟨rfl, rfl, rfl⟩)).mbPut _).mbDone _)

theorem execMailboxBadcmd_inForm (cmd : Nat) : Out.InForm (execMailboxBadcmd cmd s) := by
  unfold execMailboxBadcmd
  split
  · exact .fault _
  · exact mbStep_inForm h _ _ fun _ hS => .next (hS.mbDone _)

theorem execScratchpadSlotGrant_inForm (core bank : Nat) : Out.InForm (execScratchpadSlotGrant core bank s) := by
  unfold execScratchpadSlotGrant
  split
  · exact .fault _
  · exact .next h

/-! ### The porter and disposal -/

theorem raiseIssue_inForm (o : Ops) (u : Uses) (tr : State → Iss → Nat → Trap) : Out.InForm (raiseIssue o u tr s) :=
  issue_inForm h _ _ _ _ fun _ _ hS => Iss.finish_inForm (hS.forEach _ _ (fun _ _ hT => hT.takeTrap ..)) ..

theorem execBkpt_inForm (o : Ops) : Out.InForm (execBkpt o s) := by
  unfold execBkpt
  refine issue_inForm h _ _ _ _ fun x S hS => ?_
  extract_lets
  split
  · split
    · exact Iss.finish_inForm hS ..
    · exact hS.teamStop ..
  · exact Iss.finish_inForm (hS.forEach _ _ (fun _ _ hT => hT.takeTrap ..)) ..

theorem State.InForm.porterSleep (core t : Nat) : (s.porterSleep core t).InForm := (h.updCore_book _ _ fun _ => by rfl).update ..

theorem execPorterWake_inForm (core : Nat) : Out.InForm (execPorterWake core s) := by
  unfold execPorterWake
  extract_lets S
  have hS : S.InForm := by
    unfold S
    split
    · exact h.porterSleep ..
    · exact h
  split
  · exact .fault _
  split
  · exact .fault _
  · exact .next ((hS.updCore_le _ _ (fun _ => (List.length_map _).le)).update ..)

theorem execRtt_inForm (o : Ops) : Out.InForm (execRtt o s) := by
  unfold execRtt
  refine issue_inForm h _ _ _ _ fun x S hS => ?_
  split
  · exact Iss.finish_inForm hS ..
  · exact hS.porterSleep ..

theorem State.InForm.threadResume (c : Nat) (e : GbEntry) (skip : Bool) : (s.threadResume c e skip).InForm := by
  unfold State.threadResume
  extract_lets _ _ _ _ S T n U
  have hS : S.InForm := by
    unfold S
    split
    · exact h
    · exact h.updThread ..
  have hT : T.InForm := hS.updThread ..
  have hn : n.2.InForm := hT.skipLen ..
  have hU : U.InForm := by
    unfold U
    split
    · exact hT
    split
    · exact hn.updThread ..
    · exact hT.updThread ..
  split
  · exact hS
  split
  · exact hU.makeReady ..
  · exact hU

theorem State.InForm.threadKillGroup (c t g : Nat) : (s.threadKillGroup c t g).InForm := by
  unfold State.threadKillGroup
  extract_lets S
  have hS : S.InForm := (h.killGroup ..).unhold ..
  exact hS.updCore_le _ _ fun _ => List.length_filter_le _ _

theorem State.InForm.dispose (c : Nat) (e : GbEntry) (d : Disp) : (s.dispose c e d).InForm := by
  unfold State.dispose
  refine State.InForm.bookFree ?_ ..
  split
  · split
    · exact h.threadResume ..
    · exact h.threadResume ..
    · exact h.killThread ..
    · exact h.threadKillGroup ..
  split
  · split
    · exact h.streamResume ..
    · exact h.streamSkip ..
    · exact h.streamKill _
  split
  · split
    · exact h.copyResume _
    · exact h.copyKill _
  · exact h

theorem State.InForm.skipReady (e : GbEntry) : (s.skipReady e).2.InForm := by
  unfold State.skipReady
  extract_lets
  split
  · exact h
  · exact h.skipFetch ..

theorem disposeIssue_inForm (o : Ops) (f : State → Nat → GbEntry → State) (ready : State → GbEntry → Bool × State)
    (hf : ∀ S x y, S.InForm → (f S x y).InForm) (hready : ∀ S x, S.InForm → (ready S x).2.InForm) : Out.InForm (disposeIssue o f s
      ready) := by
  unfold disposeIssue
  refine onceIssue_inForm h _ _ _ _ _ fun x x' S hS => ?_
  split
  · exact Iss.finish_inForm (hS.writeS ..) ..
  split
  next e2 => exact Iss.finish_inForm (hf _ _ _ (((hready _ _ hS).snd e2).writeS ..)) ..
  next e2 => exact ((hready _ _ hS).snd e2).update ..

theorem execResume_inForm (o : Ops) : Out.InForm (execResume o s) :=
  disposeIssue_inForm h _ _ _ (fun _ _ _ hS => hS.dispose ..) fun _ _ hS => hS

theorem execResumeSkip_inForm (o : Ops) : Out.InForm (execResumeSkip o s) :=
  disposeIssue_inForm h _ _ _ (fun _ _ _ hS => hS.dispose ..) fun _ _ hS => hS.skipReady _

theorem execKillt_inForm (o : Ops) : Out.InForm (execKillt o s) :=
  disposeIssue_inForm h _ _ _ (fun _ _ _ hS => hS.dispose ..) fun _ _ hS => hS

theorem execKilltG_inForm (o : Ops) : Out.InForm (execKilltG o s) :=
  disposeIssue_inForm h _ _ _ (fun _ _ _ hS => hS.dispose ..) fun _ _ hS => hS

theorem execHaltt_inForm (o : Ops) : Out.InForm (execHaltt o s) :=
  disposeIssue_inForm h _ _ _ (fun _ _ _ hS => hS.endGrid ..) fun _ _ hS => hS

theorem execGbread_inForm (o : Ops) (q : BitVec 3) : Out.InForm (execGbread o q s) := by
  unfold execGbread
  refine onceIssue_inForm h _ _ _ _ _ fun x x' S hS => ?_
  extract_lets
  split
  · exact Iss.finish_inForm (hS.addPend _) ..
  · exact Iss.finish_inForm (((hS.updCore_le _ _ (fun _ => (List.length_map _).le)).addPend _).addPend _) ..

theorem State.InForm.patchSel (e : GbEntry) (sel : Nat) (x : Word) : ∀ r, s.patchSel e sel x = some r → r.InForm := by
  intro r e
  unfold State.patchSel at e
  extract_lets t g l at e
  split at e
  · cases e; exact h.writeV ..
  split at e
  · cases e; exact h.writeS ..
  split at e
  · cases e; exact h.updThread ..
  split at e
  · split at e
    · cases e
    · cases e; exact h.updThread ..
  split at e
  · split at e
    · cases e; exact h.updThread ..
    · cases e
  · cases e; exact h.updGroup ..

theorem execPkrd_inForm (o : Ops) : Out.InForm (execPkrd o s) := by
  unfold execPkrd
  refine onceIssue_inForm h _ _ _ _ _ fun x x' S hS => ?_
  extract_lets
  split
  · exact Iss.faultAll_inForm hS ..
  split
  · exact Iss.finish_inForm (hS.scalPend ..) ..
  split
  · exact Iss.finish_inForm (hS.scalPend ..) ..
  · exact Iss.faultAll_inForm hS ..

theorem execPkwr_inForm (o : Ops) : Out.InForm (execPkwr o s) := by
  unfold execPkwr
  refine onceIssue_inForm h _ _ _ _ _ fun i l S hS => ?_
  extract_lets sel
  split
  · exact Iss.faultAll_inForm hS ..
  split
  · exact Iss.finish_inForm (hS.writeS ..) ..
  split
  next T e =>
    obtain ⟨-, e⟩ := Option.ite_none_right_eq_some.1 e
    exact Iss.finish_inForm (State.InForm.writeS (hS.patchSel _ _ _ T e) ..) ..
  · exact Iss.faultAll_inForm hS ..

theorem hostDispose_inForm (core seq : Nat) (f : GbEntry → State) (hf : ∀ x, (f x).InForm) : Out.InForm (hostDispose core seq f s) := by
  unfold hostDispose
  split
  · exact .next h
  split
  · exact .next h
  · exact .next (hf _)

theorem execHostResume_inForm (core seq : Nat) : Out.InForm (execHostResume core seq s) := hostDispose_inForm h _ _ _ fun _ => h.dispose ..

theorem execHostResumeSkip_inForm (core seq : Nat) : Out.InForm (execHostResumeSkip core seq s) := by
  unfold execHostResumeSkip
  refine hostDispose_inForm h _ _ _ fun x => ?_
  split
  next e => exact ((h.skipReady _).snd e).dispose ..
  next e => exact ((h.skipReady _).snd e).update ..

theorem execHostKillt_inForm (core seq : Nat) : Out.InForm (execHostKillt core seq s) := hostDispose_inForm h _ _ _ fun _ => h.dispose ..

theorem execHostKilltG_inForm (core seq : Nat) : Out.InForm (execHostKilltG core seq s) := hostDispose_inForm h _ _ _ fun _ => h.dispose ..

theorem execHostEndGrid_inForm (core seq : Nat) : Out.InForm (execHostEndGrid core seq s) :=
  hostDispose_inForm h _ _ _ fun _ => h.endGrid ..

theorem gbpkOp_inForm (core seq sel op : Nat) (f : State → GbEntry → Option State) (hf : ∀ S x, S.InForm → ∀ r, f S x = some r → r.InForm) :
    Out.InForm (gbpkOp core seq sel op f s) := by
  unfold gbpkOp
  extract_lets done
  have told {T : State} (hT : T.InForm) (st : Nat) : Out.InForm (done T st) := .next (hT.updCore_book _ _ fun _ => by rfl)
  split
  · exact .next h
  split
  · exact told h 1
  split
  next T e =>
    obtain ⟨-, e⟩ := Option.ite_none_right_eq_some.1 e
    exact told (hf _ _ h T e) 0
  · exact told h 2

theorem execGbpkRead_inForm (core seq sel : Nat) : Out.InForm (execGbpkRead core seq sel s) :=
  gbpkOp_inForm h _ _ _ _ _ fun _ _ hS r e => by
    cases e
    exact hS.updCore_book _ _ fun _ => by rfl

theorem execGbpkWrite_inForm (core seq sel : Nat) : Out.InForm (execGbpkWrite core seq sel s) :=
  gbpkOp_inForm h _ _ _ _ _ fun _ _ hS _ e => hS.patchSel _ _ _ _ e

theorem execGbstatClear_inForm (core : Nat) (value : DWord) : Out.InForm (execGbstatClear core value s) := by
  unfold execGbstatClear
  split
  · exact .next h
  refine .next ?_
  split
  · exact h.updCore_book _ _ fun _ => by rfl
  · exact h

/-! ### The ring -/

theorem execHrctlWrite_inForm (value : DWord) : Out.InForm (execHrctlWrite value s) := by
  unfold execHrctlWrite
  extract_lets x en
  split
  · exact .next h
  split
  · refine .next (State.InForm.setRing (s := ite _ _ _) ?_ _ h.ring)
    split
    · exact h
    · exact h.engDrop _
  split
  · exact .next h
  next size => exact .next (h.setRing _ (by simpa using Nat.le_of_lt_succ (Nat.lt_of_not_le size)))

theorem execRingDoorbell_inForm (value : DWord) : Out.InForm (execRingDoorbell value s) := by
  unfold execRingDoorbell
  split
  · exact .next h
  split
  · exact .next h
  · exact .next (h.setRing _ h.ring)

theorem State.InForm.ringPass : s.ringPass.InForm := h.setRing _ h.ring

theorem ringStep_inForm (op : Nat) (f : State → Nat → Out) (hf : ∀ S x, S.InForm → Out.InForm (f S x)) : Out.InForm (ringStep op s f) := by
  unfold ringStep
  split
  · exact .fault _
  split
  · exact .fault _
  · exact hf _ _ h.ringPass

theorem execRingNop_inForm : Out.InForm (execRingNop s) := ringStep_inForm h _ _ fun _ _ hS => .next hS

theorem State.InForm.recUnit (pa : Nat) : (s.recUnit pa).2.InForm := h.unitAt _ _ fun _ hS => hS

theorem State.InForm.recUnits (pa n : Nat) : (s.recUnits pa n).2.InForm := by
  induction n generalizing s pa with
  | zero => exact h
  | succ n ih => exact ih (h.recUnit pa) _

theorem State.InForm.recordAt (pa : Nat) : (s.recordAt pa).2.InForm := by
  unfold State.recordAt
  split
  next e => exact (h.recUnits ..).snd e
  next e =>
    split
    next e' => exact (((h.recUnits ..).snd e).recUnits ..).snd e'
    next e' =>
      extract_lets U
      have hU : U.InForm := ((((h.recUnits ..).snd e).recUnits ..).snd e').engDrop _
      split
      · exact hU.update ..
      · exact hU

theorem execRingLaunch_inForm : Out.InForm (execRingLaunch s) := by
  unfold execRingLaunch
  split
  · exact .fault _
  split
  · exact .fault _
  split
  next e' => exact .next ((h.recordAt _).snd e')
  next e' => exact .next ((((h.recordAt _).snd e').ringPass).enqueue ..)

theorem execRingTlbi_inForm : Out.InForm (execRingTlbi s) := ringStep_inForm h _ _ fun _ _ hS => .next (hS.shootStart _)

theorem execRingCancel_inForm : Out.InForm (execRingCancel s) := by
  unfold execRingCancel
  refine ringStep_inForm h _ _ fun S x hS => .next (State.InForm.completionRecord ?_ ..)
  split
  · exact hS
  extract_lets
  split
  · exact hS.failLaunch ..
  · exact hS.endGrid ..

theorem execRingUnknownOp_inForm : Out.InForm (execRingUnknownOp s) := by
  unfold execRingUnknownOp
  split
  · exact .fault _
  split
  · exact .next (h.ringPass.logEvent ..)
  · exact .fault _

theorem execQcfgWrite_inForm (n : Nat) (value : DWord) : Out.InForm (execQcfgWrite n value s) := by
  unfold execQcfgWrite
  extract_lets
  split
  · exact .next h
  split
  · exact .next h
  · exact .next (h.updQueue ..)

theorem execSprootWrite_inForm (space : Nat) (value : SpaceSetup) : Out.InForm (execSprootWrite space value s) := by
  unfold execSprootWrite
  extract_lets _ S
  have hS : S.InForm := by
    unfold S
    split
    · exact h
    · exact h.updSpace ..
  split
  · exact .next h
  split
  · exact .next hS
  · exact .next (hS.updSpace ..)

theorem execSpwingWrite_inForm (space : Nat) (value : DWord) : Out.InForm (execSpwingWrite space value s) := by
  unfold execSpwingWrite
  split
  · exact .next h
  split
  · exact .next h
  · exact .next (h.updSpace ..)

theorem execSpsaveWrite_inForm (space : Nat) (value : DWord) : Out.InForm (execSpsaveWrite space value s) := by
  unfold execSpsaveWrite
  split
  · exact .next h
  split
  · exact .next h
  · exact .next (h.updSpace ..)

/-! ### The register file of the module -/

theorem ignoreUnless_inForm {o : Out} (ho : o.InForm) : (ignoreUnless s o).InForm := by
  unfold ignoreUnless
  split
  · exact ho
  · exact .next h

theorem execIntlvWrite_inForm (n : Nat) (value : DWord) : Out.InForm (execIntlvWrite n value s) := by
  unfold execIntlvWrite
  extract_lets _ _ _ S
  have hS : S.InForm := h.update ..
  split
  · exact .next h
  split
  · exact .next (h.update ..)
  · exact .next (hS.initReserve _)

theorem State.InForm.biasflipWrite (value : DWord) : Out.InForm (s.biasflipWrite value) := by
  unfold State.biasflipWrite
  extract_lets
  split
  · exact execBiasflipGo_inForm h _
  split
  · exact .next h
  · exact .next (h.update ..)

theorem State.InForm.dbgreqWrite (value : DWord) : Out.InForm (s.dbgreqWrite value) := by
  unfold State.dbgreqWrite
  extract_lets
  split
  · exact .next h
  split
  · exact execDbgreqStop_inForm h ..
  · exact execDbgreqResume_inForm h ..
  · exact execDbgreqStep_inForm h ..
  · exact execDbgreqPreempt_inForm h ..
  · exact execDbgreqDump_inForm h ..
  · exact .next h

theorem State.InForm.lgrantWrite (die : Nat) (value : DWord) : Out.InForm (s.lgrantWrite die value) := by
  unfold State.lgrantWrite
  extract_lets
  split
  · exact .next h
  split
  · split
    · exact ignoreUnless_inForm h (execLgrantReleaseAck_inForm h ..)
    · exact ignoreUnless_inForm h (execLgrantGranted_inForm h ..)
  · exact ignoreUnless_inForm h (execLgrantRefused_inForm h ..)
  · exact .next h

theorem State.InForm.gbdispWrite (c : Nat) (value : DWord) : Out.InForm (s.gbdispWrite c value) := by
  unfold State.gbdispWrite
  extract_lets
  split
  · exact .next h
  split
  · exact execHostResume_inForm h ..
  · exact execHostResumeSkip_inForm h ..
  · exact execHostKillt_inForm h ..
  · exact execHostKilltG_inForm h ..
  · exact execHostEndGrid_inForm h ..
  · exact .next h

theorem State.InForm.gbpkWrite (c : Nat) (value : DWord) : Out.InForm (s.gbpkWrite c value) := by
  unfold State.gbpkWrite
  extract_lets
  split
  · exact execGbpkWrite_inForm h ..
  · exact execGbpkRead_inForm h ..

theorem State.InForm.spdbgWrite (n : Nat) (value : DWord) : (s.spdbgWrite n value).InForm := by
  unfold State.spdbgWrite
  split
  · exact h
  · exact h.updSpace ..

theorem State.InForm.mbdataWrite (at_ size : Nat) (value : DWord) : (s.mbdataWrite at_ size value).InForm :=
  h.setMgmt _ (by exact ⟨rfl, rfl, rfl⟩)

theorem State.InForm.msixWrite (w : Nat) (value : DWord) : (s.msixWrite w value).InForm := h.update ..

theorem State.InForm.regWrite (r : Reg) (value : DWord) : Out.InForm (s.regWrite r value) := by
  unfold State.regWrite
  split
  · exact .next (h.mbctlWrite _)
  · exact .next (h.mbdataWrite ..)
  · exact execBiasctlWrite_inForm h _
  · exact h.biasflipWrite _
  · exact h.dbgreqWrite _
  · exact execHrctlWrite_inForm h _
  · exact execRingDoorbell_inForm h _
  · exact h.lgrantWrite ..
  · exact execIntlvWrite_inForm h ..
  · exact execQcfgWrite_inForm h ..
  · exact execSprootWrite_inForm h ..
  · exact execSpwingWrite_inForm h ..
  · exact execSpsaveWrite_inForm h ..
  · exact execSpxcWrite_inForm h ..
  · exact .next (h.spdbgWrite ..)
  · exact execSptrialWrite_inForm h ..
  · split
    · exact .next h
    · exact .next (h.updSpace ..)
  · split
    · exact .next h
    · exact .next (h.updSpace ..)
  · exact execGbstatClear_inForm h ..
  · exact h.gbdispWrite ..
  · exact h.gbpkWrite ..
  · exact .next (h.updCore_book _ _ fun _ => by rfl)
  · exact .next (h.msixWrite ..)
  iterate 9 · exact .next h

theorem execRegisterWrite_inForm (at_ : RegAt) (value : DWord) : Out.InForm (execRegisterWrite at_ value s) := by
  unfold execRegisterWrite
  extract_lets
  split
  · exact .next h
  split
  · exact .next h
  split
  · split
    · exact .next (h.mbdataWrite ..)
    · exact .next h
  · exact h.regWrite ..

/-! ### Textures -/

theorem texLane_inForm (d : TexDesc) (plan : TexPlan) (i : Iss) (l : Nat) : (texLane d plan i s l).2.InForm := by
  unfold texLane
  extract_lets _ _ _ _ _ _ S r T
  have hS : S.InForm := h.update ..
  have hr : r.2.InForm := by
    unfold r
    refine hS.foldl_snd _ _ fun x a hS1 => ?_
    extract_lets U
    have hU : U.InForm := hS1
    split
    · exact hS1
    · exact hS1
    next c _ =>
      split
      · exact hU.texDrop _
      split
      next e' => exact ((hU.startAcc ..).snd e').texPut ..
      next e' => exact (hU.startAcc ..).snd e'
      next e' => exact ((hU.startAcc ..).snd e').texDrop _
      next e' => exact ((hU.startAcc ..).snd e').texDrop _
  have hT : T.InForm := by
    unfold T
    split
    · exact hr.texWatch ..
    · exact hr
  split
  · exact hT
  · exact hr.texSettle _
  · exact hr

theorem texIssue_inForm (o : Ops) (cWords : Nat) (raw : Bool) (plan : State → Iss → TexDesc → Nat → TexPlan) :
    Out.InForm (texIssue o cWords raw plan s) := by
  unfold texIssue
  refine issue_inForm h _ _ _ _ fun x S hS => ?_
  extract_lets
  split
  · exact Iss.finish_inForm hS ..
  split
  · exact Iss.finish_inForm (hS.takeTraps ..) ..
  split
  · exact Iss.finish_inForm (hS.takeTraps ..) ..
  · exact memFinish_inForm (memLanes_inForm (hS.update ..) _ _ _ (fun _ _ hU => texLane_inForm hU ..)) ..

theorem execTexq_inForm (o : Ops) : Out.InForm (execTexq o s) := by
  unfold execTexq
  refine issue_inForm h _ _ _ _ fun x S hS => ?_
  extract_lets
  split
  · exact Iss.finish_inForm (hS.takeTraps ..) ..
  split
  · exact Iss.finish_inForm hS ..
  · exact Iss.finish_inForm (hS.addPend _) ..

/-! ### The dispatch, and the steps that no group issues -/

end

theorem Out.InForm.of_eq {o p : Out} (e : o = p) (h : p.InForm) : o.InForm := e ▸ h

/-- Whatever an instruction or a step means, it keeps the forms. -/
theorem exec_inForm {s : State} (hs : s.InForm) (i : Instr) : Out.InForm (exec i s) :=
  match i with
  | .mov .. => .of_eq exec_mov (alu1_inForm hs ..)
  | .movi .. => .of_eq exec_movi (alu1_inForm hs ..)
  | .sel .. => .of_eq exec_sel (formIssue_inForm hs ..)
  | .iadd .. => .of_eq exec_iadd (alu2_inForm hs ..)
  | .isub .. => .of_eq exec_isub (alu2_inForm hs ..)
  | .iabs .. => .of_eq exec_iabs (alu1_inForm hs ..)
  | .ineg .. => .of_eq exec_ineg (alu1_inForm hs ..)
  | .imin .. => .of_eq exec_imin (alu2_inForm hs ..)
  | .imax .. => .of_eq exec_imax (alu2_inForm hs ..)
  | .iadd64 .. => .of_eq exec_iadd64 (formIssue_inForm hs ..)
  | .imul .. => .of_eq exec_imul (alu2_inForm hs ..)
  | .imulh .. => .of_eq exec_imulh (alu2_inForm hs ..)
  | .imad .. => .of_eq exec_imad (alu3_inForm hs ..)
  | .imadw .. => .of_eq exec_imadw (formIssue_inForm hs ..)
  | .and .. => .of_eq exec_and (alu2_inForm hs ..)
  | .or .. => .of_eq exec_or (alu2_inForm hs ..)
  | .xor .. => .of_eq exec_xor (alu2_inForm hs ..)
  | .not .. => .of_eq exec_not (alu1_inForm hs ..)
  | .lgc3 .. => .of_eq exec_lgc3 (alu3_inForm hs ..)
  | .shl .. => .of_eq exec_shl (alu2_inForm hs ..)
  | .shr .. => .of_eq exec_shr (alu2_inForm hs ..)
  | .sar .. => .of_eq exec_sar (alu2_inForm hs ..)
  | .rot .. => .of_eq exec_rot (alu2_inForm hs ..)
  | .fshf .. => .of_eq exec_fshf (alu3_inForm hs ..)
  | .bfe .. => .of_eq exec_bfe (alu3_inForm hs ..)
  | .bfi .. => .of_eq exec_bfi (alu3_inForm hs ..)
  | .popc .. => .of_eq exec_popc (alu1_inForm hs ..)
  | .clz .. => .of_eq exec_clz (alu1_inForm hs ..)
  | .brev .. => .of_eq exec_brev (alu1_inForm hs ..)
  | .bysel .. => .of_eq exec_bysel (alu3_inForm hs ..)
  | .lea .. => .of_eq exec_lea (formIssue_inForm hs ..)
  | .isetp .. => .of_eq exec_isetp (vecIssue_inForm hs ..)
  | .fsetp .. => .of_eq exec_fsetp (vecIssue_inForm hs ..)
  | .iaddP .. => .of_eq exec_iaddP (vecIssue_inForm hs ..)
  | .isubP .. => .of_eq exec_isubP (vecIssue_inForm hs ..)
  | .imulP .. => .of_eq exec_imulP (vecIssue_inForm hs ..)
  | .lgc3P .. => .of_eq exec_lgc3P (vecIssue_inForm hs ..)
  | .plop .. => .of_eq exec_plop (vecIssue_inForm hs ..)
  | .pmov .. => .of_eq exec_pmov (vecIssue_inForm hs ..)
  | .pmovP .. => .of_eq exec_pmovP (vecIssue_inForm hs ..)
  | .bra .. => .of_eq exec_bra (execBra_inForm hs ..)
  | .braAny .. => .of_eq exec_braAny (braSome_inForm hs ..)
  | .braAll .. => .of_eq exec_braAll (braSome_inForm hs ..)
  | .brx .. => .of_eq exec_brx (execBrx_inForm hs ..)
  | .call .. => .of_eq exec_call (execCall_inForm hs ..)
  | .callx .. => .of_eq exec_callx (execCallx_inForm hs ..)
  | .ret .. => .of_eq exec_ret (execRet_inForm hs ..)
  | .exit .. => .of_eq exec_exit (execExit_inForm hs ..)
  | .conv .. => .of_eq exec_conv (execConv_inForm hs ..)
  | .nop .. => .of_eq exec_nop (execNop_inForm hs ..)
  | .pause .. => .of_eq exec_pause (execPause_inForm hs ..)
  | .sread .. => .of_eq exec_sread (execSread_inForm hs ..)
  | .sreadW .. => .of_eq exec_sreadW (vecIssue_inForm hs ..)
  | .swrite .. => .of_eq exec_swrite (execSwrite_inForm hs ..)
  | .launch .. => .of_eq exec_launch (execLaunch_inForm hs ..)
  | .prog .. => .of_eq exec_prog (execProg_inForm hs ..)
  | .lxchIdx .. => .of_eq exec_lxchIdx (lxch_inForm hs ..)
  | .lxchRot .. => .of_eq exec_lxchRot (lxch_inForm hs ..)
  | .lxchRev .. => .of_eq exec_lxchRev (lxch_inForm hs ..)
  | .lxchXor .. => .of_eq exec_lxchXor (lxch_inForm hs ..)
  | .lxchS .. => .of_eq exec_lxchS (execLxchS_inForm hs ..)
  | .lqryAll .. => .of_eq exec_lqryAll (lqry_inForm hs ..)
  | .lqryAny .. => .of_eq exec_lqryAny (lqry_inForm hs ..)
  | .lqrySame .. => .of_eq exec_lqrySame (lqry_inForm hs ..)
  | .lgath .. => .of_eq exec_lgath (execLgath_inForm hs ..)
  | .match_ .. => .of_eq exec_match_ (execMatch_inForm hs ..)
  | .redl .. => .of_eq exec_redl (execRedl_inForm hs ..)
  | .redlF .. => .of_eq exec_redlF (execRedlF_inForm hs ..)
  | .fadd .. => .of_eq exec_fadd (fp2_inForm hs ..)
  | .fsub .. => .of_eq exec_fsub (fp2_inForm hs ..)
  | .fmul .. => .of_eq exec_fmul (fp2_inForm hs ..)
  | .ffma .. => .of_eq exec_ffma (fpIssue_inForm hs ..)
  | .fmin .. => .of_eq exec_fmin (fp2_inForm hs ..)
  | .fmax .. => .of_eq exec_fmax (fp2_inForm hs ..)
  | .fdp2 .. => .of_eq exec_fdp2 (fpIssue_inForm hs ..)
  | .frnd .. => .of_eq exec_frnd (fpIssue_inForm hs ..)
  | .fclass .. => .of_eq exec_fclass (vecIssue_inForm hs ..)
  | .fclassP .. => .of_eq exec_fclassP (vecIssue_inForm hs ..)
  | .frcp .. => .of_eq exec_frcp (fnIssue_inForm hs ..)
  | .frsq .. => .of_eq exec_frsq (fnIssue_inForm hs ..)
  | .fsqrt .. => .of_eq exec_fsqrt (fnIssue_inForm hs ..)
  | .fexp2 .. => .of_eq exec_fexp2 (fnIssue_inForm hs ..)
  | .flog2 .. => .of_eq exec_flog2 (fnIssue_inForm hs ..)
  | .fsin .. => .of_eq exec_fsin (fnIssue_inForm hs ..)
  | .fcos .. => .of_eq exec_fcos (fnIssue_inForm hs ..)
  | .frcpIeee .. => .of_eq exec_frcpIeee (fpIssue_inForm hs ..)
  | .fsqrtIeee .. => .of_eq exec_fsqrtIeee (fpIssue_inForm hs ..)
  | .cvt .. => .of_eq exec_cvt (fpIssue_inForm hs ..)
  | .cvq2 .. => .of_eq exec_cvq2 (cvqIssue_inForm hs ..)
  | .cvq4 .. => .of_eq exec_cvq4 (cvqIssue_inForm hs ..)
  | .cvq8 .. => .of_eq exec_cvq8 (cvqIssue_inForm hs ..)
  | .cvx2 .. => .of_eq exec_cvx2 (cvxIssue_inForm hs ..)
  | .cvx4 .. => .of_eq exec_cvx4 (cvxIssue_inForm hs ..)
  | .cvx8 .. => .of_eq exec_cvx8 (cvxIssue_inForm hs ..)
  | .ldg .. => .of_eq exec_ldg (loadG_inForm hs ..)
  | .stg .. => .of_eq exec_stg (execStg_inForm hs ..)
  | .ldp .. => .of_eq exec_ldp (loadG_inForm hs ..)
  | .stp .. => .of_eq exec_stp (execStp_inForm hs ..)
  | .lds .. => .of_eq exec_lds (loadS_inForm hs ..)
  | .sts .. => .of_eq exec_sts (storeS_inForm hs ..)
  | .ldx .. => .of_eq exec_ldx (loadS_inForm hs ..)
  | .stx .. => .of_eq exec_stx (storeS_inForm hs ..)
  | .ldf .. => .of_eq exec_ldf (execLdf_inForm hs ..)
  | .stf .. => .of_eq exec_stf (execStf_inForm hs ..)
  | .ldw .. => .of_eq exec_ldw (wpathIssue_inForm hs ..)
  | .stw .. => .of_eq exec_stw (wpathIssue_inForm hs ..)
  | .ldk .. => .of_eq exec_ldk (execLdk_inForm hs ..)
  | .ldsS .. => .of_eq exec_ldsS (execLdsS_inForm hs ..)
  | .pfg .. => .of_eq exec_pfg (execPfg_inForm hs ..)
  | .stew .. => .of_eq exec_stew (execStew_inForm hs ..)
  | .atomg .. => .of_eq exec_atomg (atomIssue_inForm hs ..)
  | .atomgCas .. => .of_eq exec_atomgCas (atomIssue_inForm hs ..)
  | .atomgF .. => .of_eq exec_atomgF (atomIssue_inForm hs ..)
  | .redg .. => .of_eq exec_redg (atomIssue_inForm hs ..)
  | .redgF .. => .of_eq exec_redgF (atomIssue_inForm hs ..)
  | .atoms .. => .of_eq exec_atoms (atomScr_inForm hs ..)
  | .atomx .. => .of_eq exec_atomx (atomScr_inForm hs ..)
  | .lda .. => .of_eq exec_lda (syncWord_inForm hs ..)
  | .stl .. => .of_eq exec_stl (syncWord_inForm hs ..)
  | .fence .. => .of_eq exec_fence (execFence_inForm hs ..)
  | .fencex .. => .of_eq exec_fencex (execFencex_inForm hs ..)
  | .barrive .. => .of_eq exec_barrive (execBarrive_inForm hs ..)
  | .bwait .. => .of_eq exec_bwait (execBwait_inForm hs ..)
  | .bsync .. => .of_eq exec_bsync (execBsync_inForm hs ..)
  | .barrd .. => .of_eq exec_barrd (execBarrd_inForm hs ..)
  | .binit .. => .of_eq exec_binit (execBinit_inForm hs ..)
  | .balloc .. => .of_eq exec_balloc (execBalloc_inForm hs ..)
  | .bfree .. => .of_eq exec_bfree (execBfree_inForm hs ..)
  | .rowbook .. => .of_eq exec_rowbook (execRowbook_inForm hs ..)
  | .rowjoin .. => .of_eq exec_rowjoin (execRowjoin_inForm hs ..)
  | .rowfree .. => .of_eq exec_rowfree (execRowfree_inForm hs ..)
  | .tlbiPage .. => .of_eq exec_tlbiPage (tlbiIssue_inForm hs ..)
  | .tlbiSpace .. => .of_eq exec_tlbiSpace (tlbiIssue_inForm hs ..)
  | .tlbiAll .. => .of_eq exec_tlbiAll (tlbiIssue_inForm hs ..)
  | .msvtx .. => .of_eq exec_msvtx (msvtxIssue_inForm hs ..)
  | .msvtxB128 .. => .of_eq exec_msvtxB128 (msvtxIssue_inForm hs ..)
  | .msprim .. => .of_eq exec_msprim (execMsprim_inForm hs ..)
  | .mscount .. => .of_eq exec_mscount (execMscount_inForm hs ..)
  | .interp .. => .of_eq exec_interp (mediumIssue_inForm hs ..)
  | .derivX .. => .of_eq exec_derivX (derivIssue_inForm hs ..)
  | .derivY .. => .of_eq exec_derivY (derivIssue_inForm hs ..)
  | .fragexp .. => .of_eq exec_fragexp (execFragexp_inForm hs ..)
  | .fragexpZ .. => .of_eq exec_fragexpZ (execFragexpZ_inForm hs ..)
  | .fragkill .. => .of_eq exec_fragkill (execFragkill_inForm hs ..)
  | .rocbeg .. => .of_eq exec_rocbeg (execRocbeg_inForm hs ..)
  | .rocend .. => .of_eq exec_rocend (execRocend_inForm hs ..)
  | .tex .. => .of_eq exec_tex (texIssue_inForm hs ..)
  | .texL .. => .of_eq exec_texL (texIssue_inForm hs ..)
  | .texG .. => .of_eq exec_texG (texIssue_inForm hs ..)
  | .texld .. => .of_eq exec_texld (texIssue_inForm hs ..)
  | .texq .. => .of_eq exec_texq (execTexq_inForm hs ..)
  | .satom .. => .of_eq exec_satom (satomIssue_inForm hs ..)
  | .satomCas .. => .of_eq exec_satomCas (satomIssue_inForm hs ..)
  | .cpgather .. => .of_eq exec_cpgather (cpRows_inForm hs ..)
  | .cpscatter .. => .of_eq exec_cpscatter (cpRows_inForm hs ..)
  | .cpscatterAdd .. => .of_eq exec_cpscatterAdd (cpRows_inForm hs ..)
  | .cpwait .. => .of_eq exec_cpwait (execCpwait_inForm hs ..)
  | .cptest .. => .of_eq exec_cptest (execCptest_inForm hs ..)
  | .cpclr .. => .of_eq exec_cpclr (execCpclr_inForm hs ..)
  | .cpsrcw .. => .of_eq exec_cpsrcw (execCpsrcw_inForm hs ..)
  | .mput .. => .of_eq exec_mput (execMput_inForm hs ..)
  | .mld .. => .of_eq exec_mld (cmdIssue_inForm hs ..)
  | .mldV .. => .of_eq exec_mldV (cmdIssue_inForm hs ..)
  | .mma .. => .of_eq exec_mma (cmdIssue_inForm hs ..)
  | .mmq .. => .of_eq exec_mmq (cmdIssue_inForm hs ..)
  | .mmqP .. => .of_eq exec_mmqP (cmdIssue_inForm hs ..)
  | .mmi .. => .of_eq exec_mmi (cmdIssue_inForm hs ..)
  | .mclr .. => .of_eq exec_mclr (cmdIssue_inForm hs ..)
  | .mst .. => .of_eq exec_mst (cmdIssue_inForm hs ..)
  | .mstV .. => .of_eq exec_mstV (cmdIssue_inForm hs ..)
  | .mbar .. => .of_eq exec_mbar (cmdIssue_inForm hs ..)
  | .mbw .. => .of_eq exec_mbw (cmdIssue_inForm hs ..)
  | .mnop .. => .of_eq exec_mnop (cmdIssue_inForm hs ..)
  | .msetImm .. => .of_eq exec_msetImm (control_inForm hs ..)
  | .msetHi .. => .of_eq exec_msetHi (control_inForm hs ..)
  | .msetArg .. => .of_eq exec_msetArg (control_inForm hs ..)
  | .msetArghi .. => .of_eq exec_msetArghi (control_inForm hs ..)
  | .msetSr .. => .of_eq exec_msetSr (control_inForm hs ..)
  | .msetC .. => .of_eq exec_msetC (control_inForm hs ..)
  | .maddk .. => .of_eq exec_maddk (control_inForm hs ..)
  | .mloop .. => .of_eq exec_mloop (execMloop_inForm hs ..)
  | .mjmp .. => .of_eq exec_mjmp (execMjmp_inForm hs ..)
  | .mend .. => .of_eq exec_mend (execMend_inForm hs ..)
  | .trap .. => .of_eq exec_trap (raiseIssue_inForm hs ..)
  | .trapLegacy .. => .of_eq exec_trapLegacy (raiseIssue_inForm hs ..)
  | .bkpt .. => .of_eq exec_bkpt (execBkpt_inForm hs ..)
  | .rtt .. => .of_eq exec_rtt (execRtt_inForm hs ..)
  | .haltt .. => .of_eq exec_haltt (execHaltt_inForm hs ..)
  | .gbread .. => .of_eq exec_gbread (execGbread_inForm hs ..)
  | .pkrd .. => .of_eq exec_pkrd (execPkrd_inForm hs ..)
  | .pkwr .. => .of_eq exec_pkwr (execPkwr_inForm hs ..)
  | .resume .. => .of_eq exec_resume (execResume_inForm hs ..)
  | .resumeSkip .. => .of_eq exec_resumeSkip (execResumeSkip_inForm hs ..)
  | .killt .. => .of_eq exec_killt (execKillt_inForm hs ..)
  | .killtG .. => .of_eq exec_killtG (execKilltG_inForm hs ..)
  | .loadResultLand .. => .of_eq exec_loadResultLand (landResult_inForm hs ..)
  | .mediumResultReady .. => .of_eq exec_mediumResultReady (landResult_inForm hs ..)
  | .convRelease .. => .of_eq exec_convRelease (execConvRelease_inForm hs ..)
  | .barrierWaitComplete .. => .of_eq exec_barrierWaitComplete (execBarrierWaitComplete_inForm hs ..)
  | .barrdArrivalPerform .. => .of_eq exec_barrdArrivalPerform (execBarrdArrivalPerform_inForm hs ..)
  | .cpwaitComplete .. => .of_eq exec_cpwaitComplete (execCpwaitComplete_inForm hs ..)
  | .cpsrcwComplete .. => .of_eq exec_cpsrcwComplete (execCpsrcwComplete_inForm hs ..)
  | .presenceWaitComplete .. => .of_eq exec_presenceWaitComplete (execPresenceWaitComplete_inForm hs ..)
  | .pauseExpiry .. => .of_eq exec_pauseExpiry (execPauseExpiry_inForm hs ..)
  | .syncAccessComplete .. => .of_eq exec_syncAccessComplete (execSyncAccessComplete_inForm hs ..)
  | .rowOpenComplete .. => .of_eq exec_rowOpenComplete (execRowOpenComplete_inForm hs ..)
  | .rocSectionEnter .. => .of_eq exec_rocSectionEnter (execRocSectionEnter_inForm hs ..)
  | .rocTimeout .. => .of_eq exec_rocTimeout (execRocTimeout_inForm hs ..)
  | .rocPreemptTimeout .. => .of_eq exec_rocPreemptTimeout (execRocPreemptTimeout_inForm hs ..)
  | .contextBind .. => .of_eq exec_contextBind (execContextBind_inForm hs ..)
  | .porterSlotTake .. => .of_eq exec_porterSlotTake (execPorterSlotTake_inForm hs ..)
  | .fetchBlockFill .. => .of_eq exec_fetchBlockFill (execFetchBlockFill_inForm hs ..)
  | .teamEnd .. => .of_eq exec_teamEnd (execTeamEnd_inForm hs ..)
  | .fill .. => .of_eq exec_fill (execFill_inForm hs ..)
  | .filld .. => .of_eq exec_filld (execFilld_inForm hs ..)
  | .mprobe .. => .of_eq exec_mprobe (execMprobe_inForm hs ..)
  | .mrep .. => .of_eq exec_mrep (execMrep_inForm hs ..)
  | .intent .. => .of_eq exec_intent (execIntent_inForm hs ..)
  | .mark .. => .of_eq exec_mark (execMark_inForm hs ..)
  | .markr .. => .of_eq exec_markr (execMarkr_inForm hs ..)
  | .grant .. => .of_eq exec_grant (execGrant_inForm hs ..)
  | .rnack .. => .of_eq exec_rnack (execRnack_inForm hs ..)
  | .wb .. => .of_eq exec_wb (execWb_inForm hs ..)
  | .wback .. => .of_eq exec_wback (execWback_inForm hs ..)
  | .recall .. => .of_eq exec_recall (execRecall_inForm hs ..)
  | .darn .. => .of_eq exec_darn (execDarn_inForm hs ..)
  | .darnack .. => .of_eq exec_darnack (execDarnack_inForm hs ..)
  | .inv .. => .of_eq exec_inv (execInv_inForm hs ..)
  | .invack .. => .of_eq exec_invack (execInvack_inForm hs ..)
  | .publish .. => .of_eq exec_publish (execPublish_inForm hs ..)
  | .puback .. => .of_eq exec_puback (execPuback_inForm hs ..)
  | .hop .. => .of_eq exec_hop (execHop_inForm hs ..)
  | .hopr .. => .of_eq exec_hopr (execHopr_inForm hs ..)
  | .rstore .. => .of_eq exec_rstore (execRstore_inForm hs ..)
  | .rfwd .. => .of_eq exec_rfwd (execRfwd_inForm hs ..)
  | .rpack .. => .of_eq exec_rpack (execRpack_inForm hs ..)
  | .rcommit .. => .of_eq exec_rcommit (execRcommit_inForm hs ..)
  | .pageWalk .. => .of_eq exec_pageWalk (execPageWalk_inForm hs ..)
  | .shootdownComplete .. => .of_eq exec_shootdownComplete (execShootdownComplete_inForm hs ..)
  | .lodgingRequestPost .. => .of_eq exec_lodgingRequestPost (execLodgingRequestPost_inForm hs ..)
  | .lgrantGranted .. => .of_eq exec_lgrantGranted (execLgrantGranted_inForm hs ..)
  | .lgrantRefused .. => .of_eq exec_lgrantRefused (execLgrantRefused_inForm hs ..)
  | .lgrantReleaseAck .. => .of_eq exec_lgrantReleaseAck (execLgrantReleaseAck_inForm hs ..)
  | .sequencerFetch .. => .of_eq exec_sequencerFetch (execSequencerFetch_inForm hs ..)
  | .mbwRetire .. => .of_eq exec_mbwRetire (execMbwRetire_inForm hs ..)
  | .commandRetire .. => .of_eq exec_commandRetire (execCommandRetire_inForm hs ..)
  | .copyElementMove .. => .of_eq exec_copyElementMove (execCopyElementMove_inForm hs ..)
  | .copyChunkLand .. => .of_eq exec_copyChunkLand (execCopyChunkLand_inForm hs ..)
  | .copySourceRelease .. => .of_eq exec_copySourceRelease (execCopySourceRelease_inForm hs ..)
  | .surfaceAllocate .. => .of_eq exec_surfaceAllocate (execSurfaceAllocate_inForm hs ..)
  | .surfaceReleaseComplete .. => .of_eq exec_surfaceReleaseComplete (execSurfaceReleaseComplete_inForm hs ..)
  | .pressSpillStart .. => .of_eq exec_pressSpillStart (execPressSpillStart_inForm hs ..)
  | .spillComplete .. => .of_eq exec_spillComplete (execSpillComplete_inForm hs ..)
  | .fillComplete .. => .of_eq exec_fillComplete (execFillComplete_inForm hs ..)
  | .frameAgeTick => .of_eq exec_frameAgeTick (execFrameAgeTick_inForm hs)
  | .bankGrant .. => .of_eq exec_bankGrant (execBankGrant_inForm hs ..)
  | .coverageToken .. => .of_eq exec_coverageToken (execCoverageToken_inForm hs ..)
  | .quadRetire .. => .of_eq exec_quadRetire (execQuadRetire_inForm hs ..)
  | .primitiveEmit .. => .of_eq exec_primitiveEmit (execPrimitiveEmit_inForm hs ..)
  | .rasterisePrimitive .. => .of_eq exec_rasterisePrimitive (execRasterisePrimitive_inForm hs ..)
  | .fragmentGroupLaunch .. => .of_eq exec_fragmentGroupLaunch (execFragmentGroupLaunch_inForm hs ..)
  | .domainRetentionEnter .. => .of_eq exec_domainRetentionEnter (execDomainRetentionEnter_inForm hs ..)
  | .domainWake .. => .of_eq exec_domainWake (execDomainWake_inForm hs ..)
  | .domainOff .. => .of_eq exec_domainOff (execDomainOff_inForm hs ..)
  | .domainOn .. => .of_eq exec_domainOn (execDomainOn_inForm hs ..)
  | .debugSurfaceRead .. => .of_eq exec_debugSurfaceRead (execDebugSurfaceRead_inForm hs ..)
  | .rowRefreshClose .. => .of_eq exec_rowRefreshClose (execRowRefreshClose_inForm hs ..)
  | .rowRefreshReopen .. => .of_eq exec_rowRefreshReopen (execRowRefreshReopen_inForm hs ..)
  | .memoryPatrol .. => .of_eq exec_memoryPatrol (execMemoryPatrol_inForm hs ..)
  | .clusterPlace .. => .of_eq exec_clusterPlace (execClusterPlace_inForm hs ..)
  | .framePreempt .. => .of_eq exec_framePreempt (execFramePreempt_inForm hs ..)
  | .normalReservation .. => .of_eq exec_normalReservation (execNormalReservation_inForm hs ..)
  | .preemptSave .. => .of_eq exec_preemptSave (execPreemptSave_inForm hs ..)
  | .teamRestore .. => .of_eq exec_teamRestore (execTeamRestore_inForm hs ..)
  | .gridComplete .. => .of_eq exec_gridComplete (execGridComplete_inForm hs ..)
  | .porterWake .. => .of_eq exec_porterWake (execPorterWake_inForm hs ..)
  | .blockTranslate .. => .of_eq exec_blockTranslate (execBlockTranslate_inForm hs ..)
  | .ringDoorbell .. => .of_eq exec_ringDoorbell (execRingDoorbell_inForm hs ..)
  | .hrctlWrite .. => .of_eq exec_hrctlWrite (execHrctlWrite_inForm hs ..)
  | .ringNop => .of_eq exec_ringNop (execRingNop_inForm hs)
  | .ringLaunch => .of_eq exec_ringLaunch (execRingLaunch_inForm hs)
  | .ringTlbi => .of_eq exec_ringTlbi (execRingTlbi_inForm hs)
  | .ringCancel => .of_eq exec_ringCancel (execRingCancel_inForm hs)
  | .ringUnknownOp => .of_eq exec_ringUnknownOp (execRingUnknownOp_inForm hs)
  | .intlvWrite .. => .of_eq exec_intlvWrite (execIntlvWrite_inForm hs ..)
  | .sprootWrite .. => .of_eq exec_sprootWrite (execSprootWrite_inForm hs ..)
  | .spwingWrite .. => .of_eq exec_spwingWrite (execSpwingWrite_inForm hs ..)
  | .qcfgWrite .. => .of_eq exec_qcfgWrite (execQcfgWrite_inForm hs ..)
  | .spsaveWrite .. => .of_eq exec_spsaveWrite (execSpsaveWrite_inForm hs ..)
  | .spxcWrite .. => .of_eq exec_spxcWrite (execSpxcWrite_inForm hs ..)
  | .biasctlWrite .. => .of_eq exec_biasctlWrite (execBiasctlWrite_inForm hs ..)
  | .biasflipGo .. => .of_eq exec_biasflipGo (execBiasflipGo_inForm hs ..)
  | .biasFlipComplete => .of_eq exec_biasFlipComplete (execBiasFlipComplete_inForm hs)
  | .gbstatClear .. => .of_eq exec_gbstatClear (execGbstatClear_inForm hs ..)
  | .hostResume .. => .of_eq exec_hostResume (execHostResume_inForm hs ..)
  | .hostResumeSkip .. => .of_eq exec_hostResumeSkip (execHostResumeSkip_inForm hs ..)
  | .hostKillt .. => .of_eq exec_hostKillt (execHostKillt_inForm hs ..)
  | .hostKilltG .. => .of_eq exec_hostKilltG (execHostKilltG_inForm hs ..)
  | .hostEndGrid .. => .of_eq exec_hostEndGrid (execHostEndGrid_inForm hs ..)
  | .gbpkRead .. => .of_eq exec_gbpkRead (execGbpkRead_inForm hs ..)
  | .gbpkWrite .. => .of_eq exec_gbpkWrite (execGbpkWrite_inForm hs ..)
  | .dbgreqStop .. => .of_eq exec_dbgreqStop (execDbgreqStop_inForm hs ..)
  | .dbgreqResume .. => .of_eq exec_dbgreqResume (execDbgreqResume_inForm hs ..)
  | .dbgreqStep .. => .of_eq exec_dbgreqStep (execDbgreqStep_inForm hs ..)
  | .dbgreqPreempt .. => .of_eq exec_dbgreqPreempt (execDbgreqPreempt_inForm hs ..)
  | .dbgreqDump .. => .of_eq exec_dbgreqDump (execDbgreqDump_inForm hs ..)
  | .pcSample .. => .of_eq exec_pcSample (execPcSample_inForm hs ..)
  | .trialDebtTick => .of_eq exec_trialDebtTick (execTrialDebtTick_inForm hs)
  | .registerWrite .. => .of_eq exec_registerWrite (execRegisterWrite_inForm hs ..)
  | .hostMemRead .. => .of_eq exec_hostMemRead (execHostMemRead_inForm hs ..)
  | .hostMemWrite .. => .of_eq exec_hostMemWrite (execHostMemWrite_inForm hs ..)
  | .birspi .. => .of_eq exec_birspi (execBirspi_inForm hs ..)
  | .hPathCompletion .. => .of_eq exec_hPathCompletion (execHPathCompletion_inForm hs ..)
  | .cxlCompletionTimeout .. => .of_eq exec_cxlCompletionTimeout (execCxlCompletionTimeout_inForm hs ..)
  | .ucieUncorrectableError => .of_eq exec_ucieUncorrectableError (execUcieUncorrectableError_inForm hs)
  | .clockRatioChange .. => .of_eq exec_clockRatioChange (execClockRatioChange_inForm hs ..)
  | .moduleReset => .of_eq exec_moduleReset (execModuleReset_inForm hs)
  | .bringupStepComplete .. => .of_eq exec_bringupStepComplete (execBringupStepComplete_inForm hs ..)
  | .powerManagementTick .. => .of_eq exec_powerManagementTick (execPowerManagementTick_inForm hs ..)
  | .thermalTrip => .of_eq exec_thermalTrip (execThermalTrip_inForm hs)
  | .ivrOvercurrent .. => .of_eq exec_ivrOvercurrent (execIvrOvercurrent_inForm hs ..)
  | .sensors => .of_eq exec_sensors (execSensors_inForm hs)
  | .logread => .of_eq exec_logread (execLogread_inForm hs)
  | .powercap => .of_eq exec_powercap (execPowercap_inForm hs)
  | .keyset => .of_eq exec_keyset (execKeyset_inForm hs)
  | .fwload => .of_eq exec_fwload (execFwload_inForm hs)
  | .spdm => .of_eq exec_spdm (execSpdm_inForm hs)
  | .mailboxBadcmd .. => .of_eq exec_mailboxBadcmd (execMailboxBadcmd_inForm hs ..)
  | .scratchpadSlotGrant .. => .of_eq exec_scratchpadSlotGrant (execScratchpadSlotGrant_inForm hs ..)
  | .wPathAccessComplete .. => .of_eq exec_wPathAccessComplete (execWPathAccessComplete_inForm hs ..)
  | .modulePowerLoss => .of_eq exec_modulePowerLoss (execModulePowerLoss_inForm hs)
  | .sptrialWrite .. => .of_eq exec_sptrialWrite (execSptrialWrite_inForm hs ..)

theorem runDue_inForm {s : State} (hs : s.InForm) (run : Instr → State → Out) (hrun : ∀ i s, s.InForm → Out.InForm (run i s)) (d : Due) :
    Out.InForm (runDue run d s) :=
  match d with
  | .ins i => hrun i s hs
  | .mbwRetire .. => execMbwRetire_inForm hs ..
  | .commandRetire .. => execCommandRetire_inForm hs ..
  | .copyElementMove .. => execCopyElementMove_inForm hs ..
  | .copyChunkLand .. => execCopyChunkLand_inForm hs ..
  | .copySourceRelease .. => execCopySourceRelease_inForm hs ..
  | .surfaceAllocate .. => execSurfaceAllocate_inForm hs ..
  | .surfaceReleaseComplete .. => execSurfaceReleaseComplete_inForm hs ..
  | .pressSpillStart .. => execPressSpillStart_inForm hs ..
  | .spillComplete .. => execSpillComplete_inForm hs ..
  | .fillComplete .. => execFillComplete_inForm hs ..
  | .bankGrant .. => execBankGrant_inForm hs ..
  | .coverageToken .. => execCoverageToken_inForm hs ..
  | .quadRetire .. => execQuadRetire_inForm hs ..
  | .primitiveEmit .. => execPrimitiveEmit_inForm hs ..
  | .rasterisePrimitive .. => execRasterisePrimitive_inForm hs ..
  | .fragmentGroupLaunch .. => execFragmentGroupLaunch_inForm hs ..
  | .domainWake .. => execDomainWake_inForm hs ..
  | .debugSurfaceRead .. => execDebugSurfaceRead_inForm hs ..
  | .rowRefreshClose .. => execRowRefreshClose_inForm hs ..
  | .rowRefreshReopen .. => execRowRefreshReopen_inForm hs ..
  | .clusterPlace .. => execClusterPlace_inForm hs ..
  | .framePreempt .. => execFramePreempt_inForm hs ..
  | .normalReservation .. => execNormalReservation_inForm hs ..
  | .preemptSave .. => execPreemptSave_inForm hs ..
  | .teamRestore .. => execTeamRestore_inForm hs ..
  | .gridComplete .. => execGridComplete_inForm hs ..
  | .porterWake .. => execPorterWake_inForm hs ..
  | .blockTranslate .. => execBlockTranslate_inForm hs ..
  | .scratchpadSlotGrant .. => execScratchpadSlotGrant_inForm hs ..
  | .wPathAccessComplete .. => execWPathAccessComplete_inForm hs ..
  | .dbgreqDump .. => execDbgreqDump_inForm hs ..
  | .clockRatioChange .. => execClockRatioChange_inForm hs ..
  | .hostResumeSkip .. => execHostResumeSkip_inForm hs ..

/-- Each of a list of steps keeps the forms. -/
def KeepForms (l : List (State → Out)) : Prop := ∀ f ∈ l, ∀ s, s.InForm → Out.InForm (f s)

theorem KeepForms.nil : KeepForms [] := nofun

theorem KeepForms.cons {f : State → Out} {l : List (State → Out)} (hf : ∀ s, s.InForm → Out.InForm (f s)) (hl : KeepForms l) :
    KeepForms (f :: l) := List.forall_mem_cons.2 ⟨hf, hl⟩

theorem KeepForms.append {l m : List (State → Out)} (hl : KeepForms l) (hm : KeepForms m) : KeepForms (l ++ m) :=
  List.forall_mem_append.2 ⟨hl, hm⟩

theorem KeepForms.map {α : Type} (l : List α) {f : α → State → Out} (hf : ∀ x s, s.InForm → Out.InForm (f x s)) :
    KeepForms (l.map f) := List.forall_mem_map.2 fun x _ => hf x

theorem KeepForms.flatMap {α : Type} (l : List α) {f : α → List (State → Out)} (hf : ∀ x, KeepForms (f x)) :
    KeepForms (l.flatMap f) := fun g hg => by
  obtain ⟨x, -, hx⟩ := List.mem_flatMap.1 hg
  exact hf x g hx

theorem KeepForms.ite {p : Prop} [Decidable p] {l m : List (State → Out)} (hl : KeepForms l) (hm : KeepForms m) :
    KeepForms (if p then l else m) := by
  split
  · exact hl
  · exact hm

theorem waitEvents_keepForms (t g : Nat) (gr : Group) : KeepForms (waitEvents t g gr) := by
  unfold waitEvents
  refine .append (.map _ fun kv s h => ?_) (.cons (fun _ h => execConvRelease_inForm h t g) .nil)
  cases kv.2.cond with
  | parity => exact execBarrierWaitComplete_inForm h ..
  | copies => exact execCpwaitComplete_inForm h ..
  | source => exact execCpsrcwComplete_inForm h ..
  | presence => exact execPresenceWaitComplete_inForm h ..
  | pause => exact execPauseExpiry_inForm h ..
  | rowOpen => exact execRowOpenComplete_inForm h ..
  | roc => exact execRocSectionEnter_inForm h ..
  | sync | fencex | results | exchange | loads => exact execSyncAccessComplete_inForm h ..

theorem teamEvents_keepForms (kv : Nat × Team) : KeepForms (teamEvents kv) := by
  have fetch (g : Nat) : KeepForms [execFetchBlockFill kv.1 g] := .cons (fun _ h => execFetchBlockFill_inForm h ..) .nil
  exact .append (.append (.flatMap _ fun g => .append (waitEvents_keepForms _ g.1 g.2) (.ite (fetch _) .nil))
    (.ite (.map _ fun _ _ h => execRocTimeout_inForm h ..) .nil)) (.ite (fetch 32) .nil)

theorem State.bindEvents_keepForms (s : State) : KeepForms s.bindEvents :=
  .flatMap _ fun _ => .cons (fun _ h => execPorterWake_inForm h ..) <| .cons (fun _ h => execPorterSlotTake_inForm h ..) <|
    .cons (fun _ h => execContextBind_inForm h ..) <| .map _ fun _ _ h => execContextBind_inForm h ..

theorem State.walkEvents_keepForms (s : State) : KeepForms s.walkEvents :=
  .flatMap _ fun _ => .map _ fun _ _ h => execPageWalk_inForm h ..

theorem State.unitEvents_keepForms (s : State) : KeepForms s.unitEvents := by
  refine .append (.append (.append (.append (.append (.flatMap _ fun d => ?_) ?_) ?_) (.ite .nil (.flatMap _ fun k => ?_))) (.flatMap _ fun
    kv => ?_))
    (.map _ fun _ _ h => execDbgreqDump_inForm h ..)
  · exact .cons (fun _ h => execClusterPlace_inForm h d) <| .cons (fun _ h => execFramePreempt_inForm h d) <|
      .cons (fun _ h => execNormalReservation_inForm h d) .nil
  · exact .cons (fun _ h => execRingNop_inForm h) <| .cons (fun _ h => execRingLaunch_inForm h) <|
      .cons (fun _ h => execRingTlbi_inForm h) <| .cons (fun _ h => execRingCancel_inForm h) <|
      .cons (fun _ h => execRingUnknownOp_inForm h) .nil
  · exact .cons (fun _ h => execSensors_inForm h) <| .cons (fun _ h => execLogread_inForm h) <|
      .cons (fun _ h => execPowercap_inForm h) <| .cons (fun _ h => execKeyset_inForm h) <|
      .cons (fun _ h => execFwload_inForm h) <| .cons (fun _ h => execSpdm_inForm h) <|
      .cons (fun _ h => execMailboxBadcmd_inForm h _) <| .cons (fun _ h => execThermalTrip_inForm h) .nil
  · exact .cons (fun _ h => execPressSpillStart_inForm h ..) <| .cons (fun _ h => execPressSpillStart_inForm h ..) .nil
  · exact .cons (fun _ h => execRowRefreshClose_inForm h ..) <| .cons (fun _ h => execRowRefreshReopen_inForm h ..) .nil

theorem State.powerEvents_keepForms (s : State) : KeepForms s.powerEvents :=
  .cons (fun _ h => execClockRatioChange_inForm h _) <| .cons (fun _ h => execFrameAgeTick_inForm h) <|
    .cons (fun _ h => execDomainRetentionEnter_inForm h ..) <| .cons (fun _ h => execDomainOff_inForm h ..) <|
    .cons (fun _ h => execDomainOn_inForm h ..) .nil

theorem State.rasterEvents_keepForms (s : State) : KeepForms s.rasterEvents :=
  .ite .nil <| .append (.append (.append (.map _ fun _ _ h => execPrimitiveEmit_inForm h _)
    (.flatMap _ fun _ => .cons (fun _ h => execRasterisePrimitive_inForm h _) <| .cons (fun _ h => execCoverageToken_inForm h _) .nil))
    (.map _ fun _ _ h => execQuadRetire_inForm h _))
    (.ite .nil (.flatMap _ fun _ => .map _ fun _ _ h => execFragmentGroupLaunch_inForm h ..))

theorem State.hostEvents_keepForms (s : State) : KeepForms s.hostEvents := by
  refine .append (.append (.append (.map _ fun _ _ h => execHPathCompletion_inForm h ..) fun f hf => ?_)
    (.map _ fun _ _ h => execBirspi_inForm h _)) (.cons (fun _ h => execBiasFlipComplete_inForm h) .nil)
  obtain ⟨kv, -, e⟩ := List.mem_filterMap.1 hf
  split at e
  · cases e
    exact fun _ h => execBirspi_inForm h _
  · cases e

theorem State.InForm.bringupEvent {s : State} (h : s.InForm) : Out.InForm s.bringupEvent :=
  execBringupStepComplete_inForm (h.update ..) ..

theorem State.autoEvents_keepForms (s : State) : KeepForms s.autoEvents :=
  .ite (.cons (fun _ h => h.bringupEvent) s.unitEvents_keepForms) <|
    .append (.append (.append (.append (.append (.append (.flatMap _ teamEvents_keepForms) s.bindEvents_keepForms)
      s.walkEvents_keepForms) s.unitEvents_keepForms) s.powerEvents_keepForms) s.rasterEvents_keepForms) s.hostEvents_keepForms

theorem State.lateBinds_keepForms (s : State) : KeepForms s.lateBinds :=
  .flatMap _ fun _ => .flatMap _ fun _ => .ite (.map _ fun _ _ h => execContextBind_inForm h ..) .nil

/-- The first of steps that keep the forms which can be taken leads to a state in form. -/
theorem State.InForm.firstNext {s : State} (h : s.InForm) {l : List (State → Out)} (hl : KeepForms l) {S : State}
    (e : firstNext l s = some S) : S.InForm := by
  obtain ⟨f, hf, e⟩ := List.exists_of_findSome?_eq_some e
  split at e
  next T eT => cases e; exact (hl f hf s h).state eT
  · cases e

theorem KeepForms.rotate {l : List (State → Out)} (hl : KeepForms l) (n : Nat) : KeepForms (rotate l n) :=
  .append (fun f hf => hl f (List.mem_of_mem_drop hf)) fun f hf => hl f (List.mem_of_mem_take hf)

theorem State.InForm.autoStep {s : State} (h : s.InForm) : s.autoStep.InForm := by
  unfold State.autoStep
  extract_lets n S
  have hS : S.InForm := h.update ..
  split
  next T e => exact hS.firstNext S.lateBinds_keepForms e
  · exact State.InForm.getD (fun T e => hS.firstNext (S.autoEvents_keepForms.rotate n) e) hS

theorem State.InForm.laterStep {s : State} (h : s.InForm) : (s.laterStep exec).InForm := by
  unfold State.laterStep
  extract_lets n S try_
  have hS : S.InForm := h.update ..
  have due : KeepForms ((List.range S.later.length).map try_) := .map _ fun k T hT => by
    unfold try_
    split
    · exact .fault _
    · exact runDue_inForm (hT.update ..) exec (fun i _ hU => exec_inForm hU i) _
  split
  next T e => exact hS.firstNext (due.rotate n) e
  · exact hS.autoStep

theorem State.InForm.inputStep {s : State} (h : s.InForm) : (s.inputStep exec).InForm := by
  unfold State.inputStep
  split
  · exact h.autoStep
  next i rest _ =>
    have done : Out.InForm (exec i { s with inputs := rest }) := exec_inForm (h.update ..) i
    split
    next S e => exact done.state e
    · exact h.update ..

/-! ### A step of the part -/

theorem State.InForm.tick {s : State} (h : s.InForm) : s.tick.InForm :=
  State.InForm.stopTraces (State.InForm.sampleTick (State.InForm.debtFall (h.update ..)))

theorem State.InForm.pickTurn {s : State} (h : s.InForm) : s.pickTurn.InForm := h.update ..

theorem State.InForm.resched {s : State} (h : s.InForm) (t : Turn) : (s.resched t).InForm := by
  simp only [State.resched]
  split
  · exact h.tick
  · exact h.tick.pickTurn

theorem State.InForm.keepTurn {s : State} (h : s.InForm) (t : Turn) : (s.keepTurn t).InForm := by
  unfold State.keepTurn
  extract_lets S
  have hS : S.InForm := State.InForm.tick (h.update ..)
  split
  · exact hS
  · exact hS.pickTurn

/-- The state with which a slot leaves the group, or its instruction issues, is in form. -/
def Slot.InForm : Slot → Prop
  | .none_ s | .issue _ _ s => s.InForm

theorem State.InForm.groupSlot {s : State} (h : s.InForm) (t g : Nat) : (s.groupSlot t g).InForm := by
  have later : (Slot.none_ { s with turn := .later }).InForm := h.update ..
  unfold State.groupSlot
  split
  · exact later
  extract_lets pend pc la l hits
  split
  · exact h.endRun ..
  split
  · exact later
  split
  · exact h.parkPend ..
  split
  · exact h.endRun ..
  split
  · exact later
  split
  · exact h.niropSlot ..
  split
  · exact h.breakTake ..
  split
  · exact h.seqRun ..
  split
  · exact (h.due _).update ..
  split
  · exact h
  · exact h.fetchFault ..

theorem groupStep_inForm {s : State} (h : s.InForm) (t g : Nat) : Out.InForm (groupStep t g s) := by
  unfold groupStep
  have slot := h.groupSlot t g
  split
  next S e => exact .next (State.InForm.resched (by rwa [e] at slot) _)
  next i pc S e =>
    rw [e] at slot
    have done := exec_inForm slot i
    split
    next T eT => exact .next (State.InForm.resched ((done.state eT).slotEnd _ _ _ _ _) _)
    · exact done

theorem streamStep_inForm {s : State} (h : s.InForm) (t : Nat) : Out.InForm (streamStep t s) := by
  unfold streamStep
  have done := exec_inForm h (.sequencerFetch t)
  split
  next S e => exact .next ((done.state e).resched _)
  · exact .next (h.autoStep.resched _)

/-- A step keeps the forms: of a message, of what has the turn, or of the outside world. -/
theorem step_inForm {s : State} (h : s.InForm) : Out.InForm (step s) := by
  unfold step
  split
  · exact .next (h.inputStep.resched _)
  split
  next m ms _ =>
    have done : Out.InForm (exec m { s with msgs := ms }) := exec_inForm (h.update ..) m
    split
    next S e => exact .next ((done.state e).keepTurn _)
    · exact .next (State.InForm.keepTurn (h.update ..) _)
  split
  · exact groupStep_inForm h ..
  · exact streamStep_inForm h _
  · exact .next (h.laterStep.resched _)
  · exact .next (h.inputStep.resched _)
  · exact .next (h.autoStep.resched _)

/-- Settles O60: each function of the model keeps the forms, from the operations of the state up to the step. -/
theorem everyStepKeepsForms : Obligations.EveryStepKeepsForms := by
  unfold Obligations.EveryStepKeepsForms
  intro s s' h e
  exact (step_inForm h).state e

end Sys2Proof.Machine

namespace Sys2Proof.Machine

/-! ## Scratchpad loads (R25, R123, R227) -/

section
variable {s : State} {i : Iss}

/-- Lanes that all perform, with no change of the state, perform together. -/
theorem memLanes_done {f : State → Nat → LaneMem × State} {v : Nat → Nat} (go : s.stopping i.t = false) (ls : List Nat)
    (h : ∀ l ∈ ls, f s l = (⟨l, .done (v l), none⟩, s)) : memLanes i f ls s = (ls.map fun l => ⟨l, .done (v l), none⟩, s) := by
  induction ls with
  | nil => rfl
  | cons l ls ih =>
    simp [memLanes, h l (by simp), go, ih fun k hk => h k (by simp [hk])]

theorem takeLaneTraps_done (s : State) (i : Iss) (v : Nat → Nat) (ls : List Nat) :
    takeLaneTraps s i (ls.map fun l => ⟨l, .done (v l), none⟩) = s := by
  refine forEach_none _ _ _ fun _ r hr => ?_
  obtain ⟨l, -, rfl⟩ := List.mem_map.1 hr
  rfl

theorem loadRegs_done (v : Nat → Nat) (ls : List Nat) (d n : Nat) (ext : Nat → Nat) :
    loadRegs (ls.map fun l => ⟨l, .done (v l), none⟩) d n ext =
      ls.flatMap fun l => (numbered d (toWords n (ext (v l)))).map fun w => (l, w.1, w.2) := by
  simp [loadRegs, List.flatMap_map]

/-- Every loaded value fills at least one register, so that only a load without a participant fills none. -/
theorem loadRegs_done_isEmpty (v : Nat → Nat) (ls : List Nat) (d : Nat) (ty : MTy) (ext : Nat → Nat) :
    (loadRegs (ls.map fun l => ⟨l, .done (v l), none⟩) d (mtyWords ty) ext).isEmpty = ls.isEmpty := by
  cases ls with
  | nil => rfl
  | cons l ls => cases ty <;> rfl

/-- Accesses below an identifier are no presence waits begun since. -/
theorem State.presenceAccs_eq_nil {t g n : Nat} (h : ∀ a ∈ s.accs, a.1 < n) : s.presenceAccs t g n = [] := by
  refine List.filterMap_eq_nil_iff.2 fun a ha => ?_
  have : ¬ n ≤ a.1 := Nat.not_le.2 (h a ha)
  split <;> simp [this]

/-- The end of a scratchpad load whose lanes have all performed: the results are on their way and the issue ends. -/
theorem scrFinish_done {n : Nat} (h : ∀ a ∈ s.accs, a.1 < n) (v : Nat → Nat) (ls parts : List Nat) (p : Option Pend) :
    scrFinish i n (ls.map fun l => ⟨l, .done (v l), none⟩) parts p s = i.finish (p.elim s s.addPend) [] false none := by
  have none_waits : (p.elim s s.addPend).presenceAccs i.t i.g n = [] := by
    cases p with
    | none => exact State.presenceAccs_eq_nil h
    | some p => exact State.presenceAccs_eq_nil (s := s.addPend p) h
  cases p <;> simp_all [scrFinish, takeLaneTraps_done]

/-- A lane whose pointer passes its checks, whose line is present and whose words carry no poison reads its bytes. -/
theorem State.scrLoad_done {l p n tag : Nat} {op : AOp} {dst : Dst} (ptr : s.ptrCheck i.t i.g p n [tag] none true = none)
    (line : s.present (s.scrTarget i.t p).1 (s.scrTarget i.t p).2 = true)
    (clean : (s.scrRead (s.scrTarget i.t p).1 (s.scrTarget i.t p).2 n).2 = false) :
    s.scrLoad i l p n tag op dst = (⟨l, .done (s.scrRead (s.scrTarget i.t p).1 (s.scrTarget i.t p).2 n).1, none⟩, s) := by
  simp [State.scrLoad, ptr, line, clean]

variable {x : Instr} {o : Ops} {m : MMod} {high tag : Nat}

/-- What a scratchpad load that issues does: it performs its lanes, then finishes. -/
theorem exec_scrLoad (hx : ScrLoad x o m high tag) (h : Issues s o (loadUses o m) i) :
    let r := memLanes i (fun s l => s.scrLoad i l (effAddr s i l high m.p (2 ^ m.sc.toNat)) (mtyBytes m.ty) tag (.load (mtySigned m.ty))
      (loadDst o (mtyWords m.ty))) i.parts s.reading
    let regs := if o.nw then [] else loadRegs r.1 o.d.toNat (mtyWords m.ty) ((AOp.load (mtySigned m.ty)).extend (mtyBytes m.ty))
    exec x s = .next (scrFinish i s.uid r.1 i.parts (if regs.isEmpty then none else some ⟨i.t, i.g, false, false, regs, []⟩) r.2) := by
  have run : exec x s = loadS o m high tag s := by cases hx <;> rfl
  rw [run, loadS]
  exact issue_eq h false _ (by simp)

/-- Where every lane reads its value, the load puts the values on their way, widened, and ends. -/
theorem exec_scrLoad_done (hx : ScrLoad x o m high tag) (h : Issues s o (loadUses o m) i) (uid : ∀ a ∈ s.accs, a.1 < s.uid)
    (go : s.stopping i.t = false) {v : Nat → Nat}
    (reads : ∀ l ∈ i.parts, s.reading.scrLoad i l (effAddr s.reading i l high m.p (2 ^ m.sc.toNat)) (mtyBytes m.ty) tag
      (.load (mtySigned m.ty)) (loadDst o (mtyWords m.ty)) = (⟨l, .done (v l), none⟩, s.reading)) :
    exec x s = .next (i.finish (if o.nw || i.parts.isEmpty then s.reading else s.reading.addPend ⟨i.t, i.g, false, false,
      i.parts.flatMap fun l => (numbered o.d.toNat (toWords (mtyWords m.ty) ((AOp.load (mtySigned m.ty)).extend (mtyBytes m.ty) (v l)))).map
        fun w => (l, w.1, w.2), []⟩) [] false none) := by
  rw [exec_scrLoad hx h, memLanes_done (s := s.reading) go _ reads, scrFinish_done (s := s.reading) uid]
  cases o.nw
  · simp only [Bool.false_eq_true, if_false, loadRegs_done_isEmpty, Bool.false_or]
    cases i.parts.isEmpty <;> simp [loadRegs_done]
  · simp

end

/-- Settles O16: the lanes perform together where nothing stops them, and the word is exactly its lanes' part and its end. -/
theorem scratchLoads : Obligations.ScratchLoads := by
  unfold Obligations.ScratchLoads
  refine ⟨fun x o m high tag hx s i h uid go sound => ?_, fun x o m high tag hx s i h => exec_scrLoad hx h⟩
  refine ⟨i.finish _ [] false none, exec_scrLoad_done hx h uid go fun l hl => ?_, (still_finish h _ ?_ false none).1⟩
  · obtain ⟨ptr, line, clean⟩ := sound l hl
    exact State.scrLoad_done ptr line clean
  · split <;> rfl

end Sys2Proof.Machine

namespace Sys2Proof.Machine

/-! ## A floating-point atomic on a scratchpad with an immediate operand (R10, R232)

R10: the part converts the 8-bit immediate of a floating-point word to the operand's type, and `AOp.operand` does so. The statement on
ATOMS and ATOMX takes the operand as an integer whatever the operation is, so ATOMS.ADD.F32 with the immediate 1 refutes it: the
word adds 1.0 to the scratchpad's word, where the statement has it add the binary32 value whose pattern is 1. -/

/-- One thread, running, with the address 4 in v2 and 4,096 B of scratchpad, all unwritten. -/
def atomsState : State := { State.reset with
  turn := .group 0 0
  teams := [(0, { groups := [(0, { threads := [(0, { v := [(2, 4)] })], run := some ⟨0, [0], 0, []⟩ })] })]
  launches := [(0, { lr := { scratch := 4096 } })] }

/-- ATOMS.ADD.F32 v0, [v2], 1. -/
def atomsAddOneOps : Ops := ⟨.w64, false, 7, false, false, 0, .imm 1, .v 2, .imm 0, 0⟩
def atomsAddOne : Instr := .atoms atomsAddOneOps false (.flt .f32 .add) .default
def atomsAddOneIss : Iss := ⟨0, 0, ⟨0, [0], 0, []⟩, atomsAddOneOps, [0]⟩

/-- The word is one that an assembler can write. -/
theorem atomsAddOne_wf : atomsAddOne.wf = true := by decide

theorem atomsAddOne_issues : Issues atomsState atomsAddOneOps (atomUses atomsAddOneOps 4 false false .default true) atomsAddOneIss where
  turn := rfl
  run := rfl
  ops := rfl
  parts := rfl
  flight := rfl
  range := by decide
  pending := rfl
  loads := .inl rfl
  latches := .inl rfl
  scalars := .inl rfl

/-- The scratchpad of team 0 in the state that an outcome leads to. -/
def Out.scratch : Out → Mem
  | .next s => (s.team 0).scratch
  | _ => []

theorem atomsAddOne_adds_one_point_zero : memRead (Out.scratch (exec atomsAddOne atomsState)) 4 4 = 0x3F800000 := by decide

/-- Refutes O17: the floating-point atomics convert an immediate operand to their type, which the statement does not. -/
theorem not_scratchWrites : ¬ Obligations.ScratchWrites := by
  unfold Obligations.ScratchWrites
  rintro ⟨-, atomics⟩
  obtain ⟨s', runs, still⟩ := atomics _ _ _ _ _ _ _ (.atoms atomsAddOneOps false (.flt .f32 .add) .default) atomsState atomsAddOneIss 0
    atomsAddOne_issues rfl (by decide) rfl (by decide) (by decide)
  have model : memRead (s'.team 0).scratch 4 4 = 0x3F800000 := by
    have := atomsAddOne_adds_one_point_zero
    rwa [atomsAddOne, runs] at this
  have stated : memRead (s'.team 0).scratch 4 4 = 1 := (congrArg (fun tm => memRead tm.scratch 4 4) (still.bodies 0)).trans (by decide)
  exact absurd (model.symm.trans stated) (by decide)

end Sys2Proof.Machine

namespace Sys2Proof.Machine

/-! ## Hopped accesses and replica stores (R36, R37, R82, R84, R86) -/

/-- A replica's line once a store to it has committed (R37). -/
def ReplLine.committed (r : ReplLine) (acc : Nat) (a : Access) : ReplLine := { r with
  data := lineWrite r.data (a.pa % 128) a.n a.data
  pending := r.pending.filter (· ≠ acc)
  poison := if a.whole then r.poison &&& ~~~ BitVec.ofNat 2 (2 ^ (a.pa % 128 / 64)) else r.poison }

/-- What a commit at a die leaves: the line, the commits that the store still waits for, and the requests that waited for the line. -/
def State.commitAt (s : State) (die acc : Nat) (a : Access) (r : ReplLine) : State :=
  let s := s.replPut a.pline die r
  State.homeWake { s with accs := amapInsert s.accs acc { a with snoops := a.snoops.filter (· ≠ die) } } a.pline

section
variable {s : State} {acc : Nat} {a : Access}

/-- A replica reads back as it was put, but for when it was last used. -/
@[simp] theorem State.replPut_same (s : State) (line die key : Nat) (r : ReplLine) :
    (s.replPut line die r).replLine line die key = { r with used := (s.replPut line die r).cclk } := by
  simp only [State.replPut, State.replLine, amapFind?_insert_same]

/-- A plain access reads its word where it lives, writes what it updates, and is answered by HOPR. -/
theorem State.serve_plain {get : State → Nat × Bool × State} {put : State → Nat → State} (ord : a.op.ord = .none)
    (clean : (get s).2.1 = false) : s.serve acc a false get put =
      (((match a.op.update a.n (get s).1 a.data a.cmp with
        | none => (get s).2.2
        | some x => put (get s).2.2 x).accValue acc a (get s).1).send (.hopr acc)) := by
  have seen : a.seen false = a := by simp [Access.seen]
  simp only [State.serve, clean, seen, ord, Bool.false_and, Bool.false_eq_true, if_false, Access.perform] <;> rfl

variable (found : amapFind? s.accs acc = some a)
include found

theorem hop_home (cls : a.cls = .home ∨ a.cls = .priv ∨ a.cls = .ro) : exec (.hop acc) s =
    .next (s.serve acc a false (fun s => s.homeRead a.pa a.n a.key) fun s x => (s.homeWrite a.pa a.n a.key x).unitStored a) := by
  rcases cls with cls | cls | cls <;> simp [execHop, found, cls]

section
variable (cls : a.cls = .repl)
include cls

theorem hop_repl_waits (busy : (s.replLine a.pline (coreDie a.core) a.key).pending ≠ []) :
    exec (.hop acc) s = .next { s with homeWait := s.homeWait ++ [(a.pline, .hop acc)] } := by
  simp [execHop, found, cls, busy, State.again]

variable (free : (s.replLine a.pline (coreDie a.core) a.key).pending = [])
include free

theorem hop_repl_reads (clean : (s.replLine a.pline (coreDie a.core) a.key).poison.getLsbD (a.pa % 128 / 64) = false) :
    exec (.hop acc) s = .next (((s.replPut a.pline (coreDie a.core) (s.replLine a.pline (coreDie a.core) a.key)).accValue acc a
      (lineRead (s.replLine a.pline (coreDie a.core) a.key).data (a.pa % 128) a.n)).send (.hopr acc)) := by
  simp [execHop, found, cls, free, clean]

theorem hop_repl_poisoned (bad : (s.replLine a.pline (coreDie a.core) a.key).poison.getLsbD (a.pa % 128 / 64) = true) (dst : a.dst ≠ .none) :
    exec (.hop acc) s = .next ((s.replPut a.pline (coreDie a.core) (s.replLine a.pline (coreDie a.core) a.key)).failAcc acc a
      (poisonTrap a.va a.pa)) := by
  simp [execHop, found, cls, free, bad, dst]
end

section
variable {S : State} (cls : a.cls = .tracked) (idle : s.lineBusy a.pline = false) (fetched : s.l2Fetch a.pline a.key = S)
include cls idle fetched

theorem hop_tracked_misses (shared : S.demoted a.pline = false) (plain : a.op.isAtom = false) :
    exec (.hop acc) s = .next (S.startFill acc a) := by
  simp [execHop, found, cls, idle, fetched, shared, plain]

variable (demoted : S.demoted a.pline = true)
include demoted

theorem hop_tracked_races (race : S.raceAt a.pline a.core (byteMask (a.pa % 128) a.n) a.op.writes = true) :
    exec (.hop acc) s = .next (S.failAcc acc a { cause := .race, addr := a.va }) := by
  simp [execHop, found, cls, idle, fetched, demoted, race]

theorem hop_tracked_served (free : S.raceAt a.pline a.core (byteMask (a.pa % 128) a.n) a.op.writes = false) {v : Nat}
    (done : (S.atHome a).1 = .done v) : exec (.hop acc) s = .next ((((S.atHome a).2.maskPut a.pline a.core none
      (some (if a.op.writes then ⟨(S.core a.core).epoch, 0, byteMask (a.pa % 128) a.n⟩
        else ⟨(S.core a.core).epoch, byteMask (a.pa % 128) a.n, 0⟩))).accValue acc a v).send (.hopr acc)) := by
  simp [execHop, found, cls, idle, fetched, demoted, free, done]
end

theorem hopr_completes {v : Nat} (value : a.value = some v) : exec (.hopr acc) s = .next ((s.syncDone a).finishAcc acc a v) := by
  simp [execHopr, found, value]

theorem rstore_forwards : ∃ S : State, exec (.rstore acc) s = .next S ∧ Instr.rfwd 0 acc ∈ S.msgs ∧ Instr.rfwd 1 acc ∈ S.msgs :=
  ⟨_, by rw [exec_rstore, execRstore, found], by simp [State.send], by simp [State.send]⟩

theorem rfwd_marks (die : Nat) :
    ∃ S : State, exec (.rfwd die acc) s = .next (S.send (.rpack die acc)) ∧ acc ∈ (S.replLine a.pline die a.key).pending :=
  ⟨_, by rw [exec_rfwd, execRfwd, found], by simp⟩

theorem rpack_commits {die : Nat} (last : a.snoops = [die]) :
    ∃ S : State, exec (.rpack die acc) s = .next S ∧ Instr.rcommit 0 acc ∈ S.msgs ∧ Instr.rcommit 1 acc ∈ S.msgs := by
  have none_left : a.snoops.filter (· ≠ die) = [] := by simp [last]
  exact ⟨_, by rw [exec_rpack, execRpack, found]; exact if_pos (by rw [none_left]; rfl), by simp [State.send], by simp [State.send]⟩

/-- A commit puts the new line in its die, and is the store's end once the other die has committed. -/
theorem rcommit_commits (die : Nat) : exec (.rcommit die acc) s = .next
    (let S := (if a.snoops.length = 2 then (s.rowWrite a.pa a.n a.key a.data).unitStored a else s).commitAt die acc a
      ((s.replLine a.pline die a.key).committed acc a)
    if (a.snoops.filter (· ≠ die)).isEmpty then S.finishAcc acc a 0 else S) := by
  simp only [exec_rcommit, execRcommit, found]
  split <;> rfl

end

/-- Settles O40: each message's meaning, case by case, from the lemmas above. -/
theorem hopsAndReplicas : Obligations.HopsAndReplicas := by
  unfold Obligations.HopsAndReplicas
  refine ⟨fun s acc a found cls => hop_home found cls, fun s acc a found cls ord _ => ?_, fun s acc a found cls => ?_,
    fun s acc a found cls idle => ?_, fun s acc a v found value => hopr_completes found value, fun s acc a found => rstore_forwards found,
    fun s die acc a found => rfwd_marks found die, fun s die acc a found last => rpack_commits found last,
    fun s die acc a found => ⟨fun last => ?_, fun both low => ?_⟩⟩
  · intro r clean
    exact (hop_home found (.inl cls)).trans (congrArg _ (State.serve_plain ord clean))
  · exact ⟨hop_repl_waits found cls, hop_repl_reads found cls, hop_repl_poisoned found cls⟩
  · exact ⟨hop_tracked_misses found cls idle rfl, hop_tracked_races found cls idle rfl,
      fun demoted free v => hop_tracked_served found cls idle rfl demoted free⟩
  · have none_left : (a.snoops.filter (· ≠ die)).isEmpty = true := by simp [last]
    have second : ¬ a.snoops.length = 2 := by simp [last]
    rw [rcommit_commits found, if_pos none_left, if_neg second]
    rfl
  · have other_left : ¬ (a.snoops.filter (· ≠ die)).isEmpty = true := by
      obtain rfl | rfl : die = 0 ∨ die = 1 := by omega
      · simp [both]
      · simp [both]
    have first : a.snoops.length = 2 := by simp [both]
    rw [rcommit_commits found, if_neg other_left, if_pos first]
    rfl

end Sys2Proof.Machine

namespace Sys2Proof.Machine

/-! ## Surfaces, frames and the press (R45 to R52) -/

/-! ### Allocation and release (Table 03-4) -/

/-- An entry of the surface table that is inactive and holds no frame. -/
def Ste.vacant (e : Ste) : Prop := e.state = .inactive ∧ e.frames = []

section
variable {s : State} {ix : Nat}

/-- A new reserve changes marks of frames only, so an entry without frames stays as it is. -/
theorem State.setReserve_vacant (vacant : (s.ste ix).vacant) (ri stack f : Nat) : ((s.setReserve ri stack f).ste ix).vacant := by
  have listed : (s.setReserve ri stack f).ste ix = ((amapFind? s.stes ix).map fun e => if e.regionIx ≠ ri then e else
      { e with frames := amapMap (fun k x => if k % 2 = stack then { x with refill := false } else x) e.frames }).getD {} := by
    simp only [State.ste, State.setReserve, amapGet_eq_find, amapFind?_map]
  rw [State.ste, amapGet_eq_find] at vacant
  rw [listed]
  cases h : amapFind? s.stes ix with
  | none => exact ⟨rfl, rfl⟩
  | some e =>
    rw [h] at vacant
    obtain ⟨state, frames⟩ : e.state = .inactive ∧ e.frames = [] := vacant
    simp only [Option.map_some, Option.getD_some]
    split
    · exact ⟨state, frames⟩
    · exact ⟨state, by simp [frames, amapMap]⟩

@[simp] theorem State.pickFrame_ste (s : State) (l : List Nat) (ix : Nat) : (s.pickFrame l).2.ste ix = s.ste ix := by
  unfold State.pickFrame
  split <;> rfl

theorem State.takeReserve_vacant (vacant : (s.ste ix).vacant) (ri stack : Nat) : ((s.takeReserve ri stack).ste ix).vacant := by
  have picked : ((s.pickFrame (s.framesFree ri stack)).2.ste ix).vacant := by rwa [State.pickFrame_ste]
  unfold State.takeReserve
  split
  · exact vacant
  split
  next e =>
    rw [e] at picked
    exact State.setReserve_vacant picked ..
  next e =>
    rw [e] at picked
    exact picked

theorem surfaceReleaseComplete_frees (releasing : (s.ste ix).state = .releasing) (done : s.steBusy ix = false) :
    ∃ S : State, exec (.surfaceReleaseComplete ix) s = .next (S.steEnded ix) ∧ (S.ste ix).vacant := by
  refine ⟨_, if_neg (by simp [releasing, done]), ?_⟩
  have freed : ((s.updSte ix fun e => { e with state := .inactive, frames := [] }).ste ix).vacant := by simp [Ste.vacant]
  split
  · exact State.takeReserve_vacant (State.takeReserve_vacant freed ..) ..
  · exact State.takeReserve_vacant freed ..

section
variable (allocating : (s.ste ix).state = .allocating) (steady : s.ratioTo = none)
include allocating steady

theorem surfaceAllocate_places (room : ∀ k < 2, (s.ste ix).framesNeeded ((s.region (s.ste ix).regionIx).stack % 2) k ≤
      (s.framesFree (s.ste ix).regionIx k).length) :
    let need (k : Nat) := (s.ste ix).framesNeeded ((s.region (s.ste ix).regionIx).stack % 2) k
    exec (.surfaceAllocate ix) s = .next ((((s.placeFrames ix 0 (need 0)).placeFrames ix 1 (need 1)).updSte ix fun e =>
      { e with state := .active }).steEnded ix) := by
  have fits (k : Nat) (hk : k < 2) := decide_eq_false (Nat.not_lt.2 (room k hk))
  simp [execSurfaceAllocate, allocating, steady, fits 0, fits 1]

/-- No frame is free on a stack and none will come free. -/
theorem surfaceAllocate_noSpace {k : Nat} (hk : k < 2) (short : (s.framesFree (s.ste ix).regionIx k).length <
      (s.ste ix).framesNeeded ((s.region (s.ste ix).regionIx).stack % 2) k)
    (stuck : s.evictable (s.ste ix).regionIx k = []) (still : s.spilling (s.ste ix).regionIx k false = 0) :
    exec (.surfaceAllocate ix) s = .next ((s.updSte ix fun e => { e with state := .noSpace }).steEnded ix) := by
  obtain rfl | rfl : k = 0 ∨ k = 1 := by omega
  · simp [execSurfaceAllocate, allocating, steady, short, stuck, still]
  · simp [execSurfaceAllocate, allocating, steady, short, stuck, still]

end

end

/-! ### Spills and fills (Table 03-5, R50 to R52) -/

section
variable {s : State} {region stack ix k : Nat} {f : Frame}

/-- A frame begins to spill: the press asks for its words. -/
def State.spillBegun (s : State) (ix k : Nat) (f : Frame) (firm : Bool) : State :=
  let S := (s.updSte ix fun e => e.setFrame k { f with state := .spilling firm, comp := e.compress }).pressAsk ix k f true
  { S with later := S.later ++ [.spillComplete ix k] }

theorem pressSpillStart_firm (pick : s.pressPick (s.pressCands region stack true) = some (ix, k, f))
    (empty : amapFind? s.reserve (2 * region + stack) = none) (none_spills : s.spilling region stack true = 0) :
    exec (.pressSpillStart region stack true) s = .next (s.spillBegun ix k f true) := by
  simp [execPressSpillStart, pick, empty, none_spills, State.spillBegun]

theorem pressSpillStart_allocation (pick : s.pressPick (s.evictable region stack) = some (ix, k, f))
    (wanted : ∃ kv ∈ s.stes, kv.2.state = .allocating ∧ kv.2.regionIx = region ∧ (s.framesFree region stack).length +
      s.spilling region stack false < kv.2.framesNeeded ((s.region region).stack % 2) stack) :
    exec (.pressSpillStart region stack false) s = .next (s.spillBegun ix k f false) := by
  have cands : s.pressCands region stack false = s.evictable region stack := rfl
  have want : (s.stes.any fun kv => kv.2.state == .allocating && kv.2.regionIx == region && decide ((s.framesFree region stack).length +
      s.spilling region stack false < kv.2.framesNeeded ((s.region region).stack % 2) stack)) = true := by
    obtain ⟨kv, listed, allocating, here, few⟩ := wanted
    exact List.any_eq_true.2 ⟨kv, listed, by simp [allocating, here, few]⟩
  simp only [exec_pressSpillStart, execPressSpillStart, cands, pick, want]
  rfl

/-- The press takes a frame whose refill took the reserve for a firm spill only where it has no other (R51). -/
theorem refill_of_mem_pressCands {x : Nat × Nat × Frame} (chosen : x ∈ s.pressCands region stack true) (refill : x.2.2.refill = true) :
    ∀ y ∈ s.evictable region stack, y.2.2.refill = true := by
  intro y hy
  by_contra other
  have others : y ∈ (s.evictable region stack).filter fun x => !x.2.2.refill := List.mem_filter.2 ⟨hy, by simpa using other⟩
  have choice : s.pressCands region stack true = (s.evictable region stack).filter fun x => !x.2.2.refill :=
    if_pos (by simpa only [Bool.true_and, Bool.not_eq_true', List.isEmpty_eq_false_iff] using List.ne_nil_of_mem others)
  rw [choice] at chosen
  simpa [refill] using (List.mem_filter.1 chosen).2

section
variable (found : amapFind? (s.ste ix).frames k = some f) (idle : s.pressBusy ix k = false)
include found idle

section
variable {firm : Bool} (spilling : f.state = .spilling firm) {S : State}
include spilling

theorem spillComplete_waits (wait : s.spillFrame ix k f = (.wait, S)) :
    exec (.spillComplete ix k) s = .next { S with later := S.later ++ [.spillComplete ix k] } := by
  simp [execSpillComplete, found, spilling, idle, wait]

theorem spillComplete_abandons (failed : s.spillFrame ix k f = (.failed, S)) : exec (.spillComplete ix k) s =
    .next (((S.pressDone ix k).updSte ix fun e => e.setFrame k { f with state := .resident, barred := true }).surfWake) := by
  simp [execSpillComplete, found, spilling, idle, failed]

/-- A frame's image is in its backing range; of a compressed one, the bytes it stands for are kept with it (R50). -/
theorem spillComplete_spills (done : s.spillFrame ix k f = (.done, S)) : exec (.spillComplete ix k) s = .next (
    let saved := (s.tileBytesAt (s.region (s.ste ix).regionIx) (f.region * 16384) 16384).1
    let T := (S.pressDone ix k).updSte ix fun e => e.setFrame k { f with state := .spilled, saved := if f.comp then saved else [] }
    let U : State := { T with resps := T.resps.filter (·.2 ≠ pressResp) }
    (if firm then U.setReserve (s.ste ix).regionIx (k % 2) f.region else U).surfWake) := by
  simp only [exec_spillComplete, execSpillComplete, found, spilling, idle, done]
  rfl
end

section
variable (filling : f.state = .filling) {S : State}
include filling

theorem fillComplete_waits (wait : s.fillFrame ix k f = (false, S)) :
    exec (.fillComplete ix k) s = .next { S with later := S.later ++ [.fillComplete ix k] } := by
  simp [execFillComplete, found, filling, idle, wait]

theorem fillComplete_fills (done : s.fillFrame ix k f = (true, S)) : exec (.fillComplete ix k) s =
    .next (((S.pressDone ix k).updSte ix fun e => e.setFrame k { f with state := .resident, saved := [] }).surfWake) := by
  simp [execFillComplete, found, filling, idle, done]
end

end

end

/-! ## Bank grants and debugger reads (R53 to R56) -/

section
variable {s : State} {stack column bank : Nat} {x : BankReq} (pick : s.bankPick (2048 * stack + 32 * column + bank) = some x)
include pick

theorem bankGrant_serves (awake : s.domain (bankDomain (2048 * stack + 32 * column + bank)) ≠ .retention) :
    exec (.bankGrant stack column bank) s = .next ({ s with bankReqs := s.bankReqs.erase x }.grantDo x) := by
  simp [execBankGrant, pick, awake]

/-- The wake of a bank's domain is queued, where it is not yet, before the grant is tried again (R55). -/
theorem bankGrant_wakes (asleep : s.domain (bankDomain (2048 * stack + 32 * column + bank)) = .retention) :
    let d := bankDomain (2048 * stack + 32 * column + bank)
    let w : Due := .domainWake (d / 16) (d % 16)
    exec (.bankGrant stack column bank) s = .next { s with later := s.later ++
      ((if s.later.contains w then [] else [w]) ++ [.bankGrant stack column bank]) } := by
  simp [execBankGrant, pick, asleep]

end

theorem State.grantDo_acc {s T : State} {x : BankReq} {id bk byte addr : Nat} {a : Access} (job : x.job = .acc id)
    (found : amapFind? s.accs id = some a) (here : bk = x.bank)
    (reach : State.reach { s with bankLast := amapInsert s.bankLast x.bank x.cls } (surfIx a.va) (surfOff a.va) true a.va =
      (.go bk byte addr, T)) :
    let y := a.seen (T.bankRead (T.ste (surfIx a.va)) (surfOff a.va) bk byte a.n).2
    s.grantDo x = ((T.bankDo y bk byte addr).2.settle id y (T.bankDo y bk byte addr).1).respond (bankColumn x.bank) y id T.uid := by
  simp [State.grantDo, State.grantAcc, job, found, reach, here]

section
variable {s : State} {addr : Nat} (steady : s.ratioTo = none)
include steady

theorem debugSurfaceRead_region {r : Nat} (hit : (List.range 16).find? (fun r => (s.region r).ok &&
      decide ((s.region r).base * 2 ^ 20 ≤ addr) && decide (addr + 4 ≤ (s.region r).base * 2 ^ 20 + (s.region r).size)) = some r) :
    exec (.debugSurfaceRead none addr) s = .next (s.dbgBank
      ((List.range 4).map fun k => (s.region r).place (addr + k - (s.region r).base * 2 ^ 20)) none) := by
  simp only [exec_debugSurfaceRead, execDebugSurfaceRead, steady, hit]
  rfl

variable {ix : Nat}

theorem debugSurfaceRead_allocating (state : (s.ste ix).state = .allocating) : exec (.debugSurfaceRead (some ix) addr) s =
    .next { s with later := s.later ++ [.debugSurfaceRead (some ix) addr] } := by
  simp [execDebugSurfaceRead, steady, state]

theorem debugSurfaceRead_active {T : State} (state : (s.ste ix).state = .active) (inside : addr + 4 ≤ (s.ste ix).viewBytes)
    (frames : s.dbgFrames ix addr = (true, T)) : exec (.debugSurfaceRead (some ix) addr) s =
    .next (T.dbgBank ((List.range 4).map fun k => T.viewPlace ix (addr + k)) (some (T.ste ix, addr))) := by
  simp [execDebugSurfaceRead, steady, state, inside, frames]

end

/-- Settles O44: each event's meaning, case by case, from the lemmas above. -/
theorem surfaceEvents : Obligations.SurfaceEvents := by
  unfold Obligations.SurfaceEvents
  refine ⟨fun s ix allocating steady => surfaceAllocate_places allocating steady,
    fun s ix allocating steady => ?_, fun s ix => surfaceReleaseComplete_frees,
    fun s region stack ix k f => ⟨pressSpillStart_firm, pressSpillStart_allocation⟩, fun s region stack x => refill_of_mem_pressCands,
    fun s ix k f firm S found spilling idle => ⟨spillComplete_waits found idle spilling, spillComplete_abandons found idle spilling,
      spillComplete_spills found idle spilling⟩,
    fun s ix k f S found filling idle => ⟨fillComplete_waits found idle filling, fillComplete_fills found idle filling⟩, fun s => rfl,
    fun s stack column bank x pick => ⟨bankGrant_serves pick, fun asleep => ⟨_, bankGrant_wakes pick asleep, by simp⟩, ?_⟩,
    fun s addr r steady => debugSurfaceRead_region steady, fun s ix addr steady => debugSurfaceRead_allocating steady,
    fun s ix addr T steady => debugSurfaceRead_active steady⟩
  · rintro ri ⟨k, hk, short, stuck, still⟩
    exact surfaceAllocate_noSpace allocating steady hk short stuck still
  · intro id a bk byte addr T awake job found bank_b bk_b S reach y
    have bk_x : bk = x.bank := bk_b.trans bank_b.symm
    have served := bankGrant_serves pick awake
    rw [State.grantDo_acc (s := { s with bankReqs := s.bankReqs.erase x }) job found bk_x (by rw [bank_b]; exact reach), bank_b] at served
    exact served

end Sys2Proof.Machine

namespace Sys2Proof.Machine

/-! ## Power domains (R55) -/

section
variable {s : State} {die k : Nat}

theorem domainRetentionEnter_idle (on : s.domain (16 * die + k) = .on) (idle : ∀ x ∈ s.bankReqs, bankDomain x.bank ≠ 16 * die + k) :
    exec (.domainRetentionEnter die k) s = .next (s.setDomain (16 * die + k) .retention) := by
  have quiet : s.bankReqs.any (fun x => bankDomain x.bank = 16 * die + k) = false := by simpa using idle
  simp [execDomainRetentionEnter, on, quiet]

theorem domainWake_retained (asleep : s.domain (16 * die + k) = .retention) :
    exec (.domainWake die k) s = .next (s.setDomain (16 * die + k) .on).surfWake := by
  simp [execDomainWake, asleep]

/-- A domain goes OFF when that is forced, or when no frame of a surface lies in it. -/
theorem domainOff_loses {forced : Bool} (up : s.domain (16 * die + k) ≠ .off)
    (may : forced = true ∨ s.domainHeld (16 * die + k) = false) :
    exec (.domainOff die k forced) s = .next ((s.domainLose (16 * die + k)).setDomain (16 * die + k) .off).surfWake := by
  rcases may with may | may
  · simp [execDomainOff, up, may]
  · simp [execDomainOff, up, may]

theorem domainOn_empty (off : s.domain (16 * die + k) = .off) :
    exec (.domainOn die k) s = .next ((s.domainLose (16 * die + k)).setDomain (16 * die + k) .on).surfWake := by
  simp [execDomainOn, off]

/-- An overcurrent forces the domain OFF once it is logged. -/
theorem ivrOvercurrent_off (up : s.domain (16 * die + k) ≠ .off) :
    let S := s.logEvent 11 (16 * die + k) []
    exec (.ivrOvercurrent die k) s = .next ((S.domainLose (16 * die + k)).setDomain (16 * die + k) .off).surfWake :=
  domainOff_loses (s := s.logEvent 11 (16 * die + k) []) up (.inl rfl)

end

/-! ## Booked rows: refresh, the W path and the patrol (R60, R62, R69, R70) -/

section
variable {s : State} {sp key : Nat} {r : Row} (row : s.row? sp key = some r)
include row

theorem rowRefreshClose_open (opened : r.state = .open_) :
    let busy := s.wBusy sp key
    exec (.rowRefreshClose sp key) s = .next (s.setRow sp key { r with
      state := .refresh, counted := busy, susp := if busy then r.susp + 1 else r.susp }) := by
  simp [execRowRefreshClose, row, opened]

theorem rowRefreshReopen_closed (closed : r.state = .refresh) :
    exec (.rowRefreshReopen sp key) s = .next (s.setRow sp key { r with state := .open_, counted := false }) := by
  simp [execRowRefreshReopen, row, closed]

end

/-- An access of the W path completes once none of its rows is closed for refresh. -/
theorem wPathAccessComplete_frees {s : State} {acc : Nat} {a : Access} (found : amapFind? s.accs acc = some a) (tag : a.va / 2 ^ 60 = 4)
    (opened : ∀ k ∈ a.snoops, ∀ r, s.row? a.space k = some r → r.state ≠ .refresh) :
    let S := ({ s with accs := amapErase s.accs acc } : State).updCore a.core fun k => { k with wpath := k.wpath.filter (· ≠ acc) }
    exec (.wPathAccessComplete acc) s = .next (if a.cmp = 0 then S else { S with later := S.later ++ [.ins (.loadResultLand a.cmp)] }) := by
  simp only [exec_wPathAccessComplete, execWPathAccessComplete, found]
  refine if_neg ?_
  simp only [tag, ne_eq, not_true_eq_false, decide_false, Bool.false_or, List.any_eq_true, not_exists, not_and]
  intro k hk
  cases row : s.row? a.space k with
  | none => simp
  | some r => simpa using opened k hk r row

/-! ### The patrol -/

/-- Entries of the event log leave memory and its poison alone. -/
theorem forEach_logEvent_dram {α : Type} (l : List α) (s : State) (code src : Nat) (data : α → List Nat) :
    (forEach l s fun S x => S.logEvent code src (data x)).dram = s.dram ∧
    (forEach l s fun S x => S.logEvent code src (data x)).dramPoison = s.dramPoison := by
  induction l generalizing s with
  | nil => exact ⟨rfl, rfl⟩
  | cons x l ih => exact ih (s.logEvent code src (data x))

/-- Poisoning a list of units adds them to those poisoned, and changes neither bytes nor the controller. -/
theorem forEach_setPoison (l : List Nat) (s : State) :
    (∀ u, u ∈ (forEach l s fun S u => S.setPoison u true).dramPoison ↔ u ∈ s.dramPoison ∨ u ∈ l) ∧
    (forEach l s fun S u => S.setPoison u true).dram = s.dram ∧ (forEach l s fun S u => S.setPoison u true).mgmt = s.mgmt := by
  induction l generalizing s with
  | nil => exact ⟨fun u => by simp [forEach], rfl, rfl⟩
  | cons x l ih =>
    obtain ⟨poison, dram, mgmt⟩ := ih (s.setPoison x true)
    refine ⟨fun u => (poison u).trans ?_, dram, mgmt⟩
    by_cases h : u = x
    · simp [State.setPoison, h]
    · simp [State.setPoison, h]

/-- An address lies in a row of a bank. -/
def inDramRow (c b r pa : Nat) : Bool := (dramPlace pa).1 == c && (dramPlace pa).2.1 == b && (dramPlace pa).2.2.1 == r

theorem inDramRow_iff {c b r pa : Nat} : inDramRow c b r pa = true ↔ ∃ x, dramPlace pa = (c, b, r, x) := by
  simp [inDramRow, Prod.ext_iff, and_assoc]

/-- A patrol may visit a row where no booking lies, or one that is closed for refresh, and poisons units of that row only. -/
theorem memoryPatrol_row {s : State} {c b r : Nat} {cor unc : List Nat}
    (free : ∀ kv ∈ s.rows, kv.2.live = false ∨ kv.2.state = .refresh ∨
      ¬ ∃ x, dramPlace (kv.2.granule * 2048) = (c, b, r, x)) (here : ∀ u ∈ unc, ∃ x, dramPlace (64 * u) = (c, b, r, x)) :
    exec (.memoryPatrol c b r cor unc) s =
      .next (forEach unc (forEach cor s fun S u => S.logEvent 12 c [u]) fun S u => S.setPoison u true) := by
  have unbooked : s.rows.any (fun kv => inDramRow c b r (kv.2.granule * 2048) && kv.2.live && kv.2.state != .refresh) = false := by
    refine List.any_eq_false.2 fun kv hkv => ?_
    rcases free kv hkv with h | h | h
    · simp [h]
    · simp [h]
    · simp [mt inDramRow_iff.1 h]
  have inside : unc.all (fun u => inDramRow c b r (64 * u)) = true := List.all_eq_true.2 fun u hu => inDramRow_iff.2 (here u hu)
  exact if_neg (Bool.eq_false_iff.1 (Bool.or_eq_false_iff.2 ⟨unbooked, congrArg not inside⟩))

/-- Settles O46: each event's meaning, case by case, from the lemmas above. -/
theorem domainsAndRows : Obligations.DomainsAndRows := by
  unfold Obligations.DomainsAndRows
  refine ⟨fun s die k => domainRetentionEnter_idle, fun s die k => domainWake_retained, fun s die k forced => domainOff_loses,
    fun s die k => domainOn_empty, fun s die k => ivrOvercurrent_off, fun s sp k r row => rowRefreshClose_open row,
    fun s sp k r row => rowRefreshReopen_closed row, fun s c b r cor unc free here => ⟨_, memoryPatrol_row free here, ?_⟩,
    fun s c b hc hb => ?_, fun s acc a found tag opened => ⟨_, wPathAccessComplete_frees found tag opened, ?_, rfl, ?_⟩⟩
  · obtain ⟨dram, poisoned⟩ := forEach_logEvent_dram cor s 12 c fun u => [u]
    obtain ⟨poison, kept, mgmt⟩ := forEach_setPoison unc (forEach cor s fun S u => S.logEvent 12 c [u])
    exact ⟨fun u => poisoned ▸ poison u, kept.trans dram, mgmt⟩
  · exact if_neg (by simp; omega)
  · simp
  · exact ⟨fun _ _ _ _ => rfl, fun _ _ _ _ => rfl, fun _ _ _ => rfl, fun _ _ _ => rfl⟩

end Sys2Proof.Machine

namespace Sys2Proof.Machine

/-! ## Writes of device registers (R42, R48, R90, R298, R347, R360, R367, R391, R395, R396, R405) -/

/-- A surface lies in an interleave region, or is being placed in it or released (R42). -/
def State.regionHeld (s : State) (n : Nat) : Bool :=
  s.stes.any fun kv => kv.2.regionIx == n && (kv.2.state == .allocating || kv.2.state == .active || kv.2.state == .releasing)

section
variable {s : State}

section
variable (ready : s.boot.ready = true)
include ready

/-- A write that DEVREADY lets through, and that a live use may make the register ignore. -/
theorem ready_write {closed : Out} {ignored : Prop} [Decidable ignored] {S T : State} :
    (if !s.boot.ready then closed else if ignored then .next S else .next T : Out) = .next (if ignored then S else T) := by
  rw [if_neg (by simp [ready]), apply_ite Host.Outcome.next]

/-! ### Regions of the surface die and queues -/

section
variable {n : Nat}

theorem intlvWrite_held (v : DWord) (held : s.regionHeld n = true) :
    exec (.intlvWrite n v) s = .next { s with intlvSt := amapInsert s.intlvSt n 2 } := by
  rw [exec_intlvWrite, execIntlvWrite, if_neg (by simp [ready])]
  exact if_pos held

/-- INTLVn keeps the fields of Table 03-1 that a write sets; the others are read-only. -/
theorem intlvWrite_stores (v : DWord) (free : s.regionHeld n = false) :
    let x : DWord := BitVec.ofNat 64 (bitField 63 36 v.toNat * 2 ^ 36 + v.toNat % 2 ^ 12)
    exec (.intlvWrite n v) s = .next (({ s with
      intlv := amapInsert s.intlv n x
      intlvSt := amapInsert s.intlvSt n (if (regionOf x).bad then 1 else 0) } : State).initReserve n) := by
  rw [exec_intlvWrite, execIntlvWrite, if_neg (by simp [ready])]
  exact if_neg (Bool.eq_false_iff.1 free)

theorem qcfgWrite_reserved {v : DWord} (cls : bitField 62 61 v.toNat = 3) : exec (.qcfgWrite n v) s = .next s := by
  simp [execQcfgWrite, ready, cls]

/-- The weight that a write of QCFG sets: 0 stands for 1. -/
def qcfgWeight (v : DWord) : Nat := if bitField 47 40 v.toNat = 0 then 1 else bitField 47 40 v.toNat

/-- Only the weight of a queue that holds launches changes. -/
theorem qcfgWrite_filled {v : DWord} (cls : bitField 62 61 v.toNat ≠ 3) (filled : (s.queue n).items ≠ []) :
    ∃ S, exec (.qcfgWrite n v) s = .next S ∧ S.queue n = { s.queue n with weight := qcfgWeight v } :=
  ⟨_, by rw [exec_qcfgWrite, execQcfgWrite, if_neg (by simp [ready])]; exact if_neg cls, by simp [filled, qcfgWeight]⟩

theorem qcfgWrite_empty {v : DWord} (cls : bitField 62 61 v.toNat ≠ 3) (empty : (s.queue n).items = []) :
    ∃ S, exec (.qcfgWrite n v) s = .next S ∧ S.queue n = { s.queue n with
      en := v.getLsbD 63, cls := bitField 62 61 v.toNat, die := bitField 60 60 v.toNat, space := bitField 59 48 v.toNat
      weight := qcfgWeight v } :=
  ⟨_, by rw [exec_qcfgWrite, execQcfgWrite, if_neg (by simp [ready])]; exact if_neg cls, by simp [empty, qcfgWeight]⟩
end

/-! ### Spaces -/

section
variable (sp : Nat) (v : DWord)

/-- The window of surface-table entries is given whether or not the write of the root is ignored (R48). -/
theorem sprootWrite_root (win : Option Nat) : exec (.sprootWrite sp ⟨v, win⟩) s =
    .next (let S := win.elim s fun w => s.updSpace sp fun x => { x with steWin := w % 16 }
      if s.leases.any (fun kv => kv.2.space == sp && kv.2.granted && !kv.2.dying) then S
      else S.updSpace sp fun x => { x with root := BitVec.ofNat 64 (bitField 63 63 v.toNat * 2 ^ 63 + bitField 51 12 v.toNat * 2 ^ 12) }) := by
  cases win with
  | none => exact exec_sprootWrite.trans (ready_write ready)
  | some w => exact exec_sprootWrite.trans (ready_write ready)

theorem spwingWrite_wing : exec (.spwingWrite sp v) s = .next (if s.spaceLive sp then s
    else s.updSpace sp fun x => { x with wing := BitVec.ofNat 64 (v.toNat % 2 ^ 16) }) :=
  exec_spwingWrite.trans (ready_write ready)

theorem spsaveWrite_save : exec (.spsaveWrite sp v) s = .next
    (if s.saved.any (fun kv => (s.launch kv.2.cluster.launch).space == sp) || s.draining.any (fun t => s.spaceOf t == sp) then s
     else s.updSpace sp fun x => { x with save := BitVec.ofNat 64 (bitField 63 12 v.toNat * 2 ^ 12) }) :=
  exec_spsaveWrite.trans (ready_write ready)

/-- A cache of translated blocks that moves keeps no block (R391). -/
theorem spxcWrite_cache :
    let x : DWord := BitVec.ofNat 64 (bitField 63 63 v.toNat * 2 ^ 63 + bitField 57 5 v.toNat * 2 ^ 5)
    let live := s.liveLaunches.any fun kv => kv.2.space == sp && kv.2.nen
    exec (.spxcWrite sp v) s = .next (if live || (x.getLsbD 63 && decide (0x3000000000 < bitField 28 5 v.toNat * 2 ^ 28 + 2 ^ 28)) then s else
      (if (s.space sp).xc = x then s else { s with blocks := s.blocks.filter fun b => b.space ≠ sp }).updSpace sp fun y => { y with xc := x }) :=
  exec_spxcWrite.trans (ready_write ready)

theorem sptrialWrite_trial (low : v.toNat % 2 ^ 8 = 0) (high : bitField 62 60 v.toNat = 0) :
    let S := s.updSpace sp fun x => { x with
      trial := v
      trcnt := if v.getLsbD 63 && !(s.space sp).trial.getLsbD 63 then 0 else x.trcnt }
    exec (.sptrialWrite sp v) s = .next (if v.getLsbD 63 then S else S.debtMap sp fun _ _ g => { g with debt := 0 }) := by
  intro S
  have legal : ¬ (v.toNat % 2 ^ 8 ≠ 0 || bitField 62 60 v.toNat ≠ 0) = true := by rw [low, high]; decide
  rw [exec_sptrialWrite, execSptrialWrite, if_neg (by simp [ready]), if_neg legal]

end

/-! ### The bias table and the guest books -/

theorem biasctlWrite_ctl (v : DWord) : exec (.biasctlWrite v) s = .next (if s.bias.busy || s.biasAny then s else
    { s with bias := { s.bias with ctl := BitVec.ofNat 64 (bitField 63 63 v.toNat * 2 ^ 63 + bitField 51 12 v.toNat * 2 ^ 12) } }) :=
  exec_biasctlWrite.trans (ready_write ready)

theorem gbstatClear_full (c : Nat) (v : DWord) : exec (.gbstatClear c v) s =
    .next (if v.getLsbD 31 then s.updCore c fun k => { k with full := false } else s) := by
  rw [exec_gbstatClear, execGbstatClear, if_neg (by simp [ready])]
end

/-! ### The register block (R395, R405) -/

section
variable {off : Nat} {v : DWord}

theorem registerWrite_ignored {size : Nat} (h : regAt (off / 8 * 8) = none ∨ s.boot.powered = false ∨ sizeOk off size = false) :
    exec (.registerWrite ⟨off, size⟩ v) s = .next s := by
  rw [exec_registerWrite, execRegisterWrite]
  cases r : regAt (off / 8 * 8) with
  | none => rfl
  | some r' =>
    refine if_pos ?_
    rcases h with h | h | h
    · exact absurd (r.symm.trans h) nofun
    · simp [h]
    · simp [h]

theorem registerWrite_whole {r : Reg} (found : regAt off = some r) (aligned : off % 8 = 0) (power : s.boot.powered = true)
    (takes : s.boot.ready = true ∨ r.early = true) : exec (.registerWrite ⟨off, 8⟩ v) s = s.regWrite r v := by
  have at_ : off / 8 * 8 = off := by omega
  have size : sizeOk off 8 = true := by simp [sizeOk, aligned]
  rw [exec_registerWrite, execRegisterWrite, at_, found]
  rcases takes with takes | takes
  · simp [power, size, takes]
  · simp [power, size, takes]

theorem registerWrite_half {w : Nat} (found : regAt (off / 8 * 8) = some (.mbdata w)) (aligned : off % 4 = 0)
    (power : s.boot.powered = true) : exec (.registerWrite ⟨off, 4⟩ v) s = .next (s.mbdataWrite (8 * w + off % 8) 4 v) := by
  have size : sizeOk off 4 = true := by simp [sizeOk, aligned, found, Reg.halves]
  rw [exec_registerWrite, execRegisterWrite, found]
  simp [power, size, Reg.early]

/-- The mailbox registers are the early ones. -/
theorem Reg.early_eq_false {r : Reg} (ctl : r ≠ .mbctl) (data : ∀ w, r ≠ .mbdata w) : r.early = false := by
  cases r with
  | mbctl => exact absurd rfl ctl
  | mbdata w => exact absurd rfl (data w)
  | _ => rfl

theorem registerWrite_unready {size : Nat} {r : Reg} (found : regAt (off / 8 * 8) = some r) (unready : s.boot.ready = false)
    (late : r.early = false) : exec (.registerWrite ⟨off, size⟩ v) s = .next s := by
  rw [exec_registerWrite, execRegisterWrite, found]
  exact if_pos (by simp [unready, late])
end

end

/-- Settles O49: the meaning of each register's write, from the lemmas above. -/
theorem registerWrites : Obligations.RegisterWrites := by
  unfold Obligations.RegisterWrites
  refine ⟨fun s n v ready => ⟨intlvWrite_held ready v, fun free => ⟨_, intlvWrite_stores ready v free, amapGet_insert_same ..⟩⟩,
    fun s sp v win ready => ?_, fun s sp v ready => spwingWrite_wing ready sp v,
    fun s n v ready => ⟨qcfgWrite_reserved ready, fun cls => ?_⟩,
    fun s sp v ready => spsaveWrite_save ready sp v, fun s sp v ready => spxcWrite_cache ready sp v,
    fun s v ready => biasctlWrite_ctl ready v, fun s sp v ready => sptrialWrite_trial ready sp v,
    fun s c v ready => gbstatClear_full ready c v, fun s n sp c v win unready => ?_, fun s off size v => registerWrite_ignored,
    fun s off v r => registerWrite_whole, fun s off v w => registerWrite_half,
    fun s off size v r found unready ctl data => registerWrite_unready found unready (Reg.early_eq_false ctl data)⟩
  · cases win with
    | none => exact sprootWrite_root ready sp v none
    | some w => exact sprootWrite_root ready sp v (some w)
  · by_cases empty : (s.queue n).items = []
    · obtain ⟨S, run, queue⟩ := qcfgWrite_empty ready cls empty
      exact ⟨S, run, by rw [queue], by rw [queue]; rfl, fun _ => by simp [queue]⟩
    · obtain ⟨S, run, queue⟩ := qcfgWrite_filled ready cls empty
      exact ⟨S, run, by rw [queue], by rw [queue]; rfl, fun h => absurd h empty⟩
  · have closed : (!s.boot.ready) = true := by simp [unready]
    exact ⟨if_pos closed, if_pos closed, if_pos closed, if_pos closed, if_pos closed, if_pos closed, if_pos closed, if_pos closed,
      if_pos closed⟩

end Sys2Proof.Machine

namespace Sys2Proof.Machine

/-! ## Bytes of memory and of lines (R58, R147, R404) -/

section
variable {m : Mem}

theorem memGet_memSet_same (wf : Memory.wf m = true) (a : Nat) (b : Byte) : memGet (memSet m a b) a = b :=
  amapGet_set_same _ _ _ _ (amapWf_sorted _ _ wf)

theorem memGet_memSet_other (wf : Memory.wf m = true) {a c : Nat} (b : Byte) (other : c ≠ a) : memGet (memSet m a b) c = memGet m c :=
  amapGet_set_other _ _ _ _ _ other (amapWf_sorted _ _ wf)

theorem memGet_memPut_outside (bs : List Byte) (wf : Memory.wf m = true) {a c : Nat} (outside : c < a ∨ a + bs.length ≤ c) :
    memGet (memPut m a bs) c = memGet m c := by
  induction bs generalizing m a with
  | nil => rfl
  | cons b bs ih =>
    rw [List.length_cons] at outside
    calc memGet (memPut (memSet m a b) (a + 1) bs) c
      _ = memGet (memSet m a b) c := ih (memSet_wf m a b wf) (by omega)
      _ = memGet m c := memGet_memSet_other wf b (by omega)

theorem memBytes_memPut (bs : List Byte) (wf : Memory.wf m = true) (a : Nat) : memBytes (memPut m a bs) a bs.length = bs := by
  induction bs generalizing m a with
  | nil => rfl
  | cons b bs ih =>
    have wf' := memSet_wf m a b wf
    have first : memGet (memPut (memSet m a b) (a + 1) bs) a = b :=
      (memGet_memPut_outside bs wf' (by omega)).trans (memGet_memSet_same wf a b)
    exact congrArg₂ List.cons first (ih wf' (a + 1))

end

@[simp] theorem length_natToBytes (n x : Nat) : (natToBytes n x).length = n := by
  induction n generalizing x with
  | zero => rfl
  | succ n ih => simp [natToBytes, ih]

theorem bytesToNat_natToBytes (n x : Nat) : bytesToNat (natToBytes n x) = x % 2 ^ (8 * n) := by
  induction n generalizing x with
  | zero => simp [natToBytes, bytesToNat, Nat.mod_one]
  | succ n ih =>
    have bits : 2 ^ (8 * (n + 1)) = 256 * 2 ^ (8 * n) := by rw [Nat.mul_succ, pow_add, mul_comm]; rfl
    rw [natToBytes, bytesToNat, ih, bits, Nat.mod_mul, BitVec.toNat_ofNat]

theorem memRead_memWrite_same {m : Mem} (wf : Memory.wf m = true) (a n x : Nat) : memRead (memWrite m a n x) a n = x % 2 ^ (8 * n) := by
  have bytes := memBytes_memPut (natToBytes n x) wf a
  rw [length_natToBytes] at bytes
  rw [memRead, memWrite, bytes, bytesToNat_natToBytes]

theorem memGet_memWrite_outside {m : Mem} (wf : Memory.wf m = true) {a n c : Nat} (x : Nat) (outside : c < a ∨ a + n ≤ c) :
    memGet (memWrite m a n x) c = memGet m c :=
  memGet_memPut_outside _ wf (by rwa [length_natToBytes])

/-! ### The bits of a line -/

theorem getLsbD_byteMask (o n k : Nat) : (byteMask o n).getLsbD k = decide (k < 128 ∧ o ≤ k ∧ k < o + n) := by
  rw [byteMask, BitVec.getLsbD_ofNat, Nat.testBit_mul_two_pow, Nat.testBit_two_pow_sub_one, Bool.eq_iff_iff]
  simp only [Bool.and_eq_true, decide_eq_true_eq]
  omega

/-- The bits of byte `k` of a line, all set. -/
theorem getLsbD_byteBits (k b : Nat) : (BitVec.ofNat 1024 (255 * 2 ^ (8 * k))).getLsbD b = decide (b < 1024 ∧ b / 8 = k) := by
  rw [BitVec.getLsbD_ofNat, Nat.testBit_mul_two_pow, show (255 : Nat) = 2 ^ 8 - 1 from rfl, Nat.testBit_two_pow_sub_one, Bool.eq_iff_iff]
  simp only [Bool.and_eq_true, decide_eq_true_eq]
  omega

/-- A bit is under a byte mask where the mask has its byte. -/
theorem getLsbD_maskBits (m : ByteMask) (b : Nat) : (maskBits m).getLsbD b = m.getLsbD (b / 8) := by
  have under (ks : List Nat) (x : Line) :
      (ks.foldl (fun x k => if m.getLsbD k then x ||| BitVec.ofNat 1024 (255 * 2 ^ (8 * k)) else x) x).getLsbD b =
        (x.getLsbD b || decide (b < 1024 ∧ b / 8 ∈ ks) && m.getLsbD (b / 8)) := by
    induction ks generalizing x with
    | nil => simp
    | cons k ks ih =>
      rw [List.foldl_cons, ih]
      by_cases here : b / 8 = k
      · subst here
        cases hm : m.getLsbD (b / 8) <;> simp [getLsbD_byteBits]
        by_cases hb : b < 1024 <;> simp [hb]
      · cases hm : m.getLsbD k <;> simp [getLsbD_byteBits, here]
  rw [maskBits, under]
  by_cases hb : b / 8 < 128
  · have : b < 1024 := by omega
    simp [hb, this]
  · simp [hb, BitVec.getLsbD_of_ge m (b / 8) (by omega)]

theorem testBit_lineRead (d : Line) (o n j : Nat) : (lineRead d o n).testBit j = (decide (j < 8 * n) && d.getLsbD (8 * o + j)) := by
  rw [lineRead, Nat.testBit_mod_two_pow, Nat.testBit_div_two_pow, BitVec.getLsbD, Nat.add_comm]

/-- A write to a line sets the bits of its bytes and keeps the others. -/
theorem getLsbD_lineWrite (d : Line) {o n : Nat} (x : Nat) (fits : o + n ≤ 128) (b : Nat) :
    (lineWrite d o n x).getLsbD b = if 8 * o ≤ b ∧ b < 8 * (o + n) then x.testBit (b - 8 * o) else d.getLsbD b := by
  rw [lineWrite, BitVec.getLsbD_or, BitVec.getLsbD_and, BitVec.getLsbD_not, getLsbD_maskBits, getLsbD_byteMask, BitVec.getLsbD_ofNat,
    Nat.testBit_mul_two_pow, Nat.testBit_mod_two_pow]
  split
  next inside =>
    have masked : b / 8 < 128 ∧ o ≤ b / 8 ∧ b / 8 < o + n := by omega
    have written : b < 1024 ∧ b ≥ 8 * o ∧ b - 8 * o < 8 * n := by omega
    simp [masked, written]
  next outside =>
    have unmasked : ¬ (b / 8 < 128 ∧ o ≤ b / 8 ∧ b / 8 < o + n) := by omega
    have unwritten : ¬ (b ≥ 8 * o ∧ b - 8 * o < 8 * n) := by omega
    rw [← Bool.and_assoc (decide (b ≥ 8 * o)), ← Bool.decide_and, decide_eq_false unmasked, decide_eq_false unwritten]
    by_cases line : b < 1024
    · simp [line]
    · simp [line, BitVec.getLsbD_of_ge d b (by omega)]

theorem lineRead_lineWrite_same (d : Line) {o n : Nat} (x : Nat) (fits : o + n ≤ 128) :
    lineRead (lineWrite d o n x) o n = x % 2 ^ (8 * n) := by
  refine Nat.eq_of_testBit_eq fun j => ?_
  rw [testBit_lineRead, Nat.testBit_mod_two_pow]
  by_cases low : j < 8 * n
  · rw [getLsbD_lineWrite d x fits, if_pos (by omega), Nat.add_sub_cancel_left]
  · simp [low]

theorem lineRead_lineWrite_outside (d : Line) {o n p k : Nat} (x : Nat) (fits : o + n ≤ 128) (outside : p + k ≤ o ∨ o + n ≤ p) :
    lineRead (lineWrite d o n x) p k = lineRead d p k := by
  refine Nat.eq_of_testBit_eq fun j => ?_
  rw [testBit_lineRead, testBit_lineRead]
  by_cases low : j < 8 * k
  · rw [getLsbD_lineWrite d x fits, if_neg (by omega)]
  · simp [low]

/-- Settles O13: bytes of memory by induction on the bytes written, bytes of a line by their bits. -/
theorem memoryOperations : Obligations.MemoryOperations := by
  unfold Obligations.MemoryOperations
  refine ⟨memGet_unlisted, fun m a b wf => ⟨memSet_wf m a b wf, memGet_memSet_same wf a b, fun c => memGet_memSet_other wf b⟩,
    fun m a n x wf => ⟨memWrite_wf m a n x wf, memRead_memWrite_same wf a n x, fun c => memGet_memWrite_outside wf x⟩,
    fun d o n x fits => ⟨lineRead_lineWrite_same d x fits, fun p k _ => lineRead_lineWrite_outside d x fits⟩⟩

end Sys2Proof.Machine

namespace Sys2Proof.Machine

/-! ## What an issue reads

The state in which an issue reads its operands differs from the state before it in the count of free values alone. -/

section
variable (s : State)

@[simp] theorem State.reading_team (t : Nat) : s.reading.team t = s.team t := rfl
@[simp] theorem State.reading_core (c : Nat) : s.reading.core c = s.core c := rfl
@[simp] theorem State.reading_spaceOf (t : Nat) : s.reading.spaceOf t = s.spaceOf t := rfl
@[simp] theorem State.reading_row? (space key : Nat) : s.reading.row? space key = s.row? space key := rfl
@[simp] theorem State.reading_bookedOn (core : Nat) : s.reading.bookedOn core = s.bookedOn core := rfl
@[simp] theorem State.reading_keyHeld (t key : Nat) : s.reading.keyHeld t key = s.keyHeld t key := rfl
@[simp] theorem State.reading_rowBusy (t key : Nat) : s.reading.rowBusy t key = s.rowBusy t key := rfl
@[simp] theorem State.reading_rowPlace (t p : Nat) : s.reading.rowPlace t p = s.rowPlace t p := rfl

end

/-- A word that is performed once for its set, and has a participant, is its body with the operands of the lowest one. -/
theorem onceIssue_eq {s : State} {o : Ops} {u : Uses} {i : Iss} {l : Nat} {ls : List Nat} (h : Issues s o u i) (parts : i.parts = l :: ls)
    (waiting : Bool) (body : Iss → Nat → State → State) : onceIssue o u false waiting body s = .next (body i l s.reading) := by
  rw [onceIssue, issue_eq h false _ (by simp), parts]

/-! ## ROWJOIN (R67, R68) -/

section
variable {s : State} {o : Ops} {x : MemX} {i : Iss} {l : Nat} {ls : List Nat} {q : BitVec 3} {key : Nat}

/-- The end of ROWJOIN with the answer `last`: the predicate and ROWSTAT are written, and the set waits for a row that opens. -/
def rowjoinEnd (i : Iss) (q : BitVec 3) (key last : Nat) (opens : Bool) (s : State) : State :=
  rowFinish i ((s.writePs i q.toNat (last == 0)).rowLast i.t i.g key last) key last opens

/-- The row once team `t` has joined its holders. -/
def Row.joined (r : Row) (t : Nat) : Row :=
  { r with holders := r.holders ++ [t], dropped := r.dropped.filter (· ≠ t), state := if !r.live then .opening else r.state }

variable (h : Issues s o { src := [(o.a, 1)], pw := [q.toNat] } i) (parts : i.parts = l :: ls)
  (named : bitField 18 11 (src32 s.reading i l o.a).toNat = key)
include h parts named

theorem rowjoin_unbooked (row : s.row? (s.spaceOf i.t) key = none) :
    exec (.rowjoin o q x) s = .next (rowjoinEnd i q key 3 false s.reading) := by
  simp [execRowjoin, onceIssue_eq h parts, named, row, rowjoinEnd]

variable {r : Row} (row : s.row? (s.spaceOf i.t) key = some r)
include row

theorem rowjoin_unheld (free : r.holders = []) : exec (.rowjoin o q x) s = .next (rowjoinEnd i q key 3 false s.reading) := by
  simp [execRowjoin, onceIssue_eq h parts, named, row, free, rowjoinEnd]

theorem rowjoin_own (own : r.heldBy i.t = true) : exec (.rowjoin o q x) s = .next (rowjoinEnd i q key 0 false s.reading) := by
  have taken : r.holders ≠ [] := by rintro none_; simp [Row.heldBy, none_] at own
  simp [execRowjoin, onceIssue_eq h parts, named, row, taken, own, rowjoinEnd]

variable (taken : r.holders ≠ []) (foreign : r.heldBy i.t = false)
include taken foreign

theorem rowjoin_full (full : 8 ≤ s.bookedOn (s.team i.t).core) :
    exec (.rowjoin o q x) s = .next (rowjoinEnd i q key 2 false s.reading) := by
  simp [execRowjoin, onceIssue_eq h parts, named, row, taken, foreign, full, rowjoinEnd]

theorem rowjoin_joins (room : s.bookedOn (s.team i.t).core < 8) :
    let S := s.reading.setRow (s.spaceOf i.t) key (r.joined i.t)
    exec (.rowjoin o q x) s =
      .next (rowjoinEnd i q key 0 (!r.live) (if !r.live then S.openRow (s.team i.t).core r.granule else S)) := by
  have room' : ¬ 8 ≤ s.bookedOn (s.team i.t).core := by omega
  simp [execRowjoin, onceIssue_eq h parts, named, row, taken, foreign, room', rowjoinEnd, Row.joined]

end

/-! ## ROWFREE (R73) -/

section
variable {s : State} {o : Ops} {x : MemX} {i : Iss} {l : Nat} {ls : List Nat} {key : Nat}
  (h : Issues s o { src := [(o.a, 1)] } i) (parts : i.parts = l :: ls) (named : bitField 18 11 (src32 s.reading i l o.a).toNat = key)
include h parts named

theorem rowfree_foreign (foreign : s.keyHeld i.t key = false) :
    exec (.rowfree o x) s = .next (i.finish (s.reading.rowLast i.t i.g key 3) [] true none) := by
  simp [execRowfree, onceIssue_eq h parts, named, foreign]

theorem rowfree_busy (own : s.keyHeld i.t key = true) (busy : s.rowBusy i.t key = true) :
    exec (.rowfree o x) s = .next { s.reading with turn := .later } := by
  simp [execRowfree, onceIssue_eq h parts, named, own, busy]

theorem rowfree_ends (own : s.keyHeld i.t key = true) (idle : s.rowBusy i.t key = false) :
    exec (.rowfree o x) s = .next (i.finish ((s.reading.rowEnd (s.spaceOf i.t) key i.t).rowLast i.t i.g key 0) [] true none) := by
  simp [execRowfree, onceIssue_eq h parts, named, own, idle]

end

/-! ## ROWBOOK (R65, Table 04-2) -/

section
variable {s : State} {o : Ops} {p : Bool} {q sc : BitVec 3} {x : MemX} {i : Iss} {l : Nat} {ls : List Nat} {ea : Nat}
  (h : Issues s o { src := addrSrc o p, sd := if o.nw then [] else [(o.d.toNat, 1)], pw := [q.toNat] } i) (parts : i.parts = l :: ls)
  (addr : effAddr s.reading i l 0 p (2 ^ sc.toNat) = ea)
include h parts addr

theorem rowbook_badPointer {tr : Trap} (bad : s.reading.ptrCheck i.t i.g ea 1 [0] none false = some tr) :
    exec (.rowbook o p q sc x) s = .next (i.faultAll s.reading tr true) := by
  simp [execRowbook, onceIssue_eq h parts, addr, bad]

variable (ptr : s.reading.ptrCheck i.t i.g ea 1 [0] none false = none) {S : State}
include ptr

theorem rowbook_untranslated {tr : Trap}
    (trap : s.reading.translate (coreWing (s.team i.t).core) (s.team i.t).launch .ctlb ea .read .rowbook none = (.trap tr, S)) :
    exec (.rowbook o p q sc x) s = .next (i.faultAll S tr true) := by
  simp [execRowbook, onceIssue_eq h parts, addr, ptr, trap]

theorem rowbook_misses
    (miss : s.reading.translate (coreWing (s.team i.t).core) (s.team i.t).launch .ctlb ea .read .rowbook none = (.wait, S)) :
    exec (.rowbook o p q sc x) s = .next { S with turn := .later } := by
  simp [execRowbook, onceIssue_eq h parts, addr, ptr, miss]

variable {ph : Phys}
  (hit : s.reading.translate (coreWing (s.team i.t).core) (s.team i.t).launch .ctlb ea .read .rowbook none = (.ok ph, S))
include hit

theorem rowbook_flipping (flip : S.flipping ph.pa = true) : exec (.rowbook o p q sc x) s = .next { S with turn := .later } := by
  simp [execRowbook, onceIssue_eq h parts, addr, ptr, hit, flip]

/-- ROWBOOK of a page that is at hand answers what Table 04-2 finds. -/
theorem rowbook_answers (still : S.flipping ph.pa = false) {key last : Nat} {opens : Bool} {T : State}
    (found : S.bookOutcome i.t ph = (key, last, opens, T)) :
    let T := if opens then T.openRow (s.team i.t).core (ph.pa / 2048) else T
    let T := if o.nw then T else T.writeS i.t i.g o.d.toNat (BitVec.ofNat 32 (key * 2 ^ 11))
    exec (.rowbook o p q sc x) s =
      .next (rowFinish i ((T.writePs i q.toNat (last == 0)).rowLast i.t i.g key last) key last opens) := by
  simp [execRowbook, onceIssue_eq h parts, addr, ptr, hit, still, found]

end

/-- Settles O25: each word's cases, in the order in which its checks are made. -/
theorem rowWords : Obligations.RowWords := by
  unfold Obligations.RowWords
  refine ⟨fun o q x s i l ls h parts => ?_, fun o x s i l ls h parts => ?_, fun o p q sc x s i l ls h parts => ?_⟩
  · exact ⟨rowjoin_unbooked h parts rfl, fun r row => rowjoin_unheld h parts rfl row, fun r row => rowjoin_own h parts rfl row,
      fun r row => rowjoin_full h parts rfl row, fun r row => rowjoin_joins h parts rfl row⟩
  · exact ⟨rowfree_foreign h parts rfl, rowfree_busy h parts rfl, rowfree_ends h parts rfl⟩
  · refine ⟨fun tr => rowbook_badPointer h parts rfl, fun ptr X S walk => ?_⟩
    refine ⟨fun tr hX => ?_, fun hX => ?_, fun ph hX => ?_, fun ph hX still key last opens T => ?_⟩ <;> subst hX
    · exact rowbook_untranslated h parts rfl ptr walk
    · exact rowbook_misses h parts rfl ptr walk
    · exact rowbook_flipping h parts rfl ptr walk
    · exact rowbook_answers h parts rfl ptr walk still

end Sys2Proof.Machine

namespace Sys2Proof.Machine

/-! ## LDW and STW (R69 to R72) -/

/-- The identifier of the result that a load of these registers awaits: 0 where it fills none. -/
def State.regsId (s : State) (regs : List (Nat × Nat × Word)) : Nat := if regs.isEmpty then 0 else s.uid
/-- Queue the registers that a load fills, where it fills any, under that identifier. -/
def State.putRegs (s : State) (i : Iss) (regs : List (Nat × Nat × Word)) : State :=
  if regs.isEmpty then s else { s with uid := s.uid + 1, pends := amapInsert s.pends s.uid ⟨i.t, i.g, false, false, regs, []⟩ }

/-- The access becomes an entry of the core's W path, which an event completes; its rows that are closed for refresh count it. -/
def State.wEnter (s : State) (t core : Nat) (a : Access) : State :=
  let S := (s.accNew a).2.updCore core fun k => { k with wpath := k.wpath ++ [s.uid] }
  let S := S.countSusp a.space (a.snoops.filter fun k => S.keyOpenFor t k)
  { S with later := S.later ++ [.wPathAccessComplete s.uid] }

section
variable (s : State) (t core : Nat) (a : Access)

theorem State.uid_mem_wEnter : s.uid ∈ ((s.wEnter t core a).core core).wpath := by
  have entered : (s.wEnter t core a).core core = { s.core core with wpath := (s.core core).wpath ++ [s.uid] } :=
    ((s.accNew a).2.core_updCore core core fun k => { k with wpath := k.wpath ++ [s.uid] }).trans (if_pos rfl)
  simp [entered]

theorem State.find_wEnter : amapFind? (s.wEnter t core a).accs s.uid = some a := amapFind?_insert_same ..

@[simp] theorem State.pends_wEnter : (s.wEnter t core a).pends = s.pends := rfl
@[simp] theorem State.dram_wEnter : (s.wEnter t core a).dram = s.dram := rfl

end

theorem State.find_putRegs (s : State) (i : Iss) {regs : List (Nat × Nat × Word)} (some_ : regs ≠ []) :
    amapFind? (s.putRegs i regs).pends (s.regsId regs) = some ⟨i.t, i.g, false, false, regs, []⟩ := by
  simp [State.putRegs, State.regsId, some_, amapFind?_insert_same]

/-- The units that a store has written whole lose their poison (R61). -/
def State.wClean (s : State) (store : Bool) (as : List Access) : State :=
  if store then forEach (coveredUnits 64 (as.map fun a => (a.pa, a.n))) s fun s u => s.setPoison u false else s

theorem forEach_dram {α : Type} (f : State → α → State) (keeps : ∀ s x, (f s x).dram = s.dram) (l : List α) (s : State) :
    (forEach l s f).dram = s.dram := by
  induction l generalizing s with
  | nil => rfl
  | cons x l ih => exact (ih (f s x)).trans (keeps s x)

theorem State.dram_wClean (s : State) (store : Bool) (as : List Access) : (s.wClean store as).dram = s.dram := by
  cases store
  · rfl
  · exact forEach_dram (fun s u => s.setPoison u false) (fun _ _ => rfl) _ s

@[simp] theorem State.dram_putRegs (s : State) (i : Iss) (regs : List (Nat × Nat × Word)) : (s.putRegs i regs).dram = s.dram := by
  unfold State.putRegs
  split <;> rfl

/-- The registers that LDW or STW names. -/
abbrev rowUses (o : Ops) (m : MMod) (store : Bool) : Uses :=
  { src := (if store then [(o.a, mtyWords m.ty)] else []) ++ addrSrc o m.p, vd := if store || o.nw then [] else [(o.d.toNat, mtyWords m.ty)] }

/-- The address of a lane of LDW or STW. -/
abbrev rowAddr (s : State) (i : Iss) (m : MMod) (l : Nat) : Nat := effAddr s i l 0x40000000 m.p (2 ^ m.sc.toNat)

/-- The requests of the lanes that the normal row machinery serves (R72). -/
abbrev rowRequests (s : State) (o : Ops) (m : MMod) (i : Iss) (store : Bool) : Bool × State :=
  s.rowAsk i (rowAddr s i m) (mtyBytes m.ty) store fun l => srcData s i l o.a (mtyWords m.ty)

/-- The lanes of LDW or STW at the addresses that `s` gives, performed on `S`. -/
abbrev rowLanes (s : State) (o : Ops) (m : MMod) (i : Iss) (store : Bool) (S : State) : List LaneMem × State :=
  memLanes i (fun S l => S.rowLane i l (rowAddr s i m l) (mtyBytes m.ty) store (srcData S i l o.a (mtyWords m.ty))) i.parts S

/-- The registers that the lanes of LDW fill; STW fills none. -/
def rowRegs (o : Ops) (m : MMod) (store : Bool) (rs : List LaneMem) : List (Nat × Nat × Word) :=
  if store || o.nw then [] else loadRegs rs o.d.toNat (mtyWords m.ty) ((AOp.load (mtySigned m.ty)).extend (mtyBytes m.ty))

/-- The entry of the W path that stands for the accesses `a :: as` of an issue: it holds all their keys. -/
def wAccess (i : Iss) (a : Access) (as : List Access) (cmp : Nat) : Access :=
  { a with snoops := ((a :: as).map fun a => bitField 18 11 a.va).eraseDups, cmp := cmp, mates := i.parts }

section
variable {s : State} {o : Ops} {m : MMod} {x : MemX} {i : Iss} {store : Bool} (h : Issues s o (rowUses o m store) i)

/-- LDW and STW are their lanes' part of the W path. -/
theorem exec_rowWord : exec (if store then .stw o m x else .ldw o m x) s = wpathIssue o m store s := by
  cases store <;> rfl

include h

theorem rowWord_idle (none_ : i.parts = []) : exec (if store then .stw o m x else .ldw o m x) s = .next (i.finish s.reading [] false none) := by
  rw [exec_rowWord, wpathIssue, issue_eq h false _ (by simp)]
  simp [none_]

variable (some_ : i.parts ≠ [])
include some_

theorem rowWord_full (full : 8 ≤ (s.core (s.team i.t).core).wpath.length) :
    exec (if store then .stw o m x else .ldw o m x) s = .next { s.reading with turn := .later } := by
  rw [exec_rowWord, wpathIssue, issue_eq h false _ (by simp)]
  simp [some_, full]

variable (room : ¬ 8 ≤ (s.core (s.team i.t).core).wpath.length)
include room

theorem rowWord_waits {A : State} (asked : rowRequests s.reading o m i store = (false, A)) :
    exec (if store then .stw o m x else .ldw o m x) s = .next { A with turn := .later } := by
  rw [exec_rowWord, wpathIssue, issue_eq h false _ (by simp)]
  simp [some_, room, asked]

variable {A B : State} {rs : List LaneMem} (asked : rowRequests s.reading o m i store = (true, A))
  (lanes : rowLanes s.reading o m i store A = (rs, B))
include asked lanes

theorem rowWord_unperformed (none_ : rs.filterMap (·.acc) = []) :
    exec (if store then .stw o m x else .ldw o m x) s = .next (i.finish (takeLaneTraps (B.rowTaken i) i rs) [] false none) := by
  rw [exec_rowWord, wpathIssue, issue_eq h false _ (by simp)]
  simp [some_, room, asked, lanes, none_]

/-- Where a lane's bytes moved, the word becomes an entry of the W path. -/
theorem rowWord_enters {a : Access} {as : List Access} (moved : rs.filterMap (·.acc) = a :: as) :
    let S := (takeLaneTraps (B.rowTaken i) i rs).wClean store (a :: as)
    let regs := rowRegs o m store rs
    exec (if store then .stw o m x else .ldw o m x) s =
      .next (i.finish ((S.putRegs i regs).wEnter i.t (s.team i.t).core (wAccess i a as (S.regsId regs))) [] false none) := by
  have busy : i.parts.isEmpty = false := by simpa using some_
  rw [exec_rowWord, wpathIssue, issue_eq h false _ (by simp)]
  simp only [busy, State.reading_team, State.reading_core, room, asked, lanes, moved, Bool.false_eq_true, if_false]
  rfl

end

/-! ### One participant whose team holds the row (R69, R71) -/

section
variable {s : State} {i : Iss} {l p n : Nat} {r : Row} {pa data : Nat}

/-- A lane whose part is done is the whole of its issue where it is the only participant. -/
theorem memLanes_single {f : State → Nat → LaneMem × State} {v : Nat} {a : Option Access} {S : State} (lane : f s l = (⟨l, .done v, a⟩, S)) :
    memLanes i f [l] s = ([⟨l, .done v, a⟩], S) := by
  simp [memLanes, lane]

/-- What a lane of LDW or STW carries in flight: its access, at the place of its bytes. -/
def heldAcc (s : State) (i : Iss) (l p n : Nat) (store : Bool) (pa : Nat) : Access :=
  { s.threadAcc i.t i.g l 0 0 (if store then .store else .load false) p n 0 .none with pa := pa }

variable (ptr : s.ptrCheck i.t i.g p n [4] none true = none) (place : s.rowPlace i.t p = some (r, pa)) (own : r.heldBy i.t = true)
include ptr place own

/-- A lane whose team holds the row needs nothing of the normal row machinery. -/
theorem State.rowAsk_held {addr data : Nat → Nat} {store : Bool} (parts : i.parts = [l]) (at_ : addr l = p) :
    s.rowAsk i addr n store data = (true, s) := by
  simp [State.rowAsk, parts, at_, ptr, place, own]

theorem State.rowLane_load {v : Nat} {S : State} (clean : s.rowRead pa n r.key = (v, false, S)) :
    s.rowLane i l p n false data = (⟨l, .done v, some (heldAcc s i l p n false pa)⟩, S) := by
  simp [State.rowLane, ptr, place, own, clean, heldAcc]

theorem State.rowLane_store (writable : r.wr = true) :
    s.rowLane i l p n true data = (⟨l, .done 0, some (heldAcc s i l p n true pa)⟩, s.rowWrite pa n r.key data) := by
  simp [State.rowLane, ptr, place, own, writable, heldAcc]

end

section
variable {s : State} {o : Ops} {m : MMod} {x : MemX} {i : Iss} {store : Bool} {l : Nat} {r : Row} {pa v : Nat} {S : State}
  (h : Issues s o (rowUses o m store) i) (parts : i.parts = [l]) (room : ¬ 8 ≤ (s.core (s.team i.t).core).wpath.length)
  (ptr : s.reading.ptrCheck i.t i.g (rowAddr s.reading i m l) (mtyBytes m.ty) [4] none true = none)
  (place : s.rowPlace i.t (rowAddr s.reading i m l) = some (r, pa)) (own : r.heldBy i.t = true)
include h parts room ptr place own

/-- The word of one participant whose team holds the row becomes an entry of the W path with the lane's access. -/
theorem rowWord_single
    (lane : s.reading.rowLane i l (rowAddr s.reading i m l) (mtyBytes m.ty) store (srcData s.reading i l o.a (mtyWords m.ty)) =
      (⟨l, .done v, some (heldAcc s.reading i l (rowAddr s.reading i m l) (mtyBytes m.ty) store pa)⟩, S)) :
    let a := heldAcc s.reading i l (rowAddr s.reading i m l) (mtyBytes m.ty) store pa
    let T := (S.rowTaken i).wClean store [a]
    let regs := rowRegs o m store [⟨l, .done v, some a⟩]
    exec (if store then .stw o m x else .ldw o m x) s =
      .next (i.finish ((T.putRegs i regs).wEnter i.t (s.team i.t).core (wAccess i a [] (T.regsId regs))) [] false none) := by
  refine rowWord_enters h (by simp [parts]) room (State.rowAsk_held ptr place own parts rfl) ?_ rfl
  rw [rowLanes, parts]
  exact memLanes_single lane

end

/-- A loaded value fills the words of its type from the destination. -/
theorem rowRegs_load {o : Ops} (m : MMod) (nw : o.nw = false) (l v : Nat) (a : Option Access) :
    rowRegs o m false [⟨l, .done v, a⟩] = (numbered o.d.toNat
      (toWords (mtyWords m.ty) ((AOp.load (mtySigned m.ty)).extend (mtyBytes m.ty) v))).map fun w => (l, w.1, w.2) := by
  simp [rowRegs, nw, loadRegs]

theorem rowRegs_load_ne_nil {o : Ops} (m : MMod) (nw : o.nw = false) (l v : Nat) (a : Option Access) :
    rowRegs o m false [⟨l, .done v, a⟩] ≠ [] := by
  rw [rowRegs_load m nw]
  cases m.ty <;> simp [mtyWords, mtyBytes, toWords, numbered]

/-- Settles O19: `rowWord_enters` gives the general case, and one participant's lane is worked out where its team holds the row. -/
theorem rowAccesses : Obligations.RowAccesses := by
  unfold Obligations.RowAccesses
  refine ⟨fun store o m x s i h => ?_, fun o m x s i l r pa v S h parts nw _ room => ?_, fun o m x s i l r pa h parts _ room => ?_⟩
  · refine ⟨fun none_ => ⟨_, rowWord_idle h none_, (still_finish h s.reading rfl false none).1⟩, fun some_ => rowWord_full h some_,
      fun some_ room waits => rowWord_waits h some_ (Nat.not_le.2 room) (Prod.ext waits rfl),
      fun some_ room asked => rowWord_unperformed h some_ (Nat.not_le.2 room) (Prod.ext asked rfl) rfl, fun some_ room asked moved => ?_⟩
    obtain ⟨a, as, moved⟩ := List.exists_cons_of_ne_nil moved
    exact ⟨_, _, rowWord_enters h some_ (Nat.not_le.2 room) (Prod.ext asked rfl) rfl moved, State.uid_mem_wEnter .., by rw [State.find_wEnter]; rfl⟩
  · intro ea ptr place own clean
    have named : Issues s o (rowUses o m false) i := by simpa [rowUses, nw] using h
    have run := rowWord_single (x := x) named parts (Nat.not_le.2 room) ptr place own (State.rowLane_load ptr place own clean)
    refine ⟨_, _, _, run, State.uid_mem_wEnter .., State.find_wEnter .., rfl, rfl, rfl, ?_⟩
    rw [State.pends_wEnter, ← rowRegs_load m nw]
    exact State.find_putRegs _ i (rowRegs_load_ne_nil m nw _ _ _)
  · intro ea ptr place own writable
    have run := rowWord_single (x := x) (store := true) h parts (Nat.not_le.2 room) ptr place own (State.rowLane_store ptr place own writable)
    refine ⟨_, _, _, run, State.uid_mem_wEnter .., State.find_wEnter .., rfl, rfl, rfl, ?_⟩
    rw [State.dram_wEnter, State.dram_putRegs, State.dram_wClean]
    rfl

end Sys2Proof.Machine

namespace Sys2Proof.Machine

/-! ## Right after reset (R76, R189, R190, R381, R404) -/

/-- Settles O57: every table is empty at reset, so each lookup gives its default, and the forms are `reset_inForm`. -/
theorem resetState : Obligations.ResetState := by
  unfold Obligations.ResetState
  exact ⟨rfl, rfl, rfl, rfl, rfl, fun _ => ⟨rfl, rfl⟩, fun _ => rfl, fun _ _ => rfl, memGet_unlisted, rfl, rfl, rfl, rfl, rfl, rfl, rfl, reset_inForm⟩

end Sys2Proof.Machine

namespace Sys2Proof.Machine

/-! ## STP past the end of its line (R28, R227)

R28 starts a launch's PRIVATE window on a 4 KiB boundary, so that no 4 bytes of PRIVATE data cross a line. The statement on STP takes
the window of any state. Where one starts at byte 126 of a line, STP of 4 bytes at PRIVATE offset 0 finds 2 bytes of the line left, and
the line does not read back what was stored. -/

/-- A writable PRIV line of the first 128 bytes. -/
def crossedLine : L1Line := { space := 0, vline := 0, pline := 8, cls := .priv, key := 0, data := 0, bv := 0, dm := 0, w := true }

/-- One thread, running, with 0x10000 in v0 and 4 B of PRIVATE data, whose window starts at byte 126 of `crossedLine`. -/
def crossingState : State := { State.reset with
  turn := .group 0 0
  teams := [(0, { groups := [(0, { threads := [(0, { v := [(0, 0x10000)] })], run := some ⟨0, [0], 0, []⟩ })] })]
  launches := [(0, { lr := { priv := 4 }, window := 126 })]
  cores := [(0, { l1 := [crossedLine] })] }

/-- STP.B32 [v2], v0. -/
def crossingOps : Ops := ⟨.w64, false, 7, false, false, 0, .v 0, .v 2, .imm 0, 0⟩
def crossingMod : MMod := ⟨false, false, .b32, 0⟩
def crossingIss : Iss := ⟨0, 0, ⟨0, [0], 0, []⟩, crossingOps, [0]⟩

/-- The word is one that an assembler can write. -/
theorem crossing_wf : (Instr.stp crossingOps crossingMod .default).wf = true := by decide

theorem crossing_issues : Issues crossingState crossingOps
    { src := (crossingOps.a, mtyWords crossingMod.ty) :: addrSrc crossingOps crossingMod.p } crossingIss where
  turn := rfl
  run := rfl
  ops := rfl
  parts := rfl
  flight := rfl
  range := by decide
  pending := rfl
  loads := .inl rfl
  latches := .inl rfl
  scalars := .inl rfl

/-- What the 4 bytes from byte 126 of the first line of core 0 read as in the state that an outcome leads to. -/
def Out.crossedBytes : Out → Option Nat
  | .next s => ((s.core 0).l1Find 0 0).map fun l => lineRead l.data 126 4
  | _ => none

/-- The model keeps the low 2 bytes of 0x10000 alone. -/
theorem crossing_loses : Out.crossedBytes (exec (.stp crossingOps crossingMod .default) crossingState) = some 0 := by decide +kernel

/-- Refutes O15: STP of 0x10000 leaves 2 bytes of it in the line, which reads back as 0. -/
theorem not_cacheHits : ¬ Obligations.CacheHits := by
  unfold Obligations.CacheHits
  rintro ⟨-, -, -, stores, -⟩
  obtain ⟨s', runs, -, found, stated⟩ := stores crossingState crossingOps crossingMod .default crossingIss 0 crossedLine crossing_issues rfl
    (by decide) (List.forall_mem_nil _) (by decide) (by decide) rfl rfl rfl (by decide) (by decide)
  have model := crossing_loses
  rw [runs] at model
  have stored : lineRead _ 126 4 = 0x10000 := stated.trans (by decide)
  rw [Out.crossedBytes, show (s'.core 0).l1Find 0 0 = some _ from found, Option.map_some, stored] at model
  exact absurd model (by decide)

end Sys2Proof.Machine

namespace Sys2Proof.Machine

/-! ## Starting an access to a HOME page (R36, R37, R224) -/

section
variable {s : State}

/-- Where no access waits for its walk, none holds back a store. -/
theorem State.walkBehind_eq_false (walks : ∀ kv ∈ s.accs, kv.2.snoops.contains walkWait = false) (id : Option Nat) (a : Access) :
    s.walkBehind id a = false := by
  refine Bool.and_eq_false_imp.2 fun _ => List.any_eq_false.2 fun kv hkv => ?_
  simp only [walks kv hkv, Bool.false_and, Bool.false_eq_true, not_false_eq_true]

/-- L1 does not serve an atomic. -/
theorem State.tryL1_atom {a : Access} (atom : a.op.isAtom = true) (id : Option Nat) : s.tryL1 id a = none := by
  unfold State.tryL1
  split
  next => rfl
  next =>
    dsimp only
    split
    next => rfl
    next =>
      split
      next load => simp [load, AOp.isAtom] at atom
      next store => simp [store, AOp.isAtom] at atom
      next => rfl

/-- An access that has been translated, as it goes on its way. -/
def Access.placed (a : Access) (p : Phys) : Access :=
  { a with pa := p.pa, cls := p.cls, key := p.key, h := p.h, lw := p.w, snoops := [] }

/-- An access that L1 does not serve is sent to its home where its page is HOME. -/
theorem State.startAcc_home {S : State} {a : Access} {t : Nat} {p : Phys} (core : a.core = (s.team t).core) (miss : s.tryL1 none a = none)
    (home : AtHome s t a.va (if a.op.writes then .write else .read) a.op.need p S) :
    s.startAcc (s.team t).launch a = (.pend, (S.accNew (a.placed p)).2.send (.hop S.uid)) := by
  simp [State.startAcc, State.startAt, State.walkBehind_eq_false home.none_, miss, core, home.ok, State.afterXlate, home.dev, home.free,
    home.bias, State.byClass, home.home, State.accPut, State.accNew, Access.placed]

end

/-! ## Atomics with an order (R83, R115, R122, R232) -/

section
variable {s : State} {o : Ops} {i : Iss} {x : Instr} {n : Nat} {p cas ret : Bool} {y : MemX} {op : AOp}

theorem AtomForm.exec_eq (form : AtomForm x o n p cas y op ret) (s : State) :
    exec x s = atomIssue o n p cas y op (if ret then some o.d.toNat else none) s := by
  cases form with
  | cas o p ord w x wide => simp [execAtomgCas, wide]
  | _ => rfl

theorem AtomForm.isAtom (form : AtomForm x o n p cas y op ret) : op.isAtom = true := by cases form <;> rfl

/-- The end of an atomic with an order, whose lanes have been performed, in a state `S` where its accesses are those from identifier `id`:
the set waits for them, after the release side, or goes on where there are none. -/
def orderedEnd (i : Iss) (y : MemX) (op : AOp) (id : Nat) (S : State) : State :=
  if (S.newAccs id).isEmpty then i.finish S [] true none
  else i.finishWait (S.releaseSide (S.team i.t).core y.scope.wide op.ord.releases (y.scope == .system)) i.parts (.sync (S.newAccs id))

variable (form : AtomForm x o n p cas y op ret) (ordered : op.ord ≠ .none) (h : Issues s o (atomUses o n p cas y ret) i)
include form ordered h

theorem exec_ordered : exec x s = .next (if s.wpathHeld i.t i.g i.parts then { s.reading with turn := .later } else
    let r := memLanes i (fun s l => s.atomLane i l n p y op cas (atomDst o n ret)) i.parts s.reading
    orderedEnd i y op s.uid (takeLaneTraps (r.2.setWaits s.uid) i r.1)) := by
  rw [form.exec_eq]
  refine (if_neg ordered).trans ?_
  cases ret <;> exact issue_eq h false _ (by simp)

theorem exec_ordered_held (held : s.wpathHeld i.t i.g i.parts = true) : exec x s = .next { s.reading with turn := .later } := by
  rw [exec_ordered form ordered h, if_pos held]

theorem exec_ordered_free (free : s.wpathHeld i.t i.g i.parts = false) :
    let r := memLanes i (fun s l => s.atomLane i l n p y op cas (atomDst o n ret)) i.parts s.reading
    exec x s = .next (orderedEnd i y op s.uid (takeLaneTraps (r.2.setWaits s.uid) i r.1)) := by
  rw [exec_ordered form ordered h, free]
  rfl

end

/-! ### One participant on a HOME page -/

/-- A lane whose access goes on its way is the whole of its issue where it is the only participant. -/
theorem memLanes_pend {i : Iss} {s S : State} {l : Nat} {f : State → Nat → LaneMem × State} {a : Option Access}
    (lane : f s l = (⟨l, .pend, a⟩, S)) : memLanes i f [l] s = ([⟨l, .pend, a⟩], S) := by
  simp [memLanes, lane]

/-- An access put in flight is among the new ones of its issue. -/
theorem State.mem_newAccs {s : State} {id k : Nat} {a : Access} (found : amapFind? s.accs k = some a) (new : id ≤ k) : k ∈ s.newAccs id :=
  List.mem_filter.2 ⟨List.mem_map.2 ⟨_, mem_of_amapFind? _ _ _ found, rfl⟩, decide_eq_true new⟩

/-- An access under a new identifier that has been sent to its home and is waited for. -/
theorem sent_accNew (S : State) {i : Iss} {l id : Nat} {a : Access} (p : Phys) (who : a.who = .thread i.t i.g l) :
    Sent (((S.accNew (a.placed p)).2.send (.hop S.uid)).setWaits id) S.uid i l a.op a.va a.n a.data p where
  msg := List.mem_append_right _ (List.mem_singleton_self _)
  acc := by
    refine ⟨if id ≤ S.uid then { a.placed p with waits := true } else a.placed p, ?_, ?_⟩
    · simp [State.setWaits, State.send, State.accNew, amapFind?_map, amapFind?_insert_same]
    · split <;> exact ⟨who, rfl, rfl, rfl, rfl, rfl⟩

section
variable {s S : State} {i : Iss} {l n : Nat} {p cas : Bool} {y : MemX} {op : AOp} {dst : Dst} {ph : Phys}

/-- The access of one lane of an atomic. -/
def atomAcc (s : State) (i : Iss) (l n : Nat) (p : Bool) (y : MemX) (op : AOp) (cas : Bool) (dst : Dst) : Access :=
  { s.threadAcc i.t i.g l (s.thread i.t i.g l).pc i.o.len.bytes op (effAddr s i l 0 p n) n (op.operand s i l i.o.a (n / 4)) dst with
    cmp := if cas then srcData s i l y.e (n / 4) else 0
    scope := y.scope }

theorem AOp.need_ordered (ordered : op.ord ≠ .none) : op.need = .sync := by
  unfold AOp.need
  split
  · contradiction
  · rfl

theorem AOp.writes_atom (atom : op.isAtom = true) : op.writes = true := by simp [AOp.writes, atom]

theorem State.atomLane_home (atom : op.isAtom = true) (ordered : op.ord ≠ .none)
    (ptr : s.ptrCheck i.t i.g (effAddr s i l 0 p n) n [0] none true = none) (home : AtHome s i.t (effAddr s i l 0 p n) .write .sync ph S) :
    let a := atomAcc s i l n p y op cas dst
    s.atomLane i l n p y op cas dst = (⟨l, .pend, some a⟩, (S.accNew (a.placed ph)).2.send (.hop S.uid)) := by
  intro a
  have start : s.startAcc (s.team i.t).launch a = (.pend, (S.accNew (a.placed ph)).2.send (.hop S.uid)) := by
    refine State.startAcc_home rfl (State.tryL1_atom atom none) ?_
    have write : a.op.writes = true := AOp.writes_atom atom
    have sync : a.op.need = .sync := AOp.need_ordered ordered
    rw [write, sync]
    exact home
  simp only [State.atomLane, ptr]
  exact congrArg (fun r : AStat × State => ((⟨l, r.1, some a⟩ : LaneMem), r.2)) start

end

/-- Settles O21: an atomic with an order is held, or performs its lanes and ends as `orderedEnd` says; of one participant on a HOME page,
the lane is sent to its home. -/
theorem orderedAtomics : Obligations.OrderedAtomics := by
  unfold Obligations.OrderedAtomics
  refine ⟨fun x o n p cas y op ret form ordered s i h free => ⟨fun none_ => ?_, fun some_ => ?_⟩,
    fun x o n p cas y op ret form ordered s i l ph S h free parts => ?_,
    fun x o n p cas y op ret form ordered s i h => exec_ordered_held form ordered h⟩
  · rw [exec_ordered_free form ordered h free, orderedEnd, none_]
    rfl
  · rw [exec_ordered_free form ordered h free, orderedEnd, if_neg (mt List.isEmpty_iff.1 some_)]
  · obtain rfl := h.ops
    intro ea ptr home uid
    have lane := State.atomLane_home (y := y) (cas := cas) (dst := atomDst i.o n ret) form.isAtom ordered ptr home
    have sent := sent_accNew S (id := s.uid) (a := atomAcc s.reading i l n p y op cas (atomDst i.o n ret)) ph rfl
    obtain ⟨a, found, -⟩ := sent.acc
    have waits := List.ne_nil_of_mem (State.mem_newAccs found uid)
    refine ⟨_, ?_, sent⟩
    rw [exec_ordered_free form ordered h free, parts, memLanes_pend lane, ← parts]
    exact congrArg Host.Outcome.next (if_neg (mt List.isEmpty_iff.1 waits))

end Sys2Proof.Machine

namespace Sys2Proof.Machine

/-! ## Requests at the home (R80, R82, R84) -/

section
variable {s S : State} {core line acc c : Nat} {bytes : ByteMask} {a : Access}
  (found : amapFind? s.accs acc = some a)
include found

theorem fill_waits (busy : s.lineBusy line = true) :
    exec (.fill core line bytes acc) s = .next { s with homeWait := s.homeWait ++ [(line, .fill core line bytes acc)] } := by
  simp [execFill, found, busy, State.again]

theorem intent_waits (busy : s.lineBusy line = true) (e : Nat) :
    exec (.intent core line bytes e acc) s = .next { s with homeWait := s.homeWait ++ [(line, .intent core line bytes e acc)] } := by
  simp [execIntent, found, busy, State.again]

variable (idle : s.lineBusy line = false) (fetched : s.l2Fetch line a.key = S) (served : S.demoted line = false)
include idle fetched served

/-- A line without a sharer: the fill is answered at once. -/
theorem fill_unshared (none_ : (S.l2At line).sharers = []) :
    exec (.fill core line bytes acc) s = .next (S.fillAnswer core line bytes acc) := by
  simp [execFill, found, idle, fetched, served, none_]

/-- A line that one other core holds: that core is asked for its masks. -/
theorem fill_probes (other : c ≠ core) (one : (S.l2At line).sharers = [c]) :
    exec (.fill core line bytes acc) s = .next ((S.addTxn (.fill line core bytes acc [c])).send (.mprobe c line)) := by
  simp [execFill, found, idle, fetched, served, one, other, other.symm]

theorem intent_gathers (e : Nat) : exec (.intent core line bytes e acc) s = .next (S.gather core line bytes e acc) := by
  simp [execIntent, found, idle, fetched, served]

end

section
variable {s : State} {core line acc c e : Nat} {bytes : ByteMask} {a : Access}

/-- A core that is the only sharer from now on is told so. -/
theorem State.fillAnswer_unshared (none_ : (s.l2At line).sharers = []) : s.fillAnswer core line bytes acc =
    let race := bytes != 0 && s.raceAt line core bytes false
    let T := if race then s else s.updL2 line fun l => { l with sharers := core :: l.sharers.filter (· ≠ core) }
    (T.send (.filld core line (s.l2At line).data (s.l2At line).poison (T.foreignBytes line core) true race acc)).demoteIfDue line := by
  simp only [State.fillAnswer, none_, List.all_nil]

theorem State.gather_unshared (none_ : (s.l2At line).sharers = []) :
    s.gather core line bytes e acc = s.intentAnswer core line bytes e acc := by
  simp [State.gather, none_]

theorem State.gather_one (other : c ≠ core) (one : (s.l2At line).sharers = [c]) :
    s.gather core line bytes e acc = (s.addTxn (.intent line core bytes e acc [c])).send (.mark c line bytes) := by
  simp [State.gather, one, other]

/-- A store's intent is granted, with its write mask recorded, unless it races. -/
theorem State.intentAnswer_store (found : amapFind? s.accs acc = some a) (store : a.op.isAtom = false) :
    s.intentAnswer core line bytes e acc = if s.raceAt line core bytes true then (s.send (.rnack core line acc)).demoteIfDue line
      else ((s.maskPut line core none (some ⟨e, 0, bytes⟩)).send (.grant core line acc)).demoteIfDue line := by
  simp [State.intentAnswer, found, store]

end

/-! ## Probes and marks at a sharer (R80) -/

section
variable {s : State} {core line : Nat} {l : L1Line}

theorem mprobe_absent (absent : (s.core core).l1Tracked line = none) :
    exec (.mprobe core line) s = .next (s.send (.mrep core line none none)) := by
  simp [execMprobe, absent]

theorem mark_absent (absent : (s.core core).l1Tracked line = none) (bytes : ByteMask) :
    exec (.mark core line bytes) s = .next (s.send (.markr core line none none)) := by
  simp [execMark, absent]

theorem mprobe_held (held : (s.core core).l1Tracked line = some l) : exec (.mprobe core line) s = .next ((s.l1Each core fun x =>
    some (if x.pline = line then { x with sole := false } else x)).send (.mrep core line l.g0 l.g1)) := by
  simp [execMprobe, held]

/-- A line at a sharer after a MARK of the physical line `line`: shared, and the bytes foreign. -/
def L1Line.marked (line : Nat) (bytes : ByteMask) (x : L1Line) : L1Line :=
  if x.pline = line then { x with sole := false, fd := x.fd ||| bytes } else x

theorem mark_held (held : (s.core core).l1Tracked line = some l) (bytes : ByteMask) : exec (.mark core line bytes) s =
    .next ((s.l1Each core fun x => some (x.marked line bytes)).send (.markr core line l.g0 l.g1)) := by
  simp [execMark, held, L1Line.marked]

theorem State.l1_l1Each (s : State) (core : Nat) (f : L1Line → L1Line) :
    ((s.l1Each core fun x => some (f x)).core core).l1 = (s.core core).l1.map f := by
  simp [State.l1Each]

theorem L1Line.marked_pline (x : L1Line) (line : Nat) (bytes : ByteMask) : (x.marked line bytes).pline = x.pline := by
  unfold L1Line.marked; split <;> rfl

theorem L1Line.marked_shared {x : L1Line} {line : Nat} (at_ : x.pline = line) (bytes : ByteMask) :
    (x.marked line bytes).sole = false ∧ bytes &&& ~~~ (x.marked line bytes).fd = 0 := by
  rw [L1Line.marked, if_pos at_]
  refine ⟨rfl, ?_⟩
  ext k
  simp +contextual

end

/-! ## Masks that return to the home (R80, R84) -/

section
variable {s S : State} {core line c acc e : Nat} {g0 g1 : Option Gen} {b : ByteMask} (stored : s.maskPut line core g0 g1 = S)
include stored

theorem mrep_unasked (unasked : ∀ t ∈ S.txns, ∀ c b a w, t ≠ .fill line c b a w) :
    exec (.mrep core line g0 g1) s = .next (S.demoteIfDue line) := by
  simp only [exec_mrep, execMrep, stored]
  split
  next found =>
    obtain ⟨rfl, -⟩ : _ = line ∧ core ∈ _ := by simpa using List.find?_some found
    exact absurd rfl (unasked _ (List.mem_of_find?_eq_some found) _ _ _ _)
  next => rfl

theorem mrep_answers (asked : S.txns = [.fill line c b acc [core]]) :
    exec (.mrep core line g0 g1) s = .next ((({ S with txns := [] } : State).homeWake line).fillAnswer c line b acc) := by
  simp [execMrep, stored, asked, State.dropTxn]

theorem markr_unasked (unasked : ∀ t ∈ S.txns, ∀ c b e a w, t ≠ .intent line c b e a w) :
    exec (.markr core line g0 g1) s = .next (S.demoteIfDue line) := by
  simp only [exec_markr, execMarkr, stored]
  split
  next found =>
    obtain ⟨rfl, -⟩ : _ = line ∧ core ∈ _ := by simpa using List.find?_some found
    exact absurd rfl (unasked _ (List.mem_of_find?_eq_some found) _ _ _ _ _)
  next => rfl

theorem markr_answers (asked : S.txns = [.intent line c b e acc [core]]) :
    exec (.markr core line g0 g1) s = .next ((({ S with txns := [] } : State).homeWake line).intentAnswer c line b e acc) := by
  simp [execMarkr, stored, asked, State.dropTxn]

end

/-! ## Answers at the core (R80, R84, R87) -/

/-- A load is served once with data that carries no poison where its bytes lie. -/
theorem State.serveOnce_load {s : State} {id : Nat} {a : Access} {data : Line} {poison : BitVec 2} (load : a.op.isStore = false)
    (clean : poison.getLsbD (a.pa % 128 / 64) = false) :
    s.serveOnce id a data poison = s.finishAcc id a (lineRead data (a.va % 128) a.n) := by
  unfold State.serveOnce
  split
  next store => simp [store, AOp.isStore] at load
  next => simp [clean]

section
variable {s : State} {core line acc : Nat} {data : Line} {poison : BitVec 2} {fd : ByteMask} {sole : Bool} {a : Access}

/-- The state once a fill has answered the only access in flight. -/
def State.answered (s : State) (acc : Nat) (a : Access) : State := { s with accs := [(acc, { a with filling := false })] }

@[simp] theorem State.core_answered (s : State) (acc : Nat) (a : Access) (c : Nat) : (s.answered acc a).core c = s.core c := rfl

section
variable (alone : s.accs = [(acc, a)])
include alone

theorem State.find_alone : amapFind? s.accs acc = some a := by simp [alone, amapFind?]

theorem State.insert_alone : ({ s with accs := amapInsert s.accs acc { a with filling := false } } : State) = s.answered acc a := by
  simp [State.answered, alone, amapInsert]

theorem filld_races : exec (.filld core line data poison fd sole true acc) s =
    .next ((s.answered acc a).failAcc acc { a with filling := false } { cause := .race, addr := a.va }) := by
  simp only [exec_filld, execFilld, State.find_alone alone, State.insert_alone alone, if_true]
  simp [alone, forEach]

theorem filld_once (once : a.once = true) : exec (.filld core line data poison fd sole false acc) s =
    .next ((s.answered acc a).serveOnce acc { a with filling := false } data poison) := by
  simp only [exec_filld, execFilld, State.find_alone alone, State.insert_alone alone]
  simp [alone, forEach, once]

variable (stays : a.once = false)
include stays

theorem filld_fills {L : L1Line} (held : (s.core core).l1Tracked line = some L) : exec (.filld core line data poison fd sole false acc) s =
    .next (((s.answered acc a).l1Put core { (L.fill data poison fd) with sole := sole }).fillDone acc { a with filling := false } line) := by
  simp only [exec_filld, execFilld, State.find_alone alone, State.insert_alone alone]
  simp [alone, forEach, stays, held]

theorem filld_installs (absent : (s.core core).l1Tracked line = none) : exec (.filld core line data poison fd sole false acc) s =
    .next (((((s.answered acc a).l1Oust core line).l1Room core (a.va / 128)).l1Put core
      { space := a.space, vline := a.va / 128, pline := line, cls := .tracked, key := a.key, data := data, bv := BitVec.allOnes 128, dm := 0,
        fd := fd, sole := sole, w := a.lw, poison := poison }).fillDone acc { a with filling := false } line) := by
  simp only [exec_filld, execFilld, State.find_alone alone, State.insert_alone alone]
  simp [alone, forEach, stays, absent]

end

section
variable (found : amapFind? s.accs acc = some a)
include found

theorem rnack_races : exec (.rnack core line acc) s = .next (s.failAcc acc a { cause := .race, addr := a.va }) := by
  simp [execRnack, found]

theorem grant_absent (absent : (s.core core).l1Tracked line = none) : exec (.grant core line acc) s = .next (s.startFill acc a) := by
  simp [execGrant, found, absent]

theorem grant_held {l : L1Line} (held : (s.core core).l1Tracked line = some l) :
    exec (.grant core line acc) s = .next ((s.l1StoreHit a l true).finishAcc acc a 0) := by
  simp [execGrant, found, held]

end
end

/-- Settles O38: a request at the home by the line's sharers, the masks that return by the transaction that asked for them, and an answer
at the core by the line that it finds there. -/
theorem fillsAndIntents : Obligations.FillsAndIntents := by
  unfold Obligations.FillsAndIntents
  refine ⟨fun s core line bytes acc a found busy => ⟨fill_waits found busy, intent_waits found busy⟩,
    fun s core line bytes acc a found idle => ?unshared, fun s core line bytes acc a c found idle other => ?one,
    fun s core line absent => ⟨mprobe_absent absent, mark_absent absent⟩, fun s core line l held => ⟨_, mprobe_held held, fun bytes => ?marked⟩,
    fun s core line g0 g1 => mrep_unasked rfl, fun s core line g0 g1 c b acc => mrep_answers rfl,
    fun s core line g0 g1 => markr_unasked rfl, fun s core line g0 g1 c b e acc => markr_answers rfl,
    fun s core line data poison fd sole acc a alone => ⟨filld_races alone, rnack_races (State.find_alone alone)⟩,
    fun s core line data poison fd sole acc a alone once load clean => ?once,
    fun s core line data poison fd sole acc a alone stays => ⟨fun L => filld_fills alone stays, filld_installs alone stays⟩,
    fun s core line acc a found => ⟨grant_absent found, fun l => grant_held found⟩⟩
  case unshared =>
    intro S served none_
    refine ⟨?_, fun e store kept => ?_⟩
    · rw [fill_unshared found idle rfl served none_, State.fillAnswer_unshared none_]
    · rw [intent_gathers found idle rfl served, State.gather_unshared none_, State.intentAnswer_store kept store]
  case one =>
    intro S served sharer
    refine ⟨fill_probes found idle rfl served other sharer, fun e => ?_⟩
    rw [intent_gathers found idle rfl served, State.gather_one other sharer]
  case marked =>
    refine ⟨_, mark_held held bytes, fun x hx at_ => ?_⟩
    rw [State.l1_l1Each] at hx
    obtain ⟨y, -, rfl⟩ := List.mem_map.1 hx
    exact L1Line.marked_shared (y.marked_pline line bytes ▸ at_) bytes
  case once =>
    rw [filld_once alone once, State.serveOnce_load (a := { a with filling := false }) load clean]
    rfl

end Sys2Proof.Machine

namespace Sys2Proof.Machine

/-! ## Write-backs (R77, R82, R87) -/

/-- The line of a write-back, as the home merges it. -/
def writtenBack (line key : Nat) (data : Line) (poison : BitVec 2) (dm : ByteMask) : L1Line :=
  { space := 0, vline := 0, pline := line, cls := .tracked, key := key, data := data, bv := dm, dm := dm, poison := poison }

section
variable {s S : State} {core line key a e y : Nat} {data : Line} {poison : BitVec 2} {dm : ByteMask} {g0 g1 : Option Gen} {why : WbWhy}
  (merged : (s.mergeLine (writtenBack line key data poison dm)).maskPut line core g0 g1 = S)
include merged

theorem wb_evicts (evicts : why = .plain ∨ why = .recall) : exec (.wb core line key data poison dm g0 g1 why) s =
    .next (((S.send (.wback core line why)).recallServed core line).demoteIfDue line) := by
  subst merged
  rcases evicts with rfl | rfl <;> rfl

theorem wb_darn_acknowledged (alone : a = core ∨ (S.l2At line).sharers.contains a = false) :
    exec (.wb core line key data poison dm g0 g1 (.darn a e y)) s = .next ((S.send (.wback core line (.darn a e y))).demoteIfDue line) := by
  have keeps : (a ≠ core && (S.l2At line).sharers.contains a) = false := by
    rcases alone with own | absent
    · simp [own]
    · rw [absent, Bool.and_false]
  subst merged
  exact if_neg (ne_true_of_eq_false keeps)

theorem wb_darn_invalidates (other : a ≠ core) (shares : (S.l2At line).sharers.contains a = true) :
    exec (.wb core line key data poison dm g0 g1 (.darn a e y)) s =
      .next ((S.addTxn (.inval line a core (.darn a e y))).send (.inv a line dm)) := by
  subst merged
  exact if_pos (Bool.and_eq_true_iff.2 ⟨decide_eq_true other, shares⟩)

end

/-! ## Recalls and darnings at a core (R80, R83, R87) -/

section
variable {s S : State} {core line : Nat} (overtaken : s.overtake core line = S)
include overtaken

theorem recall_absent (absent : (S.core core).l1Tracked line = none) :
    exec (.recall core line) s = .next (S.send (.wb core line 0 0 0 0 none none .recall)) := by
  simp [execRecall, overtaken, absent]

theorem recall_held {l : L1Line} (held : (S.core core).l1Tracked line = some l) :
    exec (.recall core line) s = .next ((S.l1Drop core l).send (.wb core line l.key l.data l.poison l.dm l.g0 l.g1 .recall)) := by
  simp [execRecall, overtaken, held]

end

section
variable {s : State} {core e acq y : Nat}

theorem darn_stale (stale : (s.core core).epoch ≤ e) : exec (.darn core e acq y) s = .next (s.send (.darnack core e true y)) := by
  simp [execDarn, stale]

variable (past : e < (s.core core).epoch)
include past

theorem darn_published (published : e ≤ s.pubOf (homeOf y) core) :
    exec (.darn core e acq y) s = .next (s.send (.darnack core e false y)) := by
  simp [execDarn, Nat.not_le.2 past, published]

variable (unpublished : s.pubOf (homeOf y) core < e)
include unpublished

theorem darn_nothing_owed (owed : ((s.core core).l1.filter fun l => l.cls = .tracked && s.darnBytes core e l != 0) = []) :
    exec (.darn core e acq y) s = .next ((s.updCore core fun k => { k with darns := k.darns ++ [(e, acq, y)] }).darnAcks core) := by
  simp only [exec_darn, execDarn, Nat.not_le.2 past, Nat.not_le.2 unpublished, if_false, owed]
  rfl

theorem darn_one_owed {l : L1Line} (owed : ((s.core core).l1.filter fun l => l.cls = .tracked && s.darnBytes core e l != 0) = [l]) :
    let m := s.darnBytes core e l
    exec (.darn core e acq y) s = .next ((((s.l1Each core fun x => some (if x.is l.space l.vline then x.darned e m else x)).send
      (.wb core l.pline l.key l.data l.poison m l.g0 l.g1 (.darn acq e y))).updCore core fun k =>
        { k with outWb := k.outWb + 1, darns := k.darns ++ [(e, acq, y)] }).darnAcks core) := by
  simp only [exec_darn, execDarn, Nat.not_le.2 past, Nat.not_le.2 unpublished, if_false, owed]
  rfl

end

/-! ## Acknowledgements at a home that serves one transaction (R77, R83) -/

section
variable {s : State} {core y e : Nat} {accs : List Nat}

theorem darnack_stale (only : s.txns = [.darn y core e accs]) : exec (.darnack core e true y) s =
    .next (({ s with txns := [], homeRec := amapSet (0, 0) s.homeRec y (core, 0) } : State).replyAll accs) := by
  simp [execDarnack, only, State.dropTxn]

theorem darnack_publishes (only : s.txns = [.darn y core e accs]) : exec (.darnack core e false y) s =
    .next ((List.range 192).foldl (fun s k => s.send (.publish k core e y))
      (({ s with txns := [] } : State).addTxn (.publish core e y (List.range 192) accs))) := by
  simp [execDarnack, only, State.dropTxn]

/-- Messages sent to each of a list change nothing but what is in flight. -/
theorem foldl_send (s : State) (f : Nat → Instr) (ks : List Nat) :
    ks.foldl (fun s k => s.send (f k)) s = { s with msgs := s.msgs ++ ks.map f } := by
  induction ks generalizing s with
  | nil => simp
  | cons k ks ih => rw [List.foldl_cons, ih]; simp [State.send]

theorem invack_acknowledges {line c : Nat} {why : WbWhy} (only : s.txns = [.inval line core c why]) : exec (.invack core line) s =
    .next (((({ s with txns := [] } : State).homeWake line).send (.wback c line why)).demoteIfDue line) := by
  simp [execInvack, only, State.dropTxn]

/-- The last slice's PUBACK answers the acquires that waited; an earlier one leaves the others to wait for. -/
theorem puback_counts {k : Nat} {w : List Nat} (only : s.txns = [.publish core e y w accs]) (awaited : k ∈ w) : exec (.puback k core e y) s =
    .next (if w.filter (· ≠ k) = [] then ({ s with txns := [] } : State).replyAll accs
      else { s with txns := [.publish core e y (w.filter (· ≠ k)) accs] }) := by
  simp [execPuback, only, awaited, State.dropTxn, State.addTxn, apply_ite Host.Outcome.next]

end

/-- Settles O39: a write-back by its cause, a darning by what its core still owes, and each acknowledgement by the one transaction that
waits for it; INV, PUBLISH and WBACK are their meanings as they stand. -/
theorem writeBacksAndDarnings : Obligations.WriteBacksAndDarnings := by
  unfold Obligations.WriteBacksAndDarnings
  refine ⟨fun s core line key data poison dm g0 g1 why => ⟨wb_evicts rfl, ?_⟩, fun s core line => ⟨rfl, rfl⟩, fun s core line a e y => rfl,
    fun s core line => ⟨recall_absent rfl, fun l => recall_held rfl⟩, fun s core e acq y => ⟨darn_stale, darn_published, ?_⟩,
    fun s core y e accs only => ⟨darnack_stale only, _, darnack_publishes only, ?_⟩, fun s core line bytes => rfl,
    fun s core line c why => invack_acknowledges, fun s k core e y => rfl, fun s k core e y w accs => puback_counts⟩
  · rintro a e y rfl
    exact ⟨wb_darn_acknowledged rfl, wb_darn_invalidates rfl⟩
  · exact fun past unpublished => ⟨darn_nothing_owed past unpublished, fun l => darn_one_owed past unpublished⟩
  · simp only [foldl_send]
    exact ⟨rfl, fun k hk => List.mem_append_right _ (List.mem_map.2 ⟨k, List.mem_range.2 hk, rfl⟩)⟩

end Sys2Proof.Machine

namespace Sys2Proof.Machine

/-! ## Walks (R92, R97, R98) -/

/-- The addresses of the table entries that a walk reads from where it starts; a root beyond device memory is not read. -/
def State.walkAddrs (s : State) (wing space va : Nat) : List Nat :=
  let root := bitField 51 12 (s.space space).root.toNat * 4096
  let st := walkStart (s.wing wing) space va root
  if 0x2FFFFFF000 < root then [] else walkReads s space va (5 - st.1) st.1 st.2

/-- The accesses that waited at a wing try again, now that a walk has been served. -/
def State.walkServed (s : State) (wing : Nat) : State :=
  (forEach (s.walkWaiters wing) s fun S x => S.walkResume x.1 x.2).walkTidy wing

/-- What a walk that finds no leaf ends with: the level it stopped at, with the entry of a format error. -/
def WalkRes.leafless (level : Nat) : Option Nat → WalkRes
  | some entry => .format level entry
  | none => .breach level

/-- The TLB entry that a leaf gives to the page of an address. -/
def Leaf.tlbEntry (f : Leaf) (space va : Nat) : TlbEntry :=
  { va := va - va % f.size, size := f.size, space := space, g := f.g, base := f.base, h := f.h, key := f.key, cls := f.cls,
    w := f.w, x := f.x, d := f.d }

section
variable {s S : State} {wing level : Nat} {tlb : TlbKind} {kind : AccKind} {w : Walk} {ws : List Walk} {f : Leaf} {en : Option Nat}

/-- A walker serves the walk at the head of its wing's queue. -/
theorem pageWalk_serves (head : (s.wing wing).walking = w :: ws) (write : w.write = (kind == .write)) (asked : tlb ∈ w.tlbs)
    (uncovered : ∀ kv ∈ s.shoots, kv.2.hits w.space w.va 1 = false) (unsnooped : w.snoops = none)
    (walked : (s.space w.space).inCache w.va = false)
    (still : ∀ a ∈ s.walkAddrs wing w.space w.va, s.flipping a = false ∧ s.hostBias a = false) :
    exec (.pageWalk wing tlb w.space w.va kind) s = .next ((s.walkDo wing w).walkServed wing) := by
  have taken : ((s.wing wing).walking.take 4).find? (fun x => x.space = w.space && x.va = w.va && x.write == (kind == .write) &&
      x.tlbs.contains tlb) = some w := by
    rw [head, List.take_succ_cons, List.find?_cons_of_pos]
    simp [write, asked]
  have free : s.shoots.any (fun kv => kv.2.hits w.space w.va 1) = false :=
    List.any_eq_false.2 fun kv hkv => ne_true_of_eq_false (uncovered kv hkv)
  have steady : (s.walkAddrs wing w.space w.va).any s.flipping = false :=
    List.any_eq_false.2 fun a ha => ne_true_of_eq_false (still a ha).1
  have device : walkUnits s (s.walkAddrs wing w.space w.va) = [] := by
    have none_ : (s.walkAddrs wing w.space w.va).filter s.hostBias = [] :=
      List.filter_eq_nil_iff.2 fun a ha => ne_true_of_eq_false (still a ha).2
    rw [walkUnits, none_]
    rfl
  rw [State.walkAddrs] at steady device
  simp only [exec_pageWalk, execPageWalk, taken, free, steady, device, unsnooped, walked]
  rfl

theorem walkDo_leaf (asks : w.tlbs = [tlb]) (found : s.walk wing w.space w.va w.write w.need = (.leaf f, S)) :
    s.walkDo wing w = (S.updWing wing fun x => x.tlbAdd tlb (f.tlbEntry w.space w.va)).updWalk wing w fun _ => none := by
  simp only [State.walkDo, found, asks]
  rfl

theorem walkDo_leafless (ended : s.walk wing w.space w.va w.write w.need = (.leafless level en, S)) :
    s.walkDo wing w = S.updWalk wing w fun x => some { x with served := some (level, en) } := by
  cases en <;> simp [State.walkDo, ended, WalkRes.leafless]

end

/-! ## Lodging (R102, R103) -/

section
variable {s : State} {die : Nat} {r : LodgeReq}

theorem lodgingRequestPost_posts {rest : List LodgeReq} (free : (s.die die).posted = none) (queue : (s.die die).reqs = r :: rest) :
    exec (.lodgingRequestPost die) s =
      .next ((s.updDie die fun d => { d with posted := some r, reqs := rest }).msiRaise (1 + die)) := by
  simp [execLodgingRequestPost, free, queue]

/-- The request or notice that a die has posted is answered. -/
def State.unpost (s : State) (die : Nat) : State := s.updDie die fun d => { d with posted := none }

@[simp] theorem State.unpost_posted (s : State) (die : Nat) : ((s.unpost die).die die).posted = none := by
  simp [State.unpost]

/-- The leases, a lease of them live. -/
def State.leasesGranting (s : State) (lease : Nat) : AMap Lease :=
  match amapFind? s.leases lease with
  | some l => amapInsert s.leases lease { l with granted := true }
  | none => s.leases

theorem State.leasesGranting_live {lease : Nat} {l : Lease} (listed : amapFind? s.leases lease = some l) :
    amapFind? (s.leasesGranting lease) lease = some { l with granted := true } := by
  rw [State.leasesGranting, listed]
  exact amapFind?_insert_same ..

section
variable (ready : s.boot.ready = true) (posted : (s.die die).posted = some r)
include ready posted

theorem lgrantGranted_grants (request : r.release = false) : exec (.lgrantGranted die r.lease) s =
    .next (State.leaseEnd { s.unpost die with leases := s.leasesGranting r.lease } r.lease) := by
  simp only [exec_lgrantGranted, execLgrantGranted, ready, posted, request, ne_eq, not_true_eq_false, decide_false]
  rfl

theorem lgrantRefused_ends (request : r.release = false) : exec (.lgrantRefused die r.lease) s =
    .next (forEach (s.launches.filter fun kv => kv.2.lease = some r.lease && !kv.2.complete)
      { s.unpost die with leases := amapErase s.leases r.lease } fun b kv =>
        (b.failLaunch kv.1 .lodgingRefused).updLaunch kv.1 fun x => { x with lease := none }) := by
  simp [execLgrantRefused, ready, posted, request, State.unpost]

theorem lgrantReleaseAck_frees (notice : r.release = true) : exec (.lgrantReleaseAck die r.lease) s =
    .next { s.unpost die with leases := amapErase s.leases r.lease } := by
  simp [execLgrantReleaseAck, ready, posted, notice, State.unpost]

end

/-- Before the part is ready the host's answers do nothing. -/
theorem lgrant_unready {lease : Nat} {x : Instr} (unready : s.boot.ready = false)
    (answer : x ∈ [Instr.lgrantGranted die lease, .lgrantRefused die lease, .lgrantReleaseAck die lease]) : exec x s = .next s := by
  simp only [List.mem_cons, List.not_mem_nil, or_false] at answer
  rcases answer with rfl | rfl | rfl
  · simp [execLgrantGranted, unready]
  · simp [execLgrantRefused, unready]
  · simp [execLgrantReleaseAck, unready]

end

/-! ## Shootdowns (R108, R242) -/

/-- The result of the TLBI that started a shootdown is on its way, where one awaits it. -/
def State.shootResult (s : State) : Option Nat → State
  | some p => { s with later := s.later ++ [.ins (.loadResultLand p)] }
  | none => s

theorem shootdownComplete_reports {s : State} {id : Nat} {x : Shoot} {rest : List (Nat × Shoot)} (oldest : s.shoots = (id, x) :: rest)
    (idle : s.shootBusy x = false) : exec (.shootdownComplete id) s =
      .next ((State.shootResult { s.shootDo x with shoots := rest } x.pend).completionRecord x.caddr 0 0 false x.irq) := by
  simp only [exec_shootdownComplete, execShootdownComplete, oldest, idle]
  cases x.pend <;> simp [State.shootResult]

/-! ## Blocks of translated code (R390, R391) -/

section
variable {s : State} {wing space hash word : Nat}

/-- A free page of the window takes the block's code; which of them is free to choose. -/
theorem blockPlace_free {p : Nat} {ps : List Nat} (room : s.blockRoom space = p :: ps) :
    ∃ k ∈ p :: ps, s.blockPlace space = some (k, { s with free := s.free + 1 }) := by
  have inside : Config.freeChoice s.free % (ps.length + 1) < (p :: ps).length := Nat.mod_lt _ ps.length.succ_pos
  refine ⟨_, List.getElem_mem inside, ?_⟩
  rw [← List.getD_eq_getElem _ p inside]
  unfold State.blockPlace
  rw [room]

/-- The decode assist reads the fetch blocks of the block, and then lands its code in a place where there is one. -/
theorem blockTranslate_reads {t g pc : Nat} {land : State → State} (waiter : s.blockWaiter wing space hash word = some (t, g, pc))
    (place : (s.blockPlace space).isSome)
    (lands : ∀ b k c, b.blockPlace space = some (k, c) →
      land b = c.blockPut space hash word ((s.launch (s.team t).launch).niropOff pc) k)
    (stays : ∀ b, b.blockPlace space = none → land b = b) :
    exec (.blockTranslate wing space hash word) s = .next (s.blockBytes t g
      ((List.range (ceilDiv (pc % 32 + niropBytes hash) 32)).map fun j => (pc / 32 * 32 + 32 * j) % 2 ^ 64) land) := by
  have placed : (s.blockPlace space).isNone = false := Option.isNone_eq_false_iff.2 place
  simp only [exec_blockTranslate, execBlockTranslate, waiter, placed, Bool.false_eq_true, if_false]
  refine congrArg (fun go => Host.Outcome.next (s.blockBytes t g _ go)) (funext fun b => ?_)
  split
  next k c e => exact (lands b k c e).symm
  next e => exact (stays b e).symm

end

/-- Settles O41: a served walk by what its tables hold, the host's answers by the request that is posted, the oldest shootdown by
whom it reports to, and a block by the page of the window that is free for it. -/
theorem translationEvents : Obligations.TranslationEvents := by
  unfold Obligations.TranslationEvents
  refine ⟨fun s wing tlb kind w ws head write asks quiet unsnooped walked still => ?walks,
    fun s die r rest free queue => ⟨_, lodgingRequestPost_posts free queue, ?posted⟩,
    fun s die r ready posted request => ⟨⟨_, lgrantGranted_grants ready posted request, State.unpost_posted ..,
      fun l => State.leasesGranting_live⟩, lgrantRefused_ends ready posted request⟩,
    fun s die r ready posted notice => ⟨_, lgrantReleaseAck_frees ready posted notice, State.unpost_posted .., rfl⟩,
    fun s die lease unready x => lgrant_unready unready,
    fun s id x rest oldest idle => ⟨fun pend => ?unawaited, fun p pend => ?awaited⟩,
    fun s wing space hash word t g pc p ps waiter room => ?block,
    fun s space p ps => blockPlace_free⟩
  case walks =>
    have served := pageWalk_serves head write (asks ▸ List.mem_singleton_self tlb) (by simp [quiet]) unsnooped walked still
    refine ⟨fun f found => ⟨f.tlbEntry w.space w.va, ?_, rfl, rfl, rfl, rfl, rfl, rfl, rfl, rfl, rfl, rfl, rfl⟩,
      fun level en ended => ?_⟩
    · rw [served, walkDo_leaf asks (Prod.ext found rfl)]
      rfl
    · rw [served, walkDo_leafless (level := level) (en := en) (Prod.ext ended rfl)]
      rfl
  case posted => simp
  case unawaited | awaited =>
    have reported := shootdownComplete_reports oldest idle
    rwa [pend] at reported
  case block =>
    obtain ⟨k, -, place⟩ := blockPlace_free room
    exact blockTranslate_reads waiter (by rw [place]; rfl) (fun b k c e => by simp only [e]) fun b e => by simp only [e]

end Sys2Proof.Machine

namespace Sys2Proof.Machine

/-! ## A step runs what it decoded (R134, R140, R164, R165, R248) -/

/-- The oldest message in flight is delivered first. -/
theorem step_delivers {s s' : State} {m : Instr} {ms : List Instr} (powered : s.boot.powered = true) (oldest : s.msgs = m :: ms)
    (done : exec m { s with msgs := ms } = .next s') : step s = .next (s'.keepTurn s.turn) := by
  simp [step, powered, oldest, done]

/-- At a group's turn the step is that group's slot. -/
theorem step_group {s : State} {t g : Nat} (powered : s.boot.powered = true) (quiet : s.msgs = []) (turn : s.turn = .group t g) :
    step s = groupStep t g s := by
  simp [step, powered, quiet, turn]

/-- At a stream's turn it is the stream's fetch. -/
theorem step_stream {s : State} {t : Nat} (powered : s.boot.powered = true) (quiet : s.msgs = []) (turn : s.turn = .stream t) :
    step s = streamStep t s := by
  simp [step, powered, quiet, turn]

/-- Nothing stands in the way of a group's slot: its lanes may issue, no exchange, trial, sequence, untranslated code or breakpoint
takes the slot, and the word at the PC, which is in the instruction cache, decodes. -/
theorem groupSlot_issues {s : State} {t g pc la : Nat} {r : Run} {b : BitVec 256} {i : Instr} (run : (s.group t g).run = some r)
    (lanes : r.lanes ≠ []) (free : s.accBars t g r.lanes = false) (fit : ∀ l ∈ r.lanes, (s.thread t g l).pend = none)
    (at_ : (s.thread t g (r.lanes.headD 0)).pc = pc) (of_ : (s.team t).launch = la) (apart : (s.group t g).exchangeAt pc = false)
    (untried : s.trialHeld t g pc = false) (unsequenced : s.seqNow la pc = none)
    (native : (s.launch la).nen = false ∨ s.niropNative la pc = true) (unbroken : s.breakHits t g pc r.lanes = [])
    (cached : s.icacheAt (s.team t).core la pc = some b)
    (decoded : groupDecode (blockFrom b pc) pc ((s.team t).kind = .porter) = .inl i) : s.groupSlot t g = .issue i pc s := by
  have fitted : (r.lanes.filter fun l => (s.thread t g l).pend.isSome) = [] :=
    List.filter_eq_nil_iff.2 fun l hl => by simp [fit l hl]
  have translated : ((s.launch la).nen && !s.niropNative la pc) = false := by
    rcases native with h | h <;> simp [h]
  simp only [State.groupSlot, run, at_, of_, List.isEmpty_eq_false_iff.2 lanes, free, fitted, apart, untried, translated, unbroken,
    unsequenced, cached, decoded, List.isEmpty_nil, Bool.not_true, Bool.false_eq_true, if_false]

/-- The word's length, as the decoder found it. -/
theorem decodeWord_ok {avail w n : Nat} {i : Instr} (decoded : decodeWord avail w = .ok (i, n)) :
    ∃ len, Len.ofCode (w % 4) = some len ∧ len.bytes ≤ avail ∧ opcAssigned (opcOf w) = true := by
  unfold decodeWord at decoded
  split at decoded
  · cases decoded
  split at decoded
  · cases decoded
  next len known =>
    split at decoded
    · cases decoded
    next long =>
      split at decoded
      · cases decoded
      next assigned => exact ⟨len, known, not_lt.1 long, by simpa using assigned⟩

/-- The checks of Table 09-17 pass for a word that decodes inside its block, is no stream word, and is not privileged but in the
night porter. -/
theorem groupDecode_of_decodeWord {w pc n : Nat} {porter : Bool} {i : Instr} (decoded : decodeWord (32 - pc % 32) w = .ok (i, n))
    (vector : opcStream (opcOf w) = false) (allowed : opcPrivileged (opcOf w) = false ∨ porter = true) :
    groupDecode w pc porter = .inl i := by
  obtain ⟨len, known, inside, assigned⟩ := decodeWord_ok decoded
  have whole : ¬ 32 < pc % 32 + len.bytes := by
    have := Nat.mod_lt pc (show 0 < 32 by decide)
    omega
  have permitted : (opcPrivileged (opcOf w) && !porter) = false := by
    rcases allowed with h | h <;> simp [h]
  simp [groupDecode, known, whole, assigned, vector, permitted, decoded]

/-- Settles O58: a step's cases are the message in flight, the group's slot and the stream's fetch, and the decode checks are those of
the decoder. -/
theorem stepRunsDecoded : Obligations.StepRunsDecoded := by
  unfold Obligations.StepRunsDecoded
  refine ⟨fun s m ms s' => step_delivers, ?issues, fun w pc porter i n => groupDecode_of_decodeWord, ?fetches⟩
  case issues =>
    intro s t g r b i powered quiet turn run lanes free fit pc la apart untried unsequenced native unbroken cached decoded
    have slot := groupSlot_issues run lanes free fit rfl rfl apart untried unsequenced native unbroken cached decoded
    rw [step_group powered quiet turn, groupStep, slot]
    exact ⟨fun s' done => by simp only [done, pc], fun f done => by simp only [done], fun f done => by simp only [done]⟩
  case fetches =>
    intro s t s' powered quiet turn done
    rw [step_stream powered quiet turn, streamStep, done]

end Sys2Proof.Machine

namespace Sys2Proof.Machine

/-! ## Calls and returns (R138, R181, R182)

Each participant's return stack and PC change in turn, and those of no other thread; so what the lanes before have done does not
show in what the next one reads. -/

/-- `S` is `b` but for the threads of one group, which read as `T`; those that were there still are. -/
structure Rethreaded (b S : State) (t g : Nat) (T : Nat → Thread) : Prop where
  others  : S.others = b.others
  cores   : S.cores = b.cores
  bodies  : ∀ t, (S.team t).body = (b.team t).body
  there   : (amapFind? S.teams t).isSome
  scal    : ∀ t g, (S.group t g).s = (b.group t g).s
  runs    : ∀ t g, (S.group t g).run = (b.group t g).run
  threads : ∀ t' g' l, S.thread t' g' l = if t' = t ∧ g' = g then T l else b.thread t' g' l
  lanes   : ∀ l, b.hasLane t g l → S.hasLane t g l

namespace Rethreaded

theorem refl {b : State} {t : Nat} (g : Nat) (there : (amapFind? b.teams t).isSome) : Rethreaded b b t g (b.thread t g) where
  others := rfl
  cores := rfl
  bodies _ := rfl
  there := there
  scal _ _ := rfl
  runs _ _ := rfl
  threads t' g' l := by split_ifs with h <;> [(obtain ⟨rfl, rfl⟩ := h; rfl); rfl]
  lanes _ h := h

variable {b S : State} {t g : Nat} {T : Nat → Thread}

theorem congr {T' : Nat → Thread} (h : Rethreaded b S t g T) (same : ∀ l, T l = T' l) : Rethreaded b S t g T' := funext same ▸ h

/-- One thread of the group changes. -/
theorem updThread (h : Rethreaded b S t g T) (l : Nat) (f : Thread → Thread) :
    Rethreaded b (S.updThread t g l f) t g fun k => if k = l then f (T l) else T k := by
  have groups (t' g' : Nat) : (S.updThread t g l f).group t' g' = if t' = t ∧ g' = g then
      { S.group t g with threads := amapInsert (S.group t g).threads l (f (S.thread t g l)) } else S.group t' g' := by
    rw [State.updThread, State.group_updGroup]
    simp only [h.there, and_true]
    rfl
  have here : S.thread t g l = T l := by rw [h.threads, if_pos ⟨rfl, rfl⟩]
  refine ⟨h.others, h.cores, fun t' => ?_, ?_, fun t' g' => ?_, fun t' g' => ?_, fun t' g' k => ?_, fun k hk => ?_⟩
  · rw [← h.bodies, State.updThread, State.updGroup, State.team_updTeam]
    split_ifs with at_
    · obtain ⟨rfl, -⟩ := at_; rfl
    · rfl
  · rw [State.updThread, State.updGroup, State.present_updTeam]; exact h.there
  · rw [← h.scal, groups]
    split_ifs with at_
    · obtain ⟨rfl, rfl⟩ := at_; rfl
    · rfl
  · rw [← h.runs, groups]
    split_ifs with at_
    · obtain ⟨rfl, rfl⟩ := at_; rfl
    · rfl
  · rw [State.thread, groups]
    split_ifs with at_ same
    · rw [same, amapGet_insert_same, here]
    · have kept := h.threads t g k
      rw [if_pos ⟨rfl, rfl⟩] at kept
      rw [amapGet_insert_other _ _ _ _ _ same]
      exact kept
    · have kept := h.threads t' g' k
      rwa [if_neg at_] at kept
  · have found := h.lanes k hk
    simp only [State.hasLane, groups, and_self, if_true] at found ⊢
    by_cases same : k = l
    · rw [same, amapFind?_insert_same]; rfl
    · rwa [amapFind?_insert_other _ _ _ _ same]

theorem setPc (h : Rethreaded b S t g T) (l a : Nat) :
    Rethreaded b (S.setPcs t g [(l, a)]) t g fun k => if k = l then { T l with pc := a % 2 ^ 64 } else T k :=
  h.updThread l fun th => { th with pc := a % 2 ^ 64 }

/-- Lanes that each change one thread, and find it as it was, change their threads together. -/
theorem forEach {new : Nat → Thread} {step : State → Nat → State} (ps : List Nat) (nodup : ps.Nodup) (h : Rethreaded b S t g T)
    (fresh : ∀ l ∈ ps, T l = b.thread t g l)
    (one : ∀ S T, Rethreaded b S t g T → ∀ l ∈ ps, T l = b.thread t g l →
      Rethreaded b (step S l) t g fun k => if k = l then new l else T k) :
    Rethreaded b (forEach ps S step) t g fun l => if l ∈ ps then new l else T l := by
  induction ps generalizing S T with
  | nil => simpa [Machine.forEach] using h
  | cons l ps ih =>
    obtain ⟨out, nodup⟩ := List.nodup_cons.1 nodup
    have first := one S T h l List.mem_cons_self (fresh l List.mem_cons_self)
    have rest := ih nodup first
      (fun k hk => by rw [if_neg (ne_of_mem_of_not_mem hk out)]; exact fresh k (List.mem_cons_of_mem _ hk))
      fun S T h k hk => one S T h k (List.mem_cons_of_mem _ hk)
    refine rest.congr fun k => ?_
    by_cases same : k = l
    · subst same; simp [out]
    · simp [same]

/-- What the team of the group is, its launch with it, is not of its threads. -/
theorem body (h : Rethreaded b S t g T) (t' : Nat) : (S.team t').kind = (b.team t').kind ∧ (S.team t').launch = (b.team t').launch :=
  ⟨(congrArg Team.kind (h.bodies t') :), (congrArg Team.launch (h.bodies t') :)⟩
theorem launches (h : Rethreaded b S t g T) : S.launches = b.launches := (congrArg State.launches h.others :)
theorem lr (h : Rethreaded b S t g T) (t' : Nat) : S.lr t' = b.lr t' := by
  simp only [State.lr, State.launch, h.launches, (h.body t').2]
theorem rstackOf (h : Rethreaded b S t g T) (t' : Nat) : S.rstackOf t' = b.rstackOf t' := by
  simp only [State.rstackOf, (h.body t').1, h.lr]
theorem here (h : Rethreaded b S t g T) (l : Nat) : S.thread t g l = T l := by rw [h.threads, if_pos ⟨rfl, rfl⟩]

/-- A lane whose thread has not changed reads its operands as before. -/
theorem src32 {i : Iss} (h : Rethreaded b S i.t i.g T) (l : Nat) (same : T l = b.thread i.t i.g l) (x : Src) :
    src32 S i l x = src32 b i l x := by
  have free : S.free = b.free := (congrArg State.free h.others :)
  cases x with
  | v n => simp only [Machine.src32, State.readV, h.here, same]
  | s n => simp only [Machine.src32, State.readS, Group.readS, h.scal]
  | y n => simp only [Machine.src32, latchRead, free]
  | imm | imm32 => rfl

end Rethreaded

/-- The threads of the group of a word that sets its participants' PCs and return stacks. -/
def Iss.turned (i : Iss) (s : State) (dest : Nat → Nat) (stack : Nat → List Nat) (l : Nat) : Thread :=
  if l ∈ i.parts then { s.thread i.t i.g l with pc := dest l, hw := stack l } else s.thread i.t i.g l

section
variable {s S : State} {i : Iss} {dest : Nat → Nat} {stack : Nat → List Nat}

/-- Each thread of the part after such a word: its PC and return stack alone may have changed. -/
theorem Rethreaded.turned_thread (h : Rethreaded s.reading S i.t i.g (i.turned s dest stack)) (t g l : Nat) :
    S.thread t g l = { s.thread t g l with
      pc := if t = i.t ∧ g = i.g then (if l ∈ i.parts then dest l else (s.thread i.t i.g l).pc) else (s.thread t g l).pc
      hw := if t = i.t ∧ g = i.g ∧ l ∈ i.parts then stack l else (s.thread t g l).hw } := by
  rw [h.threads]
  by_cases at_ : t = i.t ∧ g = i.g
  · obtain ⟨rfl, rfl⟩ := at_
    by_cases part : l ∈ i.parts <;> simp [Iss.turned, part]
  · have off : ¬ (t = i.t ∧ g = i.g ∧ l ∈ i.parts) := fun ⟨e, e', _⟩ => at_ ⟨e, e'⟩
    rw [if_neg at_, if_neg at_, if_neg off]
    rfl

theorem Rethreaded.turned_kept (h : Rethreaded s.reading S i.t i.g (i.turned s dest stack)) (running : (s.group i.t i.g).run = some i.run) :
    Kept s s.reading S i fun l => if l ∈ i.parts then dest l else (s.thread i.t i.g l).pc where
  there := h.there
  others := h.others
  bodies := h.bodies
  causes t g l := by rw [h.turned_thread]
  pcs t g l := by rw [h.turned_thread]
  stats l ready := by
    obtain ⟨th, found, stands⟩ := ready
    have there : S.hasLane i.t i.g l := h.lanes l (by show (amapFind? (s.group i.t i.g).threads l).isSome; rw [found]; rfl)
    obtain ⟨th', found'⟩ := Option.isSome_iff_exists.1 there
    have before : s.thread i.t i.g l = th := by rw [State.thread, amapGet_eq_find, found]; rfl
    have after : S.thread i.t i.g l = th' := by rw [State.thread, amapGet_eq_find, found']; rfl
    refine ⟨th', found', ?_⟩
    rw [← after, h.turned_thread, before]
    exact stands
  cores := h.cores
  run := (h.runs ..).trans running

/-- The end of a word that moved its participants and changed their return stacks: nothing else of a thread changed. -/
theorem finish_called (h : Rethreaded s.reading S i.t i.g (i.turned s dest stack)) (running : (s.group i.t i.g).run = some i.run)
    (within : ∀ l ∈ i.parts, l ∈ i.run.lanes) :
    Called s (i.finish S i.parts false none) i (fun l => if l ∈ i.parts then dest l else i.past s l) stack := by
  obtain ⟨moved, threads, scalars, -⟩ :=
    finish_moved (h.turned_kept running) i.parts (fun l out => if_neg fun part => out (within l part)) false none
  have keeps (t g l : Nat) := threads t g l
  simp only [h.turned_thread] at keeps
  refine ⟨⟨moved.others, moved.bodies, moved.causes, fun l hl ready => ?_, moved.pcs, moved.cores, moved.lines, moved.run⟩,
    ⟨fun t g l n => ?_, fun t g l n => ?_, fun t g l => ?_, fun t g n => ?_⟩, fun t g l => ?_, fun t g l => ?_⟩
  · rw [moved.pc l hl ready]
    simp only [List.contains_eq_mem, decide_eq_true_eq]
    by_cases part : l ∈ i.parts
    · rw [if_pos part, if_pos part, if_pos part]
    · rw [if_neg part, if_neg part, if_neg part]; rfl
  · simp only [State.readV, Thread.readV, (keeps t g l).1]
  · simp only [State.readP, Thread.readP, (keeps t g l).2.1]
  · exact (keeps t g l).2.2.1
  · simp only [State.readS, Group.readS, scalars, h.scal]; rfl
  · exact (keeps t g l).2.2.2.2
  · exact (keeps t g l).2.2.2.1

end

/-- A lane whose hardware entries have room pushes the offset of the next word and jumps. -/
theorem callLane_pushes {b S : State} {i : Iss} {T : Nat → Thread} (h : Rethreaded b S i.t i.g T) {l a : Nat}
    (same : T l = b.thread i.t i.g l) (room : (b.thread i.t i.g l).hw.length < 8)
    (deep : (b.thread i.t i.g l).hw.length + (b.thread i.t i.g l).spilled < 8 + b.rstackOf i.t) :
    Rethreaded b (S.callLane i l (.inl a)) i.t i.g fun k => if k = l then { b.thread i.t i.g l with
      pc := a % 2 ^ 64
      hw := ((b.thread i.t i.g l).pc + i.o.len.bytes + 2 ^ 64 - (b.lr i.t).code) % 2 ^ 64 % 2 ^ 32 :: (b.thread i.t i.g l).hw } else T k := by
  have pushed (off : Nat) : S.pushReturn i.t i.g l off =
      (none, S.updThread i.t i.g l fun th => { th with hw := off % 2 ^ 32 :: th.hw }) := by
    simp only [State.pushReturn, h.here, h.rstackOf, same]
    rw [if_neg (by omega), if_pos room]
  simp only [State.callLane, pushed, h.here, h.lr, same]
  refine ((h.updThread l fun th => { th with
    hw := ((b.thread i.t i.g l).pc + i.o.len.bytes + 2 ^ 64 - (b.lr i.t).code) % 2 ^ 64 % 2 ^ 32 :: th.hw }).setPc l a).congr fun k => ?_
  by_cases first : k = l
  · simp [first, same]
  · simp [first]

/-- A lane with a hardware entry pops the newest and goes to it. -/
theorem popReturn_jumps {b S : State} {i : Iss} {T : Nat → Thread} (h : Rethreaded b S i.t i.g T) {l top : Nat} {rest : List Nat}
    (same : T l = b.thread i.t i.g l) (stacked : (b.thread i.t i.g l).hw = top :: rest) :
    let R := S.updThread i.t i.g l fun th => { th with hw := rest }
    S.popReturn i.t i.g l = (.inl top, R) ∧
    Rethreaded b (R.setPcs i.t i.g [(l, (R.lr i.t).code + top)]) i.t i.g fun k =>
      if k = l then { b.thread i.t i.g l with pc := ((b.lr i.t).code + top) % 2 ^ 64, hw := rest } else T k := by
  have popped := h.updThread l fun th => { th with hw := rest }
  refine ⟨by simp only [State.popReturn, h.here, same, stacked], ?_⟩
  rw [popped.lr]
  refine (popped.setPc l ((b.lr i.t).code + top)).congr fun k => ?_
  by_cases first : k = l
  · simp [first, same]
  · simp [first]

/-- The participants of a word are lanes of its run. -/
theorem Issues.within {s : State} {o : Ops} {u : Uses} {i : Iss} (h : Issues s o u i) : ∀ l ∈ i.parts, l ∈ i.run.lanes := fun l part => by
  rw [h.parts] at part
  exact List.mem_of_mem_filter part

/-- A word that calls: each participant whose target is in order, and whose hardware entries have room, pushes and jumps. -/
theorem finish_calls {s : State} {o : Ops} {u : Uses} {i : Iss} (issues : Issues s o u i) (nodup : i.parts.Nodup)
    (target : State → Nat → Nat ⊕ Trap) (tgt : Nat → Nat)
    (aims : ∀ S T, Rethreaded s.reading S i.t i.g T → ∀ l ∈ i.parts, T l = s.reading.thread i.t i.g l → target S l = .inl (tgt l))
    (small : ∀ l, tgt l < 2 ^ 64)
    (room : ∀ l ∈ i.parts, (s.thread i.t i.g l).hw.length < 8 ∧
      (s.thread i.t i.g l).hw.length + (s.thread i.t i.g l).spilled < 8 + s.rstackOf i.t) :
    Called s (i.finish (forEach i.parts s.reading fun S l => S.callLane i l (target S l)) i.parts false none) i
      (fun l => if l ∈ i.parts then tgt l else i.past s l)
      fun l => (((s.thread i.t i.g l).pc + o.len.bytes + 2 ^ 64 - (s.lr i.t).code) % 2 ^ 64 % 2 ^ 32) :: (s.thread i.t i.g l).hw := by
  refine finish_called ?_ issues.run issues.within
  refine (Rethreaded.refl (b := s.reading) i.g (State.present_of_run s _ _ _ issues.run)).forEach i.parts nodup (fun _ _ => rfl)
    fun S T h l part same => ?_
  have called := callLane_pushes (a := tgt l) h same (room l part).1 (room l part).2
  rw [Nat.mod_eq_of_lt (small l), issues.ops] at called
  rw [aims S T h l part same]
  exact called

/-- Settles O7: each participant's call or return changes its own thread alone (`Rethreaded`), and the end of the word moves them. -/
theorem callsAndReturns : Obligations.CallsAndReturns := by
  unfold Obligations.CallsAndReturns
  refine ⟨fun x o u ok tgt form s i issues nodup able => ?calls, fun s o i top rest issues nodup stacked => ?returns⟩
  case calls =>
    have room (l : Nat) (part : l ∈ i.parts) := (able l part).2
    cases form with
    | call =>
      refine ⟨_, by rw [exec_call, execCall, issue_eq issues false _ nofun],
        finish_calls issues nodup (fun S l => .inl (S.relTarget i l)) _ (fun S T h l _ same => ?_) (fun l => ?_)
          fun l part => ⟨(room l part).1, (room l part).2.1⟩⟩
      · simp only [State.relTarget, h.here, same, issues.ops]
      · show ((((s.reading.thread i.t i.g l).pc : Int) + branchDisp o) % 2 ^ 64).toNat < 2 ^ 64
        omega
    | callx =>
      refine ⟨_, by rw [exec_callx, execCallx, issue_eq issues false _ nofun],
        finish_calls issues nodup (fun S l => S.absTarget i l) _ (fun S T h l part same => ?_) (fun l => ?_)
          fun l part => ⟨(room l part).1, (room l part).2.1⟩⟩
      · have aligned : (src32 s.reading i l o.a).toNat % 4 = 0 := (able l part).1
        simp only [State.absTarget, h.src32 l same, h.lr, issues.ops, aligned, if_true]
      · exact Nat.mod_lt _ (by decide)
  case returns =>
    refine ⟨_, by rw [exec_ret, execRet, issue_eq issues false _ nofun], finish_called ?_ issues.run issues.within⟩
    refine (Rethreaded.refl (b := s.reading) i.g (State.present_of_run s _ _ _ issues.run)).forEach i.parts nodup (fun _ _ => rfl)
      fun S T h l part same => ?_
    obtain ⟨popped, jumped⟩ := popReturn_jumps h same (stacked l part).1
    rw [popped]
    exact jumped

end Sys2Proof.Machine

namespace Sys2Proof.Machine

/-! ## Results that land (R142, R224) -/

/-- No register changes where only the bookkeeping of an issue does. -/
theorem Quiet.sameRegs {s s' : State} (h : Quiet s s') : SameRegs s s' where
  regs t g l n := congrArg (fun r => amapGet 0 r n) (congrArg (·.2.1) (h.arch t g l) :)
  preds t g l n := congrArg (fun r : BitVec 8 => n == 7 || r.getLsbD n) (congrArg (·.2.2.1) (h.arch t g l) :)
  modes t g l := (congrArg (·.2.2.2.1) (h.arch t g l) :)
  scal t g n := congrArg (fun r => if n = 63 then 0 else amapGet 0 r n) (h.scal t g)

/-- The writes of a vector result: each to its lane, unless the lane is dead. -/
def Group.laneWrites {α : Type} (w : Thread → Nat → α → Thread) (rs : List (Nat × Nat × α)) (gr : Group) : Group :=
  rs.foldl (fun gr r => if (gr.thr r.1).stat = .dead then gr else
    { gr with threads := amapInsert gr.threads r.1 (w (gr.thr r.1) r.2.1 r.2.2) }) gr

/-- A lane that is not dead takes its own writes, in their order. -/
theorem Group.thr_laneWrites {α : Type} (w : Thread → Nat → α → Thread) (keeps : ∀ th n x, (w th n x).stat = th.stat)
    (rs : List (Nat × Nat × α)) (gr : Group) (l : Nat) :
    (gr.laneWrites w rs).thr l = if (gr.thr l).stat = .dead then gr.thr l
      else ((rs.filter (·.1 = l)).map (·.2)).foldl (fun th x => w th x.1 x.2) (gr.thr l) := by
  unfold laneWrites
  induction rs generalizing gr with
  | nil => simp
  | cons r rs ih =>
    rw [List.foldl_cons, ih]
    by_cases dead : (gr.thr r.1).stat = .dead
    · rw [if_pos dead]
      by_cases same : r.1 = l
      · subst same; rw [if_pos dead, if_pos dead]
      · simp [same]
    · rw [if_neg dead]
      by_cases same : r.1 = l
      · subst same
        have written : ({ gr with threads := amapInsert gr.threads r.1 (w (gr.thr r.1) r.2.1 r.2.2) } : Group).thr r.1 =
            w (gr.thr r.1) r.2.1 r.2.2 := amapGet_insert_same ..
        rw [written, keeps, if_neg dead, if_neg dead]
        simp
      · have other : ({ gr with threads := amapInsert gr.threads r.1 (w (gr.thr r.1) r.2.1 r.2.2) } : Group).thr l = gr.thr l :=
          amapGet_insert_other _ _ _ _ _ (Ne.symm same)
        rw [other]
        simp [same]

theorem Group.s_laneWrites {α : Type} (w : Thread → Nat → α → Thread) (rs : List (Nat × Nat × α)) (gr : Group) :
    (gr.laneWrites w rs).s = gr.s := by
  unfold laneWrites
  induction rs generalizing gr with
  | nil => rfl
  | cons r rs ih => rw [List.foldl_cons, ih]; split_ifs <;> rfl

@[simp] theorem Thread.writeP_pc (th : Thread) (n : Nat) (b : Bool) : (th.writeP n b).pc = th.pc := by
  unfold writeP; split_ifs <;> rfl
@[simp] theorem Thread.writeP_fpm (th : Thread) (n : Nat) (b : Bool) : (th.writeP n b).fpm = th.fpm := by
  unfold writeP; split_ifs <;> rfl
@[simp] theorem Thread.writeP_stat (th : Thread) (n : Nat) (b : Bool) : (th.writeP n b).stat = th.stat := by
  unfold writeP; split_ifs <;> rfl
@[simp] theorem Thread.writeP_v (th : Thread) (n : Nat) (b : Bool) : (th.writeP n b).v = th.v := by
  unfold writeP; split_ifs <;> rfl

/-- A part of a thread that no single write touches, a list of them leaves. -/
theorem writes_keep {α β : Type} (w : Thread → Nat → α → Thread) (part : Thread → β) (keeps : ∀ th n x, part (w th n x) = part th)
    (ws : List (Nat × α)) (th : Thread) : part (ws.foldl (fun th x => w th x.1 x.2) th) = part th := by
  induction ws generalizing th with
  | nil => rfl
  | cons x ws ih => rw [List.foldl_cons, ih, keeps]

/-- What the vector writes of a result make of a lane. -/
theorem thr_vectorWrites (regs : List (Nat × Nat × Word)) (preds : List (Nat × Nat × Bool)) (gr : Group) (l : Nat) :
    let th := ((gr.laneWrites Thread.writeV regs).laneWrites Thread.writeP preds).thr l
    th.pc = (gr.thr l).pc ∧ th.fpm = (gr.thr l).fpm ∧
    (∀ n, th.readV n = if (gr.thr l).stat ≠ .dead then (lastWrite ((regs.filter (·.1 = l)).map (·.2)) n).getD ((gr.thr l).readV n)
      else (gr.thr l).readV n) ∧
    ∀ n, th.readP n = if (gr.thr l).stat ≠ .dead ∧ n < 7 then (lastWrite ((preds.filter (·.1 = l)).map (·.2)) n).getD ((gr.thr l).readP n)
      else (gr.thr l).readP n := by
  intro th
  have regsOf := Group.thr_laneWrites Thread.writeV (fun _ _ _ => rfl) regs gr l
  have predsOf : th = _ := Group.thr_laneWrites Thread.writeP Thread.writeP_stat preds (gr.laneWrites Thread.writeV regs) l
  by_cases dead : (gr.thr l).stat = .dead
  · rw [if_pos dead] at regsOf
    rw [regsOf, if_pos dead] at predsOf
    simp [predsOf, dead]
  · rw [if_neg dead] at regsOf
    have live : ((gr.laneWrites Thread.writeV regs).thr l).stat ≠ .dead := by
      rw [regsOf, writes_keep Thread.writeV Thread.stat fun _ _ _ => rfl]; exact dead
    rw [if_neg live] at predsOf
    rw [predsOf]
    refine ⟨?_, ?_, fun n => ?_, fun n => ?_⟩
    · rw [writes_keep Thread.writeP Thread.pc Thread.writeP_pc, regsOf, writes_keep Thread.writeV Thread.pc fun _ _ _ => rfl]
    · rw [writes_keep Thread.writeP Thread.fpm Thread.writeP_fpm, regsOf, writes_keep Thread.writeV Thread.fpm fun _ _ _ => rfl]
    · rw [if_pos dead, writes_keep Thread.writeP (·.readV n) fun th k b => congrArg (amapGet 0 · n) (th.writeP_v k b), regsOf, readV_writes]
    · rw [readP_writes, regsOf, writes_keep Thread.writeV (·.readP n) fun _ _ _ => rfl]
      simp [dead]

/-- What a result makes of its group. -/
def Pend.land (p : Pend) (gr : Group) : Group :=
  if p.scalar then p.regs.foldl (fun gr r => gr.writeS r.2.1 r.2.2) gr
  else (gr.laneWrites Thread.writeV p.regs).laneWrites Thread.writeP p.preds

/-- The end of a wait changes no register. -/
theorem quiet_endWait (s : State) (t g w : Nat) : Quiet s (s.endWait t g w) := by
  unfold State.endWait
  split
  · exact Quiet.refl s
  · refine quiet_updGroup _ _ _ _ fun gr => ⟨by simp, fun l => ?_⟩
    simp only [Group.readySince_threads]
    refine Group.thr_map _ _ _ fun l th => ?_
    split_ifs <;> rfl

/-- A result lands in its group; the waits that end with it change no register. -/
theorem quiet_landPend (s : State) (id : Nat) (p : Pend) :
    Quiet (({ s with pends := amapErase s.pends id } : State).updGroup p.team p.gix p.land) (s.landPend id p) :=
  quiet_forEach _ _ _ fun _ _ => quiet_endWait ..

theorem landResult_lands {s : State} {id : Nat} {p : Pend} (found : amapFind? s.pends id = some p) :
    exec (if p.medium then .mediumResultReady id else .loadResultLand id) s = .next (s.landPend id p) := by
  cases h : p.medium <;> simp [execMediumResultReady, execLoadResultLand, landResult, found, h]

/-- R142, R224: what a result that lands leaves in every register. -/
theorem landPend_writes {s : State} (id : Nat) {p : Pend} (there : (amapFind? s.teams p.team).isSome) :
    (∀ t g l, ((s.landPend id p).thread t g l).pc = (s.thread t g l).pc ∧ ((s.landPend id p).thread t g l).fpm = (s.thread t g l).fpm) ∧
    (p.scalar = true →
      (∀ t g n, (s.landPend id p).readS t g n =
        if t = p.team ∧ g = p.gix ∧ n ≠ 63 then (lastWrite (p.regs.map (·.2)) n).getD (s.readS t g n) else s.readS t g n) ∧
      ∀ t g l n, (s.landPend id p).readV t g l n = s.readV t g l n ∧ (s.landPend id p).readP t g l n = s.readP t g l n) ∧
    (p.scalar = false →
      (∀ t g n, (s.landPend id p).readS t g n = s.readS t g n) ∧
      (∀ t g l n, (s.landPend id p).readV t g l n = if t = p.team ∧ g = p.gix ∧ (s.thread t g l).stat ≠ .dead
        then (lastWrite ((p.regs.filter (·.1 = l)).map (·.2)) n).getD (s.readV t g l n) else s.readV t g l n) ∧
      ∀ t g l n, (s.landPend id p).readP t g l n = if t = p.team ∧ g = p.gix ∧ (s.thread t g l).stat ≠ .dead ∧ n < 7
        then (lastWrite ((p.preds.filter (·.1 = l)).map (·.2)) n).getD (s.readP t g l n) else s.readP t g l n) := by
  obtain ⟨regs, preds, modes, scal⟩ := (quiet_landPend s id p).sameRegs
  have pcs := (quiet_landPend s id p).arch
  generalize landed : ({ s with pends := amapErase s.pends id } : State).updGroup p.team p.gix p.land = S at regs preds modes scal pcs
  have there' : (amapFind? ({ s with pends := amapErase s.pends id } : State).teams p.team).isSome := there
  have groups (t g : Nat) : S.group t g = if t = p.team ∧ g = p.gix then p.land (s.group p.team p.gix) else s.group t g := by
    rw [← landed, State.group_updGroup]
    simp only [there', and_true]
    rfl
  have pcOf (t g l : Nat) : ((s.landPend id p).thread t g l).pc = (S.thread t g l).pc := (congrArg (·.1) (pcs t g l) :)
  simp only [regs, preds, modes, scal, pcOf]
  simp only [State.thread, State.readV, State.readP, State.readS, groups]
  cases scalar : p.scalar
  case true =>
    have lands (gr : Group) : p.land gr = (p.regs.map (·.2)).foldl (fun gr x => gr.writeS x.1 x.2) gr := by
      rw [Pend.land, scalar, if_pos rfl, List.foldl_map]
    have threads (t g : Nat) : (if t = p.team ∧ g = p.gix then p.land (s.group p.team p.gix) else s.group t g).threads = (s.group t g).threads := by
      split_ifs with at_
      · obtain ⟨rfl, rfl⟩ := at_; rw [lands, threads_writes]
      · rfl
    refine ⟨fun t g l => by rw [threads]; exact ⟨rfl, rfl⟩, fun _ => ⟨fun t g n => ?_, fun t g l n => by rw [threads]; exact ⟨rfl, rfl⟩⟩, nofun⟩
    by_cases at_ : t = p.team ∧ g = p.gix
    · obtain ⟨rfl, rfl⟩ := at_
      simp [lands, readS_writes]
    · rw [if_neg at_, if_neg fun h => at_ ⟨h.1, h.2.1⟩]
  case false =>
    have lands (gr : Group) : p.land gr = (gr.laneWrites Thread.writeV p.regs).laneWrites Thread.writeP p.preds := by
      rw [Pend.land, scalar, if_neg Bool.false_ne_true]
    have landed (t g l : Nat) :
        let th := (if t = p.team ∧ g = p.gix then p.land (s.group p.team p.gix) else s.group t g).thr l
        let th₀ := (s.group t g).thr l
        th.pc = th₀.pc ∧ th.fpm = th₀.fpm ∧
        (∀ n, th.readV n = if t = p.team ∧ g = p.gix ∧ th₀.stat ≠ .dead
          then (lastWrite ((p.regs.filter (·.1 = l)).map (·.2)) n).getD (th₀.readV n) else th₀.readV n) ∧
        ∀ n, th.readP n = if t = p.team ∧ g = p.gix ∧ th₀.stat ≠ .dead ∧ n < 7
          then (lastWrite ((p.preds.filter (·.1 = l)).map (·.2)) n).getD (th₀.readP n) else th₀.readP n := by
      by_cases at_ : t = p.team ∧ g = p.gix
      · obtain ⟨rfl, rfl⟩ := at_
        simp only [true_and, and_self, if_true, lands]
        exact thr_vectorWrites ..
      · simp only [← and_assoc, at_, false_and, if_false, implies_true, and_self]
    refine ⟨fun t g l => ?_, nofun, fun _ => ⟨fun t g n => ?_, fun t g l => (landed t g l).2.2.1, fun t g l => (landed t g l).2.2.2⟩⟩
    · obtain ⟨pc, fpm, -⟩ := landed t g l
      exact ⟨pc, fpm⟩
    · split_ifs with at_
      · obtain ⟨rfl, rfl⟩ := at_
        rw [lands, Group.readS, Group.s_laneWrites, Group.s_laneWrites]
        rfl
      · rfl

/-! ## Waits that end -/

/-- A lane that leaves off waiting is ready, or parked where its BARRD has failed (R239). -/
def Thread.woken (th : Thread) : Thread := { th with stat := if th.pend.isSome then .parked else .ready, pend := none }

/-- Some lanes of a group wake, and it takes its place in the ready order. -/
theorem thread_wakes {s : State} {t g l : Nat} (f : Group → Group) (wakes : Nat → Thread → Thread)
    (there : (amapFind? s.teams t).isSome) (threads : ∀ gr, (f gr).threads = amapMap wakes gr.threads) (lane : s.hasLane t g l = true) :
    (s.updGroup t g f).thread t g l = wakes l (s.thread t g l) := by
  obtain ⟨old, found⟩ := Option.isSome_iff_exists.mp lane
  have old_eq : s.thread t g l = old := by rw [State.thread, amapGet_eq_find, found]; rfl
  rw [State.thread, State.group_updGroup, if_pos ⟨rfl, rfl, there⟩, threads, amapGet_eq_find, amapFind?_map, found, old_eq]
  rfl

theorem endWait_wakes {s : State} {t g w l : Nat} {wt : Wait} (found : amapFind? (s.group t g).waits w = some wt)
    (there : (amapFind? s.teams t).isSome) (mem : l ∈ wt.lanes) (waits : (s.thread t g l).stat = .waiting w)
    (lane : s.hasLane t g l = true) :
    (s.endWait t g w).thread t g l = (s.thread t g l).woken := by
  simp only [State.endWait, found]
  rw [thread_wakes _ (fun k th => if wt.lanes.contains k ∧ th.stat = .waiting w then th.woken else th) there
    (fun gr => Group.readySince_threads ..) lane]
  exact if_pos ⟨by simpa using mem, waits⟩

theorem convRelease_wakes {s : State} {t g : Nat} (closed : (s.group t g).convSet ≠ []) (there : (amapFind? s.teams t).isSome) :
    ∃ s', exec (.convRelease t g) s = .next s' ∧ SameRegs s s' ∧
      ∀ l ∈ (s.group t g).convSet, s.hasLane t g l = true → s'.thread t g l = (s.thread t g l).woken := by
  rw [exec_convRelease, execConvRelease]
  split
  case h_1 none => exact absurd none closed
  case h_2 =>
    refine ⟨_, rfl, ?_, fun l mem lane => ?_⟩
    · refine (quiet_updGroup _ _ _ _ fun gr => ⟨by simp, fun l => ?_⟩).sameRegs
      simp only [Group.readySince_threads]
      refine Group.thr_map _ _ _ fun l th => ?_
      split_ifs <;> rfl
    · rw [thread_wakes _ (fun k th => if (s.group t g).convSet.contains k then th.woken else th) there
        (fun gr => Group.readySince_threads ..) lane]
      exact if_pos (by simpa using mem)

/-- Settles O37: a result's writes are folds over its lanes, and the waits it ends change no register; each of the other waits goes on
where what its event tests holds. -/
theorem resultsAndWaits : Obligations.ResultsAndWaits := by
  unfold Obligations.ResultsAndWaits
  refine ⟨fun s id p found there => ?lands,
    fun s t g w wt found there => ⟨(quiet_endWait ..).sameRegs, fun l mem waits lane => ?endWait⟩,
    fun s t g w ls pc wait => ?parity, fun s t g w ls b m wait set => ?copies, fun s t g w ls ch n wait free => ?source,
    fun s t g w ls u wait ended => ?pause, fun s t g w ls ids wait done => ?sync,
    fun s t g w ls as cs fs p q wait accs copies flights => ?fencex, fun s t g w ls sp k r wait found opening => ?rowOpen,
    fun s t g w ls wait => ?allPresent, fun s t g w ls k a wait acc present => ?present,
    fun s t g l closed there mem lane => ?conv, fun s t k d found restored landed => ?deferred⟩
  case lands => exact ⟨s.landPend id p, landResult_lands found, landPend_writes id there⟩
  case endWait => rw [endWait_wakes found there mem waits lane]; rfl
  case parity => simp [execBarrierWaitComplete, wait]
  case copies => 
    have bits : s.bitsSet t b m = true := by simpa [State.bitsSet] using set
    simp only [exec_cpwaitComplete, execCpwaitComplete, wait, bits, if_true, State.cpAcquire]
  case source => 
    have room : s.sourceFree t ch n = true := decide_eq_true free
    simp only [exec_cpsrcwComplete, execCpsrcwComplete, wait, room, if_true]
  case pause => simp [execPauseExpiry, wait, ended]
  case sync =>
    have gone : (ids.all fun k => (amapFind? s.accs k).isNone) = true := by simpa using done
    rcases wait with wait | wait <;> simp only [exec_syncAccessComplete, execSyncAccessComplete, wait, gone, if_true]
  case fencex =>
    have accsGone : (as.all fun k => (amapFind? s.accs k).isNone) = true := by simpa using accs
    have copiesGone : (cs.all fun k => (amapFind? s.copies k).all Copy.reported) = true := by
      simpa [Option.all_eq_true] using copies
    have flightsGone : (fs.all fun k => (amapFind? s.flights k).isNone) = true := by simpa using flights
    simp only [exec_syncAccessComplete, execSyncAccessComplete, wait, accsGone, copiesGone, flightsGone, Bool.and_self, if_true]
  case rowOpen => simp [execRowOpenComplete, wait, found, opening]
  case allPresent => simp [execPresenceWaitComplete, wait, forEach]
  case present => simp [execPresenceWaitComplete, wait, acc, present, forEach]
  case conv =>
    obtain ⟨s', ran, same, woken⟩ := convRelease_wakes closed there
    exact ⟨s', ran, same, by rw [woken l mem lane]; rfl⟩
  case deferred =>
    have gone : (d.copies.all fun c => (amapFind? s.copies c).isNone) = true := by simpa using landed
    simp only [exec_barrdArrivalPerform, execBarrdArrivalPerform, found, restored, gone, Bool.not_false, Bool.and_self, if_true]

end Sys2Proof.Machine

namespace Sys2Proof.Machine

/-! ## The words that the decoder gives (R149, R164)

By the tables of the opcodes; a step of the part is not among them. -/

/-- A word of blocks 0 and 1. -/
def intWord : Instr → Bool
  | .mov .. | .movi .. | .sel .. | .iadd .. | .isub .. | .iabs .. | .ineg .. | .imin .. | .imax .. | .iadd64 .. | .imul ..
  | .imulh .. | .imad .. | .imadw .. | .and .. | .or .. | .xor .. | .not .. | .lgc3 .. | .shl .. | .shr .. | .sar .. | .rot ..
  | .fshf .. | .bfe .. | .bfi .. | .popc .. | .clz .. | .brev .. | .bysel .. | .lea .. | .isetp .. | .fsetp .. | .iaddP ..
  | .isubP .. | .imulP .. | .lgc3P .. | .plop .. | .pmov .. | .pmovP .. | .bra .. | .braAny .. | .braAll .. | .brx ..
  | .call .. | .callx .. | .ret .. | .exit .. | .conv .. | .nop .. | .pause .. | .sread .. | .sreadW .. | .swrite ..
  | .launch .. | .prog .. | .fclassP .. => true
  | _ => false

/-- A word of blocks 2 and 3. -/
def floatWord : Instr → Bool
  | .fadd .. | .fsub .. | .fmul .. | .ffma .. | .fmin .. | .fmax .. | .fdp2 .. | .frnd .. | .fclass .. | .frcp .. | .frsq ..
  | .fsqrt .. | .fexp2 .. | .flog2 .. | .fsin .. | .fcos .. | .frcpIeee .. | .fsqrtIeee .. | .cvt .. | .cvq2 .. | .cvq4 ..
  | .cvq8 .. | .cvx2 .. | .cvx4 .. | .cvx8 .. => true
  | _ => false

/-- A word of the memory class. -/
def memWord : Instr → Bool
  | .ldg .. | .stg .. | .ldp .. | .stp .. | .lds .. | .sts .. | .ldx .. | .stx .. | .ldf .. | .stf .. | .ldw .. | .stw ..
  | .ldk .. | .ldsS .. | .pfg .. | .stew .. | .atomg .. | .atomgCas .. | .atomgF .. | .redg .. | .redgF .. | .atoms ..
  | .atomx .. | .lda .. | .stl .. | .fence .. | .fencex .. | .barrive .. | .bwait .. | .bsync .. | .barrd .. | .binit ..
  | .balloc .. | .bfree .. | .rowbook .. | .rowjoin .. | .rowfree .. | .tlbiPage .. | .tlbiSpace .. | .tlbiAll .. | .satom ..
  | .satomCas .. | .cpgather .. | .cpscatter .. | .cpscatterAdd .. | .cpwait .. | .cptest .. | .cpclr .. | .cpsrcw ..
  => true
  | _ => false

/-- A word of a lane exchange or of graphics, an MPUT, a TRAP or a BKPT, or one that is the night porter's. -/
def miscWord : Instr → Bool
  | .lxchIdx .. | .lxchRot .. | .lxchRev .. | .lxchXor .. | .lxchS .. | .lqryAll .. | .lqryAny .. | .lqrySame .. | .lgath ..
  | .match_ .. | .redl .. | .redlF .. | .msvtx .. | .msvtxB128 .. | .msprim .. | .mscount .. | .interp .. | .derivX ..
  | .derivY .. | .fragexp .. | .fragexpZ .. | .fragkill .. | .rocbeg .. | .rocend .. | .tex .. | .texL .. | .texG ..
  | .texld .. | .texq .. | .mput .. | .trap .. | .trapLegacy .. | .bkpt .. | .rtt .. | .haltt .. | .gbread .. | .pkrd ..
  | .pkwr .. | .resume .. | .resumeSkip .. | .killt .. | .killtG .. => true
  | _ => false

/-- A word of a matrix stream. -/
def streamWord : Instr → Bool
  | .mld .. | .mldV .. | .mma .. | .mmq .. | .mmqP .. | .mmi .. | .mclr .. | .mst .. | .mstV .. | .mbar .. | .mbw .. | .mnop ..
  | .msetImm .. | .msetHi .. | .msetArg .. | .msetArghi .. | .msetSr .. | .msetC .. | .maddk .. | .mloop .. | .mjmp ..
  | .mend .. => true
  | _ => false

/-! What holds of the instruction of a form of the modifier field, whatever its bits, holds of what the form decodes to. -/

section
variable {p : Instr → Bool} {m : Nat}

theorem all_mOnly {mask : Nat} {x : Option Instr} (h : x.all p = true) : (mOnly m mask x).all p = true := by
  unfold mOnly; split_ifs <;> [exact h; rfl]
theorem all_m0 {i : Instr} (h : p i = true) : (m0 m i).all p = true := by
  unfold m0; split_ifs <;> [exact h; rfl]
theorem all_map {α : Type} {x : Option α} {f : α → Instr} (h : ∀ a, p (f a) = true) : (x.map f).all p = true := by
  cases x <;> [rfl; exact h _]
theorem all_mInt {f : IntTy → Bool → Instr} (h : ∀ t b, p (f t b) = true) : (mInt m f).all p = true := all_mOnly (all_map fun _ => h ..)
theorem all_mTy {f : IntTy → Instr} (h : ∀ t, p (f t) = true) : (mTy m f).all p = true := all_mOnly (all_map h)
theorem all_mTop {f : Bool → Instr} (h : ∀ b, p (f b) = true) : (mTop m f).all p = true := all_mOnly (h _)
theorem all_mPred {f : Bool → BitVec 3 → Instr} (h : ∀ b q, p (f b q) = true) : (mPred m f).all p = true := all_mOnly (h ..)
theorem all_mCmp {f : CmpOp → Bool → BitVec 3 → Cmp → Instr} (h : ∀ op b q c, p (f op b q c) = true) : (mCmp m f).all p = true := h ..

theorem all_ite {c : Prop} [Decidable c] {x : Option Instr} (h : x.all p = true) : (if c then x else none).all p = true := by
  split_ifs <;> [exact h; rfl]
theorem all_mLxch {f : BitVec 3 → BitVec 3 → Instr} (h : ∀ q r, p (f q r) = true) : (mLxch m f).all p = true := all_mOnly (h ..)
theorem all_mF {f : FMod → Instr} (h : ∀ k, p (f k) = true) : (mF m f).all p = true := all_map fun _ => h _
theorem all_mTr {f : Bool → Bool → Instr} (h : ∀ a b, p (f a b) = true) : (mTr m f).all p = true := all_mOnly (h ..)
theorem all_mCvt {f : CvtTy → Bool → Bool → Rnd → Instr} (h : ∀ s a b r, p (f s a b r) = true) : (mCvt m f).all p = true := by
  unfold mCvt; split <;> [exact h ..; rfl]
theorem all_mSlotF {f : Bool → BitVec 3 → Instr} (h : ∀ b q, p (f b q) = true) : (mSlotF m f).all p = true := all_mOnly (h ..)
theorem all_mSlot {f : BitVec 3 → Instr} (h : ∀ q, p (f q) = true) : (mSlot m f).all p = true := all_mOnly (h _)
theorem all_mMem {ty : Option MTy} {f : MMod → Instr} (h : ∀ k, p (f k) = true) : (mMem m ty f).all p = true := by
  unfold mMem; dsimp only; split <;> [exact all_map fun _ => h _; exact all_ite (h _)]
theorem all_mAt {f : Bool → Ord3 → Bool → AtOp → Instr} (h : ∀ b o c a, p (f b o c a) = true) : (mAt m f).all p = true :=
  all_mOnly (all_map fun _ => h ..)
theorem all_mAtCas {f : Bool → Ord3 → Instr} (h : ∀ b o, p (f b o) = true) : (mAtCas m f).all p = true := all_mOnly (h ..)
theorem all_mAtF {f : Bool → Ord3 → FTy → FRedOp → Instr} (h : ∀ b o t a, p (f b o t a) = true) : (mAtF m f).all p = true := by
  refine all_mOnly ?_
  split <;> [exact h ..; rfl]
theorem all_noOrd {x : Option Instr} (h : x.all p = true) : (noOrd m x).all p = true := all_ite h
theorem all_mCp {f : BitVec 3 → BitVec 6 → Instr} (h : ∀ c t, p (f c t) = true) : (mCp m f).all p = true := h ..
theorem all_mMul {f : BitVec 3 → Bool → Instr} (h : ∀ q b, p (f q b) = true) : (mMul m f).all p = true := all_mOnly (h ..)
theorem all_mMst {f : BitVec 3 → BitVec 3 → Bool → Bool → Instr} (h : ∀ q r a b, p (f q r a b) = true) : (mMst m f).all p = true :=
  all_mOnly (h ..)

theorem intWord_ofOpcInt (c m : Nat) (o : Ops) : (ofOpcInt c m o).all intWord = true := by
  unfold ofOpcInt
  split <;> apply_rules [all_mOnly, all_m0, all_map, all_ite, all_mInt, all_mTy, all_mTop, all_mPred, all_mCmp] <;> intros <;> rfl

theorem floatWord_ofOpcFloat (c m : Nat) (o : Ops) : (ofOpcFloat c m o).all floatWord = true := by
  unfold ofOpcFloat
  split <;> apply_rules [all_m0, all_mF, all_mTr, all_mCvt, all_mSlotF, all_mSlot] <;> intros <;> rfl

theorem memWord_ofOpcMem (c m : Nat) (o : Ops) (x : MemX) : (ofOpcMem c m o x).all memWord = true := by
  unfold ofOpcMem
  -- FENCEX and TLBI choose among their forms themselves
  split
  case h_50 => exact all_mOnly (by split <;> rfl)
  case h_80 => split <;> rfl
  all_goals
    apply_rules [all_mAtF, all_noOrd, all_m0, all_map, all_mTop, all_mMem, all_mAt, all_mAtCas, all_mCp, all_mOnly] <;> intros <;> rfl

theorem miscWord_ofOpcMisc (c m : Nat) (o : Ops) : (ofOpcMisc c m o).all miscWord = true := by
  unfold ofOpcMisc
  -- REDL, REDL.S, REDL.F and TRAP choose among their forms themselves
  split
  case h_12 | h_13 | h_14 => exact all_mOnly (by split <;> rfl)
  case h_35 => split <;> rfl
  all_goals apply_rules [all_mOnly, all_m0, all_map, all_mTop, all_mLxch, all_mPred, all_ite]

theorem streamWord_ofOpcStream (c m : Nat) (o : SOps) : (ofOpcStream c m o).all streamWord = true := by
  unfold ofOpcStream
  -- MSET chooses among its forms itself
  split
  case h_17 => split <;> rfl
  all_goals apply_rules [all_mOnly, all_m0, all_mMul, all_mMst]

end

/-! ## Every word has an answer at a group's turn -/

/-- A step has an answer: a next state. -/
def Answers (x : Out) : Prop := ∃ s', x = .next s'

theorem answers_next (s : State) : Answers (.next s) := ⟨s, rfl⟩
theorem answers_ite {c : Prop} [Decidable c] {x y : Out} (hx : Answers x) (hy : Answers y) : Answers (if c then x else y) := by
  split_ifs <;> [exact hx; exact hy]
theorem Answers.of_eq {x y : Out} (e : x = y) (h : Answers y) : Answers x := e ▸ h

section
variable {s : State} {t g : Nat} {r : Run} (turn : s.turn = .group t g) (run : (s.group t g).run = some r)
include turn run

theorem issue_answers (o : Ops) (u : Uses) (priv : Bool) (body : Iss → State → State) : Answers (issue o u priv body s) := by
  unfold issue
  simp only [turn, run]
  refine answers_ite (answers_next _) (answers_ite (answers_next _) (answers_ite (answers_next _) ?_))
  split
  · exact answers_ite (answers_next _) (answers_ite (answers_ite (answers_next _) (answers_next _)) (answers_next _))
  · exact answers_ite (answers_next _) (answers_next _)

theorem streamTurn_answers (f : Nat → Stream → State → State) : Answers (streamTurn s f) := by
  simp only [streamTurn, turn, run]
  exact answers_next _

theorem formIssue_answers (sc : Bool) (o : Ops) (u : Uses) (f : State → Iss → Nat → LaneRes) : Answers (formIssue sc o u f s) :=
  answers_ite (issue_answers turn run ..) (issue_answers turn run ..)
theorem fpIssue_answers (sc : Bool) (o : Ops) (u : Uses) (medium : Bool) (f : State → Iss → Nat → Word → List Word × FFlags) :
    Answers (fpIssue sc o u medium f s) :=
  answers_ite (issue_answers turn run ..) (answers_ite (issue_answers turn run ..) (issue_answers turn run ..))
theorem vecIssue_answers (o : Ops) (u : Uses) (latch : Bool) (f : State → Iss → Nat → LaneRes) :
    Answers (vecIssue o u latch f s) := by
  unfold vecIssue; exact issue_answers turn run ..
theorem mediumIssue_answers (o : Ops) (u : Uses) (f : State → Iss → Nat → LaneRes) :
    Answers (mediumIssue o u f s) := by
  unfold mediumIssue; exact issue_answers turn run ..
theorem alu1_answers (o : Ops) (sc : Bool) (f : Word → Word) :
    Answers (alu1 o sc f s) := by
  unfold alu1; exact formIssue_answers turn run ..
theorem alu2_answers (o : Ops) (sc : Bool) (f : Word → Word → Word) :
    Answers (alu2 o sc f s) := by
  unfold alu2; exact formIssue_answers turn run ..
theorem alu3_answers (o : Ops) (sc : Bool) (f : Word → Word → Word → Word) :
    Answers (alu3 o sc f s) := by
  unfold alu3; exact formIssue_answers turn run ..
theorem fp2_answers (o : Ops) (ty : FTy) (sc : Bool) (f : Word → Word → Word → List Word × FFlags) :
    Answers (fp2 o ty sc f s) := by
  unfold fp2; exact fpIssue_answers turn run ..
theorem fnIssue_answers (fn : Fn) (o : Ops) (fm : TForm) (na aa : Bool) :
    Answers (fnIssue fn o fm na aa s) := by
  unfold fnIssue; exact fpIssue_answers turn run ..
theorem memIssue_answers (o : Ops) (u : Uses) (d : Option (Nat × Nat)) (ext : Nat → Nat)
    (f : Iss → State → Nat → LaneMem × State) (after : Iss → List LaneMem → State → State) :
    Answers (memIssue o u d ext f after s) := by
  unfold memIssue; exact issue_answers turn run ..
theorem onceIssue_answers (o : Ops) (u : Uses) (priv waiting : Bool) (body : Iss → Nat → State → State) :
    Answers (onceIssue o u priv waiting body s) := by
  unfold onceIssue; exact issue_answers turn run ..
theorem syncIssue_answers (o : Ops) (u : Uses) (body : Iss → State → State) :
    Answers (syncIssue o u body s) := by
  unfold syncIssue; exact issue_answers turn run ..
theorem kindIssue_answers (k : Kind) (o : Ops) (u : Uses) (body : Iss → State → State) :
    Answers (kindIssue k o u body s) := by
  unfold kindIssue; exact issue_answers turn run ..
theorem masked_answers (o : Ops) (u : Uses) (body : Iss → List Nat → State → State) :
    Answers (masked o u body s) := by
  unfold masked; exact issue_answers turn run ..
theorem cpOnce_answers (o : Ops) (u : Uses) (limit : Nat) (waiting : Bool) (get : State → Iss → Nat → Nat)
    (body : Iss → Nat → Nat → State → State) :
    Answers (cpOnce o u limit waiting get body s) := by
  unfold cpOnce; exact issue_answers turn run ..
theorem disposeIssue_answers (o : Ops) (f : State → Nat → GbEntry → State) (ready : State → GbEntry → Bool × State) :
    Answers (disposeIssue o f s ready) := by
  unfold disposeIssue; exact onceIssue_answers turn run ..
theorem cvqIssue_answers (n : Nat) (o : Ops) (satf : Bool) (slot : BitVec 3) :
    Answers (cvqIssue n o satf slot s) := by
  unfold cvqIssue; exact vecIssue_answers turn run ..
theorem cvxIssue_answers (n : Nat) (o : Ops) (slot : BitVec 3) :
    Answers (cvxIssue n o slot s) := by
  unfold cvxIssue; exact vecIssue_answers turn run ..
theorem braSome_answers (o : Ops) (q : BitVec 3) (take : State → Iss → Bool) :
    Answers (braSome o q take s) := by
  unfold braSome; exact issue_answers turn run ..
theorem lxch_answers (k : LxKind) (o : Ops) (w pv : BitVec 3) :
    Answers (lxch k o w pv s) := by
  unfold lxch; exact issue_answers turn run ..
theorem lqry_answers (o : Ops) (neg : Bool) (q : BitVec 3) (f : List Bool → Bool) :
    Answers (lqry o neg q f s) := by
  unfold lqry; exact masked_answers turn run ..
theorem loadG_answers (o : Ops) (m : MMod) (high : Nat) (accept : List Nat) :
    Answers (loadG o m high accept s) := by
  unfold loadG; exact memIssue_answers turn run ..
theorem loadS_answers (o : Ops) (m : MMod) (high tag : Nat) :
    Answers (loadS o m high tag s) := by
  unfold loadS; exact issue_answers turn run ..
theorem storeS_answers (o : Ops) (m : MMod) (high tag : Nat) :
    Answers (storeS o m high tag s) := by
  unfold storeS; exact memIssue_answers turn run ..
theorem wpathIssue_answers (o : Ops) (m : MMod) (store : Bool) :
    Answers (wpathIssue o m store s) := by
  unfold wpathIssue; exact issue_answers turn run ..
theorem atomScr_answers (o : Ops) (high tag : Nat) (p : Bool) (k : AtKind) (x : MemX) :
    Answers (atomScr o high tag p k x s) := by
  unfold atomScr; exact memIssue_answers turn run ..
theorem atomIssue_answers (o : Ops) (n : Nat) (p cas : Bool) (x : MemX) (op : AOp) (dst : Option Nat) :
    Answers (atomIssue o n p cas x op dst s) := by
  unfold atomIssue; exact answers_ite (memIssue_answers turn run ..) (syncIssue_answers turn run ..)
theorem syncWord_answers (o : Ops) (m : MMod) (x : MemX) (store : Bool) :
    Answers (syncWord o m x store s) := by
  unfold syncWord; exact syncIssue_answers turn run ..
theorem tlbiIssue_answers (o : Ops) (scope : Nat) :
    Answers (tlbiIssue o scope s) := by
  unfold tlbiIssue; exact onceIssue_answers turn run ..
theorem msvtxIssue_answers (n : Nat) (o : Ops) :
    Answers (msvtxIssue n o s) := by
  unfold msvtxIssue; exact kindIssue_answers turn run ..
theorem derivIssue_answers (y : Bool) (o : Ops) (fine : Bool) :
    Answers (derivIssue y o fine s) := by
  unfold derivIssue; exact issue_answers turn run ..
theorem texIssue_answers (o : Ops) (cWords : Nat) (raw : Bool) (plan : State → Iss → TexDesc → Nat → TexPlan) :
    Answers (texIssue o cWords raw plan s) := by
  unfold texIssue; exact issue_answers turn run ..
theorem satomIssue_answers (o : Ops) (p xy w64 : Bool) (op : AOp) (cas : Bool) (x : MemX) :
    Answers (satomIssue o p xy w64 op cas x s) := by
  unfold satomIssue; exact memIssue_answers turn run ..
theorem cpRows_answers (o : Ops) (ch : BitVec 3) (n : BitVec 6) (gather add : Bool) :
    Answers (cpRows o ch n gather add s) := by
  unfold cpRows; exact issue_answers turn run ..
theorem raiseIssue_answers (o : Ops) (u : Uses) (tr : State → Iss → Nat → Trap) :
    Answers (raiseIssue o u tr s) := by
  unfold raiseIssue; exact issue_answers turn run ..
theorem cmdIssue_answers (i : Instr) (o : SOps) :
    Answers (cmdIssue i o s) := by
  unfold cmdIssue; exact streamTurn_answers turn run ..
theorem control_answers (f : Nat → Stream → State → Stream) :
    Answers (control s f) := by
  unfold control; exact streamTurn_answers turn run ..

theorem intWord_answers {i : Instr} (word : intWord i = true) : Answers (exec i s) := by
  cases i <;> cases word
  case mov => exact .of_eq exec_mov (alu1_answers turn run ..)
  case movi => exact .of_eq exec_movi (alu1_answers turn run ..)
  case sel => exact .of_eq exec_sel (formIssue_answers turn run ..)
  case iadd => exact .of_eq exec_iadd (alu2_answers turn run ..)
  case isub => exact .of_eq exec_isub (alu2_answers turn run ..)
  case iabs => exact .of_eq exec_iabs (alu1_answers turn run ..)
  case ineg => exact .of_eq exec_ineg (alu1_answers turn run ..)
  case imin => exact .of_eq exec_imin (alu2_answers turn run ..)
  case imax => exact .of_eq exec_imax (alu2_answers turn run ..)
  case iadd64 => exact .of_eq exec_iadd64 (formIssue_answers turn run ..)
  case imul => exact .of_eq exec_imul (alu2_answers turn run ..)
  case imulh => exact .of_eq exec_imulh (alu2_answers turn run ..)
  case imad => exact .of_eq exec_imad (alu3_answers turn run ..)
  case imadw => exact .of_eq exec_imadw (formIssue_answers turn run ..)
  case and => exact .of_eq exec_and (alu2_answers turn run ..)
  case or => exact .of_eq exec_or (alu2_answers turn run ..)
  case xor => exact .of_eq exec_xor (alu2_answers turn run ..)
  case not => exact .of_eq exec_not (alu1_answers turn run ..)
  case lgc3 => exact .of_eq exec_lgc3 (alu3_answers turn run ..)
  case shl => exact .of_eq exec_shl (alu2_answers turn run ..)
  case shr => exact .of_eq exec_shr (alu2_answers turn run ..)
  case sar => exact .of_eq exec_sar (alu2_answers turn run ..)
  case rot => exact .of_eq exec_rot (alu2_answers turn run ..)
  case fshf => exact .of_eq exec_fshf (alu3_answers turn run ..)
  case bfe => exact .of_eq exec_bfe (alu3_answers turn run ..)
  case bfi => exact .of_eq exec_bfi (alu3_answers turn run ..)
  case popc => exact .of_eq exec_popc (alu1_answers turn run ..)
  case clz => exact .of_eq exec_clz (alu1_answers turn run ..)
  case brev => exact .of_eq exec_brev (alu1_answers turn run ..)
  case bysel => exact .of_eq exec_bysel (alu3_answers turn run ..)
  case lea => exact .of_eq exec_lea (formIssue_answers turn run ..)
  case isetp => exact .of_eq exec_isetp (vecIssue_answers turn run ..)
  case fsetp => exact .of_eq exec_fsetp (vecIssue_answers turn run ..)
  case iaddP => exact .of_eq exec_iaddP (vecIssue_answers turn run ..)
  case isubP => exact .of_eq exec_isubP (vecIssue_answers turn run ..)
  case imulP => exact .of_eq exec_imulP (vecIssue_answers turn run ..)
  case lgc3P => exact .of_eq exec_lgc3P (vecIssue_answers turn run ..)
  case plop => exact .of_eq exec_plop (vecIssue_answers turn run ..)
  case pmov => exact .of_eq exec_pmov (vecIssue_answers turn run ..)
  case pmovP => exact .of_eq exec_pmovP (vecIssue_answers turn run ..)
  case bra => exact .of_eq exec_bra (issue_answers turn run ..)
  case braAny => exact .of_eq exec_braAny (braSome_answers turn run ..)
  case braAll => exact .of_eq exec_braAll (braSome_answers turn run ..)
  case brx => exact .of_eq exec_brx (issue_answers turn run ..)
  case call => exact .of_eq exec_call (issue_answers turn run ..)
  case callx => exact .of_eq exec_callx (issue_answers turn run ..)
  case ret => exact .of_eq exec_ret (issue_answers turn run ..)
  case exit => exact .of_eq exec_exit (issue_answers turn run ..)
  case conv => exact .of_eq exec_conv (issue_answers turn run ..)
  case nop => exact .of_eq exec_nop (issue_answers turn run ..)
  case pause => exact .of_eq exec_pause (issue_answers turn run ..)
  case sread => exact .of_eq exec_sread (issue_answers turn run ..)
  case sreadW => exact .of_eq exec_sreadW (vecIssue_answers turn run ..)
  case swrite => exact .of_eq exec_swrite (issue_answers turn run ..)
  case launch => exact .of_eq exec_launch (issue_answers turn run ..)
  case prog => exact .of_eq exec_prog (issue_answers turn run ..)
  case fclassP => exact .of_eq exec_fclassP (vecIssue_answers turn run ..)

theorem floatWord_answers {i : Instr} (word : floatWord i = true) : Answers (exec i s) := by
  cases i <;> cases word
  case fadd => exact .of_eq exec_fadd (fp2_answers turn run ..)
  case fsub => exact .of_eq exec_fsub (fp2_answers turn run ..)
  case fmul => exact .of_eq exec_fmul (fp2_answers turn run ..)
  case ffma => exact .of_eq exec_ffma (fpIssue_answers turn run ..)
  case fmin => exact .of_eq exec_fmin (fp2_answers turn run ..)
  case fmax => exact .of_eq exec_fmax (fp2_answers turn run ..)
  case fdp2 => exact .of_eq exec_fdp2 (fpIssue_answers turn run ..)
  case frnd => exact .of_eq exec_frnd (fpIssue_answers turn run ..)
  case fclass => exact .of_eq exec_fclass (vecIssue_answers turn run ..)
  case frcp => exact .of_eq exec_frcp (fnIssue_answers turn run ..)
  case frsq => exact .of_eq exec_frsq (fnIssue_answers turn run ..)
  case fsqrt => exact .of_eq exec_fsqrt (fnIssue_answers turn run ..)
  case fexp2 => exact .of_eq exec_fexp2 (fnIssue_answers turn run ..)
  case flog2 => exact .of_eq exec_flog2 (fnIssue_answers turn run ..)
  case fsin => exact .of_eq exec_fsin (fnIssue_answers turn run ..)
  case fcos => exact .of_eq exec_fcos (fnIssue_answers turn run ..)
  case frcpIeee => exact .of_eq exec_frcpIeee (fpIssue_answers turn run ..)
  case fsqrtIeee => exact .of_eq exec_fsqrtIeee (fpIssue_answers turn run ..)
  case cvt => exact .of_eq exec_cvt (fpIssue_answers turn run ..)
  case cvq2 => exact .of_eq exec_cvq2 (cvqIssue_answers turn run ..)
  case cvq4 => exact .of_eq exec_cvq4 (cvqIssue_answers turn run ..)
  case cvq8 => exact .of_eq exec_cvq8 (cvqIssue_answers turn run ..)
  case cvx2 => exact .of_eq exec_cvx2 (cvxIssue_answers turn run ..)
  case cvx4 => exact .of_eq exec_cvx4 (cvxIssue_answers turn run ..)
  case cvx8 => exact .of_eq exec_cvx8 (cvxIssue_answers turn run ..)

theorem memWord_answers {i : Instr} (word : memWord i = true) : Answers (exec i s) := by
  cases i <;> cases word
  case ldg => exact .of_eq exec_ldg (loadG_answers turn run ..)
  case stg => rw [exec_stg, execStg]; exact issue_answers turn run ..
  case ldp => exact .of_eq exec_ldp (loadG_answers turn run ..)
  case stp => rw [exec_stp, execStp]; exact issue_answers turn run ..
  case lds => exact .of_eq exec_lds (loadS_answers turn run ..)
  case sts => exact .of_eq exec_sts (storeS_answers turn run ..)
  case ldx => exact .of_eq exec_ldx (loadS_answers turn run ..)
  case stx => exact .of_eq exec_stx (storeS_answers turn run ..)
  case ldf => rw [exec_ldf, execLdf]; exact memIssue_answers turn run ..
  case stf => rw [exec_stf, execStf]; exact issue_answers turn run ..
  case ldw => exact .of_eq exec_ldw (wpathIssue_answers turn run ..)
  case stw => exact .of_eq exec_stw (wpathIssue_answers turn run ..)
  case ldk => rw [exec_ldk, execLdk]; exact onceIssue_answers turn run ..
  case ldsS => rw [exec_ldsS, execLdsS]; exact onceIssue_answers turn run ..
  case pfg => exact .of_eq exec_pfg (issue_answers turn run ..)
  case stew => exact .of_eq exec_stew (onceIssue_answers turn run ..)
  case atomg => exact .of_eq exec_atomg (atomIssue_answers turn run ..)
  case atomgCas => exact .of_eq exec_atomgCas (atomIssue_answers turn run ..)
  case atomgF => exact .of_eq exec_atomgF (atomIssue_answers turn run ..)
  case redg => exact .of_eq exec_redg (atomIssue_answers turn run ..)
  case redgF => exact .of_eq exec_redgF (atomIssue_answers turn run ..)
  case atoms => exact .of_eq exec_atoms (atomScr_answers turn run ..)
  case atomx => exact .of_eq exec_atomx (atomScr_answers turn run ..)
  case lda => exact .of_eq exec_lda (syncWord_answers turn run ..)
  case stl => exact .of_eq exec_stl (syncWord_answers turn run ..)
  case fence => exact .of_eq exec_fence (syncIssue_answers turn run ..)
  case fencex => exact .of_eq exec_fencex (syncIssue_answers turn run ..)
  case barrive => exact .of_eq exec_barrive (syncIssue_answers turn run ..)
  case bwait => exact .of_eq exec_bwait (issue_answers turn run ..)
  case bsync => exact .of_eq exec_bsync (syncIssue_answers turn run ..)
  case barrd => exact .of_eq exec_barrd (syncIssue_answers turn run ..)
  case binit => exact .of_eq exec_binit (issue_answers turn run ..)
  case balloc => exact .of_eq exec_balloc (onceIssue_answers turn run ..)
  case bfree => exact .of_eq exec_bfree (issue_answers turn run ..)
  case rowbook => exact .of_eq exec_rowbook (onceIssue_answers turn run ..)
  case rowjoin => exact .of_eq exec_rowjoin (onceIssue_answers turn run ..)
  case rowfree => exact .of_eq exec_rowfree (onceIssue_answers turn run ..)
  case tlbiPage => exact .of_eq exec_tlbiPage (tlbiIssue_answers turn run ..)
  case tlbiSpace => exact .of_eq exec_tlbiSpace (tlbiIssue_answers turn run ..)
  case tlbiAll => exact .of_eq exec_tlbiAll (tlbiIssue_answers turn run ..)
  case satom => exact .of_eq exec_satom (satomIssue_answers turn run ..)
  case satomCas => exact .of_eq exec_satomCas (satomIssue_answers turn run ..)
  case cpgather => exact .of_eq exec_cpgather (cpRows_answers turn run ..)
  case cpscatter => exact .of_eq exec_cpscatter (cpRows_answers turn run ..)
  case cpscatterAdd => exact .of_eq exec_cpscatterAdd (cpRows_answers turn run ..)
  case cpwait => exact .of_eq exec_cpwait (cpOnce_answers turn run ..)
  case cptest => exact .of_eq exec_cptest (cpOnce_answers turn run ..)
  case cpclr => exact .of_eq exec_cpclr (cpOnce_answers turn run ..)
  case cpsrcw => exact .of_eq exec_cpsrcw (cpOnce_answers turn run ..)

theorem miscWord_answers {i : Instr} (word : miscWord i = true) : Answers (exec i s) := by
  cases i <;> cases word
  case lxchIdx => exact .of_eq exec_lxchIdx (lxch_answers turn run ..)
  case lxchRot => exact .of_eq exec_lxchRot (lxch_answers turn run ..)
  case lxchRev => exact .of_eq exec_lxchRev (lxch_answers turn run ..)
  case lxchXor => exact .of_eq exec_lxchXor (lxch_answers turn run ..)
  case lxchS => exact .of_eq exec_lxchS (issue_answers turn run ..)
  case lqryAll => exact .of_eq exec_lqryAll (lqry_answers turn run ..)
  case lqryAny => exact .of_eq exec_lqryAny (lqry_answers turn run ..)
  case lqrySame => exact .of_eq exec_lqrySame (lqry_answers turn run ..)
  case lgath => exact .of_eq exec_lgath (masked_answers turn run ..)
  case match_ => exact .of_eq exec_match_ (masked_answers turn run ..)
  case redl => exact .of_eq exec_redl (masked_answers turn run ..)
  case redlF => exact .of_eq exec_redlF (masked_answers turn run ..)
  case msvtx => exact .of_eq exec_msvtx (msvtxIssue_answers turn run ..)
  case msvtxB128 => exact .of_eq exec_msvtxB128 (msvtxIssue_answers turn run ..)
  case msprim => exact .of_eq exec_msprim (kindIssue_answers turn run ..)
  case mscount => exact .of_eq exec_mscount (kindIssue_answers turn run ..)
  case interp => exact .of_eq exec_interp (mediumIssue_answers turn run ..)
  case derivX => exact .of_eq exec_derivX (derivIssue_answers turn run ..)
  case derivY => exact .of_eq exec_derivY (derivIssue_answers turn run ..)
  case fragexp => exact .of_eq exec_fragexp (kindIssue_answers turn run ..)
  case fragexpZ => exact .of_eq exec_fragexpZ (kindIssue_answers turn run ..)
  case fragkill => exact .of_eq exec_fragkill (kindIssue_answers turn run ..)
  case rocbeg => exact .of_eq exec_rocbeg (kindIssue_answers turn run ..)
  case rocend => exact .of_eq exec_rocend (kindIssue_answers turn run ..)
  case tex => exact .of_eq exec_tex (texIssue_answers turn run ..)
  case texL => exact .of_eq exec_texL (texIssue_answers turn run ..)
  case texG => exact .of_eq exec_texG (texIssue_answers turn run ..)
  case texld => exact .of_eq exec_texld (texIssue_answers turn run ..)
  case texq => exact .of_eq exec_texq (issue_answers turn run ..)
  case mput => rw [exec_mput, execMput]; exact issue_answers turn run ..
  case trap => exact .of_eq exec_trap (raiseIssue_answers turn run ..)
  case trapLegacy => exact .of_eq exec_trapLegacy (raiseIssue_answers turn run ..)
  case bkpt => exact .of_eq exec_bkpt (issue_answers turn run ..)
  case rtt => exact .of_eq exec_rtt (issue_answers turn run ..)
  case haltt => exact .of_eq exec_haltt (disposeIssue_answers turn run ..)
  case gbread => exact .of_eq exec_gbread (onceIssue_answers turn run ..)
  case pkrd => exact .of_eq exec_pkrd (onceIssue_answers turn run ..)
  case pkwr => exact .of_eq exec_pkwr (onceIssue_answers turn run ..)
  case resume => exact .of_eq exec_resume (disposeIssue_answers turn run ..)
  case resumeSkip => exact .of_eq exec_resumeSkip (disposeIssue_answers turn run ..)
  case killt => exact .of_eq exec_killt (disposeIssue_answers turn run ..)
  case killtG => exact .of_eq exec_killtG (disposeIssue_answers turn run ..)

theorem streamWord_answers {i : Instr} (word : streamWord i = true) : Answers (exec i s) := by
  cases i <;> cases word
  case mld => exact .of_eq exec_mld (cmdIssue_answers turn run ..)
  case mldV => exact .of_eq exec_mldV (cmdIssue_answers turn run ..)
  case mma => exact .of_eq exec_mma (cmdIssue_answers turn run ..)
  case mmq => exact .of_eq exec_mmq (cmdIssue_answers turn run ..)
  case mmqP => exact .of_eq exec_mmqP (cmdIssue_answers turn run ..)
  case mmi => exact .of_eq exec_mmi (cmdIssue_answers turn run ..)
  case mclr => exact .of_eq exec_mclr (cmdIssue_answers turn run ..)
  case mst => exact .of_eq exec_mst (cmdIssue_answers turn run ..)
  case mstV => exact .of_eq exec_mstV (cmdIssue_answers turn run ..)
  case mbar => exact .of_eq exec_mbar (cmdIssue_answers turn run ..)
  case mbw => exact .of_eq exec_mbw (cmdIssue_answers turn run ..)
  case mnop => exact .of_eq exec_mnop (cmdIssue_answers turn run ..)
  case msetImm => exact .of_eq exec_msetImm (control_answers turn run ..)
  case msetHi => exact .of_eq exec_msetHi (control_answers turn run ..)
  case msetArg => exact .of_eq exec_msetArg (control_answers turn run ..)
  case msetArghi => exact .of_eq exec_msetArghi (control_answers turn run ..)
  case msetSr => exact .of_eq exec_msetSr (control_answers turn run ..)
  case msetC => exact .of_eq exec_msetC (control_answers turn run ..)
  case maddk => exact .of_eq exec_maddk (control_answers turn run ..)
  case mloop => exact .of_eq exec_mloop (streamTurn_answers turn run ..)
  case mjmp => exact .of_eq exec_mjmp (streamTurn_answers turn run ..)
  case mend => exact .of_eq exec_mend (streamTurn_answers turn run ..)

end

/-! ## What memory, lines, rows and translation leave alone

Moving bytes between lines, homes and devices, and the books of rows and leases, changes neither whose turn it is, nor a team, nor
a cluster, nor the time. -/

/-- Whose turn it is, the teams, the clusters and the time. -/
def State.standing (s : State) : Turn × AMap Team × AMap Cluster × Nat := (s.turn, s.teams, s.clusters, s.devtime)

theorem standing_ite {s a b : State} {c : Prop} [Decidable c] (ha : a.standing = s.standing) (hb : b.standing = s.standing) :
    (if c then a else b).standing = s.standing := by
  split_ifs <;> [exact ha; exact hb]

theorem standing_foldl {α : Type} {f : State → α → State} (step : ∀ s x, (f s x).standing = s.standing) (l : List α) (s : State) :
    (l.foldl f s).standing = s.standing := by
  induction l generalizing s with
  | nil => rfl
  | cons x l ih => exact (ih _).trans (step s x)

section
variable (s : State)

/-! ### Device memory and the second level -/

theorem standing_dramWriteDirty (line k : Nat) (l : L2Line) : (s.dramWriteDirty line k l).standing = s.standing := standing_ite rfl rfl
theorem standing_dramWriteLine (line : Nat) (l : L2Line) : (s.dramWriteLine line l).standing = s.standing :=
  (standing_dramWriteDirty ..).trans (standing_dramWriteDirty ..)
theorem standing_notePoison (line : Nat) (p : BitVec 2) : (s.notePoison line p).standing = s.standing :=
  standing_ite (standing_ite rfl rfl) (standing_ite rfl rfl)
theorem standing_noteUnit (u slot : Nat) : (s.noteUnit u slot).standing = s.standing := standing_ite rfl rfl
theorem standing_noteFixed (line slot : Nat) : (s.noteFixed line slot).standing = s.standing :=
  (standing_noteUnit ..).trans (standing_noteUnit ..)
theorem standing_purgeMasks (slice : Nat) : (s.purgeMasks slice).standing = s.standing := standing_ite rfl rfl

theorem standing_recallNow (line : Nat) : (s.recallNow line).1.standing = s.standing := by
  unfold State.recallNow
  split
  · rfl
  next x _ =>
    have taken : ∀ (cs : List Nat) (r : State × L2Line × List (Nat × Option Gen × Option Gen)),
        (cs.foldl (fun (r : State × L2Line × List (Nat × Option Gen × Option Gen)) c =>
          match (r.1.core c).l1Tracked line with
          | none => (r.1.overtake c line, r.2.1, r.2.2)
          | some l => ((r.1.l1Drop c l).overtake c line, r.2.1.take l, r.2.2 ++ [(c, l.g0, l.g1)])) r).1.standing = r.1.standing := by
      intro cs
      induction cs with
      | nil => exact fun _ => rfl
      | cons c cs ih => exact fun r => (ih _).trans (by dsimp only; split <;> rfl)
    exact taken x.sharers (s, x, [])

theorem standing_maskRoom (sl : Nat) : (s.maskRoom sl).standing = s.standing := by
  unfold State.maskRoom
  refine standing_ite (standing_purgeMasks ..) ?_
  split
  · exact standing_purgeMasks ..
  next v _ =>
    have recalled := (standing_recallNow (s.purgeMasks sl) v.line).trans (standing_purgeMasks s sl)
    exact standing_ite recalled recalled

theorem standing_maskPut (line core : Nat) (g0 g1 : Option Gen) : (s.maskPut line core g0 g1).standing = s.standing := by
  unfold State.maskPut
  refine standing_ite rfl (standing_ite rfl ?_)
  split
  · rfl
  · exact standing_ite rfl (standing_maskRoom ..)

theorem standing_l2Drop (line : Nat) : (s.l2Drop line).standing = s.standing := by
  unfold State.l2Drop
  have masked := (standing_foldl (fun s (x : Nat × Option Gen × Option Gen) => standing_maskPut s line x.1 x.2.1 x.2.2)
    (s.recallNow line).2 _).trans (standing_recallNow s line)
  extract_lets r S
  split
  · exact masked
  · exact (standing_dramWriteLine S ..).trans masked

theorem standing_l2Room (slice set : Nat) : (s.l2Room slice set).standing = s.standing := by
  unfold State.l2Room
  split <;> [exact standing_l2Drop ..; rfl; rfl]

theorem standing_replPut (line die : Nat) (r : ReplLine) : (s.replPut line die r).standing = s.standing :=
  standing_ite (a := s) rfl <| (standing_l2Room ..).trans <| (standing_notePoison ..).trans <| standing_ite (standing_l2Drop ..) rfl

theorem standing_l2Fetch (line slot : Nat) : (s.l2Fetch line slot).standing = s.standing := by
  unfold State.l2Fetch
  split
  · exact standing_ite rfl ((standing_notePoison ..).trans ((standing_noteFixed ..).trans (standing_dramWriteLine ..)))
  · exact (standing_notePoison ..).trans ((standing_noteFixed ..).trans (standing_l2Room ..))

theorem standing_l2Merge (line slot : Nat) (data : Line) (m : ByteMask) : (s.l2Merge line slot data m).standing = s.standing :=
  standing_ite rfl (standing_l2Fetch ..)
theorem standing_l2Poison (line slot : Nat) (p : BitVec 2) : (s.l2Poison line slot p).standing = s.standing :=
  standing_ite rfl (standing_l2Fetch ..)
theorem standing_homeWrite (pa n slot x : Nat) : (s.homeWrite pa n slot x).standing = s.standing := standing_l2Merge ..

theorem standing_devPut (pa n key : Nat) (cls : PClass) (x : Nat) (poison : Bool) : (s.devPut pa n key cls x poison).standing = s.standing := by
  unfold State.devPut
  extract_lets line put R B H
  have puts (S : State) (die : Nat) : (put S die).standing = S.standing := standing_replPut ..
  have both : R.standing = s.standing := (puts _ 1).trans (puts s 0)
  have home : H.standing = s.standing := standing_homeWrite ..
  exact standing_ite (standing_ite both both) (standing_ite (standing_ite rfl rfl) (standing_ite ((standing_l2Poison ..).trans home) home))

/-! ### The first level -/

theorem standing_mergeLine (l : L1Line) : (s.mergeLine l).standing = s.standing := standing_ite rfl (standing_l2Fetch ..)

theorem standing_l1Evict (c : Nat) (l : L1Line) : (s.l1Evict c l).standing = s.standing := by
  unfold State.l1Evict
  extract_lets S g0 g1
  split
  · exact standing_ite (s := s) rfl rfl
  · exact standing_mergeLine ..

theorem standing_releasePriv (c : Nat) : (s.releasePriv c).standing = s.standing := standing_foldl (fun s l => standing_mergeLine s l) _ s
theorem standing_releaseTracked (c : Nat) : (s.releaseTracked c).standing = s.standing := standing_foldl (fun s l => standing_mergeLine s l) _ s
theorem standing_publishAll (c e : Nat) : (s.publishAll c e).standing = s.standing :=
  standing_foldl (fun s sl => standing_purgeMasks (s.setPub sl c e) sl) _ s
theorem standing_release (c e : Nat) : (((s.releasePriv c).releaseTracked c).publishAll c e).standing = s.standing :=
  (standing_publishAll ..).trans ((standing_releaseTracked ..).trans (standing_releasePriv ..))

theorem standing_epochWrap (c : Nat) : (s.epochWrap c).standing = s.standing := by
  unfold State.epochWrap
  extract_lets S₀ S₁ S₂ S₃ S₄
  have released : S₀.standing = s.standing := standing_release ..
  have purged : S₄.standing = S₃.standing := standing_foldl (fun s sl => standing_purgeMasks s sl) _ _
  clear_value S₀ S₄
  exact purged.trans released
theorem standing_regionEnd (c : Nat) (release : Bool) : (s.regionEnd c release).standing = s.standing :=
  standing_ite (standing_epochWrap ..) rfl
theorem standing_publishNow (c : Nat) : (s.publishNow c).standing = s.standing := by
  unfold State.publishNow
  extract_lets S
  have released : S.standing = s.standing := standing_release ..
  clear_value S
  exact (standing_regionEnd S c true).trans released

theorem standing_darnNow (c e a : Nat) : (s.darnNow c e a).standing = s.standing := by
  unfold State.darnNow
  refine standing_ite rfl ((standing_publishAll ..).trans (standing_foldl (fun S l => ?_) _ _))
  exact standing_mergeLine ..

theorem standing_dropClean (c : Nat) (f : L1Line → Bool) : (s.dropClean c f).standing = s.standing :=
  standing_foldl (f := fun S (l : L1Line) => if l.dm = 0 then S.l1Evict c l
    else S.l1Each c fun x => some (if x.is l.space l.vline then { x with bv := x.bv &&& x.dm } else x))
    (fun S l => standing_ite (standing_l1Evict S c l) rfl) _ s
theorem standing_acquireDone (c : Nat) (sys : Bool) : (s.acquireDone c sys).standing = s.standing :=
  (standing_regionEnd ..).trans (standing_dropClean ..)

theorem standing_eInv (core pa n : Nat) (cls : PClass) : (s.eInv core pa n cls).standing = s.standing := by
  unfold State.eInv
  refine standing_ite rfl ?_
  split
  · rfl
  next l _ => exact standing_foldl (f := fun S c => (S.overtake c (pa / 128)).l1Inv c (pa / 128) (byteMask (pa % 128) n)) (fun _ _ => rfl) _ _

/-! ### Translation and engines -/

theorem standing_wingLease (w : Nat) (lease : Option Nat) : (s.wingLease w lease).standing = s.standing := by
  unfold State.wingLease
  split
  · rfl
  · split_ifs
    · rfl
    · split <;> rfl

theorem standing_xlate (wing space : Nat) (tlb : TlbKind) (va : Nat) (kind : AccKind) (need : Need) (pin : Option (Nat × Nat)) :
    (s.xlate wing space tlb va kind need pin).2.standing = s.standing := by
  unfold State.xlate
  dsimp only
  split
  · rfl
  split
  · rfl
  · split <;> rfl

theorem standing_translate (wing la : Nat) (tlb : TlbKind) (va : Nat) (kind : AccKind) (need : Need) (pin : Option (Nat × Nat)) :
    (s.translate wing la tlb va kind need pin).2.standing = s.standing := by
  unfold State.translate
  dsimp only
  split
  · rfl
  split
  · rfl
  split
  · split <;> rfl
  · exact standing_xlate ..

theorem standing_tracePut (space pa : Nat) (bs : List Byte) : (s.tracePut space pa bs).standing = s.standing := by
  simp only [State.tracePut, State.unitPost]
  split
  · rfl
  · exact standing_devPut ..

theorem standing_unitAt (a : Access) {now : State → Nat × Bool × State} (keeps : (now s).2.2.standing = s.standing) :
    (s.unitAt a now).2.standing = s.standing := by
  unfold State.unitAt
  split
  · rfl
  · split
    · rfl
    · exact keeps

/-! ### Barriers, rows and saves -/

theorem standing_barLate (t : Nat) (r : BarRef) : (s.barLate t r).standing = s.standing := by
  unfold State.barLate
  extract_lets b core S
  have passed : S.standing = s.standing := (standing_acquireDone ..).trans (standing_foldl (fun S x => standing_darnNow S _ _ _) _ _)
  exact standing_ite rfl (standing_ite ((standing_dropClean ..).trans passed) passed)
theorem standing_barRejoin (t : Nat) : (s.barRejoin t).standing = s.standing := standing_foldl (fun _ _ => standing_barLate ..) _ _
theorem standing_barFreeTeam (t : Nat) : (s.barFreeTeam t).standing = s.standing :=
  standing_foldl (f := fun S (kv : Nat × BarObj) => S.barErase (s.team t).core kv.1) (fun _ _ => rfl) _ _

theorem standing_rowEnd (space key t : Nat) : (s.rowEnd space key t).standing = s.standing := by
  unfold State.rowEnd
  split
  · rfl
  · exact standing_ite rfl rfl
theorem standing_rowSweep : s.rowSweep.standing = s.standing :=
  standing_foldl (fun _ _ => standing_foldl (fun _ _ => standing_rowEnd ..) _ _) _ _

theorem standing_saveRows (t : Nat) (drop : Bool) : (s.saveRows t drop).standing = s.standing := by
  refine standing_foldl (fun S kv => ?_) _ _
  split
  · rfl
  · split <;> rfl
theorem standing_poolWrite (space o n : Nat) : (s.poolWrite space o n).standing = s.standing := by
  refine standing_foldl (fun S k => ?_) _ _
  exact standing_homeWrite ..

theorem standing_drawReport (la : Nat) : (s.drawReport la).2.standing = s.standing := by
  unfold State.drawReport
  split
  · rfl
  extract_lets l p fin w bad a rs granted S r
  have leased : S.standing = s.standing := standing_ite rfl (standing_wingLease ..)
  have translated : r.2.standing = s.standing := (standing_translate ..).trans leased
  clear_value r S
  split
  · rfl
  split
  · rfl
  split
  · split <;> rfl
  split
  · exact translated
  case h_2 =>
    have reported := standing_unitAt (r.2.updWing w.1 fun w => { w with ranges := rs })
    split
    all_goals
      next T e =>
        refine (congrArg (·.2.standing) e).symm.trans ((reported _ ?_).trans translated)
        exact (standing_eInv ..).trans (standing_devPut ..)
  · exact translated

end

/-! ## A decoded word, and the step that it is -/

theorem of_all {α : Type} {p : α → Bool} {x : Option α} (h : x.all p = true) {a : α} (e : x = some a) : p a = true := by
  subst e; exact h

theorem decodeWord_fields {avail w : Nat} {x : Instr × Nat} (e : decodeWord avail w = .ok x) : ∃ len w', decodeFields len w' = some x.1 := by
  unfold decodeWord at e
  split at e
  · cases e
  split at e
  · cases e
  split at e
  · cases e
  split at e
  · cases e
  dsimp only at e
  split at e
  next fields =>
    split_ifs at e
    cases e
    exact ⟨_, _, fields⟩
  · cases e

section
variable {s : State} {t g : Nat} {r : Run} (turn : s.turn = .group t g) (run : (s.group t g).run = some r)
include turn run

theorem decodeFields_answers {len : Len} {w : Nat} {i : Instr} (e : decodeFields len w = some i) : Answers (exec i s) := by
  unfold decodeFields at e
  dsimp only at e
  split at e
  · obtain ⟨o, -, e⟩ := Option.bind_eq_some_iff.1 e
    exact streamWord_answers turn run (of_all (streamWord_ofOpcStream ..) e)
  split at e
  · cases e
  split at e
  · obtain ⟨x, -, e⟩ := Option.bind_eq_some_iff.1 e
    exact memWord_answers turn run (of_all (memWord_ofOpcMem ..) e)
  split at e
  · exact intWord_answers turn run (of_all (intWord_ofOpcInt ..) e)
  split at e
  · exact floatWord_answers turn run (of_all (floatWord_ofOpcFloat ..) e)
  · exact miscWord_answers turn run (of_all (miscWord_ofOpcMisc ..) e)

theorem groupDecode_answers {w pc : Nat} {porter : Bool} {i : Instr} (e : groupDecode w pc porter = .inl i) : Answers (exec i s) := by
  unfold groupDecode at e
  dsimp only at e
  split at e
  · cases e
  split_ifs at e
  split at e
  next decoded =>
    cases e
    obtain ⟨len, w', fields⟩ := decodeWord_fields decoded
    exact decodeFields_answers turn run fields
  · cases e
end

/-- What a slot issues is a word that it has decoded, and nothing has changed by then. -/
theorem groupSlot_issue {s S : State} {t g pc : Nat} {i : Instr} (e : s.groupSlot t g = .issue i pc S) :
    S = s ∧ (∃ r, (s.group t g).run = some r) ∧ ∃ w porter, groupDecode w pc porter = .inl i := by
  unfold State.groupSlot at e
  split at e
  · cases e
  next r run =>
    dsimp only at e
    split_ifs at e
    split at e
    · cases e
    split at e
    · cases e
    split at e
    next decoded => cases e; exact ⟨rfl, ⟨r, run⟩, _, _, decoded⟩
    · cases e

theorem groupStep_answers {s : State} {t g : Nat} (turn : s.turn = .group t g) : ∃ S : State, groupStep t g s = .next (S.resched s.turn) := by
  unfold groupStep
  split
  · exact ⟨_, rfl⟩
  next i pc S slot =>
    obtain ⟨rfl, ⟨r, run⟩, w, porter, decoded⟩ := groupSlot_issue slot
    obtain ⟨S', done⟩ := groupDecode_answers turn run decoded
    rw [done]
    exact ⟨_, rfl⟩

theorem streamStep_answers (s : State) (t : Nat) : ∃ S : State, streamStep t s = .next (S.resched s.turn) := by
  unfold streamStep
  split <;> exact ⟨_, rfl⟩

/-- A step ends by choosing the next turn, or keeps the one there was. -/
theorem step_answers (s : State) : ∃ S : State, step s = .next (S.resched s.turn) ∨ step s = .next (S.keepTurn s.turn) := by
  unfold step
  split
  · exact ⟨_, .inl rfl⟩
  split
  · split <;> exact ⟨_, .inr rfl⟩
  split
  next turn => obtain ⟨S, e⟩ := groupStep_answers turn; exact ⟨S, .inl e⟩
  · obtain ⟨S, e⟩ := streamStep_answers s _; exact ⟨S, .inl e⟩
  all_goals exact ⟨_, .inl rfl⟩

/-! ## The next turn -/

theorem standing_traceWrite (s : State) (space : Nat) (ws : List Nat) : (s.traceWrite space ws).standing = s.standing :=
  (standing_tracePut ..).trans (standing_ite rfl (standing_tracePut ..))

theorem standing_sample (s : State) (space core quarter : Nat) : (s.sample space core quarter).standing = s.standing := by
  unfold State.sample
  split
  · exact standing_ite rfl (standing_traceWrite ..)
  · split
    · rfl
    · exact standing_traceWrite ..

theorem standing_sampleTick (s : State) : s.sampleTick.standing = s.standing :=
  standing_foldl (fun _ _ => standing_ite rfl <| standing_foldl (fun _ _ => standing_foldl (fun _ _ => standing_sample ..) _ _) _ _) _ _

theorem turn_stopTraces (s : State) : s.stopTraces.turn = s.turn := by
  unfold State.stopTraces forEach
  generalize (s.teams.filter fun kv => kv.2.stop.any fun x => !x.traced) = stopped
  induction stopped generalizing s with
  | nil => rfl
  | cons kv stopped ih =>
    rw [List.foldl_cons, ih]
    dsimp only
    split_ifs
    · rfl
    · split
      · rfl
      · exact congrArg (·.1) (standing_traceWrite ..)

/-- Time passes in nobody's turn. -/
theorem turn_tick (s : State) : s.tick.turn = s.turn :=
  (turn_stopTraces _).trans (congrArg (·.1) (standing_sampleTick _))

theorem groupTurns_mem {s : State} {t g : Nat} (h : .group t g ∈ s.groupTurns) : ∃ tm gr r, (t, tm) ∈ s.teams ∧ (g, gr) ∈ tm.groups ∧
    gr.run = some r ∧ (∀ x, tm.stop = some x → x.stepping = true ∧ x.gix = g) ∧ s.accBars t g r.lanes = false := by
  obtain ⟨⟨t', tm⟩, resident, h⟩ := List.mem_flatMap.1 h
  obtain ⟨⟨g', gr⟩, there, h⟩ := List.mem_filterMap.1 h
  dsimp only at h
  split at h
  · cases h
  next r run =>
    split_ifs at h with free
    cases h
    simp only [Bool.and_eq_true, Bool.not_eq_true', Option.all_eq_true, beq_iff_eq] at free
    exact ⟨tm, gr, r, resident, there, run, free⟩

theorem streamTurns_mem {s : State} {t : Nat} (h : .stream t ∈ s.streamTurns) : s.streamFetches t = true := by
  obtain ⟨kv, -, h⟩ := List.mem_filterMap.1 h
  split_ifs at h with fetches
  cases h
  exact fetches

/-- Which turns are of which kind: groups' and streams' are in the two lists of their own, an input's needs an input. -/
theorem turns_mem {s : State} {x : Turn} (h : x ∈ s.turns) : match x with
    | .group _ _ => x ∈ s.groupTurns
    | .stream _ => x ∈ s.streamTurns
    | .input => s.inputs ≠ []
    | .later | .auto => True := by
  simp only [State.turns, List.mem_append] at h
  rcases h with ((group | stream) | later) | input
  · obtain ⟨kv, -, made⟩ := List.mem_flatMap.1 group
    obtain ⟨g, -, made⟩ := List.mem_filterMap.1 made
    split at made
    · cases made
    · split_ifs at made
      cases made
      exact group
  · obtain ⟨kv, -, made⟩ := List.mem_filterMap.1 stream
    split_ifs at made
    cases made
    exact stream
  · split_ifs at later
    · cases later
    · cases List.mem_singleton.1 later; trivial
  · split_ifs at input with none_
    · cases input
    · cases List.mem_singleton.1 input
      simpa using none_

/-- A turn that may come, or is for what is due or happens of itself, is that of something that may act. -/
theorem turnOk_of_mem {s : State} (h : s.turn ∈ s.turns ++ [Turn.auto] ∨ s.turn = .later) : s.turnOk := by
  unfold State.turnOk
  have may : s.turn ≠ .auto → s.turn ≠ .later → s.turn ∈ s.turns := fun auto later => by simpa [auto, later] using h
  cases turn : s.turn with rw [turn] at may
  | group t g => exact groupTurns_mem (turns_mem (may nofun nofun))
  | stream t => exact streamTurns_mem (turns_mem (may nofun nofun))
  | input => exact turns_mem (may nofun nofun)
  | later => trivial
  | auto => trivial

theorem fairTurn_mem (s : State) {ts : List Turn} (auto : Turn.auto ∈ ts) : s.fairTurn ts ∈ ts := by
  unfold State.fairTurn
  split
  next found => exact List.mem_of_find?_eq_some found
  · cases served : s.served.find? ts.contains with
    | none => exact auto
    | some x => simpa using List.find?_some served

theorem pickTurn_mem (s : State) : s.pickTurn.turn ∈ s.pickTurn.turns ++ [Turn.auto] := by
  have auto : Turn.auto ∈ s.turns ++ [Turn.auto] := by simp
  show (if s.picks % 2 = 0 then s.fairTurn _ else _) ∈ s.turns ++ [Turn.auto]
  split_ifs
  · exact fairTurn_mem s auto
  · rw [List.getD_eq_getElem?_getD]
    cases picked : (s.turns ++ [Turn.auto])[Config.freeChoice s.free % (s.turns ++ [Turn.auto]).length]? with
    | none => exact auto
    | some x => exact List.mem_of_getElem? picked

theorem resched_turnOk (s : State) (t : Turn) : (s.resched t).turnOk := by
  unfold State.resched
  dsimp only
  split_ifs with own
  · obtain ⟨-, later | mem⟩ := own
    · exact turnOk_of_mem (.inr later)
    · exact turnOk_of_mem (.inl (List.mem_append_left _ mem))
  · exact turnOk_of_mem (.inl (pickTurn_mem _))

theorem keepTurn_turnOk (s : State) (t : Turn) : (s.keepTurn t).turnOk := by
  unfold State.keepTurn
  dsimp only
  have kept : ({ s with turn := t } : State).tick.turn = t := turn_tick _
  split_ifs with mem
  · exact turnOk_of_mem (.inl (by rwa [kept]))
  · exact turnOk_of_mem (.inl (pickTurn_mem _))

/-- Settles O59: a word that a group decodes has an answer at its turn, every other step has one by its form; and the turn is chosen
among those that may come. -/
theorem everyStepAnswers : Obligations.EveryStepAnswers := by
  unfold Obligations.EveryStepAnswers
  intro s
  obtain ⟨S, done | done⟩ := step_answers s
  · exact ⟨_, done, resched_turnOk ..⟩
  · exact ⟨_, done, keepTurn_turnOk ..⟩

end Sys2Proof.Machine

namespace Sys2Proof.Machine

/-! ## Saving and restoring a team -/

theorem teams_of_standing {s S : State} (h : S.standing = s.standing) : S.teams = s.teams := congrArg (·.2.1) h
theorem devtime_of_standing {s S : State} (h : S.standing = s.standing) : S.devtime = s.devtime := congrArg (·.2.2.2) h

/-- What the records of a core's guest book do to teams when they come and go: their standing may change, no register, nothing of a
team that is not of its groups; nor does a cluster. -/
structure Carries (s S : State) : Prop where
  bodies   : ∀ t, (S.team t).body = (s.team t).body
  scal     : ∀ t g, (S.group t g).s = (s.group t g).s
  arch     : ∀ t g l, (S.thread t g l).arch = (s.thread t g l).arch
  clusters : S.clusters = s.clusters

namespace Carries

variable {s S : State} (h : Carries s S) (t : Nat)
include h
theorem cluster_eq : (S.team t).cluster = (s.team t).cluster := (congrArg Team.cluster (h.bodies t) :)
theorem preempt_eq : (S.team t).preempt = (s.team t).preempt := (congrArg Team.preempt (h.bodies t) :)
theorem restore_eq : (S.team t).restore = (s.team t).restore := (congrArg Team.restore (h.bodies t) :)
omit h

theorem of_standing {s S : State} (h : S.standing = s.standing) : Carries s S := by
  have teams := teams_of_standing h
  have team (t : Nat) : S.team t = s.team t := by rw [State.team, teams]; rfl
  have group (t g : Nat) : S.group t g = s.group t g := by rw [State.group, team]; rfl
  refine ⟨fun t => by rw [team], fun t g => by rw [group], fun t g l => ?_, (congrArg (·.2.2.1) h :)⟩
  rw [State.thread, group]
  rfl

theorem of_quiet {s S : State} (h : Quiet s S) : Carries s S := ⟨h.bodies, h.scal, h.arch, (congrArg State.clusters h.others :)⟩

theorem trans {a b c : State} (h : Carries a b) (k : Carries b c) : Carries a c :=
  ⟨fun t => (k.bodies t).trans (h.bodies t), fun t g => (k.scal t g).trans (h.scal t g), fun t g l => (k.arch t g l).trans (h.arch t g l),
   k.clusters.trans h.clusters⟩

theorem forEach {α : Type} {f : State → α → State} (step : ∀ s x, Carries s (f s x)) (l : List α) (s : State) :
    Carries s (forEach l s f) := by
  unfold Machine.forEach
  induction l generalizing s with
  | nil => exact of_standing rfl
  | cons x l ih => exact (step s x).trans (ih _)

end Carries

/-- A thread's standing changes, and none of its registers. -/
theorem quiet_updThread (s : State) (t g l : Nat) (f : Thread → Thread) (h : ∀ th, (f th).arch = th.arch) :
    Quiet s (s.updThread t g l f) :=
  quiet_updGroup _ _ _ _ fun _ => ⟨rfl, fun _ => Group.thr_insert _ _ _ _ (h _)⟩

theorem quiet_bookHold (s : State) (c : Nat) (x : Held) : Quiet s (s.bookHold c x) := by
  unfold State.bookHold
  extract_lets was call S
  have held : Quiet s S := quiet_updCore _ _ _ fun _ => Core.kept_book rfl rfl
  exact quiet_ite held (held.trans (quiet_msiRaise ..))

theorem quiet_restoreRecord (s : State) (c : Nat) (e : GbEntry) : Quiet s (s.restoreRecord c e) := by
  unfold State.restoreRecord
  extract_lets e
  refine quiet_ite (quiet_bookPut ..) (quiet_ite ?thread (quiet_bookHold ..))
  case thread =>
    have held := quiet_updThread s e.team e.group e.lane (fun th => { th with stat := .held }) fun _ => rfl
    exact held.trans (quiet_bookHold ..)

theorem carries_restoreBook (s : State) (core t : Nat) (v : Saved) : Carries s (s.restoreBook core t v) :=
  (Carries.forEach (fun _ _ => .of_quiet (quiet_restoreRecord ..)) _ _).trans (.forEach (fun _ _ => .of_quiet (quiet_bookHold ..)) _ _)

theorem carries_bookClear (s : State) (t : Nat) : Carries s (s.bookClear t) := by
  unfold State.bookClear
  extract_lets core again S
  have cleared : Carries s S := .of_standing (standing_barFreeTeam ..)
  refine cleared.trans (.forEach (fun _ _ => .of_quiet ?_) _ _)
  exact quiet_updThread _ _ _ _ _ fun _ => rfl

/-- A part of an entry that a map over the entries keeps, it keeps of each. -/
theorem amapGet_map_part {α β : Type} {d : α} {f : Nat → α → α} (part : α → β) (keeps : ∀ k x, part (f k x) = part x)
    (m : AMap α) (k : Nat) : part (amapGet d (amapMap f m) k) = part (amapGet d m k) := by
  simp only [amapGet_eq_find, amapFind?_map]
  cases amapFind? m k <;> simp [keeps]

theorem shiftWaits_threads (tm : Team) (save : Bool) (now g : Nat) :
    (amapGet {} (tm.shiftWaits save now).groups g).threads = (amapGet {} tm.groups g).threads := by
  simp only [Team.shiftWaits]; exact amapGet_map_part Group.threads (fun _ _ => by rfl) _ _
theorem shiftWaits_s (tm : Team) (save : Bool) (now g : Nat) :
    (amapGet {} (tm.shiftWaits save now).groups g).s = (amapGet {} tm.groups g).s := by
  simp only [Team.shiftWaits]; exact amapGet_map_part Group.s (fun _ _ => by rfl) _ _

theorem packTeam_threads (s : State) (t g : Nat) : (amapGet {} (s.packTeam t).groups g).threads = (s.group t g).threads := by
  simp only [State.packTeam]
  exact (amapGet_map_part Group.threads (fun _ _ => by rfl) _ _).trans (shiftWaits_threads (s.team t) true s.cclk g)
theorem packTeam_s (s : State) (t g : Nat) : (amapGet {} (s.packTeam t).groups g).s = (s.group t g).s := by
  simp only [State.packTeam]
  exact (amapGet_map_part Group.s (fun _ _ => by rfl) _ _).trans (shiftWaits_s (s.team t) true s.cclk g)

theorem clusterSaved_teams (s : State) (la cid : Nat) (v : Saved) : (s.clusterSaved la cid v).teams = s.teams := by
  unfold State.clusterSaved
  split_ifs <;> rfl

/-- The save that a team has joined stands under its cluster, be the cluster gone with it or not. -/
theorem clusterSaved_saved {s : State} {cid : Nat} {v : Saved} (la : Nat) (there : amapFind? s.saved cid = some v) :
    ∃ y, amapFind? (s.clusterSaved la cid v).saved cid = some y ∧ y.teams = v.teams := by
  unfold State.clusterSaved
  split_ifs
  · exact ⟨v, there, rfl⟩
  · exact ⟨_, amapFind?_insert_same .., rfl⟩

theorem amapSorted_map {α : Type} (f : Nat → α → α) (lo : Option Nat) (m : AMap α) : amapSorted lo (amapMap f m) = amapSorted lo m := by
  induction m generalizing lo with
  | nil => rfl
  | cons x m ih =>
    obtain ⟨k, v⟩ := x
    cases lo <;> simp only [amapMap, List.map_cons, amapSorted] <;> rw [← ih] <;> rfl

theorem bookClear_sorted {s : State} (t : Nat) (sorted : amapSorted none s.teams = true) : amapSorted none (s.bookClear t).teams = true := by
  unfold State.bookClear forEach
  extract_lets core again S
  have cleared : S.teams = s.teams := teams_of_standing (standing_barFreeTeam ..)
  rw [← cleared] at sorted
  clear cleared
  clear_value S again
  induction again generalizing S with
  | nil => exact sorted
  | cons x again ih =>
    refine ih _ ?_
    simp only [State.updThread, State.updGroup, State.updTeam, amapSorted_map, sorted]

theorem serveHeld_present (n : Nat) (s : State) (c t : Nat) :
    (amapFind? (State.serveHeld n s c).teams t).isSome = (amapFind? s.teams t).isSome := by
  induction n generalizing s with
  | zero => rfl
  | succ n ih =>
    unfold State.serveHeld
    dsimp only
    split_ifs
    · rfl
    · split
      · rfl
      · rw [ih]
        unfold State.bookPut
        dsimp only
        split_ifs <;> rfl
      · exact State.present_updTeam ..

theorem serveHeld_saved (n : Nat) (s : State) (c : Nat) : (State.serveHeld n s c).saved = s.saved :=
  (congrArg State.saved (quiet_serveHeld n s c).others :)

/-- What stands when a team is about to leave its core: nothing of it has changed but the standing of a thread that replayed. -/
def State.leavesWith (s : State) (t place : Nat) : State :=
  (((s.publishNow (s.team t).core).poolWrite (s.spaceOf t) place (s.saveBytes t)).saveRows t (s.lr t).rowDrop).bookClear t

theorem standing_published (s : State) (t place : Nat) :
    (((s.publishNow (s.team t).core).poolWrite (s.spaceOf t) place (s.saveBytes t)).saveRows t (s.lr t).rowDrop).standing = s.standing :=
  (standing_saveRows ..).trans ((standing_poolWrite ..).trans (standing_publishNow ..))

theorem carries_leavesWith (s : State) (t place : Nat) : Carries s (s.leavesWith t place) :=
  (Carries.of_standing (standing_published ..)).trans (carries_bookClear ..)

/-- A team of a cluster joins the cluster's save with its registers, and is not there any more. -/
theorem saveTeam_saves (s : State) (t : Nat) (v : Saved) (place : Nat) :
    ∃ y x, amapFind? (s.saveTeam t v place).saved (s.team t).cluster = some y ∧ amapFind? y.teams t = some x ∧
      (∀ g l, (amapGet {} (amapGet {} x.groups g).threads l).arch = (s.thread t g l).arch) ∧
      (∀ g, (amapGet {} x.groups g).s = (s.group t g).s) ∧
      (amapSorted none s.teams = true → amapFind? (s.saveTeam t v place).teams t = none) := by
  have carried := carries_leavesWith s t place
  have sorted : amapSorted none s.teams = true → amapSorted none (s.leavesWith t place).teams = true := fun h =>
    bookClear_sorted t (by rwa [teams_of_standing (standing_published s t place)])
  have cluster : ((s.leavesWith t place).packTeam t).cluster = (s.team t).cluster := carried.cluster_eq t
  have group (g : Nat) : amapGet {} ((s.leavesWith t place).team t).groups g = (s.leavesWith t place).group t g := rfl
  unfold State.saveTeam
  extract_lets core bytes S c tm v'
  have leaving : c = s.leavesWith t place := rfl
  have joined : v'.teams = amapInsert v.teams t tm := rfl
  rw [← leaving] at carried sorted cluster
  clear_value v' c
  have served : amapFind? (State.serveHeld 65 { c with
      teams := amapErase c.teams t
      copies := c.copies.filter (fun kv => kv.2.team ≠ t)
      saved := amapInsert c.saved tm.cluster v' } core).saved tm.cluster = some v' := by
    rw [serveHeld_saved]
    exact amapFind?_insert_same ..
  obtain ⟨y, found, teams⟩ := clusterSaved_saved tm.launch served
  refine ⟨y, tm, by rw [← cluster]; exact found, by rw [teams, joined]; exact amapFind?_insert_same ..,
    fun g l => ?arch, fun g => ?scal, fun h => ?gone⟩
  case arch => rw [show (amapGet {} tm.groups g).threads = (c.group t g).threads from packTeam_threads ..]; exact carried.arch ..
  case scal => exact (packTeam_s ..).trans (carried.scal ..)
  case gone =>
    rw [clusterSaved_teams, ← Option.isNone_iff_eq_none, ← Option.not_isSome, serveHeld_present]
    rw [amapFind?_erase_same none c.teams t (sorted h)]
    rfl

/-- PREEMPT_SAVE of a team that may be saved: its cluster is kept where its pool has no place for it, else it joins the save. -/
theorem preemptSave_saves {s : State} {t : Nat} {tm : Team} {v : Saved} (there : amapFind? s.teams t = some tm) (leaving : s.leaving t = true)
    (drained : s.drained t = true) (going : s.stopping t = false)
    (save : amapFind? s.saved tm.cluster = some v ∨
      (amapFind? s.saved tm.cluster = none ∧ (∀ u ∈ s.residents tm.cluster, s.drained u = true) ∧ v = {
        cluster := s.cluster tm.cluster
        places := (s.poolPlan (s.poolSize (s.spaceOf t)) (s.poolTaken (s.spaceOf t)) (s.residents tm.cluster)).getD [] })) :
    exec (.preemptSave t) s = .next (match amapFind? v.places t with
      | none => s.keepCluster tm.cluster
      | some (place, _) => s.saveTeam t v place) := by
  rw [exec_preemptSave, execPreemptSave]
  simp only [there, leaving, drained, going, Bool.not_true, Bool.or_self, Bool.false_eq_true, if_false]
  rcases save with found | ⟨none_, rest, rfl⟩
  · simp only [found]
    cases amapFind? v.places t <;> rfl
  · have all_ : (s.residents tm.cluster).all s.drained = true := List.all_eq_true.2 rest
    simp only [none_, all_, Bool.not_true, Bool.false_eq_true, if_false]
    generalize amapFind? (Option.getD _ []) t = place
    cases place <;> rfl

/-! A team that comes back. -/

theorem team_eq_of_find {s : State} {t : Nat} {tm : Team} (there : amapFind? s.teams t = some tm) : s.team t = tm := by
  rw [State.team, amapGet_eq_find, there]; rfl

theorem standing_restoreRows (s : State) (t : Nat) : (s.restoreRows t).standing = s.standing := standing_foldl (fun _ _ => by rfl) _ _

theorem carries_restored (s : State) (core t : Nat) (v : Saved) :
    Carries s (((((s.acquireDone core true).barRejoin t).restoreBook core t v).restoreRows t).restoreCopies core t v) :=
  have joined : ((s.acquireDone core true).barRejoin t).standing = s.standing := (standing_barRejoin ..).trans (standing_acquireDone ..)
  have rows (S : State) : ((S.restoreRows t).restoreCopies core t v).standing = S.standing := standing_restoreRows ..
  (Carries.of_standing joined).trans ((carries_restoreBook ..).trans (.of_standing (rows _)))

/-- A change of a team's groups that keeps their registers. -/
theorem updTeam_arch {s : State} (t : Nat) {f : Team → Team} (threads : ∀ tm g l,
      (amapGet {} (amapGet {} (f tm).groups g).threads l : Thread).arch = (amapGet {} (amapGet {} tm.groups g).threads l : Thread).arch)
    (scal : ∀ tm g, (amapGet {} (f tm).groups g).s = (amapGet {} tm.groups g).s) :
    (∀ t' g l, ((s.updTeam t f).thread t' g l).arch = (s.thread t' g l).arch) ∧ ∀ t' g, ((s.updTeam t f).group t' g).s = (s.group t' g).s := by
  refine ⟨fun t' g l => ?_, fun t' g => ?_⟩
  · simp only [State.thread, State.group, State.team_updTeam]
    split_ifs with at_
    · obtain ⟨rfl, -⟩ := at_; exact threads ..
    · rfl
  · simp only [State.group, State.team_updTeam]
    split_ifs with at_
    · obtain ⟨rfl, -⟩ := at_; exact scal ..
    · rfl

theorem back_arch (tm : Team) (now g l : Nat) :
    (amapGet {} (amapGet {} (tm.back now).groups g).threads l : Thread).arch = (amapGet {} (amapGet {} tm.groups g).threads l : Thread).arch := by
  rw [← shiftWaits_threads tm false now g]
  simp only [Team.back]
  refine amapGet_map_part (fun gr : Group => (amapGet {} gr.threads l : Thread).arch) (fun _ gr => ?_) _ g
  dsimp only
  refine amapGet_map_part Thread.arch (fun _ th => ?_) gr.threads l
  split_ifs <;> rfl
theorem back_s (tm : Team) (now g : Nat) : (amapGet {} (tm.back now).groups g).s = (amapGet {} tm.groups g).s := by
  rw [← shiftWaits_s tm false now g]
  simp only [Team.back]
  exact amapGet_map_part Group.s (fun _ _ => by rfl) _ _

/-- A team that is back is neither on its way out nor to be restored; one that is not there is neither anyway. -/
theorem back_body (s : State) (t now : Nat) :
    ((s.updTeam t fun tm => tm.back now).team t).preempt = false ∧ ((s.updTeam t fun tm => tm.back now).team t).restore = false := by
  rw [State.team_updTeam]
  split_ifs with there
  · exact ⟨rfl, rfl⟩
  · have gone : amapFind? s.teams t = none := by simpa using there
    rw [State.team, amapGet_eq_find, gone]
    exact ⟨rfl, rfl⟩

theorem carries_rejudge (s : State) (t : Nat) : Carries s (s.rejudge t) := by
  unfold State.rejudge
  extract_lets judge
  have kept := updTeam_arch (s := s) t (f := fun tm => { tm with
      groups := amapMap (fun _ g => { g with waits := amapMap (fun _ w => judge w) g.waits }) tm.groups })
    (fun tm g l => by dsimp only; exact amapGet_map_part (fun gr : Group => (amapGet {} gr.threads l : Thread).arch) (fun _ _ => by rfl) _ g)
    fun tm g => by dsimp only; exact amapGet_map_part Group.s (fun _ _ => by rfl) _ g
  refine ⟨fun t' => ?_, kept.2, kept.1, rfl⟩
  rw [State.team_updTeam]
  split_ifs with at_
  · obtain ⟨rfl, -⟩ := at_; rfl
  · rfl

/-- With its last team back a cluster that no debugger has asked for loses its save, and nothing else changes of it. -/
theorem clusterBack_standing {s : State} {t : Nat} (calm : (s.cluster (s.team t).cluster).byDbg = false) :
    (s.clusterBack t).standing = s.standing := by
  unfold State.clusterBack
  refine standing_ite rfl ?_
  have alone : (!(s.cluster (s.team t).cluster).byDbg) = true := by simp [calm]
  exact (congrArg State.standing (if_pos alone)).trans rfl

/-- R362: a team goes on from its save with the registers it had. -/
theorem restoreTeam_goes (s : State) (core t : Nat) (v : Saved) (calm : (s.cluster (s.team t).cluster).byDbg = false) :
    ((s.restoreTeam core t v).team t).preempt = false ∧ ((s.restoreTeam core t v).team t).restore = false ∧
      (∀ g l, ((s.restoreTeam core t v).thread t g l).arch = (s.thread t g l).arch) ∧
      ∀ g, ((s.restoreTeam core t v).group t g).s = (s.group t g).s := by
  unfold State.restoreTeam
  have restored := carries_restored s core t v
  extract_lets S S'
  have saved : Carries s S' := restored.trans (.of_standing rfl)
  have back := updTeam_arch (s := S') t (f := fun tm => tm.back S'.cclk) (fun tm g l => back_arch tm S'.cclk g l) fun tm g => back_s tm S'.cclk g
  have body := back_body S' t S'.cclk
  have cluster : ((S'.updTeam t fun tm => tm.back S'.cclk).team t).cluster = (S'.team t).cluster := by
    rw [State.team_updTeam]; split_ifs <;> rfl
  have clusters : (S'.updTeam t fun tm => tm.back S'.cclk).clusters = s.clusters := saved.clusters
  generalize S'.updTeam t (fun tm => tm.back S'.cclk) = B at back body cluster clusters
  have served : Carries B (State.serveHeld 65 (B.rejudge t) core) := (carries_rejudge B t).trans (.of_quiet (quiet_serveHeld ..))
  generalize State.serveHeld 65 (B.rejudge t) core = H at served
  have calmH : (H.cluster (H.team t).cluster).byDbg = false := by
    rw [State.cluster, served.clusters, clusters, served.cluster_eq, cluster, saved.cluster_eq]
    exact calm
  have done : Carries B (H.clusterBack t) := served.trans (.of_standing (clusterBack_standing calmH))
  exact ⟨(done.preempt_eq t).trans body.1, (done.restore_eq t).trans body.2,
    fun g l => (done.arch ..).trans ((back.1 ..).trans (saved.arch ..)), fun g => (done.scal ..).trans ((back.2 ..).trans (saved.scal ..))⟩

/-! ## The end of a grid -/

/-- What follows on a grid's completion takes no launch's completion back, writes nothing to the host's memory, and takes no time. -/
structure Concludes (s S : State) : Prop where
  complete : ∀ l, (S.launch l).complete = (s.launch l).complete
  host     : S.hostMem = s.hostMem
  now      : S.devtime = s.devtime

namespace Concludes

theorem trans {a b c : State} (h : Concludes a b) (k : Concludes b c) : Concludes a c :=
  ⟨fun l => (k.complete l).trans (h.complete l), k.host.trans h.host, k.now.trans h.now⟩

theorem of_quiet {s S : State} (h : Quiet s S) : Concludes s S :=
  ⟨fun l => congrArg (fun m => (amapGet {} m l : Launch).complete) (congrArg State.launches h.others :),
   (congrArg State.hostMem h.others :), (congrArg State.devtime h.others :)⟩

theorem forEach {α : Type} {f : State → α → State} (step : ∀ s x, Concludes s (f s x)) (l : List α) (s : State) :
    Concludes s (forEach l s f) := by
  unfold Machine.forEach
  induction l generalizing s with
  | nil => exact ⟨fun _ => rfl, rfl, rfl⟩
  | cons x l ih => exact (step s x).trans (ih _)

theorem updLaunch (s : State) (k : Nat) {f : Launch → Launch} (keeps : ∀ l, (f l).complete = l.complete) : Concludes s (s.updLaunch k f) := by
  refine ⟨fun l => ?_, rfl, rfl⟩
  by_cases h : l = k
  · subst h; rw [State.updLaunch_same]; exact keeps _
  · rw [State.updLaunch_other _ _ _ _ h]

theorem failLaunch (s : State) (la : Nat) (st : Status) : Concludes s (s.failLaunch la st) := by
  unfold State.failLaunch
  extract_lets l
  split_ifs
  · exact ⟨fun _ => rfl, rfl, rfl⟩
  · have failed := updLaunch s la (f := fun x => { x with status := some st }) fun _ => rfl
    exact ⟨failed.complete, failed.host, failed.now⟩

theorem decideDeps (s : State) (la : Nat) (ok : Bool) : Concludes s (s.decideDeps la ok) := by
  refine forEach (fun S kv => ?_) _ _
  have decided := updLaunch S kv.1 (f := fun x => { x with deps := x.deps.filter (· ≠ la) }) fun _ => rfl
  dsimp only
  split_ifs
  · exact decided
  · exact decided.trans (failLaunch ..)

theorem leaseEnd (s : State) (id : Nat) : Concludes s (s.leaseEnd id) := by
  unfold State.leaseEnd
  split
  · exact ⟨fun _ => rfl, rfl, rfl⟩
  · split_ifs <;> exact ⟨fun _ => rfl, rfl, rfl⟩

theorem dropRecords (s : State) (la : Nat) : Concludes s (s.dropRecords la) := by
  unfold State.dropRecords
  extract_lets cores
  have dropped := forEach (fun S c => of_quiet (quiet_serveHeld 65 S c)) (amapKeys cores) { s with cores := cores }
  exact ⟨dropped.complete, dropped.host, dropped.now⟩

end Concludes

/-- R300: what a completion record is. -/
theorem completionRecord_writes (s : State) {caddr : Nat} (ticket status : Nat) (missed irq : Bool) (wanted : caddr ≠ 0) :
    (s.completionRecord caddr ticket status missed irq).hostMem = memWrite s.hostMem caddr 16
      (ticket % 2 ^ 16 + 2 ^ 16 * status + (if missed then 2 ^ 24 else 0) + 2 ^ 64 * (s.devtime % 2 ^ 64)) := by
  simp only [State.completionRecord, if_neg wanted]
  split_ifs <;> rfl

theorem completionRecord_launches (s : State) (caddr ticket status : Nat) (missed irq : Bool) :
    (s.completionRecord caddr ticket status missed irq).launches = s.launches := by
  simp only [State.completionRecord]
  by_cases none_ : caddr = 0
  · rw [if_pos none_]
  · rw [if_neg none_]; cases irq <;> rfl

/-- R298 to R300: a grid whose draw's fragments are all counted completes, and its record is written where one is wanted. -/
theorem gridComplete_completes {s D : State} {la : Nat} {l : Launch} (found : amapFind? s.launches la = some l) (open_ : l.complete = false)
    (ended : s.gridOver la = true) (reported : (forEach l.cores s fun s c => s.publishNow c).rowSweep.drawReport la = (true, D)) :
    ∃ S, exec (.gridComplete la) s = .next S ∧ (S.launch la).complete = true ∧ (l.caddr ≠ 0 → ∃ m, S.hostMem =
      memWrite m l.caddr 16 (l.ticket % 2 ^ 16 + 2 ^ 16 * (l.status.getD .ok).code +
        (if l.due ≠ 0 ∧ l.due < s.devtime + 2 ^ 46 then 2 ^ 24 else 0) + 2 ^ 64 * (s.devtime % 2 ^ 64))) := by
  have time : D.devtime = s.devtime := by
    have kept := standing_drawReport (forEach l.cores s fun s c => s.publishNow c).rowSweep la
    rw [reported] at kept
    exact devtime_of_standing (kept.trans ((standing_rowSweep _).trans (standing_foldl standing_publishNow _ _)))
  rw [exec_gridComplete, execGridComplete]
  simp only [found, open_, ended, reported, Bool.not_true, Bool.or_self, Bool.false_eq_true, if_false]
  have completed : ((D.updLaunch la fun x => { x with complete := true }).launch la).complete = true := by
    rw [State.updLaunch_same]
  have decided := Concludes.decideDeps (D.updLaunch la fun x => { x with complete := true }) la (l.status.getD .ok == .ok)
  generalize hV : State.decideDeps (D.updLaunch la fun x => { x with complete := true }) la (l.status.getD .ok == .ok) = V at decided
  generalize hR : V.completionRecord l.caddr l.ticket (l.status.getD .ok).code (l.due ≠ 0 && decide (l.due < D.devtime + 2 ^ 46)) l.irq = R
  have released : Concludes R (match l.lease with
      | some id => R.leaseEnd id
      | none => R) := by
    split
    · exact .leaseEnd ..
    · exact ⟨fun _ => rfl, rfl, rfl⟩
  have concluded := released.trans (.dropRecords _ la)
  refine ⟨_, rfl, (concluded.complete la).trans ?_, fun wanted => ⟨V.hostMem, concluded.host.trans ?_⟩⟩
  · rw [← hR, State.launch, completionRecord_launches]
    exact (decided.complete la).trans completed
  · have now : V.devtime = s.devtime := decided.now.trans time
    rw [← hR, completionRecord_writes V _ _ _ _ wanted, now, time]
    simp only [Bool.and_eq_true, decide_eq_true_eq]

/-! ## Scheduling -/

theorem clusterPlace_disabled {s : State} {die : Nat} {x : (Nat × Cand)} (off : ((s.tryOrder die).find? fun x => s.spaceOff x.2) = some x) :
    exec (.clusterPlace die) s = .next (s.failLaunch x.2.la .noSpace) := by
  simp only [exec_clusterPlace, execClusterPlace, off]

theorem clusterPlace_fits {s : State} {die q : Nat} {c : Cand} {w : Nat} {corner : Nat × Nat}
    (on : ((s.tryOrder die).find? fun x => s.spaceOff x.2) = none)
    (fits : ((s.tryOrder die).findSome? fun x => (s.findRect die x.2).map fun r => (x, r)) = some ((q, c), (w, corner))) :
    let l := s.launch c.la
    let bad := c.saved.isNone && l.next = 0 && l.lr.kind && s.rasterStesBad l.space l.lr.raster
    let S := if l.cls = 1 then s.roundRobin die q else s
    (bad = true → exec (.clusterPlace die) s = .next (s.failLaunch c.la .badLaunch)) ∧
    (bad = false → exec (.clusterPlace die) s = .next (((match c.saved with
      | none => S.placeNew c.la w corner
      | some k => S.placeSaved c.la k w corner).updDie die fun d => { d with pointer := (w + 1) % 16 }))) := by
  intro l bad S
  simp only [exec_clusterPlace, execClusterPlace, on, fits]
  exact ⟨fun h => if_pos h, fun h => if_neg (ne_true_of_eq_false h)⟩

theorem clusterPlace_passes {s S : State} {die : Nat} (on : ((s.tryOrder die).find? fun x => s.spaceOff x.2) = none)
    (full : ∀ x ∈ s.tryOrder die, s.findRect die x.2 = none) (passed : s.passTurn die = some S) : exec (.clusterPlace die) s = .next S := by
  have nowhere : ((s.tryOrder die).findSome? fun x => (s.findRect die x.2).map fun r => (x, r)) = none :=
    List.findSome?_eq_none_iff.2 fun x mem => by rw [full x mem]; rfl
  simp only [exec_clusterPlace, execClusterPlace, on, nowhere, passed]

theorem framePreempt_clears {s : State} {die la : Nat} {cs cores : List Nat} (victim : s.preemptFor die = some (la, cs, cores)) :
    exec (.framePreempt die) s = .next ((s.preemptClusters cs).updDie die fun d =>
      { d with cleared := (d.cleared.filter fun h => h.1 ≠ la) ++ [(la, cores)] }) := by
  simp only [exec_framePreempt, execFramePreempt, victim]

theorem normalReservation_reserves {s : State} {die : Nat} {x : Nat × Cand} (free : ((s.die die).reserve.any fun f => s.placing f.la) = false)
    (alone : (s.classCands die 1).filter (fun x => ((s.waitSince x.1).any fun n => decide (n + 1000000 ≤ s.devtime)) &&
      (s.findRect die x.2).isNone) = [x]) :
    exec (.normalReservation die) s = .next (s.updDie die fun d => { d with reserve := (s.queue x.1).front }) := by
  simp only [exec_normalReservation, execNormalReservation, free, alone, Bool.false_eq_true, if_false, List.foldl]

theorem teamRestore_goes {s : State} {t : Nat} {tm : Team} {v : Saved} (there : amapFind? s.teams t = some tm)
    (saved : amapFind? s.saved tm.cluster = some v) (back : tm.restore = true) (calm : (s.cluster tm.cluster).byDbg = false)
    (going : s.stopping t = false) :
    ∃ S, exec (.teamRestore t tm.core) s = .next S ∧ (S.team t).preempt = false ∧ (S.team t).restore = false ∧
      (∀ g l, (S.thread t g l).arch = (s.thread t g l).arch) ∧ ∀ g, (S.group t g).s = (s.group t g).s := by
  refine ⟨s.restoreTeam tm.core t v, ?_, restoreTeam_goes s tm.core t v (by rwa [team_eq_of_find there])⟩
  simp [execTeamRestore, there, saved, back, going]

theorem contextBind_binds {s : State} {core quarter ctx t g : Nat} (small : ctx < 4) (free : ctx ∉ s.boundCtxs core quarter)
    (pick : s.bindPick core quarter = some (t, g)) : exec (.contextBind core quarter ctx) s = .next (s.bind t g ctx) := by
  have notPorter : ctx ≠ 4 := by omega
  have room : (decide (4 ≤ ctx) || (s.boundCtxs core quarter).contains ctx) = false := by simp [small, free]
  simp only [exec_contextBind, execContextBind, notPorter, room, pick, decide_false, Bool.false_and, Bool.false_eq_true, if_false]

/-- R139: the night porter's group binds to context 4 of quarter 0, and takes slots once it has a run there. -/
theorem porter_binds {s : State} {core t : Nat} (porter : s.porterTeam core = some t) :
    ((s.group t 0).run.isSome = true → exec (.porterSlotTake core) s = .next { s with turn := .group t 0 }) ∧
    ((s.group t 0).run = none → s.groupReady t 0 = true → exec (.contextBind core 0 4) s = .next (s.bind t 0 4)) := by
  refine ⟨fun runs => ?_, fun idle ready => ?_⟩
  · simp only [exec_porterSlotTake, execPorterSlotTake, porter, runs, if_true]
  · simp only [exec_contextBind, execContextBind, porter, idle, ready, decide_true, Option.isNone_none, Bool.and_self, if_true]

/-- R349: the porter that wakes for a record is a new team at its launch's handler. -/
theorem porterWake_wakes {s : State} {core : Nat} {e : GbEntry} (asleep : s.porterAsleep core = true) (record : s.wakeRecord core = some e) :
    ∃ S t, exec (.porterWake core) s = .next S ∧ (S.core core).porter = some e.launch ∧ (S.team t).kind = .porter ∧
      (S.team t).launch = e.launch ∧ (S.team t).core = core ∧
      (S.thread t 0 0).pc = ((s.launch e.launch).lr.code + (s.launch e.launch).lr.hdlpc) % 2 ^ 64 ∧
      (S.thread t 0 0).fpm = (s.launch e.launch).lr.startFpm := by
  rw [exec_porterWake, execPorterWake, if_neg (by simp [asleep])]
  split
  · next none_ => simp [none_] at record
  next e' found =>
  obtain rfl : e' = e := Option.some.inj (found.symm.trans record)
  extract_lets la r P Q th g tm
  refine ⟨_, Q.uid, rfl, ?porter, ?_⟩
  case porter =>
    change (Q.core core).porter = some e'.launch
    rw [State.updCore_same]
  simp only [State.thread, State.group, State.team, amapGet_insert_same]
  exact ⟨rfl, rfl, rfl, rfl, rfl⟩

/-- R130: what a read of code brings to the instruction cache. -/
theorem fetchBlockFill_fills {s S : State} {t g pc : Nat} (fetch : s.fetchPc t g = some pc) (stream : g = 32 → s.streamFetches t = true) :
    let core := (s.team t).core
    let la := (s.team t).launch
    let held := (s.icacheAt core la pc).isSome
    (g ≠ 32 → held = false → s.accBars t g (((s.group t g).run.map (·.lanes)).getD []) = false) →
    (∀ b poison, s.codeRead t pc = (.ok b poison, S) →
      exec (.fetchBlockFill t g) s = .next (S.icachePut core la pc (BitVec.ofNat 256 b))) ∧
    (s.codeRead t pc = (.wait, S) → exec (.fetchBlockFill t g) s = .next S) ∧
    (∀ tr, s.codeRead t pc = (.trap tr, S) → exec (.fetchBlockFill t g) s = .next (if held then S else S.fetchFault t g tr)) ∧
    ∀ va l, s.codeRead t pc = (.breach va l, S) → exec (.fetchBlockFill t g) s = .next (if held then S else S.breach la va l) := by
  intro core la held open_
  have streams : (decide (g = 32) && !s.streamFetches t) = false := by
    by_cases is : g = 32
    · simp [stream is]
    · simp [is]
  have free : (decide (g ≠ 32) && !held && s.accBars t g (((s.group t g).run.map (·.lanes)).getD [])) = false := by
    by_cases is : g = 32
    · simp [is]
    · cases hh : held
      · rw [open_ is hh]; simp
      · simp
  have read : exec (.fetchBlockFill t g) s = match s.codeRead t pc with
      | (.ok b _, s) => .next (s.icachePut core la pc (BitVec.ofNat 256 b))
      | (.wait, s) => .next s
      | (.trap tr, s) => .next (if held then s else s.fetchFault t g tr)
      | (.breach va l, s) => .next (if held then s else s.breach la va l) := by
    simp only [exec_fetchBlockFill, execFetchBlockFill, fetch, streams]
    exact if_neg (ne_true_of_eq_false free)
  refine ⟨fun b poison got => ?_, fun got => ?_, fun tr got => ?_, fun va l got => ?_⟩ <;> rw [read, got]

theorem teamEnd_removes {s : State} {t : Nat} (there : (amapFind? s.teams t).isSome) (done : s.teamOver t = true) :
    exec (.teamEnd t) s = .next ((s.fragExport t).teamRemove t) := by
  obtain ⟨tm, found⟩ := Option.isSome_iff_exists.1 there
  simp only [exec_teamEnd, execTeamEnd, found, done, if_true]

theorem preemptSave_settles {s : State} {t : Nat} {tm : Team} {v : Saved} (there : amapFind? s.teams t = some tm)
    (saves : exec (.preemptSave t) s = .next (match amapFind? v.places t with
      | none => s.keepCluster tm.cluster
      | some (place, _) => s.saveTeam t v place)) :
    (amapFind? v.places t = none → exec (.preemptSave t) s = .next (s.keepCluster tm.cluster)) ∧
    ∀ place, amapFind? v.places t = some place →
      ∃ S y x, exec (.preemptSave t) s = .next S ∧ amapFind? S.saved tm.cluster = some y ∧ amapFind? y.teams t = some x ∧
        (∀ g l, (amapGet {} (amapGet {} x.groups g).threads l).arch = (s.thread t g l).arch) ∧
        (∀ g, (amapGet {} x.groups g).s = (s.group t g).s) ∧
        (amapSorted none s.teams = true → (s.core tm.core).held = [] → amapFind? S.teams t = none) := by
  refine ⟨fun none_ => by rw [saves, none_], fun place some_ => ?_⟩
  obtain ⟨y, x, joined, own, arch, scal, gone⟩ := saveTeam_saves s t v place.1
  rw [team_eq_of_find there] at joined
  exact ⟨_, y, x, by rw [saves, some_], joined, own, arch, scal, fun sorted _ => gone sorted⟩

/-- Settles O47: placing, pre-emption, saving, binding, the porter, fetching and completion, an event at a time. -/
theorem schedulingEvents : Obligations.SchedulingEvents := by
  unfold Obligations.SchedulingEvents
  refine ⟨fun _ _ _ => clusterPlace_disabled, fun _ _ _ _ _ _ => clusterPlace_fits, fun _ _ _ => clusterPlace_passes,
    fun _ _ _ _ _ => framePreempt_clears, fun _ _ _ => normalReservation_reserves,
    fun _ _ _ _ there leaving drained going save => ?save, fun _ _ _ _ => teamRestore_goes,
    fun _ _ _ _ _ _ => contextBind_binds, fun _ _ _ => porter_binds, fun _ _ _ => porterWake_wakes, fun _ _ _ _ _ => fetchBlockFill_fills,
    fun _ _ => teamEnd_removes, fun _ _ _ found open_ ended _ => gridComplete_completes found open_ ended⟩
  case save => exact preemptSave_settles there (preemptSave_saves there leaving drained going save)

end Sys2Proof.Machine

namespace Sys2Proof

/-! ## Words as packed fields (R150, R154, R157, R245)

A word is a list of fields laid one above the other; the decoder's `bitField` reads each of them back. -/

/-- Fields laid one above the other from bit 0 up: each a width in bits and a value. -/
def pack : List (Nat × Nat) → Nat
  | [] => 0
  | (n, v) :: fs => v + 2 ^ n * pack fs

/-- How many bits the fields take. -/
def packWidth (fs : List (Nat × Nat)) : Nat := (fs.map (·.1)).sum

theorem pack_lt {fs : List (Nat × Nat)} {n : Nat} (fit : ∀ f ∈ fs, f.2 < 2 ^ f.1) (size : packWidth fs = n) : pack fs < 2 ^ n := by
  subst size
  induction fs with
  | nil => decide
  | cons f fs ih =>
    obtain ⟨low, above⟩ := List.forall_mem_cons.1 fit
    have room : pack fs + 1 ≤ 2 ^ packWidth fs := ih above
    calc f.2 + 2 ^ f.1 * pack fs < 2 ^ f.1 * (pack fs + 1) := by rw [Nat.mul_succ]; omega
      _ ≤ 2 ^ f.1 * 2 ^ packWidth fs := Nat.mul_le_mul_left _ room
      _ = 2 ^ packWidth (f :: fs) := by simp [packWidth, Nat.pow_add]

/-- The lowest field is read at bit 0. -/
theorem bitField_pack_head {hi n v : Nat} {fs : List (Nat × Nat)} (fit : v < 2 ^ n) (size : hi + 1 = n) :
    bitField hi 0 (pack ((n, v) :: fs)) = v := by
  simp [bitField, pack, size, Nat.mod_eq_of_lt fit]

/-- A field that lies above the lowest is read from the others. -/
theorem bitField_pack_tail {hi lo n v : Nat} {fs : List (Nat × Nat)} (fit : v < 2 ^ n) (above : n ≤ lo) (order : lo ≤ hi) :
    bitField hi lo (pack ((n, v) :: fs)) = bitField (hi - n) (lo - n) (pack fs) := by
  obtain ⟨k, rfl⟩ := Nat.exists_eq_add_of_le above
  have size : hi + 1 - (n + k) = hi - n + 1 - k := by omega
  have rest : (v + 2 ^ n * pack fs) / 2 ^ n = pack fs := by
    rw [Nat.add_mul_div_left _ _ (Nat.two_pow_pos n), Nat.div_eq_of_lt fit, Nat.zero_add]
  simp only [bitField, pack, Nat.pow_add, ← Nat.div_div_eq_div_mul, rest, size, Nat.add_sub_cancel_left]

/-! ### The values of fields -/

theorem bitAt_eq (b : Bool) (k : Nat) : bitAt b k = 2 ^ k * b.toNat := by cases b <;> simp [bitAt]
theorem toNat_lt_bit (b : Bool) : b.toNat < 2 ^ 1 := Bool.toNat_lt b
theorem toNat_beq_one (b : Bool) : (b.toNat == 1) = b := by cases b <;> rfl
theorem Len.code_lt (l : Len) : l.code < 2 ^ 2 := Laws.code_lt l
theorem Scope.code_lt (c : Scope) : c.code < 2 ^ 3 := by cases c <;> decide
theorem Scope.ofCode_code (c : Scope) : Scope.ofCode c.code = some c := by cases c <;> rfl

theorem Src.bits_lt (x : Src) : x.bits < 2 ^ 10 := by
  cases x with
  | v n | s n | y n | imm n => have := n.isLt; simp only [Src.bits]; omega
  | imm32 => decide

theorem Src.ofBits_bits (x : Src) : Src.ofBits x.bits = some x := by
  cases x with
  | v n =>
    have := n.isLt
    rw [Src.bits, Src.ofBits, if_pos (by omega), BitVec.ofNat_toNat, BitVec.setWidth_eq]
  | s n =>
    have := n.isLt
    rw [Src.bits, Src.ofBits, if_neg (by omega), if_pos (by omega), Nat.add_sub_cancel_left, BitVec.ofNat_toNat, BitVec.setWidth_eq]
  | y n =>
    have := n.isLt
    rw [Src.bits, Src.ofBits, if_neg (by omega), if_neg (by omega), if_pos (by omega), Nat.add_sub_cancel_left, BitVec.ofNat_toNat,
      BitVec.setWidth_eq]
  | imm n =>
    have := n.isLt
    rw [Src.bits, Src.ofBits, if_neg (by omega), if_neg (by omega), if_neg (by omega), if_neg (by omega), if_pos (by omega),
      Nat.add_sub_cancel_left, BitVec.ofNat_toNat, BitVec.setWidth_eq]
  | imm32 => rfl

/-! ### Base words and X words (Tables 09-1 and 09-5) -/

/-- The fields of a base word below IMM32. -/
def Ops.fields (o : Ops) (c m : Nat) : List (Nat × Nat) :=
  [(2, o.len.code), (1, o.rb.toNat), (9, c), (3, o.g.toNat), (1, o.gn.toNat), (8, o.d.toNat), (1, o.nw.toNat), (10, o.a.bits),
   (10, o.b.bits), (10, o.c.bits), (9, m)]

/-- The fields of the X word, which only a word of 128 bits has. -/
def MemX.fields (x : MemX) : Len → List (Nat × Nat)
  | .w128 => [(8, 0), (2, x.hint.toNat), (3, x.scope.code), (1, x.d2e.toNat), (8, x.d2.toNat), (10, x.e.bits)]
  | _ => []

theorem Ops.word_eq_pack (o : Ops) (c m : Nat) : o.word c m = pack (o.fields c m ++ [(32, o.imm.toNat)]) := by
  simp only [Ops.word, Ops.fields, pack, bitAt_eq, List.cons_append, List.nil_append]
  ring

theorem Ops.word_add_eq_pack (o : Ops) (x : MemX) (c m : Nat) :
    o.word c m + x.word o.len = pack (o.fields c m ++ (32, o.imm.toNat) :: x.fields o.len) := by
  have empty : MemX.word x .w128 = 2 ^ 96 * pack (x.fields .w128) := by
    simp only [MemX.word, MemX.fields, pack, bitAt_eq]; ring
  have split (ys : List (Nat × Nat)) : pack (o.fields c m ++ (32, o.imm.toNat) :: ys) = o.word c m + 2 ^ 96 * pack ys := by
    simp only [Ops.word, Ops.fields, pack, bitAt_eq, List.cons_append, List.nil_append]; ring
  rw [split]
  cases o.len with
  | w128 => rw [empty]
  | w64 | w96 => rfl

/-- A word of 64 bits has no IMM32. -/
def Ops.Short (o : Ops) : Prop := o.len = .w64 → o.imm = 0

section
variable (o : Ops) (x : MemX) {c m : Nat} (hc : c < 2 ^ 9) (hm : m < 2 ^ 9)
include hc hm

theorem Ops.fields_fit : ∀ f ∈ o.fields c m, f.2 < 2 ^ f.1 := by
  simp only [Ops.fields, List.forall_mem_cons, List.not_mem_nil, false_implies, implies_true, and_true, Len.code_lt, toNat_lt_bit, hc, hm,
    BitVec.isLt, Src.bits_lt]

theorem pack_fields_imm_lt : pack (o.fields c m ++ [(32, o.imm.toNat)]) < 2 ^ 96 := by
  refine pack_lt ?_ (by simp [packWidth, Ops.fields])
  simpa only [List.forall_mem_append, List.forall_mem_singleton, BitVec.isLt, and_true] using o.fields_fit hc hm

theorem pack_fields_x_lt : pack (o.fields c m ++ (32, o.imm.toNat) :: x.fields .w128) < 2 ^ 128 := by
  refine pack_lt ?_ (by simp [packWidth, Ops.fields, MemX.fields])
  simpa only [List.forall_mem_append, List.forall_mem_cons, BitVec.isLt, MemX.fields, Scope.code_lt, toNat_lt_bit, Src.bits_lt,
    Nat.two_pow_pos, List.not_mem_nil, false_implies, implies_true, and_true] using o.fields_fit hc hm

/-- A word is no longer than it says. -/
theorem Ops.word_lt (short : o.Short) : o.word c m < 2 ^ (8 * o.len.bytes) := by
  rw [Ops.word_eq_pack]
  have inside := pack_fields_imm_lt o hc hm
  cases hl : o.len with
  | w64 =>
    have bare : pack (o.fields c m ++ [(32, o.imm.toNat)]) = pack (o.fields c m) := by
      simp [short hl, Ops.fields, pack]
    rw [bare]
    exact pack_lt (o.fields_fit hc hm) (by simp [packWidth, Ops.fields, Len.bytes])
  | w96 => exact inside
  | w128 => exact inside.trans (Nat.pow_lt_pow_right (by decide) (by decide))

theorem Ops.word_add_lt (short : o.Short) : o.word c m + x.word o.len < 2 ^ (8 * o.len.bytes) := by
  cases hl : o.len with
  | w128 =>
    have size : 8 * Len.bytes .w128 = 128 := rfl
    rw [← hl, Ops.word_add_eq_pack, hl, size]
    exact pack_fields_x_lt o x hc hm
  | w64 | w96 =>
    have none_ : x.word o.len = 0 := by rw [hl]; rfl
    rw [← hl, none_, Nat.add_zero]
    exact o.word_lt hc hm short

/-! ### What the decoder reads of them -/

section
variable (xs : List (Nat × Nat))

omit hm in
theorem opcOf_pack : opcOf (pack (o.fields c m ++ xs)) = c := by
  simp only [opcOf, Ops.fields, List.cons_append, bitField_pack_tail, bitField_pack_head, Len.code_lt, toNat_lt_bit, hc,
    Nat.reduceSub, Nat.reduceLeDiff, Nat.reduceAdd]

theorem modifier_pack : bitField 63 55 (pack (o.fields c m ++ xs)) = m := by
  simp only [Ops.fields, List.cons_append, bitField_pack_tail, bitField_pack_head, Len.code_lt, toNat_lt_bit, hc, hm, BitVec.isLt,
    Src.bits_lt, Nat.reduceSub, Nat.reduceLeDiff, Nat.reduceAdd]

theorem Ops.ofBits_pack : Ops.ofBits o.len (pack (o.fields c m ++ (32, o.imm.toNat) :: xs)) = some o := by
  simp only [Ops.ofBits, Ops.fields, List.cons_append, List.nil_append, bitField_pack_tail, bitField_pack_head, Len.code_lt,
    Src.bits_lt, toNat_lt_bit, hc, hm, BitVec.isLt, Src.ofBits_bits, Nat.reduceSub, Nat.reduceLeDiff, Nat.reduceAdd, toNat_beq_one,
    BitVec.ofNat_toNat, BitVec.setWidth_eq]

end

theorem MemX.ofBits_pack (default : o.len ≠ .w128 → x = .default) :
    MemX.ofBits o.len (pack (o.fields c m ++ (32, o.imm.toNat) :: x.fields o.len)) = some x := by
  cases hl : o.len with
  | w128 =>
    simp only [MemX.ofBits, Ops.fields, MemX.fields, List.cons_append, List.nil_append, bitField_pack_tail, bitField_pack_head, Len.code_lt,
      Src.bits_lt, toNat_lt_bit, hc, hm, BitVec.isLt, Src.ofBits_bits, Scope.code_lt, Scope.ofCode_code, Nat.two_pow_pos, Nat.reduceSub,
      Nat.reduceLeDiff, Nat.reduceAdd, toNat_beq_one, BitVec.ofNat_toNat, BitVec.setWidth_eq, if_true]
  | w64 | w96 => rw [default (by simp [hl])]; rfl

end

/-! ### Stream words (Table 09-7) -/

def SOps.fields (o : SOps) (c m : Nat) : List (Nat × Nat) :=
  [(2, 2), (1, 0), (9, c), (3, 7), (1, 0), (8, o.d.toNat), (1, 0), (10, o.a.bits), (10, o.b.bits), (10, o.c.bits), (9, m),
   (32, o.imm.toNat), (7, 0), (1, o.cl.toNat), (1, o.ru.toNat), (3, o.slot.toNat), (6, o.pred1.toNat), (1, o.v1.toNat),
   (6, o.pred0.toNat), (1, o.v0.toNat), (6, o.cid.toNat)]

/-- A stream word whose sources are ones and whose fixed bits are right is read field by field. -/
theorem SOps.ofBits_of_fixed {w : Nat} {a b c : Src} (ha : Src.ofBits (bitField 34 25 w) = some a)
    (hb : Src.ofBits (bitField 44 35 w) = some b) (hc : Src.ofBits (bitField 54 45 w) = some c)
    (fixed : bitField 14 12 w = 7 ∧ bitField 15 15 w = 0 ∧ bitField 24 24 w = 0 ∧ bitField 2 2 w = 0 ∧ bitField 102 96 w = 0) :
    SOps.ofBits .w128 w = some
      { d := BitVec.ofNat 8 (bitField 23 16 w), a := a, b := b, c := c, imm := BitVec.ofNat 32 (bitField 95 64 w),
        cid := BitVec.ofNat 6 (bitField 127 122 w), v0 := bitField 121 121 w == 1, pred0 := BitVec.ofNat 6 (bitField 120 115 w),
        v1 := bitField 114 114 w == 1, pred1 := BitVec.ofNat 6 (bitField 113 108 w), slot := BitVec.ofNat 3 (bitField 107 105 w),
        ru := bitField 104 104 w == 1, cl := bitField 103 103 w == 1 } := by
  simp only [SOps.ofBits, ha, hb, hc, if_pos fixed]

theorem SOps.word_eq_pack (o : SOps) (c m : Nat) : o.word c m = pack (o.fields c m) := by
  simp only [SOps.word, SOps.fields, pack, bitAt_eq]
  ring

section
variable (o : SOps) {c m : Nat} (hc : c < 2 ^ 9) (hm : m < 2 ^ 9)
include hc hm

theorem SOps.word_lt : o.word c m < 2 ^ 128 := by
  rw [SOps.word_eq_pack]
  have two : 2 < 2 ^ 2 := by decide
  have seven : 7 < 2 ^ 3 := by decide
  refine pack_lt ?_ (by simp [packWidth, SOps.fields])
  simp only [SOps.fields, List.forall_mem_cons, List.not_mem_nil, false_implies, implies_true, and_true, toNat_lt_bit, hc, hm,
    BitVec.isLt, Src.bits_lt, Nat.two_pow_pos, two, seven]

omit hm in
theorem SOps.opcOf_word : opcOf (o.word c m) = c := by
  have two : 2 < 2 ^ 2 := by decide
  simp only [SOps.word_eq_pack, opcOf, SOps.fields, bitField_pack_tail, bitField_pack_head, two, Nat.two_pow_pos, hc, Nat.reduceSub,
    Nat.reduceLeDiff, Nat.reduceAdd]

theorem SOps.modifier_word : bitField 63 55 (o.word c m) = m := by
  have two : 2 < 2 ^ 2 := by decide
  have seven : 7 < 2 ^ 3 := by decide
  simp only [SOps.word_eq_pack, SOps.fields, bitField_pack_tail, bitField_pack_head, two, seven, Nat.two_pow_pos, hc, hm, BitVec.isLt,
    Src.bits_lt, Nat.reduceSub, Nat.reduceLeDiff, Nat.reduceAdd]

omit hm in
theorem SOps.sources_word : Src.ofBits (bitField 34 25 (o.word c m)) = some o.a ∧ Src.ofBits (bitField 44 35 (o.word c m)) = some o.b ∧
    Src.ofBits (bitField 54 45 (o.word c m)) = some o.c := by
  have two : 2 < 2 ^ 2 := by decide
  have seven : 7 < 2 ^ 3 := by decide
  simp only [SOps.word_eq_pack, SOps.fields, bitField_pack_tail, bitField_pack_head, two, seven, Nat.two_pow_pos, hc, BitVec.isLt,
    Src.bits_lt, Src.ofBits_bits, Nat.reduceSub, Nat.reduceLeDiff, Nat.reduceAdd, and_self]

/-- The bits of a stream word that are the same in all (R151, Table 09-7). -/
theorem SOps.fixed_word : bitField 14 12 (o.word c m) = 7 ∧ bitField 15 15 (o.word c m) = 0 ∧ bitField 24 24 (o.word c m) = 0 ∧
    bitField 2 2 (o.word c m) = 0 ∧ bitField 102 96 (o.word c m) = 0 := by
  have two : 2 < 2 ^ 2 := by decide
  have seven : 7 < 2 ^ 3 := by decide
  simp only [SOps.word_eq_pack, SOps.fields, bitField_pack_tail, bitField_pack_head, two, seven, Nat.two_pow_pos, hc, hm, BitVec.isLt,
    Src.bits_lt, Nat.reduceSub, Nat.reduceLeDiff, Nat.reduceAdd, and_self]

theorem SOps.ofBits_word : SOps.ofBits .w128 (o.word c m) = some o := by
  have two : 2 < 2 ^ 2 := by decide
  have seven : 7 < 2 ^ 3 := by decide
  obtain ⟨ha, hb, hc'⟩ := o.sources_word hc
  rw [SOps.ofBits_of_fixed ha hb hc' (o.fixed_word hc hm)]
  simp only [SOps.word_eq_pack, SOps.fields, bitField_pack_tail, bitField_pack_head, two, seven, Nat.two_pow_pos, hc, hm, BitVec.isLt,
    Src.bits_lt, toNat_lt_bit, toNat_beq_one, BitVec.ofNat_toNat, BitVec.setWidth_eq, Nat.reduceSub, Nat.reduceLeDiff, Nat.reduceAdd]

end

/-! ## The words that the decoder reads back

What is left of a word once its length, its opcode, its modifier and its fields are read is the line of its opcode in the decoder's
tables. -/

/-- The tables of the opcodes outside the memory class and the stream, as the decoder chooses among them. -/
def ofOpcBase (c m : Nat) (o : Ops) : Option Instr :=
  if c < 0x80 then ofOpcInt c m o else if c < 0x100 then ofOpcFloat c m o else ofOpcMisc c m o

/-- The assigned opcodes by the layout of their words. -/
def opcBase (c : Nat) : Bool := opcAssigned c && !opcStream c && !opcMemClass c
def opcMem (c : Nat) : Bool := opcAssigned c && !opcStream c && opcMemClass c

theorem opcAssigned_lt {c : Nat} (h : opcAssigned c = true) : c < 2 ^ 9 := by
  simp only [opcAssigned, Bool.or_eq_true, Bool.and_eq_true, decide_eq_true_eq, beq_iff_eq] at h
  omega

theorem decodeWord_of_decodeFields {len : Len} {w : Nat} {i : Instr} (coded : w % 4 = len.code) (inside : w < 2 ^ (8 * len.bytes))
    (known : opcAssigned (opcOf w) = true) (read : decodeFields len w = some i) (wf : i.wf = true) :
    decodeWord len.bytes w = .ok (i, len.bytes) := by
  have whole : ¬ len.bytes < 8 := by cases len <;> decide
  simp only [decodeWord, whole, coded, Laws.ofCode_code, Nat.lt_irrefl, known, Nat.mod_eq_of_lt inside, read, wf, Bool.not_true,
    Bool.false_eq_true, if_false, if_true]

section
variable {i : Instr} {o : Ops} {c m : Nat} (hm : m < 2 ^ 9)
include hm

theorem decodeWord_base (short : o.Short) (known : opcBase c = true) (read : ofOpcBase c m o = some i) (wf : i.wf = true) :
    decodeWord o.len.bytes (o.word c m) = .ok (i, o.len.bytes) := by
  simp only [opcBase, Bool.and_eq_true, Bool.not_eq_true'] at known
  obtain ⟨⟨assigned, vector⟩, plain⟩ := known
  have hc := opcAssigned_lt assigned
  have opc : opcOf (o.word c m) = c := by rw [Ops.word_eq_pack, opcOf_pack o hc]
  have modifier : bitField 63 55 (o.word c m) = m := by rw [Ops.word_eq_pack, modifier_pack o hc hm]
  have fields : Ops.ofBits o.len (o.word c m) = some o := by rw [Ops.word_eq_pack, Ops.ofBits_pack o hc hm]
  refine decodeWord_of_decodeFields (Laws.word_mod o c m) (o.word_lt hc hm short) (by rw [opc, assigned]) ?_ wf
  simp only [decodeFields, opc, modifier, fields, vector, plain, Bool.false_eq_true, if_false]
  exact read

theorem decodeWord_mem {x : MemX} (short : o.Short) (default : o.len ≠ .w128 → x = .default) (known : opcMem c = true)
    (read : ofOpcMem c m o x = some i) (wf : i.wf = true) :
    decodeWord o.len.bytes (o.word c m + x.word o.len) = .ok (i, o.len.bytes) := by
  simp only [opcMem, Bool.and_eq_true, Bool.not_eq_true'] at known
  obtain ⟨⟨assigned, vector⟩, mem⟩ := known
  have hc := opcAssigned_lt assigned
  have opc : opcOf (o.word c m + x.word o.len) = c := by rw [Ops.word_add_eq_pack, opcOf_pack o hc]
  have modifier : bitField 63 55 (o.word c m + x.word o.len) = m := by rw [Ops.word_add_eq_pack, modifier_pack o hc hm]
  have fields : Ops.ofBits o.len (o.word c m + x.word o.len) = some o := by rw [Ops.word_add_eq_pack, Ops.ofBits_pack o hc hm]
  have xfields : MemX.ofBits o.len (o.word c m + x.word o.len) = some x := by
    rw [Ops.word_add_eq_pack, MemX.ofBits_pack o x hc hm default]
  have coded : (o.word c m + x.word o.len) % 4 = o.len.code := by
    rw [Nat.add_mod, Laws.word_mod, Laws.xword_mod, Nat.add_zero, Nat.mod_eq_of_lt (Laws.code_lt _)]
  refine decodeWord_of_decodeFields coded (o.word_add_lt x hc hm short) (by rw [opc, assigned]) ?_ wf
  simp only [decodeFields, opc, modifier, fields, xfields, vector, mem, Bool.false_eq_true, if_false, if_true, Option.bind_some]
  exact read

theorem decodeWord_stream {o : SOps} (assigned : opcAssigned c = true) (stream : opcStream c = true) (read : ofOpcStream c m o = some i)
    (wf : i.wf = true) : decodeWord 16 (o.word c m) = .ok (i, 16) := by
  have hc := opcAssigned_lt assigned
  have opc : opcOf (o.word c m) = c := o.opcOf_word hc
  refine decodeWord_of_decodeFields (len := .w128) (Laws.sword_mod o c m) (o.word_lt hc hm) (by rw [opc, assigned]) ?_ wf
  simp only [decodeFields, opc, o.modifier_word hc hm, o.ofBits_word hc hm, stream, if_true, Option.bind_some]
  exact read

end

/-! ## Modifiers

Each reader of the nine modifier bits gives back what the encoder put there: the bits fit, and the reader answers the instruction
with the values that were encoded. -/

theorem mOnly_of_clear {m mask : Nat} (clear : m &&& (0x1FF ^^^ mask) = 0) (i : Option Instr) : mOnly m mask i = i := if_pos clear

/-- The bits of M that may be set are the low ones, and no other is. -/
theorem mOnly_of_lt {m mask : Nat} (n : Nat) (low : mask = 2 ^ n - 1) (nine : n ≤ 9) (h : m < 2 ^ n) (i : Option Instr) :
    mOnly m mask i = i := by
  refine mOnly_of_clear (Nat.eq_of_testBit_eq fun k => ?_) i
  have full : 0x1FF = 2 ^ 9 - 1 := rfl
  rw [Nat.testBit_and, Nat.testBit_xor, full, low, Nat.testBit_two_pow_sub_one, Nat.testBit_two_pow_sub_one, Nat.zero_testBit]
  by_cases below : k < n
  · simp [below, below.trans_le nine]
  · simp [Nat.testBit_lt_two_pow (h.trans_le (Nat.pow_le_pow_right (by decide) (Nat.not_lt.1 below)))]

theorem ofNat_field {n : Nat} (b : BitVec n) : BitVec.ofNat n b.toNat = b := by rw [BitVec.ofNat_toNat, BitVec.setWidth_eq]

theorem toNat_lt_nine {n : Nat} (b : BitVec n) (nine : n ≤ 9) : b.toNat < 2 ^ 9 :=
  b.isLt.trans_le (Nat.pow_le_pow_right (by decide) nine)

/-! ### Codes -/

theorem IntTy.ofCode_code (t : IntTy) : IntTy.ofCode t.code = some t := by cases t <;> rfl
theorem Rnd.ofCode_code (r : Rnd) : Rnd.ofCode r.code = some r := by cases r <;> rfl
theorem Rnd.code_lt (r : Rnd) : r.code < 2 ^ 3 := by cases r <;> decide
theorem CmpOp.ofCode_code (op : CmpOp) : CmpOp.ofCode op.code = op := by cases op <;> rfl
theorem CmpOp.code_lt (op : CmpOp) : op.code < 2 ^ 2 := by cases op <;> decide
theorem Cmp.ofCode_code (c : Cmp) : Cmp.ofCode c.code = c := by cases c <;> rfl
theorem Cmp.code_lt (c : Cmp) : c.code < 2 ^ 3 := by cases c <;> decide
theorem MTy.width_lt (t : MTy) : t.width < 2 ^ 4 := by cases t <;> decide

/-! ### Integer words (Tables 10-1, 10-6) -/

theorem m0_reads (i : Instr) : 0 < 2 ^ 9 ∧ m0 0 i = some i := ⟨by decide, rfl⟩

theorem mInt_reads (ty : IntTy) (sat : Bool) (f : IntTy → Bool → Instr) :
    mInt' ty sat < 2 ^ 9 ∧ mInt (mInt' ty sat) f = some (f ty sat) := by
  cases ty <;> cases sat <;> exact ⟨by decide, rfl⟩

theorem mTy_reads (ty : IntTy) (f : IntTy → Instr) : mInt' ty false < 2 ^ 9 ∧ mTy (mInt' ty false) f = some (f ty) := by
  cases ty <;> exact ⟨by decide, rfl⟩

theorem mTop_reads (b : Bool) (f : Bool → Instr) : bitAt b 8 < 2 ^ 9 ∧ mTop (bitAt b 8) f = some (f b) := by
  cases b <;> exact ⟨by decide, rfl⟩

/-- A flag in the lowest bit. -/
theorem flag_reads (b : Bool) (f : Bool → Instr) :
    bitAt b 0 < 2 ^ 9 ∧ mOnly (bitAt b 0) 0x1 (some (f (bitAt b 0 == 1))) = some (f b) := by
  cases b <;> exact ⟨by decide, rfl⟩

theorem mPred'_fields : ∀ (neg : Bool) (q : BitVec 3), mPred' neg q < 2 ^ 9 ∧ mPred' neg q &&& (0x1FF ^^^ 0xF) = 0 ∧
    (bitField 3 3 (mPred' neg q) == 1) = neg ∧ BitVec.ofNat 3 (bitField 2 0 (mPred' neg q)) = q := by decide

/-- A predicate and its negation, and a slot and SATF, have the same places. -/
theorem mPred_reads (neg : Bool) (q : BitVec 3) (f : Bool → BitVec 3 → Instr) :
    mPred' neg q < 2 ^ 9 ∧ mPred (mPred' neg q) f = some (f neg q) := by
  obtain ⟨lt, clear, negated, named⟩ := mPred'_fields neg q
  exact ⟨lt, by rw [mPred, mOnly_of_clear clear, negated, named]⟩

theorem mMul_reads (slot : BitVec 3) (satf : Bool) (f : BitVec 3 → Bool → Instr) :
    mMul' slot satf < 2 ^ 9 ∧ mMul (mMul' slot satf) f = some (f slot satf) := mPred_reads satf slot fun b q => f q b

/-- All of the modifier is one number. -/
theorem number_reads {n mask : Nat} (low : mask = 2 ^ n - 1) (nine : n ≤ 9) (b : BitVec n) (f : BitVec n → Instr) :
    b.toNat < 2 ^ 9 ∧ mOnly b.toNat mask (some (f (BitVec.ofNat n b.toNat))) = some (f b) :=
  ⟨toNat_lt_nine b nine, by rw [mOnly_of_lt n low nine b.isLt, ofNat_field]⟩

theorem mSlot_reads (slot : BitVec 3) (f : BitVec 3 → Instr) : slot.toNat < 2 ^ 9 ∧ mSlot slot.toNat f = some (f slot) := by
  have whole : bitField 2 0 slot.toNat = slot.toNat := by simp [bitField, Nat.mod_eq_of_lt slot.isLt]
  exact ⟨toNat_lt_nine slot (by decide), by rw [mSlot, mOnly_of_lt (mask := 0x7) 3 rfl (by decide) slot.isLt, whole, ofNat_field]⟩

theorem mCmp'_eq_pack (op : CmpOp) (qn : Bool) (q : BitVec 3) (c : Cmp) :
    mCmp' op qn q c = pack [(3, c.code), (3, q.toNat), (1, qn.toNat), (2, op.code)] := by
  simp only [mCmp', pack, bitAt_eq]; ring

theorem mCmp_reads (op : CmpOp) (qn : Bool) (q : BitVec 3) (c : Cmp) (f : CmpOp → Bool → BitVec 3 → Cmp → Instr) :
    mCmp' op qn q c < 2 ^ 9 ∧ mCmp (mCmp' op qn q c) f = some (f op qn q c) := by
  rw [mCmp'_eq_pack]
  refine ⟨pack_lt ?_ rfl, ?_⟩
  · simp only [List.forall_mem_cons, Cmp.code_lt, BitVec.isLt, toNat_lt_bit, CmpOp.code_lt, List.not_mem_nil, false_implies, implies_true,
      and_true]
  · simp only [mCmp, bitField_pack_tail, bitField_pack_head, Cmp.code_lt, BitVec.isLt, toNat_lt_bit, CmpOp.code_lt, toNat_beq_one,
      ofNat_field, CmpOp.ofCode_code, Cmp.ofCode_code, Nat.reduceSub, Nat.reduceLeDiff, Nat.reduceAdd]

/-- Three predicate operands. -/
theorem plop_reads (pa pb pc : BitVec 3) (f : BitVec 3 → BitVec 3 → BitVec 3 → Instr) :
    let m := pc.toNat + pb.toNat * 8 + pa.toNat * 64
    m < 2 ^ 9 ∧ some (f (BitVec.ofNat 3 (bitField 8 6 m)) (BitVec.ofNat 3 (bitField 5 3 m)) (BitVec.ofNat 3 (bitField 2 0 m))) =
      some (f pa pb pc) := by
  intro m
  have packed : m = pack [(3, pc.toNat), (3, pb.toNat), (3, pa.toNat)] := by simp only [m, pack]; ring
  rw [packed]
  refine ⟨pack_lt ?_ rfl, ?_⟩
  · simp only [List.forall_mem_cons, BitVec.isLt, List.not_mem_nil, false_implies, implies_true, and_true]
  · simp only [bitField_pack_tail, bitField_pack_head, BitVec.isLt, ofNat_field, Nat.reduceSub, Nat.reduceLeDiff, Nat.reduceAdd]

/-- IABS and INEG, whose type is always .I32. -/
theorem i32_reads (sat : Bool) (f : Bool → Instr) : mInt' .i32 sat < 2 ^ 9 ∧
    (if bitField 6 3 (mInt' .i32 sat) = 3 then mOnly (mInt' .i32 sat) 0xF8 (some (f (bitField 7 7 (mInt' .i32 sat) == 1))) else none) =
      some (f sat) := by
  cases sat <;> exact ⟨by decide, rfl⟩

theorem iadd64_reads (ty : IntTy) (sat w : Bool) (f : IntTy → Bool → Bool → Instr) :
    let m := mInt' ty sat + bitAt w 8
    m < 2 ^ 9 ∧ mOnly m 0x1F8 ((IntTy.ofCode (bitField 6 3 m)).map fun t => f t (bitField 7 7 m == 1) (bitField 8 8 m == 1)) =
      some (f ty sat w) := by
  cases ty <;> cases sat <;> cases w <;> exact ⟨by decide, rfl⟩

theorem lea_fields (ty : IntTy) : ∀ sh : BitVec 3, mInt' ty false + sh.toNat < 2 ^ 7 ∧ bitField 6 3 (mInt' ty false + sh.toNat) = ty.code ∧
    BitVec.ofNat 3 (bitField 2 0 (mInt' ty false + sh.toNat)) = sh := by
  cases ty <;> decide

theorem lea_reads (ty : IntTy) (sh : BitVec 3) (f : IntTy → BitVec 3 → Instr) :
    let m := mInt' ty false + sh.toNat
    m < 2 ^ 9 ∧ mOnly m 0x7F ((IntTy.ofCode (bitField 6 3 m)).map fun t => f t (BitVec.ofNat 3 (bitField 2 0 m))) = some (f ty sh) := by
  intro m
  obtain ⟨lt, typed, scaled⟩ := lea_fields ty sh
  exact ⟨lt.trans (by decide), by rw [mOnly_of_lt (mask := 0x7F) 7 rfl (by decide) lt, typed, scaled, IntTy.ofCode_code]; rfl⟩

/-! ### Lane words -/

theorem mLxch'_fields : ∀ w pv : BitVec 3, mLxch' w pv < 2 ^ 9 ∧ mLxch' w pv &&& (0x1FF ^^^ 0x77) = 0 ∧
    BitVec.ofNat 3 (bitField 2 0 (mLxch' w pv)) = w ∧ BitVec.ofNat 3 (bitField 6 4 (mLxch' w pv)) = pv := by decide

theorem mLxch_reads (w pv : BitVec 3) (f : BitVec 3 → BitVec 3 → Instr) :
    mLxch' w pv < 2 ^ 9 ∧ mLxch (mLxch' w pv) f = some (f w pv) := by
  obtain ⟨lt, clear, kind, valid⟩ := mLxch'_fields w pv
  exact ⟨lt, by rw [mLxch, mOnly_of_clear clear, kind, valid]⟩

/-- LXCH.S, whose w is 5. -/
theorem lxchS_reads (pv : BitVec 3) (f : BitVec 3 → Instr) : mLxch' 5 pv < 2 ^ 9 ∧
    (if bitField 2 0 (mLxch' 5 pv) = 5 then mOnly (mLxch' 5 pv) 0x77 (some (f (BitVec.ofNat 3 (bitField 6 4 (mLxch' 5 pv))))) else none) =
      some (f pv) := by
  have five : ∀ pv : BitVec 3, bitField 2 0 (mLxch' 5 pv) = 5 := by decide
  obtain ⟨lt, clear, -, valid⟩ := mLxch'_fields 5 pv
  exact ⟨lt, by rw [if_pos (five pv), mOnly_of_clear clear, valid]⟩

theorem lgath_fields : ∀ (rank neg : Bool) (q : BitVec 3), mPred' neg q + bitAt rank 4 < 2 ^ 5 ∧
    (bitField 4 4 (mPred' neg q + bitAt rank 4) == 1) = rank ∧ (bitField 3 3 (mPred' neg q + bitAt rank 4) == 1) = neg ∧
    BitVec.ofNat 3 (bitField 2 0 (mPred' neg q + bitAt rank 4)) = q := by decide

theorem lgathV_reads (rank neg : Bool) (q : BitVec 3) (f : Bool → Bool → BitVec 3 → Instr) :
    let m := mPred' neg q + bitAt rank 4
    m < 2 ^ 9 ∧ mOnly m 0x1F (some (f (bitField 4 4 m == 1) (bitField 3 3 m == 1) (BitVec.ofNat 3 (bitField 2 0 m)))) =
      some (f rank neg q) := by
  intro m
  obtain ⟨lt, ranked, negated, named⟩ := lgath_fields rank neg q
  exact ⟨lt.trans (by decide), by rw [mOnly_of_lt (mask := 0x1F) 5 rfl (by decide) lt, ranked, negated, named]⟩

theorem redl_reads (op : RedOp) (ty : IntTy) (sat : Bool) (f : RedOp → IntTy → Bool → Instr) :
    let m := op.code + mInt' ty sat
    m < 2 ^ 9 ∧ mOnly m 0xFF (match RedOp.ofCode (bitField 2 0 m), IntTy.ofCode (bitField 6 3 m) with
      | some op, some t => some (f op t (bitField 7 7 m == 1))
      | _, _ => none) = some (f op ty sat) := by
  cases op <;> cases ty <;> cases sat <;> exact ⟨by decide, rfl⟩

theorem redlF_reads (op : FRedOp) (r : Rnd) (f : FRedOp → Rnd → Instr) :
    let m := r.code + op.code * 8
    m < 2 ^ 9 ∧ mOnly m 0x1F (match FRedOp.ofCode (bitField 4 3 m), Rnd.ofCode (bitField 2 0 m) with
      | some op, some r => some (f op r)
      | _, _ => none) = some (f op r) := by
  cases op <;> cases r <;> exact ⟨by decide, rfl⟩

/-! ### Floating-point words (Tables 11-3, 11-6, 11-9) -/

theorem FMod.bits_eq_pack (k : FMod) : k.bits = pack [(3, k.rnd.code), (1, k.aa.toNat), (1, k.ab.toNat), (1, k.na.toNat), (1, k.nb.toNat),
    (1, k.nc.toNat), (1, k.satn.toNat)] := by
  simp only [FMod.bits, pack, bitAt_eq]; ring

theorem mF_reads (k : FMod) (f : FMod → Instr) : k.bits < 2 ^ 9 ∧ mF k.bits f = some (f k) := by
  rw [FMod.bits_eq_pack]
  refine ⟨pack_lt ?_ rfl, ?_⟩
  · simp only [List.forall_mem_cons, Rnd.code_lt, toNat_lt_bit, List.not_mem_nil, false_implies, implies_true, and_true]
  · simp only [mF, bitField_pack_tail, bitField_pack_head, Rnd.code_lt, toNat_lt_bit, toNat_beq_one, Rnd.ofCode_code, Option.map_some,
      Nat.reduceSub, Nat.reduceLeDiff, Nat.reduceAdd]

theorem fclassP_reads (ty : FTy) (f : FTy → Instr) :
    ty.code * 128 < 2 ^ 9 ∧ mOnly (ty.code * 128) 0x180 ((FTy.ofCode (bitField 8 7 (ty.code * 128))).map f) = some (f ty) := by
  cases ty <;> exact ⟨by decide, rfl⟩

theorem mTr_reads (na aa : Bool) (f : Bool → Bool → Instr) : trBits na aa < 2 ^ 9 ∧ mTr (trBits na aa) f = some (f na aa) := by
  cases na <;> cases aa <;> exact ⟨by decide, rfl⟩

theorem mCvt_reads (src : CvtTy) (hi sat : Bool) (r : Rnd) (f : CvtTy → Bool → Bool → Rnd → Instr) :
    let m := r.code + bitAt sat 3 + src.code * 16 + bitAt hi 8
    m < 2 ^ 9 ∧ mCvt m f = some (f src hi sat r) := by
  cases src <;> cases hi <;> cases sat <;> cases r <;> exact ⟨by decide, rfl⟩

/-! ### Memory words (Tables 12-1, 12-5, 14-2) -/

theorem MMod.bits_eq_pack (k : MMod) : k.bits = pack [(3, k.sc.toNat), (4, k.ty.width), (1, k.xy.toNat), (1, k.p.toNat)] := by
  simp only [MMod.bits, pack, bitAt_eq]; ring

theorem MMod.bits_lt (k : MMod) : k.bits < 2 ^ 9 := by
  rw [MMod.bits_eq_pack]
  refine pack_lt ?_ rfl
  simp only [List.forall_mem_cons, BitVec.isLt, MTy.width_lt, toNat_lt_bit, List.not_mem_nil, false_implies, implies_true, and_true]

theorem MMod.fields_bits (k : MMod) : (bitField 8 8 k.bits == 1) = k.p ∧ (bitField 7 7 k.bits == 1) = k.xy ∧
    bitField 6 3 k.bits = k.ty.width ∧ BitVec.ofNat 3 (bitField 2 0 k.bits) = k.sc := by
  simp only [MMod.bits_eq_pack, bitField_pack_tail, bitField_pack_head, BitVec.isLt, MTy.width_lt, toNat_lt_bit, toNat_beq_one, ofNat_field,
    Nat.reduceSub, Nat.reduceLeDiff, Nat.reduceAdd, and_self]

/-- The width that an unmarked opcode reads from its modifier. -/
theorem mMem_unmarked_reads (k : MMod) (unmarked : MTy.ofWidth k.ty.width = some k.ty) (f : MMod → Instr) :
    k.bits < 2 ^ 9 ∧ mMem k.bits none f = some (f k) := by
  obtain ⟨pair, coords, wide, scale⟩ := k.fields_bits
  exact ⟨k.bits_lt, by simp only [mMem, pair, coords, wide, scale, unmarked, Option.map_some]⟩

/-- The width that the opcode gives. -/
theorem mMem_marked_reads (k : MMod) (marked : k.ty.width = 0) (f : MMod → Instr) :
    k.bits < 2 ^ 9 ∧ mMem k.bits (some k.ty) f = some (f k) := by
  obtain ⟨pair, coords, wide, scale⟩ := k.fields_bits
  exact ⟨k.bits_lt, by simp only [mMem, pair, coords, wide, scale, marked, if_true]⟩

theorem fencex_reads (p q : Path) (f : Path → Path → Instr) :
    let m := q.code + p.code * 8
    m < 2 ^ 9 ∧ mOnly m 0x3F (match Path.ofCode (bitField 5 3 m), Path.ofCode (bitField 2 0 m) with
      | some p, some q => some (f p q)
      | _, _ => none) = some (f p q) := by
  cases p <;> cases q <;> exact ⟨by decide, rfl⟩

theorem mAt_reads (p : Bool) (ord : Ord3) (sgn : Bool) (op : AtOp) (f : Bool → Ord3 → Bool → AtOp → Instr) :
    mAt' p ord sgn op < 2 ^ 9 ∧ mAt (mAt' p ord sgn op) f = some (f p ord sgn op) := by
  cases p <;> cases ord <;> cases sgn <;> cases op <;> exact ⟨by decide, rfl⟩

theorem mAtCas_reads (p : Bool) (ord : Ord3) (f : Bool → Ord3 → Instr) :
    ord.code * 64 + bitAt p 8 < 2 ^ 9 ∧ mAtCas (ord.code * 64 + bitAt p 8) f = some (f p ord) := by
  cases p <;> cases ord <;> exact ⟨by decide, rfl⟩

theorem mAtF_reads (p : Bool) (ord : Ord3) (ft : FTy) (op : FRedOp) (f : Bool → Ord3 → FTy → FRedOp → Instr) :
    mAtF' p ord ft op < 2 ^ 9 ∧ mAtF (mAtF' p ord ft op) f = some (f p ord ft op) := by
  cases p <;> cases ord <;> cases ft <;> cases op <;> exact ⟨by decide, rfl⟩

/-- Atomics whose ORD is 00. -/
theorem noOrd_mAt_reads (p sgn : Bool) (op : AtOp) (f : Bool → Bool → AtOp → Instr) :
    mAt' p .none sgn op < 2 ^ 9 ∧ noOrd (mAt' p .none sgn op) (mAt (mAt' p .none sgn op) fun p _ => f p) = some (f p sgn op) := by
  cases p <;> cases sgn <;> cases op <;> exact ⟨by decide, rfl⟩

theorem noOrd_mAtCas_reads (p : Bool) (f : Bool → Instr) :
    bitAt p 8 < 2 ^ 9 ∧ noOrd (bitAt p 8) (mAtCas (bitAt p 8) fun p _ => f p) = some (f p) := by
  cases p <;> exact ⟨by decide, rfl⟩

theorem noOrd_mAtF_reads (p : Bool) (ft : FTy) (op : FRedOp) (f : Bool → FTy → FRedOp → Instr) :
    mAtF' p .none ft op < 2 ^ 9 ∧ noOrd (mAtF' p .none ft op) (mAtF (mAtF' p .none ft op) fun p _ => f p) = some (f p ft op) := by
  cases p <;> cases ft <;> cases op <;> exact ⟨by decide, rfl⟩

theorem rowbook_fields : ∀ (p : Bool) (q sc : BitVec 3), sc.toNat + q.toNat * 8 + bitAt p 8 < 2 ^ 9 ∧
    (sc.toNat + q.toNat * 8 + bitAt p 8) &&& (0x1FF ^^^ 0x13F) = 0 ∧ (bitField 8 8 (sc.toNat + q.toNat * 8 + bitAt p 8) == 1) = p ∧
    BitVec.ofNat 3 (bitField 5 3 (sc.toNat + q.toNat * 8 + bitAt p 8)) = q ∧
    BitVec.ofNat 3 (bitField 2 0 (sc.toNat + q.toNat * 8 + bitAt p 8)) = sc := by decide

theorem rowbook_reads (p : Bool) (q sc : BitVec 3) (f : Bool → BitVec 3 → BitVec 3 → Instr) :
    let m := sc.toNat + q.toNat * 8 + bitAt p 8
    m < 2 ^ 9 ∧ mOnly m 0x13F (some (f (bitField 8 8 m == 1) (BitVec.ofNat 3 (bitField 5 3 m)) (BitVec.ofNat 3 (bitField 2 0 m)))) =
      some (f p q sc) := by
  intro m
  obtain ⟨lt, clear, pair, named, scale⟩ := rowbook_fields p q sc
  exact ⟨lt, by rw [mOnly_of_clear clear, pair, named, scale]⟩

theorem rowjoin_reads (q : BitVec 3) (f : BitVec 3 → Instr) :
    q.toNat * 8 < 2 ^ 9 ∧ mOnly (q.toNat * 8) 0x38 (some (f (BitVec.ofNat 3 (bitField 5 3 (q.toNat * 8))))) = some (f q) := by
  have fields : ∀ q : BitVec 3, q.toNat * 8 < 2 ^ 9 ∧ q.toNat * 8 &&& (0x1FF ^^^ 0x38) = 0 ∧
      BitVec.ofNat 3 (bitField 5 3 (q.toNat * 8)) = q := by decide
  obtain ⟨lt, clear, named⟩ := fields q
  exact ⟨lt, by rw [mOnly_of_clear clear, named]⟩

theorem satom_reads (p xy w sgn : Bool) (op : SatOp) (f : Bool → Bool → Bool → Bool → SatOp → Instr) :
    let m := op.code + bitAt sgn 3 + bitAt w 4 + bitAt xy 7 + bitAt p 8
    m < 2 ^ 9 ∧ mOnly m 0x19F ((if bitField 2 0 m = 7 then some SatOp.fadd else (AtOp.ofCode (bitField 2 0 m)).map .int).map
      fun op => f (bitField 8 8 m == 1) (bitField 7 7 m == 1) (bitField 4 4 m == 1) (bitField 3 3 m == 1) op) = some (f p xy w sgn op) := by
  rcases op with op | _
  · cases op <;> cases p <;> cases xy <;> cases w <;> cases sgn <;> exact ⟨by decide, rfl⟩
  · cases p <;> cases xy <;> cases w <;> cases sgn <;> exact ⟨by decide, rfl⟩

theorem satomCas_reads (p w : Bool) (f : Bool → Bool → Instr) :
    let m := bitAt w 4 + bitAt p 8
    m < 2 ^ 9 ∧ mOnly m 0x110 (some (f (bitField 8 8 m == 1) (bitField 4 4 m == 1))) = some (f p w) := by
  cases p <;> cases w <;> exact ⟨by decide, rfl⟩

theorem cpBits_eq_pack (ch : BitVec 3) (t : BitVec 6) : cpBits ch t = pack [(6, t.toNat), (3, ch.toNat)] := by
  simp only [cpBits, pack]; ring

theorem mCp_reads (ch : BitVec 3) (t : BitVec 6) (f : BitVec 3 → BitVec 6 → Instr) :
    cpBits ch t < 2 ^ 9 ∧ mCp (cpBits ch t) f = some (f ch t) := by
  rw [cpBits_eq_pack]
  refine ⟨pack_lt ?_ rfl, ?_⟩
  · simp only [List.forall_mem_cons, BitVec.isLt, List.not_mem_nil, false_implies, implies_true, and_true]
  · simp only [mCp, bitField_pack_tail, bitField_pack_head, BitVec.isLt, ofNat_field, Nat.reduceSub, Nat.reduceLeDiff, Nat.reduceAdd]

/-! ### Graphics and stream words -/

theorem interp_reads (k : InterpMode) (c : Bool) (f : InterpMode → Bool → Instr) :
    let m := k.code + bitAt c 2
    m < 2 ^ 9 ∧ mOnly m 0x7 ((InterpMode.ofCode (bitField 1 0 m)).map fun k => f k (bitField 2 2 m == 1)) = some (f k c) := by
  cases k <;> cases c <;> exact ⟨by decide, rfl⟩

theorem mldV_reads (b : Bool) (f : Bool → Instr) :
    bitAt b 7 < 2 ^ 9 ∧ mOnly (bitAt b 7) 0x80 (some (f (bitField 7 7 (bitAt b 7) == 1))) = some (f b) := by
  cases b <;> exact ⟨by decide, rfl⟩

theorem mMst'_eq_pack (tA tB : BitVec 3) (scl satf : Bool) :
    mMst' tA tB scl satf = pack [(3, tA.toNat), (3, tB.toNat), (1, scl.toNat), (1, satf.toNat)] := by
  simp only [mMst', pack, bitAt_eq]; ring

theorem mMst_reads (tA tB : BitVec 3) (scl satf : Bool) (f : BitVec 3 → BitVec 3 → Bool → Bool → Instr) :
    mMst' tA tB scl satf < 2 ^ 9 ∧ mMst (mMst' tA tB scl satf) f = some (f tA tB scl satf) := by
  have lt : mMst' tA tB scl satf < 2 ^ 8 := by
    rw [mMst'_eq_pack]
    refine pack_lt ?_ rfl
    simp only [List.forall_mem_cons, BitVec.isLt, toNat_lt_bit, List.not_mem_nil, false_implies, implies_true, and_true]
  refine ⟨lt.trans (by decide), ?_⟩
  rw [mMst, mOnly_of_lt (mask := 0xFF) 8 rfl (by decide) lt, mMst'_eq_pack]
  simp only [bitField_pack_tail, bitField_pack_head, BitVec.isLt, toNat_lt_bit, toNat_beq_one, ofNat_field, Nat.reduceSub,
    Nat.reduceLeDiff, Nat.reduceAdd]

/-! ## Every encoded instruction is read back -/

/-- The base word and the X word of an instruction that a base word carries; the defaults where its word has no X (R157). -/
def Instr.layout : Instr → Option (Ops × MemX)
  | .mov o _ | .movi o _ | .sel o _ _ _ | .iadd o _ _ _ | .isub o _ _ _ | .iabs o _ | .ineg o _ | .imin o _ _ | .imax o _ _
  | .iadd64 o _ _ _ _ | .imul o _ _ _ | .imulh o _ | .imad o _ _ _ | .imadw o _ _ | .and o _ | .or o _ | .xor o _ | .not o
  | .lgc3 o _ | .shl o _ _ | .shr o _ _ | .sar o _ | .rot o | .fshf o _ | .bfe o _ | .bfi o | .popc o | .clz o | .brev o
  | .bysel o | .lea o _ _ | .isetp o _ _ _ _ _ | .fsetp o _ _ _ _ _ | .iaddP o _ | .isubP o _ | .imulP o _ | .lgc3P o _
  | .plop o _ _ _ | .pmov o | .pmovP o _ | .bra o | .braAny o _ _ | .braAll o _ _ | .brx o | .call o | .callx o | .ret o | .exit o
  | .conv o | .nop o | .pause o | .sread o _ _ | .sreadW o _ | .swrite o _ | .launch o | .prog o | .lxchIdx o _ _ | .lxchRot o _ _
  | .lxchRev o _ _ | .lxchXor o _ _ | .lxchS o _ | .lqryAll o _ _ | .lqryAny o _ _ | .lqrySame o _ _ | .lgath o _ _ _ _
  | .match_ o _ | .redl o _ _ _ _ | .redlF o _ _ | .fadd o _ _ _ | .fsub o _ _ _ | .fmul o _ _ _ | .ffma o _ _ _ | .fmin o _ _ _
  | .fmax o _ _ _ | .fdp2 o _ _ | .frnd o _ _ _ | .fclass o _ | .fclassP o _ | .frcp o _ _ _ | .frsq o _ _ _ | .fsqrt o _ _ _
  | .fexp2 o _ _ _ | .flog2 o _ _ _ | .fsin o _ _ _ | .fcos o _ _ _ | .frcpIeee o _ | .fsqrtIeee o _ | .cvt o _ _ _ _ _ _
  | .cvq2 o _ _ | .cvq4 o _ _ | .cvq8 o _ | .cvx2 o _ | .cvx4 o _ | .cvx8 o _ | .msvtx o | .msvtxB128 o | .msprim o | .mscount o
  | .interp o _ _ | .derivX o _ | .derivY o _ | .fragexp o | .fragexpZ o | .fragkill o | .rocbeg o | .rocend o | .tex o | .texL o
  | .texG o | .texld o | .texq o | .mput o _ | .trap o | .trapLegacy o | .bkpt o | .rtt o | .haltt o | .gbread o _ | .pkrd o
  | .pkwr o | .resume o | .resumeSkip o | .killt o | .killtG o => some (o, .default)
  | .ldg o _ x | .stg o _ x | .ldp o _ x | .stp o _ x | .lds o _ x | .sts o _ x | .ldx o _ x | .stx o _ x | .ldf o _ x
  | .stf o _ x | .ldw o _ x | .stw o _ x | .ldk o _ x | .ldsS o _ x | .pfg o _ x | .stew o _ x | .atomg o _ _ _ _ _ x
  | .atomgCas o _ _ _ x | .atomgF o _ _ _ _ x | .redg o _ _ _ _ x | .redgF o _ _ _ x | .atoms o _ _ x | .atomx o _ _ x
  | .lda o _ x | .stl o _ x | .fence o x | .fencex o _ _ x | .barrive o _ x | .bwait o _ x | .bsync o _ x | .barrd o _ x
  | .binit o _ x | .balloc o x | .bfree o x | .rowbook o _ _ _ x | .rowjoin o _ x | .rowfree o x | .tlbiPage o x | .tlbiSpace o x
  | .tlbiAll o x | .satom o _ _ _ _ _ x | .satomCas o _ _ x | .cpgather o _ _ x | .cpscatter o _ _ x | .cpscatterAdd o _ _ x
  | .cpwait o _ x | .cptest o _ x | .cpclr o _ x | .cpsrcw o x => some (o, x)
  | _ => none

/-- The decoder's tables read `i` back from the opcode and the modifier of its word. -/
inductive Instr.Reads (i : Instr) : Option EncWord → Prop
  | none : Reads i none
  | base {o : Ops} {c m : Nat} (layout : i.layout = some (o, .default)) (known : opcBase c = true)
      (read : m < 2 ^ 9 ∧ ofOpcBase c m o = some i) : Reads i (encO o c m)
  | mem {o : Ops} {x : MemX} {c m : Nat} (layout : i.layout = some (o, x)) (known : opcMem c = true)
      (read : m < 2 ^ 9 ∧ ofOpcMem c m o x = some i) : Reads i (encX o x c m)
  | stream {o : SOps} {c m : Nat} (assigned : opcAssigned c = true) (stream : opcStream c = true)
      (read : m < 2 ^ 9 ∧ ofOpcStream c m o = some i) : Reads i (encS o c m)

/-- An access whose width is in its modifier, or in its opcode: .B64 in the next, .B128 in the one after (Table 12-1). -/
theorem Instr.Reads.access {f : MMod → Instr} {o : Ops} {x : MemX} (k : MMod) (c : Nat) (layout : (f k).layout = some (o, x))
    (known : (opcMem c && opcMem (c + 1) && opcMem (c + 2)) = true) (lines : ∀ m, ofOpcMem c m o x = mMem m Option.none f ∧
      ofOpcMem (c + 1) m o x = mMem m (some .b64) f ∧ ofOpcMem (c + 2) m o x = mMem m (some .b128) f) :
    (f k).Reads (encX o x (c + k.ty.opc) k.bits) := by
  obtain ⟨unmarked, b64, b128⟩ := lines k.bits
  simp only [Bool.and_eq_true] at known
  obtain ⟨⟨known4, known8⟩, known16⟩ := known
  obtain ⟨p, xy, ty, sc⟩ := k
  cases ty with
  | b64 => exact .mem layout known8 (b64 ▸ mMem_marked_reads _ rfl f)
  | b128 => exact .mem layout known16 (b128 ▸ mMem_marked_reads _ rfl f)
  | b32 | i8 | i16 | n8 | n16 => exact .mem layout known4 (unmarked ▸ mMem_unmarked_reads _ rfl f)

/-- An atomic on a scratchpad: the five forms of Table 12-4 follow one another from the opcode of the 4 B integer form. -/
theorem Instr.Reads.scratchAtomic {f : Bool → AtKind → Instr} {o : Ops} {x : MemX} (p : Bool) (k : AtKind) (c : Nat)
    (layout : (f p k).layout = some (o, x)) (known : ∀ n ≤ 4, opcMem (c + n) = true) (lines : ∀ m,
      ofOpcMem c m o x = noOrd m (mAt m fun p _ sgn op => f p (.int false sgn op)) ∧
      ofOpcMem (c + 1) m o x = noOrd m (mAt m fun p _ sgn op => f p (.int true sgn op)) ∧
      ofOpcMem (c + 2) m o x = noOrd m (mAtCas m fun p _ => f p (.cas false)) ∧
      ofOpcMem (c + 3) m o x = noOrd m (mAtCas m fun p _ => f p (.cas true)) ∧
      ofOpcMem (c + 4) m o x = noOrd m (mAtF m fun p _ ft op => f p (.flt ft op))) :
    (f p k).Reads (encX o x (atEnc p k c).1 (atEnc p k c).2) := by
  obtain ⟨int4, int8, cas4, cas8, flt⟩ := lines (atEnc p k c).2
  cases k with
  | int w sgn op => cases w with
    | false => exact .mem layout (known 0 (by decide)) (int4 ▸ noOrd_mAt_reads p sgn op _)
    | true => exact .mem layout (known 1 (by decide)) (int8 ▸ noOrd_mAt_reads p sgn op _)
  | cas w => cases w with
    | false => exact .mem layout (known 2 (by decide)) (cas4 ▸ noOrd_mAtCas_reads p _)
    | true => exact .mem layout (known 3 (by decide)) (cas8 ▸ noOrd_mAtCas_reads p _)
  | flt ft op => exact .mem layout (known 4 (by decide)) (flt ▸ noOrd_mAtF_reads p ft op _)

/-- LDS.S has the widths of an unmarked opcode, and PFG the one width. -/
theorem ldsS_reads {o : Ops} {k : MMod} {x : MemX} (h : (Instr.ldsS o k x).wf = true) : (Instr.ldsS o k x).Reads (encode (.ldsS o k x)) := by
  have one : k.ty.regs = 1 := eq_of_beq (Bool.and_eq_true_iff.1 h).2
  have unmarked : MTy.ofWidth k.ty.width = some k.ty := by
    cases ht : k.ty with
    | b64 | b128 => rw [ht] at one; cases one
    | b32 | i8 | i16 | n8 | n16 => rfl
  exact .mem rfl rfl (mMem_unmarked_reads k unmarked fun k => .ldsS o k x)

theorem pfg_reads {o : Ops} {k : MMod} {x : MemX} (h : (Instr.pfg o k x).wf = true) : (Instr.pfg o k x).Reads (encode (.pfg o k x)) := by
  obtain ⟨rest, -⟩ := Bool.and_eq_true_iff.1 h
  obtain ⟨rest, -⟩ := Bool.and_eq_true_iff.1 rest
  have b32 : k.ty = .b32 := eq_of_beq (Bool.and_eq_true_iff.1 rest).2
  have marked := mMem_marked_reads k (by rw [b32]; rfl) fun k => .pfg o k x
  rw [b32] at marked
  exact .mem rfl rfl marked

/-- FSUB and FRND have an .S form of .F32 alone. -/
theorem sform_of_f32 {ty : FTy} {sc : Bool} (h : (!sc || ty == .f32) = true) : sc = false ∨ sc = true ∧ ty = .f32 := by
  cases sc with
  | false => exact .inl rfl
  | true => exact .inr ⟨rfl, eq_of_beq h⟩

/-- CVT.S makes four of the seven types. -/
theorem cvt_reads {o : Ops} {dst src : CvtTy} {sc hi sat : Bool} {r : Rnd} (h : (Instr.cvt o dst src sc hi sat r).wf = true) :
    (Instr.cvt o dst src sc hi sat r).Reads (encode (.cvt o dst src sc hi sat r)) := by
  have made := (Bool.and_eq_true_iff.1 h).2
  cases sc with
  | false => cases dst <;> exact .base rfl rfl (mCvt_reads src hi sat r _)
  | true => cases dst with
    | f32 | i32 | n32 | i64 => exact .base rfl rfl (mCvt_reads src hi sat r _)
    | f16 | bf16 | n64 => cases made

/-- LGATH.S gives no ranks. -/
theorem lgath_reads {o : Ops} {sc rank neg : Bool} {q : BitVec 3} (h : (Instr.lgath o sc rank neg q).wf = true) :
    (Instr.lgath o sc rank neg q).Reads (encode (.lgath o sc rank neg q)) := by
  have unranked := (Bool.and_eq_true_iff.1 h).2
  cases sc with
  | false => exact .base rfl rfl (lgathV_reads rank neg q _)
  | true => cases rank with
    | false => exact .base rfl rfl (mPred_reads neg q _)
    | true => cases unranked

/-- The word of a well-formed instruction, if it has one, is read back by the line of its opcode and the reader of its modifier. -/
theorem encode_reads {i : Instr} (h : i.wf = true) : i.Reads (encode i) := by
  cases i with
  | ldg o k x => exact .access (f := (.ldg o · x)) k 0x100 rfl rfl fun _ => ⟨rfl, rfl, rfl⟩
  | stg o k x => exact .access (f := (.stg o · x)) k 0x103 rfl rfl fun _ => ⟨rfl, rfl, rfl⟩
  | ldp o k x => exact .access (f := (.ldp o · x)) k 0x106 rfl rfl fun _ => ⟨rfl, rfl, rfl⟩
  | stp o k x => exact .access (f := (.stp o · x)) k 0x109 rfl rfl fun _ => ⟨rfl, rfl, rfl⟩
  | lds o k x => exact .access (f := (.lds o · x)) k 0x10C rfl rfl fun _ => ⟨rfl, rfl, rfl⟩
  | sts o k x => exact .access (f := (.sts o · x)) k 0x10F rfl rfl fun _ => ⟨rfl, rfl, rfl⟩
  | ldx o k x => exact .access (f := (.ldx o · x)) k 0x112 rfl rfl fun _ => ⟨rfl, rfl, rfl⟩
  | stx o k x => exact .access (f := (.stx o · x)) k 0x115 rfl rfl fun _ => ⟨rfl, rfl, rfl⟩
  | ldf o k x => exact .access (f := (.ldf o · x)) k 0x118 rfl rfl fun _ => ⟨rfl, rfl, rfl⟩
  | stf o k x => exact .access (f := (.stf o · x)) k 0x11B rfl rfl fun _ => ⟨rfl, rfl, rfl⟩
  | ldw o k x => exact .access (f := (.ldw o · x)) k 0x11E rfl rfl fun _ => ⟨rfl, rfl, rfl⟩
  | stw o k x => exact .access (f := (.stw o · x)) k 0x121 rfl rfl fun _ => ⟨rfl, rfl, rfl⟩
  | ldk o k x => exact .access (f := (.ldk o · x)) k 0x124 rfl rfl fun _ => ⟨rfl, rfl, rfl⟩
  | lda o k x => exact .access (f := (.lda o · x)) k 0x140 rfl rfl fun _ => ⟨rfl, rfl, rfl⟩
  | stl o k x => exact .access (f := (.stl o · x)) k 0x143 rfl rfl fun _ => ⟨rfl, rfl, rfl⟩
  | mov _ sc | movi _ sc | and _ sc | or _ sc | xor _ sc => cases sc <;> exact .base rfl rfl (m0_reads ..)
  | sel _ sc _ _ => cases sc <;> exact .base rfl rfl (mPred_reads ..)
  | iadd _ sc _ _ | isub _ sc _ _ | imul _ sc _ _ | imad _ sc _ _ => cases sc <;> exact .base rfl rfl (mInt_reads ..)
  | iabs | ineg => exact .base rfl rfl (i32_reads ..)
  | imin _ sc _ | imax _ sc _ => cases sc <;> exact .base rfl rfl (mTy_reads ..)
  | iadd64 _ sc _ _ _ => cases sc <;> exact .base rfl rfl (iadd64_reads ..)
  | imulh | bfe | iaddP | isubP | imulP => exact .base rfl rfl (mTy_reads ..)
  | imadw => exact .base rfl rfl (mInt_reads ..)
  | not | rot | bfi | popc | clz | brev | bysel | pmov | bra | brx | call | callx | ret
  | exit | conv | nop | pause | launch | prog | msvtx | msvtxB128 | msprim | mscount | fragexp
  | fragexpZ | fragkill | rocbeg | rocend | tex | texL | texG | texld | texq | trap | bkpt
  | rtt | haltt | pkrd | pkwr | resume | resumeSkip | killt | killtG => exact .base rfl rfl (m0_reads ..)
  | lgc3 | lgc3P | pmovP | sreadW | swrite | gbread => exact .base rfl rfl (number_reads rfl (by decide) ..)
  | shl _ sc _ | shr _ sc _ => cases sc <;> exact .base rfl rfl (mTop_reads ..)
  | sar | fshf | match_ => exact .base rfl rfl (mTop_reads ..)
  | lea => exact .base rfl rfl (lea_reads ..)
  | isetp _ ty _ _ _ _ | fsetp _ ty _ _ _ _ => cases ty <;> exact .base rfl rfl (mCmp_reads ..)
  | plop => exact .base rfl rfl (plop_reads ..)
  | braAny | braAll | lqryAll | lqryAny | lqrySame | cvq2 | cvq4 => exact .base rfl rfl (mPred_reads ..)
  | sread _ sc _ => cases sc <;> exact .base rfl rfl (number_reads rfl (by decide) ..)
  | lxchIdx | lxchRot | lxchRev | lxchXor => exact .base rfl rfl (mLxch_reads ..)
  | lxchS => exact .base rfl rfl (lxchS_reads ..)
  | redl _ sc _ _ _ => cases sc <;> exact .base rfl rfl (redl_reads ..)
  | redlF => exact .base rfl rfl (redlF_reads ..)
  | fadd _ ty sc _ | fmul _ ty sc _ | ffma _ ty sc _ | fmin _ ty sc _ | fmax _ ty sc _ =>
    cases ty <;> cases sc <;> exact .base rfl rfl (mF_reads ..)
  | fdp2 _ ty _ => cases ty <;> exact .base rfl rfl (mF_reads ..)
  | fclass _ ty => cases ty <;> exact .base rfl rfl (m0_reads ..)
  | fclassP => exact .base rfl rfl (fclassP_reads ..)
  | frcp _ f _ _ | frsq _ f _ _ | fsqrt _ f _ _ | fexp2 _ f _ _ | flog2 _ f _ _ | fsin _ f _ _ | fcos _ f _ _ =>
    cases f <;> exact .base rfl rfl (mTr_reads ..)
  | frcpIeee | fsqrtIeee => exact .base rfl rfl (mF_reads ..)
  | cvq8 | cvx2 | cvx4 | cvx8 => exact .base rfl rfl (mSlot_reads ..)
  | stew o b x => exact .mem rfl rfl (mTop_reads b (.stew o · x))
  | barrive o b x => exact .mem rfl rfl (mTop_reads b (.barrive o · x))
  | bwait o b x => exact .mem rfl rfl (mTop_reads b (.bwait o · x))
  | bsync o b x => exact .mem rfl rfl (mTop_reads b (.bsync o · x))
  | barrd o b x => exact .mem rfl rfl (mTop_reads b (.barrd o · x))
  | binit o b x => exact .mem rfl rfl (mTop_reads b (.binit o · x))
  | cpwait o b x => exact .mem rfl rfl (mTop_reads b (.cpwait o · x))
  | cptest o b x => exact .mem rfl rfl (mTop_reads b (.cptest o · x))
  | cpclr o b x => exact .mem rfl rfl (mTop_reads b (.cpclr o · x))
  | atomg o p ord w sgn op x => cases w <;> exact .mem rfl rfl (mAt_reads p ord sgn op (.atomg o · · _ · · x))
  | atomgCas o p ord w x => cases w <;> exact .mem rfl rfl (mAtCas_reads p ord (.atomgCas o · · _ x))
  | atomgF o p ord ft op x => exact .mem rfl rfl (mAtF_reads p ord ft op (.atomgF o · · · · x))
  | redg o p w sgn op x => cases w <;> exact .mem rfl rfl (noOrd_mAt_reads p sgn op (.redg o · _ · · x))
  | redgF o p ft op x => exact .mem rfl rfl (noOrd_mAtF_reads p ft op (.redgF o · · · x))
  | atoms o p k x => exact .scratchAtomic (f := (.atoms o · · x)) p k 0x151 rfl (by decide) fun _ => ⟨rfl, rfl, rfl, rfl, rfl⟩
  | atomx o p k x => exact .scratchAtomic (f := (.atomx o · · x)) p k 0x156 rfl (by decide) fun _ => ⟨rfl, rfl, rfl, rfl, rfl⟩
  | fence | balloc | bfree | rowfree | tlbiPage | cpsrcw => exact .mem rfl rfl (m0_reads ..)
  | fencex o p q x => exact .mem rfl rfl (fencex_reads p q (.fencex o · · x))
  | rowbook o p q sc x => exact .mem rfl rfl (rowbook_reads p q sc (.rowbook o · · · x))
  | rowjoin o q x => exact .mem rfl rfl (rowjoin_reads q (.rowjoin o · x))
  | tlbiSpace | tlbiAll => exact .mem rfl rfl ⟨by decide, rfl⟩
  | interp => exact .base rfl rfl (interp_reads ..)
  | derivX | derivY => exact .base rfl rfl (flag_reads ..)
  | satom o p xy w sgn op x => exact .mem rfl rfl (satom_reads p xy w sgn op (.satom o · · · · · x))
  | satomCas o p w x => exact .mem rfl rfl (satomCas_reads p w (.satomCas o · · x))
  | cpgather o ch k x => exact .mem rfl rfl (mCp_reads ch k (.cpgather o · · x))
  | cpscatter o ch k x => exact .mem rfl rfl (mCp_reads ch k (.cpscatter o · · x))
  | cpscatterAdd o ch k x => exact .mem rfl rfl (mCp_reads ch k (.cpscatterAdd o · · x))
  | mput _ w => cases w <;> exact .base rfl rfl (m0_reads ..)
  | mld | mbar | mbw | mnop | msetImm | msetC | maddk | mloop | mjmp | mend =>
    exact .stream rfl rfl (m0_reads ..)
  | mldV => exact .stream rfl rfl (mldV_reads ..)
  | mma _ v _ _ | mmq _ v _ _ | mmqP _ v _ _ | mmi _ v _ _ => cases v <;> exact .stream rfl rfl (mMul_reads ..)
  | mclr => exact .stream rfl rfl (flag_reads ..)
  | mst | mstV => exact .stream rfl rfl (mMst_reads ..)
  | msetHi | msetArg | msetArghi | msetSr => exact .stream rfl rfl ⟨by decide, rfl⟩
  | trapLegacy => exact .base rfl rfl ⟨by decide, rfl⟩
  | fsub _ ty sc | frnd _ ty sc =>
    obtain rfl | ⟨rfl, rfl⟩ := sform_of_f32 (Bool.and_eq_true_iff.1 h).2
    · cases ty <;> exact .base rfl rfl (mF_reads ..)
    · exact .base rfl rfl (mF_reads ..)
  | cvt => exact cvt_reads h
  | lgath => exact lgath_reads h
  | ldsS => exact ldsS_reads h
  | pfg => exact pfg_reads h
  | _ => exact .none

/-! ## What well-formedness says of lengths (R148, R153, R157) -/

/-- A word of 64 bits that passes the checks of its base word has no IMM32. -/
theorem Ops.short_of_wf {o : Ops} {latch l128 disp : Bool} (h : o.wf latch l128 disp = true) : o.Short := by
  intro hl
  simp only [Ops.wf, hl, Bool.and_eq_true, beq_iff_eq] at h
  exact h.2.1

/-- Every well-formed instruction passes the checks of its base word. -/
theorem Instr.layout_short {i : Instr} {o : Ops} {x : MemX} (h : i.wf = true) (hl : i.layout = some (o, x)) : o.Short := by
  cases i <;> cases hl
  case ldf | stf =>
    unfold Instr.wf at h
    dsimp only at h
    split at h <;> simp only [wfLoad, wfStore, Bool.and_eq_true] at h <;> exact Ops.short_of_wf (by tauto)
  all_goals
    unfold Instr.wf at h
    simp only [Ops.alu1, Ops.alu2, Ops.alu3, wfCmp, wfBranch, wfTransc, wfLxch, wfPorter, wfTex, wfLoad, wfStore, wfScalarLoad, wfAtom, wfBar,
      Bool.and_eq_true] at h
    exact Ops.short_of_wf (by tauto)

/-- An X word that a word of `len` need not have. -/
def MemX.DefaultIn (x : MemX) (len : Len) : Prop := len ≠ .w128 → x = .default

theorem MemX.DefaultIn.long {x : MemX} {len : Len} (h : len = .w128) : x.DefaultIn len := fun short => absurd h short

theorem MemX.DefaultIn.unused {x : MemX} {len : Len} (h : x.unusedIn len = true) : x.DefaultIn len := fun short => by
  cases len with
  | w128 => exact absurd rfl short
  | w64 | w96 => exact of_decide_eq_true h

theorem MemX.DefaultIn.hintOnly {x : MemX} {len : Len} (h : x.hintOnly len = true) : x.DefaultIn len := fun short => by
  simp only [MemX.hintOnly, Bool.and_eq_true, Bool.or_eq_true, beq_iff_eq, short, false_or] at h
  obtain ⟨rest, none_⟩ := h
  rw [← DefaultIn.unused rest short, ← none_]

theorem MemX.DefaultIn.scopeOnly {x : MemX} {len : Len} (h : x.scopeOnly len = true) : x.DefaultIn len := by
  cases len with
  | w128 => exact .long rfl
  | w64 | w96 => exact .unused h

theorem MemX.DefaultIn.scopeHint {x : MemX} {len : Len} (h : x.scopeHint len = true) : x.DefaultIn len := by
  cases len with
  | w128 => exact .long rfl
  | w64 | w96 => exact .unused h

theorem MemX.DefaultIn.atomOk {x : MemX} {len : Len} {cas : Bool} {n : Nat} {ord : Ord3} (h : x.atomOk len cas n ord = true) :
    x.DefaultIn len := by
  cases len with
  | w128 => exact .long rfl
  | w64 | w96 => exact .unused (Bool.and_eq_true_iff.1 h).2

theorem MMod.coord_long {k : MMod} {o : Ops} {x : MemX} (h : k.coord o x = true) : o.len = .w128 := by
  simp only [MMod.coord, Bool.and_eq_true, beq_iff_eq] at h
  tauto

/-- A well-formed word that is shorter than 128 bits has the defaults of X. -/
theorem Instr.layout_default {i : Instr} {o : Ops} {x : MemX} (h : i.wf = true) (hl : i.layout = some (o, x)) : x.DefaultIn o.len := by
  cases i <;> cases hl
  case ldg | stg | ldp | stp | lds | sts | ldx | stx | ldw | stw | ldk | pfg => exact .hintOnly (Bool.and_eq_true_iff.1 h).2
  case ldsS => exact .hintOnly (Bool.and_eq_true_iff.1 (Bool.and_eq_true_iff.1 h).1).2
  case ldf | stf =>
    unfold Instr.wf at h
    dsimp only at h
    split at h
    · exact .long (MMod.coord_long (Bool.and_eq_true_iff.1 h).2)
    · exact .hintOnly (Bool.and_eq_true_iff.1 h).2
  case atomg | atomgCas | atomgF | redgF | atoms | atomx | satomCas => exact .atomOk (Bool.and_eq_true_iff.1 h).2
  case redg => exact .atomOk (Bool.and_eq_true_iff.1 (Bool.and_eq_true_iff.1 h).1).2
  case satom =>
    have last := (Bool.and_eq_true_iff.1 h).2
    split at last
    · simp only [Bool.and_eq_true, beq_iff_eq] at last
      exact .long (by tauto)
    · exact .unused (Bool.and_eq_true_iff.1 last).2
  case lda | stl => exact .scopeHint (Bool.and_eq_true_iff.1 h).2
  case fence | fencex => exact .scopeOnly (Bool.and_eq_true_iff.1 h).2
  case cpwait | cptest | cpclr => exact .unused (Bool.and_eq_true_iff.1 (Bool.and_eq_true_iff.1 h).1).2
  case stew | barrive | bwait | bsync | barrd | binit | balloc | bfree | rowbook | rowjoin | rowfree | tlbiPage | tlbiSpace | tlbiAll |
    cpgather | cpscatter | cpscatterAdd | cpsrcw => exact .unused (Bool.and_eq_true_iff.1 h).2
  all_goals exact fun _ => rfl

/-! ## Decoding is the inverse of encoding -/

/-- An instruction that the tables read back is decoded from its word, with the word's length. -/
theorem Instr.Reads.decodeWord_eq {i : Instr} {e : Option EncWord} (r : i.Reads e) (wf : i.wf = true) :
    ∀ w, e = some w → decodeWord w.1 w.2 = .ok (i, w.1) := by
  rintro w hw
  cases r with
  | none => cases hw
  | base layout known read => cases hw; exact decodeWord_base read.1 (layout_short wf layout) known read.2 wf
  | mem layout known read => cases hw; exact decodeWord_mem read.1 (layout_short wf layout) (layout_default wf layout) known read.2 wf
  | stream assigned stream read => cases hw; exact decodeWord_stream read.1 assigned stream read.2 wf

/-- Settles O56: the tables read each well-formed instruction back from its word (`encode_reads`), and the word's fields are where the
decoder looks for them. -/
theorem decodeEncode : Obligations.DecodeEncode := by
  unfold Obligations.DecodeEncode
  exact fun i e wf he => (encode_reads wf).decodeWord_eq wf e he

/-! ## Listed words (R150, R154, R163) -/

/-- Settles O55: each word is decoded, field by field. -/
theorem decodeWords : Obligations.DecodeWords := by
  unfold Obligations.DecodeWords
  exact ⟨rfl, rfl, rfl, rfl, rfl, rfl, rfl, rfl, rfl, rfl, rfl, rfl⟩

end Sys2Proof

namespace Sys2Proof.Machine

/-! ## Words that are refused (R161, R162, R342) -/

theorem IntForm.exec_eq {x : Instr} {o : Ops} {sc : Bool} {u : Uses} {f : State → Iss → Nat → LaneRes} (h : IntForm x o sc u f) (s : State) :
    exec x s = formIssue sc o u f s := by
  cases h <;> rfl

theorem exec_eq_cmdIssue {i : Instr} {o : SOps} (h : sopsOf i = some o) (s : State) : exec i s = cmdIssue i o s := by
  cases i <;> cases h <;> rfl

/-- A sequencer that meets a word of a group stops its fetch. -/
theorem issue_atStream {s : State} {t : Nat} (turn : s.turn = .stream t) (o : Ops) (u : Uses) (priv : Bool) (body : Iss → State → State) :
    issue o u priv body s = .next (s.streamFetchFault t { cause := .wrongStream }) := by
  simp only [issue, turn]

theorem formIssue_atStream {s : State} {t : Nat} (turn : s.turn = .stream t) (sc : Bool) (o : Ops) (u : Uses)
    (f : State → Iss → Nat → LaneRes) : formIssue sc o u f s = .next (s.streamFetchFault t { cause := .wrongStream }) := by
  cases sc with
  | false => simp only [formIssue, vecIssue, Bool.false_eq_true, if_false, issue_atStream turn]
  | true => simp only [formIssue, scalIssue, if_true, issue_atStream turn]

section
variable {s : State} {t g : Nat} {r : Run} (turn : s.turn = .group t g) (run : (s.group t g).run = some r)
include turn run

/-- A group that fetched a word of the sequencer. -/
theorem streamTurn_atGroup (f : Nat → Stream → State → State) :
    streamTurn s f = .next ((s.takeTraps t g r.lanes { cause := .wrongStream }).endIssue t g r.lanes false false none) := by
  simp only [streamTurn, turn, run]

/-- A register out of range. -/
theorem issue_outOfRange {u : Uses} (free : s.accHeld t g r.lanes = false) (out : u.inRange (s.regCount t) = false) (o : Ops)
    (body : Iss → State → State) : issue o u false body s =
      .next ((s.takeTraps t g r.lanes { cause := .illegalOperand }).endIssue t g r.lanes o.rb false none) := by
  simp [issue, turn, run, free, out]

theorem formIssue_outOfRange {u : Uses} (free : s.accHeld t g r.lanes = false) (out : u.inRange (s.regCount t) = false) (sc : Bool)
    (o : Ops) (f : State → Iss → Nat → LaneRes) : formIssue sc o u f s =
      .next ((s.takeTraps t g r.lanes { cause := .illegalOperand }).endIssue t g r.lanes o.rb false none) := by
  cases sc with
  | false => simp only [formIssue, vecIssue, Bool.false_eq_true, if_false, issue_outOfRange turn run free out]
  | true =>
    have out' : ({ u with sform := true } : Uses).inRange (s.regCount t) = false := out
    simp only [formIssue, scalIssue, if_true, issue_outOfRange turn run free out']

variable (free : s.accBars t g r.lanes = false) (guest : (s.team t).kind ≠ .porter)
include free guest

/-- A privileged word of a group that is not the night porter's. -/
theorem issue_unprivileged (o : Ops) (u : Uses) (body : Iss → State → State) : issue o u true body s =
    .next ((s.takeTraps t g r.lanes { cause := .privilege }).endIssue t g r.lanes o.rb false none) := by
  simp [issue, turn, run, free, guest]

end

/-- Settles O29: a word of the wrong unit, of a register out of range or of the night porter's is refused before it performs. -/
theorem refusedWords : Obligations.RefusedWords := by
  unfold Obligations.RefusedWords
  refine ⟨fun i o s t g r stream turn run => ?_, fun x o sc u f h s t turn => ?_, fun x o sc u f h s t g r turn run free out => ?_,
    fun o q x s t g r turn run free guest y hy => ?_⟩
  · exact (exec_eq_cmdIssue stream s).trans (streamTurn_atGroup turn run _)
  · exact (h.exec_eq s).trans (formIssue_atStream turn ..)
  · exact (h.exec_eq s).trans (formIssue_outOfRange (u := u) turn run free out ..)
  · simp only [List.mem_cons, List.not_mem_nil, or_false] at hy
    rcases hy with rfl | rfl | rfl | rfl | rfl | rfl | rfl | rfl | rfl | rfl | rfl | rfl <;>
      simp only [exec_tlbiPage, execTlbiPage, exec_tlbiSpace, execTlbiSpace, exec_tlbiAll, execTlbiAll, tlbiIssue, exec_rtt, execRtt,
        exec_haltt, execHaltt, exec_gbread, execGbread, exec_pkrd, execPkrd, exec_pkwr, execPkwr, exec_resume, execResume, exec_resumeSkip,
        execResumeSkip, exec_killt, execKillt, exec_killtG, execKilltG, disposeIssue, onceIssue, issue_unprivileged turn run free guest]

/-! ## TLBI (R242) -/

/-- A privileged word that the night porter performs once for its set. -/
theorem onceIssue_porter {s : State} {o : Ops} {u : Uses} {i : Iss} {l : Nat} {ls : List Nat} (h : Issues s o u i) (parts : i.parts = l :: ls)
    (porter : (s.team i.t).kind = .porter) (waiting : Bool) (body : Iss → Nat → State → State) :
    onceIssue o u true waiting body s = .next (body i l s.reading) := by
  rw [onceIssue, issue_eq h true _ fun _ => porter, parts]

/-- The scalar register of a TLBI's result. -/
def tlbiDest (o : Ops) : List (Nat × Nat) := if o.nw then [] else [(o.d.toNat, 1)]

/-- The state in which the result of a TLBI is on its way, if it has one. -/
def tlbiPend (o : Ops) (i : Iss) (s : State) : State :=
  if o.nw then s.reading else
    { s.reading with uid := s.uid + 1, pends := amapInsert s.pends s.uid ⟨i.t, i.g, false, true, [(0, o.d.toNat, 1)], []⟩ }

/-- The result that a shootdown reports to. -/
def tlbiResult (o : Ops) (s : State) : Option Nat := if o.nw then none else some s.uid

section
variable {s : State} {o : Ops} {x : MemX} {i : Iss} {l : Nat} {ls : List Nat} (parts : i.parts = l :: ls)
  (porter : (s.team i.t).kind = .porter)
include parts porter

/-- TLBI of a scope: 0 a range of pages, 1 a space, 2 all. -/
theorem tlbiIssue_eq (scope : Nat) (h : Issues s o { src := (if scope = 2 then [] else [(o.a, 1)]) ++
      (if scope = 0 then [(o.b, 2), (o.c, 1)] else []), sd := tlbiDest o } i) :
    let space := if scope = 2 then 0 else (src32 s.reading i l o.a).toNat % 2 ^ 12
    let va := if scope = 0 then (src64 s.reading i l o.b false).toNat % 2 ^ 57 / 4096 * 4096 else 0
    let pages := if scope = 0 then (src32 s.reading i l o.c).toNat % 2 ^ 20 else 1
    tlbiIssue o scope s = .next (if pages = 0 then i.faultAll s.reading { cause := .illegalOperand } false
      else i.finish ((tlbiPend o i s).shootStart ⟨scope, space, va, pages, tlbiResult o s, 0, false⟩) [] false none) := by
  rw [tlbiIssue]
  exact onceIssue_porter h parts porter ..

theorem tlbiPage_empty (h : Issues s o { src := (o.a, 1) :: [(o.b, 2), (o.c, 1)], sd := tlbiDest o } i)
    (empty : (src32 s.reading i l o.c).toNat % 2 ^ 20 = 0) :
    exec (.tlbiPage o x) s = .next (i.faultAll s.reading { cause := .illegalOperand } false) := by
  rw [exec_tlbiPage, execTlbiPage, tlbiIssue_eq parts porter 0 h]
  simp only [if_true, empty]

theorem tlbiPage_starts (h : Issues s o { src := (o.a, 1) :: [(o.b, 2), (o.c, 1)], sd := tlbiDest o } i)
    (some_ : (src32 s.reading i l o.c).toNat % 2 ^ 20 ≠ 0) : exec (.tlbiPage o x) s = .next (i.finish ((tlbiPend o i s).shootStart
      ⟨0, (src32 s.reading i l o.a).toNat % 2 ^ 12, (src64 s.reading i l o.b false).toNat % 2 ^ 57 / 4096 * 4096,
        (src32 s.reading i l o.c).toNat % 2 ^ 20, tlbiResult o s, 0, false⟩) [] false none) := by
  rw [exec_tlbiPage, execTlbiPage, tlbiIssue_eq parts porter 0 h]
  simp only [if_true, if_neg some_, OfNat.zero_ne_ofNat, if_false]

theorem tlbiSpace_starts (h : Issues s o { src := [(o.a, 1)], sd := tlbiDest o } i) :
    exec (.tlbiSpace o x) s = .next (i.finish ((tlbiPend o i s).shootStart
      ⟨1, (src32 s.reading i l o.a).toNat % 2 ^ 12, 0, 1, tlbiResult o s, 0, false⟩) [] false none) := by
  rw [exec_tlbiSpace, execTlbiSpace, tlbiIssue_eq parts porter 1 h]
  simp

theorem tlbiAll_starts (h : Issues s o { sd := tlbiDest o } i) : exec (.tlbiAll o x) s =
    .next (i.finish ((tlbiPend o i s).shootStart ⟨2, 0, 0, 1, tlbiResult o s, 0, false⟩) [] false none) := by
  rw [exec_tlbiAll, execTlbiAll, tlbiIssue_eq parts porter 2 h]
  simp

end

/-! ## LAUNCH (R191) -/

/-- The end of LAUNCH once the participants' records have been read: each enqueues in lane order, and their tickets are on their way. -/
def launchEnd (o : Ops) (i : Iss) (x : List (Nat × URes) × State) : State :=
  let r := x.1.foldl (fun (acc : List (Nat × Nat) × State) y => acc.2.launchLane i y.1 y.2 acc.1) ([], x.2.recDone i)
  i.finish (if o.nw || r.1.isEmpty then r.2 else
    r.2.addPend ⟨i.t, i.g, false, false, r.1.map fun x => (x.1, o.d.toNat, BitVec.ofNat 32 x.2), []⟩) [] false none

section
variable {s : State} {o : Ops} {i : Iss} (h : Issues s o { src := [(o.a, 1), (o.b, 2)], vd := if o.nw then [] else [(o.d.toNat, 1)] } i)
include h

theorem launch_eq : exec (.launch o) s = .next (
    if (s.reading.recReads i i.parts).1.any (·.2 == .wait) then { (s.reading.recReads i i.parts).2 with turn := .later }
    else launchEnd o i (s.reading.recReads i i.parts)) := by
  rw [exec_launch, execLaunch, issue_eq h false _ (by simp)]
  rfl

theorem launch_waits (wait : (s.reading.recReads i i.parts).1.any (·.2 == .wait) = true) :
    exec (.launch o) s = .next { (s.reading.recReads i i.parts).2 with turn := .later } := by
  rw [launch_eq h, if_pos wait]

theorem launch_ends (ready : (s.reading.recReads i i.parts).1.any (·.2 == .wait) = false) :
    exec (.launch o) s = .next (launchEnd o i (s.reading.recReads i i.parts)) := by
  rw [launch_eq h, if_neg (by rw [ready]; exact Bool.false_ne_true)]

end

/-- A launch joins its queue, if the queue is of its space and has room. -/
def State.launchRoom (s : State) (i : Iss) (l : Nat) : Prop :=
  (src32 s i l i.o.a).toNat < 256 ∧ (s.queue (src32 s i l i.o.a).toNat).space = s.spaceOf i.t ∧
    (s.queue (src32 s i l i.o.a).toNat).items.length < 64

theorem launchLane_enqueues {s : State} {i : Iss} {l : Nat} (room : s.launchRoom i l) (x a : Nat) : s.launchLane i l (.ok x a) [] =
    ([(l, (s.enqueue (src32 s i l i.o.a).toNat x a 0 false true).1)], (s.enqueue (src32 s i l i.o.a).toNat x a 0 false true).2) := by
  obtain ⟨named, own, free⟩ := room
  simp [State.launchLane, own, Nat.not_le.2 named, Nat.not_le.2 free]

theorem launchLane_refuses {s : State} {i : Iss} {l : Nat} (full : 256 ≤ (src32 s i l i.o.a).toNat ∨
    (s.queue (src32 s i l i.o.a).toNat).space ≠ s.spaceOf i.t ∨ 64 ≤ (s.queue (src32 s i l i.o.a).toNat).items.length) (x a : Nat) :
    s.launchLane i l (.ok x a) [] = ([(l, 0)], s) := by
  simp only [State.launchLane, Bool.or_eq_true, decide_eq_true_eq, or_assoc, if_pos full, List.nil_append]

/-- LAUNCH of one participant, whose record is readable, with the ticket that its lane gives. -/
theorem launch_single {s S T' : State} {o : Ops} {i : Iss} {l x a n : Nat}
    (h : Issues s o { src := [(o.a, 1), (o.b, 2)], vd := [(o.d.toNat, 1)] } i) (parts : i.parts = [l]) (kept : o.nw = false)
    (read : s.reading.recRead i.t i.g l (src64 s.reading i l o.b false).toNat = (.ok x a, S))
    (lane : (S.recDone i).launchLane i l (.ok x a) [] = ([(l, n)], T')) :
    exec (.launch o) s = .next (i.finish (T'.addPend ⟨i.t, i.g, false, false, [(l, o.d.toNat, BitVec.ofNat 32 n)], []⟩) [] false none) := by
  have reads : s.reading.recReads i i.parts = ([(l, .ok x a)], S) := by simp only [parts, State.recReads, h.ops, read]
  have h' : Issues s o { src := [(o.a, 1), (o.b, 2)], vd := if o.nw then [] else [(o.d.toNat, 1)] } i := by simpa [kept] using h
  rw [launch_ends h' (by rw [reads]; rfl), reads]
  simp [launchEnd, lane, kept]

/-- Settles O26: a TLBI starts the shootdown of its scope, and a LAUNCH is tried again or ends as `launchEnd` says; of one participant,
its lane alone enqueues. -/
theorem shootdownAndLaunch : Obligations.ShootdownAndLaunch := by
  unfold Obligations.ShootdownAndLaunch
  refine ⟨?tlbi, ?single, fun o s i h => ⟨launch_waits h, launch_ends h⟩⟩
  case tlbi =>
    intro o x s i l ls parts porter
    exact ⟨fun h => ⟨tlbiPage_empty parts porter h, tlbiPage_starts parts porter h⟩, tlbiSpace_starts parts porter,
      tlbiAll_starts parts porter⟩
  case single =>
    intro o s i l x a S h parts kept read T qid r ticket
    have qid_eq : (src32 T i l i.o.a).toNat = qid := by rw [h.ops]
    refine ⟨fun named own free => ?_, fun full => ?_⟩
    · have room : T.launchRoom i l := by rw [State.launchRoom, qid_eq]; exact ⟨named, own, free⟩
      refine launch_single h parts kept read ((launchLane_enqueues room x a).trans ?_)
      rw [qid_eq]
    · exact launch_single h parts kept read (launchLane_refuses (by rw [qid_eq]; exact full) x a)

end Sys2Proof.Machine

namespace Sys2Proof.Machine

/-! ## Integer and predicate words (R169 to R178, R215) -/

/-- No integer word traps or writes FPM. -/
theorem IntForm.untrapped {x : Instr} {o : Ops} {sc : Bool} {u : Uses} {f : State → Iss → Nat → LaneRes} (h : IntForm x o sc u f)
    (s : State) (i : Iss) (l : Nat) : (f s i l).trap = none ∧ (f s i l).fpm = none := by
  cases h <;> exact ⟨rfl, rfl⟩

theorem IntForm.vector_wrote {x : Instr} {o : Ops} {u : Uses} {f : State → Iss → Nat → LaneRes} (h : IntForm x o false u f) {s : State}
    {i : Iss} (issues : Issues s o u i) : ∃ s', exec x s = .next s' ∧ Wrote s s.reading s' i (f s.reading i) ∧
      Latched s' i (some (vecLatch (i.parts.map fun l => (l, f s.reading i l)))) := by
  rw [h.exec_eq]
  exact vecIssue_wrote issues true f fun l _ => (h.untrapped _ _ l).1

theorem IntForm.scalar_wrote {x : Instr} {o : Ops} {u : Uses} {f : State → Iss → Nat → LaneRes} (h : IntForm x o true u f) {s : State}
    {i : Iss} (issues : Issues s o { u with sform := true } i) :
    ∃ s', exec x s = .next s' ∧ WroteS s s.reading s' i (f s.reading i (i.parts.headD 0)).regs (fun _ => none) ∧
      Latched s' i (if i.parts = [] then none else some ⟨true, (f s.reading i (i.parts.headD 0)).latch, []⟩) := by
  rw [h.exec_eq]
  obtain ⟨s', run, wrote, latched⟩ := scalIssue_wrote issues true f fun l _ => h.untrapped _ _ l
  refine ⟨s', run, wrote, ?_⟩
  cases parts : i.parts with
  | nil => simpa [parts] using latched
  | cons l ls => simpa [parts] using latched

/-- Settles O1: an integer word is its form's issue, no lane of which traps. -/
theorem integerWords : Obligations.IntegerWords := by
  unfold Obligations.IntegerWords
  exact ⟨fun _ _ _ _ form _ _ issues => form.vector_wrote issues, fun _ _ _ _ form _ _ issues => form.scalar_wrote issues⟩

/-- A predicate word is a vector issue without a latch. -/
theorem PredForm.exec_eq {x : Instr} {o : Ops} {u : Uses} {f : State → Iss → Nat → Bool} (h : PredForm x o u f) (s : State) :
    exec x s = vecIssue o u false (fun s i l => resP o.d (f s i l)) s := by
  cases h with
  | isetp32 o ty op qn q cmp narrow =>
    have narrow : (ty == .i64 || ty == .n64) = false := by simp [narrow]
    simp only [exec_isetp, execIsetp, narrow, Bool.false_eq_true, if_false]
    rfl
  | isetp64 o ty op qn q cmp wide => rcases wide with rfl | rfl <;> rfl
  | iaddP | isubP | imulP | lgc3P | pmovP | fclassP => rfl
  | plop => simp only [exec_plop, execPlop, srcP, Bool.bne_false]

/-- Settles O2: a compare or predicate word is a vector issue of predicate results, none of which traps. -/
theorem predicateWords : Obligations.PredicateWords := by
  unfold Obligations.PredicateWords
  intro x o u f form s i issues
  rw [form.exec_eq]
  exact vecIssue_wrote issues false _ fun _ _ => rfl

end Sys2Proof.Machine

namespace Sys2Proof.Machine

/-! ## Branches (R136, R179 to R181) -/

theorem Moved.dest_congr {s b s' : State} {i : Iss} {dest dest' : Nat → Nat} (h : Moved s b s' i dest)
    (same : ∀ l ∈ i.run.lanes, s.readyAt i.t i.g l → dest l = dest' l) : Moved s b s' i dest' :=
  { h with pc := fun l lane ready => (h.pc l lane ready).trans (same l lane ready) }

/-- A word whose participants `ps` jump, the others of the run going on. -/
theorem jump_branches {s s' : State} {o : Ops} {u : Uses} {i : Iss} (issues : Issues s o u i) (dest : Nat → Option Nat) (tgt : Nat → Nat)
    {ps : List Nat} (jumped : i.jump s.reading (ps.map fun l => (l, tgt l)) = s') (takes : ∀ l, l ∈ ps ↔ l ∈ i.parts ∧ dest l ≠ none)
    (goes : ∀ l a, dest l = some a → a = tgt l % 2 ^ 64) :
    Moved s s.reading s' i (fun l => if l ∈ i.parts then (dest l).getD (i.past s l) else i.past s l) ∧ Uncalled s s' ∧ SameRegs s s' ∧
      Latched s' i none := by
  subst jumped
  obtain ⟨moved, rest⟩ := jump_moved (s := s) (b := s.reading) ps tgt (fun l taken => issues.within l ((takes l).1 taken).1)
    (there_reading issues) (fun _ => rfl) issues.run
  refine ⟨moved.dest_congr fun l _ _ => ?_, rest⟩
  by_cases part : l ∈ i.parts
  · cases at_ : dest l with
    | none => simp [takes, part, at_]
    | some a => simp [takes, part, at_, goes l a at_]
  · simp [takes, part]

theorem State.relTarget_eq {s : State} {o : Ops} {i : Iss} (ops : i.o = o) (l : Nat) :
    s.relTarget i l = (((s.thread i.t i.g l).pc + branchDisp o) % 2 ^ 64 : Int).toNat := by rw [State.relTarget, ops]

theorem State.relTarget_lt (s : State) (i : Iss) (l : Nat) : s.relTarget i l < 2 ^ 64 := by
  unfold State.relTarget; omega

/-- A branch that all participants take or none. -/
theorem braSome_branches {s : State} {o : Ops} {i : Iss} {q : BitVec 3} (issues : Issues s o { pr := [q.toNat] } i)
    (take : State → Iss → Bool) (dest : Nat → Option Nat)
    (goes : ∀ l, dest l = if take s.reading i then some (s.reading.relTarget i l) else none) :
    ∃ s', braSome o q take s = .next s' ∧
      Moved s s.reading s' i (fun l => if l ∈ i.parts then (dest l).getD (i.past s l) else i.past s l) ∧
      Uncalled s s' ∧ SameRegs s s' ∧ Latched s' i none := by
  refine ⟨i.jump s.reading ((if take s.reading i then i.parts else []).map fun l => (l, s.reading.relTarget i l)), ?_,
    jump_branches issues dest _ rfl (fun l => ?_) fun l a at_ => ?_⟩
  · rw [braSome, issue_eq issues false _ nofun]
    cases take s.reading i <;> rfl
  · cases taken : take s.reading i <;> simp [goes, taken]
  · rw [Nat.mod_eq_of_lt (State.relTarget_lt ..)]
    cases taken : take s.reading i <;> simp_all

/-- The target CODE + A of a lane's BRX (R181). -/
def Iss.brxDest (i : Iss) (s : State) (o : Ops) (l : Nat) : Nat := ((s.lr i.t).code + (src32 s.reading i l o.a).toNat) % 2 ^ 64

/-- BRX: the participants whose target is misaligned trap in ascending order, and the others jump. -/
theorem brx_eq {s : State} {o : Ops} {i : Iss} (issues : Issues s o { src := [(o.a, 1)] } i) :
    exec (.brx o) s = .next (i.jump
      (forEach (i.parts.filter fun l => (src32 s.reading i l o.a).toNat % 4 != 0) s.reading fun S l =>
        S.takeTrap i.t i.g l { cause := .misaligned, addr := i.brxDest s o l })
      ((i.parts.filter fun l => (src32 s.reading i l o.a).toNat % 4 == 0).map fun l => (l, i.brxDest s o l))) := by
  have target (l : Nat) : s.reading.absTarget i l = if (src32 s.reading i l o.a).toNat % 4 = 0 then .inl (i.brxDest s o l)
      else .inr { cause := .misaligned, addr := i.brxDest s o l } := by
    rw [State.absTarget, issues.ops]; rfl
  have traps (ps : List Nat) (S : State) : forEach (ps.map fun l => (l, s.reading.absTarget i l)) S (fun S x => match x.2 with
        | .inr tr => S.takeTrap i.t i.g x.1 tr
        | .inl _ => S) =
      forEach (ps.filter fun l => (src32 s.reading i l o.a).toNat % 4 != 0) S fun S l =>
        S.takeTrap i.t i.g l { cause := .misaligned, addr := i.brxDest s o l } := by
    unfold forEach
    induction ps generalizing S with
    | nil => rfl
    | cons l ps ih =>
      rw [List.map_cons, List.foldl_cons, ih, target l]
      by_cases aligned : (src32 s.reading i l o.a).toNat % 4 = 0 <;> simp [aligned]
  have jumps (ps : List Nat) : (ps.map fun l => (l, s.reading.absTarget i l)).filterMap (fun x => match x.2 with
        | .inl a => some (x.1, a)
        | .inr _ => none) =
      (ps.filter fun l => (src32 s.reading i l o.a).toNat % 4 == 0).map fun l => (l, i.brxDest s o l) := by
    induction ps with
    | nil => rfl
    | cons l ps ih =>
      rw [List.map_cons, List.filterMap_cons, ih, target l]
      by_cases aligned : (src32 s.reading i l o.a).toNat % 4 = 0 <;> simp [aligned]
  rw [exec_brx, execBrx, issue_eq issues false _ nofun]
  exact congrArg₂ (fun S ts => Host.Outcome.next (i.jump S ts)) (traps i.parts s.reading) (jumps i.parts)

/-- Settles O6: the participants that branch jump together, and those of BRX whose target is misaligned trap before. -/
theorem branches : Obligations.Branches := by
  unfold Obligations.Branches
  refine ⟨fun x o u ok tgt form s i issues inOrder => ?_, fun s o i issues => brx_eq issues⟩
  have relative (l : Nat) : ((((s.reading.thread i.t i.g l).pc : Int) + branchDisp o) % 2 ^ 64).toNat = s.reading.relTarget i l % 2 ^ 64 := by
    rw [Nat.mod_eq_of_lt (State.relTarget_lt ..), State.relTarget_eq issues.ops]
  cases form with
  | bra =>
    refine ⟨_, by rw [exec_bra, execBra, issue_eq issues false _ nofun], jump_branches issues _ _ rfl (by simp) fun l a at_ => ?_⟩
    rw [← Option.some.inj at_, relative]
  | braAny o neg q =>
    rw [exec_braAny, execBraAny]
    exact braSome_branches issues _ _ fun l => by rw [State.relTarget_eq issues.ops]; rfl
  | braAll o neg q =>
    rw [exec_braAll, execBraAll]
    exact braSome_branches issues _ _ fun l => by rw [State.relTarget_eq issues.ops]; rfl
  | brx =>
    have aligned : (i.parts.filter fun l => (src32 s.reading i l o.a).toNat % 4 == 0) = i.parts :=
      List.filter_eq_self.2 fun l part => beq_iff_eq.2 (inOrder l part)
    have misaligned : (i.parts.filter fun l => (src32 s.reading i l o.a).toNat % 4 != 0) = [] :=
      List.filter_eq_nil_iff.2 fun l part => by simpa using inOrder l part
    refine ⟨_, brx_eq issues, ?_⟩
    rw [aligned, misaligned]
    refine jump_branches issues _ _ rfl (by simp) fun l a at_ => ?_
    rw [← Option.some.inj at_, Iss.brxDest, Nat.mod_mod]
    rfl

end Sys2Proof.Machine

namespace Sys2Proof.Machine

/-! ## NOP, EXIT, CONV and PAUSE (R183 to R186) -/

/-- A change of the threads of one group that removes none. -/
theorem Rethreaded.updThreads {b S : State} {t g : Nat} {T : Nat → Thread} (h : Rethreaded b S t g T) (f : AMap Thread → AMap Thread)
    (keeps : ∀ ths l, (amapFind? ths l).isSome → (amapFind? (f ths) l).isSome) :
    Rethreaded b (S.updGroup t g fun gr => { gr with threads := f gr.threads }) t g fun l => amapGet {} (f (S.group t g).threads) l := by
  have groups (t' g' : Nat) : (S.updGroup t g fun gr => { gr with threads := f gr.threads }).group t' g' = if t' = t ∧ g' = g then
      { S.group t g with threads := f (S.group t g).threads } else S.group t' g' := by
    rw [State.group_updGroup]
    simp only [h.there, and_true]
  refine ⟨h.others, h.cores, fun t' => ?_, ?_, fun t' g' => ?_, fun t' g' => ?_, fun t' g' k => ?_, fun k hk => ?_⟩
  · rw [← h.bodies, State.updGroup, State.team_updTeam]
    split_ifs with at_
    · obtain ⟨rfl, -⟩ := at_; rfl
    · rfl
  · rw [State.updGroup, State.present_updTeam]; exact h.there
  · rw [← h.scal, groups]
    split_ifs with at_
    · obtain ⟨rfl, rfl⟩ := at_; rfl
    · rfl
  · rw [← h.runs, groups]
    split_ifs with at_
    · obtain ⟨rfl, rfl⟩ := at_; rfl
    · rfl
  · have kept := h.threads t' g' k
    rw [State.thread, groups]
    split_ifs at kept ⊢
    · rfl
    · exact kept
  · rw [State.hasLane, groups, if_pos ⟨rfl, rfl⟩]
    exact keeps _ _ (h.lanes k hk)

/-- Lanes that go past the word. -/
theorem Rethreaded.advance {b S : State} {t g : Nat} {T : Nat → Thread} (h : Rethreaded b S t g T) (ls : List Nat) (n : Nat) :
    Rethreaded b (S.advance t g ls n) t g fun l =>
      if ls.contains l = true ∧ S.hasLane t g l then { T l with pc := ((T l).pc + n) % 2 ^ 64 } else T l := by
  refine (h.updThreads (amapMap fun l th => if ls.contains l then { th with pc := (th.pc + n) % 2 ^ 64 } else th)
    fun ths l there => by simpa [amapFind?_map] using there).congr fun l => ?_
  rw [← h.here, State.thread, State.hasLane]
  simp only [amapGet_eq_find, amapFind?_map]
  cases amapFind? (S.group t g).threads l <;> simp

/-- The end of a word whose threads keep their registers and stand at `at_`. -/
theorem Rethreaded.endIssue_moved {s S E : State} {i : Iss} {T : Nat → Thread} {at_ : Nat → Nat} (h : Rethreaded s.reading S i.t i.g T)
    (running : (s.group i.t i.g).run = some i.run) (arch : ∀ l, (T l).arch = ({ s.thread i.t i.g l with pc := at_ l } : Thread).arch)
    (out : ∀ l, l ∉ i.run.lanes → at_ l = (s.thread i.t i.g l).pc) {rb w : Bool} {y : Option Latch}
    (ended : S.endIssue i.t i.g i.run.lanes rb w y = E) : Moved s s.reading E i at_ ∧ Uncalled s E ∧ SameRegs s E ∧ Latched E i y := by
  have quiet := quiet_endIssue S i.t i.g i.run.lanes rb w y
  have latched : Latched (S.endIssue i.t i.g i.run.lanes rb w y) i y :=
    runs_endIssue _ _ _ _ _ _ _ i.run ((h.runs ..).trans running)
  have core (c : Nat) : S.core c = s.reading.core c := by simp only [State.core, h.cores]
  have lines (going : s.reading.stopping i.t = false) (c : Nat) :
      ((S.endIssue i.t i.g i.run.lanes rb w y).core c).l1 = (s.reading.core c).l1 := by
    rw [(lines_endIssue S i.t i.g i.run.lanes rb w y ?_).l1, core]
    rw [← going]
    simp only [State.stopping, State.launch, h.launches, (h.body i.t).2]
  rw [ended] at quiet latched lines
  have threads (t g l : Nat) : (E.thread t g l).arch =
      ({ s.thread t g l with pc := if t = i.t ∧ g = i.g then at_ l else (s.thread t g l).pc } : Thread).arch := by
    rw [quiet.arch, h.threads]
    split_ifs with at_
    · obtain ⟨rfl, rfl⟩ := at_; exact arch l
    · rfl
  simp only [Thread.arch, Prod.mk.injEq] at threads
  refine ⟨⟨quiet.others.trans h.others, fun t => (quiet.bodies t).trans (h.bodies t), fun t g l => (threads t g l).2.2.2.2.2.2,
    fun l _ _ => ?_, fun t g l off => ?_, fun c => core c ▸ quiet.cores c, lines, ⟨y, latched⟩⟩,
    fun t g l => ⟨(threads t g l).2.2.2.2.1, (threads t g l).2.2.2.2.2.1⟩,
    ⟨fun t g l n => ?_, fun t g l n => ?_, fun t g l => (threads t g l).2.2.2.1, fun t g n => ?_⟩, latched⟩
  · rw [(threads i.t i.g l).1, if_pos ⟨rfl, rfl⟩]
  · rw [(threads t g l).1]
    split_ifs with at_
    · obtain ⟨rfl, rfl⟩ := at_; exact out l fun lane => off ⟨rfl, rfl, lane⟩
    · rfl
  · simp only [State.readV, Thread.readV, (threads t g l).2.1]
  · simp only [State.readP, Thread.readP, (threads t g l).2.2.1]
  · simp only [State.readS, Group.readS, quiet.scal, h.scal]; rfl

/-- A word that moves the ready lanes of its run past it and leaves every register. -/
theorem Still.of_moved {s b s' : State} {i : Iss} {dest : Nat → Nat} (moved : Moved s b s' i dest)
    (past : ∀ l ∈ i.run.lanes, s.readyAt i.t i.g l → dest l = i.past s l) (calls : Uncalled s s') (regs : SameRegs s s') : Still s b s' i where
  toMoved := moved.dest_congr past
  calls := calls
  regs t g l n := by rw [regs.regs]; simp
  preds t g l n := by rw [regs.preds]; simp
  modes t g l := by rw [regs.modes]; simp
  scal := regs.scal

/-! ### EXIT -/

/-- The end of a group's last thread changes cores alone. -/
theorem teams_afterEnd (s : State) (t g : Nat) : (s.afterEnd t g).teams = s.teams := by
  unfold State.afterEnd State.dropPrivate
  dsimp only
  split_ifs <;> rfl

theorem stat_exitThread {s : State} {t g : Nat} (l : Nat) (there : (amapFind? s.teams t).isSome) (t' g' k : Nat) :
    ((s.exitThread t g l).thread t' g' k).stat = if t' = t ∧ g' = g ∧ k = l then .dead else (s.thread t' g' k).stat := by
  have same (S : State) : (S.afterEnd t g).thread t' g' k = S.thread t' g' k := by
    simp only [State.thread, State.group, State.team, teams_afterEnd]
  rw [State.exitThread, same, ((Rethreaded.refl g there).updThread l fun th => th.finish false).threads]
  by_cases here : t' = t ∧ g' = g
  · obtain ⟨rfl, rfl⟩ := here
    by_cases same : k = l <;> simp [same, Thread.finish]
  · rw [if_neg here, if_neg fun ⟨e, e', _⟩ => here ⟨e, e'⟩]

theorem quiet_exitThread (s : State) (t g l : Nat) : Quiet s (s.exitThread t g l) :=
  (quiet_updThread s t g l (·.finish false) fun _ => rfl).trans (quiet_afterEnd ..)

theorem present_exitThread {s : State} {t : Nat} (g l : Nat) (there : (amapFind? s.teams t).isSome) :
    (amapFind? (s.exitThread t g l).teams t).isSome := by
  rw [State.exitThread, teams_afterEnd, State.updThread, State.updGroup, State.present_updTeam]
  exact there

/-- Lanes that exit are dead, and no other thread is. -/
theorem stat_exits (ps : List Nat) {s : State} {t : Nat} (g : Nat) (there : (amapFind? s.teams t).isSome) (t' g' k : Nat) :
    ((forEach ps s fun s l => s.exitThread t g l).thread t' g' k).stat =
      if t' = t ∧ g' = g ∧ k ∈ ps then .dead else (s.thread t' g' k).stat := by
  induction ps generalizing s with
  | nil => simp [forEach]
  | cons l ps ih =>
    have rest := ih (present_exitThread g l there)
    rw [stat_exitThread l there] at rest
    rw [forEach, List.foldl_cons, ← forEach, rest]
    by_cases here : t' = t ∧ g' = g
    · by_cases first : k = l <;> simp [first, here]
    · rw [if_neg fun ⟨e, e', _⟩ => here ⟨e, e'⟩, if_neg fun ⟨e, e', _⟩ => here ⟨e, e'⟩, if_neg fun ⟨e, e', _⟩ => here ⟨e, e'⟩]

/-! ### CONV -/

/-- Threads that wait at a CONV with their masks. -/
theorem convThreads (masks : List (Nat × Word)) (ths : AMap Thread) (l : Nat) :
    (amapGet {} (masks.foldl (fun ths x => amapInsert ths x.1 { (amapGet {} ths x.1 : Thread) with stat := .conv x.2 }) ths) l : Thread) =
      { (amapGet {} ths l : Thread) with stat := ((lastWrite masks l).map .conv).getD (amapGet {} ths l : Thread).stat } := by
  induction masks generalizing ths with
  | nil => rfl
  | cons x masks ih =>
    rw [List.foldl_cons, ih, lastWrite_cons]
    by_cases h : l = x.1
    · subst h
      simp only [amapGet_insert_same]
      cases lastWrite masks x.1 <;> simp
    · simp only [amapGet_insert_other _ _ _ _ _ h, if_neg (Ne.symm h), Option.or_none]

theorem convThreads_there (masks : List (Nat × Word)) (ths : AMap Thread) (l : Nat) (there : (amapFind? ths l).isSome) :
    (amapFind? (masks.foldl (fun ths x => amapInsert ths x.1 { (amapGet {} ths x.1 : Thread) with stat := .conv x.2 }) ths) l).isSome := by
  induction masks generalizing ths with
  | nil => exact there
  | cons x masks ih =>
    refine ih _ ?_
    by_cases h : l = x.1
    · rw [h, amapFind?_insert_same]; rfl
    · rwa [amapFind?_insert_other _ _ _ _ h]

/-- The mask that a lane of `ps` waits with, if it is not 0. -/
theorem lastWrite_masks (ps : List Nat) (mask : Nat → Word) (l : Nat) :
    lastWrite ((ps.map fun l => (l, mask l)).filter fun x => x.2 ≠ 0) l = if l ∈ ps ∧ mask l ≠ 0 then some (mask l) else none := by
  induction ps with
  | nil => rfl
  | cons k ps ih =>
    by_cases zero : mask k = 0#32
    · rw [List.map_cons, List.filter_cons_of_neg (by simp [zero]), ih]
      by_cases same : l = k
      · simp [same, zero]
      · simp [same]
    · rw [List.map_cons, List.filter_cons_of_pos (by simp [zero]), lastWrite_cons, ih]
      by_cases same : k = l
      · subst same; by_cases part : k ∈ ps <;> simp [part, zero]
      · by_cases part : l ∈ ps ∧ mask l ≠ 0 <;> simp [part, same, Ne.symm same]

/-- The state of a CONV before the end of its issue: its run has gone past it, and its participants wait with their masks. -/
def Iss.converged (i : Iss) (s : State) : State :=
  (s.advance i.t i.g (i.going s) i.o.len.bytes).updGroup i.t i.g fun gr => { gr with
    threads := ((i.parts.map fun l => (l, src32 s i l i.o.a)).filter fun x => x.2 ≠ 0).foldl
      (fun ths x => amapInsert ths x.1 { (amapGet {} ths x.1 : Thread) with stat := .conv x.2 }) gr.threads }

/-- The threads of a group that has met a CONV. -/
def Iss.convThread (i : Iss) (s : State) (l : Nat) : Thread :=
  { s.thread i.t i.g l with
    pc := if (i.going s).contains l = true ∧ s.hasLane i.t i.g l then i.past s l else (s.thread i.t i.g l).pc
    stat := if l ∈ i.parts ∧ src32 s i l i.o.a ≠ 0 then .conv (src32 s i l i.o.a) else (s.thread i.t i.g l).stat }

theorem converged_rethreaded {s : State} {i : Iss} (there : (amapFind? s.teams i.t).isSome) :
    Rethreaded s (i.converged s) i.t i.g (i.convThread s) := by
  have gone := (Rethreaded.refl i.g there).advance (i.going s) i.o.len.bytes
  refine (gone.updThreads _ (convThreads_there _)).congr fun l => ?_
  rw [convThreads, lastWrite_masks]
  have here := gone.here l
  rw [State.thread] at here
  rw [here]
  unfold Iss.convThread Iss.past
  split_ifs <;> rfl

theorem conv_eq {s : State} {o : Ops} {i : Iss} (issues : Issues s o { src := [(o.a, 1)] } i) :
    exec (.conv o) s = .next ((i.converged s.reading).endIssue i.t i.g i.run.lanes o.rb true none) := by
  rw [exec_conv, execConv, issue_eq issues false _ nofun]
  simp only [Iss.converged, issues.ops]

/-- A ready lane of the run goes on. -/
theorem going_of_ready {s : State} {i : Iss} {l : Nat} (lane : l ∈ i.run.lanes) (ready : s.readyAt i.t i.g l) :
    (i.going s).contains l = true ∧ s.hasLane i.t i.g l := by
  obtain ⟨th, found, stat⟩ := ready
  refine ⟨?_, by rw [State.hasLane, found]; rfl⟩
  simp only [Iss.going, List.contains_eq_mem, List.mem_filter, decide_eq_true_eq, State.thread, amapGet_eq_find, found]
  exact ⟨lane, stat⟩

theorem lane_of_going {s : State} {i : Iss} {l : Nat} (going : (i.going s).contains l = true) : l ∈ i.run.lanes := by
  simp only [Iss.going, List.contains_eq_mem, List.mem_filter, decide_eq_true_eq] at going
  exact going.1

/-- Settles O8: NOP and PAUSE of 0 only end their issue, EXIT ends its participants in turn, and CONV sets them to wait after its run
has gone past it. -/
theorem endsAndWaits : Obligations.EndsAndWaits := by
  unfold Obligations.EndsAndWaits
  refine ⟨fun s o i issues => ?nop, fun s o i issues => ?exit, fun s o i issues => ?conv, fun s o i issues none_ => ?idle,
    fun s o i l ls issues parts => ⟨fun zero => ?zero, fun some_ => ?pause⟩⟩
  case nop => exact ⟨_, by rw [exec_nop, execNop, issue_eq issues false _ nofun], (still_finish issues s.reading rfl _ _).1⟩
  case exit =>
    exact ⟨forEach i.parts s.reading fun S l => S.exitThread i.t i.g l, by rw [exec_exit, execExit, issue_eq issues false _ nofun],
      stat_exits i.parts i.g (there_reading issues), quiet_forEach _ _ _ fun _ _ => quiet_exitThread ..⟩
  case conv =>
    have stands := converged_rethreaded (s := s.reading) (i := i) (there_reading issues)
    refine ⟨i.converged s.reading, _, conv_eq issues, ?still, rfl, fun t g l => ?stat⟩
    case still =>
      obtain ⟨moved, calls, regs, -⟩ := stands.endIssue_moved
        (at_ := fun l => if (i.going s).contains l = true ∧ s.hasLane i.t i.g l then i.past s l else (s.thread i.t i.g l).pc)
        issues.run (fun l => rfl) (fun l off => if_neg fun ⟨going, _⟩ => off (lane_of_going going)) rfl
      exact .of_moved moved (fun l lane ready => if_pos (going_of_ready lane ready)) calls regs
    case stat =>
      rw [stands.threads, ← issues.ops]
      by_cases here : t = i.t ∧ g = i.g
      · obtain ⟨rfl, rfl⟩ := here
        simp only [Iss.convThread, true_and]
        rfl
      · rw [if_neg here, if_neg fun ⟨e, e', _⟩ => here ⟨e, e'⟩]
        rfl
  case idle =>
    refine ⟨_, by rw [exec_pause, execPause, issue_eq issues false _ nofun], ?_⟩
    rw [none_]
    exact (still_finish issues s.reading rfl _ _).1
  case zero =>
    refine ⟨_, by rw [exec_pause, execPause, issue_eq issues false _ nofun], ?_⟩
    rw [parts]
    simp only [zero, if_true]
    exact (still_finish issues s.reading rfl _ _).1
  case pause =>
    rw [exec_pause, execPause, issue_eq issues false _ nofun, parts]
    simp only [if_neg some_]
    rfl

end Sys2Proof.Machine

namespace Sys2Proof.Machine

/-! ## Special registers and progress counters (R187 to R193, R207) -/

/-- An S-form with a participant that writes nothing under NW. -/
theorem wroteS_of_nw {s b s' : State} {i : Iss} {r : List (Nat × Word)} (still : Still s b s' i) (nw : i.o.nw = true) :
    WroteS s b s' i r fun _ => none where
  toMoved := still.toMoved
  calls := still.calls
  regs t g l n := by rw [still.regs]; simp
  preds t g l n := by rw [still.preds]; simp
  modes t g l := by rw [still.modes]; simp
  scal t g n := by rw [still.scal]; simp [nw]

/-- FPM is read and written once no medium-latency result is outstanding. -/
theorem fpmHold_free {s : State} {i : Iss} (free : s.mediumOut i.t i.g i.parts = false) (code : BitVec 8) (body : State → State) :
    fpmHold code i s body = body s := by
  simp [fpmHold, free]

section
variable {s : State} {o : Ops} {i : Iss} {code : BitVec 8}

/-- SREAD of each participant is a vector issue of the register's values. -/
theorem sread_vector (issues : Issues s o { (o.uses 0 0 0 1 false) with sform := false } i) (free : s.mediumOut i.t i.g i.parts = false) :
    exec (.sread o false code) s = vecIssue o { (o.uses 0 0 0 1 false) with sform := false } true
      (fun s i l => res32 o.d (s.sreg i.t i.g l code.toNat)) s := by
  rw [exec_sread, execSread, vecIssue, issue_eq issues false _ nofun, issue_eq issues false _ nofun]
  exact congrArg Host.Outcome.next (fpmHold_free (s := s.reading) free code _)

/-- SREAD.S with a participant, where its register is written, is an S-form of the lowest one's value. -/
theorem sread_scalar {l : Nat} {ls : List Nat} (issues : Issues s o { (o.uses 0 0 0 1 true) with sform := true } i)
    (parts : i.parts = l :: ls) (free : s.mediumOut i.t i.g i.parts = false) :
    exec (.sread o true code) s = .next (i.finish
      (if o.nw then s.reading else s.reading.writeS i.t i.g o.d.toNat (s.reading.sreg i.t i.g l code.toNat)) [] false
      (some ⟨true, (s.reading.sreg i.t i.g l code.toNat).setWidth 64, []⟩)) := by
  rw [exec_sread, execSread, issue_eq issues false _ nofun, fpmHold_free (s := s.reading) free]
  simp only [parts, if_true]

theorem sread_scalar_wrote {l : Nat} {ls : List Nat} (issues : Issues s o { (o.uses 0 0 0 1 true) with sform := true } i)
    (parts : i.parts = l :: ls) (free : s.mediumOut i.t i.g i.parts = false) :
    ∃ s', exec (.sread o true code) s = .next s' ∧
      WroteS s s.reading s' i [(o.d.toNat, s.reading.sreg i.t i.g l code.toNat)] (fun _ => none) ∧
      Latched s' i (some ⟨true, (s.reading.sreg i.t i.g l code.toNat).setWidth 64, []⟩) := by
  cases nw : o.nw with
  | true =>
    refine ⟨_, sread_scalar issues parts free, ?_⟩
    rw [if_pos nw]
    obtain ⟨still, latched⟩ := still_finish issues s.reading rfl false (some ⟨true, (s.reading.sreg i.t i.g l code.toNat).setWidth 64, []⟩)
    exact ⟨wroteS_of_nw still (by rw [issues.ops, nw]), latched⟩
  | false =>
    obtain ⟨s', run, wrote, latched⟩ := scalIssue_wrote issues true (fun s i l => res32 o.d (s.sreg i.t i.g l code.toNat)) fun _ _ => ⟨rfl, rfl⟩
    rw [parts] at wrote latched
    refine ⟨s', ?_, wrote, latched⟩
    rw [← run, sread_scalar issues parts free, scalIssue, issue_eq issues false _ nofun, parts, nw]
    rfl

/-- SWRITE of legal values to FPM. -/
theorem swrite_fpm (issues : Issues s o { src := [(o.a, 1)] } i) (free : s.mediumOut i.t i.g i.parts = false)
    (legal : ∀ l ∈ i.parts, fpmLegal (src32 s.reading i l o.a) = true) :
    ∃ s', exec (.swrite o 0x20) s = .next s' ∧ Wrote s s.reading s' i fun l => { fpm := some (src32 s.reading i l o.a) } := by
  obtain ⟨s', run, wrote, -⟩ := vecIssue_wrote issues false (fun s i l =>
    if fpmLegal (src32 s i l o.a) then { fpm := some (src32 s i l o.a) } else { trap := some { cause := .illegalOperand } })
    fun l part => by rw [if_pos (legal l part)]
  refine ⟨s', ?_, wrote.congr fun l part => if_pos (legal l part)⟩
  rw [← run, exec_swrite, execSwrite, vecIssue, issue_eq issues false _ nofun, issue_eq issues false _ nofun, if_pos rfl,
    fpmHold_free (s := s.reading) free]
  rfl

/-- SWRITE of another code writes the KEY of ROWSTAT. -/
theorem swrite_key {l : Nat} {ls : List Nat} (issues : Issues s o { src := [(o.a, 1)] } i) (parts : i.parts = l :: ls) (other : code ≠ 0x20) :
    exec (.swrite o code) s = .next (i.finish (s.reading.updGroup i.t i.g fun gr =>
      { gr with rowKey := (src32 s.reading i l o.a >>> 24).setWidth 8 }) [] false none) := by
  rw [exec_swrite, execSwrite, issue_eq issues false _ nofun, if_neg other, parts]

/-- PROG of a counter that there is. -/
theorem prog_counts {l : Nat} {ls : List Nat} (issues : Issues s o { src := [(o.a, 1)] } i) (parts : i.parts = l :: ls)
    (small : (src32 s.reading i l o.a).toNat < 16) : exec (.prog o) s = .next (i.finish (s.reading.updSpace (s.spaceOf i.t) fun sp =>
      { sp with prog := amapInsert sp.prog (src32 s.reading i l o.a).toNat
                          (amapGet 0 sp.prog (src32 s.reading i l o.a).toNat + BitVec.ofNat 64 i.parts.length) }) [] false none) := by
  rw [exec_prog, execProg, issue_eq issues false _ nofun]
  simp only [parts, if_neg (Nat.not_le.2 small)]
  rfl

end

/-- Settles O9: SREAD is an issue of the registers' values, SWRITE of FPM a vector issue of legal modes, and PROG changes its space
alone. -/
theorem specialRegisters : Obligations.SpecialRegisters := by
  unfold Obligations.SpecialRegisters
  refine ⟨fun s o i code issues free => ?sread, fun s o i l ls code issues parts free => sread_scalar_wrote issues parts free,
    fun s o i code issues => ?sreadW, fun s o i issues free legal => swrite_fpm issues free legal,
    fun s o i l ls code issues parts other => swrite_key issues parts other, fun s o i l ls issues parts small => ?prog⟩
  case sread =>
    rw [sread_vector issues free]
    exact vecIssue_wrote issues true _ fun _ _ => rfl
  case sreadW =>
    obtain ⟨s', run, wrote, -⟩ := vecIssue_wrote issues true (fun s i _ =>
      res64 o.d (BitVec.ofNat 64 (if code = 0x18 then s.clockOf (s.team i.t).core else s.devtime))) fun _ _ => rfl
    exact ⟨s', run, wrote⟩
  case prog => exact ⟨_, prog_counts issues parts small, (still_finish issues (s.reading.updSpace _ _) rfl _ _).1⟩

end Sys2Proof.Machine

namespace Sys2Proof.Machine

/-! ## Lane exchange (R194 to R200) -/

/-- An exchange that no named lane holds up performs. -/
theorem exchange_performs {s : State} {i : Iss} {named : List Nat} (there : i.allThere s named) (body : State → State) :
    exchange i s.reading named body = body s.reading := by
  have there : (named.any fun n => (s.reading.group i.t i.g).holdsUp i.run.lanes n) = false := there
  simp only [exchange, there, Bool.false_eq_true, if_false]

/-! ### LXCH (R196) -/

theorem LxForm.exec_eq {x : Instr} {o : Ops} {k : LxKind} {w pv : BitVec 3} (h : LxForm x o k w pv) (s : State) :
    exec x s = lxch k o w pv s := by
  cases h <;> rfl

theorem lxch_queues {s : State} {o : Ops} {i : Iss} {k : LxKind} {w pv : BitVec 3}
    (issues : Issues s o {
      src := (o.a, 1) :: (if k = .rev then [] else [(o.b, 1)]) ++ [(o.c, 1)], vd := [(o.d.toNat, 1)]
      pw := if pv = 7 then [] else [pv.toNat] } i) (some_ : i.parts ≠ [])
    (there : i.allThere s (i.parts.map fun l => (k.source (2 ^ w.toNat) l (src32 s.reading i l o.b)).1)) :
    ∃ s', lxch k o w pv s = .next s' ∧
      Still s (s.reading.addPend ⟨i.t, i.g, true, false,
        i.parts.map fun l =>
          let from_ := k.source (2 ^ w.toNat) l (src32 s.reading i l o.b)
          (l, o.d.toNat, if i.parts.contains from_.1 then src32 s.reading i from_.1 o.a else src32 s.reading i l o.c),
        if pv = 7 then [] else i.parts.map fun l =>
          let from_ := k.source (2 ^ w.toNat) l (src32 s.reading i l o.b)
          (l, pv.toNat, i.parts.contains from_.1 && from_.2)⟩) s' i := by
  refine ⟨_, ?_, (medium_still issues _ _ fun ⟨none_, _⟩ => some_ (List.map_eq_nil_iff.1 none_)).1⟩
  rw [lxch, issue_eq issues false _ nofun]
  simp only [List.map_map]
  rw [show ((fun x : Nat × Nat × Bool => x.2.1) ∘ fun l => (l, k.source (2 ^ w.toNat) l (src32 s.reading i l o.b))) =
    fun l => (k.source (2 ^ w.toNat) l (src32 s.reading i l o.b)).1 from rfl, exchange_performs there]
  congr 2
  · refine List.map_congr_left fun l _ => ?_
    simp only [Function.comp_apply]
    split_ifs <;> rfl
  · refine ite_congr rfl (fun _ => rfl) fun _ => List.map_congr_left fun l _ => ?_
    simp only [Function.comp_apply]
    generalize i.parts.contains _ = here
    cases here <;> rfl

theorem lxchS_queues {s : State} {o : Ops} {i : Iss} {l : Nat} {ls : List Nat} {pv : BitVec 3}
    (issues : Issues s o { src := [(o.a, 1), (o.b, 1)], sd := [(o.d.toNat, 1)], pw := if pv = 7 then [] else [pv.toNat] } i)
    (parts : i.parts = l :: ls) (there : i.allThere s [(src32 s.reading i l o.b).toNat % 32]) :
    exec (.lxchS o pv) s = .next (i.mediumS s.reading
      (if i.parts.contains ((src32 s.reading i l o.b).toNat % 32)
        then [(o.d.toNat, src32 s.reading i ((src32 s.reading i l o.b).toNat % 32) o.a)] else [])
      (if pv = 7 then [] else i.parts.map fun l' => (l', pv.toNat, i.parts.contains ((src32 s.reading i l o.b).toNat % 32)))) := by
  rw [exec_lxchS, execLxchS, issue_eq issues false _ nofun]
  generalize here : i.parts.contains _ = h
  simp only [parts] at here ⊢
  rw [exchange_performs there]
  subst here
  rfl

/-- Settles O10: an exchange that performs queues its results and only ends its issue. -/
theorem laneExchanges : Obligations.LaneExchanges := by
  unfold Obligations.LaneExchanges
  refine ⟨fun x o k w pv form s i issues some_ there => ?_, fun s o pv i l ls issues parts there => lxchS_queues issues parts there⟩
  rw [form.exec_eq]
  exact lxch_queues issues some_ there

/-! ### Masked words (R195, R197 to R200) -/

/-- A masked word with a participant, once the lanes of its mask have come, performs over those of them that take part. -/
theorem masked_performs {s : State} {o : Ops} {u : Uses} {i : Iss} {l : Nat} {ls : List Nat}
    (issues : Issues s o { u with src := u.src ++ [(o.c, 1)] } i) (parts : i.parts = l :: ls)
    (there : i.allThere s (maskLanes (src32 s.reading i l o.c))) (body : Iss → List Nat → State → State) :
    masked o u body s = .next (body i ((maskLanes (src32 s.reading i l o.c)).filter fun k => i.parts.contains k) s.reading) := by
  rw [masked, issue_eq issues false _ nofun]
  simp only [parts]
  rw [exchange_performs there]

/-- A masked word queues the results of its form. -/
theorem MaskedForm.exec_eq {x : Instr} {o : Ops} {u : Uses} {regs : State → Iss → List Nat → List (Nat × Nat × Word)}
    {preds : State → Iss → List Nat → List (Nat × Nat × Bool)} (h : MaskedForm x o u regs preds) (s : State) :
    exec x s = masked o u (fun i ps s => i.medium s (regs s i ps) (preds s i ps)) s := by
  cases h with
  | lqryAll o neg q => simp only [exec_lqryAll, execLqryAll, lqry, List.all_map]; rfl
  | lqryAny o neg q => simp only [exec_lqryAny, execLqryAny, lqry, List.any_map]; rfl
  | lqrySame o neg q =>
    have off (b : Bool) : (!(b != neg)) = (b == neg) := by cases b <;> cases neg <;> rfl
    simp only [exec_lqrySame, execLqrySame, lqry, List.all_map, srcP, Function.comp_def, off]; rfl
  | lgathRank o neg q =>
    simp only [exec_lgath, execLgath, List.filter_filter, Bool.false_eq_true, if_false, if_true, srcP, Bool.and_comm]
  | match_ o =>
    have narrow (a b : Word) : (a.setWidth 64 == b.setWidth 64) = (a == b) := by
      rw [Bool.eq_iff_iff, beq_iff_eq, beq_iff_eq, ← BitVec.toNat_inj, ← BitVec.toNat_inj, BitVec.toNat_setWidth, BitVec.toNat_setWidth]
      omega
    simp only [exec_match_, execMatch, Bool.false_eq_true, if_false, narrow]
  | lgathMask | match64 | redl => rfl

/-- The scalar register that a masked word's result is queued for. -/
theorem MaskedScalarForm.exec_eq {x : Instr} {o : Ops} {u : Uses} {val : State → Iss → List Nat → Word} (h : MaskedScalarForm x o u val)
    (s : State) : exec x s = masked o u (fun i ps s => i.mediumS s [(o.d.toNat, val s i ps)] []) s := by
  cases h <;> rfl

/-- A masked word queues a result for each participant. -/
theorem MaskedForm.queues {x : Instr} {o : Ops} {u : Uses} {regs : State → Iss → List Nat → List (Nat × Nat × Word)}
    {preds : State → Iss → List Nat → List (Nat × Nat × Bool)} (h : MaskedForm x o u regs preds) (s : State) {i : Iss}
    (some_ : i.parts ≠ []) (ps : List Nat) : ¬ (regs s i ps = [] ∧ preds s i ps = []) := by
  cases h <;> simp [some_]

/-- One result that is queued for a scalar register, and nothing for predicates. -/
theorem mediumS_still {s : State} {o : Ops} {u : Uses} {i : Iss} (issues : Issues s o u i) (d : Nat) (v : Word) :
    Still s (s.reading.addPend ⟨i.t, i.g, true, true, [(0, d, v)], []⟩) (i.mediumS s.reading [(d, v)] []) i :=
  (still_finish issues (s.reading.addPend ⟨i.t, i.g, true, true, [(0, d, v)], []⟩) rfl false none).1

/-- Settles O11: a masked word that performs queues its results and only ends its issue. -/
theorem maskedWords : Obligations.MaskedWords := by
  unfold Obligations.MaskedWords
  refine ⟨fun x o u regs preds form s i l ls issues parts there => ?vector, fun x o u val form s i l ls issues parts there => ?scalar⟩
  case vector =>
    refine ⟨_, by rw [form.exec_eq, masked_performs issues parts there], (medium_still issues _ _ ?_).1⟩
    exact form.queues _ (by simp [parts]) _
  case scalar =>
    exact ⟨_, (form.exec_eq s).trans (masked_performs issues parts there _), mediumS_still issues ..⟩

/-! ### REDL.F and FSETP (R176, R200, R207) -/

theorem redlF_queues {s : State} {o : Ops} {i : Iss} {l : Nat} {ls : List Nat} {op : FRedOp} {rnd : Rnd} {v : Nat}
    (issues : Issues s o { src := [(o.a, 1)] ++ [(o.c, 1)], vd := [(o.d.toNat, 1)] } i) (parts : i.parts = l :: ls)
    (there : i.allThere s (maskLanes (src32 s.reading i l o.c))) (r : Option Nat × FFlags)
    (tree : r = redlTree op (fpmRnd (s.thread i.t i.g l).fpm rnd) (s.thread i.t i.g l).fpm 5 ((List.range 32).map fun k =>
      if ((maskLanes (src32 s.reading i l o.c)).filter fun k => i.parts.contains k).contains k
        then some (srcF .f32 s.reading i k o.a).toNat else none))
    (value : r.1 = some v) (clean : fpTrap (fpmTraps (s.thread i.t i.g l).fpm) r.2 = none) :
    exec (.redlF o op rnd) s = .next (i.medium (s.reading.updThread i.t i.g l fun th => { th with fpm := fpmRaise th.fpm r.2 })
      (i.parts.map fun l => (l, o.d.toNat, BitVec.ofNat 32 v)) []) := by
  have first : i.parts.headD 0 = l := by rw [parts]; rfl
  rw [exec_redlF]
  unfold execRedlF
  refine (masked_performs (u := { src := [(o.a, 1)], vd := [(o.d.toNat, 1)] }) issues parts there _).trans ?_
  simp only [first]
  have tree' : redlTree op (fpmRnd (s.reading.thread i.t i.g l).fpm rnd) (s.reading.thread i.t i.g l).fpm 5 ((List.range 32).map fun k =>
      if ((maskLanes (src32 s.reading i l o.c)).filter fun k => i.parts.contains k).contains k
        then some (srcF .f32 s.reading i k o.a).toNat else none) = r := tree.symm
  have clean' : fpTrap (fpmTraps (s.reading.thread i.t i.g l).fpm) r.2 = none := clean
  rw [tree', clean', value]

/-- An exception raises no trap where invalid alone could and is not enabled, or not raised. -/
theorem fpTrap_invalid_none {enabled : FFlags} {raised : Bool} (clean : raised = false ∨ enabled.getLsbD 4 = false) :
    fpTrap (enabled &&& flInv) (if raised then flInv else 0) = none := by
  revert enabled raised
  decide

/-- A vector issue without a latch, of lanes whose results are known. -/
theorem vecIssue_wrote_eq {s : State} {o : Ops} {u : Uses} {i : Iss} (issues : Issues s o u i) (f : State → Iss → Nat → LaneRes)
    (r : Nat → LaneRes) (lanes : ∀ l ∈ i.parts, f s.reading i l = r l) (untrapped : ∀ l ∈ i.parts, (r l).trap = none) :
    ∃ s', vecIssue o u false f s = .next s' ∧ Wrote s s.reading s' i r ∧ Latched s' i none := by
  obtain ⟨s', run, wrote, latched⟩ := vecIssue_wrote issues false f fun l part => by rw [lanes l part, untrapped l part]
  exact ⟨s', run, wrote.congr lanes, latched⟩

/-- The comparisons of two words' elements, each with whether it raises invalid (R176). -/
def fcmpElems (ty : FTy) (cmp : Cmp) (fpm a b : Word) : List (Bool × Bool) :=
  (List.range (elemsOf ty a).length).map fun n => fcmpElem (fmtOf ty) fpm cmp ((elemsOf ty a).getD n 0) ((elemsOf ty b).getD n 0)

theorem fsetp_wrote {s : State} {o : Ops} {i : Iss} {ty : FTy} {op : CmpOp} {qn : Bool} {q : BitVec 3} {cmp : Cmp}
    (issues : Issues s o (o.usesP 1 1 0 [q.toNat]) i) (el : Nat → List (Bool × Bool))
    (elems : ∀ l, el l = fcmpElems ty cmp (s.thread i.t i.g l).fpm (srcF ty s.reading i l o.a) (srcF ty s.reading i l o.b))
    (clean : ∀ l ∈ i.parts, (el l).any (·.2) = false ∨ (fpmTraps (s.thread i.t i.g l).fpm).getLsbD 4 = false) :
    ∃ s', exec (.fsetp o ty op qn q cmp) s = .next s' ∧
      (Wrote s s.reading s' i fun l => resP o.d (combineP op ((el l).all (·.1)) (s.readP i.t i.g l q.toNat != qn))) ∧
      Latched s' i none := by
  rw [exec_fsetp]
  refine vecIssue_wrote_eq issues _ _ (fun l part => ?_) fun _ _ => rfl
  have untrapped : fpTrap (fpmTraps (s.reading.thread i.t i.g l).fpm &&& flInv) (if (el l).any (·.2) then flInv else 0) = none :=
    fpTrap_invalid_none (clean l part)
  rw [elems] at untrapped ⊢
  exact (congrArg (fun tr : Option Trap => match tr with
    | some t => ({ trap := some t } : LaneRes)
    | none => resP o.d (combineP op ((fcmpElems ty cmp (s.thread i.t i.g l).fpm (srcF ty s.reading i l o.a)
        (srcF ty s.reading i l o.b)).all (·.1)) (s.readP i.t i.g l q.toNat != qn))) untrapped :)

/-- Settles O12: REDL.F is a masked word that queues the tree's result, and FSETP a vector issue of predicates. -/
theorem floatReduceAndCompare : Obligations.FloatReduceAndCompare := by
  unfold Obligations.FloatReduceAndCompare
  exact ⟨fun s o op rnd i l ls issues parts there v value clean => redlF_queues issues parts there _ rfl value clean,
    fun s o ty op qn q cmp i issues clean => fsetp_wrote issues _ (fun _ => rfl) clean⟩

end Sys2Proof.Machine

namespace Sys2Proof.Machine

/-! ## Logic, shifts and fields, bit by bit (R172 to R174)

Each function of the model meets the relation that the specification states in unbounded arithmetic or on single bits. -/

/-- A word put together bit by bit. -/
theorem getLsbD_foldl_bits (p : Nat → Bool) (n k : Nat) (small : k < 32) :
    ((List.range n).foldl (fun d j => if p j then d ||| BitVec.ofNat 32 (2 ^ j) else d) (0 : Word)).getLsbD k = (decide (k < n) && p k) := by
  induction n with
  | zero => simp
  | succ n ih =>
    rw [List.range_succ, List.foldl_append, List.foldl_cons, List.foldl_nil]
    have bit : (BitVec.ofNat 32 (2 ^ n)).getLsbD k = decide (n = k) := by
      rw [BitVec.getLsbD_ofNat, Nat.testBit_two_pow]; simp [small]
    generalize List.foldl _ _ _ = d at ih
    generalize BitVec.ofNat 32 (2 ^ n) = w at bit
    by_cases last : n = k
    · subst last
      cases at_ : p n <;> simp [ih, bit, at_]
    · have bound : (k ≤ n) = (k < n) := by rw [eq_iff_iff]; omega
      cases at_ : p n <;> simp [ih, bit, last, bound]

theorem getLsbD_lgc3Fn (table : BitVec 8) (a b c : Word) {k : Nat} (small : k < 32) : (lgc3Fn table a b c).getLsbD k =
    table.getLsbD ((a.getLsbD k).toNat + 2 * (b.getLsbD k).toNat + 4 * (c.getLsbD k).toNat) := by
  rw [lgc3Fn, getLsbD_foldl_bits _ _ _ small]
  simp [small]

theorem toNat_shlFn (wrap : Bool) (a b : Word) :
    (shlFn wrap a b).toNat = if 32 ≤ shiftCount wrap b then 0 else a.toNat * 2 ^ shiftCount wrap b % 2 ^ 32 := by
  unfold shlFn
  dsimp only
  split_ifs
  · rfl
  · rw [BitVec.toNat_shiftLeft, Nat.shiftLeft_eq]

theorem toNat_shrFn (wrap : Bool) (a b : Word) :
    (shrFn wrap a b).toNat = if 32 ≤ shiftCount wrap b then 0 else a.toNat / 2 ^ shiftCount wrap b := by
  unfold shrFn
  dsimp only
  split_ifs
  · rfl
  · rw [BitVec.toNat_ushiftRight, Nat.shiftRight_eq_div_pow]

theorem toInt_sarFn (wrap : Bool) (a b : Word) : (sarFn wrap a b).toInt = a.toInt / 2 ^ min (shiftCount wrap b) 31 := by
  rw [sarFn, BitVec.toInt_sshiftRight, Int.shiftRight_eq_div_pow]
  norm_cast

theorem toNat_rotFn (a b : Word) :
    (rotFn a b).toNat = a.toNat * 2 ^ (b.toNat % 32) % 2 ^ 32 + a.toNat / 2 ^ (32 - b.toNat % 32) := by
  have small : b.toNat % 32 < 32 := Nat.mod_lt _ (by decide)
  rw [rotFn]
  generalize b.toNat % 32 = n at small ⊢
  have split : 2 ^ 32 = 2 ^ (32 - n) * 2 ^ n := by rw [← Nat.pow_add, Nat.sub_add_cancel small.le]
  have low : a.toNat / 2 ^ (32 - n) < 2 ^ n := Nat.div_lt_of_lt_mul (split ▸ a.isLt)
  have high : a.toNat * 2 ^ n % 2 ^ 32 = (a.toNat % 2 ^ (32 - n)) <<< n := by rw [split, Nat.mul_mod_mul_right, Nat.shiftLeft_eq]
  rw [BitVec.toNat_rotateLeft, Nat.mod_eq_of_lt small, Nat.shiftLeft_eq, Nat.shiftRight_eq_div_pow, high,
    Nat.shiftLeft_add_eq_or_of_lt low]

theorem toNat_fshfFn_right (a b c : Word) : (fshfFn false a b c).toNat = (b.toNat * 2 ^ 32 + a.toNat) / 2 ^ min c.toNat 32 % 2 ^ 32 :=
  BitVec.toNat_ofNat ..

theorem toNat_fshfFn_left (a b c : Word) :
    (fshfFn true a b c).toNat = (b.toNat * 2 ^ 32 + a.toNat) * 2 ^ min c.toNat 32 / 2 ^ 32 % 2 ^ 32 :=
  BitVec.toNat_ofNat ..

theorem getLsbD_bfiFn (a b c : Word) {k : Nat} (small : k < 32) :
    let pos := min (c.toNat % 256) 32
    let len := min (c.toNat / 256 % 256) 32
    (bfiFn a b c).getLsbD k = if pos ≤ k ∧ k < pos + len then a.getLsbD (k - pos) else b.getLsbD k := by
  intro pos len
  have mask : (BitVec.ofNat 32 ((2 ^ len - 1) * 2 ^ pos)).getLsbD k = decide (pos ≤ k ∧ k < pos + len) := by
    rw [BitVec.getLsbD_ofNat, Nat.testBit_mul_two_pow, Nat.testBit_two_pow_sub_one, Bool.eq_iff_iff]
    simp only [Bool.and_eq_true, decide_eq_true_eq]
    omega
  have shifted (there : pos ≤ k) : (BitVec.ofNat 32 (a.toNat * 2 ^ pos)).getLsbD k = a.getLsbD (k - pos) := by
    rw [BitVec.getLsbD_ofNat, Nat.testBit_mul_two_pow]
    simp [small, there, BitVec.testBit_toNat]
  show ((b &&& ~~~ BitVec.ofNat 32 ((2 ^ len - 1) * 2 ^ pos)) |||
    (BitVec.ofNat 32 (a.toNat * 2 ^ pos) &&& BitVec.ofNat 32 ((2 ^ len - 1) * 2 ^ pos))).getLsbD k = _
  rw [BitVec.getLsbD_or, BitVec.getLsbD_and, BitVec.getLsbD_and, BitVec.getLsbD_not, mask]
  by_cases within : pos ≤ k ∧ k < pos + len
  · simp [within, shifted within.1]
  · simp [within, small]

theorem popCount_eq (n x : Nat) : popCount n x = ((List.range n).filter x.testBit).length := by
  induction n generalizing x with
  | zero => rfl
  | succ n ih =>
    rw [popCount, ih, List.range_succ_eq_map, List.filter_cons, List.filter_map, Nat.testBit_zero]
    have shift : x.testBit ∘ Nat.succ = (x / 2).testBit := funext fun k => Nat.testBit_succ x k
    rw [shift]
    rcases Nat.mod_two_eq_zero_or_one x with even | odd
    · simp [even]
    · simp [odd]; omega

theorem toNat_popcFn (a : Word) : (popcFn a).toNat = ((List.range 32).filter a.getLsbD).length := by
  have few := List.length_filter_le a.getLsbD (List.range 32)
  rw [List.length_range] at few
  rw [popcFn, BitVec.toNat_ofNat, popCount_eq]
  exact Nat.mod_eq_of_lt (Nat.lt_of_le_of_lt few (by decide))

theorem clzFn_counts (a : Word) : (clzFn a).toNat ≤ 32 ∧ a.toNat < 2 ^ (32 - (clzFn a).toNat) ∧
    ((clzFn a).toNat < 32 → a.getLsbD (31 - (clzFn a).toNat) = true) := by
  unfold clzFn
  by_cases zero : a = 0
  · subst zero; decide
  · have nonzero : a.toNat ≠ 0 := fun h => zero (BitVec.eq_of_toNat_eq h)
    have small : a.toNat.log2 < 32 := (Nat.log2_lt nonzero).2 a.isLt
    have count : (BitVec.ofNat 32 (31 - a.toNat.log2)).toNat = 31 - a.toNat.log2 := by
      rw [BitVec.toNat_ofNat]; omega
    rw [if_neg zero, count]
    refine ⟨by omega, ?_, fun _ => ?_⟩
    · rw [show 32 - (31 - a.toNat.log2) = a.toNat.log2 + 1 by omega]
      exact Nat.lt_log2_self
    · rw [show 31 - (31 - a.toNat.log2) = a.toNat.log2 by omega]
      exact Nat.testBit_log2 nonzero

theorem testBit_brevBits (n x acc k : Nat) :
    (brevBits n x acc).testBit k = if k < n then x.testBit (n - 1 - k) else acc.testBit (k - n) := by
  induction n generalizing x acc with
  | zero => simp [brevBits]
  | succ n ih =>
    rw [brevBits, ih]
    by_cases low : k < n
    · rw [if_pos low, if_pos (by omega), ← Nat.testBit_succ, show (n - 1 - k).succ = n + 1 - 1 - k by omega]
    · rw [if_neg low]
      have double : 2 * acc + x % 2 = 2 ^ 1 * acc + x % 2 := rfl
      rw [double, Nat.testBit_two_pow_mul_add _ (by omega)]
      by_cases first : k = n
      · subst first; simp
      · rw [if_neg (by omega), if_neg (by omega), show k - n - 1 = k - (n + 1) by omega]

theorem getLsbD_brevFn (a : Word) {k : Nat} (small : k < 32) : (brevFn a).getLsbD k = a.getLsbD (31 - k) := by
  rw [brevFn, BitVec.getLsbD_ofNat, testBit_brevBits]
  simp [small, BitVec.testBit_toNat]

/-- Bit `k` of byte `j`. -/
theorem testBit_byte (x j : Nat) {k : Nat} (small : k < 8) : x.testBit (8 * j + k) = (x / 2 ^ (8 * j) % 256).testBit k := by
  rw [show 256 = 2 ^ 8 from rfl, Nat.testBit_mod_two_pow, Nat.testBit_div_two_pow, Nat.add_comm]
  simp [small]

theorem testBit_byselByte (sel ba : Nat) {k : Nat} (small : k < 8) : (byselByte sel ba).testBit k =
    if sel / 16 % 4 = 0 then ba.testBit (8 * (sel % 8) + k)
    else if sel / 16 % 4 = 1 then false
    else if sel / 16 % 4 = 2 then ba.testBit (8 * (sel % 8) + 7)
    else ba.testBit (8 * (sel % 8) + (7 - k)) := by
  have byte {m : Nat} (m8 : m < 8) := testBit_byte ba (sel % 8) m8
  rw [byte small, byte (by decide : 7 < 8), byte (by omega : 7 - k < 8)]
  unfold byselByte
  dsimp only
  generalize hx : ba / 2 ^ (8 * (sel % 8)) % 256 = x
  have x_lt : x < 256 := by omega
  have mode : sel / 16 % 4 < 4 := Nat.mod_lt _ (by decide)
  generalize sel / 16 % 4 = m at mode ⊢
  interval_cases m
  · rfl
  · simp
  · have sign : x.testBit 7 = decide (128 ≤ x) := by
      rw [Nat.testBit_eq_decide_div_mod_eq, decide_eq_decide]; omega
    by_cases neg : 128 ≤ x
    · have ones : (2 ^ 8 - 1).testBit k = true := by rw [Nat.testBit_two_pow_sub_one]; simpa using small
      simpa [sign, neg] using ones
    · simp [sign, neg]
  · simp [testBit_brevBits, small]

theorem brevBits_lt (x : Nat) : brevBits 8 x 0 < 256 :=
  Nat.lt_pow_two_of_testBit (n := 8) _ fun k big => by rw [testBit_brevBits, if_neg (by omega), Nat.zero_testBit]

theorem byselByte_lt (sel ba : Nat) : byselByte sel ba < 256 := by
  unfold byselByte
  dsimp only
  split
  · exact Nat.mod_lt _ (by decide)
  · decide
  · split_ifs <;> decide
  · exact brevBits_lt _

/-- Four bytes put together. -/
theorem byte_sum (y : Nat → Nat) (bytes : ∀ n, y n < 256) {j : Nat} (small : j < 4) :
    (List.range 4).foldl (fun d k => d + 256 ^ k * y k) 0 % 2 ^ 32 / 2 ^ (8 * j) % 256 = y j := by
  have b0 := bytes 0
  have b1 := bytes 1
  have b2 := bytes 2
  have b3 := bytes 3
  simp only [show List.range 4 = [0, 1, 2, 3] from rfl, List.foldl_cons, List.foldl_nil]
  interval_cases j <;> omega

theorem getLsbD_byselFn (a b c : Word) {j k : Nat} (word : j < 4) (byte : k < 8) :
    let sel := c.toNat / 2 ^ (8 * j) % 256
    let x (k : Nat) : Bool := (b ++ a).getLsbD (8 * (sel % 8) + k)
    (byselFn a b c).getLsbD (8 * j + k) =
      if sel / 16 % 4 = 0 then x k else if sel / 16 % 4 = 1 then false else if sel / 16 % 4 = 2 then x 7 else x (7 - k) := by
  intro sel x
  have source (m : Nat) : (a.toNat + 2 ^ 32 * b.toNat).testBit m = (b ++ a).getLsbD m := by
    rw [← BitVec.testBit_toNat, BitVec.toNat_append, ← Nat.shiftLeft_add_eq_or_of_lt a.isLt, Nat.shiftLeft_eq, Nat.mul_comm, Nat.add_comm]
  have power : c.toNat / 2 ^ (8 * j) = c.toNat / 256 ^ j := by rw [Nat.pow_mul]
  rw [← BitVec.testBit_toNat, testBit_byte _ j byte, byselFn, BitVec.toNat_ofNat, byte_sum _ (fun _ => byselByte_lt ..) word,
    testBit_byselByte _ _ byte]
  simp only [source, ← power]
  rfl

/-! ### BFE -/

/-- The bits of a field of `len` bits, extended with its sign where `signed`. -/
theorem getLsbD_field (y : Word) {len k : Nat} (len_le : len ≤ 32) (pos : len ≠ 0) (small : k < 32) (signed : Bool) :
    let f : Int := ((y.toNat % 2 ^ len : Nat) : Int)
    (if signed && decide ((2 ^ (len - 1) : Int) ≤ f) then BitVec.ofInt 32 (f - 2 ^ len) else BitVec.ofInt 32 f).getLsbD k =
      if k < len then y.getLsbD k else signed && y.getLsbD (len - 1) := by
  intro f
  have f_lt : y.toNat % 2 ^ len < 2 ^ len := Nat.mod_lt _ (Nat.two_pow_pos len)
  have bits (m : Nat) : (y.toNat % 2 ^ len).testBit m = (decide (m < len) && y.getLsbD m) := by
    rw [Nat.testBit_mod_two_pow, BitVec.testBit_toNat]
  have sign : decide ((2 ^ (len - 1) : Int) ≤ f) = y.getLsbD (len - 1) := by
    have top := bits (len - 1)
    rw [decide_eq_true (by omega), Bool.true_and] at top
    rw [← top]
    by_cases high : 2 ^ (len - 1) ≤ y.toNat % 2 ^ len
    · rw [Nat.testBit_of_two_pow_le_and_two_pow_add_one_gt high (by rwa [Nat.sub_add_cancel (by omega)])]
      exact decide_eq_true (by simp only [f]; exact_mod_cast high)
    · rw [Nat.testBit_lt_two_pow (Nat.not_le.1 high)]
      exact decide_eq_false (by simp only [f]; exact_mod_cast high)
  rw [sign]
  cases negative : signed && y.getLsbD (len - 1)
  · simp only [Bool.false_eq_true, if_false]
    rw [BitVec.ofInt_natCast, BitVec.getLsbD_ofNat, bits]
    by_cases within : k < len <;> simp [within, small]
  · have extended : BitVec.ofInt 32 (f - 2 ^ len) = BitVec.ofNat 32 (2 ^ len * (2 ^ (32 - len) - 1) + y.toNat % 2 ^ len) := by
      have whole : 2 ^ len * 2 ^ (32 - len) = 2 ^ 32 := by rw [← Nat.pow_add, Nat.add_sub_cancel' len_le]
      have value : ((2 ^ len * (2 ^ (32 - len) - 1) + y.toNat % 2 ^ len : Nat) : Int) = f - 2 ^ len + (2 ^ 32 : Nat) := by
        rw [← whole, Nat.mul_sub_one, Nat.cast_add, Nat.cast_sub (Nat.le_mul_of_pos_right _ (Nat.two_pow_pos _))]
        simp only [f]
        push_cast
        ring
      rw [← BitVec.ofInt_natCast, value]
      apply BitVec.eq_of_toNat_eq
      rw [BitVec.toNat_ofInt, BitVec.toNat_ofInt, Int.add_emod_right]
    simp only [if_true, extended]
    rw [BitVec.getLsbD_ofNat, Nat.testBit_two_pow_mul_add _ f_lt, bits, Nat.testBit_two_pow_sub_one]
    by_cases within : k < len
    · simp [within, small]
    · have ones : k - len < 32 - len := by omega
      simp [within, small, ones]

/-- The operand of BFE, shifted to its field. -/
def bfeShift (ty : IntTy) (a : Word) (pos : Nat) : Word := if IntTy.signed ty then a.sshiftRight pos else a >>> pos

/-- The low bits of a word read signed are those of the word read unsigned. -/
theorem toInt_emod_two_pow (y : Word) {len : Nat} (len_le : len ≤ 32) : y.toInt % 2 ^ len = ((y.toNat % 2 ^ len : Nat) : Int) := by
  have whole : ((2 ^ 32 : Nat) : Int) = 2 ^ len * 2 ^ (32 - len) := by
    rw [← pow_add, Nat.add_sub_cancel' len_le]; norm_cast
  rw [BitVec.toInt_eq_msb_cond]
  split_ifs
  · rw [whole, Int.sub_mul_emod_self_left]; norm_cast
  · norm_cast

/-- BFE reads its field from the shifted operand. -/
theorem bfeFn_eq (ty : IntTy) (a b c : Word) :
    let len := min c.toNat 32
    let f : Int := (((bfeShift ty a (min b.toNat 32)).toNat % 2 ^ len : Nat) : Int)
    bfeFn ty a b c = if len = 0 then 0
      else if IntTy.signed ty && decide ((2 ^ (len - 1) : Int) ≤ f) then BitVec.ofInt 32 (f - 2 ^ len) else BitVec.ofInt 32 f := by
  intro len f
  have len_le : len ≤ 32 := Nat.min_le_right ..
  have field : (if IntTy.signed ty then a.toInt else (a.toNat : Int)) / 2 ^ min b.toNat 32 % 2 ^ len = f := by
    simp only [f, bfeShift]
    cases IntTy.signed ty
    · simp only [Bool.false_eq_true, if_false, BitVec.toNat_ushiftRight, Nat.shiftRight_eq_div_pow]
      norm_cast
    · have shifted : a.toInt / 2 ^ min b.toNat 32 = (a.sshiftRight (min b.toNat 32)).toInt := by
        rw [BitVec.toInt_sshiftRight, Int.shiftRight_eq_div_pow]; norm_cast
      simp only [if_true]
      rw [shifted, toInt_emod_two_pow _ len_le]
  simp only [bfeFn]
  rw [field]

theorem getLsbD_bfeShift {ty : IntTy} (narrow : ty = .i32 ∨ ty = .n32) (a : Word) (pos : Nat) {k : Nat} (small : k < 32) :
    (bfeShift ty a pos).getLsbD k = if pos + k ≤ 31 then a.getLsbD (pos + k) else ty == .i32 && a.getLsbD 31 := by
  have bound : (pos + k ≤ 31) = (pos + k < 32) := by rw [eq_iff_iff]; omega
  rcases narrow with rfl | rfl
  · show (a.sshiftRight pos).getLsbD k = if pos + k ≤ 31 then a.getLsbD (pos + k) else true && a.getLsbD 31
    rw [BitVec.getLsbD_sshiftRight, BitVec.msb_eq_getLsbD_last]
    simp [small, bound]
  · by_cases within : pos + k < 32
    · simp [bfeShift, IntTy.signed, bound, within]
    · simp [bfeShift, IntTy.signed, bound, within, BitVec.getLsbD_of_ge, Nat.not_lt.1 within]

theorem getLsbD_bfeFn {ty : IntTy} (narrow : ty = .i32 ∨ ty = .n32) (a b c : Word) {k : Nat} (small : k < 32) :
    let pos := min b.toNat 32
    let len := min c.toNat 32
    let f (k : Nat) : Bool := if pos + k ≤ 31 then a.getLsbD (pos + k) else ty == .i32 && a.getLsbD 31
    (bfeFn ty a b c).getLsbD k = if k < len then f k else ty == .i32 && len != 0 && f (len - 1) := by
  intro pos len f
  have len_le : len ≤ 32 := Nat.min_le_right ..
  have signed : IntTy.signed ty = (ty == .i32) := by rcases narrow with rfl | rfl <;> rfl
  have bit {m : Nat} (m_lt : m < 32) : (bfeShift ty a pos).getLsbD m = f m := getLsbD_bfeShift narrow a pos m_lt
  rw [bfeFn_eq]
  by_cases none_ : len = 0
  · rw [if_pos none_]
    simp [none_]
  · rw [if_neg none_, getLsbD_field _ len_le none_ small, bit small, bit (by omega), signed, bne_iff_ne.2 none_, Bool.and_true]

/-! ### Each instruction meets its rule -/

/-- The word that an instruction gives of its operands, which meets its rule. -/
theorem BitForm.value {x : Instr} {o : Ops} {sc : Bool} {u : Uses} {rel : Word → Word → Word → Word → Prop} (h : BitForm x o sc u rel) :
    ∃ fn : Word → Word → Word → Word, (∀ a b c, rel a b c (fn a b c)) ∧
      IntForm x o sc u fun s i l => res32 o.d (fn (src32 s i l o.a) (src32 s i l o.b) (src32 s i l o.c)) := by
  cases h with
  | and => exact ⟨fun a b _ => a &&& b, fun a b c k small => BitVec.getLsbD_and, .and ..⟩
  | or => exact ⟨fun a b _ => a ||| b, fun a b c k small => BitVec.getLsbD_or, .or ..⟩
  | xor => exact ⟨fun a b _ => a ^^^ b, fun a b c k small => BitVec.getLsbD_xor, .xor ..⟩
  | not => exact ⟨fun a _ _ => ~~~ a, fun a b c k small => by simp [small], .not ..⟩
  | lgc3 o tb => exact ⟨lgc3Fn tb, fun a b c k small => getLsbD_lgc3Fn tb a b c small, .lgc3 ..⟩
  | shl o sc wrap => exact ⟨fun a b _ => shlFn wrap a b, fun a b c => toNat_shlFn wrap a b, .shl ..⟩
  | shr o sc wrap => exact ⟨fun a b _ => shrFn wrap a b, fun a b c => toNat_shrFn wrap a b, .shr ..⟩
  | sar o wrap => exact ⟨fun a b _ => sarFn wrap a b, fun a b c => toInt_sarFn wrap a b, .sar ..⟩
  | rot => exact ⟨fun a b _ => rotFn a b, fun a b c => toNat_rotFn a b, .rot ..⟩
  | fshfR => exact ⟨fshfFn false, toNat_fshfFn_right, .fshf ..⟩
  | fshfL => exact ⟨fshfFn true, toNat_fshfFn_left, .fshf ..⟩
  | bfe o ty narrow => exact ⟨bfeFn ty, fun a b c k small => getLsbD_bfeFn narrow a b c small, .bfe ..⟩
  | bfi => exact ⟨bfiFn, fun a b c k small => getLsbD_bfiFn a b c small, .bfi ..⟩
  | popc => exact ⟨fun a _ _ => popcFn a, fun a b c => toNat_popcFn a, .popc ..⟩
  | clz => exact ⟨fun a _ _ => clzFn a, fun a b c => clzFn_counts a, .clz ..⟩
  | brev => exact ⟨fun a _ _ => brevFn a, fun a b c k small => getLsbD_brevFn a small, .brev ..⟩
  | bysel => exact ⟨byselFn, fun a b c j word k byte => getLsbD_byselFn a b c word byte, .bysel ..⟩

/-- An integer word is an S-form as its form says. -/
theorem IntForm.sform {x : Instr} {o : Ops} {sc : Bool} {u : Uses} {f : State → Iss → Nat → LaneRes} (h : IntForm x o sc u f) :
    u.sform = sc := by
  cases h <;> rfl

/-- Settles O53: an instruction of these rules is an integer word, whose value meets its rule. -/
theorem bitRules : Obligations.BitRules := by
  unfold Obligations.BitRules
  intro x o sc u rel form s i issues
  obtain ⟨fn, meets, int⟩ := form.value
  have values (l : Nat) := meets (src32 s.reading i l o.a) (src32 s.reading i l o.b) (src32 s.reading i l o.c)
  cases sc with
  | false =>
    have same : ({ u with sform := false } : Uses) = u := by rw [← int.sform]
    rw [same] at issues
    obtain ⟨s', run, wrote, -⟩ := int.vector_wrote issues
    exact ⟨s', _, run, values, fun _ => wrote, nofun⟩
  | true =>
    obtain ⟨s', run, wrote, -⟩ := int.scalar_wrote issues
    exact ⟨s', _, run, values, nofun, fun _ => wrote⟩

end Sys2Proof.Machine

namespace Sys2Proof.Machine

/-! ## Floating-point words (R205 to R221) -/

/-- A floating-point word is the issue of its form, of short latency. -/
theorem FloatForm.exec_eq {x : Instr} {o : Ops} {sc : Bool} {u : Uses} {f : State → Iss → Nat → Word → List Word × FFlags}
    (h : FloatForm x o sc u f) (s : State) : exec x s = fpIssue sc o u false f s := by
  cases h <;> rfl

/-- A vector word of short latency is a vector issue of what its lanes leave under their own FPM. -/
theorem fpVec_short (o : Ops) (u : Uses) (f : State → Iss → Nat → Word → List Word × FFlags) (s : State) :
    fpVec o u false f s =
      vecIssue o u true (fun s i l => fpLane o.d (s.thread i.t i.g l).fpm (f s i l (s.thread i.t i.g l).fpm)) s := rfl

/-- A vector word of which some lanes may trap: each lane's result or trap is written, and the latch holds the others' (R207). -/
theorem fpVec_eq {s : State} {o : Ops} {u : Uses} {i : Iss} (issues : Issues s o u i)
    (f : State → Iss → Nat → Word → List Word × FFlags) (rs : List (Nat × LaneRes))
    (lanes : rs = i.parts.map fun l => (l, fpLane o.d (s.thread i.t i.g l).fpm (f s.reading i l (s.thread i.t i.g l).fpm))) :
    fpVec o u false f s = .next (i.finish (i.writeLanes s.reading rs) [] false (some (vecLatch rs))) := by
  rw [fpVec_short, vecIssue, issue_eq issues false _ nofun, lanes]
  rfl

/-- An S-form that some participant enables a trap of: every participant takes it, and nothing is written (R208). -/
theorem fpScal_traps {s : State} {o : Ops} {u : Uses} {i : Iss} {l : Nat} {ls : List Nat} {tr : Trap}
    (issues : Issues s o { u with sform := true } i) (parts : i.parts = l :: ls) (medium : Bool)
    (f : State → Iss → Nat → Word → List Word × FFlags)
    (trap : fpTrap (i.parts.foldl (fun e l => e ||| fpmTraps (s.thread i.t i.g l).fpm) 0)
      (f s.reading i l (s.thread i.t i.g l).fpm).2 = some tr) :
    fpScal o u medium f s = .next (i.finish (s.reading.takeTraps i.t i.g i.parts tr) [] false none) := by
  rw [parts] at trap
  have trap' : fpTrap ((l :: ls).foldl (fun e l => e ||| fpmTraps (s.reading.thread i.t i.g l).fpm) 0)
      (f s.reading i l (s.reading.thread i.t i.g l).fpm).2 = some tr := trap
  rw [fpScal, issue_eq issues false _ nofun]
  simp only [parts, trap']

/-- Settles O3: a floating-point word is its form's issue of short latency, whose lanes each trap or write, and whose S-form traps
for all participants or writes for all. -/
theorem floatWords : Obligations.FloatWords := by
  unfold Obligations.FloatWords
  refine ⟨fun x o u f form s i issues clean => ?clean, fun x o u f form s i issues => ?lanes,
    fun x o u f form s i l ls issues parts clean => ?scalar, fun x o u f form s i l ls tr issues parts trap => ?trap⟩ <;>
    rw [form.exec_eq]
  case clean => exact fpVec_wrote issues f clean
  case lanes => exact fpVec_eq issues f _ rfl
  case scalar => exact fpScal_wrote issues f l ls parts _ rfl clean
  case trap => exact fpScal_traps issues parts false f trap

/-! ### Functions (R216, R217) -/

/-- A function is the issue of its form, of medium latency. -/
theorem FnForm.exec_eq {x : Instr} {o : Ops} {sc : Bool} {u : Uses} {f : State → Iss → Nat → Word → List Word × FFlags}
    (h : FnForm x o sc u f) (s : State) : exec x s = fpIssue sc o u true f s := by
  cases h <;> rfl

/-- A function has a result to queue. -/
theorem FnForm.words_ne_nil {x : Instr} {o : Ops} {sc : Bool} {u : Uses} {f : State → Iss → Nat → Word → List Word × FFlags}
    (h : FnForm x o sc u f) (s : State) (i : Iss) (l : Nat) (fpm : Word) : (f s i l fpm).1 ≠ [] := by
  cases h <;> exact List.cons_ne_nil _ _

/-- Settles O4: a function is its form's issue of medium latency, vector or scalar, which queues the results of its lanes. -/
theorem functionWords : Obligations.FunctionWords := by
  unfold Obligations.FunctionWords
  refine ⟨fun x o u f form s i issues some_ clean => ?vector, fun x o u f form s i l ls issues parts clean => ?scalar⟩ <;>
    rw [form.exec_eq]
  case vector => exact fpMedium_wrote issues f some_ (fun l _ => form.words_ne_nil _ _ l _) clean
  case scalar => exact fpScalMedium_wrote issues f l ls parts _ rfl clean

/-! ### CVQ and CVX (R219 to R221) -/

/-- A vector issue depends on what its participants compute alone. -/
theorem vecIssue_congr {s : State} {o : Ops} {u : Uses} {i : Iss} (issues : Issues s o u i) (latch : Bool)
    {f f' : State → Iss → Nat → LaneRes} (same : ∀ l ∈ i.parts, f s.reading i l = f' s.reading i l) :
    vecIssue o u latch f s = vecIssue o u latch f' s := by
  have lanes : (i.parts.map fun l => (l, f s.reading i l)) = i.parts.map fun l => (l, f' s.reading i l) :=
    List.map_congr_left fun l part => by rw [same l part]
  rw [vecIssue, vecIssue, issue_eq issues false _ nofun, issue_eq issues false _ nofun, lanes]

/-- What a lane of a conversion of `n` elements computes under its slot: a trap where the slot does not suit (R219). -/
def quantLane (o : Ops) (slot : BitVec 3) (n : Nat) (f : ElemFmt → State → Iss → Nat → Word → List Word × FFlags) (s : State) (i : Iss)
    (l : Nat) : LaneRes :=
  match cvFmt s i.t n slot.toNat with
  | none => { trap := some { cause := .illegalOperand } }
  | some k => fpLane o.d (s.thread i.t i.g l).fpm (f k s i l (s.thread i.t i.g l).fpm)

theorem quantLane_suits {o : Ops} {slot : BitVec 3} {n : Nat} {s : State} {i : Iss} {k : ElemFmt}
    (suits : cvFmt s i.t n slot.toNat = some k) (f : ElemFmt → State → Iss → Nat → Word → List Word × FFlags) (l : Nat) :
    quantLane o slot n f s i l = fpLane o.d (s.thread i.t i.g l).fpm (f k s i l (s.thread i.t i.g l).fpm) := by
  rw [quantLane, suits]

theorem QuantForm.exec_eq {x : Instr} {o : Ops} {slot : BitVec 3} {n : Nat} {u : Uses}
    {f : ElemFmt → State → Iss → Nat → Word → List Word × FFlags} (h : QuantForm x o slot n u f) (s : State) :
    exec x s = vecIssue o u true (quantLane o slot n f) s := by
  cases h <;> rfl

/-- Under a slot that suits, a conversion is the floating-point vector word of the slot's format. -/
theorem QuantForm.exec_suits {x : Instr} {o : Ops} {slot : BitVec 3} {n : Nat} {u : Uses}
    {f : ElemFmt → State → Iss → Nat → Word → List Word × FFlags} (h : QuantForm x o slot n u f) {s : State} {i : Iss} {k : ElemFmt}
    (issues : Issues s o u i) (suits : cvFmt s i.t n slot.toNat = some k) : exec x s = fpVec o u false (f k) s := by
  have suits' : cvFmt s.reading i.t n slot.toNat = some k := suits
  rw [h.exec_eq, fpVec_short]
  exact vecIssue_congr issues true fun l _ => quantLane_suits suits' f l

/-- Settles O5: under its slot's format a conversion is a floating-point vector word, none of whose lanes traps. -/
theorem quantWords : Obligations.QuantWords := by
  unfold Obligations.QuantWords
  intro x o slot n u f form s i k issues suits clean
  rw [form.exec_suits issues suits]
  exact fpVec_wrote issues (f k) clean

end Sys2Proof.Machine

namespace Sys2Proof.Machine

/-! ## Loads performed once (R225, R228, R229) -/

section
variable {s : State} {o : Ops} {m : MMod} {x : MemX} {i : Iss} {l : Nat} {ls : List Nat}

/-- The lane of LDK, that of its lowest participant. -/
abbrev ldkLane (s : State) (o : Ops) (m : MMod) (i : Iss) (l : Nat) : LaneMem × State :=
  s.reading.dataLane i l (effAddr s.reading i l 0 m.p (2 ^ m.sc.toNat)) (mtyBytes m.ty) [0, 5] (.load (mtySigned m.ty)) 0
    (if o.nw then .none else .scal o.d.toNat (mtyWords m.ty)) []

/-- The lane of LDS.S, that of its lowest participant. -/
abbrev ldsSLane (s : State) (o : Ops) (m : MMod) (i : Iss) (l : Nat) : LaneMem × State :=
  s.reading.scrLoad i l (effAddr s.reading i l 0x20000000 m.p (2 ^ m.sc.toNat)) (mtyBytes m.ty) 2 (.load (mtySigned m.ty))
    (if o.nw then .none else .scal o.d.toNat 1)

/-- A result on its way changes no watch range. -/
theorem watchLanes_scalPend (S : State) (i : Iss) (d n v : Nat) (rs : List LaneMem) :
    watchLanes (S.scalPend i d n v) rs = watchLanes S rs := rfl

section
variable (h : Issues s o { src := addrSrc o m.p, sd := if o.nw then [] else [(o.d.toNat, mtyWords m.ty)], sform := true } i)
  (parts : i.parts = l :: ls)
include h parts

theorem ldk_traps {tr : Trap} (trap : (ldkLane s o m i l).1.stat = .trap tr) :
    exec (.ldk o m x) s = .next (i.faultAll ((ldkLane s o m i l).2.setMates s.uid i.parts) tr false) := by
  rw [exec_ldk, execLdk, onceIssue_eq h parts]
  simp only [trap]
  rfl

theorem ldk_waits (pend : (ldkLane s o m i l).1.stat = .pend) :
    exec (.ldk o m x) s = .next (i.finish ((ldkLane s o m i l).2.setMates s.uid i.parts) [] false none) := by
  rw [exec_ldk, execLdk, onceIssue_eq h parts]
  simp only [pend]
  rfl

theorem ldk_loads {v : Nat} (done : (ldkLane s o m i l).1.stat = .done v)
    (unwatched : watchLanes ((ldkLane s o m i l).2.setMates s.uid i.parts) [(ldkLane s o m i l).1] = []) :
    let S := (ldkLane s o m i l).2.setMates s.uid i.parts
    exec (.ldk o m x) s = .next (i.finish (if o.nw then S else
      S.scalPend i o.d.toNat (mtyWords m.ty) ((AOp.load (mtySigned m.ty)).extend (mtyBytes m.ty) v)) [] false none) := by
  intro S
  rw [exec_ldk, execLdk, onceIssue_eq h parts]
  have unwatched' : watchLanes (if o.nw then S else
      S.scalPend i o.d.toNat (mtyWords m.ty) ((AOp.load (mtySigned m.ty)).extend (mtyBytes m.ty) v)) [(ldkLane s o m i l).1] = [] := by
    cases o.nw <;> exact unwatched
  have uid : s.reading.uid = s.uid := rfl
  simp only [done, uid]
  simp only [S] at unwatched' ⊢
  rw [unwatched']
  simp [forEach, watchStop]

end

section
variable (h : Issues s o { src := addrSrc o m.p, sd := if o.nw then [] else [(o.d.toNat, 1)], sform := true } i)
  (parts : i.parts = l :: ls)
include h parts

theorem ldsS_traps {tr : Trap} (trap : (ldsSLane s o m i l).1.stat = .trap tr) :
    exec (.ldsS o m x) s = .next (i.faultAll ((ldsSLane s o m i l).2.setMates s.uid i.parts) tr false) := by
  rw [exec_ldsS, execLdsS, onceIssue_eq h parts]
  simp only [trap]
  rfl

theorem ldsS_waits (pend : (ldsSLane s o m i l).1.stat = .pend) :
    exec (.ldsS o m x) s = .next (scrFinish i s.uid [] i.parts none ((ldsSLane s o m i l).2.setMates s.uid i.parts)) := by
  rw [exec_ldsS, execLdsS, onceIssue_eq h parts]
  simp only [pend]
  rfl

theorem ldsS_loads {v : Nat} (done : (ldsSLane s o m i l).1.stat = .done v) :
    let S := (ldsSLane s o m i l).2.setMates s.uid i.parts
    exec (.ldsS o m x) s = .next (i.finish (if o.nw then S else
      S.scalPend i o.d.toNat 1 ((AOp.load (mtySigned m.ty)).extend (mtyBytes m.ty) v)) [] false none) := by
  rw [exec_ldsS, execLdsS, onceIssue_eq h parts]
  simp only [done]
  rfl

end
end

/-- Settles O18: each load ends as its one lane's access stands, for the whole set. -/
theorem singleLoads : Obligations.SingleLoads := by
  unfold Obligations.SingleLoads
  exact ⟨fun o m x s i l ls h parts =>
      ⟨fun _ trap => ldk_traps h parts trap, fun pend => ldk_waits h parts pend, fun _ done => ldk_loads h parts done⟩,
    fun o m x s i l ls h parts =>
      ⟨fun _ trap => ldsS_traps h parts trap, fun pend => ldsS_waits h parts pend, fun _ done => ldsS_loads h parts done⟩⟩

end Sys2Proof.Machine

namespace Sys2Proof.Machine

/-! ## PFG and STEW (R230, R231) -/

section
variable {s : State} {o : Ops} {m : MMod} {x : MemX} {i : Iss} {l : Nat}

/-- One lane of PFG: nothing where its pointer is not sound. -/
def State.pfgLane (s : State) (m : MMod) (i : Iss) (l : Nat) : State :=
  let p := effAddr s i l 0 m.p (2 ^ m.sc.toNat)
  if (s.ptrCheck i.t i.g p 1 [0] none false).isSome then s else s.prefetchAt (s.team i.t).launch (s.team i.t).core p

theorem pfg_eq (h : Issues s o { src := addrSrc o m.p } i) :
    exec (.pfg o m x) s = .next (i.finish (forEach i.parts s.reading fun S l => S.pfgLane m i l) [] false none) := by
  rw [exec_pfg, execPfg, issue_eq h false _ nofun]
  rfl

/-- A lane whose pointer is sound and whose page reads brings its line nearer. -/
theorem State.pfgLane_reads {y : Phys} {S : State}
    (ptr : s.ptrCheck i.t i.g (effAddr s i l 0 m.p (2 ^ m.sc.toNat)) 1 [0] none false = none)
    (page : s.translate (coreWing (s.team i.t).core) (s.team i.t).launch .vtlb (effAddr s i l 0 m.p (2 ^ m.sc.toNat)) .read .plain none =
      (.ok y, S)) : s.pfgLane m i l = S.prefetch (s.team i.t).core y := by
  simp [State.pfgLane, ptr, State.prefetchAt, page]

end

section
variable {s : State} {o : Ops} {w : Bool} {x : MemX} {i : Iss} {l : Nat} {ls : List Nat}
  (h : Issues s o { src := [(o.a, 1), (o.b, 8)], sd := if o.nw then [] else [(o.d.toNat, 1)] } i) (parts : i.parts = l :: ls)
include h parts

theorem stew_beyond (beyond : 2 ^ 12 ≤ (src32 s.reading i l o.a).toNat) :
    exec (.stew o w x) s = .next (i.faultAll s.reading { cause := .illegalOperand } false) := by
  rw [exec_stew, execStew, onceIssue_eq h parts]
  exact congrArg Host.Outcome.next (if_pos beyond)

variable (index : (src32 s.reading i l o.a).toNat < 2 ^ 12)
include index

theorem stew_outside (outside : s.inSteWindow (s.spaceOf i.t) (src32 s.reading i l o.a).toNat = false) :
    exec (.stew o w x) s = .next (i.faultAll s.reading { cause := .privilege } false) := by
  have outside' : s.reading.inSteWindow (s.reading.spaceOf i.t) (src32 s.reading i l o.a).toNat = false := outside
  rw [exec_stew, execStew, onceIssue_eq h parts]
  simp only [Nat.not_le.2 index, outside', if_false, Bool.not_false, if_true]

/-- A descriptor inside the space's window is sent, with its result on its way but under NW. -/
theorem stew_sends (inside : s.inSteWindow (s.spaceOf i.t) (src32 s.reading i l o.a).toNat = true) {b : BitVec 6} (base : o.b = .s b) :
    let a := (src32 s.reading i l o.a).toNat
    let v := BitVec.ofNat 256 (ofWords ((List.range 8).map fun k => s.readS i.t i.g (b.toNat + k)))
    exec (.stew o w x) s = .next (i.finish (if o.nw then s.reading.stewArrive (s.spaceOf i.t) a v w 0 else
      State.stewArrive { s.reading with
          uid := s.uid + 1, pends := amapInsert s.pends s.uid ⟨i.t, i.g, false, true, [(0, o.d.toNat, 0)], []⟩ }
        (s.spaceOf i.t) a v w s.uid) [] false none) := by
  have inside' : s.reading.inSteWindow (s.reading.spaceOf i.t) (src32 s.reading i l o.a).toNat = true := inside
  rw [exec_stew, execStew, onceIssue_eq h parts]
  simp only [Nat.not_le.2 index, inside', if_false, Bool.not_true, Bool.false_eq_true, base]
  cases o.nw <;> rfl

end

/-- Settles O20: PFG performs its lanes in turn and ends; STEW by its index and the space's window. -/
theorem prefetchAndDescriptors : Obligations.PrefetchAndDescriptors := by
  unfold Obligations.PrefetchAndDescriptors
  refine ⟨fun o m x s i h => ?lanes, fun o m x s i l y S h parts ptr page => ?single, fun o w x s i l ls h parts =>
    ⟨fun beyond => stew_beyond h parts beyond, fun index outside => stew_outside h parts index outside,
     fun b index inside base => stew_sends h parts index inside base⟩⟩
  case lanes =>
    rw [pfg_eq h]
    rfl
  case single =>
    rw [pfg_eq h, parts]
    exact congrArg (fun T => Host.Outcome.next (i.finish T [] false none)) (State.pfgLane_reads ptr page)

end Sys2Proof.Machine

namespace Sys2Proof.Machine

/-! ## Words that wait for the earlier accesses of their participants (R83, R115, R122) -/

section
variable {s : State} {o : Ops} {u : Uses} {i : Iss} (h : Issues s o u i)
include h

theorem syncIssue_free (free : s.wpathHeld i.t i.g i.parts = false) (body : Iss → State → State) :
    syncIssue o u body s = .next (body i s.reading) := by
  have free' : s.reading.wpathHeld i.t i.g i.parts = false := free
  rw [syncIssue, issue_eq h false _ nofun, free']
  rfl

theorem syncIssue_held (held : s.wpathHeld i.t i.g i.parts = true) (body : Iss → State → State) :
    syncIssue o u body s = .next { s.reading with turn := .later } := by
  have held' : s.reading.wpathHeld i.t i.g i.parts = true := held
  rw [syncIssue, issue_eq h false _ nofun, held']
  rfl

end

/-! ## LDA and STL (R234) -/

/-- The registers that LDA or STL names. -/
abbrev syncUses (o : Ops) (m : MMod) (store : Bool) : Uses :=
  { src := (if store then [(o.a, mtyWords m.ty)] else []) ++ addrSrc o m.p, vd := if store || o.nw then [] else [(o.d.toNat, mtyWords m.ty)] }

/-- What LDA or STL asks of memory. -/
abbrev syncOp (m : MMod) (store : Bool) : AOp := if store then .stl else .lda (mtySigned m.ty)

/-- Marking accesses as waited for makes none new. -/
theorem State.newAccs_setWaits (s : State) (id k : Nat) : (s.setWaits id).newAccs k = s.newAccs k := by
  simp [State.newAccs, State.setWaits, amapKeys, amapMap, Function.comp_def]

/-- One lane of LDA or STL. -/
def State.syncLane (s : State) (o : Ops) (m : MMod) (x : MemX) (store : Bool) (i : Iss) (l : Nat) : LaneMem × State :=
  let ea := effAddr s i l 0 m.p (2 ^ m.sc.toNat)
  match s.ptrCheck i.t i.g ea (mtyBytes m.ty) [0] none true with
  | some tr => (⟨l, .trap tr, none⟩, s)
  | none => s.globLane i l ea (mtyBytes m.ty) (syncOp m store) (if store then srcData s i l o.a (mtyWords m.ty) else 0) 0
      (if store || o.nw then .none else .vec o.d.toNat (mtyWords m.ty)) x.scope

/-- STL makes the core of team `t` release, and records the core's epoch with the accesses from identifier `id` on; LDA does neither. -/
def State.storeRelease (s : State) (t : Nat) (x : MemX) (store : Bool) (id : Nat) : State :=
  let c := (s.team t).core
  let R := s.releaseSide c x.scope.wide store (x.scope == .system)
  if store && x.scope.wide then
    let A := amapMap (fun k a => if id ≤ k then { a with cmp := (R.core c).epoch } else a) R.accs
    ({ R with accs := A } : State).regionEnd c true
  else R

/-- The end of LDA or STL in a state `S` where its accesses are those from identifier `id`: the set waits for them, or goes on where there
are none. -/
def syncWordEnd (i : Iss) (x : MemX) (store : Bool) (id : Nat) (S : State) : State :=
  if (S.newAccs id).isEmpty then i.finish S [] true none
  else i.finishWait (S.storeRelease i.t x store id) i.parts (.sync (S.newAccs id))

theorem State.storeRelease_lda (s : State) (t : Nat) (x : MemX) (id : Nat) : s.storeRelease t x false id = s := by
  simp [State.storeRelease, State.releaseSide]

/-- At a scope narrower than the cluster the core does not release. -/
theorem State.storeRelease_narrow (s : State) (t : Nat) {x : MemX} (narrow : x.scope.wide = false) (store : Bool) (id : Nat) :
    s.storeRelease t x store id = s := by
  simp [State.storeRelease, State.releaseSide, narrow]

theorem syncWordEnd_waits {i : Iss} {x : MemX} {store : Bool} {id : Nat} {S : State} (some_ : S.newAccs id ≠ []) :
    syncWordEnd i x store id S = i.finishWait (S.storeRelease i.t x store id) i.parts (.sync (S.newAccs id)) :=
  if_neg (mt List.isEmpty_iff.1 some_)

section
variable {s : State} {o : Ops} {m : MMod} {x : MemX} {i : Iss} {store : Bool} {l : Nat} (h : Issues s o (syncUses o m store) i)
  (free : s.wpathHeld i.t i.g i.parts = false)
include h free

theorem syncWord_free :
    let r := memLanes i (fun s l => s.syncLane o m x store i l) i.parts s.reading
    syncWord o m x store s = .next (syncWordEnd i x store s.uid (takeLaneTraps (r.2.setWaits s.uid) i r.1)) :=
  syncIssue_free h free _

omit free in
theorem syncWord_held (held : s.wpathHeld i.t i.g i.parts = true) :
    syncWord o m x store s = .next { s.reading with turn := .later } :=
  syncIssue_held h held _

/-- LDA or STL without a participant goes on: no access is new since its issue began. -/
theorem syncWord_idle (none_ : i.parts = []) (fresh : s.newAccs s.uid = []) :
    syncWord o m x store s = .next (i.finish (s.reading.setWaits s.uid) [] true none) := by
  have none_new : (s.reading.setWaits s.uid).newAccs s.uid = [] := by
    have kept : (s.reading.setWaits s.uid).newAccs s.uid = s.newAccs s.uid := State.newAccs_setWaits s.reading ..
    rw [kept, fresh]
  rw [syncWord_free h free, none_]
  simp only [memLanes, takeLaneTraps, forEach, List.foldl_nil, syncWordEnd, none_new]
  rfl

variable (parts : i.parts = [l])
include parts

/-- LDA or STL of one participant whose access goes on its way waits for it. -/
theorem syncWord_waits {a : Option Access} {S : State} (lane : s.reading.syncLane o m x store i l = (⟨l, .pend, a⟩, S))
    (some_ : (S.setWaits s.uid).newAccs s.uid ≠ []) :
    syncWord o m x store s = .next (i.finishWait ((S.setWaits s.uid).storeRelease i.t x store s.uid) i.parts
      (.sync ((S.setWaits s.uid).newAccs s.uid))) := by
  rw [syncWord_free h free, parts, memLanes_pend lane, ← parts]
  exact congrArg Host.Outcome.next (syncWordEnd_waits some_)

end

/-- L1 serves neither LDA nor STL. -/
theorem State.tryL1_sync (s : State) {m : MMod} {a : Access} (store : Bool) (word : a.op = syncOp m store) (id : Option Nat) : s.tryL1 id a = none := by
  unfold State.tryL1
  split
  next => rfl
  next =>
    dsimp only
    split
    next => rfl
    next =>
      rw [word]
      cases store <;> rfl

section
variable {s S : State} {o : Ops} {m : MMod} {x : MemX} {i : Iss} {store : Bool} {l : Nat} {ph : Phys}

/-- The access of one lane of LDA or STL. -/
def syncAcc (s : State) (o : Ops) (m : MMod) (x : MemX) (store : Bool) (i : Iss) (l : Nat) : Access :=
  { s.threadAcc i.t i.g l (s.thread i.t i.g l).pc i.o.len.bytes (syncOp m store) (effAddr s i l 0 m.p (2 ^ m.sc.toNat)) (mtyBytes m.ty)
      (if store then srcData s i l o.a (mtyWords m.ty) else 0) (if store || o.nw then .none else .vec o.d.toNat (mtyWords m.ty)) with
    cmp := 0
    scope := x.scope }

variable (ptr : s.ptrCheck i.t i.g (effAddr s i l 0 m.p (2 ^ m.sc.toNat)) (mtyBytes m.ty) [0] none true = none)
include ptr

/-- A lane whose pointer is sound starts its access. -/
theorem State.syncLane_sound : s.syncLane o m x store i l =
    (⟨l, (s.startAcc (s.team i.t).launch (syncAcc s o m x store i l)).1, some (syncAcc s o m x store i l)⟩,
      (s.startAcc (s.team i.t).launch (syncAcc s o m x store i l)).2) := by
  simp only [State.syncLane, ptr]
  rfl

/-- A lane whose access goes on its way. -/
theorem State.syncLane_pends (pend : (s.startAcc (s.team i.t).launch (syncAcc s o m x store i l)).1 = .pend) :
    s.syncLane o m x store i l = (⟨l, .pend, some (syncAcc s o m x store i l)⟩,
      (s.startAcc (s.team i.t).launch (syncAcc s o m x store i l)).2) := by
  rw [State.syncLane_sound ptr, pend]

theorem State.syncLane_home (home : AtHome s i.t (effAddr s i l 0 m.p (2 ^ m.sc.toNat)) (if store then .write else .read) .sync ph S) :
    let a := syncAcc s o m x store i l
    s.syncLane o m x store i l = (⟨l, .pend, some a⟩, (S.accNew (a.placed ph)).2.send (.hop S.uid)) := by
  intro a
  have start : s.startAcc (s.team i.t).launch a = (.pend, (S.accNew (a.placed ph)).2.send (.hop S.uid)) := by
    refine State.startAcc_home rfl (State.tryL1_sync s store rfl none) ?_
    cases store <;> exact home
  rw [State.syncLane_sound ptr, start]

end

/-- LDA or STL of one participant on a HOME page is sent to its home, and waits for it. -/
theorem syncWord_home {s S : State} {o : Ops} {m : MMod} {x : MemX} {i : Iss} {store : Bool} {l : Nat} {ph : Phys}
    (h : Issues s o (syncUses o m store) i) (free : s.wpathHeld i.t i.g i.parts = false) (parts : i.parts = [l])
    (ptr : s.reading.ptrCheck i.t i.g (effAddr s.reading i l 0 m.p (2 ^ m.sc.toNat)) (mtyBytes m.ty) [0] none true = none)
    (home : AtHome s.reading i.t (effAddr s.reading i l 0 m.p (2 ^ m.sc.toNat)) (if store then .write else .read) .sync ph S)
    (new : s.uid ≤ S.uid) :
    let a := syncAcc s.reading o m x store i l
    let T := ((S.accNew (a.placed ph)).2.send (.hop S.uid)).setWaits s.uid
    syncWord o m x store s = .next (i.finishWait (T.storeRelease i.t x store s.uid) [l] (.sync (T.newAccs s.uid))) ∧
      Sent T S.uid i l a.op a.va a.n a.data ph := by
  intro a T
  have sent : Sent T S.uid i l a.op a.va a.n a.data ph := sent_accNew S ph rfl
  obtain ⟨_, found, -⟩ := sent.acc
  rw [← parts]
  exact ⟨syncWord_waits h free parts (State.syncLane_home ptr home) (List.ne_nil_of_mem (State.mem_newAccs found new)), sent⟩

/-! ### FENCE and FENCEX (R83, R122, R235) -/

section
variable {s : State} {o : Ops} {x : MemX} {i : Iss} (h : Issues s o {} i)
include h

theorem fence_held (held : s.wpathHeld i.t i.g i.parts = true) : exec (.fence o x) s = .next { s.reading with turn := .later } := by
  rw [exec_fence, execFence, syncIssue_held h held]

theorem fencex_held (held : s.wpathHeld i.t i.g i.parts = true) (p q : Path) :
    exec (.fencex o p q x) s = .next { s.reading with turn := .later } := by
  rw [exec_fencex, execFencex, syncIssue_held h held]

variable (free : s.wpathHeld i.t i.g i.parts = false)
include free

theorem fence_idle (none_ : i.parts = []) : exec (.fence o x) s = .next (i.finish s.reading [] true none) := by
  rw [exec_fence, execFence, syncIssue_free h free, none_]
  rfl

theorem fencex_idle (none_ : i.parts = []) (p q : Path) : exec (.fencex o p q x) s = .next (i.finish s.reading [] true none) := by
  rw [exec_fencex, execFencex, syncIssue_free h free, none_]
  rfl

variable (some_ : i.parts ≠ [])
include some_

theorem fence_waits : exec (.fence o x) s =
    .next (i.finishWait (s.reading.fenceNow (s.team i.t).core x.scope) i.parts (.sync [])) := by
  have busy : i.parts.isEmpty = false := by simpa using some_
  rw [exec_fence, execFence, syncIssue_free h free, busy]
  rfl

theorem fencex_same (p : Path) : exec (.fencex o p p x) s =
    .next (i.finishWait (s.reading.fenceNow (s.team i.t).core x.scope) i.parts (.sync [])) := by
  have busy : i.parts.isEmpty = false := by simpa using some_
  rw [exec_fencex, execFencex, syncIssue_free h free]
  simp only [busy, if_true]
  rfl

/-- The accesses of the W path that a team has in flight. -/
def State.wFlights (s : State) (t : Nat) : List Nat :=
  s.accs.filterMap fun kv => match kv.2.who with
    | .thread u _ _ => if u = t && kv.2.va / 2 ^ 60 = 4 then some kv.1 else none
    | _ => none

/-- The copies that a team has in flight. -/
def State.copyFlights (s : State) (t : Nat) : List Nat := s.copies.filterMap fun kv => if kv.2.team = t then some kv.1 else none

/-- The quad of a flight has exited. -/
def State.flightExited (s : State) (k : Nat) : Bool :=
  match (amapFind? s.flights k).bind Flight.shader with
  | some y => s.quadExited y.1 y.2
  | none => false

/-- The flights of a fragment team whose quads have exited. -/
def State.exitedFlights (s : State) (t : Nat) : List Nat :=
  match (s.team t).frag with
  | none => []
  | some f => f.flights.filter s.flightExited

/-- Between two paths the source path is written back, and what the team has in flight on it is waited for. -/
theorem fencex_crosses {p q : Path} (crosses : p ≠ q) : exec (.fencex o p q x) s = .next (i.finishWait
    (if p = .v then (s.reading.releasePriv (s.team i.t).core).releaseTracked (s.team i.t).core else s.reading) i.parts
    (.fencex (if p = .w then s.wFlights i.t else []) (if p = .c then s.copyFlights i.t else [])
      (if p = .f then s.exitedFlights i.t else []) p q)) := by
  have busy : i.parts.isEmpty = false := by simpa using some_
  rw [exec_fencex, execFencex, syncIssue_free h free]
  simp only [busy, if_neg crosses]
  cases p
  case f =>
    have exits : s.flightExited = fun k => match amapFind? s.flights k with
        | some y => (match y.shader with
          | some z => s.quadExited z.1 z.2
          | none => false)
        | none => false :=
      funext fun k => by unfold State.flightExited; cases amapFind? s.flights k <;> rfl
    rw [State.exitedFlights, exits]
    rfl
  all_goals rfl

end

/-- Settles O22: LDA and STL are held, or perform their lanes and end as `syncWordEnd` says, of one participant with an access on its way;
a fence is held, goes on, or waits once its core has done its part. -/
theorem acquireReleaseAndFences : Obligations.AcquireReleaseAndFences := by
  unfold Obligations.AcquireReleaseAndFences
  refine ⟨fun o m x s i h free none_ fresh => ?ldaIdle, fun o m x s i l h free parts ptr pend some_ => ?ldaWaits,
    fun o m x s i l h free parts narrow ptr pend some_ => ?stlWaits, fun o m x s i l ph S h free parts ptr home new => ?ldaHome,
    fun o m x s i l ph S h free parts ptr home new => ?stlHome, fun o x s i h free some_ => ?within,
    fun o x s i p q h free some_ crosses => ?across,
    fun o x s i h free none_ => ⟨fence_idle h free none_, fencex_idle h free none_⟩,
    fun o x s i h held => ⟨fence_held h held, fencex_held h held⟩, fun o m x s i held => ⟨fun h => ?ldaHeld, fun h => ?stlHeld⟩⟩
  case ldaIdle => exact syncWord_idle (store := false) h free none_ fresh
  case ldaWaits =>
    obtain rfl := h.ops
    have run := syncWord_waits (x := x) (store := false) h free parts (State.syncLane_pends ptr pend) some_
    rwa [State.storeRelease_lda] at run
  case stlWaits =>
    obtain rfl := h.ops
    have run := syncWord_waits (x := x) (store := true) h free parts (State.syncLane_pends ptr pend) some_
    rwa [State.storeRelease_narrow _ _ narrow] at run
  case ldaHome =>
    obtain ⟨run, sent⟩ := syncWord_home (x := x) (store := false) h free parts ptr home new
    rw [State.storeRelease_lda] at run
    exact ⟨_, run, sent⟩
  case stlHome =>
    obtain ⟨run, sent⟩ := syncWord_home (x := x) (store := true) h free parts ptr home new
    exact ⟨_, sent, run⟩
  case within => exact ⟨fence_waits h free some_, fencex_same h free some_⟩
  case across => exact fencex_crosses h free some_ crosses
  case ldaHeld => exact syncWord_held (store := false) h held
  case stlHeld => exact syncWord_held (store := true) h held

end Sys2Proof.Machine

namespace Sys2Proof.Machine

/-! ## Arrivals (R236, R237) -/

/-- A barrier in its next phase, which an arrival has opened as the last of a phase whose records are `recs`. -/
def Bar.opened (b : Bar) (recs : List (Nat × Nat)) (mx : Bool) : Bar := { b with
  phase := b.phase + 1, arrived := 0, expect := b.preset, recs := [], mx := false, past := b.ended recs, pastMx := mx || b.mx }

/-- A barrier with one arrival more, of count `n`, in a phase whose records are `recs`. -/
def Bar.counted (b : Bar) (n : Nat) (recs : List (Nat × Nat)) (mx : Bool) : Bar := { b with
  arrived := b.arrived + 1, expect := n, recs := recs, mx := mx || b.mx }

/-- The records of a phase once a team has arrived in it: at a cluster barrier its core releases and is recorded. -/
def State.arriving (s : State) (t : Nat) (r : BarRef) : List (Nat × Nat) × State :=
  if r.wide then
    let y := s.arriveRelease (s.team t).core
    (addRec (s.barGet t r).recs y.1, y.2)
  else ((s.barGet t r).recs, s)

/-- What follows once a phase with records `recs` is over: the acquires of a cluster barrier, the trace record, and the waiters judged. -/
def State.phaseOver (s : State) (t : Nat) (r : BarRef) (recs : List (Nat × Nat)) (mx : Bool) : State :=
  let cores := (recs.map (·.1) ++ s.barCores t r).eraseDups
  let s := if r.wide then s.barAcquire t r recs else s
  let s := if r.wide && mx then forEach cores s State.dropV else s
  let s := s.traceBarrier t (match r with
    | .num k => some k
    | .handle _ _ => none)
  s.barJudge t r

section
variable {s : State} {t : Nat} {r : BarRef} {n : Nat} {mx : Bool}

theorem State.arrive_stale (stale : s.barLive t r = false) :
    s.arrive t r n mx = (some { cause := .barrierStale, aux := r.aux, info := r.info }, s) := by
  simp [State.arrive, stale]

section
variable (live : s.barLive t r = true)
include live

theorem State.arrive_badCount (bad : n = 0 ∨ r.limit < n) : s.arrive t r n mx = (some { cause := .illegalOperand }, s) := by
  simp [State.arrive, live, bad]

variable (some_ : n ≠ 0) (fits : n ≤ r.limit)
include some_ fits

theorem State.arrive_otherCount (set_ : (s.barGet t r).expect ≠ 0) (other : n ≠ (s.barGet t r).expect) :
    s.arrive t r n mx = (some { cause := .barrierCount, aux := r.aux, info := 2 ^ 16 * (s.barGet t r).expect + n }, s) := by
  simp [State.arrive, live, some_, Nat.not_lt.2 fits, set_, other]

variable (taken : (s.barGet t r).expect = 0 ∨ n = (s.barGet t r).expect)
include taken

/-- An arrival of a count that the barrier takes is recorded. -/
theorem State.arrive_taken : s.arrive t r n mx = (none, if (s.barGet t r).arrived + 1 = n
    then ((s.arriving t r).2.barSet t r ((s.barGet t r).opened (s.arriving t r).1 mx)).phaseOver t r (s.arriving t r).1 (mx || (s.barGet t r).mx)
    else (s.arriving t r).2.barSet t r ((s.barGet t r).counted n (s.arriving t r).1 mx)) := by
  have same : ((s.barGet t r).expect ≠ 0 && n ≠ (s.barGet t r).expect) = false := by
    rcases taken with unset | same <;> simp [*]
  simp only [State.arrive, live, some_, Nat.not_lt.2 fits, same, Bool.not_true, decide_false, Bool.or_self, Bool.false_eq_true, if_false]
  split <;> rfl
end
end

/-! ### Barriers of a team -/

section
variable {s : State} {t k n : Nat} {mx : Bool}

theorem State.bar_own (s : State) (t : Nat) (own : k < 16) : s.bar t k = amapGet {} (s.team t).bars k := if_pos own

/-- A barrier of a team reads back as it was set; its others stand, and those of every other team. -/
theorem State.bar_setBar (there : (amapFind? s.teams t).isSome) (own : k < 16) (b : Bar) (t' : Nat) {k' : Nat} (own' : k' < 16) :
    (s.setBar t k b).bar t' k' = if t' = t ∧ k' = k then b else s.bar t' k' := by
  rw [State.setBar, if_pos own, State.bar_own _ _ own', State.bar_own _ _ own', State.team_updTeam]
  by_cases team : t' = t
  · subst team
    by_cases same : k' = k
    · subst same; simp [there, amapGet_insert_same]
    · simp [there, same, amapGet_insert_other]
  · simp [team]

theorem State.bars_updTeam (s : State) (t : Nat) {f : Team → Team} (keeps : ∀ tm, (f tm).bars = tm.bars) (t' : Nat) :
    ((s.updTeam t f).team t').bars = (s.team t').bars := by
  rw [State.team_updTeam]
  split_ifs with at_
  · rw [keeps, at_.1]
  · rfl

theorem State.bars_mbwJudge (s : State) (t t' : Nat) : ((s.mbwJudge t).team t').bars = (s.team t').bars := by
  unfold State.mbwJudge
  split
  · rfl
  · exact State.bars_updTeam _ _ (by intro; rfl) _

theorem State.bars_barJudge (s : State) (t : Nat) (r : BarRef) (t' : Nat) : ((s.barJudge t r).team t').bars = (s.team t').bars := by
  unfold State.barJudge forEach
  extract_lets bit
  clear_value bit
  induction s.barTeams t r generalizing s with
  | nil => rfl
  | cons u us ih =>
    refine (ih _).trans ((State.bars_mbwJudge ..).trans ?_)
    exact State.bars_updTeam _ _ (by intro; rfl) _

/-- A trace record changes no team. -/
theorem standing_traceBarrier (s : State) (t : Nat) (k : Option Nat) : (s.traceBarrier t k).standing = s.standing :=
  standing_ite rfl (standing_traceWrite ..)

/-- An arrival at a barrier of the team releases nothing. -/
theorem State.arriving_own (s : State) (t : Nat) (own : k < 16) : s.arriving t (.num k) = ((s.bar t k).recs, s) :=
  if_neg (by simpa [BarRef.wide] using own)

/-- The end of a phase of a barrier of the team leaves every team's barriers. -/
theorem State.bar_phaseOver (s : State) (t : Nat) (own : k < 16) (recs : List (Nat × Nat)) (mx : Bool) (t' : Nat) {k' : Nat} (own' : k' < 16) :
    (s.phaseOver t (.num k) recs mx).bar t' k' = s.bar t' k' := by
  have narrow : (BarRef.num k).wide = false := decide_eq_false (Nat.not_le.2 own)
  have traced : (s.traceBarrier t (some k)).team t' = s.team t' := by
    rw [State.team, teams_of_standing (standing_traceBarrier ..)]
    rfl
  simp only [State.phaseOver, narrow, Bool.false_and, Bool.false_eq_true, if_false]
  rw [State.bar_own _ _ own', State.bar_own _ _ own', State.bars_barJudge, traced]

end

/-- Settles O23: the checks by the barrier's standing, and a recorded arrival by its number, as the last of its phase or not. -/
theorem arrivals : Obligations.Arrivals := by
  unfold Obligations.Arrivals
  refine ⟨fun s t r n mx => State.arrive_stale, fun s t r n mx => State.arrive_badCount, fun s t r n mx => State.arrive_otherCount,
    fun s t k n mx there own some_ fits taken => ?_⟩
  have small : n ≤ (BarRef.num k).limit := by simpa [BarRef.limit, BarRef.wide, Nat.not_le.2 own] using fits
  rw [State.arrive_taken rfl some_ small taken, State.arriving_own s t own]
  refine ⟨rfl, fun t' k' own' => ?_⟩
  have get : s.barGet t (.num k) = s.bar t k := rfl
  simp only [get]
  by_cases last : (s.bar t k).arrived + 1 = n
  · rw [if_pos last, if_pos last, State.bar_phaseOver _ _ own _ _ _ own']
    exact State.bar_setBar there own _ t' own'
  · rw [if_neg last, if_neg last]
    exact State.bar_setBar there own _ t' own'

end Sys2Proof.Machine

namespace Sys2Proof.Machine

/-! ## What an arrival leaves of the threads (R236) -/

/-- Every thread is as it was. -/
structure SameThreads (s S : State) : Prop where
  threads : ∀ t g, (S.group t g).threads = (s.group t g).threads

namespace SameThreads

theorem trans {a b c : State} (h : SameThreads a b) (k : SameThreads b c) : SameThreads a c :=
  ⟨fun t g => (k.threads t g).trans (h.threads t g)⟩

theorem thread_eq {s S : State} (h : SameThreads s S) (t g l : Nat) : S.thread t g l = s.thread t g l := by
  rw [State.thread, h.threads]
  rfl

theorem of_teams {s S : State} (h : S.teams = s.teams) : SameThreads s S where
  threads t g := by
    rw [State.group, State.team, h]
    rfl

theorem of_standing {s S : State} (h : S.standing = s.standing) : SameThreads s S := of_teams (teams_of_standing h)

theorem updTeam (s : State) (t : Nat) {f : Team → Team}
    (keeps : ∀ tm g, (amapGet ({} : Group) (f tm).groups g).threads = (amapGet ({} : Group) tm.groups g).threads) :
    SameThreads s (s.updTeam t f) where
  threads t' g := by
    rw [State.group, State.team_updTeam]
    split_ifs with at_
    · rw [keeps, at_.1]
      rfl
    · rfl

theorem forEach {α : Type} {f : State → α → State} (step : ∀ s x, SameThreads s (f s x)) (l : List α) (s : State) :
    SameThreads s (forEach l s f) := by
  unfold Machine.forEach
  induction l generalizing s with
  | nil => exact of_teams rfl
  | cons x l ih => exact (step s x).trans (ih _)

theorem ite {s a b : State} {c : Prop} [Decidable c] (ha : SameThreads s a) (hb : SameThreads s b) : SameThreads s (if c then a else b) := by
  split_ifs <;> [exact ha; exact hb]

theorem barSet (s : State) (t : Nat) (r : BarRef) (b : Bar) : SameThreads s (s.barSet t r b) := by
  cases r with
  | num k =>
    refine ite (updTeam s t fun _ _ => ?_) (of_teams rfl)
    rfl
  | handle ix gen => exact of_teams rfl

theorem mbwJudge (s : State) (t : Nat) : SameThreads s (s.mbwJudge t) := by
  unfold State.mbwJudge
  split
  · exact of_teams rfl
  · refine updTeam s t fun _ _ => ?_
    rfl

theorem barJudge (s : State) (t : Nat) (r : BarRef) : SameThreads s (s.barJudge t r) := by
  unfold State.barJudge
  refine forEach (fun S u => ?_) _ _
  refine trans (updTeam S u fun tm g => ?_) (mbwJudge ..)
  dsimp only
  exact amapGet_map_part Group.threads (fun _ _ => by rfl) tm.groups g

theorem arriving (s : State) (t : Nat) (r : BarRef) : SameThreads s (s.arriving t r).2 := by
  have released (c : Nat) : SameThreads s (s.arriveRelease c).2 :=
    of_standing ((standing_regionEnd ..).trans (standing_releasePriv ..))
  unfold State.arriving
  split_ifs
  · exact released _
  · exact of_teams rfl

theorem barAcquire (s : State) (t : Nat) (r : BarRef) (recs : List (Nat × Nat)) : SameThreads s (s.barAcquire t r recs) := by
  unfold State.barAcquire
  refine trans (forEach (fun S a => forEach (fun S x => of_standing (standing_darnNow ..)) _ _) _ _) (forEach (fun S a => ?_) _ _)
  exact of_standing (standing_acquireDone ..)

theorem phaseOver (s : State) (t : Nat) (r : BarRef) (recs : List (Nat × Nat)) (mx : Bool) : SameThreads s (s.phaseOver t r recs mx) := by
  unfold State.phaseOver
  extract_lets cores S T U
  have acquired : SameThreads s S := ite (barAcquire ..) (of_teams rfl)
  have dropped : SameThreads S T := ite (forEach (fun S c => of_standing (standing_dropClean ..)) _ _) (of_teams rfl)
  have traced : SameThreads T U := of_standing (standing_traceBarrier ..)
  exact (acquired.trans dropped).trans (traced.trans (barJudge ..))

/-- A recorded arrival changes no thread. -/
theorem arrive {s : State} {t : Nat} {r : BarRef} {n : Nat} (live : s.barLive t r = true) (some_ : n ≠ 0) (fits : n ≤ r.limit)
    (taken : (s.barGet t r).expect = 0 ∨ n = (s.barGet t r).expect) (mx : Bool) : SameThreads s (s.arrive t r n mx).2 := by
  rw [State.arrive_taken live some_ fits taken]
  have begun := arriving s t r
  exact ite (begun.trans ((barSet ..).trans (phaseOver ..))) (begun.trans (barSet ..))

end SameThreads

/-! ## An issue that waits (R142)

The end of an issue whose lanes wait is also the end of one whose lanes waited before: those go past the word first, and the end
moves the others. -/

/-- Lanes of a group are put to wait. -/
def Group.putWait (gr : Group) (w : Nat) (lanes : List Nat) (c : Cond) : Group := { gr with
  waits := amapInsert gr.waits w { lanes := lanes, cond := c }
  threads := amapMap (fun l th => if lanes.contains l then { th with stat := .waiting w } else th) gr.threads }

/-- Lanes of a group move on. -/
def Group.advance (gr : Group) (lanes : List Nat) (n : Nat) : Group := { gr with
  threads := amapMap (fun l th => if lanes.contains l then { th with pc := (th.pc + n) % 2 ^ 64 } else th) gr.threads }

theorem Group.putWait_advance (gr : Group) (w : Nat) (waits : List Nat) (c : Cond) (lanes : List Nat) (n : Nat) :
    (gr.putWait w waits c).advance lanes n = (gr.advance lanes n).putWait w waits c := by
  simp only [Group.putWait, Group.advance, amapMap, List.map_map]
  congr 1
  refine List.map_congr_left fun kv _ => ?_
  simp only [Function.comp_apply]
  split_ifs <;> rfl

/-- Lanes move on in two parts. -/
theorem Group.advance_advance (gr : Group) {as bs ls : List Nat} (n : Nat) (parts : ∀ l, l ∈ ls ↔ l ∈ as ∨ l ∈ bs)
    (apart : ∀ l ∈ as, l ∉ bs) : (gr.advance as n).advance bs n = gr.advance ls n := by
  simp only [Group.advance, amapMap, List.map_map]
  congr 1
  refine List.map_congr_left fun kv _ => ?_
  have parts := parts kv.1
  have apart := apart kv.1
  by_cases first : kv.1 ∈ as <;> by_cases second : kv.1 ∈ bs <;> simp_all

section
variable (s : State) (t g : Nat)

theorem State.advance_eq (lanes : List Nat) (n : Nat) : s.advance t g lanes n = s.updGroup t g fun gr => gr.advance lanes n := rfl

theorem State.putWait_eq {waits : List Nat} (some_ : waits ≠ []) (c : Cond) :
    s.putWait t g waits c = ({ s with uid := s.uid + 1 } : State).updGroup t g fun gr => gr.putWait s.uid waits c :=
  if_neg (mt List.isEmpty_iff.1 some_)

/-- Lanes may move on before or after others are put to wait. -/
theorem State.putWait_advance (waits : List Nat) (c : Cond) (lanes : List Nat) (n : Nat) :
    (s.putWait t g waits c).advance t g lanes n = (s.advance t g lanes n).putWait t g waits c := by
  by_cases none_ : waits = []
  · subst none_; rfl
  · have moved : ({ s.advance t g lanes n with uid := (s.advance t g lanes n).uid + 1 } : State) =
        ({ s with uid := s.uid + 1 } : State).updGroup t g fun gr => gr.advance lanes n := rfl
    rw [State.putWait_eq _ _ _ none_, State.putWait_eq _ _ _ none_, moved, State.advance_eq, updGroup_updGroup, updGroup_updGroup]
    simp only [Group.putWait_advance]
    rfl

theorem State.advance_advance {as bs ls : List Nat} (n : Nat) (parts : ∀ l, l ∈ ls ↔ l ∈ as ∨ l ∈ bs) (apart : ∀ l ∈ as, l ∉ bs) :
    (s.advance t g as n).advance t g bs n = s.advance t g ls n := by
  rw [State.advance_eq, State.advance_eq, State.advance_eq, updGroup_updGroup]
  simp only [Group.advance_advance _ n parts apart]

theorem State.stat_advance (lanes : List Nat) (n l : Nat) : ((s.advance t g lanes n).thread t g l).stat = (s.thread t g l).stat := by
  simp only [State.thread, State.advance, State.group_updGroup]
  split_ifs
  · dsimp only
    exact amapGet_map_part Thread.stat (fun k th => by split_ifs <;> rfl) _ l
  · rfl

/-- A thread that is ready once lanes have been put to wait was ready before. -/
theorem State.ready_of_putWait {waits : List Nat} {c : Cond} {l : Nat} (ready : ((s.putWait t g waits c).thread t g l).stat = .ready) :
    (s.thread t g l).stat = .ready := by
  by_cases none_ : waits = []
  · subst none_; exact ready
  · rw [State.putWait_eq _ _ _ none_, State.thread, State.group_updGroup] at ready
    split_ifs at ready with there
    · simp only [Group.putWait, amapGet_eq_find, amapFind?_map] at ready
      rw [State.thread, amapGet_eq_find]
      cases found : amapFind? (s.group t g).threads l with
      | none => rfl
      | some th =>
        have old : amapFind? (({ s with uid := s.uid + 1 } : State).group t g).threads l = some th := found
        rw [old] at ready
        simp only [Option.map_some, Option.getD_some] at ready ⊢
        split_ifs at ready
        exact ready
    · exact ready

end

theorem Iss.going_advance (i : Iss) (s : State) (lanes : List Nat) (n : Nat) : i.going (s.advance i.t i.g lanes n) = i.going s := by
  simp only [Iss.going, State.stat_advance]

/-- The end of a waiting issue is the end of an issue whose lanes wait already. -/
theorem Iss.finishWait_eq_finish (i : Iss) (s : State) (lanes : List Nat) (c : Cond) :
    ∃ S, i.finishWait s lanes c = i.finish S [] true none := by
  let M := s.putWait i.t i.g (lanes.filter fun l => (i.going s).contains l) c
  let first := (i.going s).filter fun l => !(i.going M).contains l
  have still : ∀ l ∈ i.going M, l ∈ i.going s := fun l ready => by
    obtain ⟨lane, ready⟩ := List.mem_filter.1 ready
    exact List.mem_filter.2 ⟨lane, decide_eq_true (State.ready_of_putWait _ _ _ (of_decide_eq_true ready))⟩
  have moved : (M.advance i.t i.g first i.o.len.bytes).advance i.t i.g (i.going M) i.o.len.bytes =
      (s.advance i.t i.g (i.going s) i.o.len.bytes).putWait i.t i.g (lanes.filter fun l => (i.going s).contains l) c := by
    rw [← State.putWait_advance]
    refine State.advance_advance M _ _ _ (fun l => ⟨fun ready => ?_, ?_⟩) fun l ready => by simpa using (List.mem_filter.1 ready).2
    · by_cases later : l ∈ i.going M
      · exact .inr later
      · exact .inl (List.mem_filter.2 ⟨ready, by simpa using later⟩)
    · rintro (ready | ready)
      · exact (List.mem_filter.1 ready).1
      · exact still l ready
  refine ⟨M.advance i.t i.g first i.o.len.bytes, ?_⟩
  have all_ : ((i.going M).filter fun l => !([] : List Nat).contains l) = i.going M := List.filter_eq_self.2 fun _ _ => rfl
  rw [Iss.finish, Iss.going_advance, all_, moved]
  rfl

/-! ## BARRIVE and BSYNC (R238) -/

/-- A lane of BSYNC arrives, or traps: it waits for the phase that it arrived in, unless that is over. -/
def bsyncLane (i : Iss) (b : Bool) (acc : List (Nat × BarRef × Nat) × State) (l : Nat) : List (Nat × BarRef × Nat) × State :=
  let s := acc.2
  let x := barOps s i l b
  match x.1 with
  | .inr tr => (acc.1, s.takeTrap i.t i.g l tr)
  | .inl r =>
    let ph := (s.barGet i.t r).phase.toNat
    match s.arrive i.t r (x.2 % 2 ^ 16) with
    | (some tr, s) => (acc.1, s.takeTrap i.t i.g l tr)
    | (none, s) =>
      let done := acc.1.filter fun y => (s.barGet i.t y.2.1).phase.toNat % 2 = y.2.2 % 2
      (if (s.barGet i.t r).phase.toNat = ph then done ++ [(l, r, ph)] else done, s)

/-- The end of BSYNC at `pc`: the set waits for the phases that are not over, or goes on where there are none. -/
def bsyncEnd (i : Iss) (pc : Nat) (r : List (Nat × BarRef × Nat) × State) : State :=
  if r.1.isEmpty then i.finish r.2 [] true none else i.finishWait r.2 i.parts (.parity pc r.1)

section
variable {s S : State} {o : Ops} {b : Bool} {x : MemX} {i : Iss} {l : Nat} {r : BarRef}

section
variable (h : Issues s o (barUses o) i) (free : s.wpathHeld i.t i.g i.parts = false)
include h free

theorem barrive_eq : exec (.barrive o b x) s = .next (i.finish (forEach i.parts s.reading fun S l => S.arriveLane i l b) [] false none) := by
  rw [exec_barrive, execBarrive, syncIssue_free h free]

theorem bsync_eq : exec (.bsync o b x) s = .next (bsyncEnd i (s.thread i.t i.g (i.parts.headD 0)).pc (i.parts.foldl (bsyncLane i b) ([], s.reading))) := by
  rw [exec_bsync, execBsync, syncIssue_free h free]
  rfl

/-- BSYNC ends as an issue whose lanes wait already, those that arrived in phases that are not over. (The waits keep the PC
that BSYNC read before its lanes arrived, and a lane's trap may end the team: so the PC is not one of the state after them,
and the waits are part of the state that ends.) -/
theorem bsync_finishes : ∃ S, exec (.bsync o b x) s = .next (i.finish S [] true none) := by
  rw [bsync_eq h free, bsyncEnd]
  split_ifs
  · exact ⟨_, rfl⟩
  · obtain ⟨S, waits⟩ := i.finishWait_eq_finish _ i.parts _
    exact ⟨S, congrArg Host.Outcome.next waits⟩

end

variable (named : (barOps s i l b).1 = .inl r) (arrived : s.arrive i.t r ((barOps s i l b).2 % 2 ^ 16) = (none, S))
include named arrived

theorem State.arriveLane_recorded : s.arriveLane i l b = S := by
  simp only [State.arriveLane, named, arrived]

theorem bsyncLane_recorded : bsyncLane i b ([], s) l =
    (if (S.barGet i.t r).phase.toNat = (s.barGet i.t r).phase.toNat then [(l, r, (s.barGet i.t r).phase.toNat)] else [], S) := by
  simp only [bsyncLane, named, arrived]
  rfl

end

/-! ## BARRD (R239) -/

/-- The arrival of a lane of BARRD, as it is left to be performed once the copies of bitmaps in `mask` have landed. -/
def State.barrdArrival (s : State) (i : Iss) (l : Nat) (r : BarRef) (n mask : Nat) : Deferred :=
  ⟨i.g, l, s.pcOffset i.t (s.thread i.t i.g l).pc, r, n, s.copies.filterMap fun kv =>
    if kv.2.team = i.t && kv.2.gix = i.g && tmplBen kv.2.tmpl && mask / 2 ^ tmplBmap kv.2.tmpl % 2 == 1 then some kv.1 else none⟩

/-- Leave an arrival of a team to be performed. -/
def State.defer (s : State) (t : Nat) (d : Deferred) : State :=
  let S := State.updTeam { s with uid := s.uid + 1 } t fun tm => { tm with deferred := amapInsert tm.deferred s.uid d }
  { S with later := S.later ++ [.ins (.barrdArrivalPerform t s.uid)] }

/-- A lane of BARRD arrives at once or later, or traps. -/
def State.barrdLane (s : State) (o : Ops) (i : Iss) (b : Bool) (l : Nat) : State :=
  let x := barOps s i l b
  match x.1 with
  | .inr tr => s.takeTrap i.t i.g l tr
  | .inl r =>
    let mask := (src32 s i l o.c).toNat % 2 ^ 16
    let d := s.barrdArrival i l r (x.2 % 2 ^ 16) mask
    if mask = 0 then s.barrdPerform i.t d else s.defer i.t d

section
variable {s S : State} {o : Ops} {b : Bool} {x : MemX} {i : Iss} {l : Nat} {r : BarRef}

theorem barrd_eq (h : Issues s o { src := [(o.a, 1), (o.b, 1), (o.c, 1)] } i) (free : s.wpathHeld i.t i.g i.parts = false) :
    exec (.barrd o b x) s = .next (i.finish (forEach i.parts s.reading fun S l => S.barrdLane o i b l) [] false none) := by
  rw [exec_barrd, execBarrd, syncIssue_free h free]
  rfl

variable (named : (barOps s i l b).1 = .inl r)
include named

theorem State.barrdLane_recorded (now : (src32 s i l o.c).toNat % 2 ^ 16 = 0)
    (arrived : s.arrive i.t r ((barOps s i l b).2 % 2 ^ 16) = (none, S)) : s.barrdLane o i b l = S := by
  simp only [State.barrdLane, named, now, if_true, State.barrdPerform, State.barrdArrival, arrived]

theorem State.barrdLane_defers (later : (src32 s i l o.c).toNat % 2 ^ 16 ≠ 0) :
    s.barrdLane o i b l = s.defer i.t (s.barrdArrival i l r ((barOps s i l b).2 % 2 ^ 16) ((src32 s i l o.c).toNat % 2 ^ 16)) := by
  simp only [State.barrdLane, named]
  exact if_neg later

end

/-! ## BWAIT (R238) -/

/-- A lane of BWAIT with the barrier that it names. -/
def barNamed (x : Nat × (BarRef ⊕ Trap) × Nat) : Option (Nat × BarRef × Nat) :=
  match x.2.1 with
  | .inl r => some (x.1, r, x.2.2)
  | .inr _ => none

/-- A lane of BWAIT that names no barrier traps. -/
def State.barUnnamed (i : Iss) (s : State) (x : Nat × (BarRef ⊕ Trap) × Nat) : State :=
  match x.2.1 with
  | .inr tr => s.takeTrap i.t i.g x.1 tr
  | .inl _ => s

/-- The barriers whose phase is over already, once each. -/
def State.barOver (s : State) (t : Nat) (xs : List (Nat × BarRef × Nat)) : List BarRef :=
  ((xs.filter fun x => (s.barGet t x.2.1).phase.toNat % 2 ≠ x.2.2 % 2).map fun x => x.2.1).eraseDups

/-- BWAIT of a set: lanes trap or name their barriers, those of the phases that are over acquire, and the set waits. -/
def bwaitEnd (i : Iss) (b : Bool) (s : State) : State :=
  let rs := i.parts.map fun l => (l, barOps s i l b)
  let xs := rs.filterMap barNamed
  let S := forEach rs s (State.barUnnamed i)
  barWait i (forEach (S.barOver i.t xs) S fun S r => S.barLate i.t r) xs

section
variable {s : State} {o : Ops} {b : Bool} {x : MemX} {i : Iss} {l : Nat} {r : BarRef}

theorem bwait_eq (h : Issues s o (barUses o) i) : exec (.bwait o b x) s = .next (bwaitEnd i b s.reading) := by
  rw [exec_bwait, execBwait, issue_eq h false _ nofun]
  rfl

/-- Where every lane names a barrier, none traps. -/
theorem bwaitEnd_named {r : Nat → BarRef} (named : ∀ l ∈ i.parts, (barOps s i l b).1 = .inl (r l)) :
    let xs := i.parts.map fun l => (l, r l, (barOps s i l b).2)
    bwaitEnd i b s = barWait i (forEach (s.barOver i.t xs) s fun S r => S.barLate i.t r) xs := by
  have all_ : (i.parts.map fun l => (l, barOps s i l b)).filterMap barNamed = i.parts.map fun l => (l, r l, (barOps s i l b).2) := by
    rw [List.filterMap_map]
    refine List.filterMap_eq_map_iff_forall_eq_some.2 fun l part => ?_
    simp [barNamed, named l part]
  have none_ : forEach (i.parts.map fun l => (l, barOps s i l b)) s (State.barUnnamed i) = s := by
    refine forEach_none _ _ _ fun S y lane => ?_
    obtain ⟨l, part, rfl⟩ := List.mem_map.1 lane
    simp [State.barUnnamed, named l part]
  simp only [bwaitEnd, all_, none_]

theorem barWait_open {p : Nat} (open_ : (s.barGet i.t r).phase.toNat % 2 = p % 2) : barWait i s [(l, r, p)] =
    i.finishWait s [l] (.parity (s.thread i.t i.g (i.parts.headD 0)).pc [(l, r, p)]) := by
  simp [barWait, open_]

theorem barWait_over {p : Nat} (ended : (s.barGet i.t r).phase.toNat % 2 ≠ p % 2) : barWait i s [(l, r, p)] = i.finish s [] true none := by
  simp [barWait, ended]

/-- A wait at a barrier of the team, or at an object, owes no acquire. -/
theorem State.barLate_narrow (t : Nat) (narrow : r.wide = false) : s.barLate t r = s := by
  simp [State.barLate, narrow]

section
variable (h : Issues s o (barUses o) i) (parts : i.parts = [l]) (named : (barOps s.reading i l b).1 = .inl r)
include h parts named

theorem bwait_single : let xs := [(l, r, (barOps s.reading i l b).2)]
    exec (.bwait o b x) s = .next (barWait i (forEach (s.reading.barOver i.t xs) s.reading fun S r => S.barLate i.t r) xs) := by
  rw [bwait_eq h, bwaitEnd_named (r := fun _ => r) (by simpa [parts] using named), parts]
  rfl

theorem bwait_waits (open_ : (s.barGet i.t r).phase.toNat % 2 = (barOps s.reading i l b).2 % 2) :
    exec (.bwait o b x) s = .next (i.finishWait s.reading [l] (.parity (s.thread i.t i.g l).pc [(l, r, (barOps s.reading i l b).2)])) := by
  have open' : (s.reading.barGet i.t r).phase.toNat % 2 = (barOps s.reading i l b).2 % 2 := open_
  have none_over : s.reading.barOver i.t [(l, r, (barOps s.reading i l b).2)] = [] := by simp [State.barOver, open']
  rw [bwait_single h parts named, none_over]
  refine congrArg Host.Outcome.next ((barWait_open open').trans ?_)
  rw [parts]
  rfl

theorem bwait_goesOn (ended : (s.barGet i.t r).phase.toNat % 2 ≠ (barOps s.reading i l b).2 % 2) (narrow : r.wide = false) :
    exec (.bwait o b x) s = .next (i.finish s.reading [] true none) := by
  have ended' : (s.reading.barGet i.t r).phase.toNat % 2 ≠ (barOps s.reading i l b).2 % 2 := ended
  have one_over : s.reading.barOver i.t [(l, r, (barOps s.reading i l b).2)] = [r] := by simp [State.barOver, ended', List.eraseDups_cons]
  rw [bwait_single h parts named, one_over]
  simp only [forEach, List.foldl_cons, List.foldl_nil, State.barLate_narrow _ narrow]
  exact congrArg Host.Outcome.next (barWait_over ended')

end
end

/-! ## BINIT, BALLOC and BFREE (R240) -/

/-- A barrier as BINIT sets it up, of count `n`. -/
def Bar.setUp (n : Nat) : Bar := { phase := 0, arrived := 0, expect := n, preset := n, recs := [] }

/-- A lane of BINIT sets its barrier up, or traps. -/
def State.binitLane (s : State) (i : Iss) (b : Bool) (l : Nat) : State :=
  let x := barOps s i l b
  let n := x.2 % 2 ^ 16
  match x.1 with
  | .inr tr => s.takeTrap i.t i.g l tr
  | .inl r =>
    if r.limit < n then s.takeTrap i.t i.g l { cause := .illegalOperand }
    else (s.barSet i.t r (.setUp n)).barJudge i.t r

/-- A lane of BFREE drops its object, or traps. -/
def State.bfreeLane (s : State) (o : Ops) (i : Iss) (l : Nat) : State :=
  match s.barRef i.t true (src32 s i l o.a).toNat with
  | .inr tr => s.takeTrap i.t i.g l tr
  | .inl r => match r with
    | .handle ix _ => (s.barDrop i.t r).barErase (s.team i.t).core ix
    | .num _ => s

section
variable {s : State} {o : Ops} {b : Bool} {x : MemX} {i : Iss} {l : Nat} {r : BarRef}

theorem binit_eq (h : Issues s o (barUses o) i) :
    exec (.binit o b x) s = .next (i.finish (forEach i.parts s.reading fun S l => S.binitLane i b l) [] false none) := by
  rw [exec_binit, execBinit, issue_eq h false _ nofun]
  rfl

theorem bfree_eq (h : Issues s o { src := [(o.a, 1)] } i) :
    exec (.bfree o x) s = .next (i.finish (forEach i.parts s.reading fun S l => S.bfreeLane o i l) [] false none) := by
  rw [exec_bfree, execBfree, issue_eq h false _ nofun]
  rfl

theorem State.bfreeLane_drops {ix gen : Nat} (named : s.barRef i.t true (src32 s i l o.a).toNat = .inl (.handle ix gen)) :
    s.bfreeLane o i l = (s.barDrop i.t (.handle ix gen)).barErase (s.team i.t).core ix := by
  simp only [State.bfreeLane, named]

section
variable (named : (barOps s i l b).1 = .inl r)
include named

theorem State.binitLane_sets (fits : (barOps s i l b).2 % 2 ^ 16 ≤ r.limit) : s.binitLane i b l =
    (s.barSet i.t r (.setUp ((barOps s i l b).2 % 2 ^ 16))).barJudge i.t r := by
  simp only [State.binitLane, named]
  exact if_neg (Nat.not_lt.2 fits)

theorem State.binitLane_traps (ended : r.limit < (barOps s i l b).2 % 2 ^ 16) :
    s.binitLane i b l = s.takeTrap i.t i.g l { cause := .illegalOperand } := by
  simp only [State.binitLane, named]
  exact if_pos ended

end

/-- An entry of a barrier table as BALLOC gives it to a team. -/
def BarObj.given (b : BarObj) (t : Nat) : BarObj := { b with team := some t, bar := {} }

/-- Give a team entry `ix` of a core's barrier table; the choice took one of the free values. -/
def State.barGive (s : State) (t core ix : Nat) : State :=
  State.updCore { s with free := s.free + 1 } core fun k =>
    { k with barTab := amapInsert k.barTab ix ((amapGet ({} : BarObj) (s.core core).barTab ix).given t) }

theorem State.barTab_barGive (s : State) (t core ix : Nat) : ((s.barGive t core ix).core core).barTab =
    amapInsert (s.core core).barTab ix ((amapGet ({} : BarObj) (s.core core).barTab ix).given t) := by
  rw [State.barGive, State.updCore_same]
  rfl

variable {ls : List Nat} (h : Issues s o { sd := if o.nw then [] else [(o.d.toNat, 1)] } i) (parts : i.parts = l :: ls) (written : o.nw = false)
include h parts written

theorem balloc_full (full : (s.core (s.team i.t).core).barFree = []) :
    exec (.balloc o x) s = .next (i.finish (s.reading.scalPend i o.d.toNat 1 0) [] false none) := by
  rw [exec_balloc, execBalloc, onceIssue_eq h parts]
  simp [full, written]

theorem balloc_gives (room : (s.core (s.team i.t).core).barFree ≠ []) : ∃ ix ∈ (s.core (s.team i.t).core).barFree,
    exec (.balloc o x) s = .next (i.finish ((s.reading.barGive i.t (s.team i.t).core ix).scalPend i o.d.toNat 1
      (ix + 256 * (amapGet ({} : BarObj) (s.core (s.team i.t).core).barTab ix).gen)) [] false none) := by
  have pos : 0 < (s.core (s.team i.t).core).barFree.length := List.length_pos_of_ne_nil room
  have inside : Config.freeChoice s.reading.free % max (s.core (s.team i.t).core).barFree.length 1 < (s.core (s.team i.t).core).barFree.length :=
    (Nat.mod_lt _ (by omega)).trans_eq (by omega)
  have chosen := List.getElem?_eq_getElem inside
  refine ⟨_, List.getElem_mem inside, ?_⟩
  rw [exec_balloc, execBalloc, onceIssue_eq h parts]
  simp only [State.reading_team, State.reading_core, chosen, written]
  rfl

end

/-- Settles O24: a word of one participant does as its lane does; BSYNC and BWAIT end as the phases stand, and BALLOC as the core's
table has room. -/
theorem barrierWords : Obligations.BarrierWords := by
  unfold Obligations.BarrierWords
  refine ⟨fun o b x s i h free => barrive_eq h free, fun o b x s i l r parts free named live some_ fits taken => ?recorded,
    fun o b x s i l r h free parts named later => ?deferred, fun o b x s i r h named => ?waits, fun o b x s i l r h parts named =>
    ⟨fun open_ => bwait_waits h parts named open_, fun ended narrow => bwait_goesOn h parts named ended narrow⟩,
    fun o b x s i h free => ?syncs, fun o b x s i h free => ⟨_, barrd_eq h free⟩,
    fun o b x s i l r h parts named => ⟨fun fits => ?sets, fun ended => ?traps⟩, fun o x s i l ix gen h parts named => ?drops,
    fun o x s i l ls h parts written => ⟨fun full => balloc_full h parts written full, fun room => ?gives⟩⟩
  case recorded =>
    have threads := SameThreads.arrive (s := s.reading) (t := i.t) live some_ fits taken false
    obtain ⟨S, arrived⟩ : ∃ S, s.reading.arrive i.t r ((barOps s.reading i l b).2 % 2 ^ 16) = (none, S) :=
      ⟨_, State.arrive_taken (s := s.reading) live some_ fits taken⟩
    rw [arrived] at threads
    change SameThreads s.reading S at threads
    refine ⟨S, arrived, fun h => ⟨?_, ?_⟩, fun h now => ?_⟩
    · rw [barrive_eq h free, parts]
      exact congrArg (fun T => Host.Outcome.next (i.finish T [] false none)) (State.arriveLane_recorded named arrived)
    · have unmoved : S.thread i.t i.g l = s.thread i.t i.g l := threads.thread_eq ..
      rw [bsync_eq h free, parts, List.foldl_cons, List.foldl_nil, bsyncLane_recorded named arrived, bsyncEnd, parts, unmoved]
      by_cases same : (S.barGet i.t r).phase.toNat = (s.barGet i.t r).phase.toNat
      · have same' : (S.barGet i.t r).phase.toNat = (s.reading.barGet i.t r).phase.toNat := same
        simp only [if_pos same, if_pos same']
        rfl
      · have same' : ¬ (S.barGet i.t r).phase.toNat = (s.reading.barGet i.t r).phase.toNat := same
        simp only [if_neg same, if_neg same']
        rfl
    · rw [barrd_eq h free, parts]
      exact congrArg (fun T => Host.Outcome.next (i.finish T [] false none)) (State.barrdLane_recorded named now arrived)
  case deferred =>
    rw [barrd_eq h free, parts]
    exact congrArg (fun T => Host.Outcome.next (i.finish T [] false none)) (State.barrdLane_defers named later)
  case syncs =>
    obtain ⟨S, waits⟩ := bsync_finishes h free
    exact ⟨S, [], waits⟩
  case waits => rw [bwait_eq h, bwaitEnd_named named]; rfl
  case sets =>
    rw [binit_eq h, parts]
    exact congrArg (fun T => Host.Outcome.next (i.finish T [] false none)) (State.binitLane_sets named fits)
  case traps =>
    rw [binit_eq h, parts]
    exact congrArg (fun T => Host.Outcome.next (i.finish T [] false none)) (State.binitLane_traps named ended)
  case drops =>
    rw [bfree_eq h, parts]
    exact congrArg (fun T => Host.Outcome.next (i.finish T [] false none)) (State.bfreeLane_drops named)
  case gives =>
    obtain ⟨ix, free, run⟩ := balloc_gives h parts written room
    have table := State.barTab_barGive s.reading i.t (s.team i.t).core ix
    refine ⟨ix, free, _, run, ?_, fun k other => ?_⟩ <;> rw [table]
    · rw [amapGet_insert_same]
      rfl
    · exact amapGet_insert_other _ _ _ _ _ other

end Sys2Proof.Machine

namespace Sys2Proof.Machine

/-! ## Words that act lane by lane (R224 to R227, R232, R331) -/

section
variable {s : State} {o : Ops} {u : Uses} {i : Iss}

/-- A memory word that issues performs its lanes, then ends. -/
theorem memIssue_eq (h : Issues s o u i) (d : Option (Nat × Nat)) (ext : Nat → Nat) (f : Iss → State → Nat → LaneMem × State)
    (after : Iss → List LaneMem → State → State) :
    let r := memLanes i (f i) i.parts s.reading
    memIssue o u d ext f after s =
      .next (memFinish i (after i r.1 r.2) r.1 (d.elim [] fun y => if o.nw then [] else loadRegs r.1 y.1 y.2 ext) []) := by
  rw [memIssue, issue_eq h false _ nofun]
  cases d <;> rfl

theorem LaneForm.runs {x : Instr} {d : Option (Nat × Nat)} {ext : Nat → Nat} {f : Iss → State → State → Nat → LaneMem × State}
    (form : LaneForm x o u d ext f) (h : Issues s o u i) :
    let r := memLanes i (f i s.reading) i.parts s.reading
    exec x s = .next (memFinish i r.2 r.1 (d.elim [] fun y => if o.nw then [] else loadRegs r.1 y.1 y.2 ext) []) := by
  cases form with
  | ldg =>
    rw [exec_ldg, execLdg, loadG]
    exact memIssue_eq h _ _ _ _
  | ldp =>
    rw [exec_ldp, execLdp, loadG]
    exact memIssue_eq h _ _ _ _
  | ldf =>
    rw [exec_ldf, execLdf]
    exact memIssue_eq h _ _ _ _
  | satom =>
    rw [exec_satom, execSatom, satomIssue]
    exact memIssue_eq h _ _ _ _
  | satomCas =>
    rw [exec_satomCas, execSatomCas, satomIssue]
    exact memIssue_eq h _ _ _ _
  | stp =>
    rw [exec_stp, execStp, issue_eq h false _ nofun]
    rfl
  | atom x o n p cas y op ret form unordered =>
    rw [form.exec_eq]
    refine (if_pos unordered).trans ?_
    cases ret <;> exact memIssue_eq h _ _ _ _

/-! ### One participant whose access goes on its way -/

/-- A word whose only lane has its access on its way ends without a result. -/
theorem memFinish_pend (i : Iss) (S : State) (l : Nat) (a : Option Access) : memFinish i S [⟨l, .pend, a⟩] [] [] = i.finish S [] false none := by
  simp [memFinish, takeLaneTraps, forEach, watchLanes, watchStop]

theorem loadRegs_pend (l : Nat) (a : Option Access) (d n : Nat) (ext : Nat → Nat) : loadRegs [⟨l, .pend, a⟩] d n ext = [] := rfl

theorem LaneForm.sends {x : Instr} {d : Option (Nat × Nat)} {ext : Nat → Nat} {f : Iss → State → State → Nat → LaneMem × State}
    (form : LaneForm x o u d ext f) (h : Issues s o u i) {l : Nat} (parts : i.parts = [l]) {a : Option Access} {S : State}
    (lane : f i s.reading s.reading l = (⟨l, .pend, a⟩, S)) : exec x s = .next (i.finish S [] false none) := by
  have none_ : (d.elim [] fun y => if o.nw then [] else loadRegs [⟨l, .pend, a⟩] y.1 y.2 ext) = [] := by
    cases d <;> simp [loadRegs_pend]
  rw [form.runs h, parts, memLanes_pend lane, none_, memFinish_pend]

end

/-! ### SURFACE (R53, R227, R331) -/

section
variable {s S : State} {i : Iss} {l n sc p bank byte addr data cmp : Nat} {m : MMod} {x : MemX} {op : AOp} {dst : Dst} {bad : Bool}

/-- The access of one lane of a SURFACE word. -/
def surfAcc (s : State) (i : Iss) (l n p : Nat) (op : AOp) (data cmp : Nat) (dst : Dst) : Access :=
  { s.threadAcc i.t i.g l (s.thread i.t i.g l).pc i.o.len.bytes op p n data dst with cmp := cmp }

/-- A lane whose pointer is sound and whose byte can be reached puts its access in flight and its request at the bank. -/
theorem State.surfLane_reaches (named : s.surfPtr i l m x sc = some (p, bad))
    (ptr : s.ptrCheck i.t i.g p n [1] (if m.xy then some bad else none) true = none)
    (reach : s.reach (surfIx p) (surfOff p) false p = (.go bank byte addr, S)) :
    let a := surfAcc s i l n p op data cmp dst
    s.surfLane i l n m x sc op data cmp dst = (⟨l, .pend, none⟩, (S.accNew a).2.bankAskAcc bank S.uid a) := by
  intro a
  have start : s.startSurf a = (.pend, (S.accNew a).2.bankAskAcc bank S.uid a) := by
    have reach' : s.reach (surfIx a.va) (surfOff a.va) false a.va = (.go bank byte addr, S) := reach
    rw [State.startSurf, reach']
    rfl
  simp only [State.surfLane, named, ptr]
  exact congrArg (fun r : AStat × State => ((⟨l, r.1, none⟩ : LaneMem), r.2)) start

end

/-- The stores of STF with which it has written a 32-byte word of a bank: those of its lanes whose pointers are sound. -/
def stfEnds (s : State) (i : Iss) (m : MMod) (x : MemX) : List (Nat × Nat) :=
  lastStores 32 (i.parts.filterMap fun l => match s.surfPtr i l m x (2 ^ m.sc.toNat) with
    | some (p, bad) =>
      if (s.ptrCheck i.t i.g p (mtyBytes m.ty) [1] (if m.xy then some bad else none) true).isSome then none else some (l, p, mtyBytes m.ty)
    | none => none)

section
variable {s S : State} {o : Ops} {m : MMod} {x : MemX} {i : Iss} {l p bank byte addr : Nat} {bad : Bool}
  (h : Issues s o { src := (o.a, mtyWords m.ty) :: surfSrc o m x } i)
include h

theorem stf_runs :
    let r := memLanes i (fun S l => S.surfLane i l (mtyBytes m.ty) m x (2 ^ m.sc.toNat) .store (srcData S i l o.a (mtyWords m.ty))
      (if (stfEnds s.reading i m x).any fun e => e.1 = l then 1 else 0) .none) i.parts s.reading
    exec (.stf o m x) s = .next (memFinish i r.2 r.1 [] []) := by
  rw [exec_stf, execStf, issue_eq h false _ nofun]
  rfl

variable (parts : i.parts = [l]) (named : s.reading.surfPtr i l m x (2 ^ m.sc.toNat) = some (p, bad))
  (ptr : s.reading.ptrCheck i.t i.g p (mtyBytes m.ty) [1] (if m.xy then some bad else none) true = none)
include parts named ptr

omit h in
theorem stfEnds_single : stfEnds s.reading i m x = lastStores 32 [(l, p, mtyBytes m.ty)] := by
  simp [stfEnds, parts, named, ptr]

theorem stf_sends (reach : s.reading.reach (surfIx p) (surfOff p) false p = (.go bank byte addr, S)) :
    let a := surfAcc s.reading i l (mtyBytes m.ty) p .store (srcData s.reading i l o.a (mtyWords m.ty))
      (if (lastStores 32 [(l, p, mtyBytes m.ty)]).any fun e => e.1 = l then 1 else 0) .none
    exec (.stf o m x) s = .next (i.finish ((S.accNew a).2.bankAskAcc bank S.uid a) [] false none) := by
  intro a
  rw [stf_runs h, parts, stfEnds_single parts named ptr, memLanes_pend (State.surfLane_reaches named ptr reach), memFinish_pend]

end

/-- A SURFACE word of one participant whose byte can be reached. -/
theorem SurfForm.sends {y : Instr} {o : Ops} {u : Uses} {n sc : Nat} {m : MMod} {x : MemX} {op : AOp} {data cmp : State → Iss → Nat → Nat}
    (form : SurfForm y o u n m sc x op data cmp) {s S : State} {i : Iss} {l p bank byte addr : Nat} {bad : Bool} (h : Issues s o u i)
    (parts : i.parts = [l]) (named : s.reading.surfPtr i l m x sc = some (p, bad))
    (ptr : s.reading.ptrCheck i.t i.g p n [1] (if m.xy then some bad else none) true = none)
    (reach : s.reading.reach (surfIx p) (surfOff p) false p = (.go bank byte addr, S)) :
    ∃ dst, (op ≠ .store → o.nw = false → dst = .vec o.d.toNat (mtyWords m.ty)) ∧
      let a := surfAcc s.reading i l n p op (data s.reading i l)
        (if op = .store then (if (lastStores 32 [(l, p, n)]).any fun e => e.1 = l then 1 else 0) else cmp s.reading i l) dst
      exec y s = .next (i.finish ((S.accNew a).2.bankAskAcc bank S.uid a) [] false none) := by
  cases form with
  | stf => exact ⟨.none, fun other => absurd rfl other, stf_sends h parts named ptr reach⟩
  | ldf => exact ⟨_, fun _ written => if_neg (by simp [written]), (LaneForm.ldf ..).sends h parts (State.surfLane_reaches named ptr reach)⟩
  | satom o p xy w64 =>
    refine ⟨.vec o.d.toNat (atBytes w64 / 4), fun _ _ => by cases w64 <;> rfl, ?_⟩
    exact (LaneForm.satom ..).sends h parts (State.surfLane_reaches named ptr reach)
  | satomCas o p w64 =>
    refine ⟨.vec o.d.toNat (atBytes w64 / 4), fun _ _ => by cases w64 <;> rfl, ?_⟩
    exact (LaneForm.satomCas ..).sends h parts (State.surfLane_reaches named ptr reach)

/-! ### Atomics without an order on a HOME page (R36, R232) -/

section
variable {s S : State} {i : Iss} {l n : Nat} {p cas : Bool} {y : MemX} {op : AOp} {dst : Dst} {ph : Phys}

theorem AOp.need_unordered (atom : op.isAtom = true) (unordered : op.ord = .none) : op.need = .atomic := by
  simp [AOp.need, unordered, atom]

theorem State.atomLane_unordered_home (atom : op.isAtom = true) (unordered : op.ord = .none)
    (ptr : s.ptrCheck i.t i.g (effAddr s i l 0 p n) n [0] none true = none) (home : AtHome s i.t (effAddr s i l 0 p n) .write .atomic ph S) :
    let a := atomAcc s i l n p y op cas dst
    s.atomLane i l n p y op cas dst = (⟨l, .pend, some a⟩, (S.accNew (a.placed ph)).2.send (.hop S.uid)) := by
  intro a
  have start : s.startAcc (s.team i.t).launch a = (.pend, (S.accNew (a.placed ph)).2.send (.hop S.uid)) := by
    refine State.startAcc_home rfl (State.tryL1_atom atom none) ?_
    have write : a.op.writes = true := AOp.writes_atom atom
    have need : a.op.need = .atomic := AOp.need_unordered atom unordered
    rw [write, need]
    exact home
  simp only [State.atomLane, ptr]
  exact congrArg (fun r : AStat × State => ((⟨l, r.1, some a⟩ : LaneMem), r.2)) start

/-- An access under a new identifier that has been sent to its home. -/
theorem sent_home (S : State) {a : Access} (ph : Phys) (who : a.who = .thread i.t i.g l) :
    Sent ((S.accNew (a.placed ph)).2.send (.hop S.uid)) S.uid i l a.op a.va a.n a.data ph where
  msg := List.mem_append_right _ (List.mem_singleton_self _)
  acc := ⟨a.placed ph, amapFind?_insert_same .., who, rfl, rfl, rfl, rfl, rfl⟩

end

/-! ### STG (R61, R227, R275, R276) -/

section
variable {s : State} {o : Ops} {m : MMod} {x : MemX} {i : Iss}

/-- The address and the data of a lane of STG. -/
abbrev stgAddr (i : Iss) (m : MMod) (S : State) (l : Nat) : Nat := effAddr S i l 0 m.p (2 ^ m.sc.toNat)
abbrev stgData (o : Ops) (i : Iss) (m : MMod) (S : State) (l : Nat) : Nat := srcData S i l o.a (mtyWords m.ty)

/-- The templates that the aperture lanes of STG name. -/
def stgNames (s : State) (o : Ops) (i : Iss) (m : MMod) : List Nat :=
  ((i.parts.filter fun l => ptrTag (stgAddr i m s l) = 7 && m.ty == .b32 &&
    (s.ptrCheck i.t i.g (stgAddr i m s l) (mtyBytes m.ty) [7] none true).isNone).map fun l => stgData o i m s l % 64).eraseDups

/-- The end of STG whose templates `ns` are at hand: it does not issue where a copy has no room. -/
def stgEnd (i : Iss) (ns : List Nat) (S : State) (r : Option (List LaneMem × State)) : State :=
  match r with
  | none => { S with turn := .later }
  | some r => memFinish i (r.2.templatesDone i.t ns) r.1 [] []

variable (h : Issues s o { src := (o.a, mtyWords m.ty) :: addrSrc o m.p } i) {S : State}
include h

theorem stg_waits (wait : s.reading.templates i.t (stgNames s.reading o i m) = (none, S)) :
    exec (.stg o m x) s = .next { S with turn := .later } := by
  rw [exec_stg, execStg, issue_eq h false _ nofun]
  dsimp only
  rw [stgNames] at wait
  rw [wait]

theorem stg_stores {ts : List (Nat × (BitVec 512 ⊕ Trap))} (ready : s.reading.templates i.t (stgNames s.reading o i m) = (some ts, S)) :
    exec (.stg o m x) s = .next (stgEnd i (stgNames s.reading o i m) S (stgLanes i (mtyBytes m.ty) (m.ty == .b32)
      (s.reading.storeEnds i (mtyBytes m.ty) [0] (stgAddr i m s.reading)) ts (stgAddr i m) (stgData o i m) i.parts S)) := by
  rw [exec_stg, execStg, issue_eq h false _ nofun]
  simp only [stgNames, stgEnd] at ready ⊢
  rw [ready]
  dsimp only
  cases stgLanes i (mtyBytes m.ty) (m.ty == .b32) (s.reading.storeEnds i (mtyBytes m.ty) [0] (stgAddr i m s.reading)) ts (stgAddr i m)
    (stgData o i m) i.parts S <;> rfl

end

/-- Settles O14: every word performs its lanes and ends; of one participant whose access goes on its way, it ends without a result. -/
theorem laneMemoryWords : Obligations.LaneMemoryWords := by
  unfold Obligations.LaneMemoryWords
  refine ⟨fun x o u d ext f form s i h => form.runs h,
    fun y o u n m sc x op data cmp form s i l p bad bank byte addr S h parts _ named ptr reach => ?surface,
    fun y o n p cas x op ret form unordered s i l ph S h parts ptr home => ?atomics,
    fun o m x s i h => ?stores, fun o m x s i h => stf_runs h⟩
  case surface =>
    obtain ⟨dst, written, run⟩ := form.sends h parts named ptr reach
    exact ⟨_, run, rfl, rfl, rfl, rfl, rfl, written, rfl⟩
  case atomics =>
    obtain rfl := h.ops
    have lane := State.atomLane_unordered_home (y := x) (cas := cas) (dst := atomDst i.o n ret) form.isAtom unordered ptr home
    exact ⟨_, (LaneForm.atom _ _ _ _ _ _ _ _ form unordered).sends h parts lane, sent_home S ph rfl⟩
  case stores =>
    intro n addr data ap ns
    split
    next S wait => exact stg_waits h wait
    next ts S ready => exact stg_stores h ready

end Sys2Proof.Machine

namespace Sys2Proof.Machine

/-! ## The sequencer's turn (R248, R249, R273, R274) -/

/-- A word of the sequencer, at its turn. -/
theorem streamTurn_atStream {s : State} {t : Nat} {st : Stream} (turn : s.turn = .stream t) (stream : (s.team t).stream = some st)
    (f : Nat → Stream → State → State) : streamTurn s f = .next (f t st s) := by
  simp only [streamTurn, turn, stream]

/-- Settles O36: each word of stream control is one change of the stream whose turn it is. -/
theorem streamControl : Obligations.StreamControl := by
  unfold Obligations.StreamControl
  intro o s t st turn stream go kd
  have performs := streamTurn_atStream turn stream
  refine ⟨?_, ?_, ?_, ?_, ?_, ?_, ?_, ?_, ?_, ?_⟩ <;>
    simp only [exec_msetImm, execMsetImm, exec_msetHi, execMsetHi, exec_msetArg, execMsetArg, exec_msetArghi, execMsetArghi, exec_msetSr,
      execMsetSr, exec_msetC, execMsetC, exec_maddk, execMaddk, exec_mloop, execMloop, exec_mjmp, execMjmp, exec_mend, execMend, control,
      performs] <;> rfl

/-- The predecessor that a command names, where it names one, by its place in the history: none where it is not of the history. -/
def Stream.named (st : Stream) (v : Bool) (p : BitVec 6) : Option (Option Nat) :=
  if v then some ((st.history.find? fun h => h.1 = p.toNat).map (·.2)) else none

/-- A predecessor is missing where it is named and not among the last 63 commands. -/
theorem Stream.named_ne_missing_iff (st : Stream) (v : Bool) (p : BitVec 6) :
    st.named v p ≠ some none ↔ (v = true → ∃ h ∈ st.history, h.1 = p.toNat) := by
  cases v with
  | false => simp [named]
  | true =>
    rw [named, if_pos rfl, Ne, Option.some.injEq, Option.map_eq_none_iff, List.find?_eq_none]
    simp

/-- The predecessors that two names give. -/
theorem Stream.named_preds (st : Stream) (v w : Bool) (p q : BitVec 6) :
    ([st.named v p, st.named w q].filterMap id).filterMap id = ((if v then [p] else []) ++ if w then [q] else []).filterMap (fun p =>
      (st.history.find? fun h => h.1 = p.toNat).map (·.2)) := by
  cases v <;> cases w <;> rfl

theorem Stream.named_any_isNone (st : Stream) (v w : Bool) (p q : BitVec 6) :
    ([st.named v p, st.named w q].filterMap id).any Option.isNone = true ↔ st.named v p = some none ∨ st.named w q = some none := by
  rcases st.named v p with _ | _ | _ <;> rcases st.named w q with _ | _ | _ <;> simp

/-- What a command of the multiply class is to the reuse chains of the stream. -/
def Stream.chainOf (st : Stream) (x : Instr) (o : SOps) : Option Nat × Option Nat × Option (Nat × Nat) :=
  if isMul x then chainStep st.chain (srcIx o.a) st.nextSeq o.ru else (none, none, st.chain)

/-- The command that a word issues. -/
def Stream.issued (st : Stream) (x : Instr) (o : SOps) : Cmd :=
  { seq := st.nextSeq, cid := o.cid.toNat, instr := x, pc := st.pc, ka := amapGet 0 st.k (srcIx o.a), kb := amapGet 0 st.k (srcIx o.b)
    kc := amapGet 0 st.k (srcIx o.c), kc1 := amapGet 0 st.k (srcIx o.c + 1)
    preds := ([st.named o.v0 o.pred0, st.named o.v1 o.pred1].filterMap id).filterMap id
    root := (st.chainOf x o).1, ends := (st.chainOf x o).2.1 }

/-- The stream past the word. -/
def Stream.afterIssue (st : Stream) (x : Instr) (o : SOps) : Stream :=
  { st with
    pc := (st.pc + 16) % 2 ^ 64
    window := st.window ++ [st.issued x o]
    history := (o.cid.toNat, st.nextSeq) :: st.history.take 62
    nextSeq := st.nextSeq + 1
    chain := (st.chainOf x o).2.2 }

theorem cmdIssue_atStream {s : State} {t : Nat} {st : Stream} (turn : s.turn = .stream t) (stream : (s.team t).stream = some st)
    (x : Instr) (o : SOps) : cmdIssue x o s = .next (
      if ([st.named o.v0 o.pred0, st.named o.v1 o.pred1].filterMap id).any Option.isNone then
        (s.updStream t fun _ => st.afterIssue x o).cmdFault t (st.issued x o) { cause := .illegalOperand }
      else ((s.updStream t fun _ => st.afterIssue x o).cmdDue t (st.issued x o)).mbwJudge t) :=
  streamTurn_atStream turn stream _

/-- MPUT of one participant (R262). -/
theorem mput_eq {s : State} {o : Ops} {w : W3} {i : Iss} {l : Nat} (h : Issues s o { src := [(o.a, w3Bytes w / 4), (o.b, 1)] } i)
    (parts : i.parts = [l]) (stream : (s.team i.t).stream ≠ none) :
    let n := w3Bytes w
    let off := (src32 s.reading i l o.b).toNat + l * n
    exec (.mput o w) s = .next (i.finish (if off % n ≠ 0 ∨ 512 < off + n then s.reading.takeTrap i.t i.g l { cause := .illegalOperand }
      else s.reading.updStream i.t fun st => { st with
        m := amapInsert st.m o.d.toNat (tilePut (amapGet 0 st.m o.d.toNat) 0 (off / n) n (srcData s.reading i l o.a (n / 4))) }) [] false none) := by
  intro n off
  obtain ⟨st, stream⟩ := Option.ne_none_iff_exists'.1 stream
  have stream' : (s.reading.team i.t).stream = some st := stream
  rw [exec_mput, execMput, issue_eq h false _ nofun, parts]
  simp only [forEach, List.foldl_cons, List.foldl_nil, stream', Bool.or_eq_true, decide_eq_true_eq]
  rfl

/-- Settles O35: a command is one change of the stream, after which it is due or faulted. -/
theorem streamCommands : Obligations.StreamCommands := by
  unfold Obligations.StreamCommands
  refine ⟨fun o w s i l h parts stream => mput_eq h parts stream, fun o int scl satf view b e x hx s t st turn stream => ?_⟩
  have fields : sopsOf x = some o := by
    simp only [List.mem_cons, List.not_mem_nil, or_false] at hx
    rcases hx with rfl | rfl | rfl | rfl | rfl | rfl | rfl | rfl | rfl | rfl | rfl | rfl <;> rfl
  have run := (exec_eq_cmdIssue fields s).trans (cmdIssue_atStream turn stream x o)
  refine ⟨st.issued x o, st.afterIssue x o, rfl, rfl, rfl, rfl, rfl, rfl, rfl, rfl, rfl, rfl, rfl, rfl, st.named_preds .., rfl, rfl, rfl,
    rfl, rfl, fun k0 k1 => ?_, fun unknown => ?_⟩
  · rw [run, if_neg]
    rw [st.named_any_isNone, not_or]
    exact ⟨(st.named_ne_missing_iff ..).2 k0, (st.named_ne_missing_iff ..).2 k1⟩
  · rw [run, if_pos]
    rw [st.named_any_isNone]
    by_contra none_
    rw [not_or] at none_
    exact unknown ⟨(st.named_ne_missing_iff ..).1 none_.1, (st.named_ne_missing_iff ..).1 none_.2⟩

/-! ## The place of a context in the rotation (R251)

The statement on MCLR and MNOP gives the engine the launch slot of the team as the context that it served last, where the model gives it
the sequencer context of the team's stream. -/

/-- MNOP. -/
def slottedNop : Cmd := { seq := 0, cid := 0, instr := .mnop ⟨0, .v 0, .v 0, .v 0, 0, 0, false, 0, false, 0, 0, false, false⟩, pc := 0,
                          ka := 0, kb := 0, kc := 0, kc1 := 0, preds := [] }
/-- A team of slot 1 whose stream has context 0, with an MNOP in its window. -/
def slottedState : State := { State.reset with teams := [(0, { slot := 1, stream := some { pc := 0, window := [slottedNop] } })] }

/-- The context that the engine of core 0 served last, in the state that an outcome leads to. -/
def Out.servedLast : Out → Option Nat
  | .next s => some (s.core 0).mLast
  | _ => none

/-- The model serves context 0. -/
theorem slotted_serves : Out.servedLast (exec (.commandRetire 0 0) slottedState) = some 0 := by decide +kernel

/-- Refutes O54: MNOP of a stream of context 0, in a team of slot 1, leaves 0 as the context served last, not 1. -/
theorem not_mclrAndMnop : ¬ Obligations.MclrAndMnop := by
  unfold Obligations.MclrAndMnop
  intro h
  have stated := (h slottedState 0 { pc := 0, window := [slottedNop] } slottedNop ⟨0, .v 0, .v 0, .v 0, 0, 0, false, 0, false, 0, 0, false, false⟩
    rfl rfl rfl (.inr ⟨by decide, by decide⟩) (by decide)).1 rfl
  have model : Out.servedLast (exec (.commandRetire 0 slottedNop.seq) slottedState) = some 0 := slotted_serves
  rw [stated] at model
  exact absurd model (by decide +kernel)

end Sys2Proof.Machine

namespace Sys2Proof.Machine

/-! ## TRAP, TRAP.LEGACY and BKPT (R340, R353, R366) -/

theorem forEach_map {α β : Type} (l : List α) (f : α → β) (s : State) (g : State → β → State) :
    forEach (l.map f) s g = forEach l s fun s x => g s (f x) := List.foldl_map

section
variable {s : State} {o : Ops} {u : Uses} {i : Iss} (h : Issues s o u i)
include h

/-- Each participant takes a trap of what it read before any of them trapped. -/
theorem raiseIssue_eq (tr : State → Iss → Nat → Trap) : raiseIssue o u tr s =
    .next (i.finish (forEach i.parts s.reading fun b l => b.takeTrap i.t i.g l (tr s.reading i l)) [] false none) := by
  rw [raiseIssue, issue_eq h false _ nofun, forEach_map]

end

section
variable {s : State} {o : Ops} {i : Iss} (h : Issues s o { src := [(o.a, 1)] } i)
include h

theorem bkpt_traps (free : s.attached i.t = false ∨ (s.team i.t).kind = .porter) :
    exec (.bkpt o) s = .next (i.finish (forEach i.parts s.reading fun b l =>
      b.takeTrap i.t i.g l { cause := .bkpt, info := (src32 s.reading i l o.a).toNat }) [] false none) := by
  have off : (s.reading.attached i.t && decide ((s.reading.team i.t).kind ≠ .porter)) = false := by
    rcases free with free | porter
    · rw [show s.reading.attached i.t = false from free, Bool.false_and]
    · rw [show (s.reading.team i.t).kind = .porter from porter]
      exact Bool.and_false _
  rw [exec_bkpt, execBkpt, issue_eq h false _ nofun, off]
  simp only [Bool.false_eq_true, if_false, forEach_map]

theorem bkpt_stops (attached : s.attached i.t = true) (guest : (s.team i.t).kind ≠ .porter) :
    let hit := i.parts.filter fun l => !(s.thread i.t i.g l).noBreak
    exec (.bkpt o) s = .next (if hit = [] then i.finish s.reading [] false none
      else s.reading.teamStop i.t 0x40 i.g (hit.map fun l => (i.g, l))) := by
  intro hit
  have on : (s.reading.attached i.t && decide ((s.reading.team i.t).kind ≠ .porter)) = true := by
    rw [show s.reading.attached i.t = true from attached, Bool.true_and]
    exact decide_eq_true guest
  rw [exec_bkpt, execBkpt, issue_eq h false _ nofun, on]
  simp only [if_true, List.isEmpty_iff]
  rfl

end

/-- Settles O28: the three words by what each participant read, or the debugger's stop. -/
theorem trapWords : Obligations.TrapWords := by
  unfold Obligations.TrapWords
  simp only [forEach_map]
  refine ⟨fun o s i h => ?_, fun o s i h => ?_, fun o s i h free => bkpt_traps h free, fun o s i h attached guest => bkpt_stops h attached guest⟩
  · rw [exec_trap, execTrap, raiseIssue_eq h]
  · rw [exec_trapLegacy, execTrapLegacy, raiseIssue_eq h]

end Sys2Proof.Machine

namespace Sys2Proof.Machine

/-! ## The night porter's words (R349, R354 to R357) -/

theorem rtt_eq {s : State} {o : Ops} {i : Iss} (h : Issues s o {} i) (porter : (s.team i.t).kind = .porter) :
    exec (.rtt o) s = .next (if i.parts = [] then i.finish s.reading [] true none else s.reading.porterSleep (s.team i.t).core i.t) := by
  rw [exec_rtt, execRtt, issue_eq h true _ fun _ => porter]
  simp only [List.isEmpty_iff]
  rfl

/-! ### Dispositions (R356) -/

section
variable {s : State} {o : Ops} {i : Iss} {l : Nat} {ls : List Nat} (h : Issues s o (privUses o [(o.a, 1)]) i)
  (porter : (s.team i.t).kind = .porter) (parts : i.parts = l :: ls)
include h porter parts

/-- The SEQ names no record: the word answers 1. -/
theorem disposeIssue_stale (none_ : s.porterRecord i.t (src32 s.reading i l o.a).toNat = none)
    (f : State → Nat → GbEntry → State) (ready : State → GbEntry → Bool × State) : disposeIssue o f s ready = .next (i.finish (s.reading.writeS i.t i.g o.d.toNat 1) [] false none) := by
  have none' : s.reading.porterRecord i.t (src32 s.reading i l o.a).toNat = none := none_
  rw [disposeIssue, onceIssue_porter h parts porter]
  simp only [none']

variable {e : GbEntry} (found : s.porterRecord i.t (src32 s.reading i l o.a).toNat = some e) {T : State}
include found

theorem disposeIssue_acts {ready : State → GbEntry → Bool × State} (go : ready s.reading e = (true, T)) (f : State → Nat → GbEntry → State) : disposeIssue o f s ready =
    .next (i.finish (f (T.writeS i.t i.g o.d.toNat 0) (T.team i.t).core e) [] false none) := by
  have found' : s.reading.porterRecord i.t (src32 s.reading i l o.a).toNat = some e := found
  rw [disposeIssue, onceIssue_porter h parts porter]
  simp only [found', go]

theorem disposeIssue_waits {ready : State → GbEntry → Bool × State} (stay : ready s.reading e = (false, T)) (f : State → Nat → GbEntry → State) : disposeIssue o f s ready = .next { T with turn := .later } := by
  have found' : s.reading.porterRecord i.t (src32 s.reading i l o.a).toNat = some e := found
  rw [disposeIssue, onceIssue_porter h parts porter]
  simp only [found', stay]

end

/-! ### GBREAD (R354) -/

section
variable {s : State} {o : Ops} {q : BitVec 3} {i : Iss} {l : Nat} {ls : List Nat}
  (h : Issues s o { src := [], sd := [(o.d.toNat, 16)], pw := [q.toNat] } i) (porter : (s.team i.t).kind = .porter) (parts : i.parts = l :: ls)
include h porter parts

/-- The oldest record of the porter's launch that it has not read and that is not the host's. -/
abbrev State.unreadRecord (s : State) (t : Nat) : Option GbEntry :=
  (s.core (s.team t).core).book.find? fun e => e.launch = (s.team t).launch && !e.read && !e.host

theorem gbread_none (none_ : s.unreadRecord i.t = none) : exec (.gbread o q) s =
    .next (i.finish (s.reading.addPend ⟨i.t, i.g, false, false, [], [(l, q.toNat, false)]⟩) [] false none) := by
  have none' : s.reading.unreadRecord i.t = none := none_
  rw [exec_gbread, execGbread, onceIssue_porter h parts porter]
  simp only [none']

theorem gbread_reads {e : GbEntry} (found : s.unreadRecord i.t = some e) : exec (.gbread o q) s = .next (i.finish
    (((s.reading.updCore (s.team i.t).core fun k => { k with book := k.book.map fun x => if x.seq = e.seq then { x with read := true } else x }).addPend
      ⟨i.t, i.g, false, true, (numbered o.d.toNat (e.words.flatMap fun w => toWords 2 w.toNat)).map fun x => (0, x.1, x.2), []⟩).addPend
        ⟨i.t, i.g, false, false, [], [(l, q.toNat, true)]⟩) [] false none) := by
  have found' : s.reading.unreadRecord i.t = some e := found
  rw [exec_gbread, execGbread, onceIssue_porter h parts porter]
  simp only [found']
  rfl

end

/-! ### PKRD and PKWR (R355) -/

section
variable {s : State} {o : Ops} {i : Iss} {l : Nat} {ls : List Nat} (h : Issues s o (privUses o [(o.a, 1), (o.b, 1)]) i)
  (porter : (s.team i.t).kind = .porter) (parts : i.parts = l :: ls)
include h porter parts

theorem pkrd_illegal (out : 0x144 ≤ (src32 s.reading i l o.b).toNat) :
    exec (.pkrd o) s = .next (i.faultAll s.reading { cause := .illegalOperand } false) := by
  rw [exec_pkrd, execPkrd, onceIssue_porter h parts porter]
  simp only [if_pos out]

variable (legal : (src32 s.reading i l o.b).toNat < 0x144)
include legal

theorem pkrd_stale (none_ : s.porterRecord i.t (src32 s.reading i l o.a).toNat = none) :
    exec (.pkrd o) s = .next (i.finish (s.reading.scalPend i o.d.toNat 1 0) [] false none) := by
  have none' : s.reading.porterRecord i.t (src32 s.reading i l o.a).toNat = none := none_
  rw [exec_pkrd, execPkrd, onceIssue_porter h parts porter]
  simp only [if_neg legal.not_ge, none']

theorem pkrd_reads {e : GbEntry} (found : s.porterRecord i.t (src32 s.reading i l o.a).toNat = some e)
    (named : s.selOk e (src32 s.reading i l o.b).toNat = true) : exec (.pkrd o) s =
      .next (i.finish (s.reading.scalPend i o.d.toNat 1 (s.peekSel e (src32 s.reading i l o.b).toNat)) [] false none) := by
  have found' : s.reading.porterRecord i.t (src32 s.reading i l o.a).toNat = some e := found
  have named' : s.reading.selOk e (src32 s.reading i l o.b).toNat = true := named
  rw [exec_pkrd, execPkrd, onceIssue_porter h parts porter]
  simp only [if_neg legal.not_ge, found', named', if_true]
  rfl

end

section
variable {s : State} {o : Ops} {i : Iss} {l : Nat} {ls : List Nat} (h : Issues s o (privUses o [(o.a, 1), (o.b, 1), (o.c, 1)]) i)
  (porter : (s.team i.t).kind = .porter) (parts : i.parts = l :: ls) (legal : (src32 s.reading i l o.b).toNat < 0x144)
include h porter parts legal

theorem pkwr_stale (none_ : s.porterRecord i.t (src32 s.reading i l o.a).toNat = none) :
    exec (.pkwr o) s = .next (i.finish (s.reading.writeS i.t i.g o.d.toNat 1) [] false none) := by
  have none' : s.reading.porterRecord i.t (src32 s.reading i l o.a).toNat = none := none_
  rw [exec_pkwr, execPkwr, onceIssue_porter h parts porter]
  simp only [if_neg legal.not_ge, none']

/-- What a write of the named piece ends in: the state with the piece patched, or none where it is refused. -/
theorem pkwr_patches {e : GbEntry} (found : s.porterRecord i.t (src32 s.reading i l o.a).toNat = some e)
    (named : s.selOk e (src32 s.reading i l o.b).toNat = true) : exec (.pkwr o) s = .next
      (match s.reading.patchSel e (src32 s.reading i l o.b).toNat (src32 s.reading i l o.c) with
        | some S => i.finish (S.writeS i.t i.g o.d.toNat 0) [] false none
        | none => i.faultAll s.reading { cause := .illegalOperand } false) := by
  have found' : s.reading.porterRecord i.t (src32 s.reading i l o.a).toNat = some e := found
  have named' : s.reading.selOk e (src32 s.reading i l o.b).toNat = true := named
  rw [exec_pkwr, execPkwr, onceIssue_porter h parts porter]
  simp only [if_neg legal.not_ge, found', named', if_true] <;> rfl

end

/-- Settles O30: each word is performed once, by the record that its SEQ names. -/
theorem porterWords : Obligations.PorterWords := by
  unfold Obligations.PorterWords
  refine ⟨fun o s i h porter => rtt_eq h porter,
    fun o s i l ls h porter parts => ⟨fun none_ y hy => ?stale, fun e found => ⟨?_, fun T go => ?_, fun T stay => ?_, ?_, ?_, ?_⟩⟩,
    fun o q s i l ls h porter parts => ⟨gbread_none h porter parts, fun e found => gbread_reads h porter parts found⟩,
    fun o s i l ls h porter parts => ⟨pkrd_illegal h porter parts, pkrd_stale h porter parts, fun e legal found named =>
      pkrd_reads h porter parts legal found named⟩,
    fun o s i l ls h porter parts => ⟨pkwr_stale h porter parts, fun e S legal found named patched => ?_, fun e legal found named refused => ?_⟩⟩
  case stale =>
    simp only [List.mem_cons, List.not_mem_nil, or_false] at hy
    rcases hy with rfl | rfl | rfl | rfl | rfl <;>
      simp only [exec_resume, execResume, exec_resumeSkip, execResumeSkip, exec_killt, execKillt, exec_killtG, execKilltG, exec_haltt,
        execHaltt, disposeIssue_stale h porter parts none_]
  · rw [exec_resume, execResume, disposeIssue_acts h porter parts found rfl]; rfl
  · rw [exec_resumeSkip, execResumeSkip, disposeIssue_acts h porter parts found go]
  · rw [exec_resumeSkip, execResumeSkip, disposeIssue_waits h porter parts found stay]
  · rw [exec_killt, execKillt, disposeIssue_acts h porter parts found rfl]; rfl
  · rw [exec_killtG, execKilltG, disposeIssue_acts h porter parts found rfl]; rfl
  · rw [exec_haltt, execHaltt, disposeIssue_acts h porter parts found rfl]
  · rw [pkwr_patches h porter parts legal found named, patched]
  · rw [pkwr_patches h porter parts legal found named, refused]

end Sys2Proof.Machine

namespace Sys2Proof.Machine

/-! ## Taking a trap (R341 to R346) -/

/-- A thread leaves its run with a new standing. -/
def State.stands (s : State) (t g l : Nat) (f : Thread → Thread) : State :=
  s.updGroup t g fun gr => ({ gr with threads := amapInsert gr.threads l (f (gr.thr l)) }).leaveRun l

/-- A thread that is parked: its section's time is kept. -/
def Thread.park (now : Nat) (th : Thread) : Thread := { th with stat := .parked, sect := th.sect.keep now }
/-- A thread that is held. -/
def Thread.hold (th : Thread) : Thread := { th with stat := .held }

section
variable (s : State) (t g l : Nat) {f : Thread → Thread}

theorem quiet_stands (keeps : ∀ th, (f th).arch = th.arch) : Quiet s (s.stands t g l f) :=
  quiet_updGroup _ _ _ _ fun _ => ⟨rfl, fun _ => Group.thr_insert _ _ _ _ (keeps _)⟩

theorem stands_other {t' g' l' : Nat} (other : ¬ (t' = t ∧ g' = g ∧ l' = l)) : (s.stands t g l f).thread t' g' l' = s.thread t' g' l' := by
  simp only [State.thread, State.stands, State.group_updGroup]
  split_ifs with at_
  · obtain ⟨rfl, rfl, -⟩ := at_
    exact amapGet_insert_other _ _ _ _ _ fun same => other ⟨rfl, rfl, same⟩
  · rfl

variable (there : (amapFind? s.teams t).isSome)
include there

theorem stands_here : (s.stands t g l f).thread t g l = f (s.thread t g l) := by
  simp only [State.thread, State.stands, State.group_updGroup, there, and_self, if_true]
  exact amapGet_insert_same ..

theorem stands_leaves : RunsIn (s.stands t g l f) t g fun r => l ∉ r.lanes := by
  intro r run
  simp only [State.stands, State.group_updGroup, there, and_self, if_true, Group.leaveRun, Option.map_eq_some_iff] at run
  obtain ⟨r0, -, rfl⟩ := run
  simp

end

/-- A record or a held thread enters the book of a core: no thread and no run changes. -/
theorem teams_bookPut (s : State) (c : Nat) (e : GbEntry) : (s.bookPut c e).teams = s.teams := by
  unfold State.bookPut
  dsimp only
  split_ifs <;> rfl
theorem teams_bookHold (s : State) (c : Nat) (h : Held) : (s.bookHold c h).teams = s.teams := by
  unfold State.bookHold
  dsimp only
  split_ifs <;> rfl

/-- The book that takes a record. -/
theorem bookPut_book (s : State) (c : Nat) (e : GbEntry) : ((s.bookPut c e).core c).book =
    (s.core c).book ++ [e.withSeq (nextFreeSeq ((s.core c).book.map (·.seq)) 65 (s.core c).nextSeq)] := by
  unfold State.bookPut
  dsimp only
  have same (f : Core → Core) : ((s.updCore c f).msiRaise (8 + c)).core c = f (s.core c) := State.updCore_same s c f
  split_ifs <;> simp only [same, State.updCore_same]

/-- The book that holds a thread or a record. -/
theorem bookHold_core (s : State) (c : Nat) (h : Held) : ((s.bookHold c h).core c).held = (s.core c).held ++ [h] ∧
    ((s.bookHold c h).core c).full = true ∧ ((s.bookHold c h).core c).book = (s.core c).book := by
  unfold State.bookHold
  dsimp only
  have same (f : Core → Core) : ((s.updCore c f).msiRaise (8 + c)).core c = f (s.core c) := State.updCore_same s c f
  split_ifs <;> simp only [same, State.updCore_same, and_self]

theorem group_of_teams {s S : State} (h : S.teams = s.teams) (t g : Nat) : S.group t g = s.group t g := by
  rw [State.group, State.team, h]; rfl

/-- The record of a trap of a thread. -/
def State.trapEntry (s : State) (t g l : Nat) (tr : Trap) : GbEntry :=
  { seq := 0, words := s.faultRecord t g l (s.pcOffset t (s.thread t g l).pc) tr, team := t, launch := (s.team t).launch,
    host := s.toHost (s.team t).launch tr }

/-- The first word of a record holds its CAUSE, whatever its SEQ. -/
theorem trapEntry_cause (s : State) (t g l : Nat) (tr : Trap) (n : Nat) : ((s.trapEntry t g l tr).withSeq n).cause = tr.cause.code := by
  have small : tr.cause.code < 2 ^ 8 := by cases tr.cause <;> decide
  simp only [State.trapEntry, GbEntry.withSeq, State.faultRecord, GbEntry.cause, List.headD_cons, bitField, BitVec.toNat_ofNat]
  omega

/-- A trap for which nothing but the book decides. -/
theorem takeTrap_eq (s : State) (t g l : Nat) (tr : Trap) (inside : tr.cause ≠ .outOfLodging) (guest : (s.team t).kind ≠ .porter)
    (going : s.stopping t = false) (free : (tr.cause = .bkpt ∨ tr.cause = .watch) → s.attached t = false)
    (first : (s.core (s.team t).core).serving ≠ some (t, g, l)) : s.takeTrap t g l tr =
      if s.bookFull (s.team t).core then (s.stands t g l Thread.hold).bookHold (s.team t).core (.thread t g l)
      else (s.stands t g l (Thread.park s.cclk)).bookPut (s.team t).core (s.trapEntry t g l tr) := by
  have unstopped : ((decide (tr.cause = .bkpt) || decide (tr.cause = .watch)) && s.attached t) = false := by
    by_cases stops : tr.cause = .bkpt ∨ tr.cause = .watch
    · rw [free stops, Bool.and_false]
    · rw [not_or] at stops
      simp [stops]
  simp only [State.takeTrap, if_neg guest, going, Bool.false_eq_true, if_false, if_neg inside, first, decide_false, Bool.false_and,
    Bool.not_false, Bool.and_true, unstopped]
  rfl

/-! ## Disposing of a record (R356, Table 20-7) -/

/-- A core that holds nothing has nothing to serve. -/
theorem serveHeld_empty {s : State} {c : Nat} (empty : (s.core c).held = []) (n : Nat) : State.serveHeld n s c = s := by
  cases n with
  | zero => rfl
  | succ n =>
    unfold State.serveHeld
    simp only [empty, ite_self]

/-- The entry of a record is free, and nothing comes of it where nothing is held. -/
theorem bookFree_eq {s : State} {c : Nat} (empty : (s.core c).held = []) (seq : Nat) :
    s.bookFree c seq = s.updCore c fun k => { k with book := k.book.filter (·.seq ≠ seq) } := by
  rw [State.bookFree]
  refine serveHeld_empty ?_ _
  rw [State.updCore_same]
  exact empty

/-- The registers of a thread that stay when its record is disposed of. -/
def Thread.regs (th : Thread) : AMap Word × BitVec 8 × Word × List Nat × Nat := (th.v, th.p, th.fpm, th.hw, th.spilled)

/-- A team is resident on core `c`, which holds nothing. -/
structure Unheld (s : State) (t c : Nat) : Prop where
  there : (amapFind? s.teams t).isSome
  home  : (s.team t).core = c
  empty : (s.core c).held = []

/-- What an act on the threads of a team leaves: registers, the book of its core. -/
structure Acts (s S : State) (t c : Nat) : Prop where
  unheld : Unheld S t c
  book   : (S.core c).book = (s.core c).book
  regs   : ∀ g l, (S.thread t g l).regs = (s.thread t g l).regs

theorem Acts.refl {s : State} {t c : Nat} (h : Unheld s t c) : Acts s s t c := ⟨h, rfl, fun _ _ => rfl⟩
theorem Acts.trans {a b d : State} {t c : Nat} (h : Acts a b t c) (k : Acts b d t c) : Acts a d t c :=
  ⟨k.unheld, k.book.trans h.book, fun g l => (k.regs g l).trans (h.regs g l)⟩

/-- The group of a thread that is killed. -/
def Group.killed (gr0 : Group) (now l : Nat) : Group :=
  let gr := ({ gr0 with threads := amapInsert gr0.threads l ((gr0.thr l).finish true) } : Group).leaveWaits l
  gr0.readySince now { gr with run := match gr.run with
    | none => none
    | some r => if (r.lanes.filter (· ≠ l)).isEmpty then none else some { r with lanes := r.lanes.filter (· ≠ l) } }

theorem Group.killed_threads (gr : Group) (now l : Nat) : (gr.killed now l).threads = amapInsert gr.threads l ((gr.thr l).finish true) := by
  simp only [Group.killed, Group.readySince_threads, Group.leaveWaits]

section
variable {s : State} {t c : Nat} (h : Unheld s t c)
include h

theorem Unheld.updGroup (g : Nat) (f : Group → Group) : Unheld (s.updGroup t g f) t c where
  there := by rw [State.updGroup, State.present_updTeam]; exact h.there
  home := by rw [State.updGroup, State.team_updTeam, if_pos ⟨rfl, h.there⟩]; exact h.home
  empty := h.empty

theorem core_afterEnd (g : Nat) : ((s.afterEnd t g).core c).book = (s.core c).book ∧ ((s.afterEnd t g).core c).held = (s.core c).held := by
  unfold State.afterEnd State.dropPrivate
  dsimp only
  split_ifs
  · exact ⟨rfl, rfl⟩
  · rw [h.home, State.updCore_same]
    exact ⟨rfl, rfl⟩
  · exact ⟨rfl, rfl⟩

theorem killThread_eq {g l : Nat} (alive : (s.thread t g l).stat ≠ .dead) : s.killThread t g l =
    ((s.updGroup t g fun gr => gr.killed s.cclk l).afterEnd t g).unhold c (· == .thread t g l) := by
  rw [State.killThread, if_neg alive, h.home]
  refine serveHeld_empty ?_ _
  have none_ := (core_afterEnd (h.updGroup g fun gr => gr.killed s.cclk l) g).2
  rw [State.unhold, State.updCore_same]
  exact List.filter_eq_nil_iff.2 fun x hx => absurd (none_.trans h.empty ▸ hx) List.not_mem_nil

/-- The threads of the group of a thread that is killed. -/
theorem killThread_threads {g l : Nat} (alive : (s.thread t g l).stat ≠ .dead) :
    ((s.killThread t g l).group t g).threads = amapInsert (s.group t g).threads l ((s.thread t g l).finish true) := by
  have teams : (s.killThread t g l).teams = (s.updGroup t g fun gr => gr.killed s.cclk l).teams := by
    rw [killThread_eq h alive]
    unfold State.unhold State.afterEnd State.dropPrivate
    dsimp only
    split_ifs <;> rfl
  rw [group_of_teams teams, State.group_updGroup, if_pos ⟨rfl, rfl, h.there⟩, Group.killed_threads]
  rfl

theorem killThread_acts (g l : Nat) : Acts s (s.killThread t g l) t c := by
  by_cases dead : (s.thread t g l).stat = .dead
  · rw [State.killThread, if_pos dead]; exact .refl h
  · have quiet := quiet_killThread s t g l
    have eq := killThread_eq h dead
    have ended := core_afterEnd (h.updGroup g fun gr => gr.killed s.cclk l) g
    have book : ((s.killThread t g l).core c).book = (s.core c).book := by
      rw [eq, State.unhold, State.updCore_same]; exact ended.1
    have empty : ((s.killThread t g l).core c).held = [] := by
      rw [eq, State.unhold, State.updCore_same]
      exact List.filter_eq_nil_iff.2 fun x hx => absurd (ended.2.trans h.empty ▸ hx) List.not_mem_nil
    refine ⟨⟨?_, ((congrArg Team.core (quiet.bodies t) :)).trans h.home, empty⟩, book, fun g' l' => ?_⟩
    · rw [eq]
      unfold State.unhold State.afterEnd State.dropPrivate
      dsimp only
      split_ifs <;> exact (h.updGroup g fun gr => gr.killed s.cclk l).there
    · have arch := quiet.arch t g' l'
      simp only [Thread.arch, Prod.mk.injEq] at arch
      obtain ⟨-, hv, hp, hf, hh, hs, -⟩ := arch
      simp only [Thread.regs, hv, hp, hf, hh, hs]

end

section
variable {s : State} {t c : Nat} (h : Unheld s t c) (g : Nat)
include h

theorem killThread_dead (l : Nat) : ((s.killThread t g l).thread t g l).stat = .dead := by
  by_cases dead : (s.thread t g l).stat = .dead
  · rw [State.killThread, if_pos dead]; exact dead
  · rw [State.thread, killThread_threads h dead, amapGet_insert_same]; rfl

/-- A thread that has ended stays so when another is killed. -/
theorem killThread_keeps_dead {l : Nat} (ended : (s.thread t g l).stat = .dead) (k : Nat) : ((s.killThread t g k).thread t g l).stat = .dead := by
  by_cases same : l = k
  · exact same ▸ killThread_dead h g k
  · by_cases dead : (s.thread t g k).stat = .dead
    · rwa [State.killThread, if_pos dead]
    · rw [State.thread, killThread_threads h dead, amapGet_insert_other _ _ _ _ _ same]
      exact ended

end

/-- Threads that are killed in turn have ended, and so has each that had before. -/
theorem killThreads_end {t c : Nat} (g : Nat) (ls : List Nat) {s : State} (h : Unheld s t c) :
    Acts s (forEach ls s fun s l => s.killThread t g l) t c ∧ ∀ l, (l ∈ ls ∨ (s.thread t g l).stat = .dead) →
      ((forEach ls s fun s l => s.killThread t g l).thread t g l).stat = .dead := by
  induction ls generalizing s with
  | nil => exact ⟨.refl h, fun l ended => ended.resolve_left List.not_mem_nil⟩
  | cons k ls ih =>
    have first := killThread_acts h g k
    obtain ⟨rest, all⟩ := ih first.unheld
    refine ⟨first.trans rest, fun l ended => all l ?_⟩
    rw [List.mem_cons, or_assoc] at ended
    rcases ended with rfl | later | before
    · exact .inr (killThread_dead h g l)
    · exact .inl later
    · exact .inr (killThread_keeps_dead h g before k)

/-- Every thread of a group that is killed has ended. -/
theorem killGroup_end {s : State} {t c : Nat} (h : Unheld s t c) (g : Nat) : Acts s (s.killGroup t g) t c ∧
    ∀ l, ((s.killGroup t g).thread t g l).stat = .dead ∨ amapFind? (s.group t g).threads l = none := by
  obtain ⟨acts, all⟩ := killThreads_end g (s.group t g).liveLanes h
  refine ⟨acts, fun l => ?_⟩
  cases found : amapFind? (s.group t g).threads l with
  | none => exact .inr rfl
  | some th =>
    refine .inl (all l ?_)
    have here : s.thread t g l = th := by rw [State.thread, amapGet_eq_find, found, Option.getD_some]
    rw [here]
    by_cases dead : th.stat = .dead
    · exact .inr dead
    · exact .inl (List.mem_map.2 ⟨(l, th), List.mem_filter.2 ⟨mem_of_amapFind? _ _ _ found, decide_eq_true dead⟩, rfl⟩)

/-! ### A thread that resumes -/

/-- The length of the word that RESUME.SKIP passes takes at most a free value. -/
theorem skipLen_state (s : State) (t pc : Nat) : ∃ k, (s.skipLen t pc).2 = { s with free := k } := by
  unfold State.skipLen
  split
  · exact ⟨_, rfl⟩
  · split
    · exact ⟨_, rfl⟩
    · exact ⟨_, rfl⟩

theorem thread_updThread {s : State} {t : Nat} (there : (amapFind? s.teams t).isSome) (g l : Nat) (f : Thread → Thread) :
    (s.updThread t g l f).thread t g l = f (s.thread t g l) := by
  simp only [State.thread, State.updThread, State.group_updGroup, there, and_self, if_true]
  exact amapGet_insert_same ..

theorem thread_makeReady {s : State} {t : Nat} (there : (amapFind? s.teams t).isSome) (g l : Nat) : (s.makeReady t g l).thread t g l =
    { s.thread t g l with stat := .ready, sect := (s.thread t g l).sect.resume s.cclk } := by
  simp only [State.thread, State.makeReady, State.group_updGroup, there, and_self, if_true, Group.readySince_threads]
  exact amapGet_insert_same ..

/-- A thread's change that RESUME makes does not change what RESUME.SKIP passes. -/
theorem skipLen_updThread (s : State) (t g l pc : Nat) (f : Thread → Thread) : ((s.updThread t g l f).skipLen t pc).1 = (s.skipLen t pc).1 := by
  have team : ((s.updThread t g l f).team t).launch = (s.team t).launch ∧ ((s.updThread t g l f).team t).core = (s.team t).core := by
    rw [State.updThread, State.updGroup, State.team_updTeam]
    split_ifs <;> exact ⟨rfl, rfl⟩
  have seq : (s.updThread t g l f).seqEnd t pc = s.seqEnd t pc := by
    rw [State.seqEnd, State.seqEnd, team.1]; rfl
  have code : (s.updThread t g l f).icacheAt (s.team t).core (s.team t).launch pc = s.icacheAt (s.team t).core (s.team t).launch pc := rfl
  rw [State.skipLen, State.skipLen, seq, team.1, team.2, code]
  cases s.seqEnd t pc with
  | some n => rfl
  | none => cases s.icacheAt (s.team t).core (s.team t).launch pc <;> rfl

section
variable {s : State} {t c : Nat} (h : Unheld s t c)
include h

theorem Unheld.free (k : Nat) : Acts s { s with free := k } t c := ⟨⟨h.there, h.home, h.empty⟩, rfl, fun _ _ => rfl⟩

/-- A change of a group that keeps each thread's registers. -/
theorem updGroup_acts (g : Nat) {f : Group → Group} (keeps : ∀ gr l, (amapGet {} (f gr).threads l : Thread).regs = (amapGet {} gr.threads l : Thread).regs) :
    Acts s (s.updGroup t g f) t c := by
  refine ⟨h.updGroup g f, rfl, fun g' l => ?_⟩
  simp only [State.thread, State.group_updGroup]
  split_ifs with at_
  · rw [keeps, at_.2.1]
  · rfl

theorem updThread_acts (g l : Nat) {f : Thread → Thread} (keeps : ∀ th, (f th).regs = th.regs) : Acts s (s.updThread t g l f) t c := by
  refine updGroup_acts h g fun gr k => ?_
  by_cases same : k = l
  · rw [same, amapGet_insert_same]; exact keeps _
  · rw [amapGet_insert_other _ _ _ _ _ same]

theorem makeReady_acts (g l : Nat) : Acts s (s.makeReady t g l) t c := by
  unfold State.makeReady
  refine updGroup_acts h g fun gr k => ?_
  rw [Group.readySince_threads]
  by_cases same : k = l
  · rw [same, amapGet_insert_same]; rfl
  · rw [amapGet_insert_other _ _ _ _ _ same]

end

/-- What a resumed thread's record says of it: the cause; RESUME.SKIP passes its word, RESUME marks whether a breakpoint stopped it. -/
def State.resumed (s : State) (e : GbEntry) (skip : Bool) : State :=
  let s := s.updThread e.team e.group e.lane fun th => { th with trapCause := BitVec.ofNat 8 e.cause }
  if e.barrd then s
  else if skip then
    let n := s.skipLen e.team (s.thread e.team e.group e.lane).pc
    n.2.updThread e.team e.group e.lane fun th => { th with pc := (th.pc + n.1) % 2 ^ 64 }
  else s.updThread e.team e.group e.lane fun th => { th with noBreak := e.brk }

/-- The thread of a record is clear of a failed BARRD, unless another record of it tells of one. -/
def State.unpended (s : State) (c : Nat) (e : GbEntry) : State :=
  if (s.otherRecords c e).any (·.barrd) then s else s.updThread e.team e.group e.lane fun th => { th with pend := none }

theorem threadResume_eq (s : State) (c : Nat) (e : GbEntry) (skip : Bool) : s.threadResume c e skip =
    if ((s.unpended c e).thread e.team e.group e.lane).stat ≠ .parked then s.unpended c e else
      if (s.otherRecords c e).isEmpty then ((s.unpended c e).resumed e skip).makeReady e.team e.group e.lane
      else (s.unpended c e).resumed e skip := rfl

section
variable {s : State} {c : Nat} {e : GbEntry} (h : Unheld s e.team c)
include h

theorem unpended_acts : Acts s (s.unpended c e) e.team c := by
  unfold State.unpended
  split_ifs
  · exact .refl h
  · exact updThread_acts h _ _ fun _ => rfl

theorem resumed_acts (skip : Bool) : Acts s (s.resumed e skip) e.team c := by
  have first := updThread_acts h e.group e.lane (f := fun th => { th with trapCause := BitVec.ofNat 8 e.cause }) fun _ => rfl
  unfold State.resumed
  dsimp only
  split_ifs
  · exact first
  · obtain ⟨k, free⟩ := skipLen_state (s.updThread e.team e.group e.lane fun th => { th with trapCause := BitVec.ofNat 8 e.cause }) e.team
      ((s.updThread e.team e.group e.lane fun th => { th with trapCause := BitVec.ofNat 8 e.cause }).thread e.team e.group e.lane).pc
    rw [free]
    exact (first.trans (first.unheld.free k)).trans (updThread_acts (first.unheld.free k).unheld _ _ fun _ => rfl)
  · exact first.trans (updThread_acts first.unheld _ _ fun _ => rfl)

theorem threadResume_acts (skip : Bool) : Acts s (s.threadResume c e skip) e.team c := by
  have first := unpended_acts h
  have second := first.trans (resumed_acts first.unheld skip)
  rw [threadResume_eq]
  split_ifs
  · exact first
  · exact second.trans (makeReady_acts second.unheld ..)
  · exact second

end

/-- The thread of a record that RESUME or RESUME.SKIP has gone through. -/
def Thread.resumedBy (th : Thread) (e : GbEntry) (skip : Bool) (n : Nat) : Thread :=
  { th with
    trapCause := BitVec.ofNat 8 e.cause
    pc := if skip then (th.pc + n) % 2 ^ 64 else th.pc
    noBreak := if skip then th.noBreak else e.brk }

theorem resumed_thread {s : State} {c : Nat} {e : GbEntry} (h : Unheld s e.team c) (whole : e.barrd = false) (skip : Bool) :
    (s.resumed e skip).thread e.team e.group e.lane = (s.thread e.team e.group e.lane).resumedBy e skip
      (s.skipLen e.team (s.thread e.team e.group e.lane).pc).1 := by
  have first := updThread_acts h e.group e.lane (f := fun th => { th with trapCause := BitVec.ofNat 8 e.cause }) fun _ => rfl
  have one := thread_updThread h.there e.group e.lane fun th => { th with trapCause := BitVec.ofNat 8 e.cause }
  unfold State.resumed
  simp only [whole, Bool.false_eq_true, if_false, one]
  cases skip with
  | false =>
    simp only [Bool.false_eq_true, if_false, thread_updThread first.unheld.there, one]
    rfl
  | true =>
    obtain ⟨k, free⟩ := skipLen_state (s.updThread e.team e.group e.lane fun th => { th with trapCause := BitVec.ofNat 8 e.cause }) e.team
      (s.thread e.team e.group e.lane).pc
    have there := (first.unheld.free k).unheld.there
    have two := thread_updThread there e.group e.lane
    simp only [if_true, free, skipLen_updThread, two]
    rw [show ({ s.updThread e.team e.group e.lane fun th => { th with trapCause := BitVec.ofNat 8 e.cause } with free := k } : State).thread
      e.team e.group e.lane = _ from one]
    rfl

theorem threadResume_thread {s : State} {c : Nat} {e : GbEntry} (h : Unheld s e.team c) (whole : e.barrd = false)
    (parked : (s.thread e.team e.group e.lane).stat = .parked) (only : s.otherRecords c e = []) (skip : Bool) :
    ∃ S : State, (s.threadResume c e skip).thread e.team e.group e.lane =
      { ({ s.thread e.team e.group e.lane with pend := none } : Thread).resumedBy e skip
          (s.skipLen e.team (s.thread e.team e.group e.lane).pc).1 with
        stat := .ready, sect := (s.thread e.team e.group e.lane).sect.resume S.cclk } := by
  have unpended : s.unpended c e = s.updThread e.team e.group e.lane fun th => { th with pend := none } := by
    rw [State.unpended, only]; rfl
  have first := unpended_acts h
  have one : (s.unpended c e).thread e.team e.group e.lane = { s.thread e.team e.group e.lane with pend := none } := by
    rw [unpended, thread_updThread h.there]
  have still : ¬ ((s.unpended c e).thread e.team e.group e.lane).stat ≠ .parked := by
    rw [one]; exact not_not.2 parked
  rw [threadResume_eq, if_neg still, only, List.isEmpty_nil, if_pos rfl,
    thread_makeReady (resumed_acts first.unheld skip).unheld.there, resumed_thread first.unheld whole, one, unpended, skipLen_updThread]
  exact ⟨_, rfl⟩

/-! ### The disposal -/

/-- What a disposal does before its entry is free. -/
def State.disposed (s : State) (c : Nat) (e : GbEntry) : Disp → State
  | .resume => s.threadResume c e false
  | .skip => s.threadResume c e true
  | .kill => s.killThread e.team e.group e.lane
  | .killGroup => s.threadKillGroup c e.team e.group

section
variable {s : State} {c : Nat} {e : GbEntry} (h : Unheld s e.team c)
include h

/-- KILLT.G drops the records of its group. -/
theorem threadKillGroup_core (g : Nat) : ((s.threadKillGroup c e.team g).core c).held = [] ∧
    ((s.threadKillGroup c e.team g).core c).book = (s.core c).book.filter fun x => !(x.team == e.team && x.group == g) := by
  obtain ⟨acts, -⟩ := killGroup_end h g
  unfold State.threadKillGroup State.unhold
  rw [State.updCore_same, State.updCore_same, acts.book]
  refine ⟨?_, rfl⟩
  rw [acts.unheld.empty]
  rfl

theorem disposed_empty (d : Disp) : ((s.disposed c e d).core c).held = [] := by
  cases d with
  | resume => exact (threadResume_acts h false).unheld.empty
  | skip => exact (threadResume_acts h true).unheld.empty
  | kill => exact (killThread_acts h ..).unheld.empty
  | killGroup => exact (threadKillGroup_core h e.group).1

theorem disposed_book {d : Disp} (one : d ≠ .killGroup) : ((s.disposed c e d).core c).book = (s.core c).book := by
  cases d with
  | resume => exact (threadResume_acts h false).book
  | skip => exact (threadResume_acts h true).book
  | kill => exact (killThread_acts h ..).book
  | killGroup => exact absurd rfl one

theorem disposed_regs (d : Disp) (g l : Nat) : ((s.disposed c e d).thread e.team g l).regs = (s.thread e.team g l).regs := by
  cases d with
  | resume => exact (threadResume_acts h false).regs g l
  | skip => exact (threadResume_acts h true).regs g l
  | kill => exact (killThread_acts h ..).regs g l
  | killGroup => exact (killGroup_end h e.group).1.regs g l

theorem dispose_eq (small : e.group < 32) (d : Disp) : s.dispose c e d =
    (s.disposed c e d).updCore c fun k => { k with book := k.book.filter (·.seq ≠ e.seq) } := by
  rw [← bookFree_eq (disposed_empty h d)]
  unfold State.dispose
  simp only [small, if_true]
  cases d <;> rfl

end

/-- Settles O27: a trap is a thread that leaves its run, and its record or the thread itself in the book of the core (`takeTrap_eq`); a
disposal is an act on the threads of the record's team, and one entry less (`dispose_eq`). -/
theorem takingATrap : Obligations.TakingATrap := by
  unfold Obligations.TakingATrap
  refine ⟨fun s t g l tr inside guest going there free => ?trap, fun s e small there parked => ?dispose⟩
  case trap =>
    intro c s' first
    have eq : s' = _ := takeTrap_eq s t g l tr inside guest going free first
    clear_value s'
    cases full : s.bookFull c with
    | true =>
      obtain rfl := eq.trans (if_pos full)
      have teams := teams_bookHold (s.stands t g l Thread.hold) c (.thread t g l)
      have threads := SameThreads.thread_eq (.of_teams teams)
      obtain ⟨list, flag, book⟩ := bookHold_core (s.stands t g l Thread.hold) c (.thread t g l)
      refine ⟨⟨(quiet_stands s t g l (f := Thread.hold) fun _ => rfl).trans (quiet_bookHold ..), fun t' g' l' other => ?_, fun r run => ?_⟩, nofun,
        fun _ => ⟨?_, list, flag, book⟩⟩
      · rw [threads, stands_other _ _ _ _ other]
      · rw [group_of_teams teams] at run
        exact stands_leaves s t g l there r run
      · rw [threads, stands_here _ _ _ _ there]; rfl
    | false =>
      obtain rfl := eq.trans (if_neg (ne_true_of_eq_false full))
      have teams := teams_bookPut (s.stands t g l (Thread.park s.cclk)) c (s.trapEntry t g l tr)
      have threads := SameThreads.thread_eq (.of_teams teams)
      refine ⟨⟨(quiet_stands s t g l (f := Thread.park s.cclk) fun _ => rfl).trans (quiet_bookPut ..), fun t' g' l' other => ?_, fun r run => ?_⟩,
        fun _ => ⟨?_, s.trapEntry t g l tr, bookPut_book .., rfl, rfl, rfl, trapEntry_cause s t g l tr⟩, nofun⟩
      · rw [threads, stands_other _ _ _ _ other]
      · rw [group_of_teams teams] at run
        exact stands_leaves s t g l there r run
      · rw [threads, stands_here _ _ _ _ there]; rfl
  case dispose =>
    intro c empty th after book
    have h : Unheld s e.team c := ⟨there, rfl, empty⟩
    have eq := dispose_eq h small
    have thread (d : Disp) : after d = (s.disposed c e d).thread e.team e.group e.lane := by
      show (s.dispose c e d).thread _ _ _ = _
      rw [eq]; rfl
    have books (d : Disp) : book d = ((s.disposed c e d).core c).book.filter (·.seq ≠ e.seq) := by
      show ((s.dispose c e d).core c).book = _
      rw [eq, State.updCore_same]
    refine ⟨fun whole only => ⟨?resume, ?skip⟩, ?kill, fun l => ?group, fun d => ?regs, fun d one => ?one, ?all⟩
    case resume =>
      obtain ⟨S, resumed⟩ := threadResume_thread h whole parked only false
      rw [thread, State.disposed, resumed]
      exact ⟨rfl, rfl, rfl, rfl⟩
    case skip =>
      obtain ⟨S, resumed⟩ := threadResume_thread h whole parked only true
      rw [thread, State.disposed, resumed]
      exact ⟨rfl, rfl, rfl⟩
    case kill => rw [thread]; exact killThread_dead h _ _
    case group =>
      rw [eq]
      exact (killGroup_end h e.group).2 l
    case regs =>
      have regs := disposed_regs h d e.group e.lane
      rw [← thread] at regs
      simpa only [Thread.regs, Prod.mk.injEq] using regs
    case one => rw [books, disposed_book h one]
    case all => rw [books, State.disposed, (threadKillGroup_core h e.group).2]

end Sys2Proof.Machine

namespace Sys2Proof.Machine

/-! ## The host ring (R299 to R301, R405) -/

section
variable {s : State} {v : DWord}

theorem ringDoorbell_ignored (why : s.boot.ready = false ∨ 2 ^ 16 ≤ v.toNat) : exec (.ringDoorbell v) s = .next s := by
  rw [exec_ringDoorbell, execRingDoorbell]
  rcases why with early | large
  · simp only [early, Bool.not_false, if_true]
  · simp only [large, if_true, ite_self]

theorem ringDoorbell_moves (ready : s.boot.ready = true) (small : v.toNat < 2 ^ 16) :
    exec (.ringDoorbell v) s = .next { s with ring := { s.ring with tail := v.toNat } } := by
  rw [exec_ringDoorbell, execRingDoorbell, ready, if_neg (by decide), if_neg small.not_ge]

theorem hrctlWrite_ignored (why : s.boot.ready = false ∨ (s.ring.en = false ∧ 12 ≤ bitField 11 8 v.toNat)) :
    exec (.hrctlWrite v) s = .next s := by
  rw [exec_hrctlWrite, execHrctlWrite]
  rcases why with early | ⟨off, large⟩
  · simp only [early, Bool.not_false, if_true]
  · simp only [off, Bool.false_eq_true, if_false, large, if_true, ite_self]

theorem hrctlWrite_enabled (ready : s.boot.ready = true) (on : s.ring.en = true) : exec (.hrctlWrite v) s = .next
    { if v.getLsbD 0 then s else s.engDrop (· == Who.unit .ring) with ring := { s.ring with en := v.getLsbD 0 } } := by
  simp only [exec_hrctlWrite, execHrctlWrite, ready, on, Bool.not_true, Bool.false_eq_true, if_false, if_true]

theorem hrctlWrite_disabled (ready : s.boot.ready = true) (off : s.ring.en = false) (small : bitField 11 8 v.toNat < 12) :
    exec (.hrctlWrite v) s =
      .next { s with ring := { s.ring with base := v.toNat / 4096, logn := bitField 11 8 v.toNat, en := v.getLsbD 0 } } := by
  simp only [exec_hrctlWrite, execHrctlWrite, ready, off, Bool.not_true, Bool.false_eq_true, if_false, if_neg small.not_ge]

variable {x : Nat} (entry : s.ringEntry = some x)
include entry

theorem ringUnknownOp_skips (bad : reBad x = true) : exec .ringUnknownOp s = .next (s.ringPass.logEvent 6 0 [x]) := by
  simp only [exec_ringUnknownOp, execRingUnknownOp, entry, bad, if_true]

variable (sound : reBad x = false)
include sound

/-- A sound entry of an operation is passed and carried out. -/
theorem ringStep_eq {op : Nat} (is : reOp x = op) (f : State → Nat → Out) : ringStep op s f = f s.ringPass x := by
  simp only [ringStep, entry, is, sound, ne_eq, not_true_eq_false, decide_false, Bool.false_or, Bool.false_eq_true, if_false]

/-- LAUNCH, in a queue that has room: it waits for its record, then enqueues it. -/
theorem ringLaunch_eq (is : reOp x = 1) (room : (s.queue (reQid x)).items.length < 64) : exec .ringLaunch s = .next
    (match s.recordAt (reRecord x) with
      | (none, S) => S
      | (some r, S) => (S.ringPass.enqueue (reQid x) r (reRecord x) (reCaddr x) (reIrq x) false).2) := by
  have go : (decide (reOp x ≠ 1) || reBad x || decide (64 ≤ (s.queue (reQid x)).items.length)) = false := by
    simp [is, sound, room]
  rw [exec_ringLaunch, execRingLaunch, entry]
  dsimp only
  rw [go]
  rcases s.recordAt (reRecord x) with ⟨_ | r, S⟩ <;> rfl

end

/-- Settles O48: each register write and each step of the ring by the state of the ring and the entry at its head. -/
theorem ringEvents : Obligations.RingEvents := by
  unfold Obligations.RingEvents
  refine ⟨fun s v => ringDoorbell_ignored, fun s v => ringDoorbell_moves, fun s v => hrctlWrite_ignored, fun s v => hrctlWrite_enabled,
    fun s v => hrctlWrite_disabled, fun s x => ringUnknownOp_skips, fun s x entry sound =>
      ⟨fun is => ?_, fun S is room => ⟨fun r read => ?_, fun read => ?_⟩, fun is => ?_, fun is => ?_⟩⟩
  · rw [exec_ringNop, execRingNop, ringStep_eq entry sound is]
  · rw [ringLaunch_eq entry sound is room, read]
  · rw [ringLaunch_eq entry sound is room, read]
  · rw [exec_ringTlbi, execRingTlbi, ringStep_eq entry sound is]
  · rw [exec_ringCancel, execRingCancel, ringStep_eq entry sound is]

end Sys2Proof.Machine

namespace Sys2Proof.Machine

/-! ## Mesh and fragment words (R313, R314, R327, R328) -/

section
variable {s : State} {o : Ops} {u : Uses} {i : Iss} (h : Issues s o u i) {k : Kind} (body : Iss → State → State)
include h

theorem kindIssue_own (own : (s.team i.t).kind = k) : kindIssue k o u body s = .next (body i s.reading) := by
  rw [kindIssue, issue_eq h false _ nofun, if_pos (show (s.reading.team i.t).kind = k from own)]

theorem kindIssue_foreign (foreign : (s.team i.t).kind ≠ k) :
    kindIssue k o u body s = .next (i.finish (s.reading.takeTraps i.t i.g i.parts { cause := .illegalOperand }) [] false none) := by
  rw [kindIssue, issue_eq h false _ nofun, if_neg (show (s.reading.team i.t).kind ≠ k from foreign)]

end

/-- Words of a vertex of a mesh team's draw. -/
abbrev State.meshWords (s : State) (t : Nat) : Nat := 4 + rsAttrs (s.rsOf t)

/-- The words of MSVTX are words of a vertex. -/
theorem msvtx_legal {s : State} {o : Ops} {i : Iss} {l n : Nat} (aligned : (src32 s.reading i l o.c).toNat % n = 0)
    (inside : (src32 s.reading i l o.c).toNat + n ≤ s.meshWords i.t) : (decide ((src32 s.reading i l o.c).toNat % n ≠ 0) ||
    decide (4 + rsAttrs (s.reading.rsOf i.t) < (src32 s.reading i l o.c).toNat + n)) = false := by
  rw [Bool.or_eq_false_iff, decide_eq_false_iff_not, decide_eq_false_iff_not]
  exact ⟨not_not.2 aligned, Nat.not_lt.2 inside⟩

/-- The draw's overflow of one participant: a trap under MOVF = 1, else a count. -/
def State.overflowLane (s : State) (i : Iss) (l : Nat) : State :=
  if rsField (s.rsOf i.t) 0x18 41 41 = 1 then s.takeTrap i.t i.g l { cause := .meshOverflow } else s.meshOver (s.team i.t).launch

section
variable {s : State} {o : Ops} {u : Uses} {i : Iss} {l : Nat}

/-- The lanes of a mesh word of one participant. -/
theorem meshLanes_one (parts : i.parts = [l]) (f : State → Nat → Option Trap × State) : meshLanes i f s =
    i.finish (match f s l with
      | (some tr, S) => S.takeTrap i.t i.g l tr
      | (none, S) => S) [] false none := by
  rw [meshLanes, parts]
  rfl

theorem meshLanes_overflow (parts : i.parts = [l]) {f : State → Nat → Option Trap × State} (beyond : f s l = s.overflowed i.t) :
    meshLanes i f s = i.finish (s.overflowLane i l) [] false none := by
  rw [meshLanes_one parts, beyond, State.overflowed, State.overflowLane]
  split_ifs <;> rfl

variable {n : Nat} (h : Issues s o { src := [(o.a, n), (o.b, 1), (o.c, 1)] } i) (mesh : (s.team i.t).kind = .mesh) (parts : i.parts = [l])
include h mesh parts

theorem msvtx_illegal (bad : (src32 s.reading i l o.c).toNat % n ≠ 0 ∨ s.meshWords i.t < (src32 s.reading i l o.c).toNat + n) :
    msvtxIssue n o s = .next (i.finish (s.reading.takeTrap i.t i.g l { cause := .illegalOperand }) [] false none) := by
  rw [msvtxIssue, kindIssue_own h _ mesh, meshLanes_one parts]
  have bad' : (decide ((src32 s.reading i l o.c).toNat % n ≠ 0) ||
      decide (4 + rsAttrs (s.reading.rsOf i.t) < (src32 s.reading i l o.c).toNat + n)) = true := by
    rw [Bool.or_eq_true, decide_eq_true_iff, decide_eq_true_iff]; exact bad
  simp only [bad', if_true]

variable (aligned : (src32 s.reading i l o.c).toNat % n = 0) (inside : (src32 s.reading i l o.c).toNat + n ≤ s.meshWords i.t)
include aligned inside

theorem msvtx_overflows (beyond : rsMaxV (s.rsOf i.t) ≤ (src32 s.reading i l o.b).toNat) :
    msvtxIssue n o s = .next (i.finish (s.reading.overflowLane i l) [] false none) := by
  rw [msvtxIssue, kindIssue_own h _ mesh, meshLanes_overflow parts]
  simp only [msvtx_legal aligned inside, Bool.false_eq_true, if_false]
  exact if_pos beyond

theorem msvtx_writes (room : (src32 s.reading i l o.b).toNat < rsMaxV (s.rsOf i.t)) : msvtxIssue n o s =
    .next (i.finish (s.reading.updMesh i.t fun m => { m with
      verts := (numbered (36 * (src32 s.reading i l o.b).toNat + (src32 s.reading i l o.c).toNat)
        (if n = 1 then [src32 s.reading i l o.a] else src128 s.reading i l o.a)).foldl (fun m x => amapInsert m x.1 x.2) m.verts }) [] false none) := by
  have room' : ¬ rsMaxV (s.reading.rsOf i.t) ≤ (src32 s.reading i l o.b).toNat := room.not_ge
  rw [msvtxIssue, kindIssue_own h _ mesh, meshLanes_one parts]
  simp only [msvtx_legal aligned inside, Bool.false_eq_true, if_false, if_neg room']

end

section
variable {s : State} {o : Ops} {i : Iss} {l : Nat} (h : Issues s o { src := [(o.a, 1), (o.b, 1)] } i) (mesh : (s.team i.t).kind = .mesh)
include h mesh

theorem msprim_writes (parts : i.parts = [l]) (room : (src32 s.reading i l o.b).toNat < rsMaxP (s.rsOf i.t)) :
    exec (.msprim o) s = .next (i.finish (s.reading.updMesh i.t fun m =>
      { m with prims := amapInsert m.prims (src32 s.reading i l o.b).toNat ((src32 s.reading i l o.a).setWidth 25) }) [] false none) := by
  have room' : ¬ rsMaxP (s.reading.rsOf i.t) ≤ (src32 s.reading i l o.b).toNat := room.not_ge
  rw [exec_msprim, execMsprim, kindIssue_own h _ mesh, meshLanes_one parts]
  simp only [if_neg room']

theorem msprim_overflows (parts : i.parts = [l]) (beyond : rsMaxP (s.rsOf i.t) ≤ (src32 s.reading i l o.b).toNat) :
    exec (.msprim o) s = .next (i.finish (s.reading.overflowLane i l) [] false none) := by
  rw [exec_msprim, execMsprim, kindIssue_own h _ mesh, meshLanes_overflow parts]
  exact if_pos beyond

variable {ls : List Nat} (parts : i.parts = l :: ls)
include parts

theorem mscount_writes (verts : (src32 s.reading i l o.a).toNat ≤ rsMaxV (s.rsOf i.t)) (prims : (src32 s.reading i l o.b).toNat ≤ rsMaxP (s.rsOf i.t)) :
    exec (.mscount o) s = .next (i.finish (s.reading.updMesh i.t fun m => { m with
      counts := amapInsert m.counts i.g ((src32 s.reading i l o.a).toNat, (src32 s.reading i l o.b).toNat) }) [] false none) := by
  have within : (decide (rsMaxV (s.reading.rsOf i.t) < (src32 s.reading i l o.a).toNat) ||
      decide (rsMaxP (s.reading.rsOf i.t) < (src32 s.reading i l o.b).toNat)) = false := by
    rw [Bool.or_eq_false_iff, decide_eq_false_iff_not, decide_eq_false_iff_not]
    exact ⟨Nat.not_lt.2 verts, Nat.not_lt.2 prims⟩
  have v : min (src32 s.reading i l o.a).toNat (rsMaxV (s.reading.rsOf i.t)) = (src32 s.reading i l o.a).toNat := min_eq_left verts
  have p : min (src32 s.reading i l o.b).toNat (rsMaxP (s.reading.rsOf i.t)) = (src32 s.reading i l o.b).toNat := min_eq_left prims
  rw [exec_mscount, execMscount, kindIssue_own h _ mesh]
  simp only [parts, within, Bool.false_eq_true, if_false, v, p]

theorem mscount_overflows (beyond : rsMaxV (s.rsOf i.t) < (src32 s.reading i l o.a).toNat ∨ rsMaxP (s.rsOf i.t) < (src32 s.reading i l o.b).toNat) :
    exec (.mscount o) s = .next (if rsField (s.rsOf i.t) 0x18 41 41 = 1 then i.faultAll s.reading { cause := .meshOverflow } false else
      i.finish ((s.reading.meshOver (s.team i.t).launch).updMesh i.t fun m => { m with
        counts := amapInsert m.counts i.g (min (src32 s.reading i l o.a).toNat (rsMaxV (s.rsOf i.t)),
          min (src32 s.reading i l o.b).toNat (rsMaxP (s.rsOf i.t))) }) [] false none) := by
  have exceeds : (decide (rsMaxV (s.rsOf i.t) < (src32 s.reading i l o.a).toNat) ||
      decide (rsMaxP (s.rsOf i.t) < (src32 s.reading i l o.b).toNat)) = true := by
    rw [Bool.or_eq_true, decide_eq_true_iff, decide_eq_true_iff]; exact beyond
  have kind : s.reading.rsOf i.t = s.rsOf i.t := rfl
  rw [exec_mscount, execMscount, kindIssue_own h _ mesh]
  simp only [parts, exceeds, if_true, State.overflowed, kind]
  by_cases movf : rsField (s.rsOf i.t) 0x18 41 41 = 1
  · simp only [if_pos movf]
  · simp only [if_neg movf]
    rfl

end

theorem fragexp_eq {s : State} {o : Ops} {i : Iss} (h : Issues s o { src := [(o.a, 4)] } i) (fragment : (s.team i.t).kind = .fragment)
    {k : BitVec 8} (target : o.b = .imm k) : exec (.fragexp o) s = .next (i.finish (if k.toNat < rsNcol (s.rsOf i.t) then
      forEach i.parts s.reading fun s l => s.updExport i.t l fun e => { e with colour := amapInsert e.colour k.toNat (src128 s i l o.a) }
      else s.reading.takeTraps i.t i.g i.parts { cause := .illegalOperand }) [] false none) := by
  have rs : s.reading.rsOf i.t = s.rsOf i.t := rfl
  rw [exec_fragexp, execFragexp, kindIssue_own h _ fragment]
  simp only [target, rs]
  by_cases room : k.toNat < rsNcol (s.rsOf i.t)
  · simp only [if_pos room, if_neg room.not_ge]
  · simp only [if_neg room, if_pos (Nat.not_lt.1 room)]

theorem fragexpZ_eq {s : State} {o : Ops} {i : Iss} (h : Issues s o { src := [(o.a, 1)] } i) (fragment : (s.team i.t).kind = .fragment) :
    exec (.fragexpZ o) s = .next (i.finish (if rsField (s.rsOf i.t) 0x18 46 46 = 0
      then s.reading.takeTraps i.t i.g i.parts { cause := .illegalOperand }
      else forEach i.parts s.reading fun s l => s.updExport i.t l fun e => { e with z := some (src32 s i l o.a) }) [] false none) := by
  have rs : s.reading.rsOf i.t = s.rsOf i.t := rfl
  rw [exec_fragexpZ, execFragexpZ, kindIssue_own h _ fragment, rs]
  split_ifs <;> rfl

theorem rocbeg_waits {s : State} {o : Ops} {i : Iss} (h : Issues s o {} i) (fragment : (s.team i.t).kind = .fragment)
    (outside : ∀ l ∈ i.parts, (s.thread i.t i.g l).sect.isOpen = false) : exec (.rocbeg o) s = .next (i.finishWait s.reading i.parts .roc) := by
  have none_ : (i.parts.filter fun l => (s.reading.thread i.t i.g l).sect.isOpen) = [] :=
    List.filter_eq_nil_iff.2 fun l hl => ne_true_of_eq_false (outside l hl)
  have all : (i.parts.filter fun l => !([] : List Nat).contains l) = i.parts := List.filter_eq_self.2 fun _ _ => rfl
  rw [exec_rocbeg, execRocbeg, kindIssue_own h _ fragment]
  simp only [none_, all]
  rfl

/-- Settles O31: each word of its own kind of group by what its lanes do, and of another kind by the trap. -/
theorem graphicsWords : Obligations.GraphicsWords := by
  unfold Obligations.GraphicsWords
  refine ⟨fun o s i l h mesh parts inside room => ?_, fun o s i l h mesh parts aligned inside room => ?_,
    fun o s i l h mesh parts => msprim_writes h mesh parts, fun o s i l ls h mesh parts => mscount_writes h mesh parts,
    fun o s i l mesh parts => ?_, fun o s i l ls h mesh parts => mscount_overflows h mesh parts, fun o s i foreign => ?_,
    fun o s i k h fragment target => fragexp_eq h fragment target, fun o s i h fragment => fragexpZ_eq h fragment,
    fun o s i h fragment => ⟨?_, rocbeg_waits h fragment, ?_⟩⟩
  · rw [exec_msvtx, execMsvtx, msvtx_writes h mesh parts (Nat.mod_one _) inside room]; rfl
  · rw [exec_msvtxB128, execMsvtxB128, msvtx_writes h mesh parts aligned inside room]; rfl
  · intro v w illegal overflow
    refine ⟨fun h => ⟨fun bad => ?_, fun inside beyond => ?_⟩, fun h => ⟨fun bad => ?_, fun aligned inside beyond => ?_⟩, fun h beyond => ?_⟩
    · exact msvtx_illegal h mesh parts (.inr (Nat.lt_succ_of_le bad))
    · exact msvtx_overflows h mesh parts (Nat.mod_one _) inside beyond
    · exact msvtx_illegal h mesh parts bad
    · exact msvtx_overflows h mesh parts aligned inside beyond
    · exact msprim_overflows h mesh parts beyond
  · refine ⟨fun h => ?_, fun h => ?_, fun h => ⟨?_, ?_⟩⟩
    · rw [exec_msvtx, execMsvtx, msvtxIssue, kindIssue_foreign h _ foreign]
    · rw [exec_msvtxB128, execMsvtxB128, msvtxIssue, kindIssue_foreign h _ foreign]
    · rw [exec_msprim, execMsprim, kindIssue_foreign h _ foreign]
    · rw [exec_mscount, execMscount, kindIssue_foreign h _ foreign]
  · rw [exec_fragkill, execFragkill, kindIssue_own h _ fragment]
  · rw [exec_rocend, execRocend, kindIssue_own h _ fragment]

end Sys2Proof.Machine

namespace Sys2Proof.Machine

/-! ## INTERP and DERIV (R325, R326) -/

/-- What a lane of INTERP leaves. -/
def interpLane (o : Ops) (mode : InterpMode) (cen : Bool) (s : State) (i : Iss) (l : Nat) : LaneRes :=
  match s.laneFlight i.t l with
  | none => { trap := some { cause := .illegalOperand } }
  | some f => match interpSlot (s.rsOf i.t) f.quad (l % 4) mode cen (src32 s i l o.a).toNat with
    | none => { trap := some { cause := .illegalOperand } }
    | some x => res32 o.d (BitVec.ofNat 32 x)

section
variable {s : State} {o : Ops} {i : Iss} (h : Issues s o { src := [(o.a, 1)], vd := [(o.d.toNat, 1)] } i) (some_ : i.parts ≠ [])
include h some_

theorem interp_queues {mode : InterpMode} {cen : Bool} {f : Nat → Flight} {x : Nat → Nat} (slots : ∀ l ∈ i.parts, s.laneFlight i.t l = some (f l) ∧
      interpSlot (s.rsOf i.t) (f l).quad (l % 4) mode cen (src32 s.reading i l o.a).toNat = some (x l)) :
    ∃ s', exec (.interp o mode cen) s = .next s' ∧
      Still s (s.reading.addPend ⟨i.t, i.g, true, false, i.parts.map fun l => (l, o.d.toNat, BitVec.ofNat 32 (x l)), []⟩) s' i := by
  let lane := interpLane o mode cen
  have value (l : Nat) (hl : l ∈ i.parts) : lane s.reading i l = res32 o.d (BitVec.ofNat 32 (x l)) := by
    obtain ⟨flight, slot⟩ := slots l hl
    simp only [lane, interpLane, show s.reading.laneFlight i.t l = some (f l) from flight, show s.reading.rsOf i.t = s.rsOf i.t from rfl, slot]
  obtain ⟨s', run, wrote, -⟩ := mediumIssue_wrote h lane (fun l hl => by rw [value l hl]; rfl) (fun l hl => .inl (by rw [value l hl]; exact nofun)) some_
  have regs : laneRegs i.parts (lane s.reading i) = i.parts.map fun l => (l, o.d.toNat, BitVec.ofNat 32 (x l)) := by
    rw [laneRegs, List.map_eq_flatMap]
    exact List.flatMap_congr fun l hl => by rw [value l hl]; rfl
  have preds : lanePreds i.parts (lane s.reading i) = [] :=
    List.flatMap_eq_nil_iff.2 fun l hl => by rw [value l hl]; rfl
  rw [regs, preds] at wrote
  refine ⟨s', by rw [exec_interp, execInterp]; exact run, wrote.congr fun l hl => by rw [value l hl]; rfl⟩

end

/-- The results of lanes that do not trap are queued, and their other effects take place. -/
def queueLanes (i : Iss) (s : State) (r : Nat → LaneRes) : State :=
  i.finish ((i.writeLanes s (i.parts.map fun l => (l, { r l with regs := [], preds := [] }))).addPend
    ⟨i.t, i.g, true, false, laneRegs i.parts r, lanePreds i.parts r⟩) [] false none

section
variable {i : Iss} {r : Nat → LaneRes} (some_ : i.parts ≠ []) (clean : ∀ l ∈ i.parts, (r l).trap = none) (regs : ∀ l ∈ i.parts, (r l).regs ≠ [])

include clean in
theorem untrapped_all : ((i.parts.map fun l => (l, r l)).filter fun x => x.2.trap.isNone) = i.parts.map fun l => (l, r l) :=
  List.filter_eq_self.2 fun x hx => by
    obtain ⟨l, hl, rfl⟩ := List.mem_map.1 hx
    rw [clean l hl]; rfl

include some_ clean regs

theorem mediumIssue_queues {s : State} {o : Ops} {u : Uses} (h : Issues s o u i) {f : State → Iss → Nat → LaneRes} (is : f s.reading i = r) :
    mediumIssue o u f s = .next (queueLanes i s.reading r) := by
  have busy : (i.parts.map fun l => (l, r l)).all (fun x => x.2.regs.isEmpty && x.2.preds.isEmpty) = false := by
    obtain ⟨l, hl⟩ := List.exists_mem_of_ne_nil _ some_
    refine List.all_eq_false.2 ⟨(l, r l), List.mem_map_of_mem hl, ?_⟩
    simp [regs l hl]
  rw [mediumIssue, issue_eq h false _ nofun, is]
  dsimp only
  rw [untrapped_all clean, busy]
  simp only [Bool.false_eq_true, if_false, List.map_map, List.flatMap_map]
  rfl

theorem medium_queues (s : State) (preds : ∀ l ∈ i.parts, (r l).preds = []) :
    i.medium (i.writeLanes s ((i.parts.map fun l => (l, r l)).map fun x => (x.1, { x.2 with regs := [] })))
      (((i.parts.map fun l => (l, r l)).filter fun x => x.2.trap.isNone).flatMap fun x => x.2.regs.map fun y => (x.1, y.1, y.2)) [] =
      queueLanes i s r := by
  have busy : (laneRegs i.parts r).isEmpty = false := by
    obtain ⟨l, hl⟩ := List.exists_mem_of_ne_nil _ some_
    rw [List.isEmpty_eq_false_iff, laneRegs, ne_eq, List.flatMap_eq_nil_iff]
    exact fun none_ => regs l hl (List.map_eq_nil_iff.1 (none_ l hl))
  have bare : lanePreds i.parts r = [] := List.flatMap_eq_nil_iff.2 fun l hl => by rw [preds l hl]; rfl
  have rest : (i.parts.map fun l => (l, { r l with regs := [] })) = i.parts.map fun l => (l, { r l with regs := [], preds := [] }) :=
    List.map_congr_left fun l hl => by rw [← preds l hl]
  rw [untrapped_all clean, List.map_map, List.flatMap_map]
  change i.medium (i.writeLanes s (i.parts.map fun l => (l, { r l with regs := [] }))) (laneRegs i.parts r) [] = _
  rw [rest, Iss.medium, busy, queueLanes, bare]
  rfl

end

section
variable {s : State} {o : Ops} {i : Iss} (h : Issues s o { src := [(o.a, 1)], vd := [(o.d.toNat, 1)] } i) (some_ : i.parts ≠ [])
include h some_

theorem deriv_queues {y fine : Bool} (there : i.allThere s (i.parts.flatMap fun l => (List.range 4).map fun k => 4 * (l / 4) + k).eraseDups) :
    let q (l : Nat) := quadDiff (s.thread i.t i.g l).fpm (fun k => i.parts.contains k) (fun k => src32 s.reading i k o.a) y fine l
    (∀ l ∈ i.parts, fpTrap (fpmTraps (s.thread i.t i.g l).fpm) (q l).2 = none) →
    ∃ s', derivIssue y o fine s = .next s' ∧
      Wrote s (s.reading.addPend ⟨i.t, i.g, true, false, i.parts.map fun l => (l, o.d.toNat, (q l).1), []⟩) s' i
        fun l => { fpm := some (fpmRaise (s.thread i.t i.g l).fpm (q l).2) } := by
  intro q clean
  let f : State → Iss → Nat → Word → List Word × FFlags := fun s i l fpm =>
    let r := quadDiff fpm (fun k => i.parts.contains k) (fun k => src32 s i k o.a) y fine l
    ([r.1], r.2)
  let lane (s : State) (i : Iss) (l : Nat) := fpLane o.d (s.thread i.t i.g l).fpm (f s i l (s.thread i.t i.g l).fpm)
  have value (l : Nat) (hl : l ∈ i.parts) : lane s.reading i l = _ := fpLane_some o.d (s.thread i.t i.g l).fpm ([(q l).1], (q l).2) (clean l hl)
  have trap (l : Nat) (hl : l ∈ i.parts) : (lane s.reading i l).trap = none := congrArg LaneRes.trap (value l hl)
  have regs (l : Nat) (hl : l ∈ i.parts) : (lane s.reading i l).regs ≠ [] := by rw [value l hl]; exact nofun
  have preds (l : Nat) (hl : l ∈ i.parts) : (lane s.reading i l).preds = [] := congrArg LaneRes.preds (value l hl)
  obtain ⟨s', run, wrote, -⟩ := fpMedium_wrote h f some_ (fun l hl => nofun) clean
  have queued := mediumIssue_queues some_ trap regs h (f := lane) rfl
  refine ⟨s', ?_, ?_⟩
  · rw [derivIssue, issue_eq h false _ nofun, exchange_performs there, medium_queues some_ trap regs s.reading preds, ← queued]
    exact run
  · rw [List.map_eq_flatMap]
    exact wrote

end

/-- Settles O32: INTERP's lanes are those of a word of medium latency, and DERIV's those of a floating-point one. -/
theorem quadWords : Obligations.QuadWords := by
  unfold Obligations.QuadWords
  refine ⟨fun o mode cen s i f x h some_ slots => interp_queues h some_ slots, fun o fine y s i h some_ there => ?_⟩
  intro q clean
  obtain ⟨s', run, wrote⟩ := deriv_queues h some_ there clean
  refine ⟨s', ?_, wrote⟩
  cases y
  · rw [if_neg Bool.false_ne_true, exec_derivX, execDerivX]; exact run
  · rw [if_pos rfl, exec_derivY, execDerivY]; exact run

end Sys2Proof.Machine

namespace Sys2Proof.Machine

/-! ## Texture words (R329, R330) -/

section
variable {s : State}

/-- To make a line that L1 has found the most recently used changes nothing that is found. -/
theorem l1Find_l1Put_found {c sp vl : Nat} {L : L1Line} (found : (s.core c).l1Find sp vl = some L) (sp' vl' : Nat) :
    ((s.l1Put c L).core c).l1Find sp' vl' = (s.core c).l1Find sp' vl' := by
  have tag : L.space = sp ∧ L.vline = vl := by simpa [L1Line.is] using List.find?_some found
  obtain ⟨rfl, rfl⟩ := tag
  rw [State.l1Put, State.updCore_same, Core.l1Find, List.find?_cons]
  by_cases own : L.is sp' vl' = true
  · obtain ⟨rfl, rfl⟩ : L.space = sp' ∧ L.vline = vl' := by simpa [L1Line.is] using own
    simp only [own, found]
  · rw [Bool.not_eq_true] at own
    simp only [own, List.find?_filter, Core.l1Find]
    congr 1
    funext x
    by_cases other : x.is sp' vl' = true
    · obtain ⟨rfl, rfl⟩ : x.space = sp' ∧ x.vline = vl' := by simpa [L1Line.is] using other
      have differs : x.is L.space L.vline = false := by
        rw [← Bool.not_eq_true]
        intro same
        obtain ⟨hs, hv⟩ : x.space = L.space ∧ x.vline = L.vline := by simpa [L1Line.is] using same
        rw [L1Line.is, hs, hv] at own
        simp at own
      simp [differs, other]
    · simp [other]

/-- A load whose bytes L1 holds, valid and clean of poison, is performed there. -/
theorem startAcc_hit {la : Nat} {a : Access} {ext : Bool} {L : L1Line} (load : a.op = .load ext)
    (found : (s.core a.core).l1Find a.space (a.va / 128) = some L) (still : s.flipping (128 * L.pline) = false)
    (valid : a.bytes &&& ~~~ L.bv = 0 ∧ a.bytes &&& L.fd = 0) (clean : L.poison.getLsbD (a.va % 128 / 64) = false) (untracked : L.cls ≠ .tracked) :
    s.startAcc la a = (.done (lineRead L.data (a.va % 128) a.n), s.l1Put a.core L) := by
  have ahead : s.walkBehind none a = false := by simp [State.walkBehind, load, AOp.writes, AOp.isAtom]
  have hit : s.tryL1 none a = some (.done (lineRead L.data (a.va % 128) a.n), s.l1Put a.core L) := by
    simp only [State.tryL1, found, still, load, valid, decide_true, Bool.and_self, Bool.false_eq_true, if_false, if_true, State.l1LoadHit, clean,
      if_neg untracked]
  rw [State.startAcc, State.startAt, ahead, hit]
  simp only [Bool.false_eq_true, if_false]

end

/-- A change of the entry of one number of a numbered list. -/
theorem numbered_change {α : Type} (f : α → α) (as : List α) (x : α) (bs : List α) (j : Nat) :
    ((numbered j (as ++ x :: bs)).map fun y => if y.1 = j + as.length then f y.2 else y.2) = as ++ f x :: bs := by
  have above (n : Nat) : ∀ (bs : List α) (j : Nat), n < j → ((numbered j bs).map fun y => if y.1 = n then f y.2 else y.2) = bs := by
    intro bs
    induction bs with
    | nil => exact fun _ _ => rfl
    | cons b bs ih => exact fun j h => by simp only [numbered, List.map_cons, if_neg h.ne', ih (j + 1) (h.trans (Nat.lt_succ_self j))]
  induction as generalizing j with
  | nil => simp only [List.nil_append, numbered, List.map_cons, List.length_nil, Nat.add_zero, if_true, above j bs (j + 1) (Nat.lt_succ_self j)]
  | cons a as ih =>
    have at_ : j + (a :: as).length = j + 1 + as.length := by rw [List.length_cons]; omega
    simp only [List.cons_append, numbered, List.map_cons, at_, if_neg (show j ≠ j + 1 + as.length by omega), ih]

/-- Keep a gathered result under its identifier. -/
def State.putTex (s : State) (id : Nat) (op : TexOp) : State := { s with texs := amapInsert s.texs id op }

/-- A texel of a result is put where it is the next that is missing. -/
theorem texPut_next {s : State} {id v w : Nat} {op : TexOp} {as bs : List (Nat × Option Nat)} {x : Option Nat} (found : amapFind? s.texs id = some op)
    (texels : op.texels = as ++ (w, x) :: bs) :
    s.texPut id as.length v = s.putTex id { op with texels := as ++ (w, some v) :: bs } := by
  have change := numbered_change (fun y : Nat × Option Nat => (y.1, some v)) as (w, x) bs 0
  rw [Nat.zero_add] at change
  simp only [State.texPut, State.putTex, found, texels, change]

/-- One texel of a lane: its checks, its read, and its place in the result `id`. -/
def texelRead (bpp : Nat) (i : Iss) (l pc id : Nat) (acc : LaneMem × State) (x : Nat × Nat × Nat) : LaneMem × State :=
  match acc.1.stat with
  | .trap _ | .breach _ => acc
  | _ =>
    let s := acc.2
    let va := x.2.2
    match s.ptrCheck i.t i.g va bpp [0] none true with
    | some tr => (⟨l, .trap tr, none⟩, s.texDrop id)
    | none =>
      let a := s.threadAcc i.t i.g l pc i.o.len.bytes (.load false) va bpp 0 (.tex id x.1)
      match s.startAcc (s.team i.t).launch a with
      | (.done v, s) => ({ acc.1 with acc := if acc.1.acc.isSome || (s.watchHit a.space va a.n true false).isNone then acc.1.acc else some a },
                         (s.texPut id x.1 v))
      | (.pend, s) => ({ acc.1 with stat := .pend }, s)
      | (.trap tr, s) => (⟨l, .trap tr, none⟩, s.texDrop id)
      | (.breach lv, s) => (⟨l, .breach lv, some a⟩, s.texDrop id)

/-- The state of a gathered result of a lane: as the state `B` in which the gathering began, but for the order of the lines of L1. -/
structure Gathering (B S : State) (c id : Nat) (op : TexOp) : Prop where
  frame : ∃ cores texs, S = { B with cores := cores, texs := texs }
  lines : ∀ space vline, (S.core c).l1Find space vline = (B.core c).l1Find space vline
  found : amapFind? S.texs id = some op

section
variable {B S : State} {i : Iss} {l bpp pc id : Nat} {op : TexOp} {v : Nat → Nat}

/-- What `TexelHit` asks of the state before an issue, asked of the state of the gathering. -/
structure TexelHeld (B : State) (i : Iss) (n va v : Nat) : Prop where
  ptr   : B.ptrCheck i.t i.g va n [0] none true = none
  watch : B.watchHit (B.spaceOf i.t) va n true false = none
  line  : ∃ L, (B.core (B.team i.t).core).l1Find (B.spaceOf i.t) (va / 128) = some L ∧ L.cls ≠ .tracked ∧
    B.flipping (128 * L.pline) = false ∧ byteMask (va % 128) n &&& ~~~ L.bv = 0 ∧ byteMask (va % 128) n &&& L.fd = 0 ∧
    L.poison.getLsbD (va % 128 / 64) = false ∧ lineRead L.data (va % 128) n = v

theorem TexelHit.held {s : State} {n va x : Nat} (hit : TexelHit s i n va x) (free uid : Nat) (pends : AMap Pend) (texs : AMap TexOp) :
    TexelHeld { s.reading with free := free, uid := uid, pends := pends, texs := texs } i n va x :=
  ⟨hit.ptr, hit.watch, hit.line⟩

theorem TexelHeld.gathering {n va x : Nat} (hit : TexelHeld B i n va x) (g : Gathering B S (B.team i.t).core id op) : TexelHeld S i n va x := by
  obtain ⟨⟨cores, texs, rfl⟩, lines, -⟩ := g
  obtain ⟨L, line, rest⟩ := hit.line
  exact ⟨hit.ptr, hit.watch, L, (lines ..).trans line, rest⟩

/-- A texel that L1 holds arrives at once. -/
theorem texelRead_hit {va x w : Nat} {as bs : List (Nat × Option Nat)} {y : Option Nat} (g : Gathering B S (B.team i.t).core id op)
    (hit : TexelHeld B i bpp va x) (texels : op.texels = as ++ (w, y) :: bs) :
    ∃ S', texelRead bpp i l pc id (⟨l, .done 0, none⟩, S) (as.length, w, va) = (⟨l, .done 0, none⟩, S') ∧
      Gathering B S' (B.team i.t).core id { op with texels := as ++ (w, some x) :: bs } := by
  have held := hit.gathering g
  obtain ⟨L, line, untracked, still, valid, unfilled, clean, value⟩ := held.line
  have start := startAcc_hit (s := S) (la := (S.team i.t).launch) (a := S.threadAcc i.t i.g l pc i.o.len.bytes (.load false) va bpp 0 (.tex id as.length))
    rfl line still ⟨valid, unfilled⟩ clean untracked
  have put := texPut_next (s := S.l1Put (S.team i.t).core L) (v := x) g.found texels
  have unwatched : (S.watchHit (S.spaceOf i.t) va bpp true false).isNone = true := by rw [held.watch]; rfl
  refine ⟨(S.l1Put (S.team i.t).core L).putTex id { op with texels := as ++ (w, some x) :: bs }, ?_, ?_, ?_, amapFind?_insert_same ..⟩
  · simp only [texelRead, held.ptr, start]
    refine congrArg₂ Prod.mk (congrArg (LaneMem.mk l (.done 0)) (if_pos ?_)) ?_
    · exact unwatched
    · exact (congrArg _ value).trans put
  · obtain ⟨cores, texs, rfl⟩ := g.frame
    exact ⟨_, _, rfl⟩
  · have team : (B.team i.t).core = (S.team i.t).core := by obtain ⟨cores, texs, rfl⟩ := g.frame; rfl
    intro space vline
    rw [← g.lines, team]
    exact l1Find_l1Put_found line space vline

/-- All the texels of a lane that L1 holds arrive. -/
theorem texelReads_hit {reads : List (Nat × Nat)} (hits : ∀ r ∈ reads, TexelHeld B i bpp r.2 (v r.2)) :
    ∀ (as : List (Nat × Option Nat)) (S : State) (op : TexOp), Gathering B S (B.team i.t).core id op →
      op.texels = as ++ reads.map (fun r => (r.1, none)) →
      ∃ S', (numbered as.length reads).foldl (texelRead bpp i l pc id) (⟨l, .done 0, none⟩, S) = (⟨l, .done 0, none⟩, S') ∧
        Gathering B S' (B.team i.t).core id { op with texels := as ++ reads.map fun r => (r.1, some (v r.2)) } := by
  induction reads with
  | nil => exact fun as S op g texels => ⟨S, rfl, by rw [List.map_nil] at texels ⊢; rw [← texels]; exact g⟩
  | cons r reads ih =>
    intro as S op g texels
    obtain ⟨S₁, step, g₁⟩ := texelRead_hit (l := l) (pc := pc) g (hits r (.head _)) texels
    obtain ⟨S', steps, g'⟩ := ih (fun r hr => hits r (.tail _ hr)) (as ++ [(r.1, some (v r.2))]) S₁ _ g₁ (by simp)
    refine ⟨S', ?_, by simpa using g'⟩
    rw [List.length_append, List.length_singleton] at steps
    rw [numbered, List.foldl_cons, step, steps]

end

/-- The texels of a plan, and the border's weight. -/
def TexPlan.reads (p : TexPlan) : List (Nat × Nat) := p.texels.filterMap fun x => x.2.map fun a => (x.1, a)
def TexPlan.border (p : TexPlan) : Nat := p.texels.foldl (fun n x => if x.2.isNone then n + x.1 else n) 0

/-- The result of a lane as its gathering begins. -/
def texOpen (d : TexDesc) (p : TexPlan) (pend pc : Nat) : TexOp :=
  { pend := pend, pc := pc, fmt := d.fmt, raw := p.raw, bcode := d.border, den := p.den, border := p.border, texels := p.reads.map fun x => (x.1, none) }
/-- The four words that a lane's result fills. -/
def texPend (i : Iss) (l : Nat) : Pend :=
  ⟨i.t, i.g, false, false, (numbered i.o.d.toNat (List.replicate 4 (0 : Word))).map fun x => (l, x.1, x.2), []⟩

/-- The state as the gathering of a lane begins. -/
def State.texBegin (s : State) (d : TexDesc) (p : TexPlan) (i : Iss) (l : Nat) : State :=
  { s with
    uid := s.uid + 2, pends := amapInsert s.pends s.uid (texPend i l)
    texs := amapInsert s.texs (s.uid + 1) (texOpen d p s.uid (s.thread i.t i.g l).pc) }

/-- A lane whose texels have all arrived settles its result. -/
theorem texLane_read {d : TexDesc} {p : TexPlan} {i : Iss} {s S : State} {l : Nat}
    (reads : (numbered 0 p.reads).foldl (texelRead d.bpp i l (s.thread i.t i.g l).pc (s.uid + 1)) (⟨l, .done 0, none⟩, s.texBegin d p i l) =
      (⟨l, .done 0, none⟩, S)) : texLane d p i s l = (⟨l, .done 0, none⟩, (S.texSettle (s.uid + 1)).2) := by
  have run : texLane d p i s l =
      let r := (numbered 0 p.reads).foldl (texelRead d.bpp i l (s.thread i.t i.g l).pc (s.uid + 1)) (⟨l, .done 0, none⟩, s.texBegin d p i l)
      match r.1.stat with
      | .pend => (⟨l, .pend, none⟩, match r.1.acc with
        | some a => r.2.texWatch (s.uid + 1) a
        | none => r.2)
      | .done _ => (r.1, (r.2.texSettle (s.uid + 1)).2)
      | _ => r := rfl
  rw [run, reads]

/-- The results of a texture whose texels have all been read are on their way. -/
theorem texSettle_whole {s : State} {id : Nat} {op : TexOp} {p : Pend} (found : amapFind? s.texs id = some op)
    (read : ∀ y ∈ op.texels, y.2 ≠ none) (pend : amapFind? s.pends op.pend = some p) :
    .ins (.loadResultLand op.pend) ∈ (s.texSettle id).2.later ∧ amapFind? (s.texSettle id).2.pends op.pend =
      some { p with regs := (p.regs.zip op.result).map fun y => (y.1.1, y.1.2.1, y.2) } := by
  have whole : (op.texels.any fun y => y.2.isNone) = false :=
    List.any_eq_false.2 fun y hy => by rw [Option.isNone_iff_eq_none]; exact read y hy
  simp only [State.texSettle, found, whole, pend, Bool.false_eq_true, if_false]
  exact ⟨List.mem_append_right _ (.head _), amapFind?_insert_same ..⟩

/-- A lane whose texels L1 holds is performed, and its filtered result is on its way. -/
theorem texLane_hit {s : State} {i : Iss} {l : Nat} {d : TexDesc} {p : TexPlan} {v : Nat → Nat} {free : Nat}
    (hits : ∀ q ∈ p.texels, ∀ a, q.2 = some a → TexelHit s i d.bpp a (v a)) :
    let op : TexOp := ⟨s.uid, (s.thread i.t i.g l).pc, d.fmt, p.raw, d.border, p.den, p.border, p.texels.filterMap fun x => x.2.map fun a => (x.1, some (v a)), none⟩
    ∃ T, texLane d p i { s.reading with free := free } l = (⟨l, .done 0, none⟩, T) ∧ .ins (.loadResultLand s.uid) ∈ T.later ∧
      amapFind? T.pends s.uid = some ⟨i.t, i.g, false, false,
        ((numbered i.o.d.toNat (List.replicate 4 (0 : Word))).zip op.result).map fun y => (l, y.1.1, y.2), []⟩ := by
  intro op
  let B : State := ({ s.reading with free := free } : State).texBegin d p i l
  have held (r : Nat × Nat) (hr : r ∈ p.reads) : TexelHeld B i d.bpp r.2 (v r.2) := by
    obtain ⟨q, hq, e⟩ := List.mem_filterMap.1 hr
    obtain ⟨a, ha, rfl⟩ := Option.map_eq_some_iff.1 e
    exact (hits q hq a ha).held ..
  have start : Gathering B B (B.team i.t).core (s.uid + 1) (texOpen d p s.uid (s.thread i.t i.g l).pc) :=
    ⟨⟨_, _, rfl⟩, fun _ _ => rfl, amapFind?_insert_same ..⟩
  obtain ⟨S, reads, g⟩ := texelReads_hit (l := l) (pc := (s.thread i.t i.g l).pc) held [] B _ start rfl
  have texels : (p.reads.map fun r => (r.1, some (v r.2))) = op.texels := by
    simp only [op, TexPlan.reads, List.map_filterMap, Option.map_map]
    rfl
  have gathered : amapFind? S.texs (s.uid + 1) = some op := by
    rw [g.found, List.nil_append, texels]
    rfl
  have pend : amapFind? S.pends op.pend = some (texPend i l) := by
    obtain ⟨cores, texs, rfl⟩ := g.frame
    exact amapFind?_insert_same ..
  have read (y : Nat × Option Nat) (hy : y ∈ op.texels) : y.2 ≠ none := by
    rw [← texels] at hy
    obtain ⟨r, -, rfl⟩ := List.mem_map.1 hy
    exact nofun
  obtain ⟨due, filled⟩ := texSettle_whole gathered read pend
  refine ⟨(S.texSettle (s.uid + 1)).2, ?_, due, ?_⟩
  · exact texLane_read reads
  · rw [filled, texPend, List.zip_map_left, List.map_map]
    rfl

section
variable {x : Instr} {o : Ops} {n : Nat} {raw : Bool} {plan : State → Iss → TexDesc → Nat → TexPlan} (form : TexForm x o n raw plan) {s : State} {i : Iss}
include form

theorem TexForm.exec_eq (s : State) : exec x s = texIssue o n raw plan s := by
  cases form <;> rfl

variable (h : Issues s o { src := [(o.a, s.texWords o), (o.b, 8)] ++ (if n = 0 then [] else [(o.c, n)]), vd := [(o.d.toNat, 4)] } i) (some_ : i.parts ≠ [])
include h some_

theorem tex_illegal (bad : (s.descOf i.t i.g o.b).bad = true ∨ ((s.descOf i.t i.g o.b).fmt = 8 ∧ raw = false)) :
    exec x s = .next (i.finish (s.reading.takeTraps i.t i.g i.parts { cause := .illegalOperand }) [] false none) := by
  have illegal : ((s.descOf i.t i.g o.b).bad || (decide ((s.descOf i.t i.g o.b).fmt = 8) && !raw)) = true := by
    rcases bad with bad | ⟨fmt, notRaw⟩
    · rw [bad, Bool.true_or]
    · rw [notRaw, decide_eq_true fmt, Bool.not_false, Bool.and_true, Bool.or_true]
  have desc : s.reading.descOf i.t i.g o.b = s.descOf i.t i.g o.b := rfl
  rw [form.exec_eq, texIssue, issue_eq h false _ nofun]
  simp only [List.isEmpty_eq_false_iff.2 some_, desc, illegal, Bool.false_eq_true, if_false, if_true]
  rfl

variable (good : (s.descOf i.t i.g o.b).bad = false) (fmt : (s.descOf i.t i.g o.b).fmt = 8 → raw = true)
include good fmt

/-- A word with a sound descriptor: the trap of its base, or its lanes. -/
theorem tex_sound : exec x s = .next (if (s.descOf i.t i.g o.b).base % 128 ≠ 0
    then i.finish (s.reading.takeTraps i.t i.g i.parts { cause := .misaligned, addr := (s.descOf i.t i.g o.b).base }) [] false none
    else
      let r := memLanes i (fun b l => texLane (s.descOf i.t i.g o.b) (plan s.reading i (s.descOf i.t i.g o.b) l) i b l) i.parts
        { s.reading with free := s.reading.free + 256 }
      memFinish i r.2 r.1 [] []) := by
  have legal : ((s.descOf i.t i.g o.b).bad || (decide ((s.descOf i.t i.g o.b).fmt = 8) && !raw)) = false := by
    rw [good, Bool.false_or]
    by_cases h8 : (s.descOf i.t i.g o.b).fmt = 8
    · rw [fmt h8, Bool.not_true, Bool.and_false]
    · rw [decide_eq_false h8, Bool.false_and]
  have desc : s.reading.descOf i.t i.g o.b = s.descOf i.t i.g o.b := rfl
  rw [form.exec_eq, texIssue, issue_eq h false _ nofun]
  simp only [List.isEmpty_eq_false_iff.2 some_, desc, legal, Bool.false_eq_true, if_false]
  split_ifs <;> rfl

theorem tex_hit {l : Nat} (parts : i.parts = [l]) (aligned : (s.descOf i.t i.g o.b).base % 128 = 0) {v : Nat → Nat}
    (hits : ∀ q ∈ (plan s.reading i (s.descOf i.t i.g o.b) l).texels, ∀ a, q.2 = some a → TexelHit s i (s.descOf i.t i.g o.b).bpp a (v a)) :
    let d := s.descOf i.t i.g o.b
    let p := plan s.reading i d l
    let op : TexOp := ⟨s.uid, (s.thread i.t i.g l).pc, d.fmt, p.raw, d.border, p.den, p.border, p.texels.filterMap fun x => x.2.map fun a => (x.1, some (v a)), none⟩
    ∃ T, exec x s = .next (i.finish T [] false none) ∧ .ins (.loadResultLand s.uid) ∈ T.later ∧
      amapFind? T.pends s.uid = some ⟨i.t, i.g, false, false,
        ((numbered o.d.toNat (List.replicate 4 (0 : Word))).zip op.result).map fun y => (l, y.1.1, y.2), []⟩ := by
  obtain ⟨T, lane, due, filled⟩ := texLane_hit (free := s.reading.free + 256) hits
  have lanes := memLanes_single (i := i) (f := fun b l => texLane (s.descOf i.t i.g o.b) (plan s.reading i (s.descOf i.t i.g o.b) l) i b l) lane
  refine ⟨T, ?_, due, by rw [filled, h.ops]⟩
  rw [tex_sound form h some_ good fmt, if_neg (not_not.2 aligned), parts, lanes]
  simp only [memFinish, takeLaneTraps, watchLanes, watchStop]
  simp [forEach]

end

/-- TEXQ of a sound descriptor queues the dimensions of each participant's level. -/
theorem texq_queues {s : State} {o : Ops} {i : Iss} (h : Issues s o { src := [(o.a, 1), (o.b, 8)], vd := [(o.d.toNat, 4)] } i) (some_ : i.parts ≠ [])
    (good : (s.descOf i.t i.g o.b).bad = false) :
    let d := s.descOf i.t i.g o.b
    exec (.texq o) s = .next (i.finish (s.reading.addPend ⟨i.t, i.g, false, false, i.parts.flatMap fun l =>
      let k := (src32 s.reading i l o.a).toNat
      (numbered o.d.toNat ((if d.levels ≤ k then [0, 0, 0, 0] else [d.lw k, d.lh k, d.ld k, d.levels]).map (BitVec.ofNat 32))).map
        fun x => (l, x.1, x.2), []⟩) [] false none) := by
  have desc : s.reading.descOf i.t i.g o.b = s.descOf i.t i.g o.b := rfl
  rw [exec_texq, execTexq, issue_eq h false _ nofun]
  simp only [desc, good, List.isEmpty_eq_false_iff.2 some_, Bool.false_eq_true, if_false]

/-- Settles O33: the checks of the descriptor, then the lanes; one lane's texels arrive one after another. -/
theorem textureWords : Obligations.TextureWords := by
  unfold Obligations.TextureWords
  refine ⟨fun x o n raw plan form s i h some_ => ⟨tex_illegal form h some_, fun good fmt misaligned => ?_, fun good fmt aligned => ?_⟩,
    fun o s i h some_ good => ⟨_, texq_queues h some_ good, (still_finish h (s.reading.addPend _) rfl false none).1⟩,
    fun x o n raw plan form s i l v h parts _ good fmt aligned hits => tex_hit form h (by simp [parts]) good fmt parts aligned hits⟩
  · rw [tex_sound form h some_ good fmt, if_pos misaligned]
  · rw [tex_sound form h some_ good fmt, if_neg (not_not.2 aligned)]

end Sys2Proof.Machine

namespace Sys2Proof.Machine

/-! ## Copy words (R276, R289, R290) -/

section
variable {s : State} {o : Ops} {i : Iss} {l : Nat} {ls : List Nat} (h : Issues s o { src := [(o.a, 1), (o.b, 1)] } i) (parts : i.parts = l :: ls)
  (gather add : Bool) (ch : BitVec 3) (n : BitVec 6)
include h parts

/-- A gather or scatter without the copy role traps on every participant. -/
theorem cpRows_roleless (role : (s.group i.t i.g).roleC = false) :
    cpRows o ch n gather add s = .next (i.finish (s.reading.takeTraps i.t i.g i.parts { cause := .apertureRole }) [] false none) := by
  have role' : (s.reading.group i.t i.g).roleC = false := role
  rw [cpRows, issue_eq h false _ nofun]
  simp only [parts, role', Bool.not_false, if_true]

variable (role : (s.group i.t i.g).roleC = true)
include role

theorem cpRows_full (full : s.copyRoom (s.team i.t).core ch.toNat = false) : cpRows o ch n gather add s = .next { s.reading with turn := .later } := by
  have role' : (s.reading.group i.t i.g).roleC = true := role
  have full' : s.reading.copyRoom (s.reading.team i.t).core ch.toNat = false := full
  rw [cpRows, issue_eq h false _ nofun]
  simp only [parts, role', full', Bool.not_true, Bool.not_false, Bool.false_eq_true, if_false, if_true]

variable (room : s.copyRoom (s.team i.t).core ch.toNat = true) {S : State}
include room

theorem cpRows_waits (template : s.reading.template i.t n.toNat = (none, S)) : cpRows o ch n gather add s = .next { S with turn := .later } := by
  have role' : (s.reading.group i.t i.g).roleC = true := role
  have room' : s.reading.copyRoom (s.reading.team i.t).core ch.toNat = true := room
  rw [cpRows, issue_eq h false _ nofun]
  simp only [parts, role', room', Bool.not_true, Bool.false_eq_true, if_false, template]

theorem cpRows_unread {tr : Trap} (template : s.reading.template i.t n.toNat = (some (.inr tr), S)) : cpRows o ch n gather add s =
    .next (i.finish ((S.templatesDone i.t [n.toNat]).takeTraps i.t i.g i.parts tr) [] false none) := by
  have role' : (s.reading.group i.t i.g).roleC = true := role
  have room' : s.reading.copyRoom (s.reading.team i.t).core ch.toNat = true := room
  rw [cpRows, issue_eq h false _ nofun]
  simp only [parts, role', room', Bool.not_true, Bool.false_eq_true, if_false, template]

variable {y : BitVec 512} (template : s.reading.template i.t n.toNat = (some (.inl y), S))
include template

theorem cpRows_unfit (unfit : (tmplBad y || tmplKind y ≠ (if add then 2 else 0) || tmplDim y 1 ≠ 1 || tmplDim y 2 ≠ 1 || !tmplBen y) = true) :
    cpRows o ch n gather add s = .next (i.finish (S.takeTraps i.t i.g i.parts { cause := .illegalOperand }) [] false none) := by
  have role' : (s.reading.group i.t i.g).roleC = true := role
  have room' : s.reading.copyRoom (s.reading.team i.t).core ch.toNat = true := room
  rw [cpRows, issue_eq h false _ nofun]
  simp only [parts, role', room', Bool.not_true, Bool.false_eq_true, if_false, template, unfit, if_true]

/-- The copy of a gather or scatter of the lowest participant `l`, with these rows. -/
def rowsCopy (s S : State) (i : Iss) (o : Ops) (l : Nat) (ch : BitVec 3) (y : BitVec 512) (gather : Bool) (rows : List (Nat × Int)) : Copy :=
  { team := i.t, gix := i.g, lane := l, pc := s.pcOffset i.t (s.thread i.t i.g l).pc, ch := ch.toNat, tmpl := y,
    iter := (BitVec.ofNat 26 (src32 S i l o.b).toNat).toInt, gather := gather, scatter := !gather, rows := rows }

variable (fit : (tmplBad y || tmplKind y ≠ (if add then 2 else 0) || tmplDim y 1 ≠ 1 || tmplDim y 2 ≠ 1 || !tmplBen y) = false)
include fit

/-- The rows that check are copied; the others trap. -/
theorem cpRows_issues : let mk := rowsCopy s S i o l ch y gather
    let rows := i.parts.map fun l => (l, (src32 S i l o.a).toInt)
    let good := rows.filter fun r => (S.copyCheck (mk [r])).isNone
    let T := forEach (rows.filterMap fun r => (S.copyCheck (mk [r])).map fun tr => (r.1, tr)) S fun s b => s.takeTrap i.t i.g b.1 b.2
    cpRows o ch n gather add s = .next (i.finish (if good.isEmpty then T else T.copyIssue (mk good)) [] false none) := by
  have role' : (s.reading.group i.t i.g).roleC = true := role
  have room' : s.reading.copyRoom (s.reading.team i.t).core ch.toNat = true := room
  rw [cpRows, issue_eq h false _ nofun]
  simp only [parts, role', room', Bool.not_true, Bool.false_eq_true, if_false, template, fit]
  rfl

theorem cpRows_sound (sound : ∀ r ∈ i.parts.map fun l => (l, (src32 S i l o.a).toInt), S.copyCheck (rowsCopy s S i o l ch y gather [r]) = none) :
    cpRows o ch n gather add s = .next (i.finish
      (S.copyIssue (rowsCopy s S i o l ch y gather (i.parts.map fun l => (l, (src32 S i l o.a).toInt)))) [] false none) := by
  have all : ((i.parts.map fun l => (l, (src32 S i l o.a).toInt)).filter fun r => (S.copyCheck (rowsCopy s S i o l ch y gather [r])).isNone) =
      i.parts.map fun l => (l, (src32 S i l o.a).toInt) := List.filter_eq_self.2 fun r hr => by rw [sound r hr]; rfl
  have untrapped : ((i.parts.map fun l => (l, (src32 S i l o.a).toInt)).filterMap fun r =>
      (S.copyCheck (rowsCopy s S i o l ch y gather [r])).map fun tr => (r.1, tr)) = [] := List.filterMap_eq_nil_iff.2 fun r hr => by rw [sound r hr]; rfl
  have busy : (i.parts.map fun l => (l, (src32 S i l o.a).toInt)).isEmpty = false := by rw [parts]; rfl
  rw [cpRows_issues h parts gather add ch n role room template fit]
  rw [all, untrapped, busy]
  rfl

end

section
variable {s : State} {o : Ops} {u : Uses} {i : Iss} {l : Nat} {ls : List Nat} (h : Issues s o u i) (parts : i.parts = l :: ls)
  {limit : Nat} {waiting : Bool} {get : State → Iss → Nat → Nat} {body : Iss → Nat → Nat → State → State}
include h parts

theorem cpOnce_illegal (large : limit ≤ get s.reading i l) : cpOnce o u limit waiting get body s =
    .next (i.finish (s.reading.takeTraps i.t i.g i.parts { cause := .illegalOperand }) [] waiting none) := by
  rw [cpOnce, issue_eq h false _ nofun]
  simp only [parts, if_pos large]

theorem cpOnce_acts (small : get s.reading i l < limit) : cpOnce o u limit waiting get body s = .next (body i l (get s.reading i l) s.reading) := by
  rw [cpOnce, issue_eq h false _ nofun]
  simp only [parts, if_neg small.not_ge]

end

theorem teams_cpAcquire (s : State) (t b : Nat) (m : DWord) : (s.cpAcquire t b m).teams = s.teams := by
  rw [State.cpAcquire]
  split_ifs
  · rfl
  · exact congrArg (fun x => x.2.1) (standing_regionEnd (s := s) (s.team t).core false)

/-- Lanes' results written after a change that no team sees. -/
theorem writeLanes_wrote {s b : State} {o : Ops} {u : Uses} {i : Iss} (h : Issues s o u i) (teams : b.teams = s.teams) {r : Nat → LaneRes}
    (clean : ∀ l ∈ i.parts, (r l).trap = none) : let s' := i.finish (i.writeLanes b (i.parts.map fun l => (l, r l))) [] false none
    Wrote s b s' i r ∧ Latched s' i none := by
  have there : (amapFind? b.teams i.t).isSome := by rw [teams]; exact there_reading h
  have team (t : Nat) : b.team t = s.team t := by rw [State.team, State.team, teams]
  obtain ⟨kept, uncalled, regs, preds, modes, scal⟩ := kept_writeLanes r clean there team h.run
  exact wrote_finish kept uncalled regs preds modes scal _ _

theorem cptest_writes {s : State} {o : Ops} {p : Bool} {x : MemX} {i : Iss} {l : Nat} {ls : List Nat} (parts : i.parts = l :: ls)
    (h : Issues s o { cpUses o p with pw := [o.d.toNat] } i) (small : (cpMask s.reading i l p).1 < 16) :
    let k := (cpMask s.reading i l p).1
    let m := (cpMask s.reading i l p).2
    ∃ s', exec (.cptest o p x) s = .next s' ∧
      (Wrote s (if s.bitsSet i.t k m then s.reading.cpAcquire i.t k m else s.reading) s' i fun _ => resP o.d (s.bitsSet i.t k m)) ∧ Latched s' i none := by
  intro k m
  refine ⟨_, ?_, writeLanes_wrote h ?_ fun _ _ => rfl⟩
  · rw [exec_cptest, execCptest, cpOnce_acts h parts small]
    rfl
  · split_ifs
    · exact teams_cpAcquire ..
    · rfl

/-- Settles O34: the rows by the role, the room and the template, and the completion words by their bitmap or channel. -/
theorem copyWords : Obligations.CopyWords := by
  unfold Obligations.CopyWords
  refine ⟨fun gather add o ch n x s i l ls kinds h parts => ?_, fun o p x s i l ls parts => ?_, fun o x s i l ls h parts => ?_⟩
  · intro run
    have eq : run = cpRows o ch n gather add s := by
      cases gather
      · cases add
        · exact exec_cpscatter
        · exact exec_cpscatterAdd
      · rw [kinds rfl]
        exact exec_cpgather
    clear_value run
    subst eq
    refine ⟨cpRows_roleless h parts gather add ch n, cpRows_full h parts gather add ch n, fun role room Y S template => ⟨?_, ?_, ?_⟩⟩
    · rintro rfl
      exact cpRows_waits h parts gather add ch n role room template
    · rintro tr rfl
      exact cpRows_unread h parts gather add ch n role room template
    · rintro y rfl unfit mk rows good T
      exact ⟨cpRows_unfit h parts gather add ch n role room template, cpRows_issues h parts gather add ch n role room template,
        cpRows_sound h parts gather add ch n role room template⟩
  · intro k m
    refine ⟨fun h large => ⟨?_, ?_⟩, fun h small => ⟨?_, ?_⟩, fun h large => ?_, fun h small => cptest_writes parts h small⟩
    · rw [exec_cpwait, execCpwait, cpOnce_illegal h parts large]
    · rw [exec_cpclr, execCpclr, cpOnce_illegal h parts large]
    · rw [exec_cpwait, execCpwait, cpOnce_acts h parts small]; rfl
    · rw [exec_cpclr, execCpclr, cpOnce_acts h parts small]
    · rw [exec_cptest, execCptest, cpOnce_illegal h parts large]
  · intro k n
    refine ⟨fun large => ?_, fun small => ?_⟩
    · rw [exec_cpsrcw, execCpsrcw, cpOnce_illegal h parts large]
    · rw [exec_cpsrcw, execCpsrcw, cpOnce_acts h parts small]; rfl

end Sys2Proof.Machine

namespace Sys2Proof.Machine

/-! ## The sequencer's fetch (R248) -/

section
variable {s : State} {t pc : Nat} (fetches : s.streamFetches t = true) (at_ : s.fetchPc t 32 = some pc)
include fetches at_

theorem sequencerFetch_absent (absent : s.icacheAt (s.team t).core (s.team t).launch pc = none) :
    exec (.sequencerFetch t) s = .next (s.due (.ins (.fetchBlockFill t 32))) := by
  rw [exec_sequencerFetch, execSequencerFetch, fetches, at_]
  simp only [Bool.not_true, Bool.false_eq_true, if_false, absent]

variable {b : BitVec 256} (block : s.icacheAt (s.team t).core (s.team t).launch pc = some b)
include block

theorem sequencerFetch_faults {c : Cause} (bad : streamDecode (blockFrom b pc % 2 ^ 128) = .inr c) :
    exec (.sequencerFetch t) s = .next (s.streamFetchFault t { cause := c }) := by
  rw [exec_sequencerFetch, execSequencerFetch, fetches, at_]
  simp only [Bool.not_true, Bool.false_eq_true, if_false, block, bad]

theorem sequencerFetch_performs {x : Instr} {S : State} (good : streamDecode (blockFrom b pc % 2 ^ 128) = .inl x)
    (run : streamExec x { s with turn := .stream t } = .next S) : exec (.sequencerFetch t) s = .next (S.trialIssue t 32 pc) := by
  rw [exec_sequencerFetch, execSequencerFetch, fetches, at_]
  simp only [Bool.not_true, Bool.false_eq_true, if_false, block, good, run]

end

/-! ## Accesses of a command (R250, R256, R257) -/

/-- The parts of an element that a command has still to move, and the value of the parts that it has moved. -/
def State.cmdLeft (s : State) (t seq p n : Nat) : List (Nat × Nat × Nat) := (mParts p n).filter fun q => (amapFind? (s.cmdGot t seq) q.1).isNone
def State.cmdValue (s : State) (t seq p n : Nat) : Nat := (mParts p n).foldl (fun v q => v + amapGet 0 (s.cmdGot t seq) q.1 * 2 ^ (8 * q.2.2)) 0

section
variable {s : State} {t seq p n : Nat}

theorem cmdLeft_whole (whole : ∀ q ∈ mParts p n, (amapFind? (s.cmdGot t seq) q.1).isSome) : s.cmdLeft t seq p n = [] :=
  List.filter_eq_nil_iff.2 fun q hq => by rw [Option.isNone_iff_eq_none]; exact Option.ne_none_iff_isSome.2 (whole q hq)

/-- An element whose parts have all been moved. -/
theorem mMove_whole (none_ : s.cmdLeft t seq p n = []) (tags : List Nat) (op : AOp) (need : Need) (x : Nat) :
    s.mMove t seq p n tags op need x = (.val (s.cmdValue t seq p n), s) := by
  rw [State.cmdLeft] at none_
  simp only [State.mMove, none_, List.isEmpty_nil, if_true, State.cmdValue]

/-- Without an access of its own in flight an engine's work makes a new one. -/
theorem engFind_idle {who : Who} {write : Bool} (idle : (s.accs.any fun kv => kv.2.who = who) = false) : s.engFind who p write = none := by
  rw [State.engFind, Option.map_eq_none_iff, List.find?_eq_none]
  intro kv hkv
  have other : ¬ kv.2.who = who := by simpa using List.any_eq_false.1 idle kv hkv
  simp [other]

/-- An access of a command to its team's scratchpad, of a sound word. -/
theorem eAccess_scratch {r : EReq} (idle : (s.accs.any fun kv => kv.2.who = r.who) = false) (tag : ptrTag r.p = 2) :
    s.eAccess r = s.engNow r (.scr r.team (r.p % 2 ^ 19)) := by
  rw [State.eAccess, engFind_idle idle]
  simp only [State.eResolve, tag]

variable {q : Nat × Nat × Nat} (idle : s.cmdFlying t seq = false) (tag : ptrTag q.1 = 2)
include idle tag

theorem mOne_load (need : Need) (x : Nat) (sound : (s.scrRead t (q.1 % 2 ^ 19) q.2.1).2 = false) :
    s.mOne t seq q.1 q.2.1 (.load false) need x = (.wait, s.cmdGets t seq q.1 (s.scrRead t (q.1 % 2 ^ 19) q.2.1).1) := by
  have access := eAccess_scratch (s := s) (r := ⟨.stream t seq, t, q.1, q.2.1, .mtlb, need, some (t, seq), .load false, x, false⟩) idle tag
  simp only [State.mOne, access, State.engNow, AOp.reads, AOp.isAtom, Bool.false_or, if_true, State.mEarly, State.eRead, AOp.update, sound,
    Bool.false_and, Bool.false_eq_true, if_false]

theorem mOne_store (need : Need) (x : Nat) :
    s.mOne t seq q.1 q.2.1 .store need x = (.wait, (s.scrWrite t (q.1 % 2 ^ 19) q.2.1 x).cmdGets t seq q.1 0) := by
  have access := eAccess_scratch (s := s) (r := ⟨.stream t seq, t, q.1, q.2.1, .mtlb, need, some (t, seq), .store, x, false⟩) idle tag
  simp only [State.mOne, access, State.engNow, AOp.reads, AOp.isAtom, Bool.false_or, Bool.false_eq_true, if_false, AOp.update, State.engPut,
    State.eWrite, Bool.false_and]

end

section
variable {s : State} {t seq p n : Nat} {q : Nat × Nat × Nat} {tags : List Nat} {op : AOp}

/-- The next part of an element moves, in a state that has chosen it. -/
theorem mMove_next (part : s.mPart t seq op.writes (s.cmdLeft t seq p n) = some q) (idle : s.cmdFlying t seq = false)
    (ptr : ({ s with free := s.free + 1 } : State).ptrCheck t 0 p n tags none true = none) (need : Need) (x : Nat) :
    s.mMove t seq p n tags op need x = ({ s with free := s.free + 1 } : State).mOne t seq q.1 q.2.1 op need (x / 2 ^ (8 * q.2.2) % 2 ^ (8 * q.2.1)) := by
  have some_ : (s.cmdLeft t seq p n).isEmpty = false := by
    cases left : s.cmdLeft t seq p n with
    | nil => simp [left, State.mPart, idle] at part
    | cons _ _ => rfl
  have idle' : ({ s with free := s.free + 1 } : State).cmdFlying t seq = false := idle
  rw [State.cmdLeft] at some_ part
  simp only [State.mMove, some_, part, idle', ptr, Bool.false_eq_true, if_false]

/-- After a part of its element a command is due again. -/
theorem cmdSettle_gets (S : State) (c : Cmd) (p x : Nat) (T : State) :
    T.cmdSettle t c (CmdRes.ofErr .wait (S.cmdGets t c.seq p x)) = (S.cmdGets t c.seq p x).cmdDue t c := by
  have idle : (S.cmdGets t c.seq p x).engBusy (.stream t c.seq) = false := by
    rw [State.engBusy, List.any_eq_false]
    intro kv hkv
    have kept : kv ∈ amapFilter (fun _ a => !(a.who == Who.stream t c.seq)) S.accs := hkv
    simp only [amapFilter, List.mem_filter, Bool.not_eq_true', beq_eq_false_iff_ne] at kept
    simp [kept.2]
  simp only [CmdRes.ofErr, State.cmdSettle, idle, Bool.false_eq_true, if_false]

end

/-! ## The engine serves a command (R250, R251) -/

/-- The stream whose command is served. -/
def Stream.begun (st : Stream) (c : Cmd) : Stream := if c.started then st else (st.holdTile c).start c
/-- The state in which a command is served. -/
def State.serving (s : State) (t : Nat) (st : Stream) (c : Cmd) : State :=
  (s.updStream t fun _ => st.begun c).updCore (s.team t).core fun k => { k with mLast := s.contextOf t }

/-- What a command does when it is served. -/
def State.cmdRun (s : State) (t : Nat) (st : Stream) (c : Cmd) : Out :=
  match c.instr with
  | .mld o => .next (s.mldRun t c o false false)
  | .mldV o f => .next (s.mldRun t c o true f)
  | .mst o a b x f => .next (s.mstRun t st c o a.toNat b.toNat x f false)
  | .mstV o a b x f => .next (s.mstRun t st c o a.toNat b.toNat x f true)
  | .mclr o i => .next (s.mclrRun t c o i)
  | .mbar o => .next (s.mbarRun t c o)
  | .mnop _ => .next (s.cmdRetire t c.seq)
  | i => match mulOf i with
    | some q => .next (s.cmdSettle t c (s.mulRun t st c q))
    | none => .fault .notEnabled

section
variable {s : State} {t : Nat} {st : Stream} {c : Cmd} (stream : (s.team t).stream = some st) (found : st.cmd? c.seq = some c)
  (sound : c.faulted = false) (may : c.started = true ∨ (st.startable c = true ∧ s.streamHeld t = false))

include sound may in
theorem cmdReady_of : s.cmdReady t st c = true := by
  rw [State.cmdReady, sound]
  rcases may with started | ⟨startable, free⟩
  · simp [started]
  · simp [startable, free]

include stream found sound may

theorem commandRetire_serves (turn : s.engineTurn t = true) : exec (.commandRetire t c.seq) s = (s.serving t st c).cmdRun t (st.begun c) c := by
  rw [exec_commandRetire, execCommandRetire, stream]
  simp only [found, cmdReady_of sound may, turn, Bool.not_true, Bool.or_self, Bool.false_eq_true, if_false]
  rfl

theorem mbwRetire_retires {b par : Nat} (waits : mbwOf c.instr = some (b, par)) (over_ : (s.bar t b).phase.toNat % 2 ≠ par % 2) :
    exec (.mbwRetire t c.seq) s = .next ((s.barLate t (.num b)).cmdRetire t c.seq) := by
  rw [exec_mbwRetire, execMbwRetire, stream]
  simp only [found, waits, cmdReady_of sound may, over_, ne_eq, not_false_eq_true, decide_true, Bool.or_true, Bool.not_true, Bool.or_self,
    Bool.false_eq_true, if_false]

end

end Sys2Proof.Machine

namespace Sys2Proof.Machine

/-! ## Commands that work element by element (R250, R261, R270) -/

theorem length_grid (m n : Nat) : (grid m n).length = m * n := by simp [grid]

theorem grid_eq_nil {m n : Nat} (none_ : m = 0 ∨ n = 0) : grid m n = [] := by
  rcases none_ with rfl | rfl <;> simp [grid]

section
variable {s : State} {t : Nat} {c : Cmd} {cells : List (Nat × Nat)} {f : Nat → Nat → ElemRes}

theorem cmdElem_over (none_ : cells = []) : s.cmdElem t c cells f = s.cmdRetire t c.seq := by rw [none_]; rfl

variable {i j : Nat} (cell : cells[c.elem]? = some (i, j))
include cell

theorem cmdElem_step {S : State} (step : f i j = .step S) : s.cmdElem t c cells f = S.cmdNext t c cells.length := by
  simp only [State.cmdElem, cell, step]

theorem cmdElem_stop {r : CmdRes} (stop : f i j = .stop r) : s.cmdElem t c cells f = s.cmdSettle t c r := by
  simp only [State.cmdElem, cell, stop]

end

section
variable {s : State} {t : Nat} {c : Cmd} {o : SOps} {f : ElemFmt}

/-- An MLD whose operands are in order. -/
theorem mldRun_cells {v satf : Bool} (fmt : s.matFmt t o.slot.toNat [1, 2, 3, 4, 6] = some f) (narrow : satf = true → f.bytes = 1)
    (mask : maskBad c.kc true false true (if f.bytes = 2 then 16 else 32) = false)
    (look : v = true → (maskOf c.kc).1 ≠ 0 → (maskOf c.kc).2.2 ≠ 0 → s.cmdFlying t c.seq = true ∨ s.viewCheck t c.kb.toNat = none) :
    s.mldRun t c o v satf = s.cmdElem t c (grid (maskOf c.kc).1 (maskOf c.kc).2.2) fun i k => s.mldElem t c o v satf f i k := by
  have legal : (satf && decide (f.bytes ≠ 1)) = false := by
    cases satf
    · rfl
    · simp [narrow rfl]
  have checked : (if (v && decide ((maskOf c.kc).1 ≠ 0) && decide ((maskOf c.kc).2.2 ≠ 0) && !s.cmdFlying t c.seq) = true
      then s.viewCheck t c.kb.toNat else none) = none := by
    split_ifs with h
    · simp only [Bool.and_eq_true, decide_eq_true_eq, Bool.not_eq_true'] at h
      obtain ⟨⟨⟨view, rows⟩, cols⟩, idle⟩ := h
      exact (look view rows cols).resolve_left (by simp [idle])
    · rfl
  simp only [State.mldRun, fmt, legal, mask, Bool.or_self, Bool.false_eq_true, if_false, checked]

/-- An MST without scales whose operands are in order. -/
theorem mstRun_cells {st : Stream} {ta tb : Nat} {satf v : Bool}
    (fmt : s.matFmt t o.slot.toNat (mstCodes (amapGet ({} : Tile) st.a (srcIx o.a)).int false v) = some f) (mask : maskBad c.kc true true false 0 = false)
    (unbound : st.parts.any (fun p => p.tile = srcIx o.a) = false)
    (look : v = true → (maskOf c.kc).1 ≠ 0 → (maskOf c.kc).2.1 ≠ 0 → s.cmdFlying t c.seq = true ∨ s.viewCheck t c.kb.toNat = none) :
    s.mstRun t st c o ta tb false satf v = s.cmdElem t c (grid (maskOf c.kc).1 (maskOf c.kc).2.1)
      (s.mstElem t c o v satf f (amapGet {} st.a (srcIx o.a)) (.fin false 1 0) (grid (maskOf c.kc).1 (maskOf c.kc).2.1)) := by
  have checked : (if (v && decide ((maskOf c.kc).1 ≠ 0) && decide ((maskOf c.kc).2.1 ≠ 0) && !s.cmdFlying t c.seq) = true
      then s.viewCheck t c.kb.toNat else none) = none := by
    split_ifs with h
    · simp only [Bool.and_eq_true, decide_eq_true_eq, Bool.not_eq_true'] at h
      obtain ⟨⟨⟨view, rows⟩, cols⟩, idle⟩ := h
      exact (look view rows cols).resolve_left (by simp [idle])
    · rfl
  simp only [State.mstRun, fmt, mask, unbound, Bool.false_and, Bool.or_self, Bool.not_false, Bool.false_eq_true, if_false, if_true, checked]

/-! ### Elements of an MLD -/

/-- The pointer of an element of a matrix in memory, with rows `o.imm` apart. -/
def matPtr (c : Cmd) (o : SOps) (n i k : Nat) : Nat := (((c.kb.toNat : Int) + i * o.imm.toInt + k * n) % (2 ^ 64 : Int)).toNat
/-- An element is put in the tile of an MLD. -/
def State.mldPut (s : State) (t : Nat) (o : SOps) (f : ElemFmt) (i k w : Nat) : State :=
  s.updStream t fun st => { st with m := amapInsert st.m o.d.toNat (tilePut (amapGet 0 st.m o.d.toNat) i k f.bytes w) }

variable {i k : Nat} {satf : Bool}

theorem mldElem_view {w : Nat} {S : State} (read : s.viewRead t c.seq c.kb.toNat i k ((s.lr t).slot o.slot.toNat) f satf = (.val w, S)) :
    s.mldElem t c o true satf f i k = .step (S.mldPut t o f i k w) := by
  simp only [State.mldElem, if_true, read]
  rfl

theorem mldElem_whole (whole : s.cmdLeft t c.seq (matPtr c o f.bytes i k) f.bytes = []) :
    s.mldElem t c o false satf f i k = .step (s.mldPut t o f i k (s.cmdValue t c.seq (matPtr c o f.bytes i k) f.bytes)) := by
  have read := mMove_whole whole [0, 1, 2] (.load false) .plain 0
  rw [matPtr] at read
  simp only [State.mldElem, State.mRead, Bool.false_eq_true, if_false, read]
  rfl

theorem mldElem_reads {q : Nat × Nat × Nat} {F : State} (eF : F = { s with free := s.free + 1 }) (idle : s.cmdFlying t c.seq = false)
    (ptr : F.ptrCheck t 0 (matPtr c o f.bytes i k) f.bytes [0, 1, 2] none true = none)
    (part : s.mPart t c.seq false (s.cmdLeft t c.seq (matPtr c o f.bytes i k) f.bytes) = some q) (tag : ptrTag q.1 = 2)
    (sound : (F.scrRead t (q.1 % 2 ^ 19) q.2.1).2 = false) :
    s.mldElem t c o false satf f i k = .stop (CmdRes.ofErr .wait (F.cmdGets t c.seq q.1 (F.scrRead t (q.1 % 2 ^ 19) q.2.1).1)) := by
  subst eF
  have read := mMove_next (op := .load false) part idle ptr .plain 0
  rw [mOne_load (s := { s with free := s.free + 1 }) idle tag _ _ sound, matPtr] at read
  simp only [State.mldElem, State.mRead, Bool.false_eq_true, if_false, read]

/-! ### Elements of an MST -/

/-- The value of the element that an MST writes, and the state that keeps it. -/
def State.mstValue (s : State) (t : Nat) (c : Cmd) (satf : Bool) (f : ElemFmt) (a : Tile) (i j : Nat) : Nat :=
  (amapFind? (s.cmdGot t c.seq) elemKey).getD (mstOut a.int satf f (a.get i j) (.fin false 1 0))
def State.mstKeep (s : State) (t : Nat) (c : Cmd) (out : Nat) : State :=
  if (amapFind? (s.cmdGot t c.seq) elemKey).isSome then s else s.updStream t fun st => { st with
    window := st.window.map fun d => if d.seq = c.seq then { d with got := amapInsert d.got elemKey out } else d }
/-- The value of an element goes to its bytes, where it has any. -/
def State.mstMove (s : State) (t : Nat) (c : Cmd) (o : SOps) (v : Bool) (f : ElemFmt) (i j out : Nat) : MRes × State :=
  match s.mstPtr c o v f.bytes i j with
  | none => (.val 0, s)
  | some q => s.mWrite t c.seq q (mstBytes v f) out

variable {v : Bool} {a : Tile} {cells : List (Nat × Nat)} {j : Nat} {T : State} (kept : T = s.mstKeep t c (s.mstValue t c satf f a i j))
include kept

/-- An element of an MST: its value, kept, moves; after the last the units that the MST wrote whole are cleaned. -/
theorem mstElem_eq : s.mstElem t c o v satf f a (.fin false 1 0) cells i j = match T.mstMove t c o v f i j (s.mstValue t c satf f a i j) with
    | (.val _, S) => if c.elem + 1 < cells.length then .step S else
      (match S.mstClean t (cells.filterMap fun x => (S.mstPtr c o v f.bytes x.1 x.2).map fun p => (p, mstBytes v f)) with
        | (true, S) => .step S
        | (false, S) => .stop (.again S))
    | (er, S) => .stop (CmdRes.ofErr er S) := by
  subst kept
  rfl

theorem mstElem_more {x : Nat} (moved : T.mstMove t c o v f i j (s.mstValue t c satf f a i j) = (.val x, T)) (more : c.elem + 1 < cells.length) :
    s.mstElem t c o v satf f a (.fin false 1 0) cells i j = .step T := by
  rw [mstElem_eq kept, moved]
  exact if_pos more

theorem mstElem_last {x : Nat} {S : State} (moved : T.mstMove t c o v f i j (s.mstValue t c satf f a i j) = (.val x, T)) (last : cells.length ≤ c.elem + 1)
    (clean : T.mstClean t (cells.filterMap fun x => (T.mstPtr c o v f.bytes x.1 x.2).map fun p => (p, mstBytes v f)) = (true, S)) :
    s.mstElem t c o v satf f a (.fin false 1 0) cells i j = .step S := by
  rw [mstElem_eq kept, moved]
  simp only [if_neg last.not_gt, clean]

theorem mstElem_stops {S : State} (moved : T.mstMove t c o v f i j (s.mstValue t c satf f a i j) = (.wait, S)) :
    s.mstElem t c o v satf f a (.fin false 1 0) cells i j = .stop (CmdRes.ofErr .wait S) := by
  rw [mstElem_eq kept, moved]

end

section
variable {T : State} {t : Nat} {c : Cmd} {o : SOps} {v : Bool} {f : ElemFmt} {i j out p : Nat}

theorem mstMove_nowhere (none_ : T.mstPtr c o v f.bytes i j = none) : T.mstMove t c o v f i j out = (.val 0, T) := by
  simp only [State.mstMove, none_]

variable (ptr : T.mstPtr c o v f.bytes i j = some p)
include ptr

theorem mstMove_whole (whole : T.cmdLeft t c.seq p (mstBytes v f) = []) : ∃ x, T.mstMove t c o v f i j out = (.val x, T) := by
  simp only [State.mstMove, ptr, State.mWrite, mMove_whole whole]
  exact ⟨_, rfl⟩

theorem mstMove_writes {q : Nat × Nat × Nat} {F : State} (eF : F = { T with free := T.free + 1 }) (idle : T.cmdFlying t c.seq = false)
    (check : F.ptrCheck t 0 p (mstBytes v f) [0, 1, 2] none true = none) (part : T.mPart t c.seq true (T.cmdLeft t c.seq p (mstBytes v f)) = some q)
    (tag : ptrTag q.1 = 2) : T.mstMove t c o v f i j out =
      (.wait, (F.scrWrite t (q.1 % 2 ^ 19) q.2.1 (out / 2 ^ (8 * q.2.2) % 2 ^ (8 * q.2.1))).cmdGets t c.seq q.1 0) := by
  subst eF
  have write := mMove_next (op := .store) part idle check .mst out
  rw [mOne_store (s := { T with free := T.free + 1 }) idle tag] at write
  simp only [State.mstMove, ptr, State.mWrite, write]

end

/-! ## Multiplication (R263 to R268) -/

theorem readAll_vals {f : Nat → Nat → State → MRes × State} {g : Nat × Nat → Nat} {s : State} {xs : List (Nat × Nat)}
    (reads : ∀ x ∈ xs, f x.1 x.2 s = (.val (g x), s)) : readAll f xs s = ((xs.map g, none), s) := by
  induction xs with
  | nil => rfl
  | cons x xs ih =>
    simp only [readAll, reads x (.head _), ih fun y hy => reads y (.tail _ hy), List.map_cons]

/-- The A tile of a multiplication: the one that its chain holds, else its own m register. -/
def Stream.operandA (st : Stream) (c : Cmd) (q : MulOp) : BitVec 4096 :=
  match c.root with
  | some r => (amapFind? st.latch r).getD (amapGet 0 st.m (srcIx q.o.a))
  | none => amapGet 0 st.m (srcIx q.o.a)

section
variable {s : State} {t : Nat} {st : Stream} {c : Cmd} {q : MulOp} {fa fb : ElemFmt} (fmtA : s.matFmt t q.o.slot.toNat q.kind.codes = some fa)
  (fmtB : s.matFmt t q.slotB q.kind.codes = some fb) (mask : maskBad c.kc true true true q.kind.kmax = false) (plain : q.p = false) (unbound : st.parts = [])
include fmtA fmtB mask plain unbound

theorem mulRun_nothing (none_ : (maskOf c.kc).1 = 0 ∨ (maskOf c.kc).2.1 = 0 ∨ ((maskOf c.kc).2.2 = 0 ∧ q.o.cl = false)) :
    s.mulRun t st c q = .retire s := by
  have over_ : (decide ((maskOf c.kc).1 = 0) || decide ((maskOf c.kc).2.1 = 0) || (decide ((maskOf c.kc).2.2 = 0) && !q.o.cl)) = true := by
    simp only [Bool.or_eq_true, Bool.and_eq_true, decide_eq_true_eq, Bool.not_eq_true', or_assoc]
    exact none_
  simp only [State.mulRun, fmtA, fmtB, mask, plain, unbound, List.find?_nil, Option.isSome_none, Bool.false_and, Bool.and_false, Bool.false_eq_true,
    if_false, over_, if_true]

theorem mulRun_multiplies {t1 : Tile} {g : Nat × Nat → Nat} (rows : (maskOf c.kc).1 ≠ 0) (cols : (maskOf c.kc).2.1 ≠ 0) (depth : (maskOf c.kc).2.2 ≠ 0)
    (tile : t1 = if q.o.cl then (amapGet ({} : Tile) st.a q.o.d.toNat).clear (maskOf c.kc).1 (maskOf c.kc).2.1 (q.kind == .mmi)
      else amapGet {} st.a q.o.d.toNat) (kind : t1.int = (q.kind == .mmi)) (linear : q.v = false)
    (reads : ∀ x ∈ grid (maskOf c.kc).2.2 (maskOf c.kc).2.1, s.mRead t c.seq (matPtr c q.o fb.bytes x.1 x.2) fb.bytes [2] = (.val (g x), s)) :
    s.mulRun t st c q = .retire (s.updStream t fun st' => st'.mulApply q (maskOf c.kc) t1
      (fun i k => fa.value (tileElem (st.operandA c q) i k fa.bytes))
      (fun k j => fb.value (((grid (maskOf c.kc).2.2 (maskOf c.kc).2.1).map g).getD (k * (maskOf c.kc).2.1 + j) 0)) []) := by
  subst tile
  have few : ¬ 128 < 0 + (maskOf c.kc).2.2 := by
    have small : (maskOf c.kc).2.2 < 2 ^ 6 := Nat.mod_lt _ (by decide)
    omega
  have room : decide (8 ≤ 0) = false := rfl
  have all := readAll_vals (s := s) (f := fun k j s => s.mRead t c.seq (matPtr c q.o fb.bytes k j) fb.bytes [2]) reads
  simp only [matPtr] at all
  simp only [State.mulRun, fmtA, fmtB, mask, plain, unbound, List.find?_nil, Option.isSome_none, Bool.false_and, Bool.and_false, Bool.false_eq_true,
    if_false, rows, cols, depth, kind, ne_eq, not_true_eq_false, linear, List.length_nil, Option.map_none, Option.getD_none, few, all, decide_false,
    Bool.or_false, Option.isNone_none, room]
  rfl

end

theorem mclrRun_clears {s : State} {t : Nat} {c : Cmd} {o : SOps} {int : Bool} (mask : maskBad c.kc true true false 0 = false) :
    s.mclrRun t c o int = (s.updStream t fun st => { st with
      a := amapInsert st.a o.d.toNat ((amapGet ({} : Tile) st.a o.d.toNat).clear (maskOf c.kc).1 (maskOf c.kc).2.1 int)
      parts := st.parts.filter fun p => p.tile ≠ o.d.toNat }).cmdRetire t c.seq := by
  simp only [State.mclrRun, mask, Bool.false_eq_true, if_false]

theorem mbarRun_arrives {s S : State} {t : Nat} {c : Cmd} {o : SOps}
    (arrived : (s.mstCross t).arrive t (.num (srcNum o.a)) (mbarCount o) true = (none, S)) :
    s.mbarRun t c o = (S.dropV (S.team t).core).cmdRetire t c.seq := by
  simp only [State.mbarRun, arrived]

/-- A multiplication is served. -/
theorem cmdRun_mul {s : State} {t : Nat} {st : Stream} {c : Cmd} {q : MulOp} (mul : mulOf c.instr = some q) :
    s.cmdRun t st c = .next (s.cmdSettle t c (s.mulRun t st c q)) := by
  unfold State.cmdRun
  cases x : c.instr with
  | mma o v b f | mmq o v b f | mmqP o v b f | mmi o v b f =>
    rw [x] at mul
    simp only [mul]
  | _ =>
    rw [x] at mul
    cases mul

end Sys2Proof.Machine

namespace Sys2Proof.Machine

/-! ## The stream's events (R248, R250, R251, R271) -/

section
variable {s : State} {t : Nat} {st : Stream} {c : Cmd}

/-- A multiplication: with nothing masked in, and with its B read. -/
theorem cmdRun_multiplies {q : MulOp} {fa fb : ElemFmt} (mul : mulOf c.instr = some q) (fmtA : s.matFmt t q.o.slot.toNat q.kind.codes = some fa)
    (fmtB : s.matFmt t q.slotB q.kind.codes = some fb) (mask : maskBad c.kc true true true q.kind.kmax = false) (plain : q.p = false)
    (unbound : st.parts = []) : let mk := maskOf c.kc
    let int := q.kind == .mmi
    let t1 : Tile := if q.o.cl then (amapGet ({} : Tile) st.a q.o.d.toNat).clear mk.1 mk.2.1 int else amapGet {} st.a q.o.d.toNat
    ((mk.1 = 0 ∨ mk.2.1 = 0 ∨ (mk.2.2 = 0 ∧ q.o.cl = false)) → s.cmdRun t st c = .next (s.cmdRetire t c.seq)) ∧
    (mk.1 ≠ 0 → mk.2.1 ≠ 0 → mk.2.2 ≠ 0 → t1.int = int → q.v = false →
      (∀ x ∈ grid mk.2.2 mk.2.1, s.cmdLeft t c.seq (matPtr c q.o fb.bytes x.1 x.2) fb.bytes = []) →
      s.cmdRun t st c = .next ((s.updStream t fun st' => st'.mulApply q mk t1 (fun i k => fa.value (tileElem (st.operandA c q) i k fa.bytes))
        (fun k j => fb.value (((grid mk.2.2 mk.2.1).map fun x => s.cmdValue t c.seq (matPtr c q.o fb.bytes x.1 x.2) fb.bytes).getD
          (k * mk.2.1 + j) 0)) []).cmdRetire t c.seq)) := by
  intro mk int t1
  rw [cmdRun_mul mul]
  refine ⟨fun none_ => ?_, fun rows cols depth kind linear whole => ?_⟩
  · rw [mulRun_nothing fmtA fmtB mask plain unbound none_]
    rfl
  · rw [mulRun_multiplies fmtA fmtB mask plain unbound rows cols depth rfl kind linear (g := fun x =>
      s.cmdValue t c.seq (matPtr c q.o fb.bytes x.1 x.2) fb.bytes) fun x hx => mMove_whole (whole x hx) ..]
    rfl

/-- The run of an MLD of the command. -/
theorem cmdRun_mld {o : SOps} {view satf : Bool} (is : c.instr = if view then .mldV o satf else .mld o) :
    s.cmdRun t st c = .next (s.mldRun t c o view (view && satf)) := by
  cases view <;> simp only [is, State.cmdRun, Bool.false_eq_true, if_false, if_true, Bool.false_and, Bool.true_and]

end

theorem execMsetImm_atStream {s : State} {t : Nat} {st : Stream} (turn : s.turn = .stream t) (stream : (s.team t).stream = some st) (o : SOps) :
    execMsetImm o s = .next (s.updStream t fun _ => { st.setK o.d (o.imm.signExtend 64) with pc := (st.pc + 16) % 2 ^ 64 }) := by
  rw [execMsetImm, control, streamTurn_atStream turn stream]

section
variable {s : State} {t : Nat} {st : Stream} {c : Cmd} {o : SOps} {f : ElemFmt} {satf : Bool}

/-- The elements of an MLD: from a view, from memory, or one part of an element in the team's scratchpad. -/
theorem cmdRun_mld_elements {view : Bool} (is : c.instr = if view then .mldV o satf else .mld o) (fmt : s.matFmt t o.slot.toNat [1, 2, 3, 4, 6] = some f)
    (narrow : view = true → satf = true → f.bytes = 1) (mask : maskBad c.kc true false true (if f.bytes = 2 then 16 else 32) = false) :
    let mk := maskOf c.kc
    (mk.1 = 0 ∨ mk.2.2 = 0 → s.cmdRun t st c = .next (s.cmdRetire t c.seq)) ∧
    ∀ i k, (grid mk.1 mk.2.2)[c.elem]? = some (i, k) → (view = true → s.cmdFlying t c.seq = true ∨ s.viewCheck t c.kb.toNat = none) →
      let p := matPtr c o f.bytes i k
      (∀ w S, view = true → s.viewRead t c.seq c.kb.toNat i k ((s.lr t).slot o.slot.toNat) f satf = (.val w, S) →
        s.cmdRun t st c = .next ((S.mldPut t o f i k w).cmdNext t c (mk.1 * mk.2.2))) ∧
      (view = false → s.cmdLeft t c.seq p f.bytes = [] →
        s.cmdRun t st c = .next ((s.mldPut t o f i k (s.cmdValue t c.seq p f.bytes)).cmdNext t c (mk.1 * mk.2.2))) ∧
      ∀ F : State, F = { s with free := s.free + 1 } → view = false → s.cmdFlying t c.seq = false → F.ptrCheck t 0 p f.bytes [0, 1, 2] none true = none →
        ∀ q, s.mPart t c.seq false (s.cmdLeft t c.seq p f.bytes) = some q → ptrTag q.1 = 2 → (F.scrRead t (q.1 % 2 ^ 19) q.2.1).2 = false →
          s.cmdRun t st c = .next ((F.cmdGets t c.seq q.1 (F.scrRead t (q.1 % 2 ^ 19) q.2.1).1).cmdDue t c) := by
  intro mk
  have narrow' : (view && satf) = true → f.bytes = 1 := by rw [Bool.and_eq_true]; exact fun h => narrow h.1 h.2
  rw [cmdRun_mld is]
  refine ⟨fun none_ => ?_, fun i k cell look => ?_⟩
  · rw [mldRun_cells fmt narrow' mask fun _ rows cols => absurd none_ (not_or.2 ⟨rows, cols⟩), cmdElem_over (grid_eq_nil none_)]
  intro p
  rw [mldRun_cells fmt narrow' mask fun view _ _ => look view]
  refine ⟨?_, ?_, ?_⟩
  · rintro w S rfl read
    rw [Bool.true_and, cmdElem_step cell (mldElem_view read), length_grid]
  · rintro rfl whole
    rw [Bool.false_and, cmdElem_step cell (mldElem_whole whole), length_grid]
  · rintro F eF rfl idle ptr q part tag sound
    rw [Bool.false_and, cmdElem_stop cell (mldElem_reads eF idle ptr part tag sound), cmdSettle_gets]

theorem cmdRun_mst {a b : BitVec 3} {v : Bool} (is : c.instr = if v then .mstV o a b false satf else .mst o a b false satf)
    (fmt : s.matFmt t o.slot.toNat (mstCodes (amapGet ({} : Tile) st.a (srcIx o.a)).int false v) = some f) (mask : maskBad c.kc true true false 0 = false)
    (unbound : st.parts.any (fun p => p.tile = srcIx o.a) = false)
    (look : v = true → (maskOf c.kc).1 ≠ 0 → (maskOf c.kc).2.1 ≠ 0 → s.cmdFlying t c.seq = true ∨ s.viewCheck t c.kb.toNat = none) :
    s.cmdRun t st c = .next (s.cmdElem t c (grid (maskOf c.kc).1 (maskOf c.kc).2.1)
      (s.mstElem t c o v satf f (amapGet {} st.a (srcIx o.a)) (.fin false 1 0) (grid (maskOf c.kc).1 (maskOf c.kc).2.1))) := by
  rw [← mstRun_cells (ta := a.toNat) (tb := b.toNat) fmt mask unbound look]
  cases v <;> simp only [is, State.cmdRun, Bool.false_eq_true, if_false, if_true]

/-- The elements of an MST, of either form, that does not scale. -/
theorem cmdElem_mst {v : Bool} {a : Tile} {i j : Nat} (cell : (grid (maskOf c.kc).1 (maskOf c.kc).2.1)[c.elem]? = some (i, j)) :
    let mk := maskOf c.kc
    let out := s.mstValue t c satf f a i j
    let T := s.mstKeep t c out
    let spans := (grid mk.1 mk.2.1).filterMap fun x => (T.mstPtr c o v f.bytes x.1 x.2).map fun p => (p, mstBytes v f)
    let run := s.cmdElem t c (grid mk.1 mk.2.1) (s.mstElem t c o v satf f a (.fin false 1 0) (grid mk.1 mk.2.1))
    (T.mstPtr c o v f.bytes i j = none ∨ (∃ p, T.mstPtr c o v f.bytes i j = some p ∧ T.cmdLeft t c.seq p (mstBytes v f) = []) →
      (c.elem + 1 < mk.1 * mk.2.1 → run = T.cmdNext t c (mk.1 * mk.2.1)) ∧
      (∀ S, mk.1 * mk.2.1 ≤ c.elem + 1 → T.mstClean t spans = (true, S) → run = S.cmdNext t c (mk.1 * mk.2.1))) ∧
    ∀ F : State, ∀ p q, F = { T with free := T.free + 1 } → T.mstPtr c o v f.bytes i j = some p → T.cmdFlying t c.seq = false →
      F.ptrCheck t 0 p (mstBytes v f) [0, 1, 2] none true = none → T.mPart t c.seq true (T.cmdLeft t c.seq p (mstBytes v f)) = some q →
      ptrTag q.1 = 2 → run = ((F.scrWrite t (q.1 % 2 ^ 19) q.2.1 (out / 2 ^ (8 * q.2.2) % 2 ^ (8 * q.2.1))).cmdGets t c.seq q.1 0).cmdDue t c := by
  intro mk out T spans run
  refine ⟨fun reached => ?_, fun F p q eF ptr idle check part tag => ?_⟩
  · obtain ⟨x, moved⟩ : ∃ x, T.mstMove t c o v f i j out = (.val x, T) := by
      rcases reached with nowhere | ⟨p, ptr, whole⟩
      · exact ⟨0, mstMove_nowhere nowhere⟩
      · exact mstMove_whole ptr whole
    refine ⟨fun more => ?_, fun S last clean => ?_⟩
    · rw [← length_grid] at more ⊢
      exact cmdElem_step cell (mstElem_more rfl moved more)
    · rw [← length_grid] at last ⊢
      exact cmdElem_step cell (mstElem_last rfl moved last clean)
  · exact (cmdElem_stop cell (mstElem_stops rfl (mstMove_writes ptr eF idle check part tag))).trans (cmdSettle_gets ..)

end

/-- Settles O42: the fetch by what the cache holds, and each command by what it does when it is served. -/
theorem streamEvents : Obligations.StreamEvents := by
  unfold Obligations.StreamEvents
  refine ⟨fun s t pc b x fetches at_ block good S run => sequencerFetch_performs fetches at_ block good run, fun s t st pc b o stream fetches at_ block good => ?_,
    fun s t pc b c fetches at_ block bad => sequencerFetch_faults fetches at_ block bad,
    fun s t pc fetches at_ absent => sequencerFetch_absent fetches at_ absent,
    fun s t st c b par stream found waits sound may over_ => mbwRetire_retires stream found sound may waits over_,
    fun s t st c stream found sound may turn => ?_⟩
  · exact sequencerFetch_performs fetches at_ block good (execMsetImm_atStream (s := { s with turn := .stream t }) rfl stream o)
  intro st1 S mk got whole left keep run
  have serves : run = S.cmdRun t st1 c := commandRetire_serves stream found sound may turn
  clear_value run
  subst serves
  refine ⟨fun o is => ?_, fun o int is mask => ?_, fun o S' is arrived => ?_, fun q fa fb mul fmtA fmtB mask plain unbound => ?_,
    fun q S' mul retires => ?_, fun o view satf f is fmt narrow mask => ?_, fun o a b satf f is => ?_, fun o a b satf f is => ?_⟩
  · simp only [State.cmdRun, is]
  · simp only [State.cmdRun, is, mclrRun_clears mask]
    rfl
  · simp only [State.cmdRun, is, mbarRun_arrives arrived]
  · obtain ⟨nothing, multiplies⟩ := cmdRun_multiplies (s := S) (st := st1) mul fmtA fmtB mask plain unbound
    exact ⟨nothing, fun rows cols depth kind linear wholes => multiplies rows cols depth kind linear fun x hx => cmdLeft_whole (wholes x hx)⟩
  · rw [cmdRun_mul mul, retires]
    rfl
  · obtain ⟨nothing, elements⟩ := cmdRun_mld_elements (s := S) (st := st1) is fmt narrow mask
    refine ⟨nothing, fun i k cell look => ?_⟩
    obtain ⟨views, wholes, reads⟩ := elements i k cell look
    exact ⟨fun w S' => views w S', fun linear whole_ => wholes linear (cmdLeft_whole whole_), reads _ rfl⟩
  · intro tile fmt mask unbound
    have served := cmdRun_mst (s := S) (st := st1) (v := false) is fmt mask unbound nofun
    refine ⟨fun none_ => ?_, fun i j cell => ?_⟩
    · rw [served, cmdElem_over (grid_eq_nil none_)]
    intro p out T spans
    obtain ⟨reached, writes⟩ := cmdElem_mst (s := S) (t := t) (o := o) (f := f) (satf := satf) (v := false) (a := tile) cell
    refine ⟨fun whole_ more => ?_, fun S' whole_ last clean => ?_, ?_⟩
    · exact served.trans (congrArg _ ((reached (.inr ⟨p, rfl, whole_⟩)).1 more))
    · exact served.trans (congrArg _ ((reached (.inr ⟨p, rfl, whole_⟩)).2 S' last clean))
    · intro F idle check q part tag
      exact served.trans (congrArg _ (writes F p q rfl rfl idle check part tag))
  · intro tile fmt mask unbound
    refine ⟨fun none_ => ?_, fun i j cell look => ?_⟩
    · rw [cmdRun_mst (s := S) (st := st1) (v := true) is fmt mask unbound fun _ rows cols => absurd none_ (not_or.2 ⟨rows, cols⟩),
        cmdElem_over (grid_eq_nil none_)]
    intro out T spans reached
    have served := cmdRun_mst (s := S) (st := st1) (v := true) is fmt mask unbound fun _ _ _ => look
    obtain ⟨more, last⟩ := (cmdElem_mst (s := S) (t := t) (o := o) (f := f) (satf := satf) (v := true) (a := tile) cell).1 reached
    exact ⟨fun h => served.trans (congrArg _ (more h)), fun S' h clean => served.trans (congrArg _ (last S' h clean))⟩

end Sys2Proof.Machine

namespace Sys2Proof.Machine

/-! ## A copy that has landed (R281, R282)

The model keeps the copies in a map with rising identifiers. The statement that a landed copy is gone takes any state; where an identifier
stands twice in the map, the end of the copy removes the first entry alone. -/

/-- A gather without rows, of one chunk. -/
def rowlessCopy : Copy := { team := 0, gix := 0, lane := 0, pc := 0, ch := 0, tmpl := 0, iter := 0, gather := true }
/-- The copy stands twice under identifier 0. -/
def doubledState : State := { State.reset with copies := [(0, rowlessCopy), (0, rowlessCopy)] }

/-- The model leaves the second entry. -/
theorem doubled_stays : (amapFind? (doubledState.chunkLand 0 rowlessCopy 0).copies 0).isSome = true := by decide +kernel

/-- Refutes O43: the only chunk of copy 0 lands, and copy 0 is still found. -/
theorem not_copyEvents : ¬ Obligations.CopyEvents := by
  unfold Obligations.CopyEvents
  rintro ⟨-, -, -, -, -, gone⟩
  have model := doubled_stays
  rw [gone doubledState 0 rowlessCopy 0 rfl] at model
  exact absurd model (by decide)

end Sys2Proof.Machine

namespace Sys2Proof.Machine

/-! ## The raster pipeline (R313 to R322) -/

theorem primitiveEmit_emits {s : State} {q la t : Nat} {d : Draw} {tm : Team} (draw : s.emitDraw q = some (la, d))
    (team : (s.teams.find? fun kv => kv.2.launch = la && kv.2.kind == .mesh && kv.2.number = d.team) = some (t, tm)) (stays : tm.preempt = false)
    (over_ : ∀ g ∈ tm.groups, g.2.liveLanes = []) : exec (.primitiveEmit q) s = .next (let S := s.sealMesh t
      if (S.team t).mesh.np ≤ d.prim then S.updDraw la fun d => { d with team := d.team + 1, prim := 0 }
      else (S.emitPrim t la d.team d.prim).updDraw la fun d => { d with prim := d.prim + 1 }) := by
  have ended : (tm.preempt || tm.groups.any fun g => !g.2.liveLanes.isEmpty) = false := by
    rw [stays, Bool.false_or, List.any_eq_false]
    intro g hg
    simp [over_ g hg]
  rw [exec_primitiveEmit, execPrimitiveEmit, draw]
  simp only [team, ended, Bool.false_eq_true, if_false]
  split_ifs <;> rfl

section
variable {s : State} {w la : Nat} {q : Quad} {rest : List (Nat × Quad)}

/-- A raster unit acts where its bank is idle. -/
theorem rasterAsk_idle {bank src : Nat} {job : BankJob} (idle : s.bankIdle bank = true) : s.rasterAsk bank src job = (true, none) := by
  rw [State.rasterAsk, if_pos idle]

/-- It asks for its bank once where that is not idle. -/
theorem rasterAsk_asks {bank src : Nat} {job : BankJob} (busy : s.bankIdle bank = false) (first_ : ∀ x ∈ s.bankReqs, x.bank = bank → x.job ≠ job) :
    s.rasterAsk bank src job = (false, some (s.bankAsk { bank := bank, cls := 0, src := src, read := false, job := job })) := by
  have new_ : (s.bankReqs.any fun x => x.bank = bank && x.job = job) = false := List.any_eq_false.2 fun x hx => by
    rw [Bool.and_eq_true, decide_eq_true_iff, decide_eq_true_iff]
    exact fun same => first_ x hx same.1 same.2
  rw [State.rasterAsk, busy, new_]
  rfl

/-- A quad that its targets must wait for stays at the head; one that they do not hold any more, or whose domain is off, leaves the wing. -/
theorem tokenGo_waits {S : State} {x : Bool × Bool} (spots : s.reachSpots (s.quadSpots (s.launch la).lr.raster q) false = ((true, x), S)) :
    s.tokenGo w la q rest = some S := by
  obtain ⟨dead, off⟩ := x
  simp only [State.tokenGo, spots]

theorem quads_updWing (s : State) (w : Nat) (rest : List (Nat × Quad)) : ((s.updWing w fun x => { x with quads := rest }).wing w).quads = rest := by
  rw [State.updWing_same]

theorem tokenGo_discards {S : State} {off : Bool} (spots : s.reachSpots (s.quadSpots (s.launch la).lr.raster q) false = ((false, true, off), S))
    (room : ∀ b, (amapGet [] S.slots b).length < 32) : ∃ T, s.tokenGo w la q rest = some T ∧ (T.wing w).quads = rest := by
  have free : (((s.quadSpots (s.launch la).lr.raster q).filterMap fun x => S.spotPlace x.1 x.2).map (·.1)).eraseDups.any
      (fun b => decide (32 ≤ (amapGet [] S.slots b).length)) = false :=
    List.any_eq_false.2 fun b _ => by rw [decide_eq_true_iff]; exact (room b).not_ge
  simp only [State.tokenGo, spots, free, Bool.false_eq_true, if_false, Bool.not_true, Bool.false_and, Bool.true_or, Bool.true_and]
  generalize (if off = true then S.stick la 1 else S) = U
  split
  · exact ⟨_, rfl, quads_updWing U w rest⟩
  · exact ⟨_, rfl, quads_updWing U w rest⟩

section
variable (head : (s.wing w).quads = (la, q) :: rest) (turn : s.tokenTurn w la q = true)
include head turn

/-- The quad at the head, whose unit of test may act, enters its banks. -/
theorem coverageToken_enters (idle : ∀ b, s.testBank la q = some b → s.bankIdle b = true) (still : s.testBank la q = none → s.ratioTo = none)
    {T : State} (go : s.tokenGo w la q rest = some T) : exec (.coverageToken w) s = .next T := by
  rw [exec_coverageToken, execCoverageToken, head]
  simp only [turn, Bool.not_true, Bool.false_eq_true, if_false, go]
  cases bank : s.testBank la q with
  | none => simp only [still bank, Option.isSome_none, Bool.false_eq_true, if_false]
  | some b => simp only [rasterAsk_idle (idle b bank)]

theorem coverageToken_asks {b : Nat} (bank : s.testBank la q = some b) (busy : s.bankIdle b = false)
    (first_ : ∀ x ∈ s.bankReqs, x.bank = b → x.job ≠ .token w) : exec (.coverageToken w) s =
      .next (s.bankAsk { bank := b, cls := 0, src := w, read := false, job := .token w }) := by
  rw [exec_coverageToken, execCoverageToken, head]
  simp only [turn, Bool.not_true, Bool.false_eq_true, if_false, bank, rasterAsk_asks busy first_]

end

theorem rasterisePrimitive_quads {p : Prim} {rest : List (Nat × Prim)} (queue : (s.wing w).queue = (la, p) :: rest) (none_ : (s.wing w).quads = []) :
    exec (.rasterisePrimitive w) s = .next (s.updWing w fun x => { x with
      queue := rest
      quads := ((s.quadsOf (s.launch la).lr.raster p).filter fun q => s.tileWing (s.launch la).space q.x q.y = w).map fun q => (la, q) }) := by
  rw [exec_rasterisePrimitive, execRasterisePrimitive, queue, none_]

end

section
variable {s : State} {bru id : Nat} {f : Flight}

theorem quadRetire_empty {ids : List Nat} (slots : amapGet [] s.slots bru = id :: ids) (found : amapFind? s.flights id = some f)
    (empty_ : f.empty = true) : exec (.quadRetire bru) s = .next (s.popSlot bru id f) := by
  have head : s.retireHead bru = some (id, f) := by simp only [State.retireHead, slots, found, empty_, Bool.true_or, if_true]
  rw [exec_quadRetire, execQuadRetire, head]
  exact if_pos empty_

variable (head : s.retireHead bru = some (id, f)) (full : f.empty = false)
include head full

theorem quadRetire_goes (idle : s.bankIdle bru = true) : exec (.quadRetire bru) s = .next (s.retireGo bru id f) := by
  rw [exec_quadRetire, execQuadRetire, head]
  simp only [full, Bool.false_eq_true, if_false, rasterAsk_idle idle]

theorem quadRetire_asks (busy : s.bankIdle bru = false) (first_ : ∀ x ∈ s.bankReqs, x.bank = bru → x.job ≠ .retire) : exec (.quadRetire bru) s =
    .next (s.bankAsk { bank := bru, cls := 0, src := f.wing, read := false, job := .retire }) := by
  rw [exec_quadRetire, execQuadRetire, head]
  simp only [full, Bool.false_eq_true, if_false, rasterAsk_asks busy first_]

end

/-! ## Fragment groups (R324) -/

theorem fragmentGroupLaunch_launches {s : State} {w core quarter x : Nat} {f0 : Flight} {rest : List (Nat × Flight)} (waits : s.unshaded w = (x, f0) :: rest) :
    let l := s.launch f0.launch
    let regs := 8 * (rsField l.lr.raster 0x20 43 39 + 1)
    coreWing core = w → core < 192 → quarter < 4 → l.status = none → l.complete = false → (s.space l.space).dumped = false →
    s.quarterRoom (s.coreTeams core []) regs quarter ≠ 0 → s.coreFits core [] { groups := 1, regs := regs } = true →
    s.wingHolds w l.lease = true → ∃ T t tm, exec (.fragmentGroupLaunch w core quarter) s = .next T ∧ amapFind? T.teams t = some tm ∧
      tm.kind = .fragment ∧ tm.launch = f0.launch ∧ tm.core = core := by
  intro l regs wing core_ quarter_ runs live kept room fits holds
  have may : (decide (coreWing core ≠ w) || decide (192 ≤ core) || decide (4 ≤ quarter) || l.status.isSome || l.complete ||
      (s.space l.space).dumped || decide (s.quarterRoom (s.coreTeams core []) regs quarter = 0) ||
      !s.coreFits core [] { groups := 1, regs := regs } || !s.wingHolds w l.lease) = false := by
    simp [wing, core_, quarter_, runs, live, kept, room, fits, holds]
  rw [exec_fragmentGroupLaunch, execFragmentGroupLaunch, waits]
  dsimp only
  rw [if_neg (ne_true_of_eq_false may)]
  exact ⟨_, _, _, rfl, amapFind?_insert_same .., rfl, rfl, rfl⟩

/-! ## Rasteriser-ordered sections (R328) -/

/-- A change of a team that leaves each group's scalar registers and each thread's registers leaves the registers. -/
theorem sameRegs_updTeam (s : State) (t : Nat) (f : Team → Team)
    (keeps : ∀ tm g, (amapGet {} (f tm).groups g : Group).s = (amapGet {} tm.groups g : Group).s ∧
      ∀ l, (amapGet {} (amapGet {} (f tm).groups g : Group).threads l : Thread).arch =
        (amapGet {} (amapGet {} tm.groups g : Group).threads l : Thread).arch) : SameRegs s (s.updTeam t f) := by
  have scal (t' g : Nat) : ((s.updTeam t f).group t' g).s = (s.group t' g).s := by
    simp only [State.group, State.team_updTeam]
    split_ifs with at_
    · obtain ⟨rfl, -⟩ := at_
      exact (keeps _ g).1
    · rfl
  have arch (t' g l : Nat) : ((s.updTeam t f).thread t' g l).arch = (s.thread t' g l).arch := by
    simp only [State.thread, State.group, State.team_updTeam]
    split_ifs with at_
    · obtain ⟨rfl, -⟩ := at_
      exact (keeps _ g).2 l
    · rfl
  exact ⟨fun t g l n => congrArg (fun r => amapGet 0 r n) (congrArg (·.2.1) (arch t g l) :),
    fun t g l n => congrArg (fun r : BitVec 8 => n == 7 || r.getLsbD n) (congrArg (·.2.2.1) (arch t g l) :),
    fun t g l => (congrArg (·.2.2.2.1) (arch t g l) :), fun t g n => congrArg (fun r => if n = 63 then 0 else amapGet 0 r n) (scal t g)⟩

/-- A team that is not the default one is there. -/
theorem present_of_team {s : State} {t : Nat} (own : s.team t ≠ {}) : (amapFind? s.teams t).isSome := by
  rw [← Option.ne_none_iff_isSome]
  intro gone
  exact own (by rw [State.team, amapGet_eq_find, gone]; rfl)

/-- A section that has been held for 2^24 CCLK ends, and its thread traps. -/
theorem rocTimeout_traps {s : State} {t l since : Nat} (held : (s.thread t 0 l).sect = .open_ since) (late : since + 2 ^ 24 ≤ s.cclk)
    (ready : (s.thread t 0 l).stat = .ready) (fragment : (s.team t).kind = .fragment) :
    ∃ S : State, exec (.rocTimeout t l) s = .next (S.takeTrap t 0 l { cause := .rocTimeout }) ∧
      (S.thread t 0 l).sect = .ended ∧ (S.thread t 0 l).pc = (s.thread t 0 l).pc := by
  have there : (amapFind? s.teams t).isSome := present_of_team fun default_ => by rw [default_] at fragment; exact absurd fragment (by decide)
  let S := s.updGroup t 0 fun gr => ({ gr with threads := amapInsert gr.threads l { gr.thr l with sect := .ended, stat := .ready } }).leaveWaits l
  have thread : S.thread t 0 l = { s.thread t 0 l with sect := .ended, stat := .ready } := by
    rw [State.thread, State.group_updGroup, if_pos ⟨rfl, rfl, there⟩]
    exact amapGet_insert_same ..
  refine ⟨S, ?_, by rw [thread], by rw [thread]⟩
  rw [exec_rocTimeout, execRocTimeout, held]
  simp only [late.not_gt, ready, fragment, ne_eq, not_true_eq_false, decide_false, Bool.or_false, reduceCtorEq, Bool.false_eq_true, if_false]
  rfl

/-- A thread enters its section. -/
def Thread.enters (now : Nat) (th : Thread) : Thread :=
  { th with stat := if th.pend.isSome then .parked else .ready, pend := none, sect := .open_ now }

/-- A lane of a set that waits for its section enters it where it may. -/
theorem rocSectionEnter_opens {s : State} {t g k w : Nat} {ls : List Nat} (wait : s.waitOf t g w = some ⟨ls, .roc⟩) (mem : k ∈ ls)
    (may : s.mayEnter t k = true) (lane : s.hasLane t g k = true) :
    ∃ S, exec (.rocSectionEnter t g w) s = .next S ∧ SameRegs s S ∧ (S.thread t g k).sect = .open_ s.cclk := by
  have goes : k ∈ ls.filter fun l => s.mayEnter t l := List.mem_filter.2 ⟨mem, may⟩
  have there : (amapFind? s.teams t).isSome := present_of_team fun default_ => by
    rw [State.hasLane, State.group, default_] at lane
    exact absurd lane Bool.false_ne_true
  have some_ : (ls.filter fun l => s.mayEnter t l).isEmpty = false := List.isEmpty_eq_false_iff.2 (List.ne_nil_of_mem goes)
  rw [exec_rocSectionEnter, execRocSectionEnter, wait]
  simp only [some_, Bool.false_eq_true, if_false]
  refine ⟨_, rfl, ?_, ?_⟩
  · refine (quiet_updGroup _ _ _ _ fun gr => ⟨?_, fun l => ?_⟩).sameRegs
    · rfl
    exact Group.thr_map gr.threads (fun l th => if (ls.filter fun l => s.mayEnter t l).contains l then th.enters s.cclk else th) l fun l th => by
      split_ifs <;> rfl
  · rw [thread_wakes _ (fun l th => if (ls.filter fun l => s.mayEnter t l).contains l then th.enters s.cclk else th) there (fun _ => rfl) lane,
      if_pos (List.contains_iff_mem.2 goes)]
    rfl

/-- A pre-emption that has waited 2^16 CCLK for a section saves its tokens. -/
theorem rocPreemptTimeout_saves {s : State} {t : Nat} (preempt : (s.team t).preempt = true) (new_ : (s.team t).tokens = false)
    (there : (amapFind? s.teams t).isSome) (open_ : ((s.team t).groups.any fun g => g.2.threads.any fun th => th.2.sect.isOpen) = true)
    (late : (s.team t).preemptAt + 2 ^ 16 ≤ s.cclk) :
    ∃ S, exec (.rocPreemptTimeout t) s = .next S ∧ (S.team t).tokens = true ∧ SameRegs s S := by
  rw [exec_rocPreemptTimeout, execRocPreemptTimeout]
  simp only [preempt, new_, open_, late.not_gt, Bool.not_true, decide_false, Bool.or_self, Bool.false_eq_true, if_false]
  refine ⟨_, rfl, ?_, sameRegs_updTeam _ _ _ fun tm g => ?_⟩
  · rw [State.team_updTeam, if_pos ⟨rfl, there⟩]
  · simp only [amapGet_eq_find, amapFind?_map]
    cases amapFind? tm.groups g with
    | none => exact ⟨rfl, fun _ => rfl⟩
    | some gr => exact ⟨rfl, fun l => by
      rw [← amapGet_eq_find, ← amapGet_eq_find]
      exact Group.thr_map gr.threads (fun _ th => { th with sect := th.sect.keep s.cclk }) l fun _ _ => rfl⟩

/-- Settles O45: each event of the pipeline by what stands at the head of its queue. -/
theorem rasterEvents : Obligations.RasterEvents := by
  unfold Obligations.RasterEvents
  refine ⟨fun s q la d t tm => primitiveEmit_emits, fun s w la p rest => rasterisePrimitive_quads, fun s w la q rest head turn idle still => ?_,
    fun s w la q rest b head turn => coverageToken_asks head turn, fun s bru id ids f => quadRetire_empty, fun s bru id f head full => ⟨quadRetire_goes head full, quadRetire_asks head full⟩,
    fun s w core quarter x f0 rest => fragmentGroupLaunch_launches, fun s t l since => rocTimeout_traps, fun s t g k w ls => rocSectionEnter_opens,
    fun s t => rocPreemptTimeout_saves⟩
  have enters {T : State} := coverageToken_enters head turn idle still (T := T)
  refine ⟨fun S x spots => enters (tokenGo_waits spots), fun S off spots room => ?_, fun T => enters⟩
  obtain ⟨T, go, quads⟩ := tokenGo_discards (w := w) spots room
  exact ⟨T, enters go, quads⟩

end Sys2Proof.Machine

namespace Sys2Proof.Machine

/-! ## Host accesses and bias flips (R394 to R402) -/

section
variable {s : State} {pa : Nat}

theorem hostMemRead_eq (mapped : pa / 64 * 64 < hdmEnd) : exec (.hostMemRead pa) s = .next (
    if !s.boot.ready then { s with hostAns := (pa / 64 * 64, none, true) :: s.hostAns }
    else if s.flipping (pa / 64 * 64) then { s with hostReqs := s.hostReqs ++ [⟨pa / 64 * 64, none⟩] }
    else { s with hostAns := (pa / 64 * 64, s.hostGet (pa / 64 * 64), !s.hostBias (pa / 64 * 64)) :: s.hostAns }) := by
  rw [exec_hostMemRead, execHostMemRead]
  simp only [if_neg mapped.not_ge]
  split_ifs <;> rfl

theorem hostMemWrite_eq {data : List Byte} (mapped : pa < hdmEnd) : exec (.hostMemWrite pa data) s = .next (
    if !s.boot.ready then s
    else if s.flipping pa && !s.bias.snoops.contains (pa / 64) then { s with hostReqs := s.hostReqs ++ [⟨pa, some (data.take (64 - pa % 64))⟩] }
    else s.hostPut pa (data.take (64 - pa % 64))) := by
  rw [exec_hostMemWrite, execHostMemWrite]
  simp only [if_neg mapped.not_ge]
  split_ifs <;> rfl

end

/-! ### Bias flips (R396, R397) -/

theorem even_iff_getLsbD (v : DWord) : v.toNat % 2 = 0 ↔ v.getLsbD 0 = false := by
  rw [BitVec.getLsbD, Nat.testBit_zero, decide_eq_false_iff_not]
  omega

section
variable {s : State} {v : DWord}

theorem biasflipGo_ignored (why : s.boot.ready = false ∨ s.bias.busy = true ∨ v.getLsbD 0 = false) : exec (.biasflipGo v) s = .next s := by
  rw [exec_biasflipGo, execBiasflipGo]
  rcases why with early | busy | off
  · simp only [early, Bool.not_false, if_true]
  · simp only [busy, Bool.true_or, if_true, ite_self]
  · simp only [(even_iff_getLsbD v).2 off, decide_true, Bool.or_true, if_true, ite_self]

/-- The state in which a flip that is asked for is named. -/
def State.flipAsked (s : State) (v : DWord) : State := { s with bias := { s.bias with page := bitField 51 12 v.toNat, dir := v.getLsbD 60 } }
/-- The flip has begun: to device bias the host is snooped for each unit of the page. -/
def State.flipBegun (s : State) (v : DWord) : State :=
  { s.flipAsked v with bias := { (s.flipAsked v).bias with
      busy := true, snoops := if v.getLsbD 60 then [] else (List.range 64).map fun k => 64 * bitField 51 12 v.toNat + k } }

theorem biasflipGo_eq (ready : s.boot.ready = true) (idle : s.bias.busy = false) (go : v.getLsbD 0 = true) : exec (.biasflipGo v) s = .next
    (if (s.flipAsked v).hostBias (4096 * bitField 51 12 v.toNat) = v.getLsbD 60 then (s.flipAsked v).flipDone 0
      else if (s.flipAsked v).pageBooked (bitField 51 12 v.toNat) then (s.flipAsked v).flipDone 1 else s.flipBegun v) := by
  have odd : ¬ v.toNat % 2 = 0 := by rw [even_iff_getLsbD, go]; decide
  rw [exec_biasflipGo, execBiasflipGo]
  simp only [ready, idle, odd, decide_false, Bool.or_self, Bool.not_true, Bool.false_eq_true, if_false, beq_iff_eq]
  rw [apply_ite Host.Outcome.next, apply_ite Host.Outcome.next]
  rfl

end

/-- The bit of the page is written, its lines written back before where it goes to host bias, and the flip is over. -/
def State.flipWritten (s : State) : State :=
  let page := s.bias.page
  let s := if s.bias.dir then forEach (List.range 32) s fun s k => s.flipLine (32 * page + k) else s
  let b := s.peek (s.biasByte page) 1
  let b := b - b / 2 ^ (page % 8) % 2 * 2 ^ (page % 8) + (if s.bias.dir then 2 ^ (page % 8) else 0)
  let s := if 4096 * page < hdmEnd then s.pokeBytes (s.biasByte page) 0 [BitVec.ofNat 8 b] else s
  s.flipDone 0

theorem biasFlipComplete_eq {s : State} (busy : s.bias.busy = true) (quiet : s.flipQuiet = true) : exec .biasFlipComplete s = .next
    (let R := forEach (s.flipWritten.accs.filter fun kv => kv.2.snoops.contains flipWait) s.flipWritten fun S kv => S.flipResume kv.1 kv.2
     forEach R.hostReqs { R with hostReqs := [] } fun S r => S.hostServe r) := by
  rw [exec_biasFlipComplete, execBiasFlipComplete, busy, quiet]
  rfl

/-! ### Snoops and completions (R398, R400, R401) -/

section
variable {s : State} {u : Nat}

theorem birspi_serves {id : Nat} {a : Access} (found : s.accs.find? (fun kv => kv.2.snoops.contains (biasMark u)) = some (id, a)) :
    let b : Access := { a with snoops := [] }
    exec (.birspi u) s = .next (({ s with accs := amapInsert s.accs id b }.serve id b true (fun S => S.rowRead a.pa a.n a.key)
      fun S x => let S := (S.rowWrite a.pa a.n a.key x).unitStored b; if a.bad then S.setPoison (a.pa / 64) true else S)) := by
  rw [exec_birspi, execBirspi, found]

variable (none_ : s.accs = [])
include none_

theorem birspi_walks {S : State} (walk : s.walkSnooped u = some S) : exec (.birspi u) s = .next S := by
  rw [exec_birspi, execBirspi, none_]
  simp only [List.find?_nil, walk]

theorem birspi_flips (still : s.walkSnooped u = none) (busy : s.bias.busy = true) (waits : u ∈ s.bias.snoops) : exec (.birspi u) s =
    .next { s with bias := { s.bias with snoops := s.bias.snoops.filter (· ≠ u) } } := by
  rw [exec_birspi, execBirspi, none_]
  simp only [List.find?_nil, still, busy, List.contains_iff_mem.2 waits, Bool.and_self, if_true]

end

section
variable {s : State} {acc : Nat} {a : Access} (waits : s.hWaiting acc = some a)
include waits

theorem cxlCompletionTimeout_eq : exec (.cxlCompletionTimeout acc) s = .next ((if a.engine then s.finishAcc acc { a with bad := true } 0
    else s.failAcc acc a (poisonTrap a.va a.pa)).logEvent 4 a.core [a.va, a.pa]) := by
  rw [exec_cxlCompletionTimeout, execCxlCompletionTimeout, waits]

theorem hPathCompletion_eq (up : s.portUp a.pa = true) (data : List Byte) (poisoned : Bool) : exec (.hPathCompletion acc data poisoned) s = .next
    (if poisoned && !a.engine then s.failAcc acc a (poisonTrap a.va a.pa) else
      (if data.length = a.n then s.hPut a.pa a.n (bytesToNat data) else s).serve acc a true
        (fun S => (S.hGet a.pa a.n, poisoned || S.hBad a.pa, S)) fun S x =>
          let S := S.hPut a.pa a.n x
          if a.bad then S.hMark a.pa true else if a.whole then S.hMark a.pa false else S) := by
  rw [exec_hPathCompletion, execHPathCompletion, waits]
  simp only [up, Bool.not_true, Bool.false_eq_true, if_false]
  split_ifs <;> rfl

end

/-- Settles O50: each access by the bias of its page, each flip by its request, and each answer by what waits for it. -/
theorem hostMemoryEvents : Obligations.HostMemoryEvents := by
  unfold Obligations.HostMemoryEvents
  refine ⟨fun s pa => hostMemRead_eq, fun s pa data => hostMemWrite_eq, fun s v => biasflipGo_ignored, fun s v ready idle go => ?_,
    fun s busy quiet => ⟨s.flipWritten, rfl, rfl, rfl, biasFlipComplete_eq busy quiet⟩, fun s u id a => birspi_serves, fun s u S none_ => birspi_walks none_,
    fun s u => birspi_flips, fun s acc a waits => ⟨fun thread => ?_, fun engine => ?_, fun up => ⟨fun data thread => ?_, fun data poisoned own => ?_⟩⟩⟩
  · rw [biasflipGo_eq ready idle go]
    exact ⟨fun same => congrArg _ (if_pos same), fun other booked => congrArg _ ((if_neg other).trans (if_pos booked)),
      fun other free => ⟨s.flipBegun v, congrArg _ ((if_neg other).trans (if_neg (ne_true_of_eq_false free))), rfl, rfl, rfl, rfl⟩⟩
  · rw [cxlCompletionTimeout_eq waits, if_neg (ne_true_of_eq_false thread)]
  · rw [cxlCompletionTimeout_eq waits, if_pos engine]
  · rw [hPathCompletion_eq waits up, thread]
    rfl
  · have served : (poisoned && !a.engine) = false := by
      cases poisoned
      · rfl
      · rw [own rfl]; rfl
    rw [hPathCompletion_eq waits up, served]
    rfl

end Sys2Proof.Machine

namespace Sys2Proof.Machine

/-! ## The host's dispositions (R347, R351, R352, R356) -/

section
variable {s : State} {c q : Nat} {f : GbEntry → State}

theorem hostDispose_early (early : s.boot.ready = false) : hostDispose c q f s = .next s := by
  rw [hostDispose, early]
  rfl

theorem hostDispose_stale (ready : s.boot.ready = true) (stale : s.hostRecord c q = none) : hostDispose c q f s = .next s := by
  rw [hostDispose, ready, stale]
  rfl

theorem hostDispose_does {e : GbEntry} (ready : s.boot.ready = true) (held : s.hostRecord c q = some e) :
    hostDispose c q f s = .next (f e) := by
  rw [hostDispose, ready, held]
  rfl

/-- Each write of GBDISP is one disposal of the record that it names. -/
theorem gbdisp_eq_hostDispose {x : Instr} (write : x ∈ [Instr.hostResume c q, .hostResumeSkip c q, .hostKillt c q, .hostKilltG c q, .hostEndGrid c q]) :
    ∃ f, exec x s = hostDispose c q f s := by
  simp only [List.mem_cons, List.not_mem_nil, or_false] at write
  rcases write with rfl | rfl | rfl | rfl | rfl
  · exact ⟨_, rfl⟩
  · exact ⟨_, rfl⟩
  · exact ⟨_, rfl⟩
  · exact ⟨_, rfl⟩
  · exact ⟨_, rfl⟩

end

/-! ### Reads and patches through GBPK -/

section
variable {s : State} {c q sel op : Nat} {f : State → GbEntry → Option State}

theorem gbpkOp_early (early : s.boot.ready = false) : gbpkOp c q sel op f s = .next s := by
  simp only [gbpkOp, early, Bool.not_false, if_true]

variable (ready : s.boot.ready = true)
include ready

theorem gbpkOp_stale (stale : s.hostRecord c q = none) :
    gbpkOp c q sel op f s = .next (s.updCore c fun k => { k with gbpk := gbpkValue 1 op sel q }) := by
  simp only [gbpkOp, ready, stale, Bool.not_true, Bool.false_eq_true, if_false]

theorem gbpkOp_done {e : GbEntry} {S : State} (held : s.hostRecord c q = some e) (named : s.selOk e (sel % 512) = true) (did : f s e = some S) :
    gbpkOp c q sel op f s = .next (S.updCore c fun k => { k with gbpk := gbpkValue 0 op sel q }) := by
  simp only [gbpkOp, ready, held, named, did, Bool.not_true, Bool.false_eq_true, if_false, if_true]

end

/-- A read of a piece leaves it in GBPKV. -/
theorem gbpkRead_reads {s : State} {c q sel : Nat} {e : GbEntry} (ready : s.boot.ready = true) (held : s.hostRecord c q = some e)
    (named : s.selOk e (sel % 512) = true) :
    ∃ S : State, exec (.gbpkRead c q sel) s = .next (S.updCore c fun k => { k with gbpk := gbpkValue 0 0 sel q }) ∧
      (S.core c).gbpkv = BitVec.ofNat 32 (s.peekSel e (sel % 512)) := by
  rw [exec_gbpkRead, execGbpkRead, gbpkOp_done ready held named rfl]
  exact ⟨_, rfl, by rw [State.core_updCore, if_pos rfl]⟩

/-! ## The debugger's requests (R364 to R373) -/

theorem amapGet_map_holds {α : Type} {P : α → Prop} {d : α} {f : Nat → α → α} (m : AMap α) (k : Nat) (at_d : P d) (made : ∀ x, P (f k x)) :
    P (amapGet d (amapMap f m) k) := by
  rw [amapGet_eq_find, amapFind?_map]
  cases amapFind? m k with
  | none => exact at_d
  | some x => exact made x

/-- A change of the teams that leaves their groups leaves every register. -/
theorem sameRegs_of_groups {s S : State} (same : ∀ t, (S.team t).groups = (s.team t).groups) : SameRegs s S := by
  have group_ (t g : Nat) : S.group t g = s.group t g := congrArg (fun gs : AMap Group => (amapGet {} gs g : Group)) (same t)
  have thread_ (t g l : Nat) : S.thread t g l = s.thread t g l := congrArg (fun gr : Group => gr.thr l) (group_ t g)
  exact ⟨fun t g l n => congrArg (fun th : Thread => th.readV n) (thread_ t g l), fun t g l n => congrArg (fun th : Thread => th.readP n) (thread_ t g l),
    fun t g l => congrArg Thread.fpm (thread_ t g l), fun t g n => congrArg (fun gr : Group => gr.readS n) (group_ t g)⟩

/-- A new front of each queue changes no team and no cluster. -/
theorem forEach_markNext (l : List Nat) (s : State) :
    (forEach l s fun s q => s.markNext q).teams = s.teams ∧ (forEach l s fun s q => s.markNext q).clusters = s.clusters := by
  induction l generalizing s with
  | nil => exact ⟨rfl, rfl⟩
  | cons q l ih => exact ih (s.markNext q)

/-- A RESUME lifts a debugger's hold of the cluster: a team that it names is of it, resident or saved. -/
def State.dbgFrees (s : State) (sp tk c k : Nat) (x : Cluster) : Bool :=
  x.byDbg && ((s.dbgTeams sp tk c).any (fun t => (s.team t).cluster == k) ||
    (amapFind? s.saved k).any fun v => v.teams.any fun kv => s.dbgNames sp tk c kv.2)
/-- A RESUME lets the team go on. -/
def State.dbgResumes (s : State) (sp tk c t : Nat) (tm : Team) : Bool :=
  (s.dbgTeams sp tk c).contains t || s.dbgFrees sp tk c tm.cluster (s.cluster tm.cluster)

section
variable {s : State} {sp tk c t : Nat} (named : t ∈ s.dbgTeams sp tk c)
include named

theorem dbgResumes_named (tm : Team) : s.dbgResumes sp tk c t tm = true := by
  rw [State.dbgResumes, List.contains_iff_mem.2 named]
  rfl

theorem dbgFrees_named {x : Cluster} (by_ : x.byDbg = true) : s.dbgFrees sp tk c (s.team t).cluster x = true := by
  have holds : ((s.dbgTeams sp tk c).any fun u => (s.team u).cluster == (s.team t).cluster) = true := List.any_eq_true.2 ⟨t, named, beq_self_eq_true _⟩
  rw [State.dbgFrees, by_, holds]
  rfl

end

/-- What RESUME makes of the teams and the clusters. -/
theorem dbgreqResume_parts {s : State} {sp tk c : Nat} (ready : s.boot.ready = true) (on : s.dbgOn sp = true) :
    ∃ S : State, exec (.dbgreqResume sp tk c) s = .next S ∧
      S.teams = amapMap (fun t tm => if s.dbgResumes sp tk c t tm then { tm with stop := none } else tm) s.teams ∧
      S.clusters = amapMap (fun k x => if s.dbgFrees sp tk c k x then { x with byDbg := false } else x) s.clusters := by
  rw [exec_dbgreqResume, execDbgreqResume, ready, on]
  refine ⟨_, rfl, (forEach_markNext _ _).1.trans ?teams, (forEach_markNext _ _).2.trans ?clusters⟩
  case teams => split <;> rfl
  case clusters => split <;> rfl

/-- A debugger's RESUME: the named teams go on, their clusters are no debugger's, and no register changes. -/
theorem dbgreqResume_resumes {s : State} {sp tk c : Nat} (ready : s.boot.ready = true) (on : s.dbgOn sp = true) :
    ∃ S, exec (.dbgreqResume sp tk c) s = .next S ∧ SameRegs s S ∧ ∀ t ∈ s.dbgTeams sp tk c, (S.team t).stop = none ∧
      (S.cluster (s.team t).cluster).byDbg = false := by
  obtain ⟨S, run, teams, clusters⟩ := dbgreqResume_parts (tk := tk) (c := c) ready on
  refine ⟨S, run, sameRegs_of_groups fun t => ?_, fun t named => ⟨?_, ?_⟩⟩
  · rw [State.team, teams]
    exact amapGet_map_part Team.groups (fun t tm => by split_ifs <;> rfl) s.teams t
  · rw [State.team, teams]
    refine amapGet_map_holds (P := fun tm : Team => tm.stop = none) s.teams t rfl fun tm => ?_
    rw [dbgResumes_named named]
    rfl
  · rw [State.cluster, clusters]
    refine amapGet_map_holds (P := fun x : Cluster => x.byDbg = false) s.clusters _ rfl fun x => ?_
    cases by_ : x.byDbg with
    | true => rw [dbgFrees_named named by_]; rfl
    | false => split_ifs <;> simp [by_]

section
variable {s : State} {sp tk c : Nat}

/-- A request other than PREEMPT does nothing without a debugger. -/
theorem dbgreq_off (off : s.dbgOn sp = false) {x : Instr}
    (request : x ∈ [Instr.dbgreqStop sp tk c, .dbgreqResume sp tk c, .dbgreqStep sp tk c, .dbgreqDump sp tk c]) : exec x s = .next s := by
  simp only [List.mem_cons, List.not_mem_nil, or_false] at request
  rcases request with rfl | rfl | rfl | rfl
  · simp only [exec_dbgreqStop, execDbgreqStop, off, Bool.not_false, if_true, ite_self]
  · simp only [exec_dbgreqResume, execDbgreqResume, off, Bool.not_false, if_true, ite_self]
  · simp only [exec_dbgreqStep, execDbgreqStep, off, Bool.not_false, if_true, ite_self]
  · simp only [exec_dbgreqDump, execDbgreqDump, off, Bool.not_false, Bool.true_or, if_true, ite_self]

/-- A request does nothing before DEVREADY. -/
theorem dbgreq_early (early : s.boot.ready = false) {x : Instr} (request : x ∈ [Instr.dbgreqStop sp tk c, .dbgreqResume sp tk c,
    .dbgreqStep sp tk c, .dbgreqDump sp tk c, .dbgreqPreempt sp tk c]) : exec x s = .next s := by
  simp only [List.mem_cons, List.not_mem_nil, or_false] at request
  rcases request with rfl | rfl | rfl | rfl | rfl
  · simp only [exec_dbgreqStop, execDbgreqStop, early, Bool.not_false, if_true]
  · simp only [exec_dbgreqResume, execDbgreqResume, early, Bool.not_false, if_true]
  · simp only [exec_dbgreqStep, execDbgreqStep, early, Bool.not_false, if_true]
  · simp only [exec_dbgreqDump, execDbgreqDump, early, Bool.not_false, if_true]
  · simp only [exec_dbgreqPreempt, execDbgreqPreempt, early, Bool.not_false, if_true]

/-- No host write of this family does anything before DEVREADY. -/
theorem hostDebug_early (early : s.boot.ready = false) {q sel : Nat} {x : Instr} (write : x ∈ [Instr.dbgreqStop sp tk c, .dbgreqResume sp tk c,
    .dbgreqStep sp tk c, .dbgreqDump sp tk c, .dbgreqPreempt sp tk c, .hostResume c q, .hostResumeSkip c q, .hostKillt c q, .hostKilltG c q,
    .hostEndGrid c q, .gbpkRead c q sel, .gbpkWrite c q sel]) : exec x s = .next s := by
  rcases List.mem_append.1 (show x ∈ [Instr.dbgreqStop sp tk c, .dbgreqResume sp tk c, .dbgreqStep sp tk c, .dbgreqDump sp tk c,
    .dbgreqPreempt sp tk c] ++ ([Instr.hostResume c q, .hostResumeSkip c q, .hostKillt c q, .hostKilltG c q, .hostEndGrid c q] ++
      [Instr.gbpkRead c q sel, .gbpkWrite c q sel]) from write) with request | rest
  · exact dbgreq_early early request
  rcases List.mem_append.1 rest with disposal | gbpk
  · obtain ⟨f, is_⟩ := gbdisp_eq_hostDispose (s := s) disposal
    rw [is_, hostDispose_early early]
  · simp only [List.mem_cons, List.not_mem_nil, or_false] at gbpk
    rcases gbpk with rfl | rfl
    · rw [exec_gbpkRead, execGbpkRead, gbpkOp_early early]
    · rw [exec_gbpkWrite, execGbpkWrite, gbpkOp_early early]

/-! ### Requests that an attached debugger makes -/

section
variable (ready : s.boot.ready = true) (on : s.dbgOn sp = true)
include ready on

theorem dbgreqStop_eq : exec (.dbgreqStop sp tk c) s = .next (forEach (s.dbgTeams sp tk c) s fun s t => if (s.team t).stop.isSome then s else
    s.teamStop t 0 (((s.team t).groups.head?.map (·.1)).getD 0) []) := by
  simp only [exec_dbgreqStop, execDbgreqStop, ready, on, Bool.not_true, Bool.false_eq_true, if_false]

theorem dbgreqStep_eq : exec (.dbgreqStep sp tk c) s = .next (forEach (s.dbgTeams sp tk c) s fun s t =>
    s.updTeam t fun tm => { tm with stop := tm.stop.map fun x => { x with stepping := true } }) := by
  simp only [exec_dbgreqStep, execDbgreqStep, ready, on, Bool.not_true, Bool.false_eq_true, if_false]

theorem dbgreqDump_starts (idle : (s.space sp).dbg.getLsbD 58 = false) : exec (.dbgreqDump sp 0 c) s =
    .next ((s.updSpace sp fun x => { x with dbg := x.dbg ||| BitVec.ofNat 64 (2 ^ 58), dumped := false }).dumpDue sp c) := by
  simp only [exec_dbgreqDump, execDbgreqDump, ready, on, idle, Bool.not_true, Bool.not_false, ne_eq, not_true_eq_false, decide_false, Bool.or_self,
    Bool.false_eq_true, if_false, if_true]

section
variable (busy : (s.space sp).dbg.getLsbD 58 = true)
include busy

theorem dbgreqDump_waits (early : s.dumpReady sp = false) : exec (.dbgreqDump sp 0 c) s = .next (s.dumpDue sp c) := by
  simp only [exec_dbgreqDump, execDbgreqDump, ready, on, busy, early, Bool.not_true, Bool.not_false, ne_eq, not_true_eq_false, decide_false, Bool.or_self,
    Bool.false_eq_true, if_false, if_true]

theorem dbgreqDump_stops (may : s.dumpReady sp = true) (first_ : (s.space sp).dumped = false) :
    exec (.dbgreqDump sp 0 c) s = .next ((s.dumpTeams sp).dumpDue sp c) := by
  simp only [exec_dbgreqDump, execDbgreqDump, ready, on, busy, may, first_, Bool.not_true, Bool.not_false, ne_eq, not_true_eq_false, decide_false, Bool.or_self,
    Bool.false_eq_true, if_false, if_true]

variable (may : s.dumpReady sp = true) (stopped : (s.space sp).dumped = true) {S : State}
include may stopped

theorem dbgreqDump_capturing (more : s.capture sp = (false, S)) : exec (.dbgreqDump sp 0 c) s = .next (S.dumpDue sp c) := by
  simp only [exec_dbgreqDump, execDbgreqDump, ready, on, busy, may, stopped, more, Bool.not_true, ne_eq, not_true_eq_false, decide_false, Bool.or_self,
    Bool.false_eq_true, if_false]

theorem dbgreqDump_ends (all : s.capture sp = (true, S)) : exec (.dbgreqDump sp 0 c) s =
    .next (S.updSpace sp fun x => { x with dbg := x.dbg &&& ~~~ BitVec.ofNat 64 (2 ^ 58) }) := by
  simp only [exec_dbgreqDump, execDbgreqDump, ready, on, busy, may, stopped, all, Bool.not_true, ne_eq, not_true_eq_false, decide_false, Bool.or_self,
    Bool.false_eq_true, if_false]

end
end

/-! ### PREEMPT -/

theorem dbgreqPreempt_none (none_ : s.dbgTeams sp tk c = []) : exec (.dbgreqPreempt sp tk c) s = .next s := by
  rw [exec_dbgreqPreempt, execDbgreqPreempt, none_]
  exact ite_self _

/-- PREEMPT of one cluster whose teams are not stopping. -/
theorem dbgreqPreempt_one {k : Nat} (ready : s.boot.ready = true) (one : ((s.dbgTeams sp tk c).map fun t => (s.team t).cluster).eraseDups = [k])
    (runs : s.stopping ((s.residents k).headD 0) = false) : exec (.dbgreqPreempt sp tk c) s = .next
      (if (s.residents k).any fun t => (s.team t).preempt then s.updCluster k fun x => { x with byDbg := true }
        else if s.poolFits sp (s.residents k) then (s.preemptClusters [k]).updCluster k fun x => { x with byDbg := true } else s) := by
  rw [exec_dbgreqPreempt, execDbgreqPreempt]
  simp only [ready, one, Bool.not_true, Bool.false_eq_true, if_false, forEach, List.foldl_cons, List.foldl_nil, runs]

/-! ### Samples (R371) -/

theorem pcSample_eq {n : Nat} (some_ : s.sampling ≠ []) : exec (.pcSample c n) s = .next (forEach s.sampling s fun S m => S.sample m c n) := by
  rw [exec_pcSample, execPcSample, if_neg (mt List.isEmpty_iff.1 some_)]

end

/-- Settles O51: each disposal by its record, each request by its teams, a dump part by part. -/
theorem hostDebugEvents : Obligations.HostDebugEvents := by
  unfold Obligations.HostDebugEvents
  refine ⟨fun s c q ready stale => ⟨fun x write => ?stale, fun sel => ⟨?peekStale, ?patchStale⟩⟩,
    fun s c q e ready held => ⟨hostDispose_does ready held, fun S passed => ?skips, fun S waits => ?waits, hostDispose_does ready held,
      hostDispose_does ready held, hostDispose_does ready held, fun sel named =>
        ⟨gbpkRead_reads ready held named, fun S patched => ?patches⟩⟩,
    fun s sp tk c off x => dbgreq_off off, fun s sp tk c q sel early x => hostDebug_early early, fun s sp tk c ready on =>
      ⟨dbgreqStop_eq ready on, dbgreqStep_eq ready on, dbgreqResume_resumes ready on, dbgreqDump_starts ready on, dbgreqDump_waits ready on,
        dbgreqDump_stops ready on, fun S busy may stopped => ⟨dbgreqDump_capturing ready on busy may stopped, dbgreqDump_ends ready on busy may stopped⟩⟩,
    fun s sp tk c => dbgreqPreempt_none, fun s sp tk c k ready one runs => ?preempt, fun s c q => pcSample_eq, fun s => rfl⟩
  case stale =>
    obtain ⟨f, is_⟩ := gbdisp_eq_hostDispose (s := s) write
    rw [is_, hostDispose_stale ready stale]
  case skips =>
    rw [exec_hostResumeSkip, execHostResumeSkip, hostDispose_does ready held, passed]
  case waits =>
    rw [exec_hostResumeSkip, execHostResumeSkip, hostDispose_does ready held, waits]
  case peekStale => rw [exec_gbpkRead, execGbpkRead, gbpkOp_stale ready stale]
  case patchStale => rw [exec_gbpkWrite, execGbpkWrite, gbpkOp_stale ready stale]
  case patches => rw [exec_gbpkWrite, execGbpkWrite, gbpkOp_done ready held named patched]
  case preempt =>
    intro busy run
    have eq : run = _ := dbgreqPreempt_one ready one runs
    rw [eq]
    refine ⟨fun going => congrArg _ (if_pos going), fun still fits => ?_, fun still full => ?_⟩
    · rw [if_neg (ne_true_of_eq_false still), if_pos fits]
    · rw [if_neg (ne_true_of_eq_false still), if_neg (ne_true_of_eq_false full)]

end Sys2Proof.Machine
